-- ==== Sys2Proof/Word.lean ====
section
/-! DEFINITION. Word types of the SVX-192: the plain bit-vector synonyms the other files are written in. -/

namespace Sys2Proof

/-- A 64-bit scalar value (R28). -/
abbrev Word := BitVec 64

/-- A 32-bit lane value or instruction word (R2, R10). -/
abbrev Word32 := BitVec 32

/-- One byte. -/
abbrev Byte := BitVec 8

/-- One bit for each of the 128 lanes, lane i in bit i (R10). -/
abbrev Mask := BitVec 128

/-- The image of one vector register: 128 lanes of 32 bits (R10, R11). -/
abbrev VReg := Vector Word32 128

/-- A raw 7-bit scalar register field (R45). -/
abbrev SReg := BitVec 7

end Sys2Proof
end

