-- ==== Sys2Proof/Syntax.lean ====
section
/-! DEFINITION. Syntax of the SVX-192: the operand kinds of the two instruction streams, the operands of the events of
the part, and `Instr`, with one constructor for each row of the opcode table. -/

namespace Sys2Proof

/-! ## Operand kinds of instructions -/

/-- Privilege levels, least first (R307). -/
inductive Level | user | super | mach
  deriving DecidableEq, Repr

/-- S.B conditions (R48). -/
inductive Cond | eqz | nez | ltz | gez | gtz | lez | always
  deriving DecidableEq, Repr

/-- Life hints of vector sources (R17). -/
inductive Hint | keep | last | rest
  deriving DecidableEq, Repr

/-- Element types in the order of their codes 0 to 10 (R28, R30, R62). -/
inductive ElemType | s32 | n32 | s16x2 | n16x2 | s8x4 | n8x4 | f32 | f16x2 | bf16x2 | e4m3x4 | e5m2x4
  deriving DecidableEq, Repr

/-- Rounding modes in the order of their codes 0 to 3 (R34). -/
inductive Rnd | rne | rtz | rdn | rup
  deriving DecidableEq, Repr

/-- Orders of an access in the order of their codes (R191). -/
inductive Order | rlx | acq | rel | acqrel
  deriving DecidableEq, Repr

/-- Scopes in the order of their codes (R190). -/
inductive Scope | grp | team | gang | dev | sys
  deriving DecidableEq, Repr

/-- Kinds of symmetric fence in the order of their codes (R52). -/
inductive FenceKind | acq | rel | acqrel | sc
  deriving DecidableEq, Repr

/-- In-flight counters in the order of WAITR's path codes (R53, R196). -/
inductive Counter | ld | st | cp | mx | rs
  deriving DecidableEq, Repr

/-- Scalar atomic operations, codes 1 to 11 (R201). -/
inductive AtomOp | swap | cas | add | and | or | xor | min | max | minn | maxn | inc
  deriving DecidableEq, Repr

/-- Sizes and extensions of scalar loads, codes 0 to 6 (R50). -/
inductive LdSize | s8 | s16 | s32 | d64 | n8 | n16 | n32
  deriving DecidableEq, Repr

/-- Sizes of scalar stores, codes 8 to 11 (R50). -/
inductive StSize | b8 | b16 | b32 | b64
  deriving DecidableEq, Repr

/-- Sizes of SPACC atomics: sub 2, 3 and 6 (R203). -/
inductive AtSize | s32 | d64 | n32
  deriving DecidableEq, Repr

/-- Copy directions, codes 0 to 5 (R256). -/
inductive CopyDir | g2g | g2s | s2g | s2s | g2w | s2w
  deriving DecidableEq, Repr

/-- Bank states named by SPHINT, codes 0 to 2 (R185). -/
inductive BankHint | full | ret | off
  deriving DecidableEq, Repr

/-- Page sizes named by MAPPG, codes 0 to 2 (R249). -/
inductive PageSize | k4 | k64 | m2
  deriving DecidableEq, Repr

/-- The guard of an L-stream instruction: predicate number and negation (R61). -/
structure Guard where
  p   : BitVec 3
  neg : Bool
  deriving DecidableEq, Repr

/-- A vector source field with its life hint (R17). -/
structure VSrc where
  r    : BitVec 8
  hint : Hint
  deriving DecidableEq, Repr

/-- What the kind field kc makes of source c (R59). The imm32 of kind 01 is word2. -/
inductive CSrc
  | vec (r : BitVec 8) (hint : Hint)
  | imm
  | dq
  | kreg (n : BitVec 4)
  deriving DecidableEq, Repr

/-- The fields of an L-stream instruction that its opcode does not fix (R58 to R63). Field `vd` holds the destination
register or, for the predicate writers, the destination predicate. -/
structure LOp where
  g    : Guard
  ty   : ElemType
  rnd  : BitVec 2
  mods : BitVec 6
  vd   : BitVec 8
  a    : VSrc
  b    : VSrc
  c    : CSrc
  w2   : Word32
  deriving DecidableEq, Repr

/-! ## Operands of the events of the part -/

/-- A compactor move: a group's register run to a new first block, or a team's window to a new first bank (R169). -/
inductive MoveSpec
  | regs (uid newFirst : Nat)
  | window (team newBase : Nat)
  deriving DecidableEq, Repr

/-- A TLB of the device (R242). -/
inductive TlbSel
  | core (c : Nat)
  | quad (q : Nat)
  | ahead (c : Nat)
  deriving DecidableEq, Repr

/-- Physical errors a wave may meet in the array and its bank: the 8-byte word of the slot whose parity fails, and an uncorrectable
word of the row (R289). -/
structure WaveErr where
  slotPar : Option (BitVec 10)
  accEcc  : Bool
  deriving DecidableEq, Repr

/-- A sealed packet as it reaches a port (R363): its flow, its number, its ciphertext and its tag. -/
structure Packet where
  flow : Word32
  seq  : Nat
  ct   : List Byte
  tag  : List Byte
  deriving DecidableEq, Repr

/-- A packet of an access of a group, on its way to the target or back (R363, R364). -/
structure NocPacket where
  pkt : Packet
  uid : Nat
  acc : Nat
  deriving DecidableEq, Repr

/-- An atomic that arrives from a remote device (R372, R382): a scalar operation or a lane operation on an element type,
its size and operands, and its agent and virtual address as the trail names them (R383). -/
structure RemoteAtomic where
  scalar : Option AtomOp
  op     : BitVec 3
  ty     : ElemType
  size   : Nat
  data   : Word
  cmp    : Word
  va     : Word
  l      : Bool
  lane   : Nat
  rank   : Nat
  gang   : Nat
  grid   : Word32
  ctx    : Nat
  deriving DecidableEq, Repr

/-- What a remote device asks for: a read of so many bytes, a write of bytes, or an atomic. -/
inductive RemoteOp
  | read (n : Nat)
  | write (data : List Byte)
  | atomic (a : RemoteAtomic)
  deriving DecidableEq, Repr

/-- An access that arrives from a remote device through a fabric port (R372): the port, the packet that carries it, the
sender's pod partition and world, the physical address, and what it asks for. -/
structure RemoteAccess where
  port    : Nat
  pkt     : Packet
  podPart : Word32
  world   : Byte
  pa      : Nat
  op      : RemoteOp
  deriving DecidableEq, Repr

/-- What the governor measures or predicts for a window (R393, R394, R398), in watts: board power, platform power, the
predicted power of each core at each point (core-major, 3,072 entries), that of each compute domain at each point
(quadrant-major, 64 entries), the bandwidth demand of each stacked domain in percent (domains 4 to 23), and the corrected
errors met in each of the 24 domains during the window (R402). -/
structure GovInput where
  board    : Nat
  platform : Nat
  cores    : List Nat
  predict  : List Nat
  stacked  : List Nat
  corrected : List Nat
  deriving DecidableEq, Repr

/-- An uncorrectable error as its unit meets it (R403): the unit that held the word (register 0, scratchpad 1, accumulator 2,
slot 3, slice SRAM 4, DRAM 5), where it stood, its DRAM layer, and, for the first four, the context whose word it was. -/
structure ErrInput where
  unit  : Nat
  addr  : Word
  layer : Nat
  ctx   : Option (BitVec 16)
  deriving DecidableEq, Repr

/-- A register named by a write that has no row of its own (R5): a special register number as a group at MACH level
writes it, an offset of the management block (R410), or the fault policy that machine firmware forces on a partition (R163). -/
inductive RegSel
  | sr (num : BitVec 12)
  | mgmt (off : Nat)
  | policy (part : Nat)
  deriving DecidableEq, Repr

/-- The fault of an instruction fetch (R56 step 1): code, cause, faulting address and, for POISON, physical address. -/
structure FetchFault where
  code  : Byte
  cause : Byte
  addr  : Word
  pa    : Word
  deriving DecidableEq, Repr

/-- Where a host access goes: the function of the link that it comes through (R369), and the physical address. -/
structure HostAt where
  fn : Nat
  pa : Nat
  deriving DecidableEq, Repr

/-- A root grid as submitted through the management interface (R145): the function of the link that asks (R369), its context, the
quadrant whose store takes it, the address of its launch record, whether it is a supervisor grid (R307), and the source number of R1. -/
structure RootGrid where
  fn   : Nat
  ctx  : Nat
  quad : Nat
  addr : Word
  sup  : Bool
  src  : Nat
  deriving DecidableEq, Repr

/-! ## Instructions and events -/

/-- The rows of the opcode table: the instructions of the S-stream, those of the L-stream, and the events of the part. -/
inductive Instr
  /-- NOP (R318). SYS form that has no effect. -/
  | nop
  /-- TRAPFENCE (R26). Waits as SJOIN does, then faults ARITH when FLAGS AND FMASK is non-zero. -/
  | trapfence
  /-- BKPT (R318). Stops for an attached debug port with breakpoints on, or otherwise enters vector 0x1C. -/
  | bkpt
  /-- SYSCALL (R318). Waits as SJOIN does and enters vector 0x1B, with hs1 set to the value of sa. -/
  | syscall (a : SReg)
  /-- RETF (R319). Leaves handler mode: restores the banked L state, resumes both streams (with replay where it applies) and dispatches held stops. -/
  | retf
  /-- HALT (R318). Waits as EXIT does, ends the group and writes a halt event to the machine event log. -/
  | halt
  /-- ADD (R74). Writes a + b to sd, wrapping. -/
  | add (d a b : SReg)
  /-- SUB (R74). Writes a - b to sd, wrapping. -/
  | sub (d a b : SReg)
  /-- MUL (R74). Writes the low 64 bits of the signed product, setting IO on overflow. -/
  | mul (d a b : SReg)
  /-- MULH (R74). Writes the high 64 bits of the signed 128-bit product. -/
  | mulh (d a b : SReg)
  /-- MULHN (R74). Writes the high 64 bits of the natural 128-bit product. -/
  | mulhn (d a b : SReg)
  /-- DIV (R75). Writes the signed quotient, truncated toward zero, with the special cases of R75. -/
  | div (d a b : SReg)
  /-- DIVN (R75). Writes the natural quotient, with the special cases of R75. -/
  | divn (d a b : SReg)
  /-- REM (R75). Writes the signed remainder, which takes the sign of the dividend. -/
  | rem (d a b : SReg)
  /-- REMN (R75). Writes the natural remainder. -/
  | remn (d a b : SReg)
  /-- AND (R74). Writes a AND b. -/
  | and (d a b : SReg)
  /-- OR (R74). Writes a OR b. -/
  | or (d a b : SReg)
  /-- XOR (R74). Writes a XOR b. -/
  | xor (d a b : SReg)
  /-- ANDN (R74). Writes a AND NOT b. -/
  | andn (d a b : SReg)
  /-- SHL (R74). Shifts a left by b[5:0], with zeros in. -/
  | shl (d a b : SReg)
  /-- SHR (R74). Shifts a right by b[5:0], with zeros in. -/
  | shr (d a b : SReg)
  /-- SRA (R74). Shifts a right by b[5:0], with copies of bit 63 in. -/
  | sra (d a b : SReg)
  /-- ROTR (R74). Rotates a right by b[5:0]. -/
  | rotr (d a b : SReg)
  /-- MIN (R74). Writes the smaller of a and b, read as signed values. -/
  | min (d a b : SReg)
  /-- MAX (R74). Writes the larger of a and b, read as signed values. -/
  | max (d a b : SReg)
  /-- MINN (R74). Writes the smaller of a and b, read as natural values. -/
  | minn (d a b : SReg)
  /-- MAXN (R74). Writes the larger of a and b, read as natural values. -/
  | maxn (d a b : SReg)
  /-- CLZ (R74). Writes the number of leading zero bits of a. -/
  | clz (d a : SReg)
  /-- POPC (R74). Writes the number of one bits of a. -/
  | popc (d a : SReg)
  /-- SLT (R74). Writes 1 when a < b as signed values, else 0. -/
  | slt (d a b : SReg)
  /-- SLTN (R74). Writes 1 when a < b as natural values, else 0. -/
  | sltn (d a b : SReg)
  /-- SEQ (R74). Writes 1 when a = b, else 0. -/
  | seq (d a b : SReg)
  /-- SNE (R74). Writes 1 when a ≠ b, else 0. -/
  | sne (d a b : SReg)
  /-- SEL (R74). Writes a when the old value of sd is non-zero, else b. -/
  | sel (d a b : SReg)
  /-- ADDI (R76). Writes a plus the sign-extended imm12 to sd. -/
  | addi (d a : SReg) (imm : BitVec 12)
  /-- ANDI (R76). Writes a AND the sign-extended imm12 to sd. -/
  | andi (d a : SReg) (imm : BitVec 12)
  /-- ORI (R76). Writes a OR the sign-extended imm12 to sd. -/
  | ori (d a : SReg) (imm : BitVec 12)
  /-- XORI (R76). Writes a XOR the sign-extended imm12 to sd. -/
  | xori (d a : SReg) (imm : BitVec 12)
  /-- SHLI (R76). Shifts a left by a natural count of 0-63. -/
  | shli (d a : SReg) (n : BitVec 6)
  /-- SHRI (R76). Shifts a right by a natural count of 0-63, with zeros in. -/
  | shri (d a : SReg) (n : BitVec 6)
  /-- SRAI (R76). Shifts a right arithmetically by a natural count of 0-63. -/
  | srai (d a : SReg) (n : BitVec 6)
  /-- SLTI (R76). Writes 1 when a < the sign-extended immediate, read as signed values, else 0. -/
  | slti (d a : SReg) (imm : BitVec 12)
  /-- LUI (R77). Writes sign-extend(imm19 << 13) to sd. -/
  | lui (d : SReg) (imm : BitVec 19)
  /-- LI (R54). Writes the sign-extended word1 to sd. -/
  | li (d : SReg) (imm : Word32)
  /-- LI_HI (R54). Writes word1 to sd[63:32] and leaves sd[31:0] unchanged. -/
  | liHi (d : SReg) (imm : Word32)
  /-- B (R78). Branches to S-PC + 4 * off16 when the condition on sa holds. -/
  | b (cond : Cond) (a : SReg) (off : BitVec 16)
  /-- J (R79). Jumps to S-PC + 4 * off26. -/
  | j (off : BitVec 26)
  /-- CALL (R79). Writes the link to s95 and jumps to S-PC + 4 * off26. -/
  | call (off : BitVec 26)
  /-- JR (R80). Jumps to the value of sa, faulting ALIGN on a misaligned target. -/
  | jr (a : SReg)
  /-- RET (R80). Jumps to the value of s95. -/
  | ret
  /-- CALLR (R80). Reads sa, writes the link to s95 and jumps to the value read. -/
  | callr (a : SReg)
  /-- LOOP (R81). Decrements sa and branches while the result is non-zero. -/
  | loop (a : SReg) (off : BitVec 16)
  /-- LRUN (R83). Appends a block entry to the DQ, stalling while the DQ is full. -/
  | lrun (off : BitVec 19)
  /-- DQPUT (R84). Appends the value of sa to the DQ, stalling while the DQ is full. -/
  | dqput (a : SReg)
  /-- RQGET (R85). Waits for a value in the RQ, pops it and writes it to sd. -/
  | rqget (d : SReg)
  /-- RQGET_TRY (R85). Pops an RQ value when one is present and writes the status OK or EMPTY to sa. -/
  | rqgetTry (d a : SReg)
  /-- SJOIN (R86). Waits until the L-stream is idle and the DQ holds no block entry. -/
  | sjoin
  /-- BAR (R151). Waits as SJOIN does and arrives at a round of the innermost team's barrier. -/
  | bar
  /-- GBAR (R151). Waits as SJOIN does and arrives at a round of the gang barrier. -/
  | gbar
  /-- TVOTE_ANY (R151). Arrives at a team round and receives 1 when any value is non-zero. -/
  | tvoteAny (d a : SReg)
  /-- TVOTE_ALL (R151). Arrives at a team round and receives 1 when every value is non-zero. -/
  | tvoteAll (d a : SReg)
  /-- TVOTE_SUM (R151). Arrives at a team round and receives the wrapping sum of the values. -/
  | tvoteSum (d a : SReg)
  /-- TRET (R161). Finishes the group's callee and waits for its sub-team to finish, then takes a deferred callee or waits for the rejoin. -/
  | tret
  /-- EXIT (R154). Waits for the L-stream to go idle and for st to reach 0, then ends the group. -/
  | exit
  /-- TCALL (R157). Reads a callee table and arrives at a team round that divides the team among the callees. -/
  | tcall (d a : SReg) (n : BitVec 4) (sp : Bool)
  /-- LAUNCH (R145). Reads a launch record and enqueues a child grid, or writes status INVALID or FULL. -/
  | launch (d a : SReg)
  /-- LAUNCH_W (R145). As LAUNCH, but waits for a free entry in the store instead of returning FULL. -/
  | launchW (d a : SReg)
  /-- LWAIT (R144). Waits until the quadrant's pending-launch store has a free entry. -/
  | lwait
  /-- LD_S8 (R88). Loads a byte and sign-extends it. -/
  | ldS8 (d a : SReg) (imm : BitVec 12)
  /-- LD_S16 (R88). Loads 2 bytes and sign-extends them. -/
  | ldS16 (d a : SReg) (imm : BitVec 12)
  /-- LD_S32 (R88). Loads 4 bytes and sign-extends them. -/
  | ldS32 (d a : SReg) (imm : BitVec 12)
  /-- LD_64 (R88). Loads 8 bytes. -/
  | ld64 (d a : SReg) (imm : BitVec 12)
  /-- LD_N8 (R88). Loads a byte and zero-extends it. -/
  | ldN8 (d a : SReg) (imm : BitVec 12)
  /-- LD_N16 (R88). Loads 2 bytes and zero-extends them. -/
  | ldN16 (d a : SReg) (imm : BitVec 12)
  /-- LD_N32 (R88). Loads 4 bytes and zero-extends them. -/
  | ldN32 (d a : SReg) (imm : BitVec 12)
  /-- ST_8 (R89). Stores sd[7:0]. -/
  | st8 (d a : SReg) (imm : BitVec 12)
  /-- ST_16 (R89). Stores sd[15:0]. -/
  | st16 (d a : SReg) (imm : BitVec 12)
  /-- ST_32 (R89). Stores sd[31:0]. -/
  | st32 (d a : SReg) (imm : BitVec 12)
  /-- ST_64 (R89). Stores sd[63:0]. -/
  | st64 (d a : SReg) (imm : BitVec 12)
  /-- LDO (R200). Scalar load with an order and a scope. -/
  | ldo (sz : LdSize) (ord : Order) (sc : Scope) (d a : SReg) (disp : BitVec 16)
  /-- STO (R200). Scalar store with an order and a scope. -/
  | sto (sz : StSize) (ord : Order) (sc : Scope) (d a : SReg) (disp : BitVec 16)
  /-- SATOM (R202). Indivisible scalar read-modify-write on global memory, writing the old value to sd. -/
  | satom (op : AtomOp) (w64 : Bool) (ord : Order) (sc : Scope) (d a b : SReg) (disp : BitVec 16)
  /-- SPACC_LOAD (R203). Scalar load from a local (scratchpad) address, own or peer. -/
  | spaccLoad (sz : LdSize) (ord : Order) (sc : Scope) (d a : SReg) (disp : BitVec 16)
  /-- SPACC_STORE (R203). Scalar store to a local (scratchpad) address, own or peer. -/
  | spaccStore (sz : StSize) (ord : Order) (sc : Scope) (d a : SReg) (disp : BitVec 16)
  /-- SPACC_ATOMIC (R203). Scalar atomic on a local (scratchpad) address. -/
  | spaccAtomic (sz : AtSize) (op : AtomOp) (ord : Order) (sc : Scope) (d a b : SReg) (disp : BitVec 16)
  /-- FENCE (R208). Symmetric fence that holds later accesses of the S-stream until earlier ones are performed at the scope. -/
  | fence (k : FenceKind) (sc : Scope)
  /-- FENCE_OWN (R209). Local SC fence at GRP scope that pairs with FENCE.REM. -/
  | fenceOwn
  /-- FENCE_REM (R210). SC fence that sends a drain request to every group in the scope and waits for their acknowledgements. -/
  | fenceRem (sc : Scope)
  /-- MWAIT (R212). Reads a doubleword and sleeps while it equals the compare value, until a write to the line or a timeout. -/
  | mwait (ord : Order) (sc : Scope) (d a b : SReg) (tmo : BitVec 27)
  /-- QTAKE (R214). Indivisibly takes the head entry of a work queue, or returns 0 when it is empty. -/
  | qtake (sc : Scope) (d a : SReg)
  /-- QPUT (R214). Indivisibly appends a value at the queue tail, or returns FULL. -/
  | qput (sc : Scope) (d a b : SReg)
  /-- CPY (R261). Checks and registers a copy command in the direction its sub names, taking two range locks. -/
  | cpy (dir : CopyDir) (d a b : SReg) (k : BitVec 4) (tag : BitVec 4)
  /-- WLOAD (R296). Checks and registers a command that loads a weight tile and its scales from the tag's weight buffer region into its slot. -/
  | wload (tag : BitVec 4) (fmt : Byte) (blen : BitVec 2) (b128 : Bool) (a b : SReg)
  /-- WAITC (R198). Waits until each of ld, st, cp and mx is at or below its threshold. -/
  | waitc (ld st cp mx : Byte)
  /-- WAITR (R198). Waits until one chosen counter is at or below the value in sa. -/
  | waitr (p : Counter) (a : SReg)
  /-- SPHINT (R185). Sets the supply state of a range of window banks. -/
  | sphint (st : BankHint) (a b : SReg)
  /-- STEP_BEGIN (R396). Takes a free step entry with a deadline and an estimate, and returns its handle. -/
  | stepBegin (d a b : SReg)
  /-- STEP_PROG (R396). Reports the cumulative work done on a step. -/
  | stepProg (d a b : SReg)
  /-- STEP_END (R396). Frees a step entry and returns its slack. -/
  | stepEnd (d a : SReg)
  /-- RDSR (R82). Reads a special register into sd, under the access checks of R23. -/
  | rdsr (d : SReg) (num : BitVec 12)
  /-- WRSR (R82). Writes the value of sa to a special register, field by field. -/
  | wrsr (a : SReg) (num : BitVec 12)
  /-- TAGSET (R325). Writes a tag's owner, bank, slot and quantum and makes it ACTIVE, or returns a refusal status. -/
  | tagset (d a : SReg)
  /-- TAGKILL (R326). Begins the removal of a tag by making it DYING. -/
  | tagkill (d a : SReg)
  /-- CTXSAVE (R340). Raises the save counter and writes the sealed image of a HALTED context, freeing it with .FREE. -/
  | ctxsave (free : Bool) (d a b : SReg) (ctx : BitVec 12)
  /-- CTXLOAD (R341). Checks an image against the counter and its tags, places it and installs the context as HALTED. -/
  | ctxload (d a : SReg) (ctx : BitVec 12)
  /-- MAPPG_MAP (R249). Writes a given leaf entry when the entry at the leaf level is invalid. -/
  | mappgMap (sz : PageSize) (d a b : SReg)
  /-- MAPPG_POOL (R249). Pops a frame from the pool, zero-fills it and maps it as a 4 KiB leaf. -/
  | mappgPool (d a b : SReg)
  /-- MAPPG_UNMAP (R249). Clears V of a leaf and waits for the invalidation of its range to complete. -/
  | mappgUnmap (sz : PageSize) (d a : SReg)
  /-- PRIVQ_TAKE (R327). Removes the oldest handle from the context's replay list. -/
  | privqTake (d : SReg)
  /-- PRIVQ_RESUME (R327). Makes a descheduled group enter its handler. -/
  | privqResume (d a : SReg)
  /-- PRIVQ_END (R327). Ends the grid of a descheduled group with outcome ENDED. -/
  | privqEnd (d a : SReg)
  /-- VADD (R95). Adds per element, wrapping. -/
  | vadd (o : LOp)
  /-- VSUB (R95). Subtracts per element, wrapping. -/
  | vsub (o : LOp)
  /-- VMUL (R95). Multiplies per element, keeping the low bits. -/
  | vmul (o : LOp)
  /-- VMULH (R95). Writes the high half of each element's product. -/
  | vmulh (o : LOp)
  /-- VMAD (R95). Writes a * b + c per element, wrapping. -/
  | vmad (o : LOp)
  /-- VADDS (R95). Adds per element with saturation. -/
  | vadds (o : LOp)
  /-- VSUBS (R95). Subtracts per element with saturation. -/
  | vsubs (o : LOp)
  /-- VABSD (R95). Writes the absolute difference per element. -/
  | vabsd (o : LOp)
  /-- VMIN (R95). Writes the smaller element, signed or natural by type. -/
  | vmin (o : LOp)
  /-- VMAX (R95). Writes the larger element, signed or natural by type. -/
  | vmax (o : LOp)
  /-- VAND (R95). Bitwise AND. -/
  | vand (o : LOp)
  /-- VOR (R95). Bitwise OR. -/
  | vor (o : LOp)
  /-- VXOR (R95). Bitwise XOR. -/
  | vxor (o : LOp)
  /-- VANDN (R95). Bitwise a AND NOT c. -/
  | vandn (o : LOp)
  /-- VNOT (R95). Bitwise NOT. -/
  | vnot (o : LOp)
  /-- VSHL (R95). Shifts each element left. -/
  | vshl (o : LOp)
  /-- VSHR (R95). Shifts each element right logically. -/
  | vshr (o : LOp)
  /-- VSRA (R95). Shifts each element right arithmetically. -/
  | vsra (o : LOp)
  /-- VROTR (R95). Rotates each element right. -/
  | vrotr (o : LOp)
  /-- VCLZ (R95). Counts leading zero bits per element. -/
  | vclz (o : LOp)
  /-- VPOPC (R95). Counts one bits per element. -/
  | vpopc (o : LOp)
  /-- VBREV (R95). Reverses the bits of each element. -/
  | vbrev (o : LOp)
  /-- VDIV (R96). Divides per element under the divide function of R75. -/
  | vdiv (o : LOp)
  /-- VREM (R96). Writes the remainder per element under the divide function of R75. -/
  | vrem (o : LOp)
  /-- VDOT4 (R97). Adds a four-way 8-bit dot product to a 32-bit value per lane. -/
  | vdot4 (o : LOp)
  /-- VSEL (R98). Selects a or c per lane by a predicate. -/
  | vsel (o : LOp)
  /-- VMOV (R95). Copies c. -/
  | vmov (o : LOp)
  /-- VIDX (R95). Writes the lane number plus c. -/
  | vidx (o : LOp)
  /-- VBFX (R99). Extracts a bit field per lane. -/
  | vbfx (o : LOp)
  /-- VBFI (R99). Inserts a bit field into vd per lane. -/
  | vbfi (o : LOp)
  /-- VFADD (R100). Floating-point add, rounded once. -/
  | vfadd (o : LOp)
  /-- VFSUB (R100). Floating-point subtract, rounded once. -/
  | vfsub (o : LOp)
  /-- VFMUL (R100). Floating-point multiply, rounded once. -/
  | vfmul (o : LOp)
  /-- VFMA (R100). Fused a * b + c, rounded once. -/
  | vfma (o : LOp)
  /-- VFMS (R100). Fused a * b - c, rounded once. -/
  | vfms (o : LOp)
  /-- VFNMA (R100). Fused -(a * b) + c, rounded once. -/
  | vfnma (o : LOp)
  /-- VFMIN (R101). Floating-point minimum, with -0 ordered below +0. -/
  | vfmin (o : LOp)
  /-- VFMAX (R101). Floating-point maximum. -/
  | vfmax (o : LOp)
  /-- VFABS (R101). Clears the sign bit. -/
  | vfabs (o : LOp)
  /-- VFNEG (R101). Inverts the sign bit. -/
  | vfneg (o : LOp)
  /-- VFDIV (R100). Floating-point divide, rounded once. -/
  | vfdiv (o : LOp)
  /-- VFSQRT (R100). Floating-point square root, rounded once. -/
  | vfsqrt (o : LOp)
  /-- VFRSQ (R102). Correctly rounded reciprocal square root. -/
  | vfrsq (o : LOp)
  /-- VFEX2 (R102). Correctly rounded 2^c. -/
  | vfex2 (o : LOp)
  /-- VFLG2 (R102). Correctly rounded log2 c. -/
  | vflg2 (o : LOp)
  /-- VFSINP (R102). Correctly rounded sin(π * c). -/
  | vfsinp (o : LOp)
  /-- VFCOSP (R102). Correctly rounded cos(π * c). -/
  | vfcosp (o : LOp)
  /-- VFRND (R101). Rounds to an integral value by the rounding field. -/
  | vfrnd (o : LOp)
  /-- VFCLASS (R103). Writes a class mask per element. -/
  | vfclass (o : LOp)
  /-- VFSCALE (R103). Writes a * 2^n, rounded once. -/
  | vfscale (o : LOp)
  /-- VCVT (R104). Converts each element between formats with the same element count. -/
  | vcvt (o : LOp)
  /-- VPACK (R105). Converts two sources into elements of half the width. -/
  | vpack (o : LOp)
  /-- VUNPK (R106). Converts half the source elements into elements of twice the width. -/
  | vunpk (o : LOp)
  /-- VQNT (R107). Quantises a scaled F32 value into one element of a narrow type. -/
  | vqnt (o : LOp)
  /-- VDQNT (R108). Dequantises one narrow element times a scale to F32. -/
  | vdqnt (o : LOp)
  /-- VCMP (R109). Integer compare into a predicate. -/
  | vcmp (o : LOp)
  /-- VFCMP (R109). Floating-point compare into a predicate. -/
  | vfcmp (o : LOp)
  /-- PLOGIC (R110). Logic operation on predicates. -/
  | plogic (o : LOp)
  /-- PSET (R110). Sets a predicate from c by mode. -/
  | pset (o : LOp)
  /-- PFIRST (R110). Keeps only the lowest selected lane of a predicate. -/
  | pfirst (o : LOp)
  /-- VSHFL (R111). Shuffles lanes by index, xor, up or down. -/
  | vshfl (o : LOp)
  /-- VROTL (R111). Rotates lanes by a uniform amount. -/
  | vrotl (o : LOp)
  /-- VBCL (R111). Broadcasts one lane. -/
  | vbcl (o : LOp)
  /-- VRED (R112). Tree reduction over the selected lanes. -/
  | vred (o : LOp)
  /-- VSCAN (R112). Sequential scan over the selected lanes. -/
  | vscan (o : LOp)
  /-- VCOMP (R113). Compacts the selected lanes into the low lanes. -/
  | vcomp (o : LOp)
  /-- BDIV (R126). Splits a path by a predicate, pushing a JOIN entry and parking any other path. -/
  | bdiv (o : LOp)
  /-- JOIN (R127). A path reaches a join point and dissolves when it matches the top region. -/
  | join (o : LOp)
  /-- BLOOP (R129). Closes a loop, sending lanes with the predicate clear to the exit. -/
  | bloop (o : LOp)
  /-- LEND (R132). Ends the block when the group is converged, or otherwise opens or joins an LEND hold. -/
  | lend (o : LOp)
  /-- LKILL (R131). Retires the lanes of the path where the predicate is 1. -/
  | lkill (o : LOp)
  /-- VBAR (R132). Reconvergence barrier: completes when the group is converged, or otherwise holds the path. -/
  | vbar (o : LOp)
  /-- VOTE (R136). Appends a vote of the active lanes to the RQ. -/
  | vote (o : LOp)
  /-- RPUT (R137). Appends one 64-bit value to the RQ. -/
  | rput (o : LOp)
  /-- BUNI (R130). Uniform branch, faulting NOTUNI when the predicate is not uniform. -/
  | buni (o : LOp)
  /-- VLD (R118). Lane load from global memory, with per-lane faults. -/
  | vld (o : LOp)
  /-- VST (R118). Lane store to global memory. -/
  | vst (o : LOp)
  /-- VLDSP (R204). Lane load from local addresses. -/
  | vldsp (o : LOp)
  /-- VSTSP (R204). Lane store to local addresses. -/
  | vstsp (o : LOp)
  /-- VATOM (R206). Lane atomic on global memory at DEV scope. -/
  | vatom (o : LOp)
  /-- VATOMSP (R206). Lane atomic on local addresses at GANG scope. -/
  | vatomsp (o : LOp)
  /-- VLDBLK (R120). Loads N consecutive whole register images. -/
  | vldblk (o : LOp)
  /-- VSTBLK (R120). Stores N consecutive whole register images. -/
  | vstblk (o : LOp)
  /-- VPREF (R207). Prefetches lines into the slice or fills the TLB, with no visible effect. -/
  | vpref (o : LOp)
  /-- VFENCE (R211). Fence on the accesses of the issuing path. -/
  | vfence (o : LOp)
  /-- MMA (R293). Checks and queues M matrix waves of A rows against a tag. -/
  | mma (o : LOp)
  /-- MDRAIN (R298). Registers the drain of bank rows into vector registers. -/
  | mdrain (o : LOp)
  /-- MDRSP (R298). Registers the drain of bank rows into scratchpad. -/
  | mdrsp (o : LOp)
  /-- MZERO (R300). Registers the zeroing of bank rows of a tag. -/
  | mzero (o : LOp)
  /-- VLIFE (R116). Sets the life states of a range of registers. -/
  | vlife (o : LOp)
  /-- VNOP (R117). No effect. -/
  | vnop (o : LOp)
  /-- VWAITC (R198). Holds the path until the five counters are at or below their thresholds. -/
  | vwaitc (o : LOp)
  /-- KPOP (R114). Pops the DQ into a k register, plus an optional second operand. -/
  | kpop (o : LOp)
  /-- KFROM (R115). Copies lane 0 (or lanes 1:0) of a vector into a k register. -/
  | kfrom (o : LOp)
  /-- ILLEGAL_ENCODING (R56). A fetched word that is not an instruction (reserved major, unlisted fn or sub, unassigned L-stream opcode, bad reserved field) faults ILLEGAL exactly and takes its port turn. -/
  | illegalEncoding (l : Bool)
  /-- INSTRUCTION_FETCH_FAULT (R57). The fetch of an instruction word faults under the memory fault rules before any decode, at step 1 of R56. -/
  | instructionFetchFault (l : Bool) (f : FetchFault)
  /-- L_INSTRUCTION_COMPLETE (R25). An issued L-stream instruction completes: it writes its destination, releases the scoreboard and ORs its flags into FLAGS at a point unordered with the S-stream. -/
  | lInstructionComplete (uid : Nat)
  /-- BLOCK_START (R12). An idle L-stream takes the oldest block entry from the DQ and starts that block converged. -/
  | blockStart (uid : Nat)
  /-- BLOCK_SUPPLY_FOLLOW (R20). A register block takes the supply state that follows from the life states of its registers. -/
  | blockSupplyFollow (uid blk : Nat)
  /-- REG_BLOCK_WAKE_DONE (R21). A waking or powering-up register block reaches FULL; ECC runs on its REST registers. -/
  | regBlockWakeDone (uid blk : Nat) (bad : List Nat)
  /-- SP_BANK_WAKE_DONE (R183). A scratchpad bank wake or power-up ends, with its ECC poison marking, and the waiting accesses proceed. -/
  | spBankWakeDone (core bank : Nat) (bad : List Nat)
  /-- WATCHDOG_EXPIRY (R134). The convergence watchdog reaches its limit and stops the whole group with WATCHDOG. -/
  | watchdogExpiry (uid : Nat)
  /-- GANG_DISPATCH (R165). The launch controller places and dispatches a gang whole when a resource frees or an entry is admitted. -/
  | gangDispatch (part : Nat)
  /-- TEAM_FREE (R155). A team's window, barrier pool and tags are freed once its groups have exited and its commands completed. -/
  | teamFree (team : Nat)
  /-- GRID_RETIRE (R147). A grid retires when its groups have exited and its children retired; it writes its completion word. -/
  | gridRetire (grid : Nat)
  /-- LOAD_RESPONSE (R194). The data of a global or peer load or atomic return, or a step-4 fault stops the stream exactly. -/
  | loadResponse (uid seq : Nat)
  /-- STORE_RESPONSE (R216). The response of a store arrives, completing it or raising STOREERR with a record. -/
  | storeResponse (uid seq : Nat)
  /-- PEER_REQUEST (R181). A peer access reaches its target core, which makes checks 3-5 and answers. -/
  | peerRequest (uid seq : Nat)
  /-- MWAIT_WAKE (R212). A write to the watched line wakes a sleeping MWAIT, which reads again. -/
  | mwaitWake (uid : Nat)
  /-- MWAIT_TIMEOUT (R212). The timeout of an MWAIT falls due and it returns the equal value. -/
  | mwaitTimeout (uid : Nat)
  /-- REM_DRAIN_REQUEST (R210). A target group receives a FENCE.REM drain request, marks its streams and drains its stores. -/
  | remDrainRequest (uid target : Nat)
  /-- REM_DRAIN_ACK (R210). A target group acknowledges; the last acknowledgement completes the FENCE.REM. -/
  | remDrainAck (uid target : Nat)
  /-- COPY_BEGIN (R263). A registered copy starts once no earlier command holds a conflicting range. -/
  | copyBegin (id : Nat)
  /-- COPY_ELEMENT (R264). The copy engine performs one element's accesses, which may suspend or end the command on a fault. -/
  | copyElement (id : Nat)
  /-- COPY_COMPLETE (R266). A copy command's last write is performed; it releases its locks and cp falls. -/
  | copyComplete (id : Nat)
  /-- WAVE_PREPARE (R286). An A row reaches the array and its activation scales are read, making the wave ready or null. -/
  | wavePrepare (core tag : Nat)
  /-- WAVE_INJECT (R287). In a cycle the cadence allows, the rotation picks a tag and injects its next ready wave. -/
  | waveInject (core : Nat)
  /-- WAVE_WRITEBACK (R282). 200 cycles after injection a wave adds into its bank row, or a null wave marks the row and queues a record. -/
  | waveWriteback (core : Nat) (err : WaveErr)
  /-- WLOAD_BEGIN (R296). A WLOAD starts reading its tile once earlier commands of the tag and conflicting ranges have completed. -/
  | wloadBegin (core tag : Nat)
  /-- WLOAD_COMPLETE (R296). A WLOAD finishes writing its slot and scales, sets the format fields and completes. -/
  | wloadComplete (core tag : Nat) (bad : List Nat)
  /-- DRAIN_BEGIN (R298). A drain starts once earlier commands of its tag have completed, checking its rows for POISON. -/
  | drainBegin (core tag : Nat) (bad : List Nat)
  /-- DRAIN_COMPLETE (R298). A drain's writes are done, its rows are cleared with .clr, and it completes. -/
  | drainComplete (core tag : Nat)
  /-- MZERO_EXECUTE (R300). Once earlier commands have completed, MZERO zeroes its rows and clears their POIS bits. -/
  | mzeroExecute (core tag : Nat)
  /-- TAG_SCRUB (R302). At cs, the bank and slot of a DYING tag are zeroed and the tag becomes FREE. -/
  | tagScrub (core tag : Nat)
  /-- FAULT_DISPATCH (R312). A stop reaches its group and is dispatched: the grid ends, the group is descheduled, or a handler is entered. -/
  | faultDispatch (uid : Nat)
  /-- HANDLER_ENTRY (R313). The group takes a shadow set, banks its L state and starts its handler at SUPER. -/
  | handlerEntry (uid : Nat)
  /-- DEADLINE_DELIVERY (R323). A pending DEADLINE is delivered at the group's next S-stream instruction boundary. -/
  | deadlineDelivery (uid : Nat)
  /-- ROOT_GRID_SUBMIT (R145). A root grid (depth 1), including a supervisor grid, is submitted through the management interface into a pending-launch store. -/
  | rootGridSubmit (g : RootGrid)
  /-- CONTEXT_CREATE (R411). CTXCMD CREATE checks a descriptor, verifies the supervisor firmware and creates an EMPTY context. -/
  | contextCreate (v : Word) (sigOk : Bool)
  /-- PARTITION_CREATE (R379). PTCMD CREATE checks a partition entry and makes it LIVE. -/
  | partitionCreate (idx : Nat)
  /-- ASK (R329). A PREQ ASK command moves the context to ASKED and starts the grace timer. -/
  | ask (ctx : Nat)
  /-- PREQ_HALT (R329). A PREQ HALT command starts the instruction-level halt and the strike timer. -/
  | preqHalt (ctx : Nat)
  /-- CONTEXT_HALTED (R332). The drain completes and the context becomes HALTED. -/
  | contextHalted (ctx : Nat)
  /-- RESUME (R329). A PREQ RESUME command returns the context to RUN and dispatches held stops. -/
  | resume (ctx : Nat)
  /-- COMPACTOR_MOVE (R169). The compactor moves one live register run or window so that a fragmented gang fits. -/
  | compactorMove (core : Nat) (what : MoveSpec)
  /-- TLB_ENTRY_DROP (R242). A TLB drops an entry of any context at any time. -/
  | tlbEntryDrop (t : TlbSel) (idx : Nat)
  /-- STRIKE (R334). A PREQ STRIKE command ends all of the context's work at once and leaves it EMPTY. -/
  | strike (ctx : Nat)
  /-- GRACE_EXPIRY (R329). The grace timer expires and the context enters HALTING. -/
  | graceExpiry (ctx : Nat)
  /-- STRIKE_EXPIRY (R329). The strike timer expires in HALTING and the context is struck. -/
  | strikeExpiry (ctx : Nat)
  /-- MIG_PRECOPY (R342). MIGCTL PRECOPY marks every page of the function dirty and opens the window for READ. -/
  | migPrecopy (f : Nat)
  /-- MIG_STOP (R342). MIGCTL STOP asks every context of the function to stop. -/
  | migStop (f : Nat)
  /-- MIG_RESUME (R342). MIGCTL RESUME resumes every loaded context and returns to RUNNING. -/
  | migResume (f : Nat)
  /-- MIG_ABORT (R342). MIGCTL ABORT ends dirty tracking and resumes the halted contexts. -/
  | migAbort (f : Nat)
  /-- MIG_RECEIVE (R342). MIGCTL RECEIVE opens the window for WRITE on a function with no context. -/
  | migReceive (f : Nat)
  /-- MIG_STOPPED (R344). When STOPPING ends, the saves, the final dirty report and STOPPED are made visible in order. -/
  | migStopped (f : Nat)
  /-- MIG_DESC_READ (R343). A posted READ descriptor reads a page, clears its dirty bit and seals it into its slot. -/
  | migDescRead (f idx : Nat)
  /-- MIG_DESC_WRITE (R343). A posted WRITE descriptor verifies a page's tag and writes it. -/
  | migDescWrite (f idx : Nat)
  /-- MIGDIRTY_WRITE (R416). A write of the dirty bitmap address, which lets a waiting STOP proceed. -/
  | migdirtyWrite (f : Nat) (v : Word)
  /-- TMIG_GO (R345). Checks a thermal move request and reserves the target, or refuses it. -/
  | tmigGo (v : Word)
  /-- NOC_PACKET_RECEIVE (R364). A port receives a sealed NoC packet, delivering it or breaking its flow with NETAUTH. -/
  | nocPacketReceive (p : NocPacket)
  /-- HOST_WRITE (R370). The host writes device memory over the link; this may wake MWAIT. -/
  | hostWrite (place : HostAt) (data : List Byte)
  /-- HOST_READ (R370). The host reads device memory over the link. -/
  | hostRead (place : HostAt) (n : Nat)
  /-- HOST_RECALL (R370). The host directory recalls a host line held by the device. -/
  | hostRecall (line : Nat)
  /-- FABRIC_ACCESS (R372). An access arrives through a fabric window and is performed at its remote physical address. -/
  | fabricAccess (acc : RemoteAccess)
  /-- BIVOUAC_ANSWER (R376). A context's ANSWER is checked, by firmware on a core, and the context resumes when it verifies. -/
  | bivouacAnswer (ctx core : Nat)
  /-- PARTITION_DESTROY (R379). PTCMD DESTROY frees a partition that has no context. -/
  | partitionDestroy (idx : Nat)
  /-- TRAIL_HEAD_WRITE (R384). The host raises TRHEAD, freeing room so that held choices can be made. -/
  | trailHeadWrite (idx : Nat) (v : Word)
  /-- TRAIL_TAIL_WRITE (R385). The host raises TRTAIL under REPLAY, letting held requests be served in trail order. -/
  | trailTailWrite (idx : Nat) (v : Word)
  /-- GOVERNOR_WINDOW (R398). Every 10,000 ticks, the governor shares the cap and sets each domain's point from the active steps. -/
  | governorWindow (m : GovInput)
  /-- POINT_CHANGE_DONE (R392). A compute domain's change of operating point takes effect. -/
  | pointChangeDone (dom : Nat)
  /-- CURRENT_SAMPLE (R401). Every 1,000 ticks the regulator current is sampled and throttle levels rise or fall. -/
  | currentSample (amps : List Nat)
  /-- UNDERVOLT_RESTORE (R403). After an uncorrectable error, UVOFS returns to 0, FREEZE is set and an error log record is appended. -/
  | undervoltRestore (e : ErrInput)
  /-- THERMAL_SAMPLE (R418). Every 10,000 ticks a core's sensor is sampled, setting OVER and logging THERM above the threshold. -/
  | thermalSample (core : Nat) (temp : BitVec 16)
  /-- DEVICE_RESET (R409). Power-on or device reset runs the boot phases up to READY or RECOVERY. -/
  | deviceReset (idOk fwOk : Bool) (slices : Word)
  /-- CONTEXT_DESTROY (R411). CTXCMD DESTROY frees an EMPTY context and its save counter. -/
  | contextDestroy (v : Word)
  /-- INVALIDATE (R412). INVCMD posts the invalidation of a page range of a context. -/
  | invalidate (v : Word)
  /-- KILLREQ (R349). A removal request through the management interface acts as a MACH-level TAGKILL. -/
  | killreq (v : Word)
  /-- WORLD_CREATE (R413). WLDCMD CREATE draws a protected world's keys and binds it to a partition. -/
  | worldCreate (v : Word)
  /-- WORLD_IMPORT (R413). WLDCMD IMPORT opens a key blob and installs the world's keys. -/
  | worldImport (v : Word)
  /-- WORLD_DESTROY (R413). WLDCMD DESTROY destroys the world's contexts and zeroises its keys. -/
  | worldDestroy (v : Word)
  /-- DEBUG_WRITE (R375). A write to DEBUG opens the debug port or enables breakpoints, refused where a protected context exists. -/
  | debugWrite (v : Word)
  /-- PTROOT_WRITE (R247). A write to PTROOT invalidates the context's whole address space before it completes. -/
  | ptrootWrite (ctx : Nat) (v : Word)
  /-- MXCAD_WRITE (R275). A write of the injection cadence takes effect at the next injection. -/
  | mxcadWrite (core : Nat) (v : Word)
  /-- FLAGS_WRITE (R25). A WRSR to FLAGS replaces it, with later L-stream flags ORed in. -/
  | flagsWrite (uid : Nat) (v : Word)
  /-- VLOG_CLEAR (R182). Writing CLR empties the violation log. -/
  | vlogClear (core : Nat)
  /-- FRQT_OVF_CLEAR (R246). Clearing OVF of FRQT also zeroes LOST. -/
  | frqtOvfClear (ctx : Nat)
  /-- MBOXO_DROP_CLEAR (R371). A write with bit 63 set zeroes MBOXO's DROP count. -/
  | mboxoDropClear (ctx : Nat)
  /-- THST_OVER_CLEAR (R418). Writing 1 to OVER rearms the thermal record. -/
  | thstOverClear (core : Nat)
  /-- DOMST_FREEZE_CLEAR (R403). A MACH write of 1 to FREEZE re-enables undervolt adjustment. -/
  | domstFreezeClear (dom : Nat)
  /-- REGISTER_WRITE (R5). A write to any register with no row of its own, taken field by field. -/
  | registerWrite (r : RegSel) (v : Word)
  /-- COMPACTOR_MOVE_END (R169). A compactor move of a register run or window ends, up to 512 cycles after it began, and the run's owners may issue again. -/
  | compactorMoveEnd (core : Nat)
  /-- LEVEL_CHANGE_DONE (R393). A stacked SRAM or DRAM domain's change of level takes effect, and accesses that waited during it proceed. -/
  | levelChangeDone (dom : Nat)
  /-- INVALIDATION_COMPLETE (R241). An invalidation completes once no TLB of the context holds a translation in its range and every access through the old translation is performed or refused; INVCMD GO reads 0. -/
  | invalidationComplete (id : Nat)
  /-- ATTESTATION_REQUEST (R374). A requester supplies a 64-byte nonce and receives a signed 528-byte attestation report and certificate chain through the management interface. -/
  | attestationRequest (ctx : Nat) (nonce : List Byte)
  /-- WORLD_REKEY (R364). Machine firmware rekeys a world, restarting every flow of the world at sequence number 0. -/
  | worldRekey (w : Nat)
  /-- DEBUG_PORT_RESUME (R318). The attached debug port releases a group that BKPT stopped for it. -/
  | debugPortResume (uid : Nat)
  /-- TMIG_CANCEL (R345). Withdraws a PENDING thermal move. -/
  | tmigCancel
  /-- THERMAL_MOVE (R346). At the team's next BAR round, the team drains and moves to the target core, with its steps. -/
  | thermalMove
  /-- BIVOUAC_ENTER (R415). BIVCMD ENTER wraps the keys, writes back the slices and powers down to always-on. -/
  | bivouacEnter
  /-- BIVOUAC_WAKE (R415). BIVCMD WAKE restores power, unwraps the keys and posts challenges. -/
  | bivouacWake
  /-- ALWAYS_ON_POWER_LOSS (R376). Always-on power fails during sleep, losing the protected contexts. -/
  | alwaysOnPowerLoss
  deriving DecidableEq, Repr

end Sys2Proof
end

