-- ==== Sys2Proof/WellFormed.lean ====
section
/-! DEFINITION. Well-formed instructions: the encodings that are legal whatever state the machine is in (R56 step 2). What
depends on the issuing group (hs fields outside handler mode, the allocated register count, branch targets) is checked
where the instruction issues. -/

namespace Sys2Proof

/-! ## S-stream -/

/-- A scalar register field that may name a register: s0 to s95, hs0 to hs15 (in handler mode), sz (R10, R308). -/
def sregOk (r : SReg) : Bool := r.toNat ≤ 111 || r.toNat == 127

/-- Orders a load accepts (R191). -/
def Order.forLoad : Order → Bool
  | .rlx | .acq => true
  | _ => false

/-- Orders a store accepts (R191). -/
def Order.forStore : Order → Bool
  | .rlx | .rel => true
  | _ => false

/-- Scopes SPACC accepts (R203). -/
def Scope.local : Scope → Bool
  | .grp | .team | .gang => true
  | _ => false

/-! ## L-stream -/

/-- How an L-stream field is used. -/
inductive FieldUse | none | vec | pred
  deriving DecidableEq, Repr

/-- The legal shapes of one L-stream opcode (R58 to R63): whether it takes a guard, the types it accepts by code, the
modifier bits it defines, whether it has a rounding choice, how vd, va and vb are used, which kinds c accepts (vector,
imm32, dq, k register), the word2 bits of a field block, if any, and what else its description asks. -/
structure LShape where
  guard : Bool
  types : List Nat
  mods  : BitVec 6
  rnd   : Bool
  vd    : FieldUse
  a     : FieldUse
  b     : FieldUse
  cVec  : Bool
  cImm  : Bool
  cDq   : Bool
  cK    : Bool
  block : Option Word32
  extra : LOp → Bool

/-- The code of an element type (R28, R30). -/
def ElemType.code : ElemType → Nat
  | .s32 => 0 | .n32 => 1 | .s16x2 => 2 | .n16x2 => 3 | .s8x4 => 4 | .n8x4 => 5
  | .f32 => 6 | .f16x2 => 7 | .bf16x2 => 8 | .e4m3x4 => 9 | .e5m2x4 => 10

/-- The element type of a code; codes 11 to 15 name none (R62). -/
def ElemType.ofCode : Nat → Option ElemType
  | 0 => some .s32 | 1 => some .n32 | 2 => some .s16x2 | 3 => some .n16x2 | 4 => some .s8x4 | 5 => some .n8x4
  | 6 => some .f32 | 7 => some .f16x2 | 8 => some .bf16x2 | 9 => some .e4m3x4 | 10 => some .e5m2x4
  | _ => none

/-- Elements per lane (R11). -/
def ElemType.count : ElemType → Nat
  | .s32 | .n32 | .f32 => 1
  | .s16x2 | .n16x2 | .f16x2 | .bf16x2 => 2
  | .s8x4 | .n8x4 | .e4m3x4 | .e5m2x4 => 4

/-- Modifier bits high to low of a modifier field. -/
def LOp.modBits (o : LOp) (lo n : Nat) : Nat := (o.mods.toNat >>> lo) % 2 ^ n

/-- The destination type code of the conversion field block (R104). -/
def LOp.dstCode (o : LOp) : Nat := o.w2.toNat % 16

namespace LShape

/-- No restriction beyond the fields. -/
def any : LOp → Bool := fun _ => true

def ints : List Nat := [0, 1, 2, 3, 4, 5]
def floats : List Nat := [6, 7, 8]
def allTypes : List Nat := [0, 1, 2, 3, 4, 5, 6, 7, 8, 9, 10]

/-- One-source lane form over c of any kind (R58). -/
def one (types : List Nat) (mods : BitVec 6) (rnd : Bool) : LShape :=
  ⟨true, types, mods, rnd, .vec, .none, .none, true, true, true, true, none, any⟩

/-- Two-source lane form over a and c. -/
def two (types : List Nat) (mods : BitVec 6) (rnd : Bool) : LShape := { one types mods rnd with a := .vec }

/-- Three-source lane form over a, b and c. -/
def three (types : List Nat) (mods : BitVec 6) (rnd : Bool) : LShape := { two types mods rnd with b := .vec }

/-- A form that acts on the whole group and uses no register field (R61, R125). -/
def control (mods : BitVec 6) (block : Option Word32) : LShape :=
  ⟨false, [0], mods, false, .none, .none, .none, false, false, false, false, block, any⟩

/-- A lane memory form over a base in c and an optional index in va (R64). -/
def memory (types : List Nat) (mods : BitVec 6) (rnd : Bool) (vd b : FieldUse) (extra : LOp → Bool) : LShape :=
  ⟨true, types, mods, rnd, vd, .vec, b, false, true, true, true, some (BitVec.allOnes 32),
    fun o => (o.mods.getLsbD 2 || (o.a.r == 0 && o.a.hint == .keep)) && extra o⟩

/-- Sizes 0 to 2 of R118: a narrow size takes type s32 or n32. -/
def narrow (o : LOp) : Bool := o.modBits 3 3 == 0 || (o.modBits 3 3 ≤ 2 && o.ty.code ≤ 1)

/-- Pairs of R104: same number of elements. -/
def samePair (o : LOp) : Bool :=
  match ElemType.ofCode o.dstCode with
  | some t => t.count == o.ty.count
  | none => false

/-- Pairs of R105: the first type of 32 bits an integer or F32, the second of half the width, none of them reversed. -/
def halfPair (src dst : ElemType) : Bool := 2 * src.count == dst.count

def packPair (o : LOp) : Bool :=
  match ElemType.ofCode o.dstCode with
  | some t => halfPair o.ty t
  | none => false

def unpackPair (o : LOp) : Bool :=
  match ElemType.ofCode o.dstCode with
  | some t => halfPair t o.ty
  | none => false

/-- Types and rounding of VRED and VSCAN by operation (R112). -/
def reduces (o : LOp) : Bool :=
  let op := o.modBits 0 3
  op ≤ 5 && (op ≤ 2 || o.ty.code ≤ 5) && (o.rnd == 0 || (op == 0 && 6 ≤ o.ty.code))

/-- The tag, M - 1 and rb field block of R292: rb + M at most 32. -/
def rowsFit (o : LOp) : Bool := (o.w2.toNat >>> 9) % 32 + (o.w2.toNat >>> 4) % 32 + 1 ≤ 32

/-- Output types and modifiers of a drain (R297). -/
def drains (o : LOp) : Bool :=
  rowsFit o && (o.ty != .s8x4 || o.mods.getLsbD 0) &&
  (o.mods.getLsbD 2 || (o.a.r == 0 && o.a.hint == .keep)) &&
  !(o.mods.getLsbD 3 && (o.ty == .s32 || o.ty == .s8x4))

/-- Types of a lane atomic by operation (R205). -/
def atomics (o : LOp) : Bool :=
  let op := o.modBits 3 3
  o.ty.code ≤ 1 || (o.ty == .f32 && (op ≤ 2 || 6 ≤ op))

def noReg : FieldUse → BitVec 8 → Hint → Bool
  | .none, r, h => r == 0 && h == .keep
  | .pred, r, h => r.toNat < 8 && h == .keep
  | .vec, _, _ => true

end LShape

open LShape in
/-- The shape of each L-stream opcode (R65 and the description of each instruction); none where R65 assigns nothing. -/
def lShape : Nat → Option LShape
  | 0x00 => some (two ints 0 false)
  | 0x01 => some (two ints 0 false)
  | 0x02 => some (two ints 0 false)
  | 0x03 => some (two ints 0 false)
  | 0x04 => some (three ints 0 false)
  | 0x05 => some (two ints 0 false)
  | 0x06 => some (two ints 0 false)
  | 0x07 => some (two ints 0 false)
  | 0x08 => some (two ints 0 false)
  | 0x09 => some (two ints 0 false)
  | 0x0A => some (two allTypes 0 false)
  | 0x0B => some (two allTypes 0 false)
  | 0x0C => some (two allTypes 0 false)
  | 0x0D => some (two allTypes 0 false)
  | 0x0E => some (one allTypes 0 false)
  | 0x0F => some (two ints 0 false)
  | 0x10 => some (two ints 0 false)
  | 0x11 => some (two ints 0 false)
  | 0x12 => some (two ints 0 false)
  | 0x13 => some (one ints 0 false)
  | 0x14 => some (one ints 0 false)
  | 0x15 => some (one ints 0 false)
  | 0x16 => some (two ints 0 false)
  | 0x17 => some (two ints 0 false)
  | 0x18 => some (three [4, 5] 3 false)
  | 0x19 => some (two allTypes 15 false)
  | 0x1A => some (one allTypes 0 false)
  | 0x1B => some (one [0, 1] 0 false)
  | 0x1C => some (two [0, 1] 0 false)
  | 0x1D => some (two [0, 1] 0 false)
  | 0x20 => some (two floats 1 true)
  | 0x21 => some (two floats 1 true)
  | 0x22 => some (two floats 1 true)
  | 0x23 => some (three floats 1 true)
  | 0x24 => some (three floats 1 true)
  | 0x25 => some (three floats 1 true)
  | 0x26 => some (two [6, 7, 8, 9, 10] 0 false)
  | 0x27 => some (two [6, 7, 8, 9, 10] 0 false)
  | 0x28 => some (one [6, 7, 8, 9, 10] 0 false)
  | 0x29 => some (one [6, 7, 8, 9, 10] 0 false)
  | 0x2A => some (two floats 1 true)
  | 0x2B => some (one floats 1 true)
  | 0x2C => some (one floats 1 false)
  | 0x2D => some (one floats 1 false)
  | 0x2E => some (one floats 1 false)
  | 0x2F => some (one floats 1 false)
  | 0x30 => some (one floats 1 false)
  | 0x31 => some (one floats 0 true)
  | 0x32 => some (one floats 0 false)
  | 0x33 => some (two floats 1 true)
  | 0x40 => some { one allTypes 1 true with cImm := false, block := some 15, extra := samePair }
  | 0x41 => some { two allTypes 1 true with cImm := false, block := some 15, extra := packPair }
  | 0x42 => some { one allTypes 3 true with cImm := false, block := some 15, extra := unpackPair }
  | 0x43 => some { two [2, 3, 4, 5, 7, 8, 9, 10] 7 true with extra := fun o => o.modBits 0 2 < o.ty.count }
  | 0x44 => some { two [2, 3, 4, 5, 7, 8, 9, 10] 3 true with extra := fun o => o.modBits 0 2 < o.ty.count }
  | 0x50 => some { two ints 15 false with vd := .pred, extra := fun o => o.modBits 0 3 ≤ 5 }
  | 0x51 => some { two [6, 7, 8, 9, 10] 15 false with vd := .pred }
  | 0x52 => some ⟨true, [0], 7, false, .pred, .pred, .pred, false, false, false, false, none,
      fun o => o.modBits 0 3 ≤ 5 && (o.modBits 0 3 < 4 || o.b.r == 0)⟩
  | 0x53 => some { one [0] 3 false with vd := .pred, extra := fun o => o.modBits 0 2 ≤ 2 }
  | 0x54 => some ⟨true, [0], 0, false, .pred, .pred, .none, false, false, false, false, none, any⟩
  | 0x60 => some (two allTypes 3 false)
  | 0x61 => some { two allTypes 0 false with cVec := false }
  | 0x62 => some { two allTypes 0 false with cVec := false }
  | 0x63 => some { one [0, 1, 2, 3, 4, 5, 6, 7, 8] 7 true with extra := reduces }
  | 0x64 => some { one [0, 1, 2, 3, 4, 5, 6, 7, 8] 15 true with extra := reduces }
  | 0x65 => some { one allTypes 0 false with
      extra := fun o => match o.c with | .vec r _ => r != o.vd | _ => true }
  | 0x70 => some (control 15 (some (BitVec.allOnes 32)))
  | 0x71 => some (control 0 none)
  | 0x72 => some (control 15 (some (BitVec.allOnes 32)))
  | 0x73 => some (control 0 none)
  | 0x74 => some (control 15 none)
  | 0x75 => some (control 0 none)
  | 0x76 => some (control 63 none)
  | 0x77 => some { control 7 none with
      cVec := true, cImm := true, cDq := true, cK := true,
      extra := fun o => match o.c with
        | .vec _ _ => !o.mods.getLsbD 1 || (!o.mods.getLsbD 0 && !o.mods.getLsbD 2)
        | _ => o.mods == 0 }
  | 0x78 => some (control 15 (some 0xFFFF0000))
  | 0x80 => some (memory allTypes 63 false .vec .none narrow)
  | 0x81 => some (memory allTypes 63 false .none .vec narrow)
  | 0x82 => some (memory allTypes 63 false .vec .none narrow)
  | 0x83 => some (memory allTypes 63 false .none .vec narrow)
  | 0x84 => some (memory [0, 1, 6] 63 true .vec .vec atomics)
  | 0x85 => some (memory [0, 1, 6] 63 true .vec .vec atomics)
  | 0x86 => some { memory [0] 3 false .vec .none any with a := .none, extra := any }
  | 0x87 => some { memory [0] 3 false .none .vec any with a := .none, extra := any }
  | 0x88 => some (memory [0] 63 false .none .none fun o => o.modBits 3 3 ≤ 1)
  | 0x89 => some { control 31 none with extra := fun o => o.modBits 0 3 ≤ 4 }
  | 0xA0 => some { control 1 (some 0x3FFF) with
      a := .vec, cDq := true, cK := true, extra := fun o => rowsFit o && (o.a.r != 255 || o.a.hint == .keep) }
  | 0xA1 => some ⟨false, [0, 4, 6, 7, 8, 9, 10], 15, true, .vec, .vec, .none, false, false, false, false,
      some 0x3FFF, drains⟩
  | 0xA2 => some ⟨false, [0, 4, 6, 7, 8, 9, 10], 15, true, .none, .vec, .none, false, false, true, true,
      some 0x3FFF, drains⟩
  | 0xA3 => some { control 0 (some 0x3FFF) with extra := rowsFit }
  | 0xB0 => some { control 3 none with
      vd := .vec, cImm := true, extra := fun o => o.modBits 0 2 ≤ 2 && o.w2 != 0 }
  | 0xB1 => some (control 0 none)
  | 0xB2 => some { control 0 none with vd := .vec, cImm := true }
  | 0xB3 => some { control 0 none with
      vd := .vec, cImm := true, cDq := true, cK := true, extra := fun o => o.vd.toNat < 16 }
  | 0xB4 => some { control 3 none with
      vd := .vec, cVec := true, extra := fun o => o.vd.toNat < 16 && o.mods != 3 }
  | _ => none

/-- The kind of c is one the opcode accepts; where it accepts no c, the c fields are zero (R59, R63). -/
def LShape.cOk (h : LShape) (c : CSrc) : Bool :=
  match c with
  | .vec r hint => h.cVec || (r == 0 && hint == .keep && !h.cImm && !h.cDq && !h.cK)
  | .imm => h.cImm
  | .dq => h.cDq
  | .kreg _ => h.cK

/-- Word2 is the immediate, the field block of the opcode, or zero (R63). -/
def LShape.w2Ok (h : LShape) (o : LOp) : Bool :=
  match h.block with
  | some m => o.w2 &&& ~~~m == 0
  | none => o.c == .imm || o.w2 == 0

/-- The fields of an L-stream instruction are legal for its opcode (R61 to R63). -/
def LOp.wf (op : Nat) (o : LOp) : Bool :=
  match lShape op with
  | none => false
  | some h =>
    (if h.guard then o.g.p != 0 || !o.g.neg else o.g.p == 0 && !o.g.neg) &&
    h.types.contains o.ty.code && o.mods &&& ~~~h.mods == 0 && (h.rnd || o.rnd == 0) &&
    LShape.noReg h.vd o.vd .keep && LShape.noReg h.a o.a.r o.a.hint && LShape.noReg h.b o.b.r o.b.hint &&
    h.cOk o.c && h.w2Ok o && h.extra o

/-! ## Instructions -/

/-- The opcode and fields of an L-stream instruction (R65). -/
def Instr.lParts : Instr → Option (Nat × LOp)
  | .vadd o => some (0x00, o)
  | .vsub o => some (0x01, o)
  | .vmul o => some (0x02, o)
  | .vmulh o => some (0x03, o)
  | .vmad o => some (0x04, o)
  | .vadds o => some (0x05, o)
  | .vsubs o => some (0x06, o)
  | .vabsd o => some (0x07, o)
  | .vmin o => some (0x08, o)
  | .vmax o => some (0x09, o)
  | .vand o => some (0x0A, o)
  | .vor o => some (0x0B, o)
  | .vxor o => some (0x0C, o)
  | .vandn o => some (0x0D, o)
  | .vnot o => some (0x0E, o)
  | .vshl o => some (0x0F, o)
  | .vshr o => some (0x10, o)
  | .vsra o => some (0x11, o)
  | .vrotr o => some (0x12, o)
  | .vclz o => some (0x13, o)
  | .vpopc o => some (0x14, o)
  | .vbrev o => some (0x15, o)
  | .vdiv o => some (0x16, o)
  | .vrem o => some (0x17, o)
  | .vdot4 o => some (0x18, o)
  | .vsel o => some (0x19, o)
  | .vmov o => some (0x1A, o)
  | .vidx o => some (0x1B, o)
  | .vbfx o => some (0x1C, o)
  | .vbfi o => some (0x1D, o)
  | .vfadd o => some (0x20, o)
  | .vfsub o => some (0x21, o)
  | .vfmul o => some (0x22, o)
  | .vfma o => some (0x23, o)
  | .vfms o => some (0x24, o)
  | .vfnma o => some (0x25, o)
  | .vfmin o => some (0x26, o)
  | .vfmax o => some (0x27, o)
  | .vfabs o => some (0x28, o)
  | .vfneg o => some (0x29, o)
  | .vfdiv o => some (0x2A, o)
  | .vfsqrt o => some (0x2B, o)
  | .vfrsq o => some (0x2C, o)
  | .vfex2 o => some (0x2D, o)
  | .vflg2 o => some (0x2E, o)
  | .vfsinp o => some (0x2F, o)
  | .vfcosp o => some (0x30, o)
  | .vfrnd o => some (0x31, o)
  | .vfclass o => some (0x32, o)
  | .vfscale o => some (0x33, o)
  | .vcvt o => some (0x40, o)
  | .vpack o => some (0x41, o)
  | .vunpk o => some (0x42, o)
  | .vqnt o => some (0x43, o)
  | .vdqnt o => some (0x44, o)
  | .vcmp o => some (0x50, o)
  | .vfcmp o => some (0x51, o)
  | .plogic o => some (0x52, o)
  | .pset o => some (0x53, o)
  | .pfirst o => some (0x54, o)
  | .vshfl o => some (0x60, o)
  | .vrotl o => some (0x61, o)
  | .vbcl o => some (0x62, o)
  | .vred o => some (0x63, o)
  | .vscan o => some (0x64, o)
  | .vcomp o => some (0x65, o)
  | .bdiv o => some (0x70, o)
  | .join o => some (0x71, o)
  | .bloop o => some (0x72, o)
  | .lend o => some (0x73, o)
  | .lkill o => some (0x74, o)
  | .vbar o => some (0x75, o)
  | .vote o => some (0x76, o)
  | .rput o => some (0x77, o)
  | .buni o => some (0x78, o)
  | .vld o => some (0x80, o)
  | .vst o => some (0x81, o)
  | .vldsp o => some (0x82, o)
  | .vstsp o => some (0x83, o)
  | .vatom o => some (0x84, o)
  | .vatomsp o => some (0x85, o)
  | .vldblk o => some (0x86, o)
  | .vstblk o => some (0x87, o)
  | .vpref o => some (0x88, o)
  | .vfence o => some (0x89, o)
  | .mma o => some (0xA0, o)
  | .mdrain o => some (0xA1, o)
  | .mdrsp o => some (0xA2, o)
  | .mzero o => some (0xA3, o)
  | .vlife o => some (0xB0, o)
  | .vnop o => some (0xB1, o)
  | .vwaitc o => some (0xB2, o)
  | .kpop o => some (0xB3, o)
  | .kfrom o => some (0xB4, o)
  | _ => none

/-- The L-stream instruction of an opcode (R65). -/
def lInstr (op : Nat) (o : LOp) : Option Instr :=
  match op with
  | 0x00 => some (.vadd o)
  | 0x01 => some (.vsub o)
  | 0x02 => some (.vmul o)
  | 0x03 => some (.vmulh o)
  | 0x04 => some (.vmad o)
  | 0x05 => some (.vadds o)
  | 0x06 => some (.vsubs o)
  | 0x07 => some (.vabsd o)
  | 0x08 => some (.vmin o)
  | 0x09 => some (.vmax o)
  | 0x0A => some (.vand o)
  | 0x0B => some (.vor o)
  | 0x0C => some (.vxor o)
  | 0x0D => some (.vandn o)
  | 0x0E => some (.vnot o)
  | 0x0F => some (.vshl o)
  | 0x10 => some (.vshr o)
  | 0x11 => some (.vsra o)
  | 0x12 => some (.vrotr o)
  | 0x13 => some (.vclz o)
  | 0x14 => some (.vpopc o)
  | 0x15 => some (.vbrev o)
  | 0x16 => some (.vdiv o)
  | 0x17 => some (.vrem o)
  | 0x18 => some (.vdot4 o)
  | 0x19 => some (.vsel o)
  | 0x1A => some (.vmov o)
  | 0x1B => some (.vidx o)
  | 0x1C => some (.vbfx o)
  | 0x1D => some (.vbfi o)
  | 0x20 => some (.vfadd o)
  | 0x21 => some (.vfsub o)
  | 0x22 => some (.vfmul o)
  | 0x23 => some (.vfma o)
  | 0x24 => some (.vfms o)
  | 0x25 => some (.vfnma o)
  | 0x26 => some (.vfmin o)
  | 0x27 => some (.vfmax o)
  | 0x28 => some (.vfabs o)
  | 0x29 => some (.vfneg o)
  | 0x2A => some (.vfdiv o)
  | 0x2B => some (.vfsqrt o)
  | 0x2C => some (.vfrsq o)
  | 0x2D => some (.vfex2 o)
  | 0x2E => some (.vflg2 o)
  | 0x2F => some (.vfsinp o)
  | 0x30 => some (.vfcosp o)
  | 0x31 => some (.vfrnd o)
  | 0x32 => some (.vfclass o)
  | 0x33 => some (.vfscale o)
  | 0x40 => some (.vcvt o)
  | 0x41 => some (.vpack o)
  | 0x42 => some (.vunpk o)
  | 0x43 => some (.vqnt o)
  | 0x44 => some (.vdqnt o)
  | 0x50 => some (.vcmp o)
  | 0x51 => some (.vfcmp o)
  | 0x52 => some (.plogic o)
  | 0x53 => some (.pset o)
  | 0x54 => some (.pfirst o)
  | 0x60 => some (.vshfl o)
  | 0x61 => some (.vrotl o)
  | 0x62 => some (.vbcl o)
  | 0x63 => some (.vred o)
  | 0x64 => some (.vscan o)
  | 0x65 => some (.vcomp o)
  | 0x70 => some (.bdiv o)
  | 0x71 => some (.join o)
  | 0x72 => some (.bloop o)
  | 0x73 => some (.lend o)
  | 0x74 => some (.lkill o)
  | 0x75 => some (.vbar o)
  | 0x76 => some (.vote o)
  | 0x77 => some (.rput o)
  | 0x78 => some (.buni o)
  | 0x80 => some (.vld o)
  | 0x81 => some (.vst o)
  | 0x82 => some (.vldsp o)
  | 0x83 => some (.vstsp o)
  | 0x84 => some (.vatom o)
  | 0x85 => some (.vatomsp o)
  | 0x86 => some (.vldblk o)
  | 0x87 => some (.vstblk o)
  | 0x88 => some (.vpref o)
  | 0x89 => some (.vfence o)
  | 0xA0 => some (.mma o)
  | 0xA1 => some (.mdrain o)
  | 0xA2 => some (.mdrsp o)
  | 0xA3 => some (.mzero o)
  | 0xB0 => some (.vlife o)
  | 0xB1 => some (.vnop o)
  | 0xB2 => some (.vwaitc o)
  | 0xB3 => some (.kpop o)
  | 0xB4 => some (.kfrom o)
  | _ => none

/-- Well-formed S-stream instructions: register fields and the limits that the descriptions set (R45, R48, R52, R66, R81,
R85, R157, R191, R203, R257, R295). -/
def sInstrWf : Instr → Bool
  | .nop => true
  | .trapfence => true
  | .bkpt => true
  | .syscall a => sregOk a
  | .retf => true
  | .halt => true
  | .add d a b => sregOk d && sregOk a && sregOk b
  | .sub d a b => sregOk d && sregOk a && sregOk b
  | .mul d a b => sregOk d && sregOk a && sregOk b
  | .mulh d a b => sregOk d && sregOk a && sregOk b
  | .mulhn d a b => sregOk d && sregOk a && sregOk b
  | .div d a b => sregOk d && sregOk a && sregOk b
  | .divn d a b => sregOk d && sregOk a && sregOk b
  | .rem d a b => sregOk d && sregOk a && sregOk b
  | .remn d a b => sregOk d && sregOk a && sregOk b
  | .and d a b => sregOk d && sregOk a && sregOk b
  | .or d a b => sregOk d && sregOk a && sregOk b
  | .xor d a b => sregOk d && sregOk a && sregOk b
  | .andn d a b => sregOk d && sregOk a && sregOk b
  | .shl d a b => sregOk d && sregOk a && sregOk b
  | .shr d a b => sregOk d && sregOk a && sregOk b
  | .sra d a b => sregOk d && sregOk a && sregOk b
  | .rotr d a b => sregOk d && sregOk a && sregOk b
  | .min d a b => sregOk d && sregOk a && sregOk b
  | .max d a b => sregOk d && sregOk a && sregOk b
  | .minn d a b => sregOk d && sregOk a && sregOk b
  | .maxn d a b => sregOk d && sregOk a && sregOk b
  | .clz d a => sregOk d && sregOk a
  | .popc d a => sregOk d && sregOk a
  | .slt d a b => sregOk d && sregOk a && sregOk b
  | .sltn d a b => sregOk d && sregOk a && sregOk b
  | .seq d a b => sregOk d && sregOk a && sregOk b
  | .sne d a b => sregOk d && sregOk a && sregOk b
  | .sel d a b => sregOk d && sregOk a && sregOk b
  | .addi d a _ => sregOk d && sregOk a
  | .andi d a _ => sregOk d && sregOk a
  | .ori d a _ => sregOk d && sregOk a
  | .xori d a _ => sregOk d && sregOk a
  | .shli d a _ => sregOk d && sregOk a
  | .shri d a _ => sregOk d && sregOk a
  | .srai d a _ => sregOk d && sregOk a
  | .slti d a _ => sregOk d && sregOk a
  | .lui d _ => sregOk d
  | .li d _ => sregOk d
  | .liHi d _ => sregOk d
  | .b cond a _ => sregOk a && (cond != .always || a == 0)
  | .j _ => true
  | .call _ => true
  | .jr a => sregOk a
  | .ret => true
  | .callr a => sregOk a
  | .loop a _ => sregOk a && a != 127#7
  | .lrun off => off.toNat % 3 == 0
  | .dqput a => sregOk a
  | .rqget d => sregOk d
  | .rqgetTry d a => sregOk d && sregOk a && (d != a || d == 127#7)
  | .sjoin => true
  | .bar => true
  | .gbar => true
  | .tvoteAny d a => sregOk d && sregOk a
  | .tvoteAll d a => sregOk d && sregOk a
  | .tvoteSum d a => sregOk d && sregOk a
  | .tret => true
  | .exit => true
  | .tcall d a n _ => sregOk d && sregOk a && 1 ≤ n.toNat && n.toNat ≤ 8
  | .launch d a => sregOk d && sregOk a
  | .launchW d a => sregOk d && sregOk a
  | .lwait => true
  | .ldS8 d a _ => sregOk d && sregOk a
  | .ldS16 d a _ => sregOk d && sregOk a
  | .ldS32 d a _ => sregOk d && sregOk a
  | .ld64 d a _ => sregOk d && sregOk a
  | .ldN8 d a _ => sregOk d && sregOk a
  | .ldN16 d a _ => sregOk d && sregOk a
  | .ldN32 d a _ => sregOk d && sregOk a
  | .st8 d a _ => sregOk d && sregOk a
  | .st16 d a _ => sregOk d && sregOk a
  | .st32 d a _ => sregOk d && sregOk a
  | .st64 d a _ => sregOk d && sregOk a
  | .ldo _ ord _ d a _ => sregOk d && sregOk a && ord.forLoad
  | .sto _ ord _ d a _ => sregOk d && sregOk a && ord.forStore
  | .satom _ _ _ _ d a b _ => sregOk d && sregOk a && sregOk b
  | .spaccLoad _ ord sc d a _ => sregOk d && sregOk a && ord.forLoad && sc.local
  | .spaccStore _ ord sc d a _ => sregOk d && sregOk a && ord.forStore && sc.local
  | .spaccAtomic _ _ _ sc d a b _ => sregOk d && sregOk a && sregOk b && sc.local
  | .fence _ _ => true
  | .fenceOwn => true
  | .fenceRem _ => true
  | .mwait ord _ d a b _ => sregOk d && sregOk a && sregOk b && ord.forLoad
  | .qtake _ d a => sregOk d && sregOk a
  | .qput _ d a b => sregOk d && sregOk a && sregOk b
  | .cpy dir d a b k tag => sregOk d && sregOk a && sregOk b && k != 1 && k.toNat ≤ 8 && (dir == .g2w || dir == .s2w || tag == 0)
  | .wload _ _ blen _ a b => sregOk a && sregOk b && (blen != 0 || b == 0)
  | .waitc _ _ _ _ => true
  | .waitr _ a => sregOk a
  | .sphint _ a b => sregOk a && sregOk b
  | .stepBegin d a b => sregOk d && sregOk a && sregOk b
  | .stepProg d a b => sregOk d && sregOk a && sregOk b
  | .stepEnd d a => sregOk d && sregOk a
  | .rdsr d _ => sregOk d && d != 127#7
  | .wrsr a _ => sregOk a
  | .tagset d a => sregOk d && sregOk a
  | .tagkill d a => sregOk d && sregOk a
  | .ctxsave _ d a b _ => sregOk d && sregOk a && sregOk b
  | .ctxload d a _ => sregOk d && sregOk a
  | .mappgMap _ d a b => sregOk d && sregOk a && sregOk b
  | .mappgPool d a b => sregOk d && sregOk a && sregOk b
  | .mappgUnmap _ d a => sregOk d && sregOk a
  | .privqTake d => sregOk d
  | .privqResume d a => sregOk d && sregOk a
  | .privqEnd d a => sregOk d && sregOk a
  | _ => false

/-- Well-formed instructions of either stream. The events of the part are not encoded and are not well-formed. -/
def Instr.wf (i : Instr) : Bool :=
  match i.lParts with
  | some (op, o) => o.wf op
  | none => sInstrWf i

end Sys2Proof
end

