-- ==== Sys2Proof/Decode.lean ====
section
/-! DEFINITION. The decoder of both streams, total on any bytes and rejecting by name, and the encoder, both written from
the encoding tables of the spec (R45 to R66 and the encoding of each instruction). -/

namespace Sys2Proof

/-! ## Codes of the operand kinds -/

/-- One bit of a field block. -/
def bit (v : Bool) : BitVec 1 := if v then 1 else 0

def Cond.bits : Cond → BitVec 3
  | .eqz => 0 | .nez => 1 | .ltz => 2 | .gez => 3 | .gtz => 4 | .lez => 5 | .always => 6

def Cond.ofBits (v : BitVec 3) : Option Cond :=
  match v.toNat with
  | 0 => some .eqz | 1 => some .nez | 2 => some .ltz | 3 => some .gez | 4 => some .gtz | 5 => some .lez
  | 6 => some .always
  | _ => none

def Order.bits : Order → BitVec 2
  | .rlx => 0 | .acq => 1 | .rel => 2 | .acqrel => 3

def Order.ofBits (v : BitVec 2) : Order :=
  match v.toNat with
  | 0 => .rlx | 1 => .acq | 2 => .rel | _ => .acqrel

def Scope.bits : Scope → BitVec 3
  | .grp => 0 | .team => 1 | .gang => 2 | .dev => 3 | .sys => 4

def Scope.ofBits (v : BitVec 3) : Option Scope :=
  match v.toNat with
  | 0 => some .grp | 1 => some .team | 2 => some .gang | 3 => some .dev | 4 => some .sys
  | _ => none

def FenceKind.bits : FenceKind → BitVec 2
  | .acq => 0 | .rel => 1 | .acqrel => 2 | .sc => 3

def FenceKind.ofBits (v : BitVec 2) : FenceKind :=
  match v.toNat with
  | 0 => .acq | 1 => .rel | 2 => .acqrel | _ => .sc

def Counter.bits : Counter → BitVec 7
  | .ld => 0 | .st => 1 | .cp => 2 | .mx => 3 | .rs => 4

def Counter.ofBits (v : BitVec 7) : Option Counter :=
  match v.toNat with
  | 0 => some .ld | 1 => some .st | 2 => some .cp | 3 => some .mx | 4 => some .rs
  | _ => none

def AtomOp.bits : AtomOp → BitVec 4
  | .swap => 1 | .cas => 2 | .add => 3 | .and => 4 | .or => 5 | .xor => 6 | .min => 7 | .max => 8 | .minn => 9
  | .maxn => 10 | .inc => 11

def AtomOp.ofCode : Nat → Option AtomOp
  | 1 => some .swap | 2 => some .cas | 3 => some .add | 4 => some .and | 5 => some .or | 6 => some .xor
  | 7 => some .min | 8 => some .max | 9 => some .minn | 10 => some .maxn | 11 => some .inc
  | _ => none

def LdSize.bits : LdSize → BitVec 5
  | .s8 => 0 | .s16 => 1 | .s32 => 2 | .d64 => 3 | .n8 => 4 | .n16 => 5 | .n32 => 6

def LdSize.ofBits (v : BitVec 5) : Option LdSize :=
  match v.toNat with
  | 0 => some .s8 | 1 => some .s16 | 2 => some .s32 | 3 => some .d64 | 4 => some .n8 | 5 => some .n16 | 6 => some .n32
  | _ => none

def StSize.bits : StSize → BitVec 5
  | .b8 => 8 | .b16 => 9 | .b32 => 10 | .b64 => 11

def StSize.ofBits (v : BitVec 5) : Option StSize :=
  match v.toNat with
  | 8 => some .b8 | 9 => some .b16 | 10 => some .b32 | 11 => some .b64
  | _ => none

def AtSize.bits : AtSize → BitVec 5
  | .s32 => 2 | .d64 => 3 | .n32 => 6

def AtSize.ofBits (v : BitVec 5) : Option AtSize :=
  match v.toNat with
  | 2 => some .s32 | 3 => some .d64 | 6 => some .n32
  | _ => none

def CopyDir.bits : CopyDir → BitVec 5
  | .g2g => 0 | .g2s => 1 | .s2g => 2 | .s2s => 3 | .g2w => 4 | .s2w => 5

def CopyDir.ofBits (v : BitVec 5) : Option CopyDir :=
  match v.toNat with
  | 0 => some .g2g | 1 => some .g2s | 2 => some .s2g | 3 => some .s2s | 4 => some .g2w | 5 => some .s2w
  | _ => none

def BankHint.bits : BankHint → BitVec 2
  | .full => 0 | .ret => 1 | .off => 2

def BankHint.ofBits (v : BitVec 2) : Option BankHint :=
  match v.toNat with
  | 0 => some .full | 1 => some .ret | 2 => some .off
  | _ => none

def PageSize.bits : PageSize → BitVec 2
  | .k4 => 0 | .k64 => 1 | .m2 => 2

def PageSize.ofBits (v : BitVec 2) : Option PageSize :=
  match v.toNat with
  | 0 => some .k4 | 1 => some .k64 | 2 => some .m2
  | _ => none

def Hint.bits : Hint → BitVec 2
  | .keep => 0 | .last => 1 | .rest => 2

def Hint.ofBits (v : BitVec 2) : Option Hint :=
  match v.toNat with
  | 0 => some .keep | 1 => some .last | 2 => some .rest
  | _ => none

/-! ## S-stream formats (R45) -/

def sR (maj : BitVec 6) (d a b : SReg) (fn : BitVec 5) : Word32 := maj ++ d ++ a ++ b ++ fn
def sI (maj : BitVec 6) (d a : SReg) (imm : BitVec 12) : Word32 := maj ++ d ++ a ++ imm
def sU (maj : BitVec 6) (d : SReg) (imm : BitVec 19) : Word32 := maj ++ d ++ imm
def sJ (maj : BitVec 6) (off : BitVec 26) : Word32 := maj ++ off
def sB (maj : BitVec 6) (cond : BitVec 3) (a : SReg) (off : BitVec 16) : Word32 := maj ++ cond ++ a ++ off

/-- Word1 of the ordered scalar accesses (R199). -/
def ordered (disp : BitVec 16) (aop : BitVec 4) (w : BitVec 1) (ord : Order) (sc : Scope) : Word32 :=
  disp ++ aop ++ (0 : BitVec 6) ++ w ++ ord.bits ++ sc.bits

/-- The words of an S-stream instruction, word0 first (R45 to R54 and the encoding of each instruction). -/
def sEncode : Instr → List Word32
  | .nop => [sR 0x00 0 0 0 0]
  | .trapfence => [sR 0x00 0 0 0 1]
  | .bkpt => [sR 0x00 0 0 0 2]
  | .syscall ra => [sR 0x00 0 ra 0 3]
  | .retf => [sR 0x00 0 0 0 4]
  | .halt => [sR 0x00 0 0 0 5]
  | .add rd ra rb => [sR 0x01 rd ra rb 0]
  | .sub rd ra rb => [sR 0x01 rd ra rb 1]
  | .mul rd ra rb => [sR 0x01 rd ra rb 2]
  | .mulh rd ra rb => [sR 0x01 rd ra rb 3]
  | .mulhn rd ra rb => [sR 0x01 rd ra rb 4]
  | .div rd ra rb => [sR 0x01 rd ra rb 5]
  | .divn rd ra rb => [sR 0x01 rd ra rb 6]
  | .rem rd ra rb => [sR 0x01 rd ra rb 7]
  | .remn rd ra rb => [sR 0x01 rd ra rb 8]
  | .and rd ra rb => [sR 0x01 rd ra rb 9]
  | .or rd ra rb => [sR 0x01 rd ra rb 10]
  | .xor rd ra rb => [sR 0x01 rd ra rb 11]
  | .andn rd ra rb => [sR 0x01 rd ra rb 12]
  | .shl rd ra rb => [sR 0x01 rd ra rb 13]
  | .shr rd ra rb => [sR 0x01 rd ra rb 14]
  | .sra rd ra rb => [sR 0x01 rd ra rb 15]
  | .rotr rd ra rb => [sR 0x01 rd ra rb 16]
  | .min rd ra rb => [sR 0x01 rd ra rb 17]
  | .max rd ra rb => [sR 0x01 rd ra rb 18]
  | .minn rd ra rb => [sR 0x01 rd ra rb 19]
  | .maxn rd ra rb => [sR 0x01 rd ra rb 20]
  | .clz rd ra => [sR 0x01 rd ra 0 21]
  | .popc rd ra => [sR 0x01 rd ra 0 22]
  | .slt rd ra rb => [sR 0x01 rd ra rb 23]
  | .sltn rd ra rb => [sR 0x01 rd ra rb 24]
  | .seq rd ra rb => [sR 0x01 rd ra rb 25]
  | .sne rd ra rb => [sR 0x01 rd ra rb 26]
  | .sel rd ra rb => [sR 0x01 rd ra rb 27]
  | .addi rd ra imm => [sI 0x02 rd ra imm]
  | .andi rd ra imm => [sI 0x03 rd ra imm]
  | .ori rd ra imm => [sI 0x04 rd ra imm]
  | .xori rd ra imm => [sI 0x05 rd ra imm]
  | .shli rd ra n => [sI 0x06 rd ra (n.zeroExtend 12)]
  | .shri rd ra n => [sI 0x07 rd ra (n.zeroExtend 12)]
  | .srai rd ra n => [sI 0x08 rd ra (n.zeroExtend 12)]
  | .slti rd ra imm => [sI 0x09 rd ra imm]
  | .lui rd imm => [sU 0x0A rd imm]
  | .li rd imm => [sR 0x0B rd 0 0 0, imm]
  | .liHi rd imm => [sR 0x0B rd 0 0 1, imm]
  | .b cond ra off => [sB 0x10 cond.bits ra off]
  | .j off => [sJ 0x11 off]
  | .call off => [sJ 0x12 off]
  | .jr ra => [sR 0x13 0 ra 0 0]
  | .ret => [sR 0x13 0 0 0 1]
  | .callr ra => [sR 0x13 0 ra 0 2]
  | .loop ra off => [sB 0x14 0 ra off]
  | .lrun off => [sU 0x18 0 off]
  | .dqput ra => [sR 0x19 0 ra 0 0]
  | .rqget rd => [sR 0x1A rd 0 0 0]
  | .rqgetTry rd ra => [sR 0x1A rd ra 0 1]
  | .sjoin => [sR 0x1B 0 0 0 0]
  | .bar => [sR 0x1C 0 0 0 0]
  | .gbar => [sR 0x1C 0 0 0 1]
  | .tvoteAny rd ra => [sR 0x1C rd ra 0 2]
  | .tvoteAll rd ra => [sR 0x1C rd ra 0 3]
  | .tvoteSum rd ra => [sR 0x1C rd ra 0 4]
  | .tret => [sR 0x1C 0 0 0 5]
  | .exit => [sR 0x1C 0 0 0 6]
  | .tcall rd ra n sp => [sR 0x1D rd ra 0 0, ((0 : BitVec 27) ++ bit sp ++ n : BitVec 32)]
  | .launch rd ra => [sR 0x1E rd ra 0 0, 0]
  | .launchW rd ra => [sR 0x1E rd ra 0 1, 0]
  | .lwait => [sR 0x1E 0 0 0 2, 0]
  | .ldS8 rd ra imm => [sI 0x20 rd ra imm]
  | .ldS16 rd ra imm => [sI 0x21 rd ra imm]
  | .ldS32 rd ra imm => [sI 0x22 rd ra imm]
  | .ld64 rd ra imm => [sI 0x23 rd ra imm]
  | .ldN8 rd ra imm => [sI 0x24 rd ra imm]
  | .ldN16 rd ra imm => [sI 0x25 rd ra imm]
  | .ldN32 rd ra imm => [sI 0x26 rd ra imm]
  | .st8 rd ra imm => [sI 0x27 rd ra imm]
  | .st16 rd ra imm => [sI 0x28 rd ra imm]
  | .st32 rd ra imm => [sI 0x29 rd ra imm]
  | .st64 rd ra imm => [sI 0x2A rd ra imm]
  | .ldo sz ord sc rd ra disp => [sR 0x2B rd ra 0 sz.bits, ordered disp 0 0 ord sc]
  | .sto sz ord sc rd ra disp => [sR 0x2C rd ra 0 sz.bits, ordered disp 0 0 ord sc]
  | .satom op w64 ord sc rd ra rb disp => [sR 0x2D rd ra rb (op.bits.zeroExtend 5), ordered disp 0 (bit w64) ord sc]
  | .spaccLoad sz ord sc rd ra disp => [sR 0x2E rd ra 0 sz.bits, ordered disp 0 0 ord sc]
  | .spaccStore sz ord sc rd ra disp => [sR 0x2E rd ra 0 sz.bits, ordered disp 0 0 ord sc]
  | .spaccAtomic sz op ord sc rd ra rb disp => [sR 0x2E rd ra rb sz.bits, ordered disp op.bits 0 ord sc]
  | .fence k sc => [sR 0x2F 0 0 0 (k.bits ++ sc.bits)]
  | .fenceOwn => [sR 0x2F 0 0 1 0]
  | .fenceRem sc => [sR 0x2F 0 0 2 ((0 : BitVec 2) ++ sc.bits)]
  | .mwait ord sc rd ra rb tmo => [sR 0x30 rd ra rb 0, (tmo ++ ord.bits ++ sc.bits : BitVec 32)]
  | .qtake sc rd ra => [sR 0x31 rd ra 0 0, ((0 : BitVec 29) ++ sc.bits : BitVec 32)]
  | .qput sc rd ra rb => [sR 0x31 rd ra rb 1, ((0 : BitVec 29) ++ sc.bits : BitVec 32)]
  | .cpy dir rd ra rb k tag => [sR 0x32 rd ra rb dir.bits, ((0 : BitVec 24) ++ tag ++ k : BitVec 32)]
  | .wload tag fmt blen b128 ra rb => [sR 0x33 0 ra rb 0, ((0 : BitVec 17) ++ bit b128 ++ blen ++ fmt ++ tag : BitVec 32)]
  | .waitc ld st cp mx => [sR 0x34 0 0 0 0, (mx ++ cp ++ st ++ ld : BitVec 32)]
  | .waitr p ra => [sR 0x34 p.bits ra 0 1]
  | .sphint st ra rb => [sR 0x35 0 ra rb 0, ((0 : BitVec 30) ++ st.bits : BitVec 32)]
  | .stepBegin rd ra rb => [sR 0x36 rd ra rb 0, 0]
  | .stepProg rd ra rb => [sR 0x36 rd ra rb 1, 0]
  | .stepEnd rd ra => [sR 0x36 rd ra 0 2, 0]
  | .rdsr rd num => [sI 0x37 rd 0 num]
  | .wrsr ra num => [sI 0x37 127 ra num]
  | .tagset rd ra => [sR 0x38 rd ra 0 0, 0]
  | .tagkill rd ra => [sR 0x38 rd ra 0 1, 0]
  | .ctxsave free rd ra rb ctx => [sR 0x38 rd ra rb 2, ((0 : BitVec 19) ++ bit free ++ ctx : BitVec 32)]
  | .ctxload rd ra ctx => [sR 0x38 rd ra 0 3, ctx.zeroExtend 32]
  | .mappgMap sz rd ra rb => [sR 0x38 rd ra rb 4, ((0 : BitVec 28) ++ (0 : BitVec 2) ++ sz.bits : BitVec 32)]
  | .mappgPool rd ra rb => [sR 0x38 rd ra rb 4, ((0 : BitVec 28) ++ (1 : BitVec 2) ++ (0 : BitVec 2) : BitVec 32)]
  | .mappgUnmap sz rd ra => [sR 0x38 rd ra 0 4, ((0 : BitVec 28) ++ (2 : BitVec 2) ++ sz.bits : BitVec 32)]
  | .privqTake rd => [sR 0x38 rd 0 0 5, 0]
  | .privqResume rd ra => [sR 0x38 rd ra 0 5, 1]
  | .privqEnd rd ra => [sR 0x38 rd ra 0 5, 2]
  | _ => []

/-! ## Fields of S-stream words -/

def fD (w : Word32) : SReg := w.extractLsb' 19 7
def fA (w : Word32) : SReg := w.extractLsb' 12 7
def fB (w : Word32) : SReg := w.extractLsb' 5 7
def fFn (w : Word32) : BitVec 5 := w.extractLsb' 0 5
def fImm12 (w : Word32) : BitVec 12 := w.extractLsb' 0 12
def fImm19 (w : Word32) : BitVec 19 := w.extractLsb' 0 19
def fOrd (w1 : Word32) : Order := Order.ofBits (w1.extractLsb' 3 2)
def fScope (w1 : Word32) : Option Scope := Scope.ofBits (w1.extractLsb' 0 3)
def fDisp (w1 : Word32) : BitVec 16 := w1.extractLsb' 16 16

/-- SPACC by sub and aop (R203). -/
def spaccCandidate (w0 w1 : Word32) : Option Instr :=
  (fScope w1).bind fun sc =>
  match (w1.extractLsb' 12 4).toNat with
  | 0 =>
    match LdSize.ofBits (fFn w0), StSize.ofBits (fFn w0) with
    | some sz, _ => some (.spaccLoad sz (fOrd w1) sc (fD w0) (fA w0) (fDisp w1))
    | none, some sz => some (.spaccStore sz (fOrd w1) sc (fD w0) (fA w0) (fDisp w1))
    | none, none => none
  | n =>
    match AtSize.ofBits (fFn w0), AtomOp.ofCode n with
    | some sz, some op => some (.spaccAtomic sz op (fOrd w1) sc (fD w0) (fA w0) (fB w0) (fDisp w1))
    | _, _ => none

/-- FENCE by variant (R52). -/
def fenceCandidate (w0 : Word32) : Option Instr :=
  match (fB w0).toNat with
  | 0 => (Scope.ofBits (w0.extractLsb' 0 3)).map fun sc => .fence (FenceKind.ofBits (w0.extractLsb' 3 2)) sc
  | 1 => some .fenceOwn
  | 2 => (Scope.ofBits (w0.extractLsb' 0 3)).map fun sc => .fenceRem sc
  | _ => none

/-- MAPPG by op (R249). -/
def mappgCandidate (w0 w1 : Word32) : Option Instr :=
  (PageSize.ofBits (w1.extractLsb' 0 2)).bind fun sz =>
  match (w1.extractLsb' 2 2).toNat with
  | 0 => some (.mappgMap sz (fD w0) (fA w0) (fB w0))
  | 1 => some (.mappgPool (fD w0) (fA w0) (fB w0))
  | 2 => some (.mappgUnmap sz (fD w0) (fA w0))
  | _ => none

/-- PRIVQ by op (R327). -/
def privqCandidate (w0 w1 : Word32) : Option Instr :=
  match (w1.extractLsb' 0 2).toNat with
  | 0 => some (.privqTake (fD w0))
  | 1 => some (.privqResume (fD w0) (fA w0))
  | 2 => some (.privqEnd (fD w0) (fA w0))
  | _ => none

/-- The instruction that the major opcode, the function code and the fields of a word pair name (R49, R50), before its
unused fields and its limits are checked. -/
def sCandidate (w0 w1 : Word32) : Option Instr :=
  match (w0.extractLsb' 26 6).toNat with
  | 0x00 =>
    match (fFn w0).toNat with
    | 0 => some (.nop)
    | 1 => some (.trapfence)
    | 2 => some (.bkpt)
    | 3 => some (.syscall (fA w0))
    | 4 => some (.retf)
    | 5 => some (.halt)
    | _ => none
  | 0x01 =>
    match (fFn w0).toNat with
    | 0 => some (.add (fD w0) (fA w0) (fB w0))
    | 1 => some (.sub (fD w0) (fA w0) (fB w0))
    | 2 => some (.mul (fD w0) (fA w0) (fB w0))
    | 3 => some (.mulh (fD w0) (fA w0) (fB w0))
    | 4 => some (.mulhn (fD w0) (fA w0) (fB w0))
    | 5 => some (.div (fD w0) (fA w0) (fB w0))
    | 6 => some (.divn (fD w0) (fA w0) (fB w0))
    | 7 => some (.rem (fD w0) (fA w0) (fB w0))
    | 8 => some (.remn (fD w0) (fA w0) (fB w0))
    | 9 => some (.and (fD w0) (fA w0) (fB w0))
    | 10 => some (.or (fD w0) (fA w0) (fB w0))
    | 11 => some (.xor (fD w0) (fA w0) (fB w0))
    | 12 => some (.andn (fD w0) (fA w0) (fB w0))
    | 13 => some (.shl (fD w0) (fA w0) (fB w0))
    | 14 => some (.shr (fD w0) (fA w0) (fB w0))
    | 15 => some (.sra (fD w0) (fA w0) (fB w0))
    | 16 => some (.rotr (fD w0) (fA w0) (fB w0))
    | 17 => some (.min (fD w0) (fA w0) (fB w0))
    | 18 => some (.max (fD w0) (fA w0) (fB w0))
    | 19 => some (.minn (fD w0) (fA w0) (fB w0))
    | 20 => some (.maxn (fD w0) (fA w0) (fB w0))
    | 21 => some (.clz (fD w0) (fA w0))
    | 22 => some (.popc (fD w0) (fA w0))
    | 23 => some (.slt (fD w0) (fA w0) (fB w0))
    | 24 => some (.sltn (fD w0) (fA w0) (fB w0))
    | 25 => some (.seq (fD w0) (fA w0) (fB w0))
    | 26 => some (.sne (fD w0) (fA w0) (fB w0))
    | 27 => some (.sel (fD w0) (fA w0) (fB w0))
    | _ => none
  | 0x02 => some (.addi (fD w0) (fA w0) (fImm12 w0))
  | 0x03 => some (.andi (fD w0) (fA w0) (fImm12 w0))
  | 0x04 => some (.ori (fD w0) (fA w0) (fImm12 w0))
  | 0x05 => some (.xori (fD w0) (fA w0) (fImm12 w0))
  | 0x06 => some (.shli (fD w0) (fA w0) (w0.extractLsb' 0 6))
  | 0x07 => some (.shri (fD w0) (fA w0) (w0.extractLsb' 0 6))
  | 0x08 => some (.srai (fD w0) (fA w0) (w0.extractLsb' 0 6))
  | 0x09 => some (.slti (fD w0) (fA w0) (fImm12 w0))
  | 0x0A => some (.lui (fD w0) (fImm19 w0))
  | 0x0B =>
    match (fFn w0).toNat with
    | 0 => some (.li (fD w0) w1)
    | 1 => some (.liHi (fD w0) w1)
    | _ => none
  | 0x10 => (Cond.ofBits (w0.extractLsb' 23 3)).map fun c => .b c (w0.extractLsb' 16 7) (w0.extractLsb' 0 16)
  | 0x11 => some (.j (w0.extractLsb' 0 26))
  | 0x12 => some (.call (w0.extractLsb' 0 26))
  | 0x13 =>
    match (fFn w0).toNat with
    | 0 => some (.jr (fA w0))
    | 1 => some .ret
    | 2 => some (.callr (fA w0))
    | _ => none
  | 0x14 => some (.loop (w0.extractLsb' 16 7) (w0.extractLsb' 0 16))
  | 0x18 => some (.lrun (fImm19 w0))
  | 0x19 => some (.dqput (fA w0))
  | 0x1A =>
    match (fFn w0).toNat with
    | 0 => some (.rqget (fD w0))
    | 1 => some (.rqgetTry (fD w0) (fA w0))
    | _ => none
  | 0x1B => some .sjoin
  | 0x1C =>
    match (fFn w0).toNat with
    | 0 => some .bar
    | 1 => some .gbar
    | 2 => some (.tvoteAny (fD w0) (fA w0))
    | 3 => some (.tvoteAll (fD w0) (fA w0))
    | 4 => some (.tvoteSum (fD w0) (fA w0))
    | 5 => some .tret
    | 6 => some .exit
    | _ => none
  | 0x1D =>
    match (fFn w0).toNat with
    | 0 => some (.tcall (fD w0) (fA w0) (w1.extractLsb' 0 4) (w1.getLsbD 4))
    | _ => none
  | 0x1E =>
    match (fFn w0).toNat with
    | 0 => some (.launch (fD w0) (fA w0))
    | 1 => some (.launchW (fD w0) (fA w0))
    | 2 => some .lwait
    | _ => none
  | 0x20 => some (.ldS8 (fD w0) (fA w0) (fImm12 w0))
  | 0x21 => some (.ldS16 (fD w0) (fA w0) (fImm12 w0))
  | 0x22 => some (.ldS32 (fD w0) (fA w0) (fImm12 w0))
  | 0x23 => some (.ld64 (fD w0) (fA w0) (fImm12 w0))
  | 0x24 => some (.ldN8 (fD w0) (fA w0) (fImm12 w0))
  | 0x25 => some (.ldN16 (fD w0) (fA w0) (fImm12 w0))
  | 0x26 => some (.ldN32 (fD w0) (fA w0) (fImm12 w0))
  | 0x27 => some (.st8 (fD w0) (fA w0) (fImm12 w0))
  | 0x28 => some (.st16 (fD w0) (fA w0) (fImm12 w0))
  | 0x29 => some (.st32 (fD w0) (fA w0) (fImm12 w0))
  | 0x2A => some (.st64 (fD w0) (fA w0) (fImm12 w0))
  | 0x2B => do some (.ldo (← LdSize.ofBits (fFn w0)) (fOrd w1) (← fScope w1) (fD w0) (fA w0) (fDisp w1))
  | 0x2C => do some (.sto (← StSize.ofBits (fFn w0)) (fOrd w1) (← fScope w1) (fD w0) (fA w0) (fDisp w1))
  | 0x2D => do some (.satom (← AtomOp.ofCode (fFn w0).toNat) (w1.getLsbD 5) (fOrd w1) (← fScope w1) (fD w0) (fA w0) (fB w0) (fDisp w1))
  | 0x2E => spaccCandidate w0 w1
  | 0x2F => fenceCandidate w0
  | 0x30 =>
    match (fFn w0).toNat with
    | 0 => do some (.mwait (fOrd w1) (← fScope w1) (fD w0) (fA w0) (fB w0) (w1.extractLsb' 5 27))
    | _ => none
  | 0x31 =>
    match (fFn w0).toNat with
    | 0 => do some (.qtake (← fScope w1) (fD w0) (fA w0))
    | 1 => do some (.qput (← fScope w1) (fD w0) (fA w0) (fB w0))
    | _ => none
  | 0x32 => (CopyDir.ofBits (fFn w0)).map fun dir => .cpy dir (fD w0) (fA w0) (fB w0) (w1.extractLsb' 0 4) (w1.extractLsb' 4 4)
  | 0x33 =>
    match (fFn w0).toNat with
    | 0 => some (.wload (w1.extractLsb' 0 4) (w1.extractLsb' 4 8) (w1.extractLsb' 12 2) (w1.getLsbD 14) (fA w0) (fB w0))
    | _ => none
  | 0x34 =>
    match (fFn w0).toNat with
    | 0 => some (.waitc (w1.extractLsb' 0 8) (w1.extractLsb' 8 8) (w1.extractLsb' 16 8) (w1.extractLsb' 24 8))
    | 1 => (Counter.ofBits (fD w0)).map fun p => .waitr p (fA w0)
    | _ => none
  | 0x35 =>
    match (fFn w0).toNat with
    | 0 => (BankHint.ofBits (w1.extractLsb' 0 2)).map fun st => .sphint st (fA w0) (fB w0)
    | _ => none
  | 0x36 =>
    match (fFn w0).toNat with
    | 0 => some (.stepBegin (fD w0) (fA w0) (fB w0))
    | 1 => some (.stepProg (fD w0) (fA w0) (fB w0))
    | 2 => some (.stepEnd (fD w0) (fA w0))
    | _ => none
  | 0x37 => if fD w0 == 127#7 then some (.wrsr (fA w0) (fImm12 w0)) else some (.rdsr (fD w0) (fImm12 w0))
  | 0x38 =>
    match (fFn w0).toNat with
    | 0 => some (.tagset (fD w0) (fA w0))
    | 1 => some (.tagkill (fD w0) (fA w0))
    | 2 => some (.ctxsave (w1.getLsbD 12) (fD w0) (fA w0) (fB w0) (w1.extractLsb' 0 12))
    | 3 => some (.ctxload (fD w0) (fA w0) (w1.extractLsb' 0 12))
    | 4 => mappgCandidate w0 w1
    | 5 => privqCandidate w0 w1
    | _ => none
  | _ => none

/-! ## L-stream words -/

/-- Word0 of an L-stream instruction (R58). -/
def lWord0 (op : BitVec 8) (o : LOp) : Word32 :=
  op ++ o.vd ++ o.g.p ++ bit o.g.neg ++ (BitVec.ofNat 4 o.ty.code) ++ o.rnd ++ o.mods

/-- The c, lc and kc fields (R59). -/
def CSrc.bits : CSrc → BitVec 12
  | .vec r h => r ++ h.bits ++ (0 : BitVec 2)
  | .imm => 1
  | .dq => 2
  | .kreg n => (0 : BitVec 4) ++ n ++ (3 : BitVec 4)

/-- Word1 of an L-stream instruction (R58). -/
def lWord1 (o : LOp) : Word32 := o.a.r ++ o.a.hint.bits ++ o.b.r ++ o.b.hint.bits ++ o.c.bits

/-- Source c from the low 12 bits of word1 (R59). -/
def CSrc.ofBits (v : BitVec 12) : Option CSrc :=
  match (v.extractLsb' 0 2).toNat with
  | 0 => (Hint.ofBits (v.extractLsb' 2 2)).map fun h => .vec (v.extractLsb' 4 8) h
  | 1 => some .imm
  | 2 => some .dq
  | _ => some (.kreg (v.extractLsb' 4 4))

/-- The fields of an L-stream word triple; none for a reserved type code or life hint (R17, R62). -/
def lFields (w0 w1 w2 : Word32) : Option LOp :=
  match ElemType.ofCode (w0.extractLsb' 8 4).toNat, Hint.ofBits (w1.extractLsb' 22 2), Hint.ofBits (w1.extractLsb' 12 2),
      CSrc.ofBits (w1.extractLsb' 0 12) with
  | some ty, some ha, some hb, some c =>
    some { g := ⟨w0.extractLsb' 13 3, w0.getLsbD 12⟩, ty := ty, rnd := w0.extractLsb' 6 2, mods := w0.extractLsb' 0 6,
           vd := w0.extractLsb' 16 8, a := ⟨w1.extractLsb' 24 8, ha⟩, b := ⟨w1.extractLsb' 14 8, hb⟩, c := c, w2 := w2 }
  | _, _, _, _ => none

/-! ## Encoder and decoder -/

/-- The words of a well-formed instruction; no word for an event of the part. -/
def encode (i : Instr) : List Word32 :=
  match i.lParts with
  | some (op, o) => [lWord0 (BitVec.ofNat 8 op) o, lWord1 o, o.w2]
  | none => sEncode i

/-- Why a word is not an instruction: no code of the maps names it, a field that must be zero is not (R55, R63), or a
field or pairing breaks the limits of its description. Each faults ILLEGAL (R56 step 2). -/
inductive Reject | unlisted | reserved | limit
  deriving DecidableEq, Repr

/-- What the decoder answers. -/
inductive Decoded
  | instr (i : Instr)
  | reject (r : Reject)
  deriving DecidableEq, Repr

/-- Length in words of an S-stream instruction, from word0 alone (R47). -/
def sWords (w0 : Word32) : Nat :=
  match (w0.extractLsb' 26 6).toNat with
  | 0x0B | 0x1D | 0x1E | 0x2B | 0x2C | 0x2D | 0x2E | 0x30 | 0x31 | 0x32 | 0x33 | 0x35 | 0x36 | 0x38 => 2
  | 0x34 => if fFn w0 == 0 then 2 else 1
  | _ => 1

/-- Accept a candidate whose encoding is exactly the words found and whose fields keep their limits. -/
def accept (c : Option Instr) (ws : List Word32) : Decoded :=
  match c with
  | none => .reject .unlisted
  | some i => if encode i != ws then .reject .reserved else if i.wf then .instr i else .reject .limit

/-- Decode an S-stream instruction whose words are w0 and, for S.X, w1. -/
def decodeS (w0 w1 : Word32) : Decoded := accept (sCandidate w0 w1) (if sWords w0 == 2 then [w0, w1] else [w0])

/-- Decode an L-stream instruction. Log 23. -/
def decodeL (w0 w1 w2 : Word32) : Decoded :=
  accept ((lFields w0 w1 w2).bind fun o => lInstr (w0.extractLsb' 24 8).toNat o) [w0, w1, w2]

/-- A little-endian word from its bytes, a missing byte reading zero (R2). -/
def wordOfBytes (bs : List Byte) : Word32 := bs.getD 3 0 ++ bs.getD 2 0 ++ bs.getD 1 0 ++ bs.getD 0 0

/-- Decode an S-stream instruction from its bytes, lowest address first. -/
def decodeSBytes (bs : List Byte) : Decoded := decodeS (wordOfBytes bs) (wordOfBytes (bs.drop 4))

/-- Decode an L-stream instruction from its bytes, lowest address first. -/
def decodeLBytes (bs : List Byte) : Decoded :=
  decodeL (wordOfBytes bs) (wordOfBytes (bs.drop 4)) (wordOfBytes (bs.drop 8))

/-- The n low bytes of a number, least significant first (R2). -/
def leBytes : Nat → Nat → List Byte
  | 0, _ => []
  | n + 1, w => BitVec.ofNat 8 w :: leBytes n (w / 256)

/-- The instruction that the decoder reads from bits numbered as the opcode table numbers them: 96 bits for an L-stream
instruction, 32 or 64 for one of the S-stream. -/
def decodeTableWord (nbits w : Nat) : Option Instr :=
  let d := if 64 < nbits then decodeLBytes (leBytes 12 w) else decodeSBytes (leBytes 8 w)
  match d with
  | .instr i => some i
  | .reject _ => none

end Sys2Proof
end

