-- ==== Sys2Proof/Config.lean ====
section
/-! DEFINITION. What an implementation fixes and what the spec leaves open: the free values of the model, each an opaque
constant that no proof can evaluate, and the fixed figures of the part. -/

namespace Sys2Proof

/-- An agent that acts in a turn: the S-stream or one path slot of the L-stream of a group, or an event of the part. -/
inductive Act
  | issueS (uid : Nat)
  | issueL (uid : Nat) (ps1 : Bool)
  | event (i : Instr)
  deriving DecidableEq, Repr, Inhabited

/-- One turn: the agent that acts and the time that passes before it acts, in sixteenths of a tick (R1, R4): no clock of the
part counts two cycles in one of them, so that every cycle can be an agent's (R392). Log 1. -/
structure Turn where
  act : Act
  dt  : Nat
  deriving DecidableEq, Repr, Inhabited

namespace Config

/-- Who acts next, and after how many ticks, when the agenda names nobody: only timing fixes it (R7 to R9, R173). Log 1. -/
opaque freeTurn : Nat → Turn

/-- A 64-bit value the spec leaves open. Log 2. -/
opaque freeWord : Nat → Word

/-- A 256-bit key or challenge that a key store draws (R363, R365, R367, R376). Log 2. -/
opaque freeKey : Nat → BitVec 256

/-- The migration key of world 0 in the given reset: R343 seals with the world's migration key and gives world 0 none. Log 2. -/
opaque platformMigKey : Nat → BitVec 256

/-- The source number that a launch controller puts into a trail record: R1 gives it none (R383). Log 2. -/
opaque launchSource : Nat

/-- The source number in the trail record of a queue whose descriptor lies in no slice of the device (R382). Log 2. -/
opaque hostQueueSource : Nat

/-- Which of two agents that only timing orders goes first (R158, R161). Log 2. -/
opaque freeBool : Nat → Bool

/-- The ECDSA signature over P-521 with the identity key of the given reset: r then s, 132 bytes (R373, R374). Log 3. -/
opaque ecdsaSign : Nat → List Byte → List Byte

/-- The identity public key of the given reset (R374). Log 3. -/
opaque identityPub : Nat → List Byte

/-- The certificate chain from the device authority to the identity public key (R374). Log 3. -/
opaque certChain : Nat → List Byte

/-- ECDH on P-521 of the identity private key of the given reset and a public key of 132 bytes: 66 bytes (R413). Log 3. -/
opaque ecdhIdentity : Nat → List Byte → List Byte

/-- The SHA-512 measure of machine firmware (R374). Log 3. -/
opaque machineFirmware : List Byte

/-- The SHA-512 measure of the supervisor firmware image at a physical address, whose length the spec does not give
(R374, R411). Log 3. -/
opaque firmwareMeasure : Nat → Nat → List Byte

/-- The error that the host link or the fabric returns for an access at a place, if any, from the counter of free values: an
integrity failure, or a refusal of the target (R193, R216). Log 124. -/
opaque remoteErr : Nat → Nat → Option Bool

/-- The DRAM layer of its quadrant that holds a line (R391 gives no placement). Log 65. -/
opaque dramLayer : Nat → Nat

end Config

end Sys2Proof
end

