-- ==== Sys2Proof/Machine/State.lean ====
section
/-! DEFINITION. The state of the SVX-192 as plain data: the issuing group and the other groups, teams, gangs, grids,
contexts, the local stores and engines of the cores, the memory system and the device registers, with `State.reset`. -/

namespace Sys2Proof.Machine

/-- A sparse store of bytes by address, in canonical form: addresses strictly rising, no entry of value 0. An address
that is not listed reads 0 (R409 for device memory; log 10 and 11 for the stores whose first contents the spec leaves
open). -/
abbrev Cells := List Host.Cell

/-! ## One group -/

/-- Life states of a vector register (R16), in the order of their codes (R337). -/
inductive Life | dead | live | rest | poison
  deriving DecidableEq, Repr

/-- Supply of a register block (R20) or a scratchpad bank (R183). A wake or power-up in progress carries the cycle of
the core's clock at which it ends, and whether the contents were kept (R21, R183). -/
inductive Supply | full | ret | off | waking (due : Nat) (kept : Bool)
  deriving DecidableEq, Repr

/-- A path: an L-PC as a word offset and a set of lanes (R121). -/
structure Path where
  pc   : Nat
  mask : Mask
  deriving DecidableEq, Repr

/-- Kinds of divergence entry (R123). -/
inductive EntryKind | join | loop | park
  deriving DecidableEq, Repr

/-- An entry of the divergence stack: join offset, exit offset or path PC, and mask (R123). -/
structure StackEntry where
  kind : EntryKind
  pc   : Nat
  mask : Mask
  deriving DecidableEq, Repr

/-- Kinds of hold: VBAR at an offset, or LEND (R132). -/
inductive HoldKind | vbar (b : Nat) | lend
  deriving DecidableEq, Repr

/-- An open hold and the lanes it holds (R132). -/
structure Hold where
  kind : HoldKind
  mask : Mask
  deriving DecidableEq, Repr

/-- An entry of the decision queue: block entry or value, and the mode that appended it (R12, R315). A block entry carries what
the joints of R14 put before its block: the accesses that the S-stream issued below the number `seq`, and those of earlier blocks
below `join`. -/
structure DqEntry where
  block   : Bool
  handler : Bool
  val     : Word
  seq     : Nat
  join    : Nat
  deriving DecidableEq, Repr

/-- The A-row latch of MMA.reuse: the rows held and their length in bytes (R293). -/
structure Latch where
  rows   : List (List Byte)
  rowLen : Nat
  deriving DecidableEq, Repr

/-- What an exact fault of the S-stream gives back (R194): s0 to s95, the S-PC, hs0 to hs15, and the flags of S-stream
instructions that follow an access still awaiting its answer. -/
structure SState where
  regs  : Vector Word 96
  pc    : Word
  hs    : Vector Word 16
  flags : Byte
  deriving DecidableEq, Repr

/-- What an exact fault of the L-stream gives back (R194): vector registers with their life states (R10, R16), hv
registers (R308), p1 to p7 (entry 0 stands for p0 and is never read), k registers, the path slots (R121), the divergence
stack, top first (R123), the nesting counters (R124), the hold (R132) and the live lanes (R121). -/
structure LState where
  vregs  : Vector VReg 256
  life   : Vector Life 256
  hv     : Vector VReg 8
  hvLife : Vector Life 8
  preds  : Vector Mask 8
  k      : Vector Word 16
  ps0    : Option Path
  ps1    : Option Path
  stack  : List StackEntry
  nest   : Vector Byte 128
  hold   : Option Hold
  live   : Mask
  deriving DecidableEq, Repr

/-- A memory fault: code, cause (R243), address, and physical address for POISON. -/
structure MemFault where
  code  : Byte
  cause : Byte
  addr  : Word
  pa    : Word
  deriving DecidableEq, Repr

/-- The fault of one lane; lane 255 stands for a scalar access or an engine command (R245). -/
structure LaneFault where
  lane : Nat
  mf   : MemFault
  deriving DecidableEq, Repr

/-- Kinds of stop (R309); a fault of kind "none" makes no stop. -/
inductive StopKind | exact | imprecise | whole | event
  deriving DecidableEq, Repr

/-- What a replay reuses: the path slot, the replay mask, the DQ value popped at the first issue, and the lanes completed
so far (R27, R248, R250). -/
structure Replay where
  ps1    : Bool
  mask   : Mask
  popped : Option Word
  done   : Mask
  deriving DecidableEq, Repr

/-- A stop of a group on its way to dispatch (R309 to R313): vector, cause, the value for hs1, the stream and path slot
that stopped, the resume PC, the faulting lanes, the mask of handler blocks, the replay state, the time with its source number
(R1), and whether its records are already queued. -/
structure Stop where
  kind   : StopKind
  code   : Byte
  cause  : Byte
  hs1    : Word
  l      : Bool
  ps1    : Bool
  pc     : Word
  lanes  : List LaneFault
  /-- Flags byte of its fault records (R245), without the phase. -/
  rflags : Byte
  mask   : Mask
  replay : Option Replay
  time   : Nat
  src    : Nat
  queued : Bool
  deriving DecidableEq, Repr

/-- What an access in flight will do at its response (R88 to R90, R118, R120, R201, R205, R214, R216, R298). -/
inductive AccKind
  | load (size : Nat) (signed : Bool)
  | vload (size : Nat) (signed : Bool)
  | vblk (count : Nat)
  | satom (op : AtomOp) (size : Nat) (signed : Bool)
  | vatom (op : BitVec 3) (ty : ElemType)
  | store (size : Nat)
  | queue (put : Bool)
  | drain (cmd n : Nat) (checked : Bool)
  deriving DecidableEq, Repr

/-- One lane (255 for scalar) of an access in flight: address, physical address or peer window offset, size, data,
compare value, and the answer or the failure once it is known (R181, R193). -/
structure Req where
  lane : Nat
  va   : Word
  pa   : Nat
  size : Nat
  data : Word
  cmp  : Word
  ans  : Option Word
  err  : Option (Byte × Byte)
  deriving DecidableEq, Repr

/-- The state an exact fault of an access in flight restores (R194). -/
inductive Snap
  | s (st : SState)
  | l (st : LState)
  | none
  deriving DecidableEq, Repr

/-- An access in flight (R194, R216): its number in the group's issue order, stream and path slot, PC, kind, destination,
order and scope, whether it goes to a scratchpad, its lanes, the lanes that failed at issue, the lanes selected, the DQ
value popped, and the state to restore. -/
structure Access where
  seq    : Nat
  l      : Bool
  ps1    : Bool
  pc     : Word
  kind   : AccKind
  dest   : BitVec 8
  ord    : Order
  scope  : Scope
  peer   : Bool
  reqs   : List Req
  fails  : List LaneFault
  sel    : Mask
  popped : Option Word
  /-- Lanes of a replayed instruction that completed before this issue (R27). -/
  done   : Mask
  /-- Issued in handler mode (R316). -/
  handler : Bool
  snap   : Snap
  /-- Lanes whose later events po or rcv order after this access: those of its path at its issue, and those of every later access
  of the stream that meets them (R221, R223). -/
  path   : Mask
  /-- Accesses in flight that po, jt or rcv order before this one, and those of them that must be performed first (R191,
  R208). -/
  prior  : List Nat
  needs  : List Nat
  /-- A release, or a write that a fence binds: what rounds put before it must be performed first too (R152, R228). -/
  cumul  : Bool
  deriving DecidableEq, Repr

/-- The accesses of another group, below a number of its own, that a round of barriers or team-calls puts before what this group
does from a number on (R152). -/
structure Seen where
  uid    : Nat
  bound  : Nat
  since  : Nat
  deriving DecidableEq, Repr

/-- The stores that a REL or ACQREL fence of a stream, or of a path of some lanes, puts before its later stores and atomics
(R208, R211). -/
structure FenceMark where
  l    : Bool
  mask : Mask
  seqs : List Nat
  deriving DecidableEq, Repr

/-- One count of an in-flight counter, oldest first (R196, R197). -/
structure Token where
  cls  : Counter
  id   : Nat
  done : Bool
  deriving DecidableEq, Repr

/-- An L-stream instruction that has issued and not completed: its number, the flags it will OR and the registers the
scoreboard holds (R25, R93). -/
structure LPend where
  seq   : Nat
  flags : Byte
  regs  : List (BitVec 8)
  preds : List (BitVec 3)
  ks    : List (BitVec 4)
  deriving DecidableEq, Repr

/-- A launch record (R142). The parent link is the grid's own. -/
structure LaunchRec where
  sbase   : Word
  lbase   : Word
  sentry  : Word32
  gx      : Nat
  gy      : Nat
  gz      : Nat
  teams   : Nat
  groups  : Nat
  regs    : Nat
  bars    : Nat
  tags    : Nat
  tier    : Nat
  strict  : Bool
  frames  : Nat
  spbytes : Nat
  wdog    : Word
  spill   : Word
  cword   : Word
  args    : Vector Word 6
  deriving DecidableEq, Repr

/-- What the S-stream waits in, beyond the stalls that simply issue again (R151, R161, R210, R212, R318). -/
inductive SWait
  | none
  | round
  | gbar
  | tret
  | mwait (start line : Nat) (woken : Bool) (d : SReg) (ea cmp : Word) (tmo : Nat)
  | lwait
  | launch (rec : LaunchRec) (d : SReg)
  | fenceRem (targets : List (Nat × Option Nat))
  | debug
  /-- An invalidation that completes an instruction of so many bytes, with its register writes (R247, R249). -/
  | inval (id n : Nat) (writes : List (SReg × Word))
  /-- The wait ended while a handler ran: the user's S-stream goes on at a PC, with registers to write. -/
  | go (pc : Word) (writes : List (SReg × Word))
  deriving DecidableEq, Repr

/-- Whether a group runs, has a stop that waits to enter its handler (R313) or to be descheduled (R210), is descheduled (R317), or
has exited (R154). A stop stands with the address of its handler (R312). -/
inductive Status
  | run
  | shadow (st : Stop) (entry : Word)
  | draining (st : Stop) (entry : Word)
  | desched (st : Stop) (entry : Word)
  | exited
  deriving DecidableEq, Repr

/-- What a group in handler mode holds (R313): the stop that entered it, the banked L-stream state, the banked running
flags, the S-PC of the user, the PC written to hs2 at entry, the RQ count at entry, and the level to return to. -/
structure Handler where
  stop    : Stop
  user    : LState
  latch   : Option Latch
  running : Bool
  hbase   : Bool
  userPc  : Word
  rqn     : Nat
  level   : Level
  replay  : Option Replay
  /-- What the user's S-stream waited in when the handler was entered. -/
  wait    : SWait
  /-- The user's LRUN joint (R14). -/
  lAfter  : Nat
  bAfter  : Nat
  deriving DecidableEq, Repr

/-- One group (R7 to R27, R121 to R134, R140, R166, R196, R308 to R317). -/
structure Group where
  /-- The model's own name of the group. -/
  uid     : Nat
  /-- The team it belongs to, and its rank in the team at dispatch (R140). -/
  team    : Nat
  rank    : Nat
  /-- Issue unit, group slot 0 to 95, first register block of its run, and allocated register count (R166, R167, R10). -/
  iu      : Nat
  slot    : Nat
  block   : Nat
  nregs   : Nat
  /-- Privilege level (R307). -/
  level   : Level
  s       : SState
  l       : LState
  /-- The L-stream runs a block; the block counts from HLBASE and not from LBASE (R314). -/
  running : Bool
  hbase   : Bool
  latch   : Option Latch
  dq      : List DqEntry
  rq      : List Word
  flags   : Byte
  fmask   : Byte
  done    : Mask
  mxst    : Word
  cycle   : Nat
  /-- Convergence watchdog (R134). -/
  wdog    : Nat
  /-- EXIT or HALT has executed and waits (R154, R217). -/
  exiting : Bool
  /-- Supply of the blocks of its run, block n holding v8n to v8n+7 (R20). -/
  blocks  : Vector Supply 32
  /-- Replay of the L-stream instruction at the head of a path slot (R250). -/
  replay  : Option Replay
  /-- Accesses in flight, in issue order (R194, R216), and the counts of the in-flight counters (R196). -/
  accs    : List Access
  tokens  : List Token
  lpend   : List LPend
  /-- Next number in the group's issue order. -/
  seq     : Nat
  /-- The joints of R14: accesses of the S-stream below `lAfter` and of earlier blocks below `bAfter` come before the running
  block, accesses of the L-stream below `sAfter` before what the S-stream does next. -/
  lAfter  : Nat
  bAfter  : Nat
  sAfter  : Nat
  /-- What rounds put before the group's next accesses (R152). -/
  seen    : List Seen
  fences  : List FenceMark
  wait    : SWait
  status  : Status
  handler : Option Handler
  /-- Stops not yet dispatched: imprecise stops at the next boundary, held stops, DEADLINE (R217, R265, R316, R323). -/
  stops   : List Stop
  /-- Parked by an ask (R330); halted at instruction level (R331). -/
  parked  : Bool
  halted  : Bool
  deriving DecidableEq, Repr

/-! ## Teams, gangs, grids -/

/-- Kinds of a barrier round (R151, R420). -/
inductive RoundKind
  | bar | voteAny | voteAll | voteSum
  | tcall (pc addr : Word)
  | gbar
  deriving DecidableEq, Repr

/-- A callee table entry as read (R156). -/
structure Callee where
  entry  : Word
  arg    : Word32
  weight : Nat
  deriving DecidableEq, Repr

/-- An open round of a pool entry: kind, the ranks that arrived with their values and destinations, the rank of the first
arrival, and the callee table of the latest (R151, R157). -/
structure Round where
  pool    : Nat
  kind    : RoundKind
  arrived : List (Nat × Word × SReg)
  first   : Nat
  table   : List Callee
  sp      : Bool
  deriving DecidableEq, Repr

/-- A team-mask frame in use (R160), with its frame index and the frame-area slot it is spilled to, if any. -/
structure Frame where
  idx    : Nat
  slot   : Option Nat
  mask   : BitVec 16
  bar    : Byte
  callee : Byte
  next   : Byte
  parent : Byte
  n      : BitVec 4
  sp     : Bool
  argreg : SReg
  addr   : Word
  ret    : Word
  deriving DecidableEq, Repr

/-- A division of a (sub-)team (R158 to R162): its calling frame (255 for the team), the table read, the deferred callees
in table order, the frames of its sub-teams in served order, the frames whose sub-team has finished, the ranks that have
executed TRET, in their order, and the table's address, count and space as the frames first hold them. -/
structure Division where
  parent   : Nat
  table    : List Callee
  deferred : List Nat
  frames   : List Nat
  finished : List Nat
  order    : List Nat
  addr     : Word
  n        : BitVec 4
  sp       : Bool
  deriving DecidableEq, Repr

/-- One team (R140, R149, R155, R160, R166). -/
structure Team where
  id      : Nat
  gang    : Nat
  tid     : Nat
  /-- Physical core and logical core. -/
  core    : Nat
  lcore   : Nat
  /-- First bank, units held, and window size (R168). -/
  base    : Nat
  units   : Nat
  spbytes : Nat
  ngroups : Nat
  exited  : BitVec 16
  /-- Barriers of the core held, by pool entry, and pool entries in use by sub-teams beyond entry 0 (R149, R159). -/
  bars    : List Nat
  pool    : List Nat
  tags    : BitVec 16
  area    : Nat
  rounds  : List Round
  frames  : List Frame
  divs    : List Division
  /-- Drain pending for a thermal move that its BAR round has begun (R346). -/
  moving  : Bool
  deriving DecidableEq, Repr

/-- One gang (R140, R149, R153, R170). -/
structure Gang where
  id      : Nat
  grid    : Nat
  num     : Nat
  x       : Nat
  y       : Nat
  z       : Nat
  nteams  : Nat
  cluster : Nat
  ticket  : Word32
  bar     : Option Nat
  /-- Ranks that arrived at the open GBAR round: team rank and group rank (R151). -/
  arrived : List (Nat × Nat)
  /-- Position on the curve (R389), and whether its teams are all freed and it waits for the gang before it (R170). -/
  pos     : Nat
  freed   : Bool
  deriving DecidableEq, Repr

/-- How a grid that is ending will retire: outcome, code, group, team and gang of the completion word (R147). -/
structure Ending where
  outcome : Byte
  code    : Byte
  rank    : Nat
  tid     : Nat
  gang    : Nat
  deriving DecidableEq, Repr

/-- One grid, pending or dispatched (R142 to R147, R163, R165). -/
structure Grid where
  id      : Nat
  ctx     : Nat
  launch  : LaunchRec
  parent  : Option Nat
  depth   : Nat
  num     : Word32
  sup     : Bool
  next    : Nat
  retired : Nat
  /-- Its entry still stands in the pending-launch store of its quadrant (R146). -/
  pending : Bool
  quad    : Nat
  atime   : Nat
  asrc    : Nat
  ending  : Option Ending
  deriving DecidableEq, Repr

/-! ## Cores -/

/-- States of a matrix tag (R276). -/
inductive TagState | free | active | dying
  deriving DecidableEq, Repr

/-- A matrix tag (R276, R293): entry, rows poisoned, and the format of its latest issued WLOAD. -/
structure Tag where
  ctx    : BitVec 12
  bank   : BitVec 4
  slot   : BitVec 3
  st     : TagState
  qm1    : BitVec 3
  bfmt   : Byte
  blen   : BitVec 2
  b128   : Bool
  pois   : Word32
  issued : Option (Byte × BitVec 2 × Bool)
  deriving DecidableEq, Repr

/-- States of a step entry (R395). -/
inductive StepState | free | active | missed
  deriving DecidableEq, Repr

/-- The content of a step entry (R395). -/
structure StepView where
  st    : StepState
  ctx   : Nat
  team  : Nat
  uid   : Nat
  pc    : Word
  d     : Word
  w     : Nat
  done  : Nat
  gen   : BitVec 16
  deriving DecidableEq, Repr

/-- A step entry (R395): its content, the time stamp of its latest update, and its content before the first update of that
stamp, which a window of that TIME uses (R398). -/
structure StepEntry extends StepView where
  stamp : Nat
  old   : StepView
  deriving DecidableEq, Repr

/-- A TLB entry (R237, R242): context, virtual base, page size, physical base, W, X, the leaf entry's address, whether
the entry has set D, and the entries of the walk whose A bit a walk-ahead entry has yet to set (R268). -/
structure TlbEntry where
  ctx   : Nat
  va    : Nat
  size  : Nat
  pa    : Nat
  w     : Bool
  x     : Bool
  leaf  : Nat
  dirty : Bool
  path  : List Nat
  deriving DecidableEq, Repr

/-- A compactor move in progress: its end in cycles and the groups it holds (R169). -/
structure Compaction where
  due    : Nat
  owners : List Nat
  deriving DecidableEq, Repr

/-- The fixed state of one physical core. -/
structure CoreState where
  tags   : Vector Tag 16
  /-- BASEM1 and LVL (R400), and whether LVL was above 0 in the window (R398). -/
  basem1 : BitVec 4
  lvl    : Nat
  throttled : Bool
  /-- Rotation pointer, waves injected in the current turn, cycle of the last injection (R275, R287). -/
  rot    : BitVec 4
  turn   : Option Nat
  inj    : Option Nat
  /-- Scratchpad bank supply (R183) and poisoned 8-byte words (R184). -/
  banks  : Vector Supply 48
  poison : List Nat
  steps  : Vector StepEntry 16
  /-- Violation log (R182). -/
  vcount : Nat
  vovf   : Bool
  vnext  : BitVec 3
  vaddr  : Vector Word 8
  vinfo  : Vector Word 8
  tlb    : List TlbEntry
  ahead  : List TlbEntry
  /-- Sensor (R417). -/
  temp   : BitVec 16
  thr    : BitVec 16
  hot    : Bool
  /-- TIME of the latest sample (R417). -/
  sampled : Option Nat
  compact : Option Compaction
  deriving DecidableEq, Repr

/-- The space a range lock names (R262). -/
inductive Space
  | global
  | window (core base : Nat)
  | wb (core tag : Nat)
  /-- A local range that resolves to no window. -/
  | unresolved
  deriving DecidableEq, Repr

/-- An entry of a core's range-lock table (R262): the command that holds it, its context, the range, whether it is a
destination, and whether that command has begun. -/
structure Lock where
  cmd   : Nat
  core  : Nat
  ctx   : Nat
  space : Space
  lo    : Nat
  hi    : Nat
  dst   : Bool
  deriving DecidableEq, Repr

/-- A tensor record (R258). -/
structure TensorRec where
  esize : Nat
  ndim  : Nat
  bp    : Bool
  l128  : Bool
  d     : Vector Nat 4
  ss    : Vector Int 3
  ds    : Vector Int 3
  deriving DecidableEq, Repr

/-- States of a copy command (R255, R264, R270). -/
inductive CopyState | registered | running | suspended | finished
  deriving DecidableEq, Repr

/-- A copy command (R255 to R271). -/
structure Copy where
  id     : Nat
  core   : Nat
  ctx    : Nat
  uid    : Nat
  team   : Nat
  level  : Level
  tensor : TensorRec
  src    : Word
  dst    : Word
  dir    : CopyDir
  k      : Nat
  tag    : Nat
  pc     : Word
  cursor : Nat
  /-- A handler issued it (R316). -/
  handler : Bool
  /-- The accesses of its group that come before its registration: those of the S-stream below `seq`, those of the L-stream below
  `join` (R224). -/
  seq    : Nat
  join   : Nat
  st     : CopyState
  resume : Bool
  code   : Byte
  cause  : Byte
  deriving DecidableEq, Repr

/-- A matrix command after its issue (R278, R293, R296, R298, R300). -/
inductive MxKind
  | mma (rb m : Nat) (rows : List (List Byte)) (afmt bfmt : Byte) (blen : BitVec 2) (b128 ovr : Bool)
      (sbase : Word) (sstride issued : Nat)
  | wload (fmt : Byte) (blen : BitVec 2) (b128 : Bool) (tile scales : Nat)
  | drain (toSp : Bool) (vd : BitVec 8) (base : Word) (ty : ElemType) (rnd : Rnd) (sat clr : Bool)
      (drop : Option (Word × Word × Word)) (rb m : Nat) (resid : List VReg) (pops : List Word) (acc : Nat)
  | mzero (rb m : Nat)
  deriving DecidableEq, Repr

/-- A matrix command in a tag's queue: whether it has begun, was removed with waves in flight (R302, R350), how many of its
waves are prepared, injected and finished, the bank rows nulled, its flags, whether a handler issued it (R313), and the L-PC
or S-PC of its instruction. -/
structure MxCmd where
  id       : Nat
  core     : Nat
  tag      : Nat
  ctx      : Nat
  uid      : Nat
  team     : Nat
  kind     : MxKind
  pc       : Word
  handler  : Bool
  begun    : Bool
  killed   : Bool
  prepared : Nat
  injected : Nat
  finished : Nat
  nulled   : Word32
  flags    : Byte
  deriving DecidableEq, Repr

/-- A prepared wave: its command and row, the activation scales read, its null cause and record address, and the cycle of
its injection (R286, R289, R290). -/
structure Wave where
  cmd    : Nat
  core   : Nat
  tag    : Nat
  row    : Nat
  scales : List (BitVec 16)
  null   : Option (Byte × Word)
  inj    : Option Nat
  /-- Write enable off: the tag was removed after the injection (R302). -/
  off    : Bool
  deriving DecidableEq, Repr

/-! ## Contexts, partitions, worlds -/

/-- States of the ladder (R328). -/
inductive Ladder | run | asked | halting | halted | empty
  deriving DecidableEq, Repr

/-- What the sections of a save image have no bytes for (R335 to R337, R420), which the device keeps beside the save counter
of the image: of a group, the DQ value a replay reuses with its path slot, the held stops, and the stop of a descheduled
group with its handler. -/
structure KeptGroup where
  grid    : Word32
  gang    : Nat
  tid     : Nat
  rank    : Nat
  popped  : Option Word
  ps1     : Bool
  stops   : List Stop
  desched : Option (Stop × Word)
  deriving DecidableEq, Repr

/-- Of a team: the poisoned words of its window. -/
structure KeptTeam where
  grid   : Word32
  gang   : Nat
  tid    : Nat
  marks  : List Nat
  deriving DecidableEq, Repr

/-- Of a context: its groups and teams, the grids that run at SUPER (R307), and the gangs freed and not retired (R170). -/
structure Kept where
  groups : List KeptGroup
  teams  : List KeptTeam
  sups   : List Word32
  freed  : List (Word32 × Nat)
  deriving DecidableEq, Repr

/-- One context. -/
structure Ctx where
  id      : Nat
  part    : Nat
  world   : Byte
  tierMax : Nat
  ptroot  : Word
  frqb    : Word
  frqh    : Word32
  frqt    : Word32
  lost    : Nat
  ovf     : Bool
  ftpb    : Word
  ftpn    : Word
  fvec    : Word
  hlbase  : Word
  mboxo   : Word
  mboxi   : Word
  drop    : Nat
  st      : Ladder
  parkedHalt : Bool
  /-- Times at which the grace and strike timers started (R329). -/
  grace0  : Nat
  strike0 : Nat
  pgrace  : Word32
  pstrike : Word32
  /-- Save counter (R338). -/
  counter : Nat
  /-- Replay list of handles, oldest first (R317). -/
  replays : List Word
  nextGrid : Word32
  /-- Measure of the supervisor firmware (R374). -/
  sfw     : List Byte
  /-- Outstanding bivouac challenge (R376). -/
  challenge : Option (List Byte)
  /-- MSI-X messages sent (R371). -/
  msix    : Nat
  /-- Struck since its function's STOP (R342). -/
  struck  : Bool
  /-- What the latest image has no bytes for. -/
  kept    : Kept
  deriving DecidableEq, Repr

/-- A partition table entry (R378), with the gang-ticket counter of its launch controller (R153), forced strict policy
(R163), and the records a replay has consumed out of order (R385). -/
structure Part where
  clusters : Word
  slices   : Word
  funcs    : Word
  ports    : Word32
  res0     : Word32
  routes   : Word
  podPart  : Word32
  mode     : Byte
  live     : Bool
  res1     : BitVec 16
  trbase   : Word
  trsize   : Word32
  res2     : Word32
  trhead   : Word
  trtail   : Word
  res3     : List Byte
  tickets  : Word32
  strict   : Bool
  consumed : List Nat
  counts   : List (Nat × Word × Nat)
  /-- TIME and source number of the latest record written (R384). -/
  latest   : Option (Nat × Nat)
  deriving DecidableEq, Repr

/-- A protected world: partition, key generation, and its network, storage, world, link and migration keys (R367). -/
structure World where
  id   : Byte
  part : Nat
  gen  : Nat
  keys : List (BitVec 256)
  deriving DecidableEq, Repr

/-- A flow of the network: the next number accepted and whether it is broken (R363, R364). -/
structure Flow where
  id     : Word32
  next   : Nat
  broken : Bool
  deriving DecidableEq, Repr

/-- The sideband of a line that is owned or fails its check (R365, R244): owning world, key generation, and an
uncorrectable word. A line that is not listed is unowned. Its stored ciphertext, MAC and SEC-DED bits are seen by nothing (log 135). -/
structure Line where
  line : Nat
  owner : Option (Byte × Nat)
  bad  : Bool
  deriving DecidableEq, Repr

/-- Migration states of a function (R342). -/
inductive MigState | running | precopy | stopping | stopped | resuming
  deriving DecidableEq, Repr

/-- The migration slot of a function (R342, R343, R416): state, LOST, MIGDIRTY, last SEQ served, whether dirty pages are
tracked, and the pages of the partition that are clean. -/
structure Mig where
  f     : Nat
  st    : MigState
  lost  : Bool
  dirty : Word
  seq   : Nat
  track : Bool
  clean : List Nat
  deriving DecidableEq, Repr

/-- An invalidation posted and not complete (R241, R247, R249): context, virtual range, the accesses in flight that were
translated before it (group and number), and whether it stands in INVCMD. -/
structure Inval where
  id   : Nat
  ctx  : Nat
  lo   : Nat
  hi   : Nat
  accs : List (Nat × Nat)
  host : Bool
  deriving DecidableEq, Repr

/-- A voltage domain (R391 to R403): cycle counter and fraction, current point or level, pending change, and registers. -/
structure Dom where
  cycles  : Nat
  frac    : Nat
  cur     : Nat
  pending : Option Nat
  req     : Nat
  defpt   : BitVec 4
  uvofs   : Nat
  freeze  : Bool
  uven    : Bool
  cethr   : BitVec 6
  cecnt   : Nat
  ilim    : BitVec 16
  /-- Corrected errors in this millisecond, and samples below 0.9 ILIM (R401, R402). -/
  ms      : Nat
  low     : Nat
  deriving DecidableEq, Repr

/-- States of bivouac (R415). -/
inductive Biv | awake | entering | asleep | waking
  deriving DecidableEq, Repr

/-- States of TMIG (R345). -/
inductive TmigStatus | idle | pending | done | refused | cancelled
  deriving DecidableEq, Repr

/-- States of BOOTST (R410). -/
inductive Boot | reset | ready | recovery
  deriving DecidableEq, Repr

/-- Registers of the device and of the management block (R328, R345, R394, R398, R403, R410 to R419). -/
structure Dev where
  boot    : Boot
  sliceOk : Word
  ctxsel  : BitVec 12
  tmig    : TmigStatus
  tdst    : Byte
  tsrc    : Byte
  tslot   : BitVec 7
  /-- The team of a PENDING move, its target core, and what it reserves there (R345): issue unit, slot and first register block of
  each group in rank order, the first bank, and the barriers. -/
  tteam   : Nat
  tcore   : Nat
  tres    : List (Nat × Nat × Nat)
  tbase   : Nat
  tbars   : List Nat
  /-- The team has gone to its target and is to resume there (R346). -/
  tcarried : Bool
  pcap    : BitVec 16
  pfloor  : Vector (BitVec 16) 4
  pwr     : BitVec 16
  guard   : Word32
  /-- TIME of the latest governor window and of the latest current sample (R398, R401). -/
  window  : Option Nat
  sample  : Option Nat
  domsel  : BitVec 5
  errlb   : Word
  errlt   : Word32
  thsel   : Byte
  mevb    : Word
  mevt    : Nat
  /-- TIME and source number of the latest record of the event log (R1, R419). -/
  mevLast : Option (Nat × Nat)
  trdrop  : Nat
  ptcmd   : Word
  ctxcmd  : Word
  invcmd  : Word
  invpages : Word32
  killreq : Word
  dbgPort : Word
  wldcmd  : Word
  wldkey  : Word
  bivcmd  : Word
  biv     : Biv
  sleepKey : Option (BitVec 256)
  /-- Keys of each world wrapped for bivouac, each as ciphertext and tag (R376, R415). -/
  wrapped : List (Byte × List (List Byte × List Byte))
  /-- Session state of the network wrapped for bivouac: the flows as ciphertext and tag (R376). -/
  session : List Byte × List Byte
  /-- Protected contexts that slept through a reset which ended in RECOVERY, to be reported LOST at the next boot (R376, R415). -/
  lost    : List Ctx
  /-- Fabric route table, 64 entries of 32 bytes (R414), and migration windows, byte f * 65536 + offset (R343). -/
  rtab    : Cells
  migwin  : Cells
  /-- Attestation epoch (R376), and the number of this reset, which names the identity key pair (R374). -/
  epoch   : Nat
  resets  : Nat
  /-- Platform network and storage keys of this reset (R363, R365). -/
  netKey  : BitVec 256
  stoKey  : BitVec 256
  deriving DecidableEq, Repr

/-- A group that waits in LAUNCH.W or LWAIT at a quadrant's store, and whether it waits for an entry to free or for the trail alone
(R146, R384, R385). -/
structure Waiter where
  quad : Nat
  uid  : Nat
  full : Bool
  deriving DecidableEq, Repr

/-- An uncorrectable error that its unit has met and that has yet to be recorded (R403): the error, its TIME, and UVOFS then. -/
structure MetError where
  err   : ErrInput
  time  : Nat
  uvofs : Nat
  deriving DecidableEq, Repr

/-! ## The machine -/

/-- The state of the device. The issuing group stands apart from the others, so that the meaning of an instruction speaks
of `cur` (log 1). -/
structure State where
  /-- The group whose turn it is, and the path slot of an L-stream turn. -/
  cur     : Group
  ps1     : Bool
  others  : List Group
  /-- Turns already fixed, and the counter of free values (log 1, log 2). -/
  agenda  : List Turn
  fresh   : Nat
  /-- Next names of groups, teams, gangs, grids, commands and invalidations. -/
  nextId  : Nat
  time    : Nat
  /-- An access of this step has arrived where a level changes: the step waits (R393). -/
  held    : Bool
  /-- Sixteenths of a tick that have passed beyond TIME (R392; log 1). -/
  sub     : Nat
  teams   : List Team
  gangs   : List Gang
  grids   : List Grid
  /-- Groups that wait in LAUNCH.W or LWAIT, oldest first; and by quadrant how many entries have freed while some waited for one and
  none has gone on for yet (R146). -/
  waiters : List Waiter
  freed   : Vector Nat 4
  /-- Trail records of atomics that the device has written, each with a number for its operation (R388). -/
  recorded : List (List Byte × Nat)
  cores   : Vector CoreState 192
  copies  : List Copy
  cmds    : List MxCmd
  waves   : List Wave
  locks   : List Lock
  /-- Memory by 52-bit physical address (R240, R361); scratchpad by core * 2^19 + byte; weight buffer by core * 2^18 +
  byte; accumulator banks by core * 2^18 + bank * 2^14 + byte; weight slots by core * 2^16 + slot * 2^13 + byte; resident
  scales by core * 2^13 + slot * 2^10 + byte (R175, R272, R279). -/
  mem     : Cells
  /-- What stores to memory replaced, latest first: the next name at the store, the place and the bytes before it (R57). -/
  olds    : List (Nat × Nat × List Byte)
  sp      : Cells
  wb      : Cells
  acc     : Cells
  slots   : Cells
  scales  : Cells
  /-- Weight buffer and accumulator words with an uncorrectable error, and slot cells of bad parity, by the same
  addresses (R289). -/
  slotBad : List Nat
  errs    : List MetError
  lines   : List Line
  qtlbs   : Vector (List TlbEntry) 4
  invals  : List Inval
  /-- Lines of host memory that level 2 may hold (R370). -/
  hostLines : List Nat
  ctxs    : List Ctx
  parts   : Vector Part 16
  worlds  : List World
  worldGen : Nat
  flows   : List Flow
  migs    : List Mig
  doms    : Vector Dom 24
  dev     : Dev
  /-- Attestation reports and host read data given out, latest first (R370, R374). -/
  reports : List (List Byte)
  deriving DecidableEq, Repr

/-- Reasons for the machine to stop with a fault. Every fault of the spec is an exception the machine takes, so no meaning
raises this one (safe: nothing is proved from it). -/
inductive Fault
  | machineStop
  deriving DecidableEq, Repr

/-- Reasons for refusing an instruction. `notModelled` is the dispatch table's own, for an instruction that has no meaning
yet (safe: the run ends there). -/
inductive Refusal
  | notModelled (mnemonic : String)
  deriving DecidableEq, Repr

/-- The answer of a meaning. -/
abbrev Out := Host.Outcome State Fault Refusal

/-! ## Reset -/

/-- The stream state of a group at its start: every register zero (R10). Log 118. -/
def SState.start : SState := ⟨Vector.replicate 96 0, 0, Vector.replicate 16 0, 0⟩

/-- The L-stream state of a group at its start: registers DEAD, predicates and k registers zero, every lane live, no path
(R10, R16, R121). Log 118. -/
def LState.start : LState where
  vregs  := Vector.replicate 256 (Vector.replicate 128 0)
  life   := Vector.replicate 256 .dead
  hv     := Vector.replicate 8 (Vector.replicate 128 0)
  hvLife := Vector.replicate 8 .dead
  preds  := Vector.replicate 8 0
  k      := Vector.replicate 16 0
  ps0    := none
  ps1    := none
  stack  := []
  nest   := Vector.replicate 128 0
  hold   := none
  live   := BitVec.allOnes 128

/-- A group at its start (R10, R20, R23), before its placement and arguments are set. Log 118. -/
def Group.start : Group where
  uid := 0
  team := 0
  rank := 0
  iu := 0
  slot := 0
  block := 0
  nregs := 8
  level := .user
  s := .start
  l := .start
  running := false
  hbase := false
  latch := none
  dq := []
  rq := []
  flags := 0
  fmask := 0
  done := 0
  mxst := 0
  cycle := 0
  wdog := 0
  exiting := false
  blocks := Vector.replicate 32 .off
  replay := none
  accs := []
  tokens := []
  lpend := []
  seq := 0
  lAfter := 0
  bAfter := 0
  sAfter := 0
  seen := []
  fences := []
  wait := .none
  status := .run
  handler := none
  stops := []
  parked := false
  halted := false

/-- A FREE tag: every field zero (R276, R409). -/
def Tag.free : Tag := ⟨0, 0, 0, .free, 0, 0, 0, false, 0, none⟩

/-- A FREE step entry of generation 0 (R395, R409). -/
def StepEntry.free : StepEntry :=
  ⟨⟨.free, 0, 0, 0, 0, 0, 0, 0, 0⟩, 0, ⟨.free, 0, 0, 0, 0, 0, 0, 0, 0⟩⟩

/-- A core after reset (R182, R183, R276, R287, R400, R417; log 12 for the banks). -/
def CoreState.reset : CoreState where
  tags := Vector.replicate 16 .free
  basem1 := 0
  lvl := 0
  throttled := false
  rot := 15
  turn := none
  inj := none
  banks := Vector.replicate 48 .off
  poison := []
  steps := Vector.replicate 16 .free
  vcount := 0
  vovf := false
  vnext := 0
  vaddr := Vector.replicate 8 0
  vinfo := Vector.replicate 8 0
  tlb := []
  ahead := []
  temp := 0
  thr := 1520
  hot := false
  sampled := none
  compact := none

/-- A FREE partition entry (R378, R409). -/
def Part.free : Part := ⟨0, 0, 0, 0, 0, 0, 0, 0, false, 0, 0, 0, 0, 0, 0, List.replicate 48 0, 0, false, [], [], none⟩

/-- A context as CONTEXT_CREATE leaves it, but for its descriptor (R246, R328, R338, R411; log 8, log 9). Log 117. -/
def Ctx.fresh (id part : Nat) (world : Byte) : Ctx where
  id := id
  part := part
  world := world
  tierMax := 0
  ptroot := 0
  frqb := 0
  frqh := 0
  frqt := 0
  lost := 0
  ovf := false
  ftpb := 0
  ftpn := 0
  fvec := 0
  hlbase := 0
  mboxo := 0
  mboxi := 0
  drop := 0
  st := .empty
  parkedHalt := false
  grace0 := 0
  strike0 := 0
  pgrace := 200
  pstrike := 2000
  counter := 0
  replays := []
  nextGrid := 0
  sfw := List.replicate 64 0
  challenge := none
  msix := 0
  struck := false
  kept := ⟨[], [], [], []⟩

/-- A voltage domain after reset (R393, DOMST): point 15 or level 3. -/
def Dom.reset (compute : Bool) : Dom where
  cycles := 0
  frac := 0
  cur := if compute then 15 else 3
  pending := none
  req := 0
  defpt := 15
  uvofs := 0
  freeze := false
  uven := false
  cethr := 2
  cecnt := 0
  ilim := 520
  ms := 0
  low := 0

/-- The device registers after reset (R409), with the keys of the reset of the given number. Log 13. -/
def Dev.reset (n : Nat) (sliceOk : Word) : Dev where
  boot := .ready
  sliceOk := sliceOk
  ctxsel := 0
  tmig := .idle
  tdst := 0
  tsrc := 0
  tslot := 0
  tteam := 0
  tcore := 0
  tres := []
  tbase := 0
  tbars := []
  tcarried := false
  pcap := 2000
  pfloor := Vector.replicate 4 0
  pwr := 0
  guard := 20000
  window := none
  sample := none
  domsel := 0
  errlb := 0
  errlt := 0
  thsel := 0
  mevb := 0
  mevt := 0
  mevLast := none
  trdrop := 0
  ptcmd := 0
  ctxcmd := 0
  invcmd := 0
  invpages := 0
  killreq := 0
  dbgPort := 0
  wldcmd := 0
  wldkey := 0
  bivcmd := 0
  biv := .awake
  sleepKey := none
  wrapped := []
  session := ([], [])
  lost := []
  rtab := []
  migwin := []
  epoch := 0
  resets := n
  netKey := Config.freeKey (4 * n)
  stoKey := Config.freeKey (4 * n + 2)

/-- The launch record that stands for machine firmware (log 7): one team of one group of 8 registers. -/
def LaunchRec.firmware : LaunchRec :=
  ⟨0, 0, 0, 1, 1, 1, 1, 1, 0, 0, 0, 0, false, 0, 0, 0, 0, 0, Vector.replicate 6 0⟩

/-- The grid, gang and team that stand for machine firmware (log 7). -/
def Grid.firmware : Grid := ⟨0, 0, .firmware, none, 1, 0, false, 1, 0, false, 0, 0, 281, none⟩

/-- Log 7. -/
def Gang.firmware : Gang := ⟨0, 0, 0, 0, 0, 0, 1, 0, 1, none, [], 0, false⟩

/-- Log 7. -/
def Team.firmware : Team := ⟨0, 0, 0, 0, 0, 0, 0, 0, 1, 0, [], [], 0, 0, [], [], [], false⟩

/-- The machine right after a successful device reset: READY, with the group of machine firmware at MACH on core 0
(R409; log 7). Log 11, 118, 123. -/
def State.reset : State where
  cur := { Group.start with level := .mach }
  ps1 := false
  others := []
  agenda := []
  fresh := 0
  nextId := 1
  time := 0
  held := false
  sub := 0
  teams := [.firmware]
  gangs := [.firmware]
  grids := [.firmware]
  waiters := []
  freed := Vector.replicate 4 0
  recorded := []
  cores := Vector.replicate 192 .reset
  copies := []
  cmds := []
  waves := []
  locks := []
  mem := []
  olds := []
  sp := []
  wb := []
  acc := []
  slots := []
  scales := []
  slotBad := []
  errs := []
  lines := []
  qtlbs := Vector.replicate 4 []
  invals := []
  hostLines := []
  ctxs := [{ Ctx.fresh 0 0 0 with st := .run }]
  parts := Vector.replicate 16 .free
  worlds := []
  worldGen := 0
  flows := []
  migs := []
  doms := (Vector.replicate 4 (Dom.reset true)) ++ (Vector.replicate 20 (Dom.reset false))
  dev := .reset 0 (BitVec.allOnes 64)
  reports := []

end Sys2Proof.Machine
end

