-- ==== Sys2Proof/Machine/Ops.lean ====
section
/-! DEFINITION. The named operations over the stores, the registers and the tables of the device: sparse bytes, groups,
lines and slices, translation, the violation log, the trail, fault records, stops with their dispatch, the entry of a handler, and
the end of a grid. -/

namespace Sys2Proof.Machine

/-! ## Plain data -/

/-- Entry i of a vector, or a default beyond its end. -/
def look {α : Type} {n : Nat} (v : Vector α n) (i : Nat) (d : α) : α := if h : i < n then v[i] else d

/-- A vector with entry i replaced; unchanged beyond its end. -/
def put {α : Type} {n : Nat} (v : Vector α n) (i : Nat) (x : α) : Vector α n := if h : i < n then v.set i x else v

/-- The byte a sparse store holds at an address; an unlisted address reads 0. Log 10. -/
def Cells.get : Cells → Nat → Byte
  | [], _ => 0
  | (b, v) :: m, a => if b == a then v else Cells.get m a

/-- Remove the entry of an address. -/
def Cells.erase : Cells → Nat → Cells
  | [], _ => []
  | (b, v) :: m, a => if b == a then m else (b, v) :: Cells.erase m a

/-- Put a non-zero byte at an address, keeping addresses rising. -/
def Cells.insert : Cells → Nat → Byte → Cells
  | [], a, x => [(a, x)]
  | (b, v) :: m, a, x =>
    if a < b then (a, x) :: (b, v) :: m else if b == a then (a, x) :: m else (b, v) :: Cells.insert m a x

/-- Write one byte: writing what an unlisted address reads as removes the entry. Log 108. -/
def Cells.set (m : Cells) (a : Nat) (x : Byte) : Cells := if x == 0 then m.erase a else m.insert a x

/-- Write bytes at rising addresses. -/
def Cells.write (m : Cells) (a : Nat) : List Byte → Cells
  | [] => m
  | x :: xs => (m.set a x).write (a + 1) xs

/-- Read n bytes at rising addresses. -/
def Cells.read (m : Cells) (a : Nat) : Nat → List Byte
  | 0 => []
  | n + 1 => m.get a :: m.read (a + 1) n

/-- Discard every entry of a range. -/
def Cells.clear (m : Cells) (lo hi : Nat) : Cells := m.filter fun c => c.1 < lo || hi ≤ c.1

/-- The canonical form of a sparse store: addresses strictly rising, no entry of value 0. Log 108. -/
def Cells.wf : Cells → Bool
  | [] => true
  | [(_, v)] => v != 0
  | (a, v) :: (b, w) :: m => v != 0 && a < b && Cells.wf ((b, w) :: m)

/-- The number that little-endian bytes stand for (R2). -/
def natOfBytes : List Byte → Nat
  | [] => 0
  | b :: bs => b.toNat + 256 * natOfBytes bs

/-- Little-endian bytes of a number (R2). -/
def bytesOf (n w : Nat) : List Byte := leBytes n w

/-- A 64-bit word from bytes. -/
def wordOf (bs : List Byte) : Word := BitVec.ofNat 64 (natOfBytes bs)

/-- Sign-extend the low 8n bits of a word. -/
def signExtendBytes (n : Nat) (w : Word) : Word := (w.setWidth (8 * n)).signExtend 64

/-- Keep the low 8n bits of a word. -/
def zeroExtendBytes (n : Nat) (w : Word) : Word := (w.setWidth (8 * n)).setWidth 64

/-- First element that satisfies a test, or a default. -/
def findD {α : Type} (l : List α) (p : α → Bool) (d : α) : α := (l.find? p).getD d

/-- Replace the elements that satisfy a test. -/
def mapIf {α : Type} (l : List α) (p : α → Bool) (f : α → α) : List α := l.map fun x => if p x then f x else x

/-- Lanes of a mask in ascending order. -/
def lanesOf (m : Mask) : List Nat := (List.range 128).filter fun i => m.getLsbD i

/-- The mask with one lane. -/
def oneLane (i : Nat) : Mask := 1#128 <<< i

/-- The mask of a list of lanes. -/
def maskOf (l : List Nat) : Mask := l.foldl (fun m i => m ||| oneLane i) 0

/-- Number of set bits. -/
def popcount {w : Nat} (v : BitVec w) : Nat := (List.range w).foldl (fun n i => n + (v.getLsbD i).toNat) 0

/-! ## Groups -/

/-- Change the issuing group. -/
def State.mapCur (s : State) (f : Group → Group) : State := { s with cur := f s.cur }

/-- Every group of the device. -/
def State.groups (s : State) : List Group := s.cur :: s.others

/-- The group of a name. -/
def State.group? (s : State) (uid : Nat) : Option Group := s.groups.find? fun g => g.uid == uid

/-- Change the group of a name. -/
def State.mapGroup (s : State) (uid : Nat) (f : Group → Group) : State :=
  { s with
    cur := if s.cur.uid == uid then f s.cur else s.cur
    others := mapIf s.others (fun g => g.uid == uid) f }

/-- Change every group that satisfies a test. -/
def State.mapGroups (s : State) (p : Group → Bool) (f : Group → Group) : State :=
  { s with cur := if p s.cur then f s.cur else s.cur, others := mapIf s.others p f }

/-- Make the group of a name the issuing group; nothing changes when there is none. Log 115. -/
def State.focus (s : State) (uid : Nat) : State :=
  if s.cur.uid == uid then s
  else match s.others.find? fun g => g.uid == uid with
    | none => s
    | some g => { s with cur := g, others := s.cur :: s.others.filter fun h => h.uid != uid }

/-- Run a change of the issuing group's machine with another group in its place; nothing changes when there is none of
the name. Log 4. Log 115. -/
def State.withGroup (s : State) (uid : Nat) (f : State → State) : State :=
  let t := s.focus uid
  if t.cur.uid == uid then (f t).focus s.cur.uid else s

def State.team? (s : State) (id : Nat) : Option Team := s.teams.find? fun t => t.id == id
def State.gang? (s : State) (id : Nat) : Option Gang := s.gangs.find? fun g => g.id == id
def State.grid? (s : State) (id : Nat) : Option Grid := s.grids.find? fun g => g.id == id
def State.ctx? (s : State) (id : Nat) : Option Ctx := s.ctxs.find? fun c => c.id == id

/-- Team, gang, grid and context of a group. -/
def State.teamOf (s : State) (g : Group) : Team := (s.team? g.team).getD .firmware
def State.gangOf (s : State) (g : Group) : Gang := (s.gang? (s.teamOf g).gang).getD .firmware
def State.gridOf (s : State) (g : Group) : Grid := (s.grid? (s.gangOf g).grid).getD .firmware
def State.ctxOf (s : State) (g : Group) : Ctx := (s.ctx? (s.gridOf g).ctx).getD (Ctx.fresh 0 0 0)

def State.mapTeam (s : State) (id : Nat) (f : Team → Team) : State :=
  { s with teams := mapIf s.teams (fun t => t.id == id) f }
def State.mapGang (s : State) (id : Nat) (f : Gang → Gang) : State :=
  { s with gangs := mapIf s.gangs (fun t => t.id == id) f }
def State.mapGrid (s : State) (id : Nat) (f : Grid → Grid) : State :=
  { s with grids := mapIf s.grids (fun t => t.id == id) f }
def State.mapCtx (s : State) (id : Nat) (f : Ctx → Ctx) : State :=
  { s with ctxs := mapIf s.ctxs (fun c => c.id == id) f }

/-- The core state of a physical core. -/
def State.core (s : State) (c : Nat) : CoreState := look s.cores c .reset

def State.mapCore (s : State) (c : Nat) (f : CoreState → CoreState) : State :=
  { s with cores := put s.cores c (f (s.core c)) }

/-- The lanes of the path that has its turn. -/
def State.lmask (s : State) : Mask :=
  match (if s.ps1 then s.cur.l.ps1 else s.cur.l.ps0) with
  | some p => p.mask
  | none => 0

/-- Physical core of a group (R166). -/
def State.coreOf (s : State) (g : Group) : Nat := (s.teamOf g).core

/-- Quadrant of a core (R360). -/
def quadOf (core : Nat) : Nat := core / 48

/-- Cluster of a core (R360). -/
def clusterOf (core : Nat) : Nat := core / 4

/-- Cycles that the clock of a core has counted since reset (R4, R392). -/
def State.cyclesOf (s : State) (core : Nat) : Nat := (look s.doms (quadOf core) (Dom.reset true)).cycles

/-- Port of the issuing group's cluster (R362). -/
def State.myPort (s : State) : Nat := clusterOf (s.coreOf s.cur)

/-- A free value's index, and the state in which it is used (log 2). -/
def State.bump (s : State) : State := { s with fresh := s.fresh + 1 }

/-- TIME as the register shows it (R23). -/
def State.timeWord (s : State) : Word := BitVec.ofNat 64 s.time

/-- A member of a partition's table, for contexts and cores (R377). -/
def State.part (s : State) (p : Nat) : Part := look s.parts p .free

/-- The mode of a context's partition (R381). -/
def State.modeOf (s : State) (c : Ctx) : Byte := (s.part c.part).mode

/-! ## Scalar registers -/

/-- The value of a scalar register field: s0 to s95, hs0 to hs15 (R308), and zero for sz (R10). -/
def SState.get (st : SState) (r : SReg) : Word :=
  if r.toNat < 96 then look st.regs r.toNat 0
  else if r.toNat < 112 then look st.hs (r.toNat - 96) 0
  else 0

/-- Write a scalar register field; a write to sz is discarded (R10). -/
def SState.put (st : SState) (r : SReg) (v : Word) : SState :=
  if r.toNat < 96 then { st with regs := Machine.put st.regs r.toNat v }
  else if r.toNat < 112 then { st with hs := Machine.put st.hs (r.toNat - 96) v }
  else st

/-- Read and write a scalar register of the issuing group. -/
def State.sget (s : State) (r : SReg) : Word := s.cur.s.get r
def State.sput (s : State) (r : SReg) (v : Word) : State := s.mapCur fun g => { g with s := g.s.put r v }

/-- Move the S-PC of the issuing group. -/
def State.setPc (s : State) (pc : Word) : State := s.mapCur fun g => { g with s := { g.s with pc := pc } }

/-- Go on to the instruction after one of n bytes (R73). -/
def State.nextPc (s : State) (n : Nat) : State := s.setPc (s.cur.s.pc + BitVec.ofNat 64 n)

/-! ## What an S-stream waits in, in a handler or under one -/

/-- A wait of the handler's S-stream, or of the user's under it, satisfies a test. -/
def Group.waitsIn (g : Group) (p : SWait → Bool) : Bool := p g.wait || g.handler.any fun h => p h.wait

/-- Change the waits that satisfy a test. -/
def Group.mapWait (g : Group) (p : SWait → Bool) (f : SWait → SWait) : Group :=
  { g with
    wait := if p g.wait then f g.wait else g.wait
    handler := g.handler.map fun h => if p h.wait then { h with wait := f h.wait } else h }

/-- The S-stream goes on at a PC with registers written. -/
def Group.goOn (g : Group) (pc : Word) (ws : List (SReg × Word)) : Group :=
  { g with wait := .none, s := { (ws.foldl (fun st w => st.put w.1 w.2) g.s) with pc := pc } }

/-- A wait that satisfies a test ends: its stream goes on at a PC given by its own PC, with registers written. The user's
stream under a handler takes the result at the RETF (R316). Log 38. -/
def Group.endWait (g : Group) (p : SWait → Bool) (pc : Word → Word) (ws : List (SReg × Word)) : Group :=
  if p g.wait then g.goOn (pc g.s.pc) ws
  else { g with handler := g.handler.map fun h => if p h.wait then { h with wait := .go (pc h.userPc) ws } else h }

/-! ## In-flight counters (R196, R197) -/

/-- The value of a counter. -/
def Group.count (g : Group) (c : Counter) : Nat := (g.tokens.filter fun t => t.cls == c).length

/-- Remove from the oldest end of one class the completed counts: counters fall in order. -/
def dropDone (c : Counter) : List Token → List Token
  | [] => []
  | t :: ts => if t.cls == c then (if t.done then dropDone c ts else t :: ts) else t :: dropDone c ts

/-- Raise a counter for an access or command. -/
def Group.raiseCount (g : Group) (c : Counter) (id : Nat) : Group := { g with tokens := g.tokens ++ [⟨c, id, false⟩] }

/-- The class counts engine commands, whose numbers are the device's; accesses have the group's numbers (R196). -/
def ofCommands : Counter → Bool
  | .cp | .mx => true
  | _ => false

/-- A count belongs to an access or command. -/
def Token.isFor (command : Bool) (id : Nat) (t : Token) : Bool := t.id == id && ofCommands t.cls == command

/-- Every counter falls past its completed counts (R197). -/
def Group.fallCounters (g : Group) : Group :=
  { g with tokens := dropDone .ld (dropDone .st (dropDone .cp (dropDone .mx (dropDone .rs g.tokens)))) }

/-- Complete an access or command: every counter that can fall falls. -/
def Group.complete (g : Group) (command : Bool) (id : Nat) : Group :=
  { g with tokens := mapIf g.tokens (Token.isFor command id) fun t => { t with done := true } }.fallCounters

/-- Take back the counts of accesses that an exact fault discards (R194). -/
def Group.forget (g : Group) (ids : List Nat) : Group :=
  { g with tokens := g.tokens.filter fun t => !(ids.any fun i => t.isFor false i) }.fallCounters

/-! ## Lines and memory slices (R244, R361, R365) -/

/-- Targets of a physical address by bits 51:50 (R240). -/
inductive Target | device | host | window | reserved
  deriving DecidableEq, Repr

def targetOf (pa : Nat) : Target :=
  match (pa >>> 50) % 4 with
  | 0 => .device
  | 1 => .host
  | 2 => .window
  | _ => .reserved

/-- Memory slice of a device address (R361). -/
def sliceOf (pa : Nat) : Nat :=
  16 * (pa / (96 * 2 ^ 30)) + (pa % (96 * 2 ^ 30)) / (6 * 2 ^ 30)

/-- Bytes 0 to 31 of fabric route entry w (R414). Log 10. -/
def State.route (s : State) (w : Nat) : List Byte := s.dev.rtab.read (32 * w) 32

/-- The fields of a route entry: valid, port, remote device, pod partition, base, size. -/
structure Route where
  valid : Bool
  port  : Nat
  dev   : Nat
  pod   : Word32
  base  : Nat
  size  : Nat
  deriving DecidableEq, Repr

def State.routeOf (s : State) (w : Nat) : Route :=
  let e := s.route w
  ⟨(e.getD 1 0).getLsbD 0, (e.getD 0 0).toNat, natOfBytes ((e.drop 2).take 2), BitVec.ofNat 32 (natOfBytes ((e.drop 4).take 4)),
    natOfBytes ((e.drop 8).take 8), natOfBytes ((e.drop 16).take 8)⟩

/-! ### Uncorrectable errors (R391, R403) -/

/-- The error is in a line of memory. -/
def lineUnit (e : ErrInput) : Bool := e.unit == 4 || e.unit == 5

/-- The domain that supplies the unit of an error (R391). -/
def errDom (e : ErrInput) : Nat :=
  if e.unit == 4 then 4 + sliceOf e.addr.toNat / 16
  else if e.unit == 5 then 8 + 4 * (sliceOf e.addr.toNat / 16) + e.layer
  else quadOf (e.addr.toNat % 256)

/-- An error of a core's unit at a row, word or register index, in a word of a context (R403). Log 132. -/
def coreError (unit core index : Nat) (ctx : Nat) : ErrInput :=
  ⟨unit, BitVec.ofNat 64 ((core % 256 + 256 * index) % 2 ^ 32), 0, some (BitVec.ofNat 16 ctx)⟩

/-- A unit meets an error, which is to be recorded (R403). -/
def State.meetError (s : State) (e : ErrInput) : State :=
  { s with errs := s.errs ++ [⟨e, s.time, (look s.doms (errDom e) (Dom.reset true)).uvofs⟩] }

/-- Where the bytes of a physical address stand: device and host memory at the address itself, memory of a remote device
above 2^52 by device number and remote address, which the window's base and offset give whole (R372, R414; log 10). -/
def State.place (s : State) (pa : Nat) : Nat :=
  match targetOf pa with
  | .window =>
    let r := s.routeOf ((pa >>> 44) % 64)
    2 ^ 52 + r.dev * 2 ^ 51 + (r.base + pa % 2 ^ 44) % 2 ^ 51
  | _ => pa

/-- The current key generation of a world; 0 for world 0 (R367). -/
def State.genOf (s : State) (w : Byte) : Nat :=
  match s.worlds.find? fun x => x.id == w with
  | some x => x.gen
  | none => 0

/-- The sideband of the line of an address: a line of a remote device stands under its place. -/
def State.line? (s : State) (pa : Nat) : Option Line := s.lines.find? fun l => l.line == s.place pa / 64

/-- Put the sideband of a line, lines in rising order. -/
def putLine (l : Line) : List Line → List Line
  | [] => [l]
  | x :: xs => if l.line < x.line then l :: x :: xs else if x.line == l.line then l :: xs else x :: putLine l xs

/-- The check a slice makes before a byte of a line leaves it (R244, R365), with the keys that the devices of a pod partition
share (R372): the failure, if any. -/
def State.sliceErr (s : State) (w : Byte) (pa : Nat) : Option (Byte × Byte) :=
  match s.line? pa with
  | none => none
  | some l =>
    if l.bad then some (0x0A, 10)
    else match l.owner with
      | none => none
      | some (o, g) => if o == w && g == s.genOf w then none else some (0x0A, 11)

/-! ### Ports and flows of the network (R362 to R364) -/

/-- Port of the target of a physical address: its slice, the host link, or the fabric port of its window (R362). -/
def State.targetPort (s : State) (pa : Nat) : Nat :=
  match targetOf pa with
  | .device => 64 + sliceOf pa
  | .window => 129 + (s.routeOf ((pa >>> 44) % 64)).port
  | _ => 128

/-- The id of a flow: world, source port, destination port, and class 1 for responses (R362). -/
def flowId (w : Byte) (src dst : Nat) (response : Bool) : Word32 :=
  BitVec.ofNat 32 (w.toNat * 2 ^ 24 + src % 256 * 2 ^ 16 + dst % 256 * 2 ^ 8 + response.toNat)

/-- The flows that carry an access of a world between two ports, its request and its response. Data of a protected world go over
the host link in a flow of the link's own, which has it as both ports (R370). -/
def flowsOf (w : Byte) (src dst : Nat) : List Word32 :=
  [flowId w src dst false, flowId w dst src true] ++
    if w != 0 && (src == 128 || dst == 128) then [flowId w 128 128 false, flowId w 128 128 true] else []

/-- A flow between two ports is broken: every packet on it fails, and each access gets the NETAUTH answer (R364). -/
def State.flowBroken (s : State) (w : Byte) (src dst : Nat) : Bool :=
  src != dst && (flowsOf w src dst).any fun id => s.flows.any fun f => f.id == id && f.broken

/-- The answer of a target outside the device (R193, R216): the host link, or the fabric with the remote slice, may return an
error, which is free. A remote address beyond the slices faults there (R361). Log 124. -/
def State.remoteErr (s : State) (pa : Nat) : Option (Byte × Byte) :=
  if targetOf pa == Target.window && 2 ^ 52 ≤ s.place pa && 384 * 2 ^ 30 ≤ (s.place pa - 2 ^ 52) % 2 ^ 51 then some (0x06, 7)
  else match Config.remoteErr s.fresh (s.place pa) with
    | none => none
    | some false => some (0x0A, 10)
    | some true => some (0x06, 7)

/-- The answer of the target, to an access that a port sends, when it reads, is an atomic or writes part of a line: the failure,
if any (R193, R244, R364, R365). -/
def State.readErr (s : State) (port : Nat) (w : Byte) (pa : Nat) : Option (Byte × Byte) :=
  if s.flowBroken w port (s.targetPort pa) then some (0x06, 17)
  else match targetOf pa with
    | .device => s.sliceErr w pa
    | .window => match s.sliceErr w pa with | some e => some e | none => s.remoteErr pa
    | _ => s.remoteErr pa

/-- The check of a write of part of a line, or of all of it (R216, R244, R364, R365): the error response, if any. -/
def State.writeErr (s : State) (port : Nat) (w : Byte) (pa : Nat) (whole : Bool) : Option (Byte × Byte) :=
  if !whole then s.readErr port w pa
  else if s.flowBroken w port (s.targetPort pa) then some (0x06, 17)
  else if targetOf pa == Target.device then none else s.remoteErr pa

/-- A memory domain changes its level. -/
def State.changes (s : State) (d : Nat) : Bool := (look s.doms d (Dom.reset false)).pending.isSome

/-- The level of the SRAM domain of a slice changes, or that of the DRAM layer that holds the line: an access that arrives
waits (R391, R393). Log 65. -/
def State.levelHeld (s : State) (pa : Nat) : Bool :=
  targetOf pa == Target.device && (s.changes (4 + sliceOf pa / 16) ||
    (List.range 4).any fun l => s.changes (8 + 4 * (sliceOf pa / 16) + l) && Config.dramLayer (pa / 64) % 4 == l)

/-- An access of this step arrives where a level changes: the step has no effect and is taken again (R393). Log 65. -/
def State.holdIf (s : State) (h : Bool) : State := if h then { s with held := true } else s

/-- A line of a page lies where a level changes: the step that reads or writes the page waits (R393). -/
def State.pageHeld (s : State) (pa : Nat) : State := s.holdIf ((List.range 64).any fun i => s.levelHeld (pa + 64 * i))

/-- Bytes of memory as an accessor that passes the check reads them. -/
def State.memRead (s : State) (pa n : Nat) : List Byte := s.mem.read (s.place pa) n

/-- The pages of a partition's device memory that migration tracks as clean lose the page of a write (R342, R343). -/
def State.markDirty (s : State) (pa : Nat) : State :=
  { s with migs := s.migs.map fun m =>
      if m.track && targetOf pa == Target.device then { m with clean := m.clean.filter fun p => p != pa / 4096 } else m }

/-- Groups asleep in MWAIT on a line learn of a write to it (R212). -/
def State.wakeLine (s : State) (line : Nat) : State :=
  s.mapGroups
    (fun g => g.waitsIn fun w => match w with | .mwait _ l .. => l == line | _ => false)
    (fun g => g.mapWait (fun w => match w with | .mwait _ l .. => l == line | _ => false)
      fun w => match w with | .mwait t l _ d ea cmp tmo => .mwait t l true d ea cmp tmo | w => w)

/-- The bytes that a write replaces, together, for the grids that were launched before it (R57). They matter while a grid is
there, and where the write changes something. -/
def State.logOld (s : State) (p : Nat) (bs : List Byte) : List (Nat × Nat × List Byte) :=
  let old := s.mem.read p bs.length
  if !s.grids.any (fun g => g.id != 0) then [] else if old == bs then s.olds else (s.nextId, p, old) :: s.olds

/-- Perform a write within one line: the bytes, the owner of a device or remote line, the dirty page and the wake (R212, R343,
R365). A first write to an unowned line takes it; a whole line written clears an uncorrectable word (R244). -/
def State.memWrite (s : State) (w : Byte) (pa : Nat) (bs : List Byte) : State :=
  let owned := targetOf pa == Target.device || targetOf pa == Target.window
  let s := { s with
    mem := s.mem.write (s.place pa) bs
    olds := s.logOld (s.place pa) bs
    lines := if owned then putLine ⟨s.place pa / 64, some (w, s.genOf w), false⟩ s.lines else s.lines }
  (s.markDirty pa).wakeLine (s.place pa / 64)

/-! ## Violation log (R182) -/

/-- Log a violation in a core's ring. -/
def CoreState.logViolation (c : CoreState) (addr info : Word) : CoreState :=
  let n := c.vnext.toNat
  { c with
    vaddr := put c.vaddr n (addr &&& (if info.getLsbD 8 then 0xFFFFFFFF else 0x01FFFFFFFFFFFFFF))
    vinfo := put c.vinfo n info
    vovf := c.vovf || 8 ≤ c.vcount
    vcount := Nat.min (c.vcount + 1) (2 ^ 28 - 1)
    vnext := c.vnext + 1 }

/-- The VLOGI word of a violation. -/
def violationInfo (ctx slot pcore : Nat) (eng wr peer isLocal : Bool) (code : Byte) : Word :=
  BitVec.ofNat 64 (code.toNat + 256 * isLocal.toNat + 512 * peer.toNat + 1024 * wr.toNat + 2048 * eng.toNat
    + 2 ^ 16 * pcore + 2 ^ 24 * slot + 2 ^ 32 * ctx)

/-- Log a violation of the issuing group. -/
def State.logCur (s : State) (addr : Word) (pcore : Nat) (wr peer isLocal : Bool) (code : Byte) : State :=
  s.mapCore (s.coreOf s.cur) fun c =>
    c.logViolation addr (violationInfo (s.ctxOf s.cur).id s.cur.slot pcore false wr peer isLocal code)

/-- Log a violation of a command of the core's engines. -/
def State.logEngine (s : State) (core ctx : Nat) (addr : Word) (pcore : Nat) (wr peer isLocal : Bool) (code : Byte) : State :=
  s.mapCore core fun c => c.logViolation addr (violationInfo ctx 0xFF pcore true wr peer isLocal code)

/-! ## Translation (R236 to R242) -/

/-- Kinds of global access (R237). -/
inductive AccessKind | read | write | atomic | fetch
  deriving DecidableEq, Repr

def AccessKind.writes : AccessKind → Bool
  | .write | .atomic => true
  | _ => false

/-- A memory fault by code and cause. -/
def mf (code cause : Byte) (addr : Word) : MemFault := ⟨code, cause, addr, 0⟩

/-- The check of R236. -/
def canonErr (lvl : Level) (va : Word) : Option MemFault :=
  let top := va.extractLsb' 56 8
  if top != 0 && top != 0xFF then some (mf 0x06 3 va)
  else if top == 0xFF && lvl == .user then some (mf 0x06 4 va)
  else none

/-- A table word read as a physical read of world 0 (R238); a device address past the last slice faults ACCESS with cause
TARGET (R361). A table elsewhere than in device memory is read as its target answers. Log 125. -/
def State.tableWord (s : State) (core pa : Nat) : Option (Byte × Byte) × Nat :=
  (if targetOf pa == Target.device && 384 * 2 ^ 30 ≤ pa then some (0x06, 7) else s.readErr (clusterOf core) 0 pa, natOfBytes (s.memRead pa 8))

/-- The root table of a context (R237). -/
def Ctx.root (c : Ctx) : Nat := c.ptroot.toNat / 4096 % 2 ^ 40 * 4096

/-- The address a failed table read reports: the physical one, for POISON (R245). -/
def tableFault (code cause : Byte) (va : Word) (ea : Nat) : MemFault :=
  ⟨code, cause, va, if code == 0x0A then BitVec.ofNat 64 ea else 0⟩

/-- Fields of a table entry (R237). -/
def pteV (e : Nat) : Bool := e.testBit 0
def pteW (e : Nat) : Bool := e.testBit 1
def pteX (e : Nat) : Bool := e.testBit 2
def pteC (e : Nat) : Bool := e.testBit 5
def pteL (e : Nat) : Bool := e.testBit 6
def pteReserved (e : Nat) : Bool := e / 2 ^ 52 != 0 || (e / 2 ^ 7) % 2 ^ 5 != 0
def pteFrame (e : Nat) : Nat := (e / 2 ^ 12) % 2 ^ 40

/-- The sixteen entries of a 64 KiB page (R239), from the address of any of them: the failure, if any. -/
def State.groupErr (s : State) (core : Nat) (va : Word) (ea e : Nat) : Option MemFault :=
  let base := ea / 128 * 128
  let e0 := natOfBytes (s.memRead base 8)
  let bad := (List.range 16).any fun i =>
    let x := natOfBytes (s.memRead (base + 8 * i) 8)
    !(pteC x && pteV x && pteL x) || (x % 2 ^ 12) &&& 0xFE7 != (e % 2 ^ 12) &&& 0xFE7 || pteFrame x != pteFrame e0 + i
  let poison := (List.range 16).findSome? fun i => (s.readErr (clusterOf core) 0 (base + 8 * i)).map fun e => tableFault e.1 e.2 va (base + 8 * i)
  match poison with
  | some f => some f
  | none => if bad || pteFrame e0 % 16 != 0 then some (mf 0x05 2 va) else none

/-- What a walk finds: the leaf, its entry's address, its level, and the addresses of every entry passed, root first. -/
structure Walked where
  leaf  : Nat
  ea    : Nat
  lvl   : Nat
  path  : List Nat
  deriving DecidableEq, Repr

/-- The levels of a walk from `lvl` down (R237). -/
def State.walk (s : State) (core : Nat) (va : Word) : (lvl : Nat) → (table : Nat) → (path : List Nat) → MemFault ⊕ Walked
  | lvl, t, path =>
    let ea := t + 8 * ((va.toNat >>> (12 + 9 * lvl)) % 512)
    match s.tableWord core ea with
    | (some (code, cause), _) => .inl (tableFault code cause va ea)
    | (none, e) =>
      let path := path ++ [ea]
      if !pteV e then .inl (mf 0x05 1 va)
      else if pteReserved e then .inl (mf 0x05 2 va)
      else if pteC e && !(lvl == 0 && pteL e) then .inl (mf 0x05 2 va)
      else if pteL e then
        if 1 < lvl || (lvl == 1 && pteFrame e % 512 != 0) then .inl (mf 0x05 2 va)
        else .inr ⟨e, ea, lvl, path⟩
      else match lvl with
        | 0 => .inl (mf 0x05 2 va)
        | l + 1 => s.walk core va l (pteFrame e * 4096) path

/-- The target check of R240, R361, R372 and R377 for a context. -/
def State.targetOk (s : State) (c : Ctx) (pa : Nat) : Bool :=
  match targetOf pa with
  | .device => pa < 384 * 2 ^ 30 && (c.id == 0 || (s.part c.part).slices.getLsbD (sliceOf pa))
  | .host => true
  | .window =>
    let w := (pa >>> 44) % 64
    let r := s.routeOf w
    r.valid && (c.id == 0 || (s.part c.part).routes.getLsbD w) && pa % 2 ^ 44 < r.size
  | .reserved => false

/-- Set bits of a table entry by an atomic OR, as a write of world 0 (R237, R238). -/
def State.orEntry (s : State) (ea bits : Nat) : State :=
  let e := natOfBytes (s.memRead ea 8)
  if e ||| bits == e then s else s.memWrite 0 ea (bytesOf 8 (e ||| bits))

/-- The first of some entries whose slice fails the read of an atomic OR (R238, R244). -/
def State.orErr (s : State) (core : Nat) (va : Word) (eas : List Nat) : Option MemFault :=
  eas.findSome? fun ea => (s.tableWord core ea).1.map fun e => tableFault e.1 e.2 va ea

/-- A bit of every entry passed, and D in the leaf. -/
def State.setAD (s : State) (path : List Nat) (leaf : Nat) (d : Bool) : State :=
  let s := path.foldl (fun s ea => s.orEntry ea 8) s
  if d then s.orEntry leaf 16 else s

/-- The TLB entry of a walk that passed. -/
def tlbOf (ctx : Nat) (va : Word) (w : Walked) (dirty : Bool) (path : List Nat) : TlbEntry :=
  let size := if w.lvl == 1 then 2 ^ 21 else if pteC w.leaf then 2 ^ 16 else 2 ^ 12
  let v := va.toNat % 2 ^ 57
  let pa := pteFrame w.leaf * 4096 - (if pteC w.leaf then (w.ea / 8 % 16) * 4096 else 0)
  ⟨ctx, v / size * size, size, pa, pteW w.leaf, pteX w.leaf, w.ea, dirty, path⟩

/-- A TLB entry translates an address of a context. -/
def TlbEntry.hits (e : TlbEntry) (ctx : Nat) (va : Word) : Bool :=
  e.ctx == ctx && e.va ≤ va.toNat % 2 ^ 57 && va.toNat % 2 ^ 57 < e.va + e.size

/-- The physical address through an entry. -/
def TlbEntry.paOf (e : TlbEntry) (va : Word) : Nat := e.pa + (va.toNat % 2 ^ 57 - e.va)

/-- The permission check of R237 through an entry. -/
def TlbEntry.permErr (e : TlbEntry) (kind : AccessKind) (va : Word) : Option MemFault :=
  if kind.writes && !e.w then some (mf 0x06 5 va)
  else if kind == .fetch && !e.x then some (mf 0x06 6 va)
  else none

/-- A translation: the fault or the physical address, and the state after it. -/
structure Translated where
  res : MemFault ⊕ Nat
  st  : State

/-- Keep an entry in a TLB of n entries, the oldest going first (R242). Log 6. -/
def keepEntry (n : Nat) (e : TlbEntry) (l : List TlbEntry) : List TlbEntry :=
  (e :: l.filter fun x => !(x.ctx == e.ctx && x.va == e.va)).take n

/-- A held entry has set its A bits and, when dirty, D (R237, R268). -/
def State.usedEntry (s : State) (core : Nat) (e : TlbEntry) (dirty : Bool) : State :=
  let upd := fun l : List TlbEntry => mapIf l (fun x => x == e) fun x => { x with dirty := dirty, path := [] }
  let s := s.mapCore core fun c => { c with tlb := upd c.tlb, ahead := upd c.ahead }
  { s with qtlbs := put s.qtlbs (quadOf core) (upd (look s.qtlbs (quadOf core) [])) }

/-- Translate through a held entry: permission, the window's route (R372), the A bits a prefetched entry has yet to set, and D
on the first write or atomic, each by an atomic on a line that passes its check (R237, R238, R242, R244, R268). Log 6. -/
def State.translateHeld (s : State) (core : Nat) (c : Ctx) (e : TlbEntry) (kind : AccessKind) (va : Word) : Translated :=
  match e.permErr kind va with
  | some f => ⟨.inl f, s⟩
  | none =>
    if targetOf (e.paOf va) == Target.window && !s.targetOk c (e.paOf va) then ⟨.inl (mf 0x06 7 va), s⟩
    else
      let d := kind.writes && !e.dirty
      match s.orErr core va (e.path ++ if d then [e.leaf] else []) with
      | some f => ⟨.inl f, s⟩
      | none =>
        let s := s.holdIf ((e.path ++ if d then [e.leaf] else []).any s.levelHeld)
        let s := e.path.foldl (fun s ea => s.orEntry ea 8) s
        let s := if d then s.orEntry e.leaf 16 else s
        ⟨.inr (e.paOf va), if d || !e.path.isEmpty then s.usedEntry core e (d || e.dirty) else s⟩

/-- Translate by a walk, filling the core and quadrant TLBs when every check passes (R237, R242). -/
def State.translateWalk (s : State) (core : Nat) (c : Ctx) (kind : AccessKind) (va : Word) : Translated :=
  match s.walk core va 4 c.root [] with
  | .inl f => ⟨.inl f, s⟩
  | .inr w =>
    match (if pteC w.leaf then s.groupErr core va w.ea w.leaf else none) with
    | some f => ⟨.inl f, s⟩
    | none =>
      let e := tlbOf c.id va w kind.writes []
      match e.permErr kind va with
      | some f => ⟨.inl f, s⟩
      | none =>
        if !s.targetOk c (e.paOf va) then ⟨.inl (mf 0x06 7 va), s⟩
        else
          let s := s.setAD w.path w.ea kind.writes
          let s := s.mapCore core fun k => { k with tlb := keepEntry 256 e k.tlb }
          ⟨.inr (e.paOf va),
            { s with qtlbs := put s.qtlbs (quadOf core) (keepEntry 8192 e (look s.qtlbs (quadOf core) [])) }⟩

/-- Translate an address of a context for an access at a level, through the TLBs of a core (R236 to R242). Log 6. -/
def State.translate (s : State) (core : Nat) (c : Ctx) (lvl : Level) (kind : AccessKind) (va : Word) : Translated :=
  match canonErr lvl va with
  | some f => ⟨.inl f, s⟩
  | none =>
    match (s.core core).tlb.find? fun e => e.hits c.id va with
    | some e => s.translateHeld core c e kind va
    | none =>
      match (look s.qtlbs (quadOf core) []).find? fun e => e.hits c.id va with
      | some e =>
        let s := s.mapCore core fun k => { k with tlb := keepEntry 256 e k.tlb }
        s.translateHeld core c e kind va
      | none => s.translateWalk core c kind va

/-- The entries a walk of an address reads, as far as it goes, with the sixteen of a 64 KiB page. -/
def State.walkReads (s : State) (va : Word) : (lvl : Nat) → (table : Nat) → List Nat
  | lvl, t =>
    let ea := t + 8 * ((va.toNat >>> (12 + 9 * lvl)) % 512)
    let e := natOfBytes (s.memRead ea 8)
    match lvl with
    | 0 => if pteC e then [ea / 128 * 128, ea / 128 * 128 + 64] else [ea]
    | l + 1 => if pteV e && !pteL e then ea :: s.walkReads va l (pteFrame e * 4096) else [ea]

/-- A core must walk for an address, and a table word of the walk lies where a level changes: the access waits (R393). -/
def State.walkHeld (s : State) (core : Nat) (c : Ctx) (va : Word) : Bool :=
  (List.range 20).any (fun d => s.changes (4 + d)) &&
    !((s.core core).tlb.any fun e => e.hits c.id va) && !((look s.qtlbs (quadOf core) []).any fun e => e.hits c.id va) &&
    (s.walkReads va 4 c.root).any s.levelHeld

/-- A fault is a violation that the log records (R243). -/
def MemFault.logged (f : MemFault) : Bool := (f.code == 0x06 && f.cause != 18) || f.code == 0x09

/-- The translation of an access that the device makes for a context, with the wait for a level change of its walk or its line
(R393). -/
def State.ctxPa (s : State) (core : Nat) (c : Ctx) (lvl : Level) (kind : AccessKind) (va : Word) : Translated :=
  let t := (s.holdIf ((canonErr lvl va).isNone && s.walkHeld core c va)).translate core c lvl kind va
  match t.res with
  | .inl _ => t
  | .inr pa => { t with st := t.st.holdIf (t.st.levelHeld pa) }

/-- A read of n bytes within one line by a context at a level: data or fault, logged as the issuing group's (R193). -/
def State.ctxRead (s : State) (core : Nat) (c : Ctx) (lvl : Level) (kind : AccessKind) (va : Word) (n : Nat) :
    (MemFault ⊕ List Byte) × State :=
  let t := s.ctxPa core c lvl kind va
  match t.res with
  | .inl f => (.inl f, t.st)
  | .inr pa =>
    match t.st.readErr (clusterOf core) c.world pa with
    | some (code, cause) => (.inl ⟨code, cause, va, BitVec.ofNat 64 pa⟩, t.st)
    | none => (.inr (t.st.memRead pa n), t.st)

/-- A write within one line by a context at a level, checked as a write of a whole line or of part of it: done, or the
fault. -/
def State.ctxWriteAs (s : State) (whole : Bool) (core : Nat) (c : Ctx) (lvl : Level) (va : Word) (bs : List Byte) :
    Option MemFault × State :=
  let t := s.ctxPa core c lvl .write va
  match t.res with
  | .inl f => (some f, t.st)
  | .inr pa =>
    match t.st.writeErr (clusterOf core) c.world pa whole with
    | some (code, cause) => (some ⟨code, cause, va, BitVec.ofNat 64 pa⟩, t.st)
    | none => (none, t.st.memWrite c.world pa bs)

/-- A write within one line by a context at a level: done, or the fault. -/
def State.ctxWrite (s : State) (core : Nat) (c : Ctx) (lvl : Level) (va : Word) (bs : List Byte) : Option MemFault × State :=
  s.ctxWriteAs (bs.length == 64) core c lvl va bs

/-! ## Fault records (R245, R246) -/

/-- The content of a fault record, but for its time and phase (R245). -/
structure Record where
  code  : Byte
  cause : Byte
  lane  : Nat
  flags : Byte
  slot  : Nat
  rank  : Nat
  ctx   : Nat
  addr  : Word
  pc    : Word
  grid  : Word32
  gang  : Nat
  pa    : Word
  mask  : Mask
  deriving DecidableEq, Repr

/-- The 64 bytes of a fault record. -/
def Record.bytes (r : Record) (time : Nat) (phase : Bool) : List Byte :=
  [r.code, r.cause, BitVec.ofNat 8 r.lane, r.flags ||| (if phase then 0x80 else 0), BitVec.ofNat 8 r.slot,
    BitVec.ofNat 8 r.rank] ++ bytesOf 2 r.ctx ++ bytesOf 8 r.addr.toNat ++ bytesOf 8 r.pc.toNat ++
    bytesOf 4 r.grid.toNat ++ bytesOf 4 r.gang ++ bytesOf 8 time ++ bytesOf 8 r.pa.toNat ++ bytesOf 16 r.mask.toNat

/-- Copy bit 56 of an address into bits 63:57 (R236). -/
def canonical (a : Word) : Word := (a.setWidth 57).signExtend 64

/-- The record is dropped and counted (R246). -/
def Ctx.dropRecord (c : Ctx) : Ctx := { c with lost := Nat.min (c.lost + 1) (2 ^ 15 - 1), ovf := true }

/-- Queue one record in a context's fault record queue, through the TLBs of a core; a full queue or a write that fails
drops it, a poisoned line among them, which the record does not replace (R246). Log 109. -/
def State.queueRecord (s : State) (core ctx : Nat) (r : Record) : State :=
  match s.ctx? ctx with
  | none => s
  | some c =>
    let n := c.frqt.toNat
    if 256 ≤ (c.frqt - c.frqh).toNat then s.mapCtx ctx Ctx.dropRecord
    else
      let w := s.ctxWriteAs false core c .super (canonical c.frqb + BitVec.ofNat 64 (64 * (n % 256)))
        (r.bytes s.time ((n / 256) % 2 == 1))
      match w.1 with
      | some _ => w.2.mapCtx ctx Ctx.dropRecord
      | none => w.2.mapCtx ctx fun c => { c with frqt := c.frqt + 1 }

/-- Rank byte of a record (R245). -/
def rankByte (rank tid : Nat) : Nat := rank % 16 + 16 * (tid % 4)

/-- A record of a group (R245): a physical address goes with POISON alone. -/
def State.recordOf (s : State) (g : Group) (code cause : Byte) (lane : Nat) (flags : Byte) (addr pc pa : Word)
    (mask : Mask) : Record :=
  let t := s.teamOf g
  ⟨code, cause, lane, flags, g.slot, rankByte g.rank t.tid, (s.gridOf g).ctx, addr, pc, (s.gridOf g).num, (s.gangOf g).num,
    if code == 0x0A then pa else 0, mask⟩

/-- Codes whose records are queued for each lane before any dispatch (R312). -/
def memoryCode (code : Byte) : Bool := (5 ≤ code.toNat && code.toNat ≤ 0x0A) || code == 0x15

/-- The records of a stop of a group: one for each lane of a memory fault, otherwise one with lane 0xFF (R245, R312). A lane
that met another fault has none of its own. -/
def State.stopRecords (s : State) (g : Group) (st : Stop) : List Record :=
  let flags := st.rflags ||| (if st.l then 1 else 0) ||| (if st.l && st.ps1 then 0x40 else 0)
  (st.lanes.filter fun f => memoryCode f.mf.code).map
      (fun f => s.recordOf g f.mf.code f.mf.cause f.lane flags f.mf.addr st.pc f.mf.pa 0) ++
    (if memoryCode st.code then []
     else [s.recordOf g st.code st.cause 0xFF flags 0 st.pc 0 (if st.code == 0x0B then st.mask else 0)])

/-- Queue records of the issuing group. -/
def State.queueAll (s : State) (rs : List Record) : State := rs.foldl (fun s r => s.queueRecord (s.coreOf s.cur) r.ctx r) s

/-- A stop of an engine command, or an event, has queued all its records before it stops the group (R265, R323). -/
def Stop.recorded (st : Stop) : Bool := (st.rflags &&& 0x20 != 0 && st.kind != .exact) || st.kind == .event

/-- The records of memory faults go before any dispatch (R312). -/
def State.queueMem (s : State) (st : Stop) : State :=
  if st.queued then s else s.queueAll ((s.stopRecords s.cur st).filter fun r => memoryCode r.code)

/-- The other record of a stop goes when the group is descheduled or its grid ends (R312). -/
def State.queueStop (s : State) (st : Stop) : State :=
  if st.recorded then s else s.queueAll ((s.stopRecords s.cur st).filter fun r => !memoryCode r.code)

/-! ## The trail of a partition under RECORD and REPLAY (R381 to R387) -/

def State.mapPart (s : State) (p : Nat) (f : Part → Part) : State := { s with parts := put s.parts p (f (s.part p)) }

/-- A request for an order-sensitive choice: its kind, whether it is a QPUT, its agent, recording unit and key (R382, R383), and
a number for the operation of an atomic. -/
structure Choice where
  part : Nat
  kind : Byte
  qput : Bool
  l    : Bool
  lane : Nat
  rank : Nat
  gang : Nat
  grid : Word32
  ctx  : Nat
  src  : Nat
  key  : Word
  op   : Nat := 0
  deriving DecidableEq, Repr

/-- The request of a group. -/
def State.choiceOf (s : State) (g : Group) (kind : Byte) (qput l : Bool) (lane src : Nat) (key : Word) : Choice :=
  let c := s.ctxOf g
  { part := c.part, kind := kind, qput := qput, l := l, lane := lane, rank := rankByte g.rank (s.teamOf g).tid
    gang := (s.gangOf g).num, grid := (s.gridOf g).num, ctx := c.id, src := src, key := key }

/-- The trail record of a choice (R383). -/
def Choice.bytes (c : Choice) (empty : Bool) (index : Nat) : List Byte :=
  [c.kind, BitVec.ofNat 8 (c.l.toNat + 2 * c.qput.toNat + 4 * empty.toNat), BitVec.ofNat 8 c.lane, BitVec.ofNat 8 c.rank] ++
    bytesOf 4 c.gang ++ bytesOf 4 c.grid.toNat ++ bytesOf 2 c.ctx ++ bytesOf 2 c.src ++ bytesOf 8 c.key.toNat ++
    bytesOf 8 index

/-- Fields of a record. -/
def recKey (r : List Byte) : Word := wordOf ((r.drop 16).take 8)
def recIndex (r : List Byte) : Nat := natOfBytes ((r.drop 24).take 8)
def recEmpty (r : List Byte) : Bool := (r.getD 1 0).getLsbD 2

/-- A record names the agent of a request: context, grid, gang, team, rank, stream and lane. -/
def Choice.agentOf (c : Choice) (r : List Byte) : Bool :=
  (r.getD 1 0).getLsbD 0 == c.l && (r.getD 2 0).toNat == c.lane && (r.getD 3 0).toNat == c.rank &&
    natOfBytes ((r.drop 4).take 4) == c.gang && natOfBytes ((r.drop 8).take 4) == c.grid.toNat &&
    natOfBytes ((r.drop 12).take 2) == c.ctx

/-! ### Curve positions (R389) -/

/-- hilbert2 of R389. -/
def hilbert2 (n : Nat) : (fuel s x y : Nat) → Nat
  | 0, _, _, _ => 0
  | f + 1, s, x, y =>
    if s == 0 then 0
    else
      let rx := (x &&& s) != 0
      let ry := (y &&& s) != 0
      let add := s * s * ((3 * rx.toNat) ^^^ ry.toNat)
      let p := if ry then (x, y) else if rx then (n - 1 - y, n - 1 - x) else (y, x)
      add + hilbert2 n f (s / 2) p.1 p.2

/-- Position key of a gang: (z, hilbert2), as one number. -/
def LaunchRec.curveKey (r : LaunchRec) (num : Nat) : Nat :=
  let m := max r.gx r.gy
  let n := 2 ^ (((List.range 21).find? fun j => decide (m ≤ 2 ^ j)).getD 20)
  let x := num % r.gx
  let y := num / r.gx % r.gy
  num / (r.gx * r.gy) * (n * n) + hilbert2 n 21 (n / 2) x y

/-- The position of a gang on the curve. -/
def LaunchRec.curvePos (r : LaunchRec) (num : Nat) : Nat :=
  ((List.range (r.gx * r.gy * r.gz)).filter fun j => decide (r.curveKey j < r.curveKey num)).length

/-- The gang at a position of the curve. -/
def LaunchRec.gangAt (r : LaunchRec) (p : Nat) : Nat :=
  ((List.range (r.gx * r.gy * r.gz)).find? fun i => r.curvePos i == p).getD p

/-- A gang of a grid has been dispatched: gangs go in curve order under RECORD and REPLAY, otherwise by their numbers (R165,
R170). -/
def State.gangDispatched (s : State) (gr : Grid) (num : Nat) : Bool :=
  let free := (s.part (((s.ctx? gr.ctx).map Ctx.part).getD 0)).mode == 0
  decide (num < gr.launch.gx * gr.launch.gy * gr.launch.gz) &&
    decide ((if free then num else gr.launch.curvePos num) < gr.next)

/-- The agent a record names has exited, or its grid has retired (R387). A context that the device does not have tells
nothing. Log 25. -/
def State.agentGone (s : State) (r : List Byte) : Bool :=
  let gang := natOfBytes ((r.drop 4).take 4)
  let num := natOfBytes ((r.drop 8).take 4)
  let ctx := natOfBytes ((r.drop 12).take 2)
  match s.grids.find? fun g => g.ctx == ctx && g.num.toNat == num with
  | none => match s.ctx? ctx with
    | some c => num < c.nextGrid.toNat
    | none => false
  | some gr =>
    match s.groups.find? fun g => (s.gridOf g).id == gr.id && (s.gangOf g).num == gang &&
        rankByte g.rank (s.teamOf g).tid == (r.getD 3 0).toNat with
    | some g => g.status == .exited
    | none => s.gangDispatched gr gang

/-- Address of record i of a partition's trail buffer (R384). -/
def Part.trailPa (p : Part) (i : Nat) : Nat := p.trbase.toNat + 32 * (i % p.trsize.toNat)

/-- A trail record's line fails its check as an access of world 0 (R244, R365), or its level changes (R393): the record is neither
read nor written. Log 25. -/
def State.trailBad (s : State) (p : Part) (i : Nat) : Bool :=
  targetOf (p.trailPa i) == Target.device && ((s.sliceErr 0 (p.trailPa i)).isSome || s.levelHeld (p.trailPa i))

/-- Record i of a partition's trail buffer. -/
def State.trailRecord (s : State) (p : Part) (i : Nat) : List Byte := s.memRead (p.trailPa i) 32

/-- The first record of a key not yet consumed, among the numbers of a list; none past a record that cannot be read (R244,
R385). -/
def State.findRecord (s : State) (p : Part) (key : Word) : List Nat → Option (Nat × List Byte)
  | [] => none
  | i :: is =>
    if p.consumed.contains i then s.findRecord p key is
    else if s.trailBad p i then none
    else if recKey (s.trailRecord p i) == key then some (i, s.trailRecord p i)
    else s.findRecord p key is

/-- The first record of a key not yet consumed, within 4,096 of the oldest such record (R385). -/
def State.nextRecord (s : State) (p : Part) (key : Word) : Option (Nat × List Byte) :=
  s.findRecord p key ((List.range (Nat.min (p.trtail - p.trhead).toNat 4096)).map fun k => p.trhead.toNat + k)

/-- Whether a choice may be made: at once, with the record that fixes it under REPLAY, or not yet, or never. -/
inductive TrailAns
  | go (r : Option (Nat × List Byte))
  | wait
  | fault
  deriving DecidableEq, Repr

/-- The trail of a choice is in force: its partition is LIVE and the choice is not machine firmware's own (R378, R381; log 7). -/
def State.governs (s : State) (c : Choice) : Bool := (s.part c.part).live && c.ctx != 0

/-- The choice is of an atomic. -/
def Choice.atomic (c : Choice) : Bool := c.kind == 1 || c.kind == 3

/-- The request agrees with the record that names its agent: kind, queue flag (R387), and, for an atomic, the operation with which
the device has written such a record, where it has (R388); R383 has no field for it. Log 25. -/
def State.agrees (s : State) (c : Choice) (r : List Byte) : Bool :=
  let ops := (s.recorded.filter fun x => x.1 == r).map Prod.snd
  r.getD 0 0 == c.kind && (r.getD 1 0).getLsbD 1 == c.qput && (!c.atomic || ops.isEmpty || ops.contains c.op)

/-- Ask for a choice (R384, R385, R387). Under RECORD a choice also waits while its record's line would refuse it, and it waits out
the TIME of a record of a higher source number, so that records of one TIME stand in the order of R1. Log 25. -/
def State.trailAsk (s : State) (c : Choice) : TrailAns :=
  let p := s.part c.part
  if !s.governs c then .go none
  else if p.mode == 1 then
    if (p.trtail - p.trhead).toNat == p.trsize.toNat || s.trailBad p p.trtail.toNat ||
        p.latest.any (fun x => x.1 == s.time && decide (c.src < x.2)) then .wait
    else .go none
  else if p.mode == 2 then
    match s.nextRecord p c.key with
    | none => .wait
    | some (i, r) =>
      if c.agentOf r then (if s.agrees c r then .go (some (i, r)) else .fault)
      else if s.agentGone r then .fault
      else .wait
  else .go none

/-- TRHEAD passes every record consumed in order (R385). -/
def passConsumed : (fuel : Nat) → Part → Part
  | 0, p => p
  | n + 1, p =>
    if p.consumed.contains p.trhead.toNat then
      passConsumed n { p with consumed := p.consumed.erase p.trhead.toNat, trhead := p.trhead + 1 }
    else p

/-- Position of the next record of a key (R383), and the count raised. -/
def Part.countOf (p : Part) (key : Word) : Nat :=
  match p.counts.find? fun x => x.2.1 == key with
  | some x => x.2.2
  | none => 0

def Part.raiseKey (p : Part) (key : Word) : Part :=
  let n := p.countOf key
  { p with counts := (0, key, n + 1) :: p.counts.filter fun x => x.2.1 != key }

/-- A choice is made: its record is written under RECORD, or the record that fixed it is consumed under REPLAY (R384,
R385). `queue` is the outcome of a queue operation: EMPTY or FULL, and the index acted on. Log 25. -/
def State.trailMark (s : State) (c : Choice) (r : Option (Nat × List Byte)) (queue : Option (Bool × Nat)) : State :=
  let p := s.part c.part
  if !s.governs c then s
  else if p.mode == 1 then
    let index := match queue with
      | some q => q.2
      | none => p.countOf c.key
    let empty := match queue with
      | some q => q.1
      | none => false
    let s := s.memWrite 0 (p.trailPa p.trtail.toNat) (c.bytes empty index)
    let s := if c.atomic then { s with recorded := (c.bytes empty index, c.op) :: s.recorded } else s
    s.mapPart c.part fun p => { p.raiseKey c.key with trtail := p.trtail + 1, latest := some (s.time, c.src) }
  else match r with
    | some (i, _) =>
      s.mapPart c.part fun p => passConsumed (p.consumed.length + 1) { p with consumed := i :: p.consumed }
    | none => s

/-! ## Pending-launch stores and the end of a grid (R146, R147, R163) -/

/-- Entries in use in a quadrant's store (R146). -/
def State.pendingIn (s : State) (q : Nat) : Nat := (s.grids.filter fun g => g.pending && g.quad == q).length

/-- A valid launch enters a quadrant's pending-launch store (R145): a new grid with the next number of its context.
Log 9, 112. -/
def State.enqueue (s : State) (ctx : Nat) (rec : LaunchRec) (parent : Option Nat) (depth quad src : Nat) (sup : Bool) : State :=
  let num := ((s.ctx? ctx).map Ctx.nextGrid).getD 0
  let g : Grid := ⟨s.nextId, ctx, rec, parent, depth, num, sup, 0, 0, true, quad, s.time, src, none⟩
  { s with nextId := s.nextId + 1, grids := s.grids ++ [g] }.mapCtx ctx fun c => { c with nextGrid := c.nextGrid + 1 }

/-- A wait for a free entry of a pending-launch store. -/
def isLaunchWait : SWait → Bool
  | .lwait | .launch _ _ => true
  | _ => false

/-- The request of a group that waits at its quadrant's store (R382). -/
def State.launchChoice (s : State) (q : Nat) (g : Group) : Choice :=
  s.choiceOf g 4 false false 255 Config.launchSource (BitVec.ofNat 64 q)

/-- A waiter goes on: an LWAIT completes, a LAUNCH.W enqueues its record and writes OK (R145, R146). One that waited for an entry
has had it. -/
def State.releaseOne (s : State) (x : Waiter) : State :=
  match s.group? x.uid with
  | none => s
  | some g =>
    let gr := s.gridOf g
    let w := if isLaunchWait g.wait then g.wait else ((g.handler.map Handler.wait).getD .none)
    let s := { s with
      waiters := s.waiters.erase x
      freed := if x.full then put s.freed x.quad (look s.freed x.quad 0 - 1) else s.freed }
    match w with
    | .launch rec d =>
      (s.enqueue gr.ctx rec (some gr.id) (gr.depth + 1) x.quad (s.coreOf g) false).mapGroup x.uid fun g =>
        g.endWait isLaunchWait (· + 8) [(d, 0)]
    | _ => s.mapGroup x.uid fun g => g.endWait isLaunchWait (· + 8) []

/-- The oldest waiter of a quadrant that may go on, with what it consumes, or none where it is to issue again, since the trail has
diverged (R387). It may once the store has room, an entry has freed for it where it waits for one, and the trail lets it (R146,
R384, R385). -/
def State.readyWaiter (s : State) (q : Nat) : Option (Waiter × Choice × Option (Option (Nat × List Byte))) :=
  (s.waiters.filter fun w => w.quad == q).findSome? fun w =>
    (s.group? w.uid).bind fun g =>
      let c := s.launchChoice q g
      match s.trailAsk c with
      | .go r => if 64 ≤ s.pendingIn q || (w.full && look s.freed q 0 == 0) then none else some (w, c, some r)
      | .fault => some (w, c, none)
      | .wait => none

/-- A waiting instruction issues again. -/
def State.unwait (s : State) (w : Waiter) : State :=
  { s with waiters := s.waiters.erase w }.mapGroup w.uid fun g => g.mapWait isLaunchWait fun _ => .none

/-- A waiter whose turn in the trail comes while its store is full waits for an entry too (R146). -/
def State.fillWaiters (s : State) (q : Nat) : State :=
  if s.pendingIn q < 64 then s
  else { s with waiters := s.waiters.map fun w =>
      if w.quad == q && (s.group? w.uid).any fun g => (match s.trailAsk (s.launchChoice q g) with | .go _ => true | _ => false)
      then { w with full := true } else w }

/-- One waiter of a quadrant that may go on does. -/
def State.serveQuad (s : State) (q : Nat) : State :=
  let s := s.fillWaiters q
  match s.readyWaiter q with
  | none => s
  | some (w, c, some r) => (s.releaseOne w).trailMark c r none
  | some (w, _, none) => s.unwait w

/-- An entry of a quadrant's store frees, for one waiter (R146). -/
def State.entryFreed (s : State) (q : Nat) : State :=
  if s.waiters.any fun w => w.quad == q && w.full then
    { s with freed := put s.freed q (look s.freed q 0 + 1) }.serveQuad q
  else s

/-- Waiters go on as the trail and the time let them (R384, R385, R387). -/
def State.serveWaiters (s : State) : State := if s.waiters.isEmpty then s else (List.range 4).foldl State.serveQuad s

/-- Groups of a grid. -/
def State.inGrid (s : State) (grid : Nat) (g : Group) : Bool := (s.gridOf g).id == grid

/-- A group leaves: it issues nothing more and its registers are gone; its accesses run on (R154, R163). -/
def Group.leave (g : Group) : Group :=
  { g with
    status := .exited, wait := .none, running := false, handler := none, stops := [], lpend := [], replay := none }

/-! ### The ladder's ask (R329, R330, R347) -/

/-- The team of a PENDING move has gone to its target, and resumes there (R346). -/
def State.carried (s : State) : Bool := s.dev.tmig == .pending && s.dev.tcarried

/-- A PENDING move is withdrawn; one whose team stands on the target already goes on to its end. Log 83. -/
def State.withdrawMove (s : State) : State :=
  if s.dev.tmig == .pending && !s.carried then
    { s with dev := { s.dev with tmig := .cancelled } }.mapTeam s.dev.tteam fun t => { t with moving := false }
  else s

/-- A halt or a strike of a context cancels a PENDING move of its team (R347). -/
def State.cancelMove (s : State) (ctx : Nat) : State :=
  let mine := ((s.team? s.dev.tteam).bind fun t => s.gang? t.gang).bind fun g => s.grid? g.grid
  if mine.any fun g => g.ctx == ctx then s.withdrawMove else s

/-- Every group of an ASKED context is parked, descheduled or gone: the halt begins with PARKED (R329, R330). -/
def State.checkParked (s : State) (ctx : Nat) : State :=
  match s.ctx? ctx with
  | none => s
  | some c =>
    let rest := s.groups.any fun g =>
      (s.gridOf g).ctx == ctx && g.status != .exited && !g.parked && (match g.status with | .desched _ _ => false | _ => true)
    if c.st == .asked && !rest then
      (s.cancelMove ctx).mapCtx ctx fun c => { c with st := .halting, parkedHalt := true, strike0 := s.time }
    else s

/-- Free the step entries of a team (R397). -/
def State.freeSteps (s : State) (team : Nat) : State :=
  { s with cores := s.cores.map fun c =>
      { c with steps := c.steps.map fun e => if e.st != .free && e.team == team then { e with st := .free, old := { e.old with st := .free } } else e } }

/-- End one grid, its children apart (R163): every group stops, its pending entry goes, its suspended copies end, its
steps become FREE. -/
def State.endOne (s : State) (grid : Nat) (e : Ending) : State :=
  match s.grid? grid with
  | none => s
  | some gr =>
    if gr.ending.isSome then s
    else
      let teams := (s.teams.filter fun t => ((s.gang? t.gang).getD .firmware).grid == grid).map Team.id
      let s := s.mapGroups (fun g => g.status != .exited && teams.contains g.team) Group.leave
      let s := { s with
        teams := mapIf s.teams (fun t => teams.contains t.id) fun t =>
          { t with exited := BitVec.allOnes 16, rounds := [], moving := false }
        copies := mapIf s.copies (fun c => teams.contains c.team && c.st == .suspended) fun c => { c with st := .finished }
        waiters := s.waiters.filter fun w => !((s.group? w.uid).any fun g => teams.contains g.team) }
      let s := teams.foldl State.freeSteps s
      let s := s.mapGrid grid fun x => { x with ending := some e, pending := false }
      (if gr.pending then s.entryFreed gr.quad else s).checkParked gr.ctx

/-- End a grid and, with outcome PARENT, the grids it launched (R163). Depth is at most 10 (R145). -/
def State.endTree (s : State) (e : Ending) : (depth : Nat) → (grid : Nat) → State
  | 0, grid => s.endOne grid e
  | d + 1, grid =>
    let s := s.endOne grid e
    ((s.grids.filter fun x => x.parent == some grid).map Grid.id).foldl (fun s k => s.endTree ⟨2, 0, 0, 0, 0⟩ d k) s

/-- One stamp comes before another: by time, then by source number (R1). -/
def earlier (a b : Nat × Nat) : Bool := decide (a.1 < b.1) || (a.1 == b.1 && decide (a.2 < b.2))

/-- End the issuing group's grid with outcome ENDED at its fault (R147, R163). -/
def State.endGrid (s : State) (code : Byte) : State :=
  let t := s.teamOf s.cur
  let e : Ending := ⟨1, code, s.cur.rank, t.tid, (s.gangOf s.cur).num⟩
  s.endTree e 10 (s.gridOf s.cur).id

/-- A strict grid ends at a fault of the issuing group: the completion word reports the first fault of the grid, which may be one
that a halt or an ask holds (R1, R163). -/
def State.endStrict (s : State) (st : Stop) : State :=
  let held := (s.groups.filter fun g => (s.gridOf g).id == (s.gridOf s.cur).id).flatMap fun g =>
    (g.stops.filter fun x => x.kind != .event).map fun x => (g, x)
  let first := held.foldl (fun (b : Group × Stop) x => if earlier (x.2.time, x.2.src) (b.2.time, b.2.src) then x else b) (s.cur, st)
  s.endTree ⟨1, first.2.code, first.1.rank, (s.teamOf first.1).tid, (s.gangOf first.1).num⟩ 10 (s.gridOf s.cur).id

/-! ## Dispatch and handler entry (R311 to R317) -/

/-- The vector entry of a code: the handler's address and IMM; none for a read that faults, a zero entry or one that
breaks R311. -/
def State.vectorEntry (s : State) (core : Nat) (c : Ctx) (code : Byte) : Option (Word × Bool) × State :=
  let r := s.ctxRead core c .super .read (canonical c.fvec + BitVec.ofNat 64 (8 * code.toNat)) 8
  match r.1 with
  | .inl _ => (none, r.2)
  | .inr bs =>
    let w := wordOf bs
    if w == 0 || w.getLsbD 1 || w.extractLsb' 56 8 != 0xFF then (none, r.2)
    else (some (w &&& ~~~3, w.getLsbD 0), r.2)

/-- A stop whose handler is entered at once: a lane fault, NEST, DEADLINE, SYSCALL, BKPT (R312 rule 4). -/
def Stop.inPlace (st : Stop) : Bool :=
  (st.replay.isSome && memoryCode st.code) || st.code == 0x0B || st.code == 0x17 || st.code == 0x1B || st.code == 0x1C

/-- Shadow sets of an issue unit in use: four exist (R313). -/
def State.shadowsUsed (s : State) (core iu : Nat) : Nat :=
  (s.groups.filter fun g => g.handler.isSome && g.status != .exited && s.coreOf g == core && g.iu == iu).length

/-- The hv registers at entry: address halves, cause and code in each faulting lane (R248, R313). -/
def hvAtEntry (lanes : List LaneFault) (f : MemFault → Word32) : VReg :=
  Vector.ofFn fun i =>
    match lanes.find? fun x => x.lane == i.val || (x.lane == 255 && i.val == 0) with
    | some x => f x.mf
    | none => 0

/-- hs0 to hs15 at entry (R313). -/
def hsAtEntry (g : Group) (st : Stop) : Vector Word 16 :=
  let pcOf := fun p : Option Path => match p with | some p => BitVec.ofNat 64 p.pc | none => BitVec.allOnes 64
  let v := put (put (put (Vector.replicate 16 0) 0 (st.code.setWidth 64)) 1 st.hs1) 2 st.pc
  if st.code == 0x10 then put (put v 3 (pcOf g.l.ps0)) 4 (pcOf g.l.ps1) else v

/-- Memory stops give hv0 to hv3 (R313). -/
def Stop.givesHv (st : Stop) : Bool := !st.lanes.isEmpty && 5 ≤ st.code.toNat && st.code.toNat ≤ 0x0A && st.kind == .exact

/-- A wait as a handler finds it: MWAIT has not issued, and starts again at the return (R212, R331). -/
def SWait.atHandler : SWait → SWait
  | .mwait .. => .none
  | w => w

/-- Enter the handler at an address (R313): bank the L-stream state, set the entry state, go to SUPER. -/
def Group.enter (g : Group) (st : Stop) (entry : Word) : Group :=
  let z : VReg := Vector.replicate 128 0
  let hv : Vector VReg 8 :=
    if st.givesHv then
      put (put (put (put (Vector.replicate 8 z) 0 (hvAtEntry st.lanes fun f => f.addr.setWidth 32))
        1 (hvAtEntry st.lanes fun f => f.addr.extractLsb' 32 32)) 2 (hvAtEntry st.lanes fun f => f.cause.setWidth 32))
        3 (hvAtEntry st.lanes fun f => f.code.setWidth 32)
    else Vector.replicate 8 z
  let hvLife : Vector Life 8 :=
    if st.givesHv then put (put (put (put (Vector.replicate 8 .dead) 0 .live) 1 .live) 2 .live) 3 .live
    else Vector.replicate 8 .dead
  { g with
    handler := some ⟨st, g.l, g.latch, g.running, g.hbase, g.s.pc, g.rq.length, g.level, g.replay, g.wait.atHandler, g.lAfter, g.bAfter⟩
    status := .run
    level := .super
    running := false
    hbase := true
    latch := none
    replay := none
    wait := .none
    wdog := 0
    exiting := false
    parked := false
    halted := false
    s := { g.s with pc := entry, hs := hsAtEntry g st }
    l := { g.l with
      hv := hv, hvLife := hvLife, preds := Vector.replicate 8 0, k := Vector.replicate 16 0, ps0 := none, ps1 := none,
      stack := [], nest := Vector.replicate 128 0, hold := none } }

/-- An access of a stream that awaits a value (R194). A drain awaits the check of its rows (R298). -/
def Access.valued (a : Access) : Bool :=
  match a.kind with
  | .store _ | .drain _ _ true => false
  | _ => true

/-- A drain that has passed the check of its rows and has its results still to come (R298). -/
def Access.drains (a : Access) : Bool :=
  match a.kind with
  | .drain _ _ checked => checked
  | _ => false

/-- The access of one lane is answered. -/
def Req.known (r : Req) : Bool := r.ans.isSome || r.err.isSome

/-- Every lane of an access is answered. -/
def Access.allKnown (a : Access) : Bool := a.reqs.all Req.known

/-- A store of the group is still to be performed or refused (R191, R216). -/
def Group.storesOut (g : Group) : Bool := g.accs.any fun a => !a.valued && !a.allKnown

/-- Every instruction already issued that awaits a value has completed, and every store is performed or refused: the group has
drained (R210, R309). -/
def Group.settled (g : Group) : Bool := !(g.accs.any fun a => a.valued || a.drains) && !g.storesOut

/-- Entry may take place: a shadow set is free, and the group has drained (R210, R309, R313). A halt or an ask holds it (R331,
R333). Log 17. -/
def State.canEnter (s : State) : Bool :=
  decide (s.shadowsUsed (s.coreOf s.cur) s.cur.iu < 4) && s.cur.settled && !s.cur.parked && !s.cur.halted


/-- The handle of a group (R317). -/
def State.handleOf (s : State) (g : Group) : Word := BitVec.ofNat 64 (2 ^ 16 + 256 * s.coreOf g + g.slot)

/-- The fault time of the descheduled group of a context that a handle names. -/
def State.faultTime (s : State) (ctx : Nat) (h : Word) : Nat :=
  (s.groups.findSome? fun g =>
    match g.status with
    | .desched st _ => if (s.gridOf g).ctx == ctx && s.handleOf g == h then some st.time else none
    | _ => none).getD 0

/-- Put a handle into a replay list: fault times rise, and equal times go by the core (R1, R317). -/
def putHandle (time : Word → Nat) (h : Word) (t : Nat) : List Word → List Word
  | [] => [h]
  | x :: xs =>
    if earlier (t, h.toNat / 256 % 256) (time x, x.toNat / 256 % 256) then h :: x :: xs else x :: putHandle time h t xs

/-- The issuing group is descheduled as replayable once it has drained (R210, R317). -/
def State.descheduleNow (s : State) (st : Stop) (entry : Word) : State :=
  let h := s.handleOf s.cur
  let ctx := (s.gridOf s.cur).ctx
  ((s.mapCur fun g => { g with status := .desched st entry }).mapCtx ctx fun c =>
    { c with replays := putHandle (s.faultTime ctx) h st.time c.replays }).checkParked ctx

/-- Deschedule the issuing group as replayable (R317); it drains first (R210). Log 17. -/
def State.deschedule (s : State) (st : Stop) (entry : Word) : State :=
  let st := { st with queued := true }
  if s.cur.settled then s.descheduleNow st entry else s.mapCur fun g => { g with status := .draining st entry }

/-- The fault policy of a group (R163). Log 102. -/
def State.strictOf (s : State) (g : Group) : Bool := (s.gridOf g).launch.strict || (s.part (s.ctxOf g).part).strict

/-- Put a stop among held ones: in the order of R1, an event after every fault (R316). -/
def putStop (st : Stop) : List Stop → List Stop
  | [] => [st]
  | x :: xs =>
    if (st.kind != .event && x.kind == .event) ||
        ((st.kind == .event) == (x.kind == .event) && earlier (st.time, st.src) (x.time, x.src)) then st :: x :: xs
    else x :: putStop st xs

/-- Stops of one code merge into one, dated by the first of them (R316); what an exact stop resumes is kept, and that an engine
command is among them (R265). -/
def Stop.merge (x st : Stop) : Stop :=
  let first := if earlier (st.time, st.src) (x.time, x.src) then st else x
  let body := if st.kind == .exact && x.kind != .exact then st else x
  { body with time := first.time, src := first.src, rflags := body.rflags ||| ((x.rflags ||| st.rflags) &&& 0x20) }

/-- Hold a stop until the handler returns, or until the next boundary (R217, R265, R316). -/
def Group.addStop (g : Group) (st : Stop) : Group :=
  match g.stops.find? fun x => x.code == st.code with
  | some x => { g with stops := putStop (x.merge st) (g.stops.filter fun y => y.code != st.code) }
  | none => { g with stops := putStop st g.stops }

/-- No dispatch now: the group has stopped already (R316), or a halt or an ask holds it (R333). -/
def Group.holdsStops (g : Group) : Bool := g.status != .run || (g.handler.isNone && (g.parked || g.halted))

/-- Enter the handler, or stay stopped until that may take place (R313). Under a halt or an ask the stop is held (R333). Log 17. -/
def State.enterHandler (s : State) (st : Stop) (entry : Word) : State :=
  if s.canEnter then s.mapCur fun g => g.enter st entry
  else s.mapCur fun g =>
    if g.parked || g.halted then { g with status := .run }.addStop st else { g with status := .shadow st entry }

/-- Dispatch a stop of the issuing group (R312): taking an exception. -/
def State.dispatch (s : State) (st : Stop) : State :=
  let s := s.queueMem st
  let st := { st with queued := true }
  if s.cur.holdsStops then s.mapCur fun g => g.addStop st
  else if s.strictOf s.cur && st.kind != .event then (s.queueStop st).endStrict st
  else if s.cur.handler.isSome then (s.queueStop st).endGrid st.code
  else
    let v := s.vectorEntry (s.coreOf s.cur) (s.ctxOf s.cur) st.code
    match v.1 with
    | none => if st.kind == .event then v.2 else (v.2.queueStop st).endGrid st.code
    | some (entry, imm) =>
      if st.inPlace || imm then v.2.enterHandler st entry else (v.2.queueStop st).deschedule st entry

/-! ## Exact faults of the issuing group -/

/-- The S-stream, or the L-stream, has an access that awaits a value (R194). -/
def Group.sWaits (g : Group) : Bool := g.accs.any fun a => !a.l && a.valued
def Group.lWaits (g : Group) : Bool := g.accs.any fun a => a.l && a.valued

/-- An instruction of the S-stream, or of a path, faults at its issue. Behind an access that awaits a value it waits, since
that access may fault first (R56, R194). -/
def State.sFault (s : State) (st : Stop) : State := if s.cur.sWaits then s else s.dispatch st
def State.lFault (s : State) (st : Stop) : State := if s.cur.lWaits then s else s.dispatch st

/-- An exact stop of the S-stream at its current instruction. -/
def State.sStop (s : State) (code cause : Byte) (hs1 : Word) (lanes : List LaneFault) (rflags : Byte) : Stop :=
  ⟨.exact, code, cause, hs1, false, false, s.cur.s.pc, lanes, rflags,
    (if lanes.isEmpty then BitVec.allOnes 128 else oneLane 0), none, s.time, s.coreOf s.cur, false⟩

/-- The S-stream's instruction faults, exactly, with no effect (R56, R309). -/
def State.raise (s : State) (code : Byte) : State := s.sFault (s.sStop code 0 0 [] 0)

/-- hs1 of a memory fault (R310). -/
def causeWord (code cause : Byte) : Word := if code == 0x05 || code == 0x06 || code == 0x0A then cause.setWidth 64 else 0

/-- A scalar access of the S-stream faults, exactly (R248). -/
def State.raiseMem (s : State) (f : MemFault) (rflags : Byte) : State :=
  s.sFault (s.sStop f.code f.cause (causeWord f.code f.cause) [⟨255, f⟩] rflags)

/-- The path slot of the L-stream that has its turn. -/
def Group.path (g : Group) (ps1 : Bool) : Option Path := if ps1 then g.l.ps1 else g.l.ps0

def LState.setPath (l : LState) (ps1 : Bool) (p : Option Path) : LState :=
  if ps1 then { l with ps1 := p } else { l with ps0 := p }

/-- The L-PC of the path that has its turn. -/
def State.lpc (s : State) : Word :=
  match s.cur.path s.ps1 with
  | some p => BitVec.ofNat 64 p.pc
  | none => 0

/-- The path's instruction faults, exactly, with no effect (R56). -/
def State.raiseL (s : State) (code : Byte) : State :=
  s.lFault ⟨.exact, code, 0, 0, true, s.ps1, s.lpc, [], 0, BitVec.allOnes 128, none, s.time, s.coreOf s.cur, false⟩

/-- NEST: the lanes whose counters stand at 255 (R124). -/
def State.raiseNest (s : State) (m : Mask) : State :=
  s.lFault ⟨.exact, 0x0B, 0, 0, true, s.ps1, s.lpc, [], 0, m, none, s.time, s.coreOf s.cur, false⟩

/-- An L-stream access that faults as a whole (R195): its record names no lane, and its handler blocks and hv registers stand on
lane 0, as for a scalar access. Log 126. -/
def State.raiseLMem (s : State) (f : MemFault) (rflags : Byte) : State :=
  s.lFault ⟨.exact, f.code, f.cause, causeWord f.code f.cause, true, s.ps1, s.lpc, [⟨255, f⟩], rflags, oneLane 0, none,
    s.time, s.coreOf s.cur, false⟩

/-- The lanes of a list of lane faults. -/
def faultMask (fs : List LaneFault) : Mask := maskOf (fs.map LaneFault.lane)

/-- A lane instruction faults on some lanes (R195, R248): the code of the lowest faulting lane selects the vector. A lane fault
gives the handler's blocks the faulting lanes, any other code all of them (R313). Log 28. -/
def State.raiseLanes (s : State) (ps1 : Bool) (pc : Word) (fs : List LaneFault) (replay : Replay) (rflags : Byte) : State :=
  let f := (fs.head?.map LaneFault.mf).getD (mf 0 0 0)
  s.dispatch ⟨.exact, f.code, f.cause, causeWord f.code f.cause, true, ps1, pc, fs, rflags,
    if memoryCode f.code then faultMask fs else BitVec.allOnes 128, some replay, s.time, s.coreOf s.cur, false⟩

end Sys2Proof.Machine
end

