-- ==== Sys2Proof/Machine/Flags.lean ====
section
/-! DEFINITION. The flags of FLAGS (R24), and where each stream leaves the flags it sets (R25, R313). -/

namespace Sys2Proof.Machine

/-- The flag bits (R24). -/
def flagNV : Byte := 0x01
def flagDZ : Byte := 0x02
def flagOF : Byte := 0x04
def flagUF : Byte := 0x08
def flagNX : Byte := 0x10
def flagIO : Byte := 0x20
def flagSA : Byte := 0x40
def flagMX : Byte := 0x80

/-- A flag when a condition holds. -/
def flagIf (c : Bool) (f : Byte) : Byte := if c then f else 0

/-- An S-stream instruction completes and sets flags (R25). Handler instructions set none (R313). Behind an access that
awaits a value the flags stand with the stream state, so that a fault discards them (R194). -/
def Group.setFlags (g : Group) (f : Byte) : Group :=
  if g.handler.isSome then g
  else if g.sWaits then { g with s := { g.s with flags := g.s.flags ||| f } }
  else { g with flags := g.flags ||| f }

/-- Once no access of the S-stream awaits a value, the flags behind it are in FLAGS. -/
def Group.settleFlags (g : Group) : Group :=
  if g.sWaits then g else { g with flags := g.flags ||| g.s.flags, s := { g.s with flags := 0 } }

def State.setFlags (s : State) (f : Byte) : State := s.mapCur fun g => g.setFlags f

end Sys2Proof.Machine
end

