-- ==== Sys2Proof/Machine/Num.lean ====
section
/-! DEFINITION. Number formats: integer elements (R28, R29), floating-point elements (R30 to R33), the rounding of an exact
result to a format (R34 to R36), the exact operations, and conversions (R37, R38). -/

namespace Sys2Proof

open Machine

/-! ## Elements -/

/-- Width of an element in bits (R11, R28, R30). -/
def ElemType.width (t : ElemType) : Nat := 32 / t.count

/-- A signed integer type (R28). -/
def ElemType.signed : ElemType → Bool
  | .s32 | .s16x2 | .s8x4 => true
  | _ => false

/-- An integer type (R28). -/
def ElemType.isInt : ElemType → Bool
  | .s32 | .n32 | .s16x2 | .n16x2 | .s8x4 | .n8x4 => true
  | _ => false

/-- Element e of a lane (R11). -/
def elemAt (w e : Nat) (x : Word32) : Nat := (x.toNat >>> (w * e)) % 2 ^ w

/-- A lane from its elements, element 0 first (R11). -/
def packElems (w : Nat) : List Nat → Nat
  | [] => 0
  | x :: xs => x % 2 ^ w + 2 ^ w * packElems w xs

/-- The integer an element of a type stands for (R28). -/
def intOf (signed : Bool) (w x : Nat) : Int := if signed && 2 ^ (w - 1) ≤ x then (x : Int) - 2 ^ w else x

/-- The low w bits of an integer (R29). -/
def wrapInt (w : Nat) (i : Int) : Nat := (i % (2 ^ w : Int)).toNat

/-- The range of an integer format (R28). -/
def intMin (signed : Bool) (w : Nat) : Int := if signed then -(2 ^ (w - 1)) else 0
def intMax (signed : Bool) (w : Nat) : Int := if signed then 2 ^ (w - 1) - 1 else 2 ^ w - 1

/-- An exact result lies in the range. -/
def inRange (signed : Bool) (w : Nat) (i : Int) : Bool := intMin signed w ≤ i && i ≤ intMax signed w

/-- Clamp to the range (R29). -/
def clampInt (signed : Bool) (w : Nat) (i : Int) : Int := max (intMin signed w) (min (intMax signed w) i)

/-! ## Floating-point formats (R30 to R32) -/

/-- The floating-point formats (R30). -/
inductive FFmt | f32 | f16 | bf16 | e4m3 | e5m2
  deriving DecidableEq, Repr

/-- Exponent and fraction widths and the bias (R30). -/
def FFmt.ebits : FFmt → Nat
  | .f32 => 8 | .f16 => 5 | .bf16 => 8 | .e4m3 => 4 | .e5m2 => 5
def FFmt.fbits : FFmt → Nat
  | .f32 => 23 | .f16 => 10 | .bf16 => 7 | .e4m3 => 3 | .e5m2 => 2
def FFmt.bias : FFmt → Nat
  | .f32 => 127 | .f16 => 15 | .bf16 => 127 | .e4m3 => 7 | .e5m2 => 15

/-- Width in bits. -/
def FFmt.width (f : FFmt) : Nat := 1 + f.ebits + f.fbits

/-- Exponent of the smallest normal (R35). -/
def FFmt.emin (f : FFmt) : Int := 1 - (f.bias : Int)

/-- Encoding of the largest finite value, sign clear (R30). -/
def FFmt.maxBits (f : FFmt) : Nat :=
  match f with
  | .e4m3 => 0x7E
  | _ => (2 ^ f.ebits - 1) * 2 ^ f.fbits - 1

/-- Encoding of infinity, sign clear, in a format that has one (R30). -/
def FFmt.infBits (f : FFmt) : Nat := (2 ^ f.ebits - 1) * 2 ^ f.fbits

/-- The canonical NaN (R32). -/
def FFmt.nanBits : FFmt → Nat
  | .f32 => 0x7FC00000 | .f16 => 0x7E00 | .bf16 => 0x7FC0 | .e4m3 => 0x7F | .e5m2 => 0x7E

/-- The format of a floating-point element type. -/
def ElemType.ffmt : ElemType → FFmt
  | .f16x2 => .f16 | .bf16x2 => .bf16 | .e4m3x4 => .e4m3 | .e5m2x4 => .e5m2 | _ => .f32

/-- An exact value: a NaN, an infinity, or m * 2^e with a sign (which a zero keeps). -/
inductive Val
  | nan (signalling : Bool)
  | inf (neg : Bool)
  | fin (neg : Bool) (m : Nat) (e : Int)
  deriving DecidableEq, Repr

/-- A magnitude with its sign. -/
def signBits (f : FFmt) (neg : Bool) (mag : Nat) : Nat := if neg then mag + 2 ^ (f.width - 1) else mag

/-- The value of an encoding (R31, R32). -/
def FFmt.decode (f : FFmt) (x : Nat) : Val :=
  let neg := (x >>> (f.width - 1)) % 2 == 1
  let e := (x >>> f.fbits) % 2 ^ f.ebits
  let fr := x % 2 ^ f.fbits
  if e == 0 then .fin neg fr (f.emin - f.fbits)
  else if e == 2 ^ f.ebits - 1 && (f != .e4m3 || fr == 7) then
    if f == .e4m3 then .nan false
    else if fr == 0 then .inf neg
    else .nan (fr / 2 ^ (f.fbits - 1) == 0)
  else .fin neg (2 ^ f.fbits + fr) ((e : Int) - f.bias - f.fbits)

/-! ## Rounding (R34, R35) -/

/-- How a value lies between two neighbours: exact, below half, half, above half. -/
inductive Between | exact | below | half | above
  deriving DecidableEq, Repr

/-- m * 2^(-sh) as its integer part and where the rest lies. -/
def splitAt (m sh : Nat) : Nat × Between :=
  if m == 0 then (0, .exact)
  else if Nat.log2 m + 2 < sh then (0, .below)
  else
    let r := m % 2 ^ sh
    (m / 2 ^ sh, if r == 0 then .exact else if 2 * r < 2 ^ sh then .below else if 2 * r == 2 ^ sh then .half else .above)

/-- The mode chooses the neighbour of larger magnitude (R34). -/
def takesUpper (mode : Rnd) (neg odd : Bool) (b : Between) : Bool :=
  match mode with
  | .rne => b == .above || (b == .half && odd)
  | .rtz => false
  | .rdn => neg && b != .exact
  | .rup => !neg && b != .exact

/-- The chosen neighbour of m * 2^(-sh), and whether it differs from the value. -/
def roundAt (mode : Rnd) (neg : Bool) (m sh : Nat) : Nat × Bool :=
  let p := splitAt m sh
  (if takesUpper mode neg (p.1 % 2 == 1) p.2 then p.1 + 1 else p.1, p.2 != .exact)

/-- The encoding of y * 2^qe for y at most 2^(F+1), qe the spacing at y, without overflow. -/
def FFmt.encodeMag (f : FFmt) (y : Nat) (qe : Int) : Nat :=
  let y' := if y == 2 ^ (f.fbits + 1) then y / 2 else y
  let qe := if y == 2 ^ (f.fbits + 1) then qe + 1 else qe
  if y' < 2 ^ f.fbits then y' else (qe + f.fbits + f.bias).toNat * 2 ^ f.fbits + (y' - 2 ^ f.fbits)

/-- The result of an overflow without .sat (R35). -/
def FFmt.overflowBits (f : FFmt) (mode : Rnd) (neg : Bool) : Nat :=
  match f with
  | .e4m3 | .e5m2 => f.nanBits
  | _ =>
    let toInf := match mode with
      | .rne => true
      | .rtz => false
      | .rdn => neg
      | .rup => !neg
    signBits f neg (if toInf then f.infBits else f.maxBits)

/-- Round an exact value once to a format (R35): the encoding and the flags set. -/
def FFmt.round (f : FFmt) (mode : Rnd) (sat : Bool) (x : Val) : Nat × Byte :=
  match x with
  | .nan sig => (f.nanBits, flagIf sig flagNV)
  | .inf neg =>
    if (f == .e4m3 || f == .e5m2) && sat then (signBits f neg f.maxBits, flagSA)
    else if f == .e4m3 then (f.nanBits, flagNV)
    else (signBits f neg f.infBits, 0)
  | .fin neg m e =>
    if m == 0 then (signBits f neg 0, 0)
    else
      let lg : Int := Nat.log2 m + e
      let qe := max lg f.emin - f.fbits
      let r := if qe ≤ e then (m * 2 ^ (e - qe).toNat, false) else roundAt mode neg m (qe - e).toNat
      let bits := f.encodeMag r.1 qe
      let fl := flagIf r.2 flagNX ||| flagIf (decide (lg < f.emin) && r.2) flagUF
      if f.maxBits < bits then
        let fl := fl ||| flagOF ||| flagNX
        if sat then (signBits f neg f.maxBits, fl ||| flagSA) else (f.overflowBits mode neg, fl)
      else (signBits f neg bits, fl)

/-! ## Exact operations -/

def Val.isNan : Val → Bool
  | .nan _ => true | _ => false

def Val.isSig : Val → Bool
  | .nan s => s | _ => false

/-- The integer m * 2^e times 2^(-b), for b ≤ e. -/
def alignInt (neg : Bool) (m : Nat) (e b : Int) : Int :=
  let i : Int := (m * 2 ^ (e - b).toNat : Nat)
  if neg then -i else i

/-- A sum of finite values with the sign rule of an exact zero (R36). -/
def addFin (mode : Rnd) (n1 : Bool) (m1 : Nat) (e1 : Int) (n2 : Bool) (m2 : Nat) (e2 : Int) : Val :=
  if m1 == 0 && m2 == 0 then .fin (if n1 == n2 then n1 else mode == .rdn) 0 0
  else if m1 == 0 then .fin n2 m2 e2
  else if m2 == 0 then .fin n1 m1 e1
  else
    let b := min e1 e2
    let i := alignInt n1 m1 e1 b + alignInt n2 m2 e2 b
    if i == 0 then .fin (mode == .rdn) 0 0 else .fin (decide (i < 0)) i.natAbs b

/-- An exact sum (R36, R100): the value and NV. A NaN of the result keeps whether an input signalled. -/
def Val.add (mode : Rnd) (x y : Val) : Val × Byte :=
  if x.isNan || y.isNan then (.nan (x.isSig || y.isSig), 0)
  else match x, y with
    | .inf a, .inf b => if a == b then (.inf a, 0) else (.nan false, flagNV)
    | .inf a, _ => (.inf a, 0)
    | _, .inf b => (.inf b, 0)
    | .fin n1 m1 e1, .fin n2 m2 e2 => (addFin mode n1 m1 e1 n2 m2 e2, 0)
    | _, _ => (.nan false, 0)

def Val.neg : Val → Val
  | .nan s => .nan s
  | .inf n => .inf (!n)
  | .fin n m e => .fin (!n) m e

/-- An exact product (R100). -/
def Val.mul (x y : Val) : Val × Byte :=
  if x.isNan || y.isNan then (.nan (x.isSig || y.isSig), 0)
  else match x, y with
    | .inf a, .inf b => (.inf (a != b), 0)
    | .inf a, .fin n m _ => if m == 0 then (.nan false, flagNV) else (.inf (a != n), 0)
    | .fin n m _, .inf b => if m == 0 then (.nan false, flagNV) else (.inf (n != b), 0)
    | .fin n1 m1 e1, .fin n2 m2 e2 => (.fin (n1 != n2) (m1 * m2) (e1 + e2), 0)
    | _, _ => (.nan false, 0)

/-- A product plus a value, exact (R100). The product 0 * inf sets NV beside a NaN too. -/
def Val.fma (mode : Rnd) (x y z : Val) (negProduct : Bool) : Val × Byte :=
  let p := x.mul y
  let q := (if negProduct then p.1.neg else p.1).add mode z
  (q.1, p.2 ||| q.2)

/-- A quotient to 64 fraction bits and a sticky bit, enough for one rounding (R100). -/
def Val.div (x y : Val) : Val × Byte :=
  if x.isNan || y.isNan then (.nan (x.isSig || y.isSig), 0)
  else match x, y with
    | .inf _, .inf _ => (.nan false, flagNV)
    | .inf a, .fin n _ _ => (.inf (a != n), 0)
    | .fin n _ _, .inf b => (.fin (n != b) 0 0, 0)
    | .fin n1 m1 e1, .fin n2 m2 e2 =>
      if m2 == 0 then (if m1 == 0 then (.nan false, flagNV) else (.inf (n1 != n2), flagDZ))
      else
        let a := m1 * 2 ^ 64
        (.fin (n1 != n2) (2 * (a / m2) + (if a % m2 == 0 then 0 else 1)) (e1 - e2 - 65), 0)
    | _, _ => (.nan false, 0)

/-- Newton's iteration toward an integer square root from above. -/
def sqrtStep (n : Nat) : (fuel x : Nat) → Nat
  | 0, x => x
  | k + 1, x =>
    let y := (x + n / x) / 2
    if y < x then sqrtStep n k y else x

/-- Integer square root, rounded down. -/
def isqrt (n : Nat) : Nat := if n == 0 then 0 else sqrtStep n 40 (2 ^ (Nat.log2 n / 2 + 1))

/-- A square root to more than 64 bits and a sticky bit (R100). -/
def Val.sqrt : Val → Val × Byte
  | .nan s => (.nan s, 0)
  | .inf n => if n then (.nan false, flagNV) else (.inf false, 0)
  | .fin n m e =>
    if m == 0 then (.fin n 0 0, 0)
    else if n then (.nan false, flagNV)
    else
      let m := if e % 2 == 0 then m else 2 * m
      let e := if e % 2 == 0 then e else e - 1
      let a := m * 2 ^ 128
      let q := isqrt a
      (.fin false (2 * q + (if q * q == a then 0 else 1)) (e / 2 - 65), 0)

/-- A value scaled by a power of two (R103). -/
def Val.scale (n : Int) : Val → Val
  | .fin s m e => .fin s m (e + n)
  | v => v

/-- A finite value rounded to an integer by mode: the magnitude, and whether it differs from the value (R37, R101). -/
def roundInt (mode : Rnd) (neg : Bool) (m : Nat) (e : Int) : Nat × Bool :=
  if 0 ≤ e then (m * 2 ^ e.toNat, false) else roundAt mode neg m (-e).toNat

/-! ## Conversions (R37) -/

/-- Value of an element of a floating-point type. -/
def ElemType.val (t : ElemType) (x : Nat) : Val := t.ffmt.decode x

/-- An exact value to an element of a type (R35, R37). A value that comes from an integer clamps with SA. -/
def floatTo (dst : ElemType) (mode : Rnd) (sat : Bool) (v : Val) : Nat × Byte :=
  if dst.isInt then
    let w := dst.width
    match v with
    | .nan _ => (0, flagNV)
    | .inf n => (wrapInt w (if n then intMin dst.signed w else intMax dst.signed w), flagNV)
    | .fin n m e =>
      let r := roundInt mode n m e
      let i : Int := if n then -(r.1 : Int) else r.1
      if inRange dst.signed w i then (wrapInt w i, flagIf r.2 flagNX)
      else (wrapInt w (clampInt dst.signed w i), flagNV)
  else dst.ffmt.round mode sat v

/-- An integer to an element of a type (R37). -/
def intTo (dst : ElemType) (mode : Rnd) (sat : Bool) (i : Int) : Nat × Byte :=
  if dst.isInt then
    let w := dst.width
    if sat then (wrapInt w (clampInt dst.signed w i), flagIf (!inRange dst.signed w i) flagSA) else (wrapInt w i, 0)
  else dst.ffmt.round mode sat (.fin (decide (i < 0)) i.natAbs 0)

/-- A conversion of one element (R37). -/
def convert (src dst : ElemType) (mode : Rnd) (sat : Bool) (x : Nat) : Nat × Byte :=
  if src.isInt then intTo dst mode sat (intOf src.signed src.width x) else floatTo dst mode sat (src.val x)

/-! ## Order of floating-point elements (R101, R109) -/

/-- Magnitude bits of an element. -/
def FFmt.mag (f : FFmt) (x : Nat) : Nat := x % 2 ^ (f.width - 1)

def FFmt.isNeg (f : FFmt) (x : Nat) : Bool := (x >>> (f.width - 1)) % 2 == 1

/-- A key that orders the encodings of non-NaN values, -0 below +0. -/
def FFmt.orderKey (f : FFmt) (x : Nat) : Int := if f.isNeg x then -(f.mag x : Int) - 1 else f.mag x

/-- A key that orders values, -0 equal to +0. -/
def FFmt.valueKey (f : FFmt) (x : Nat) : Int := if f.isNeg x then -(f.mag x : Int) else f.mag x

/-! ## Scales (R41) -/

/-- A BF16 scale: its exact value, or none where it is invalid. -/
def scaleOf (x : BitVec 16) : Option Val :=
  if x.getLsbD 15 then none
  else match FFmt.bf16.decode x.toNat with
    | .fin n m e => some (.fin n m e)
    | _ => none

/-! ## Division (R75, R96) -/

/-- Quotient and remainder at width w with their flags; `overflow` says whether the instruction reports IO. -/
def divideInt (signed : Bool) (w a b : Nat) (overflow : Bool) : (Nat × Nat) × Byte :=
  if b == 0 then ((2 ^ w - 1, a), if a == 0 then flagNV else flagDZ)
  else if signed && a == 2 ^ (w - 1) && b == 2 ^ w - 1 then ((a, 0), flagIf overflow flagIO)
  else
    let x := intOf signed w a
    let y := intOf signed w b
    ((wrapInt w (x.tdiv y), wrapInt w (x.tmod y)), 0)

end Sys2Proof
end

