-- ==== Sys2Proof/Machine/Operands.lean ====
section
/-! DEFINITION. Operands of both streams: legality of register fields, the scoreboard, the checks and the order of effects
that every instruction shares (R10, R18, R56, R58 to R63, R73, R91 to R93, R135, R194). -/

namespace Sys2Proof.Machine

/-! ## S-stream -/

/-- A scalar field names a register the group may name now (R10, R308). -/
def Group.sLegal (g : Group) (r : SReg) : Bool :=
  r.toNat < 96 || r.toNat == 127 || (g.handler.isSome && r.toNat < 112)

/-- A register that an access in flight will write (R73, R90). -/
def Group.sBusy (g : Group) (r : SReg) : Bool :=
  g.accs.any fun a => !a.l && a.valued && a.dest == r.setWidth 8 && r != 127#7

/-- A peer access that returns a value holds its stream until every lane is answered (R181). Log 31. -/
def Group.sHeld (g : Group) : Bool := g.accs.any fun a => !a.l && a.valued && a.peer

/-- Order of levels (R307). -/
def Level.rank : Level → Nat
  | .user => 0 | .super => 1 | .mach => 2

/-- Issue an S-stream instruction (R56, R73, R194): register fields, then privilege, then the scoreboard; an instruction
that is not confined to registers holds behind an access that awaits a value. A stalled instruction changes nothing. Log 4. -/
def State.sIssue (s : State) (need : Level) (rs : List SReg) (free : Bool) (body : State → State) : State :=
  if rs.any fun r => !s.cur.sLegal r then s.raise 0x01
  else if Level.rank s.cur.level < Level.rank need then s.raise 0x02
  else if s.cur.sHeld || rs.any s.cur.sBusy then s
  else if !free && s.cur.sWaits then s
  else body s

/-- The mode whose queue entries a stream uses (R315). -/
def Group.mode (g : Group) : Bool := g.handler.isSome

/-- The S-stream has joined the L-stream: what the L-stream has done comes before what the S-stream does next (R14, R222). -/
def State.joinS (s : State) : State := s.mapCur fun g => { g with sAfter := g.seq }

/-- The L-stream is idle and the DQ holds no block entry of the mode: what SJOIN waits for (R86). Issued instructions have
completed, no access of the stream awaits a value, and no drain has its results still to come (R25). -/
def Group.lIdle (g : Group) : Bool :=
  !g.running && !(g.dq.any fun e => e.block && e.handler == g.mode) && g.lpend.isEmpty &&
    !(g.accs.any fun a => a.l && (a.valued || a.drains))

/-! ## Vector registers -/

/-- A vector field in handler mode that names hv i (R308). -/
def Group.hvIndex (g : Group) (r : BitVec 8) : Option Nat :=
  if g.handler.isSome && 248 ≤ r.toNat then some (r.toNat - 248) else none

/-- A vector field names an allocated register (R10, R308). -/
def Group.vLegal (g : Group) (r : BitVec 8) : Bool := (g.hvIndex r).isSome || r.toNat < g.nregs

/-- A range of n registers reaches past the allocated ones (R116, R120), or past hv7 in handler mode. -/
def Group.rangeBad (g : Group) (r : BitVec 8) (n : Nat) : Bool :=
  n == 0 || 256 < r.toNat + n || (List.range n).any fun i => !g.vLegal (r + BitVec.ofNat 8 i)

/-- Value and life state of a vector register field. -/
def Group.vget (g : Group) (r : BitVec 8) : VReg :=
  match g.hvIndex r with
  | some i => look g.l.hv i (Vector.replicate 128 0)
  | none => look g.l.vregs r.toNat (Vector.replicate 128 0)

def Group.vlife (g : Group) (r : BitVec 8) : Life :=
  match g.hvIndex r with
  | some i => look g.l.hvLife i .dead
  | none => look g.l.life r.toNat .dead

def Group.setLife (g : Group) (r : BitVec 8) (x : Life) : Group :=
  match g.hvIndex r with
  | some i => { g with l := { g.l with hvLife := put g.l.hvLife i x } }
  | none => { g with l := { g.l with life := put g.l.life r.toNat x } }

def Group.vput (g : Group) (r : BitVec 8) (v : VReg) : Group :=
  match g.hvIndex r with
  | some i => { g with l := { g.l with hv := put g.l.hv i v } }
  | none => { g with l := { g.l with vregs := put g.l.vregs r.toNat v } }

/-- What the unwritten lanes of a register hold: their bytes when it is LIVE or REST, else zero (R19). -/
def Group.kept (g : Group) (r : BitVec 8) : VReg :=
  match g.vlife r with
  | .live | .rest => g.vget r
  | _ => Vector.replicate 128 0

/-- Lanes of a mask take new values, the others keep theirs. -/
def mergeLanes (m : Mask) (new old : VReg) : VReg := Vector.ofFn fun i => if m.getLsbD i.val then new[i] else old[i]

/-- Write the lanes of a mask; the register becomes LIVE (R18, R19). -/
def Group.vwrite (g : Group) (r : BitVec 8) (m : Mask) (v : VReg) : Group :=
  (g.vput r (mergeLanes m v (g.kept r))).setLife r .live

/-- A predicate as a path reads it: p0 is the active mask (R10). -/
def Group.pget (g : Group) (active : Mask) (p : Nat) : Mask := if p == 0 then active else look g.l.preds p 0

/-- Write the selected bits of a predicate; a write to p0 is discarded (R10, R109). -/
def Group.pwrite (g : Group) (p : Nat) (sel v : Mask) : Group :=
  if p == 0 then g
  else { g with l := { g.l with preds := put g.l.preds p ((look g.l.preds p 0 &&& ~~~sel) ||| (v &&& sel)) } }

/-- The lanes an instruction acts on: active and guarded (R61, R91). -/
def Group.selected (g : Group) (active : Mask) (gd : Guard) : Mask :=
  let p := g.pget active gd.p.toNat
  active &&& (if gd.neg then ~~~p else p)

/-! ## Life hints (R17, R18) -/

def hintLife : Hint → Life
  | .keep => .live | .last => .dead | .rest => .rest

/-- Apply the hints of the operands read: LAST over REST over KEEP (R18). -/
def Group.applyHints (g : Group) (hs : List (BitVec 8 × Hint)) : Group :=
  let pass := fun (g : Group) (k : Hint) =>
    hs.foldl (fun g x => if x.2 == k then g.setLife x.1 (hintLife k) else g) g
  pass (pass (pass g .keep) .rest) .last

/-! ## Queues (R12, R13, R315) -/

/-- The first DQ entry of the group's mode. -/
def Group.dqHead (g : Group) : Option DqEntry := g.dq.find? fun e => e.handler == g.mode

/-- Remove it. -/
def removeFirst (p : DqEntry → Bool) : List DqEntry → List DqEntry
  | [] => []
  | e :: es => if p e then es else e :: removeFirst p es

def Group.dqDrop (g : Group) : Group := { g with dq := removeFirst (fun e => e.handler == g.mode) g.dq }

/-- What n pops find: a block entry (ILLEGAL), too few values (wait), or the values and the queue after them. -/
inductive Pops
  | illegal
  | wait
  | got (vs : List Word) (g : Group)

def Group.pops (g : Group) : Nat → Pops
  | 0 => .got [] g
  | n + 1 =>
    match g.dqHead with
    | none => .wait
    | some e =>
      if e.block then .illegal
      else match g.dqDrop.pops n with
        | .got vs g' => .got (e.val :: vs) g'
        | r => r

/-- A group is converged: one path, no entry, no hold (R121). -/
def Group.converged (g : Group) : Bool :=
  (g.l.ps0.isSome != g.l.ps1.isSome) && g.l.stack.isEmpty && g.l.hold.isNone

/-! ## What reconvergence orders (R138, R223) -/

/-- What the lanes of one mask have done comes before what those of another do from now on: the accesses of the L-stream that any of
them follows, and its fences (R221, R223). -/
def Group.follow (g : Group) (m n : Mask) : Group :=
  { g with
    accs := g.accs.map fun a => if a.l && a.path &&& m != 0 then { a with path := a.path ||| n } else a
    fences := g.fences.map fun f => if f.l && f.mask &&& m != 0 then { f with mask := f.mask ||| n } else f }

/-- A converged VBAR: every earlier event of the L-stream comes before every later one (R138, R223). -/
def Group.followAll (g : Group) : Group :=
  { g with
    accs := g.accs.map fun a => if a.l then { a with path := BitVec.allOnes 128 } else a
    fences := g.fences.map fun f => if f.l then { f with mask := BitVec.allOnes 128 } else f }

/-! ## Supply of register blocks (R20, R21) -/

/-- The block of a vector field; hv registers have none (R308). -/
def Group.blockOf (g : Group) (r : BitVec 8) : Option Nat :=
  match g.hvIndex r with
  | some _ => none
  | none => some (r.toNat / 8)

/-- The block lets an access pass at once. -/
def Group.powered (g : Group) (r : BitVec 8) : Bool :=
  match g.blockOf r with
  | none => true
  | some b => look g.blocks b .off == .full

/-- Begin the wake or power-up of a register's block, unless it is FULL or already waking (R21). -/
def State.wakeBlock (s : State) (r : BitVec 8) : State :=
  let due := s.cyclesOf (s.coreOf s.cur) + 24
  s.mapCur fun g =>
    match g.blockOf r with
    | none => g
    | some b =>
      match look g.blocks b .off with
      | .full | .waking _ _ => g
      | x => { g with blocks := put g.blocks b (.waking due (x == .ret)) }

/-! ## L-stream -/

/-- What an L-stream instruction uses beyond its fields: vector registers read with their hints, vector registers written,
predicates and k registers read and written, DQ pops and RQ pushes, and whether its effects are confined to registers, so
that it may issue behind an access that awaits a value (R194). Late pops are made after other checks of the instruction (R293,
R298). -/
structure LUse where
  reads  : List (BitVec 8 × Hint) := []
  writes : List (BitVec 8) := []
  preads : List (BitVec 3) := []
  pwrite : List (BitVec 3) := []
  kreads : List (BitVec 4) := []
  kwrite : List (BitVec 4) := []
  pops   : Nat := 0
  late   : Bool := false
  pushes : Nat := 0
  free   : Bool := true

/-- The scoreboard holds an instruction (R93): an issued instruction, or a load in flight, has yet to write a register it
uses. -/
def Group.lBusy (g : Group) (u : LUse) : Bool :=
  let regs := u.reads.map Prod.fst ++ u.writes
  (g.lpend.any fun e => (e.regs.any fun r => regs.contains r) || (e.preds.any fun p => (u.preads ++ u.pwrite).contains p) ||
    (e.ks.any fun k => (u.kreads ++ u.kwrite).contains k)) ||
  (g.accs.any fun a => a.l && (a.valued || a.drains) &&
    (match a.kind with
     | .vblk n => (List.range n).any fun i => regs.contains (a.dest + BitVec.ofNat 8 i)
     | .drain _ n _ => (List.range n).any fun i => regs.contains (a.dest + BitVec.ofNat 8 i)
     | _ => regs.contains a.dest))

/-- A peer access or a lane access that has failed on some lanes holds the stream (R181, R195), and so does one with
acquire order before a later access (R191). Log 31. -/
def Group.lHeld (g : Group) : Bool := g.accs.any fun a => a.l && a.valued && (a.peer || !a.fails.isEmpty)

/-- What an L-stream instruction finds once it issues: the state after its pops and hints, its active and selected lanes,
and the values popped. -/
structure LIn where
  st     : State
  active : Mask
  sel    : Mask
  popped : List Word

/-- Issue an L-stream instruction of the path that has its turn (R18, R56, R135): register fields; QDIV; DEADREAD, then
RETLOST; a block entry at the head of the DQ; the stalls; pops; hints. The fault of a POISON register makes it DEAD (R21).
A stalled instruction changes nothing but the wakes it begins. Log 4, 33. -/
def State.lIssue (s : State) (gd : Guard) (u : LUse) (body : LIn → State) : State :=
  match s.cur.path s.ps1 with
  | none => s
  | some p =>
    let g := s.cur
    let regs := u.reads.map Prod.fst ++ u.writes
    if regs.any fun r => !g.vLegal r then s.raiseL 0x01
    else if (0 < u.pops || 0 < u.pushes) && !g.converged then s.raiseL 0x16
    else if u.reads.any fun x => g.vlife x.1 == .dead then s.raiseL 0x03
    else if u.reads.any fun x => g.vlife x.1 == .poison then
      if g.lWaits then s
      else (s.mapCur fun g => u.reads.foldl (fun g x => if g.vlife x.1 == .poison then g.setLife x.1 .dead else g) g).raiseL 0x04
    else match g.pops (if u.late then 0 else u.pops) with
      | .illegal => s.raiseL 0x01
      | .wait => s
      | .got vs g' =>
        if g.lHeld || g.lBusy u || ((!u.free || 0 < u.pops || 0 < u.pushes) && g.lWaits) then s
        else if 16 < g.rq.length + u.pushes then s
        else if regs.any fun r => !g.powered r then regs.foldl State.wakeBlock s
        else body ⟨{ s with cur := g'.applyHints u.reads }, p.mask, g.selected p.mask gd, vs⟩

/-- The late pops of an instruction: a block entry at the head of the DQ, too few values, or the values with the group after
them (R12, R135). -/
def State.latePops (s : State) (n : Nat) (k : List Word → Group → State) : State :=
  match s.cur.pops n with
  | .illegal => s.raiseL 0x01
  | .wait => s
  | .got vs g => k vs g

/-- Move the path on to the next instruction. -/
def State.lNext (s : State) : State :=
  s.mapCur fun g =>
    match g.path s.ps1 with
    | none => g
    | some p => { g with l := g.l.setPath s.ps1 (some { p with pc := p.pc + 3 }) }

/-- The instruction is issued: it enters the scoreboard with the flags it will OR, and the path moves on (R25, R93).
Handler instructions set no flag (R313). Log 20. -/
def State.lDone (s : State) (flags : Byte) (u : LUse) : State :=
  (s.mapCur fun g => { g with
    lpend := g.lpend ++ [⟨g.seq, if g.handler.isSome then 0 else flags, u.writes, u.pwrite, u.kwrite⟩]
    seq := g.seq + 1 }).lNext

/-- The value of source c in every lane (R59), from the state before the hints and the value popped. -/
def Group.cvec (g : Group) (o : LOp) (popped : List Word) : VReg :=
  match o.c with
  | .vec r _ => g.vget r
  | .imm => Vector.replicate 128 o.w2
  | .dq => Vector.replicate 128 ((popped.headD 0).setWidth 32)
  | .kreg n => Vector.replicate 128 ((look g.l.k n.toNat 0).setWidth 32)

/-- Source c as 64 bits where it is a base or a value (R64, R114, R137): imm32 zero-extended. -/
def Group.c64 (g : Group) (o : LOp) (popped : List Word) : Word :=
  match o.c with
  | .vec _ _ => 0
  | .imm => o.w2.setWidth 64
  | .dq => popped.headD 0
  | .kreg n => look g.l.k n.toNat 0

/-- What source c uses. -/
def LUse.withC (u : LUse) (c : CSrc) : LUse :=
  match c with
  | .vec r h => { u with reads := u.reads ++ [(r, h)] }
  | .imm => u
  | .dq => { u with pops := u.pops + 1 }
  | .kreg n => { u with kreads := u.kreads ++ [n] }

/-- What the guard uses. -/
def LUse.withGuard (u : LUse) (gd : Guard) : LUse := { u with preads := u.preads ++ [gd.p] }

end Sys2Proof.Machine
end

