-- ==== Sys2Proof/Machine/Alu.lean ====
section
/-! DEFINITION. The scalar arithmetic of the S-stream: register forms (R74, R75), immediate forms (R76, R77), LI and LI.HI
(R54). -/

namespace Sys2Proof.Machine

/-- A two-source form: the result and the flags from the values of sa and sb (R74). -/
def State.alu2 (s : State) (d a b : SReg) (f : Word → Word → Word × Byte) : State :=
  s.sIssue .user [d, a, b] true fun s =>
    let r := f (s.sget a) (s.sget b)
    ((s.sput d r.1).setFlags r.2).nextPc 4

/-- A one-source form: the result from the value of sa (R74, R76). -/
def State.alu1 (s : State) (d a : SReg) (f : Word → Word) : State :=
  s.sIssue .user [d, a] true fun s => (s.sput d (f (s.sget a))).nextPc 4

/-- The result sets no flag. -/
def quiet (f : Word → Word → Word) (a b : Word) : Word × Byte := (f a b, 0)

/-- One when a condition holds. -/
def boolWord (c : Bool) : Word := if c then 1 else 0

/-- Number of leading zero bits (R74). -/
def leadingZeros (w n : Nat) : Nat := if n == 0 then w else w - 1 - Nat.log2 n

/-- MUL: low 64 bits, IO when the signed product lies outside the signed range (R74). -/
def mulWord (a b : Word) : Word × Byte := (a * b, flagIf (!inRange true 64 (a.toInt * b.toInt)) flagIO)

/-- Bits 127:64 of the signed and of the natural product (R74). -/
def mulHigh (a b : Word) : Word := BitVec.ofInt 64 (a.toInt * b.toInt / 2 ^ 64)
def mulHighN (a b : Word) : Word := BitVec.ofNat 64 (a.toNat * b.toNat / 2 ^ 64)

/-- DIV and REM forms (R75). -/
def divWord (signed : Bool) (overflow : Bool) (a b : Word) : Word × Byte :=
  let r := divideInt signed 64 a.toNat b.toNat overflow
  (BitVec.ofNat 64 r.1.1, r.2)

def remWord (signed : Bool) (a b : Word) : Word × Byte :=
  let r := divideInt signed 64 a.toNat b.toNat false
  (BitVec.ofNat 64 r.1.2, r.2)

/-- A shift count of bits 5:0 (R74). -/
def count6 (b : Word) : Nat := b.toNat % 64

def execAdd (d a b : SReg) (s : State) : Out := .next (s.alu2 d a b (quiet (· + ·)))
def execSub (d a b : SReg) (s : State) : Out := .next (s.alu2 d a b (quiet (· - ·)))
def execMul (d a b : SReg) (s : State) : Out := .next (s.alu2 d a b mulWord)
def execMulh (d a b : SReg) (s : State) : Out := .next (s.alu2 d a b (quiet mulHigh))
def execMulhn (d a b : SReg) (s : State) : Out := .next (s.alu2 d a b (quiet mulHighN))
def execDiv (d a b : SReg) (s : State) : Out := .next (s.alu2 d a b (divWord true true))
def execDivn (d a b : SReg) (s : State) : Out := .next (s.alu2 d a b (divWord false false))
def execRem (d a b : SReg) (s : State) : Out := .next (s.alu2 d a b (remWord true))
def execRemn (d a b : SReg) (s : State) : Out := .next (s.alu2 d a b (remWord false))
def execAnd (d a b : SReg) (s : State) : Out := .next (s.alu2 d a b (quiet (· &&& ·)))
def execOr (d a b : SReg) (s : State) : Out := .next (s.alu2 d a b (quiet (· ||| ·)))
def execXor (d a b : SReg) (s : State) : Out := .next (s.alu2 d a b (quiet (· ^^^ ·)))
def execAndn (d a b : SReg) (s : State) : Out := .next (s.alu2 d a b (quiet fun x y => x &&& ~~~y))
def execShl (d a b : SReg) (s : State) : Out := .next (s.alu2 d a b (quiet fun x y => x <<< count6 y))
def execShr (d a b : SReg) (s : State) : Out := .next (s.alu2 d a b (quiet fun x y => x >>> count6 y))
def execSra (d a b : SReg) (s : State) : Out := .next (s.alu2 d a b (quiet fun x y => x.sshiftRight (count6 y)))
def execRotr (d a b : SReg) (s : State) : Out := .next (s.alu2 d a b (quiet fun x y => x.rotateRight (count6 y)))
def execMin (d a b : SReg) (s : State) : Out := .next (s.alu2 d a b (quiet fun x y => if x.sle y then x else y))
def execMax (d a b : SReg) (s : State) : Out := .next (s.alu2 d a b (quiet fun x y => if x.sle y then y else x))
def execMinn (d a b : SReg) (s : State) : Out := .next (s.alu2 d a b (quiet fun x y => if x.ule y then x else y))
def execMaxn (d a b : SReg) (s : State) : Out := .next (s.alu2 d a b (quiet fun x y => if x.ule y then y else x))
def execClz (d a : SReg) (s : State) : Out := .next (s.alu1 d a fun x => BitVec.ofNat 64 (leadingZeros 64 x.toNat))
def execPopc (d a : SReg) (s : State) : Out := .next (s.alu1 d a fun x => BitVec.ofNat 64 (popcount x))
def execSlt (d a b : SReg) (s : State) : Out := .next (s.alu2 d a b (quiet fun x y => boolWord (x.slt y)))
def execSltn (d a b : SReg) (s : State) : Out := .next (s.alu2 d a b (quiet fun x y => boolWord (x.ult y)))
def execSeq (d a b : SReg) (s : State) : Out := .next (s.alu2 d a b (quiet fun x y => boolWord (x == y)))
def execSne (d a b : SReg) (s : State) : Out := .next (s.alu2 d a b (quiet fun x y => boolWord (x != y)))

/-- SEL reads the old value of sd as a third source (R74). -/
def execSel (d a b : SReg) (s : State) : Out :=
  .next (s.alu2 d a b (quiet fun x y => if s.sget d != 0 then x else y))

def execAddi (d a : SReg) (imm : BitVec 12) (s : State) : Out := .next (s.alu1 d a (· + imm.signExtend 64))
def execAndi (d a : SReg) (imm : BitVec 12) (s : State) : Out := .next (s.alu1 d a (· &&& imm.signExtend 64))
def execOri (d a : SReg) (imm : BitVec 12) (s : State) : Out := .next (s.alu1 d a (· ||| imm.signExtend 64))
def execXori (d a : SReg) (imm : BitVec 12) (s : State) : Out := .next (s.alu1 d a (· ^^^ imm.signExtend 64))
def execShli (d a : SReg) (n : BitVec 6) (s : State) : Out := .next (s.alu1 d a (· <<< n.toNat))
def execShri (d a : SReg) (n : BitVec 6) (s : State) : Out := .next (s.alu1 d a (· >>> n.toNat))
def execSrai (d a : SReg) (n : BitVec 6) (s : State) : Out := .next (s.alu1 d a fun x => x.sshiftRight n.toNat)
def execSlti (d a : SReg) (imm : BitVec 12) (s : State) : Out :=
  .next (s.alu1 d a fun x => boolWord (x.slt (imm.signExtend 64)))

/-- LUI: imm19 << 13, extended from bit 31 (R77). -/
def execLui (d : SReg) (imm : BitVec 19) (s : State) : Out :=
  .next (s.sIssue .user [d] true fun s => (s.sput d ((imm ++ (0 : BitVec 13)).signExtend 64)).nextPc 4)

/-- LI: the sign-extended word1 (R54). -/
def execLi (d : SReg) (imm : Word32) (s : State) : Out :=
  .next (s.sIssue .user [d] true fun s => (s.sput d (imm.signExtend 64)).nextPc 8)

/-- LI.HI: word1 into bits 63:32 of sd (R54). -/
def execLiHi (d : SReg) (imm : Word32) (s : State) : Out :=
  .next (s.sIssue .user [d] true fun s => (s.sput d (imm ++ (s.sget d).setWidth 32)).nextPc 8)

end Sys2Proof.Machine
end

