-- ==== Sys2Proof/Machine/Lanes.lean ====
section
/-! DEFINITION. The frame shared by the lane instructions that compute: sources, selected lanes, elements, the write of the
destination, and the flags (R18, R91, R92). -/

namespace Sys2Proof.Machine

/-- A lane computed from the elements of three source lanes, element by element, with the OR of the flags (R92). -/
def elemwise (t : ElemType) (f : Nat → Nat → Nat → Nat × Byte) (a b c : Word32) : Word32 × Byte :=
  let w := t.width
  let rs := (List.range t.count).map fun e => f (elemAt w e a) (elemAt w e b) (elemAt w e c)
  (BitVec.ofNat 32 (packElems w (rs.map Prod.fst)), rs.foldl (fun x r => x ||| r.2) 0)

/-- Every selected lane computed, with the OR of the flags; other lanes do not matter. -/
def lanewise (sel : Mask) (f : Fin 128 → Word32 × Byte) : VReg × Byte :=
  let rs : Vector (Word32 × Byte) 128 := Vector.ofFn fun i => if sel.getLsbD i.val then f i else (0, 0)
  (rs.map Prod.fst, rs.toList.foldl (fun x r => x ||| r.2) 0)

/-- Which source fields beside c an instruction reads. -/
inductive Srcs | c | ac | abc | acd | a
  deriving DecidableEq, Repr

/-- The sources and the destination of an instruction that computes (R58, R63). -/
def lopUse (o : LOp) (k : Srcs) : LUse :=
  let a := (o.a.r, o.a.hint)
  let b := (o.b.r, o.b.hint)
  match k with
  | .c => ({ writes := [o.vd] : LUse }.withC o.c).withGuard o.g
  | .a => ({ reads := [a], writes := [o.vd] : LUse }).withGuard o.g
  | .ac => ({ reads := [a], writes := [o.vd] : LUse }.withC o.c).withGuard o.g
  | .abc => ({ reads := [a, b], writes := [o.vd] : LUse }.withC o.c).withGuard o.g
  | .acd => ({ reads := [a, (o.vd, .keep)], writes := [o.vd] : LUse }.withC o.c).withGuard o.g

/-- The lane values an instruction reads: sources a, b and c, and its destination. -/
structure LaneIn where
  a : Word32
  b : Word32
  c : Word32
  d : Word32
  i : Nat

/-- An instruction that computes each selected lane of vd from the same lane of its sources (R91). -/
def State.lcompute (s : State) (o : LOp) (u : LUse) (f : LaneIn → Word32 × Byte) : State :=
  s.lIssue o.g u fun x =>
    let va := s.cur.vget o.a.r
    let vb := s.cur.vget o.b.r
    let vc := s.cur.cvec o x.popped
    let vd := s.cur.vget o.vd
    let r := lanewise x.sel fun i => f ⟨va[i], vb[i], vc[i], vd[i], i.val⟩
    (x.st.mapCur fun g => g.vwrite o.vd x.sel r.1).lDone r.2 u

/-- The same for a computation on elements of the instruction's type (R92). -/
def State.lelem (s : State) (o : LOp) (k : Srcs) (f : Nat → Nat → Nat → Nat × Byte) : State :=
  s.lcompute o (lopUse o k) fun x => elemwise o.ty f x.a x.b x.c

/-- The rounding mode of an instruction (R34). -/
def rounding (o : LOp) : Rnd :=
  match o.rnd.toNat with
  | 0 => .rne
  | 1 => .rtz
  | 2 => .rdn
  | _ => .rup

/-- A mods bit. -/
def modBit (o : LOp) (i : Nat) : Bool := o.mods.getLsbD i

/-- A field of mods. -/
def modField (o : LOp) (lo w : Nat) : Nat := (o.mods.toNat >>> lo) % 2 ^ w

end Sys2Proof.Machine
end

