-- ==== Sys2Proof/Machine/Paths.lean ====
section
/-! DEFINITION. Paths, the divergence stack with its spill area, the refill of the slots, and the end of a block (R121 to
R134). -/

namespace Sys2Proof.Machine

/-! ## Nesting counters (R124) -/

/-- Lanes of a mask whose counter stands at 255. -/
def LState.nestFull (l : LState) (m : Mask) : Mask := maskOf ((lanesOf m).filter fun i => look l.nest i 0 == 255)

/-- Add 1 for each lane of a mask. -/
def LState.nestUp (l : LState) (m : Mask) : LState :=
  { l with nest := Vector.ofFn fun i => if m.getLsbD i.val then l.nest[i] + 1 else l.nest[i] }

/-- Subtract 1 for each lane of a mask, never below 0. -/
def LState.nestDown (l : LState) (m : Mask) : LState :=
  { l with nest := Vector.ofFn fun i => if m.getLsbD i.val && l.nest[i] != 0 then l.nest[i] - 1 else l.nest[i] }

def LState.nestZero (l : LState) : LState := { l with nest := Vector.replicate 128 0 }

/-- Number of JOIN and LOOP entries whose mask includes a lane. -/
def LState.entriesOf (l : LState) (i : Nat) : Nat := (l.stack.filter fun e => e.kind != .park && e.mask.getLsbD i).length

/-! ## Spill area (R123) -/

/-- Code of an entry's kind. -/
def EntryKind.code : EntryKind → Byte
  | .join => 1 | .loop => 2 | .park => 3

def kindOf (b : Byte) : Option EntryKind :=
  if b == 1 then some .join else if b == 2 then some .loop else if b == 3 then some .park else none

/-- XOR of bytes. -/
def xorBytes (bs : List Byte) : Byte := bs.foldl (· ^^^ ·) 0

/-- The 32 bytes of a spilled entry. -/
def StackEntry.bytes (e : StackEntry) : List Byte :=
  let h := bytesOf 16 e.mask.toNat ++ bytesOf 4 (e.pc % 2 ^ 19) ++ [e.kind.code]
  h ++ [xorBytes h ^^^ 0x5A] ++ List.replicate 10 0

/-- The entry that spilled bytes hold, where the check byte agrees. A kind byte that names no kind counts as a mismatch, which
R123 does not say. Log 136. -/
def entryOf (bs : List Byte) : Option StackEntry :=
  if bs.getD 21 0 == xorBytes (bs.take 21) ^^^ 0x5A then
    (kindOf (bs.getD 20 0)).map fun k =>
      ⟨k, natOfBytes ((bs.drop 16).take 4) % 2 ^ 19, BitVec.ofNat 128 (natOfBytes (bs.take 16))⟩
  else none

/-- Address of entry i of the group's spill area (R123, R142), when it has one. -/
def State.spillAddr (s : State) (i : Nat) : Option Word :=
  let gr := s.gridOf s.cur
  let g := ((s.gangOf s.cur).num * gr.launch.teams + (s.teamOf s.cur).tid) * gr.launch.groups + s.cur.rank
  if gr.launch.spill == 0 then none else some (gr.launch.spill + BitVec.ofNat 64 (2048 * g + 32 * i))

/-- Write a spilled entry; none where the group has no spill area or the write fails (log 18). -/
def State.spillWrite (s : State) (i : Nat) (e : StackEntry) : Option State :=
  match s.spillAddr i with
  | none => none
  | some a =>
    let w := s.ctxWrite (s.coreOf s.cur) (s.ctxOf s.cur) s.cur.level a e.bytes
    match w.1 with
    | some _ => none
    | none => some w.2

/-- Read a spilled entry back, with its check. Log 18. -/
def State.spillRead (s : State) (i : Nat) : Option (StackEntry × State) :=
  match s.spillAddr i with
  | none => none
  | some a =>
    let r := s.ctxRead (s.coreOf s.cur) (s.ctxOf s.cur) s.cur.level .read a 32
    match r.1 with
    | .inl _ => none
    | .inr bs => (entryOf bs).map fun e => (e, r.2)

/-- Change the L-stream state of the issuing group. -/
def State.mapL (s : State) (f : LState → LState) : State := s.mapCur fun g => { g with l := f g.l }

/-- Push an entry: past 8 in hardware the oldest of them spills (R123). The entries of a handler's own blocks spill from index 0
again, over the user's spilled bytes. Log 18. -/
def State.pushEntry (s : State) (e : StackEntry) : Option State :=
  let st := s.cur.l.stack
  let s' := if 8 ≤ st.length then
      match st[7]? with
      | some x => s.spillWrite (st.length - 8) x
      | none => some s
    else some s
  s'.map fun s => s.mapL fun l => { l with stack := e :: st }

/-- Pop the top entry: a spilled entry takes the place that frees in hardware (R123). The watchdog restarts (R134). Log 18. -/
def State.popEntry (s : State) : Option State :=
  let st := s.cur.l.stack.tail
  let s := s.mapCur fun g => { g with wdog := 0, l := { g.l with stack := st } }
  if 8 ≤ st.length then
    (s.spillRead (st.length - 8)).map fun r => r.2.mapL fun l => { l with stack := l.stack.set 7 r.1 }
  else some s

/-- The topmost JOIN or LOOP entry, and the entries below it. -/
def topRegion : List StackEntry → Option (StackEntry × List StackEntry)
  | [] => none
  | e :: es => if e.kind == .park then topRegion es else some (e, es)

/-! ## End of a block, holds, refill (R128, R132) -/

/-- The block ends: counters 0, the L-stream idle, the watchdog restarted. -/
def State.endBlock (s : State) : State :=
  s.mapCur fun g =>
    { g with running := false, wdog := 0, l := { g.l.nestZero with ps0 := none, ps1 := none, hold := none, stack := [] } }

/-- The hold completes (R132): what its lanes have done comes before what the path it creates does (R223). A VBAR hold of which
every lane was retired, by a handler's block, leaves no path and ends the block. Log 105. -/
def State.completeHold (s : State) (h : Hold) : State :=
  match h.kind with
  | .lend => s.endBlock
  | .vbar b =>
    if h.mask == 0 then s.endBlock
    else s.mapCur fun g =>
      { g.follow h.mask h.mask with wdog := 0, l := { g.l.nestZero with ps0 := some ⟨b + 3, h.mask⟩, ps1 := none, hold := none } }

/-- Refill the slots after a path dissolved (R128); none where a spilled entry fails its check. What the lanes of a JOIN or LOOP
entry have done, those held among them, comes before what the path of its pop does (R138, R223; log 30). A parked path of which
every lane was retired dissolves (R131). Where both slots are empty a PARK entry enters PS0: R128 says only the empty slot (log 137). -/
def State.refill : (fuel : Nat) → State → Option State
  | 0, s => some s
  | n + 1, s =>
    let l := s.cur.l
    match l.stack with
    | e :: _ =>
      if e.kind == .park then
        if e.mask == 0 then (s.popEntry).bind fun s => s.refill n
        else if l.ps0.isNone then (s.popEntry).bind fun s => (s.mapL fun l => { l with ps0 := some ⟨e.pc, e.mask⟩ }).refill n
        else if l.ps1.isNone then
          (s.popEntry).bind fun s => (s.mapL fun l => { l with ps1 := some ⟨e.pc, e.mask⟩ }).refill n
        else some s
      else if l.ps0.isNone && l.ps1.isNone then
        (s.popEntry).bind fun s =>
          let s := s.mapL fun l => l.nestDown e.mask
          let mr := e.mask &&& ~~~((l.hold.map Hold.mask).getD 0)
          let pc := if e.kind == .join then e.pc + 3 else e.pc
          (if mr == 0 then s else (s.mapCur (Group.follow · e.mask mr)).mapL fun l => { l with ps0 := some ⟨pc, mr⟩ }).refill n
      else some s
    | [] =>
      if l.ps0.isNone && l.ps1.isNone then
        match l.hold with
        | some h => some (s.completeHold h)
        | none => some s.endBlock
      else some s

/-- The path of the turn dissolves, and the slots refill (R128). -/
def State.dissolve (s : State) : Option State :=
  (s.mapL fun l => l.setPath s.ps1 none).refill (s.cur.l.stack.length + 1)

/-- A step of path control ends in a state, or in DIVSPILL with no effect (R123). -/
def orSpill (s : State) : Option State → State
  | some t => t
  | none => s.raiseL 0x0C

end Sys2Proof.Machine
end

