-- ==== Sys2Proof/Machine/Ctl.lean ====
section
/-! DEFINITION. Control transfer of the S-stream (R78 to R81), and the traffic that starts and feeds the L-stream (R83 to
R86). -/

namespace Sys2Proof.Machine

/-- The condition of a branch on a value (R48). -/
def Cond.holds (c : Cond) (x : Word) : Bool :=
  match c with
  | .eqz => x == 0
  | .nez => x != 0
  | .ltz => x.slt 0
  | .gez => !x.slt 0
  | .gtz => (0 : Word).slt x
  | .lez => x.sle 0
  | .always => true

/-- S-PC plus four times a signed word offset (R46). -/
def State.target {w : Nat} (s : State) (off : BitVec w) : Word := s.cur.s.pc + 4 * off.signExtend 64

/-- The link register (R10). -/
def linkReg : SReg := 95

def execB (cond : Cond) (a : SReg) (off : BitVec 16) (s : State) : Out :=
  .next (s.sIssue .user [a] true fun s => if Cond.holds cond (s.sget a) then s.setPc (s.target off) else s.nextPc 4)

def execJ (off : BitVec 26) (s : State) : Out := .next (s.sIssue .user [] true fun s => s.setPc (s.target off))

def execCall (off : BitVec 26) (s : State) : Out :=
  .next (s.sIssue .user [linkReg] true fun s => (s.sput linkReg (s.cur.s.pc + 4)).setPc (s.target off))

/-- A register jump: a target whose low two bits are not zero faults ALIGN with no effect (R80; log 16). -/
def State.jumpTo (s : State) (t : Word) (link : Bool) : State :=
  if t &&& 3 != 0 then s.raiseMem (mf 0x07 0 t) 0
  else (if link then s.sput linkReg (s.cur.s.pc + 4) else s).setPc t

def execJr (a : SReg) (s : State) : Out := .next (s.sIssue .user [a] true fun s => s.jumpTo (s.sget a) false)

def execRet (s : State) : Out := .next (s.sIssue .user [linkReg] true fun s => s.jumpTo (s.sget linkReg) false)

/-- CALLR reads sa before it writes the link (R80). -/
def execCallr (a : SReg) (s : State) : Out :=
  .next (s.sIssue .user [a, linkReg] true fun s => s.jumpTo (s.sget a) true)

/-- LOOP: decrement, and branch while the result is not zero (R81). -/
def execLoop (a : SReg) (off : BitVec 16) (s : State) : Out :=
  .next (s.sIssue .user [a] true fun s =>
    let t := s.sget a - 1
    let s := s.sput a t
    if t != 0 then s.setPc (s.target off) else s.nextPc 4)

/-! ## Starting and feeding the L-stream -/

/-- The DQ holds 16 entries, of whichever mode (R12, R315). -/
def Group.dqFull (g : Group) : Bool := 16 ≤ g.dq.length

/-- Append an entry to the DQ; a full DQ stalls (R12, R83, R84). -/
def State.dqAppend (s : State) (block : Bool) (v : Word) : State :=
  if s.cur.dqFull then s
  else (s.mapCur fun g => { g with dq := g.dq ++ [⟨block, g.mode, v, g.seq, g.sAfter⟩] }).nextPc 4

/-- LRUN appends a block entry that names an L-code word offset (R83). In handler mode it needs HLBASE (R314). -/
def execLrun (off : BitVec 19) (s : State) : Out :=
  .next (s.sIssue .user [] false fun s =>
    if s.cur.mode && (s.ctxOf s.cur).hlbase == 0 then s.raise 0x01 else s.dqAppend true (off.setWidth 64))

/-- DQPUT appends the value of sa (R84). -/
def execDqput (a : SReg) (s : State) : Out :=
  .next (s.sIssue .user [a] false fun s => s.dqAppend false (s.sget a))

/-- RQGET waits for a value and pops it (R85); values carry no mode (R315). -/
def execRqget (d : SReg) (s : State) : Out :=
  .next (s.sIssue .user [d] false fun s =>
    match s.cur.rq with
    | [] => s
    | v :: vs => ((s.mapCur fun g => { g with rq := vs }).sput d v).nextPc 4)

/-- RQGET.TRY pops a value when one is present, and reports OK or EMPTY in sa (R85). -/
def execRqgetTry (d a : SReg) (s : State) : Out :=
  .next (s.sIssue .user [d, a] false fun s =>
    match s.cur.rq with
    | [] => (s.sput a 1).nextPc 4
    | v :: vs => (((s.mapCur fun g => { g with rq := vs }).sput d v).sput a 0).nextPc 4)

/-- SJOIN waits until the L-stream is idle and the DQ holds no block entry, and joins (R14, R86). -/
def execSjoin (s : State) : Out :=
  .next (s.sIssue .user [] false fun s => if s.cur.lIdle then s.joinS.nextPc 4 else s)

end Sys2Proof.Machine
end

