-- ==== Sys2Proof/Machine/Fetch.lean ====
section
/-! DEFINITION. The turn of an agent: which agent acts and what time passes before it (R1, R4, log 1), when a stream may
issue (R174, R313, R316, R330, R331), and the fetch of its next instruction (R56 step 1, R57). -/

namespace Sys2Proof.Machine

/-! ## Time -/

/-- A compute domain counts its cycles: 0.165 * (5 + point) cycles in a tick, so 33 * (5 + point) parts of 3,200 in a sixteenth
of one (R4, R392). -/
def Dom.advance (dt : Nat) (d : Dom) : Dom :=
  let n := d.frac + dt * (33 * (5 + d.cur))
  { d with cycles := d.cycles + n / 3200, frac := n % 3200 }

/-- The convergence watchdog counts: not in a handler, descheduled or on the way there, waiting for a shadow set, nor asleep in
MWAIT with the L-stream idle (R134, R212, R313). Log 14. -/
def Group.watched (g : Group) : Bool :=
  g.status == .run && g.handler.isNone && (match g.wait with | .mwait .. => g.running | _ => true)

/-- Cycles pass for a group that holds its slot (R23, R134). A team that a thermal move has begun to drain does not count
for the watchdog (R405). Log 14. -/
def Group.tick (moving : Bool) (n : Nat) (g : Group) : Group :=
  if g.status == .exited then g
  else { g with cycle := g.cycle + n, wdog := if g.watched && !moving then g.wdog + n else g.wdog }

/-- The trace fabric discards records of protected worlds while there are any; how many is free (R375, R419). Log 119. -/
def State.dropTrace (s : State) : State :=
  if s.worlds.isEmpty then s
  else { s.bump with
    dev := { s.dev with trdrop := Nat.min (2 ^ 32 - 1) (s.dev.trdrop + (Config.freeWord s.fresh).toNat) } }

/-- Sixteenths of a tick pass (R4): TIME counts whole ticks. Log 1. -/
def State.elapse (s : State) (dt : Nat) : State :=
  if dt == 0 then s
  else
    let doms := Vector.ofFn fun i : Fin 24 => if i.val < 4 then s.doms[i].advance dt else s.doms[i]
    let gone := fun g : Group =>
      (look doms (quadOf (s.coreOf g)) (Dom.reset true)).cycles - s.cyclesOf (s.coreOf g)
    let upd := fun g : Group => g.tick (s.teamOf g).moving (gone g)
    { s with time := s.time + (s.sub + dt) / 16, sub := (s.sub + dt) % 16, doms := doms, cur := upd s.cur, others := s.others.map upd }

/-- Time passes before a turn, and what waits at the launch stores goes on as the time and the trail let it (R384, R385, R387).
Log 119. -/
def State.advance (s : State) (dt : Nat) : State :=
  let s := { s.dropTrace.elapse dt with held := false }
  let t := s.serveWaiters
  if t.held then s else t

/-- What an act leaves behind: where an access of it arrived while a level changes, the act waits and issues again at a later turn
(R393). -/
def State.orWait (s : State) : Out → Out
  | .next t => .next (if t.held then s else t)
  | .fault f => .fault f
  | .refused r => .refused r

/-- The next turn: the head of the agenda, or a free value when the agenda names nobody (log 1). -/
def State.nextTurn (s : State) : Turn × State :=
  match s.agenda with
  | t :: ts => (t, { s with agenda := ts })
  | [] => (Config.freeTurn s.fresh, s.bump)

/-! ## When a stream may issue -/

/-- No stop, halt, ask, move or sleep keeps the group from issuing (R169, R312, R316, R317, R330, R331, R346, R376). -/
def State.issues (s : State) (g : Group) : Bool :=
  s.dev.biv != .asleep && g.status == .run && !g.parked && !g.halted && !((s.teamOf g).moving && g.handler.isNone) && (g.handler.isSome || g.stops.isEmpty) &&
    !((s.core (s.coreOf g)).compact.any fun c => c.owners.contains g.uid && decide (s.cyclesOf (s.coreOf g) < c.due))

/-- The S-stream may fetch its next instruction: it waits in nothing (R151, R161, R210, R212). -/
def State.issuesS (s : State) (g : Group) : Bool := s.issues g && g.wait == .none

/-- A path slot may fetch its next instruction. The replay of an instruction comes before the other slot goes on (R319). -/
def State.issuesL (s : State) (g : Group) (ps1 : Bool) : Bool :=
  s.issues g && g.running && (g.path ps1).isSome && (match g.replay with | some r => r.ps1 == ps1 | none => true)

/-! ## Fetch (R56 step 1, R57) -/

/-- Bytes at p with those that a store at q replaced put back. -/
def putBack (p : Nat) (bs : List Byte) (q : Nat) (old : List Byte) : List Byte :=
  bs.zipIdx.map fun x => if q ≤ p + x.2 then old.getD (p + x.2 - q) x.1 else x.1

/-- What a range of memory held before each store to it since some point, latest first: every store is taken back whole. -/
def versions (p : Nat) : List (Nat × Nat × List Byte) → List Byte → List (List Byte)
  | [], _ => []
  | (_, q, old) :: xs, bs =>
    if q < p + bs.length && p < q + old.length then putBack p bs q old :: versions p xs (putBack p bs q old)
    else versions p xs bs

/-- A fetch by a grid may return the word as it is, as a store since the grid's launch left it, or as it was at the launch (R57).
Machine firmware's group is no grid (log 7). Log 21. -/
def State.codeBytes (s : State) (pa : Nat) (now : List Byte) : List Byte × State :=
  let gr := (s.gridOf s.cur).id
  match versions (s.place pa) (s.olds.filter fun x => gr != 0 && decide (gr < x.1)) now with
  | [] => (now, s)
  | vs => ((now :: vs).getD ((Config.freeWord s.fresh).toNat % (vs.length + 1)) now, s.bump)

/-- One code word, fetched as data of the context. Log 21. -/
def State.fetchWord (s : State) (va : Word) : (FetchFault ⊕ Word32) × State :=
  let c := s.ctxOf s.cur
  let t := s.translate (s.coreOf s.cur) c s.cur.level .fetch va
  match t.res with
  | .inl f => (.inl ⟨f.code, f.cause, f.addr, f.pa⟩, t.st)
  | .inr pa =>
    match t.st.readErr s.myPort c.world pa with
    | some (code, cause) => (.inl ⟨code, cause, va, BitVec.ofNat 64 pa⟩, t.st)
    | none =>
      let x := t.st.codeBytes pa (t.st.memRead pa 4)
      (.inr (wordOfBytes x.1), x.2)

/-- The fetch of n bytes meets a level change of a memory domain, in its walk or at its line: it waits (R393). Log 65. -/
def State.fetchHeld (s : State) (va : Word) (n : Nat) : Bool :=
  (List.range 20).any (fun d => s.changes (4 + d)) &&
    [va, va + BitVec.ofNat 64 (n - 4)].any fun va =>
      let c := s.ctxOf s.cur
      s.walkHeld (s.coreOf s.cur) c va ||
        (match (s.translate (s.coreOf s.cur) c s.cur.level .fetch va).res with
         | .inl _ => false
         | .inr pa => s.levelHeld pa)
/-- The instruction a decoded word stands for, or the step that raises its ILLEGAL. -/
def instrOr (l : Bool) : Decoded → Instr
  | .instr i => i
  | .reject _ => .illegalEncoding l

/-- Fetch and decode the next instruction of the S-stream. Log 21. -/
def State.fetchS (s : State) : Instr × State :=
  match s.fetchWord s.cur.s.pc with
  | (.inl f, s) => (.instructionFetchFault false f, s)
  | (.inr w0, s) =>
    if sWords w0 == 2 then
      match s.fetchWord (s.cur.s.pc + 4) with
      | (.inl f, s) => (.instructionFetchFault false f, s)
      | (.inr w1, s) => (instrOr false (decodeS w0 w1), s)
    else (instrOr false (decodeS w0 0), s)

/-- The base that L-PCs of the running block count from: LBASE, or HLBASE in a handler (R7, R314). -/
def State.lbase (s : State) (g : Group) : Word :=
  if g.hbase then canonical (s.ctxOf g).hlbase else (s.gridOf g).launch.lbase

/-- Byte address of a word offset of L-code. -/
def State.laddr (s : State) (off : Nat) : Word := s.lbase s.cur + BitVec.ofNat 64 (4 * off)

/-- Fetch and decode the next instruction of the path that has its turn. Log 21. -/
def State.fetchL (s : State) (pc : Nat) : Instr × State :=
  match s.fetchWord (s.laddr pc) with
  | (.inl f, s) => (.instructionFetchFault true f, s)
  | (.inr w0, s) =>
    match s.fetchWord (s.laddr (pc + 1)) with
    | (.inl f, s) => (.instructionFetchFault true f, s)
    | (.inr w1, s) =>
      match s.fetchWord (s.laddr (pc + 2)) with
      | (.inl f, s) => (.instructionFetchFault true f, s)
      | (.inr w2, s) => (instrOr true (decodeL w0 w1 w2), s)

/-- What an agent does in its turn: the instruction or event, if any, and the state it acts on. -/
def State.found (s : State) : Act → Option Instr × State
  | .event i => (some i, s)
  | .issueS uid =>
    let s := s.focus uid
    if s.cur.uid == uid && s.issuesS s.cur && !s.fetchHeld s.cur.s.pc 8 then
      let f := s.fetchS
      (some f.1, f.2)
    else (none, s)
  | .issueL uid ps1 =>
    let s := { s.focus uid with ps1 := ps1 }
    match s.cur.path ps1 with
    | none => (none, s)
    | some p =>
      if s.cur.uid == uid && s.issuesL s.cur ps1 && !s.fetchHeld (s.laddr p.pc) 12 then
        let f := s.fetchL p.pc
        (some f.1, f.2)
      else (none, s)

/-! ## Placing an instruction where it is fetched -/

/-- A code page at a virtual address, held in the issuing group's core TLB at a physical page. -/
def State.mapCode (s : State) (va : Word) (pa : Nat) : State :=
  let e : TlbEntry := ⟨(s.ctxOf s.cur).id, va.toNat % 2 ^ 57 / 4096 * 4096, 4096, pa, true, true, 0, true, []⟩
  s.mapCore (s.coreOf s.cur) fun c => { c with tlb := keepEntry 256 e c.tlb }

/-- Code bytes at a virtual address, four at a time, in the two pages that may hold them. -/
def State.placeCode (s : State) (va : Word) (n w : Nat) : State :=
  let s := s.mapCode va 0
  let s := s.mapCode (va + 12) (if (va + 12).toNat / 4096 == va.toNat / 4096 then 0 else 4096)
  (List.range n).foldl (fun s i =>
    let a := va + BitVec.ofNat 64 i
    let pa := a.toNat % 4096 + (if a.toNat / 4096 == va.toNat / 4096 then 0 else 4096)
    s.memWrite (s.ctxOf s.cur).world pa [BitVec.ofNat 8 (w >>> (8 * i))]) s

/-- Ready to issue at once: no stop, wait or agenda stands before the group's next instruction. -/
def State.readyCur (s : State) (a : Act) : State :=
  { s with agenda := [⟨a, 0⟩] }.mapCur fun g =>
    { g with status := .run, wait := .none, stops := [], parked := false, halted := false }

/-- The state in which the next step fetches and runs the instruction of the given bits. Log 1. -/
def State.withWord (s : State) (nbits w : Nat) : State :=
  if 64 < nbits then
    let s := (s.readyCur (.issueL s.cur.uid false)).mapCur fun g =>
      { g with running := true, l := { g.l with ps0 := some ⟨0, BitVec.allOnes 128⟩ } }
    s.placeCode (s.laddr 0) 12 w
  else
    (s.readyCur (.issueS s.cur.uid)).placeCode s.cur.s.pc 8 w

end Sys2Proof.Machine
end

