-- ==== Sys2Proof/Machine/Trans.lean ====
section
/-! DEFINITION. The transcendental functions of R102: each result is the exact value rounded once. The value is computed as
an integer times 2^-320, far finer than any distance between an exact value that is not representable and the point midway
between two representable ones, with a sticky bit below it (log 15). -/

namespace Sys2Proof

open Machine

/-- Fraction bits of the fixed-point values. -/
def tb : Nat := 320

def tone : Nat := 2 ^ tb

/-- The sum of t/1 + t r/3 + t r^2/5 + ... at fixed point, for r = p / q. -/
def oddSeries (p q : Nat) : (fuel k t : Nat) → Nat
  | 0, _, _ => 0
  | n + 1, k, t => if t == 0 then 0 else t / k + oddSeries p q n (k + 2) (t * p / q)

/-- The same with alternating signs. -/
def altSeries (q : Nat) : (fuel k t : Nat) → Int
  | 0, _, _ => 0
  | n + 1, k, t => if t == 0 then 0 else (t / k : Nat) - altSeries q n (k + 2) (t / q)

/-- ln 2 = 2 (1/3 + 1/(3*3^3) + ...). -/
def ln2Fix : Nat := 2 * oddSeries 1 9 120 1 (tone / 3)

/-- pi by Machin's formula. -/
def piFix : Nat :=
  (16 * altSeries 25 80 1 (tone / 5) - 4 * altSeries 57121 30 1 (tone / 239)).toNat

/-- The sum of t + t x/k + t x^2/(k(k+1)) + ... at fixed point. -/
def expSeries (x : Nat) : (fuel k t : Nat) → Nat
  | 0, _, _ => 0
  | n + 1, k, t => if t == 0 then 0 else t + expSeries x n (k + 1) (t * x / tone / k)

/-- t - t x2/(k(k+1)) + ... at fixed point. -/
def sinSeries (x2 : Nat) : (fuel k t : Nat) → Int
  | 0, _, _ => 0
  | n + 1, k, t => if t == 0 then 0 else (t : Int) - sinSeries x2 n (k + 2) (t * x2 / tone / (k * (k + 1)))

/-- m * 2^e at fixed point, for a value below 2^32 with e ≥ -320. -/
def fixOf (m : Nat) (e : Int) : Nat := if 0 ≤ e + tb then m * 2 ^ (e + tb).toNat else m / 2 ^ (-(e + tb)).toNat

/-- A fixed-point magnitude of an irrational value, with the sticky bit below it. -/
def stickyFix (neg : Bool) (x : Nat) (e : Int) : Val := .fin neg (2 * x + 1) (e - tb - 1)

/-- The power of two that m * 2^e is, if it is one. -/
def twoPower (m : Nat) (e : Int) : Option Int := if m == 2 ^ Nat.log2 m then some (Nat.log2 m + e) else none

/-- 1/√c (R102). Log 15. -/
def Val.rsqrt : Val → Val × Byte
  | .nan s => (.nan s, 0)
  | .inf n => if n then (.nan false, flagNV) else (.fin false 0 0, 0)
  | .fin n m e =>
    if m == 0 then (.inf n, flagDZ)
    else if n then (.nan false, flagNV)
    else
      let m := if e % 2 == 0 then m else 2 * m
      let e := if e % 2 == 0 then e else e - 1
      let a := 2 ^ 256 / m
      let q := isqrt a
      (.fin false (2 * q + (if q * q * m == 2 ^ 256 then 0 else 1)) (-(e / 2) - 129), 0)

/-- 2^c (R102). Beyond an exponent of 1024 the result overflows or underflows in every format. Log 15. -/
def Val.exp2 : Val → Val × Byte
  | .nan s => (.nan s, 0)
  | .inf n => (if n then .fin false 0 0 else .inf false, 0)
  | .fin n m e =>
    if m == 0 then (.fin false 1 0, 0)
    else if 1024 ≤ m * 2 ^ e.toNat / 2 ^ (-e).toNat then (.fin false 1 (if n then -2048 else 2048), 0)
    else
      let x := fixOf m e
      let f := x % tone
      let i : Int := x / tone
      if f == 0 then (.fin false 1 (if n then -i else i), 0)
      else
        let f' := if n then tone - f else f
        let i' := if n then -i - 1 else i
        (stickyFix false (expSeries (f' * ln2Fix / tone) 120 1 tone) i', 0)

/-- log2 c (R102). Log 15. -/
def Val.log2 : Val → Val × Byte
  | .nan s => (.nan s, 0)
  | .inf n => if n then (.nan false, flagNV) else (.inf false, 0)
  | .fin n m e =>
    if m == 0 then (.inf true, flagDZ)
    else if n then (.nan false, flagNV)
    else match twoPower m e with
      | some k => (.fin (decide (k < 0)) k.natAbs 0, 0)
      | none =>
        let p := 2 ^ Nat.log2 m
        let k : Int := Nat.log2 m + e
        let num := m - p
        let den := m + p
        let l := 2 * oddSeries (num * num) (den * den) 220 1 (tone * num / den) * tone / ln2Fix
        let t := k * tone + l
        (stickyFix (decide (t < 0)) t.natAbs 0, 0)

/-- sin(pi r) for a fixed-point r in the open interval from 0 to 1/2. -/
def sinQuarter (r : Nat) : Nat :=
  let y := r * piFix / tone
  (sinSeries (y * y / tone) 90 2 y).toNat

/-- sin(pi r) for a fixed-point r from 0 to below 2. -/
def sinTurn (r : Nat) (zeroNeg neg : Bool) : Val :=
  let down := tone ≤ r
  let q := if down then r - tone else r
  let q := if tone < 2 * q then tone - q else q
  if q == 0 then .fin zeroNeg 0 0
  else if 2 * q == tone then .fin (down != neg) 1 0
  else stickyFix (down != neg) (sinQuarter q) 0

/-- A finite magnitude reduced modulo 2, at fixed point. -/
def modTwo (m : Nat) (e : Int) : Nat := if 1 ≤ e then 0 else fixOf m e % (2 * tone)

/-- sin(pi c) (R102): zero takes the sign of c. Log 15. -/
def Val.sinpi : Val → Val × Byte
  | .nan s => (.nan s, 0)
  | .inf _ => (.nan false, flagNV)
  | .fin n m e => if m == 0 then (.fin n 0 0, 0) else (sinTurn (modTwo m e) n n, 0)

/-- cos(pi c) (R102): sin(pi (c + 1/2)), and +0 at odd halves. Log 15. -/
def Val.cospi : Val → Val × Byte
  | .nan s => (.nan s, 0)
  | .inf _ => (.nan false, flagNV)
  | .fin _ m e => if m == 0 then (.fin false 1 0, 0) else (sinTurn ((modTwo m e + tone / 2) % (2 * tone)) false false, 0)

end Sys2Proof
end

