-- ==== Sys2Proof/Machine/LFloat.lean ====
section
/-! DEFINITION. Floating-point lane instructions (R100 to R103). -/

namespace Sys2Proof.Machine

/-- Round an exact value and add the flags of the operation (R35, R100). -/
def finish (o : LOp) (mode : Rnd) (sat : Bool) (r : Val × Byte) : Nat × Byte :=
  let x := o.ty.ffmt.round mode sat r.1
  (x.1, x.2 ||| r.2)

/-- A floating-point operation with a rounding field and .sat (R100). -/
def State.lfp (s : State) (o : LOp) (k : Srcs) (f : Val → Val → Val → Val × Byte) : State :=
  s.lelem o k fun a b c => finish o (rounding o) (modBit o 0) (f (o.ty.val a) (o.ty.val b) (o.ty.val c))

def execVfadd (o : LOp) (s : State) : Out := .next (s.lfp o .ac fun a _ c => a.add (rounding o) c)
def execVfsub (o : LOp) (s : State) : Out := .next (s.lfp o .ac fun a _ c => a.add (rounding o) c.neg)
def execVfmul (o : LOp) (s : State) : Out := .next (s.lfp o .ac fun a _ c => a.mul c)
def execVfma (o : LOp) (s : State) : Out := .next (s.lfp o .abc fun a b c => Val.fma (rounding o) a b c false)
def execVfms (o : LOp) (s : State) : Out := .next (s.lfp o .abc fun a b c => Val.fma (rounding o) a b c.neg false)
def execVfnma (o : LOp) (s : State) : Out := .next (s.lfp o .abc fun a b c => Val.fma (rounding o) a b c true)
def execVfdiv (o : LOp) (s : State) : Out := .next (s.lfp o .ac fun a _ c => a.div c)
def execVfsqrt (o : LOp) (s : State) : Out := .next (s.lfp o .c fun _ _ c => c.sqrt)

/-- The transcendentals round with RNE (R102); their rounding field is 0 (R94). -/
def execVfrsq (o : LOp) (s : State) : Out := .next (s.lfp o .c fun _ _ c => c.rsqrt)
def execVfex2 (o : LOp) (s : State) : Out := .next (s.lfp o .c fun _ _ c => c.exp2)
def execVflg2 (o : LOp) (s : State) : Out := .next (s.lfp o .c fun _ _ c => c.log2)
def execVfsinp (o : LOp) (s : State) : Out := .next (s.lfp o .c fun _ _ c => c.sinpi)
def execVfcosp (o : LOp) (s : State) : Out := .next (s.lfp o .c fun _ _ c => c.cospi)

/-- The smaller or larger of two elements, bit for bit; a NaN gives the canonical NaN (R101). -/
def fminmax (f : FFmt) (larger : Bool) (a c : Nat) : Nat × Byte :=
  let x := f.decode a
  let y := f.decode c
  if x.isNan || y.isNan then (f.nanBits, flagIf (x.isSig || y.isSig) flagNV)
  else if (decide (f.orderKey a ≤ f.orderKey c)) != larger then (a, 0) else (c, 0)

def execVfmin (o : LOp) (s : State) : Out := .next (s.lelem o .ac fun a _ c => fminmax o.ty.ffmt false a c)
def execVfmax (o : LOp) (s : State) : Out := .next (s.lelem o .ac fun a _ c => fminmax o.ty.ffmt true a c)

/-- A change of the sign bit alone; a NaN gives the canonical NaN (R101). -/
def fsign (f : FFmt) (g : Nat → Nat) (c : Nat) : Nat × Byte :=
  match f.decode c with
  | .nan sig => (f.nanBits, flagIf sig flagNV)
  | _ => (g c, 0)

def execVfabs (o : LOp) (s : State) : Out :=
  .next (s.lelem o .c fun _ _ c => fsign o.ty.ffmt o.ty.ffmt.mag c)
def execVfneg (o : LOp) (s : State) : Out :=
  .next (s.lelem o .c fun _ _ c => fsign o.ty.ffmt (fun x => x ^^^ 2 ^ (o.ty.ffmt.width - 1)) c)

/-- VFRND: an integral value with the sign of c; NX is never set (R101). -/
def roundIntegral (f : FFmt) (mode : Rnd) (c : Nat) : Nat × Byte :=
  match f.decode c with
  | .fin n m e =>
    let r := f.round mode false (.fin n (roundInt mode n m e).1 0)
    (r.1, 0)
  | v => f.round mode false v

def execVfrnd (o : LOp) (s : State) : Out :=
  .next (s.lelem o .c fun _ _ c => roundIntegral o.ty.ffmt (rounding o) c)

/-- The class bit of an element (R103). -/
def classBit (f : FFmt) (c : Nat) : Nat :=
  match f.decode c with
  | .nan sig => if sig then 8 else 9
  | .inf n => if n then 0 else 7
  | .fin n m _ =>
    if m == 0 then (if n then 3 else 4)
    else if m < 2 ^ f.fbits then (if n then 2 else 5)
    else if n then 1 else 6

def execVfclass (o : LOp) (s : State) : Out :=
  .next (s.lelem o .c fun _ _ c => (2 ^ classBit o.ty.ffmt c, 0))

/-- VFSCALE: a * 2^n with n the element of c as a signed integer of its width (R103). -/
def execVfscale (o : LOp) (s : State) : Out :=
  .next (s.lelem o .ac fun a _ c =>
    finish o (rounding o) (modBit o 0) ((o.ty.val a).scale (intOf true o.ty.width c), 0))

end Sys2Proof.Machine
end

