-- ==== Sys2Proof/Machine/Mem.lean ====
section
/-! DEFINITION. What the memory instructions share: the checks of global and local addresses (R181, R193), scratchpad
supply (R183, R184), accesses in flight with their counters (R194, R196), and the atomic operations (R201, R205). -/

namespace Sys2Proof.Machine

/-! ## Checks of a global address (R193) -/

/-- A range lock of the context covers a byte of a global access (R193 step 3, R235). -/
def State.globalLocked (s : State) (ctx : Nat) (va : Word) (n : Nat) : Bool :=
  let a := va.toNat % 2 ^ 57
  s.locks.any fun l => l.ctx == ctx && l.space == Space.global && decide (a < l.hi) && decide (l.lo < a + n)

/-- What a check answers while a table word that it must read lies where a level changes: code 0, which is no fault. The
instruction stalls (R393). Log 65. -/
def stall (va : Word) : MemFault := mf 0 0 va

/-- Steps 1 to 3 of R193 for the issuing group, on n bytes whose address must be a multiple of `align`. -/
def State.checkRange (s : State) (kind : AccessKind) (va : Word) (align n : Nat) : Translated :=
  if va.toNat % align != 0 then ⟨.inl (mf 0x07 0 va), s⟩
  else if (canonErr s.cur.level va).isNone && s.walkHeld (s.coreOf s.cur) (s.ctxOf s.cur) va then ⟨.inl (stall va), s⟩
  else
    let t := s.translate (s.coreOf s.cur) (s.ctxOf s.cur) s.cur.level kind va
    match t.res with
    | .inl _ => t
    | .inr _ => if t.st.globalLocked (s.ctxOf s.cur).id va n then ⟨.inl (mf 0x08 0 va), t.st⟩ else t

def State.checkGlobal (s : State) (kind : AccessKind) (va : Word) (n : Nat) : Translated := s.checkRange kind va n n

/-! ## Local addresses (R178 to R181) -/

/-- The address takes the peer path. -/
def isPeer (va : Word) : Bool := va.getLsbD 21

/-- Window offset of a local address. -/
def offsetIn (va : Word) : Nat := va.toNat % 2 ^ 19

/-- Rank of the window's team in the gang. -/
def grankOf (va : Word) : Nat := (va.toNat >>> 19) % 4

/-- Step 1 of R181 fails. -/
def State.localBad (s : State) (g : Group) (va : Word) : Bool :=
  va.extractLsb' 22 42 != 0 || (if isPeer va then decide ((s.gangOf g).nteams ≤ grankOf va) else grankOf va != 0)

/-- The team whose window an address that passed step 1 names; none once it is freed. -/
def State.targetTeam (s : State) (g : Group) (va : Word) : Option Team :=
  if isPeer va then s.teams.find? fun t => t.gang == (s.teamOf g).gang && t.tid == grankOf va else s.team? g.team

/-- Steps 1 and 2 of R181. -/
def State.localIssueErr (s : State) (g : Group) (va : Word) (n : Nat) : Option MemFault :=
  if s.localBad g va then some (mf 0x06 8 va) else if va.toNat % n != 0 then some (mf 0x07 0 va) else none

/-- Steps 3 and 4 of R181: the target window, or the fault. A freed window carries ticket 0 (R180). -/
def State.localTarget (s : State) (g : Group) (va : Word) (n : Nat) : MemFault ⊕ Team :=
  match s.targetTeam g va with
  | none => .inl (mf 0x09 0 va)
  | some t => if t.spbytes < offsetIn va + n then .inl (mf 0x06 8 va) else .inr t

/-- A range lock of the context covers a byte of a window (R193). -/
def State.windowLocked (s : State) (ctx : Nat) (t : Team) (off n : Nat) : Bool :=
  t.units != 0 && s.locks.any fun l =>
    l.ctx == ctx && l.space == Space.window t.core t.base && decide (off < l.hi) && decide (l.lo < off + n)

/-- A RANGELOCK of a local access that the issuing core finds (R193). Log 34. -/
def State.localLockErr (s : State) (g : Group) (va : Word) (n : Nat) : Option MemFault :=
  match s.targetTeam g va with
  | none => none
  | some t => if s.windowLocked (s.gridOf g).ctx t (offsetIn va) n then some (mf 0x08 0 va) else none

/-! ## Scratchpad supply (R183, R184) -/

/-- Byte of a core's scratchpad that a window offset names (R179). -/
def spByte (t : Team) (off : Nat) : Nat := t.base * 8192 + off

/-- What an access of n bytes, aligned to n, meets in its bank (R181 step 5). -/
inductive BankAns
  | go
  | wake
  | fault (f : MemFault)
  deriving DecidableEq, Repr

/-- A POISON that a scratchpad access meets has no physical address to report; the record's pa is 0. Log 127. -/
def CoreState.bankAns (c : CoreState) (byte n : Nat) (kind : AccessKind) (va : Word) : BankAns :=
  match look c.banks (byte / 8192) .off with
  | .ret | .waking _ _ => .wake
  | .off => if kind == .write then .wake else .fault (mf 0x03 0 va)
  | .full => if c.poison.contains (byte / 8) && (kind != .write || n < 8) then .fault (mf 0x0A 10 va) else .go

/-- Begin the wake or power-up of a bank, unless it is FULL or already waking: 40 cycles (R183). -/
def State.wakeBank (s : State) (core bank : Nat) : State :=
  let due := s.cyclesOf core + 40
  s.mapCore core fun c =>
    match look c.banks bank .off with
    | .full | .waking _ _ => c
    | x => { c with banks := put c.banks bank (.waking due (x == .ret)) }

/-- Scratchpad bytes of a core. -/
def State.spRead (s : State) (core byte n : Nat) : List Byte := s.sp.read (core * 2 ^ 19 + byte) n

/-- Write scratchpad bytes of a core; a word written whole loses its poison mark (R184). -/
def State.spWrite (s : State) (core byte : Nat) (bs : List Byte) : State :=
  let s := { s with sp := s.sp.write (core * 2 ^ 19 + byte) bs }
  if bs.length == 8 then s.mapCore core fun c => { c with poison := c.poison.filter fun w => w != byte / 8 } else s

/-! ## Violations of the issuing group (R182, R243) -/

/-- Physical core of the target of a local address; 0xFF where there is none. Log 35. -/
def State.pcoreOf (s : State) (g : Group) (va : Word) : Nat :=
  if s.localBad g va then 0xFF else match s.targetTeam g va with | some t => t.core | none => 0xFF

/-- Log a fault of the issuing group where R243 says so. -/
def State.logFault (s : State) (f : MemFault) (wr loc : Bool) : State :=
  if f.logged then s.logCur f.addr (if loc then s.pcoreOf s.cur f.addr else 0xFF) wr (loc && isPeer f.addr) loc f.code else s

def State.logLanes (s : State) (fs : List LaneFault) (wr loc : Bool) : State :=
  fs.foldl (fun s f => s.logFault f.mf wr loc) s

/-- A scalar memory access faults at issue. Behind an access that awaits a value it waits (R194); a stall waits too. -/
def State.sMemFault (s : State) (f : MemFault) (rflags : Byte) (wr loc : Bool) : State :=
  if s.cur.sWaits || f.code == 0 then s
  else if memoryCode f.code then (s.logFault f wr loc).raiseMem f rflags
  else s.raise f.code

/-- A scalar access to memory faults after its translation, whose effects on the tables and the TLBs stand unless it waits (R193,
R237). -/
def State.sGlobalFault (s t : State) (f : MemFault) (rflags : Byte) (wr : Bool) : State :=
  if s.cur.sWaits || f.code == 0 then s else t.sMemFault f rflags wr false

/-! ## Orders (R191) -/

def Order.acquires : Order → Bool
  | .acq | .acqrel => true
  | _ => false

def Order.releases : Order → Bool
  | .rel | .acqrel => true
  | _ => false

/-- An access or a fence of a stream, and of a path in the L-stream, acts on what a stream does by some lanes (R191, R208,
R211). -/
def sameStream (l : Bool) (m : Mask) (l' : Bool) (path : Mask) : Bool := l' == l && (!l || path &&& m != 0)

/-- An access in flight comes before what a stream does next by some lanes: in its stream by po and rcv, and by the joints, which
order the S-stream and a block, and through the S-stream a block and an earlier one (R14, R221 to R223, R230). Log 30. -/
def Group.before (g : Group) (l : Bool) (m : Mask) (a : Access) : Bool :=
  sameStream l m a.l a.path ||
    decide (a.seq < (if l then (if a.l then g.bAfter else g.lAfter) else if a.l then g.sAfter else 0))

/-- An acquiring access of the stream, or of the path, is outstanding: its later accesses hold (R191). Log 31. -/
def Group.acquiring (g : Group) (l : Bool) (m : Mask) : Bool :=
  g.accs.any fun a => sameStream l m a.l a.path && a.valued && Order.acquires a.ord

/-- A store of another group that a round put before what the group does from the number `seq` on is still to be performed in a
request that satisfies a test (R152). -/
def State.othersOut (s : State) (g : Group) (seq : Nat) (p : Group → Access → Req → Bool) : Bool :=
  g.seen.any fun x => decide (x.since ≤ seq) && (s.group? x.uid).any fun h =>
    h.accs.any fun b => !b.valued && decide (b.seq < x.bound) && b.reqs.any fun q => !q.known && p h b q

/-- Any such store. -/
def State.anyOut (s : State) (seq : Nat) : Bool := s.othersOut s.cur seq fun _ _ _ => true

/-- A store that comes before what a stream of the issuing group does next by some lanes is still to be performed: its own, or one
that a round put there. Log 30. -/
def State.storesBefore (s : State) (l : Bool) (m : Mask) : Bool :=
  (s.cur.accs.any fun a => s.cur.before l m a && !a.valued && !a.allKnown) || s.anyOut s.cur.seq

/-- The accesses in flight that must be performed before a new access of a stream by some lanes: for a release, those that come
before it; for a store or an atomic, those of its fences (R191, R208, R228). GRP scope is served by R15. Log 30. -/
def Group.needsOf (g : Group) (l : Bool) (m : Mask) (writes : Bool) (o : Order) (sc : Scope) : List Nat :=
  (if Order.releases o && sc != .grp then (g.accs.filter (g.before l m)).map Access.seq else []) ++
    (if writes then (g.fences.filter fun f => sameStream l m f.l f.mask).flatMap FenceMark.seqs else [])

/-- One of some accesses is still to be performed. -/
def Group.pending (g : Group) (ns : List Nat) : Bool := g.accs.any fun a => ns.contains a.seq && !a.allKnown

/-- What rounds put before a new access of a stream by some lanes must be performed before it: it is a release, or a fence binds it
(R152, R191, R208, R228). -/
def Group.cumulOf (g : Group) (l : Bool) (m : Mask) (writes : Bool) (o : Order) (sc : Scope) : Bool :=
  (Order.releases o && sc != .grp) || (writes && g.fences.any fun f => sameStream l m f.l f.mask)

/-- A write that is performed at its issue waits for what its order and its fences put before it. -/
def State.releaseHeld (s : State) (l : Bool) (m : Mask) (o : Order) (sc : Scope) : Bool :=
  s.cur.pending (s.cur.needsOf l m true o sc) || (s.cur.cumulOf l m true o sc && s.anyOut s.cur.seq)

/-- An access in flight waits for what its order and the fences put before it. -/
def State.needsOut (s : State) (a : Access) : Bool := s.cur.pending a.needs || (a.cumul && s.anyOut a.seq)

/-- The lanes of a path have done something that later events follow: what came before that comes before those too (R221, R223,
R230). -/
def Group.grow (g : Group) (m : Mask) : Group :=
  { g with
    accs := g.accs.map fun a => if a.l && g.before true m a then { a with path := a.path ||| m } else a
    fences := g.fences.map fun f => if f.l && f.mask &&& m != 0 then { f with mask := f.mask ||| m } else f }

/-- A REL or ACQREL fence binds the later stores and atomics of its stream, or of its path (R208). -/
def Group.fence (g : Group) (l : Bool) (m : Mask) : Group :=
  { g with fences := ⟨l, m, (g.accs.filter (g.before l m)).map Access.seq⟩ ::
      g.fences.filter fun f => g.pending f.seqs }

/-! ## Accesses in flight -/

/-- A counter at 255 stalls further issue in its class (R196). -/
def Group.full (g : Group) (c : Counter) : Bool := 255 ≤ g.count c

/-- The access writes memory. -/
def AccKind.writes : AccKind → Bool
  | .store _ | .satom .. | .vatom .. | .queue _ => true
  | _ => false

/-- The kind awaits a value. -/
def AccKind.valued : AccKind → Bool
  | .store _ | .drain _ _ true => false
  | _ => true

/-- An access of the issuing group as it leaves the core: the state an exact fault would restore is that of its issue. -/
def State.newAccess (s : State) (l : Bool) (kind : AccKind) (dest : BitVec 8) (ord : Order) (sc : Scope) (peer : Bool)
    (reqs : List Req) : Access where
  seq := s.cur.seq
  l := l
  ps1 := l && s.ps1
  pc := if l then s.lpc else s.cur.s.pc
  kind := kind
  dest := dest
  ord := ord
  scope := sc
  peer := peer
  reqs := reqs
  fails := []
  sel := 0
  popped := none
  done := 0
  handler := s.cur.handler.isSome
  snap := if kind.valued then (if l then .l s.cur.l else .s s.cur.s) else .none
  path := if l then s.lmask else 0
  prior := []
  needs := []
  cumul := false

/-- An access is issued: it takes its number, what comes before it, and raises its counters (R196). -/
def Group.push (g : Group) (a : Access) (cs : List Counter) : Group :=
  let g1 := if a.l then g.grow a.path else g
  let x := { a with
    seq := g.seq
    prior := (g.accs.filter (g.before a.l a.path)).map Access.seq
    needs := g.needsOf a.l a.path a.kind.writes a.ord a.scope
    cumul := g.cumulOf a.l a.path a.kind.writes a.ord a.scope }
  { g1 with accs := g1.accs ++ [x], seq := g.seq + 1, tokens := g.tokens ++ cs.map fun c => ⟨c, g.seq, false⟩ }

/-- The access of a number. -/
def Group.acc? (g : Group) (seq : Nat) : Option Access := g.accs.find? fun a => a.seq == seq

def Group.setAcc (g : Group) (a : Access) : Group := { g with accs := mapIf g.accs (fun x => x.seq == a.seq) fun _ => a }

/-- An access is complete: it leaves, and its counts fall in order (R197). -/
def Group.endAcc (g : Group) (seq : Nat) : Group :=
  (({ g with accs := g.accs.filter fun a => a.seq != seq }).complete false seq).settleFlags

/-- One lane's access of n bytes. -/
def reqOf (lane : Nat) (va : Word) (pa size : Nat) (data cmp : Word) : Req := ⟨lane, va, pa, size, data, cmp, none, none⟩

/-- Two byte ranges meet. -/
def meets (a n b m : Nat) : Bool := decide (a < b + m) && decide (b < a + n)

/-- The window and offset of a scratchpad request. -/
def State.spanOf (s : State) (g : Group) (r : Req) : Option (Nat × Nat) :=
  (s.targetTeam g r.va).map fun t => (t.id, offsetIn r.va)

/-- A scratchpad request in flight covers a byte of a range of a window. -/
def State.spMeets (s : State) (g : Group) (r : Req) (team off n : Nat) : Bool :=
  match s.spanOf g r with
  | some (t, o) => t == team && meets o r.size off n
  | none => false

/-- A window access of a stream by some lanes waits for the peer writes to the same bytes that come before it, the group's own and
those that a round put there (R15, R152). -/
def State.peerPending (s : State) (l : Bool) (m : Mask) (team off n : Nat) : Bool :=
  (s.cur.accs.any fun a =>
    a.peer && a.kind.writes && s.cur.before l m a && a.reqs.any fun r => !r.known && s.spMeets s.cur r team off n) ||
    s.othersOut s.cur s.cur.seq fun h b q => b.peer && s.spMeets h q team off n

/-! ## Atomic operations -/

/-- The value a scalar atomic writes, if any, on n bytes (R201). -/
def atomNew (op : AtomOp) (n : Nat) (old b cmp : Word) : Option Word :=
  let old := zeroExtendBytes n old
  let b := zeroExtendBytes n b
  let less := (signExtendBytes n old).sle (signExtendBytes n b)
  match op with
  | .swap => some b
  | .cas => if old == zeroExtendBytes n cmp then some b else none
  | .add => some (old + b)
  | .and => some (old &&& b)
  | .or => some (old ||| b)
  | .xor => some (old ^^^ b)
  | .min => some (if less then old else b)
  | .max => some (if less then b else old)
  | .minn => some (if old ≤ b then old else b)
  | .maxn => some (if old ≤ b then b else old)
  | .inc => some (if b ≤ old then 0 else old + 1)

/-- The value a lane atomic writes, if any, and its flags (R205, R206). -/
def vatomNew (op : BitVec 3) (ty : ElemType) (old b cmp : Word32) : Option Word32 × Byte :=
  let pick (le : Bool) : Option Word32 × Byte := (some (if le then old else b), 0)
  let minmax (larger : Bool) : Option Word32 × Byte :=
    match ty with
    | .f32 =>
      let r := fminmax .f32 larger old.toNat b.toNat
      (some (BitVec.ofNat 32 r.1), r.2)
    | .s32 => pick (if larger then b.sle old else old.sle b)
    | _ => pick (if larger then decide (b ≤ old) else decide (old ≤ b))
  match op.toNat with
  | 0 =>
    match ty with
    | .f32 =>
      let v := (FFmt.decode .f32 old.toNat).add .rne (FFmt.decode .f32 b.toNat)
      let r := FFmt.round .f32 .rne false v.1
      (some (BitVec.ofNat 32 r.1), v.2 ||| r.2)
    | _ => (some (old + b), 0)
  | 1 => (some b, 0)
  | 2 => (if old == cmp then some b else none, 0)
  | 3 => (some (old &&& b), 0)
  | 4 => (some (old ||| b), 0)
  | 5 => (some (old ^^^ b), 0)
  | 6 => minmax false
  | _ => minmax true

/-- What an atomic in flight writes for one lane that reads `old`, with its flags. -/
def AccKind.atomic (k : AccKind) (r : Req) (old : Word) : Option Word × Byte :=
  match k with
  | .satom op n _ => (atomNew op n old r.data r.cmp, 0)
  | .vatom op ty =>
    let x := vatomNew op ty (old.setWidth 32) (r.data.setWidth 32) (r.cmp.setWidth 32)
    (x.1.map fun w => w.setWidth 64, x.2)
  | _ => (none, 0)

/-- The value an access that awaits one gives its destination, from the bytes read. -/
def AccKind.extend (k : AccKind) (w : Word) : Word :=
  match k with
  | .load n signed | .satom _ n signed | .vload n signed => if signed then signExtendBytes n w else zeroExtendBytes n w
  | _ => w

/-- Record flags of an access (R245): write, atomic. A queue operation counts as an atomic, the write of QPUT's entry with it.
Log 128. -/
def AccKind.rflags : AccKind → Byte
  | .store _ => 0x02
  | .satom .. | .vatom .. | .queue _ => 0x06
  | _ => 0

/-- A number for the operation and the width of an atomic. -/
def AccKind.opCode : AccKind → Nat
  | .satom op n _ =>
    let i := match op with
      | .swap => 0 | .cas => 1 | .add => 2 | .and => 3 | .or => 4 | .xor => 5 | .min => 6 | .max => 7 | .minn => 8 | .maxn => 9
      | .inc => 10
    16 * n + i
  | .vatom op ty => 256 + 8 * (match ty with | .f32 => 0 | .s32 => 1 | _ => 2) + op.toNat
  | _ => 0

/-- A free choice of the members of a list that act now; a list of one always acts (log 2). Log 113. -/
def State.pick (s : State) (n : Nat) : (Nat → Bool) × State :=
  if n ≤ 1 then (fun _ => true, s) else (fun i => Config.freeBool (s.fresh + i), { s with fresh := s.fresh + n })

/-! ## The trail keys of atomics (R382) -/

/-- Kind, source and key of an atomic's choice on global memory: device memory only. -/
def State.atomChoice (s : State) (g : Group) (a : Access) (r : Req) : Choice :=
  { s.choiceOf g 1 false a.l r.lane (192 + sliceOf r.pa) (r.va &&& ~~~63) with op := a.kind.opCode }

/-- The choice of a scratchpad atomic: gang, rank of the window's team, line of the window. -/
def State.spChoice (s : State) (g : Group) (l : Bool) (lane : Nat) (k : AccKind) (t : Team) (off : Nat) : Choice :=
  { s.choiceOf g 3 false l lane t.core
    (BitVec.ofNat 64 ((s.gangOf g).num * 2 ^ 32 + t.tid * 2 ^ 19 + off / 64 * 64)) with op := k.opCode }

/-- The partition runs FREE, or the group is machine firmware's (R381; log 7). -/
def State.isFree (s : State) (g : Group) : Bool :=
  let p := s.part (s.ctxOf g).part
  p.mode == 0 || !p.live || (s.ctxOf g).id == 0

end Sys2Proof.Machine
end

