-- ==== Sys2Proof/Machine/SMem.lean ====
section
/-! DEFINITION. Memory instructions of the S-stream: loads, stores, atomics, scratchpad access, fences, waits on counters
and words, work queues and bank supply (R88 to R90, R185, R198 to R214). -/

namespace Sys2Proof.Machine

def LdSize.bytes : LdSize → Nat
  | .s8 | .n8 => 1
  | .s16 | .n16 => 2
  | .s32 | .n32 => 4
  | .d64 => 8

def LdSize.signed : LdSize → Bool
  | .s8 | .s16 | .s32 => true
  | _ => false

def StSize.bytes : StSize → Nat
  | .b8 => 1 | .b16 => 2 | .b32 => 4 | .b64 => 8

def AtSize.bytes : AtSize → Nat
  | .d64 => 8
  | _ => 4

/-- An address sa + displacement (R88, R199). -/
def State.addr {w : Nat} (s : State) (a : SReg) (d : BitVec w) : Word := s.sget a + d.signExtend 64

/-! ## Global accesses -/

/-- A scalar load (R88, R90, R200): it issues and goes on; the data come with its response (R194). -/
def State.sLoad (s : State) (n : Nat) (signed : Bool) (ord : Order) (sc : Scope) (d a : SReg) (va : Word) (len : Nat) : State :=
  s.sIssue .user [d, a] true fun s =>
    if s.cur.full .ld || s.cur.acquiring false 0 then s
    else
      let t := s.checkGlobal .read va n
      match t.res with
      | .inl f => s.sGlobalFault t.st f 0 false
      | .inr pa =>
        let x := s.newAccess false (.load n signed) (d.setWidth 8) ord sc false [reqOf 255 va pa n 0 0]
        (t.st.mapCur fun g => g.push x [.ld]).nextPc len

/-- A scalar store (R89, R90, R200). -/
def State.sStore (s : State) (n : Nat) (ord : Order) (sc : Scope) (d a : SReg) (va : Word) (len : Nat) : State :=
  s.sIssue .user [d, a] false fun s =>
    if s.cur.full .st then s
    else
      let t := s.checkGlobal .write va n
      match t.res with
      | .inl f => s.sGlobalFault t.st f 0x02 true
      | .inr pa =>
        let x := s.newAccess false (.store n) 0 ord sc false [reqOf 255 va pa n (s.sget d) 0]
        (t.st.mapCur fun g => g.push x [.st]).nextPc len

def execLdS8 (d a : SReg) (imm : BitVec 12) (s : State) : Out := .next (s.sLoad 1 true .rlx .grp d a (s.addr a imm) 4)
def execLdS16 (d a : SReg) (imm : BitVec 12) (s : State) : Out := .next (s.sLoad 2 true .rlx .grp d a (s.addr a imm) 4)
def execLdS32 (d a : SReg) (imm : BitVec 12) (s : State) : Out := .next (s.sLoad 4 true .rlx .grp d a (s.addr a imm) 4)
def execLd64 (d a : SReg) (imm : BitVec 12) (s : State) : Out := .next (s.sLoad 8 false .rlx .grp d a (s.addr a imm) 4)
def execLdN8 (d a : SReg) (imm : BitVec 12) (s : State) : Out := .next (s.sLoad 1 false .rlx .grp d a (s.addr a imm) 4)
def execLdN16 (d a : SReg) (imm : BitVec 12) (s : State) : Out := .next (s.sLoad 2 false .rlx .grp d a (s.addr a imm) 4)
def execLdN32 (d a : SReg) (imm : BitVec 12) (s : State) : Out := .next (s.sLoad 4 false .rlx .grp d a (s.addr a imm) 4)
def execSt8 (d a : SReg) (imm : BitVec 12) (s : State) : Out := .next (s.sStore 1 .rlx .grp d a (s.addr a imm) 4)
def execSt16 (d a : SReg) (imm : BitVec 12) (s : State) : Out := .next (s.sStore 2 .rlx .grp d a (s.addr a imm) 4)
def execSt32 (d a : SReg) (imm : BitVec 12) (s : State) : Out := .next (s.sStore 4 .rlx .grp d a (s.addr a imm) 4)
def execSt64 (d a : SReg) (imm : BitVec 12) (s : State) : Out := .next (s.sStore 8 .rlx .grp d a (s.addr a imm) 4)

def execLdo (sz : LdSize) (ord : Order) (sc : Scope) (d a : SReg) (disp : BitVec 16) (s : State) : Out :=
  .next (s.sLoad (LdSize.bytes sz) (LdSize.signed sz) ord sc d a (s.addr a disp) 8)

def execSto (sz : StSize) (ord : Order) (sc : Scope) (d a : SReg) (disp : BitVec 16) (s : State) : Out :=
  .next (s.sStore (StSize.bytes sz) ord sc d a (s.addr a disp) 8)

/-- SATOM (R202): the read-modify-write is performed at its response. -/
def execSatom (op : AtomOp) (w64 : Bool) (ord : Order) (sc : Scope) (d a b : SReg) (disp : BitVec 16) (s : State) : Out :=
  let n := if w64 then 8 else 4
  .next (s.sIssue .user [d, a, b] false fun s =>
    if s.cur.full .st then s
    else
      let va := s.addr a disp
      let t := s.checkGlobal .atomic va n
      match t.res with
      | .inl f => s.sGlobalFault t.st f 0x06 true
      | .inr pa =>
        let x := s.newAccess false (.satom op n false) (d.setWidth 8) ord sc false [reqOf 255 va pa n (s.sget b) (s.sget d)]
        (t.st.mapCur fun g => g.push x [.st]).nextPc 8)

/-! ## Scratchpad accesses (R203) -/

/-- The checks of R181 on an own-window access at issue, with the RANGELOCK check of R193: its window, or the fault. -/
def State.ownTarget (s : State) (va : Word) (n : Nat) : MemFault ⊕ Team :=
  match s.localIssueErr s.cur va n with
  | some f => .inl f
  | none =>
    match s.localTarget s.cur va n with
    | .inl f => .inl f
    | .inr t =>
      match s.localLockErr s.cur va n with
      | some f => .inl f
      | none => .inr t

/-- What the issuing core checks of an access that goes out: of a peer access steps 1 and 2 of R181 and the range locks, of an
own-window access steps 1 to 4 first (R193). -/
def State.outErr (s : State) (va : Word) (n : Nat) : Option MemFault :=
  if isPeer va then (match s.localIssueErr s.cur va n with | some f => some f | none => s.localLockErr s.cur va n)
  else match s.ownTarget va n with
    | .inl f => some f
    | .inr _ => none

/-- An own-window access of n bytes: what its bank answers. -/
def State.ownBank (s : State) (t : Team) (va : Word) (n : Nat) (kind : AccessKind) : BankAns :=
  (s.core t.core).bankAns (spByte t (offsetIn va)) n kind va

/-- A scalar access to the scratchpad (R203): the own-window form is performed at issue, after what its order and the fences put
before it (R191, R208); the peer form goes out. -/
def State.spScalar (s : State) (kind : AccessKind) (n : Nat) (va : Word) (rflags : Byte) (cs : List Counter)
    (inFlight : Bool) (x : Access) (own : State → Team → State) : State :=
  if kind.writes && !inFlight && s.releaseHeld false 0 x.ord x.scope then s
  else if inFlight then
    if cs.any s.cur.full then s
    else
      match s.outErr va n with
      | some f => s.sMemFault f rflags kind.writes true
      | none => (s.mapCur fun g => g.push x cs).nextPc 8
  else
    match s.ownTarget va n with
    | .inl f => s.sMemFault f rflags kind.writes true
    | .inr t =>
      if s.peerPending false 0 t.id (offsetIn va) n then s
      else match s.ownBank t va n kind with
        | .wake => s.wakeBank t.core (spByte t (offsetIn va) / 8192)
        | .fault f => s.sMemFault f rflags kind.writes true
        | .go => own s t

def execSpaccLoad (sz : LdSize) (ord : Order) (sc : Scope) (d a : SReg) (disp : BitVec 16) (s : State) : Out :=
  let n := LdSize.bytes sz
  let k := AccKind.load n (LdSize.signed sz)
  .next (s.sIssue .user [d, a] true fun s =>
    let va := s.addr a disp
    if s.cur.acquiring false 0 then s
    else s.spScalar .read n va 0 [.rs] (isPeer va) (s.newAccess false k (d.setWidth 8) ord sc true [reqOf 255 va 0 n 0 0])
      fun s t => (s.sput d (k.extend (wordOf (s.spRead t.core (spByte t (offsetIn va)) n)))).nextPc 8)

def execSpaccStore (sz : StSize) (ord : Order) (sc : Scope) (d a : SReg) (disp : BitVec 16) (s : State) : Out :=
  let n := StSize.bytes sz
  .next (s.sIssue .user [d, a] false fun s =>
    let va := s.addr a disp
    s.spScalar .write n va 0x02 [.rs, .st] (isPeer va)
      (s.newAccess false (.store n) 0 ord sc true [reqOf 255 va 0 n (s.sget d) 0])
      fun s t => (s.spWrite t.core (spByte t (offsetIn va)) (bytesOf n (s.sget d).toNat)).nextPc 8)

/-- An SPACC atomic (R203). Under RECORD and REPLAY an own-window atomic waits for its turn in flight (R385). Log 114. -/
def execSpaccAtomic (sz : AtSize) (op : AtomOp) (ord : Order) (sc : Scope) (d a b : SReg) (disp : BitVec 16) (s : State) :
    Out :=
  let n := AtSize.bytes sz
  let k := AccKind.satom op n (sz == .s32)
  .next (s.sIssue .user [d, a, b] false fun s =>
    let va := s.addr a disp
    let cs : List Counter := if isPeer va then [.rs, .st] else []
    s.spScalar .atomic n va 0x06 cs (isPeer va || !s.isFree s.cur)
      (s.newAccess false k (d.setWidth 8) ord sc true [reqOf 255 va 0 n (s.sget b) (s.sget d)])
      fun s t =>
        let byte := spByte t (offsetIn va)
        let old := wordOf (s.spRead t.core byte n)
        let s := match atomNew op n old (s.sget b) (s.sget d) with
          | some v => s.spWrite t.core byte (bytesOf n v.toNat)
          | none => s
        (s.sput d (k.extend old)).nextPc 8)

/-! ## Fences (R208 to R210) -/

/-- A fence of a stream, or of a path of some lanes (R208, R211): SC waits at issue until every store before it is performed; REL
and ACQREL go on, and bind the later stores and atomics. Loads and atomics before a fence hold it already (R194). `go` moves past
it. Log 30. -/
def State.fence (s t : State) (k : FenceKind) (grp l : Bool) (m : Mask) (go : State → State) : State :=
  if grp then go t
  else match k with
    | .acq => go t
    | .rel | .acqrel => go (t.mapCur fun g => g.fence l m)
    | .sc => if s.storesBefore l m then s else go t

def execFence (k : FenceKind) (sc : Scope) (s : State) : Out :=
  .next (s.sIssue .user [] false fun s => s.fence s k (sc == .grp) false 0 fun s => s.nextPc 4)

def execFenceOwn (s : State) : Out := .next (s.sIssue .user [] false fun s => s.nextPc 4)

/-- The groups within a scope of the issuing group that hold a slot, itself apart (R190, R210). -/
def State.inScope (s : State) (sc : Scope) : List Group :=
  s.others.filter fun g =>
    g.status != .exited &&
      (match sc with
       | .grp => false
       | .team => g.team == s.cur.team
       | .gang => (s.teamOf g).gang == (s.teamOf s.cur).gang
       | _ => (s.gridOf g).ctx == (s.gridOf s.cur).ctx)

/-- FENCE.REM (R210): its own stream first, then a drain request to every group in the scope, the issuer among them, which marks
its streams at once where it has stores to perform. -/
def execFenceRem (sc : Scope) (s : State) : Out :=
  .next (s.sIssue .user [] false fun s =>
    if sc != .grp && s.storesBefore false 0 then s
    else
      match ((s.inScope sc).map fun g => (g.uid, (none : Option Nat))) ++
          (if s.cur.storesOut then [(s.cur.uid, some s.cur.seq)] else []) with
      | [] => s.nextPc 4
      | ts => s.mapCur fun g => { g with wait := .fenceRem ts })

/-- The wait of FENCE.REM. -/
def isFenceRem : SWait → Bool
  | .fenceRem _ => true
  | _ => false

/-- Targets that have not acknowledged. -/
def fenceTargets : SWait → List (Nat × Option Nat)
  | .fenceRem ts => ts
  | _ => []

/-- REM_DRAIN_REQUEST: a target marks its point, the newest number it has issued (R210). -/
def execRemDrainRequest (uid target : Nat) (s : State) : Out :=
  .next (match s.group? target with
    | none => s
    | some t => s.mapGroup uid fun g => g.mapWait isFenceRem fun w =>
        .fenceRem (mapIf (fenceTargets w) (fun x => x.1 == target && x.2.isNone) fun x => (x.1, some t.seq)))

/-- The stores a target issued before its point are performed (R210). -/
def Group.drained (g : Group) (mark : Nat) : Bool := !(g.accs.any fun a => !a.valued && !a.allKnown && decide (a.seq < mark))

/-- A group that is descheduled, on the way there, or in a handler. -/
def Group.away (g : Group) : Bool := g.handler.isSome || (match g.status with | .desched .. => true | _ => false)

/-- A target acknowledges: it has drained on its way into a handler or off its slot, its stores before the mark are performed, or
it has left with all of them performed (R210). The issuer of the fence, by its name, has its stores performed. -/
def State.acked (s : State) (uid : Nat) (x : Nat × Option Nat) : Bool :=
  match x.2, s.group? x.1 with
  | some m, some t => (t.away && x.1 != uid) || t.drained m
  | none, some t => t.away || (t.status == .exited && !t.storesOut)
  | _, none => true

/-- REM_DRAIN_ACK: a target acknowledges; the last acknowledgement completes the fence (R210). -/
def execRemDrainAck (uid target : Nat) (s : State) : Out :=
  .next (s.mapGroup uid fun g =>
    let g := g.mapWait isFenceRem fun w =>
      .fenceRem ((fenceTargets w).filter fun x => !(x.1 == target && s.acked uid x))
    g.endWait (fun w => isFenceRem w && (fenceTargets w).isEmpty) (· + 4) [])

/-! ## Waits on counters (R198) -/

def execWaitc (ld st cp mx : Byte) (s : State) : Out :=
  .next (s.sIssue .user [] true fun s =>
    if s.cur.count .ld ≤ ld.toNat && s.cur.count .st ≤ st.toNat && s.cur.count .cp ≤ cp.toNat && s.cur.count .mx ≤ mx.toNat
    then s.nextPc 8 else s)

def execWaitr (p : Counter) (a : SReg) (s : State) : Out :=
  .next (s.sIssue .user [a] true fun s => if s.cur.count p ≤ (s.sget a).toNat then s.nextPc 4 else s)

/-! ## Waiting on a word (R212) -/

/-- Bytes as the group reads them: its own stores still in flight stand over memory (R15, R90). -/
def storeByteAt (s : State) (place : Nat) : List Req → Option Byte
  | [] => none
  | r :: rs =>
    if meets place 1 (s.place r.pa) r.size then some (r.data.extractLsb' (8 * (place - s.place r.pa)) 8)
    else storeByteAt s place rs

/-- The stores to memory among some accesses that are still to be performed on some bytes, youngest first. -/
def State.storesOn (s : State) (g : Group) (prior : List Nat) (pa n : Nat) : List Access :=
  (g.accs.filter fun a => !a.valued && !a.peer && prior.contains a.seq &&
    a.reqs.any fun r => !r.known && meets (s.place pa) n (s.place r.pa) r.size).reverse

/-- The stores before a read on its bytes do not follow each other (R14): the read waits until one is performed. -/
def unordered : List Access → Bool
  | [] => false
  | a :: as => as.any (fun b => !a.prior.contains b.seq) || unordered as

/-- A read of the group's bytes: the youngest store before it that is still to be performed stands over memory, byte by byte.
Log 24, 36. -/
def State.readOver (s : State) (g : Group) (prior : List Nat) (pa n : Nat) : List Byte :=
  let st := (s.storesOn g prior pa n).flatMap fun a => (a.reqs.filter fun r => !r.known).reverse
  (List.range n).map fun i =>
    let p := s.place pa + i
    match storeByteAt s p st with
    | some b => b
    | none => s.mem.get p

/-- A store of another group to some bytes of memory, which a round puts before what the group does from a number on, is still to be
performed (R152). -/
def State.othersMeet (s : State) (g : Group) (seq pa n : Nat) : Bool :=
  s.othersOut g seq fun _ b q => !b.peer && meets (s.place pa) n (s.place q.pa) q.size

/-- A read of the group's bytes has to wait for a store before it: for another group's, for its own where they do not follow each
other, and for one that its slice will refuse (R14, R152, R216). -/
def State.readWaits (s : State) (prior : List Nat) (seq pa n : Nat) : Bool :=
  unordered (s.storesOn s.cur prior pa n) || s.othersMeet s.cur seq pa n ||
    (s.storesOn s.cur prior pa n).any fun a => a.reqs.any fun r =>
      !r.known && (s.writeErr s.myPort (s.ctxOf s.cur).world r.pa false).isSome

/-- What comes before the next access of the S-stream. -/
def Group.priorS (g : Group) : List Nat := (g.accs.filter (g.before false 0)).map Access.seq

/-- One read of MWAIT's doubleword: the value, or the fault with its log entry; code 0 waits. -/
def State.mwaitRead (s : State) (va : Word) : (MemFault ⊕ Nat × Word) × State :=
  let t := s.checkGlobal .read va 8
  match t.res with
  | .inl f => (.inl f, t.st)
  | .inr pa =>
    if s.levelHeld pa || s.readWaits s.cur.priorS s.cur.seq pa 8 then (.inl (stall va), t.st)
    else match t.st.readErr s.myPort (s.ctxOf s.cur).world pa with
      | some (code, cause) => (.inl ⟨code, cause, va, BitVec.ofNat 64 pa⟩, t.st)
      | none => (.inr (pa, wordOf (t.st.readOver s.cur s.cur.priorS pa 8)), t.st)

/-- MWAIT (R212): it returns a value that differs, and sleeps while the value is equal. Log 24. -/
def execMwait (ord : Order) (sc : Scope) (d a b : SReg) (tmo : BitVec 27) (s : State) : Out :=
  let _ := (ord, sc)
  .next (s.sIssue .user [d, a, b] false fun s =>
    let va := s.sget a
    let r := s.mwaitRead va
    match r.1 with
    | .inl f => r.2.sMemFault f 0 false false
    | .inr (pa, x) =>
      if x != s.sget b then (r.2.sput d x).nextPc 8
      else r.2.mapCur fun g => { g with wait := .mwait s.time (s.place pa / 64) false d va (s.sget b) tmo.toNat })

/-- A sleeping MWAIT of the issuing group reads again: it returns a value that differs, or any value once its time is
over; otherwise it sleeps on, on the line that the address stands in now. -/
def State.mwaitAgain (s : State) : State :=
  match s.cur.wait with
  | .mwait start _ _ d va cmp tmo =>
    let r := s.mwaitRead va
    match r.1 with
    | .inl f => if f.code == 0 then s else (r.2.mapCur fun g => { g with wait := .none }).sMemFault f 0 false false
    | .inr (pa, x) =>
      if x != cmp || (tmo != 0 && 1000 * tmo ≤ s.time - start) then
        ((r.2.mapCur fun g => { g with wait := .none }).sput d x).nextPc 8
      else r.2.mapCur fun g => { g with wait := .mwait start (s.place pa / 64) false d va cmp tmo }
  | _ => s

/-- A stop, a halt or a handler suspends the sleep (R212, R316). -/
def execMwaitWake (uid : Nat) (s : State) : Out :=
  .next (s.withGroup uid fun s =>
    match s.cur.wait with
    | .mwait _ _ woken .. => if woken && s.issues s.cur then s.mwaitAgain else s
    | _ => s)

def execMwaitTimeout (uid : Nat) (s : State) : Out :=
  .next (s.withGroup uid fun s =>
    match s.cur.wait with
    | .mwait start _ _ _ _ _ tmo =>
      if tmo != 0 && 1000 * tmo ≤ s.time - start && s.issues s.cur then s.mwaitAgain else s
    | _ => s)

/-! ## Work queues (R213 to R215) -/

/-- A queue descriptor (R213). -/
structure Queue where
  tail  : Word
  head  : Word
  base  : Word
  cap   : Nat
  esize : Nat
  deriving DecidableEq, Repr

/-- The descriptor in 64 bytes, where it keeps the table of R213. -/
def queueOf (bs : List Byte) : Option Queue :=
  let cap := natOfBytes ((bs.drop 24).take 4)
  let es := (bs.getD 28 0).toNat
  let base := natOfBytes ((bs.drop 16).take 8)
  if cap != 0 && cap ≤ 2 ^ 24 && popcount (BitVec.ofNat 32 cap) == 1 && es ≤ 4 && base % 2 ^ (4 + es) == 0 &&
      (bs.drop 29).all (· == 0) then
    some ⟨wordOf (bs.take 8), wordOf ((bs.drop 8).take 8), BitVec.ofNat 64 base, cap, es⟩
  else none

/-- Address of entry n. -/
def Queue.entry (q : Queue) (n : Word) : Word := q.base + BitVec.ofNat 64 (n.toNat % q.cap * 2 ^ (4 + q.esize))

/-- What an operation on a queue comes to: it waits, faults with TRAIL, returns EMPTY or FULL, or acts. -/
inductive QueueAct
  | wait
  | fault
  | empty (r : Option (Nat × List Byte))
  | act (r : Option (Nat × List Byte))
  deriving DecidableEq, Repr

/-- QTAKE and QPUT under the three modes (R214, R384 to R387). `index` is the head or the tail; `can` is whether the
queue lets the operation act. -/
def queueAct (ans : TrailAns) (replay can : Bool) (index : Word) : QueueAct :=
  match ans with
  | .wait => .wait
  | .fault => .fault
  | .go r =>
    if replay then
      match r with
      | none => .wait
      | some (_, bs) =>
        if recEmpty bs then .empty r
        else if !can then .wait
        else if recIndex bs == index.toNat then .act r else .fault
    else if can then .act r else .empty r

/-- The queue lets the operation act: an entry to take, or room. Under REPLAY a QTAKE asks only for an entry (R386). -/
def Queue.can (q : Queue) (put replay : Bool) : Bool :=
  let d := q.tail - q.head
  if put then decide (d.toNat < q.cap) else d != 0 && (replay || decide (d.toNat ≤ q.cap))

/-- QTAKE and QPUT go out (R214): the descriptor's address is checked, and the operation is performed at its response (R194), in
its turn of the trail (R385). A QPUT counts in st (R196). Log 24, 42. -/
def State.queueGo (s : State) (put : Bool) (sc : Scope) (d : SReg) (va data : Word) : State :=
  if put && s.cur.full .st then s
  else
    let t := s.checkRange .atomic va 64 64
    match t.res with
    | .inl f => s.sGlobalFault t.st f 0x06 true
    | .inr pa =>
      let x := s.newAccess false (.queue put) (d.setWidth 8) (if put then .rel else .acq) sc false [reqOf 255 va pa 64 data 0]
      (t.st.mapCur fun g => g.push x (if put then [.st] else [])).nextPc 8

/-- QTAKE (R214). -/
def execQtake (sc : Scope) (d a : SReg) (s : State) : Out :=
  .next (s.sIssue .user [d, a] false fun s => s.queueGo false sc d (s.sget a) 0)

/-- QPUT (R214). -/
def execQput (sc : Scope) (d a b : SReg) (s : State) : Out :=
  .next (s.sIssue .user [d, a, b] false fun s => s.queueGo true sc d (s.sget a) (s.sget b))

/-- An append to the out queue of the issuing context sends its MSI-X message (R371). -/
def State.appended (s : State) (va : Word) : State :=
  s.mapCtx (s.ctxOf s.cur).id fun c => if canonical c.mboxo == va then { c with msix := c.msix + 1 } else c

/-! ## Bank supply (R185) -/

/-- One bank's transition (R185). Lowering to OFF discards the contents and the marks; a power-up starts from zeros. -/
def State.hintBank (s : State) (core bank : Nat) (st : BankHint) : State :=
  match st with
  | .full => s.wakeBank core bank
  | .ret => s.mapCore core fun c =>
      match look c.banks bank .off with
      | .full => { c with banks := put c.banks bank .ret }
      | _ => c
  | .off =>
    { s with sp := s.sp.clear (core * 2 ^ 19 + bank * 8192) (core * 2 ^ 19 + (bank + 1) * 8192) }.mapCore core fun c =>
      { c with banks := put c.banks bank .off, poison := c.poison.filter fun w => w / 1024 != bank }

/-- A wake of a bank in the range is under way. Log 43. -/
def CoreState.bankWaking (c : CoreState) (bank : Nat) : Bool :=
  match look c.banks bank .off with
  | .waking _ _ => true
  | _ => false

/-- SPHINT (R185). A bank whose wake is under way is lowered once that has ended. Log 43. -/
def execSphint (st : BankHint) (a b : SReg) (s : State) : Out :=
  .next (s.sIssue .user [a, b] false fun s =>
    let first := (s.sget a).toNat
    let n := (s.sget b).toNat
    let t := s.teamOf s.cur
    let banks := (List.range (Nat.min n 48)).map fun i => first + i
    if !s.cur.lIdle then s
    else if n == 0 then s.joinS.nextPc 8
    else if t.spbytes / 8192 < first + n then
      let va := BitVec.ofNat 64 (8192 * first)
      (s.logCur va t.core false false true 0x06).raiseMem (mf 0x06 8 va) 0
    else if st != .full && (banks.any fun i => s.windowLocked (s.gridOf s.cur).ctx t (8192 * i) 8192 ||
        (s.core t.core).bankWaking (t.base + i)) then s
    else (banks.foldl (fun s i => s.hintBank t.core (t.base + i) st) s).joinS.nextPc 8)

end Sys2Proof.Machine
end

