-- ==== Sys2Proof/Machine/Team.lean ====
section
/-! DEFINITION. Teams: team-mask frames, barrier rounds, votes, team-calls, returns and exits (R141, R149 to R162). -/

namespace Sys2Proof.Machine

/-! ## Ranks and frames -/

/-- The frame of the innermost sub-team of a rank, if it runs a callee. -/
def Team.frameOf (t : Team) (r : Nat) : Option Frame :=
  t.frames.find? fun f =>
    f.mask.getLsbD r && !(t.frames.any fun h => h.parent.toNat == f.idx && h.idx != f.idx && h.mask.getLsbD r)

/-- Ranks of a sub-team mask in ascending order. -/
def ranksOf (m : BitVec 16) : List Nat := (List.range 16).filter fun i => m.getLsbD i

/-- The mask of every rank of a team. -/
def Team.all (t : Team) : BitVec 16 := BitVec.ofNat 16 (2 ^ t.ngroups - 1)

/-- The ranks of the innermost (sub-)team of a rank. -/
def Team.subMask (t : Team) (r : Nat) : BitVec 16 := match t.frameOf r with | some f => f.mask | none => t.all

/-- Pool entry of the innermost (sub-)team's barrier (R149, R159). -/
def Team.poolOf (t : Team) (r : Nat) : Nat := match t.frameOf r with | some f => f.bar.toNat | none => 0

/-- SR GID and NGRP (R141). -/
def Team.gidOf (t : Team) (r : Nat) : Nat := ((ranksOf (t.subMask r)).filter (· < r)).length
def Team.ngrpOf (t : Team) (r : Nat) : Nat := (ranksOf (t.subMask r)).length

/-- Participants of a round on a pool entry: the groups of its (sub-)team that have not exited (R151). -/
def Team.members (t : Team) (pool : Nat) : List Nat :=
  (ranksOf t.all).filter fun r => !t.exited.getLsbD r && t.poolOf r == pool

/-- The group of a team's rank that has not exited. -/
def State.groupAt (s : State) (team rank : Nat) : Option Group :=
  s.groups.find? fun g => g.team == team && g.rank == rank && g.status != .exited

def State.mapRank (s : State) (team rank : Nat) (f : Group → Group) : State :=
  s.mapGroups (fun g => g.team == team && g.rank == rank && g.status != .exited) f

/-! ## Team-mask frames in the window (R160) -/

/-- The 32 bytes of a frame. -/
def Frame.bytes (f : Frame) : List Byte :=
  let lo := bytesOf 2 f.mask.toNat ++ [f.bar, f.callee, f.next, f.parent,
    (f.n.setWidth 8 ||| (if f.sp then 0x10 else 0) ||| ((f.argreg.setWidth 8 >>> 4) <<< 5))]
  let hi := bytesOf 8 f.addr.toNat ++ bytesOf 8 f.ret.toNat ++ [f.argreg.setWidth 8 &&& 0x0F] ++ List.replicate 7 0
  lo ++ [xorBytes lo ^^^ xorBytes hi ^^^ 0xA5] ++ hi

/-- The fields of a frame of an index that 32 bytes hold. -/
def frameFields (idx : Nat) (slot : Option Nat) (bs : List Byte) : Frame :=
  let b6 := bs.getD 6 0
  ⟨idx, slot, BitVec.ofNat 16 (natOfBytes (bs.take 2)), bs.getD 2 0, bs.getD 3 0, bs.getD 4 0, bs.getD 5 0,
    b6.setWidth 4, b6.getLsbD 4, ((b6 >>> 5).setWidth 7 <<< 4) ||| ((bs.getD 24 0 &&& 0x0F).setWidth 7),
    wordOf ((bs.drop 8).take 8), wordOf ((bs.drop 16).take 8)⟩

/-- The frame of an index that 32 bytes hold, where the check byte agrees. -/
def frameOfBytes (idx : Nat) (slot : Option Nat) (bs : List Byte) : Option Frame :=
  if bs.getD 7 0 == xorBytes (bs.take 7) ^^^ xorBytes (bs.drop 8) ^^^ 0xA5 then some (frameFields idx slot bs) else none

/-- Window offset of a slot of the frame area. -/
def Team.slotOffset (t : Team) (i : Nat) : Nat := t.spbytes - 32 * (i + 1)

/-- The slot of the frame area that a spilled frame takes: the lowest free one. R160 does not say which. Log 40. -/
def Team.freeSlot (t : Team) : Nat := ((List.range 32).find? fun i => !(t.frames.any fun f => f.slot == some i)).getD 0

/-- The bank that holds the frame area, the last of the window. -/
def Team.frameBank (t : Team) : Nat := spByte t (t.spbytes - 32) / 8192

/-- A spill or a read back of frames passes now: the bank is FULL, or is OFF for a read, which fails (R183, R187). -/
def State.framesReady (s : State) (t : Team) (write : Bool) : Bool :=
  match look (s.core t.core).banks t.frameBank .off with
  | .full => true
  | .off => !write
  | _ => false

/-- An instruction that needs the frame area waits for its bank. -/
def State.wakeFrames (s : State) (t : Team) : State := s.wakeBank t.core t.frameBank

/-- Write 32 bytes into a slot, as writes of whole words (R183, R184, R187). -/
def State.writeSlot (s : State) (t : Team) (slot : Nat) (bs : List Byte) : State :=
  let off := spByte t (t.slotOffset slot)
  (List.range 4).foldl (fun s i => s.spWrite t.core (off + 8 * i) ((bs.drop (8 * i)).take 8)) s

def State.writeFrame (s : State) (t : Team) (slot : Nat) (f : Frame) : State := s.writeSlot t slot f.bytes

/-- Put a frame into the window. Log 40. -/
def State.spillFrame (s : State) (t : Team) (f : Frame) : State :=
  (s.writeFrame t t.freeSlot f).mapTeam t.id fun t =>
    { t with frames := mapIf t.frames (fun x => x.idx == f.idx) fun x => { x with slot := some t.freeSlot } }

/-- Frames in hardware. -/
def Team.cached (t : Team) : List Frame := t.frames.filter fun f => f.slot.isNone

/-- The four most recently used frames stay in hardware; frames are kept latest first. Log 40. -/
def State.trimFrames (s : State) (team : Nat) : State :=
  match s.team? team with
  | none => s
  | some t =>
    match t.cached.drop 4 with
    | [] => s
    | f :: _ => s.spillFrame t f

/-- A frame becomes the most recently used. -/
def Team.touch (t : Team) (f : Frame) : Team :=
  { t with frames := { f with slot := none } :: t.frames.filter fun x => x.idx != f.idx }

/-- The frame that a slot of the window holds; none where its check byte fails, its bank is OFF or its words are poisoned (R160,
R187). -/
def State.readFrame (s : State) (t : Team) (idx slot : Nat) : Option Frame :=
  let off := spByte t (t.slotOffset slot)
  let c := s.core t.core
  if look c.banks (off / 8192) .off == .off || (List.range 4).any fun k => c.poison.contains (off / 8 + k) then none
  else frameOfBytes idx none (s.spRead t.core off 32)

/-- A frame as it stands, in hardware or in the window; none where it cannot be read back (R160). -/
def State.frameAt (s : State) (t : Team) (f : Frame) : Option Frame :=
  match f.slot with
  | none => some f
  | some i => (s.readFrame t f.idx i).map fun g => { g with slot := some i }

/-- A team with its spilled frames as programs have left them in the window. One that cannot be read back stands as it was
spilled. Log 40. -/
def State.viewTeam (s : State) (t : Team) : Team := { t with frames := t.frames.map fun f => (s.frameAt t f).getD f }

def State.viewOf (s : State) (g : Group) : Team := s.viewTeam (s.teamOf g)

/-- Bring a frame into hardware, with what a program has stored into it; none where it cannot be read back. Log 40. -/
def State.needFrame (s : State) (team : Nat) (f : Frame) : Option (Frame × State) :=
  match s.team? team, f.slot with
  | some t, some i => (s.readFrame t f.idx i).map fun g => (g, (s.mapTeam team fun t => t.touch g).trimFrames team)
  | _, _ => some (f, s.mapTeam team fun t => t.touch f)

/-- An instruction that needs the frame of its (sub-)team reads a spilled one back: it waits for the bank, and faults TNEST where the
frame cannot be read (R160, R187). -/
def State.withFrame (s : State) (body : State → State) : State :=
  match (s.viewOf s.cur).frameOf s.cur.rank with
  | none => body s
  | some f =>
    if f.slot.isNone then body s
    else if !s.framesReady (s.teamOf s.cur) false then s.wakeFrames (s.teamOf s.cur)
    else match s.needFrame s.cur.team f with
      | none => s.raise 0x0D
      | some (_, s) => body s

/-- The next deferred callee of a division moves on in the frames of some sub-teams, in hardware or in the window (R160). -/
def State.setNext (s : State) (team : Nat) (idxs : List Nat) (n : Nat) : State :=
  match s.team? team with
  | none => s
  | some t =>
    let mine := t.frames.filter fun f => idxs.contains f.idx
    let s := mine.foldl (fun s f =>
      match f.slot with
      | none => s
      | some i => match s.readFrame t f.idx i with
        | some g => s.writeFrame t i { g with next := BitVec.ofNat 8 n }
        | none => s) s
    s.mapTeam team fun t =>
      { t with frames := mapIf t.frames (fun f => idxs.contains f.idx) fun f => { f with next := BitVec.ofNat 8 n } }

/-- Add a frame to a team. -/
def State.addFrame (s : State) (team : Nat) (f : Frame) : State := (s.mapTeam team fun t => t.touch f).trimFrames team

/-! ## Boundaries (R330, R346) -/

/-- A stop that waits to be taken is held (R333). -/
def Group.holdStop (g : Group) : Group :=
  match g.status with
  | .shadow st _ | .draining st _ => { g with status := .run }.addStop st
  | _ => g

/-- Groups of a team at a team boundary: under an ask they park, out of a handler (R330); a move that begins there comes
first (R347). -/
def State.boundary (s : State) (team : Nat) (ranks : List Nat) : State :=
  let ctx := (((s.team? team).bind fun t => s.gang? t.gang).bind fun g => s.grid? g.grid).map Grid.ctx |>.getD 0
  match s.ctx? ctx with
  | none => s
  | some c =>
    if c.st == .asked && !((s.team? team).any Team.moving) then
      (s.mapGroups (fun g => g.team == team && ranks.contains g.rank && g.status != .exited && g.handler.isNone)
        fun g => { g.holdStop with parked := true }).checkParked ctx
    else s

/-- A round of BAR or TCALL, a TRET completion or a rejoin under a PENDING thermal move begins the drain of the team (R162,
R346). A boundary of a sub-team counts for its team. Log 83. -/
def State.beginMove (s : State) (team : Nat) : State :=
  if s.dev.tmig == .pending && s.dev.tteam == team then s.mapTeam team fun t => { t with moving := true } else s

/-! ## What a round orders (R152) -/

/-- A store that a group puts before a round is still to be performed. -/
def State.liveSeen (s : State) (x : Seen) : Bool :=
  (s.group? x.uid).any fun g => g.accs.any fun a => !a.valued && !a.allKnown && decide (a.seq < x.bound)

/-- A round of some groups completes: what each has done up to its arrival, or has seen of others, comes before what the others do
from now on (R152, R162). -/
def State.meetRound (s : State) (p : Group → Bool) : State :=
  let marks := fun g : Group => (⟨g.uid, g.sAfter, 0⟩ :: g.seen).filter s.liveSeen
  let all := (s.groups.filter p).map fun g => (g.uid, marks g)
  s.mapGroups p fun g => { g with
    seen := g.seen.filter s.liveSeen ++
      (all.filter fun x => x.1 != g.uid).flatMap fun x =>
        (x.2.filter fun m => m.uid != g.uid).map fun m => { m with since := g.seq } }

/-- The groups of a team's ranks. -/
def isRank (team : Nat) (ranks : List Nat) (g : Group) : Bool :=
  g.team == team && ranks.contains g.rank && g.status != .exited

/-! ## Completion of a round (R151, R158, R159) -/

/-- A wait in a round of a barrier. -/
def isRound (w : SWait) : Bool := w == .round

/-- A participant goes on after a round; its watchdog restarts (R151). -/
def State.release (s : State) (team rank : Nat) (w : SWait → Bool) (pc : Word → Word) (ws : List (SReg × Word)) : State :=
  s.mapRank team rank fun g => { g.endWait w pc ws with wdog := 0 }

/-- The result of a vote (R150). -/
def voteResult (k : RoundKind) (vs : List Word) : Word :=
  match k with
  | .voteAny => if vs.any (· != 0) then 1 else 0
  | .voteAll => if vs.all (· != 0) then 1 else 0
  | _ => vs.foldl (· + ·) 0

/-- Quotas of a division of G groups over weights (R158). -/
def quotas (G : Nat) (ws : List Nat) : List Nat :=
  let W := ws.foldl (· + ·) 0
  let q := ws.map fun w => G * w / W
  let left := G - q.foldl (· + ·) 0
  let rems := (ws.map fun w => if w == 0 then 0 else G * w % W + 1)
  let idx := List.range ws.length
  let better := fun (i j : Nat) => rems.getD j 0 < rems.getD i 0 || (rems.getD j 0 == rems.getD i 0 && decide (i < j))
  idx.map fun i =>
    let above := (idx.filter fun j => better j i).length
    q.getD i 0 + (if rems.getD i 0 != 0 && decide (above < left) then 1 else 0)

/-- Split a list of ranks into runs of the given lengths. -/
def splitRanks : List Nat → List Nat → List (List Nat)
  | _, [] => []
  | rs, q :: qs => rs.take q :: splitRanks (rs.drop q) qs

/-- The mask of a list of ranks. -/
def rankMask (rs : List Nat) : BitVec 16 := rs.foldl (fun m r => m ||| (1#16 <<< r)) 0

/-- Groups of a sub-team enter a callee (R159). -/
def State.enterCallee (s : State) (team : Nat) (ranks : List Nat) (w : SWait → Bool) (argreg : SReg) (c : Callee) : State :=
  ranks.foldl (fun s r => s.release team r w (fun _ => c.entry) [(argreg, c.arg.signExtend 64)]) s

/-- A second stop of a group whose first may already stand: a handler's user stop is held (R316). -/
def State.userStop (s : State) (st : Stop) : State :=
  if s.cur.handler.isSome then s.mapCur fun g => g.addStop st else s.dispatch st

/-- TNEST of the participants of an abandoned division, exactly at their TCALLs (R159). -/
def State.tnest (s : State) (team : Nat) (ranks : List Nat) : State :=
  ranks.foldl (fun s r =>
    match s.groupAt team r with
    | none => s
    | some g => s.withGroup g.uid fun s =>
        let pc := match s.cur.handler with | some h => h.userPc | none => s.cur.s.pc
        let s := s.mapCur fun g => g.endWait isRound id []
        s.userStop { s.sStop 0x0D 0 0 [] 0 with pc := pc }) s

/-- What the division of a (sub-)team over a callee table comes to (R158, R159). -/
inductive PlanKind
  | empty | noBarrier | noFrame | go
  deriving DecidableEq, Repr

/-- A division as computed: its quotas, the callees served and deferred, and the pool entries taken. -/
structure Plan where
  kind     : PlanKind
  quota    : List Nat
  served   : List Nat
  deferred : List Nat
  free     : List Nat

def State.plan (s : State) (t : Team) (table : List Callee) (n : Nat) : Plan :=
  let q := quotas n (table.map Callee.weight)
  let idx := List.range table.length
  let served := idx.filter fun i => q.getD i 0 != 0
  let deferred := idx.filter fun i => q.getD i 0 == 0 && (table.getD i ⟨0, 0, 0⟩).weight != 0
  let bars := (((s.gang? t.gang).bind fun g => s.grid? g.grid).map fun g => g.launch.bars).getD 0
  let free := ((List.range bars).filter fun j => j != 0 && !t.pool.contains j).take (served.length - 1)
  let kind :=
    if table.all fun c => c.weight == 0 then PlanKind.empty
    else if free.length < served.length - 1 then .noBarrier
    else if 4 + t.area < t.frames.length + served.length then .noFrame
    else .go
  ⟨kind, q, served, deferred, free⟩

/-- A division would spill a frame into a bank that must wake or power up first: the instruction that would complete the round
waits (R183, R187). -/
def State.spillWaits (s : State) (t : Team) (table : List Callee) (n : Nat) : Bool :=
  let p := s.plan t table n
  p.kind == .go && decide (4 < t.cached.length + p.served.length) && !s.framesReady t true

/-- The division of a (sub-)team at its TCALL round (R158, R159). Frames take the lowest numbers not in use, which R160 leaves
open. Log 16, 39, 40. -/
def State.divide (s : State) (team pool : Nat) (rd : Round) (pc addr : Word) (ranks : List Nat) : State :=
  match s.team? team with
  | none => s
  | some t =>
    let skip := fun v : Word => ranks.foldl (fun s r => s.release team r isRound (fun _ => pc + 8) [(0, v)]) s
    let p := s.plan t rd.table ranks.length
    match p.kind with
    | .empty => skip 1
    | .noBarrier => skip 3
    | .noFrame => s.tnest team ranks
    | .go =>
      let first := (rd.arrived.find? fun x => x.1 == rd.first).getD (0, 0, 0)
      let argreg := first.2.2
      let parent := match (s.viewTeam t).frameOf (ranks.headD 0) with | some f => f.idx | none => 0xFF
      let ids := ((List.range 36).filter fun i => !(t.frames.any fun f => f.idx == i)).take p.served.length
      let parts := splitRanks ranks (p.served.map fun i => p.quota.getD i 0)
      let jobs := (p.served.zip (parts.zip (ids.zip (pool :: p.free))))
      let n := BitVec.ofNat 4 rd.table.length
      let s := s.mapTeam team fun t => { t with
        pool := t.pool ++ p.free
        divs := ⟨parent, rd.table, p.deferred, ids, [], [], addr, n, rd.sp⟩ :: t.divs }
      jobs.foldl (fun s j =>
        let c := rd.table.getD j.1 ⟨0, 0, 0⟩
        let f : Frame := ⟨j.2.2.1, none, rankMask j.2.1, BitVec.ofNat 8 j.2.2.2, BitVec.ofNat 8 j.1, 0,
          BitVec.ofNat 8 parent, n, rd.sp, argreg, addr, pc + 8⟩
        (s.addFrame team f).enterCallee team j.2.1 isRound argreg c) s

/-- A round whose participants have all arrived completes (R151). -/
def State.completeRound (s : State) (team pool : Nat) : State :=
  match s.team? team with
  | none => s
  | some t =>
    match t.rounds.find? fun r => r.pool == pool with
    | none => s
    | some rd =>
      let ranks := (s.viewTeam t).members pool
      if ranks.any fun r => !(rd.arrived.any fun x => x.1 == r) then s
      else
        let s := (s.meetRound (isRank team ranks)).mapTeam team fun t => { t with rounds := t.rounds.filter fun r => r.pool != pool }
        let s : State := match rd.kind with
          | .bar => (ranks.foldl (fun (s : State) r => s.release team r isRound (· + 4) []) s).beginMove team
          | .tcall pc addr => (s.divide team pool rd pc addr ranks).beginMove team
          | .gbar => s
          | k =>
            let v := voteResult k (rd.arrived.map fun x => x.2.1)
            rd.arrived.foldl (fun (s : State) x => s.release team x.1 isRound (· + 4) [(x.2.2, v)]) s
        s.boundary team ranks

/-- The groups of a gang that have not exited, as (team rank, group rank). -/
def State.gangMembers (s : State) (gang : Nat) : List (Nat × Nat) :=
  (s.teams.filter fun t => t.gang == gang).flatMap fun t =>
    ((ranksOf t.all).filter fun r => !t.exited.getLsbD r).map fun r => (t.tid, r)

/-- A GBAR round whose participants have all arrived completes. -/
def State.completeGbar (s : State) (gang : Nat) : State :=
  match s.gang? gang with
  | none => s
  | some g =>
    let ms := s.gangMembers gang
    if g.arrived.isEmpty || ms.any fun m => !g.arrived.contains m then s
    else
      let s := (s.meetRound fun h => (s.teamOf h).gang == gang && h.status != .exited).mapGang gang fun g => { g with arrived := [] }
      let teams := s.teams.filter fun t => t.gang == gang
      let s := teams.foldl (fun s t => ((ranksOf t.all).filter fun r => !t.exited.getLsbD r).foldl
        (fun s r => s.release t.id r (· == .gbar) (· + 4) []) s) s
      teams.foldl (fun s t => s.boundary t.id (ranksOf t.all)) s

/-! ## BAR, GBAR, TVOTE, TCALL -/

/-- What BAR, GBAR, TVOTE, TCALL and TRET wait for: the SJOIN condition (R86, R151). Stores of the group may still be on their
way. -/
def State.joined (s : State) : Bool := s.cur.lIdle

/-- Barriers of the team's pool. -/
def State.barsOf (s : State) (g : Group) : Nat := (s.gridOf g).launch.bars

/-- The group arrives at a round of its barrier (R151). -/
def State.arrive (s : State) (k : RoundKind) (v : Word) (d : SReg) (table : List Callee) (sp : Bool) : State :=
  let t := s.viewOf s.cur
  let r := s.cur.rank
  let pool := t.poolOf r
  let go := fun rd : Round =>
    ((s.mapTeam t.id fun t => { t with rounds := rd :: t.rounds.filter fun x => x.pool != pool }).mapCur fun g =>
      { g with wait := .round }).completeRound t.id pool
  match t.rounds.find? fun x => x.pool == pool with
  | none => go ⟨pool, k, [(r, v, d)], r, table, sp⟩
  | some rd =>
    if rd.kind != k then s.raise 0x0E
    else go { rd with arrived := (rd.arrived.filter fun x => x.1 != r) ++ [(r, v, d)], table := table, sp := sp }

/-- BAR (R150, R151). -/
def execBar (s : State) : Out :=
  .next (s.sIssue .user [] false fun s =>
    if !s.joined then s
    else if s.barsOf s.cur == 0 then s.raise 0x01
    else s.withFrame fun s => s.joinS.arrive .bar 0 127 [] false)

def execGbar (s : State) : Out :=
  .next (s.sIssue .user [] false fun s =>
    if !s.joined then s
    else
      let gang := (s.teamOf s.cur).gang
      let me := ((s.teamOf s.cur).tid, s.cur.rank)
      ((s.joinS.mapGang gang fun g => { g with arrived := (g.arrived.filter (· != me)) ++ [me] }).mapCur fun g =>
        { g with wait := .gbar }).completeGbar gang)

/-- A vote (R150, R151). -/
def State.tvote (s : State) (k : RoundKind) (d a : SReg) : State :=
  s.sIssue .user [d, a] false fun s =>
    if !s.joined then s
    else if s.barsOf s.cur == 0 then s.raise 0x01
    else s.withFrame fun s => s.joinS.arrive k (s.sget a) d [] false

def execTvoteAny (d a : SReg) (s : State) : Out := .next (s.tvote .voteAny d a)
def execTvoteAll (d a : SReg) (s : State) : Out := .next (s.tvote .voteAll d a)
def execTvoteSum (d a : SReg) (s : State) : Out := .next (s.tvote .voteSum d a)

/-- What reading a callee table entry gives: 16 bytes, a fault, or a bank that is still waking. -/
inductive EntryRead
  | got (bs : List Byte) (s : State)
  | fault (f : MemFault)
  | wait (s : State)

/-- Read 16 bytes of a callee table (R156, R157): from memory or from a window, as a load by the S-stream, after the stores that
come before it (R15, R152). -/
def State.readEntry (s : State) (sp : Bool) (va : Word) : EntryRead :=
  if sp then
    match s.ownTarget va 16 with
    | .inl f => .fault f
    | .inr t =>
      let byte := spByte t (offsetIn va)
      if s.peerPending false 0 t.id (offsetIn va) 16 then .wait s
      else match (s.core t.core).bankAns byte 8 .read va, (s.core t.core).bankAns (byte + 8) 8 .read va with
      | .wake, _ | _, .wake => .wait (s.wakeBank t.core (byte / 8192))
      | .fault f, _ | _, .fault f => .fault f
      | .go, .go => .got (s.spRead t.core byte 16) s
  else
    let t := s.checkGlobal .read va 16
    match t.res with
    | .inl f => if f.code == 0 then .wait t.st else .fault f
    | .inr pa =>
      if t.st.levelHeld pa || s.readWaits s.cur.priorS s.cur.seq pa 16 then .wait t.st
      else match t.st.readErr s.myPort (s.ctxOf s.cur).world pa with
      | some (code, cause) => .fault ⟨code, cause, va, BitVec.ofNat 64 pa⟩
      | none => .got (t.st.readOver s.cur s.cur.priorS pa 16) t.st

/-- The table of a TCALL (R156), with the ALIGN of an entry that would run. -/
inductive TableRead
  | got (cs : List Callee) (s : State)
  | fault (f : MemFault)
  | wait (s : State)

/-- Log 39. -/
def State.readTable (sp : Bool) : Nat → Word → List Callee → State → TableRead
  | 0, _, cs, s => .got cs s
  | n + 1, va, cs, s =>
    match s.readEntry sp va with
    | .wait s => .wait s
    | .fault f => .fault f
    | .got bs s =>
      let c : Callee := ⟨wordOf (bs.take 8), BitVec.ofNat 32 (natOfBytes ((bs.drop 8).take 4)), (bs.getD 12 0).toNat⟩
      if c.weight != 0 && c.entry &&& 3 != 0 then .fault (mf 0x07 0 c.entry)
      else State.readTable sp n (va + 16) (cs ++ [c]) s

/-- The arrival of a rank at a TCALL would complete the round. -/
def Team.lastAt (t : Team) (pool rank : Nat) (arrived : List Nat) : Bool :=
  (t.members pool).all fun r => r == rank || arrived.contains r

/-- Ranks that have arrived at the open round of a pool entry. -/
def Team.arrivedAt (t : Team) (pool : Nat) : List Nat :=
  match t.rounds.find? fun r => r.pool == pool with
  | some rd => rd.arrived.map fun x => x.1
  | none => []

/-- TCALL (R157). The one that completes the round waits for the bank that a spilled frame goes to (R187). -/
def execTcall (d a : SReg) (n : BitVec 4) (sp : Bool) (s : State) : Out :=
  .next (s.sIssue .user [d, a] false fun s =>
    if !s.joined then s
    else if s.barsOf s.cur == 0 then s.raise 0x01
    else s.withFrame fun s =>
      let va := s.sget a
      match State.readTable sp n.toNat va [] s.joinS with
      | .wait t => t
      | .fault f => s.sMemFault f 0 false sp
      | .got cs t =>
        let tm := t.viewOf t.cur
        let pool := tm.poolOf t.cur.rank
        if tm.lastAt pool t.cur.rank (tm.arrivedAt pool) && t.spillWaits tm cs (tm.members pool).length then t.wakeFrames tm
        else t.arrive (.tcall s.cur.s.pc va) 0 d cs sp)

/-! ## TRET (R161, R162) -/

/-- The deferred callee that a finished sub-team takes, from the position its frame holds: the next in table order under FREE;
under RECORD and REPLAY, callee j belongs to the served sub-team j mod s. -/
def Division.takes (d : Division) (free : Bool) (f : Frame) : Option Nat :=
  let k := d.frames.findIdx (· == f.idx)
  (List.range d.deferred.length).find? fun j => decide (f.next.toNat ≤ j) && (free || j % d.frames.length == k)

def State.mapDiv (s : State) (team : Nat) (frame : Nat) (f : Division → Division) : State :=
  s.mapTeam team fun t => { t with divs := mapIf t.divs (fun d => d.frames.contains frame) f }

/-- The division rejoins, a round of its groups (R162). -/
def State.rejoin (s : State) (team : Nat) (d : Division) (ret : Word) : State :=
  match s.team? team with
  | none => s
  | some t =>
    let mine := (s.viewTeam t).frames.filter fun f => d.frames.contains f.idx
    let ranks := (ranksOf t.all).filter fun r => mine.any fun f => f.mask.getLsbD r
    let inherited := (mine.find? fun f => d.frames.head? == some f.idx).map fun f => f.bar.toNat
    let freed := (mine.map fun f => f.bar.toNat).filter fun b => some b != inherited
    let s := (s.meetRound (isRank team ranks)).mapTeam team fun t => { t with
      frames := t.frames.filter fun f => !d.frames.contains f.idx
      pool := t.pool.filter fun b => !freed.contains b
      divs := t.divs.filter fun x => x.frames != d.frames }
    ((ranks.foldl (fun s r => s.release team r (· == .tret) (fun _ => ret) [(0, 0)]) s).beginMove team).boundary team ranks

/-- What finding the table of a division gives: the division, a fault, or a read that has to wait. -/
inductive DivRead
  | got (d : Division) (s : State)
  | fault (f : MemFault)
  | wait (s : State)

/-- The division with the table that a frame names: the one read at the TCALL, unless a program has stored another address, count
or space into the frame, or the team was loaded from an image, and it is read again (R160, R420). Log 39. -/
def State.divisionOf (s : State) (d : Division) (f : Frame) : DivRead :=
  if f.addr == d.addr && f.n == d.n && f.sp == d.sp && d.table.length == f.n.toNat then .got d s
  else match State.readTable f.sp f.n.toNat f.addr [] s with
    | .wait t => .wait t
    | .fault e => .fault e
    | .got cs t =>
      let n := (d.frames.filterMap fun i => ((s.viewOf s.cur).frames.find? fun x => x.idx == i)).foldl
        (fun n x => n + (ranksOf x.mask).length) 0
      let q := quotas n (cs.map Callee.weight)
      let deferred := (List.range cs.length).filter fun i => q.getD i 0 == 0 && (cs.getD i ⟨0, 0, 0⟩).weight != 0
      .got { d with table := cs, deferred := deferred } t

/-- A sub-team whose frame stands in hardware has finished, a round of its groups (R162): it takes a deferred callee, or waits, and the
division may rejoin. As a callee is taken the next byte moves past it: under FREE in every frame of the division, under RECORD and
REPLAY in the frame of the sub-team alone, since R160 does not say in which (log 40). -/
def State.finishSub (s : State) (team : Nat) (d : Division) (f : Frame) : State :=
  let ranks := ranksOf f.mask
  let free := s.isFree s.cur
  let s := s.meetRound (isRank team ranks)
  match d.takes free f with
  | some j =>
    let i := d.deferred.getD j 0
    let s := s.mapDiv team f.idx fun x => { x with order := x.order.filter fun r => !f.mask.getLsbD r }
    let s := s.setNext team (if free then d.frames else [f.idx]) (j + 1)
    let s := s.mapTeam team fun t => { t with frames := mapIf t.frames (fun x => x.idx == f.idx) fun x =>
      { x with callee := BitVec.ofNat 8 i } }
    ((s.enterCallee team ranks (· == .tret) f.argreg (d.table.getD i ⟨0, 0, 0⟩)).beginMove team).boundary team ranks
  | none =>
    let d := { d with finished := d.finished ++ [f.idx] }
    let s := s.mapDiv team f.idx fun x => { x with finished := d.finished }
    if d.frames.all (d.finished.contains ·) then s.rejoin team d f.ret else (s.beginMove team).boundary team ranks

/-- Frames of the division that the finish of one sub-team needs beside its own cannot be read back: those whose next callee moves on,
or all at a rejoin (R160). -/
def State.matesBad (s : State) (team : Nat) (d : Division) (f : Frame) : Bool :=
  let free := s.isFree s.cur
  (match d.takes free f with
   | some _ => free
   | none => d.frames.all fun i => i == f.idx || d.finished.contains i) &&
    (s.team? team).any fun t => t.frames.any fun x => d.frames.contains x.idx && (s.frameAt t x).isNone

/-- TRET (R161). The one that completes its sub-team needs the frames of its division: it waits for their bank, and faults TNEST
where one cannot be read back (R160, R187). -/
def execTret (s : State) : Out :=
  .next (s.sIssue .user [] false fun s =>
    if !s.joined then s
    else s.withFrame fun s =>
      let t := s.viewOf s.cur
      match t.frameOf s.cur.rank with
      | none => s.raise 0x01
      | some f =>
        let d := (t.divs.find? fun d => d.frames.contains f.idx).getD ⟨0xFF, [], [], [f.idx], [], [], 0, 0, false⟩
        let order := d.order ++ [s.cur.rank]
        if f.mask &&& ~~~rankMask order &&& ~~~t.exited == 0 then
          if (t.frames.any fun x => d.frames.contains x.idx && x.slot.isSome) && !s.framesReady t false then s.wakeFrames t
          else match s.joinS.divisionOf d f with
            | .wait u => u
            | .fault e => s.sMemFault e 0 false f.sp
            | .got d u =>
              if u.matesBad t.id d f then s.raise 0x0D
              else ((((u.mapTeam t.id fun t => t.touch f).mapDiv t.id f.idx fun x => { x with order := order }).mapCur fun g =>
                { g with wait := .tret })).finishSub t.id d f
        else (s.mapDiv t.id f.idx fun x => { x with order := order }).joinS.mapCur fun g => { g with wait := .tret })

/-! ## EXIT (R154) -/

/-- The issuing group exits: its register blocks are free, it leaves every participant count. Where that completes a TCALL round, no
arrival does, and the table of the last arrival divides the team (log 39). -/
def State.exitGroup (s : State) : State :=
  let t := s.teamOf s.cur
  let s := (s.mapTeam t.id fun t => { t with exited := t.exited ||| (1#16 <<< s.cur.rank) }).mapCur fun g =>
    { g.leave with blocks := Vector.replicate 32 .off }
  let s := (t.rounds.foldl (fun s r => s.completeRound t.id r.pool) s).completeGbar t.gang
  s.checkParked (s.gridOf s.cur).ctx

/-- The exit of a rank would complete a TCALL round whose division must wait for the bank of a spilled frame (R151, R187). -/
def State.exitSpills (s : State) (t : Team) (rank : Nat) : Bool :=
  t.rounds.any fun rd =>
    match rd.kind with
    | .tcall .. =>
      let rest := (t.members rd.pool).filter (· != rank)
      t.lastAt rd.pool rank (t.arrivedAt rd.pool) && s.spillWaits t rd.table rest.length
    | _ => false

/-- EXIT and HALT wait until the L-stream is idle and st is 0; `last` acts as the group goes. In a callee they fault before that
wait: R154 gives the two no order. Log 111. -/
def State.exitWait (s : State) (last : State → State) : State :=
  if ((s.viewOf s.cur).frameOf s.cur.rank).isSome then s.raise 0x01
  else if !s.cur.lIdle || s.cur.count .st != 0 then s.mapCur fun g => { g with exiting := true }
  else if s.exitSpills (s.viewOf s.cur) s.cur.rank then s.wakeFrames (s.teamOf s.cur)
  else (last s).exitGroup

/-- Log 111. -/
def execExit (s : State) : Out := .next (s.sIssue .user [] false fun s => s.exitWait id)

end Sys2Proof.Machine
end

