-- ==== Sys2Proof/Machine/Launch.lean ====
section
/-! DEFINITION. Launch records, LAUNCH, LAUNCH.W and LWAIT (R142 to R146), the launch controller with its allocation and
placement (R164 to R170, R389, R390), the freeing of teams and gangs (R155), and the retirement of grids (R147). -/

namespace Sys2Proof.Machine

/-! ## Launch records (R142, R143) -/

/-- The record that 128 bytes hold. -/
def launchOf (bs : List Byte) : LaunchRec where
  sbase := wordOf (bs.take 8)
  lbase := wordOf ((bs.drop 8).take 8)
  sentry := BitVec.ofNat 32 (natOfBytes ((bs.drop 16).take 4))
  gx := natOfBytes ((bs.drop 20).take 4)
  gy := natOfBytes ((bs.drop 24).take 4)
  gz := natOfBytes ((bs.drop 28).take 4)
  teams := (bs.getD 32 0).toNat
  groups := (bs.getD 33 0).toNat
  regs := (bs.getD 34 0).toNat
  bars := (bs.getD 35 0).toNat
  tags := (bs.getD 36 0).toNat
  tier := (bs.getD 37 0).toNat
  strict := (bs.getD 38 0).getLsbD 0
  frames := (bs.getD 39 0).toNat
  spbytes := natOfBytes ((bs.drop 40).take 4)
  wdog := wordOf ((bs.drop 48).take 8)
  spill := wordOf ((bs.drop 56).take 8)
  cword := wordOf ((bs.drop 72).take 8)
  args := Vector.ofFn fun i => wordOf ((bs.drop (80 + 8 * i.val)).take 8)

/-- The fields of a record keep the limits of R142; `flags` and `zero` are its reserved bits. -/
def LaunchRec.wellFormed (r : LaunchRec) (flags : Byte) (zero : Bool) : Bool :=
  r.sbase &&& 3 == 0 && r.lbase &&& 3 == 0 && r.sentry &&& 3 == 0 &&
    1 ≤ r.gx && 1 ≤ r.gy && 1 ≤ r.gz && r.gx * r.gy * r.gz ≤ 2 ^ 20 &&
    1 ≤ r.teams && r.teams ≤ 4 && 1 ≤ r.groups && r.groups ≤ 16 && r.regs ≤ 5 && r.bars ≤ 32 && r.tags ≤ 16 &&
    r.tier ≤ 3 && flags &&& 0xFE == 0 && r.frames ≤ 32 && r.spbytes % 8192 == 0 && r.spbytes ≤ 393216 &&
    32 * r.frames ≤ r.spbytes && zero && r.spill &&& 31 == 0 && r.cword &&& 7 == 0

/-- Cores of a partition, ascending. -/
def State.coresOf (s : State) (part : Nat) : List Nat :=
  (List.range 192).filter fun c => (s.part part).clusters.getLsbD (clusterOf c)

/-- ACTIVE tags that a context owns on a core. -/
def CoreState.ownedTags (c : CoreState) (ctx : Nat) : List Nat :=
  (List.range 16).filter fun i => (look c.tags i .free).st == TagState.active && (look c.tags i .free).ctx.toNat == ctx

/-- A record is valid for a context (R143). -/
def State.launchValid (s : State) (c : Ctx) (bs : List Byte) : Bool :=
  let r := launchOf bs
  r.wellFormed (bs.getD 38 0) (((bs.drop 44).take 4).all (· == 0)) && c.tierMax ≤ r.tier &&
    (r.tags == 0 || (s.coresOf c.part).any fun k => r.tags ≤ ((s.core k).ownedTags c.id).length)

/-- Read the 128 bytes of a record: two lines, read as loads (R145). A line whose level changes makes the read wait (R393). -/
def State.readRecord (s : State) (va : Word) : (MemFault ⊕ List Byte) × State :=
  let t := s.checkRange .read va 128 128
  match t.res with
  | .inl f => (.inl f, t.st)
  | .inr pa =>
    if t.st.levelHeld pa || t.st.levelHeld (pa + 64) then (.inl (stall va), t.st)
    else match [0, 64].findSome? fun o => (t.st.readErr s.myPort (s.ctxOf s.cur).world (pa + o)).map fun e => (e, o) with
    | some ((code, cause), o) => (.inl ⟨code, cause, va, BitVec.ofNat 64 (pa + o)⟩, t.st)
    | none => (.inr (t.st.memRead pa 128), t.st)

/-! ## LAUNCH, LAUNCH.W, LWAIT (R144 to R146) -/

/-- Quadrant of the issuing core. -/
def State.myQuad (s : State) : Nat := quadOf (s.coreOf s.cur)

/-- The issuing group waits at its quadrant's store, for an entry to free where the store is full, and otherwise for the trail alone.
Entries that freed before any of its quadrant waited for one are not for it (R146). -/
def State.queueUp (s : State) (full : Bool) (w : SWait) : State :=
  let q := s.myQuad
  let first := full && !(s.waiters.any fun x => x.quad == q && x.full)
  { s with
    waiters := s.waiters ++ [(⟨q, s.cur.uid, full⟩ : Waiter)]
    freed := if first then put s.freed q 0 else s.freed }.mapCur fun g => { g with wait := w }

/-- LAUNCH and LAUNCH.W once the record is read. Under RECORD and REPLAY a LAUNCH.W is admitted in its turn (R382). Log 26. -/
def State.takeLaunch (s : State) (wait : Bool) (d : SReg) (rec : LaunchRec) : State :=
  let q := s.myQuad
  if !wait then
    if 64 ≤ s.pendingIn q then (s.sput d 2).nextPc 8
    else
      let gr := s.gridOf s.cur
      ((s.enqueue gr.ctx rec (some gr.id) (gr.depth + 1) q (s.coreOf s.cur) false).sput d 0).nextPc 8
  else
    let c := s.launchChoice q s.cur
    match s.trailAsk c with
    | .fault => s.sMemFault (mf 0x06 18 (BitVec.ofNat 64 q)) 0 false false
    | .wait => s.queueUp false (.launch rec d)
    | .go r =>
      if 64 ≤ s.pendingIn q then s.queueUp true (.launch rec d)
      else
        let gr := s.gridOf s.cur
        (((s.enqueue gr.ctx rec (some gr.id) (gr.depth + 1) q (s.coreOf s.cur) false).trailMark c r none).sput d 0).nextPc 8

/-- LAUNCH and LAUNCH.W (R145). The group's stores come first (R148). Log 112. -/
def State.launch (s : State) (wait : Bool) (d a : SReg) : State :=
  s.sIssue .user [d, a] false fun s =>
    if s.storesBefore false 0 then s
    else s.withFrame fun s =>
    if (s.viewOf s.cur).gidOf s.cur.rank != 0 then s.raise 0x01
    else if 10 ≤ (s.gridOf s.cur).depth then s.raise 0x12
    else
      let r := s.readRecord (s.sget a)
      match r.1 with
      | .inl f => s.sGlobalFault r.2 f 0 false
      | .inr bs =>
        if !r.2.launchValid (s.ctxOf s.cur) bs then (r.2.sput d 1).nextPc 8
        else r.2.takeLaunch wait d (launchOf bs)

def execLaunch (d a : SReg) (s : State) : Out := .next (s.launch false d a)
/-- Log 26. -/
def execLaunchW (d a : SReg) (s : State) : Out := .next (s.launch true d a)

/-- LWAIT (R144). Log 26. -/
def execLwait (s : State) : Out :=
  .next (s.sIssue .user [] false fun s =>
    let q := s.myQuad
    let c := s.launchChoice q s.cur
    match s.trailAsk c with
    | .fault => s.sMemFault (mf 0x06 18 (BitVec.ofNat 64 q)) 0 false false
    | .wait => s.queueUp false .lwait
    | .go r => if 64 ≤ s.pendingIn q then s.queueUp true .lwait else (s.trailMark c r none).nextPc 8)

/-- A context that CTXCMD created and no work has entered yet: it is EMPTY (R411), and it starts in RUN (R328). One that owes an ANSWER
does not (R376). Log 130. -/
def Ctx.unstarted (c : Ctx) : Bool :=
  c.st == .empty && c.nextGrid == 0 && c.counter == 0 && !c.struck && c.challenge.isNone

/-- The first root grid of a context starts it in RUN. Log 130. -/
def State.startCtx (s : State) (c : Ctx) : State := if c.unstarted then s.mapCtx c.id fun c => { c with st := .run } else s

/-- ROOT_GRID_SUBMIT (R145, R307): the record is read for the context at SUPER, through the TLBs of the quadrant's first core. An
invalid record, a full store or a fault enqueues nothing. Only the physical function, number 0, reaches the management interface
(R369). It comes from the host link or from firmware (R1). No rule names the quadrant whose store takes the entry: the event brings
it, and the controller serves it there even where no cluster of the partition stands. Log 130, 131. -/
def execRootGridSubmit (r : RootGrid) (s : State) : Out :=
  .next (match s.ctx? r.ctx with
    | none => s
    | some c =>
      if r.fn != 0 || (r.src != 256 && r.src != 281) || (c.st == .empty && !c.unstarted) || 4 ≤ r.quad || 64 ≤ s.pendingIn r.quad || r.addr.toNat % 128 != 0 then s
      else
        let a := s.ctxRead (48 * r.quad) c .super .read r.addr 64
        let b := a.2.ctxRead (48 * r.quad) c .super .read (r.addr + 64) 64
        match a.1, b.1 with
        | .inr x, .inr y =>
          if b.2.launchValid c (x ++ y) then (b.2.startCtx c).enqueue c.id (launchOf (x ++ y)) none 1 r.quad r.src r.sup else b.2
        | _, _ => b.2)

/-! ## Allocation (R166 to R168) -/

/-- Buddy allocation of 2^j units out of 64 (R167): the lowest free run of the smallest size that has one. -/
def buddyPick (used : Nat → Bool) (j : Nat) : Option Nat :=
  let free := fun (at' n : Nat) => (List.range n).all fun i => !used (at' + i)
  (List.range (7 - j)).findSome? fun d =>
    let k := j + d
    let n := 2 ^ k
    ((List.range (2 ^ (6 - k))).find? fun i => free (i * n) n && (k == 6 || !free (i / 2 * (2 * n)) (2 * n))).map (· * n)

/-- Groups that hold a slot on a core. -/
def State.groupsOn (s : State) (core : Nat) : List Group :=
  s.groups.filter fun g => g.status != .exited && s.coreOf g == core

/-- A PENDING thermal move reserves resources on a core (R345). -/
def State.reserves (s : State) (core : Nat) : Bool := s.dev.tmig == .pending && s.dev.tcore == core

/-- Slots and register runs taken on a core: issue unit, slot, first block, blocks. -/
def State.runsOn (s : State) (core : Nat) : List (Nat × Nat × Nat × Nat) :=
  let n := ((s.groups.find? fun g => g.team == s.dev.tteam).map fun g => g.nregs / 8).getD 0
  ((s.groupsOn core).map fun g => (g.iu, g.slot, g.block, g.nregs / 8)) ++
    (if s.reserves core then s.dev.tres.map fun x => (x.1, x.2.1, x.2.2, n) else [])

/-- Slot and run of one group: the lowest issue unit with a free slot and a free run; slot 12 iu + i is slot i of unit
iu. -/
def pickRun (taken : List (Nat × Nat × Nat × Nat)) (regs : Nat) : Option (Nat × Nat × Nat) :=
  (List.range 8).findSome? fun iu =>
    let slot := (List.range 12).find? fun i => !(taken.any fun x => x.2.1 == 12 * iu + i)
    let run := buddyPick (fun b => taken.any fun x => x.1 == iu && decide (x.2.2.1 ≤ b) && decide (b < x.2.2.1 + x.2.2.2)) regs
    match slot, run with
    | some i, some b => some (iu, 12 * iu + i, b)
    | _, _ => none

/-- The groups of a team take issue units in rank order. -/
def pickRuns (regs : Nat) : Nat → List (Nat × Nat × Nat × Nat) → Option (List (Nat × Nat × Nat))
  | 0, _ => some []
  | n + 1, taken =>
    (pickRun taken regs).bind fun x =>
      (pickRuns regs n ((x.1, x.2.1, x.2.2, 2 ^ regs) :: taken)).map fun xs => x :: xs

/-- Units that a window of n banks takes (R168). -/
def windowUnits (n : Nat) : Nat :=
  if n == 0 then 0 else if 32 < n then 48 else 2 ^ (((List.range 6).find? fun j => decide (n ≤ 2 ^ j)).getD 5)

/-- First bank of a window of n banks on a core (R168). On a core that holds no window it is bank 0, the lowest free run as R404 has
it; R168's own table of runs would begin at bank 32. Log 139. -/
def State.pickWindow (s : State) (core n : Nat) (others : List (Nat × Nat)) : Option Nat :=
  let held := ((s.teams.filter fun t => t.core == core && t.units != 0).map fun t => (t.base, t.units)) ++ others
  if n == 0 then some 0
  else if held.isEmpty then some 0
  else if 32 < n then none
  else buddyPick (fun u => 48 ≤ u || held.any fun x => decide (x.1 ≤ u) && decide (u < x.1 + x.2)) (Nat.log2 (windowUnits n))

/-- What a team takes on its core. -/
structure Placed where
  core   : Nat
  groups : List (Nat × Nat × Nat)
  base   : Nat
  bars   : List Nat
  tags   : BitVec 16
  deriving DecidableEq, Repr

/-- Barriers taken on a core. -/
def State.barsOn (s : State) (core : Nat) : List Nat :=
  ((s.teams.filter fun t => t.core == core).flatMap Team.bars) ++ (if s.reserves core then s.dev.tbars else [])

/-- Tags of a core that a live team holds. -/
def State.tagsHeld (s : State) (core : Nat) : BitVec 16 :=
  (s.teams.filter fun t => t.core == core).foldl (fun m t => m ||| t.tags) 0

/-- A team of a record fits on a core (R166). -/
def State.fit (s : State) (core ctx : Nat) (r : LaunchRec) : Option Placed :=
  let move := if s.reserves core then
      match s.team? s.dev.tteam with
      | some t => if t.units == 0 then [] else [(s.dev.tbase, t.units)]
      | none => []
    else []
  match pickRuns r.regs r.groups (s.runsOn core), s.pickWindow core (r.spbytes / 8192) move with
  | some gs, some base =>
    let bars := ((List.range 32).filter fun b => !((s.barsOn core).contains b)).take r.bars
    let tags := (((s.core core).ownedTags ctx).filter fun i => !(s.tagsHeld core).getLsbD i).take r.tags
    if bars.length == r.bars && tags.length == r.tags then some ⟨core, gs, base, bars, rankMask tags⟩ else none
  | _, _ => none

/-! ## Placement (R165, R170, R389, R390) -/

/-- A gang barrier of a cluster, where the gang needs one. -/
def State.gangBar (s : State) (cluster nteams : Nat) : Option (Option Nat) :=
  if nteams ≤ 1 then some none
  else ((List.range 8).find? fun b => !(s.gangs.any fun g => g.cluster == cluster && g.bar == some b)).map some

/-- Where the next gang of a grid goes: its number, position, cluster, barrier, and a place for each team. -/
def State.placeGang (s : State) (gr : Grid) (part : Nat) : Option (Nat × Nat × Nat × Option Nat × List Placed) :=
  let r := gr.launch
  let p := s.part part
  let clusters := (List.range 48).filter fun c => p.clusters.getLsbD c
  if p.mode == 0 then
    clusters.findSome? fun c =>
      let ps := ((List.range 4).filterMap fun i => s.fit (4 * c + i) gr.ctx r).take r.teams
      if ps.length < r.teams then none else (s.gangBar c r.teams).map fun b => (gr.next, 0, c, b, ps)
  else
    match clusters[gr.next % clusters.length]? with
    | none => none
    | some c =>
      let ps := (List.range r.teams).filterMap fun i => s.fit (4 * c + i) gr.ctx r
      if ps.length < r.teams then none else (s.gangBar c r.teams).map fun b => (r.gangAt gr.next, gr.next, c, b, ps)

/-- The next ticket of a partition (R153): past 0 and every live gang's. -/
def nextTicket (live : List Word32) : (fuel : Nat) → Word32 → Word32
  | 0, t => t
  | n + 1, t => let u := t + 1; if u == 0 || live.contains u then nextTicket live n u else u

/-- Partition of a gang. -/
def State.partOfGang (s : State) (g : Gang) : Nat :=
  (((s.grid? g.grid).bind fun gr => s.ctx? gr.ctx).map Ctx.part).getD 0

def State.drawTicket (s : State) (part : Nat) : Word32 × State :=
  let live := (s.gangs.filter fun g => s.partOfGang g == part).map Gang.ticket
  let t := nextTicket live (live.length + 2) (s.part part).tickets
  (t, s.mapPart part fun p => { p with tickets := t })

/-- A group at its start (R10, R142, R307). -/
def startGroup (gr : Grid) (uid team rank : Nat) (x : Nat × Nat × Nat) : Group :=
  let args := (List.range 6).foldl (fun v i => put v i (look gr.launch.args i 0)) SState.start.regs
  { Group.start with
    uid := uid, team := team, rank := rank, iu := x.1, slot := x.2.1, block := x.2.2, nregs := 8 * 2 ^ gr.launch.regs
    level := if gr.ctx == 0 then .mach else if gr.sup then .super else .user
    s := { SState.start with regs := args, pc := gr.launch.sbase + gr.launch.sentry.setWidth 64 } }

/-- The banks of a window at its dispatch and after its end: OFF, with no content and no mark (R168, R187). -/
def State.clearWindow (s : State) (core base units : Nat) : State :=
  { s with sp := s.sp.clear (core * 2 ^ 19 + base * 8192) (core * 2 ^ 19 + (base + units) * 8192) }.mapCore core fun c =>
    { c with
      banks := Vector.ofFn fun i => if base ≤ i.val && i.val < base + units then .off else c.banks[i]
      poison := c.poison.filter fun w => !(base ≤ w / 1024 && w / 1024 < base + units) }

/-- Dispatch one team of a gang. -/
def State.startTeam (s : State) (gr : Grid) (gang rank : Nat) (p : Placed) : State :=
  let r := gr.launch
  let id := s.nextId
  let t : Team := ⟨id, gang, rank, p.core, p.core, p.base, windowUnits (r.spbytes / 8192), r.spbytes, r.groups, 0, p.bars, [],
    p.tags, r.frames, [], [], [], false⟩
  let gs := (p.groups.zipIdx).map fun x => startGroup gr (id + 1 + x.2) id x.2 x.1
  { s with nextId := id + 1 + r.groups, teams := s.teams ++ [t], others := s.others ++ gs }.clearWindow p.core p.base t.units

/-- Dispatch a gang whole (R164). -/
def State.dispatchGang (s : State) (gr : Grid) (part num pos cluster : Nat) (bar : Option Nat) (ps : List Placed) : State :=
  let r := gr.launch
  let tk := s.drawTicket part
  let s := tk.2
  let id := s.nextId
  let g : Gang := ⟨id, gr.id, num, num % r.gx, num / r.gx % r.gy, num / (r.gx * r.gy), r.teams, cluster, tk.1, bar, [], pos,
    false⟩
  let s := { s with nextId := id + 1, gangs := s.gangs ++ [g] }
  let s := (ps.zipIdx).foldl (fun s x => s.startTeam gr id x.2 x.1) s
  let last := gr.next + 1 == r.gx * r.gy * r.gz
  let s := s.mapGrid gr.id fun x => { x with next := x.next + 1, pending := !last }
  if last then s.entryFreed gr.quad else s

/-- The pending grids of a partition in the order of the controller: tier, then admission (R165). -/
def State.pendingGrids (s : State) (part : Nat) : List Grid :=
  let mine := s.grids.filter fun g =>
    g.pending && g.ending.isNone && ((s.ctx? g.ctx).any fun c => c.part == part && c.st == .run)
  let le := fun (a b : Grid) =>
    decide (a.launch.tier < b.launch.tier) || (a.launch.tier == b.launch.tier &&
      (decide (a.atime < b.atime) || (a.atime == b.atime && decide (a.asrc ≤ b.asrc))))
  mine.mergeSort le

/-- GANG_DISPATCH: the launch controller dispatches the first gang of its loop that fits (R164, R165). -/
def execGangDispatch (part : Nat) (s : State) : Out :=
  .next (match (s.pendingGrids part).findSome? fun gr => (s.placeGang gr part).map fun x => (gr, x) with
    | none => s
    | some (gr, num, pos, cluster, bar, ps) => s.dispatchGang gr part num pos cluster bar ps)

/-! ## The end of teams, gangs and grids -/

/-- A gang retires: its barrier and ticket are free (R155). -/
def State.retireGang (s : State) (g : Gang) : State :=
  { s with gangs := s.gangs.filter fun x => x.id != g.id }.mapGrid g.grid fun x => { x with retired := x.retired + 1 }

/-- Under RECORD and REPLAY freed gangs retire in curve order (R170). -/
def State.retireFreed (grid : Nat) : (fuel : Nat) → State → State
  | 0, s => s
  | n + 1, s =>
    match s.grid? grid with
    | none => s
    | some gr =>
      match s.gangs.find? fun g => g.grid == grid && g.freed && (g.pos == gr.retired) with
      | none => s
      | some g => State.retireFreed grid n (s.retireGang g)

/-- Step out of a team that is going: another group of the device becomes the issuing one, where there is one. -/
def State.leaveTeam (s : State) (team : Nat) : State :=
  let s := if s.cur.team == team then
      match s.others.find? fun g => g.team != team with
      | some g => s.focus g.uid
      | none => s
    else s
  { s with others := s.others.filter fun g => g.team != team }

/-- Every group of a team has exited, with its stores performed, and its commands have completed (R155). -/
def State.teamDone (s : State) (t : Team) : Bool :=
  (s.groups.all fun g => g.team != t.id || (g.status == .exited && g.accs.isEmpty)) &&
    !(s.copies.any fun c => c.team == t.id) && !(s.cmds.any fun c => c.team == t.id)

/-- The gang of a freed team is freed with its last team (R155, R170). -/
def State.freeGang (s : State) (gang : Nat) : State :=
  match s.gang? gang with
  | none => s
  | some g =>
    if s.teams.any fun t => t.gang == gang then s
    else if (s.part (s.partOfGang g)).mode == 0 then s.retireGang g
    else State.retireFreed g.grid (s.gangs.length + 1) (s.mapGang gang fun g => { g with freed := true })

/-- Free a team's window, barriers, tags and step entries (R155, R187, R397); a PENDING move of it is cancelled. Log 83, 111. -/
def State.freeTeam (s : State) (t : Team) : State :=
  let s := if s.dev.tmig == .pending && s.dev.tteam == t.id then { s with dev := { s.dev with tmig := .cancelled } } else s
  let s := ({ s with teams := s.teams.filter fun x => x.id != t.id }.leaveTeam t.id).clearWindow t.core t.base t.units
  (s.freeSteps t.id).freeGang t.gang

/-- TEAM_FREE (R155, R187). The team of machine firmware stays. Log 111. -/
def execTeamFree (team : Nat) (s : State) : Out :=
  .next (match s.team? team with
    | none => s
    | some t => if s.teamDone t && t.gang != 0 then s.freeTeam t else s)

/-- The completion word (R147). -/
def Ending.word (e : Ending) : Word :=
  BitVec.ofNat 64 (e.outcome.toNat + 2 ^ 8 * e.code.toNat + 2 ^ 16 * (e.rank % 16) + 2 ^ 20 * (e.tid % 4) + 2 ^ 24 * (e.gang % 2 ^ 20))

/-- Write a grid's completion word as a store of its context, or queue the record of its failure (R147): the translation comes before
the range locks (R193). Log 109. -/
def State.writeCompletion (s : State) (gr : Grid) : State :=
  match s.ctx? gr.ctx with
  | none => s
  | some c =>
    if gr.launch.cword == 0 then s
    else
      let core := 48 * gr.quad
      let w := (gr.ending.getD ⟨0, 0, 0, 0, 0⟩).word
      let lvl : Level := if gr.sup then .super else .user
      let fail := fun (s : State) (f : MemFault) =>
        s.queueRecord core c.id ⟨f.code, f.cause, 0xFF, 0x22, 0xFF, 0, c.id, gr.launch.cword, 0, gr.num, 0,
          if f.code == 0x0A then f.pa else 0, 0⟩
      let t := s.ctxPa core c lvl .write gr.launch.cword
      match t.res with
      | .inl f => fail t.st f
      | .inr _ =>
        if t.st.globalLocked c.id gr.launch.cword 8 then fail t.st (mf 0x08 0 gr.launch.cword)
        else
          let r := t.st.ctxWrite core c lvl gr.launch.cword (bytesOf 8 w.toNat)
          match r.1 with
          | none => r.2
          | some f => fail r.2 f

/-- A grid may retire: no gang of it is left to dispatch or to retire, and its children have retired (R147). -/
def State.gridDone (s : State) (gr : Grid) : Bool :=
  (gr.ending.isSome || gr.next == gr.launch.gx * gr.launch.gy * gr.launch.gz) &&
    !(s.gangs.any fun g => g.grid == gr.id) && !(s.grids.any fun x => x.parent == some gr.id)

/-- GRID_RETIRE (R147). -/
def execGridRetire (grid : Nat) (s : State) : Out :=
  .next (match s.grid? grid with
    | none => s
    | some gr =>
      if s.gridDone gr && gr.id != 0 then
        { s.writeCompletion gr with grids := (s.writeCompletion gr).grids.filter fun x => x.id != grid }
      else s)

/-! ## The compactor (R169) -/

/-- A range lock names a byte of the window: every copy or drain that writes it holds one (R262). -/
def State.windowBusy (s : State) (t : Team) : Bool := s.locks.any fun l => l.space == Space.window t.core t.base

/-- Owners of a window: the groups of its team. -/
def State.teamGroups (s : State) (team : Nat) : List Nat :=
  (s.groups.filter fun g => g.team == team && g.status != .exited).map Group.uid

/-- Move the bytes, bank states and marks of a window to a new first bank of the same core. Log 44. -/
def State.moveWindow (s : State) (t : Team) (dest : Nat) : State :=
  let at0 := t.core * 2 ^ 19 + t.base * 8192
  let bytes := s.sp.filter fun c => at0 ≤ c.1 && c.1 < at0 + t.units * 8192
  let core := s.core t.core
  let states := (List.range t.units).map fun i => look core.banks (t.base + i) .off
  let marks := (core.poison.filter fun w => t.base ≤ w / 1024 && w / 1024 < t.base + t.units).map fun w => w + 1024 * dest - 1024 * t.base
  let s := s.clearWindow t.core t.base t.units
  let s := { s with sp := bytes.foldl (fun (m : Cells) (c : Host.Cell) => m.set (c.1 + dest * 8192 - t.base * 8192) c.2) s.sp }
  let s := s.mapCore t.core fun c => { c with
    banks := states.zipIdx.foldl (fun (v : Vector Supply 48) (x : Supply × Nat) => put v (dest + x.2) x.1) c.banks
    poison := c.poison ++ marks }
  s.mapTeam t.id fun t => { t with base := dest }

/-- Units of a core that neither another window nor a PENDING move holds. -/
def State.unitsFree (s : State) (core except at' n : Nat) : Bool :=
  let held := ((s.team? s.dev.tteam).map Team.units).getD 0
  decide (at' + n ≤ 48) &&
    (!s.reserves core || held == 0 || decide (at' + n ≤ s.dev.tbase) || decide (s.dev.tbase + held ≤ at')) && (s.teams.all fun t => t.core != core || t.id == except || t.units == 0 ||
    decide (at' + n ≤ t.base) || decide (t.base + t.units ≤ at'))

/-- A move of a live register run within its issue unit, or of a window within its core, to free and aligned units: the state
after it. -/
def State.moveTo (s : State) (core : Nat) : MoveSpec → Option State
  | .regs uid dest =>
    (s.group? uid).bind fun g =>
      let n := g.nregs / 8
      let clash := ((s.runsOn core).erase (g.iu, g.slot, g.block, n)).any fun x =>
        x.1 == g.iu && decide (x.2.2.1 < dest + n) && decide (dest < x.2.2.1 + x.2.2.2)
      if g.status == .exited || s.coreOf g != core || dest == g.block || dest % n != 0 || 64 < dest + n || clash then none
      else some (s.mapGroup uid fun g => { g with block := dest })
  | .window team dest =>
    (s.team? team).bind fun t =>
      if t.core != core || t.units == 0 || t.units == 48 || dest == t.base || dest % t.units != 0 ||
          !s.unitsFree core team dest t.units then none
      else some (s.moveWindow t dest)

/-- Every move of a run of a core that can be named. -/
def State.movesOn (s : State) (core : Nat) : List (Nat × MoveSpec) :=
  ((s.groupsOn core).flatMap fun g => (List.range 64).map fun b => (core, MoveSpec.regs g.uid b)) ++
    (s.teams.filter fun t => t.core == core).flatMap fun t => (List.range 48).map fun b => (core, MoveSpec.window t.id b)

/-- Some sequence of at most n moves on the cores of a partition makes a gang fit. -/
def State.fitsWithin (part : Nat) (gr : Grid) : Nat → State → Bool
  | 0, s => (s.placeGang gr part).isSome
  | n + 1, s => (s.placeGang gr part).isSome || ((s.coresOf part).flatMap s.movesOn).any fun m =>
      match s.moveTo m.1 m.2 with
      | some t => State.fitsWithin part gr n t
      | none => false

/-- The next state is one move nearer to a gang that does not fit only because of fragmentation: the move begins a shortest
sequence (R169). No core has more than 144 runs, and the search ends at four times as many moves. Log 44. -/
def State.nearer (s t : State) : Bool :=
  (List.range 16).any fun p => (s.pendingGrids p).any fun gr =>
    (List.range 2304).any fun n => !State.fitsWithin p gr n s && State.fitsWithin p gr n t

/-- The groups that own the run of a move. -/
def State.ownersOf (s : State) : MoveSpec → List Nat
  | .regs uid _ => [uid]
  | .window team _ => s.teamGroups team

/-- The run of a move is a window in use (R169). -/
def State.moveBusy (s : State) : MoveSpec → Bool
  | .regs .. => false
  | .window team _ => (s.team? team).any s.windowBusy

/-- COMPACTOR_MOVE (R169): a gang does not fit only because of fragmentation, and the first move of a shortest sequence that makes
it fit begins. The owners of the run issue nothing until the move ends. Log 44. -/
def execCompactorMove (core : Nat) (what : MoveSpec) (s : State) : Out :=
  let due := s.cyclesOf core + 512
  .next (match s.moveTo core what with
    | none => s
    | some t =>
      if (s.core core).compact.isSome || s.moveBusy what || !s.nearer t then s
      else t.mapCore core fun c => { c with compact := some ⟨due, s.ownersOf what⟩ })

/-- COMPACTOR_MOVE_END (R169): at any time up to 512 cycles after the move began. -/
def execCompactorMoveEnd (core : Nat) (s : State) : Out := .next (s.mapCore core fun c => { c with compact := none })

end Sys2Proof.Machine
end

