-- ==== Sys2Proof/Machine/Resp.lean ====
section
/-! DEFINITION. The responses of accesses in flight: reads and atomics answered, exact faults found after issue, stores
performed or refused, and peer accesses at their target core (R181, R184, R193 to R195, R206, R216, R217). -/

namespace Sys2Proof.Machine

/-! ## Requests of an access, one by one -/

/-- Replace request i of an access. -/
def Group.setReq (g : Group) (seq i : Nat) (r : Req) : Group :=
  { g with accs := mapIf g.accs (fun a => a.seq == seq) fun a => { a with reqs := a.reqs.set i r } }

/-- Let request i of an access of the issuing group act, unless it is already known. -/
def State.atReq (s : State) (seq i : Nat) (f : State → Access → Req → State × Req) : State :=
  match s.cur.acc? seq with
  | none => s
  | some a =>
    match a.reqs[i]? with
    | none => s
    | some r => if r.known then s else
      let x := f s a r
      x.1.mapCur fun g => g.setReq seq i x.2

/-- Let a free choice of the requests of an access act, in ascending order (R225). `rep` names the request whose choice
each follows. Log 113. -/
def State.someReqs (s : State) (a : Access) (rep : Nat → Nat) (f : State → Access → Req → State × Req) : State :=
  let p := s.pick a.reqs.length
  (List.range a.reqs.length).foldl (fun s i => if p.1 (rep i) then s.atReq a.seq i f else s) p.2

/-- Two requests to memory meet. -/
def State.reqsMeet (s : State) (r q : Req) : Bool := meets (s.place r.pa) r.size (s.place q.pa) q.size

/-- An access of the group that comes before another, and satisfies a test, has a request to memory still unknown on the same
bytes, or a store of another group that a round puts before it is still to be performed there (R14, R15, R152). -/
def State.olderMeets (s : State) (a : Access) (r : Req) (p : Access → Req → Bool) : Bool :=
  (s.cur.accs.any fun b =>
    a.prior.contains b.seq && !b.peer && (b.reqs.any fun q => !q.known && p b q && s.reqsMeet r q)) ||
    s.othersMeet s.cur a.seq r.pa r.size

/-- Level 2 may hold a line of host memory that was read (R370). -/
def State.holdHost (s : State) (pa : Nat) : State :=
  if targetOf pa == Target.host && !s.hostLines.contains (pa / 64) then { s with hostLines := pa / 64 :: s.hostLines } else s

/-- World of the issuing group's context. -/
def State.worldOf (s : State) : Byte := (s.ctxOf s.cur).world

/-! ## Reads and atomics on memory -/

/-- A read of one lane is answered: after every access before it that awaits a value on the same bytes, and over the group's own
stores before it (R14, R15, R194, R225). Log 36. -/
def State.answerRead (s : State) (a : Access) (r : Req) : State × Req :=
  if s.levelHeld r.pa || unordered (s.storesOn s.cur a.prior r.pa r.size) then (s, r)
  else if s.olderMeets a r fun b q => b.valued || (s.writeErr s.myPort s.worldOf q.pa false).isSome then (s, r)
  else match s.readErr s.myPort s.worldOf r.pa with
    | some e => (s, { r with err := some e })
    | none => (s.holdHost r.pa, { r with ans := some (wordOf (s.readOver s.cur a.prior r.pa r.size)) })

/-- An access that writes waits for the level of its line, for what comes before it on the same bytes, and for what its order and
the fences put before it (R15, R191, R208, R393). -/
def State.writeHeld (s : State) (a : Access) (r : Req) : Bool :=
  s.levelHeld r.pa || s.olderMeets a r (fun _ _ => true) || s.needsOut a

/-- The atomic of one lane is performed, when its order and the trail let it (R201, R206, R384, R385). -/
def State.answerAtomic (s : State) (a : Access) (r : Req) : State × Req :=
  if s.writeHeld a r then (s, r)
  else match s.readErr s.myPort s.worldOf r.pa with
    | some e => (s, { r with err := some e })
    | none =>
      let device := targetOf r.pa == Target.device
      let c := s.atomChoice s.cur a r
      match (if device then s.trailAsk c else .go none) with
      | .wait => (s, r)
      | .fault => (s, { r with err := some (0x06, 18) })
      | .go t =>
        let old := wordOf (s.memRead r.pa r.size)
        let s1 := match (a.kind.atomic r old).1 with
          | some v => s.memWrite s.worldOf r.pa (bytesOf r.size v.toNat)
          | none => s
        (if device then s1.trailMark c t none else s1, { r with ans := some old })

/-! ## Queue operations (R213 to R215) -/

/-- The choice of a queue operation (R382). -/
def State.queueChoice (s : State) (put : Bool) (r : Req) : Choice :=
  s.choiceOf s.cur 2 put false 255 (if targetOf r.pa == Target.device then 192 + sliceOf r.pa else Config.hostQueueSource) r.va

/-- QPUT writes the entry before the tail counts it (R214). -/
def State.putEntry (s : State) (a : Access) (r : Req) (q : Queue) (c : Choice) (x : Option (Nat × List Byte)) : State × Req :=
  let ea := q.entry q.tail
  let t := s.checkGlobal .write ea 8
  let w := s.worldOf
  match t.res with
  | .inl f => if f.code == 0 then (s, r) else (t.st, { r with va := ea, pa := f.pa.toNat, err := some (f.code, f.cause) })
  | .inr ep =>
    if t.st.writeHeld a (reqOf 255 ea ep 8 0 0) then (s, r)
    else match t.st.writeErr s.myPort w ep false with
      | some e => (t.st, { r with va := ea, pa := ep, err := some e })
      | none =>
        let s := (t.st.memWrite w ep (bytesOf 8 r.data.toNat)).memWrite w r.pa (bytesOf 8 (q.tail + 1).toNat)
        ((s.trailMark c x (some (false, q.tail.toNat))).appended r.va, { r with ans := some 0 })

/-- QTAKE takes the entry at the head (R214). -/
def State.takeEntry (s : State) (r : Req) (q : Queue) (c : Choice) (x : Option (Nat × List Byte)) : State × Req :=
  let s := s.memWrite s.worldOf (r.pa + 8) (bytesOf 8 (q.head + 1).toNat)
  (s.trailMark c x (some (false, q.head.toNat)), { r with ans := some (q.entry q.head) })

/-- What a queue operation comes to in its turn. -/
def State.queueTurn (s : State) (put : Bool) (r : Req) (q : Queue) : QueueAct :=
  let c := s.queueChoice put r
  let replay := !s.isFree s.cur && (s.part c.part).mode == 2
  queueAct (s.trailAsk c) replay (q.can put replay) (if put then q.tail else q.head)

/-- A queue operation is performed: its descriptor, its turn, and its outcome (R214, R384 to R387). Log 24, 42. -/
def State.answerQueue (s : State) (put : Bool) (a : Access) (r : Req) : State × Req :=
  if s.writeHeld a r then (s, r)
  else match s.readErr s.myPort s.worldOf r.pa with
    | some e => (s, { r with err := some e })
    | none =>
      match queueOf (s.memRead r.pa 64) with
      | none => (s, { r with err := some (0x06, 9) })
      | some q =>
        let c := s.queueChoice put r
        match s.queueTurn put r q with
        | .wait => (s, r)
        | .fault => (s, { r with err := some (0x06, 18) })
        | .empty x => (s.trailMark c x (some (true, (if put then q.tail else q.head).toNat)), { r with ans := some (if put then 1 else 0) })
        | .act x => if put then s.putEntry a r q c x else s.takeEntry r q c x

/-! ## The end of an access that awaits values -/

/-- The value a known request gives its lane. -/
def AccKind.laneValue (k : AccKind) (r : Req) : Word32 := (k.extend (r.ans.getD 0)).setWidth 32

/-- Lanes answered with a value. -/
def Access.answeredLanes (a : Access) : Mask := maskOf ((a.reqs.filter fun r => r.ans.isSome).map Req.lane)

/-- The register image of the requests of one register. -/
def Access.image (a : Access) (first : Nat) : VReg :=
  Vector.ofFn fun i =>
    match a.reqs.find? fun r => r.lane == first + i.val with
    | some r => a.kind.laneValue r
    | none => 0

/-- Write the destination of an access into a group: all its lanes, or the lanes answered. -/
def Access.deliver (a : Access) (g : Group) : Group :=
  match a.kind with
  | .load .. | .satom .. | .queue _ =>
    match a.reqs with
    | r :: _ => { g with s := g.s.put (a.dest.setWidth 7) (a.kind.extend (r.ans.getD 0)) }
    | [] => g
  | .vblk n | .drain _ n _ => (List.range n).foldl (fun g i => g.vwrite (a.dest + BitVec.ofNat 8 i) a.sel (a.image (128 * i))) g
  | .vload .. | .vatom .. => g.vwrite a.dest a.answeredLanes (a.image 0)
  | _ => g

/-- The same delivery into the states that younger accesses of the stream would restore (R194). -/
def Access.deliverSnap (a : Access) (g : Group) (b : Access) : Access :=
  if b.l == a.l && decide (a.seq < b.seq) then
    match b.snap with
    | .s st => { b with snap := .s (a.deliver { g with s := st }).s }
    | .l st => { b with snap := .l (a.deliver { g with l := st }).l }
    | .none => b
  else b

/-- Flags of a lane atomic (R206). -/
def Access.flagsOf (a : Access) : Byte :=
  a.reqs.foldl (fun f r => match r.ans with | some v => f ||| (a.kind.atomic r v).2 | none => f) 0

/-- The vector registers that an access writes when it completes. -/
def Access.destRegs (a : Access) : List (BitVec 8) :=
  match a.kind with
  | .vblk n | .drain _ n _ => (List.range n).map fun i => a.dest + BitVec.ofNat 8 i
  | .vload .. | .vatom .. => [a.dest]
  | _ => []

/-- The blocks that an access writes are FULL; one that has fallen since its issue powers up first (R21). -/
def Group.canDeliver (g : Group) (a : Access) : Bool := a.destRegs.all g.powered

def State.wakeDest (s : State) (a : Access) : State := a.destRegs.foldl State.wakeBlock s

/-- The access completes: destination, flags, counters. -/
def State.completeAccess (s : State) (a : Access) : State :=
  s.mapCur fun g =>
    let f := if g.handler.isSome then 0 else a.flagsOf
    let g1 := { a.deliver g with accs := g.accs.map (a.deliverSnap g), flags := g.flags ||| f }
    g1.endAcc a.seq

/-- The lanes that failed, in ascending order: at issue, and at their answers. -/
def Access.failed (a : Access) : List LaneFault :=
  let errs := a.reqs.filterMap fun r =>
    r.err.map fun e => (⟨r.lane, ⟨e.1, e.2, r.va, if e.1 == 0x0A && !a.peer then BitVec.ofNat 64 r.pa else 0⟩⟩ : LaneFault)
  let all := a.fails ++ errs
  (List.range 1024).filterMap fun i => all.find? fun f => f.lane == i

/-- An access of a stream that the fault of an access of it takes back: that access, and those behind it that await a value. -/
def Access.goneWith (a b : Access) : Bool := b.l == a.l && b.valued && decide (a.seq ≤ b.seq)

/-- An exact fault discards every effect of the later instructions of its stream (R194). Log 32. -/
def Group.rollback (g : Group) (a : Access) : Group :=
  let g1 := { g with
    accs := g.accs.filter fun b => !a.goneWith b
    lpend := if a.l then g.lpend.filter fun e => decide (e.seq < a.seq) else g.lpend
    s := match a.snap with | .s st => st | _ => g.s
    l := match a.snap with | .l st => st | _ => g.l }
  (g1.forget ((g.accs.filter a.goneWith).map Access.seq)).settleFlags

/-- A lane access stops on some lanes: the others have completed (R195, R248, R250). The L-stream's state is the one before
the instruction. Log 28. -/
def State.laneFault (s : State) (a : Access) (completed : Mask) : State :=
  let s := s.mapCur fun g =>
    let g := if a.kind.valued && completed != 0 then a.deliver g else g
    { g with
      done := a.done ||| completed, replay := none
      flags := g.flags ||| (if g.handler.isSome then 0 else a.flagsOf) }
  (s.logLanes a.failed a.kind.writes a.peer).raiseLanes a.ps1 a.pc a.failed
    ⟨a.ps1, a.sel &&& ~~~completed, a.popped, a.done ||| completed⟩ a.kind.rflags

/-! ## Accesses that the trail holds (R384, R385) -/

/-- The trail holds a request of an access that is still unknown. -/
def State.turnWaits (s : State) (a : Access) (r : Req) : Bool :=
  !r.known && (match a.kind with
    | .queue put => (queueOf (s.memRead r.pa 64)).any fun q => s.queueTurn put r q == .wait
    | .satom .. | .vatom .. =>
      if a.peer then (s.targetTeam s.cur r.va).any fun t =>
        s.trailAsk (s.spChoice s.cur a.l r.lane a.kind t (offsetIn r.va)) == .wait
      else targetOf r.pa == Target.device && s.trailAsk (s.atomChoice s.cur a r) == .wait
    | _ => false)

/-- The first access of a stream that the trail holds. -/
def State.heldAccess (s : State) (l : Bool) : Option Access :=
  s.cur.accs.find? fun a => a.l == l && a.valued && a.reqs.any (s.turnWaits a)

/-- An access that the trail holds has not been performed: it is taken back with what follows it, and issues again when its stream
goes on. Lanes of an atomic that have been performed stay so, and the others are replayed. -/
def Group.takeBack (g : Group) (a : Access) : Group :=
  if a.l then
    let g := if a.answeredLanes == 0 then g.rollback a else a.deliver (g.rollback a)
    { g with
      replay := some ⟨a.ps1, a.sel &&& ~~~a.answeredLanes, a.popped, a.done ||| a.answeredLanes⟩
      flags := g.flags ||| (if g.handler.isSome then 0 else a.flagsOf) }
  else g.rollback a

/-- A stopped group waits for no turn of the trail: an access of its that the trail holds is taken back, so that an endless wait
ends in the handler of WATCHDOG (R385). Log 144. -/
def State.takeBack (s : State) (l : Bool) : State :=
  match s.heldAccess l with
  | none => s
  | some a => if s.cur.canDeliver a then s.mapCur fun g => g.takeBack a else s.wakeDest a

/-! ## Stores that err -/

/-- The source number of the unit that answers a request (R1). -/
def State.errSource (s : State) (a : Access) (r : Req) : Nat :=
  if a.peer then s.pcoreOf s.cur r.va
  else match targetOf r.pa with
    | .device => 192 + sliceOf r.pa
    | .window => 257 + (s.routeOf ((r.pa >>> 44) % 64)).port
    | _ => 256

/-- An erring store or lane (R217): one record, and a stop at the next boundary of its stream. Where a handler issued it, it ends the
grid (R316). The record's pa is 0: its code is not POISON (R245, log 19). Log 29, 37. -/
def State.storeErr (s : State) (a : Access) (r : Req) (code cause : Byte) : State :=
  let g := s.cur
  let flags : Byte := (if a.l then 0x01 else 0) ||| 0x02 ||| (if g.exiting || g.status == .exited then 0x10 else 0) |||
    (if a.ps1 then 0x40 else 0)
  let s := s.logFault ⟨code, cause, r.va, 0⟩ true a.peer
  let s := s.queueRecord (s.coreOf g) (s.gridOf g).ctx
    (s.recordOf g 0x15 code (if a.l then r.lane % 128 else r.lane) flags r.va a.pc 0 0)
  if g.status == .exited then s
  else if a.handler then s.endGrid 0x15
  else s.mapCur fun g => g.addStop
    ⟨.imprecise, 0x15, code, code.setWidth 64, a.l, a.ps1, a.pc, [], flags, BitVec.allOnes 128, none, s.time,
      s.errSource a r, true⟩

/-- The errors of an access that no stop can reach any more, or that comes as a response, are reported. A lane of VSTBLK that errs
in several registers has a record for each of them, with its address, where R217 says one for each lane (log 138). -/
def State.reportErrs (s : State) (a : Access) : State :=
  a.reqs.foldl (fun s r => match r.err with | some (code, cause) => s.storeErr a r code cause | none => s) s

/-! ## The end of an access -/

/-- An access of a group that has left ends; an atomic that failed is an erring store (R163, R216). -/
def State.leftAccess (s : State) (a : Access) : State :=
  let s := s.mapCur fun g => g.endAcc a.seq
  if a.kind.writes then s.reportErrs a else s

/-- Every request of an access is known: it completes, or it faults exactly once the older accesses of its stream have
their values. Log 32, 33. -/
def State.finishAccess (s : State) (a : Access) : State :=
  if !a.allKnown then s
  else if s.cur.status != .exited && !s.cur.canDeliver a then s.wakeDest a
  else match a.failed with
    | [] => s.completeAccess a
    | f :: _ =>
      if s.cur.status == .exited then s.leftAccess a
      else if s.cur.accs.any fun b => b.l == a.l && b.valued && decide (b.seq < a.seq) then s
      else
        let t := { s with ps1 := a.ps1 }.mapCur fun g => g.rollback a
        match a.kind with
        | .load .. | .satom .. | .queue _ =>
          if memoryCode f.mf.code then (t.logFault f.mf a.kind.writes a.peer).raiseMem f.mf a.kind.rflags
          else t.raise f.mf.code
        | .vblk _ =>
          ((t.logFault f.mf a.kind.writes a.peer).mapCur fun g => match a.popped with
            | some v => { g with dq := ⟨false, g.mode, v, g.seq, g.sAfter⟩ :: g.dq }
            | none => g).raiseLMem f.mf a.kind.rflags
        | _ => t.laneFault a a.answeredLanes

/-- LOAD_RESPONSE (R194): reads, atomics and queue operations on memory are answered, one lane of an atomic at a time in an open
order (R206); a peer access ends with its last answer (R181). -/
def State.loadResponse (s : State) (seq : Nat) : State :=
  match s.cur.acc? seq with
  | none => s
  | some a =>
    let s := match a.kind with
      | .store _ | .drain .. => s
      | .queue put => s.someReqs a id fun s a r => s.answerQueue put a r
      | .satom .. | .vatom .. => if a.peer then s else s.someReqs a id State.answerAtomic
      | _ => if a.peer then s else s.someReqs a id State.answerRead
    match a.kind, s.cur.acc? seq with
    | .store _, _ | .drain .., _ | _, none => s
    | _, some a => s.finishAccess a

/-- Log 116. -/
def execLoadResponse (uid seq : Nat) (s : State) : Out := .next (s.withGroup uid fun s => s.loadResponse seq)

/-! ## Stores -/

/-- The stores of an access still to be performed cover a whole line (R216, R244). -/
def State.coversLine (s : State) (a : Access) (line : Nat) : Bool :=
  (List.range 64).all fun b => a.reqs.any fun r => !r.known && meets (64 * line + b) 1 (s.place r.pa) r.size

/-- A store of one lane is performed, or its slice refuses it (R216). Log 116. -/
def State.performStore (s : State) (a0 a : Access) (r : Req) : State × Req :=
  let lower := a.reqs.any fun q => !q.known && decide (q.lane < r.lane) && s.reqsMeet r q
  if lower || s.writeHeld a r then (s, r)
  else match s.writeErr s.myPort s.worldOf r.pa (s.coversLine a0 (s.place r.pa / 64)) with
    | some e => (s, { r with err := some e })
    | none => (s.memWrite s.worldOf r.pa (bytesOf r.size r.data.toNat), { r with ans := some 0 })

/-- The requests of a line that an access covers whole act together. -/
def State.lineRep (s : State) (a : Access) (i : Nat) : Nat :=
  match a.reqs[i]? with
  | none => i
  | some r =>
    let line := s.place r.pa / 64
    if s.coversLine a line then (a.reqs.findIdx fun q => !q.known && s.place q.pa / 64 == line) else i

/-- STORE_RESPONSE (R216): lanes of a store reach memory, where they are performed or refused; once all have been, the response
arrives, the counts fall and each refusal is reported. Log 116. -/
def State.storeResponse (s : State) (seq : Nat) : State :=
  match s.cur.acc? seq with
  | none => s
  | some a =>
    if a.valued || a.drains then s
    else if a.allKnown then (s.mapCur fun g => g.endAcc seq).reportErrs a
    else if a.peer then s
    else s.someReqs a (s.lineRep a) fun s b r => s.performStore a b r

/-- Log 116. -/
def execStoreResponse (uid seq : Nat) (s : State) : Out := .next (s.withGroup uid fun s => s.storeResponse seq)

/-! ## Peer accesses at their target (R181) -/

/-- A request to the same bytes of a window, of an access that comes before, of a store that a round puts before, or of a lower lane
of the same store, is still unknown. The lanes of one atomic go in an open order (R206, R225). -/
def State.spHeld (s : State) (a : Access) (r : Req) : Bool :=
  match s.spanOf s.cur r with
  | none => false
  | some (t, o) =>
    (s.cur.accs.any fun b =>
      b.peer && (a.prior.contains b.seq || (b.seq == a.seq && !a.valued)) &&
        (b.reqs.any fun q => !q.known && (b.seq != a.seq || decide (q.lane < r.lane)) && s.spMeets s.cur q t o r.size)) ||
      s.othersOut s.cur a.seq fun h b q => b.peer && s.spMeets h q t o r.size

/-- What a request does to memory. -/
def AccKind.access : AccKind → AccessKind
  | .store _ => .write
  | .satom .. | .vatom .. | .queue _ => .atomic
  | _ => .read

/-- One lane of a peer access at its target core: checks 3 to 5, then the access (R181, R183, R184, R385), over the network where
the clusters differ (R364). An access of another team to the window of a team on its move waits (R346). Log 114. -/
def State.answerPeer (s : State) (a : Access) (r : Req) : State × Req :=
  if s.spHeld a r || s.needsOut a ||
      (s.targetTeam s.cur r.va).any (fun t => t.moving && t.id != s.cur.team) then (s, r)
  else match s.localTarget s.cur r.va r.size with
    | .inl f => (s, { r with err := some (f.code, f.cause) })
    | .inr t =>
      let byte := spByte t (offsetIn r.va)
      if s.flowBroken s.worldOf s.myPort (clusterOf t.core) then (s, { r with err := some (0x06, 17) })
      else match (s.core t.core).bankAns byte r.size a.kind.access r.va with
      | .wake => (s.wakeBank t.core (byte / 8192), r)
      | .fault f => (s, { r with err := some (f.code, f.cause) })
      | .go =>
        match a.kind.access with
        | .write => (s.spWrite t.core byte (bytesOf r.size r.data.toNat), { r with ans := some 0 })
        | .atomic =>
          let c := s.spChoice s.cur a.l r.lane a.kind t (offsetIn r.va)
          match s.trailAsk c with
          | .wait => (s, r)
          | .fault => (s, { r with err := some (0x06, 18) })
          | .go x =>
            let old := wordOf (s.spRead t.core byte r.size)
            let s := match (a.kind.atomic r old).1 with
              | some v => s.spWrite t.core byte (bytesOf r.size v.toNat)
              | none => s
            (s.trailMark c x none, { r with ans := some old })
        | _ => (s, { r with ans := some (wordOf (s.spRead t.core byte r.size)) })

/-- PEER_REQUEST (R181): some of the lanes of a peer access reach their target. Log 114. -/
def execPeerRequest (uid seq : Nat) (s : State) : Out :=
  .next (s.withGroup uid fun s =>
    match s.cur.acc? seq with
    | none => s
    | some a => if a.peer then s.someReqs a id State.answerPeer else s)

end Sys2Proof.Machine
end

