-- ==== Sys2Proof/Machine/LMem.lean ====
section
/-! DEFINITION. Memory instructions of the L-stream (R64, R118 to R120, R195, R198, R204 to R207, R211), with the replay of
an instruction that faulted on some lanes (R250). -/

namespace Sys2Proof.Machine

/-! ## Addresses and operands -/

/-- Base plus displacement of R64: imm32 as the base leaves no displacement. -/
def Group.memBase (g : Group) (o : LOp) (popped : List Word) : Word :=
  g.c64 o popped + (if o.c == .imm then 0 else o.w2.signExtend 64)

/-- Address of a lane (R64). -/
def Group.laneAddr (g : Group) (o : LOp) (popped : List Word) (i : Nat) : Word :=
  let index := if modBit o 2 then (look (g.vget o.a.r) i 0).signExtend 64 <<< (modField o 0 2) else 0
  g.memBase o popped + index

/-- Operands of a lane memory instruction: index, data, destination read and written. -/
def memUse (o : LOp) (data dest old free : Bool) : LUse :=
  let idx := if modBit o 2 then [(o.a.r, o.a.hint)] else []
  let dat := if data then [(o.b.r, o.b.hint)] else []
  let src := if old then [(o.vd, Hint.keep)] else []
  (({ reads := idx ++ dat ++ src, writes := if dest then [o.vd] else [], free := free } : LUse).withC o.c).withGuard o.g

/-- The replay that applies to the path of the turn (R250). -/
def State.replaying (s : State) : Option Replay :=
  match s.cur.replay with
  | some r => if r.ps1 == s.ps1 then some r else none
  | none => none

/-- Issue a lane memory instruction. A replay acts on its mask, less the lanes retired since, and reuses the value popped
at the first issue (R250). -/
def State.memIssue (s : State) (o : LOp) (u : LUse) (body : LIn → State) : State :=
  match s.replaying with
  | none => s.lIssue o.g u body
  | some r =>
    s.lIssue o.g { u with pops := 0 } fun x => body { x with sel := r.mask &&& x.st.cur.l.live, popped := r.popped.toList }

/-- Lanes completed before this issue (R27). -/
def State.doneBefore (s : State) : Mask := match s.replaying with | some r => r.done | none => 0

/-! ## Checks of the lanes -/

/-- What the checks at issue leave: the state after them, the requests that go on, the lanes that failed, and whether a
wake or an earlier access makes the whole instruction wait. -/
structure LaneChecks where
  st    : State
  reqs  : List Req
  fails : List LaneFault
  wait  : Bool

/-- Steps 1 to 3 of R193 on every lane, in ascending order. -/
def State.checkLanes (s : State) (kind : AccessKind) (rs : List Req) : LaneChecks :=
  rs.foldl (fun c r =>
    let t := c.st.checkGlobal kind r.va r.size
    match t.res with
    | .inl f => { c with st := t.st, fails := c.fails ++ [⟨r.lane, f⟩] }
    | .inr pa => { c with st := t.st, reqs := c.reqs ++ [{ r with pa := pa }] }) ⟨s, [], [], false⟩

/-- The checks of R181 on every lane. A peer lane goes on after the checks of its own core; an own lane is performed at
once by `own`, unless it must go out for its turn (R385, R206). Log 28. -/
def State.checkLocal (s : State) (kind : AccessKind) (out : Word → Bool) (rs : List Req)
    (own : State → Nat → Nat → Req → State × Word) : LaneChecks :=
  rs.foldl (fun c r =>
    if out r.va then
      match c.st.outErr r.va r.size with
      | some f => { c with fails := c.fails ++ [⟨r.lane, f⟩] }
      | none => { c with reqs := c.reqs ++ [r] }
    else match c.st.ownTarget r.va r.size with
      | .inl f => { c with fails := c.fails ++ [⟨r.lane, f⟩] }
      | .inr t =>
        if c.st.peerPending true c.st.lmask t.id (offsetIn r.va) r.size then { c with wait := true }
        else
          let byte := spByte t (offsetIn r.va)
          match (c.st.core t.core).bankAns byte r.size kind r.va with
          | .wake => { c with st := c.st.wakeBank t.core (byte / 8192), wait := true }
          | .fault f => { c with fails := c.fails ++ [⟨r.lane, f⟩] }
          | .go =>
            let x := own c.st t.core byte r
            { c with st := x.1, reqs := c.reqs ++ [{ r with ans := some x.2 }] }) ⟨s, [], [], false⟩

/-! ## Launch of a checked lane access -/

/-- The destination of a load is LIVE from its issue (R18, R19). -/
def AccKind.touch (k : AccKind) (g : Group) (vd : BitVec 8) : Group :=
  match k with
  | .vload .. | .vatom .. => g.vwrite vd 0 (Vector.replicate 128 0)
  | .vblk n => (List.range n).foldl (fun g i => g.vwrite (vd + BitVec.ofNat 8 i) 0 (Vector.replicate 128 0)) g
  | _ => g

/-- The wakes that the checks of a stalled instruction began. -/
def State.keepWakes (s t : State) : State := { s with cores := t.cores }

/-- The checks are made: the access goes out, completes, or stops on the lanes that failed (R119, R195, R250). `x.st` has
the hints applied; an instruction that fails on some lanes applies none. What its path follows, later events of its lanes follow too
(R230). -/
def State.launchLanes (s : State) (x : LIn) (c : LaneChecks) (a : Access) (cs : List Counter) : State :=
  let a := { a with reqs := c.reqs, fails := c.fails, sel := x.sel, popped := x.popped.head?, done := s.doneBefore }
  let act := fun g : Group => if c.reqs.isEmpty then g else g.grow a.path
  let plain := fun g : Group => act { g with l := s.cur.l, replay := none }
  let flags := if s.cur.handler.isSome then 0 else a.flagsOf
  let cs := if a.reqs.any fun r => !r.known then cs else []
  if c.fails.any fun f => f.mf.code == 0 then s
  else if !c.fails.isEmpty then
    if s.cur.lWaits && (a.allKnown || !a.kind.valued) then s
    else if a.kind.valued && !a.allKnown then c.st.mapCur fun g => (plain g).push a cs
    else
      let t := c.st.mapCur fun g => if a.allKnown then plain g else (plain g).push a cs
      t.laneFault a (maskOf (a.reqs.map Req.lane))
  else
    (c.st.mapCur fun g =>
      let g := act { a.kind.touch g a.dest with replay := none }
      if a.allKnown then { a.deliver g with flags := g.flags ||| flags } else g.push a cs).lNext

/-- A lane access to global memory, of the order and scope of its instruction (R205, R219). -/
def State.gLanes (s : State) (o : LOp) (u : LUse) (kind : AccKind) (n : Nat) (ord : Order) (sc : Scope) (cs : List Counter)
    (data cmp : Nat → Word) : State :=
  s.memIssue o u fun x =>
    if cs.any s.cur.full || s.cur.acquiring true s.lmask then s
    else
      let rs := (lanesOf x.sel).map fun i => reqOf i (s.cur.laneAddr o x.popped i) 0 n (data i) (cmp i)
      s.launchLanes x (x.st.checkLanes kind.access rs) (s.newAccess true kind o.vd ord sc false []) cs

/-- A lane access to the scratchpad, of the order and scope of its instruction (R204, R205, R219). Only peer lanes count, and wait for
room in their counters (R174, R196). -/
def State.lLanes (s : State) (o : LOp) (u : LUse) (kind : AccKind) (n : Nat) (ord : Order) (sc : Scope) (cs : List Counter)
    (out : Word → Bool) (data cmp : Nat → Word) (own : State → Nat → Nat → Req → State × Word) : State :=
  s.memIssue o u fun x =>
    if s.cur.acquiring true s.lmask then s
    else
      let rs := (lanesOf x.sel).map fun i => reqOf i (s.cur.laneAddr o x.popped i) 0 n (data i) (cmp i)
      let c := x.st.checkLocal kind.access out rs own
      let cs := if c.reqs.any fun r => !r.known && isPeer r.va then cs else []
      if cs.any s.cur.full || (kind.writes && (rs.any fun r => !out r.va) && s.releaseHeld true s.lmask ord sc) then s
      else if c.wait then s.keepWakes c.st
      else s.launchLanes x c (s.newAccess true kind o.vd ord sc true []) cs

/-- Size of a lane access from mods bits 5:3 (R118). -/
def memSize (o : LOp) : Nat :=
  match modField o 3 3 with
  | 1 => 1
  | 2 => 2
  | _ => 4

/-- A lane of the data register. -/
def Group.dataLane (g : Group) (o : LOp) (i : Nat) : Word := (look (g.vget o.b.r) i 0).setWidth 64

def execVld (o : LOp) (s : State) : Out :=
  .next (s.gLanes o (memUse o false true false true) (.vload (memSize o) (o.ty == .s32)) (memSize o) .rlx .grp [.ld]
    (fun _ => 0) (fun _ => 0))

def execVst (o : LOp) (s : State) : Out :=
  .next (s.gLanes o (memUse o true false false false) (.store (memSize o)) (memSize o) .rlx .grp [.st]
    (s.cur.dataLane o) (fun _ => 0))

def execVldsp (o : LOp) (s : State) : Out :=
  let n := memSize o
  .next (s.lLanes o (memUse o false true false true) (.vload n (o.ty == .s32)) n .rlx .grp [.rs] isPeer
    (fun _ => 0) (fun _ => 0) fun s core byte r => (s, wordOf (s.spRead core byte r.size)))

def execVstsp (o : LOp) (s : State) : Out :=
  let n := memSize o
  .next (s.lLanes o (memUse o true false false false) (.store n) n .rlx .grp [.rs, .st] isPeer
    (s.cur.dataLane o) (fun _ => 0) fun s core byte r => (s.spWrite core byte (bytesOf r.size r.data.toNat), 0))

/-! ## Lane atomics (R205, R206) -/

/-- The order of a lane atomic, in place of a rounding mode (R205). -/
def laneOrder (o : LOp) : Order :=
  match o.rnd.toNat with
  | 0 => .rlx
  | 1 => .acq
  | 2 => .rel
  | _ => .acqrel

/-- The operation of a lane atomic. -/
def laneAtom (o : LOp) : AccKind := .vatom (BitVec.ofNat 3 (modField o 3 3)) o.ty

/-- The compare value of a lane: its destination before the instruction. -/
def Group.cmpLane (g : Group) (o : LOp) (i : Nat) : Word := (look (g.vget o.vd) i 0).setWidth 64

def execVatom (o : LOp) (s : State) : Out :=
  .next (s.gLanes o (memUse o true true (modField o 3 3 == 2) false) (laneAtom o) 4 (laneOrder o) .dev [.st]
    (s.cur.dataLane o) (s.cur.cmpLane o))

/-- VATOMSP: every lane goes out, so that the lanes of one word are performed in an open order (R206). Peer lanes raise the
counters. -/
def execVatomsp (o : LOp) (s : State) : Out :=
  .next (s.lLanes o (memUse o true true (modField o 3 3 == 2) false) (laneAtom o) 4 (laneOrder o) .gang [.rs, .st]
    (fun _ => true) (s.cur.dataLane o) (s.cur.cmpLane o) fun s _ _ _ => (s, 0))

/-! ## Blocks of whole registers (R120) -/

/-- The 4-byte lanes of n register images at consecutive addresses, lane j of register i numbered 128 i + j. -/
def blockReqs (base : Word) (n : Nat) (sel : Mask) (data : Nat → Nat → Word) : List Req :=
  (List.range n).flatMap fun i => (lanesOf sel).map fun j =>
    reqOf (128 * i + j) (base + BitVec.ofNat 64 (512 * i + 4 * j)) 0 4 (data i j) 0

/-- A block access (R120, R195): it faults as a whole at its first failing lane; the translations of the other lanes stand, with
their A and D bits (R237). -/
def State.block (s : State) (o : LOp) (u : LUse) (first : BitVec 8) (kind : AccKind) (c : Counter) (data : Nat → Nat → Word) :
    State :=
  let n := 2 ^ modField o 0 2
  if s.cur.rangeBad first n then s.raiseL 0x01
  else s.lIssue o.g u fun x =>
    if s.cur.full c || s.cur.acquiring true s.lmask then s
    else
      let base := s.cur.memBase o x.popped
      let hold := fun (t : State) (f : MemFault) => if s.cur.lWaits || f.code == 0 then s else
        (t.logFault f kind.writes false).raiseLMem f kind.rflags
      if base.toNat % 64 != 0 then hold s (mf 0x07 0 base)
      else
        let k := x.st.checkLanes kind.access (blockReqs base n x.sel data)
        match k.fails with
        | f :: _ => hold { k.st with cur := s.cur } ((k.fails.find? fun f => f.mf.code == 0).getD f).mf
        | [] =>
          let a := { s.newAccess true kind first .rlx .grp false k.reqs with sel := x.sel, popped := x.popped.head? }
          (k.st.mapCur fun g =>
            let g := kind.touch g first
            if k.reqs.isEmpty then g else g.push a [c]).lNext

/-- The registers of a block. -/
def blockRegs (o : LOp) (r : BitVec 8) : List (BitVec 8) :=
  (List.range (2 ^ modField o 0 2)).map fun i => r + BitVec.ofNat 8 i

def execVldblk (o : LOp) (s : State) : Out :=
  let u := (({ writes := blockRegs o o.vd } : LUse).withC o.c).withGuard o.g
  .next (s.block o u o.vd (.vblk (2 ^ modField o 0 2)) .ld fun _ _ => 0)

def execVstblk (o : LOp) (s : State) : Out :=
  let u := (({ reads := (blockRegs o o.b.r).map fun r => (r, o.b.hint), free := false } : LUse).withC o.c).withGuard o.g
  .next (s.block o u o.b.r (.store 4) .st fun i j => (look (s.cur.vget (o.b.r + BitVec.ofNat 8 i)) j 0).setWidth 64)

/-! ## Prefetch, fence, wait -/

/-- VPREF (R207): .tlb fills the core's TLB where the checks of R193 pass, with the A bits left for the first use; .l2 has no
effect on the state. An address that fails a check, or whose walk would wait, is skipped. -/
def State.prefetch (s : State) (va : Word) : State :=
  let c := s.ctxOf s.cur
  let core := s.coreOf s.cur
  if (canonErr s.cur.level va).isSome || ((s.core core).tlb.any fun e => e.hits c.id va) || s.globalLocked c.id va 1 ||
      s.walkHeld core c va then s
  else match s.walk core va 4 c.root [] with
    | .inl _ => s
    | .inr w =>
      let e := tlbOf c.id va w false w.path
      if (pteC w.leaf && (s.groupErr core va w.ea w.leaf).isSome) || !s.targetOk c (e.paOf va) ||
          (s.readErr (clusterOf core) c.world (e.paOf va)).isSome then s
      else s.mapCore core fun k => { k with tlb := keepEntry 256 e k.tlb }

def execVpref (o : LOp) (s : State) : Out :=
  .next (s.lIssue o.g (memUse o false false false true) fun x =>
    (if modField o 3 3 == 1 then
      (lanesOf x.sel).foldl (fun t i => t.prefetch (s.cur.laneAddr o x.popped i)) x.st
    else x.st).lNext)

/-- Kinds of a fence by code (R52). -/
def fenceKindOf (n : Nat) : FenceKind :=
  match n with
  | 0 => .acq
  | 1 => .rel
  | 2 => .acqrel
  | _ => .sc

/-- VFENCE (R211): the path waits and is bound as FENCE does a stream. What comes before the fence comes before what its lanes do
later (R230). -/
def execVfence (o : LOp) (s : State) : Out :=
  .next (s.lIssue o.g { free := false } fun x =>
    s.fence (x.st.mapCur (Group.grow · x.active)) (fenceKindOf (modField o 3 2)) (modField o 0 3 == 0) true x.active State.lNext)

/-- VWAITC (R198): the vd field holds the rs threshold. -/
def execVwaitc (o : LOp) (s : State) : Out :=
  let at' := fun (c : Counter) (i : Nat) => decide (s.cur.count c ≤ (o.w2.extractLsb' (8 * i) 8).toNat)
  .next (s.lIssue o.g { } fun x =>
    if at' .ld 0 && at' .st 1 && at' .cp 2 && at' .mx 3 && decide (s.cur.count .rs ≤ o.vd.toNat) then x.st.lNext else s)

end Sys2Proof.Machine
end

