-- ==== Sys2Proof/Machine/MxMath.lean ====
section
/-! DEFINITION. The exact arithmetic of matrix waves and drains (R39 to R44, R273, R274, R279, R282 to R285, R298, R299). -/

namespace Sys2Proof.Machine

/-! ## Formats (R42, R44, R273, R279) -/

/-- A code that may serve as A, or as B (R44). -/
def mxA (c : Byte) : Bool := [4, 5, 7, 8, 9, 0xA].contains c.toNat
def mxBpk (c : Byte) : Bool := 0x12 ≤ c.toNat && c.toNat ≤ 0x18
def mxB (c : Byte) : Bool := [4, 7, 8, 9, 0xA].contains c.toNat || mxBpk c

/-- The float format of a code. -/
def mxFloat (c : Byte) : Option FFmt :=
  match c.toNat with
  | 7 => some .f16
  | 8 => some .bf16
  | 9 => some .e4m3
  | 0xA => some .e5m2
  | _ => none

/-- A pair the array accepts (R273). -/
def mxPair (a b : Byte) : Bool :=
  match a.toNat with
  | 9 | 0xA => b == 9 || b == 0xA
  | 7 | 8 => a == b
  | 4 | 5 => b == 4 || mxBpk b
  | _ => false

/-- Two bytes an element (R274). -/
def mxWide (c : Byte) : Bool := c == 7 || c == 8

/-- K of a wave, and the bytes of an A row (R273). -/
def mxK (b : Byte) (b128 : Bool) : Nat := if b128 then 128 else if mxWide b then 32 else 64
def mxRow (b128 : Bool) : Nat := if b128 then 128 else 64

/-- Bytes of a column of a tile (R279). -/
def mxCol (b : Byte) (b128 : Bool) : Nat := if mxBpk b then (b.toNat - 0x10) * (if b128 then 128 else 64) / 8 else 64

/-- L of a block-length code (R42). -/
def mxLen (blen : BitVec 2) : Nat := 8 * 2 ^ blen.toNat

/-- Number of K-blocks of a scaled tile (R279); 0 when unscaled. -/
def mxBlocks (b : Byte) (b128 : Bool) (blen : BitVec 2) : Nat :=
  if blen == 0 then 0 else (mxK b b128 + mxLen blen - 1) / mxLen blen

/-- A wave accumulates in S32 (R273). -/
def mxInt (b : Byte) (blen : BitVec 2) : Bool := (b == 4 || mxBpk b) && blen == 0

/-! ## Elements -/

/-- Element e of a row or a plain column. -/
def mxElem (c : Byte) (bs : List Byte) (e : Nat) : Nat :=
  if mxWide c then (bs.getD (2 * e) 0).toNat + 256 * (bs.getD (2 * e + 1) 0).toNat else (bs.getD e 0).toNat

/-- The effective weight of element e of a BPk column: the first k planes (R39, R40). -/
def bpkWeight (k kb : Nat) (bs : List Byte) (e : Nat) : Int :=
  let v := (List.range k).foldl (fun v q => 2 * v + ((bs.getD (q * (kb / 8) + e / 8) 0).getLsbD (e % 8)).toNat) 0
  intOf true k v * 2 ^ (8 - k)

/-- The integer weight of element e of a column (R283). -/
def mxWeight (b : Byte) (b128 : Bool) (bs : List Byte) (e : Nat) : Int :=
  if mxBpk b then bpkWeight (b.toNat - 0x10) (mxK b b128) bs e else intOf true 8 (bs.getD e 0).toNat

/-- An exact integer as a value. -/
def valOfInt (i : Int) : Val := .fin (decide (i < 0)) i.natAbs 0

/-! ## A wave -/

/-- What a wave multiplies: its formats, its A row, the scales of its row, and for each column the bytes of the tile and
the weight scales. -/
structure WaveIn where
  afmt   : Byte
  bfmt   : Byte
  blen   : BitVec 2
  b128   : Bool
  row    : List Byte
  scales : List (BitVec 16)

/-- Sum of the exact products of unit u in column bytes (R282): the value and NV. A NaN among the products, or infinities
of both signs, gives NaN. -/
def WaveIn.floatUnit (w : WaveIn) (col : List Byte) (u : Nat) : Val × Byte :=
  let fa := (mxFloat w.afmt).getD .f32
  let fb := (mxFloat w.bfmt).getD .f32
  let ps := (List.range 16).map fun i =>
    (fa.decode (mxElem w.afmt w.row (16 * u + i))).mul (fb.decode (mxElem w.bfmt col (16 * u + i)))
  let fl := ps.foldl (fun f p => f ||| p.2) 0
  let both := (ps.any fun p => p.1 == .inf true) && ps.any fun p => p.1 == .inf false
  if ps.any fun p => p.1.isNan then (.nan (ps.any fun p => p.1.isSig), fl ||| flagIf both flagNV)
  else (ps.foldl (fun s p => (s.add .rne p.1).1) (.fin true 0 0), fl ||| flagIf both flagNV)

/-- Exact integer sum of unit u (R284). -/
def WaveIn.intUnit (w : WaveIn) (col : List Byte) (u : Nat) : Int :=
  (List.range 16).foldl (fun s i =>
    s + intOf (w.afmt == 4) 8 (w.row.getD (16 * u + i) 0).toNat * mxWeight w.bfmt w.b128 col (16 * u + i)) 0

/-- A unit times its two scales, rounded once to F32 (R41, R282). -/
def scaledUnit (x : Val × Byte) (sa sw : BitVec 16) : Nat × Byte :=
  match scaleOf sa, scaleOf sw with
  | some a, some b =>
    let p := x.1.mul a
    let q := p.1.mul b
    let r := FFmt.f32.round .rne false q.1
    (r.1, x.2 ||| p.2 ||| q.2 ||| r.2)
  | _, _ => (FFmt.f32.nanBits, x.2 ||| flagNV)

/-- One column of a wave that accumulates in F32 (R282, R284): the new element and the flags of the array, NV and OF. -/
def WaveIn.floatColumn (w : WaveIn) (ovr : Bool) (col : List Byte) (wscale : Nat → BitVec 16) (acc : Word32) : Word32 × Byte :=
  let unit := fun u =>
    let x := if (mxFloat w.afmt).isSome then w.floatUnit col u else (valOfInt (w.intUnit col u), 0)
    if w.blen == 0 then
      let r := FFmt.f32.round .rne false x.1
      (r.1, x.2 ||| r.2)
    else
      let b := 16 * u / mxLen w.blen
      scaledUnit x (w.scales.getD b 0) (wscale b)
  let add := fun (s : Nat × Byte) (x : Nat × Byte) =>
    let v := (FFmt.f32.decode s.1).add .rne (FFmt.f32.decode x.1)
    let r := FFmt.f32.round .rne false v.1
    (r.1, s.2 ||| x.2 ||| v.2 ||| r.2)
  let s := (List.range (mxK w.bfmt w.b128 / 16)).foldl (fun s u => add s (unit u)) (0, 0)
  let r := if ovr then s else add (acc.toNat, s.2) (s.1, 0)
  (BitVec.ofNat 32 r.1, r.2 &&& 0x05)

/-- One column of a wave that accumulates in S32 (R283): the new element and SA. -/
def WaveIn.intColumn (w : WaveIn) (ovr : Bool) (col : List Byte) (acc : Word32) : Word32 × Byte :=
  let x := (List.range (mxK w.bfmt w.b128 / 16)).foldl (fun s u => s + w.intUnit col u) 0
  if ovr then (BitVec.ofInt 32 x, 0)
  else
    let y := acc.toInt + x
    (BitVec.ofInt 32 (clampInt true 32 y), flagIf (!inRange true 32 y) 0x40)

/-- A wave: the new bank row and its flags, from the tile, the weight scales (K-block b, column n) and the old row. -/
def WaveIn.run (w : WaveIn) (ovr : Bool) (tile : Nat → List Byte) (wscale : Nat → Nat → BitVec 16) (acc : VReg) : VReg × Byte :=
  let cols : Vector (Word32 × Byte) 128 := Vector.ofFn fun n =>
    if mxInt w.bfmt w.blen then w.intColumn ovr (tile n.val) acc[n]
    else w.floatColumn ovr (tile n.val) (fun b => wscale b n.val) acc[n]
  (cols.map Prod.fst, cols.foldl (fun f c => f ||| c.2) 0)

/-! ## Drains (R298, R299) -/

/-- One round of the dropout generator. -/
def keepRound (x : Word) : Word :=
  let y := x * 0xD6E8FEB86659FD93
  y ^^^ (y >>> 32)

/-- The dropout generator (R299). -/
def keepElem (key t row col : Word) : Bool :=
  let x := ((row <<< 32) ||| (col.setWidth 32).setWidth 64) ^^^ key
  decide ((keepRound (keepRound (keepRound x)) >>> 48) < t)

/-- The operands of .drop: the key, the place of the tile, the threshold and the factor. -/
structure Drop where
  key : Word
  org : Word
  tm  : Word

/-- What a drain asks of one element (R298): output type, rounding, .sat, the residual and the dropout. -/
structure DrainIn where
  int  : Bool
  ty   : ElemType
  rnd  : Rnd
  sat  : Bool
  drop : Option Drop

/-- One element of a drain: its output bits and its flags (R298). -/
def DrainIn.elem (d : DrainIn) (row col : Nat) (x : Word32) (res : Option Word32) : Nat × Byte :=
  if d.int && (d.ty == .s32 || d.ty == .s8x4) then
    let y := match res with | some r => x.toInt + r.toInt | none => x.toInt
    let c := clampInt true 32 y
    let f := flagIf (y != c) 0x40
    if d.ty == .s32 then (wrapInt 32 c, f)
    else (wrapInt 8 (clampInt true 8 c), f ||| flagIf (!inRange true 8 c) 0x40)
  else
    let f32 := fun (v : Val × Byte) (f : Byte) =>
      let r := FFmt.f32.round .rne false v.1
      (FFmt.f32.decode r.1, f ||| v.2 ||| r.2)
    let x0 : Val × Byte := (if d.int then valOfInt x.toInt else FFmt.f32.decode x.toNat, 0)
    let x1 := match d.drop with
      | none => x0
      | some p =>
        let r := BitVec.ofNat 32 ((p.org.toNat + row) % 2 ^ 32)
        let c := BitVec.ofNat 32 (((p.org >>> 32).toNat + col) % 2 ^ 32)
        if keepElem p.key (p.tm.extractLsb' 0 16 |>.setWidth 64) (r.setWidth 64) (c.setWidth 64) then
          f32 (x0.1.mul (FFmt.f32.decode (p.tm.extractLsb' 32 32).toNat)) 0
        else (.fin false 0 0, 0)
    let x2 := match res with
      | none => x1
      | some r => f32 (x1.1.add .rne (FFmt.f32.decode r.toNat)) x1.2
    let rawInt := d.int && d.drop.isNone && res.isNone
    let o := if rawInt then intTo d.ty d.rnd d.sat x.toInt else floatTo d.ty d.rnd d.sat x2.1
    (o.1, x2.2 ||| o.2)

end Sys2Proof.Machine
end

