-- ==== Sys2Proof/Machine/Matrix.lean ====
section
/-! DEFINITION. The matrix instructions at their issue: MMA, WLOAD, MDRAIN, MDRSP, MZERO (R277, R280, R281, R293 to R301). -/

namespace Sys2Proof.Machine

/-! ## Tags (R276, R277) -/

def State.tag (s : State) (core t : Nat) : Tag := look (s.core core).tags t .free

def State.mapTag (s : State) (core t : Nat) (f : Tag → Tag) : State :=
  s.mapCore core fun c => { c with tags := put c.tags t (f (look c.tags t .free)) }

/-- The tag as the issuing group may name it: ACCESS with cause TENSOR where its team does not hold it, it is FREE, or it is
another context's. -/
def State.tagErr (s : State) (t : Nat) : Option MemFault :=
  let x := s.tag (s.coreOf s.cur) t
  if !(s.teamOf s.cur).tags.getLsbD t || x.st == TagState.free || x.ctx.toNat != (s.ctxOf s.cur).id then
    some (mf 0x06 12 (BitVec.ofNat 64 t))
  else none

/-- A tag names a command that a DYING tag refuses. -/
def State.tagDying (s : State) (t : Nat) : Bool := (s.tag (s.coreOf s.cur) t).st == TagState.dying

/-- MXST takes a command that ended with a status other than OK (R291). -/
def Group.setMxst (g : Group) (status tag : Nat) (rows : Word32) : Group :=
  let n := Nat.min ((g.mxst.extractLsb' 32 16).toNat + 1) 65535
  { g with mxst := BitVec.ofNat 64 (status * 2 ^ 56 + tag * 2 ^ 52 + n * 2 ^ 32 + rows.toNat) }

/-! ## Range locks and queues (R262, R293, R294, R301) -/

/-- Lock entries in use on a core: 32 exist. -/
def State.locksOn (s : State) (core : Nat) : Nat := (s.locks.filter fun l => l.core == core).length

/-- The range-lock entries of a command are free. -/
def State.lockRoom (s : State) (n : Nat) : Bool := s.locksOn (s.coreOf s.cur) + n ≤ 32

/-- Commands of a tag that are not MMAs: eight may be queued. -/
def State.tagQueued (s : State) (t : Nat) : Nat :=
  (s.cmds.filter fun c => c.core == s.coreOf s.cur && c.tag == t && (match c.kind with | .mma .. => false | _ => true)).length

/-- MMA entries of a core, of one tag or of all. -/
def State.mmasOn (s : State) (core : Nat) (p : Nat → Bool) : Nat :=
  (s.cmds.filter fun c => c.core == core && p c.tag && (match c.kind with | .mma .. => true | _ => false)).length

/-- Share of MMA entries of each ACTIVE tag (R294). -/
def CoreState.mmaShare (c : CoreState) : Nat :=
  Nat.max 2 (32 / Nat.max 1 ((List.range 16).filter fun t => (look c.tags t .free).st == TagState.active).length)

/-- An MMA finds an entry. -/
def State.mmaRoom (s : State) (t : Nat) : Bool :=
  let core := s.coreOf s.cur
  decide (s.mmasOn core (· == t) < (s.core core).mmaShare) && decide (s.mmasOn core (fun _ => true) < 32)

/-- A lock entry of a command from its space, its range and whether it is a destination. -/
def lockOf (cmd core ctx : Nat) (l : Space × Nat × Nat × Bool) : Lock := ⟨cmd, core, ctx, l.1, l.2.1, l.2.2.1, l.2.2.2⟩

/-- A command of the issuing group enters its tag's queue, with its locks and its count of mx. -/
def State.enqueueCmd (s : State) (tag : Nat) (pc : Word) (kind : MxKind) (locks : List (Space × Nat × Nat × Bool)) : State :=
  let id := s.nextId
  let core := s.coreOf s.cur
  let ctx := (s.ctxOf s.cur).id
  let c : MxCmd := ⟨id, core, tag, ctx, s.cur.uid, s.cur.team, kind, pc, s.cur.handler.isSome, false, false, 0, 0, 0, 0, 0⟩
  { s with
    nextId := id + 1
    cmds := s.cmds ++ [c]
    locks := s.locks ++ locks.map (lockOf id core ctx) }.mapCur fun g => g.raiseCount .mx id

/-! ## Reads and checks of an instruction of the group -/

/-- Life states, scoreboard and supply of registers that an instruction reads late (R18, R93): `k` goes on. -/
def State.lOperands (s : State) (u : LUse) (k : State) : State :=
  let g := s.cur
  if u.reads.any fun x => g.vlife x.1 == .dead then s.raiseL 0x03
  else if u.reads.any fun x => g.vlife x.1 == .poison then
    (s.mapCur fun g => u.reads.foldl (fun g x => if g.vlife x.1 == .poison then g.setLife x.1 .dead else g) g).raiseL 0x04
  else if g.lBusy u then s
  else
    let regs := u.reads.map Prod.fst ++ u.writes
    if regs.any fun r => !g.powered r then regs.foldl State.wakeBlock s else k

/-- Read 16 bytes at a local address, own or peer (R293): the checks of R181 and R193, then the two words, once the group's own
peer writes to them that come before have been performed (R15, R224). Log 46. -/
def State.readLocal16 (s : State) (va : Word) : EntryRead :=
  match s.ownTarget va 16 with
  | .inl f => .fault f
  | .inr t =>
    let byte := spByte t (offsetIn va)
    if s.peerPending true s.lmask t.id (offsetIn va) 16 then .wait s
    else match (s.core t.core).bankAns byte 8 .read va, (s.core t.core).bankAns (byte + 8) 8 .read va with
    | .wake, _ | _, .wake => .wait (s.wakeBank t.core (byte / 8192))
    | .fault f, _ | _, .fault f => .fault f
    | .go, .go => .got (s.spRead t.core byte 16) s

/-- Steps 1 to 4 of R181 on a range of an engine command: its window, or the fault. Log 106. -/
def State.localRange (s : State) (va : Word) (align n : Nat) : MemFault ⊕ Team :=
  if s.localBad s.cur va then .inl (mf 0x06 8 va)
  else if va.toNat % align != 0 then .inl (mf 0x07 0 va)
  else s.localTarget s.cur va n

/-- An L-stream matrix instruction faults as a whole on an address. -/
def State.mxFault (s : State) (f : MemFault) (rflags : Byte) (wr loc : Bool) : State :=
  if s.cur.lWaits || f.code == 0 then s
  else if memoryCode f.code then (s.logFault f wr loc).raiseLMem f rflags
  else s.raiseL f.code

/-- Registers v to v + n - 1. Log 47. -/
def regRange (v : BitVec 8) (n : Nat) : List (BitVec 8) := (List.range n).map fun i => v + BitVec.ofNat 8 i

/-- Field block of R292: tag, M, first row. -/
def mxTag (o : LOp) : Nat := o.w2.toNat % 16
def mxM (o : LOp) : Nat := o.w2.toNat / 16 % 32 + 1
def mxRb (o : LOp) : Nat := o.w2.toNat / 512 % 32

/-! ## MMA (R280, R281, R293) -/

/-- A format block. -/
structure FormatBlock where
  afmt   : Byte
  flags  : Byte
  blen   : Byte
  base   : Word
  stride : Nat
  zero   : Bool

/-- Log 46. -/
def formatBlock (bs : List Byte) : FormatBlock :=
  ⟨bs.getD 0 0, bs.getD 1 0, bs.getD 2 0, BitVec.ofNat 64 (natOfBytes ((bs.drop 4).take 4)), natOfBytes ((bs.drop 8).take 4),
    bs.getD 3 0 == 0 && ((bs.drop 12).all (· == 0)) && (bs.getD 2 0 != 0 || ((bs.drop 4).take 8).all (· == 0))⟩

/-- A rule of R280 does not hold, other than an alignment. -/
def FormatBlock.bad (f : FormatBlock) : Bool := !mxA f.afmt || 1 < f.flags.toNat || 3 < f.blen.toNat || !f.zero

/-- The block and its pair match the format of the tag's latest WLOAD (R273, R281). -/
def FormatBlock.fits (f : FormatBlock) (b : Byte × BitVec 2 × Bool) : Bool :=
  mxPair f.afmt b.1 && f.blen.toNat == b.2.1.toNat && mxBlocks b.1 b.2.2 b.2.1 ≤ 4

/-- The A rows of registers, or of the latch (R274). -/
def imageBytes (v : VReg) : List Byte := v.toList.flatMap fun x => bytesOf 4 x.toNat

def cutRows (bs : List Byte) (len n : Nat) : List (List Byte) := (List.range n).map fun i => (bs.drop (len * i)).take len

/-- MMA, from its format block on: `t` is the state after the pops. Its scales are read after the group's peer writes to them that
come before its registration (R224). Log 46, 106. -/
def State.mmaBody (s t : State) (o : LOp) (f : FormatBlock) (b : Byte × BitVec 2 × Bool) : State :=
  let m := mxM o
  let len := mxRow b.2.2
  let n := (m * len + 511) / 512
  let latched := o.a.r == 255
  let nb := mxBlocks b.1 b.2.2 b.2.1
  let scaled := b.2.1 != 0
  let size := (m - 1) * f.stride + 2 * nb
  if !latched && s.cur.rangeBad o.a.r n then s.raiseL 0x01
  else
    let range : MemFault ⊕ Option Team := if scaled then (match s.localRange f.base 2 size with | .inl e => .inl e | .inr w => .inr (some w)) else .inr none
    match range with
    | .inl e => s.mxFault e 0 false true
    | .inr w =>
      let u : LUse := { reads := if latched then [] else (regRange o.a.r n).map fun r => (r, o.a.hint) }
      let short := match s.cur.latch with | some l => l.rowLen != len || decide (l.rows.length < m) | none => true
      s.lOperands u
        (if latched && short then s.raiseL 0x13
        else if !s.mmaRoom (mxTag o) || (scaled && !s.lockRoom 1) ||
            w.any (fun w => s.peerPending true s.lmask w.id (offsetIn f.base) size) then s
        else
          let rows := if latched then ((s.cur.latch.map Latch.rows).getD []).take m
            else cutRows ((regRange o.a.r n).flatMap fun r => imageBytes (s.cur.vget r)) len m
          let t := t.mapCur fun g =>
            let g := (g.grow s.lmask).applyHints u.reads
            { g with latch := if o.mods.getLsbD 0 then some ⟨rows, len⟩ else if latched then none else g.latch }
          let locks := match w with
            | some w => [(Space.window w.core w.base, offsetIn f.base, offsetIn f.base + size, false)]
            | none => []
          (t.enqueueCmd (mxTag o) s.lpc (.mma (mxRb o) m rows f.afmt b.1 b.2.1 b.2.2 (f.flags == 1) f.base f.stride
            (s.cyclesOf (s.coreOf s.cur))) locks).lNext)

/-- The format block of an MMA and its checks (R280, R281), from the state `t` in which c has been read. -/
def State.mmaFormat (s t : State) (o : LOp) (va : Word) : State :=
  match s.readLocal16 va with
  | .fault f => s.mxFault f 0 false true
  | .wait s => s
  | .got bs _ =>
    let f := formatBlock bs
    if f.bad then s.raiseL 0x13
    else if f.base.toNat % 2 != 0 then s.mxFault (mf 0x07 0 f.base) 0 false true
    else if f.stride % 2 != 0 then s.mxFault (mf 0x07 0 (BitVec.ofNat 64 f.stride)) 0 false true
    else match (s.tag (s.coreOf s.cur) (mxTag o)).issued with
      | none => s.raiseL 0x13
      | some b => if f.fits b then s.mmaBody t o f b else s.raiseL 0x13

/-- MMA (R293). Source c is read once the tag has passed its check. In handler mode it is ILLEGAL (R308). Log 45, 46. -/
def execMma (o : LOp) (s : State) : Out :=
  let u := ({ free := false } : LUse).withC o.c
  .next (if s.cur.handler.isSome || 32 < mxRb o + mxM o || (o.a.r == 255 && s.cur.latch.isNone) then s.raiseL 0x01
    else s.lIssue o.g { u with late := true } fun x =>
      match s.tagErr (mxTag o) with
      | some f => s.mxFault f 0 false false
      | none =>
        if s.tagDying (mxTag o) then (x.st.mapCur fun g => g.setMxst 2 (mxTag o) 0).lNext
        else if s.cur.full .mx then s
        else s.latePops u.pops fun vs g => s.mmaFormat { s with cur := g } o (s.cur.c64 o vs))

/-! ## WLOAD (R295, R296) -/

/-- The format of a WLOAD may serve as B, with its storage blocks and K-blocks. -/
def wloadOk (fmt : Byte) (blen : BitVec 2) (b128 : Bool) : Bool :=
  mxB fmt && (!b128 || (0x12 ≤ fmt.toNat && fmt.toNat ≤ 0x14)) && mxBlocks fmt b128 blen ≤ 4

/-- WLOAD (R296). In handler mode it is ILLEGAL (R308). The tile and the scales are two ranges, so a scaled WLOAD waits for two
range-lock entries (log 140); its ALIGN and ACCESS faults report the offset To or So itself, with LOCAL 0 in the log (log 141). -/
def execWload (tag : BitVec 4) (fmt : Byte) (blen : BitVec 2) (b128 : Bool) (a b : SReg) (s : State) : Out :=
  .next (s.sIssue .user [a, b] false fun s =>
    let t := tag.toNat
    if s.cur.handler.isSome then s.raise 0x01
    else match s.tagErr t with
    | some f => s.sMemFault f 0 false false
    | none =>
      let core := s.coreOf s.cur
      let tile := s.sget a
      let scale := s.sget b
      let size := 128 * mxCol fmt b128
      let nb := mxBlocks fmt b128 blen
      if s.tagDying t then (s.mapCur fun g => g.setMxst 2 t 0).nextPc 8
      else if !wloadOk fmt blen b128 then s.raise 0x13
      else if tile.toNat % 64 != 0 then s.sMemFault (mf 0x07 0 tile) 0 false false
      else if scale.toNat % 64 != 0 then s.sMemFault (mf 0x07 0 scale) 0 false false
      else if 16384 < tile.toNat + size then s.sMemFault (mf 0x06 12 tile) 0 false false
      else if blen != 0 && 16384 < scale.toNat + 256 * nb then s.sMemFault (mf 0x06 12 scale) 0 false false
      else if s.cur.full .mx || 8 ≤ s.tagQueued t || !s.lockRoom (if nb == 0 then 1 else 2) then s
      else
        let sp := Space.wb core t
        let locks := (sp, tile.toNat, tile.toNat + size, false) ::
          (if nb == 0 then [] else [(sp, scale.toNat, scale.toNat + 256 * nb, false)])
        ((s.mapTag core t fun x => { x with issued := some (fmt, blen, b128) }).enqueueCmd t s.cur.s.pc
          (.wload fmt blen b128 tile.toNat scale.toNat) locks).nextPc 8)

/-! ## MDRAIN, MDRSP, MZERO (R297 to R300) -/

/-- Bytes of an output element in scratchpad (R297). -/
def drainBytes (ty : ElemType) : Nat := 4 / ElemType.count ty

/-- A drain once its checks have passed: residuals are read, the values popped, and the command waits in its tag's queue. -/
def State.registerDrain (s t : State) (o : LOp) (toSp : Bool) (base : Word) (pops : List Word)
    (locks : List (Space × Nat × Nat × Bool)) : State :=
  let m := mxM o
  let drops := pops.drop (if toSp && o.c == CSrc.dq then 1 else 0)
  let drop := if o.mods.getLsbD 3 then some (drops.getD 0 0, drops.getD 1 0, drops.getD 2 0) else none
  let resid := if o.mods.getLsbD 2 then (regRange o.a.r m).map s.cur.vget else []
  let a := { s.newAccess true (.drain s.nextId (if toSp then 0 else m) false) o.vd .rlx .grp false [] with sel := BitVec.allOnes 128 }
  let t := t.enqueueCmd (mxTag o) s.lpc (.drain toSp o.vd base o.ty (rounding o) (o.mods.getLsbD 0) (o.mods.getLsbD 1) drop
    (mxRb o) m resid pops s.cur.seq) locks
  (t.mapCur fun g =>
    (g.applyHints (if o.mods.getLsbD 2 then (regRange o.a.r m).map fun r => (r, o.a.hint) else [])).push a []).lNext

/-- The space and the range of an MDRSP, or its fault; an MDRAIN has none. -/
def State.drainRange (s : State) (toSp : Bool) (base : Word) (size : Nat) : MemFault ⊕ List (Space × Nat × Nat × Bool) :=
  if toSp then (match s.localRange base 64 size with
    | .inl e => .inl e
    | .inr w => .inr [(Space.window w.core w.base, offsetIn base, offsetIn base + size, true)])
  else .inr []

/-- MDRAIN and MDRSP at issue (R297, R298): the tag, the residuals (R18), the range from c, and last the pops of .drop. In handler
mode they are ILLEGAL (R308). Log 48. -/
def State.drain (s : State) (o : LOp) (toSp : Bool) : State :=
  let m := mxM o
  let res := o.mods.getLsbD 2
  let nc := if toSp && o.c == CSrc.dq then 1 else 0
  let nd := if o.mods.getLsbD 3 then 3 else 0
  let u : LUse := { free := false, late := true, pops := nc + nd }
  let u := match o.c with | .kreg n => if toSp then { u with kreads := [n] } else u | _ => u
  if s.cur.handler.isSome || 32 < mxRb o + m || (!toSp && s.cur.rangeBad o.vd m) || (res && s.cur.rangeBad o.a.r m) then s.raiseL 0x01
  else s.lIssue o.g u fun _ =>
    match s.tagErr (mxTag o) with
    | some f => s.mxFault f 0 false false
    | none =>
      if s.tagDying (mxTag o) then s.raiseL 0x18
      else
        let use : LUse :=
          { reads := if res then (regRange o.a.r m).map fun r => (r, o.a.hint) else []
            writes := if toSp then [] else regRange o.vd m }
        s.lOperands use (s.latePops nc fun vc _ =>
          let base := if toSp then s.cur.c64 o vc else 0
          match s.drainRange toSp base (m * 128 * drainBytes o.ty) with
          | .inl f => s.mxFault f 0x02 true true
          | .inr locks =>
            if s.cur.full .mx || 8 ≤ s.tagQueued (mxTag o) || (toSp && (!s.lockRoom 1 || (s.targetTeam s.cur base).any fun t =>
                s.peerPending true s.lmask t.id (offsetIn base) (m * 128 * drainBytes o.ty))) then s
            else s.latePops (nc + nd) fun vs g => s.registerDrain { s with cur := g } o toSp base vs locks)

/-- Log 47. -/
def execMdrain (o : LOp) (s : State) : Out := .next (s.drain o false)
/-- Log 48. -/
def execMdrsp (o : LOp) (s : State) : Out := .next (s.drain o true)

/-- MZERO (R300). In handler mode it is ILLEGAL (R308). Log 48. -/
def execMzero (o : LOp) (s : State) : Out :=
  .next (if s.cur.handler.isSome || 32 < mxRb o + mxM o then s.raiseL 0x01
    else s.lIssue o.g { free := false } fun x =>
      match s.tagErr (mxTag o) with
      | some f => s.mxFault f 0 false false
      | none =>
        if s.tagDying (mxTag o) then (x.st.mapCur fun g => g.setMxst 2 (mxTag o) 0).lNext
        else if s.cur.full .mx || 8 ≤ s.tagQueued (mxTag o) then s
        else (x.st.enqueueCmd (mxTag o) s.lpc (.mzero (mxRb o) (mxM o)) []).lNext)

end Sys2Proof.Machine
end

