-- ==== Sys2Proof/Machine/MxRun.lean ====
section
/-! DEFINITION. The matrix array at work: waves, the rotation, commands of a tag's queue, the removal and the scrub of a tag
(R263, R278, R282 to R291, R296, R298, R300, R302, R350, R400). -/

namespace Sys2Proof.Machine

/-! ## Commands -/

def State.cmd? (s : State) (id : Nat) : Option MxCmd := s.cmds.find? fun c => c.id == id

def State.mapCmd (s : State) (id : Nat) (f : MxCmd → MxCmd) : State :=
  { s with cmds := mapIf s.cmds (fun c => c.id == id) f }

/-- The oldest command of a tag. -/
def State.headCmd (s : State) (core t : Nat) : Option MxCmd := s.cmds.find? fun c => c.core == core && c.tag == t

/-- An earlier registered command of the context holds a conflicting range (R263). -/
def State.lockConflict (s : State) (id : Nat) : Bool :=
  s.locks.any fun l => l.cmd == id && s.locks.any fun m =>
    decide (m.cmd < id) && m.ctx == l.ctx && m.space == l.space && l.space != .unresolved && decide (m.lo < l.hi) && decide (l.lo < m.hi) && (l.dst || m.dst)

/-- The group of a command, if it has not exited. -/
def State.liveGroup (s : State) (uid : Nat) : Option Group := (s.group? uid).bind fun g => if g.status == .exited then none else some g

/-- A command leaves: its locks are free, and mx falls in order (R197). -/
def State.endCmd (s : State) (c : MxCmd) : State :=
  { s with cmds := s.cmds.filter fun x => x.id != c.id, locks := s.locks.filter fun l => l.cmd != c.id }.mapGroup c.uid fun g =>
    g.complete true c.id

/-- A command ends with a status other than OK. Log 110. -/
def State.endCmdAs (s : State) (c : MxCmd) (status : Nat) (rows : Word32) : State :=
  (s.endCmd c).mapGroup c.uid fun g => g.setMxst status c.tag rows

/-- Flags of a command join FLAGS (R294); a handler's set none (R313). -/
def State.cmdFlags (s : State) (c : MxCmd) (f : Byte) : State :=
  if c.handler then s else s.mapGroup c.uid fun g => { g with flags := g.flags ||| f }

/-- An MMA whose waves have all ended completes (R291, R294, R350). -/
def State.endMma (s : State) (c : MxCmd) : State :=
  if c.killed then s.endCmdAs c 2 0
  else if c.nulled != 0 then (s.cmdFlags c (c.flags ||| 0x80)).endCmdAs c 1 c.nulled
  else (s.cmdFlags c c.flags).endCmd c

/-! ## Waves (R286 to R290) -/

/-- Effective cadence of a core (R275, R400). -/
def CoreState.cadence (c : CoreState) : Nat := Nat.min 16 ((c.basem1.toNat + 1) * 2 ^ c.lvl)

/-- The MMA of a tag whose next row may be prepared: every earlier command of the tag is an MMA with every row prepared. -/
def nextMma : List MxCmd → Option MxCmd
  | [] => none
  | c :: cs =>
    match c.kind with
    | .mma _ m .. => if c.prepared < m then some c else nextMma cs
    | _ => none

/-- What an activation-scale read of a wave finds: a value, a failure with its address, or a bank that is waking. -/
inductive ScaleRead
  | got (vs : List (BitVec 16))
  | null (cause : Byte) (va : Word)
  | wake (core bank : Nat)

/-- Read the scales of a row, K-block by K-block (R280, R289). -/
def State.readScales (s : State) (g : Group) (va : Word) : Nat → List (BitVec 16) → ScaleRead
  | 0, vs => .got vs
  | n + 1, vs =>
    match s.localTarget g va 2 with
    | .inl _ => .null 19 va
    | .inr t =>
      let byte := spByte t (offsetIn va)
      match look (s.core t.core).banks (byte / 8192) .off with
      | .off => .null 13 va
      | .ret | .waking _ _ => .wake t.core (byte / 8192)
      | .full =>
        if (s.core t.core).poison.contains (byte / 8) then .null 14 va
        else s.readScales g (va + 2) n (vs ++ [BitVec.ofNat 16 (natOfBytes (s.spRead t.core byte 2))])

/-- WAVE_PREPARE (R286): the next row of a tag reaches the array, 8 cycles and its place after its MMA issued, and its scales
are read, or their read fails; a ticket that has changed is a TICKET violation, which is logged (R180, R182). -/
def State.prepareWave (s : State) (core t : Nat) : State :=
  match nextMma (s.cmds.filter fun c => c.core == core && c.tag == t) with
  | none => s
  | some c =>
    match c.kind, s.group? c.uid with
    | .mma _ _ _ _ bfmt blen b128 _ sbase stride issued, some g =>
      let i := c.prepared
      if (s.tag core t).st != TagState.active || s.cyclesOf core < issued + 8 + i || s.lockConflict c.id then s
      else
        let add := fun (vs : List (BitVec 16)) (null : Option (Byte × Word)) =>
          { s with waves := s.waves ++ [(⟨c.id, core, t, i, vs, null, none, false⟩ : Wave)] }.mapCmd c.id fun c =>
            { c with prepared := c.prepared + 1 }
        match s.readScales g (sbase + BitVec.ofNat 64 (i * stride)) (mxBlocks bfmt b128 blen) [] with
        | .got vs => add vs none
        | .null cause va =>
          let t := add [] (some (cause, va))
          if cause == 19 then t.logEngine core c.ctx va (s.pcoreOf g va) false (isPeer va) true 0x09 else t
        | .wake k b => s.wakeBank k b
    | _, _ => s

def execWavePrepare (core tag : Nat) (s : State) : Out := .next (s.prepareWave core tag)

/-- The next wave of a tag is ready. -/
def State.waveReady (s : State) (core t : Nat) : Bool :=
  (s.tag core t).st == TagState.active && s.waves.any fun w => w.core == core && w.tag == t && w.inj.isNone

/-- Replace the first element that satisfies a test. -/
def mapFirst {α : Type} (p : α → Bool) (f : α → α) : List α → List α
  | [] => []
  | x :: xs => if p x then f x :: xs else x :: mapFirst p f xs

/-- The next wave of a tag enters the array. -/
def State.inject (s : State) (core t n : Nat) : State :=
  let now := s.cyclesOf core
  let p := fun w : Wave => w.core == core && w.tag == t && w.inj.isNone
  match s.waves.find? p with
  | none => s
  | some w =>
    (({ s with waves := mapFirst p (fun w => { w with inj := some now }) s.waves }).mapCmd w.cmd fun c =>
      { c with injected := c.injected + 1, begun := true }).mapCore core fun c =>
        { c with rot := BitVec.ofNat 4 t, turn := some n, inj := some now }

/-- WAVE_INJECT (R275, R287): the current turn goes on, or the next tag with a ready wave begins its turn. -/
def execWaveInject (core : Nat) (s : State) : Out :=
  let c := s.core core
  let p := c.rot.toNat
  .next (if c.inj.any fun i => decide (s.cyclesOf core < i + c.cadence) then s
    else match (match c.turn with
        | some n => if n ≤ (look c.tags p .free).qm1.toNat && s.waveReady core p then some (p, n + 1) else none
        | none => none) with
      | some (t, n) => s.inject core t n
      | none =>
        match ((List.range 16).map fun i => (p + 1 + i) % 16).find? (s.waveReady core) with
        | some t => s.inject core t 1
        | none => s.mapCore core fun c => { c with turn := none })

/-- Places of the array's stores. -/
def rowAddr (core bank row : Nat) : Nat := core * 2 ^ 18 + bank * 2 ^ 14 + row * 512
def slotAddr (core slot : Nat) : Nat := core * 2 ^ 16 + slot * 2 ^ 13
def scaleAddr (core slot : Nat) : Nat := core * 2 ^ 13 + slot * 2 ^ 10
def regionAddr (core t : Nat) : Nat := core * 2 ^ 18 + t * 2 ^ 14

/-- A bank row as 128 elements. -/
def State.bankRow (s : State) (core bank row : Nat) : VReg :=
  let bs := s.acc.read (rowAddr core bank row) 512
  Vector.ofFn fun n => BitVec.ofNat 32 (natOfBytes ((bs.drop (4 * n.val)).take 4))

def State.setRow (s : State) (core bank row : Nat) (v : VReg) : State :=
  { s with acc := s.acc.write (rowAddr core bank row) (imageBytes v) }

/-- Bit r of a POIS mask set or cleared. -/
def setBit32 (m : Word32) (r : Nat) (b : Bool) : Word32 := if b then m ||| (1#32 <<< r) else m &&& ~~~(1#32 <<< r)

/-- The record of a null wave (R290). Log 57. -/
def State.waveRecord (s : State) (c : MxCmd) (cause : Byte) (row : Nat) (va : Word) : State :=
  match s.group? c.uid with
  | none => s
  | some g =>
    s.queueRecord c.core c.ctx (s.recordOf g 0x14 cause row 0x20 va c.pc 0 0)

/-- A wave leaves the array (R282 to R284, R290): its row takes its sums, or is marked; an error of its slot or bank is met
(R403). -/
def State.writeWave (s : State) (c : MxCmd) (w : Wave) (err : WaveErr) : State :=
  match c.kind with
  | .mma rb _ rows afmt bfmt blen b128 ovr .. =>
    let t := s.tag c.core c.tag
    let row := rb + w.row
    let slot := slotAddr c.core t.slot.toNat
    let bad := err.slotPar.isSome || s.slotBad.any fun a => decide (slot ≤ a) && decide (a < slot + 8192)
    let null := match w.null with
      | some x => some x
      | none => if bad then some (15, 0) else if err.accEcc && !ovr then some (16, 0) else none
    match null with
    | some (cause, va) =>
      let s := if cause == 15 then (match err.slotPar with
          | some k => s.meetError (coreError 3 c.core (t.slot.toNat * 1024 + k.toNat) c.ctx)
          | none => s)
        else if cause == 16 then s.meetError (coreError 2 c.core (t.bank.toNat * 32 + row) c.ctx) else s
      ((s.mapTag c.core c.tag fun t => { t with pois := setBit32 t.pois row true }).mapCmd c.id fun c =>
        { c with nulled := setBit32 c.nulled row true }).waveRecord c cause row va
    | none =>
      let cb := mxCol bfmt b128
      let tile := s.slots.read slot (128 * cb)
      let sc := s.scales.read (scaleAddr c.core t.slot.toNat) 1024
      let x : WaveIn := ⟨afmt, bfmt, blen, b128, rows.getD w.row [], w.scales⟩
      let r := x.run ovr (fun n => (tile.drop (cb * n)).take cb)
        (fun b n => BitVec.ofNat 16 (natOfBytes ((sc.drop (2 * (128 * b + n))).take 2))) (s.bankRow c.core t.bank.toNat row)
      let s := (s.setRow c.core t.bank.toNat row r.1).mapCmd c.id fun c => { c with flags := c.flags ||| r.2 }
      if ovr then s.mapTag c.core c.tag fun t => { t with pois := setBit32 t.pois row false } else s
  | _ => s

/-- The wave of a core that was injected first. -/
def State.oldestWave (s : State) (core : Nat) : Option Wave :=
  (s.waves.filter fun w => w.core == core && w.inj.isSome).foldl (fun (b : Option Wave) w =>
    match b with
    | none => some w
    | some x => if w.inj.getD 0 < x.inj.getD 0 then some w else b) none

/-- An MMA one of whose waves has ended. -/
def State.waveDone (s : State) (id : Nat) : State :=
  match s.cmd? id with
  | none => s
  | some c =>
    let c := { c with finished := c.finished + 1 }
    let m := match c.kind with | .mma _ m .. => m | _ => 0
    let s := s.mapCmd id fun _ => c
    if c.finished == (if c.killed then c.injected else m) then s.endMma c else s

/-- WAVE_WRITEBACK: 200 cycles after its injection a wave leaves the array; one of a removed tag writes nothing (R272,
R302). Log 62. -/
def execWaveWriteback (core : Nat) (err : WaveErr) (s : State) : Out :=
  .next (match s.oldestWave core with
    | none => s
    | some w =>
      if s.cyclesOf core < w.inj.getD 0 + 200 then s
      else
        let s1 := { s with waves := s.waves.filter fun x => x != w }
        match s.cmd? w.cmd with
        | none => s1
        | some c => (if w.off then s1 else s1.writeWave c w err).waveDone w.cmd)

/-! ## WLOAD, drains and MZERO in their turn (R263, R278) -/

/-- The oldest command of a tag, when it may begin. -/
def State.startable (s : State) (core t : Nat) : Option MxCmd :=
  (s.headCmd core t).bind fun c => if c.begun || s.lockConflict c.id then none else some c

/-- WLOAD_BEGIN. -/
def execWloadBegin (core tag : Nat) (s : State) : Out :=
  .next (match s.startable core tag with
    | some c => match c.kind with
      | .wload .. => s.mapCmd c.id fun c => { c with begun := true }
      | _ => s
    | none => s)

/-- WLOAD_COMPLETE (R296): the tile and the scales stand in the slot; words read with an uncorrectable error leave cells of bad
parity, those of a column whose scale is among them too (R289), and each error is met (R403). `bad` names 8-byte words of the
region. Log 50. The cells and scales beyond a smaller or an unscaled tile hold zeros, on which R296 is silent (log 142). -/
def State.finishWload (s : State) (c : MxCmd) (fmt : Byte) (blen : BitVec 2) (b128 : Bool) (tile scales : Nat) (bad : List Nat) :
    State :=
  let slot := (s.tag c.core c.tag).slot.toNat
  let size := 128 * mxCol fmt b128
  let at' := slotAddr c.core slot
  let region := regionAddr c.core c.tag
  let nsc := 256 * mxBlocks fmt b128 blen
  let badScales := (bad.filter fun w => decide (scales / 8 ≤ w) && decide (w < (scales + nsc) / 8)).eraseDups.map fun w => w - scales / 8
  let cells := (List.range size).filter fun i =>
    bad.contains ((tile + i) / 8) || (List.range 4).any fun b => badScales.contains (32 * b + i / mxCol fmt b128 / 4)
  let keep := s.slotBad.filter fun a => !(decide (at' ≤ a) && decide (a < at' + 8192))
  let s := { s with
    slots := (s.slots.clear at' (at' + 8192)).write at' (s.wb.read (region + tile) size)
    scales := (s.scales.clear (scaleAddr c.core slot) (scaleAddr c.core slot + 1024)).write (scaleAddr c.core slot)
      (s.wb.read (region + scales) nsc)
    slotBad := keep ++ cells.map fun i => at' + i }
  let hit := (bad.filter fun w => decide (tile / 8 ≤ w) && decide (w < (tile + size + 7) / 8)).eraseDups
  let s := hit.foldl (fun s w => s.meetError (coreError 3 c.core (slot * 1024 + (w - tile / 8)) c.ctx)) s
  let s := badScales.foldl (fun s w => s.meetError (coreError 3 c.core (8192 + slot * 128 + w) c.ctx)) s
  (s.mapTag c.core c.tag fun t => { t with bfmt := fmt, blen := blen, b128 := b128 }).endCmd c

/-- Log 50. -/
def execWloadComplete (core tag : Nat) (bad : List Nat) (s : State) : Out :=
  .next (match s.headCmd core tag with
    | some c => match c.begun, c.kind with
      | true, .wload fmt blen b128 tile scales => s.finishWload c fmt blen b128 tile scales bad
      | _, _ => s
    | none => s)

/-- MZERO_EXECUTE (R300). -/
def execMzeroExecute (core tag : Nat) (s : State) : Out :=
  .next (match s.startable core tag with
    | some c => match c.kind with
      | .mzero rb m =>
        let bank := (s.tag core tag).bank.toNat
        ({ s with acc := s.acc.clear (rowAddr core bank rb) (rowAddr core bank (rb + m)) }.mapTag core tag fun t =>
          { t with pois := (List.range m).foldl (fun p i => setBit32 p (rb + i) false) t.pois }).endCmd c
      | _ => s
    | none => s)

/-- The group of a drain faults exactly at its instruction, with no effect and nothing popped (R194, R298, R302). A command
of a group that has gone ends alone. -/
def State.drainFault (s : State) (c : MxCmd) (acc : Nat) (pops : List Word) (code cause : Byte) (lanes : List LaneFault) : State :=
  (s.endCmd c).withGroup c.uid fun s =>
    match s.cur.acc? acc with
    | none => s
    | some a =>
      let s := s.mapCur fun g =>
        let g := g.rollback a
        { g with dq := pops.map (fun v => ⟨false, g.mode, v, g.seq, g.sAfter⟩) ++ g.dq }
      s.dispatch ⟨.exact, code, cause, causeWord code cause, true, a.ps1, a.pc, lanes, 0,
        if lanes.isEmpty then BitVec.allOnes 128 else oneLane 0, none, s.time, c.core, false⟩

/-- The rows of a drain have been checked: it faults no more, and its path goes on (R298). -/
def Access.checked (a : Access) : Access :=
  match a.kind with
  | .drain c n _ => { a with kind := .drain c n true, snap := .none }
  | _ => a

/-- DRAIN_BEGIN (R298): its rows are checked in turn, and the first bad one is marked and ends it; where none is, the path that
issued it goes on. The address of a bank row's POISON is a free value (log 2). `bad` names bank rows whose read holds an
uncorrectable word, an error that is met (R403). -/
def execDrainBegin (core tag : Nat) (bad : List Nat) (s : State) : Out :=
  .next (match s.startable core tag with
    | some c => match c.kind with
      | .drain _ _ _ _ _ _ _ _ rb m _ pops acc =>
        match ((List.range m).map (rb + ·)).find? fun r => (s.tag core tag).pois.getLsbD r || bad.contains r with
        | none => (s.mapCmd c.id fun c => { c with begun := true }).mapGroup c.uid fun g =>
            { g with accs := mapIf g.accs (fun a => a.seq == acc) Access.checked }
        | some r =>
          let f : MemFault := ⟨0x0A, 10, Config.freeWord s.fresh, Config.freeWord (s.fresh + 1)⟩
          let new := bad.contains r && !(s.tag core tag).pois.getLsbD r
          let t := { s with fresh := s.fresh + 2 }.mapTag core tag fun t => { t with pois := setBit32 t.pois r true }
          let t := if new then t.meetError (coreError 2 core ((s.tag core tag).bank.toNat * 32 + r) c.ctx) else t
          t.drainFault c acc pops 0x0A 10 [⟨255, f⟩]
      | _ => s
    | none => s)

/-- The output rows of a drain and its flags. -/
def State.drainRows (s : State) (c : MxCmd) (d : DrainIn) (rb m : Nat) (resid : List VReg) : List VReg × Byte :=
  let bank := (s.tag c.core c.tag).bank.toNat
  let rows : List (Vector (Nat × Byte) 128) := (List.range m).map fun i =>
    let x := s.bankRow c.core bank (rb + i)
    let r := resid[i]?
    Vector.ofFn fun n => d.elem i n.val x[n] (r.map fun r => r[n])
  (rows.map fun r => r.map fun e => BitVec.ofNat 32 e.1, rows.foldl (fun f r => r.foldl (fun f e => f ||| e.2) f) 0)

/-- Bank rows zeroed by .clr. -/
def State.clearRows (s : State) (c : MxCmd) (rb m : Nat) : State :=
  let bank := (s.tag c.core c.tag).bank.toNat
  { s with acc := s.acc.clear (rowAddr c.core bank rb) (rowAddr c.core bank (rb + m)) }

/-- The blocks that a late delivery writes wake where they have fallen (R21); none where it may go on. -/
def State.deliveryWakes (s : State) (uid : Nat) (acc : Nat) : Option State :=
  match s.group? uid with
  | none => none
  | some g => match g.acc? acc with
    | none => none
    | some a => if g.canDeliver a then none else some (s.withGroup uid fun s => s.wakeDest a)

/-- The access of a drain completes with the values of its registers. -/
def State.finishDrain (s : State) (uid acc : Nat) (rows : List VReg) : State :=
  s.withGroup uid fun s =>
    match s.cur.acc? acc with
    | none => s
    | some a =>
      let reqs := (rows.zipIdx).flatMap fun x => (List.range 128).map fun n =>
        { reqOf (128 * x.2 + n) 0 0 4 0 0 with ans := some ((look x.1 n 0).setWidth 64) }
      s.completeAccess { a with reqs := reqs }

/-- An engine command of a group faults: one record, and a stop of the group at its next S-stream boundary, with lane 0 for the
handler's blocks (R265, R313). The fault of a command that a handler issued ends the grid (R316). -/
def State.engineStop (s : State) (core ctx uid : Nat) (pc : Word) (handler wr : Bool) (f : MemFault) : State :=
  match s.group? uid with
  | none => s
  | some g =>
    let gone := g.status == .exited
    let flags : Byte := 0x20 ||| (if wr then 0x02 else 0) ||| (if gone then 0x10 else 0)
    let s := s.queueRecord core ctx (s.recordOf g f.code f.cause 0xFF flags f.addr pc (if f.code == 0x0A then f.pa else 0) 0)
    if gone then s
    else if handler then s.withGroup uid fun s => s.endGrid f.code
    else s.mapGroup uid fun g => g.addStop
      ⟨.imprecise, f.code, f.cause, causeWord f.code f.cause, false, false, pc, [], flags, oneLane 0, none, s.time, core, true⟩

/-- Window banks that a range of a window needs. -/
def banksOf (t : Team) (off n : Nat) : List Nat :=
  (List.range 48).filter fun b => decide (spByte t off / 8192 ≤ b) && decide (b ≤ (spByte t (off + n - 1)) / 8192)

/-- The bytes of a row of MDRSP (R297). -/
def drainImage (ty : ElemType) (v : VReg) : List Byte := v.toList.flatMap fun x => bytesOf (drainBytes ty) x.toNat

/-- DRAIN_COMPLETE of an MDRSP: the rows go to the window once its banks are FULL; a freed window ends the command with
TICKET (R264, R297). Log 49. -/
def State.drainToSp (s : State) (c : MxCmd) (g : Group) (base : Word) (ty : ElemType) (rows : List VReg) (acc : Nat) (k : State → State) :
    State :=
  let bs := rows.flatMap (drainImage ty)
  match s.localTarget g base bs.length with
  | .inl f =>
    let p := s.pcoreOf g base
    let s := s.logEngine c.core c.ctx base p true (isPeer base) true f.code
    ((s.endCmd c).finishDrain c.uid acc []).engineStop c.core c.ctx c.uid c.pc c.handler true f
  | .inr t =>
    let need := (banksOf t (offsetIn base) bs.length).filter fun b => look (s.core t.core).banks b .off != .full
    if !need.isEmpty then need.foldl (fun s b => s.wakeBank t.core b) s
    else
      let byte := spByte t (offsetIn base)
      k ((List.range (bs.length / 8)).foldl (fun s i => s.spWrite t.core (byte + 8 * i) ((bs.drop (8 * i)).take 8)) s)

/-- DRAIN_COMPLETE (R298); the blocks that its registers stand in power up first (R21). Log 49. A tag with no completed WLOAD, BFMT 0,
drains as an accumulator in F32, on which R298 is silent (log 143). -/
def execDrainComplete (core tag : Nat) (s : State) : Out :=
  .next (match s.headCmd core tag with
    | none => s
    | some c =>
      match c.begun, c.kind, s.group? c.uid with
      | true, .drain toSp _ base ty rnd sat clr drop rb m resid _ acc, some g =>
        let t := s.tag core tag
        let d : DrainIn := ⟨mxInt t.bfmt t.blen, ty, rnd, sat, drop.map fun x => ⟨x.1, x.2.1, x.2.2⟩⟩
        let r := s.drainRows c d rb m resid
        let done := fun (s : State) =>
          let s := if clr then s.clearRows c rb m else s
          ((s.cmdFlags c r.2).endCmd c).finishDrain c.uid acc (if toSp then [] else r.1)
        if toSp then s.drainToSp c g base ty r.1 acc done else (s.deliveryWakes c.uid acc).getD (done s)
      | true, .drain _ _ _ _ _ _ clr _ rb m _ _ _, none => ((if clr then s.clearRows c rb m else s)).endCmd c
      | _, _, _ => s)

/-! ## Removal and scrub (R302, R350) -/

/-- A command that has not begun is removed. Log 107. -/
def State.removeCmd (s : State) (c : MxCmd) : State :=
  match c.kind with
  | .drain _ _ _ _ _ _ _ _ _ _ _ pops acc => s.drainFault c acc pops 0x18 0 []
  | _ => s.endCmdAs c 2 0

/-- Steps 1 and 2 of R302. Log 107, 110. -/
def State.killTag (s : State) (core t : Nat) : State :=
  let mine := fun (c : MxCmd) => c.core == core && c.tag == t
  let s := (s.mapTag core t fun x => { x with st := .dying }).mapCore core fun c =>
    { c with turn := if c.rot.toNat == t then none else c.turn }
  let s := { s with
    waves := (s.waves.filter fun (w : Wave) => !(w.core == core && w.tag == t && w.inj.isNone)).map fun (w : Wave) =>
      if w.core == core && w.tag == t then { w with off := true } else w
    cmds := s.cmds.map fun c => if mine c && c.begun then { c with killed := true } else c }
  (s.cmds.filter mine).foldl (fun s c =>
    match c.begun, c.kind with
    | false, _ => s.removeCmd c
    | true, .mma .. => if c.finished == c.injected then s.endMma c else s
    | true, _ => s) s

/-- A tag becomes FREE, and with it any turn it had ends (R287). -/
def State.freeTag (s : State) (core t : Nat) : State :=
  (s.mapTag core t fun _ => .free).mapCore core fun c => { c with turn := if c.rot.toNat == t then none else c.turn }

/-- TAG_SCRUB, step 5 of R302: once its waves and its commands have ended, the bank and the slot are zero and the tag is
FREE. -/
def State.scrubTag (s : State) (core t : Nat) : State :=
  let x := s.tag core t
  let bank := rowAddr core x.bank.toNat 0
  let slot := slotAddr core x.slot.toNat
  let sc := scaleAddr core x.slot.toNat
  { s with
    acc := s.acc.clear bank (bank + 2 ^ 14), slots := s.slots.clear slot (slot + 2 ^ 13), scales := s.scales.clear sc (sc + 2 ^ 10)
    slotBad := s.slotBad.filter fun a => !(decide (slot ≤ a) && decide (a < slot + 2 ^ 13)) }.freeTag core t

/-- Log 110. -/
def execTagScrub (core tag : Nat) (s : State) : Out :=
  .next (if (s.tag core tag).st == TagState.dying && !(s.waves.any fun w => w.core == core && w.tag == tag) &&
      (s.headCmd core tag).isNone then s.scrubTag core tag else s)

/-- TAGKILL at a level (R326): the status and the state after it. Log 107. -/
def State.tagkill (s : State) (core ctx : Nat) (mach : Bool) (v : Word) : Word × State :=
  let t := v.toNat % 16
  let x := s.tag core t
  if v >>> 4 != 0 then (3, s)
  else if x.st == TagState.free || (!mach && x.ctx.toNat != ctx) then (4, s)
  else if x.st == TagState.dying then (1, s)
  else (0, s.killTag core t)

end Sys2Proof.Machine
end

