-- ==== Sys2Proof/Machine/LCtl.lean ====
section
/-! DEFINITION. Control instructions of the L-stream (R125 to R132), votes and returns (R136, R137), and the events that
start a block, complete an L-stream instruction and expire the watchdog (R12, R25, R134). -/

namespace Sys2Proof.Machine

/-- An offset own + 3 * displacement within the limits of R66 (R125). -/
def offsetOf (own : Nat) (d : BitVec 16) : Option Nat :=
  let i : Int := own + 3 * d.toInt
  if 0 ≤ i && i ≤ 524286 && i % 3 == 0 then some i.toNat else none

/-- Target field and join or exit field of the block in word2 (R125). -/
def farField (o : LOp) : BitVec 16 := o.w2.extractLsb' 16 16
def nearField (o : LOp) : BitVec 16 := o.w2.extractLsb' 0 16

/-- The predicate operand of a control instruction in the lanes of a path, after negation (R125). -/
def Group.ctlPred (g : Group) (o : LOp) (m : Mask) : Mask :=
  let p := g.pget m (modField o 0 3)
  m &&& (if modBit o 3 then ~~~p else p)

/-- What a control instruction uses. It may issue behind an access that awaits a value unless it could touch the spill
area (R194; log 18). -/
def State.ctlUse (s : State) (o : LOp) : LUse :=
  { preads := [BitVec.ofNat 3 (modField o 0 3)], free := decide (s.cur.l.stack.length ≤ 8) }

/-- Move the path of the turn. -/
def State.setPath (s : State) (pc : Nat) (m : Mask) : State := s.mapL fun l => l.setPath s.ps1 (some ⟨pc, m⟩)

/-- The program counter of the path of the turn. -/
def State.own (s : State) : Nat := match s.cur.path s.ps1 with | some p => p.pc | none => 0

/-- BDIV (R126). -/
def State.bdiv (s : State) (target join : Nat) (m t : Mask) : State :=
  let f := m &&& ~~~t
  let full := s.cur.l.nestFull m
  let other := s.cur.path (!s.ps1)
  if full != 0 then s.raiseNest full
  else if t == m || f == 0 || t == 0 then
    (s.mapL fun l => l.nestUp m).setPath (if t == m then target else s.own + 3) m
  else if 72 < s.cur.l.stack.length + (if other.isSome then 2 else 1) then s.raiseL 0x0C
  else
    let parked := match other with
      | some o => s.pushEntry ⟨.park, o.pc, o.mask⟩
      | none => some s
    orSpill s (parked.bind fun s1 => (s1.pushEntry ⟨.join, join, m⟩).map fun s2 =>
      (s2.mapL fun l => ((l.nestUp m).setPath (!s.ps1) (some ⟨s.own + 3, f⟩))).setPath target t)

def execBdiv (o : LOp) (s : State) : Out :=
  .next (match offsetOf s.own (farField o), offsetOf s.own (nearField o) with
    | some target, some join =>
      s.lIssue o.g (s.ctlUse o) fun x => x.st.bdiv target join x.active (s.cur.ctlPred o x.active)
    | _, _ => s.raiseL 0x01)

/-- A JOIN that passes: lanes whose counter exceeds their entries step it down (R124). -/
def State.joinPass (s : State) (m : Mask) : State :=
  (s.mapL fun l => l.nestDown (maskOf ((lanesOf m).filter fun i => l.entriesOf i < (look l.nest i 0).toNat))).setPath
    (s.own + 3) m

/-- JOIN (R127). -/
def State.join (s : State) (m : Mask) : State :=
  match topRegion s.cur.l.stack with
  | some (e, below) =>
    if e.kind == .join && e.pc == s.own then orSpill s s.dissolve
    else if s.cur.l.hold.isSome && below.any fun e => e.kind == .join && e.pc == s.own then s.raiseL 0x0E
    else s.joinPass m
  | none => s.joinPass m

def execJoin (o : LOp) (s : State) : Out :=
  .next (s.lIssue o.g (s.ctlUse o) fun x => x.st.join x.active)

/-- The rest of BLOOP once the path is in its loop's region (R129). -/
def State.bloopRest (s : State) (top : Nat) (t : Mask) : Option State :=
  if t == 0 then s.dissolve else some (s.setPath top t)

/-- BLOOP (R129). -/
def State.bloop (s : State) (top exit : Nat) (m t : Mask) : State :=
  let mine := match topRegion s.cur.l.stack with
    | some (e, _) => e.kind == EntryKind.loop && e.pc == exit
    | none => false
  if mine then orSpill s (s.bloopRest top t)
  else if t == 0 then s.setPath exit m
  else
    let full := s.cur.l.nestFull m
    if full != 0 then s.raiseNest full
    else if 72 < s.cur.l.stack.length + 1 then s.raiseL 0x0C
    else orSpill s ((s.pushEntry ⟨.loop, exit, m⟩).bind fun s1 => (s1.mapL fun l => l.nestUp m).bloopRest top t)

def execBloop (o : LOp) (s : State) : Out :=
  .next (match offsetOf s.own (farField o), offsetOf s.own (nearField o) with
    | some top, some exit =>
      s.lIssue o.g (s.ctlUse o) fun x => x.st.bloop top exit x.active (s.cur.ctlPred o x.active)
    | _, _ => s.raiseL 0x01)

/-- BUNI (R130). -/
def execBuni (o : LOp) (s : State) : Out :=
  .next (match offsetOf s.own (farField o) with
    | some target =>
      s.lIssue o.g { s.ctlUse o with free := true } fun x =>
        let t := s.cur.ctlPred o x.active
        if t == x.active then x.st.setPath target x.active
        else if t == 0 then x.st.setPath (s.own + 3) x.active
        else s.raiseL 0x0F
    | none => s.raiseL 0x01)

/-- The lanes of a mask leave every mask of the group (R131). -/
def LState.retire (l : LState) (k : Mask) : LState :=
  let cut := fun p : Option Path => p.bind fun p => if p.mask &&& ~~~k == 0 then none else some { p with mask := p.mask &&& ~~~k }
  { l with
    live := l.live &&& ~~~k
    ps0 := cut l.ps0
    ps1 := cut l.ps1
    stack := l.stack.map fun e => { e with mask := e.mask &&& ~~~k }
    hold := l.hold.map fun h => { h with mask := h.mask &&& ~~~k }
    nest := Vector.ofFn fun i => if k.getLsbD i.val then 0 else l.nest[i] }

/-- The spilled entries written again after their masks changed (R123, R131). Log 18. -/
def State.respill (s : State) : List (StackEntry × Nat) → Option State
  | [] => some s
  | (e, i) :: es => (s.spillWrite i e).bind fun s => s.respill es

/-- LKILL (R131). -/
def State.lkill (s : State) (m k : Mask) : State :=
  let s1 := (s.mapL fun l => l.retire k)
  let spilled := ((s1.cur.l.stack.drop 8).reverse.zipIdx)
  orSpill s ((s1.respill spilled).bind fun s2 =>
    if m &&& ~~~k == 0 then s2.dissolve else some (s2.setPath (s.own + 3) (m &&& ~~~k)))

def execLkill (o : LOp) (s : State) : Out :=
  .next (s.lIssue o.g (s.ctlUse o) fun x => x.st.lkill x.active (s.cur.ctlPred o x.active))

/-- A path enters a hold (R132). Log 27. -/
def State.enterHold (s : State) (k : HoldKind) (m : Mask) : State :=
  let held := (s.cur.l.hold.map Hold.mask).getD 0
  orSpill s (s.mapL fun l => { l with hold := some ⟨k, held ||| m⟩ }).dissolve

/-- VBAR (R132, R133). In a converged group every earlier event of the L-stream comes before every later one (R138, R223). -/
def execVbar (o : LOp) (s : State) : Out :=
  .next (s.lIssue o.g { free := false } fun x =>
    if x.st.cur.converged then (x.st.mapCur fun g => { g.followAll with wdog := 0 }).setPath (s.own + 3) x.active
    else match x.st.cur.l.hold with
      | some h => if h.kind == .vbar s.own then x.st.enterHold (.vbar s.own) x.active else s.raiseL 0x0E
      | none => x.st.enterHold (.vbar s.own) x.active)

/-- LEND (R132, R133). The block ends once every instruction it issued has completed. -/
def execLend (o : LOp) (s : State) : Out :=
  .next (s.lIssue o.g { free := false } fun x =>
    if x.st.cur.converged then x.st.endBlock
    else match x.st.cur.l.hold with
      | some h => if h.kind == .lend then x.st.enterHold .lend x.active else s.raiseL 0x0E
      | none => x.st.enterHold .lend x.active)

/-! ## Votes and returns -/

/-- Append values to the RQ (R13). -/
def State.rqPush (s : State) (vs : List Word) : State := s.mapCur fun g => { g with rq := g.rq ++ vs }

/-- What a VOTE appends (R136). -/
def voteValues (mode : Nat) (a v : Mask) : List Word :=
  match mode with
  | 0 => [if v == 0 then 0 else 1]
  | 1 => [if v == a then 1 else 0]
  | 2 => [BitVec.ofNat 64 (popcount v)]
  | _ => [v.extractLsb' 0 64, v.extractLsb' 64 64]

def execVote (o : LOp) (s : State) : Out :=
  let mode := modField o 4 2
  let u : LUse := { preads := [BitVec.ofNat 3 (modField o 0 3)], pushes := if mode == 3 then 2 else 1 }
  .next (s.lIssue o.g u fun x => (x.st.rqPush (voteValues mode x.active (s.cur.ctlPred o x.active))).lNext)

/-- The lowest lane of a mask. -/
def lowestLane (m : Mask) : Nat := (lanesOf m).headD 0

/-- The value RPUT appends (R137). -/
def rputValue (g : Group) (o : LOp) (active : Mask) (popped : List Word) : Word :=
  match o.c with
  | .vec r _ =>
    let v := g.vget r
    let x := look v (if modBit o 2 then lowestLane active else 0) 0
    if modBit o 1 then v[1] ++ v[0] else if modBit o 0 then x.signExtend 64 else x.setWidth 64
  | .imm => o.w2.signExtend 64
  | .dq => popped.headD 0
  | .kreg n => look g.l.k n.toNat 0

def execRput (o : LOp) (s : State) : Out :=
  let u := ({ pushes := 1 } : LUse).withC o.c
  .next (s.lIssue o.g u fun x => (x.st.rqPush [rputValue s.cur o x.active x.popped]).lNext)

/-! ## Events of the L-stream -/

/-- The oldest block entry an idle L-stream may take: in handler mode one of the handler's, otherwise one of the user's
(R12, R315). -/
def Group.blockEntry (g : Group) : Option DqEntry := g.dq.find? fun e => e.block && e.handler == g.mode

/-- The mask with which a block begins: every live lane, or in a handler the mask of the stop (R121, R313). -/
def Group.blockMask (g : Group) : Mask := match g.handler with | some h => h.stop.mask | none => g.l.live

/-- BLOCK_START: an idle L-stream takes the oldest block entry, after what came before its LRUN (R12, R14, R121). A block
entered with no live lane ends at once (R131). -/
def execBlockStart (uid : Nat) (s : State) : Out :=
  .next (match s.group? uid with
    | none => s
    | some g =>
      if !s.issues g || g.running then s
      else match g.blockEntry with
        | none => s
        | some e =>
          s.mapGroup uid fun g =>
            let g := { g with dq := g.dq.erase e }
            if g.blockMask == (0 : Mask) then { g with wdog := 0 }
            else { g with
              running := true, hbase := e.handler, lAfter := e.seq, bAfter := e.join
              l := { g.l.nestZero with
                ps0 := some ⟨e.val.toNat, g.blockMask⟩, ps1 := none, stack := [], hold := none } })

/-- The oldest issued instruction of the L-stream may complete unless an older access awaits its value (R25, R194). -/
def Group.mayComplete (g : Group) : Bool :=
  match g.lpend with
  | [] => false
  | e :: _ => !(g.accs.any fun a => a.l && a.valued && decide (a.seq < e.seq))

/-- L_INSTRUCTION_COMPLETE: the oldest issued instruction ORs its flags and leaves the scoreboard (R25, R93). Log 20. -/
def execLInstructionComplete (uid : Nat) (s : State) : Out :=
  .next (s.mapGroup uid fun g =>
    if g.mayComplete then
      match g.lpend with
      | [] => g
      | e :: es => { g with flags := g.flags ||| e.flags, lpend := es }
    else g)

/-- Limit of the watchdog: 0 in the launch record selects 2^34 (R134, R142). -/
def State.wdogLimit (s : State) (g : Group) : Nat :=
  let w := (s.gridOf g).launch.wdog.toNat
  if w == 0 then 2 ^ 34 else w

/-- WATCHDOG_EXPIRY stops the whole group (R134, R321). Log 27. -/
def execWatchdogExpiry (uid : Nat) (s : State) : Out :=
  .next (match s.group? uid with
    | none => s
    | some g =>
      if g.watched && s.wdogLimit g ≤ g.wdog then
        s.withGroup uid fun s =>
          s.dispatch ⟨.whole, 0x10, 0, 0, false, false, s.cur.s.pc, [], 0, BitVec.allOnes 128, none, s.time,
            s.coreOf s.cur, false⟩
      else s)

end Sys2Proof.Machine
end

