-- ==== Sys2Proof/Machine/Sys.lean ====
section
/-! DEFINITION. The SYS forms (R318 to R320), the return from a handler (R319), instructions that fault before they have a
meaning (R56, R57), and the events by which stops reach their groups (R312, R313, R316, R323). -/

namespace Sys2Proof.Machine

/-! ## The machine event log (R419) -/

/-- Append a record of a type, stamped with a source number. It is a write of world 0 to part of a line: one that the line refuses
leaves no bytes, and is counted (R365). It waits while its line changes level (R393), and waits out the TIME of a record of a higher
source number, so that records of one TIME stand in the order of R1. Log 133. -/
def State.logEvent (s : State) (src : Nat) (type : Byte) : State :=
  let base := s.dev.mevb.toNat / 4096 % 2 ^ 40 * 4096
  let pa := base + 16 * (s.dev.mevt % 256)
  let rec' := bytesOf 8 s.time ++ bytesOf 2 src ++ [type] ++ List.replicate 5 0
  let s := s.holdIf ((base != 0 && s.levelHeld pa) || s.dev.mevLast.any fun x => x.1 == s.time && decide (src < x.2))
  let s := if base == 0 || (s.sliceErr 0 pa).isSome then s else s.memWrite 0 pa rec'
  { s with dev := { s.dev with mevt := s.dev.mevt + 1, mevLast := some (s.time, src) } }

/-! ## Instructions -/

def execNop (s : State) : Out := .next (s.sIssue .user [] true fun s => s.nextPc 4)

/-- TRAPFENCE (R26, R320): the effect of SJOIN, then ARITH when a trapping flag is set. -/
def execTrapfence (s : State) : Out :=
  .next (s.sIssue .user [] false fun s =>
    let f := s.cur.flags &&& s.cur.fmask
    if !s.cur.lIdle then s
    else if f != 0 then s.joinS.sFault (s.sStop 0x11 0 (f.setWidth 64) [] 0)
    else s.joinS.nextPc 4)

/-- SYSCALL and BKPT enter a vector after the instruction (R312, R318). Log 41. -/
def State.softStop (s : State) (code : Byte) (hs1 : Word) : State :=
  let s := s.nextPc 4
  s.dispatch (s.sStop code 0 hs1 [] 0)

/-- Log 41. -/
def execSyscall (a : SReg) (s : State) : Out :=
  .next (s.sIssue .user [a] false fun s =>
    if s.cur.handler.isSome then s.raise 0x01
    else if !s.cur.lIdle then s
    else s.joinS.softStop 0x1B (s.sget a))

/-- A debug port is attached to the group's partition, with breakpoints on (R318, R375, R410). -/
def State.debugging (s : State) (g : Group) : Bool :=
  s.dev.dbgPort.getLsbD 0 && s.dev.dbgPort.getLsbD 1 && (s.dev.dbgPort.extractLsb' 4 4).toNat == (s.ctxOf g).part

/-- BKPT (R318). Log 41. -/
def execBkpt (s : State) : Out :=
  .next (s.sIssue .user [] false fun s =>
    if s.cur.handler.isSome then s.raise 0x01
    else if !s.cur.lIdle then s
    else if s.debugging s.cur then s.joinS.mapCur fun g => { g with wait := .debug }
    else s.joinS.softStop 0x1C 0)

/-- DEBUG_PORT_RESUME: the port releases the group after its BKPT. -/
def execDebugPortResume (uid : Nat) (s : State) : Out :=
  .next (s.mapGroup uid fun g => g.endWait (· == .debug) (· + 4) [])

/-- HALT (R318). -/
def execHalt (s : State) : Out :=
  .next (s.sIssue .mach [] false fun s => s.exitWait fun s => s.logEvent (s.coreOf s.cur) 1)

/-! ## RETF (R319) -/

/-- The user's L-stream state as RETF restores it: lanes retired by the handler's blocks leave it too (R131, R250). -/
def Handler.restoreL (h : Handler) (now : LState) : LState :=
  let gone := h.user.live &&& ~~~now.live
  { now with
    hvLife := Vector.replicate 8 .dead, preds := h.user.preds, k := h.user.k, ps0 := h.user.ps0, ps1 := h.user.ps1
    stack := h.user.stack, nest := h.user.nest, hold := h.user.hold, live := h.user.live }.retire gone

/-- The replay the user goes on with: that of the stop, or one banked, unless its path resumes elsewhere (R250, R319). -/
def Handler.replayAt (h : Handler) (same : Bool) : Option Replay :=
  if h.stop.l && !same then h.replay.filter fun r => r.ps1 != h.stop.ps1
  else match h.stop.replay with
    | some r => some r
    | none => h.replay

/-- Leave handler mode: the banked state comes back, and the stopped stream resumes at hs2, with replay where hs2 is
unchanged. An hs2 whose low two bits are not zero is resumed at as it stands: R319 takes hs2 and says nothing of R7. Log 38, 129. -/
def Group.leaveHandler (g : Group) (h : Handler) : Group :=
  let hs2 := g.s.get 98
  let same := hs2 == h.stop.pc
  let l := h.restoreL g.l
  let moved := match (if h.stop.ps1 then l.ps1 else l.ps0) with
    | some p => l.setPath h.stop.ps1 (some { p with pc := hs2.toNat })
    | none => l
  let cut := fun r : Replay => { r with mask := r.mask &&& l.live }
  let back : Group := { g with
    handler := none, level := h.level, running := h.running, hbase := h.hbase, latch := h.latch, wdog := 0, lAfter := h.lAfter,
    bAfter := h.bAfter
    l := if h.stop.l && !same then moved else l
    replay := (h.replayAt same).map cut }
  if h.stop.l || same then
    match h.wait with
    | .go pc ws => back.goOn pc ws
    | w => { back with wait := w, s := { g.s with pc := h.userPc } }
  else { back with wait := .none, s := { g.s with pc := hs2 } }

/-- The stop came from an engine command, or one merged into it (R265, R316). -/
def Stop.fromEngine (st : Stop) : Bool := st.rflags &&& 0x20 != 0

/-- RETF from the stop of an engine command resumes the group's suspended copies, or marks them while the context is halting
or halted (R265). Log 56. -/
def State.resumeCopies (s : State) (uid : Nat) (st : Stop) : State :=
  let held := (s.ctxOf s.cur).st == .halting || (s.ctxOf s.cur).st == .halted
  if st.fromEngine then
    { s with copies := mapIf s.copies (fun c => c.uid == uid && c.st == .suspended) fun c =>
        if held then { c with resume := true } else { c with st := .running } }
  else s

/-- A wait that has not issued issues again at resume (R331). Log 69. -/
def SWait.atHalt : SWait → SWait
  | .mwait .. | .lwait | .launch .. | .fenceRem _ => .none
  | w => w

/-- A group stops at instruction level: waiting instructions count as not issued, and a stop that awaits a shadow set is held
(R331, R333). A handler runs on. Log 69. -/
def Group.halt (g : Group) : Group :=
  if g.parked || g.handler.isSome then g
  else
    { g with halted := true, wait := SWait.atHalt g.wait }.holdStop

/-- After the handler retired lanes, spilled entries are written again, a path of the user's that has no lane left dissolves
with its replay, and the slots refill (R123, R128, R131). Log 105. -/
def State.dropRetired (s : State) (h : Handler) : State :=
  let l := s.cur.l
  let lost := fun ps1 : Bool => if ps1 then h.user.ps1.isSome && l.ps1.isNone else h.user.ps0.isSome && l.ps0.isNone
  if s.cur.running && h.user.live != l.live then
    let s := s.mapCur fun g => { g with replay := g.replay.bind fun r => if lost r.ps1 then none else some r }
    orSpill s ((s.respill ((l.stack.drop 8).reverse.zipIdx)).bind fun t =>
      if lost false || lost true then t.refill (l.stack.length + 1) else some t)
  else s

/-- RETF. A group of a HALTING context stops at its first user boundary (R331). Log 56, 105. -/
def execRetf (s : State) : Out :=
  .next (s.sIssue .super [] false fun s =>
    match s.cur.handler with
    | none => s.raise 0x01
    | some h =>
      if !s.cur.lIdle then s
      else
        let halting := (s.ctxOf s.cur).st == .halting
        let t := ((s.joinS.mapCur fun g => g.leaveHandler h).dropRetired h).resumeCopies s.cur.uid h.stop
        let t := if halting then t.mapCur Group.halt else t
        if halting then { t with waiters := t.waiters.filter fun w => w.uid != s.cur.uid } else t)

/-! ## Faults at steps 1 and 2 of R56 -/

/-- A word that is no instruction (R56 step 2). -/
def execIllegalEncoding (l : Bool) (s : State) : Out := .next (if l then s.raiseL 0x01 else s.raise 0x01)

/-- A fetch that faults (R56 step 1, R57). -/
def execInstructionFetchFault (l : Bool) (f : FetchFault) (s : State) : Out :=
  let m : MemFault := ⟨f.code, f.cause, f.addr, f.pa⟩
  .next (if l then (if s.cur.lWaits then s else (s.logFault m false false).raiseLMem m 0x08)
    else s.sMemFault m 0x08 false false)

/-! ## Stops on their way to a group -/

/-- The point of an imprecise stop: the next instruction of its stream. A path that has dissolved leaves the point to the
other path, or to the S-stream (R217). Log 29. -/
def Group.stopPoint (g : Group) (st : Stop) : Stop :=
  if st.kind != .imprecise then st
  else if !st.l then { st with pc := g.s.pc }
  else match g.path st.ps1, g.path (!st.ps1) with
    | some p, _ => { st with pc := BitVec.ofNat 64 p.pc }
    | none, some p => { st with pc := BitVec.ofNat 64 p.pc, ps1 := !st.ps1 }
    | none, none => { st with l := false, ps1 := false, pc := g.s.pc }

/-- A stop may be dispatched now: the group runs out of a handler, and no halt or ask holds it (R316, R333). -/
def Group.takesStops (g : Group) : Bool := g.status == .run && g.handler.isNone && !g.parked && !g.halted

/-- The group's team is on its move: its stops are taken on the target, after it (R346, R405). -/
def State.onMove (s : State) : Bool := (s.teamOf s.cur).moving

/-- FAULT_DISPATCH: the first stop held is dispatched (R312, R316). -/
def execFaultDispatch (uid : Nat) (s : State) : Out :=
  .next (s.withGroup uid fun s =>
    match s.cur.stops with
    | st :: rest =>
      if s.cur.takesStops && !s.onMove && st.kind != .event then
        (s.mapCur fun g => { g with stops := rest }).dispatch (s.cur.stopPoint st)
      else s
    | [] => s)

/-- DEADLINE_DELIVERY (R323): an event comes once no fault is held. -/
def execDeadlineDelivery (uid : Nat) (s : State) : Out :=
  .next (s.withGroup uid fun s =>
    match s.cur.stops with
    | st :: rest =>
      if s.cur.takesStops && !s.onMove && st.kind == .event then
        (s.mapCur fun g => { g with stops := rest }).dispatch { st with pc := s.cur.s.pc }
      else s
    | [] => s)

/-- The point of a stop after accesses of the group have been taken back. -/
def Group.pointAgain (g : Group) (st : Stop) : Stop :=
  match st.kind with
  | .exact => st
  | .imprecise => g.stopPoint st
  | _ => { st with pc := g.s.pc }

/-- HANDLER_ENTRY (R313): a stop that waited for a shadow set, or for the group to drain, enters its handler; one that waited to be
descheduled is (R210, R317). What the trail holds does not keep it (R385). Log 144. -/
def execHandlerEntry (uid : Nat) (s : State) : Out :=
  .next (s.withGroup uid fun s =>
    match s.cur.status with
    | .shadow st entry =>
      if s.canEnter then s.mapCur fun g => g.enter st entry
      else
        let t := (s.takeBack false).takeBack true
        if t.canEnter then t.mapCur fun g => g.enter (g.pointAgain st) entry else t
    | .draining st entry =>
      if s.cur.settled then s.descheduleNow st entry
      else
        let t := (s.takeBack false).takeBack true
        if t.cur.settled then t.descheduleNow (t.cur.pointAgain st) entry else t
    | _ => s)

end Sys2Proof.Machine
end

