-- ==== Sys2Proof/Machine/Priv.lean ====
section
/-! DEFINITION. The supervisor instructions: TAGSET and TAGKILL (R325, R326), PRIVQ (R327), MAPPG (R249), with invalidation
(R241, R242). -/

namespace Sys2Proof.Machine

/-! ## Invalidation -/

/-- A TLB entry of a context translates an address of a range. -/
def TlbEntry.inRange (e : TlbEntry) (ctx lo hi : Nat) : Bool :=
  e.ctx == ctx && decide (e.va < hi) && decide (lo < e.va + e.size)

/-- Every TLB drops the translations of a range of a context. -/
def State.dropRange (s : State) (ctx lo hi : Nat) : State :=
  let cut := fun l : List TlbEntry => l.filter fun e => !e.inRange ctx lo hi
  { s with
    cores := s.cores.map fun c => { c with tlb := cut c.tlb, ahead := cut c.ahead }
    qtlbs := s.qtlbs.map cut }

/-- The accesses in flight of a context that were translated in a range. Log 55. -/
def State.accsIn (s : State) (ctx lo hi : Nat) : List (Nat × Nat) :=
  (s.groups.filter fun g => (s.gridOf g).ctx == ctx).flatMap fun g =>
    (g.accs.filter fun a => !a.peer && a.reqs.any fun r => !r.known &&
      decide (r.va.toNat % 2 ^ 57 < hi) && decide (lo < r.va.toNat % 2 ^ 57 + r.size)).map fun a => (g.uid, a.seq)

/-- Post an invalidation: its name is the next one of the device. Log 55. -/
def State.postInval (s : State) (ctx lo hi : Nat) (host : Bool) : State :=
  let i : Inval := ⟨s.nextId, ctx, lo, hi, s.accsIn ctx lo hi, host⟩
  { s with nextId := s.nextId + 1, invals := s.invals ++ [i] }.dropRange ctx lo hi

/-- The wait of an instruction for its invalidation ends. -/
def Group.endInval (id : Nat) (g : Group) : Group :=
  let fits := fun w : SWait => match w with | .inval i .. => i == id | _ => false
  let w := if fits g.wait then g.wait else (g.handler.map Handler.wait).getD .none
  match w with
  | .inval _ n ws => g.endWait fits (· + BitVec.ofNat 64 n) ws
  | _ => g

/-- INVALIDATION_COMPLETE (R241): every access through the old translation has been performed or refused. Log 55. -/
def execInvalidationComplete (id : Nat) (s : State) : Out :=
  .next (match s.invals.find? fun i => i.id == id with
    | none => s
    | some i =>
      if i.accs.any fun x => (s.group? x.1).any fun g => (g.acc? x.2).isSome then s
      else ({ s with invals := s.invals.filter fun x => x.id != id }.dropRange i.ctx i.lo i.hi).mapGroups (fun _ => true)
        (Group.endInval id))

/-- TLB_ENTRY_DROP (R242). Log 6. -/
def execTlbEntryDrop (t : TlbSel) (idx : Nat) (s : State) : Out :=
  .next (match t with
    | .core c => s.mapCore c fun k => { k with tlb := k.tlb.eraseIdx idx }
    | .ahead c => s.mapCore c fun k => { k with ahead := k.ahead.eraseIdx idx }
    | .quad q => { s with qtlbs := put s.qtlbs q ((look s.qtlbs q []).eraseIdx idx) })

/-! ## TAGSET, TAGKILL (R325, R326) -/

/-- A core lies in a context's partition; machine firmware belongs to none (R377). -/
def State.ownsCore (s : State) (ctx core : Nat) : Bool :=
  match s.ctx? ctx with
  | some c => c.id != 0 && (s.part c.part).clusters.getLsbD (clusterOf core)
  | none => false

/-- A PENDING move reserves a tag's number, bank or slot on a core (R345). Log 84. -/
def State.tagReserved (s : State) (core n : Nat) (bank : BitVec 4) (slot : BitVec 3) : Bool :=
  s.reserves core && (s.team? s.dev.tteam).any fun t => (List.range 16).any fun i =>
    t.tags.getLsbD i && (i == n || (s.tag t.core i).bank == bank || (s.tag t.core i).slot == slot)

/-- TAGSET: the status and the state after it. Log 84. -/
def State.tagset (s : State) (core ctx : Nat) (mach : Bool) (v : Word) : Word × State :=
  let owner := if mach then (v.extractLsb' 32 12).toNat else ctx
  let t := v.toNat % 16
  let bank : BitVec 4 := v.extractLsb' 4 4
  let slot : BitVec 3 := v.extractLsb' 8 3
  if v &&& ~~~0x00000FFF00003FFF != 0 || (!mach && v.extractLsb' 32 12 != 0) then (3, s)
  else if !s.ownsCore owner core then (4, s)
  else if (s.tag core t).st != TagState.free then (1, s)
  else if s.tagReserved core t bank slot ||
      (s.core core).tags.any fun x => x.st != TagState.free && (x.bank == bank || x.slot == slot) then (2, s)
  else (0, (s.freeTag core t).mapTag core t fun _ => ⟨BitVec.ofNat 12 owner, bank, slot, .active, v.extractLsb' 11 3, 0, 0, false, 0, none⟩)

/-- The issuing group acts at MACH. Log 79. -/
def State.atMach (s : State) : Bool := s.cur.level == .mach

def execTagset (d a : SReg) (s : State) : Out :=
  .next (s.sIssue .super [d, a] false fun s =>
    let r := s.tagset (s.coreOf s.cur) (s.ctxOf s.cur).id s.atMach (s.sget a)
    (r.2.sput d r.1).nextPc 8)

/-- TAGKILL. A drain of the issuing group that it removes stops the group past the TAGKILL. -/
def execTagkill (d a : SReg) (s : State) : Out :=
  .next (s.sIssue .super [d, a] false fun s =>
    let kill := fun s' : State => s'.tagkill (s.coreOf s.cur) (s.ctxOf s.cur).id s.atMach (s.sget a)
    (kill ((s.sput d (kill s).1).nextPc 8)).2)

/-! ## PRIVQ (R327) -/

/-- The descheduled group of the issuing context that a handle names. -/
def State.desched? (s : State) (h : Word) : Option (Group × Stop × Word) :=
  s.groups.findSome? fun g =>
    match g.status with
    | .desched st e => if (s.gridOf g).ctx == (s.ctxOf s.cur).id && s.handleOf g == h then some (g, st, e) else none
    | _ => none

/-- Log 54. -/
def execPrivqTake (d : SReg) (s : State) : Out :=
  .next (s.sIssue .super [d] false fun s =>
    let c := s.ctxOf s.cur
    match c.replays with
    | [] => (s.sput d 0).nextPc 8
    | h :: hs => ((s.mapCtx c.id fun c => { c with replays := hs }).sput d h).nextPc 8)

/-- RESUME and END act on the group a handle names, which leaves the replay list. Log 54. -/
def State.privq (s : State) (d a : SReg) (f : State → Stop → Word → State) : State :=
  s.sIssue .super [d, a] false fun s =>
    let h := s.sget a
    match s.desched? h with
    | none => (s.sput d 1).nextPc 8
    | some (g, st, e) =>
      let s := s.mapCtx (s.ctxOf s.cur).id fun c => { c with replays := c.replays.filter (· != h) }
      ((s.sput d 0).nextPc 8).withGroup g.uid fun s => f s st e

def execPrivqResume (d a : SReg) (s : State) : Out := .next (s.privq d a fun s st e => s.enterHandler st e)
def execPrivqEnd (d a : SReg) (s : State) : Out := .next (s.privq d a fun s st _ => s.endGrid st.code)

/-! ## MAPPG (R249) -/

/-- Bytes of a page, and the level of its leaf. -/
def PageSize.bytes : PageSize → Nat
  | .k4 => 2 ^ 12 | .k64 => 2 ^ 16 | .m2 => 2 ^ 21

def PageSize.level : PageSize → Nat
  | .m2 => 1 | _ => 0

/-- What MAPPG finds on its way to the leaf-level entry of a size. -/
inductive LeafAt
  | at (ea : Nat)
  | fault (f : MemFault)
  | noTable
  | above
  deriving DecidableEq, Repr

/-- The entries above a level, from `lvl` down (R237). Log 52. -/
def State.leafWalk (s : State) (va : Word) (to' : Nat) : (lvl : Nat) → (table : Nat) → LeafAt
  | lvl, t =>
    let ea := t + 8 * ((va.toNat >>> (12 + 9 * lvl)) % 512)
    if lvl == to' then .at ea
    else match s.tableWord (s.coreOf s.cur) ea with
      | (some (code, cause), _) => .fault (tableFault code cause va ea)
      | (none, e) =>
        if !pteV e then .noTable
        else if pteReserved e || pteC e then .fault (mf 0x05 2 va)
        else if pteL e then (if 1 < lvl || pteFrame e % 512 != 0 then .fault (mf 0x05 2 va) else .above)
        else match lvl with
          | 0 => .at ea
          | l + 1 => s.leafWalk va to' l (pteFrame e * 4096)

/-- The leaf-level entries of a page. -/
def PageSize.entries (sz : PageSize) (ea : Nat) : List Nat :=
  match sz with
  | .k64 => (List.range 16).map fun i => ea + 8 * i
  | _ => [ea]

/-- The first entry that lies past the slices or fails its slice's check (R244, R361). Log 52. -/
def State.entriesErr (s : State) (va : Word) (eas : List Nat) : Option MemFault := s.orErr (s.coreOf s.cur) va eas

def State.entryAt (s : State) (ea : Nat) : Nat := natOfBytes (s.memRead ea 8)

/-- A leaf that MAP may write for a size (R237, R239). -/
def leafOk (sz : PageSize) (v : Nat) : Bool :=
  !pteReserved v && pteV v && pteL v && pteC v == (sz == .k64) && (sz != .k64 || pteFrame v % 16 == 0) &&
    (sz != .m2 || pteFrame v % 512 == 0)

/-- Write the entries of a page as a write of world 0 (R238): entry i takes the frame i above the first. -/
def State.writeEntries (s : State) (eas : List Nat) (v : Nat) : State :=
  (eas.zipIdx).foldl (fun s x => s.memWrite 0 x.1 (bytesOf 8 (v + x.2 * 4096))) s

/-- MAPPG up to its leaf-level entries: `k` gets their addresses. The write is a release, so the group's stores come
first; an entry where a level changes holds the instruction (R393). A fault of the walk or of an entry is recorded as a write, flags
0x02 and WR, and one of reading the pool as a read: R245 names no flags for MAPPG (log 145). Log 52. -/
def State.mappg (s : State) (sz : PageSize) (rs : List SReg) (d a : SReg) (above : Word) (k : State → Word → List Nat → State) :
    State :=
  s.sIssue .super rs false fun s =>
    let va := s.sget a
    match canonErr s.cur.level va with
    | some f => s.sMemFault f 0x02 true false
    | none =>
      let root := (s.ctxOf s.cur).root
      if va.toNat % PageSize.bytes sz != 0 then s.sMemFault (mf 0x07 0 va) 0x02 true false
      else if (s.walkReads va 4 root).any s.levelHeld then s
      else match s.leafWalk va (PageSize.level sz) 4 root with
        | .fault f => s.sMemFault f 0x02 true false
        | .noTable => (s.sput d 3).nextPc 8
        | .above => (s.sput d above).nextPc 8
        | .at ea =>
          let eas := PageSize.entries sz ea
          match s.entriesErr va eas with
          | some f => s.sMemFault f 0x02 true false
          | none => if s.storesBefore false 0 then s else k s va eas

def execMappgMap (sz : PageSize) (d a b : SReg) (s : State) : Out :=
  .next (s.mappg sz [d, a, b] d a 1 fun s _ eas =>
    let v := (s.sget b).toNat
    if eas.any fun ea => pteV (s.entryAt ea) then (s.sput d 1).nextPc 8
    else if !leafOk sz v then (s.sput d 5).nextPc 8
    else ((s.writeEntries eas v).sput d 0).nextPc 8)

/-- Zero a 4 KiB frame for a world. Log 53. -/
def State.zeroFrame (s : State) (w : Byte) (pa : Nat) : State :=
  (List.range 64).foldl (fun s i => s.memWrite w (pa + 64 * i) (List.replicate 64 0)) s

/-- It waits where the pool's entry or the frame stands in a line whose level changes (R393). Log 53. -/
def execMappgPool (d a b : SReg) (s : State) : Out :=
  .next (s.mappg .k4 [d, a, b] d a 1 fun s va eas =>
    let c := s.ctxOf s.cur
    if eas.any fun ea => pteV (s.entryAt ea) then (s.sput d 1).nextPc 8
    else if c.ftpn == 0 then (s.sput d 2).nextPc 8
    else
      let slot := c.ftpb + 8 * (c.ftpn - 1)
      let r := s.checkGlobal .read slot 8
      match r.res with
      | .inl f => r.st.sMemFault f 0 false false
      | .inr pa =>
        match r.st.readErr s.myPort c.world pa with
        | some (code, cause) => r.st.sMemFault ⟨code, cause, slot, BitVec.ofNat 64 pa⟩ 0 false false
        | none =>
          let f := natOfBytes (r.st.memRead pa 8)
          let frame := pteFrame f * 4096
          if !s.targetOk c frame then r.st.sMemFault (mf 0x06 7 va) 0x02 true false
          else
            let t := (((r.st.holdIf (r.st.levelHeld pa)).pageHeld frame).mapCtx c.id fun c => { c with ftpn := c.ftpn - 1 }).zeroFrame c.world frame
            ((t.writeEntries eas (f ||| ((s.sget b).toNat &&& 6) ||| 0x41)).sput d 0).nextPc 8)

/-- Log 52. -/
def execMappgUnmap (sz : PageSize) (d a : SReg) (s : State) : Out :=
  .next (s.mappg sz [d, a] d a 6 fun s va eas =>
    let e := s.entryAt (eas.headD 0)
    if !pteV e then (s.sput d 4).nextPc 8
    else if !pteL e || pteC e != (sz == .k64) then (s.sput d 6).nextPc 8
    else
      let t := eas.foldl (fun s ea => s.memWrite 0 ea (bytesOf 8 (s.entryAt ea / 2 * 2))) s
      let lo := va.toNat % 2 ^ 57
      (t.postInval (s.ctxOf s.cur).id lo (lo + PageSize.bytes sz) false).mapCur fun g =>
        { g with wait := .inval t.nextId 8 [(d, 0)] })

end Sys2Proof.Machine
end

