-- ==== Sys2Proof/Machine/Copy.lean ====
section
/-! DEFINITION. The copy engine: CPY at its issue (R255 to R262), and its commands at work (R263 to R269). -/

namespace Sys2Proof.Machine

/-! ## Tensor records (R258, R259) -/

/-- The record that 64 bytes hold. -/
def tensorOf (bs : List Byte) : TensorRec where
  esize := (bs.getD 0 0).toNat
  ndim := (bs.getD 1 0).toNat
  bp := (bs.getD 2 0).getLsbD 0
  l128 := (bs.getD 2 0).getLsbD 1
  d := Vector.ofFn fun i => natOfBytes ((bs.drop (8 + 4 * i.val)).take 4)
  ss := Vector.ofFn fun i => intOf true 32 (natOfBytes ((bs.drop (24 + 4 * i.val)).take 4))
  ds := Vector.ofFn fun i => intOf true 32 (natOfBytes ((bs.drop (36 + 4 * i.val)).take 4))

/-- The 64 bytes of a record (R258, R420). -/
def TensorRec.bytes (t : TensorRec) : List Byte :=
  [BitVec.ofNat 8 t.esize, BitVec.ofNat 8 t.ndim, BitVec.ofNat 8 (t.bp.toNat + 2 * t.l128.toNat), 0, 0, 0, 0, 0] ++
    t.d.toList.flatMap (bytesOf 4) ++ t.ss.toList.flatMap (fun i => bytesOf 4 (wrapInt 32 i)) ++
    t.ds.toList.flatMap (fun i => bytesOf 4 (wrapInt 32 i)) ++ List.replicate 16 0

/-- Stored block length of a BP record. -/
def TensorRec.blk (t : TensorRec) : Nat := if t.l128 then 128 else 64

/-- Es and Ed (R259). -/
def TensorRec.es (t : TensorRec) : Nat := if t.bp then t.blk else 2 ^ t.esize
def TensorRec.ed (t : TensorRec) (k : Nat) : Nat := if t.bp then (if k == 0 then 8 else k) * t.blk / 8 else 2 ^ t.esize

/-- Elements of a command. -/
def TensorRec.count (t : TensorRec) : Nat := t.d.foldl (· * ·) 1

/-- The record and k keep R258 and R260; `raw` is the record as read. -/
def TensorRec.wellFormed (t : TensorRec) (raw : List Byte) (k : Nat) : Bool :=
  t.bytes == raw.take 64 && t.esize ≤ 3 && (!t.bp || t.esize == 0) && 1 ≤ t.ndim && t.ndim ≤ 4 &&
    t.d.all (1 ≤ ·) && ((List.range 4).all fun i => i < t.ndim || look t.d i 1 == 1) &&
    ((List.range 3).all fun i => i + 1 < t.ndim || (look t.ss i 0 == 0 && look t.ds i 0 == 0)) &&
    t.count * t.ed k ≤ 2 ^ 32 && (k == 0 || t.bp)

/-- Indices of an element in copy order. -/
def TensorRec.index (t : TensorRec) (n : Nat) : List Nat :=
  let d := fun i => look t.d i 1
  [n % d 0, n / d 0 % d 1, n / (d 0 * d 1) % d 2, n / (d 0 * d 1 * d 2) % d 3]

/-- Byte offset of an element from its base, with element size e and strides st. -/
def TensorRec.offset (t : TensorRec) (e : Nat) (st : Vector Int 3) (n : Nat) : Int :=
  let i := t.index n
  (i.getD 0 0 * e : Nat) + (i.getD 1 0 : Int) * look st 0 0 + (i.getD 2 0 : Int) * look st 1 0 + (i.getD 3 0 : Int) * look st 2 0

/-- lo and hi of R262, from a base. -/
def TensorRec.range (t : TensorRec) (e : Nat) (st : Vector Int 3) (base : Nat) : Int × Int :=
  let span := fun j => ((look t.d (j + 1) 1 : Nat) - 1 : Int) * look st j 0
  let neg := (List.range 3).foldl (fun s j => s + min 0 (span j)) (0 : Int)
  let pos := (List.range 3).foldl (fun s j => s + max 0 (span j)) (0 : Int)
  (base + neg, base + pos + (look t.d 0 1 * e : Nat))

/-! ## Sides of a command (R256) -/

def CopyDir.srcLocal : CopyDir → Bool
  | .s2g | .s2s | .s2w => true | _ => false
def CopyDir.dstLocal : CopyDir → Bool
  | .g2s | .s2s => true | _ => false
def CopyDir.dstWb : CopyDir → Bool
  | .g2w | .s2w => true | _ => false

/-- The space a local address of a group names; an address that names no window, or one of no bytes, resolves to none. Log 51. -/
def State.windowSpace (s : State) (g : Group) (va : Word) : Space :=
  if s.localBad g va then .unresolved
  else match s.targetTeam g va with
    | some t => if t.units == 0 then .unresolved else .window t.core t.base
    | none => .unresolved

/-- The two ranges a command holds: source, then destination (R262). A global range that runs below address 0 begins at 0, and one
past the top of the 57-bit space ends past it: R262 gives no wrap, so the bytes that R259's addresses wrap to are not locked (log 146).
Log 51. -/
def State.copyLocks (s : State) (g : Group) (core : Nat) (dir : CopyDir) (tag k : Nat) (t : TensorRec) (src dst : Word) :
    List (Space × Nat × Nat × Bool) :=
  let entry := fun (sp : Space) (r : Int × Int) (d : Bool) => (sp, r.1.toNat, r.2.toNat, d)
  let at' := fun (loc : Bool) (va : Word) => if loc then offsetIn va else va.toNat % 2 ^ 57
  let ss := if CopyDir.srcLocal dir then s.windowSpace g src else .global
  let ds := if CopyDir.dstWb dir then .wb core tag else if CopyDir.dstLocal dir then s.windowSpace g dst else .global
  [entry ss (t.range t.es t.ss (at' (CopyDir.srcLocal dir) src)) false,
    entry ds (t.range (t.ed k) t.ds (if CopyDir.dstWb dir then dst.toNat else at' (CopyDir.dstLocal dir) dst)) true]

/-- Two ranges lie in one space and meet. -/
def rangesMeet : List (Space × Nat × Nat × Bool) → Bool
  | [a, b] => a.1 == b.1 && a.1 != .unresolved && decide (a.2.1 < b.2.2.1) && decide (b.2.1 < a.2.2.1)
  | _ => false

/-! ## CPY at issue (R261) -/

/-- Read the 64 bytes of a tensor record, as loads after the stores that come before them (R15, R152). -/
def State.readTensor (s : State) (va : Word) : (MemFault ⊕ List Byte) × State :=
  let t := s.checkRange .read va 64 64
  match t.res with
  | .inl f => (.inl f, t.st)
  | .inr pa =>
    if t.st.levelHeld pa || s.readWaits s.cur.priorS s.cur.seq pa 64 then (.inl (stall va), t.st)
    else match t.st.readErr s.myPort (s.ctxOf s.cur).world pa with
    | some (code, cause) => (.inl ⟨code, cause, va, BitVec.ofNat 64 pa⟩, t.st)
    | none => (.inr (t.st.readOver s.cur s.cur.priorS pa 64), t.st)

/-- A stride or base that breaks the alignment of a side. -/
def misaligned (base : Word) (st : Vector Int 3) (n : Nat) : Bool := base.toNat % n != 0 || st.any fun x => x % n != 0

/-- The checks of R261 after the record is read: the fault, whether it concerns a local address, and
the flags of its record (bit 1 for the alignment of the destination). Log 106. -/
def State.copyErr (s : State) (dir : CopyDir) (tag k : Nat) (rec src dst : Word) (t : TensorRec) (raw : List Byte) :
    Option (MemFault × Bool × Byte) :=
  let x := s.tag (s.coreOf s.cur) tag
  let wbRange := t.range (t.ed k) t.ds dst.toNat
  if !t.wellFormed raw k then some (mf 0x06 12 rec, false, 0)
  else if CopyDir.srcLocal dir && src.extractLsb' 32 32 != 0 then some (mf 0x06 8 src, true, 0)
  else if CopyDir.dstLocal dir && dst.extractLsb' 32 32 != 0 then some (mf 0x06 8 dst, true, 0)
  else if misaligned src t.ss t.es then some (mf 0x07 0 src, false, 0)
  else if misaligned dst t.ds (Nat.min (t.ed k) 8) then some (mf 0x07 0 dst, false, 2)
  else if CopyDir.dstWb dir && (x.st == TagState.free || x.ctx.toNat != (s.ctxOf s.cur).id) then some (mf 0x06 12 dst, false, 0)
  else if CopyDir.dstWb dir && (wbRange.1 < 0 || 16384 < wbRange.2) then some (mf 0x06 12 dst, false, 0)
  else if rangesMeet (s.copyLocks s.cur (s.coreOf s.cur) dir tag k t src dst) then some (mf 0x06 12 rec, false, 0)
  else none

/-- Register a command (R255, R262, R266). Log 22. -/
def State.registerCopy (s : State) (dir : CopyDir) (tag k : Nat) (src dst : Word) (t : TensorRec) : State :=
  let id := s.nextId
  let core := s.coreOf s.cur
  let ctx := (s.ctxOf s.cur).id
  let c : Copy := ⟨id, core, ctx, s.cur.uid, s.cur.team, s.cur.level, t, src, dst, dir, k, tag, s.cur.s.pc, 0, s.cur.handler.isSome,
    s.cur.seq, s.cur.sAfter, .registered, false, 0, 0⟩
  { s with
    nextId := id + 1
    copies := s.copies ++ [c]
    locks := s.locks ++ (s.copyLocks s.cur core dir tag k t src dst).map (lockOf id core ctx) }.mapCur fun g =>
      g.raiseCount .cp id

/-- CPY (R261). A context that halts registers no further command, a handler's neither (R270). -/
def execCpy (dir : CopyDir) (d a b : SReg) (k tag : BitVec 4) (s : State) : Out :=
  .next (s.sIssue .user [d, a, b] false fun s =>
    if (s.ctxOf s.cur).st == .halting || (s.ctxOf s.cur).st == .halted then s
    else
      let r := s.readTensor (s.sget b)
      match r.1 with
      | .inl f => s.sGlobalFault r.2 f 0 false
      | .inr raw =>
        let t := tensorOf raw
        match r.2.copyErr dir tag.toNat k.toNat (s.sget b) (s.sget a) (s.sget d) t raw with
        | some (f, loc, fl) => r.2.sMemFault f fl false loc
        | none =>
          if s.cur.full .cp || !s.lockRoom 2 then r.2
          else (r.2.registerCopy dir tag.toNat k.toNat (s.sget a) (s.sget d) t).nextPc 8)

/-! ## Accesses of the engine (R264, R268) -/

/-- Translate for the engine: its walk-ahead TLB, the quadrant's, or a walk that fills them (R242, R268). -/
def State.engineTranslate (s : State) (core : Nat) (c : Ctx) (lvl : Level) (kind : AccessKind) (va : Word) : Translated :=
  match canonErr lvl va with
  | some f => ⟨.inl f, s⟩
  | none =>
    match (s.core core).ahead.find? fun e => e.hits c.id va with
    | some e => s.translateHeld core c e kind va
    | none =>
      match (look s.qtlbs (quadOf core) []).find? fun e => e.hits c.id va with
      | some e => (s.mapCore core fun k => { k with ahead := keepEntry 64 e k.ahead }).translateHeld core c e kind va
      | none =>
        let t := s.translateWalk core c kind va
        match t.res, (t.st.core core).tlb.head? with
        | .inr _, some e =>
          { t with st := t.st.mapCore core fun k => { k with tlb := (s.core core).tlb, ahead := keepEntry 64 e k.ahead } }
        | _, _ => t

/-- What an access of a command finds: done, a fault, or a bank that is waking. -/
inductive EngAns
  | ok (s : State) (bs : List Byte)
  | fault (s : State) (f : MemFault)
  | wait (s : State)

/-- A store that comes before a command's registration, of its group or where a round put it, is still to be performed in a request
that satisfies a test (R152, R224). -/
def State.priorOut (s : State) (g : Group) (c : Copy) (p : Group → Access → Req → Bool) : Bool :=
  (g.accs.any fun a => !a.valued && decide (a.seq < if a.l then c.join else c.seq) && a.reqs.any fun r => !r.known && p g a r) ||
    s.othersOut g c.seq p

/-- Such a store to bytes of memory. -/
def State.priorOn (s : State) (g : Group) (c : Copy) (pa n : Nat) : Bool :=
  s.priorOut g c fun _ a r => !a.peer && meets (s.place pa) n (s.place r.pa) r.size

/-- Such a store to bytes of a window. -/
def State.priorAt (s : State) (g : Group) (c : Copy) (team off n : Nat) : Bool :=
  s.priorOut g c fun h a r => a.peer && s.spMeets h r team off n

/-- Cut a range into pieces within lines of n bytes. -/
def pieces (n : Nat) : (fuel : Nat) → (va len : Nat) → List (Nat × Nat)
  | 0, _, _ => []
  | k + 1, va, len =>
    if len == 0 then []
    else
      let m := Nat.min len (n - va % n)
      (va, m) :: pieces n k (va + m) (len - m)

/-- The engine must walk for an address, and a table word of the walk lies where a level changes (R393). -/
def State.engineHeld (s : State) (core : Nat) (c : Ctx) (va : Word) : Bool :=
  (List.range 20).any (fun d => s.changes (4 + d)) &&
    !((s.core core).ahead.any fun e => e.hits c.id va) && !((look s.qtlbs (quadOf core) []).any fun e => e.hits c.id va) &&
    (s.walkReads va 4 c.root).any s.levelHeld

/-- Translate and check every line of a global range; the physical pieces. An access that meets a level change waits, and one whose
bytes `out` holds back: its fault has code 0 (R224, R393). -/
def State.engineGlobal (s : State) (core : Nat) (c : Ctx) (lvl : Level) (out : Nat → Nat → Bool) (kind : AccessKind) :
    List (Nat × Nat) → List (Nat × Nat) → (MemFault ⊕ List (Nat × Nat)) × State
  | [], acc => (.inr acc, s)
  | (va, n) :: ps, acc =>
    let a := BitVec.ofNat 64 va
    let t := if s.engineHeld core c a then ⟨.inl (stall a), s⟩ else s.engineTranslate core c lvl kind a
    match t.res with
    | .inl f => (.inl f, t.st)
    | .inr pa =>
      if t.st.levelHeld pa || out pa n then (.inl (stall a), t.st)
      else match (if kind == .write then t.st.writeErr (clusterOf core) c.world pa (n == 64) else t.st.readErr (clusterOf core) c.world pa) with
      | some (code, cause) => (.inl ⟨code, cause, a, BitVec.ofNat 64 pa⟩, t.st)
      | none => t.st.engineGlobal core c lvl out kind ps (acc ++ [(pa, n)])

/-- What the words of a window range answer, the first that does not go deciding. -/
def State.engineBanks (s : State) (t : Team) (kind : AccessKind) (va : Word) : List (Nat × Nat) → BankAns × Nat
  | [] => (.go, 0)
  | (byte, n) :: ps =>
    match (s.core t.core).bankAns byte n kind va with
    | .go => s.engineBanks t kind va ps
    | r => (r, byte / 8192)

/-- Steps 1 and 3 to 5 of R181 on a window range of a command: its first byte in the core's scratchpad. A broken flow between the
clusters answers NETAUTH (R364). It waits for the stores to its bytes that come before the command (R224). -/
def State.engineLocal (s : State) (g : Group) (y : Copy) (kind : AccessKind) (va : Word) (n : Nat) : (MemFault ⊕ (Nat × Nat)) ⊕ State :=
  if s.localBad g va then .inl (.inl (mf 0x06 8 va))
  else match s.localTarget g va n with
    | .inl f => .inl (.inl f)
    | .inr t =>
      let byte := spByte t (offsetIn va)
      if s.priorAt g y t.id (offsetIn va) n then .inr s
      else if s.flowBroken (s.ctxOf g).world (clusterOf (s.coreOf g)) (clusterOf t.core) then .inl (.inl (mf 0x06 17 va))
      else match s.engineBanks t kind va (pieces 8 129 byte n) with
      | (.go, _) => .inl (.inr (t.core, byte))
      | (.fault f, _) => .inl (.inl f)
      | (.wake, b) => .inr (s.wakeBank t.core b)

/-- A read of a command. -/
def State.engineRead (s : State) (core : Nat) (c : Ctx) (y : Copy) (g : Group) (loc : Bool) (va : Word) (n : Nat) : EngAns :=
  if loc then
    match s.engineLocal g y .read va n with
    | .inl (.inl f) => .fault s f
    | .inl (.inr (k, byte)) => .ok s (s.spRead k byte n)
    | .inr s => .wait s
  else
    match s.engineGlobal core c y.level (s.priorOn g y) .read (pieces 64 5 va.toNat n) [] with
    | (.inl f, s) => if f.code == 0 then .wait s else .fault s f
    | (.inr ps, s) => .ok s (ps.flatMap fun p => s.memRead p.1 p.2)

/-- Write bytes to pieces in turn. -/
def State.writePieces (s : State) (w : Byte) : List (Nat × Nat) → List Byte → State
  | [], _ => s
  | (pa, n) :: ps, bs => (s.memWrite w pa (bs.take n)).writePieces w ps (bs.drop n)

def State.writeSpPieces (s : State) (core : Nat) : List (Nat × Nat) → List Byte → State
  | [], _ => s
  | (byte, n) :: ps, bs => (s.spWrite core byte (bs.take n)).writeSpPieces core ps (bs.drop n)

/-- A write of a command: every check passes before any byte is written. -/
def State.engineWrite (s : State) (core : Nat) (c : Ctx) (y : Copy) (g : Group) (loc : Bool) (va : Word) (bs : List Byte) : EngAns :=
  if loc then
    match s.engineLocal g y .write va bs.length with
    | .inl (.inl f) => .fault s f
    | .inl (.inr (k, byte)) => .ok (s.writeSpPieces k (pieces 8 129 byte bs.length) bs) []
    | .inr s => .wait s
  else
    match s.engineGlobal core c y.level (s.priorOn g y) .write (pieces 64 5 va.toNat bs.length) [] with
    | (.inl f, s) => if f.code == 0 then .wait s else .fault s f
    | (.inr ps, s) => .ok (s.writePieces c.world ps bs) []

/-! ## Commands at work -/

def State.copy? (s : State) (id : Nat) : Option Copy := s.copies.find? fun c => c.id == id

def State.mapCopy (s : State) (id : Nat) (f : Copy → Copy) : State :=
  { s with copies := mapIf s.copies (fun c => c.id == id) f }

/-- Addresses of an element (R259). -/
def Copy.srcAt (c : Copy) (n : Nat) : Word := c.src + BitVec.ofInt 64 (c.tensor.offset c.tensor.es c.tensor.ss n)
def Copy.dstAt (c : Copy) (n : Nat) : Word := c.dst + BitVec.ofInt 64 (c.tensor.offset (c.tensor.ed c.k) c.tensor.ds n)

/-- COPY_BEGIN (R263). -/
def execCopyBegin (id : Nat) (s : State) : Out :=
  .next (match s.copy? id with
    | none => s
    | some c => if c.st == CopyState.registered && !s.lockConflict id then s.mapCopy id fun c => { c with st := .running } else s)

/-- An element meets a fault: PAGE suspends a command of a group that lives, any other fault ends it (R264, R265). -/
def State.copyFault (s : State) (c : Copy) (wr loc : Bool) (f : MemFault) : State :=
  match s.group? c.uid with
  | none => s.mapCopy c.id fun c => { c with st := .finished }
  | some g =>
    let s := if f.logged then
        s.logEngine c.core c.ctx f.addr (if loc then s.pcoreOf g f.addr else 0xFF) wr (loc && isPeer f.addr) loc f.code
      else s
    let susp := f.code == 0x05 && g.status != .exited
    (s.mapCopy c.id fun c => { c with st := if susp then .suspended else .finished, code := f.code, cause := f.cause }).engineStop
      c.core c.ctx c.uid c.pc c.handler wr f

/-- The engine may walk ahead of the cursor (R268): the page of one side of a later element, up to 16 pages on, enters the
walk-ahead TLB with no bit set. A walk that fails, that of a destination page that may not be written among them, leaves nothing,
and the engine makes none whose table words lie where a level changes. Log 2. -/
def State.walkAhead (s : State) (c : Copy) (x : Ctx) : State :=
  let n := c.cursor + 1 + (Config.freeWord s.fresh).toNat % (c.tensor.count - c.cursor)
  let src := Config.freeBool (s.fresh + 1)
  let s := { s with fresh := s.fresh + 2 }
  let here := if src then c.srcAt c.cursor else c.dstAt c.cursor
  let va := if src then c.srcAt n else c.dstAt n
  let glob := if src then !CopyDir.srcLocal c.dir else !CopyDir.dstLocal c.dir && !CopyDir.dstWb c.dir
  let gap := if va.toNat < here.toNat then here.toNat / 4096 - va.toNat / 4096 else va.toNat / 4096 - here.toNat / 4096
  if !glob || c.tensor.count ≤ n || 16 < gap || (canonErr c.level va).isSome ||
      s.engineHeld c.core x va || (s.core c.core).ahead.any fun e => e.hits x.id va then s
  else match s.walk c.core va 4 x.root [] with
    | .inl _ => s
    | .inr w =>
      let e := tlbOf x.id va w false w.path
      if (pteC w.leaf && (s.groupErr c.core va w.ea w.leaf).isSome) || !s.targetOk x (e.paOf va) ||
          (e.permErr (if src then .read else .write) va).isSome then s
      else s.mapCore c.core fun k => { k with ahead := keepEntry 64 e k.ahead }

/-- Move the element at the cursor. -/
def State.copyElement (s : State) (c : Copy) (x : Ctx) (g : Group) : State :=
  let n := c.tensor.ed c.k
  match s.engineRead c.core x c g (CopyDir.srcLocal c.dir) (c.srcAt c.cursor) n with
  | .wait s => s
  | .fault s f => s.copyFault c false (CopyDir.srcLocal c.dir) f
  | .ok s bs =>
    let next := fun s : State => s.mapCopy c.id fun c => { c with cursor := c.cursor + 1 }
    if CopyDir.dstWb c.dir then
      next { s with wb := s.wb.write (regionAddr c.core c.tag + (c.dstAt c.cursor).toNat) bs }
    else match s.engineWrite c.core x c g (CopyDir.dstLocal c.dir) (c.dstAt c.cursor) bs with
      | .wait s => s
      | .fault s f => s.copyFault c true (CopyDir.dstLocal c.dir) f
      | .ok s _ => next s

/-- COPY_ELEMENT. Log 22. -/
def execCopyElement (id : Nat) (s : State) : Out :=
  .next (match s.copy? id with
    | none => s
    | some c =>
      match s.ctx? c.ctx, s.group? c.uid with
      | some x, some g =>
        if c.st == CopyState.running && decide (c.cursor < c.tensor.count) then (s.walkAhead c x).copyElement c x g else s
      | _, _ => s)

/-- A command leaves: its locks are free, and cp falls in order (R266). -/
def State.endCopy (s : State) (c : Copy) : State :=
  { s with copies := s.copies.filter fun x => x.id != c.id, locks := s.locks.filter fun l => l.cmd != c.id }.mapGroup c.uid fun g =>
    g.complete true c.id

/-- COPY_COMPLETE (R266). -/
def execCopyComplete (id : Nat) (s : State) : Out :=
  .next (match s.copy? id with
    | none => s
    | some c =>
      if c.st == CopyState.finished || (c.st == CopyState.running && c.cursor == c.tensor.count) then s.endCopy c else s)

end Sys2Proof.Machine
end

