-- ==== Sys2Proof/Machine/Crypto.lean ====
section
/-! DEFINITION. The ciphers and hashes that the spec names by their standards: AES-256-GCM, SHA-512, HMAC and HKDF (R338,
R343, R363, R374, R376, R413). -/

namespace Sys2Proof.Machine

/-! ## AES-256 (FIPS 197) -/

/-- Multiply by x in GF(2^8). -/
def xtime (b : Byte) : Byte := (b <<< 1) ^^^ (if b.getLsbD 7 then 0x1B else 0)

/-- Product in GF(2^8). -/
def gmul (a b : Byte) : Byte :=
  ((List.range 8).foldl (fun (x : Byte × Byte) i => (if b.getLsbD i then x.1 ^^^ x.2 else x.1, xtime x.2)) (0, a)).1

/-- Inverse in GF(2^8), as a power of 254; 0 of 0. -/
def ginv (a : Byte) : Byte :=
  let a2 := gmul a a
  let a4 := gmul a2 a2
  let a8 := gmul a4 a4
  let a16 := gmul a8 a8
  let a32 := gmul a16 a16
  let a64 := gmul a32 a32
  gmul (gmul (gmul a2 a4) (gmul a8 a16)) (gmul (gmul a32 a64) (gmul a64 a64))

/-- The substitution of a byte. -/
def sbox (b : Byte) : Byte :=
  let i := ginv b
  i ^^^ i.rotateLeft 1 ^^^ i.rotateLeft 2 ^^^ i.rotateLeft 3 ^^^ i.rotateLeft 4 ^^^ 0x63

/-- The 256 substitutions, computed once for a key. -/
def sboxTable : Array Byte := Array.ofFn fun i : Fin 256 => sbox (BitVec.ofNat 8 i.val)

def subByte (t : Array Byte) (b : Byte) : Byte := t.getD b.toNat 0

def xorList (a b : List Byte) : List Byte := List.zipWith (· ^^^ ·) a b

/-- The sixty words of the key schedule, latest first. -/
def keyWords (t : Array Byte) (key : List Byte) : List (List Byte) :=
  let first := ((List.range 8).map fun i => (key.drop (4 * i)).take 4).reverse
  ((List.range 52).foldl
    (fun (x : List (List Byte) × Byte) i =>
      let last := x.1.headD []
      let w := match i % 8 with
        | 0 => match last.map (subByte t) with
            | [a, b, c, d] => [b ^^^ x.2, c, d, a]
            | l => l
        | 4 => last.map (subByte t)
        | _ => last
      (xorList (x.1.getD 7 []) w :: x.1, if i % 8 == 0 then xtime x.2 else x.2))
    (first, 1)).1

/-- The fifteen round keys. -/
def roundKeys (t : Array Byte) (key : List Byte) : List (List Byte) :=
  let ws := (keyWords t key).reverse
  (List.range 15).map fun i => ((ws.drop (4 * i)).take 4).flatten

/-- Rotate the rows of a block held by columns. -/
def shiftRows (b : List Byte) : List Byte := (List.range 16).map fun i => b.getD ((i + 4 * (i % 4)) % 16) 0

def mixColumns (b : List Byte) : List Byte :=
  (List.range 16).map fun i =>
    let c := i / 4 * 4
    let at' := fun k => b.getD (c + (i + k) % 4) 0
    xtime (at' 0) ^^^ xtime (at' 1) ^^^ at' 1 ^^^ at' 2 ^^^ at' 3

/-- Encrypt one block under round keys. -/
def aesBlock (t : Array Byte) (rks : List (List Byte)) (b : List Byte) : List Byte :=
  match rks with
  | [] => b
  | k0 :: ks =>
    let mid := (ks.take 13).foldl (fun b k => xorList (mixColumns (shiftRows (b.map (subByte t)))) k) (xorList b k0)
    xorList (shiftRows (mid.map (subByte t))) (ks.getD 13 [])

/-! ## GCM (SP 800-38D) -/

/-- The number of a block, first byte most significant. -/
def blockNat (b : List Byte) : BitVec 128 := b.foldl (fun n x => (n <<< 8) ||| x.setWidth 128) 0

def natBlock (n : BitVec 128) : List Byte := (List.range 16).map fun i => n.extractLsb' (8 * (15 - i)) 8

/-- Product in GF(2^128) in GCM's bit order. -/
def ghashMul (x y : BitVec 128) : BitVec 128 :=
  ((List.range 128).foldl
    (fun (z : BitVec 128 × BitVec 128) i =>
      (if x.getMsbD i then z.1 ^^^ z.2 else z.1,
        if z.2.getLsbD 0 then (z.2 >>> 1) ^^^ (0xE1#128 <<< 120) else z.2 >>> 1))
    ((0, y) : BitVec 128 × BitVec 128)).1

/-- Blocks of 16 bytes, the last padded with zeros. -/
def blocks16 (bs : List Byte) : List (List Byte) :=
  (List.range ((bs.length + 15) / 16)).map fun i =>
    let b := (bs.drop (16 * i)).take 16
    b ++ List.replicate (16 - b.length) 0

def ghash (h : BitVec 128) (blocks : List (List Byte)) : BitVec 128 :=
  blocks.foldl (fun y b => ghashMul (y ^^^ blockNat b) h) 0

/-- Big-endian bytes of a number. -/
def beBytes (n w : Nat) : List Byte := (leBytes n w).reverse

/-- Encrypt or decrypt under a 12-byte nonce: counter mode from 2. -/
def gcmStream (t : Array Byte) (rks : List (List Byte)) (nonce bs : List Byte) : List Byte :=
  ((blocks16 bs).zipIdx.flatMap fun x => xorList x.1 (aesBlock t rks (nonce ++ beBytes 4 (x.2 + 2)))).take bs.length

/-- The tag of a ciphertext with additional data. -/
def gcmTag (t : Array Byte) (rks : List (List Byte)) (nonce aad ct : List Byte) : List Byte :=
  let h := blockNat (aesBlock t rks (List.replicate 16 0))
  let s := ghash h (blocks16 aad ++ blocks16 ct ++ [beBytes 8 (8 * aad.length) ++ beBytes 8 (8 * ct.length)])
  xorList (natBlock s) (aesBlock t rks (nonce ++ beBytes 4 1))

/-- Bytes of a key. -/
def keyBytes (k : BitVec 256) : List Byte := bytesOf 32 k.toNat

/-- Seal a plaintext: ciphertext and tag. -/
def gcmSeal (key nonce aad pt : List Byte) : List Byte × List Byte :=
  let t := sboxTable
  let rks := roundKeys t key
  let ct := gcmStream t rks nonce pt
  (ct, gcmTag t rks nonce aad ct)

/-- Open a ciphertext: the plaintext where the tag verifies. -/
def gcmOpen (key nonce aad ct tag : List Byte) : Option (List Byte) :=
  let t := sboxTable
  let rks := roundKeys t key
  if gcmTag t rks nonce aad ct == tag then some (gcmStream t rks nonce ct) else none

/-! ## SHA-512 (FIPS 180-4), HMAC (RFC 2104), HKDF (RFC 5869) -/

/-- The first n primes, by trial division. -/
def primesTo (n : Nat) : List Nat :=
  ((List.range 410).filter fun p => 2 ≤ p && !((List.range 21).any fun d => 2 ≤ d && d < p && p % d == 0)).take n

/-- Integer square and cube roots, bit by bit from a bit position down. -/
def rootBits (pow : Nat → Nat) (x : Nat) : (bit r : Nat) → Nat
  | 0, r => r
  | k + 1, r => rootBits pow x k (if pow (r + 2 ^ k) ≤ x then r + 2 ^ k else r)

/-- Fractional bits of the cube roots of the first eighty primes, and of the square roots of the first eight. -/
def shaK : List Word := (primesTo 80).map fun p => BitVec.ofNat 64 (rootBits (fun r => r * r * r) (p * 2 ^ 192) 68 0)
def shaH : List Word := (primesTo 8).map fun p => BitVec.ofNat 64 (rootBits (fun r => r * r) (p * 2 ^ 128) 68 0)

def sigma (a b c : Nat) (shift : Bool) (x : Word) : Word :=
  x.rotateRight a ^^^ x.rotateRight b ^^^ (if shift then x >>> c else x.rotateRight c)

/-- One round: the eight working words and the sixteen words of the schedule, oldest first. -/
def shaRound (x : List Word × List Word) (k : Word) : List Word × List Word :=
  match x.1, x.2 with
  | [a, b, c, d, e, f, g, h], w :: ws =>
    let t1 := h + sigma 14 18 41 false e + ((e &&& f) ^^^ (~~~e &&& g)) + k + w
    let t2 := sigma 28 34 39 false a + ((a &&& b) ^^^ (a &&& c) ^^^ (b &&& c))
    let next := sigma 19 61 6 true (ws.getD 13 0) + ws.getD 8 0 + sigma 1 8 7 true (ws.getD 0 0) + w
    ([t1 + t2, a, b, c, d + t1, e, f, g], ws ++ [next])
  | _, _ => x

def wordBE (bs : List Byte) : Word := wordOf bs.reverse

/-- The compression of one block of 128 bytes. -/
def shaBlock (ks h : List Word) (b : List Byte) : List Word :=
  let w := (List.range 16).map fun i => wordBE ((b.drop (8 * i)).take 8)
  List.zipWith (· + ·) h (ks.foldl shaRound (h, w)).1

/-- SHA-512 of bytes. -/
def sha512 (m : List Byte) : List Byte :=
  let pad := (239 - m.length % 128) % 128
  let bs := m ++ [0x80] ++ List.replicate pad 0 ++ beBytes 16 (8 * m.length)
  let ks := shaK
  let h := (List.range (bs.length / 128)).foldl (fun h i => shaBlock ks h ((bs.drop (128 * i)).take 128)) shaH
  h.flatMap fun w => beBytes 8 w.toNat

/-- HMAC-SHA-512. -/
def hmac (key m : List Byte) : List Byte :=
  let k := if 128 < key.length then sha512 key else key
  let k := k ++ List.replicate (128 - k.length) 0
  sha512 (k.map (· ^^^ 0x5C) ++ sha512 (k.map (· ^^^ 0x36) ++ m))

/-- The first 32 bytes of HKDF-SHA-512. -/
def hkdf32 (secret salt info : List Byte) : List Byte := (hmac (hmac salt secret) (info ++ [1])).take 32

/-- ASCII bytes of a name. -/
def ascii (s : String) : List Byte := s.toList.map fun c => BitVec.ofNat 8 c.toNat

end Sys2Proof.Machine
end

