-- ==== Sys2Proof/Machine/Supply.lean ====
section
/-! DEFINITION. Events of supply: register blocks (R20, R21) and scratchpad banks (R183, R184). -/

namespace Sys2Proof.Machine

/-- The supply that follows from the life states of a block's registers (R20). -/
def Group.supplyFor (g : Group) (blk : Nat) : Supply :=
  let lives := (List.range 8).map fun i => look g.l.life (8 * blk + i) .dead
  if lives.contains .live then .full else if lives.contains .rest then .ret else .off

/-- BLOCK_SUPPLY_FOLLOW (R20): a block is lowered at once; one that must rise wakes as for an access. A wake under way
goes on. -/
def execBlockSupplyFollow (uid blk : Nat) (s : State) : Out :=
  .next (match s.group? uid with
    | none => s
    | some g0 =>
      let due := s.cyclesOf (s.coreOf g0) + 24
      s.mapGroup uid fun g =>
        match look g.blocks blk .off, g.supplyFor blk with
        | .waking _ _, _ | .full, .full => g
        | x, .full => { g with blocks := put g.blocks blk (.waking due (x == .ret)) }
        | .off, .ret => { g with blocks := put g.blocks blk (.waking due false) }
        | _, y => { g with blocks := put g.blocks blk y })

/-- A register of a state that is REST loses its value. -/
def LState.lose (l : LState) (r : Nat) : LState := if look l.life r .dead == Life.rest then { l with life := put l.life r .poison } else l

/-- What an access in flight would restore loses the value too (R194). -/
def Access.lose (r : Nat) (a : Access) : Access := match a.snap with | .l st => { a with snap := .l (st.lose r) } | _ => a

/-- Registers of a group that hold an uncorrectable word become POISON, wherever their value stands. -/
def Group.lose (g : Group) (rs : List Nat) : Group :=
  rs.foldl (fun g r => { g with l := g.l.lose r, accs := g.accs.map (Access.lose r) }) g

/-- REG_BLOCK_WAKE_DONE (R21): at its cycle the block is FULL; after retention, a REST register with an uncorrectable word
becomes POISON, and the error is met (R403). Log 62. -/
def execRegBlockWakeDone (uid blk : Nat) (bad : List Nat) (s : State) : Out :=
  .next (match s.group? uid with
    | none => s
    | some g =>
      match look g.blocks blk .off with
      | .waking due kept =>
        if s.cyclesOf (s.coreOf g) < due then s
        else
          let lost := if kept then bad.filter fun r => r / 8 == blk && look g.l.life r .dead == Life.rest else []
          let t := s.mapGroup uid fun g => { (g.lose lost) with blocks := put g.blocks blk .full }
          lost.foldl (fun s r => s.meetError (coreError 0 (s.coreOf g) r (s.gridOf g).ctx)) t
      | _ => s)

/-- The context whose window holds a bank of a core. -/
def State.bankCtx (s : State) (core bank : Nat) : Nat :=
  (((s.teams.find? fun t => t.core == core && decide (t.base ≤ bank) && decide (bank < t.base + t.units)).bind fun t =>
    s.gang? t.gang).bind fun g => s.grid? g.grid).map Grid.ctx |>.getD 0

/-- SP_BANK_WAKE_DONE (R183, R184): at its cycle the bank is FULL; after retention, the words that hold an uncorrectable
error are marked, and each error is met (R403). -/
def execSpBankWakeDone (core bank : Nat) (bad : List Nat) (s : State) : Out :=
  .next (match look (s.core core).banks bank .off with
    | .waking due kept =>
      if s.cyclesOf core < due then s
      else
        let marks := if kept then bad.filter fun w => w / 1024 == bank && !(s.core core).poison.contains w else []
        let t := s.mapCore core fun c => { c with banks := put c.banks bank .full, poison := c.poison ++ marks }
        marks.foldl (fun s w => s.meetError (coreError 1 core w (s.bankCtx core bank))) t
    | _ => s)

end Sys2Proof.Machine
end

