-- ==== Sys2Proof/Machine/Image.lean ====
section
/-! DEFINITION. The save image: its header, its sections and their bodies, to the byte (R335 to R337, R420), and its seal
(R338). -/

namespace Sys2Proof.Machine

/-- A field of n bytes at an offset (R2). -/
def fieldAt (bs : List Byte) (off n : Nat) : Nat := natOfBytes ((bs.drop off).take n)

/-- Zero bytes. -/
def zeros (n : Nat) : List Byte := List.replicate n 0

/-- Bytes cut or padded with zeros to a length. -/
def fit' (n : Nat) (bs : List Byte) : List Byte := bs.take n ++ zeros (n - bs.length)

/-! ## Grid and launch record (R142, R420) -/

/-- The 128 bytes of a record with a parent link. -/
def LaunchRec.bytes (r : LaunchRec) (parent : Word) : List Byte :=
  bytesOf 8 r.sbase.toNat ++ bytesOf 8 r.lbase.toNat ++ bytesOf 4 r.sentry.toNat ++ bytesOf 4 r.gx ++ bytesOf 4 r.gy ++
    bytesOf 4 r.gz ++ [r.teams, r.groups, r.regs, r.bars, r.tags, r.tier, r.strict.toNat, r.frames].map (BitVec.ofNat 8) ++
    bytesOf 4 r.spbytes ++ zeros 4 ++ bytesOf 8 r.wdog.toNat ++ bytesOf 8 r.spill.toNat ++ bytesOf 8 parent.toNat ++
    bytesOf 8 r.cword.toNat ++ r.args.toList.flatMap fun x => bytesOf 8 x.toNat

/-- GRID body. `parent` is the index of the parent's section, and `link` the parent link. -/
def Grid.body (g : Grid) (parent : Option Nat) (link : Word) : List Byte :=
  fit' 256 (g.launch.bytes link ++ [BitVec.ofNat 8 g.depth] ++ zeros 3 ++ bytesOf 2 (parent.getD 0xFFFF) ++ zeros 2 ++
    bytesOf 4 g.num.toNat ++ bytesOf 4 g.next ++ bytesOf 4 g.retired ++ zeros 4 ++ bytesOf 8 g.atime ++ bytesOf 2 g.asrc ++
    [BitVec.ofNat 8 g.quad])

/-! ## Team (R420) -/

/-- Bank state codes of a team section: a wake under way counts as done. Log 75. -/
def Supply.bankCode : Supply → Nat
  | .full | .waking _ _ => 0
  | .ret => 1
  | .off => 2

/-- Supply states of a window's banks. Log 75. -/
def State.windowBanks (s : State) (t : Team) : List Supply :=
  (List.range (t.spbytes / 8192)).map fun i => look (s.core t.core).banks (t.base + i) .off

/-- Code of a round's kind. -/
def RoundKind.code : RoundKind → Nat
  | .bar => 1 | .voteAny => 2 | .voteAll => 3 | .voteSum => 4 | .tcall _ _ => 5 | .gbar => 0

/-- A frame that no frame of a team-call lies under. -/
def Team.innermost (t : Team) (f : Frame) : Bool := !(t.frames.any fun h => h.parent.toNat == f.idx && h.idx != f.idx)

/-- The round of a pool entry: participants, arrivals, kind, first arrival. Log 72. -/
def Team.roundAt (t : Team) (j : Nat) : Nat × Nat × Nat × Nat :=
  match t.rounds.find? fun r => r.pool == j && r.kind != .gbar with
  | some r => ((rankMask (t.members j)).toNat, (rankMask (r.arrived.map Prod.fst)).toNat, r.kind.code, r.first)
  | none =>
    match t.frames.find? fun f => f.bar.toNat == j && t.innermost f with
    | none => (0, 0, 0, 0)
    | some f =>
      match t.divs.find? fun d => d.frames.contains f.idx with
      | none => (0, 0, 0, 0)
      | some d =>
        let maskOf := fun (ids : List Nat) => (t.frames.filter fun x => ids.contains x.idx).foldl (fun m x => m ||| x.mask) 0#16
        let firstIn := fun (m : BitVec 16) => (d.order.find? m.getLsbD).getD 0
        if d.finished.contains f.idx then
          ((maskOf d.frames &&& ~~~t.exited).toNat, (maskOf d.finished).toNat, 7, firstIn (maskOf (d.finished.take 1)))
        else if d.order.any f.mask.getLsbD then
          ((f.mask &&& ~~~t.exited).toNat, (f.mask &&& rankMask d.order).toNat, 6, firstIn f.mask)
        else (0, 0, 0, 0)

/-- A step record: entry index, rank of the beginning group, entry. -/
def stepRecord (x : Nat × Nat × StepView) : List Byte :=
  [BitVec.ofNat 8 x.1, if x.2.2.st == .missed then 2 else 1, BitVec.ofNat 8 x.2.1, 0] ++ bytesOf 2 x.2.2.gen.toNat ++ zeros 2 ++
    bytesOf 8 x.2.2.d.toNat ++ bytesOf 8 x.2.2.w ++ bytesOf 8 x.2.2.done ++ bytesOf 8 x.2.2.pc.toNat

/-- The active step entries of a team. -/
def State.stepsOf (s : State) (t : Team) : List (Nat × Nat × StepView) :=
  (List.range 16).filterMap fun i =>
    let e := look (s.core t.core).steps i .free
    if e.st != .free && e.team == t.id then
      some (i, (((s.group? e.uid).map Group.rank).getD 0, e.toStepView))
    else none

/-- Bit 16 * TID + rank of members of a gang. -/
def gangBits (ms : List (Nat × Nat)) : Nat := ms.foldl (fun n m => n ||| 2 ^ (16 * m.1 + m.2)) 0

/-- TEAM body: the fixed part, then the saved banks. Log 72, 73. -/
def State.teamBody (s : State) (t : Team) : List Byte :=
  let banks := s.windowBanks t
  let saved := (List.range banks.length).filter fun i => banks.getD i .off != .off
  let hw := (t.frames.filter fun f => f.slot.isNone).take 4
  let open' := ((s.gang? t.gang).map Gang.arrived).getD []
  let steps := s.stepsOf t
  let pool := (if t.bars.isEmpty then 0 else 1) + (t.pool.filter (· != 0)).foldl (fun n j => n ||| 2 ^ j) 0
  [BitVec.ofNat 8 t.lcore, BitVec.ofNat 8 t.frames.length, BitVec.ofNat 8 steps.length, 0] ++ bytesOf 4 t.spbytes ++
    bytesOf 8 (saved.foldl (fun n i => n + 2 ^ i) 0) ++
    bytesOf 12 (banks.zipIdx.foldl (fun n x => n + x.1.bankCode * 4 ^ x.2) 0) ++ bytesOf 4 pool ++
    bytesOf 8 (if open'.isEmpty then 0 else gangBits (s.gangMembers t.gang)) ++ bytesOf 8 (gangBits open') ++
    [if open'.isEmpty then 0 else 1] ++ zeros 15 ++
    ((List.range 32).flatMap fun j =>
      let r := (s.viewTeam t).roundAt j
      bytesOf 2 r.1 ++ bytesOf 2 r.2.1 ++ [BitVec.ofNat 8 r.2.2.1, BitVec.ofNat 8 r.2.2.2, 0, 0]) ++
    fit' 128 (hw.flatMap Frame.bytes) ++
    ((List.range 4).map fun i => match hw[i]? with | some f => BitVec.ofNat 8 f.idx | none => (0xFF : Byte)) ++ zeros 60 ++
    fit' 640 (steps.flatMap stepRecord) ++ zeros 896 ++
    saved.flatMap fun i => s.spRead t.core ((t.base + i) * 8192) 8192

/-! ## Group (R337) -/

/-- Codes of life states. -/
def Life.code : Life → Nat
  | .dead => 0 | .live => 1 | .rest => 2 | .poison => 3

/-- A path slot. -/
def pathBytes : Option Path → List Byte
  | none => zeros 32
  | some p => bytesOf 4 p.pc ++ [1] ++ zeros 11 ++ bytesOf 16 p.mask.toNat

/-- The replay that a group holds: its own, or that of a stop still to be dispatched or resumed (R248, R316, R317). -/
def Group.heldReplay (g : Group) : Option Replay :=
  let st := match g.status with
    | .shadow st _ | .draining st _ | .desched st _ => [st]
    | _ => []
  match g.replay with
  | some r => some r
  | none => (st ++ g.stops).findSome? Stop.replay

/-- STAT. -/
def Group.stat (g : Group) : Nat :=
  let held := Nat.min 15 g.stops.length
  let hold := match g.l.hold with
    | none => 0
    | some ⟨.vbar b, _⟩ => 2 ^ 24 + b % 2 ^ 19 * 2 ^ 32
    | some ⟨.lend, _⟩ => 2 ^ 24 + 2 ^ 25
  Nat.log2 (g.nregs / 8) + Nat.min 8 g.l.stack.length * 2 ^ 8 + (g.l.stack.length - 8) * 2 ^ 16 + hold +
    g.heldReplay.isSome.toNat * 2 ^ 26 + (match g.status with | .desched _ _ => 1 | _ => 0) * 2 ^ 27 + (!g.running).toNat * 2 ^ 28 +
    g.latch.isSome.toNat * 2 ^ 29 + held * 2 ^ 56

/-- Blocks of a group that hold bytes: those whose supply follows as FULL or RET from their registers (R20, R22, R336). Log 75. -/
def Group.savedBlocks (g : Group) : List Nat := (List.range (g.nregs / 8)).filter fun i => g.supplyFor i != .off

/-- The 512 bytes of a register image; zero for one that holds no value (R11, R336). -/
def Group.regImage (g : Group) (r : Nat) : List Byte :=
  match look g.l.life r .dead with
  | .live | .rest => imageBytes (look g.l.vregs r (Vector.replicate 128 0))
  | _ => zeros 512

/-- An entry of the decision queue. -/
def DqEntry.bytes (e : DqEntry) : List Byte :=
  bytesOf 8 e.val.toNat ++ [if e.block then 2 else 1, if e.handler then 1 else 0] ++ zeros 6

/-- The rows of the latch: count, length, bytes. -/
def Latch.parts : Option Latch → Nat × Nat × List Byte
  | none => (0, 0, [])
  | some l => (l.rows.length, l.rowLen, l.rows.flatten)

/-- GROUP body: the fixed part, then the saved blocks. -/
def Group.body (g : Group) : List Byte :=
  let l := g.l
  let latch := Latch.parts g.latch
  bytesOf 8 g.s.pc.toNat ++ (g.s.regs.toList.flatMap fun x => bytesOf 8 x.toNat) ++ bytesOf 8 g.flags.toNat ++
    bytesOf 8 g.fmask.toNat ++ ((List.range 4).flatMap fun i => bytesOf 8 (g.done.extractLsb' (32 * i) 32).toNat) ++
    bytesOf 8 g.stat ++ pathBytes l.ps0 ++ pathBytes l.ps1 ++ fit' 256 ((l.stack.take 8).reverse.flatMap StackEntry.bytes) ++
    l.nest.toList ++ ((List.range 7).flatMap fun i => bytesOf 16 (look l.preds (i + 1) 0).toNat) ++
    (l.k.toList.flatMap fun x => bytesOf 8 x.toNat) ++ fit' 256 (g.dq.flatMap DqEntry.bytes) ++
    fit' 128 (g.rq.flatMap fun x => bytesOf 8 x.toNat) ++ bytesOf 16 ((g.heldReplay.map Replay.mask).getD 0).toNat ++
    bytesOf 16 ((l.hold.map Hold.mask).getD 0).toNat ++
    [BitVec.ofNat 8 g.dq.length, BitVec.ofNat 8 g.rq.length, BitVec.ofNat 8 latch.1, BitVec.ofNat 8 (latch.2.1 / 64)] ++ zeros 4 ++
    fit' 4096 latch.2.2 ++ bytesOf 8 (g.savedBlocks.foldl (fun n i => n + 2 ^ i) 0) ++
    bytesOf 64 ((List.range g.nregs).foldl (fun n i => n + (look l.life i .dead).code * 4 ^ i) 0) ++ bytesOf 8 g.cycle ++
    bytesOf 8 g.mxst.toNat ++ fit' 15 ((g.stops.take 15).map Stop.code) ++ [0] ++ bytesOf 16 l.live.toNat ++
    g.savedBlocks.flatMap fun b => (List.range 8).flatMap fun i => g.regImage (8 * b + i)

/-! ## Tag and copy (R420) -/

/-- Codes of tag states. -/
def TagState.code : TagState → Nat
  | .free => 0 | .active => 1 | .dying => 2

/-- TAGE as read at MACH (R276). -/
def Tag.entry (t : Tag) : Word :=
  BitVec.ofNat 64 (t.ctx.toNat * 2 ^ 52 + t.bank.toNat * 2 ^ 48 + t.slot.toNat * 2 ^ 45 + t.st.code * 2 ^ 43 + t.qm1.toNat * 2 ^ 40 +
    t.bfmt.toNat * 2 ^ 32 + t.blen.toNat * 2 ^ 30 + t.b128.toNat * 2 ^ 29)

/-- The tag a TAGE word describes, ACTIVE. -/
def tagOf (w : Word) (pois : Word32) : Tag :=
  let bfmt := w.extractLsb' 32 8
  ⟨w.extractLsb' 52 12, w.extractLsb' 48 4, w.extractLsb' 45 3, .active, w.extractLsb' 40 3, bfmt, w.extractLsb' 30 2, w.getLsbD 29, pois,
    if bfmt == 0 then none else some (bfmt, w.extractLsb' 30 2, w.getLsbD 29)⟩

/-- TAG body, with the section, gang and team rank of the team that holds the tag. -/
def State.tagBody (s : State) (core t : Nat) (holder : Nat × Nat × Nat) : List Byte :=
  let x := s.tag core t
  bytesOf 8 x.entry.toNat ++ bytesOf 8 x.pois.toNat ++ bytesOf 2 holder.1 ++ bytesOf 4 holder.2.1 ++ [BitVec.ofNat 8 holder.2.2] ++
    zeros 41 ++ s.acc.read (rowAddr core x.bank.toNat 0) 16384 ++ s.slots.read (slotAddr core x.slot.toNat) 8192 ++
    s.scales.read (scaleAddr core x.slot.toNat) 1024 ++ s.wb.read (regionAddr core t) 16384

/-- Codes of directions. -/
def dirCode : CopyDir → Nat
  | .g2g => 0 | .g2s => 1 | .s2g => 2 | .s2s => 3 | .g2w => 4 | .s2w => 5

def dirOf : Nat → Option CopyDir
  | 0 => some .g2g | 1 => some .g2s | 2 => some .s2g | 3 => some .s2s | 4 => some .g2w | 5 => some .s2w | _ => none

/-- COPY body, with the section, gang, team rank and rank of its group. -/
def Copy.body (c : Copy) (holder : Nat × Nat × Nat × Nat) : List Byte :=
  fit' 128 (c.tensor.bytes ++ bytesOf 8 c.src.toNat ++ bytesOf 8 c.dst.toNat ++
    [BitVec.ofNat 8 (dirCode c.dir), BitVec.ofNat 8 c.k, BitVec.ofNat 8 (if CopyDir.dstWb c.dir then c.tag else 0),
      if c.resume then 1 else 0] ++ zeros 4 ++ bytesOf 8 c.cursor ++ bytesOf 2 holder.1 ++ bytesOf 4 holder.2.1 ++
    [BitVec.ofNat 8 holder.2.2.1, BitVec.ofNat 8 holder.2.2.2] ++ bytesOf 8 c.pc.toNat ++ [c.code, c.cause])

/-! ## Sections, header, seal (R335, R338) -/

/-- A section: type, gang, team rank, group rank or tag number, grid section, body. -/
structure Sect where
  type : Nat
  gang : Nat
  tid  : Nat
  gid  : Nat
  gx   : Nat
  body : List Byte
  deriving DecidableEq, Repr

/-- Log 71. -/
def Sect.header (x : Sect) : List Byte :=
  [BitVec.ofNat 8 x.type, 0, 0, 0] ++ bytesOf 4 x.body.length ++ bytesOf 4 x.gang ++
    [BitVec.ofNat 8 x.tid, BitVec.ofNat 8 x.gid] ++ bytesOf 2 x.gx

/-- Bytes 0 to 111 of the image header. -/
def imageHeader (c : Ctx) (mode : Byte) (nsect counter len time : Nat) : List Byte :=
  ascii "SVXI" ++ bytesOf 2 1 ++ bytesOf 2 c.id ++
    [c.world, BitVec.ofNat 8 ((if c.world == 0 then 0 else 1) + 2 * (mode.toNat % 4)), 0, 0] ++ bytesOf 4 nsect ++ bytesOf 8 counter ++
    bytesOf 8 len ++ bytesOf 8 time ++ zeros 72

/-- Key i of a world: network, storage, world, link, migration (R367). -/
def State.worldKey (s : State) (w : Byte) (i : Nat) : BitVec 256 :=
  ((s.worlds.find? fun x => x.id == w).map fun x => x.keys.getD i 0).getD 0

/-- The save key (R338). -/
def State.saveKey (s : State) (c : Ctx) : List Byte :=
  (hmac (keyBytes (s.worldKey c.world 2)) (ascii "save" ++ bytesOf 2 c.id ++ [c.world])).take 32

def imageNonce (counter i : Nat) : List Byte := bytesOf 8 counter ++ bytesOf 4 i

/-- The image's length (R335). -/
def imageLength (ss : List Sect) : Nat := 128 + ss.foldl (fun n x => n + 32 + x.body.length) 0

/-- The whole image, in clear or sealed. -/
def State.imageBytes (s : State) (c : Ctx) (ss : List Sect) (counter : Nat) : List Byte :=
  let h := imageHeader c (s.modeOf c) ss.length counter (imageLength ss) s.time
  if c.world == 0 then h ++ zeros 16 ++ ss.flatMap fun x => x.header ++ x.body ++ zeros 16
  else
    let key := s.saveKey c
    h ++ (gcmSeal key (imageNonce counter 0) h []).2 ++ ss.zipIdx.flatMap fun x =>
      let e := gcmSeal key (imageNonce counter (x.2 + 1)) (h ++ x.1.header) x.1.body
      x.1.header ++ e.1 ++ e.2

end Sys2Proof.Machine
end

