-- ==== Sys2Proof/Machine/Mbox.lean ====
section
/-! DEFINITION. The mailboxes of a context (R371). -/

namespace Sys2Proof.Machine

/-- The 64 bytes of a mailbox entry. Log 61. -/
def mailEntry (type : Byte) (ctx time : Nat) (payload : List Byte) : List Byte :=
  [type, 0] ++ bytesOf 2 ctx ++ bytesOf 4 0 ++ bytesOf 8 time ++ payload ++ List.replicate (48 - payload.length) 0

/-- A full out queue drops the event and counts it. -/
def Ctx.dropMail (c : Ctx) : Ctx := { c with drop := Nat.min (c.drop + 1) 127 }

/-- Firmware appends an event to the out queue of a context, as QPUT does, and the MSI-X message follows (R213, R214,
R371). A queue that cannot be read or written, or whose entries are not of 64 bytes, loses the event. Log 61, 109. Log 117. -/
def State.mail (s : State) (core ctx : Nat) (type : Byte) (payload : List Byte) : State :=
  match s.ctx? ctx with
  | none => s
  | some c =>
    let va := canonical c.mboxo
    let r := s.ctxRead core c .super .atomic va 64
    match r.1 with
    | .inl _ => r.2
    | .inr bs =>
      match queueOf bs with
      | none => r.2
      | some q =>
        if q.esize != 2 then r.2
        else if q.cap ≤ (q.tail - q.head).toNat then r.2.mapCtx ctx Ctx.dropMail
        else
          let w := r.2.ctxWrite core c .super (q.entry q.tail) (mailEntry type ctx s.time payload)
          match w.1 with
          | some _ => w.2
          | none =>
            (w.2.ctxWrite core c .super va (bytesOf 8 (q.tail + 1).toNat)).2.mapCtx ctx fun c => { c with msix := c.msix + 1 }

/-- Firmware takes the oldest entry of the in queue of a context, as QTAKE does, where the entry has a type (R213, R214, R371).
Log 98. -/
def State.takeMail (s : State) (core ctx : Nat) (type : Byte) : Option (List Byte) × State :=
  match s.ctx? ctx with
  | none => (none, s)
  | some c =>
    let va := canonical c.mboxi
    let r := s.ctxRead core c .super .atomic va 64
    match r.1 with
    | .inl _ => (none, r.2)
    | .inr bs =>
      match queueOf bs with
      | none => (none, r.2)
      | some q =>
        if q.esize != 2 || q.tail == q.head then (none, r.2)
        else
          let e := r.2.ctxRead core c .super .read (q.entry q.head) 64
          match e.1 with
          | .inl _ => (none, e.2)
          | .inr x =>
            if x.getD 0 0 != type then (none, e.2)
            else (some x, (e.2.ctxWrite core c .super (va + 8) (bytesOf 8 (q.head + 1).toNat)).2)

end Sys2Proof.Machine
end

