-- ==== Sys2Proof/Machine/Preempt.lean ====
section
/-! DEFINITION. The ladder of pre-emption: ask, halt, drain, resume and strike (R328 to R334). -/

namespace Sys2Proof.Machine

/-- A context that the ladder's registers may name; machine firmware's own is none (R328, R411; log 7). -/
def State.realCtx? (s : State) (ctx : Nat) : Option Ctx := if ctx == 0 then none else s.ctx? ctx

/-- Groups of a context that have not exited. -/
def State.ofCtx (s : State) (ctx : Nat) (g : Group) : Bool := (s.gridOf g).ctx == ctx && g.status != .exited

/-- Ticks of a timer of the ladder, which counts microseconds; 0 counts as 1 (R328). -/
def timerTicks (us : Word32) : Nat := 1000 * Nat.max 1 us.toNat

/-! ## Ask and halt (R329 to R331) -/

def State.askCtx (s : State) (ctx : Nat) : State :=
  match s.realCtx? ctx with
  | none => s
  | some c =>
    if c.st == .run then
      (s.mapCtx ctx fun c => { c with st := .asked, grace0 := s.time, parkedHalt := false }).checkParked ctx
    else s

/-- The instruction-level halt of a context. -/
def State.haltCtx (s : State) (ctx : Nat) : State :=
  match s.realCtx? ctx with
  | none => s
  | some c =>
    if c.st == .run || c.st == .asked then
      let out := fun (w : Waiter) => (s.group? w.uid).any fun g => s.ofCtx ctx g && g.handler.isNone
      { ((s.cancelMove ctx).mapGroups (s.ofCtx ctx) Group.halt) with
        waiters := s.waiters.filter fun w => !out w }.mapCtx ctx fun c =>
          { c with st := .halting, parkedHalt := false, strike0 := s.time }
    else s

/-! ## Drain and resume (R332, R333) -/

/-- A wait that an event of the device must end before the drain is complete. -/
def isInval : SWait → Bool
  | .inval .. => true
  | _ => false

/-- Teams of a context. -/
def State.ctxTeams (s : State) (ctx : Nat) : List Team :=
  s.teams.filter fun t => ((s.gang? t.gang).bind fun g => s.grid? g.grid).any fun g => g.ctx == ctx

/-- The drain of a context is complete (R332). Teams that are gone have been freed, and grids that have ended have retired
(R155, R163), since an image has no bytes for them. -/
def State.ctxDrained (s : State) (ctx : Nat) : Bool :=
  (s.groups.all fun g => (s.gridOf g).ctx != ctx ||
    (g.accs.isEmpty && g.lpend.isEmpty && g.handler.isNone && !g.waitsIn isInval)) &&
  (s.copies.all fun c => c.ctx != ctx || c.st == CopyState.suspended) && (s.cmds.all fun c => c.ctx != ctx) &&
  (s.waves.all fun w => (s.tag w.core w.tag).ctx.toNat != ctx) &&
  (s.grids.all fun g => g.ctx != ctx || (g.ending.isNone && !s.gridDone g)) && !(s.ctxTeams ctx).any fun t => s.teamDone t || t.moving

/-- Log 67. -/
def State.haltedCtx (s : State) (ctx : Nat) : State :=
  match s.realCtx? ctx with
  | none => s
  | some c => if c.st == .halting && s.ctxDrained ctx then s.mapCtx ctx fun c => { c with st := .halted } else s

/-- RESUME: groups issue again, after their held stops, and marked copies go on (R265, R329, R333). A context whose bivouac
challenge stands stays HALTED, and so does every context while the device sleeps (R376). Log 67. -/
def State.resumeCtx (s : State) (ctx : Nat) : State :=
  match s.realCtx? ctx with
  | none => s
  | some c =>
    if (c.st == .asked || c.st == .halted) && c.challenge.isNone && s.dev.biv == .awake then
      ({ s with copies := mapIf s.copies (fun c => c.ctx == ctx && c.resume && c.st == CopyState.suspended) fun c =>
          { c with st := .running, resume := false } }.mapGroups (s.ofCtx ctx) fun g =>
        { g with parked := false, halted := false }).mapCtx ctx fun c => { c with st := .run, parkedHalt := false }
    else s

/-! ## Strike (R334) -/

/-- A store already issued to memory from a port is performed, lane by lane, unless its slice refuses it; one that covers a line whole
replaces a line that fails its check (R216, R244). -/
def State.flushStore (s : State) (port : Nat) (w : Byte) (a : Access) : State :=
  a.reqs.foldl (fun s r =>
    if r.known then s
    else match s.writeErr port w r.pa (s.coversLine a (s.place r.pa / 64)) with
      | some _ => s
      | none => s.memWrite w r.pa (bytesOf r.size r.data.toNat)) s

/-- The stores in flight of a context are performed, each group's in issue order. Log 68. -/
def State.flushCtx (s : State) (ctx : Nat) (w : Byte) : State :=
  let mine := (s.groups.filter fun g => (s.gridOf g).ctx == ctx).flatMap fun g =>
    (g.accs.filter fun a => !a.valued && !a.peer).map fun a => (clusterOf (s.coreOf g), a)
  mine.foldl (fun s x => s.flushStore x.1 w x.2) s

/-- Every tag of a context is removed under R302. -/
def State.killTags (s : State) (ctx : Nat) : State :=
  (List.range 3072).foldl (fun s k =>
    let x := s.tag (k / 16) (k % 16)
    if x.st == TagState.active && x.ctx.toNat == ctx then s.killTag (k / 16) (k % 16) else s) s

/-- The grids of a context that may retire do so, children first (R147). Log 68. -/
def State.retireCtx (ctx : Nat) : (fuel : Nat) → State → State
  | 0, s => s
  | n + 1, s =>
    match s.grids.find? fun g => g.ctx == ctx && s.gridDone g with
    | none => s
    | some gr =>
      let t := s.writeCompletion gr
      State.retireCtx ctx n { t with grids := t.grids.filter fun x => x.id != gr.id }

/-- A strike: nothing of the context's work is left. Log 68. -/
def State.strikeCtx (s : State) (ctx : Nat) : State :=
  match s.realCtx? ctx with
  | none => s
  | some c =>
    if c.st == .empty then s
    else
      let s := (((s.cancelMove ctx).killTags ctx).flushCtx ctx c.world)
      let s := (s.copies.filter fun x => x.ctx == ctx).foldl State.endCopy s
      let s := ((s.grids.filter fun g => g.ctx == ctx).map Grid.id).foldl (fun s g => s.endOne g ⟨1, 0x18, 0, 0, 0⟩) s
      let s := (s.ctxTeams ctx).foldl State.freeTeam s
      let s := State.retireCtx ctx s.grids.length s
      (s.mapCtx ctx fun c => { c with st := .empty, replays := [], struck := true }).mail 0 ctx 3 []

/-! ## The commands of PREQ and the timers as events -/

/-- Log 67. -/
def execAsk (ctx : Nat) (s : State) : Out := .next (s.askCtx ctx)
def execPreqHalt (ctx : Nat) (s : State) : Out := .next (s.haltCtx ctx)
def execContextHalted (ctx : Nat) (s : State) : Out := .next (s.haltedCtx ctx)
def execResume (ctx : Nat) (s : State) : Out := .next (s.resumeCtx ctx)
def execStrike (ctx : Nat) (s : State) : Out := .next (s.strikeCtx ctx)

/-- GRACE_EXPIRY (R329). Log 5. -/
def execGraceExpiry (ctx : Nat) (s : State) : Out :=
  .next (match s.realCtx? ctx with
    | none => s
    | some c => if c.st == .asked && c.grace0 + timerTicks c.pgrace ≤ s.time then s.haltCtx ctx else s)

/-- STRIKE_EXPIRY (R329). Log 5. -/
def execStrikeExpiry (ctx : Nat) (s : State) : Out :=
  .next (match s.realCtx? ctx with
    | none => s
    | some c => if c.st == .halting && c.strike0 + timerTicks c.pstrike ≤ s.time then s.strikeCtx ctx else s)

/-- A CMD of PREQ (R328). -/
def State.preqCmd (s : State) (ctx cmd : Nat) : State :=
  match cmd with
  | 1 => s.askCtx ctx
  | 2 => s.haltCtx ctx
  | 3 => s.strikeCtx ctx
  | 4 => s.resumeCtx ctx
  | _ => s

end Sys2Proof.Machine
end

