-- ==== Sys2Proof/Machine/Migrate.lean ====
section
/-! DEFINITION. Migration between devices: the state machine of a function, its window and its dirty report (R342 to R344,
R416). -/

namespace Sys2Proof.Machine

/-! ## Functions -/

/-- The migration slot of a function; a function that no command has named stands RUNNING. -/
def State.mig (s : State) (f : Nat) : Mig := findD s.migs (fun m => m.f == f) ⟨f, .running, false, 0, 0, false, []⟩

def State.putMig (s : State) (m : Mig) : State := { s with migs := m :: s.migs.filter fun x => x.f != m.f }

/-- A function that has a slot: 1 to 63 (R416). -/
def fnOk (f : Nat) : Bool := 1 ≤ f && f ≤ 63

/-- The LIVE partition of a function (R378). -/
def State.fnPart (s : State) (f : Nat) : Option Nat :=
  (List.range 16).find? fun p => (s.part p).live && (s.part p).funcs.getLsbD f

/-- The contexts of a function: those of its partition. Log 82. -/
def State.fnCtxs (s : State) (f : Nat) : List Ctx :=
  match s.fnPart f with
  | none => []
  | some p => s.ctxs.filter fun c => c.id != 0 && c.part == p

/-- Page number of the first page of a slice (R361). -/
def slicePage (sl : Nat) : Nat := (sl / 16 * (96 * 2 ^ 30) + sl % 16 * (6 * 2 ^ 30)) / 4096

/-- Slices of a function's partition, ascending. -/
def State.fnSlices (s : State) (f : Nat) : List Nat :=
  match s.fnPart f with
  | none => []
  | some p => (List.range 64).filter fun i => (s.part p).slices.getLsbD i

/-- An address lies in the function's device memory. -/
def State.fnOwns (s : State) (f pa : Nat) : Bool :=
  targetOf pa == Target.device && pa < 384 * 2 ^ 30 && (s.fnSlices f).contains (sliceOf pa)

/-- MIGLEN: the length of the dirty bitmap in bytes (R416). -/
def State.migLen (s : State) (f : Nat) : Nat := 196608 * (s.fnSlices f).length

/-! ## MIGCTL (R342) -/

/-- The management block takes commands: READY and not asleep (R409, R415). -/
def State.mgmtOn (s : State) : Bool := s.dev.boot == .ready && s.dev.biv != .asleep

def State.migPrecopy (s : State) (f : Nat) : State :=
  let m := s.mig f
  if fnOk f && s.mgmtOn && m.st == .running then
    s.putMig { m with st := .precopy, lost := false, seq := 0, track := true, clean := [] }
  else s

def State.migStop (s : State) (f : Nat) : State :=
  let m := s.mig f
  if fnOk f && s.mgmtOn && m.st == .precopy then
    let s := s.putMig { m with st := .stopping }
    (s.fnCtxs f).foldl (fun s c => (s.mapCtx c.id fun x => { x with struck := false }).askCtx c.id) s
  else s

/-- Log 68. -/
def State.migAbort (s : State) (f : Nat) : State :=
  let m := s.mig f
  if fnOk f && s.mgmtOn && (m.st == .precopy || m.st == .stopping) then
    let s := s.putMig { m with st := .running, track := false, clean := [] }
    (s.fnCtxs f).foldl (fun s c => if c.st == .halted then s.resumeCtx c.id else s) s
  else s

def State.migReceive (s : State) (f : Nat) : State :=
  let m := s.mig f
  if fnOk f && s.mgmtOn && m.st == .running && (s.fnCtxs f).isEmpty then
    s.putMig { m with st := .resuming, lost := false, seq := 0 }
  else s

def State.migResume (s : State) (f : Nat) : State :=
  let m := s.mig f
  if fnOk f && s.mgmtOn && m.st == .resuming then
    (s.fnCtxs f).foldl (fun s c => if c.st == .halted then s.resumeCtx c.id else s) (s.putMig { m with st := .running })
  else s

/-- A CMD of MIGCTL. -/
def State.migCmd (s : State) (f cmd : Nat) : State :=
  match cmd with
  | 1 => s.migPrecopy f
  | 2 => s.migStop f
  | 3 => s.migResume f
  | 4 => s.migAbort f
  | 5 => s.migReceive f
  | _ => s

def execMigPrecopy (f : Nat) (s : State) : Out := .next (s.migPrecopy f)
def execMigStop (f : Nat) (s : State) : Out := .next (s.migStop f)
def execMigResume (f : Nat) (s : State) : Out := .next (s.migResume f)
def execMigAbort (f : Nat) (s : State) : Out := .next (s.migAbort f)
def execMigReceive (f : Nat) (s : State) : Out := .next (s.migReceive f)

/-! ## The end of STOPPING (R344) -/

/-- Byte i of the dirty bitmap over the pages of some slices (R416). -/
def dirtyByte (clean : List Nat) (slices : List Nat) (i : Nat) : Byte :=
  let first := slicePage (slices.getD (i / 196608) 0) + 8 * (i % 196608)
  BitVec.ofNat 8 ((List.range 8).foldl (fun n k => if clean.contains (first + k) then n else n + 2 ^ k) 0)

/-- A host physical address names host memory: target 01 (R240). -/
def hostPa (a : Nat) : Nat := 2 ^ 50 + a % 2 ^ 50

/-- The final dirty report at a host address, line by line. -/
def State.dirtyReport (s : State) (f : Nat) : State :=
  let m := s.mig f
  let sl := s.fnSlices f
  (List.range (s.migLen f / 64)).foldl (fun s i =>
    s.memWrite 0 (hostPa (m.dirty.toNat + 64 * i)) ((List.range 64).map fun k => dirtyByte m.clean sl (64 * i + k))) s

/-- MIG_STOPPED (R342, R344): every context is saved and freed by firmware, or struck, and MIGDIRTY has been written. The
image writes are performed before a context is EMPTY (R340). Log 82. -/
def execMigStopped (f : Nat) (s : State) : Out :=
  .next (
    let m := s.mig f
    if fnOk f && s.mgmtOn && m.st == .stopping && m.dirty != 0 && (s.fnCtxs f).all fun c => c.st == .empty then
      (s.dirtyReport f).putMig { m with st := .stopped, lost := (s.fnCtxs f).any Ctx.struck }
    else s)

/-- MIGDIRTY_WRITE (R416). -/
def State.writeMigDirty (s : State) (f : Nat) (v : Word) : State :=
  if fnOk f && s.mgmtOn then s.putMig { s.mig f with dirty := v &&& 0x000FFFFFFFFFF000 } else s

def execMigdirtyWrite (f : Nat) (v : Word) (s : State) : Out := .next (s.writeMigDirty f v)

/-! ## The window (R343) -/

/-- Descriptor i of a function's window. -/
def State.migDesc (s : State) (f i : Nat) : List Byte := s.dev.migwin.read (f * 65536 + 64 * i) 64

/-- Write bytes of a function's window. -/
def State.putWindow (s : State) (f off : Nat) (bs : List Byte) : State :=
  { s with dev := { s.dev with migwin := s.dev.migwin.write (f * 65536 + off) bs } }

/-- No posted descriptor of the window has a lower SEQ. -/
def State.migFirst (s : State) (f seq : Nat) : Bool :=
  (List.range 15).all fun i => fieldAt (s.migDesc f i) 17 1 != 1 || seq ≤ fieldAt (s.migDesc f i) 0 8

/-- The migration key of a world (R343, R367). -/
def State.migKey (s : State) (w : Byte) : List Byte :=
  keyBytes (if w == 0 then Config.platformMigKey s.dev.resets else s.worldKey w 4)

def migNonce (seq f : Nat) : List Byte := bytesOf 8 seq ++ bytesOf 4 f

/-- The world that owns a page, by its first owned line. Log 80. -/
def State.pageWorld (s : State) (pa : Nat) : Byte :=
  ((List.range 64).findSome? fun i => ((s.line? (pa + 64 * i)).bind Line.owner).map Prod.fst).getD 0

/-- A posted descriptor of an operation is served in SEQ order, refused where its SEQ or page is wrong. Log 80. -/
def State.serve (s : State) (f idx op : Nat) (go : State → Nat → Nat → State) : State :=
  let d := s.migDesc f idx
  let seq := fieldAt d 0 8
  let pa := fieldAt d 8 8
  if !fnOk f || 15 ≤ idx || fieldAt d 16 1 != op || fieldAt d 17 1 != 1 || !s.migFirst f seq then s
  else if seq != (s.mig f).seq + 1 || pa % 4096 != 0 || !s.fnOwns f pa then s.putWindow f (64 * idx + 17) [3]
  else go s seq pa

/-- MIG_DESC_READ: one indivisible step reads the page, marks it clean and seals it into its slot. Log 80. -/
def execMigDescRead (f idx : Nat) (s : State) : Out :=
  .next (
    let m := s.mig f
    if s.mgmtOn && (m.st == .precopy || m.st == .stopping || m.st == .stopped) then
      s.serve f idx 1 fun s seq pa =>
        let w := s.pageWorld pa
        let s := (s.pageHeld pa).putMig { m with seq := seq }
        if (List.range 64).any fun i => (s.sliceErr w (pa + 64 * i)).isSome then s.putWindow f (64 * idx + 17) [4]
        else
          let e := gcmSeal (s.migKey w) (migNonce seq f) [] (s.memRead pa 4096)
          let s := s.putMig { m with seq := seq, clean := pa / 4096 :: m.clean.filter (· != pa / 4096) }
          ((s.putWindow f (4096 * (idx + 1)) e.1).putWindow f (64 * idx + 32) e.2).putWindow f (64 * idx + 17) [2]
    else s)

/-- Worlds whose key a page may be sealed under: world 0 and those of the function's partition. Log 81. -/
def State.fnWorlds (s : State) (f : Nat) : List Byte :=
  0 :: ((s.worlds.filter fun w => some w.part == s.fnPart f).map World.id)

/-- MIG_DESC_WRITE: the tag verifies before any byte is written; the page becomes that world's. Log 81. -/
def execMigDescWrite (f idx : Nat) (s : State) : Out :=
  .next (
    let m := s.mig f
    if s.mgmtOn && m.st == .resuming then
      s.serve f idx 2 fun s seq pa =>
        let ct := s.dev.migwin.read (f * 65536 + 4096 * (idx + 1)) 4096
        let tag := ((s.migDesc f idx).drop 32).take 16
        match (s.fnWorlds f).findSome? fun w => (gcmOpen (s.migKey w) (migNonce seq f) [] ct tag).map fun x => (w, x) with
        | none => s.putWindow f (64 * idx + 17) [3]
        | some (w, x) =>
          let s := (List.range 64).foldl (fun (s : State) i => s.memWrite w (pa + 64 * i) ((x.drop (64 * i)).take 64)) (s.pageHeld pa)
          (s.putMig { m with seq := seq }).putWindow f (64 * idx + 17) [2]
    else s)

end Sys2Proof.Machine
end

