-- ==== Sys2Proof/Machine/Hostlink.lean ====
section
/-! DEFINITION. Accesses from outside a core's groups: sealed packets at a port (R363, R364), the host over the link (R370),
and remote devices through the fabric (R372). -/

namespace Sys2Proof.Machine

/-! ## Packets of the network (R363, R364) -/

/-- A flow by its id: the next number is 0 where no packet has passed. -/
def State.flow (s : State) (id : Word32) : Flow := findD s.flows (fun f => f.id == id) ⟨id, 0, false⟩

def State.putFlow (s : State) (f : Flow) : State := { s with flows := f :: s.flows.filter fun x => x.id != f.id }

/-- The world, source port and destination port of a flow id (R362). -/
def flowWorld (id : Word32) : Byte := id.extractLsb' 24 8
def flowSrc (id : Word32) : Nat := (id.extractLsb' 16 8).toNat
def flowDst (id : Word32) : Nat := (id.extractLsb' 8 8).toNat

/-- The key of a flow: the world's network key, the platform's for world 0, and the world's link key for the link's own flows (R363,
R370). -/
def State.flowKey (s : State) (id : Word32) : List Byte :=
  keyBytes (if flowWorld id == 0 then s.dev.netKey
    else s.worldKey (flowWorld id) (if flowSrc id == 128 && flowDst id == 128 then 3 else 0))

/-- The nonce of a packet: the flow id, then its number (R363). -/
def packetNonce (p : Packet) : List Byte := bytesOf 4 p.flow.toNat ++ bytesOf 8 p.seq

/-- A port accepts a packet: its flow is whole, its number is the next one and at most 2^64 - 2, and its tag verifies under the key
of its flow (R363, R364). -/
def State.accepts (s : State) (p : Packet) : Bool :=
  !(s.flow p.flow).broken && p.seq == (s.flow p.flow).next && decide (p.seq ≤ 2 ^ 64 - 2) &&
    (gcmOpen (s.flowKey p.flow) (packetNonce p) [] p.ct p.tag).isSome

/-- A packet arrives: its flow takes it, or is broken. -/
def State.arrives (s : State) (p : Packet) : State :=
  let f := s.flow p.flow
  s.putFlow (if s.accepts p then { f with next := f.next + 1 } else { f with broken := true })

/-- The port that a request of the issuing group goes to: its target's, or the cluster of the window it names. -/
def State.portOfReq (s : State) (a : Access) (r : Req) : Nat :=
  if a.peer then clusterOf (s.pcoreOf s.cur r.va) else s.targetPort r.pa

/-- A flow carries a request of an access of the issuing group, or its answer. -/
def State.carries (s : State) (id : Word32) (a : Access) (r : Req) : Bool :=
  !r.known && s.portOfReq a r != s.myPort && (flowsOf s.worldOf s.myPort (s.portOfReq a r)).contains id

/-- What a packet carried of an access gets the NETAUTH error response (R193, R216, R364). -/
def State.netauth (s : State) (id : Word32) (seq : Nat) : State :=
  let t := s.mapCur fun g => { g with accs := mapIf g.accs (fun a => a.seq == seq) fun a =>
      { a with reqs := a.reqs.map fun r => if s.carries id a r then { r with err := some (0x06, 17) } else r } }
  match t.cur.acc? seq with
  | none => t
  | some a => if a.valued then t.finishAccess a else if a.allKnown then t.storeResponse seq else t

/-- The access a packet carries is delivered: it acts at its target. Log 88. -/
def State.delivered (s : State) (seq : Nat) : State :=
  match s.cur.acc? seq with
  | none => s
  | some a =>
    if a.peer then s.someReqs a id State.answerPeer
    else if a.valued then s.loadResponse seq
    else s.storeResponse seq

/-- NOC_PACKET_RECEIVE. A failure breaks the flow, and nothing of the packet is delivered. A packet of a flow that does not run
between the ports of the access carries nothing of it. Log 88. -/
def execNocPacketReceive (p : NocPacket) (s : State) : Out :=
  .next ((s.arrives p.pkt).withGroup p.uid fun t =>
    match t.cur.acc? p.acc with
    | none => t
    | some a =>
      if !(a.reqs.any fun r => t.carries p.pkt.flow a r) then t
      else if s.accepts p.pkt then t.delivered p.acc else t.netauth p.pkt.flow p.acc)

/-! ## The host over the link (R370) -/

/-- A function of the link may reach a byte: host memory, or device memory while the device is READY and awake (R376, R409); a
virtual function only that of its partition (R369). Function 0 is the physical one. -/
def State.hostReaches (s : State) (fn pa : Nat) : Bool :=
  match targetOf pa with
  | .host => true
  | .device => s.mgmtOn && pa < 384 * 2 ^ 30 && (fn == 0 || s.fnOwns fn pa)
  | _ => false

/-- A host access to the line of an address gets an error response: a line of a protected world, an uncorrectable word
that the access does not write over, or a broken flow between the link and the slice (R244, R364, R365, R370). -/
def State.hostErr (s : State) (pa : Nat) (whole : Bool) : Bool :=
  s.flowBroken 0 128 (s.targetPort pa) ||
    match (if targetOf pa == Target.device then s.line? pa else none) with
    | none => false
    | some l => (l.owner.any fun o => o.1 != 0) || (l.bad && !whole)

/-- Bytes as pieces that each lie in one line, with their addresses. -/
def linePieces (pa : Nat) (bs : List Byte) : List (Nat × List Byte) :=
  (List.range ((pa % 64 + bs.length + 63) / 64)).map fun i =>
    if i == 0 then (pa, bs.take (64 - pa % 64)) else (pa - pa % 64 + 64 * i, (bs.drop (64 * i - pa % 64)).take 64)

/-- One piece of a host write: world 0 takes an unowned line (R365). Log 90. -/
def State.hostPiece (s : State) (fn : Nat) (x : Nat × List Byte) : State :=
  if s.hostReaches fn x.1 && !s.hostErr x.1 (x.2.length == 64) then s.memWrite 0 x.1 x.2 else s

/-- HOST_WRITE by a function of the link: piece by piece; a write that meets a changing level waits (R393). Log 90. -/
def execHostWrite (place : HostAt) (data : List Byte) (s : State) : Out :=
  .next (
    let ps := linePieces place.pa data
    if ps.any fun x => s.levelHeld x.1 then s else ps.foldl (fun s x => s.hostPiece place.fn x) s)

/-- HOST_READ by a function of the link: the data, or none in an error response. Log 90. -/
def execHostRead (place : HostAt) (n : Nat) (s : State) : Out :=
  .next (
    let pa := place.pa
    let lines := (List.range ((pa % 64 + n + 63) / 64)).map fun i => if i == 0 then pa else pa - pa % 64 + 64 * i
    if lines.any s.levelHeld then s
    else if lines.any fun a => !s.hostReaches place.fn a || s.hostErr a false then { s with reports := [] :: s.reports }
    else { s with reports := s.memRead pa n :: s.reports })

/-- HOST_RECALL: the line leaves level 2. A write counts as performed only once it is in memory, so the recall is answered
after it. Log 104. -/
def execHostRecall (line : Nat) (s : State) : Out := .next { s with hostLines := s.hostLines.filter (· != line) }

/-! ## Remote devices (R372, R380) -/

/-- A partition of this device holds a share of the sender's pod partition, with the slice that is named, the port that the access
comes through (R377) and the sender's world. Log 91. -/
def State.podShare? (s : State) (a : RemoteAccess) : Option Nat :=
  if targetOf a.pa == Target.device && a.pa < 384 * 2 ^ 30 && a.podPart != 0 then
    (List.range 16).find? fun p =>
      let x := s.part p
      x.live && x.podPart == a.podPart && x.ports.getLsbD a.port && x.slices.getLsbD (sliceOf a.pa) &&
        (a.world == 0 || s.worlds.any fun w => w.id == a.world && w.part == p)
  else none

/-- The choice of a remote atomic, recorded in this device's trail (R382). -/
def RemoteAtomic.choice (x : RemoteAtomic) (part pa : Nat) : Choice :=
  { part := part, kind := 1, qput := false, l := x.l, lane := x.lane, rank := x.rank, gang := x.gang, grid := x.grid, ctx := x.ctx
    src := 192 + sliceOf pa, key := x.va &&& ~~~63
    op := match x.scalar with
      | some o => AccKind.opCode (.satom o x.size false)
      | none => AccKind.opCode (.vatom x.op x.ty) }

/-- What a remote atomic writes over an old value. -/
def RemoteAtomic.apply (x : RemoteAtomic) (old : Word) : Option Word :=
  match x.scalar with
  | some op => atomNew op x.size old x.data x.cmp
  | none => (vatomNew x.op x.ty (old.setWidth 32) (x.data.setWidth 32) (x.cmp.setWidth 32)).1.map fun w => w.setWidth 64

/-- A remote access that a port has accepted: the slice makes the checks it makes for its own groups, and answers. -/
def State.serveRemote (s : State) (acc : RemoteAccess) : State :=
  let refuse := { s with reports := [] :: s.reports }
  let port := 129 + acc.port
  match s.podShare? acc with
  | none => refuse
  | some p =>
    if !s.mgmtOn then refuse
    else match acc.op with
      | .read n =>
        if (s.readErr port acc.world acc.pa).isSome || 64 < acc.pa % 64 + n then refuse
        else { s with reports := s.memRead acc.pa n :: s.reports }
      | .write bs =>
        if (s.writeErr port acc.world acc.pa (bs.length == 64)).isSome || 64 < acc.pa % 64 + bs.length then refuse
        else s.memWrite acc.world acc.pa bs
      | .atomic x =>
        if (s.readErr port acc.world acc.pa).isSome || 64 < acc.pa % 64 + x.size then refuse
        else
          let c := RemoteAtomic.choice x p acc.pa
          match s.trailAsk c with
          | .wait => s
          | .fault => refuse
          | .go t =>
            let old := s.memRead acc.pa x.size
            let s := match RemoteAtomic.apply x (wordOf old) with
              | some v => s.memWrite acc.world acc.pa (bytesOf x.size v.toNat)
              | none => s
            let s := s.trailMark c t none
            { s with reports := old :: s.reports }

/-- A remote access must wait: for a level of its line (R393), or, an atomic, for its turn in the trail. -/
def State.remoteHeld (s : State) (acc : RemoteAccess) : Bool :=
  s.levelHeld acc.pa || match acc.op, s.podShare? acc with
    | .atomic x, some p => (s.trailAsk (RemoteAtomic.choice x p acc.pa)) == .wait
    | _, _ => false

/-- FABRIC_ACCESS: the packet arrives at a fabric port on the flow from it to the slice, sealed under the key that the devices of
the pod partition share (R363, R372); an answer without data is an error response. Log 91. -/
def execFabricAccess (acc : RemoteAccess) (s : State) : Out :=
  .next (
    if s.remoteHeld acc then s
    else
      let t := s.arrives acc.pkt
      if s.accepts acc.pkt && acc.port < 24 && acc.pkt.flow == flowId acc.world (129 + acc.port) (s.targetPort acc.pa) false then
        t.serveRemote acc
      else { t with reports := [] :: t.reports })

end Sys2Proof.Machine
end

