-- ==== Sys2Proof/Machine/Save.lean ====
section
/-! DEFINITION. CTXSAVE (R339, R340). -/

namespace Sys2Proof.Machine

/-! ## The frames of a team (R160, R420) -/

/-- A new index for a frame: those in hardware first, then the spilled ones, which take the slots of the frame area in
order. -/
def Team.frameMap (t : Team) (i : Nat) : Nat :=
  let hw := t.frames.filter fun f => f.slot.isNone
  let out := t.frames.filter fun f => f.slot.isSome
  match hw.findIdx? (fun f => f.idx == i), out.findIdx? (fun f => f.idx == i) with
  | some k, _ => k
  | none, some k => 4 + k
  | none, none => i

/-- Log 73. -/
def Team.renumber (t : Team) : Team :=
  let m := t.frameMap
  let up := fun (b : Byte) => if b == 0xFF then b else BitVec.ofNat 8 (m b.toNat)
  { t with
    frames := t.frames.map fun f =>
      { f with idx := m f.idx, parent := up f.parent, slot := if f.slot.isSome then some (m f.idx - 4) else none }
    divs := t.divs.map fun d =>
      { d with parent := if d.parent == 0xFF then 0xFF else m d.parent, frames := d.frames.map m, finished := d.finished.map m } }

/-- What a slot of the frame area holds for the frame of a renumbered team: a frame as a program has left it, or bytes that fail
their check, and go on failing it (R160, R187). -/
def State.slotBytes (s : State) (t : Team) (slot : Nat) : List Byte :=
  match s.readFrame t 0 slot with
  | some g => { g with parent := if g.parent == 0xFF then 0xFF else BitVec.ofNat 8 (t.frameMap g.parent.toNat) }.bytes
  | none =>
    let bs := s.spRead t.core (spByte t (t.slotOffset slot)) 32
    bs.set 7 (xorBytes (bs.take 7) ^^^ xorBytes (bs.drop 8) ^^^ 0x5A)

/-- Before a save the device moves a team's spilled frames so that an image names each (R160: where a frame sits is visible
only in time). Log 73. -/
def State.settleFrames (s : State) (t : Team) : State :=
  let moves := t.frames.filterMap fun f => f.slot.map fun i => (t.frameMap f.idx - 4, s.slotBytes t i)
  (moves.foldl (fun s m => s.writeSlot t m.1 m.2) s).mapTeam t.id fun _ => t.renumber

/-! ## Sections of a context (R335) -/

def State.ctxGrids (s : State) (ctx : Nat) : List Grid := s.grids.filter fun g => g.ctx == ctx

/-- Index of a grid's section; 0xFFFF for none. Log 71. -/
def State.gridSection (s : State) (ctx grid : Nat) : Nat :=
  match (s.ctxGrids ctx).findIdx? fun g => g.id == grid with
  | some i => i + 1
  | none => 0xFFFF

/-- Teams of a context by grid, gang and rank. -/
def State.teamsInOrder (s : State) (ctx : Nat) : List Team :=
  (s.ctxGrids ctx).flatMap fun gr => (s.gangs.filter fun g => g.grid == gr.id).flatMap fun g =>
    (List.range 4).filterMap fun i => s.teams.find? fun t => t.gang == g.id && t.tid == i

/-- Section, gang number and team rank of a team. -/
def State.teamPlace (s : State) (ctx team : Nat) : Nat × Nat × Nat :=
  match s.team? team with
  | none => (0xFFFF, 0, 0)
  | some t => match s.gang? t.gang with
    | none => (0xFFFF, 0, t.tid)
    | some g => (s.gridSection ctx g.grid, g.num, t.tid)

/-- The team section and the group sections of a team. -/
def State.teamSects (s : State) (ctx : Nat) (t : Team) : List Sect :=
  let p := s.teamPlace ctx t.id
  ⟨2, p.2.1, p.2.2, 0, p.1, s.teamBody t⟩ ::
    (List.range 16).filterMap fun r => (s.groupAt t.id r).map fun g => ⟨3, p.2.1, p.2.2, r, p.1, g.body⟩

/-- The sections of the ACTIVE tags that a context owns. -/
def State.tagSects (s : State) (ctx : Nat) : List Sect :=
  (List.range 192).flatMap fun core => ((s.core core).ownedTags ctx).map fun t =>
    let p := match s.teams.find? fun x => x.core == core && x.tags.getLsbD t with
      | some x => s.teamPlace ctx x.id
      | none => (0xFFFF, 0, 0)
    ⟨4, 0, p.2.2, t, p.1, s.tagBody core t p⟩

/-- The sections of the suspended copies of a context. -/
def State.copySects (s : State) (ctx : Nat) : List Sect :=
  (s.copies.filter fun c => c.ctx == ctx).map fun c =>
    let p := s.teamPlace ctx c.team
    let rank := ((s.group? c.uid).map Group.rank).getD 0
    ⟨5, 0, p.2.2, rank, p.1, c.body (p.1, p.2.1, p.2.2, rank)⟩

/-- The sections of a context; each grid takes a free value as its parent link. Log 71. -/
def State.sects (s : State) (ctx : Nat) : List Sect :=
  let grids := (s.ctxGrids ctx).zipIdx.map fun x =>
    let parent := x.1.parent.map (s.gridSection ctx)
    (⟨1, 0, 0, 0, x.2 + 1, x.1.body parent (Config.freeWord (s.fresh + x.2))⟩ : Sect)
  grids ++ (s.teamsInOrder ctx).flatMap (s.teamSects ctx) ++ s.tagSects ctx ++ s.copySects ctx

/-- What the sections have no bytes for. Log 74. -/
def State.keptOf (s : State) (ctx : Nat) : Kept :=
  let ts := s.teamsInOrder ctx
  { groups := (s.groups.filter (s.ofCtx ctx)).map fun g =>
      ⟨(s.gridOf g).num, (s.gangOf g).num, (s.teamOf g).tid, g.rank, g.heldReplay.bind Replay.popped, (g.heldReplay.map Replay.ps1).getD false,
        g.stops.take 15, match g.status with | .desched st e => some (st, e) | _ => none⟩
    teams := ts.map fun t =>
      let g := (s.gang? t.gang).getD .firmware
      ⟨((s.grid? g.grid).map Grid.num).getD 0, g.num, t.tid,
        ((s.core t.core).poison.filter fun w => t.base ≤ w / 1024 && w / 1024 < t.base + t.units).map fun w => w - 1024 * t.base⟩
    sups := ((s.ctxGrids ctx).filter Grid.sup).map Grid.num
    freed := (s.gangs.filter Gang.freed).filterMap fun g =>
      (s.grid? g.grid).bind fun gr => if gr.ctx == ctx then some (gr.num, g.num) else none }

/-! ## Release of a context's resources (R340) -/

/-- Scrub and free every tag that a context owns. -/
def State.freeTags (s : State) (ctx : Nat) : State :=
  (List.range 192).foldl (fun s core => ((s.core core).ownedTags ctx).foldl (fun s t => s.scrubTag core t) s) s

/-- Everything of a context but its record goes: tags, windows, runs, slots, barriers, tickets, pending entries. -/
def State.dropCtx (s : State) (ctx : Nat) : State :=
  let s := s.freeTags ctx
  let ts := s.ctxTeams ctx
  let s := { s with copies := s.copies.filter fun c => c.ctx != ctx, locks := s.locks.filter fun l => l.ctx != ctx }
  let s := ts.foldl (fun s t => ({ (s.freeSteps t.id) with teams := s.teams.filter fun x => x.id != t.id }.leaveTeam t.id).clearWindow
    t.core t.base t.units) s
  let ids := (s.ctxGrids ctx).map Grid.id
  let entries := ((s.ctxGrids ctx).filter Grid.pending).map Grid.quad
  let s := { s with gangs := s.gangs.filter fun g => !ids.contains g.grid, grids := s.grids.filter fun g => g.ctx != ctx }
  entries.foldl State.entryFreed (s.mapCtx ctx fun c => { c with replays := [] })

/-! ## Access to the image (R193, R355) -/

/-- Translate the pages of an image for the issuing group: the first fault, if any. -/
def State.imagePages (s : State) (kind : AccessKind) (base : Word) (len : Nat) : Option MemFault × State :=
  (List.range ((len + 4095) / 4096)).foldl
    (fun (x : Option MemFault × State) i =>
      match x.1 with
      | some _ => x
      | none =>
        let t := x.2.checkRange kind (base + BitVec.ofNat 64 (4096 * i)) 4096 (Nat.min 4096 (len - 4096 * i))
        (match t.res with | .inl f => some f | .inr _ => none, t.st))
    (none, s)

/-- Write an image line by line, as the issuing group; false where a write meets an error response. Log 78. -/
def State.putLines (s : State) : List (Word × List Byte) → Bool × State
  | [] => (true, s)
  | x :: xs =>
    let w := s.ctxWrite (s.coreOf s.cur) (s.ctxOf s.cur) s.cur.level x.1 x.2
    match w.1 with
    | some _ => (false, w.2)
    | none => w.2.putLines xs

/-- The lines of bytes from an address. -/
def linesFrom (base : Word) (bs : List Byte) : List (Word × List Byte) :=
  (List.range ((bs.length + 63) / 64)).map fun i => (base + BitVec.ofNat 64 (64 * i), (bs.drop (64 * i)).take 64)

/-- The context that an instruction of the issuing group may save or load: of its own partition; machine firmware's group
stands in every one (R339, R377). -/
def State.imageCtx? (s : State) (ctx : Nat) : Option Ctx :=
  (s.realCtx? ctx).bind fun c => if (s.ctxOf s.cur).id == 0 || (s.ctxOf s.cur).part == c.part then some c else none

/-- Every access before the instruction has been performed (R355). -/
def State.quiet (s : State) : Bool := s.cur.accs.isEmpty

/-- CTXSAVE once its context stands HALTED. Log 78, 79. -/
def State.saveCtx (s : State) (free : Bool) (d : SReg) (base : Word) (cap : Nat) (c : Ctx) : State :=
  let s1 := (s.teamsInOrder c.id).foldl State.settleFrames s
  let ss := s1.sects c.id
  let len := imageLength ss
  if cap < len then (s.sput d 2).nextPc 8
  else
    let p := s1.imagePages .write base len
    match p.1 with
    | some f => p.2.sMemFault f 0x02 true false
    | none =>
      let counter := c.counter + 1
      let s2 := { p.2 with fresh := p.2.fresh + (s.ctxGrids c.id).length }.mapCtx c.id fun x =>
        { x with counter := counter, kept := s1.keptOf c.id }
      let w := s2.putLines (linesFrom base (s1.imageBytes c ss counter))
      if !w.1 then (w.2.sput d 7).nextPc 8
      else
        let t := if free then (w.2.dropCtx c.id).mapCtx c.id fun x => { x with st := .empty } else w.2
        (t.sput d (BitVec.ofNat 64 (len * 2 ^ 32))).nextPc 8

def execCtxsave (free : Bool) (d a b : SReg) (ctx : BitVec 12) (s : State) : Out :=
  .next (s.sIssue .mach [d, a, b] false fun s =>
    if !s.quiet then s
    else
      let t := s.checkRange .write (s.sget a) 4096 64
      match t.res with
      | .inl f => t.st.sMemFault f 0x02 true false
      | .inr _ =>
        match t.st.imageCtx? ctx.toNat with
        | none => (t.st.sput d 3).nextPc 8
        | some c =>
          if c.st != .halted then (t.st.sput d 1).nextPc 8
          else t.st.saveCtx free d (s.sget a) (s.sget b).toNat c)

end Sys2Proof.Machine
end

