-- ==== Sys2Proof/Machine/Power.lean ====
section
/-! DEFINITION. Power and deadlines: the step instructions (R395, R396), the governor's window (R393, R394, R398, R402), the
fast control (R400, R401), the error log (R403) and the thermal sensors (R417, R418). -/

namespace Sys2Proof.Machine

/-! ## Step entries (R395, R396) -/

/-- An update stamped at a TIME keeps what the entry held before that TIME. -/
def StepEntry.update (e : StepEntry) (time : Nat) (f : StepView → StepView) : StepEntry :=
  ⟨f e.toStepView, time, if e.stamp == time then e.old else e.toStepView⟩

/-- What a window at T sees of an entry: updates stamped before T (R398). -/
def StepEntry.seen (e : StepEntry) (t : Nat) : StepView := if t ≤ e.stamp then e.old else e.toStepView

/-- Work that remains, in kilo-cycles. Log 59, 70. -/
def StepView.rem (e : StepView) : Nat := e.w - e.done

/-- Change step entry i of a core. -/
def State.mapStep (s : State) (core i : Nat) (f : StepEntry → StepEntry) : State :=
  s.mapCore core fun c => { c with steps := put c.steps i (f (look c.steps i .free)) }

/-- The entry a handle names, held by a team. -/
def State.stepOf (s : State) (core team : Nat) (h : Word) : Option (Nat × StepEntry) :=
  let i := h.toNat % 16
  let e := look (s.core core).steps i .free
  if h >>> 20 == 0 && e.st != .free && e.team == team && e.gen.toNat == h.toNat / 16 then some (i, e) else none

/-- STEP.BEGIN. -/
def execStepBegin (d a b : SReg) (s : State) : Out :=
  .next (s.sIssue .user [d, a, b] false fun s =>
    let w := (s.sget b).toNat
    let core := s.coreOf s.cur
    if 2 ^ 34 ≤ w then (s.sput d (-2)).nextPc 8
    else match (List.range 16).find? fun i => (look (s.core core).steps i .free).st == .free with
      | none => (s.sput d (-1)).nextPc 8
      | some i =>
        let gen := (look (s.core core).steps i .free).gen + 1
        let v : StepView :=
          ⟨.active, (s.gridOf s.cur).ctx, s.cur.team, s.cur.uid, s.cur.s.pc, s.sget a, w, 0, gen⟩
        ((s.mapStep core i fun e => e.update s.time fun _ => v).sput d
          (BitVec.ofNat 64 (gen.toNat * 16 + i))).nextPc 8)

/-- STEP.PROG. -/
def execStepProg (d a b : SReg) (s : State) : Out :=
  .next (s.sIssue .user [d, a, b] false fun s =>
    let core := s.coreOf s.cur
    match s.stepOf core s.cur.team (s.sget a) with
    | none => (s.sput d 1).nextPc 8
    | some (i, _) =>
      let n := Nat.min (s.sget b).toNat (2 ^ 34 - 1)
      ((s.mapStep core i fun e => e.update s.time fun v => { v with done := Nat.max v.done n }).sput d 0).nextPc 8)

/-- STEP.END. -/
def execStepEnd (d a : SReg) (s : State) : Out :=
  .next (s.sIssue .user [d, a] false fun s =>
    let core := s.coreOf s.cur
    match s.stepOf core s.cur.team (s.sget a) with
    | none => (s.sput d 0x8000000000000000).nextPc 8
    | some (i, e) =>
      ((s.mapStep core i fun e => e.update s.time fun v => { v with st := .free }).sput d (e.d - s.timeWord)).nextPc 8)

/-! ## The governor's window (R398) -/

/-- Required frequency of an entry in GHz, as numerator and denominator, and whether it is missed now. -/
def StepView.required (e : StepView) (t guard : Nat) : Nat × Nat × Bool :=
  if e.st == .missed then (33, 10, false)
  else
    let span : Int := (e.d.toNat : Int) - t - guard
    if e.rem == 0 then (0, 1, false)
    else if span ≤ 0 || 33 * span < 10000 * e.rem then (33, 10, true)
    else (1000 * e.rem, span.toNat, false)

/-- The least point whose frequency is at least n/d GHz: f_i = 0.165 * (5 + i) GHz (R392). -/
def leastPoint (n d : Nat) : Nat := ((List.range 16).find? fun i => decide (1000 * n ≤ 165 * (5 + i) * d)).getD 15

/-- DEADLINE for a step (R323, R399): its record, its mailbox entry, and the event for the group that began it. While one
is pending for the group, a later one queues its record only. Log 58. -/
def State.raiseDeadline (s : State) (core i : Nat) (e : StepView) : State :=
  match s.group? e.uid with
  | none => s
  | some g =>
    let s1 := s.queueRecord core e.ctx (s.recordOf g 0x17 0 0xFF 0 e.d e.pc (BitVec.ofNat 64 e.rem) 0)
    if g.stops.any fun st => st.kind == .event then s1
    else
      let s2 := s1.mail core e.ctx 2 (bytesOf 8 i ++ bytesOf 8 e.d.toNat ++ bytesOf 8 e.rem)
      if g.status == .exited then s2
      else
        let st : Stop := ⟨.event, 0x17, 0, BitVec.ofNat 64 i, false, false, g.s.pc, [], 0, BitVec.allOnes 128, none, s.time, core, true⟩
        s2.mapGroup e.uid fun g => g.addStop st

/-- The window's look at one entry: the required point of its quadrant rises, and a missed step raises its event. Log 59. -/
def State.windowStep (s : State) (core i : Nat) : Option Nat × State :=
  let e := (look (s.core core).steps i .free).seen s.time
  if e.st == .free then (none, s)
  else
    let r := e.required s.time s.dev.guard.toNat
    (some (leastPoint r.1 r.2.1),
      if r.2.2 then
        (s.mapStep core i fun x =>
          if x.st == .active && x.gen == e.gen && x.team == e.team then { x with st := .missed, old := { x.old with st := .missed } } else x).raiseDeadline
            core i e
      else s)

/-- The quadrant in which the governor counts an entry of a core: that of the target while the entry's team is on its move (R405). -/
def State.entryQuad (s : State) (core i : Nat) : Nat :=
  let e := (look (s.core core).steps i .free).seen s.time
  if s.dev.tmig == .pending && (s.team? e.team).any (fun t => t.moving && t.id == s.dev.tteam) then quadOf s.dev.tcore else quadOf core

/-- The required point of a quadrant: the largest over its active entries, or none. Log 60. -/
def State.windowQuad (s : State) (q : Nat) : Option Nat × State :=
  ((List.range 3072).filter fun k => s.entryQuad (k / 16) (k % 16) == q).foldl
    (fun (x : Option Nat × State) k =>
      let r := x.2.windowStep (k / 16) (k % 16)
      (match r.1, x.1 with
        | some p, some m => some (Nat.max p m)
        | some p, none => some p
        | none, m => m, r.2))
    (none, s)

/-- Tier of a core: the most favoured tier of any team on it; none of an empty core (R394). Log 66. -/
def State.tierOf (s : State) (core : Nat) : Option Nat :=
  ((s.teams.filter fun t => t.core == core).map fun t =>
    (((s.gang? t.gang).bind fun g => s.grid? g.grid).map fun g => g.launch.tier).getD 0).min?

/-- The demand of a tier in a quadrant: the predicted power of its cores at the point that the quadrant's steps require (R394). -/
def State.demandAt (s : State) (m : GovInput) (req : Nat → Nat) (t q : Nat) : Int :=
  (List.range 48).foldl
    (fun (n : Int) k =>
      let c := 48 * q + k
      if s.tierOf c == some t then n + (m.cores.getD (16 * c + req q) 0 : Int) else n) 0

/-- Demand of the four tiers in the four quadrants, tier-major. -/
def State.demands (s : State) (m : GovInput) (req : Nat → Nat) : List Int :=
  (List.range 16).map fun k => s.demandAt m req (k / 4) (k % 4)

/-- Demand of a tier in a quadrant, and in all (R394). -/
def demandIn (d : List Int) (t q : Nat) : Int := d.getD (4 * t + q) 0
def demandOf (d : List Int) (t : Nat) : Int := (List.range 4).foldl (fun n q => n + demandIn d t q) 0

/-- The allocation of the budget to the four tiers: floors first, then the surplus in tier order (R394). -/
def shares (dem : List Int) (platform : Nat) (pcap : Int) (floors : Vector (BitVec 16) 4) : List Int :=
  let floor := (List.range 4).foldl
    (fun (x : List Int × Int) t =>
      let a := min (min (demandOf dem t) (look floors t 0).toNat) x.2
      (x.1 ++ [a], x.2 - a)) (([] : List Int), pcap - platform)
  ((List.range 4).foldl
    (fun (x : List Int × Int) t =>
      let a := floor.1.getD t 0
      let y := min (demandOf dem t - a) x.2
      (x.1 ++ [a + y], x.2 - y)) (([] : List Int), floor.2)).1

/-- The share of a quadrant as a numerator over the product of the tiers' demands (R394). Log 63. -/
def shareOf (dem a : List Int) (q : Nat) : Int × Int :=
  (List.range 4).foldl
    (fun (x : Int × Int) t =>
      let d := demandOf dem t
      if 0 < d then (x.1 * d + a.getD t 0 * demandIn dem t q * x.2, x.2 * d) else x)
    ((0, 1) : Int × Int)

/-- The highest point whose predicted power fits the share; never below 0 (R398). Log 63. -/
def fitting (m : GovInput) (dem a : List Int) (q : Nat) : Nat :=
  let sh := shareOf dem a q
  (((List.range 16).filter fun i => decide ((m.predict.getD (16 * q + i) 0 : Int) * sh.2 ≤ sh.1)).getLast?).getD 0

/-- The lowest level whose bandwidth is at least 1.125 times a demand in percent (R393). -/
def levelFor (demand : Nat) : Nat := ((List.range 4).find? fun l => decide (9 * demand ≤ 200 * (l + 1))).getD 3

/-- A domain is decided at a point or level; a change takes effect later (R392, R393). Log 63. -/
def Dom.decide (d : Dom) (p : Nat) : Dom := { d with pending := if p == d.cur then none else some p }

/-- The undervolt offset at the end of a window, with the corrected errors met in it (R402). -/
def Dom.undervolt (d : Dom) (errors : Nat) (msEnd : Bool) : Dom :=
  let total := d.ms + errors
  let on := d.uven && !d.freeze
  let uv :=
    if !on then d.uvofs
    else if d.cethr.toNat < errors then d.uvofs - 1
    else if msEnd && total ≤ d.cethr.toNat then Nat.min 12 (d.uvofs + 1)
    else d.uvofs
  { d with uvofs := uv, ms := if msEnd then 0 else total, cecnt := if msEnd then Nat.min total 65535 else d.cecnt }

/-- The required point of a quadrant: that of its steps, or DEFPT (R398). -/
def State.reqPoint (s : State) (reqs : List (Option Nat)) (q : Nat) : Nat :=
  (reqs.getD q none).getD (look s.doms q (Dom.reset true)).defpt.toNat

/-- A compute domain takes its point, at most the highest that fits its share (R398). -/
def State.windowDom (s : State) (q req fit : Nat) : State :=
  let d := look s.doms q (Dom.reset true)
  let p := Nat.min req fit
  let throttled := (List.range 48).any fun k => (s.core (48 * q + k)).throttled || 0 < (s.core (48 * q + k)).lvl
  let p := if throttled then Nat.min p d.cur else p
  { s with doms := put s.doms q { d.decide p with req := req } }

/-- GOVERNOR_WINDOW: once at each TIME that is a multiple of 10,000. Log 5, 60, 62. -/
def execGovernorWindow (m : GovInput) (s : State) : Out :=
  .next (
    if s.dev.biv == .asleep || s.time % 10000 != 0 || s.dev.window == some s.time then s
    else
      let msEnd := s.time % 1000000 == 0
      let x := (List.range 4).foldl
        (fun (x : List (Option Nat) × State) q => let r := x.2.windowQuad q; (x.1 ++ [r.1], r.2)) (([] : List (Option Nat)), s)
      let req := s.reqPoint x.1
      let dem := s.demands m req
      let a := shares dem m.platform s.dev.pcap.toNat s.dev.pfloor
      let s := (List.range 4).foldl (fun s q => s.windowDom q (req q) (fitting m dem a q)) x.2
      let doms := Vector.ofFn fun i : Fin 24 =>
        let d := if i.val < 4 then s.doms[i] else s.doms[i].decide (levelFor (m.stacked.getD (i.val - 4) 0))
        d.undervolt (m.corrected.getD i.val 0) msEnd
      { s with
        doms := doms
        cores := s.cores.map fun c => { c with throttled := decide (0 < c.lvl) }
        dev := { s.dev with window := some s.time, pwr := BitVec.ofNat 16 (Nat.min m.board 65535) } })

/-- POINT_CHANGE_DONE (R392). -/
def execPointChangeDone (dom : Nat) (s : State) : Out :=
  .next (
    if dom < 4 then
      let d := look s.doms dom (Dom.reset true)
      match d.pending with
      | some p => { s with doms := put s.doms dom { d with cur := p, pending := none } }
      | none => s
    else s)

/-- LEVEL_CHANGE_DONE (R393). Log 65. -/
def execLevelChangeDone (dom : Nat) (s : State) : Out :=
  .next (
    if 4 ≤ dom && dom < 24 then
      let d := look s.doms dom (Dom.reset false)
      match d.pending with
      | some p => { s with doms := put s.doms dom { d with cur := p, pending := none } }
      | none => s
    else s)

/-! ## The fast control (R400, R401) -/

/-- The cores of a quadrant that satisfy a test and hold teams, with their tiers. Log 66. -/
def State.tiered (s : State) (q : Nat) (p : CoreState → Bool) : List (Nat × Nat) :=
  ((List.range 48).map (48 * q + ·)).filterMap fun c => if p (s.core c) then (s.tierOf c).map fun t => (c, t) else none

/-- Change LVL of a core. -/
def State.setLvl (s : State) (core lvl : Nat) : State :=
  s.mapCore core fun c => { c with lvl := lvl, throttled := c.throttled || decide (0 < lvl) }

/-- One sample of a domain's current in amperes (R401). Log 66. -/
def State.sampleDom (s : State) (q amps : Nat) : State :=
  let d := look s.doms q (Dom.reset true)
  let low := 10 * amps < 9 * d.ilim.toNat
  let n := if low then d.low + 1 else 0
  let s := { s with doms := put s.doms q { d with low := if n == 10 then 0 else n } }
  if d.ilim.toNat < amps then
    let cs := s.tiered q fun c => decide (c.lvl < 4)
    match (cs.map Prod.snd).max? with
    | none => s
    | some t => (cs.filter fun x => x.2 == t).foldl (fun s x => s.setLvl x.1 ((s.core x.1).lvl + 1)) s
  else if n == 10 then
    let cs := s.tiered q fun c => decide (0 < c.lvl)
    match (cs.map Prod.snd).min? with
    | none => s
    | some t => (cs.filter fun x => x.2 == t).foldl (fun s x => s.setLvl x.1 ((s.core x.1).lvl - 1)) s
  else s

/-- CURRENT_SAMPLE: once at each TIME that is a multiple of 1,000. Log 5, 62. -/
def execCurrentSample (amps : List Nat) (s : State) : Out :=
  .next (
    if s.dev.biv == .asleep || s.time % 1000 != 0 || s.dev.sample == some s.time then s
    else
      let s := (List.range 4).foldl (fun s q => s.sampleDom q (amps.getD q 0)) s
      { s with dev := { s.dev with sample := some s.time } })

/-! ## Uncorrectable errors (R366, R403) -/

/-- The unit, and the word it names, exist. -/
def errReal (e : ErrInput) : Bool :=
  if lineUnit e then targetOf e.addr.toNat == Target.device && e.addr.toNat < 384 * 2 ^ 30 && e.layer < 4
  else e.unit < 4 && e.addr.toNat % 256 < 192

/-- The source number of the unit (R1). -/
def unitSource (e : ErrInput) : Nat := if lineUnit e then 192 + sliceOf e.addr.toNat else e.addr.toNat % 256

/-- A leaf under a table maps a physical address (R237). -/
def State.tableMaps (s : State) (pa : Nat) : (lvl : Nat) → (table : Nat) → Bool
  | lvl, t => (List.range 512).any fun i =>
    let e := natOfBytes (s.memRead (t + 8 * i) 8)
    pteV e && (if pteL e then pa / 2 ^ (12 + 9 * lvl) == pteFrame e * 4096 / 2 ^ (12 + 9 * lvl)
      else match lvl with
        | 0 => false
        | l + 1 => s.tableMaps pa l (pteFrame e * 4096))

/-- The context that owns the page of a physical address: the first one that maps it (R366). Log 134. -/
def State.pageOwner (s : State) (pa : Nat) : Option Nat :=
  (s.ctxs.find? fun c => c.id != 0 && s.tableMaps pa 4 c.root).map Ctx.id

/-- The context whose word it was: the page's owner, or that of the register, bank, window or slot; none is the platform. -/
def State.errCtx (s : State) (e : ErrInput) : Option Nat :=
  if lineUnit e then s.pageOwner e.addr.toNat
  else (e.ctx.map BitVec.toNat).bind fun c => if c == 0 then none else (s.ctx? c).map Ctx.id

/-- The world of the line's sideband (R366), or of the context that held the word. -/
def State.errWorld (s : State) (e : ErrInput) : Byte :=
  if lineUnit e then (((s.line? e.addr.toNat).bind Line.owner).map Prod.fst).getD 0
  else (((s.errCtx e).bind s.ctx?).map Ctx.world).getD 0

/-- The 32 bytes of an error record; its owner is the platform where the world is 0 and no context owns the word (R366). The address
of a unit of a core has bits 63:32 zero (R403). -/
def State.errRecord (s : State) (x : MetError) (restored : Bool) : List Byte :=
  let e := x.err
  let w := s.errWorld e
  let owned := w != 0 || (s.errCtx e).isSome
  bytesOf 8 x.time ++ bytesOf 2 (unitSource e) ++ [BitVec.ofNat 8 (errDom e), w, BitVec.ofNat 8 e.unit, BitVec.ofNat 8 x.uvofs,
    BitVec.ofNat 8 (owned.toNat + 2 * restored.toNat), 0] ++
    bytesOf 8 (if lineUnit e then e.addr.toNat else e.addr.toNat % 2 ^ 32) ++ bytesOf 2 ((s.errCtx e).getD 0xFFFF) ++ bytesOf 6 0

/-- A line with an uncorrectable word fails its check (R244), whoever owns it. -/
def State.breakLine (s : State) (pa : Nat) : State :=
  { s with lines := putLine ⟨pa / 64, (s.line? pa).bind Line.owner, true⟩ s.lines }

/-- What an error does beyond the effects its unit gives it (R403): UVOFS to 0 and FREEZE, unless FREEZE is set, and a record in the
ring. The record is a write of world 0 to part of a line: one that the line refuses leaves no bytes, and is counted (R365). It waits
while its line changes level (R393). Log 64, 133. -/
def State.restoreOffset (s : State) (x : MetError) : State :=
  let d := look s.doms (errDom x.err) (Dom.reset true)
  let base := s.dev.errlb.toNat / 2048 % 2 ^ 41 * 2048
  let pa := base + 32 * (s.dev.errlt.toNat % 64)
  let rec' := s.errRecord x (!d.freeze && d.uvofs != 0)
  let s := s.holdIf (base != 0 && s.levelHeld pa)
  let s := if base == 0 || (s.sliceErr 0 pa).isSome then s else s.memWrite 0 pa rec'
  { s with
    doms := if d.freeze then s.doms else put s.doms (errDom x.err) { d with uvofs := 0, freeze := true }
    dev := { s.dev with errlt := s.dev.errlt + 1 } }

/-- An error that has been met is the next to be recorded: records stand in the order of their TIMEs, and those of one TIME by source, so
none is written before its TIME is over (R1). -/
def State.nextError (s : State) (x : MetError) : Bool :=
  decide (x.time < s.time) && s.errs.all fun y => !earlier (y.time, unitSource y.err) (x.time, unitSource x.err)

/-- UNDERVOLT_RESTORE: an error that its unit has met, a wake, a wave, a WLOAD or a drain or a line of memory, has its effects once its
record is the next. A line that has met none meets the error now, and fails from then on. Log 62, 64. -/
def execUndervoltRestore (e : ErrInput) (s : State) : Out :=
  .next (
    if !errReal e then s
    else match s.errs.find? fun x => x.err == e with
      | some x => if s.nextError x then { s with errs := s.errs.erase x }.restoreOffset x else s
      | none => if lineUnit e then (s.meetError e).breakLine e.addr.toNat else s)

/-! ## Thermal sensors (R417, R418) -/

/-- THERMAL_SAMPLE: at any phase, with 10,000 ticks between the samples of a core. Log 5, 62. -/
def execThermalSample (core : Nat) (temp : BitVec 16) (s : State) : Out :=
  .next (
    let c := s.core core
    if s.dev.biv == .asleep || 192 ≤ core || c.sampled.any fun t => decide (s.time < t + 10000) then s
    else
      let over' := c.thr.toNat < temp.toNat
      let s1 := s.mapCore core fun c => { c with temp := temp, hot := c.hot || decide over', sampled := some s.time }
      if over' && !c.hot then s1.logEvent core 2 else s1)

end Sys2Proof.Machine
end

