-- ==== Sys2Proof/Machine/Thermal.lean ====
section
/-! DEFINITION. Thermal migration of a team within the device (R271, R345 to R347, R397, R405). -/

namespace Sys2Proof.Machine

/-! ## The request (R345) -/

/-- Tags of a core's team, by number. -/
def Team.tagList (t : Team) : List Nat := (List.range 16).filter fun i => t.tags.getLsbD i

/-- Every tag of a team has its number, bank and slot FREE on a core. -/
def State.tagsFree (s : State) (t : Team) (core : Nat) : Bool :=
  t.tagList.all fun i =>
    let x := s.tag t.core i
    (s.tag core i).st == TagState.free &&
      (s.core core).tags.all fun y => y.st == TagState.free || (y.bank != x.bank && y.slot != x.slot)

/-- Every step entry a team holds is FREE at the same index of a core (R397). -/
def State.stepsFree (s : State) (t : Team) (core : Nat) : Bool :=
  (s.stepsOf t).all fun e => (look (s.core core).steps e.1 .free).st == .free

/-- The groups of a team that hold a slot, in rank order. -/
def State.liveRanks (s : State) (t : Team) : List Nat := (List.range 16).filter fun r => (s.groupAt t.id r).isSome

/-- The team whose rank-0 group holds a slot of a core. -/
def State.teamAt (s : State) (core slot : Nat) : Option Team :=
  (s.groups.find? fun g => g.status != .exited && g.rank == 0 && g.slot == slot && s.coreOf g == core).bind fun g => s.team? g.team

/-- What a team takes on a target core: groups, first bank, barriers. -/
def State.moveFit (s : State) (t : Team) (core : Nat) : Option (List (Nat × Nat × Nat) × Nat × List Nat) :=
  let regs := ((s.groupAt t.id ((s.liveRanks t).headD 0)).map fun g => Nat.log2 (g.nregs / 8)).getD 0
  match pickRuns regs (s.liveRanks t).length (s.runsOn core), s.pickWindow core (t.spbytes / 8192) [] with
  | some gs, some base =>
    let bars := ((List.range 32).filter fun b => !((s.barsOn core).contains b)).take t.bars.length
    if bars.length == t.bars.length then some (gs, base, bars) else none
  | _, _ => none

/-- The checks made when GO is written: what the move reserves. Log 83. -/
def State.moveCheck (s : State) (src slot dst : Nat) : Option (Team × List (Nat × Nat × Nat) × Nat × List Nat) :=
  (s.teamAt src slot).bind fun t =>
    let g := (s.gang? t.gang).getD .firmware
    let ctx := ((s.grid? g.grid).map Grid.ctx).getD 0
    if dst < 192 && s.ownsCore ctx dst && (g.nteams ≤ 1 || clusterOf dst == clusterOf src) && s.tagsFree t dst && s.stepsFree t dst then
      (s.moveFit t dst).map fun x => (t, x)
    else none

/-- GO: the request becomes PENDING with its reservation, or REFUSED. -/
def State.tmigSubmit (s : State) : State :=
  match s.moveCheck s.dev.tsrc.toNat s.dev.tslot.toNat s.dev.tdst.toNat with
  | none => { s with dev := { s.dev with tmig := .refused } }
  | some (t, gs, base, bars) =>
    { s with dev := { s.dev with
        tmig := .pending, tteam := t.id, tcore := s.dev.tdst.toNat, tres := gs, tbase := base, tbars := bars, tcarried := false } }

/-- A write of TMIG: with GO while a request is PENDING it is ignored. Log 83. -/
def State.writeTmig (s : State) (v : Word) : State :=
  if s.dev.tmig == .pending && v.getLsbD 63 then s
  else
    let s := { s with dev := { s.dev with tdst := v.extractLsb' 40 8, tsrc := v.extractLsb' 32 8, tslot := v.extractLsb' 0 7 } }
    let s := if v.getLsbD 62 then s.withdrawMove else s
    if v.getLsbD 63 then s.tmigSubmit else s

/-- TMIG_GO: a write of TMIG with GO set. Log 103. -/
def execTmigGo (v : Word) (s : State) : Out := .next (s.writeTmig (v ||| (1#64 <<< 63)))

/-- TMIG_CANCEL withdraws a PENDING request (R345). -/
def execTmigCancel (s : State) : Out := .next s.withdrawMove

/-! ## The move (R346, R405) -/

/-- Step 1 of R346: counters of the team's groups have fallen, its matrix commands have completed, no group is in a handler,
and the step entries it holds are FREE on the target. -/
def State.moveDrained (s : State) (t : Team) : Bool :=
  (s.groups.all fun g => g.team != t.id ||
    (g.accs.isEmpty && g.lpend.isEmpty && g.handler.isNone && g.count .ld == 0 && g.count .st == 0 && g.count .rs == 0)) &&
  (s.cmds.all fun c => c.team != t.id) && s.stepsFree t s.dev.tcore && !(s.core t.core).compact.isSome

/-- A wake under way ends at the same distance on the clock of another core. -/
def Supply.moved (src dst : Nat) : Supply → Supply
  | .waking due kept => .waking (due - src + dst) kept
  | x => x

/-- The window with its states and marks goes to the target core. -/
def State.carryWindow (s : State) (t : Team) (core base : Nat) : State :=
  let from' := t.core * 2 ^ 19 + t.base * 8192
  let bytes := s.sp.read from' (t.units * 8192)
  let states := (List.range t.units).map fun i => (look (s.core t.core).banks (t.base + i) .off).moved (s.cyclesOf t.core) (s.cyclesOf core)
  let marks := ((s.core t.core).poison.filter fun w => t.base ≤ w / 1024 && w / 1024 < t.base + t.units).map fun w =>
    w + 1024 * base - 1024 * t.base
  let s := (s.clearWindow t.core t.base t.units).clearWindow core base t.units
  { s with sp := s.sp.write (core * 2 ^ 19 + base * 8192) bytes }.mapCore core fun c => { c with
    banks := states.zipIdx.foldl (fun (v : Vector Supply 48) (x : Supply × Nat) => put v (base + x.2) x.1) c.banks
    poison := c.poison ++ marks }

/-- One tag goes to the target core and is scrubbed on the source. -/
def State.carryTag (s : State) (src dst i : Nat) : State :=
  let t := s.tag src i
  let b := t.bank.toNat
  let k := t.slot.toNat
  let bad := (s.slotBad.filter fun a => slotAddr src k ≤ a && a < slotAddr src k + 8192).map fun a => a - slotAddr src k + slotAddr dst k
  let s := { s with
    acc := s.acc.write (rowAddr dst b 0) (s.acc.read (rowAddr src b 0) 16384)
    slots := s.slots.write (slotAddr dst k) (s.slots.read (slotAddr src k) 8192)
    scales := s.scales.write (scaleAddr dst k) (s.scales.read (scaleAddr src k) 1024)
    wb := s.wb.write (regionAddr dst i) (s.wb.read (regionAddr src i) 16384)
    slotBad := s.slotBad ++ bad }
  (s.mapTag dst i fun _ => t).scrubTag src i

/-- The step entries go to the same indices; a source entry keeps its GEN (R405). -/
def State.carrySteps (s : State) (t : Team) (core : Nat) : State :=
  (s.stepsOf t).foldl (fun s x =>
    let e := look (s.core t.core).steps x.1 .free
    (s.mapStep core x.1 fun _ => e).mapStep t.core x.1 fun e => { e with st := .free, old := { e.old with st := .free } }) s

/-- Copies and their locks follow the window, and those toward a weight buffer region follow the tag (R271, R346). Log 83. -/
def State.carryCopies (s : State) (t : Team) (core base : Nat) : State :=
  let wbOf := fun (l : Lock) => match l.space with | .wb c i => c == t.core && t.tags.getLsbD i | _ => false
  let copyMoves := fun (c : Copy) => CopyDir.dstWb c.dir && c.core == t.core && t.tags.getLsbD c.tag
  let ids := (s.copies.filter copyMoves).map Copy.id
  { s with
    copies := mapIf s.copies copyMoves fun c => { c with core := core }
    locks := s.locks.map fun l =>
      let l := if ids.contains l.cmd then { l with core := core } else l
      if l.space == .window t.core t.base && t.units != 0 then { l with space := .window core base }
      else if wbOf l then
        (match l.space with | .wb _ i => { l with space := .wb core i } | _ => l)
      else l }

/-- The groups take the slots and runs reserved, in rank order; a handle in the replay list follows its group (R317). -/
def State.carryGroups (s : State) (t : Team) (core : Nat) : State :=
  ((s.liveRanks t).zip s.dev.tres).foldl (fun s x =>
    match s.groupAt t.id x.1 with
    | none => s
    | some g =>
      let old := BitVec.ofNat 64 (2 ^ 16 + 256 * t.core + g.slot)
      let new := BitVec.ofNat 64 (2 ^ 16 + 256 * core + x.2.2.1)
      (s.mapGroup g.uid fun g => { g with
        iu := x.2.1, slot := x.2.2.1, block := x.2.2.2
        blocks := g.blocks.map fun b => b.moved (s.cyclesOf t.core) (s.cyclesOf core) }).mapCtx (s.gridOf g).ctx fun c =>
          { c with replays := c.replays.map fun h => if h == old then new else h }) s

/-- Steps 2 and 3 of R346: the team stands on the target, and issues nothing yet. -/
def State.carryTeam (s : State) (t : Team) : State :=
  let core := s.dev.tcore
  let base := s.dev.tbase
  let s := ((s.carryGroups t core).carrySteps t core).carryCopies t core base
  let s := s.carryWindow t core base
  let s := t.tagList.foldl (fun s i => s.carryTag t.core core i) s
  { s.mapTeam t.id fun t => { t with core := core, base := base, bars := s.dev.tbars } with dev := { s.dev with tcarried := true } }

/-- Step 4 of R346: the groups resume on the target; those that an ask holds then park there (R347). -/
def State.resumeTeam (s : State) (t : Team) : State :=
  { s.mapTeam t.id fun t => { t with moving := false } with dev := { s.dev with tmig := .done } }.boundary t.id (s.liveRanks t)

/-- THERMAL_MOVE: the team of a PENDING request has completed its round and has drained, and moves; it resumes at a later one.
Between the two, its copies go on at the target. Log 83. -/
def execThermalMove (s : State) : Out :=
  .next (match s.team? s.dev.tteam with
    | none => s
    | some t =>
      if !(s.dev.tmig == .pending && t.moving) then s
      else if s.carried then s.resumeTeam t
      else if s.moveDrained t then s.carryTeam t
      else s)

end Sys2Proof.Machine
end

