-- ==== Sys2Proof/Machine/Sreg.lean ====
section
/-! DEFINITION. The special registers: access, reads and writes field by field (R5, R23, R82), and the writes that have a
row of their own. -/

namespace Sys2Proof.Machine

/-! ## Access (R23 and the register summary) -/

/-- Read level and write level of a listed register; none of a number that is not listed. -/
def srLevels (n : Nat) : Option (Level × Level) :=
  if n ≤ 7 || n == 0x10 || n == 0x11 || n == 0x20 || n == 0x21 || (0x30 ≤ n && n ≤ 0x33) || n == 0x40 || n == 0x41 ||
      n == 0x50 || n == 0x51 then some (.user, .user)
  else if (0x100 ≤ n && n ≤ 0x103) || (0x110 ≤ n && n ≤ 0x112) || (0x172 ≤ n && n ≤ 0x175) || (0x180 ≤ n && n ≤ 0x19F) ||
      (0x1D0 ≤ n && n ≤ 0x1DF) then some (.super, .super)
  else if n == 0x170 || n == 0x171 || n == 0x1A0 || n == 0x1A1 then some (.super, .mach)
  else if n == 0x140 || (0x150 ≤ n && n ≤ 0x15F) || (0x1B0 ≤ n && n ≤ 0x1B3) || n == 0x1B8 || (0x1C0 ≤ n && n ≤ 0x1CA) ||
      (0x1E0 ≤ n && n ≤ 0x1E4) then some (.mach, .mach)
  else none

/-- The fault of an access at a level, if any: PRIV 0x02 below the level and for every number from 0x100 up at USER, ILLEGAL
0x01 for a number that is not listed. -/
def srFault (lvl : Level) (write : Bool) (n : Nat) : Option Byte :=
  match srLevels n with
  | some (r, w) => if Level.rank lvl < Level.rank (if write then w else r) then some 0x02 else none
  | none => if 0x100 ≤ n && lvl == .user then some 0x02 else some 0x01

/-! ## Reads -/

/-- A word from the positions and values of its fields. -/
def fields (l : List (Nat × Nat)) : Word := BitVec.ofNat 64 (l.foldl (fun (n : Nat) x => n + x.2 * 2 ^ x.1) 0)

/-- Bits hi to lo of a word, in place. -/
def bitsIn (v : Word) (hi lo : Nat) : Word := BitVec.ofNat 64 (v.toNat / 2 ^ lo % 2 ^ (hi + 1 - lo) * 2 ^ lo)

/-- Two bits of SPST for a bank (R188). -/
def Supply.spst : Supply → Nat
  | .full => 0
  | .ret => 1
  | .off => 2
  | .waking _ _ => 3

/-- SPST0 and SPST1: 32 banks of the team's window from bank k on (R188). -/
def State.spst (s : State) (t : Team) (k n : Nat) : Word :=
  fields ((List.range n).map fun i =>
    (2 * i, if k + i < t.spbytes / 8192 then (look (s.core t.core).banks (t.base + k + i) .off).spst else 2))

/-- DONE0 to DONE3: 32 lanes (R23). -/
def doneWord (m : Mask) (i : Nat) : Word := (m.extractLsb' (32 * i) 32).setWidth 64

/-- HSTAT (R313). -/
def Group.hstat (g : Group) : Word :=
  match g.handler with
  | none => 0
  | some h =>
    let l := h.stop.l && h.stop.code != 0x10
    fields [(16, h.rqn), (8, h.stop.code.toNat), (3, (h.stop.replay.isSome || h.replay.isSome).toNat), (2, (l && h.stop.ps1).toNat), (1, l.toNat), (0, 1)]

/-- TAGE and TAGR as a context reads them at a level (R276). -/
def Tag.tage (x : Tag) (own : Bool) : Word := if own then x.entry else fields [(43, x.st.code)]
def Tag.tagr (x : Tag) (own : Bool) : Word := if own then x.pois.setWidth 64 else 0

/-- A tag is shown in full to its owner at SUPER and to everyone at MACH. -/
def State.fullTag (s : State) (x : Tag) : Bool :=
  s.cur.level == .mach || (x.st != .free && x.ctx.toNat == (s.ctxOf s.cur).id)

def StepState.code : StepState → Nat
  | .free => 0
  | .active => 1
  | .missed => 2

/-- STEPE as a context reads it (R395). Log 70. -/
def StepView.stepe (e : StepView) (own : Bool) : Word :=
  if own then fields [(62, StepState.code e.st), (50, e.ctx), (34, e.gen.toNat), (0, e.rem)]
  else fields [(62, StepState.code e.st)]

def State.fullStep (s : State) (e : StepView) : Bool :=
  s.cur.level == .mach || (e.st != .free && e.ctx == (s.ctxOf s.cur).id)

def Ladder.code : Ladder → Nat
  | .run => 0
  | .asked => 1
  | .halting => 2
  | .halted => 3
  | .empty => 4

/-- PREQ of a context (R328). -/
def Ctx.preq (c : Ctx) : Word := fields [(11, c.parkedHalt.toNat), (8, Ladder.code c.st)]

def TmigStatus.code : TmigStatus → Nat
  | .idle => 0
  | .pending => 1
  | .done => 2
  | .refused => 3
  | .cancelled => 4

/-- KIND of a domain (R391). -/
def domKind (d : Nat) : Nat := if d < 4 then 0 else if d < 8 then 1 else 2

/-- DOMST (R392, R393, R402, R403): DEFPT and ILIM are fields of compute domains only. Log 87. -/
def Dom.domst (x : Dom) (d : Nat) : Word :=
  let compute := fun n : Nat => if d < 4 then n else 0
  fields [(56, x.cur), (52, compute x.req), (48, compute x.defpt.toNat), (46, domKind d), (40, x.uvofs), (39, x.freeze.toNat),
    (38, x.uven.toNat), (32, x.cethr.toNat), (16, x.cecnt), (0, compute x.ilim.toNat)]

/-- Registers 0x000 to 0x0FF (R23), of the issuing group. FLAGS shows what the S-stream's instructions have set behind an access that
awaits its value, too (R9, R82). -/
def State.readUser (s : State) (n : Nat) : Word :=
  let g := s.cur
  let t := s.teamOf g
  let a := s.gangOf g
  match n with
  | 0x00 => fields [(0, (s.viewOf g).gidOf g.rank)]
  | 0x01 => fields [(0, t.tid)]
  | 0x02 => fields [(0, a.num)]
  | 0x03 => (s.gridOf g).num.setWidth 64
  | 0x04 => fields [(0, t.lcore)]
  | 0x05 => fields [(0, (s.viewOf g).ngrpOf g.rank)]
  | 0x06 => fields [(0, a.nteams)]
  | 0x07 => fields [(40, a.z), (20, a.y), (0, a.x)]
  | 0x10 => s.timeWord
  | 0x11 => BitVec.ofNat 64 g.cycle
  | 0x20 => (g.flags ||| g.s.flags).setWidth 64
  | 0x21 => g.fmask.setWidth 64
  | 0x30 => doneWord g.done 0
  | 0x31 => doneWord g.done 1
  | 0x32 => doneWord g.done 2
  | 0x33 => doneWord g.done 3
  | 0x40 => s.spst t 0 32
  | 0x41 => s.spst t 32 16
  | 0x50 => g.mxst
  | 0x51 => t.tags.setWidth 64
  | _ => 0

/-- Registers of the issuing group's context: 0x100 to 0x112 and 0x170 to 0x175 (R246, R249, R311 to R314, R371). Log 85. -/
def State.readCtx (s : State) (n : Nat) : Word :=
  let c := s.ctxOf s.cur
  match n with
  | 0x100 => bitsIn c.fvec 56 8
  | 0x101 => s.cur.hstat
  | 0x102 => fields [(0, s.coreOf s.cur)]
  | 0x103 => bitsIn c.hlbase 56 2
  | 0x110 => fields [(57, c.drop)] ||| bitsIn c.mboxo 56 6
  | 0x111 => bitsIn c.mboxi 56 6
  | 0x112 => c.world.setWidth 64
  | 0x170 => bitsIn c.ptroot 51 12
  | 0x171 => bitsIn c.frqb 56 14
  | 0x172 => c.frqh.setWidth 64
  | 0x173 => fields [(63, c.ovf.toNat), (48, c.lost), (0, c.frqt.toNat)]
  | 0x174 => c.ftpb
  | 0x175 => c.ftpn
  | _ => 0

/-- Registers of the issuing group's core: 0x140 to 0x15F, 0x180 to 0x1A1, 0x1D0 to 0x1DF (R182, R275, R276, R395, R400). -/
def State.readCore (s : State) (n : Nat) : Word :=
  let c := s.core (s.coreOf s.cur)
  if n == 0x140 then fields [(32, c.vovf.toNat), (4, c.vcount), (0, c.vnext.toNat)]
  else if n < 0x160 then if n % 2 == 0 then look c.vaddr ((n - 0x150) / 2) 0 else look c.vinfo ((n - 0x150) / 2) 0
  else if n < 0x190 then let x := look c.tags (n - 0x180) .free; x.tage (s.fullTag x)
  else if n < 0x1A0 then let x := look c.tags (n - 0x190) .free; x.tagr (s.fullTag x)
  else if n == 0x1A0 then fields [(0, c.cadence - 1)]
  else if n == 0x1A1 then fields [(4, c.basem1.toNat), (0, c.lvl)]
  else let e := (look c.steps (n - 0x1D0) .free).toStepView; e.stepe (s.fullStep e)

/-- Registers of the device: 0x1B0 to 0x1CA and 0x1E0 to 0x1E4 (R328, R345, R392 to R403, R417 to R419). Log 85. -/
def State.readDev (s : State) (n : Nat) : Word :=
  let d := s.dev
  let c := s.realCtx? d.ctxsel.toNat
  match n with
  | 0x1B0 => fields [(12, c.isSome.toNat), (0, d.ctxsel.toNat)]
  | 0x1B1 => (c.map Ctx.preq).getD 0
  | 0x1B2 => (c.map fun c => c.pgrace.setWidth 64).getD 0
  | 0x1B3 => (c.map fun c => c.pstrike.setWidth 64).getD 0
  | 0x1B8 => fields [(59, TmigStatus.code d.tmig), (40, d.tdst.toNat), (32, d.tsrc.toNat), (0, d.tslot.toNat)]
  | 0x1C0 => d.pcap.setWidth 64
  | 0x1C1 => (look d.pfloor 0 0).setWidth 64
  | 0x1C2 => (look d.pfloor 1 0).setWidth 64
  | 0x1C3 => (look d.pfloor 2 0).setWidth 64
  | 0x1C4 => (look d.pfloor 3 0).setWidth 64
  | 0x1C5 => d.pwr.setWidth 64
  | 0x1C6 => d.guard.setWidth 64
  | 0x1C7 => d.domsel.setWidth 64
  | 0x1C8 => if d.domsel.toNat < 24 then (look s.doms d.domsel.toNat (Dom.reset false)).domst d.domsel.toNat else 0
  | 0x1C9 => bitsIn d.errlb 51 11
  | 0x1CA => d.errlt.setWidth 64
  | 0x1E0 => d.thsel.setWidth 64
  | 0x1E1 => let k := s.core d.thsel.toNat; fields [(32, k.hot.toNat), (16, k.thr.toNat), (0, k.temp.toNat)]
  | 0x1E2 => bitsIn d.mevb 51 12
  | 0x1E3 => BitVec.ofNat 64 d.mevt
  | 0x1E4 => BitVec.ofNat 64 d.trdrop
  | _ => 0

/-- The value of a listed register as the issuing group reads it. -/
def State.srRead (s : State) (n : Nat) : Word :=
  if n < 0x100 then s.readUser n
  else if n < 0x140 || (0x170 ≤ n && n ≤ 0x175) then s.readCtx n
  else if n < 0x1B0 || (0x1D0 ≤ n && n ≤ 0x1DF) then s.readCore n
  else s.readDev n

/-- THST names no core: its value is free in its fields (R417; log 2). -/
def State.noSensor (s : State) (n : Nat) : Bool := n == 0x1E1 && 192 ≤ s.dev.thsel.toNat

/-- GID and NGRP are read of the group's innermost frame, which comes back from the window first (R141, R160). -/
def State.srFrame (s : State) (n : Nat) (body : State → State) : State :=
  if n == 0x00 || n == 0x05 then s.withFrame body else body s

/-- RDSR (R82). It issues past loads that await their values (R194). -/
def execRdsr (d : SReg) (num : BitVec 12) (s : State) : Out :=
  .next (s.sIssue .user [d] true fun s =>
    match srFault s.cur.level false num.toNat with
    | some code => s.raise code
    | none =>
      if s.noSensor num.toNat then (s.bump.sput d (bitsIn (Config.freeWord s.fresh) 32 0)).nextPc 4
      else s.srFrame num.toNat fun s => (s.sput d (s.srRead num.toNat)).nextPc 4)

/-! ## Writes -/

/-- VLOGC (R182). Log 86. -/
def CoreState.writeVlogc (c : CoreState) (v : Word) : CoreState :=
  if v.getLsbD 63 then
    { c with vcount := 0, vovf := false, vnext := 0, vaddr := Vector.replicate 8 0, vinfo := Vector.replicate 8 0 }
  else if v.getLsbD 32 then { c with vovf := false }
  else c

/-- FRQT: clearing OVF also zeroes LOST (R246). -/
def Ctx.writeFrqt (c : Ctx) (v : Word) : Ctx := if v.getLsbD 63 then { c with ovf := false, lost := 0 } else c

/-- MBOXO (R371). -/
def Ctx.writeMboxo (c : Ctx) (v : Word) : Ctx := if v.getLsbD 63 then { c with drop := 0 } else c

/-- MXCAD: a firmware write sets the base cadence (R400). -/
def CoreState.writeMxcad (c : CoreState) (v : Word) : CoreState := { c with basem1 := v.extractLsb' 0 4 }

/-- THST of a core (R417, R418). -/
def CoreState.writeThst (c : CoreState) (v : Word) : CoreState :=
  { c with thr := v.extractLsb' 16 16, hot := c.hot && !v.getLsbD 32 }

/-- DOMST of a domain. Log 87. -/
def Dom.write (x : Dom) (d : Nat) (v : Word) : Dom :=
  let x := { x with freeze := x.freeze && !v.getLsbD 39, uven := v.getLsbD 38, cethr := v.extractLsb' 32 6 }
  if d < 4 then { x with defpt := v.extractLsb' 48 4, ilim := v.extractLsb' 0 16 } else x

/-- PTROOT of a context takes a value, and the context's whole address space is invalidated (R247). Log 93. -/
def State.setPtroot (s : State) (ctx : Nat) (v : Word) : State :=
  (s.mapCtx ctx fun c => { c with ptroot := bitsIn v 51 12 }).postInval ctx 0 (2 ^ 57) false

/-- Registers of the issuing group: FLAGS and FMASK; every other below 0x100 is read only. -/
def Group.writeUser (g : Group) (n : Nat) (v : Word) : Group :=
  if n == 0x20 then { g with flags := v.setWidth 8 }
  else if n == 0x21 then { g with fmask := v.setWidth 8 }
  else g

/-- Registers of a context. Log 93. -/
def Ctx.writeReg (c : Ctx) (n : Nat) (v : Word) : Ctx :=
  match n with
  | 0x100 => { c with fvec := bitsIn v 56 8 }
  | 0x103 => { c with hlbase := bitsIn v 56 2 }
  | 0x110 => c.writeMboxo v
  | 0x171 => { c with frqb := bitsIn v 56 14 }
  | 0x172 => { c with frqh := v.setWidth 32 }
  | 0x173 => c.writeFrqt v
  | 0x174 => { c with ftpb := v }
  | 0x175 => { c with ftpn := v }
  | _ => c

/-- Registers of a core: VLOGC and MXCAD; every other is read only. -/
def CoreState.writeReg (c : CoreState) (n : Nat) (v : Word) : CoreState :=
  if n == 0x140 then c.writeVlogc v else if n == 0x1A0 then c.writeMxcad v else c

/-- Registers of the device that hold what is written. -/
def Dev.writeReg (d : Dev) (n : Nat) (v : Word) : Dev :=
  match n with
  | 0x1B0 => { d with ctxsel := v.setWidth 12 }
  | 0x1C0 => { d with pcap := v.setWidth 16 }
  | 0x1C1 => { d with pfloor := put d.pfloor 0 (v.setWidth 16) }
  | 0x1C2 => { d with pfloor := put d.pfloor 1 (v.setWidth 16) }
  | 0x1C3 => { d with pfloor := put d.pfloor 2 (v.setWidth 16) }
  | 0x1C4 => { d with pfloor := put d.pfloor 3 (v.setWidth 16) }
  | 0x1C6 => { d with guard := v.setWidth 32 }
  | 0x1C7 => { d with domsel := v.setWidth 5 }
  | 0x1C9 => { d with errlb := bitsIn v 51 11 }
  | 0x1E0 => { d with thsel := v.setWidth 8 }
  | 0x1E2 => { d with mevb := bitsIn v 51 12 }
  | _ => d

/-- Registers of the device, those with effects included. -/
def State.writeDev (s : State) (n : Nat) (v : Word) : State :=
  let ctx := s.dev.ctxsel.toNat
  match n with
  | 0x1B1 => s.preqCmd ctx (v.toNat % 8)
  | 0x1B2 => if (s.realCtx? ctx).isSome then s.mapCtx ctx fun c => { c with pgrace := v.setWidth 32 } else s
  | 0x1B3 => if (s.realCtx? ctx).isSome then s.mapCtx ctx fun c => { c with pstrike := v.setWidth 32 } else s
  | 0x1B8 => s.writeTmig v
  | 0x1C8 =>
    let d := s.dev.domsel.toNat
    if d < 24 then { s with doms := put s.doms d ((look s.doms d (Dom.reset false)).write d v) } else s
  | 0x1E1 => if s.dev.thsel.toNat < 192 then s.mapCore s.dev.thsel.toNat fun c => c.writeThst v else s
  | _ => { s with dev := s.dev.writeReg n v }

/-- A write of a listed register by the issuing group, field by field (R5). PTROOT apart. Log 85. -/
def State.srWrite (s : State) (n : Nat) (v : Word) : State :=
  if n < 0x100 then s.mapCur fun g => g.writeUser n v
  else if n < 0x140 || (0x170 ≤ n && n ≤ 0x175) then s.mapCtx (s.ctxOf s.cur).id fun c => c.writeReg n v
  else if n < 0x1B0 || (0x1D0 ≤ n && n ≤ 0x1DF) then s.mapCore (s.coreOf s.cur) fun c => c.writeReg n v
  else s.writeDev n v

/-- WRSR (R82). A WRSR of PTROOT completes with its invalidation (R247). -/
def execWrsr (a : SReg) (num : BitVec 12) (s : State) : Out :=
  .next (s.sIssue .user [a] false fun s =>
    match srFault s.cur.level true num.toNat with
    | some code => s.raise code
    | none =>
      if num.toNat == 0x170 then
        (s.setPtroot (s.ctxOf s.cur).id (s.sget a)).mapCur fun g => { g with wait := .inval s.nextId 4 [] }
      else (s.srWrite num.toNat (s.sget a)).nextPc 4)

/-! ## Writes with a row of their own -/

/-- PTROOT_WRITE (R247). Log 103. -/
def execPtrootWrite (ctx : Nat) (v : Word) (s : State) : Out :=
  .next (if (s.ctx? ctx).isSome then s.setPtroot ctx v else s)

/-- MXCAD_WRITE (R275, R400). Log 103. -/
def execMxcadWrite (core : Nat) (v : Word) (s : State) : Out := .next (s.mapCore core fun c => c.writeMxcad v)

/-- FLAGS_WRITE (R25). Log 103. -/
def execFlagsWrite (uid : Nat) (v : Word) (s : State) : Out := .next (s.mapGroup uid fun g => g.writeUser 0x20 v)

/-- VLOG_CLEAR (R182). Log 103. -/
def execVlogClear (core : Nat) (s : State) : Out := .next (s.mapCore core fun c => c.writeVlogc (1#64 <<< 63))

/-- FRQT_OVF_CLEAR (R246). -/
def execFrqtOvfClear (ctx : Nat) (s : State) : Out := .next (s.mapCtx ctx fun c => c.writeFrqt (1#64 <<< 63))

/-- MBOXO_DROP_CLEAR (R371). -/
def execMboxoDropClear (ctx : Nat) (s : State) : Out := .next (s.mapCtx ctx fun c => c.writeMboxo (1#64 <<< 63))

/-- THST_OVER_CLEAR (R418). -/
def execThstOverClear (core : Nat) (s : State) : Out := .next (s.mapCore core fun c => { c with hot := false })

/-- DOMST_FREEZE_CLEAR (R403). -/
def execDomstFreezeClear (dom : Nat) (s : State) : Out :=
  .next (if dom < 24 then { s with doms := put s.doms dom { look s.doms dom (Dom.reset false) with freeze := false } } else s)

end Sys2Proof.Machine
end

