-- ==== Sys2Proof/Machine/Trust.lean ====
section
/-! DEFINITION. Partitions (R378, R379), protected worlds (R364, R367, R368, R413), contexts (R411), the debug port (R375) and
attestation (R374). -/

namespace Sys2Proof.Machine

/-! ## The partition table (R378) -/

/-- The sixteen doublewords of an entry. -/
def Part.dwords (p : Part) : List Word :=
  [p.clusters, p.slices, p.funcs, BitVec.ofNat 64 (p.ports.toNat + p.res0.toNat * 2 ^ 32), p.routes,
    BitVec.ofNat 64 (p.podPart.toNat + p.mode.toNat * 2 ^ 32 + p.live.toNat * 2 ^ 40 + p.res1.toNat * 2 ^ 48),
    p.trbase, BitVec.ofNat 64 (p.trsize.toNat + p.res2.toNat * 2 ^ 32), p.trhead, p.trtail] ++
  (List.range 6).map fun i => wordOf ((p.res3.drop (8 * i)).take 8)

/-- The 128 bytes of an entry. -/
def Part.bytes (p : Part) : List Byte := p.dwords.flatMap fun w => bytesOf 8 w.toNat

/-- A write of doubleword i of a FREE entry; STATE is read only. -/
def Part.setDword (p : Part) (i : Nat) (v : Word) : Part :=
  match i with
  | 0 => { p with clusters := v }
  | 1 => { p with slices := v }
  | 2 => { p with funcs := v }
  | 3 => { p with ports := v.setWidth 32, res0 := v.extractLsb' 32 32 }
  | 4 => { p with routes := v }
  | 5 => { p with podPart := v.setWidth 32, mode := v.extractLsb' 32 8, res1 := v.extractLsb' 48 16 }
  | 6 => { p with trbase := v }
  | 7 => { p with trsize := v.setWidth 32, res2 := v.extractLsb' 32 32 }
  | 8 => { p with trhead := v }
  | 9 => { p with trtail := v }
  | _ => { p with res3 := p.res3.take (8 * (i - 10)) ++ bytesOf 8 v.toNat ++ p.res3.drop (8 * (i - 10) + 8) }

/-- A write of doubleword i of an entry under the rules of its state and mode. -/
def Part.writeDword (p : Part) (i : Nat) (v : Word) : Part :=
  if 16 ≤ i then p
  else if !p.live then p.setDword i v
  else if (i == 8 && p.mode == 1) || (i == 9 && p.mode == 2) then p.setDword i v
  else p

/-- Every byte and bit that the table calls zero is zero. -/
def Part.reservedOk (p : Part) : Bool :=
  p.clusters >>> 48 == 0 && !p.funcs.getLsbD 0 && p.ports >>> 24 == 0 && p.res0 == 0 && p.res1 == 0 && p.res2 == 0 && p.res3.all (· == 0)

/-- TRSIZE and TRBASE obey the table, and the trail buffer lies in the entry's own slices. -/
def Part.trailOk (p : Part) : Bool :=
  let n := p.trsize.toNat
  let lo := p.trbase.toNat
  let hi := lo + 32 * n - 1
  256 ≤ n && n ≤ 2 ^ 24 && p.trsize &&& (p.trsize - 1) == 0 && lo % 4096 == 0 && hi < 384 * 2 ^ 30 &&
    p.slices.getLsbD (sliceOf lo) && p.slices.getLsbD (sliceOf hi)

/-- Two entries own a resource in common. -/
def Part.overlaps (p q : Part) : Bool :=
  p.clusters &&& q.clusters != 0 || p.slices &&& q.slices != 0 || p.funcs &&& q.funcs != 0 || p.ports &&& q.ports != 0 ||
    p.routes &&& q.routes != 0

/-- A valid route of the entry names a port outside it or another pod partition (R414). -/
def State.routesBad (s : State) (p : Part) : Bool :=
  (List.range 64).any fun w =>
    let r := s.routeOf w
    p.routes.getLsbD w && r.valid && (!p.ports.getLsbD r.port || r.pod != p.podPart)

/-- CREATE of PTCMD: OK 0, OVERLAP 1, INVALID 3. -/
def State.partCreate (s : State) (idx : Nat) : Nat × State :=
  let p := s.part idx
  if p.live || !p.reservedOk || p.clusters == 0 || 2 < p.mode.toNat then (3, s)
  else if p.mode != 0 && !p.trailOk then (3, s)
  else if s.routesBad p then (3, s)
  else if (List.range 16).any fun q => (s.part q).live && p.overlaps (s.part q) then (1, s)
  else (0, s.mapPart idx fun p =>
    { p with live := true, trhead := 0, trtail := if p.mode == 1 then 0 else p.trtail, consumed := [], counts := [], latest := none })

/-- DESTROY of PTCMD: OK 0, BUSY 2, INVALID 3. -/
def State.partDestroy (s : State) (idx : Nat) : Nat × State :=
  if !(s.part idx).live then (3, s)
  else if s.ctxs.any fun c => c.id != 0 && c.part == idx then (2, s)
  else (0, s.mapPart idx fun p => { p with live := false })

/-- A write of PTCMD (R379). -/
def State.writePtcmd (s : State) (v : Word) : State :=
  let idx := v.toNat % 16
  let op := v.toNat / 16 % 16
  let keep := fun (st : Nat) (s : State) => { s with dev := { s.dev with ptcmd := BitVec.ofNat 64 (st * 256 + v.toNat % 256) } }
  if v.getLsbD 63 then
    let r := if op == 1 then s.partCreate idx else if op == 2 then s.partDestroy idx else (3, s)
    keep r.1 r.2
  else keep (s.dev.ptcmd.toNat / 256 % 8) s

def execPartitionCreate (idx : Nat) (s : State) : Out :=
  .next (if s.mgmtOn && idx < 16 then s.writePtcmd (BitVec.ofNat 64 (2 ^ 63 + 16 + idx)) else s)

def execPartitionDestroy (idx : Nat) (s : State) : Out :=
  .next (if s.mgmtOn && idx < 16 then s.writePtcmd (BitVec.ofNat 64 (2 ^ 63 + 32 + idx)) else s)

/-- A write of doubleword i of PTAB entry idx; a waiter that one of TRHEAD or TRTAIL lets go on does so when time next advances
(R384, R385). -/
def State.writePtab (s : State) (idx i : Nat) (v : Word) : State := s.mapPart idx fun p => p.writeDword i v

/-- TRAIL_HEAD_WRITE and TRAIL_TAIL_WRITE (R384, R385). -/
def execTrailHeadWrite (idx : Nat) (v : Word) (s : State) : Out :=
  .next (if s.mgmtOn && idx < 16 then s.writePtab idx 8 v else s)

def execTrailTailWrite (idx : Nat) (v : Word) (s : State) : Out :=
  .next (if s.mgmtOn && idx < 16 then s.writePtab idx 9 v else s)

/-! ## Protected worlds (R364, R367, R368, R413) -/

def State.world? (s : State) (w : Byte) : Option World := s.worlds.find? fun x => x.id == w

/-- Flows of a world start at 0 (R364). Log 89. -/
def State.restartFlows (s : State) (w : Byte) : State := { s with flows := s.flows.filter fun f => flowWorld f.id != w }

/-- A world's keys stand in the key store, under a generation of their own. -/
def State.installWorld (s : State) (w : Byte) (part : Nat) (keys : List (BitVec 256)) : State :=
  { s with worlds := s.worlds ++ [⟨w, part, s.worldGen + 1, keys⟩], worldGen := s.worldGen + 1 }

/-- A fresh key or challenge of the key store (log 2). -/
def State.drawKey (s : State) (i : Nat) : BitVec 256 := Config.freeKey (2 * (s.fresh + i) + 1)

/-- CREATE of WLDCMD. -/
def State.worldCreate (s : State) (w : Byte) (part : Nat) : Nat × State :=
  if (s.world? w).isSome then (2, s)
  else (0, { (s.installWorld w part ((List.range 5).map s.drawKey)) with fresh := s.fresh + 5 })

/-- The blob obeys its table and names the world and the pod partition of the entry. -/
def blobOk (b : List Byte) (w : Byte) (pod : Word32) : Bool :=
  b.take 4 == ascii "SVXK" && fieldAt b 4 2 == 1 && b.getD 6 0 == w && b.getD 7 0 == 0 && fieldAt b 8 4 == pod.toNat && pod != 0 &&
    fieldAt b 12 4 == 0 && (b.drop 336).all (· == 0)

/-- IMPORT of WLDCMD. -/
def State.worldImport (s : State) (w : Byte) (part : Nat) : Nat × State :=
  if (s.world? w).isSome then (2, s)
  else
    let b := s.memRead (hostPa s.dev.wldkey.toNat) 512
    if !blobOk b w (s.part part).podPart then (3, s)
    else
      let z := Config.ecdhIdentity s.dev.resets ((b.drop 16).take 132)
      match gcmOpen (hkdf32 z (b.take 16) (ascii "svx-import")) ((b.drop 148).take 12) (b.take 16) ((b.drop 160).take 160)
          ((b.drop 320).take 16) with
      | none => (4, s)
      | some ks => (0, s.installWorld w part ((List.range 5).map fun i => BitVec.ofNat 256 (natOfBytes ((ks.drop (32 * i)).take 32))))

/-- A context's record and its save counter go; its translations go with its id (R411). Log 94. -/
def State.removeCtx (s : State) (id : Nat) : State :=
  { s with ctxs := s.ctxs.filter fun c => c.id != id }.dropRange id 0 (2 ^ 57)

/-- Teardown of a world (R368): its keys are zeroised and its id is free. -/
def State.teardown (s : State) (w : Byte) : State := ({ s with worlds := s.worlds.filter fun x => x.id != w }).restartFlows w

/-- DESTROY of WLDCMD. -/
def State.worldDestroy (s : State) (w : Byte) (part : Nat) : Nat × State :=
  match s.world? w with
  | none => (3, s)
  | some x =>
    if x.part != part then (3, s)
    else if s.ctxs.any fun c => c.id != 0 && c.world == w && c.st != .empty then (2, s)
    else
      let ids := (s.ctxs.filter fun c => c.id != 0 && c.world == w).map Ctx.id
      (0, (ids.foldl State.removeCtx s).teardown w)

/-- A write of WLDCMD. -/
def State.writeWldcmd (s : State) (v : Word) : State :=
  let w : Byte := v.setWidth 8
  let part := v.toNat / 256 % 16
  let op := v.toNat / 4096 % 16
  let keep := fun (st : Nat) (s : State) => { s with dev := { s.dev with wldcmd := fields [(60, st), (0, v.toNat % 2 ^ 16)] } }
  if v.getLsbD 63 then
    let r :=
      if w == 0 || !(s.part part).live then (3, s)
      else if op == 1 then s.worldCreate w part
      else if op == 2 then s.worldImport w part
      else if op == 3 then s.worldDestroy w part
      else (3, s)
    keep r.1 r.2
  else keep (s.dev.wldcmd.toNat / 2 ^ 60 % 8) s

/-- The OP of a WLDCMD value replaced, with GO. -/
def wldOp (v : Word) (op : Nat) : Word := BitVec.ofNat 64 (2 ^ 63 + op * 4096 + v.toNat % 4096)

def execWorldCreate (v : Word) (s : State) : Out := .next (if s.mgmtOn then s.writeWldcmd (wldOp v 1) else s)
def execWorldImport (v : Word) (s : State) : Out := .next (if s.mgmtOn then s.writeWldcmd (wldOp v 2) else s)
def execWorldDestroy (v : Word) (s : State) : Out := .next (if s.mgmtOn then s.writeWldcmd (wldOp v 3) else s)

/-- WORLD_REKEY (R364): only while every context of the world is HALTED or EMPTY. The world gets a fresh network key, since a
number is never used again under one key. Log 89. -/
def execWorldRekey (w : Nat) (s : State) : Out :=
  .next (
    let id : Byte := BitVec.ofNat 8 w
    if 256 ≤ w || s.dev.biv == .asleep || s.ctxs.any fun c => c.id != 0 && c.world == id && c.st != .halted && c.st != .empty then s
    else
      let k := s.drawKey 0
      let s := s.bump.restartFlows id
      if w == 0 then { s with dev := { s.dev with netKey := k } }
      else { s with worlds := mapIf s.worlds (fun x => x.id == id) fun x => { x with keys := k :: x.keys.drop 1 } })

/-! ## Contexts (R411) -/

/-- The debug port is open in a partition (R375). -/
def State.debugOpen (s : State) (part : Nat) : Bool := s.dev.dbgPort.getLsbD 0 && s.dev.dbgPort.toNat / 16 % 16 == part

/-- The descriptor obeys its table. Log 93. -/
def State.descOk (s : State) (b : List Byte) : Bool :=
  let id := fieldAt b 0 2
  let part := fieldAt b 2 1
  let box := fun o : Nat => fieldAt b o 8 < 2 ^ 57 && fieldAt b o 8 % 64 == 0
  1 ≤ id && id ≤ 4095 && part < 16 && (s.part part).live && fieldAt b 4 1 ≤ 3 && fieldAt b 5 3 == 0 && box 32 && box 40 &&
    (b.drop 48).all (· == 0)

/-- The descriptor's world may not have a context in its partition now. -/
def State.worldRefused (s : State) (w : Byte) (part : Nat) : Bool :=
  w != 0 && (s.debugOpen part || !(s.world? w).any fun x => x.part == part)

/-- The context that a descriptor describes, EMPTY. -/
def State.ctxOfDesc (s : State) (b : List Byte) : Ctx :=
  let word := fun o : Nat => BitVec.ofNat 64 (fieldAt b o 8)
  { Ctx.fresh (fieldAt b 0 2) (fieldAt b 2 1) (b.getD 3 0) with
    tierMax := fieldAt b 4 1
    ptroot := bitsIn (word 8) 51 12
    frqb := bitsIn (word 16) 56 14
    mboxo := word 32
    mboxi := word 40
    sfw := fit' 64 (Config.firmwareMeasure s.fresh (fieldAt b 24 8)) }

/-- CREATE of CTXCMD: OK 0, BUSY 2, INVALID 3, REFUSED 4, SIGFAIL 5. Log 96. -/
def State.ctxCreate (s : State) (b : List Byte) (sigOk : Bool) : Nat × State :=
  if (s.realCtx? (fieldAt b 0 2)).isSome then (2, s)
  else if !s.descOk b then (3, s)
  else if s.worldRefused (b.getD 3 0) (fieldAt b 2 1) then (4, s)
  else if !sigOk then (5, s)
  else (0, { s.bump with ctxs := s.ctxs ++ [s.ctxOfDesc b] })

/-- DESTROY of CTXCMD: OK 0, BUSY 2. Log 94. -/
def State.ctxDestroy (s : State) (id : Nat) : Nat × State :=
  match s.realCtx? id with
  | some c => if c.st == .empty then (0, s.removeCtx id) else (2, s)
  | none => (2, s)

/-- A write of CTXCMD. Log 94, 96. -/
def State.writeCtxcmd (s : State) (v : Word) (sigOk : Bool) : State :=
  let op := v.toNat % 16
  let keep := fun (st : Nat) (s : State) =>
    { s with dev := { s.dev with ctxcmd := fields [(60, st), (0, op)] ||| bitsIn v 51 6 } }
  if v.getLsbD 63 then
    let b := s.memRead (hostPa (bitsIn v 51 6).toNat) 64
    let r := if op == 1 then s.ctxCreate b sigOk else if op == 2 then s.ctxDestroy (fieldAt b 0 2) else (3, s)
    keep r.1 r.2
  else keep (s.dev.ctxcmd.toNat / 2 ^ 60 % 8) s

def ctxOp (v : Word) (op : Nat) : Word := BitVec.ofNat 64 (2 ^ 63 + op) ||| bitsIn v 51 6

/-- Log 96. -/
def execContextCreate (v : Word) (sigOk : Bool) (s : State) : Out :=
  .next (if s.mgmtOn then s.writeCtxcmd (ctxOp v 1) sigOk else s)
def execContextDestroy (v : Word) (s : State) : Out := .next (if s.mgmtOn then s.writeCtxcmd (ctxOp v 2) false else s)

/-! ## The debug port (R375) -/

/-- A write of DEBUG: opening the port is refused where the partition has a protected context. Log 95. -/
def State.writeDebug (s : State) (v : Word) : State :=
  if v.getLsbD 0 && s.ctxs.any fun c => c.id != 0 && c.part == v.toNat / 16 % 16 && c.world != 0 then s
  else { s with dev := { s.dev with dbgPort := v &&& 0xF3 } }

def execDebugWrite (v : Word) (s : State) : Out := .next (if s.mgmtOn then s.writeDebug v else s)

/-! ## Attestation (R374) -/

/-- Bytes 0 to 383 of a report. Log 99. -/
def State.reportHead (s : State) (c : Option Ctx) (nonce : List Byte) : List Byte :=
  let p := (c.map fun c => s.part c.part).getD .free
  ascii "SVXR" ++ bytesOf 2 1 ++ bytesOf 2 ((c.map Ctx.id).getD 0) ++ [(c.map Ctx.world).getD 0, p.mode] ++ zeros 2 ++
    bytesOf 4 p.podPart.toNat ++ bytesOf 8 s.dev.epoch ++ bytesOf 8 s.time ++ fit' 64 nonce ++ fit' 64 Config.machineFirmware ++
    fit' 64 ((c.map Ctx.sfw).getD []) ++ sha512 (s.parts.toList.flatMap Part.bytes) ++ sha512 (Config.identityPub s.dev.resets) ++ zeros 32

/-- The 528 bytes of a report. Log 3, 99. -/
def State.report (s : State) (c : Option Ctx) (nonce : List Byte) : List Byte :=
  let h := s.reportHead c nonce
  h ++ fit' 132 (Config.ecdsaSign s.dev.resets h) ++ zeros 12

/-- ATTESTATION_REQUEST: context 0 asks for a device report. The report and the certificate chain are given out. -/
def execAttestationRequest (ctx : Nat) (nonce : List Byte) (s : State) : Out :=
  .next (
    let give := fun c : Option Ctx => { s with reports := Config.certChain s.dev.resets :: s.report c nonce :: s.reports }
    if !s.mgmtOn then s
    else if ctx == 0 then give none
    else match s.realCtx? ctx with
      | none => s
      | some c => give (some c))

end Sys2Proof.Machine
end

