-- ==== Sys2Proof/Machine/Boot.lean ====
section
/-! DEFINITION. Device reset and boot (R409), and bivouac (R376, R415). -/

namespace Sys2Proof.Machine

/-! ## Bivouac -/

/-- The nonce of a wrapped key: world id, index of the key, zeros. -/
def wrapNonce (w : Byte) (i : Nat) : List Byte := [w, BitVec.ofNat 8 i] ++ zeros 10

/-- Wrap the keys of a world. Log 97. -/
def World.wrap (key : List Byte) (w : World) : Byte × List (List Byte × List Byte) :=
  (w.id, w.keys.zipIdx.map fun x => gcmSeal key (wrapNonce w.id x.2) [] (keyBytes x.1))

/-- Unwrap the keys of a world; a key whose tag fails is lost. Log 97. -/
def unwrapKeys (key : List Byte) (w : Byte) (ks : List (List Byte × List Byte)) : List (BitVec 256) :=
  ks.zipIdx.map fun x => ((gcmOpen key (wrapNonce w x.2) [] x.1.1 x.1.2).map fun b => BitVec.ofNat 256 (natOfBytes b)).getD 0

/-- A flow of the session state: id, next number, broken. Log 97. -/
def Flow.bytes (f : Flow) : List Byte := bytesOf 4 f.id.toNat ++ bytesOf 16 f.next ++ [if f.broken then 1 else 0]

/-- The flows that session state holds, 21 bytes each. Log 97. -/
def sessionFlows (b : List Byte) : List Flow :=
  (List.range (b.length / 21)).map fun i =>
    let e := (b.drop (21 * i)).take 21
    ⟨BitVec.ofNat 32 (natOfBytes (e.take 4)), natOfBytes ((e.drop 4).take 16), e.getD 20 0 == 1⟩

/-- The nonce of wrapped session state, which no key of a world has. Log 97. -/
def sessionNonce : List Byte := wrapNonce 0 255

/-- A context is neither HALTED nor EMPTY. -/
def State.contextsBusy (s : State) : Bool := s.ctxs.any fun c => c.id != 0 && c.st != .halted && c.st != .empty

/-- Entry: the keys and the session state are wrapped under a fresh sleep key, and what the powered domains
cache is gone. Log 97. -/
def State.bivEnter (s : State) : State :=
  let k := s.drawKey 0
  let s := s.bump
  { s with
    worlds := s.worlds.map fun w => { w with keys := [] }
    cores := s.cores.map fun c => { c with tlb := [], ahead := [] }
    qtlbs := Vector.replicate 4 []
    hostLines := []
    flows := []
    dev := { s.dev with
      biv := .asleep
      sleepKey := some k
      session := gcmSeal (keyBytes k) sessionNonce [] (s.flows.flatMap Flow.bytes)
      wrapped := s.worlds.map (World.wrap (keyBytes k)) } }

/-- A protected context is challenged: 32 fresh bytes go to its out mailbox. Log 98. -/
def State.challengeCtx (s : State) (id : Nat) : State :=
  let b := keyBytes (s.drawKey 0)
  (s.bump.mapCtx id fun c => { c with challenge := some b }).mail 0 id 5 b

/-- Protected contexts of the device. -/
def State.protectedCtxs (s : State) : List Nat := (s.ctxs.filter fun c => c.id != 0 && c.world != 0).map Ctx.id

/-- Wake: keys unwrapped, session state back, epoch raised, sleep key zeroised, challenges posted. -/
def State.bivWake (s : State) (k : BitVec 256) : State :=
  let open' := fun w : World =>
    { w with keys := unwrapKeys (keyBytes k) w.id (((s.dev.wrapped.find? fun x => x.1 == w.id).map Prod.snd).getD []) }
  let s := { s with
    worlds := s.worlds.map open'
    flows := sessionFlows ((gcmOpen (keyBytes k) sessionNonce [] s.dev.session.1 s.dev.session.2).getD [])
    dev := { s.dev with biv := .awake, session := ([], []), sleepKey := none, wrapped := [], epoch := s.dev.epoch + 1 } }
  s.protectedCtxs.foldl State.challengeCtx s

/-- ENTER and WAKE of BIVCMD: OK 0, BUSY 2, INVALID 3. -/
def State.enterCmd (s : State) : Nat × State :=
  if s.dev.biv != .awake then (3, s) else if s.contextsBusy then (2, s) else (0, s.bivEnter)

def State.wakeCmd (s : State) : Nat × State :=
  match s.dev.biv, s.dev.sleepKey with
  | .asleep, some k => (0, s.bivWake k)
  | _, _ => (3, s)

/-- A write of BIVCMD (R415). -/
def State.writeBivcmd (s : State) (v : Word) : State :=
  let op := v.toNat % 8
  let keep := fun (st : Nat) (s : State) => { s with dev := { s.dev with bivcmd := fields [(60, st), (0, op)] } }
  if s.dev.boot != .ready then s
  else if v.getLsbD 63 then
    let r := if op == 1 then s.enterCmd else if op == 2 then s.wakeCmd else (3, s)
    keep r.1 r.2
  else keep (s.dev.bivcmd.toNat / 2 ^ 60 % 8) s

/-- Log 97. -/
def execBivouacEnter (s : State) : Out := .next (s.writeBivcmd (BitVec.ofNat 64 (2 ^ 63 + 1)))
/-- Log 97. -/
def execBivouacWake (s : State) : Out := .next (s.writeBivcmd (BitVec.ofNat 64 (2 ^ 63 + 2)))

/-- BIVOUAC_ANSWER (R376): firmware takes an ANSWER from the in mailbox of a challenged context: a right one lets it resume the
context, a wrong one is discarded. Log 98. -/
def execBivouacAnswer (ctx core : Nat) (s : State) : Out :=
  .next (match s.realCtx? ctx with
    | none => s
    | some c =>
      match c.challenge with
      | none => s
      | some ch =>
        if !s.mgmtOn then s
        else
          let m := s.takeMail core ctx 6
          match m.1 with
          | none => m.2
          | some e =>
            if (e.drop 16).take 32 == (hmac (keyBytes (s.worldKey c.world 3)) ch).take 32 then
              (m.2.mapCtx ctx fun c => { c with challenge := none }).resumeCtx ctx
            else m.2)

/-- ALWAYS_ON_POWER_LOSS (R376): keys and counters are gone, and the device stays without power until its next boot. Log 100. -/
def execAlwaysOnPowerLoss (s : State) : Out :=
  .next (
    if s.dev.biv != .asleep then s
    else { s with
      worlds := []
      ctxs := s.ctxs.map fun c => { c with counter := 0, kept := ⟨[], [], [], []⟩ }
      dev := { s.dev with boot := .reset, sleepKey := none, wrapped := [], session := ([], []), dbgPort := 0 } })

/-! ## Device reset (R409) -/

/-- Protected contexts to be reported LOST: those of a device that sleeps, and those of an earlier sleep whose boot ended in
RECOVERY (R376, R415). -/
def State.lostCtxs (s : State) : List Ctx :=
  s.dev.lost ++ if s.dev.biv == .asleep then s.ctxs.filter fun c => c.id != 0 && c.world != 0 else []

/-- They are reported at the boot. Log 100. -/
def State.reportLost (s : State) : State :=
  s.lostCtxs.foldl (fun s c => s.mail 0 c.id 4 []) { s with ctxs := s.lostCtxs ++ s.ctxs, time := 0 }

/-- A reset that reached READY: host memory and the memory of remote devices stand, device memory is scrubbed. Log 100. -/
def State.booted (s : State) (slices : Word) : State :=
  { State.reset with
    mem := s.mem.filter fun c => decide (2 ^ 50 ≤ c.1)
    fresh := s.fresh
    agenda := s.agenda
    worldGen := s.worldGen
    reports := s.reports
    dev := Dev.reset (s.dev.resets + 1) slices }

/-- A reset that stopped in phase 1 or 2: RECOVERY, and no firmware runs. Log 100. -/
def State.recovery (s : State) : State :=
  { State.reset with
    cur := { State.reset.cur with status := .exited }
    mem := s.mem
    lines := s.lines
    fresh := s.fresh
    agenda := s.agenda
    worldGen := s.worldGen
    reports := s.reports
    dev := { Dev.reset (s.dev.resets + 1) s.dev.sliceOk with boot := .recovery, lost := s.lostCtxs, netKey := s.dev.netKey, stoKey := s.dev.stoKey } }

/-- DEVICE_RESET: whether the identity key pair was derived, whether machine firmware verified, and the slices whose scrub
succeeded. Log 100. -/
def execDeviceReset (idOk fwOk : Bool) (slices : Word) (s : State) : Out :=
  .next (if idOk && fwOk then s.reportLost.booted slices else s.recovery)

end Sys2Proof.Machine
end

