-- ==== Sys2Proof/Machine/LConv.lean ====
section
/-! DEFINITION. Conversion, packing and quantisation in the lanes (R104 to R108). -/

namespace Sys2Proof.Machine

/-- The destination type of the field block in word2 (R104). -/
def dstType (o : LOp) : ElemType := (ElemType.ofCode o.dstCode).getD .s32

/-- A lane of the destination type from its elements, with the OR of their flags (R38). -/
def gather (dst : ElemType) (f : Nat → Nat × Byte) : Word32 × Byte :=
  let rs := (List.range dst.count).map f
  (BitVec.ofNat 32 (packElems dst.width (rs.map Prod.fst)), rs.foldl (fun x r => x ||| r.2) 0)

/-- VCVT converts each element in place (R104). -/
def execVcvt (o : LOp) (s : State) : Out :=
  .next (s.lcompute o (lopUse o .c) fun x =>
    gather (dstType o) fun e =>
      convert o.ty (dstType o) (rounding o) (modBit o 0) (elemAt o.ty.width e x.c))

/-- VPACK takes the elements of a, then those of c (R105). -/
def execVpack (o : LOp) (s : State) : Out :=
  let n := o.ty.count
  .next (s.lcompute o (lopUse o .ac) fun x =>
    gather (dstType o) fun e =>
      convert o.ty (dstType o) (rounding o) (modBit o 0)
        (if e < n then elemAt o.ty.width e x.a else elemAt o.ty.width (e - n) x.c))

/-- VUNPK takes the low or, with .hi, the high half of the elements of c (R106). -/
def execVunpk (o : LOp) (s : State) : Out :=
  let n := (dstType o).count
  .next (s.lcompute o (lopUse o .c) fun x =>
    gather (dstType o) fun e =>
      convert o.ty (dstType o) (rounding o) (modBit o 0)
        (elemAt o.ty.width (if modBit o 1 then n + e else e) x.c))

/-- Element n of a lane replaced. -/
def setElem (w n : Nat) (old : Word32) (x : Nat) : Word32 :=
  let m : Word32 := BitVec.ofNat 32 ((2 ^ w - 1) * 2 ^ (w * n))
  (old &&& ~~~m) ||| (BitVec.ofNat 32 (x * 2 ^ (w * n)) &&& m)

/-- VQNT writes one element; the others of a written lane keep their bytes or read zero (R19, R107). -/
def execVqnt (o : LOp) (s : State) : Out :=
  let u := lopUse o .ac
  .next (s.lIssue o.g u fun x =>
    let va := s.cur.vget o.a.r
    let vc := s.cur.cvec o x.popped
    let old := x.st.cur.kept o.vd
    let r := lanewise x.sel fun i =>
      let p := (ElemType.f32.val va[i].toNat).mul (ElemType.f32.val vc[i].toNat)
      let q := floatTo o.ty (rounding o) (modBit o 2) p.1
      (setElem o.ty.width (modField o 0 2) old[i] q.1, q.2 ||| p.2)
    (x.st.mapCur fun g => g.vwrite o.vd x.sel r.1).lDone r.2 u)

/-- VDQNT: element N of a times the F32 c, rounded once to F32 (R108). An integer element is its exact value. -/
def execVdqnt (o : LOp) (s : State) : Out :=
  .next (s.lcompute o (lopUse o .ac) fun x =>
    let e := elemAt o.ty.width (modField o 0 2) x.a
    let v : Val :=
      if o.ty.isInt then
        let i := intOf o.ty.signed o.ty.width e
        .fin (decide (i < 0)) i.natAbs 0
      else o.ty.val e
    let p := v.mul (ElemType.f32.val x.c.toNat)
    let q := FFmt.f32.round (rounding o) false p.1
    (BitVec.ofNat 32 q.1, q.2 ||| p.2))

end Sys2Proof.Machine
end

