-- ==== Sys2Proof/Machine/LInt.lean ====
section
/-! DEFINITION. Integer and bitwise lane instructions (R95 to R99). -/

namespace Sys2Proof.Machine

/-- An element with no flag. -/
def plain (x : Nat) : Nat × Byte := (x, 0)

/-- An integer result that wraps, and one that clamps with SA (R29). -/
def wrapTo (o : LOp) (i : Int) : Nat × Byte := (wrapInt o.ty.width i, 0)
def clampTo (o : LOp) (i : Int) : Nat × Byte :=
  (wrapInt o.ty.width (clampInt o.ty.signed o.ty.width i), flagIf (!inRange o.ty.signed o.ty.width i) flagSA)

/-- Integer of an element. -/
def asInt (o : LOp) (x : Nat) : Int := intOf o.ty.signed o.ty.width x

def execVadd (o : LOp) (s : State) : Out := .next (s.lelem o .ac fun a _ c => wrapTo o (asInt o a + asInt o c))
def execVsub (o : LOp) (s : State) : Out := .next (s.lelem o .ac fun a _ c => wrapTo o (asInt o a - asInt o c))

/-- VMUL sets IO when the product lies outside the type's range. -/
def execVmul (o : LOp) (s : State) : Out :=
  .next (s.lelem o .ac fun a _ c =>
    let p := asInt o a * asInt o c
    (wrapInt o.ty.width p, flagIf (!inRange o.ty.signed o.ty.width p) flagIO))

def execVmulh (o : LOp) (s : State) : Out :=
  .next (s.lelem o .ac fun a _ c => wrapTo o (asInt o a * asInt o c / 2 ^ o.ty.width))

def execVmad (o : LOp) (s : State) : Out :=
  .next (s.lelem o .abc fun a b c => wrapTo o (asInt o a * asInt o b + asInt o c))

def execVadds (o : LOp) (s : State) : Out := .next (s.lelem o .ac fun a _ c => clampTo o (asInt o a + asInt o c))
def execVsubs (o : LOp) (s : State) : Out := .next (s.lelem o .ac fun a _ c => clampTo o (asInt o a - asInt o c))
def execVabsd (o : LOp) (s : State) : Out :=
  .next (s.lelem o .ac fun a _ c => plain (asInt o a - asInt o c).natAbs)
def execVmin (o : LOp) (s : State) : Out :=
  .next (s.lelem o .ac fun a _ c => plain (if asInt o a ≤ asInt o c then a else c))
def execVmax (o : LOp) (s : State) : Out :=
  .next (s.lelem o .ac fun a _ c => plain (if asInt o a ≤ asInt o c then c else a))

/-- A bitwise result on whole lanes (R95). -/
def State.lbits (s : State) (o : LOp) (k : Srcs) (f : Word32 → Word32 → Word32) : State :=
  s.lcompute o (lopUse o k) fun x => (f x.a x.c, 0)

def execVand (o : LOp) (s : State) : Out := .next (s.lbits o .ac (· &&& ·))
def execVor (o : LOp) (s : State) : Out := .next (s.lbits o .ac (· ||| ·))
def execVxor (o : LOp) (s : State) : Out := .next (s.lbits o .ac (· ^^^ ·))
def execVandn (o : LOp) (s : State) : Out := .next (s.lbits o .ac fun a c => a &&& ~~~c)
def execVnot (o : LOp) (s : State) : Out := .next (s.lbits o .c fun _ c => ~~~c)
def execVmov (o : LOp) (s : State) : Out := .next (s.lbits o .c fun _ c => c)

def execVshl (o : LOp) (s : State) : Out :=
  .next (s.lelem o .ac fun a _ c => plain (a * 2 ^ (c % o.ty.width) % 2 ^ o.ty.width))
def execVshr (o : LOp) (s : State) : Out :=
  .next (s.lelem o .ac fun a _ c => plain (a / 2 ^ (c % o.ty.width)))

/-- VSRA copies the top bit of the element, whatever the type. -/
def execVsra (o : LOp) (s : State) : Out :=
  .next (s.lelem o .ac fun a _ c => wrapTo o (intOf true o.ty.width a / 2 ^ (c % o.ty.width)))

def execVrotr (o : LOp) (s : State) : Out :=
  .next (s.lelem o .ac fun a _ c =>
    let w := o.ty.width
    let n := c % w
    plain (a / 2 ^ n + a * 2 ^ (w - n) % 2 ^ w))

def execVclz (o : LOp) (s : State) : Out := .next (s.lelem o .c fun _ _ c => plain (leadingZeros o.ty.width c))
def execVpopc (o : LOp) (s : State) : Out := .next (s.lelem o .c fun _ _ c => plain (popcount (BitVec.ofNat 32 c)))

/-- The low w bits in reverse order. -/
def reverseBits : (w x : Nat) → Nat
  | 0, _ => 0
  | w + 1, x => x % 2 * 2 ^ w + reverseBits w (x / 2)

def execVbrev (o : LOp) (s : State) : Out := .next (s.lelem o .c fun _ _ c => plain (reverseBits o.ty.width c))

/-- VDIV and VREM follow R75 at the element's width; only VDIV reports IO (R96). -/
def execVdiv (o : LOp) (s : State) : Out :=
  .next (s.lelem o .ac fun a _ c =>
    let r := divideInt o.ty.signed o.ty.width a c true
    (r.1.1, r.2))

def execVrem (o : LOp) (s : State) : Out :=
  .next (s.lelem o .ac fun a _ c =>
    let r := divideInt o.ty.signed o.ty.width a c false
    (r.1.2, r.2))

/-- The sum of VDOT4 (R97): the elements of a by type, those of b by type or, with .mix, by the other signedness. -/
def dot4 (o : LOp) (a b c : Word32) : Int :=
  (List.range 4).foldl (fun acc e =>
    acc + intOf o.ty.signed 8 (elemAt 8 e a) * intOf (o.ty.signed != modBit o 0) 8 (elemAt 8 e b)) c.toInt

def execVdot4 (o : LOp) (s : State) : Out :=
  .next (s.lcompute o (lopUse o .abc) fun x =>
    let i := dot4 o x.a x.b x.c
    if modBit o 1 then (BitVec.ofInt 32 (clampInt true 32 i), flagIf (!inRange true 32 i) flagSA)
    else (BitVec.ofInt 32 i, 0))

/-- VSEL chooses by a predicate bit, after its negation (R98). -/
def execVsel (o : LOp) (s : State) : Out :=
  let p := modField o 0 3
  let u := { lopUse o .ac with preads := [o.g.p, BitVec.ofNat 3 p] }
  let m := s.cur.pget (((s.cur.path s.ps1).map Path.mask).getD 0) p
  .next (s.lcompute o u fun x => (if m.getLsbD x.i != modBit o 3 then x.a else x.c, 0))

/-- VIDX: lane + c (R95). -/
def execVidx (o : LOp) (s : State) : Out :=
  .next (s.lcompute o (lopUse o .c) fun x => (BitVec.ofNat 32 x.i + x.c, 0))

/-- Position and length of a bit field; a length above 32 counts as 32 (R99). -/
def fieldPos (c : Word32) : Nat := c.toNat % 32
def fieldLen (c : Word32) : Nat := Nat.min (c.toNat / 256 % 64) 32

def execVbfx (o : LOp) (s : State) : Out :=
  .next (s.lcompute o (lopUse o .ac) fun x =>
    let n := fieldLen x.c
    let v : Nat := (if o.ty == .s32 then x.a.signExtend 64 else x.a.setWidth 64).toNat
    let f := v / 2 ^ fieldPos x.c % 2 ^ n
    (if n == 0 then 0 else BitVec.ofInt 32 (intOf (o.ty == .s32) n f), 0))

/-- VBFI reads vd as a third source (R99). -/
def execVbfi (o : LOp) (s : State) : Out :=
  .next (s.lcompute o (lopUse o .acd) fun x =>
    let m : Word32 := BitVec.ofNat 32 ((2 ^ fieldLen x.c - 1) * 2 ^ fieldPos x.c)
    ((x.d &&& ~~~m) ||| ((x.a <<< fieldPos x.c) &&& m), 0))

end Sys2Proof.Machine
end

