-- ==== Sys2Proof/Machine/LPred.lean ====
section
/-! DEFINITION. Comparisons and predicate instructions (R109, R110), and the k registers, register life and the empty
instruction (R114 to R117). -/

namespace Sys2Proof.Machine

/-- Registers of an instruction whose destination is a predicate. -/
def predUse (o : LOp) (reads : List (BitVec 8 × Hint)) (preads : List (BitVec 3)) (withC : Bool) : LUse :=
  let pd : BitVec 3 := o.vd.setWidth 3
  let u : LUse := { reads := reads, preads := preads, pwrite := if pd == 0 then [] else [pd] }
  (if withC then u.withC o.c else u).withGuard o.g

/-- Write the selected bits of pd (R109). -/
def State.lpred (s : State) (o : LOp) (u : LUse) (f : LIn → Mask × Byte) : State :=
  s.lIssue o.g u fun x =>
    let r := f x
    (x.st.mapCur fun g => g.pwrite o.vd.toNat x.sel r.1).lDone r.2 u

/-- The mask of the selected lanes in which a test holds, with the OR of the flags of all of them. -/
def laneTest (sel : Mask) (f : Fin 128 → Bool × Byte) : Mask × Byte :=
  let r := lanewise sel fun i =>
    let x := f i
    (if x.1 then 1 else 0, x.2)
  (maskOf ((lanesOf sel).filter fun i => look r.1 i 0 == 1), r.2)

/-- The results of a packed comparison combined: OR with .any, else AND (R109). -/
def combine (any : Bool) (l : List Bool) : Bool := if any then l.any id else l.all id

/-- A comparison of each element of a with that of c into pd. -/
def State.lcompare (s : State) (o : LOp) (f : Nat → Nat → Bool × Byte) : State :=
  s.lpred o (predUse o [(o.a.r, o.a.hint)] [] true) fun x =>
    let va := s.cur.vget o.a.r
    let vc := s.cur.cvec o x.popped
    laneTest x.sel fun i =>
      let rs := (List.range o.ty.count).map fun e => f (elemAt o.ty.width e va[i]) (elemAt o.ty.width e vc[i])
      (combine (modBit o 3) (rs.map Prod.fst), rs.foldl (fun x r => x ||| r.2) 0)

/-- A condition on an order (R109). -/
def condHolds (k : Nat) (lt eq : Bool) : Bool :=
  match k with
  | 0 => eq
  | 1 => !eq
  | 2 => lt
  | 3 => lt || eq
  | 4 => !lt && !eq
  | _ => !lt

def execVcmp (o : LOp) (s : State) : Out :=
  .next (s.lcompare o fun a c => (condHolds (modField o 0 3) (asInt o a < asInt o c) (a == c), 0))

/-- A floating-point comparison: conditions un and or, and NV (R109). -/
def fcompare (f : FFmt) (k : Nat) (a c : Nat) : Bool × Byte :=
  let x := f.decode a
  let y := f.decode c
  let nan := x.isNan || y.isNan
  let sig := x.isSig || y.isSig
  let nv := flagIf (if 2 ≤ k && k ≤ 5 then nan else sig) flagNV
  if k == 6 then (nan, nv)
  else if k == 7 then (!nan, nv)
  else if nan then (k == 1, nv)
  else (condHolds k (f.valueKey a < f.valueKey c) (f.valueKey a == f.valueKey c), nv)

def execVfcmp (o : LOp) (s : State) : Out :=
  .next (s.lcompare o fun a c => fcompare o.ty.ffmt (modField o 0 3) a c)

/-- The predicate a va or vb field names (R110). -/
def pfield (x : VSrc) : BitVec 3 := x.r.setWidth 3

/-- PLOGIC (R110): not and mov read only pa. -/
def plogic (k : Nat) (a b : Mask) : Mask :=
  match k with
  | 0 => a &&& b
  | 1 => a ||| b
  | 2 => a ^^^ b
  | 3 => a &&& ~~~b
  | 4 => ~~~a
  | _ => a

def execPlogic (o : LOp) (s : State) : Out :=
  .next (s.lpred o (predUse o [] [pfield o.a, pfield o.b] false) fun x =>
    (plogic (modField o 0 3) (s.cur.pget x.active (pfield o.a).toNat) (s.cur.pget x.active (pfield o.b).toNat), 0))

/-- PSET (R110): bit 0 of c, lane below c, or c not zero. -/
def execPset (o : LOp) (s : State) : Out :=
  .next (s.lpred o (predUse o [] [] true) fun x =>
    let vc := s.cur.cvec o x.popped
    laneTest x.sel fun i =>
      (match modField o 0 2 with
       | 0 => vc[i].getLsbD 0
       | 1 => decide (i.val < vc[i].toNat)
       | _ => vc[i] != 0, 0))

/-- The lowest lane of a mask alone. -/
def lowest (m : Mask) : Mask := m &&& (-m)

def execPfirst (o : LOp) (s : State) : Out :=
  .next (s.lpred o (predUse o [] [pfield o.a] false) fun x =>
    (lowest (x.sel &&& s.cur.pget x.active (pfield o.a).toNat), 0))

/-! ## k registers, register life, the empty instruction -/

def Group.kput (g : Group) (n : Nat) (v : Word) : Group := { g with l := { g.l with k := put g.l.k n v } }

/-- The second operand of KPOP, from the values popped after its own pop (R114). -/
def kpopAddend (g : Group) (o : LOp) (popped : List Word) : Word :=
  match o.c with
  | .imm => o.w2.signExtend 64
  | .dq => popped.getD 1 0
  | .kreg n => look g.l.k n.toNat 0
  | .vec _ _ => 0

def execKpop (o : LOp) (s : State) : Out :=
  let k : BitVec 4 := o.vd.setWidth 4
  let u := ({ pops := 1, kwrite := [k] } : LUse).withC o.c
  .next (s.lIssue o.g u fun x =>
    (x.st.mapCur fun g => g.kput k.toNat (x.popped.headD 0 + kpopAddend s.cur o x.popped)).lDone 0 u)

/-- The value KFROM takes from lanes 0 and 1 (R115). -/
def kfromValue (o : LOp) (v : VReg) : Word :=
  if modBit o 1 then v[1] ++ v[0] else if modBit o 0 then v[0].signExtend 64 else v[0].setWidth 64

def execKfrom (o : LOp) (s : State) : Out :=
  let k : BitVec 4 := o.vd.setWidth 4
  let u := ({ kwrite := [k] } : LUse).withC o.c
  .next (s.lIssue o.g u fun x =>
    (x.st.mapCur fun g => g.kput k.toNat (kfromValue o (s.cur.cvec o x.popped))).lDone 0 u)

/-- The transition of VLIFE on one register (R116). -/
def Group.vlifeStep (g : Group) (st : Nat) (r : BitVec 8) : Group :=
  match st, g.vlife r with
  | 0, _ => g.setLife r .dead
  | 1, .live | 1, .rest => g.setLife r .rest
  | 1, _ => g
  | _, .live | _, .rest => g.setLife r .live
  | _, _ => (g.vput r (Vector.replicate 128 0)).setLife r .live

/-- VLIFE acts on a range of registers (R116). A transition to LIVE in a block that is not FULL waits for its wake or
power-up (R21). -/
def execVlife (o : LOp) (s : State) : Out :=
  let n := o.w2.toNat
  let regs := (List.range n).map fun i => o.vd + BitVec.ofNat 8 i
  let u : LUse := { writes := regs }
  .next (match s.cur.path s.ps1 with
    | none => s
    | some _ =>
      if s.cur.rangeBad o.vd n then s.raiseL 0x01
      else if s.cur.lHeld || s.cur.lBusy u then s
      else
        let wake := regs.filter fun r => modField o 0 2 == 2 && !s.cur.powered r
        if !wake.isEmpty then wake.foldl State.wakeBlock s
        else (s.mapCur fun g => regs.foldl (fun g r => g.vlifeStep (modField o 0 2) r) g).lDone 0 u)

def execVnop (o : LOp) (s : State) : Out := .next (s.lIssue o.g {} fun x => x.st.lDone 0 {})

end Sys2Proof.Machine
end

