-- ==== Sys2Proof/Machine/LMove.lean ====
section
/-! DEFINITION. Movement between lanes, reduction, scan and compaction (R111 to R113). -/

namespace Sys2Proof.Machine

/-- An instruction that reads whole source registers and writes the selected lanes of vd (R111). -/
def State.lmove (s : State) (o : LOp) (u : LUse) (f : LIn → VReg → VReg → VReg × Byte) : State :=
  s.lIssue o.g u fun x =>
    let r := f x (s.cur.vget o.a.r) (s.cur.cvec o x.popped)
    (x.st.mapCur fun g => g.vwrite o.vd x.sel r.1).lDone r.2 u

/-- The source lane of VSHFL for lane i and index c (R111). -/
def shuffleFrom (mode i c : Nat) : Nat :=
  match mode with
  | 0 => c % 128
  | 1 => i ^^^ (c % 128)
  | 2 => if c ≤ i then i - c else i
  | _ => if i + c ≤ 127 then i + c else i

def execVshfl (o : LOp) (s : State) : Out :=
  .next (s.lmove o (lopUse o .ac) fun _ va vc =>
    (Vector.ofFn fun i => look va (shuffleFrom (modField o 0 2) i.val vc[i].toNat) 0, 0))

def execVrotl (o : LOp) (s : State) : Out :=
  .next (s.lmove o (lopUse o .ac) fun _ va vc => (Vector.ofFn fun i => look va ((i.val + vc[0].toNat) % 128) 0, 0))

def execVbcl (o : LOp) (s : State) : Out :=
  .next (s.lmove o (lopUse o .ac) fun _ va vc => (Vector.replicate 128 (look va (vc[0].toNat % 128) 0), 0))

/-- The operation of VRED and VSCAN on elements (R112). -/
def redOp (o : LOp) (a c : Nat) : Nat × Byte :=
  match modField o 0 3 with
  | 0 =>
    if o.ty.isInt then wrapTo o (asInt o a + asInt o c)
    else finish o (rounding o) false ((o.ty.val a).add (rounding o) (o.ty.val c))
  | 1 => if o.ty.isInt then plain (if asInt o a ≤ asInt o c then a else c) else fminmax o.ty.ffmt false a c
  | 2 => if o.ty.isInt then plain (if asInt o a ≤ asInt o c then c else a) else fminmax o.ty.ffmt true a c
  | 3 => plain (a &&& c)
  | 4 => plain (a ||| c)
  | _ => plain (a ^^^ c)

/-- The same on whole lanes, position by position. -/
def redLane (o : LOp) (a c : Word32) : Word32 × Byte := elemwise o.ty (fun x _ y => redOp o x y) a 0 c

/-- One level of the tree of VRED: neighbours combine where both are present. -/
def redLevel (o : LOp) : List (Option Word32) → List (Option Word32) × Byte
  | some x :: some y :: l =>
    let r := redLane o x y
    let k := redLevel o l
    (some r.1 :: k.1, r.2 ||| k.2)
  | some x :: none :: l =>
    let k := redLevel o l
    (some x :: k.1, k.2)
  | none :: y :: l =>
    let k := redLevel o l
    (y :: k.1, k.2)
  | l => (l, 0)

/-- The tree of VRED to a depth. -/
def redTree (o : LOp) : Nat → List (Option Word32) → List (Option Word32) × Byte
  | 0, l => (l, 0)
  | n + 1, l =>
    let r := redLevel o l
    let k := redTree o n r.1
    (k.1, r.2 ||| k.2)

def execVred (o : LOp) (s : State) : Out :=
  .next (s.lmove o (lopUse o .c) fun x _ c =>
    let r := redTree o 7 ((List.range 128).map fun i => if x.sel.getLsbD i then some (look c i 0) else none)
    (Vector.replicate 128 ((r.1.head?.getD none).getD 0), r.2))

/-- The element a scan starts from (R112). -/
def scanIdentity (o : LOp) : Nat :=
  let w := o.ty.width
  match modField o 0 3 with
  | 1 => if o.ty.isInt then wrapInt w (intMax o.ty.signed w) else o.ty.ffmt.infBits
  | 2 => if o.ty.isInt then wrapInt w (intMin o.ty.signed w) else signBits o.ty.ffmt true o.ty.ffmt.infBits
  | 3 => 2 ^ w - 1
  | _ => 0

/-- The lanes of a scan in ascending order: the values written, with their lanes, and the flags. -/
def scanLanes (o : LOp) (c : VReg) : List Nat → Word32 → List (Nat × Word32) × Byte
  | [], _ => ([], 0)
  | i :: is, acc =>
    let r := redLane o acc (look c i 0)
    let k := scanLanes o c is r.1
    ((i, if modBit o 3 then acc else r.1) :: k.1, r.2 ||| k.2)

def execVscan (o : LOp) (s : State) : Out :=
  .next (s.lmove o (lopUse o .c) fun x _ c =>
    let start := BitVec.ofNat 32 (packElems o.ty.width (List.replicate o.ty.count (scanIdentity o)))
    let r := scanLanes o c (lanesOf x.sel) start
    (r.1.foldl (fun v y => put v y.1 y.2) (Vector.replicate 128 0), r.2))

/-- VCOMP packs the selected lanes of c into the low lanes of vd, active or not (R113). -/
def execVcomp (o : LOp) (s : State) : Out :=
  let u := lopUse o .c
  .next (s.lIssue o.g u fun x =>
    let c := s.cur.cvec o x.popped
    let ls := lanesOf x.sel
    let v : VReg := Vector.ofFn fun i => look c (ls.getD i.val 0) 0
    (x.st.mapCur fun g => g.vwrite o.vd (maskOf (List.range ls.length)) v).lDone 0 u)

end Sys2Proof.Machine
end

