-- ==== Sys2Proof/Machine/Load.lean ====
section
/-! DEFINITION. CTXLOAD: the reading and checking of an image, the placement of its teams, and its installation (R335,
R339, R341, R397, R420). -/

namespace Sys2Proof.Machine

/-! ## Reading (R341) -/

/-- Read bytes of the image, 16 at a time, as loads of the issuing group. -/
def State.getBytes (s : State) (at' : Word) : (n : Nat) → (MemFault ⊕ List Byte) × State
  | 0 => (.inr [], s)
  | n + 1 =>
    let r := s.getBytes at' n
    match r.1 with
    | .inl f => (.inl f, r.2)
    | .inr bs =>
      let va := at' + BitVec.ofNat 64 (16 * n)
      let t := r.2.checkRange .read va 16 16
      match t.res with
      | .inl f => (.inl f, t.st)
      | .inr pa =>
        match t.st.readErr s.myPort (s.ctxOf s.cur).world pa with
        | some (code, cause) => (.inl ⟨code, cause, va, BitVec.ofNat 64 pa⟩, t.st)
        | none => (.inr (bs ++ t.st.memRead pa 16), t.st)

/-- What reading comes to: a fault, a status, or a value. -/
inductive Reading (α : Type)
  | fault (f : MemFault)
  | status (n : Nat)
  | got (x : α)

/-- The seal an image is checked under: key, header, counter. -/
structure Seal where
  key     : List Byte
  counter : Nat
  deriving DecidableEq, Repr

/-- Sections i onward from an offset, n of them (R341). -/
def State.readSects (s : State) (base : Word) (hdr : List Byte) (len : Nat) (sl : Option Seal) :
    (n i pos : Nat) → List Sect → Reading (List Sect) × State
  | 0, _, pos, acc => (if pos == len then .got acc else .status 5, s)
  | n + 1, i, pos, acc =>
    if len < pos + 32 then (.status 5, s)
    else
      let r := s.getBytes (base + BitVec.ofNat 64 pos) 1
      match r.1 with
      | .inl f => (.fault f, r.2)
      | .inr h =>
        let type := fieldAt h 0 1
        let blen := fieldAt h 4 4
        if type == 0 || 5 < type || fieldAt h 1 3 != 0 || len < pos + 32 + blen then (.status 5, r.2)
        else if blen % 16 != 0 then (.status (if sl.isSome then 0x1A else 5), r.2)
        else
          let b := r.2.getBytes (base + BitVec.ofNat 64 (pos + 16)) (blen / 16 + 1)
          match b.1 with
          | .inl f => (.fault f, b.2)
          | .inr raw =>
            let body := match sl with
              | none => some (raw.take blen)
              | some k => gcmOpen k.key (imageNonce k.counter i) (hdr ++ h) (raw.take blen) (raw.drop blen)
            match body with
            | none => (.status 0x1A, b.2)
            | some x =>
              b.2.readSects base hdr len sl n (i + 1) (pos + 32 + blen)
                (acc ++ [⟨type, fieldAt h 8 4, fieldAt h 12 1, fieldAt h 13 1, fieldAt h 14 2, x⟩])

/-- The header alone breaks R335 or R381; the tag of one that is not sealed is zero. -/
def headerBad (c : Ctx) (mode : Byte) (h tag : List Byte) : Bool :=
  (fieldAt h 9 1 % 2 == 0 && tag.any (· != 0)) || h.take 4 != ascii "SVXI" || fieldAt h 4 2 != 1 || fieldAt h 6 2 != c.id || fieldAt h 9 1 / 2 != mode.toNat ||
    fieldAt h 10 2 != 0 || (h.drop 40).take 72 != zeros 72

/-! ## The sections together (R335, R420) -/

/-- Bytes of a range are zero. -/
def zeroIn (b : List Byte) (lo hi : Nat) : Bool := ((b.drop lo).take (hi - lo)).all (· == 0)

/-- The launch record of a grid section. -/
def Sect.launch (x : Sect) : LaunchRec := launchOf (x.body.take 128)

def LaunchRec.gangCount (r : LaunchRec) : Nat := r.gx * r.gy * r.gz

/-- Grid section of an index. -/
def gridAt (ss : List Sect) (gx : Nat) : Option Sect :=
  if gx == 0 then none else (ss[gx - 1]?).bind fun x => if x.type == 1 then some x else none

/-- A grid section, its index among the sections given. -/
def gridOk (ss : List Sect) (x : Sect) (i : Nat) : Bool :=
  let b := x.body
  let p := fieldAt b 132 2
  let r := x.launch
  b.length == 256 && x.gx == i && r.wellFormed (b.getD 38 0) (zeroIn b 44 48) && zeroIn b 129 132 && zeroIn b 134 136 &&
    zeroIn b 148 152 && zeroIn b 163 256 && fieldAt b 140 4 ≤ r.gangCount && fieldAt b 144 4 ≤ fieldAt b 140 4 &&
    fieldAt b 162 1 < 4 && 1 ≤ fieldAt b 128 1 && fieldAt b 128 1 ≤ 10 &&
    (if p == 0xFFFF then fieldAt b 128 1 == 1
      else match gridAt ss p with
        | none => false
        | some y => fieldAt b 128 1 == fieldAt y.body 128 1 + 1)

/-- Frames that a team section holds in hardware. -/
def hwFrames (b : List Byte) : Nat := ((List.range 4).filter fun i => fieldAt b (448 + i) 1 != 0xFF).length

/-- A team section. -/
def teamOk (ss : List Sect) (x : Sect) : Bool :=
  let b := x.body
  match gridAt ss x.gx with
  | none => false
  | some g =>
    let r := g.launch
    b.length == 2048 + 8192 * popcount (BitVec.ofNat 64 (fieldAt b 8 8)) && x.tid < r.teams && x.gang < r.gangCount && x.gid == 0 &&
      fieldAt b 4 4 == r.spbytes && fieldAt b 8 8 < 2 ^ (r.spbytes / 8192) && fieldAt b 1 1 ≤ hwFrames b + r.frames && hwFrames b ≤ fieldAt b 1 1 &&
      fieldAt b 2 1 ≤ 16 && fieldAt b 0 1 < 192 && fieldAt b 3 1 == 0 && zeroIn b 49 64 && zeroIn b 452 512 && zeroIn b 1152 2048

/-- The entries of the stack that a group section holds, oldest first, each with its check. -/
def groupStack (b : List Byte) : List (Option StackEntry) :=
  (List.range (fieldAt b 825 1)).map fun i => entryOf ((b.drop (896 + 32 * i)).take 32)

/-- A group section. -/
def groupOk (ss : List Sect) (x : Sect) : Bool :=
  let b := x.body
  match gridAt ss x.gx with
  | none => false
  | some g =>
    let r := g.launch
    b.length == 6160 + 4096 * popcount (BitVec.ofNat 64 (fieldAt b 6040 8)) && x.gid < r.groups &&
      fieldAt b 824 1 == r.regs && fieldAt b 6040 8 < 2 ^ (2 ^ r.regs) && fieldAt b 825 1 ≤ 8 && fieldAt b 826 1 ≤ 64 &&
      (groupStack b).all Option.isSome && fieldAt b 1936 1 ≤ 16 && fieldAt b 1937 1 ≤ 16 && fieldAt b 831 1 ≤ 15 && b.getD 6143 0 == 0 &&
      zeroIn b 1940 1944

/-- A team of a grid section, gang and rank stands in the image. -/
def hasTeam (ss : List Sect) (gx gang tid : Nat) : Bool :=
  ss.any fun y => y.type == 2 && y.gx == gx && y.gang == gang && y.tid == tid

/-- A group of a team of the image has a section. -/
def hasGroup (ss : List Sect) (gx gang tid gid : Nat) : Bool :=
  ss.any fun y => y.type == 3 && y.gx == gx && y.gang == gang && y.tid == tid && y.gid == gid

/-- A tag section of a context. -/
def tagOk (ss : List Sect) (ctx : Nat) (x : Sect) : Bool :=
  let b := x.body
  let e := BitVec.ofNat 64 (fieldAt b 0 8)
  b.length == 42048 && x.gid < 16 && x.gang == 0 && x.tid == fieldAt b 22 1 && (e.extractLsb' 52 12).toNat == ctx && (tagOf e 0).entry == e &&
    zeroIn b 23 64 && x.gx == fieldAt b 16 2 && (x.gx == 0xFFFF || hasTeam ss x.gx (fieldAt b 18 4) (fieldAt b 22 1))

/-- A copy section. -/
def copyOk (ss : List Sect) (x : Sect) : Bool :=
  let b := x.body
  let t := tensorOf (b.take 64)
  b.length == 128 && x.gid == fieldAt b 103 1 && x.gang == 0 && x.tid == fieldAt b 102 1 && x.gx == fieldAt b 96 2 && hasGroup ss x.gx (fieldAt b 98 4) x.tid x.gid &&
    (dirOf (fieldAt b 80 1)).isSome && t.wellFormed (b.take 64) (fieldAt b 81 1) && fieldAt b 88 8 < t.count && fieldAt b 82 1 < 16 &&
    fieldAt b 83 1 < 2 && zeroIn b 84 88 && zeroIn b 114 128

/-- The order of the sections: stage, team of the groups that may follow, and the next rank. -/
def sectsInOrder : List Sect → (stage : Nat) → (team : Nat × Nat × Nat) → (rank : Nat) → Bool
  | [], _, _, _ => true
  | x :: xs, stage, team, rank =>
    let me := (x.gx, x.gang, x.tid)
    if x.type == 3 then stage == 2 && me == team && rank ≤ x.gid && sectsInOrder xs 2 team (x.gid + 1)
    else stage ≤ x.type && sectsInOrder xs x.type (if x.type == 2 then me else team) 0

/-- No team stands twice, and no tag number, bank or slot twice in a team, whose tags share a core. -/
def sectsDistinct (ss : List Sect) : Bool :=
  let teams := (ss.filter fun x => x.type == 2).map fun x => (x.gx, x.gang, x.tid)
  let tags := (ss.filter fun x => x.type == 4 && x.gx != 0xFFFF).map fun x =>
    (((x.gx, fieldAt x.body 18 4), x.tid), x.gid, tagOf (BitVec.ofNat 64 (fieldAt x.body 0 8)) 0)
  let once := fun ks : List (((Nat × Nat) × Nat) × Nat) => ks.all fun k => ks.count k == 1
  (teams.all fun t => teams.count t == 1) && once (tags.map fun t => (t.1, t.2.1)) &&
    once (tags.map fun t => (t.1, t.2.2.bank.toNat)) && once (tags.map fun t => (t.1, t.2.2.slot.toNat))

/-- The sections keep R335 and R420 together. -/
def sectsOk (ctx : Nat) (ss : List Sect) : Bool :=
  sectsInOrder ss 1 (0, 0, 0) 0 && sectsDistinct ss && (ss.zipIdx.all fun x =>
    match x.1.type with
    | 1 => gridOk ss x.1 (x.2 + 1)
    | 2 => teamOk ss x.1
    | 3 => groupOk ss x.1
    | 4 => tagOk ss ctx x.1
    | _ => copyOk ss x.1)

/-! ## Placement (R165, R166, R341, R397) -/

/-- The group sections of a team section. -/
def groupsOf (ss : List Sect) (t : Sect) : List Sect :=
  ss.filter fun x => x.type == 3 && x.gx == t.gx && x.gang == t.gang && x.tid == t.tid

/-- The tag sections that a team section holds. -/
def tagsOf (ss : List Sect) (t : Sect) : List Sect :=
  ss.filter fun x => x.type == 4 && x.gx == t.gx && fieldAt x.body 18 4 == t.gang && fieldAt x.body 22 1 == t.tid

/-- The step records of a team section. -/
def stepsIn (t : Sect) : List (List Byte) := (List.range (fieldAt t.body 2 1)).map fun i => (t.body.drop (512 + 40 * i)).take 40

/-- A tag's number, bank and slot are FREE on a core, and no PENDING move has reserved them (R345). -/
def State.tagFits (s : State) (core n : Nat) (x : Tag) : Bool :=
  (s.tag core n).st == TagState.free && !s.tagReserved core n x.bank x.slot &&
    (s.core core).tags.all fun y => y.st == TagState.free || (y.bank != x.bank && y.slot != x.slot)

/-- A team section fits on a core. -/
def State.fitSect (s : State) (core : Nat) (ss : List Sect) (r : LaunchRec) (t : Sect) : Option Placed :=
  let held := if s.reserves core then
      match s.team? s.dev.tteam with
      | some m => [(s.dev.tbase, m.units)]
      | none => []
    else []
  let tags := tagsOf ss t
  match pickRuns r.regs (groupsOf ss t).length (s.runsOn core), s.pickWindow core (r.spbytes / 8192) held with
  | some gs, some base =>
    let bars := ((List.range 32).filter fun b => !((s.barsOn core).contains b)).take r.bars
    if bars.length == r.bars && (tags.all fun x => s.tagFits core x.gid (tagOf (BitVec.ofNat 64 (fieldAt x.body 0 8)) 0)) &&
        ((stepsIn t).all fun e => (look (s.core core).steps (fieldAt e 0 1) .free).st == .free) then
      some ⟨core, gs, base, bars, rankMask (tags.map Sect.gid)⟩
    else none
  | _, _ => none

/-- The teams of a gang each find a distinct core, in rank order. -/
def State.fitTeams (s : State) (ss : List Sect) (r : LaunchRec) : List Sect → List Nat → Option (List Placed)
  | [], _ => some []
  | t :: ts, cores =>
    match cores.findSome? fun c => s.fitSect c ss r t with
    | none => none
    | some p => (s.fitTeams ss r ts (cores.filter (· != p.core))).map fun ps => p :: ps

/-- The first cluster of the partition that holds a gang, with its gang barrier. Log 77. -/
def State.fitGang (s : State) (part : Nat) (ss : List Sect) (r : LaunchRec) (ts : List Sect) : Option (Nat × Option Nat × List Placed) :=
  ((List.range 48).filter fun c => (s.part part).clusters.getLsbD c).findSome? fun c =>
    match s.fitTeams ss r ts ((List.range 4).map (4 * c + ·)), s.gangBar c r.teams with
    | some ps, some b => some (c, b, ps)
    | _, _ => none

/-! ## Installation -/

/-- Words of 8 bytes at an offset. -/
def wordsAt (b : List Byte) (off n : Nat) : List Word := (List.range n).map fun i => BitVec.ofNat 64 (fieldAt b (off + 8 * i) 8)

/-- A path slot of a group section. -/
def pathOf (b : List Byte) (off : Nat) : Option Path :=
  if fieldAt b (off + 4) 1 == 0 then none else some ⟨fieldAt b off 4, BitVec.ofNat 128 (fieldAt b (off + 16) 16)⟩

def lifeOf : Nat → Life
  | 0 => .dead | 1 => .live | 2 => .rest | _ => .poison

/-- Position of a saved block among the blocks of a body. -/
def blockAt (map i : Nat) : Nat := popcount (BitVec.ofNat 64 (map % 2 ^ i))

/-- The register image of a saved block. -/
def regOf (b : List Byte) (map r : Nat) : VReg :=
  if map.testBit (r / 8) then
    let off := 6160 + 4096 * blockAt map (r / 8) + 512 * (r % 8)
    Vector.ofFn fun i => BitVec.ofNat 32 (fieldAt b (off + 4 * i.val) 4)
  else Vector.replicate 128 0

/-- The L-stream state of a group section; entries that stand in the spill area come later. -/
def lstateOf (b : List Byte) : LState :=
  let map := fieldAt b 6040 8
  let life := fieldAt b 6048 64
  let stat := fieldAt b 824 8
  { LState.start with
    vregs := Vector.ofFn fun i => regOf b map i.val
    life := Vector.ofFn fun i =>
      let x := lifeOf (life / 4 ^ i.val % 4)
      if map.testBit (i.val / 8) || x == .dead then x else .poison
    preds := Vector.ofFn fun i => if i.val == 0 then 0 else BitVec.ofNat 128 (fieldAt b (1264 + 16 * i.val) 16)
    k := Vector.ofFn fun i => BitVec.ofNat 64 (fieldAt b (1392 + 8 * i.val) 8)
    ps0 := pathOf b 832
    ps1 := pathOf b 864
    stack := ((groupStack b).map fun e => e.getD ⟨.park, 0, 0⟩).reverse ++ List.replicate (fieldAt b 826 1) ⟨.park, 0, 0⟩
    nest := Vector.ofFn fun i => b.getD (1152 + i.val) 0
    hold := if stat.testBit 24 then
        some ⟨if stat.testBit 25 then .lend else .vbar (stat / 2 ^ 32 % 2 ^ 19), BitVec.ofNat 128 (fieldAt b 1920 16)⟩
      else none
    live := BitVec.ofNat 128 (fieldAt b 6144 16) }

/-- A held stop of a code, as the image alone gives it; one with the code of a suspended copy is that copy's. -/
def plainStop (codes : List Byte) (code : Byte) (pc : Word) (time : Nat) : Stop :=
  ⟨if code == 0x17 then .event else .imprecise, code, 0, 0, false, false, pc, [], if codes.contains code then 0x20 else 0,
    BitVec.allOnes 128, none, time, 0, true⟩

/-- The stop of a descheduled group, as the image alone gives it: that of a suspended copy of the group whose code is not held,
else an exact one. -/
def loneStop (codes held : List Byte) (pc : Word) (time : Nat) : Stop :=
  match codes.find? fun c => !held.contains c with
  | some c => plainStop codes c pc time
  | none => { plainStop [] 0x05 pc time with kind := .exact }

/-- The group of a section, on the group of its start, with the codes of its suspended copies (R337). An SPC that is not
aligned is loaded as it stands (log 129). Log 76. -/
def groupOfSect (b : List Byte) (kept : Option KeptGroup) (codes : List Byte) (time : Nat) (g : Group) : Group :=
  let pc := BitVec.ofNat 64 (fieldAt b 0 8)
  let stat := fieldAt b 824 8
  let done := (List.range 4).foldl (fun (m : Mask) i => m ||| (BitVec.ofNat 128 (fieldAt b (792 + 8 * i) 4)) <<< (32 * i)) 0
  let rows := fieldAt b 1938 1
  let rowLen := 64 * fieldAt b 1939 1
  let l := lstateOf b
  let held := (b.drop 6128).take (fieldAt b 831 1)
  let stops := held.map fun c =>
    ((kept.bind fun k => k.stops.find? fun st => st.code == c).getD (plainStop codes c pc time))
  { g with
    s := ⟨Vector.ofFn fun i => BitVec.ofNat 64 (fieldAt b (8 + 8 * i.val) 8), pc, Vector.replicate 16 0, 0⟩
    l := l
    running := !stat.testBit 28
    latch := if stat.testBit 29 then some ⟨cutRows (b.drop 1944) rowLen rows, rowLen⟩ else none
    dq := (List.range (fieldAt b 1936 1)).map fun i =>
      ⟨fieldAt b (1528 + 16 * i) 1 == 2, fieldAt b (1529 + 16 * i) 1 == 1, BitVec.ofNat 64 (fieldAt b (1520 + 16 * i) 8), 0, 0⟩
    rq := wordsAt b 1776 (fieldAt b 1937 1)
    flags := b.getD 776 0
    fmask := b.getD 784 0
    done := done
    mxst := BitVec.ofNat 64 (fieldAt b 6120 8)
    cycle := fieldAt b 6112 8
    blocks := Vector.ofFn fun i => { g with l := l }.supplyFor i.val
    replay := if stat.testBit 26 then
        some ⟨(kept.map KeptGroup.ps1).getD l.ps0.isNone, BitVec.ofNat 128 (fieldAt b 1904 16), kept.bind KeptGroup.popped, done⟩
      else none
    stops := stops
    status := if stat.testBit 27 then
        (match kept.bind KeptGroup.desched with
          | some x => .desched x.1 x.2
          | none => .desched (loneStop codes held pc time) 0)
      else .run
    halted := true }

/-- The instruction that a group holds, fetched again (R420). -/
def State.heldInstr (s : State) (g : Group) : Instr := ((s.focus g.uid).fetchS).1

/-- The value and the destination that a held instruction brings to its round (R150, R157). -/
def heldOperand (g : Group) : Instr → Word × SReg
  | .tvoteAny d a | .tvoteAll d a | .tvoteSum d a => (g.s.get a, d)
  | .tcall d _ _ _ => (0, d)
  | _ => (0, 127)

/-- A TCALL round's kind, table and space, from the first arrival's instruction; its table is read again. -/
def State.heldCall (s : State) (g : Group) : RoundKind × List Callee × Bool :=
  match s.heldInstr g with
  | .tcall _ a n sp =>
    (.tcall g.s.pc (g.s.get a), (match State.readTable sp n.toNat (g.s.get a) [] (s.focus g.uid) with | .got cs _ => cs | _ => []), sp)
  | _ => (.tcall g.s.pc 0, [], false)

/-- The rounds of barriers and votes of a team section, with the operands that the held instructions and registers of its groups
fix (R151, R420). Log 72. -/
def State.roundsOf (s : State) (team : Nat) (b : List Byte) : List Round :=
  (List.range 32).filterMap fun j =>
    let off := 64 + 8 * j
    let first := fieldAt b (off + 5) 1
    let ranks := ranksOf (BitVec.ofNat 16 (fieldAt b (off + 2) 2))
    let kind : Option (RoundKind × List Callee × Bool) := match fieldAt b (off + 4) 1 with
      | 1 => some (.bar, [], false) | 2 => some (.voteAny, [], false) | 3 => some (.voteAll, [], false)
      | 4 => some (.voteSum, [], false)
      | 5 => (s.groupAt team first).map s.heldCall
      | _ => none
    kind.map fun k =>
      ⟨j, k.1, ranks.filterMap fun r => (s.groupAt team r).map fun g => (r, heldOperand g (s.heldInstr g)), first, k.2.1, k.2.2⟩

/-- The frames of a team section: those in hardware, then the spilled ones, in the order of their slots. Log 73. -/
def State.framesOf (s : State) (t : Team) (b : List Byte) : List Frame :=
  let hw := (List.range 4).filterMap fun i =>
    let idx := fieldAt b (448 + i) 1
    if idx == 0xFF then none else some (frameFields idx none ((b.drop (320 + 32 * i)).take 32))
  hw ++ (List.range (fieldAt b 1 1 - hw.length)).map fun i =>
    frameFields (4 + i) (some i) (s.spRead t.core (spByte t (t.slotOffset i)) 32)

/-- The divisions that the frames of a team and its rounds give: the frames of one parent, by rank; the sub-teams that have
finished and the ranks at TRET stand in the rounds (R158 to R162, R420). Their tables are read again when they are needed. Log
72. -/
def divsOf (b : List Byte) (frames : List Frame) : List Division :=
  let inner := fun f : Frame => !(frames.any fun h => h.parent.toNat == f.idx && h.idx != f.idx)
  let kind := fun f : Frame => if inner f then fieldAt b (64 + 8 * f.bar.toNat + 4) 1 else 0
  let first := fun f : Frame => fieldAt b (64 + 8 * f.bar.toNat + 5) 1
  let low := fun f : Frame => (ranksOf f.mask).headD 16
  (frames.map Frame.parent).eraseDups.map fun p =>
    let mine := (frames.filter fun f => f.parent == p).mergeSort fun f h => decide (low f ≤ low h)
    let ends := mine.filter fun f => kind f == 7
    let done := (ends.filter fun f => f.mask.getLsbD (first f)) ++ ends.filter fun f => !f.mask.getLsbD (first f)
    let come := mine.flatMap fun f =>
      if kind f == 7 then ranksOf f.mask
      else if kind f == 6 then ranksOf (f.mask &&& BitVec.ofNat 16 (fieldAt b (64 + 8 * f.bar.toNat + 2) 2))
      else []
    let lead := (mine.filter fun f => kind f == 6 || kind f == 7).map first
    let f := mine.headD (frameFields 0 none [])
    ⟨p.toNat, [], [], mine.map Frame.idx, done.map Frame.idx, (come.filter lead.contains) ++ come.filter fun r => !lead.contains r,
      f.addr, f.n, f.sp⟩

/-- Put a window's banks back: states, bytes, and the marks kept. -/
def State.loadWindow (s : State) (core base : Nat) (b : List Byte) (banks : Nat) (marks : List Nat) : State :=
  let map := fieldAt b 8 8
  let st := fieldAt b 16 12
  let bank := fun (m : Cells) i =>
    if map.testBit i then
      m.write (core * 2 ^ 19 + (base + i) * 8192) ((b.drop (2048 + 8192 * blockAt map i)).take 8192)
    else m
  { s with sp := (List.range banks).foldl bank s.sp }.mapCore core fun c => { c with
    banks := (List.range banks).foldl (fun (v : Vector Supply 48) i =>
      put v (base + i) (if map.testBit i then (if st / 4 ^ i % 4 == 1 then .ret else .full) else .off)) c.banks
    poison := c.poison ++ (marks.filter fun w => map.testBit (w / 1024)).map (· + 1024 * base) }

/-- Put the step entries of a team back (R397). -/
def State.loadSteps (s : State) (core ctx team : Nat) (es : List (List Byte)) : State :=
  es.foldl (fun s e =>
    let v : StepView := ⟨if fieldAt e 1 1 == 2 then .missed else .active, ctx, team, team + 1 + fieldAt e 2 1,
      BitVec.ofNat 64 (fieldAt e 32 8), BitVec.ofNat 64 (fieldAt e 8 8), fieldAt e 16 8 % 2 ^ 34, fieldAt e 24 8 % 2 ^ 34,
      BitVec.ofNat 16 (fieldAt e 4 2)⟩
    s.mapStep core (fieldAt e 0 1) fun _ => ⟨v, s.time, v⟩) s

/-- Read back the entries of a group that stand in its spill area (R123). -/
def State.loadSpill (s : State) (uid n : Nat) : State :=
  (List.range n).foldl (fun s i => s.withGroup uid fun s =>
    match s.spillRead i with
    | none => s
    | some r => r.2.mapL fun l => { l with stack := l.stack.set (l.stack.length - 1 - i) r.1 }) s

/-- Codes of the suspended copies of a group of a team section. -/
def copyCodes (ss : List Sect) (t : Sect) (rank : Nat) : List Byte :=
  (ss.filter fun x => x.type == 5 && x.gx == t.gx && fieldAt x.body 98 4 == t.gang && x.tid == t.tid && x.gid == rank).map fun x =>
    x.body.getD 112 0

/-- The rounds, frames and divisions of a team come back, and its groups wait in them again (R341, R420). Log 72, 73. -/
def State.loadRounds (s : State) (team : Nat) (b : List Byte) : State :=
  match s.team? team with
  | none => s
  | some t =>
    let rounds := s.roundsOf team b
    let frames := s.framesOf t b
    let divs := divsOf b frames
    let waits := fun g : Group =>
      if rounds.any fun x => x.arrived.any fun a => a.1 == g.rank then SWait.round
      else if (fieldAt b 40 8).testBit (16 * t.tid + g.rank) then .gbar
      else if divs.any fun d => d.order.contains g.rank then .tret
      else .none
    (s.mapGroups (fun g => g.team == team && g.status != .exited) fun g => { g with wait := waits g }).mapTeam team fun t =>
      { t with rounds := rounds, frames := frames, divs := divs }

/-- Install one team on its place. -/
def State.loadTeam (s : State) (gr : Grid) (gang : Gang) (ss : List Sect) (kept : Kept) (t : Sect) (p : Placed) : State :=
  let id := s.nextId
  let r := gr.launch
  let b := t.body
  let old := kept.teams.find? fun x => x.grid == gr.num && x.gang == t.gang && x.tid == t.tid
  let gs := groupsOf ss t
  let live := rankMask (gs.map Sect.gid)
  let pool := (List.range 32).filter fun j => j != 0 && (fieldAt b 28 4).testBit j
  let tm : Team := ⟨id, gang.id, t.tid, p.core, fieldAt b 0 1, p.base, windowUnits (r.spbytes / 8192), r.spbytes, r.groups,
    ~~~live &&& BitVec.ofNat 16 (2 ^ r.groups - 1), p.bars, pool, p.tags, r.frames, [], [], [], false⟩
  let live := (gs.zip p.groups).map fun x =>
    let k := kept.groups.find? fun y => y.grid == gr.num && y.gang == t.gang && y.tid == t.tid && y.rank == x.1.gid
    groupOfSect x.1.body k (copyCodes ss t x.1.gid) s.time (startGroup gr (id + 1 + x.1.gid) id x.1.gid x.2)
  let gone := ((List.range r.groups).filter fun i => !(gs.any fun x => x.gid == i)).map fun i =>
    { startGroup gr (id + 1 + i) id i (0, 0, 0) with status := .exited }
  let s := { s with nextId := id + 1 + r.groups, teams := s.teams ++ [tm], others := s.others ++ live ++ gone }
  let s := (s.clearWindow p.core p.base tm.units).loadWindow p.core p.base b (r.spbytes / 8192) ((old.map KeptTeam.marks).getD [])
  let s := (s.loadRounds id b).loadSteps p.core gr.ctx id (stepsIn t)
  gs.foldl (fun s x => s.loadSpill (id + 1 + x.gid) (fieldAt x.body 826 1)) s

/-- Install a tag on a core. -/
def State.loadTag (s : State) (core : Nat) (x : Sect) : State :=
  let b := x.body
  let t := tagOf (BitVec.ofNat 64 (fieldAt b 0 8)) (BitVec.ofNat 32 (fieldAt b 8 8))
  { s with
    acc := s.acc.write (rowAddr core t.bank.toNat 0) ((b.drop 64).take 16384)
    slots := s.slots.write (slotAddr core t.slot.toNat) ((b.drop 16448).take 8192)
    scales := s.scales.write (scaleAddr core t.slot.toNat) ((b.drop 24640).take 1024)
    wb := s.wb.write (regionAddr core x.gid) ((b.drop 25664).take 16384) }.mapTag core x.gid fun _ => t

/-- Place and install one gang; none where it fits nowhere. -/
def State.loadGang (s : State) (part : Nat) (ids : List Nat) (ss : List Sect) (kept : Kept) (key : Nat × Nat) : Option State :=
  match gridAt ss key.1, (ids[key.1 - 1]?).bind s.grid? with
  | some gx, some gr =>
    let ts := ss.filter fun x => x.type == 2 && x.gx == key.1 && x.gang == key.2
    let r := gx.launch
    (s.fitGang part ss r ts).map fun p =>
      let tk := s.drawTicket part
      let s := tk.2
      let num := key.2
      let pos := if (s.part part).mode == 0 then 0 else
        ((List.range r.gangCount).filter fun j => decide (r.curveKey j < r.curveKey num)).length
      let arrived := match ts with
        | t :: _ => ((List.range 64).filter fun i => (fieldAt t.body 40 8).testBit i).map fun i => (i / 16, i % 16)
        | [] => []
      let g : Gang := ⟨s.nextId, gr.id, num, num % r.gx, num / r.gx % r.gy, num / (r.gx * r.gy), r.teams, p.1, tk.1, p.2.1, arrived, pos,
        false⟩
      let s := { s with nextId := s.nextId + 1, gangs := s.gangs ++ [g] }
      (ts.zip p.2.2).foldl (fun s x =>
        (tagsOf ss x.1).foldl (fun s t => s.loadTag x.2.core t) (s.loadTeam gr g ss kept x.1 x.2)) s
  | _, _ => none

/-- A tag that no team holds goes to the first core of the partition where it fits. Log 76. -/
def State.loadLoose (s : State) (part : Nat) (x : Sect) : Option State :=
  ((s.coresOf part).find? fun c => s.tagFits c x.gid (tagOf (BitVec.ofNat 64 (fieldAt x.body 0 8)) 0)).map fun c => s.loadTag c x

/-- A gang freed and not retired takes its place in the order of retirement again (R170). -/
def State.loadFreed (s : State) (part ctx : Nat) (x : Word32 × Nat) : State :=
  match s.grids.find? fun g => g.ctx == ctx && g.num == x.1 with
  | none => s
  | some gr =>
    let r := gr.launch
    let tk := s.drawTicket part
    let pos := ((List.range r.gangCount).filter fun j => decide (r.curveKey j < r.curveKey x.2)).length
    let g : Gang := ⟨tk.2.nextId, gr.id, x.2, x.2 % r.gx, x.2 / r.gx % r.gy, x.2 / (r.gx * r.gy), r.teams, 48, tk.1, none, [], pos, true⟩
    { tk.2 with nextId := tk.2.nextId + 1, gangs := tk.2.gangs ++ [g] }

/-- Install a suspended copy: its locks are registered and its count of cp is rebuilt (R270, R341). -/
def State.loadCopy (s : State) (ctx : Nat) (ids : List Nat) (x : Sect) : State :=
  let b := x.body
  let team := s.teams.find? fun t => t.tid == fieldAt b 102 1 &&
    ((s.gang? t.gang).any fun g => g.num == fieldAt b 98 4 && some g.grid == ids[x.gx - 1]?)
  match team, dirOf (fieldAt b 80 1) with
  | some t, some dir =>
    match s.groups.find? fun g => g.team == t.id && g.rank == fieldAt b 103 1 with
    | none => s
    | some g =>
      let id := s.nextId
      let c : Copy := ⟨id, t.core, ctx, g.uid, t.id, g.level, tensorOf (b.take 64), BitVec.ofNat 64 (fieldAt b 64 8),
        BitVec.ofNat 64 (fieldAt b 72 8), dir, fieldAt b 81 1, fieldAt b 82 1, BitVec.ofNat 64 (fieldAt b 104 8), fieldAt b 88 8,
        false, 0, 0, .suspended, fieldAt b 83 1 == 1, b.getD 112 0, b.getD 113 0⟩
      { s with
        nextId := id + 1
        copies := s.copies ++ [c]
        locks := s.locks ++ (s.copyLocks g t.core dir c.tag c.k c.tensor c.src c.dst).map (lockOf id t.core ctx) }.mapGroup g.uid fun g =>
          g.raiseCount .cp id
  | _, _ => s

/-- The grid of a section; whether it runs at SUPER stands in what the device kept. -/
def gridOfSect (ctx : Nat) (ids : List Nat) (kept : Kept) (x : Sect) (i : Nat) : Grid :=
  let b := x.body
  let r := x.launch
  let num := BitVec.ofNat 32 (fieldAt b 136 4)
  let p := fieldAt b 132 2
  ⟨ids.getD i 0, ctx, r, if p == 0xFFFF then none else ids[p - 1]?, fieldAt b 128 1, num, kept.sups.contains num, fieldAt b 140 4,
    fieldAt b 144 4, fieldAt b 140 4 < r.gangCount, fieldAt b 162 1, fieldAt b 152 8, fieldAt b 160 2, none⟩

/-- The second phase of R341; none where the placement fails. Log 74. -/
def State.installImage (s : State) (c : Ctx) (ss : List Sect) : Option State :=
  let gs := ss.filter fun x => x.type == 1
  let ids := (List.range gs.length).map (s.nextId + ·)
  let grids := gs.zipIdx.map fun x => gridOfSect c.id ids c.kept x.1 x.2
  let s := { s with nextId := s.nextId + gs.length, grids := s.grids ++ grids }
  let top := grids.foldl (fun (n : Word32) g => if n.toNat ≤ g.num.toNat then g.num + 1 else n) c.nextGrid
  let s := s.mapCtx c.id fun x => { x with nextGrid := top }
  if (List.range 4).any fun q => 64 < s.pendingIn q then none
  else
    let gangs := ((ss.filter fun x => x.type == 2).map fun x => (x.gx, x.gang)).eraseDups
    let placed := gangs.foldl (fun (o : Option State) k => o.bind fun s => s.loadGang c.part ids ss c.kept k) (some s)
    let tagged := (ss.filter fun x => x.type == 4 && x.gx == 0xFFFF).foldl
      (fun (o : Option State) x => o.bind fun s => s.loadLoose c.part x) placed
    tagged.map fun s =>
      let s := c.kept.freed.foldl (fun s x => s.loadFreed c.part c.id x) s
      let s := (ss.filter fun x => x.type == 5).foldl (fun s x => s.loadCopy c.id ids x) s
      let out := (s.groups.filterMap fun g => match g.status with
        | .desched st _ => if (s.gridOf g).ctx == c.id then some (st.time, s.handleOf g) else none
        | _ => none).mergeSort fun a b => decide (a.1 ≤ b.1)
      s.mapCtx c.id fun x => { x with st := .halted, replays := out.map Prod.snd }

/-! ## CTXLOAD (R341) -/

/-- The checks of the first phase past the context: the sections, a status, or a fault. Log 77. -/
def State.readImage (s : State) (c : Ctx) (base : Word) (hdr : List Byte) : Reading (List Sect) × State :=
  let h := hdr.take 112
  let sealed' := fieldAt h 9 1 % 2 == 1
  let counter := fieldAt h 16 8
  if headerBad c (s.modeOf c) h (hdr.drop 112) then (.status 5, s)
  else if fieldAt h 8 1 != c.world.toNat || (c.world == 0 && sealed') then (.status 5, s)
  else if counter != c.counter then (.status 0x19, s)
  else if c.world != 0 && !sealed' then (.status 0x1A, s)
  else
    let sl : Option Seal := if sealed' then some ⟨s.saveKey c, counter⟩ else none
    if sl.any fun k => (gcmOpen k.key (imageNonce counter 0) h [] (hdr.drop 112)).isNone then (.status 0x1A, s)
    else s.readSects base h (fieldAt h 24 8) sl (fieldAt h 12 4) 1 128 []

/-- CTXLOAD once its base has passed and the header is read. Log 78, 79. -/
def State.loadCtx (s : State) (d : SReg) (base : Word) (hdr : List Byte) (c : Ctx) : State :=
  let r := s.readImage c base hdr
  match r.1 with
  | .fault f => r.2.sMemFault f 0 false false
  | .status n => (r.2.sput d (BitVec.ofNat 64 n)).nextPc 8
  | .got ss =>
    if !sectsOk c.id ss then (r.2.sput d 5).nextPc 8
    else match r.2.installImage c ss with
      | none => (r.2.sput d 6).nextPc 8
      | some t => (t.sput d 0).nextPc 8

def execCtxload (d a : SReg) (ctx : BitVec 12) (s : State) : Out :=
  .next (s.sIssue .mach [d, a] false fun s =>
    if !s.quiet then s
    else
      let t := s.checkRange .read (s.sget a) 4096 128
      match t.res with
      | .inl f => t.st.sMemFault f 0 false false
      | .inr _ =>
        let h := t.st.getBytes (s.sget a) 8
        match h.1 with
        | .inl f => h.2.sMemFault f 0 false false
        | .inr hdr =>
          match h.2.imageCtx? ctx.toNat with
          | none => (h.2.sput d 3).nextPc 8
          | some c => if c.st != .empty then (h.2.sput d 3).nextPc 8 else h.2.loadCtx d (s.sget a) hdr c)

end Sys2Proof.Machine
end

