-- ==== Sys2Proof/Machine/Mgmt.lean ====
section
/-! DEFINITION. The management block (R410 to R416): its command registers, its tables and windows, and the writes of
registers that have no row of their own. -/

namespace Sys2Proof.Machine

/-! ## INVCMD and KILLREQ (R349, R412) -/

/-- INVCMD GO reads 1 until the invalidation completes. Log 101. -/
def State.invBusy (s : State) : Bool := s.invals.any Inval.host

/-- A write of INVCMD: while an invalidation runs it is ignored. Log 101. -/
def State.writeInvcmd (s : State) (v : Word) : State :=
  if s.invBusy then s
  else
    let s := { s with dev := { s.dev with invcmd := bitsIn v 56 0 } }
    let lo := (bitsIn v 56 12).toNat
    if v.getLsbD 63 then s.postInval (v.toNat % 4096) lo (lo + 4096 * s.dev.invpages.toNat) true else s

def execInvalidate (v : Word) (s : State) : Out := .next (if s.mgmtOn then s.writeInvcmd (v ||| (1#64 <<< 63)) else s)

/-- A write of KILLREQ: core in bits 7:0, tag in bits 11:8; the status of a TAGKILL at MACH goes to bits 18:16. -/
def State.writeKillreq (s : State) (v : Word) : State :=
  let core := v.toNat % 256
  let keep := fun (st : Nat) (s : State) => { s with dev := { s.dev with killreq := fields [(16, st), (0, v.toNat % 4096)] } }
  if v.getLsbD 63 then
    if 192 ≤ core then keep 3 s
    else
      let r := s.tagkill core 0 true (BitVec.ofNat 64 (v.toNat / 256 % 16))
      keep r.1.toNat r.2
  else keep (s.dev.killreq.toNat / 2 ^ 16 % 8) s

def execKillreq (v : Word) (s : State) : Out := .next (if s.mgmtOn then s.writeKillreq (v ||| (1#64 <<< 63)) else s)

/-! ## Tables and windows -/

/-- A write of doubleword i of RTAB entry w: ignored while a LIVE partition owns the entry (R414). Bits that the table calls
zero stay zero. Log 92. -/
def State.writeRtab (s : State) (w i : Nat) (v : Word) : State :=
  if (List.range 16).any fun p => (s.part p).live && (s.part p).routes.getLsbD w then s
  else
    let v := match i with
      | 0 => v &&& 0xFFFFFFFFFFFF01FF
      | 1 => bitsIn v 49 12
      | 2 => bitsIn v 44 12
      | _ => 0
    { s with dev := { s.dev with rtab := s.dev.rtab.write (32 * w + 8 * i) (bytesOf 8 v.toNat) } }

def MigState.code : MigState → Nat
  | .running => 0
  | .precopy => 1
  | .stopping => 2
  | .stopped => 3
  | .resuming => 4

/-- MIGCTL (R342). -/
def Mig.ctl (m : Mig) : Word := fields [(8, m.lost.toNat), (4, MigState.code m.st)]

def Boot.code : Boot → Nat
  | .reset => 0
  | .ready => 1
  | .recovery => 2

def Biv.code : Biv → Nat
  | .awake => 0
  | .entering => 1
  | .asleep => 2
  | .waking => 3

/-! ## The block as the hypervisor reads and writes it, by doublewords -/

/-- The doubleword at an offset of the block (R410). In RECOVERY only BOOTST answers, the recovery status (R373); asleep, only
BOOTST, SLICEOK and BIVCMD do (R415). -/
def State.mgmtRead (s : State) (off : Nat) : Word :=
  let d := s.dev
  if off == 0x0000 then fields [(0, Boot.code d.boot)]
  else if d.boot == .recovery then 0
  else if off == 0x0008 then d.sliceOk
  else if off == 0x0070 then d.bivcmd ||| fields [(4, Biv.code d.biv)]
  else if d.biv == .asleep then 0
  else if off == 0x0010 then d.ptcmd
  else if off == 0x0020 then d.ctxcmd
  else if off == 0x0030 then d.invcmd ||| fields [(63, s.invBusy.toNat)]
  else if off == 0x0038 then d.invpages.setWidth 64
  else if off == 0x0040 then d.killreq
  else if off == 0x0050 then d.dbgPort
  else if off == 0x0060 then d.wldcmd
  else if off == 0x0068 then d.wldkey
  else if 0x1000 ≤ off && off < 0x1800 then (s.part ((off - 0x1000) / 128)).dwords.getD (off % 128 / 8) 0
  else if 0x2040 ≤ off && off < 0x3000 then
    let f := (off - 0x2000) / 64
    match off % 64 with
    | 0 => (s.mig f).ctl
    | 8 => (s.mig f).dirty
    | 16 => BitVec.ofNat 64 (s.migLen f)
    | _ => 0
  else if 0x3000 ≤ off && off < 0xB000 then ((s.realCtx? ((off - 0x3000) / 8)).map Ctx.preq).getD 0
  else if 0xC000 ≤ off && off < 0xC800 then wordOf (d.rtab.read (off - 0xC000) 8)
  else if 0x110000 ≤ off && off < 0x500000 then wordOf (d.migwin.read (off - 0x100000) 8)
  else 0

/-- A write of the doubleword at an offset. Until READY, and asleep but for BIVCMD, it is ignored (R409, R415). Log 92. -/
def State.mgmtWrite (s : State) (off : Nat) (v : Word) : State :=
  if off % 8 != 0 then s
  else if off == 0x0070 then s.writeBivcmd v
  else if !s.mgmtOn then s
  else if off == 0x0010 then s.writePtcmd v
  else if off == 0x0020 then s.bump.writeCtxcmd v (Config.freeBool s.fresh)
  else if off == 0x0030 then s.writeInvcmd v
  else if off == 0x0038 then { s with dev := { s.dev with invpages := v.setWidth 32 } }
  else if off == 0x0040 then s.writeKillreq v
  else if off == 0x0050 then s.writeDebug v
  else if off == 0x0060 then s.writeWldcmd v
  else if off == 0x0068 then { s with dev := { s.dev with wldkey := bitsIn v 51 6 } }
  else if 0x1000 ≤ off && off < 0x1800 then s.writePtab ((off - 0x1000) / 128) (off % 128 / 8) v
  else if 0x2040 ≤ off && off < 0x3000 then
    let f := (off - 0x2000) / 64
    match off % 64 with
    | 0 => s.migCmd f (v.toNat % 8)
    | 8 => s.writeMigDirty f v
    | _ => s
  else if 0x3000 ≤ off && off < 0xB000 then s.preqCmd ((off - 0x3000) / 8) (v.toNat % 8)
  else if 0xC000 ≤ off && off < 0xC800 then s.writeRtab ((off - 0xC000) / 32) (off % 32 / 8) v
  else if 0x110000 ≤ off && off < 0x500000 then s.putWindow ((off - 0x100000) / 65536) (off % 65536) (bytesOf 8 v.toNat)
  else s

/-- REGISTER_WRITE (R5): a special register as a write at MACH by the issuing group's firmware takes it, or a doubleword of
the management block. A number that is not listed names no register. Machine firmware forces strict policy on a partition with
bit 0 of its policy, and lifts it. Log 102. -/
def execRegisterWrite (r : RegSel) (v : Word) (s : State) : Out :=
  .next (match r with
    | .mgmt off => s.mgmtWrite off v
    | .policy part => s.mapPart part fun p => { p with strict := v.getLsbD 0 }
    | .sr num =>
      if (srLevels num.toNat).isNone then s
      else if num.toNat == 0x170 then s.setPtroot (s.ctxOf s.cur).id v
      else s.srWrite num.toNat v)

end Sys2Proof.Machine
end

