-- ==== Sys2Proof/Machine/Dispatch.lean ====
section
/-! DEFINITION. The dispatch table: one arm for each constructor of `Instr`. -/

namespace Sys2Proof.Machine

def exec (i : Instr) (s : State) : Host.Outcome State Fault Refusal :=
  match i with
  | .nop => Sys2Proof.Machine.execNop s
  | .trapfence => Sys2Proof.Machine.execTrapfence s
  | .bkpt => Sys2Proof.Machine.execBkpt s
  | .syscall a => Sys2Proof.Machine.execSyscall a s
  | .retf => Sys2Proof.Machine.execRetf s
  | .halt => Sys2Proof.Machine.execHalt s
  | .add d a b => Sys2Proof.Machine.execAdd d a b s
  | .sub d a b => Sys2Proof.Machine.execSub d a b s
  | .mul d a b => Sys2Proof.Machine.execMul d a b s
  | .mulh d a b => Sys2Proof.Machine.execMulh d a b s
  | .mulhn d a b => Sys2Proof.Machine.execMulhn d a b s
  | .div d a b => Sys2Proof.Machine.execDiv d a b s
  | .divn d a b => Sys2Proof.Machine.execDivn d a b s
  | .rem d a b => Sys2Proof.Machine.execRem d a b s
  | .remn d a b => Sys2Proof.Machine.execRemn d a b s
  | .and d a b => Sys2Proof.Machine.execAnd d a b s
  | .or d a b => Sys2Proof.Machine.execOr d a b s
  | .xor d a b => Sys2Proof.Machine.execXor d a b s
  | .andn d a b => Sys2Proof.Machine.execAndn d a b s
  | .shl d a b => Sys2Proof.Machine.execShl d a b s
  | .shr d a b => Sys2Proof.Machine.execShr d a b s
  | .sra d a b => Sys2Proof.Machine.execSra d a b s
  | .rotr d a b => Sys2Proof.Machine.execRotr d a b s
  | .min d a b => Sys2Proof.Machine.execMin d a b s
  | .max d a b => Sys2Proof.Machine.execMax d a b s
  | .minn d a b => Sys2Proof.Machine.execMinn d a b s
  | .maxn d a b => Sys2Proof.Machine.execMaxn d a b s
  | .clz d a => Sys2Proof.Machine.execClz d a s
  | .popc d a => Sys2Proof.Machine.execPopc d a s
  | .slt d a b => Sys2Proof.Machine.execSlt d a b s
  | .sltn d a b => Sys2Proof.Machine.execSltn d a b s
  | .seq d a b => Sys2Proof.Machine.execSeq d a b s
  | .sne d a b => Sys2Proof.Machine.execSne d a b s
  | .sel d a b => Sys2Proof.Machine.execSel d a b s
  | .addi d a imm => Sys2Proof.Machine.execAddi d a imm s
  | .andi d a imm => Sys2Proof.Machine.execAndi d a imm s
  | .ori d a imm => Sys2Proof.Machine.execOri d a imm s
  | .xori d a imm => Sys2Proof.Machine.execXori d a imm s
  | .shli d a n => Sys2Proof.Machine.execShli d a n s
  | .shri d a n => Sys2Proof.Machine.execShri d a n s
  | .srai d a n => Sys2Proof.Machine.execSrai d a n s
  | .slti d a imm => Sys2Proof.Machine.execSlti d a imm s
  | .lui d imm => Sys2Proof.Machine.execLui d imm s
  | .li d imm => Sys2Proof.Machine.execLi d imm s
  | .liHi d imm => Sys2Proof.Machine.execLiHi d imm s
  | .b cond a off => Sys2Proof.Machine.execB cond a off s
  | .j off => Sys2Proof.Machine.execJ off s
  | .call off => Sys2Proof.Machine.execCall off s
  | .jr a => Sys2Proof.Machine.execJr a s
  | .ret => Sys2Proof.Machine.execRet s
  | .callr a => Sys2Proof.Machine.execCallr a s
  | .loop a off => Sys2Proof.Machine.execLoop a off s
  | .lrun off => Sys2Proof.Machine.execLrun off s
  | .dqput a => Sys2Proof.Machine.execDqput a s
  | .rqget d => Sys2Proof.Machine.execRqget d s
  | .rqgetTry d a => Sys2Proof.Machine.execRqgetTry d a s
  | .sjoin => Sys2Proof.Machine.execSjoin s
  | .bar => Sys2Proof.Machine.execBar s
  | .gbar => Sys2Proof.Machine.execGbar s
  | .tvoteAny d a => Sys2Proof.Machine.execTvoteAny d a s
  | .tvoteAll d a => Sys2Proof.Machine.execTvoteAll d a s
  | .tvoteSum d a => Sys2Proof.Machine.execTvoteSum d a s
  | .tret => Sys2Proof.Machine.execTret s
  | .exit => Sys2Proof.Machine.execExit s
  | .tcall d a n sp => Sys2Proof.Machine.execTcall d a n sp s
  | .launch d a => Sys2Proof.Machine.execLaunch d a s
  | .launchW d a => Sys2Proof.Machine.execLaunchW d a s
  | .lwait => Sys2Proof.Machine.execLwait s
  | .ldS8 d a imm => Sys2Proof.Machine.execLdS8 d a imm s
  | .ldS16 d a imm => Sys2Proof.Machine.execLdS16 d a imm s
  | .ldS32 d a imm => Sys2Proof.Machine.execLdS32 d a imm s
  | .ld64 d a imm => Sys2Proof.Machine.execLd64 d a imm s
  | .ldN8 d a imm => Sys2Proof.Machine.execLdN8 d a imm s
  | .ldN16 d a imm => Sys2Proof.Machine.execLdN16 d a imm s
  | .ldN32 d a imm => Sys2Proof.Machine.execLdN32 d a imm s
  | .st8 d a imm => Sys2Proof.Machine.execSt8 d a imm s
  | .st16 d a imm => Sys2Proof.Machine.execSt16 d a imm s
  | .st32 d a imm => Sys2Proof.Machine.execSt32 d a imm s
  | .st64 d a imm => Sys2Proof.Machine.execSt64 d a imm s
  | .ldo sz ord sc d a disp => Sys2Proof.Machine.execLdo sz ord sc d a disp s
  | .sto sz ord sc d a disp => Sys2Proof.Machine.execSto sz ord sc d a disp s
  | .satom op w64 ord sc d a b disp => Sys2Proof.Machine.execSatom op w64 ord sc d a b disp s
  | .spaccLoad sz ord sc d a disp => Sys2Proof.Machine.execSpaccLoad sz ord sc d a disp s
  | .spaccStore sz ord sc d a disp => Sys2Proof.Machine.execSpaccStore sz ord sc d a disp s
  | .spaccAtomic sz op ord sc d a b disp => Sys2Proof.Machine.execSpaccAtomic sz op ord sc d a b disp s
  | .fence k sc => Sys2Proof.Machine.execFence k sc s
  | .fenceOwn => Sys2Proof.Machine.execFenceOwn s
  | .fenceRem sc => Sys2Proof.Machine.execFenceRem sc s
  | .mwait ord sc d a b tmo => Sys2Proof.Machine.execMwait ord sc d a b tmo s
  | .qtake sc d a => Sys2Proof.Machine.execQtake sc d a s
  | .qput sc d a b => Sys2Proof.Machine.execQput sc d a b s
  | .cpy dir d a b k tag => Sys2Proof.Machine.execCpy dir d a b k tag s
  | .wload tag fmt blen b128 a b => Sys2Proof.Machine.execWload tag fmt blen b128 a b s
  | .waitc ld st cp mx => Sys2Proof.Machine.execWaitc ld st cp mx s
  | .waitr p a => Sys2Proof.Machine.execWaitr p a s
  | .sphint st a b => Sys2Proof.Machine.execSphint st a b s
  | .stepBegin d a b => Sys2Proof.Machine.execStepBegin d a b s
  | .stepProg d a b => Sys2Proof.Machine.execStepProg d a b s
  | .stepEnd d a => Sys2Proof.Machine.execStepEnd d a s
  | .rdsr d num => Sys2Proof.Machine.execRdsr d num s
  | .wrsr a num => Sys2Proof.Machine.execWrsr a num s
  | .tagset d a => Sys2Proof.Machine.execTagset d a s
  | .tagkill d a => Sys2Proof.Machine.execTagkill d a s
  | .ctxsave free d a b ctx => Sys2Proof.Machine.execCtxsave free d a b ctx s
  | .ctxload d a ctx => Sys2Proof.Machine.execCtxload d a ctx s
  | .mappgMap sz d a b => Sys2Proof.Machine.execMappgMap sz d a b s
  | .mappgPool d a b => Sys2Proof.Machine.execMappgPool d a b s
  | .mappgUnmap sz d a => Sys2Proof.Machine.execMappgUnmap sz d a s
  | .privqTake d => Sys2Proof.Machine.execPrivqTake d s
  | .privqResume d a => Sys2Proof.Machine.execPrivqResume d a s
  | .privqEnd d a => Sys2Proof.Machine.execPrivqEnd d a s
  | .vadd o => Sys2Proof.Machine.execVadd o s
  | .vsub o => Sys2Proof.Machine.execVsub o s
  | .vmul o => Sys2Proof.Machine.execVmul o s
  | .vmulh o => Sys2Proof.Machine.execVmulh o s
  | .vmad o => Sys2Proof.Machine.execVmad o s
  | .vadds o => Sys2Proof.Machine.execVadds o s
  | .vsubs o => Sys2Proof.Machine.execVsubs o s
  | .vabsd o => Sys2Proof.Machine.execVabsd o s
  | .vmin o => Sys2Proof.Machine.execVmin o s
  | .vmax o => Sys2Proof.Machine.execVmax o s
  | .vand o => Sys2Proof.Machine.execVand o s
  | .vor o => Sys2Proof.Machine.execVor o s
  | .vxor o => Sys2Proof.Machine.execVxor o s
  | .vandn o => Sys2Proof.Machine.execVandn o s
  | .vnot o => Sys2Proof.Machine.execVnot o s
  | .vshl o => Sys2Proof.Machine.execVshl o s
  | .vshr o => Sys2Proof.Machine.execVshr o s
  | .vsra o => Sys2Proof.Machine.execVsra o s
  | .vrotr o => Sys2Proof.Machine.execVrotr o s
  | .vclz o => Sys2Proof.Machine.execVclz o s
  | .vpopc o => Sys2Proof.Machine.execVpopc o s
  | .vbrev o => Sys2Proof.Machine.execVbrev o s
  | .vdiv o => Sys2Proof.Machine.execVdiv o s
  | .vrem o => Sys2Proof.Machine.execVrem o s
  | .vdot4 o => Sys2Proof.Machine.execVdot4 o s
  | .vsel o => Sys2Proof.Machine.execVsel o s
  | .vmov o => Sys2Proof.Machine.execVmov o s
  | .vidx o => Sys2Proof.Machine.execVidx o s
  | .vbfx o => Sys2Proof.Machine.execVbfx o s
  | .vbfi o => Sys2Proof.Machine.execVbfi o s
  | .vfadd o => Sys2Proof.Machine.execVfadd o s
  | .vfsub o => Sys2Proof.Machine.execVfsub o s
  | .vfmul o => Sys2Proof.Machine.execVfmul o s
  | .vfma o => Sys2Proof.Machine.execVfma o s
  | .vfms o => Sys2Proof.Machine.execVfms o s
  | .vfnma o => Sys2Proof.Machine.execVfnma o s
  | .vfmin o => Sys2Proof.Machine.execVfmin o s
  | .vfmax o => Sys2Proof.Machine.execVfmax o s
  | .vfabs o => Sys2Proof.Machine.execVfabs o s
  | .vfneg o => Sys2Proof.Machine.execVfneg o s
  | .vfdiv o => Sys2Proof.Machine.execVfdiv o s
  | .vfsqrt o => Sys2Proof.Machine.execVfsqrt o s
  | .vfrsq o => Sys2Proof.Machine.execVfrsq o s
  | .vfex2 o => Sys2Proof.Machine.execVfex2 o s
  | .vflg2 o => Sys2Proof.Machine.execVflg2 o s
  | .vfsinp o => Sys2Proof.Machine.execVfsinp o s
  | .vfcosp o => Sys2Proof.Machine.execVfcosp o s
  | .vfrnd o => Sys2Proof.Machine.execVfrnd o s
  | .vfclass o => Sys2Proof.Machine.execVfclass o s
  | .vfscale o => Sys2Proof.Machine.execVfscale o s
  | .vcvt o => Sys2Proof.Machine.execVcvt o s
  | .vpack o => Sys2Proof.Machine.execVpack o s
  | .vunpk o => Sys2Proof.Machine.execVunpk o s
  | .vqnt o => Sys2Proof.Machine.execVqnt o s
  | .vdqnt o => Sys2Proof.Machine.execVdqnt o s
  | .vcmp o => Sys2Proof.Machine.execVcmp o s
  | .vfcmp o => Sys2Proof.Machine.execVfcmp o s
  | .plogic o => Sys2Proof.Machine.execPlogic o s
  | .pset o => Sys2Proof.Machine.execPset o s
  | .pfirst o => Sys2Proof.Machine.execPfirst o s
  | .vshfl o => Sys2Proof.Machine.execVshfl o s
  | .vrotl o => Sys2Proof.Machine.execVrotl o s
  | .vbcl o => Sys2Proof.Machine.execVbcl o s
  | .vred o => Sys2Proof.Machine.execVred o s
  | .vscan o => Sys2Proof.Machine.execVscan o s
  | .vcomp o => Sys2Proof.Machine.execVcomp o s
  | .bdiv o => Sys2Proof.Machine.execBdiv o s
  | .join o => Sys2Proof.Machine.execJoin o s
  | .bloop o => Sys2Proof.Machine.execBloop o s
  | .lend o => Sys2Proof.Machine.execLend o s
  | .lkill o => Sys2Proof.Machine.execLkill o s
  | .vbar o => Sys2Proof.Machine.execVbar o s
  | .vote o => Sys2Proof.Machine.execVote o s
  | .rput o => Sys2Proof.Machine.execRput o s
  | .buni o => Sys2Proof.Machine.execBuni o s
  | .vld o => Sys2Proof.Machine.execVld o s
  | .vst o => Sys2Proof.Machine.execVst o s
  | .vldsp o => Sys2Proof.Machine.execVldsp o s
  | .vstsp o => Sys2Proof.Machine.execVstsp o s
  | .vatom o => Sys2Proof.Machine.execVatom o s
  | .vatomsp o => Sys2Proof.Machine.execVatomsp o s
  | .vldblk o => Sys2Proof.Machine.execVldblk o s
  | .vstblk o => Sys2Proof.Machine.execVstblk o s
  | .vpref o => Sys2Proof.Machine.execVpref o s
  | .vfence o => Sys2Proof.Machine.execVfence o s
  | .mma o => Sys2Proof.Machine.execMma o s
  | .mdrain o => Sys2Proof.Machine.execMdrain o s
  | .mdrsp o => Sys2Proof.Machine.execMdrsp o s
  | .mzero o => Sys2Proof.Machine.execMzero o s
  | .vlife o => Sys2Proof.Machine.execVlife o s
  | .vnop o => Sys2Proof.Machine.execVnop o s
  | .vwaitc o => Sys2Proof.Machine.execVwaitc o s
  | .kpop o => Sys2Proof.Machine.execKpop o s
  | .kfrom o => Sys2Proof.Machine.execKfrom o s
  | .illegalEncoding l => Sys2Proof.Machine.execIllegalEncoding l s
  | .instructionFetchFault l f => Sys2Proof.Machine.execInstructionFetchFault l f s
  | .lInstructionComplete uid => Sys2Proof.Machine.execLInstructionComplete uid s
  | .blockStart uid => Sys2Proof.Machine.execBlockStart uid s
  | .blockSupplyFollow uid blk => Sys2Proof.Machine.execBlockSupplyFollow uid blk s
  | .regBlockWakeDone uid blk bad => Sys2Proof.Machine.execRegBlockWakeDone uid blk bad s
  | .spBankWakeDone core bank bad => Sys2Proof.Machine.execSpBankWakeDone core bank bad s
  | .watchdogExpiry uid => Sys2Proof.Machine.execWatchdogExpiry uid s
  | .gangDispatch part => Sys2Proof.Machine.execGangDispatch part s
  | .teamFree team => Sys2Proof.Machine.execTeamFree team s
  | .gridRetire grid => Sys2Proof.Machine.execGridRetire grid s
  | .loadResponse uid seq => Sys2Proof.Machine.execLoadResponse uid seq s
  | .storeResponse uid seq => Sys2Proof.Machine.execStoreResponse uid seq s
  | .peerRequest uid seq => Sys2Proof.Machine.execPeerRequest uid seq s
  | .mwaitWake uid => Sys2Proof.Machine.execMwaitWake uid s
  | .mwaitTimeout uid => Sys2Proof.Machine.execMwaitTimeout uid s
  | .remDrainRequest uid target => Sys2Proof.Machine.execRemDrainRequest uid target s
  | .remDrainAck uid target => Sys2Proof.Machine.execRemDrainAck uid target s
  | .copyBegin id => Sys2Proof.Machine.execCopyBegin id s
  | .copyElement id => Sys2Proof.Machine.execCopyElement id s
  | .copyComplete id => Sys2Proof.Machine.execCopyComplete id s
  | .wavePrepare core tag => Sys2Proof.Machine.execWavePrepare core tag s
  | .waveInject core => Sys2Proof.Machine.execWaveInject core s
  | .waveWriteback core err => Sys2Proof.Machine.execWaveWriteback core err s
  | .wloadBegin core tag => Sys2Proof.Machine.execWloadBegin core tag s
  | .wloadComplete core tag bad => Sys2Proof.Machine.execWloadComplete core tag bad s
  | .drainBegin core tag bad => Sys2Proof.Machine.execDrainBegin core tag bad s
  | .drainComplete core tag => Sys2Proof.Machine.execDrainComplete core tag s
  | .mzeroExecute core tag => Sys2Proof.Machine.execMzeroExecute core tag s
  | .tagScrub core tag => Sys2Proof.Machine.execTagScrub core tag s
  | .faultDispatch uid => Sys2Proof.Machine.execFaultDispatch uid s
  | .handlerEntry uid => Sys2Proof.Machine.execHandlerEntry uid s
  | .deadlineDelivery uid => Sys2Proof.Machine.execDeadlineDelivery uid s
  | .rootGridSubmit g => Sys2Proof.Machine.execRootGridSubmit g s
  | .contextCreate v sigOk => Sys2Proof.Machine.execContextCreate v sigOk s
  | .partitionCreate idx => Sys2Proof.Machine.execPartitionCreate idx s
  | .ask ctx => Sys2Proof.Machine.execAsk ctx s
  | .preqHalt ctx => Sys2Proof.Machine.execPreqHalt ctx s
  | .contextHalted ctx => Sys2Proof.Machine.execContextHalted ctx s
  | .resume ctx => Sys2Proof.Machine.execResume ctx s
  | .compactorMove core what => Sys2Proof.Machine.execCompactorMove core what s
  | .tlbEntryDrop t idx => Sys2Proof.Machine.execTlbEntryDrop t idx s
  | .strike ctx => Sys2Proof.Machine.execStrike ctx s
  | .graceExpiry ctx => Sys2Proof.Machine.execGraceExpiry ctx s
  | .strikeExpiry ctx => Sys2Proof.Machine.execStrikeExpiry ctx s
  | .migPrecopy f => Sys2Proof.Machine.execMigPrecopy f s
  | .migStop f => Sys2Proof.Machine.execMigStop f s
  | .migResume f => Sys2Proof.Machine.execMigResume f s
  | .migAbort f => Sys2Proof.Machine.execMigAbort f s
  | .migReceive f => Sys2Proof.Machine.execMigReceive f s
  | .migStopped f => Sys2Proof.Machine.execMigStopped f s
  | .migDescRead f idx => Sys2Proof.Machine.execMigDescRead f idx s
  | .migDescWrite f idx => Sys2Proof.Machine.execMigDescWrite f idx s
  | .migdirtyWrite f v => Sys2Proof.Machine.execMigdirtyWrite f v s
  | .tmigGo v => Sys2Proof.Machine.execTmigGo v s
  | .nocPacketReceive p => Sys2Proof.Machine.execNocPacketReceive p s
  | .hostWrite place data => Sys2Proof.Machine.execHostWrite place data s
  | .hostRead place n => Sys2Proof.Machine.execHostRead place n s
  | .hostRecall line => Sys2Proof.Machine.execHostRecall line s
  | .fabricAccess acc => Sys2Proof.Machine.execFabricAccess acc s
  | .bivouacAnswer ctx core => Sys2Proof.Machine.execBivouacAnswer ctx core s
  | .partitionDestroy idx => Sys2Proof.Machine.execPartitionDestroy idx s
  | .trailHeadWrite idx v => Sys2Proof.Machine.execTrailHeadWrite idx v s
  | .trailTailWrite idx v => Sys2Proof.Machine.execTrailTailWrite idx v s
  | .governorWindow m => Sys2Proof.Machine.execGovernorWindow m s
  | .pointChangeDone dom => Sys2Proof.Machine.execPointChangeDone dom s
  | .currentSample amps => Sys2Proof.Machine.execCurrentSample amps s
  | .undervoltRestore e => Sys2Proof.Machine.execUndervoltRestore e s
  | .thermalSample core temp => Sys2Proof.Machine.execThermalSample core temp s
  | .deviceReset idOk fwOk slices => Sys2Proof.Machine.execDeviceReset idOk fwOk slices s
  | .contextDestroy v => Sys2Proof.Machine.execContextDestroy v s
  | .invalidate v => Sys2Proof.Machine.execInvalidate v s
  | .killreq v => Sys2Proof.Machine.execKillreq v s
  | .worldCreate v => Sys2Proof.Machine.execWorldCreate v s
  | .worldImport v => Sys2Proof.Machine.execWorldImport v s
  | .worldDestroy v => Sys2Proof.Machine.execWorldDestroy v s
  | .debugWrite v => Sys2Proof.Machine.execDebugWrite v s
  | .ptrootWrite ctx v => Sys2Proof.Machine.execPtrootWrite ctx v s
  | .mxcadWrite core v => Sys2Proof.Machine.execMxcadWrite core v s
  | .flagsWrite uid v => Sys2Proof.Machine.execFlagsWrite uid v s
  | .vlogClear core => Sys2Proof.Machine.execVlogClear core s
  | .frqtOvfClear ctx => Sys2Proof.Machine.execFrqtOvfClear ctx s
  | .mboxoDropClear ctx => Sys2Proof.Machine.execMboxoDropClear ctx s
  | .thstOverClear core => Sys2Proof.Machine.execThstOverClear core s
  | .domstFreezeClear dom => Sys2Proof.Machine.execDomstFreezeClear dom s
  | .registerWrite r v => Sys2Proof.Machine.execRegisterWrite r v s
  | .compactorMoveEnd core => Sys2Proof.Machine.execCompactorMoveEnd core s
  | .levelChangeDone dom => Sys2Proof.Machine.execLevelChangeDone dom s
  | .invalidationComplete id => Sys2Proof.Machine.execInvalidationComplete id s
  | .attestationRequest ctx nonce => Sys2Proof.Machine.execAttestationRequest ctx nonce s
  | .worldRekey w => Sys2Proof.Machine.execWorldRekey w s
  | .debugPortResume uid => Sys2Proof.Machine.execDebugPortResume uid s
  | .tmigCancel => Sys2Proof.Machine.execTmigCancel s
  | .thermalMove => Sys2Proof.Machine.execThermalMove s
  | .bivouacEnter => Sys2Proof.Machine.execBivouacEnter s
  | .bivouacWake => Sys2Proof.Machine.execBivouacWake s
  | .alwaysOnPowerLoss => Sys2Proof.Machine.execAlwaysOnPowerLoss s

end Sys2Proof.Machine
end

