-- ==== Sys2Proof/Machine/Step.lean ====
section
/-! DEFINITION. One step of the machine: the agent whose turn it is acts, after the ticks that pass before it (log 1). -/

namespace Sys2Proof.Machine

/-- One step: the next turn is taken, its time passes, and its instruction or event, if it may act, is executed; where an access of it
finds a level in change, it waits (R393). Log 1. -/
def step (s : State) : Host.Outcome State Fault Refusal :=
  let t := s.nextTurn
  let s := t.2.advance t.1.dt
  match s.found t.1.act with
  | (some i, u) => s.orWait (exec i u)
  | (none, u) => .next u

/-- The state in which the next step fetches and runs exactly the instruction of the given bits (log 1). -/
def State.withFetchWord (s : State) (nbits w : Nat) : State := s.withWord nbits w

end Sys2Proof.Machine
end

