-- ==== Sys2Proof/Machine/AsmText.lean ====
section
/-! DEFINITION. The text of gsxa, the assembler: characters, tokens, literals and expressions (R67), and the literal of a
number format (R69, R71). -/

namespace Sys2Proof.Gsxa

open Sys2Proof.Machine

/-- A line of source, or a part of one. -/
abbrev Text := List Char

/-! ## Characters and names (R67) -/

def isDigit (c : Char) : Bool := 48 ≤ c.toNat && c.toNat ≤ 57
def isUpper (c : Char) : Bool := 65 ≤ c.toNat && c.toNat ≤ 90
def isLower (c : Char) : Bool := 97 ≤ c.toNat && c.toNat ≤ 122
def isSpace (c : Char) : Bool := c.toNat == 32 || c.toNat == 9 || c.toNat == 13

/-- A name begins with a letter or an underscore. -/
def isNameStart (c : Char) : Bool := isUpper c || isLower c || c == '_'

/-- A name continues with letters, digits and underscores. -/
def isNameChar (c : Char) : Bool := isNameStart c || isDigit c

/-- A letter as a capital: mnemonics, suffixes and register names do not tell case. -/
def upper (c : Char) : Char := if isLower c then Char.ofNat (c.toNat - 32) else c
def uppers (t : Text) : Text := t.map upper

/-- A text without spaces at its ends. -/
def trimLeft (t : Text) : Text := t.dropWhile isSpace
def trim (t : Text) : Text := (trimLeft (trimLeft t).reverse).reverse

/-! ## Numbers in text -/

/-- The value of a digit in a base up to 16. -/
def digitOf (c : Char) : Nat :=
  if isDigit c then c.toNat - 48 else if isUpper c then c.toNat - 55 else if isLower c then c.toNat - 87 else 99

/-- A run of digits as a number; underscores may stand between digits (R67). -/
def digits (base : Nat) (t : Text) : Option Nat :=
  let ds := t.filter (· != '_')
  if ds.isEmpty || t.head? == some '_' || t.getLast? == some '_' || ds.any fun c => base ≤ digitOf c then none
  else some (ds.foldl (fun n c => n * base + digitOf c) 0)

/-- The last n digits of a number in a base, for printing. -/
def digitChar (d : Nat) : Char := Char.ofNat (if d < 10 then d + 48 else d + 55)

def padded (base : Nat) : (count n : Nat) → Text
  | 0, _ => []
  | k + 1, n => padded base k (n / base) ++ [digitChar (n % base)]

/-- Decimal digits of a number, without leading zeros. -/
def decText (n : Nat) : Text :=
  let t := (padded 10 20 n).dropWhile (· == '0')
  if t.isEmpty then ['0'] else t

def intText (i : Int) : Text := if i < 0 then '-' :: decText i.natAbs else decText i.toNat

/-- A number in hexadecimal with at least the digits asked. -/
def hexText (least n : Nat) : Text := '0' :: 'x' :: padded 16 (max (max 1 least) (Nat.log2 n / 4 + 1)) n

/-! ## Tokens -/

/-- A token of an operand: a name, an integer literal and whether it was written with 0x, a float literal m * 10^e, a shift,
or any other character. -/
inductive Tok
  | name (t : Text)
  | int (v : Nat) (hex : Bool)
  | flt (m : Nat) (e : Int)
  | shl
  | shr
  | sym (c : Char)
  deriving DecidableEq, Repr

/-- A run of name characters split at its first e. -/
def splitExp (t : Text) : Text × Option Text :=
  match t.dropWhile fun c => c != 'e' && c != 'E' with
  | [] => (t, none)
  | _ :: x => (t.takeWhile fun c => c != 'e' && c != 'E', some x)

/-- A float literal from its integer part, its fraction, its exponent and what follows. -/
def fltTok (ip fp : Text) (ex : Option Text) (rest : Text) : Option (Tok × Text) := do
  let m ← digits 10 (ip ++ fp)
  let k : Int := (fp.filter (· != '_')).length
  match ex with
  | none => some (.flt m (-k), rest)
  | some [] =>
    match rest with
    | s :: r =>
      let e ← digits 10 (r.takeWhile isNameChar)
      if s == '-' then some (.flt m (-(e : Int) - k), r.dropWhile isNameChar)
      else if s == '+' then some (.flt m (e - k), r.dropWhile isNameChar)
      else none
    | [] => none
  | some x => do some (.flt m ((← digits 10 x : Nat) - k), rest)

/-- A number at the start of a text (R67). -/
def numTok (t : Text) : Option (Tok × Text) :=
  let r := t.takeWhile isNameChar
  let rest := t.dropWhile isNameChar
  match r with
  | '0' :: 'x' :: h => (digits 16 h).map fun v => (.int v true, rest)
  | '0' :: 'b' :: h => (digits 2 h).map fun v => (.int v false, rest)
  | _ =>
    match splitExp r, rest with
    | (ip, none), '.' :: rest' =>
      let f := splitExp (rest'.takeWhile isNameChar)
      fltTok ip f.1 f.2 (rest'.dropWhile isNameChar)
    | (ip, none), _ => (digits 10 ip).map fun v => (.int v false, rest)
    | (ip, some x), _ => fltTok ip [] (some x) rest

/-- The tokens of a text; the fuel is its length. -/
def lex : (fuel : Nat) → Text → Option (List Tok)
  | _, [] => some []
  | 0, _ :: _ => none
  | n + 1, c :: cs =>
    if isSpace c then lex n cs
    else if isDigit c then do
      let (k, rest) ← numTok (c :: cs)
      some (k :: (← lex n rest))
    else if isNameStart c then do some (.name (c :: cs.takeWhile isNameChar) :: (← lex n (cs.dropWhile isNameChar)))
    else if c == '<' then do
      match cs with
      | '<' :: r => some (.shl :: (← lex n r))
      | _ => none
    else if c == '>' then do
      match cs with
      | '>' :: r => some (.shr :: (← lex n r))
      | _ => none
    else do some (.sym c :: (← lex n cs))

/-- The operands of a statement, split at commas. -/
def operands (ts : List Tok) : List (List Tok) :=
  match ts with
  | [] => []
  | _ => ts.foldr (fun t acc => match t, acc with
      | .sym ',', _ => [] :: acc
      | _, a :: as => (t :: a) :: as
      | _, [] => [[t]]) [[]]

/-! ## Expressions (R67). Log 120 -/

/-- What an expression needs: the value of a name, and whether a value out of range rejects the source (it does not while
label values are still being settled). -/
structure Env where
  value : Text → Option Word
  final : Bool

/-- A value within the range of its field, read as signed or, above that, as natural (R68). -/
def Env.fit (env : Env) (lo hi : Int) (v : Word) : Option Int :=
  if lo ≤ v.toInt && v.toInt ≤ hi then some v.toInt
  else if lo ≤ (v.toNat : Int) && (v.toNat : Int) ≤ hi then some v.toNat
  else if env.final then none else some 0

/-- Signed division that truncates toward zero (R67, R75); a zero divisor rejects the source. -/
def divide (env : Env) (a b : Word) : Option Word :=
  if b == 0 then (if env.final then none else some 0) else some (BitVec.ofInt 64 (a.toInt.tdiv b.toInt))

/-- A shift; a count outside 0 to 63 rejects the source. -/
def shift (env : Env) (left : Bool) (a b : Word) : Option Word :=
  if 63 < b.toNat then (if env.final then none else some 0)
  else some (if left then a <<< b.toNat else a.sshiftRight b.toNat)

/-- The operator of a level of precedence: | 0, & 1, shifts 2, + and - 3, * and / 4. -/
def operator (env : Env) (level : Nat) (t : Tok) : Option (Word → Word → Option Word) :=
  match level, t with
  | 0, .sym '|' => some fun a b => some (a ||| b)
  | 1, .sym '&' => some fun a b => some (a &&& b)
  | 2, .shl => some (shift env true)
  | 2, .shr => some (shift env false)
  | 3, .sym '+' => some fun a b => some (a + b)
  | 3, .sym '-' => some fun a b => some (a - b)
  | 4, .sym '*' => some fun a b => some (a * b)
  | 4, .sym '/' => some (divide env)
  | _, _ => none

/-- An expression of a level: without an accumulator its first operand is read, with one the operators that follow. -/
def parse (env : Env) : (fuel level : Nat) → Option Word → List Tok → Option (Word × List Tok)
  | 0, _, _, _ => none
  | _ + 1, _, some v, [] => some (v, [])
  | n + 1, level, some v, t :: ts =>
    match operator env level t with
    | some f => do
      let (r, ts) ← parse env n (level + 1) none ts
      parse env n level (some (← f v r)) ts
    | none => some (v, t :: ts)
  | n + 1, 5, none, ts =>
    match ts with
    | .int v _ :: ts => if v < 2 ^ 64 then some (BitVec.ofNat 64 v, ts) else none
    | .name x :: ts => (env.value x).map fun v => (v, ts)
    | .sym '-' :: ts => (parse env n 5 none ts).map fun r => (-r.1, r.2)
    | .sym '(' :: ts => do
      match ← parse env n 0 none ts with
      | (v, .sym ')' :: ts) => some (v, ts)
      | _ => none
    | _ => none
  | n + 1, level, none, ts => do
    let (v, ts) ← parse env n (level + 1) none ts
    parse env n level (some v) ts

/-- The value of an expression that is all of an operand. -/
def Env.expr (env : Env) (ts : List Tok) : Option Word :=
  match parse env (8 * ts.length + 8) 0 none ts with
  | some (v, []) => some v
  | _ => none

/-- An expression within a range. -/
def Env.exprIn (env : Env) (lo hi : Int) (ts : List Tok) : Option Int := (env.expr ts).bind (env.fit lo hi)

/-! ## Literals of a format (R69, R71) -/

/-- m * 10^e to more bits than any format holds, with a sticky bit. -/
def decimal (neg : Bool) (m : Nat) (e : Int) : Val :=
  if 0 ≤ e then .fin neg (m * 10 ^ e.toNat) 0
  else
    let d := 10 ^ e.natAbs
    let s := Nat.log2 d + 70
    let a := m * 2 ^ s
    .fin neg (2 * (a / d) + (if a % d == 0 then 0 else 1)) (-(s : Int) - 1)

/-- The exact value of a float operand: a float literal, or an integer. -/
def Env.float (env : Env) (ts : List Tok) : Option Val :=
  match ts with
  | [.flt m e] => some (decimal false m e)
  | [.sym '-', .flt m e] => some (decimal true m e)
  | [.name ['i', 'n', 'f']] => some (.inf false)
  | [.sym '-', .name ['i', 'n', 'f']] => some (.inf true)
  | [.name ['n', 'a', 'n']] => some (.nan false)
  | [.int v _] => if v < 2 ^ 64 then some (.fin false v 0) else none
  | _ => (env.expr ts).map fun v => .fin (decide (v.toInt < 0)) v.toInt.natAbs 0

/-- A float operand in a format under RNE, with whether it overflowed (R71). -/
def floatBits (t : ElemType) (v : Val) : Nat × Bool :=
  let r := t.ffmt.round .rne false v
  (r.1, r.2 &&& flagOF != 0)

/-- An operand as one element of a type: an integer in range, or a float that does not overflow (R68, R69). -/
def Env.element (env : Env) (t : ElemType) (ts : List Tok) : Option Nat :=
  if t.isInt then (env.exprIn (intMin t.signed t.width) (intMax t.signed t.width) ts).map (wrapInt t.width)
  else do
    let r := floatBits t (← env.float ts)
    if r.2 then none else some r.1

/-- The 32-bit lane value of an immediate in a type: a value written with 0x whole, any other copied into every element
(R69). -/
def Env.lane (env : Env) (t : ElemType) (ts : List Tok) : Option Nat :=
  match ts with
  | [.int v true] => if v < 2 ^ 32 then some v else none
  | [.sym '-', .int v true] => if v ≤ 2 ^ 31 then some ((2 ^ 32 - v) % 2 ^ 32) else none
  | _ => (env.element t ts).map fun x => packElems t.width (List.replicate t.count x)

end Sys2Proof.Gsxa
end

