-- ==== Sys2Proof/Machine/AsmForms.lean ====
section
/-! DEFINITION. The written forms of the instructions (R68, R69 and the description of each): one row of `forms` for each,
read by gsxa to make the words and by gsxd to print them. An instruction's words stand in one number, word0 at bits 31:0,
word1 at bits 63:32 and word2 at bits 95:64. Log 121. -/

namespace Sys2Proof.Gsxa

open Sys2Proof.Machine

/-! ## Rows -/

/-- A suffix: its field, its spellings with their codes, and the code when it is left out, where it may be. -/
structure Suffix where
  lo    : Nat
  width : Nat
  opts  : List (String × Nat)
  dflt  : Option Nat

/-- How an immediate c is read (R69): in the type of the instruction, as F32, as s32, as VFSCALE reads it, or as n32. -/
inductive ImmAs | type | f32 | s32 | scale | n32
  deriving DecidableEq, Repr

/-- An operand as it is written, with the places of its fields. -/
inductive Opnd
  /-- A scalar register. -/
  | sreg (lo : Nat)
  /-- A scalar register that may not be sz (RDSR, R51). -/
  | sregNoZ (lo : Nat)
  /-- A scalar register in brackets. -/
  | sbase (lo : Nat)
  /-- [sN], [sN+disp] or [sN-disp]. -/
  | smem (lo dlo width : Nat)
  /-- A vector destination. -/
  | vdst
  /-- A vector source with its life mark. -/
  | vsrc (lo llo : Nat)
  /-- The first A register of an MMA: v255 names the latch, so it cannot be named. -/
  | vrow (lo llo : Nat)
  /-- A predicate register. -/
  | pred (lo : Nat)
  /-- A predicate register, or its negation. -/
  | predNeg (lo : Nat)
  /-- A k register. -/
  | kreg (lo : Nat)
  /-- Source c (R59). -/
  | csrc (as : ImmAs)
  /-- Source c in brackets. -/
  | cbase
  /-- The memory operand of R64. -/
  | lmem
  /-- The memory operand of R120. -/
  | bmem
  /-- A matrix tag. -/
  | tag (lo : Nat)
  /-- A natural immediate from off, stored less off. -/
  | nat (lo width off : Nat)
  /-- A signed immediate. -/
  | int (lo width : Nat)
  /-- A 32-bit immediate, signed or natural. -/
  | raw (lo : Nat)
  /-- The value of LI: 64 bits that are the sign extension of their low word (R54). -/
  | li
  /-- An S-stream target, in words from the instruction (R46). -/
  | starget (lo width : Nat)
  /-- An L-stream target, in instructions from the instruction (R125). -/
  | ltarget (lo : Nat)
  /-- The word offset of a block (R83). -/
  | block
  /-- A special register by name or number. -/
  | special
  /-- An in-flight counter (R53). -/
  | counter (lo : Nat)
  /-- A word that stands for itself. -/
  | word (t : String)

/-- A written form: its stream, the parts of its mnemonic, the words it fixes, its suffixes and its operands in order. -/
structure Form where
  lane : Bool
  name : List String
  bits : Nat
  sufs : List Suffix
  ops  : List Opnd

/-! ## Suffixes -/

def one (lo : Nat) (t : String) : Suffix := ⟨lo, 1, [(t, 1)], some 0⟩
def count (ts : List String) (from' : Nat) : List (String × Nat) := ts.zipIdx.map fun x => (x.1, x.2 + from')

def typeNames : List (String × Nat) :=
  count ["s32", "n32", "s16x2", "n16x2", "s8x4", "n8x4", "f32", "f16x2", "bf16x2", "e4m3x4", "e5m2x4"] 0
def T : Suffix := ⟨8, 4, typeNames, none⟩
def DST : Suffix := ⟨64, 4, typeNames, none⟩
def RND : Suffix := ⟨6, 2, count ["rne", "rtz", "rdn", "rup"] 0, some 0⟩
def SAT : Suffix := one 0 "sat"

def orders : List (String × Nat) := count ["RLX", "ACQ", "REL", "ACQREL"] 0
def scopes : List (String × Nat) := count ["GRP", "TEAM", "GANG", "DEV", "SYS"] 0
def kinds : List (String × Nat) := count ["ACQ", "REL", "ACQREL", "SC"] 0
def ldSizes : List (String × Nat) := count ["S8", "S16", "S32", "64", "N8", "N16", "N32"] 0
def stSizes : List (String × Nat) := count ["8", "16", "32", "64"] 8
def atoms : List (String × Nat) := count ["SWAP", "CAS", "ADD", "AND", "OR", "XOR", "MIN", "MAX", "MINN", "MAXN", "INC"] 1

/-- Order and scope of an access; both may be left out (R200). -/
def ORD : Suffix := ⟨35, 2, orders, some 0⟩
def SCOPE : Suffix := ⟨32, 3, scopes, some 0⟩

/-- A suffix that must be written. -/
def must (s : Suffix) : Suffix := { s with dflt := none }

/-! ## Forms of the S-stream -/

/-- A form of a major and its fn or sub code. -/
def sf (name : List String) (major fn : Nat) (sufs : List Suffix) (ops : List Opnd) : Form :=
  ⟨false, name, major * 2 ^ 26 + fn, sufs, ops⟩

def d : Opnd := .sreg 19
def a : Opnd := .sreg 12
def b : Opnd := .sreg 5
def at' : Opnd := .sbase 12

/-- Register forms of the ALU (R74). -/
def aluForms : List Form :=
  (count ["ADD", "SUB", "MUL", "MULH", "MULHN", "DIV", "DIVN", "REM", "REMN", "AND", "OR", "XOR", "ANDN", "SHL", "SHR",
    "SRA", "ROTR", "MIN", "MAX", "MINN", "MAXN"] 0 ++ count ["SLT", "SLTN", "SEQ", "SNE", "SEL"] 23).map
    (fun x => sf [x.1] 0x01 x.2 [] [d, a, b]) ++
  (count ["CLZ", "POPC"] 21).map fun x => sf [x.1] 0x01 x.2 [] [d, a]

/-- Immediate forms of the ALU (R76, R77, R54). -/
def immForms : List Form :=
  [sf ["ADDI"] 0x02 0 [] [d, a, .int 0 12], sf ["ANDI"] 0x03 0 [] [d, a, .int 0 12], sf ["ORI"] 0x04 0 [] [d, a, .int 0 12],
   sf ["XORI"] 0x05 0 [] [d, a, .int 0 12], sf ["SHLI"] 0x06 0 [] [d, a, .nat 0 6 0], sf ["SHRI"] 0x07 0 [] [d, a, .nat 0 6 0],
   sf ["SRAI"] 0x08 0 [] [d, a, .nat 0 6 0], sf ["SLTI"] 0x09 0 [] [d, a, .int 0 12], sf ["LUI"] 0x0A 0 [] [d, .nat 0 19 0],
   sf ["LI"] 0x0B 0 [] [d, .li], sf ["LI", "HI"] 0x0B 1 [] [d, .raw 32]]

/-- System forms, control transfer, queues and teams (R46 to R50, R78 to R86, R144, R151, R157, R318). -/
def ctlForms : List Form :=
  [sf ["NOP"] 0 0 [] [], sf ["TRAPFENCE"] 0 1 [] [], sf ["BKPT"] 0 2 [] [], sf ["SYSCALL"] 0 3 [] [a], sf ["RETF"] 0 4 [] [],
   sf ["HALT"] 0 5 [] [], sf ["B"] 0x10 (6 * 2 ^ 23) [] [.starget 0 16],
   sf ["B"] 0x10 0 [⟨23, 3, count ["EQZ", "NEZ", "LTZ", "GEZ", "GTZ", "LEZ"] 0, none⟩] [.sreg 16, .starget 0 16],
   sf ["J"] 0x11 0 [] [.starget 0 26], sf ["CALL"] 0x12 0 [] [.starget 0 26], sf ["JR"] 0x13 0 [] [a], sf ["RET"] 0x13 1 [] [],
   sf ["CALLR"] 0x13 2 [] [a], sf ["LOOP"] 0x14 0 [] [.sreg 16, .starget 0 16], sf ["LRUN"] 0x18 0 [] [.block],
   sf ["DQPUT"] 0x19 0 [] [a], sf ["RQGET"] 0x1A 0 [] [d], sf ["RQGET", "TRY"] 0x1A 1 [] [d, a], sf ["SJOIN"] 0x1B 0 [] [],
   sf ["BAR"] 0x1C 0 [] [], sf ["GBAR"] 0x1C 1 [] [], sf ["TVOTE", "ANY"] 0x1C 2 [] [d, a], sf ["TVOTE", "ALL"] 0x1C 3 [] [d, a],
   sf ["TVOTE", "SUM"] 0x1C 4 [] [d, a], sf ["TRET"] 0x1C 5 [] [], sf ["EXIT"] 0x1C 6 [] [],
   sf ["TCALL"] 0x1D 0 [one 36 "SP"] [d, at', .nat 32 4 0], sf ["LAUNCH"] 0x1E 0 [] [d, at'], sf ["LAUNCH", "W"] 0x1E 1 [] [d, at'],
   sf ["LWAIT"] 0x1E 2 [] []]

/-- Scalar memory (R88 to R90, R199 to R203, R208 to R214). -/
def memForms : List Form :=
  (count ["S8", "S16", "S32", "64", "N8", "N16", "N32"] 0x20).map (fun x => sf ["LD", x.1] x.2 0 [] [d, .smem 12 0 12]) ++
  (count ["8", "16", "32", "64"] 0x27).map (fun x => sf ["ST", x.1] x.2 0 [] [.smem 12 0 12, d]) ++
  [sf ["LDO"] 0x2B 0 [⟨0, 5, ldSizes, none⟩, ORD, SCOPE] [d, .smem 12 48 16],
   sf ["STO"] 0x2C 0 [⟨0, 5, stSizes, none⟩, ORD, SCOPE] [.smem 12 48 16, d],
   sf ["SATOM"] 0x2D 0 [⟨0, 5, atoms, none⟩, ⟨37, 1, [("32", 0), ("64", 1)], none⟩, ORD, SCOPE] [d, .smem 12 48 16, b],
   sf ["SPACC"] 0x2E 0 [⟨0, 5, ldSizes, none⟩, ORD, SCOPE] [d, .smem 12 48 16],
   sf ["SPACC"] 0x2E 0 [⟨0, 5, stSizes, none⟩, ORD, SCOPE] [.smem 12 48 16, d],
   sf ["SPACC"] 0x2E 0 [⟨0, 5, [("S32", 2), ("64", 3), ("N32", 6)], none⟩, ⟨44, 4, atoms, none⟩, ORD, SCOPE]
     [d, .smem 12 48 16, b],
   sf ["FENCE", "OWN"] 0x2F (1 * 32) [] [], sf ["FENCE", "REM"] 0x2F (2 * 32) [⟨0, 3, scopes, none⟩] [],
   sf ["FENCE"] 0x2F 0 [⟨3, 2, kinds, none⟩, ⟨0, 3, scopes, none⟩] [],
   sf ["MWAIT"] 0x30 0 [must ORD, must SCOPE] [d, at', b, .nat 37 27 0], sf ["QTAKE"] 0x31 0 [must SCOPE] [d, at'],
   sf ["QPUT"] 0x31 1 [must SCOPE] [d, at', b],
   sf ["WAITC"] 0x34 0 [] [.nat 32 8 0, .nat 40 8 0, .nat 48 8 0, .nat 56 8 0], sf ["WAITR"] 0x34 1 [] [.counter 19, a]]

def bps (from' : Nat) : List (String × Nat) := count ["BP2", "BP3", "BP4", "BP5", "BP6", "BP7", "BP8"] from'
def tileFormats : List (String × Nat) := [("S8", 4), ("F16", 7), ("BF16", 8), ("E4M3", 9), ("E5M2", 10)] ++ bps 0x12
def LNN : Suffix := ⟨44, 2, count ["L16", "L32", "L64"] 1, some 0⟩
def BP : Suffix := ⟨32, 4, bps 2, some 0⟩

/-- Engines, supply and steps (R185, R257, R295, R396). -/
def engineForms : List Form :=
  [sf ["CPY"] 0x32 0 [⟨0, 5, count ["G2G", "G2S", "S2G", "S2S"] 0, none⟩, BP] [d, a, .sbase 5],
   sf ["CPY"] 0x32 0 [⟨0, 5, count ["G2W", "S2W"] 4, none⟩, BP] [d, a, .sbase 5, .tag 36],
   sf ["WLOAD"] 0x33 0 [⟨36, 8, tileFormats, none⟩, must LNN, one 46 "B128"] [.tag 32, a, b],
   sf ["WLOAD"] 0x33 0 [⟨36, 8, tileFormats, none⟩, LNN, one 46 "B128"] [.tag 32, a],
   sf ["SPHINT"] 0x35 0 [⟨32, 2, count ["FULL", "RET", "OFF"] 0, none⟩] [a, b],
   sf ["STEP", "BEGIN"] 0x36 0 [] [d, a, b], sf ["STEP", "PROG"] 0x36 1 [] [d, a, b], sf ["STEP", "END"] 0x36 2 [] [d, a]]

def PAGE : Suffix := ⟨32, 2, count ["4K", "64K", "2M"] 0, none⟩

/-- Special registers and privileged forms (R51, R249, R325 to R327, R339). -/
def privForms : List Form :=
  [sf ["WRSR"] 0x37 (127 * 2 ^ 19) [] [.special, a], sf ["RDSR"] 0x37 0 [] [.sregNoZ 19, .special],
   sf ["TAGSET"] 0x38 0 [] [d, a], sf ["TAGKILL"] 0x38 1 [] [d, a],
   sf ["CTXSAVE"] 0x38 2 [one 44 "FREE"] [d, at', b, .nat 32 12 0], sf ["CTXLOAD"] 0x38 3 [] [d, at', .nat 32 12 0],
   sf ["MAPPG", "MAP"] 0x38 4 [PAGE] [d, a, b],
   sf ["MAPPG", "POOL"] 0x38 (4 + 2 ^ 34) [PAGE] [d, a, b], sf ["MAPPG", "UNMAP"] 0x38 (4 + 2 ^ 35) [PAGE] [d, a, .word "sz"],
   sf ["PRIVQ", "TAKE"] 0x38 5 [] [d], sf ["PRIVQ", "RESUME"] 0x38 (5 + 2 ^ 32) [] [d, a],
   sf ["PRIVQ", "END"] 0x38 (5 + 2 ^ 33) [] [d, a]]

/-! ## Forms of the L-stream -/

/-- A form of an opcode. -/
def lf (name : String) (op : Nat) (sufs : List Suffix) (ops : List Opnd) : Form := ⟨true, [name], op * 2 ^ 24, sufs, ops⟩

def va : Opnd := .vsrc 56 54
def vb : Opnd := .vsrc 46 44
def c : Opnd := .csrc .type

/-- Forms of one, two and three sources. -/
def l1 (name : String) (op : Nat) (sufs : List Suffix) : Form := lf name op sufs [.vdst, c]
def l2 (name : String) (op : Nat) (sufs : List Suffix) : Form := lf name op sufs [.vdst, va, c]
def l3 (name : String) (op : Nat) (sufs : List Suffix) : Form := lf name op sufs [.vdst, va, vb, c]

/-- Integer and bitwise forms (R95 to R99). -/
def intForms : List Form :=
  [l2 "VADD" 0x00 [T], l2 "VSUB" 0x01 [T], l2 "VMUL" 0x02 [T], l2 "VMULH" 0x03 [T], l3 "VMAD" 0x04 [T], l2 "VADDS" 0x05 [T],
   l2 "VSUBS" 0x06 [T], l2 "VABSD" 0x07 [T], l2 "VMIN" 0x08 [T], l2 "VMAX" 0x09 [T], l2 "VAND" 0x0A [T], l2 "VOR" 0x0B [T],
   l2 "VXOR" 0x0C [T], l2 "VANDN" 0x0D [T], l1 "VNOT" 0x0E [T], l2 "VSHL" 0x0F [T], l2 "VSHR" 0x10 [T], l2 "VSRA" 0x11 [T],
   l2 "VROTR" 0x12 [T], l1 "VCLZ" 0x13 [T], l1 "VPOPC" 0x14 [T], l1 "VBREV" 0x15 [T], l2 "VDIV" 0x16 [T], l2 "VREM" 0x17 [T],
   lf "VDOT4" 0x18 [T, one 0 "mix", one 1 "sat"] [.vdst, va, vb, .csrc .s32], lf "VSEL" 0x19 [T] [.vdst, .predNeg 0, va, c],
   l1 "VMOV" 0x1A [T], l1 "VIDX" 0x1B [T], l2 "VBFX" 0x1C [T], l2 "VBFI" 0x1D [T]]

/-- Floating-point forms (R100 to R103). -/
def floatForms : List Form :=
  [l2 "VFADD" 0x20 [T, RND, SAT], l2 "VFSUB" 0x21 [T, RND, SAT], l2 "VFMUL" 0x22 [T, RND, SAT], l3 "VFMA" 0x23 [T, RND, SAT],
   l3 "VFMS" 0x24 [T, RND, SAT], l3 "VFNMA" 0x25 [T, RND, SAT], l2 "VFMIN" 0x26 [T], l2 "VFMAX" 0x27 [T], l1 "VFABS" 0x28 [T],
   l1 "VFNEG" 0x29 [T], l2 "VFDIV" 0x2A [T, RND, SAT], l1 "VFSQRT" 0x2B [T, RND, SAT], l1 "VFRSQ" 0x2C [T, SAT],
   l1 "VFEX2" 0x2D [T, SAT], l1 "VFLG2" 0x2E [T, SAT], l1 "VFSINP" 0x2F [T, SAT], l1 "VFCOSP" 0x30 [T, SAT],
   l1 "VFRND" 0x31 [T, RND], l1 "VFCLASS" 0x32 [T], lf "VFSCALE" 0x33 [T, RND, SAT] [.vdst, va, .csrc .scale]]

def EL : Suffix := ⟨0, 2, count ["el0", "el1", "el2", "el3"] 0, none⟩

/-- Conversions (R104 to R108). -/
def convForms : List Form :=
  [l1 "VCVT" 0x40 [T, DST, RND, SAT], l2 "VPACK" 0x41 [T, DST, RND, SAT], l1 "VUNPK" 0x42 [T, DST, RND, SAT, one 1 "hi"],
   lf "VQNT" 0x43 [T, EL, RND, one 2 "sat"] [.vdst, va, .csrc .f32], lf "VDQNT" 0x44 [T, EL, RND] [.vdst, va, .csrc .f32]]

def reductions : Suffix := ⟨0, 3, count ["add", "min", "max", "and", "or", "xor"] 0, none⟩
def comparisons (names : List String) : Suffix := ⟨0, 3, count names 0, none⟩

/-- Comparisons, predicates and movement between lanes (R109 to R113). -/
def predForms : List Form :=
  [lf "VCMP" 0x50 [T, comparisons ["eq", "ne", "lt", "le", "gt", "ge"], one 3 "any"] [.pred 16, va, c],
   lf "VFCMP" 0x51 [T, comparisons ["eq", "ne", "lt", "le", "gt", "ge", "un", "or"], one 3 "any"] [.pred 16, va, c],
   lf "PLOGIC" 0x52 [⟨0, 3, count ["and", "or", "xor", "andn"] 0, none⟩] [.pred 16, .pred 56, .pred 46],
   lf "PLOGIC" 0x52 [⟨0, 3, count ["not", "mov"] 4, none⟩] [.pred 16, .pred 56],
   lf "PSET" 0x53 [⟨0, 2, [("const", 0), ("nz", 2)], none⟩] [.pred 16, c],
   lf "PSET" 0x53 [⟨0, 2, [("below", 1)], none⟩] [.pred 16, .csrc .n32], lf "PFIRST" 0x54 [] [.pred 16, .pred 56],
   lf "VSHFL" 0x60 [T, ⟨0, 2, count ["idx", "xor", "up", "dn"] 0, none⟩] [.vdst, va, .csrc .n32],
   lf "VROTL" 0x61 [T] [.vdst, va, .csrc .n32], lf "VBCL" 0x62 [T] [.vdst, va, .csrc .n32], l1 "VRED" 0x63 [T, RND, reductions],
   l1 "VSCAN" 0x64 [T, RND, reductions, one 3 "ex"], l1 "VCOMP" 0x65 [T]]

/-- Control, votes and returns (R125 to R137). -/
def pathForms : List Form :=
  [lf "BDIV" 0x70 [] [.predNeg 0, .ltarget 80, .ltarget 64], lf "JOIN" 0x71 [] [],
   lf "BLOOP" 0x72 [] [.predNeg 0, .ltarget 80, .ltarget 64], lf "LEND" 0x73 [] [], lf "LKILL" 0x74 [] [.predNeg 0],
   lf "VBAR" 0x75 [] [], lf "VOTE" 0x76 [⟨4, 2, count ["any", "all", "count", "ballot"] 0, none⟩] [.predNeg 0],
   lf "RPUT" 0x77 [one 2 "first", one 0 "sx", one 1 "pair"] [.csrc .s32], lf "BUNI" 0x78 [] [.predNeg 0, .ltarget 80]]

def NARROW : Suffix := ⟨3, 3, [("m8", 1), ("m16", 2)], some 0⟩
def laneAtoms : Suffix := ⟨3, 3, count ["add", "swap", "cas", "and", "or", "xor", "min", "max"] 0, none⟩
def AORD : Suffix := ⟨6, 2, count ["rlx", "acq", "rel", "acqrel"] 0, some 0⟩
def XN : Suffix := ⟨0, 2, count ["x1", "x2", "x4", "x8"] 0, none⟩

/-- Lane memory (R118 to R120, R204 to R207, R211). -/
def laneMemForms : List Form :=
  [lf "VLD" 0x80 [T, NARROW] [.vdst, .lmem], lf "VST" 0x81 [T, NARROW] [.lmem, vb], lf "VLDSP" 0x82 [T, NARROW] [.vdst, .lmem],
   lf "VSTSP" 0x83 [T, NARROW] [.lmem, vb], lf "VATOM" 0x84 [T, laneAtoms, AORD] [.vdst, .lmem, vb],
   lf "VATOMSP" 0x85 [T, laneAtoms, AORD] [.vdst, .lmem, vb], lf "VLDBLK" 0x86 [XN] [.vdst, .bmem],
   lf "VSTBLK" 0x87 [XN] [.bmem, vb], lf "VPREF" 0x88 [⟨3, 3, count ["l2", "tlb"] 0, none⟩] [.lmem],
   lf "VFENCE" 0x89 [⟨3, 2, kinds, none⟩, ⟨0, 3, scopes, none⟩] []]

/-- Tag, first bank row and row count (R292). -/
def tagRows : List Opnd := [.tag 64, .nat 73 5 0, .nat 68 5 1]
def CLR : Suffix := one 1 "clr"
def RES : Suffix := ⟨2, 1, [("res", 1)], none⟩
def DROP : Suffix := one 3 "drop"

/-- Fixed bits beside the opcode. -/
def Form.with (f : Form) (n : Nat) : Form := { f with bits := f.bits + n }

/-- The matrix engine, life, waits and k registers (R114 to R117, R198, R292, R297, R300). -/
def matrixForms : List Form :=
  [(lf "MMA" 0xA0 [one 0 "reuse"] (tagRows ++ [.word "latch", c])).with (0xFF * 2 ^ 56),
   lf "MMA" 0xA0 [one 0 "reuse"] (tagRows ++ [.vrow 56 54, c]),
   lf "MDRAIN" 0xA1 [T, RND, SAT, CLR, DROP] (.vdst :: tagRows),
   lf "MDRAIN" 0xA1 [T, RND, SAT, CLR, RES, DROP] (.vdst :: tagRows ++ [va]),
   lf "MDRSP" 0xA2 [T, RND, SAT, CLR, DROP] (.cbase :: tagRows),
   lf "MDRSP" 0xA2 [T, RND, SAT, CLR, RES, DROP] (.cbase :: tagRows ++ [va]),
   lf "MZERO" 0xA3 [] tagRows,
   (lf "VLIFE" 0xB0 [⟨0, 2, count ["dead", "rest", "live"] 0, none⟩] [.vdst, .nat 64 32 0]).with (2 ^ 32), lf "VNOP" 0xB1 [] [],
   (lf "VWAITC" 0xB2 [] [.nat 64 8 0, .nat 72 8 0, .nat 80 8 0, .nat 88 8 0, .nat 16 8 0]).with (2 ^ 32),
   (lf "KPOP" 0xB3 [] [.kreg 16]).with (2 ^ 32), lf "KPOP" 0xB3 [] [.kreg 16, .csrc .s32],
   lf "KFROM" 0xB4 [one 0 "sx", one 1 "pair"] [.kreg 16, c]]

/-- Every written form. Where words fit two forms, gsxd prints the earlier. -/
def forms : List Form :=
  aluForms ++ immForms ++ ctlForms ++ memForms ++ engineForms ++ privForms ++ intForms ++ floatForms ++ convForms ++ predForms ++
  pathForms ++ laneMemForms ++ matrixForms

/-! ## Special registers by name (R23 and the special register tables) -/

def numbered (name : String) (n first step : Nat) : List (String × Nat) :=
  (List.range n).map fun i => (name ++ String.ofList (decText i), first + step * i)

def specialNames : List (String × Nat) :=
  count ["GID", "TID", "GANG", "GRID", "CORE", "NGRP", "NTEAM", "GXYZ"] 0x000 ++ [("TIME", 0x010), ("CYCLE", 0x011),
    ("FLAGS", 0x020), ("FMASK", 0x021)] ++ numbered "DONE" 4 0x030 1 ++ [("SPST0", 0x040), ("SPST1", 0x041), ("MXST", 0x050),
    ("MXTAGS", 0x051)] ++ count ["FVEC", "HSTAT", "PCORE", "HLBASE"] 0x100 ++ count ["MBOXO", "MBOXI", "WORLD"] 0x110 ++
  [("VLOGC", 0x140)] ++ numbered "VLOGA" 8 0x150 2 ++ numbered "VLOGI" 8 0x151 2 ++
  count ["PTROOT", "FRQB", "FRQH", "FRQT", "FTPB", "FTPN"] 0x170 ++ numbered "TAGE" 16 0x180 1 ++ numbered "TAGR" 16 0x190 1 ++
  [("MXCAD", 0x1A0), ("PTHR", 0x1A1)] ++ count ["CTXSEL", "PREQ", "PGRACE", "PSTRIKE"] 0x1B0 ++ [("TMIG", 0x1B8), ("PCAP", 0x1C0)] ++
  numbered "PFLOOR" 4 0x1C1 1 ++ count ["PWR", "GUARD", "DOMSEL", "DOMST", "ERRLB", "ERRLT"] 0x1C5 ++ numbered "STEPE" 16 0x1D0 1 ++
  count ["THSEL", "THST", "MEVB", "MEVT", "TRDROP"] 0x1E0

/-! ## Registers (R45, R67, R308) -/

/-- The number of a register name of a prefix, below a limit; case does not count. -/
def regNo (pre : String) (limit : Nat) (t : Text) : Option Nat := do
  let u := uppers t
  let p := uppers pre.toList
  let ds := u.drop p.length
  if u.take p.length != p || ds.any (!isDigit ·) || (ds.head? == some '0' && ds.length != 1) then none
  else
    let n ← digits 10 ds
    if n < limit then some n else none

/-- The field of a scalar register. -/
def sregField (t : Text) : Option Nat :=
  if uppers t == ['S', 'Z'] then some 127
  else (regNo "s" 96 t).orElse fun _ => (regNo "hs" 16 t).map (96 + ·)

/-- The field of a vector register. -/
def vregField (t : Text) : Option Nat := (regNo "v" 256 t).orElse fun _ => (regNo "hv" 8 t).map (248 + ·)

/-- Register names are reserved (R67). -/
def reservedName (t : Text) : Bool :=
  (sregField t).isSome || (vregField t).isSome || [("p", 8), ("k", 16), ("a", 16), ("t", 16), ("w", 8)].any fun x =>
    (regNo x.1 x.2 t).isSome

/-- A scalar register's name. -/
def sregText (n : Nat) : Text :=
  if n < 96 then 's' :: decText n else if n < 112 then 'h' :: 's' :: decText (n - 96) else ['s', 'z']

/-! ## Fields -/

/-- A field of the words. -/
def field (ws lo width : Nat) : Nat := ws / 2 ^ lo % 2 ^ width

/-- Fields as set bits: (value, place). -/
def bitsOf (xs : List (Nat × Nat)) : Nat := xs.foldl (fun n x => n ||| x.1 * 2 ^ x.2) 0

/-- A signed number in a field of so many bits. -/
def signedIn (width n : Nat) : Int := if 2 ^ (width - 1) ≤ n then (n : Int) - 2 ^ width else n

/-- The element type that the words name; code 0 where none stands (R62). -/
def typeOf (ws : Nat) : ElemType := (ElemType.ofCode (field ws 8 4)).getD .s32

/-- The type in which an immediate c is read (R69). -/
def ImmAs.elem (as : ImmAs) (ws : Nat) : ElemType :=
  match as with
  | .type => typeOf ws
  | .f32 => .f32
  | .s32 => .s32
  | .n32 => .n32
  | .scale => if typeOf ws == .f32 then .s32 else .s16x2

/-! ## Operands read (R64, R69) -/

/-- A life mark after a vector register (R17). -/
def lifeOf (ts : List Tok) : Option Nat :=
  match ts with
  | [] => some 0
  | [.sym '!'] => some 1
  | [.sym '~'] => some 2
  | _ => none

/-- A vector source: its field and life code. -/
def readVec (ts : List Tok) : Option (Nat × Nat) :=
  match ts with
  | .name t :: rest => do some (← vregField t, ← lifeOf rest)
  | _ => none

/-- What stands between brackets. -/
def bracketed (ts : List Tok) : Option (List Tok) :=
  match ts with
  | .sym '[' :: rest => if rest.getLast? == some (.sym ']') then some rest.dropLast else none
  | _ => none

/-- A displacement after a base: nothing, or a sum with its sign. -/
def readDisp (env : Env) (lo hi : Int) (ts : List Tok) : Option Int :=
  match ts with
  | [] => some 0
  | .sym '+' :: rest => env.exprIn lo hi rest
  | .sym '-' :: _ => env.exprIn lo hi ts
  | _ => none

/-- Source c by kind (R59). -/
def readC (env : Env) (as : ElemType) (ts : List Tok) : Option Nat :=
  match ts with
  | .sym '#' :: rest => (env.lane as rest).map fun v => bitsOf [(1, 32), (v, 64)]
  | [.name ['d', 'q']] | [.name ['D', 'Q']] => some (2 * 2 ^ 32)
  | _ =>
    match ts with
    | [.name t] =>
      match regNo "k" 16 t with
      | some n => some (bitsOf [(3, 32), (n, 36)])
      | none => (vregField t).map fun n => n * 2 ^ 36
    | _ => (readVec ts).map fun x => bitsOf [(x.1, 36), (x.2, 34)]

/-- The tokens of a memory operand before its index, and from the index on. -/
def splitIndex (ts : List Tok) : List Tok × Option (List Tok) :=
  match ts with
  | [] => ([], none)
  | .sym '+' :: .name t :: rest =>
    if (vregField t).isSome then ([], some (.name t :: rest))
    else let r := splitIndex (.name t :: rest); (.sym '+' :: r.1, r.2)
  | t :: rest => let r := splitIndex rest; (t :: r.1, r.2)

/-- An index register, its life mark and its scale, and what follows. -/
def readIndex (ts : List Tok) : Option (Nat × List Tok) := do
  match ts with
  | .name t :: rest =>
    let n ← vregField t
    let (life, rest) := match rest with
      | .sym '!' :: r => (1, r)
      | .sym '~' :: r => (2, r)
      | r => (0, r)
    let idx := bitsOf [(n, 56), (life, 54), (4, 0)]
    match rest with
    | .sym '*' :: .int k _ :: r =>
      if k == 1 then some (idx, r) else if k == 2 then some (idx ||| 1, r) else if k == 4 then some (idx ||| 2, r)
      else if k == 8 then some (idx ||| 3, r) else none
    | .sym '*' :: _ => none
    | r => some (idx, r)
  | _ => none

/-- The memory operand of R64, or that of R120 without an index: exactly one base, and a displacement beside a k register or
a dq pop. -/
def readMem (env : Env) (index : Bool) (ts : List Tok) : Option Nat := do
  let (head, tail) := splitIndex (← bracketed ts)
  let (idx, rest) ← match tail with
    | some t => if index then readIndex t else none
    | none => some (0, [])
  match head with
  | .sym '#' :: e => if rest.isEmpty then do some (bitsOf [(1, 32), ((← env.exprIn 0 (2 ^ 32 - 1) e).toNat, 64)] ||| idx) else none
  | .name t :: e =>
    let base ← if uppers t == ['D', 'Q'] then some (2 * 2 ^ 32) else (regNo "k" 16 t).map fun n => bitsOf [(3, 32), (n, 36)]
    let disp ← if tail.isSome then (if e.isEmpty then readDisp env (-(2 ^ 31)) (2 ^ 31 - 1) rest else none)
      else readDisp env (-(2 ^ 31)) (2 ^ 31 - 1) e
    some (base ||| idx ||| wrapInt 32 disp * 2 ^ 64)
  | _ => none

/-- An immediate within a range. -/
def readImm (env : Env) (lo hi : Int) (ts : List Tok) : Option Int :=
  match ts with
  | .sym '#' :: rest => env.exprIn lo hi rest
  | _ => none

/-- A register in brackets, with what follows it. -/
def readBase (ts : List Tok) : Option (Nat × List Tok) := do
  match ← bracketed ts with
  | .name t :: rest => some (← sregField t, rest)
  | _ => none

/-- A predicate, negated where it may be. -/
def readPred (neg : Bool) (ts : List Tok) : Option Nat :=
  match ts with
  | [.name t] => regNo "p" 8 t
  | [.sym '!', .name t] => if neg then (regNo "p" 8 t).map (8 + ·) else none
  | _ => none

/-- A register of a file. -/
def readReg (pre : String) (limit : Nat) (ts : List Tok) : Option Nat :=
  match ts with
  | [.name t] => regNo pre limit t
  | _ => none

/-- A scalar register. -/
def readSreg (ts : List Tok) : Option Nat :=
  match ts with
  | [.name t] => sregField t
  | _ => none

/-- A displacement of a target from its instruction in units, in a signed field. -/
def readTarget (env : Env) (unit width : Nat) (pc : Word) (ts : List Tok) : Option Nat := do
  let v ← env.expr ts
  let d := (v - pc).toInt
  if !env.final then some 0
  else if d % unit == 0 && -(2 ^ (width - 1)) ≤ d / unit && d / unit < 2 ^ (width - 1) then some (wrapInt width (d / unit)) else none

def counters : List (String × Nat) := count ["ld", "st", "cp", "mx", "rs"] 0

/-- A name among spellings; case does not count. -/
def lookupName (xs : List (String × Nat)) (t : Text) : Option Nat :=
  (xs.find? fun x => uppers x.1.toList == uppers t).map Prod.snd

/-- The bits of an operand, in an instruction at a place, beside the bits of its suffixes. -/
def Opnd.read (env : Env) (pc : Word) (ws : Nat) (o : Opnd) (ts : List Tok) : Option Nat :=
  match o with
  | .sreg lo => (readSreg ts).map (· * 2 ^ lo)
  | .sregNoZ lo => (readSreg ts).bind fun n => if n == 127 then none else some (n * 2 ^ lo)
  | .sbase lo => do
    match ← readBase ts with
    | (n, []) => some (n * 2 ^ lo)
    | _ => none
  | .smem lo dlo width => do
    let (n, rest) ← readBase ts
    let disp ← readDisp env (-(2 ^ (width - 1))) (2 ^ (width - 1) - 1) rest
    some (bitsOf [(n, lo), (wrapInt width disp, dlo)])
  | .vdst => do
    match ts with
    | [.name t] => some ((← vregField t) * 2 ^ 16)
    | _ => none
  | .vsrc lo llo => (readVec ts).map fun x => bitsOf [(x.1, lo), (x.2, llo)]
  | .vrow lo llo => (readVec ts).bind fun x => if x.1 == 255 then none else some (bitsOf [(x.1, lo), (x.2, llo)])
  | .pred lo => (readPred false ts).map (· * 2 ^ lo)
  | .predNeg lo => (readPred true ts).map (· * 2 ^ lo)
  | .kreg lo => (readReg "k" 16 ts).map (· * 2 ^ lo)
  | .csrc as => readC env (as.elem ws) ts
  | .cbase => do readC env .s32 (← bracketed ts)
  | .lmem => readMem env true ts
  | .bmem => readMem env false ts
  | .tag lo => (readReg "t" 16 ts).map (· * 2 ^ lo)
  | .nat lo width off => (readImm env off (2 ^ width - 1 + off) ts).map fun v => (v.toNat - off) * 2 ^ lo
  | .int lo width => (readImm env (-(2 ^ (width - 1))) (2 ^ (width - 1) - 1) ts).map fun v => wrapInt width v * 2 ^ lo
  | .raw lo => (readImm env (-(2 ^ 31)) (2 ^ 32 - 1) ts).map fun v => wrapInt 32 v * 2 ^ lo
  | .li => (readImm env (-(2 ^ 31)) (2 ^ 31 - 1) ts).map fun v => wrapInt 32 v * 2 ^ 32
  | .starget lo width => (readTarget env 4 width pc ts).map (· * 2 ^ lo)
  | .ltarget lo => do
    let _ ← env.exprIn 0 524286 ts
    (readTarget env 3 16 pc ts).map (· * 2 ^ lo)
  | .block => (env.exprIn 0 524286 ts).map Int.toNat
  | .special =>
    match ts with
    | [.name t] => lookupName specialNames t
    | _ => (readImm env 0 0xFFF ts).map Int.toNat
  | .counter lo =>
    match ts with
    | [.name t] => (lookupName counters t).map (· * 2 ^ lo)
    | _ => none
  | .word t =>
    match ts with
    | [.name u] => if uppers u == uppers t.toList then some 0 else none
    | _ => none

/-- The bits of the suffixes, which stand in the order of the form. -/
def readSuffixes : List Suffix → List Text → Option Nat
  | [], [] => some 0
  | [], _ :: _ => none
  | s :: ss, ps =>
    let here := match ps with
      | p :: rest => (lookupName s.opts p).map fun v => (v, rest)
      | [] => none
    match here with
    | some (v, rest) => (readSuffixes ss rest).map (v * 2 ^ s.lo ||| ·)
    | none => s.dflt.bind fun v => (readSuffixes ss ps).map (v * 2 ^ s.lo ||| ·)

/-- The parts of a mnemonic that remain after those of a form. -/
def afterName : List String → List Text → Option (List Text)
  | [], ps => some ps
  | n :: ns, p :: ps => if uppers n.toList == uppers p then afterName ns ps else none
  | _ :: _, [] => none

/-- The bits of the operands in order. -/
def readOperands (env : Env) (pc : Word) (ws : Nat) : List Opnd → List (List Tok) → Option Nat
  | [], [] => some ws
  | o :: os, t :: ts => do readOperands env pc (ws ||| (← o.read env pc ws t)) os ts
  | _, _ => none

/-- The words of a statement in a form, with the bits of its guard. -/
def Form.read (env : Env) (pc : Word) (f : Form) (guard : Nat) (parts : List Text) (ops : List (List Tok)) : Option Nat := do
  let sufs ← readSuffixes f.sufs (← afterName f.name parts)
  readOperands env pc (f.bits ||| guard ||| sufs) f.ops ops

/-! ## Operands printed (R72) -/

def lifeText (n : Nat) : Text := if n == 1 then ['!'] else if n == 2 then ['~'] else []
def vecText (n life : Nat) : Text := 'v' :: decText n ++ lifeText life

/-- A displacement after a base. -/
def dispText (i : Int) : Text := if i == 0 then [] else if i < 0 then intText i else '+' :: intText i

/-- An immediate c: an integer in decimal where it is copied into every element, any other value as the lane value. -/
def immText (t : ElemType) (v : Nat) : Text :=
  let x := v % 2 ^ t.width
  if t.isInt && packElems t.width (List.replicate t.count x) == v then '#' :: intText (intOf t.signed t.width x)
  else '#' :: hexText 8 v

/-- Source c. -/
def cText (t : ElemType) (ws : Nat) : Text :=
  match field ws 32 2 with
  | 0 => vecText (field ws 36 8) (field ws 34 2)
  | 1 => immText t (field ws 64 32)
  | 2 => ['d', 'q']
  | _ => 'k' :: decText (field ws 36 4)

/-- The memory operand of R64 or R120. -/
def memText (index : Bool) (ws : Nat) : Text :=
  let base := if field ws 32 2 == 1 then '#' :: hexText 0 (field ws 64 32) else cText .n32 ws
  let idx := if index && field ws 2 1 == 1 then
      " + ".toList ++ vecText (field ws 56 8) (field ws 54 2) ++ if field ws 0 2 == 0 then [] else '*' :: decText (2 ^ field ws 0 2)
    else []
  let i := signedIn 32 (field ws 64 32)
  let disp := if field ws 32 2 == 1 || i == 0 then [] else (if i < 0 then " - ".toList else " + ".toList) ++ decText i.natAbs
  '[' :: base ++ idx ++ disp ++ [']']

/-- The text of an operand of an instruction at a place; none where the form does not fit the words. -/
def Opnd.text (pc : Word) (ws : Nat) (o : Opnd) : Option Text :=
  match o with
  | .sreg lo => some (sregText (field ws lo 7))
  | .sregNoZ lo => if field ws lo 7 == 127 then none else some (sregText (field ws lo 7))
  | .sbase lo => some ('[' :: sregText (field ws lo 7) ++ [']'])
  | .smem lo dlo width => some ('[' :: sregText (field ws lo 7) ++ dispText (signedIn width (field ws dlo width)) ++ [']'])
  | .vdst => some (vecText (field ws 16 8) 0)
  | .vsrc lo llo => some (vecText (field ws lo 8) (field ws llo 2))
  | .vrow lo llo => some (vecText (field ws lo 8) (field ws llo 2))
  | .pred lo => some ('p' :: decText (field ws lo 3))
  | .predNeg lo => some ((if field ws (lo + 3) 1 == 1 then ['!'] else []) ++ 'p' :: decText (field ws lo 3))
  | .kreg lo => some ('k' :: decText (field ws lo 4))
  | .csrc as => some (cText (as.elem ws) ws)
  | .cbase => some ('[' :: cText .n32 ws ++ [']'])
  | .lmem => if field ws 0 3 == 0 || field ws 2 1 == 1 then some (memText true ws) else none
  | .bmem => some (memText false ws)
  | .tag lo => some ('t' :: decText (field ws lo 4))
  | .nat lo width off => some ('#' :: decText (field ws lo width + off))
  | .int lo width => some ('#' :: intText (signedIn width (field ws lo width)))
  | .raw lo => some ('#' :: hexText 8 (field ws lo 32))
  | .li => some ('#' :: intText (signedIn 32 (field ws 32 32)))
  | .starget lo width => some (hexText 1 (pc + BitVec.ofInt 64 (4 * signedIn width (field ws lo width))).toNat)
  | .ltarget lo =>
    let i : Int := pc.toNat + 3 * signedIn 16 (field ws lo 16)
    if 0 ≤ i && i ≤ 524286 && i % 3 == 0 then some (decText i.toNat) else none
  | .block => some (decText (field ws 0 19))
  | .special =>
    match specialNames.find? fun x => x.2 == field ws 0 12 with
    | some x => some x.1.toList
    | none => some ('#' :: hexText 3 (field ws 0 12))
  | .counter lo => (counters.find? fun x => x.2 == field ws lo 7).map fun x => x.1.toList
  | .word t => some t.toList

/-- The vector registers that an operand names; the first A register of an MMA that reads the latch is none. -/
def Opnd.vregs (ws : Nat) : Opnd → List Nat
  | .vdst => [field ws 16 8]
  | .vsrc lo _ | .vrow lo _ => [field ws lo 8]
  | .csrc _ | .cbase | .bmem => if field ws 32 2 == 0 then [field ws 36 8] else []
  | .lmem => (if field ws 32 2 == 0 then [field ws 36 8] else []) ++ if field ws 2 1 == 1 then [field ws 56 8] else []
  | _ => []

/-- The fields that an operand owns: (place, width). -/
def Opnd.owns : Opnd → List (Nat × Nat)
  | .sreg lo | .sregNoZ lo | .sbase lo | .counter lo => [(lo, 7)]
  | .smem lo dlo width => [(lo, 7), (dlo, width)]
  | .vdst => [(16, 8)]
  | .vsrc lo llo | .vrow lo llo => [(lo, 8), (llo, 2)]
  | .pred lo => [(lo, 3)]
  | .predNeg lo | .kreg lo | .tag lo => [(lo, 4)]
  | .csrc _ | .cbase => [(32, 12), (64, 32)]
  | .lmem => [(0, 3), (32, 12), (54, 10), (64, 32)]
  | .bmem => [(32, 12), (64, 32)]
  | .nat lo width _ | .int lo width | .starget lo width => [(lo, width)]
  | .raw lo => [(lo, 32)]
  | .li => [(32, 32)]
  | .ltarget lo => [(lo, 16)]
  | .block => [(0, 19)]
  | .special => [(0, 12)]
  | .word _ => []

/-- The bits that operands, suffixes and the guard of a form own. -/
def Form.owned (f : Form) : Nat :=
  let places : List (Nat × Nat) :=
    (if f.lane then [(12, 4)] else []) ++ f.sufs.map (fun (s : Suffix) => (s.lo, s.width)) ++ f.ops.flatMap Opnd.owns
  bitsOf (places.map fun x => (2 ^ x.2 - 1, x.1))

/-- The suffixes as printed; a suffix at the code it has when left out is left out. Order and scope of an access are printed
together or not at all. -/
def suffixText (ws : Nat) (both : Bool) (s : Suffix) : Option Text :=
  let v := field ws s.lo s.width
  if s.dflt == some v && !(both && (s.lo == 35 || (s.lo == 32 && s.width == 3))) then some []
  else (s.opts.find? fun x => x.2 == v).map fun x => '.' :: x.1.toList

/-- An access prints its order and scope where either is not the one it has when left out. -/
def orderShown (f : Form) (ws : Nat) : Bool := f.sufs.any (fun s => s.lo == 35) && (field ws 35 2 != 0 || field ws 32 3 != 0)

/-- Texts joined by a separator. -/
def joined (sep : Text) : List Text → Text
  | [] => []
  | [t] => t
  | t :: ts => t ++ sep ++ joined sep ts

/-- The guard as printed (R69). -/
def guardText (ws : Nat) : Text :=
  if field ws 12 4 == 0 then [] else '(' :: (if field ws 12 1 == 1 then ['!'] else []) ++ 'p' :: decText (field ws 13 3) ++ [')', ' ']

/-- The line of words that have a form. -/
def Form.text (pc : Word) (ws : Nat) (f : Form) : Option Text := do
  if (ws ||| f.owned) != (f.bits ||| f.owned) then none
  else
    let sufs ← f.sufs.mapM (suffixText ws (orderShown f ws))
    let ops ← f.ops.mapM (Opnd.text pc ws)
    some ((if f.lane then guardText ws else []) ++ joined ['.'] (f.name.map String.toList) ++ sufs.flatten ++
      (if ops.isEmpty then [] else ' ' :: joined [',', ' '] ops))

end Sys2Proof.Gsxa
end

