-- ==== Sys2Proof/Machine/Gsxa.lean ====
section
/-! DEFINITION. gsxa, the assembler (R67 to R71, R139): lines, sections, directives and statements, the passes that settle
label values, and the joins it computes. A source that it rejects has no output. Log 120, 121, 122. -/

namespace Sys2Proof.Gsxa

open Sys2Proof.Machine

/-- The three sections (R70). -/
inductive Sec | s | l | d
  deriving DecidableEq, Repr

/-- What the launch directives have set (R70). -/
structure Dims where
  gx     : Nat
  gy     : Nat
  gz     : Nat
  teams  : Nat
  groups : Nat
  regs   : Nat
  sp     : Nat
  bars   : Nat
  tags   : Nat
  deriving DecidableEq, Repr

/-- The assembler within a pass: the labels of the pass before, whether this is the last pass, where the S-code and data sections
will stand, the labels so far, the section, the sections' bytes, last byte first, the data bytes since the latest L-stream
instruction, the first S-stream instruction, the vector registers that its statements need, the launch values, the blocks, and the
BDIVs whose join is to be computed. -/
structure Asm where
  old    : List (Text × Word)
  final  : Bool
  sbase  : Word
  dbase  : Word
  labels : List (Text × Word)
  sec    : Option Sec
  s      : List Byte
  l      : List Byte
  d      : List Byte
  loose  : Option Nat
  first  : Option Nat
  top    : Nat
  dims   : Dims
  blocks : List Nat
  joins  : List Nat

def Dims.none : Dims := ⟨0, 0, 0, 0, 0, 0, 0, 0, 0⟩

/-- The start of a pass. -/
def Asm.start (old : List (Text × Word)) (final : Bool) (sbase dbase : Word) : Asm :=
  ⟨old, final, sbase, dbase, [], none, [], [], [], none, none, 0, Dims.none, [], []⟩

/-- The value of a label or .equ name; while values are being settled a name not yet met is 0. -/
def Asm.env (x : Asm) : Env where
  value t := match x.labels.lookup t, x.old.lookup t with
    | some v, _ => some v
    | none, some v => some v
    | none, none => if x.final then none else some 0
  final := x.final

/-- The size of the section so far. -/
def Asm.size (x : Asm) : Nat :=
  match x.sec with
  | some .s => x.s.length | some .l => x.l.length | some .d => x.d.length | none => 0

/-- The value of a label at the current position: an S-code or data label is an address, an L-code label a word offset
(R66). -/
def Asm.here (x : Asm) : Option Word :=
  match x.sec with
  | some .s => some (x.sbase + BitVec.ofNat 64 x.s.length)
  | some .l => if x.l.length % 4 == 0 then some (BitVec.ofNat 64 (x.l.length / 4)) else none
  | some .d => some (x.dbase + BitVec.ofNat 64 x.d.length)
  | none => none

/-- Define a name; a register name, or a name defined before, rejects the source (R67, R71). -/
def Asm.define (x : Asm) (t : Text) (v : Word) : Option Asm :=
  if reservedName t || (x.labels.lookup t).isSome then none else some { x with labels := (t, v) :: x.labels }

/-- Append bytes to the section. -/
def Asm.emit (x : Asm) (bs : List Byte) : Option Asm :=
  match x.sec with
  | some .s => some { x with s := bs.reverse ++ x.s }
  | some .l => some { x with l := bs.reverse ++ x.l }
  | some .d => some { x with d := bs.reverse ++ x.d }
  | none => none

/-- Data bytes; in L-code they count toward the whole instructions that must stand between statements (R68). -/
def Asm.data (x : Asm) (bs : List Byte) : Option Asm := do
  let y ← x.emit bs
  some (if x.sec == some .l then { y with loose := y.loose.map (· + bs.length) } else y)

/-- The data bytes between two L-stream statements, or to the end, total a multiple of 12 (R68). -/
def Asm.whole (x : Asm) : Bool := (x.loose.getD 0) % 12 == 0

/-! ## Statements (R68, R69) -/

def partsOf (t : Text) : List Text :=
  t.foldr (fun c acc => match acc with
    | p :: ps => if c == '.' then [] :: p :: ps else (c :: p) :: ps
    | [] => [[c]]) [[]]

/-- A range of n registers is empty, or reaches past v255 (R116, R120, R298). -/
def pastEnd (r : BitVec 8) (n : Nat) : Bool := n == 0 || 256 < r.toNat + n

/-- The register ranges of an instruction whose length its encoding gives (R116, R120, R298). -/
def ranges : Instr → List (BitVec 8 × Nat)
  | .vldblk o => [(o.vd, 2 ^ modField o 0 2)]
  | .vstblk o => [(o.b.r, 2 ^ modField o 0 2)]
  | .vlife o => [(o.vd, o.w2.toNat)]
  | .mdrain o => (o.vd, mxM o) :: if o.mods.getLsbD 2 then [(o.a.r, mxM o)] else []
  | .mdrsp o => if o.mods.getLsbD 2 then [(o.a.r, mxM o)] else []
  | _ => []

/-- A decoded instruction that can never execute, whatever its group holds: a register range past v255, bank rows past 31, or a
special register number that is not listed (R23). -/
def neverRuns (i : Instr) : Bool :=
  (ranges i).any (fun x => pastEnd x.1 x.2) ||
    match i with
    | .rdsr _ n | .wrsr _ n => (srLevels n.toNat).isNone
    | .mma o | .mzero o | .mdrain o | .mdrsp o => 32 < mxRb o + mxM o
    | _ => false

/-- How many registers a group needs for the vector registers of an instruction to be allocated, those apart that handler mode
may name (R10, R308). -/
def regsNeeded (vs : List Nat) (d : Decoded) : Nat :=
  let rs := match d with
    | .instr i => (ranges i).flatMap fun x => (List.range x.2).map (x.1.toNat + ·)
    | .reject _ => []
  ((vs ++ rs).filter (· < 248)).foldl (fun n r => max n (r + 1)) 0

/-- A decoded word that an instruction statement may assemble to. -/
def mayRun : Decoded → Bool
  | .reject _ => false
  | .instr i => !neverRuns i

/-- The words of an S-stream statement; none that would fault ILLEGAL. -/
def sStatement (env : Env) (pc : Word) (parts : List Text) (ops : List (List Tok)) : Option (List Word32) :=
  (forms.filter fun f => !f.lane).findSome? fun f => do
    let ws ← f.read env pc 0 parts ops
    let w0 := BitVec.ofNat 32 ws
    let w1 := BitVec.ofNat 32 (ws / 2 ^ 32)
    if env.final && !mayRun (decodeS w0 w1) then none else some (if sWords w0 == 2 then [w0, w1] else [w0])

/-- The words of LI with a value that is not the sign extension of its low word: the pair LI and LI.HI (R69). -/
def wideLi (env : Env) (parts : List Text) (ops : List (List Tok)) : Option (List Word32) :=
  match parts, ops with
  | [n], [r, .sym '#' :: e] => do
    if uppers n != ['L', 'I'] then none
    else
      let v ← env.expr e
      let reg ← readSreg r
      if (v.setWidth 32).signExtend 64 == v then none
      else some (encode (.li (BitVec.ofNat 7 reg) (v.setWidth 32)) ++ encode (.liHi (BitVec.ofNat 7 reg) (v.extractLsb' 32 32)))
  | _, _ => none

/-- The words of an L-stream statement, and the registers it needs. -/
def lStatement (env : Env) (own : Word) (guard : Nat) (parts : List Text) (ops : List (List Tok)) : Option (List Word32 × Nat) :=
  (forms.filter Form.lane).findSome? fun f => do
    let ws ← f.read env own guard parts ops
    let w0 := BitVec.ofNat 32 ws
    let w1 := BitVec.ofNat 32 (ws / 2 ^ 32)
    let w2 := BitVec.ofNat 32 (ws / 2 ^ 64)
    let i := decodeL w0 w1 w2
    if env.final && !mayRun i then none else some ([w0, w1, w2], regsNeeded (f.ops.flatMap (Opnd.vregs ws)) i)

def wordBytes (ws : List Word32) : List Byte := ws.flatMap fun w => leBytes 4 w.toNat

/-- A guard before a statement: its bits, and the rest. -/
def readGuard (t : Text) : Option (Option Nat × Text) :=
  match t with
  | '(' :: r => do
    let n ← readPred true (← lex r.length (r.takeWhile (· != ')')))
    some (some (n % 8 * 2 ^ 13 + n / 8 * 2 ^ 12), trimLeft ((r.dropWhile (· != ')')).drop 1))
  | _ => some (none, t)

/-- A statement in the section it belongs to. -/
def Asm.statement (x : Asm) (t : Text) : Option Asm := do
  let (guard, t) ← readGuard t
  let head := t.takeWhile fun c => !isSpace c
  let rest := t.drop head.length
  let ops := operands (← lex rest.length rest)
  let parts := partsOf head
  let pc ← x.here
  match x.sec with
  | some .s =>
    if guard.isSome then none
    else
      let ws ← (wideLi x.env parts ops).orElse fun _ => sStatement x.env pc parts ops
      let y ← x.emit (wordBytes ws)
      some { y with first := some (y.first.getD x.s.length) }
  | some .l =>
    let short := parts.map uppers == ["BDIV".toList] && ops.length == 2
    let ops := if short then ops ++ [[.int pc.toNat false]] else ops
    let (ws, n) ← lStatement x.env pc (guard.getD 0) parts ops
    if !x.whole then none
    else
      let y ← x.emit (wordBytes ws)
      some { y with top := max y.top n, loose := some 0, joins := if short then pc.toNat :: y.joins else y.joins }
  | _ => none

/-! ## Directives (R70, R71) -/

/-- Values that a directive lists, each within a range. -/
def Asm.values (x : Asm) (lo hi : Int) (ops : List (List Tok)) : Option (List Int) := ops.mapM (x.env.exprIn lo hi)

/-- Bytes of a list of values of a width. -/
def intBytes (n : Nat) (vs : List Int) : List Byte := vs.flatMap fun v => leBytes n (wrapInt (8 * n) v)

/-- Padding to a multiple: zero bytes, or VNOP in L-code; NOP is a zero word. -/
def Asm.align (x : Asm) (n : Nat) : Option Asm :=
  let pad := (n - x.size % n) % n
  if n == 0 then none
  else if x.sec == some .l then
    if n % 12 == 0 && pad % 12 == 0 && x.whole then
      x.emit (List.replicate (pad / 12) (wordBytes [0xB1000000, 0, 0])).flatten
    else none
  else if 2 ^ Nat.log2 n == n then x.emit (List.replicate pad 0)
  else none

/-- The values of a launch directive, when they are allowed. -/
def Dims.set (g : Dims) (name : Text) (vs : List Int) : Option Dims :=
  let ns := vs.map Int.toNat
  if name == "GRID".toList then
    match ns with
    | [p, q, r] => if 1 ≤ p && 1 ≤ q && 1 ≤ r && p * q * r ≤ 2 ^ 20 then some { g with gx := p, gy := q, gz := r } else none
    | _ => none
  else if name == "SHAPE".toList then
    match ns with
    | [p, q] => if 1 ≤ p && p ≤ 4 && 1 ≤ q && q ≤ 16 then some { g with teams := p, groups := q } else none
    | _ => none
  else
    match ns with
    | [p] =>
      if name == "REGS".toList then if [8, 16, 32, 64, 128, 256].contains p then some { g with regs := p } else none
      else if name == "SP".toList then if p % 8192 == 0 && p ≤ 393216 then some { g with sp := p } else none
      else if name == "BARS".toList then if p ≤ 32 then some { g with bars := p } else none
      else if name == "TAGS".toList then if p ≤ 16 then some { g with tags := p } else none
      else none
    | _ => none

/-- The bytes of a tensor record from its 13 values (R258). -/
def Asm.tensor (x : Asm) (ops : List (List Tok)) : Option (List Byte) := do
  if ops.length != 13 then none
  else
    let head ← x.values 0 255 (ops.take 3)
    let dims ← x.values 0 (2 ^ 32 - 1) ((ops.drop 3).take 4)
    let strides ← x.values (-(2 ^ 31)) (2 ^ 31 - 1) (ops.drop 7)
    some (intBytes 1 head ++ List.replicate 5 0 ++ intBytes 4 dims ++ intBytes 4 strides ++ List.replicate 16 0)

/-- The bytes of a format block from its 5 values (R70). -/
def Asm.fmt (x : Asm) (ops : List (List Tok)) : Option (List Byte) := do
  if ops.length != 5 then none
  else
    let head ← x.values 0 255 (ops.take 3)
    let scales ← x.values 0 (2 ^ 32 - 1) (ops.drop 3)
    some (intBytes 1 head ++ [0] ++ intBytes 4 scales ++ List.replicate 4 0)

/-- The bytes of a callee table: entry, weight and argument of one to eight callees (R156). -/
def Asm.callees (x : Asm) : List (List Tok) → Option (List Byte)
  | [] => some []
  | e :: w :: g :: rest => do
    let e ← x.env.expr e
    let w ← x.env.exprIn 0 255 w
    let g ← x.env.exprIn (-(2 ^ 31)) (2 ^ 32 - 1) g
    some (leBytes 8 e.toNat ++ intBytes 4 [g] ++ intBytes 1 [w] ++ List.replicate 3 0 ++ (← x.callees rest))
  | _ => none

/-- A directive that emits a named record: aligned, with its name and any other label at its first byte (R71). -/
def Asm.record (x : Asm) (align : Nat) (label : Option Text) (ops : List (List Tok))
    (bytes : Asm → List (List Tok) → Option (List Byte)) : Option Asm :=
  match ops with
  | [.name n] :: rest => do
    if x.sec != some .d then none
    else
      let x ← x.align align
      let v ← x.here
      let x ← match label with
        | some t => if t == n then some x else x.define t v
        | none => some x
      let x ← x.define n v
      x.emit (← bytes x rest)
  | _ => none

/-- A data directive of integers or of floats: its width, and its format. -/
def dataWidth (name : Text) : Option (Nat × Option ElemType) :=
  if name == "BYTE".toList then some (1, none) else if name == "HALF".toList then some (2, none)
  else if name == "WORD".toList then some (4, none) else if name == "DWORD".toList then some (8, none)
  else if name == "F32".toList then some (4, some .f32) else if name == "BF16".toList then some (2, some .bf16x2)
  else if name == "E4M3".toList then some (1, some .e4m3x4)
  else none

/-- A float of a data directive: a .bf16 or .e4m3 literal that overflows is rejected (R71). -/
def Asm.floatDatum (x : Asm) (n : Nat) (t : ElemType) (ts : List Tok) : Option (List Byte) := do
  let r := floatBits t (← x.env.float ts)
  if r.2 && t != .f32 then none else some (leBytes n r.1)

/-- A directive, without its full stop, with the label before it on the line. -/
def Asm.directive (x : Asm) (name : Text) (label : Option Text) (ops : List (List Tok)) : Option Asm :=
  if name == "TENSOR".toList then x.record 64 label ops Asm.tensor
  else if name == "FMT".toList then x.record 16 label ops Asm.fmt
  else if name == "CALLEES".toList then
    if 4 ≤ ops.length && ops.length ≤ 25 then x.record 16 label ops Asm.callees else none
  else do
    let x ← match label with
      | some t => do x.define t (← x.here)
      | none => some x
    if name == "SCODE".toList then if ops.isEmpty then some { x with sec := some .s } else none
    else if name == "LCODE".toList then if ops.isEmpty then some { x with sec := some .l } else none
    else if name == "DATA".toList then if ops.isEmpty then some { x with sec := some .d } else none
    else if name == "BLOCK".toList then
      match x.sec, ops with
      | some .l, [[.name t]] => do
        let v ← x.here
        let y ← x.define t v
        some { y with blocks := v.toNat :: y.blocks }
      | _, _ => none
    else if name == "EQU".toList then
      match ops with
      | [[.name t], e] => do x.define t (← x.env.expr e)
      | _ => none
    else if name == "ALIGN".toList then
      match ops with
      | [e] => do x.align (← x.env.exprIn 1 (2 ^ 32) e).toNat
      | _ => none
    else
      match dataWidth name with
      | some (n, none) => do x.data (intBytes n (← x.values (-(2 ^ (8 * n - 1))) (2 ^ (8 * n) - 1) ops))
      | some (n, some t) => do
        if x.sec != some .d then none else x.emit (← ops.mapM (x.floatDatum n t)).flatten
      | none => do some { x with dims := ← x.dims.set name (← x.values 0 (2 ^ 32) ops) }

/-! ## Lines -/

/-- A label at the start of a line, and the rest. -/
def labelOf (t : Text) : Option Text × Text :=
  let n := t.takeWhile isNameChar
  match t.drop n.length with
  | ':' :: rest => if (n.head?.map isNameStart).getD false then (some n, trimLeft rest) else (none, t)
  | _ => (none, t)

/-- One line; none where it rejects the source. The flag says that the source ends here. -/
def Asm.line (x : Asm) (t : Text) : Option (Asm × Bool) := do
  let (label, t) := labelOf (trim (t.takeWhile (· != ';')))
  match t with
  | [] =>
    match label with
    | some n => do some (← x.define n (← x.here), false)
    | none => some (x, false)
  | '.' :: r =>
    let name := uppers (r.takeWhile fun c => !isSpace c)
    let rest := r.drop name.length
    let x' := if name == "END".toList then none else some ()
    match x' with
    | none =>
      match label with
      | some n => do some (← x.define n (← x.here), true)
      | none => some (x, true)
    | some () => do some (← x.directive name label (operands (← lex rest.length rest)), false)
  | _ => do
    let x ← match label with
      | some n => do x.define n (← x.here)
      | none => some x
    some (← x.statement t, false)

/-- The lines of a source up to .end. -/
def Asm.lines : List Text → Asm → Option Asm
  | [], x => if x.whole then some x else none
  | t :: ts, x => do
    let (y, stop) ← x.line t
    if stop then (if y.whole then some y else none) else Asm.lines ts y

/-- A source as lines. -/
def splitLines (t : Text) : List Text :=
  t.foldr (fun c acc => match acc with
    | p :: ps => if c == '\n' then [] :: p :: ps else (c :: p) :: ps
    | [] => [[c]]) [[]]

/-! ## Joins (R139) -/

/-- The instruction at a word offset of L-code. -/
def instrAt (code : List Byte) (o : Nat) : Option Instr :=
  match decodeLBytes (code.drop (4 * o)) with
  | .instr i => if 4 * o + 12 ≤ code.length then some i else none
  | .reject _ => none

/-- Where control may go from an instruction of a block that ends at `hi`, which stands for the exit. -/
def flow (code : List Byte) (lo hi o : Nat) : List Nat :=
  let far (q : LOp) := (offsetOf o (farField q)).getD hi
  let near (q : LOp) := (offsetOf o (nearField q)).getD hi
  let next : List Nat := match instrAt code o with
    | some (.lend _) => [hi]
    | some (.buni q) => if modField q 0 4 == 0 then [far q] else [far q, o + 3]
    | some (.bdiv q) => [far q, o + 3]
    | some (.bloop q) => [far q, near q]
    | some _ => [o + 3]
    | none => [hi]
  next.map fun p => if lo ≤ p && p < hi && (p - lo) % 3 == 0 then p else hi

/-- One round of the post-dominator sets of the nodes of a block. -/
def pdomRound (code : List Byte) (lo hi : Nat) (nodes : List Nat) (sets : List (Nat × List Nat)) : List (Nat × List Nat) :=
  nodes.map fun n =>
    let ss := (flow code lo hi n).map fun p => if p == hi then [hi] else (sets.lookup p).getD []
    (n, n :: (ss.headD []).filter fun q => q != n && ss.all fun l => l.contains q)

def pdoms (code : List Byte) (lo hi : Nat) (nodes : List Nat) : (fuel : Nat) → List (Nat × List Nat)
  | 0 => nodes.map fun n => (n, hi :: nodes)
  | k + 1 => pdomRound code lo hi nodes (pdoms code lo hi nodes k)

/-- The immediate post-dominator of a node. A node from which no path reaches the exit has no defined one: its set is full, and
the first node of the set that fits is taken, where R139 says nothing. Log 122. -/
def ipdom (sets : List (Nat × List Nat)) (o : Nat) : Option Nat :=
  let strict := ((sets.lookup o).getD []).filter (· != o)
  strict.find? fun p => strict.all fun q => q == p || ((sets.lookup p).getD []).contains q

/-- The join of a BDIV of a block: its immediate post-dominator, where a JOIN of the block stands. -/
def joinOf (code : List Byte) (blocks : List Nat) (o : Nat) : Option Nat :=
  let size := code.length / 4
  let lo := (blocks.filter (· ≤ o)).foldl max 0
  let hi := (blocks.filter (o < ·)).foldl min size
  let nodes := (List.range ((hi - lo) / 3)).map fun i => lo + 3 * i
  (ipdom (pdoms code lo hi nodes (nodes.length + 1)) o).bind fun p =>
    match instrAt code p with
    | some (.join _) => if p == hi then none else some p
    | _ => none

/-- Write the join into the BDIV at a word offset. -/
def writeJoin (code : List Byte) (o join : Nat) : Option (List Byte) :=
  let dist : Int := ((join : Int) - o) / 3
  if -(2 ^ 15) ≤ dist && dist < 2 ^ 15 then some (code.take (4 * o + 8) ++ leBytes 2 (wrapInt 16 dist) ++ code.drop (4 * o + 10))
  else none

/-! ## The output -/

/-- What gsxa writes: the three sections, the launch record, and the labels. -/
structure Object where
  scode  : List Byte
  lcode  : List Byte
  data   : List Byte
  record : List Byte
  labels : List (Text × Word)
  deriving DecidableEq, Repr

/-- The code of a register count (R142). -/
def regsCode (n : Nat) : Nat := Nat.log2 n - 3

/-- The launch record: the S entry and what the launch directives set; the other fields are the launching program's (R70,
R142). -/
def launchRecord (g : Dims) (entry : Nat) : List Byte :=
  List.replicate 16 0 ++ leBytes 4 entry ++ leBytes 4 g.gx ++ leBytes 4 g.gy ++ leBytes 4 g.gz ++ leBytes 1 g.teams ++
  leBytes 1 g.groups ++ leBytes 1 (regsCode g.regs) ++ leBytes 1 g.bars ++ leBytes 1 g.tags ++ List.replicate 3 0 ++
  leBytes 4 g.sp ++ List.replicate 84 0

/-- Passes until the labels keep their values. -/
def settle (lines : List Text) (sbase dbase : Word) : (fuel : Nat) → List (Text × Word) → Option (List (Text × Word))
  | 0, _ => none
  | n + 1, old => do
    let x ← Asm.lines lines (Asm.start old false sbase dbase)
    if x.labels == old then some old else settle lines sbase dbase n x.labels

/-- A statement names a vector register that a group of the launch record has not, where .regs sets it (R10, R68). Log 122. -/
def Asm.short (x : Asm) : Bool := x.dims.regs != 0 && x.dims.regs < x.top

/-- Assemble a source whose S-code and data sections will stand at the addresses given. -/
def assemble (src : Text) (sbase dbase : Word) : Option Object := do
  let lines := splitLines src
  let old ← settle lines sbase dbase 16 []
  let x ← Asm.lines lines (Asm.start old true sbase dbase)
  let lcode ← if x.short then none else x.joins.foldlM (fun code o => do writeJoin code o (← joinOf code x.blocks o)) x.l.reverse
  let entry := match x.labels.lookup "s_entry".toList with
    | some v => (v - sbase).toNat
    | none => x.first.getD 0
  some ⟨x.s.reverse, lcode, x.d.reverse, launchRecord x.dims entry, x.labels⟩

end Sys2Proof.Gsxa
end

