-- ==== Sys2Proof/Machine/Gsxd.lean ====
section
/-! DEFINITION. gsxd, the disassembler (R72): every legal encoding as its canonical source line, every other word as data. -/

namespace Sys2Proof.Gsxd

open Sys2Proof.Gsxa Sys2Proof.Machine

/-- The failed check of a word that is not an instruction (R56 step 2), as the comment names it. -/
def reason : Reject → Text
  | .unlisted => "no code of the maps".toList
  | .reserved => "a field that must be zero is not".toList
  | .limit => "a field breaks its description".toList

/-- A line of data words with a comment. -/
def dataLine (ws : List Word32) (why : Text) : Text :=
  ".word ".toList ++ joined [',', ' '] (ws.map fun w => hexText 8 w.toNat) ++ " ; ".toList ++ why

/-- The comment of a legal encoding that no written form makes, which is listed as data too. Log 121. -/
def unwritten : Text := "legal, without a written form".toList

/-- The failed check of an instruction that can never execute (R23, R116, R120, R298). -/
def outOfRange : Text := "a register range or number that no group has".toList

/-- The canonical line of the words of an instruction at a place (R72). -/
def lineOf (lane : Bool) (pc : Word) (ws : Nat) : Option Text :=
  (forms.filter fun f => f.lane == lane).findSome? (Form.text pc ws)

/-- One line of the S-stream at an address, and how many words it takes. -/
def sLine (pc : Word) (w0 : Word32) (w1 : Option Word32) : Text × Nat :=
  if sWords w0 == 2 && w1.isNone then (dataLine [w0] "the second word is missing".toList, 1)
  else
    match decodeS w0 (w1.getD 0) with
    | .reject r => (dataLine [w0] (reason r), 1)
    | .instr i =>
      if neverRuns i then (dataLine [w0] outOfRange, 1)
      else
        let ws := if sWords w0 == 2 then w0.toNat + (w1.getD 0).toNat * 2 ^ 32 else w0.toNat
        ((lineOf false pc ws).getD (dataLine (if sWords w0 == 2 then [w0, w1.getD 0] else [w0]) unwritten), sWords w0)

/-- The targets of a control instruction at a word offset lie within the offsets of R66 (R125). -/
def targetsOk (own : Nat) : Instr → Bool
  | .bdiv o | .bloop o => (offsetOf own (farField o)).isSome && (offsetOf own (nearField o)).isSome
  | .buni o => (offsetOf own (farField o)).isSome
  | _ => true

/-- One line of the L-stream at a word offset. A target outside the code is a failed check (R125). -/
def lLine (own : Nat) (w0 w1 w2 : Word32) : Text :=
  match decodeL w0 w1 w2 with
  | .reject r => dataLine [w0, w1, w2] (reason r)
  | .instr i =>
    if neverRuns i then dataLine [w0, w1, w2] outOfRange
    else if !targetsOk own i then dataLine [w0, w1, w2] "a target outside the code".toList
    else
      (lineOf true (BitVec.ofNat 64 own) (w0.toNat + w1.toNat * 2 ^ 32 + w2.toNat * 2 ^ 64)).getD (dataLine [w0, w1, w2] unwritten)

/-- The listing of S-code at an address; the fuel is its number of words. -/
def listS : (fuel : Nat) → Word → List Word32 → List Text
  | 0, _, _ => []
  | _, _, [] => []
  | n + 1, pc, w0 :: ws =>
    let r := sLine pc w0 ws.head?
    r.1 :: listS n (pc + BitVec.ofNat 64 (4 * r.2)) (ws.drop (r.2 - 1))

/-- The listing of L-code from a word offset. Words that make no whole triple at the end are data. -/
def listL : Nat → List Word32 → List Text
  | own, w0 :: w1 :: w2 :: ws => lLine own w0 w1 w2 :: listL (own + 3) ws
  | _, [] => []
  | _, ws => [dataLine ws "no whole instruction".toList]

end Sys2Proof.Gsxd
end

