-- ==== Sys2Proof/Safety.lean ====
section
/-! DEFINITION. The terms of the statements: when an instruction may issue, what it leaves unchanged, and the invariant of
the stores. -/

namespace Sys2Proof.Machine

/-- The machine goes on. -/
def goesOn (o : Out) : Prop := ∃ t, o = .next t

/-! ## The S-stream -/

/-- An S-stream instruction that needs a level and uses the registers `rs` issues and executes: its fields name registers
the group may name, the level suffices, no register waits for an access in flight, no peer access holds the stream, and
an instruction that is not confined to registers has no access awaiting a value before it (R10, R49, R56, R73, R181,
R194). -/
structure SReady (s : State) (need : Level) (rs : List SReg) (free : Bool) : Prop where
  legal : ∀ r ∈ rs, s.cur.sLegal r = true
  level : Level.rank need ≤ Level.rank s.cur.level
  held  : s.cur.sHeld = false
  busy  : ∀ r ∈ rs, s.cur.sBusy r = false
  waits : free = true ∨ s.cur.sWaits = false

/-- FLAGS after an S-stream instruction that sets the flags `f` (R25, R194, R313): unchanged in handler mode; otherwise `f`
is ORed in, and stands with the stream state while an earlier access awaits its value. -/
def FlagsOr (s t : State) (f : Byte) : Prop :=
  if s.cur.handler.isSome then t.cur.flags = s.cur.flags ∧ t.cur.s.flags = s.cur.s.flags
  else if s.cur.sWaits then t.cur.flags = s.cur.flags ∧ t.cur.s.flags = s.cur.s.flags ||| f
  else t.cur.flags = s.cur.flags ||| f ∧ t.cur.s.flags = s.cur.s.flags

/-- Every byte of memory reads as before. -/
def SameMem (s t : State) : Prop := ∀ pa, t.mem.get pa = s.mem.get pa

/-- The instruction writes `v` to register `d` (a write to sz is discarded), ORs `f` into FLAGS and goes on `n` bytes
later. Nothing else changes: no other scalar register, no other field of the issuing group, no other part of the device. -/
def WritesReg (s : State) (i : Instr) (d : SReg) (v : Word) (f : Byte) (n : Nat) : Prop :=
  ∃ t, exec i s = .next t ∧
    t.sget d = (if d = 127#7 then 0 else v) ∧
    (∀ r, r ≠ d → t.sget r = s.sget r) ∧
    t.cur.s.pc = s.cur.s.pc + BitVec.ofNat 64 n ∧
    FlagsOr s t f ∧
    t = { s with cur := { s.cur with s := t.cur.s, flags := t.cur.flags } } ∧
    SameMem s t

/-- The instruction moves the S-PC to `pc` and changes nothing else. -/
def JumpsTo (s : State) (i : Instr) (pc : Word) : Prop :=
  exec i s = .next { s with cur := { s.cur with s := { s.cur.s with pc := pc } } }

/-- The instruction moves the S-PC to `pc`, puts what the L-stream has done before what the S-stream does next (R14), and changes
nothing else. -/
def JoinsTo (s : State) (i : Instr) (pc : Word) : Prop :=
  exec i s = .next { s with cur := { s.cur with s := { s.cur.s with pc := pc }, sAfter := s.cur.seq } }

/-- The instruction moves the S-PC to `pc`, writes `v` to register `d` and changes nothing else. -/
def JumpsWriting (s : State) (i : Instr) (pc : Word) (d : SReg) (v : Word) : Prop :=
  ∃ t, exec i s = .next t ∧ t.cur.s.pc = pc ∧ t.sget d = v ∧ (∀ r, r ≠ d → t.sget r = s.sget r) ∧
    t.cur.s.flags = s.cur.s.flags ∧ t = { s with cur := { s.cur with s := t.cur.s } } ∧ SameMem s t

/-! ## Exceptions -/

/-- Nothing but its own next instruction stops the issuing group, and its stops are dispatched at once: it runs outside a
handler, not parked and not halted, under the handler policy (R163, R312, R316, R333). -/
structure Interruptible (s : State) : Prop where
  runs   : s.cur.status = .run
  user   : s.cur.handler = none
  parked : s.cur.parked = false
  halted : s.cur.halted = false
  policy : s.strictOf s.cur = false

/-- `t` is `u` with the issuing group taken into the handler at `entry` for vector `code` (R313): SUPER; hs0 the vector,
hs1 its value, hs2 the resume PC; an L-stream with no path, no entry, zero predicates and k registers; the user's L-stream
state, level and S-PC banked; s0 to s95, the vector registers and the flags in place. -/
structure EntersHandler (u t : State) (code : Byte) (hs1 hs2 entry : Word) : Prop where
  level : t.cur.level = .super
  pc    : t.cur.s.pc = entry
  hs    : look t.cur.s.hs 0 0 = code.setWidth 64 ∧ look t.cur.s.hs 1 0 = hs1 ∧ look t.cur.s.hs 2 0 = hs2 ∧
            ∀ i, 3 ≤ i → i < 16 → look t.cur.s.hs i 0 = 0
  kept  : t.cur.s.regs = u.cur.s.regs ∧ t.cur.l.vregs = u.cur.l.vregs ∧ t.cur.l.life = u.cur.l.life ∧
            t.cur.flags = u.cur.flags ∧ t.cur.fmask = u.cur.fmask
  empty : t.cur.running = false ∧ t.cur.l.ps0 = none ∧ t.cur.l.ps1 = none ∧ t.cur.l.stack = [] ∧ t.cur.l.hold = none ∧
            t.cur.l.preds = Vector.replicate 8 0 ∧ t.cur.l.k = Vector.replicate 16 0
  bank  : ∃ h, t.cur.handler = some h ∧ h.user = u.cur.l ∧ h.latch = u.cur.latch ∧ h.running = u.cur.running ∧
            h.level = u.cur.level ∧ h.userPc = u.cur.s.pc
  rest  : t = { u with cur := t.cur }

/-- The frame of the group's innermost sub-team, if it is in one, stands in hardware (R160). -/
def FrameHere (s : State) : Prop := ∀ f, (s.viewOf s.cur).frameOf s.cur.rank = some f → f.slot = none

/-! ## Memory faults -/

/-- The record of one fault of the issuing group at `pc` (R245): code and cause, lane, flags, slot, the rank of its dispatch with the
TID of its team, context, address, PC, grid, gang, and the physical address where the code is POISON. Its write adds TIME and
the phase. -/
def faultRecord (s : State) (flags : Byte) (pc : Word) (f : LaneFault) : Record where
  code := f.mf.code
  cause := f.mf.cause
  lane := f.lane
  flags := flags
  slot := s.cur.slot
  rank := s.cur.rank % 16 + 16 * ((s.teamOf s.cur).tid % 4)
  ctx := (s.gridOf s.cur).ctx
  addr := f.mf.addr
  pc := pc
  grid := (s.gridOf s.cur).num
  gang := (s.gangOf s.cur).num
  pa := if f.mf.code = 0x0A then f.mf.pa else 0
  mask := 0

/-- The lanes of hv0 to hv3 after an entry for some faults (R248): the halves of the address, the cause and the code in each lane that
faulted, a scalar access in lane 0; 0 in every other. All four are LIVE. -/
def HvHolds (t : State) (fs : List LaneFault) : Prop :=
  ∀ i, i < 128 →
    let at' (x : MemFault → Word32) : Word32 :=
      ((fs.find? fun f => f.lane == i || (f.lane == 255 && i == 0)).map fun f => x f.mf).getD 0
    let hv (n : Nat) : Word32 := look (look t.cur.l.hv n (Vector.replicate 128 0)) i 0
    hv 0 = at' (fun f => f.addr.setWidth 32) ∧ hv 1 = at' (fun f => f.addr.extractLsb' 32 32) ∧
    hv 2 = at' (fun f => f.cause.setWidth 32) ∧ hv 3 = at' (fun f => f.code.setWidth 32) ∧
    ∀ n, n < 8 → look t.cur.l.hvLife n .dead = if n < 4 then .live else .dead

/-- hs1 of a memory fault (R310): its cause with PAGE, ACCESS and POISON, 0 with ALIGN, RANGELOCK and the others. -/
def hs1Of (f : MemFault) : Word := if f.code = 0x05 ∨ f.code = 0x06 ∨ f.code = 0x0A then f.cause.setWidth 64 else 0

/-- The faults `fs` of one instruction at `pc` stop the group of the device `y` (R245, R246, R248, R312, R313), its L-stream with the
path slot `ps1` where `l`. The accesses that the log of the core takes are logged (R182), and the record of each fault is offered to the
queue of the context in lane order. The first fault gives the vector. Where it can be entered at once (IMM, or a lane fault), the
handler stands at its entry, with hv0 to hv3, the mask of its blocks and the replay; while no shadow set is free, or the group has
not drained, the stop waits on the slot. -/
def TakesFaults (y : State) (out : Out) (fs : List LaneFault) (l ps1 : Bool) (flags : Byte) (pc : Word) (wr loc : Bool)
    (mask : Mask) (replay : Option Replay) : Prop :=
  ∀ (u : State) (entry : Word) (imm : Bool) (f : MemFault),
    let w := y.logLanes fs wr loc
    let v := w.queueAll (fs.map (faultRecord w (flags ||| (if l then 1 else 0) ||| (if l && ps1 then 0x40 else 0)) pc))
    fs.head?.map LaneFault.mf = some f → v.cur = y.cur → v.strictOf v.cur = false →
    v.vectorEntry (v.coreOf v.cur) (v.ctxOf v.cur) f.code = (some (entry, imm), u) → u.cur = v.cur →
    imm = true ∨ replay.isSome = true →
    ∃ t, out = .next t ∧
      (u.canEnter = true → EntersHandler u t f.code (hs1Of f) pc entry ∧ HvHolds t fs ∧
        ∃ h, t.cur.handler = some h ∧ h.stop.mask = mask ∧ h.stop.replay = replay ∧ h.stop.l = l ∧ h.stop.ps1 = ps1) ∧
      (u.canEnter = false → ∃ st, t = { u with cur := { u.cur with status := .shadow st entry } } ∧ st.lanes = fs ∧
        st.code = f.code ∧ st.hs1 = hs1Of f ∧ st.pc = pc ∧ st.mask = mask ∧ st.replay = replay ∧ st.l = l ∧ st.ps1 = ps1)

/-- A fault that a check of R193 gives at issue: PAGE, ACCESS, ALIGN, RANGELOCK or POISON, and no wait. -/
def issueFault (f : MemFault) : Prop := 5 ≤ f.code.toNat ∧ f.code.toNat ≤ 0x0A

/-! ## Accesses -/

/-- The instruction issues one access of the S-stream (R88, R194, R196), after a translation that left the device as `u`:
the access stands last in the group's order with its kind, destination, order, scope and single request, its counters rise,
the S-PC goes `len` bytes on, and nothing else differs from `u`. -/
def IssuesOne (s u : State) (i : Instr) (k : AccKind) (dest : SReg) (ord : Order) (sc : Scope) (peer : Bool) (r : Req)
    (cs : List Counter) (len : Nat) : Prop :=
  ∃ t x, exec i s = .next t ∧
    t = { u with cur := { u.cur with
      s := { u.cur.s with pc := u.cur.s.pc + BitVec.ofNat 64 len }
      accs := u.cur.accs ++ [x]
      seq := u.cur.seq + 1
      tokens := u.cur.tokens ++ cs.map fun c => ⟨c, u.cur.seq, false⟩ } } ∧
    x.seq = u.cur.seq ∧ x.l = false ∧ x.pc = s.cur.s.pc ∧ x.kind = k ∧ x.dest = dest.setWidth 8 ∧ x.ord = ord ∧
    x.scope = sc ∧ x.peer = peer ∧ x.reqs = [r] ∧ x.handler = s.cur.handler.isSome

/-- The access `a` with the single request `r`, still unknown, is the only one of the issuing group, and nothing comes before it:
a scalar access, as it leaves the core from a group with none in flight, before which no round has put a store of another group. -/
structure OnlyAccess (s : State) (a : Access) (r : Req) : Prop where
  accs  : s.cur.accs = [a]
  reqs  : a.reqs = [r]
  scalar : a.l = false ∧ r.lane = 255
  clean : a.fails = [] ∧ r.ans = none ∧ r.err = none
  first : a.seq ∉ a.prior ∧ a.seq ∉ a.needs
  alone : s.cur.seen = []

/-- Bytes of a store after a write of the low `n` bytes of `w` at an address, little-endian (R2): those bytes hold it, and
every other address reads as before. -/
def Stored (m m' : Cells) (at' n : Nat) (w : Word) : Prop :=
  ∀ x, m'.get x = if at' ≤ x ∧ x < at' + n then w.extractLsb' (8 * (x - at')) 8 else m.get x

/-- Bytes of a store after writes of whole words at places that do not meet: each word stands at its place, little-endian (R2), and
every other address reads as before. -/
def StoredWords (m m' : Cells) (ws : List (Nat × Word)) : Prop :=
  (∀ p ∈ ws, ∀ i, i < 8 → m'.get (p.1 + i) = p.2.extractLsb' (8 * i) 8) ∧
    ∀ x, (∀ p ∈ ws, x < p.1 ∨ p.1 + 8 ≤ x) → m'.get x = m.get x

/-- Bytes of a store after `n` bytes at each of some places became 0. -/
def Zeroed (m m' : Cells) (ps : List Nat) (n : Nat) : Prop :=
  ∀ x, m'.get x = if ∃ p ∈ ps, p ≤ x ∧ x < p + n then 0 else m.get x

/-- The instruction writes `v` to register `d` and goes on `n` bytes later from a device state `u` that agrees with `s`
but for what a translation changed. -/
def WritesFrom (s u : State) (i : Instr) (d : SReg) (v : Word) (n : Nat) : Prop :=
  ∃ t, exec i s = .next t ∧ t.sget d = (if d = 127#7 then 0 else v) ∧ (∀ r, r ≠ d → t.sget r = u.sget r) ∧
    t.cur.s.pc = u.cur.s.pc + BitVec.ofNat 64 n ∧ t.cur.s.flags = u.cur.s.flags ∧
    t = { u with cur := { u.cur with s := t.cur.s } } ∧ SameMem u t

/-- The number of the low `n` bytes of a word, signed or natural, as a 64-bit value (R88). -/
def extended (n : Nat) (signed : Bool) (w : Word) : Word :=
  if signed then BitVec.ofInt 64 ((w.setWidth (8 * n)).toInt) else BitVec.ofNat 64 ((w.setWidth (8 * n)).toNat)

/-! ## The L-stream -/

/-- An L-stream instruction of the path `p` that has its turn issues and executes (R18, R56, R93, R135, R181, R194): its
fields name registers the group may name, the registers it reads hold a value, a group that uses the queues is converged,
its pops find the values `vs` and leave the group `g`, the RQ has room for its pushes, no register waits for an instruction
or an access in flight, no access holds the stream, and its register blocks hold data. -/
structure LReady (s : State) (u : LUse) (p : Path) (vs : List Word) (g : Group) : Prop where
  path    : s.cur.path s.ps1 = some p
  legal   : ∀ r ∈ u.reads.map Prod.fst ++ u.writes, s.cur.vLegal r = true
  queues  : u.pops = 0 ∧ u.pushes = 0 ∨ s.cur.converged = true
  alive   : ∀ x ∈ u.reads, s.cur.vlife x.1 = .live ∨ s.cur.vlife x.1 = .rest
  values  : s.cur.pops u.pops = .got vs g
  held    : s.cur.lHeld = false
  busy    : s.cur.lBusy u = false
  waits   : u.free = true ∧ u.pops = 0 ∧ u.pushes = 0 ∨ s.cur.lWaits = false
  room    : s.cur.rq.length + u.pushes ≤ 16
  powered : ∀ r ∈ u.reads.map Prod.fst ++ u.writes, s.cur.powered r = true

/-- The lanes an instruction acts on (R10, R61, R91): active in the path, and with the guard predicate at 1, or at 0 under
negation. -/
abbrev actsOn (s : State) (p : Path) (gd : Guard) (i : Nat) : Prop :=
  p.mask.getLsbD i = true ∧ (if gd.p = 0 then true else (look s.cur.l.preds gd.p.toNat 0).getLsbD i) ≠ gd.neg

/-- The life of a register after an instruction that reads the operands `reads` (R17, R18). -/
def lifeAfter (s : State) (reads : List (BitVec 8 × Hint)) (r : BitVec 8) : Life :=
  if (r, .last) ∈ reads then .dead
  else if (r, .rest) ∈ reads then .rest
  else if (r, .keep) ∈ reads then .live
  else s.cur.vlife r

/-- What an L-stream instruction that issues leaves beside its own result (R25, R91, R93): the path at the next instruction
with the same lanes, the other path in place, an entry of the scoreboard with the flags `f` (none in handler mode), the
decision queue after its pops, and nothing else changed but the vector registers, predicates and k registers. -/
structure LIssued (s t : State) (u : LUse) (p : Path) (g : Group) (f : Byte) : Prop where
  path  : t.cur.path s.ps1 = some ⟨p.pc + 3, p.mask⟩
  other : t.cur.path (!s.ps1) = s.cur.path (!s.ps1)
  pend  : t.cur.lpend =
            s.cur.lpend ++ [⟨s.cur.seq, if s.cur.handler.isSome then 0 else f, u.writes, u.pwrite, u.kwrite⟩]
  seq   : t.cur.seq = s.cur.seq + 1
  dq    : t.cur.dq = g.dq
  l     : t.cur.l = { s.cur.l with
            vregs := t.cur.l.vregs, life := t.cur.l.life, hv := t.cur.l.hv, hvLife := t.cur.l.hvLife
            preds := t.cur.l.preds, k := t.cur.l.k, ps0 := t.cur.l.ps0, ps1 := t.cur.l.ps1 }
  rest  : t = { s with cur := { s.cur with l := t.cur.l, lpend := t.cur.lpend, seq := t.cur.seq, dq := t.cur.dq } }

/-- The instruction writes the lanes `sel` of register `d` with values that `R` describes; the others keep their bytes
where the register held any (R19). The register is LIVE, every other one has its value and its life after the hints, and
no predicate or k register changes. -/
structure LWrites (s t : State) (u : LUse) (d : BitVec 8) (sel : Nat → Prop) (R : Nat → Word32 → Prop) : Prop where
  lanes  : ∀ i, i < 128 → sel i → R i (look (t.cur.vget d) i 0)
  kept   : ∀ i, i < 128 → ¬ sel i → look (t.cur.vget d) i 0 =
             if lifeAfter s u.reads d = .live ∨ lifeAfter s u.reads d = .rest then look (s.cur.vget d) i 0 else 0
  live   : t.cur.vlife d = .live
  others : ∀ r, r ≠ d → t.cur.vget r = s.cur.vget r ∧ t.cur.vlife r = lifeAfter s u.reads r
  preds  : t.cur.l.preds = s.cur.l.preds
  ks     : t.cur.l.k = s.cur.l.k

/-- An instruction with the operands `o` that uses `u` writes its selected lanes: lane i takes a value that `R` describes
from the path and the popped values, and the flags are those that `F` describes. -/
def LaneForm (s : State) (i : Instr) (o : LOp) (u : LUse) (R : Path → List Word → Nat → Word32 → Prop)
    (F : Path → List Word → Byte → Prop) : Prop :=
  ∀ p vs g, LReady s u p vs g → ∃ t f, exec i s = .next t ∧ LIssued s t u p g f ∧ F p vs f ∧
    LWrites s t u o.vd (actsOn s p o.g) (R p vs)

/-- A flag is set where some selected lane sets it (R25). -/
def flagsOver (s : State) (o : LOp) (fl : List Word → Nat → Byte → Prop) (p : Path) (vs : List Word) (f : Byte) : Prop :=
  ∀ b, b < 8 → (f.getLsbD b = true ↔ ∃ i x, i < 128 ∧ actsOn s p o.g i ∧ fl vs i x ∧ x.getLsbD b = true)

/-- The lane values of the sources of an instruction (R59): registers a and b, and source c: a register, the literal, the
first value popped or a k register. -/
def srcA (s : State) (o : LOp) (i : Nat) : Word32 := look (s.cur.vget o.a.r) i 0
def srcB (s : State) (o : LOp) (i : Nat) : Word32 := look (s.cur.vget o.b.r) i 0
def srcC (s : State) (o : LOp) (vs : List Word) (i : Nat) : Word32 :=
  match o.c with
  | .vec r _ => look (s.cur.vget r) i 0
  | .imm => o.w2
  | .dq => (vs.headD 0).setWidth 32
  | .kreg n => (look s.cur.l.k n.toNat 0).setWidth 32

/-- Element e of a lane of a type (R11). -/
def elemOf (t : ElemType) (e : Nat) (x : Word32) : BitVec t.width := x.extractLsb' (t.width * e) t.width

/-- An instruction that computes each element of vd from the same elements of a, b and c (R91, R92): its result and its
flags. -/
def ElemForm (s : State) (i : Instr) (o : LOp) (k : Srcs) (f : BitVec o.ty.width → BitVec o.ty.width → BitVec o.ty.width →
    BitVec o.ty.width × Byte) : Prop :=
  let r (vs : List Word) (i e : Nat) :=
    f (elemOf o.ty e (srcA s o i)) (elemOf o.ty e (srcB s o i)) (elemOf o.ty e (srcC s o vs i))
  LaneForm s i o (lopUse o k) (fun _ vs i x => ∀ e, e < o.ty.count → elemOf o.ty e x = (r vs i e).1)
    (flagsOver s o fun vs i x => ∃ e, e < o.ty.count ∧ x = (r vs i e).2)

/-- An instruction that computes each lane of vd from the same lane of a, b and c: its result and its flags. -/
def WholeForm (s : State) (i : Instr) (o : LOp) (u : LUse) (f : Word32 → Word32 → Word32 → Word32 × Byte) : Prop :=
  LaneForm s i o u (fun _ vs i x => x = (f (srcA s o i) (srcB s o i) (srcC s o vs i)).1)
    (flagsOver s o fun vs i x => x = (f (srcA s o i) (srcB s o i) (srcC s o vs i)).2)

/-- An instruction that writes the selected bits of predicate pd and no other bit, no other predicate, no vector register
and no k register; p0 takes no write (R10, R109). -/
def PredForm (s : State) (i : Instr) (o : LOp) (u : LUse) (R : Path → List Word → Nat → Bool → Prop)
    (F : Path → List Word → Byte → Prop) : Prop :=
  ∀ p vs g, LReady s u p vs g → ∃ t f, exec i s = .next t ∧ LIssued s t u p g f ∧ F p vs f ∧
    (∀ n, n < 8 → ∀ i, i < 128 →
      if o.vd.toNat = n ∧ n ≠ 0 ∧ actsOn s p o.g i then R p vs i ((look t.cur.l.preds n 0).getLsbD i)
      else (look t.cur.l.preds n 0).getLsbD i = (look s.cur.l.preds n 0).getLsbD i) ∧
    (∀ r, t.cur.vget r = s.cur.vget r ∧ t.cur.vlife r = lifeAfter s u.reads r) ∧ t.cur.l.k = s.cur.l.k

/-- Node i of level j of the tree in which VRED combines its lanes (R112): the operation of its two nodes below where both are present,
else whichever is. -/
def treeNode (op : Word32 → Word32 → Word32) (leaf : Nat → Option Word32) : Nat → Nat → Option Word32
  | 0, i => leaf i
  | j + 1, i =>
    match treeNode op leaf j (2 * i), treeNode op leaf j (2 * i + 1) with
    | some x, some y => some (op x y)
    | some x, none => some x
    | none, y => y

/-- The lanes in which a control instruction takes its predicate operand as true (R125): active, with the predicate of mods
bits 2:0 at 1, or at 0 under mods bit 3. -/
abbrev takesIn (s : State) (p : Path) (o : LOp) (i : Nat) : Prop :=
  p.mask.getLsbD i = true ∧
    (if o.mods.extractLsb' 0 3 = 0 then true else (look s.cur.l.preds (o.mods.extractLsb' 0 3).toNat 0).getLsbD i) ≠
      o.mods.getLsbD 3

/-- An offset that a displacement of instructions reaches from the instruction at `own` (R66, R125). -/
abbrev reaches (own : Nat) (d : BitVec 16) (target : Nat) : Prop :=
  (target : Int) = own + 3 * d.toInt ∧ target ≤ 524286 ∧ target % 3 = 0

/-- The state with other L-stream state. -/
def State.withL (s : State) (l : LState) : State := { s with cur := { s.cur with l := l } }

/-- The nesting counters of the lanes of a mask raised by one, or lowered by one and not below 0 (R124). -/
def nestRaised (n : Vector Byte 128) (m : Mask) : Vector Byte 128 := Vector.ofFn fun i => if m.getLsbD i then n[i] + 1 else n[i]
def nestLowered (n : Vector Byte 128) (m : Mask) : Vector Byte 128 :=
  Vector.ofFn fun i => if m.getLsbD i then (if n[i] = 0 then 0 else n[i] - 1) else n[i]

/-- An L-stream instruction that appends values to the RQ goes on, with its pops and hints, and changes nothing else. -/
def RqForm (s : State) (i : Instr) (u : LUse) (p : Path) (g : Group) (ws : List Word) : Prop :=
  ∃ t, exec i s = .next t ∧ t.cur.rq = s.cur.rq ++ ws ∧ t.cur.path s.ps1 = some ⟨p.pc + 3, p.mask⟩ ∧
    t.cur.path (!s.ps1) = s.cur.path (!s.ps1) ∧ t.cur.dq = g.dq ∧
    (∀ r, t.cur.vget r = s.cur.vget r ∧ t.cur.vlife r = lifeAfter s u.reads r) ∧
    t.cur.l = { s.cur.l with life := t.cur.l.life, hvLife := t.cur.l.hvLife, ps0 := t.cur.l.ps0, ps1 := t.cur.l.ps1 } ∧
    t = { s with cur := { s.cur with l := t.cur.l, rq := t.cur.rq, dq := t.cur.dq } }

/-- The address of a lane of a lane memory instruction (R64): base, displacement where the base is no literal, and the
lane of the index register, sign-extended and shifted, where mods bit 2 is set. -/
def laneAddress (s : State) (o : LOp) (vs : List Word) (i : Nat) : Word :=
  let base : Word := match o.c with
    | .vec _ _ => 0
    | .imm => o.w2.setWidth 64
    | .dq => vs.headD 0
    | .kreg n => look s.cur.l.k n.toNat 0
  let disp : Word := if o.c = .imm then 0 else o.w2.signExtend 64
  let index : Word := if o.mods.getLsbD 2 then (srcA s o i).signExtend 64 <<< (o.mods.extractLsb' 0 2).toNat else 0
  base + disp + index

/-- The size of a lane access (R118): mods bits 5:3 name 1, 2 or 4 bytes. -/
def laneSize (o : LOp) : Nat := if o.mods.extractLsb' 3 3 = 1 then 1 else if o.mods.extractLsb' 3 3 = 2 then 2 else 4

/-- The instruction issues one access of the L-stream (R118, R194, R196) from a device state `u` that agrees with `s` but for
what its translations changed: last in the group's order, with its kind, destination, order, scope and requests; its counters
rise; the path, whose lanes what they did before belongs to (R221), goes on; the registers read take their hints and no other
register but the destination changes. -/
def IssuesLanes (s u : State) (i : Instr) (use : LUse) (p : Path) (g : Group) (k : AccKind) (dests : List (BitVec 8))
    (first : BitVec 8) (ord : Order) (sc : Scope) (peer : Bool) (rs : List Req) (cs : List Counter) : Prop :=
  ∃ t a, exec i s = .next t ∧ t.cur.accs = (s.cur.grow p.mask).accs ++ [a] ∧ a.path = p.mask ∧ a.seq = s.cur.seq ∧ a.l = true ∧ a.ps1 = s.ps1 ∧
    a.pc = BitVec.ofNat 64 p.pc ∧ a.kind = k ∧ a.dest = first ∧ a.ord = ord ∧ a.scope = sc ∧ a.peer = peer ∧ a.reqs = rs ∧ a.fails = [] ∧
    t.cur.seq = s.cur.seq + 1 ∧ t.cur.tokens = s.cur.tokens ++ cs.map (fun c => ⟨c, s.cur.seq, false⟩) ∧
    t.cur.dq = g.dq ∧ t.cur.path s.ps1 = some ⟨p.pc + 3, p.mask⟩ ∧ t.cur.path (!s.ps1) = s.cur.path (!s.ps1) ∧
    (∀ r, r ∉ dests → t.cur.vget r = s.cur.vget r ∧ t.cur.vlife r = lifeAfter s use.reads r) ∧
    (∀ r, r ∈ dests → t.cur.vlife r = .live) ∧
    t.cur.l.preds = s.cur.l.preds ∧ t.cur.l.k = s.cur.l.k ∧ t.cur.l.stack = s.cur.l.stack ∧ t.cur.s = s.cur.s ∧
    t.cur.flags = s.cur.flags ∧ t = { u with cur := t.cur } ∧ SameMem u t

/-! ## Events -/

/-- The event leaves group `uid` as `g` and changes nothing else. -/
def ChangesGroup (s : State) (i : Instr) (uid : Nat) (g : Group) : Prop :=
  ∃ t, exec i s = .next t ∧ t.group? uid = some g ∧ (∀ v, v ≠ uid → t.group? v = s.group? v) ∧
    t = { s with cur := t.cur, others := t.others }

/-- The event leaves context `id` as `c`, every other context as it was, and nothing else changed. -/
def ChangesCtx (s : State) (i : Instr) (id : Nat) (c : Ctx) : Prop :=
  ∃ t, exec i s = .next t ∧ t.ctx? id = some c ∧ (∀ v, v ≠ id → t.ctx? v = s.ctx? v) ∧ t = { s with ctxs := t.ctxs }

/-- The event leaves core `k` as `c` and changes nothing else. -/
def ChangesCore (s : State) (i : Instr) (k : Nat) (c : CoreState) : Prop :=
  ∃ t, exec i s = .next t ∧ t.core k = c ∧ (∀ j, j ≠ k → t.core j = s.core j) ∧ t = { s with cores := t.cores }

/-- The canonical form of memory, as the statements name it: addresses strictly rising, no byte that an unlisted address reads
as. -/
def StoresWf (s : State) : Prop := s.mem.wf = true

end Sys2Proof.Machine
end

