-- ==== Sys2Proof/Certificates/Slice0/Obligations.lean ====
section
/-! DEFINITION. The statements about the machine, each a proposition for the provers. -/

open Sys2Proof Sys2Proof.Machine

/-- R74: what each register form of the ALU writes, for every operand and for every register field, sz among them; no
flag, the next instruction, and nothing else changed. The shifts use bits 5:0 of the count; SEL reads the old value of
its destination. R74: CLZ writes the number of leading zero bits and POPC the number of one bits; a word of either with
sb in use is no instruction, and sz reads zero. R74, R75: the product with its IO flag, and every division: a zero
divisor gives all ones and the dividend with NV or DZ; the most negative number by minus one gives itself and zero, with
IO for DIV alone; otherwise the quotient truncates toward zero. -/
def Obligations.AluFormsWriteTheirResult : Prop :=
  (∀ (s : State) (d a b : SReg), SReady s .user [d, a, b] true →
    let x := s.sget a
    let y := s.sget b
    let n := (y.extractLsb' 0 6).toNat
    WritesReg s (.add d a b) d (x + y) 0 4 ∧
    WritesReg s (.sub d a b) d (x - y) 0 4 ∧
    WritesReg s (.mulh d a b) d ((x.signExtend 128 * y.signExtend 128).extractLsb' 64 64) 0 4 ∧
    WritesReg s (.mulhn d a b) d ((x.setWidth 128 * y.setWidth 128).extractLsb' 64 64) 0 4 ∧
    WritesReg s (.and d a b) d (x &&& y) 0 4 ∧
    WritesReg s (.or d a b) d (x ||| y) 0 4 ∧
    WritesReg s (.xor d a b) d (x ^^^ y) 0 4 ∧
    WritesReg s (.andn d a b) d (x &&& ~~~y) 0 4 ∧
    WritesReg s (.shl d a b) d (x <<< n) 0 4 ∧
    WritesReg s (.shr d a b) d (x >>> n) 0 4 ∧
    WritesReg s (.sra d a b) d (x.sshiftRight n) 0 4 ∧
    WritesReg s (.rotr d a b) d ((x >>> n) ||| (x <<< (64 - n))) 0 4 ∧
    WritesReg s (.min d a b) d (if x.toInt ≤ y.toInt then x else y) 0 4 ∧
    WritesReg s (.max d a b) d (if x.toInt ≤ y.toInt then y else x) 0 4 ∧
    WritesReg s (.minn d a b) d (if x.toNat ≤ y.toNat then x else y) 0 4 ∧
    WritesReg s (.maxn d a b) d (if x.toNat ≤ y.toNat then y else x) 0 4 ∧
    WritesReg s (.slt d a b) d (if x.toInt < y.toInt then 1 else 0) 0 4 ∧
    WritesReg s (.sltn d a b) d (if x.toNat < y.toNat then 1 else 0) 0 4 ∧
    WritesReg s (.seq d a b) d (if x = y then 1 else 0) 0 4 ∧
    WritesReg s (.sne d a b) d (if x = y then 0 else 1) 0 4 ∧
    WritesReg s (.sel d a b) d (if s.sget d = 0 then y else x) 0 4) ∧
  (∀ (s : State) (d a : SReg), SReady s .user [d, a] true →
    let x := s.sget a
    s.sget 127#7 = 0 ∧
    (∀ w0 w1 : Word32, (w0.extractLsb' 26 6).toNat = 1 → (w0.extractLsb' 0 5).toNat = 21 ∨ (w0.extractLsb' 0 5).toNat = 22 →
      w0.extractLsb' 5 7 ≠ 0 → ∀ i, decodeS w0 w1 ≠ .instr i) ∧
    (∃ c : Nat, c ≤ 64 ∧ (∀ i < c, x.getLsbD (63 - i) = false) ∧ (c < 64 → x.getLsbD (63 - c) = true) ∧
      WritesReg s (.clz d a) d (BitVec.ofNat 64 c) 0 4) ∧
    WritesReg s (.popc d a) d (BitVec.ofNat 64 ((List.range 64).countP fun i => x.getLsbD i)) 0 4) ∧
  (∀ (s : State) (d a b : SReg), SReady s .user [d, a, b] true →
    let x := s.sget a
    let y := s.sget b
    let p := x.toInt * y.toInt
    let zero : Byte := if x = 0 then flagNV else flagDZ
    WritesReg s (.mul d a b) d (x * y) (if p < -2 ^ 63 ∨ 2 ^ 63 - 1 < p then flagIO else 0) 4 ∧
    (y = 0 →
      WritesReg s (.div d a b) d (BitVec.allOnes 64) zero 4 ∧ WritesReg s (.divn d a b) d (BitVec.allOnes 64) zero 4 ∧
      WritesReg s (.rem d a b) d x zero 4 ∧ WritesReg s (.remn d a b) d x zero 4) ∧
    (x = 0x8000000000000000#64 ∧ y = BitVec.allOnes 64 →
      WritesReg s (.div d a b) d 0x8000000000000000#64 flagIO 4 ∧ WritesReg s (.rem d a b) d 0 0 4) ∧
    (y ≠ 0 → ¬ (x = 0x8000000000000000#64 ∧ y = BitVec.allOnes 64) →
      WritesReg s (.div d a b) d (BitVec.ofInt 64 (x.toInt.tdiv y.toInt)) 0 4 ∧
      WritesReg s (.rem d a b) d (BitVec.ofInt 64 (x.toInt.tmod y.toInt)) 0 4) ∧
    (y ≠ 0 →
      WritesReg s (.divn d a b) d (BitVec.ofNat 64 (x.toNat / y.toNat)) 0 4 ∧
      WritesReg s (.remn d a b) d (BitVec.ofNat 64 (x.toNat % y.toNat)) 0 4))

/-- R54, R76 and LUI of R77: the immediate forms, with the words that R76 and R54 reject. A shift form whose imm12 names
no count 0 to 63, and an LI or LI.HI with a source field in use, are no instructions. -/
def Obligations.ImmediateFormsWriteTheirResult : Prop :=
  (∀ (s : State) (d a : SReg),
    (SReady s .user [d, a] true → ∀ (imm : BitVec 12) (n : BitVec 6),
      let x := s.sget a
      let m := imm.signExtend 64
      WritesReg s (.addi d a imm) d (x + m) 0 4 ∧
      WritesReg s (.andi d a imm) d (x &&& m) 0 4 ∧
      WritesReg s (.ori d a imm) d (x ||| m) 0 4 ∧
      WritesReg s (.xori d a imm) d (x ^^^ m) 0 4 ∧
      WritesReg s (.shli d a n) d (x <<< n.toNat) 0 4 ∧
      WritesReg s (.shri d a n) d (x >>> n.toNat) 0 4 ∧
      WritesReg s (.srai d a n) d (x.sshiftRight n.toNat) 0 4 ∧
      WritesReg s (.slti d a imm) d (if x.toInt < m.toInt then 1 else 0) 0 4) ∧
    (SReady s .user [d] true →
      (∀ i : BitVec 19, WritesReg s (.lui d i) d (((i.setWidth 32) <<< 13).signExtend 64) 0 4) ∧
      (∀ i : Word32, WritesReg s (.li d i) d (i.signExtend 64) 0 8 ∧
        WritesReg s (.liHi d i) d ((s.sget d &&& 0xFFFFFFFF#64) ||| (i.setWidth 64 <<< 32)) 0 8))) ∧
  (∀ w0 w1 : Word32,
    let major := (w0.extractLsb' 26 6).toNat
    (6 ≤ major ∧ major ≤ 8 ∧ w0.extractLsb' 6 6 ≠ 0 → ∀ i, decodeS w0 w1 ≠ .instr i) ∧
    (major = 0x0B ∧ w0.extractLsb' 5 14 ≠ 0 → ∀ i, decodeS w0 w1 ≠ .instr i))

/-- R78 to R81: where each branch and jump goes, what CALL and CALLR leave in s95 and LOOP in its counter; nothing else
changes. A register jump to an address whose low two bits are not zero takes ALIGN with no effect, and words whose
condition or unused fields break the rules are no instructions. -/
def Obligations.TransfersReachTheirTarget : Prop :=
  (∀ (s : State) (a : SReg) (off : BitVec 16) (far : BitVec 26),
    let x := s.sget a
    let pc := s.cur.s.pc
    let near := pc + 4 * off.signExtend 64
    let way := pc + 4 * far.signExtend 64
    (SReady s .user [a] true →
      JumpsTo s (.b .eqz a off) (if x = 0 then near else pc + 4) ∧
      JumpsTo s (.b .nez a off) (if x = 0 then pc + 4 else near) ∧
      JumpsTo s (.b .ltz a off) (if x.toInt < 0 then near else pc + 4) ∧
      JumpsTo s (.b .gez a off) (if x.toInt < 0 then pc + 4 else near) ∧
      JumpsTo s (.b .gtz a off) (if 0 < x.toInt then near else pc + 4) ∧
      JumpsTo s (.b .lez a off) (if 0 < x.toInt then pc + 4 else near) ∧
      JumpsTo s (.b .always a off) near ∧
      (x &&& 3 = 0 → JumpsTo s (.jr a) x) ∧
      (a ≠ 127#7 → JumpsWriting s (.loop a off) (if x = 1 then pc + 4 else near) a (x - 1))) ∧
    (SReady s .user [] true → JumpsTo s (.j far) way) ∧
    (SReady s .user [95#7] true →
      JumpsWriting s (.call far) way 95#7 (pc + 4) ∧
      (s.sget 95#7 &&& 3 = 0 → JumpsTo s .ret (s.sget 95#7))) ∧
    (SReady s .user [a, 95#7] true → x &&& 3 = 0 → JumpsWriting s (.callr a) x 95#7 (pc + 4))) ∧
  (∀ (s u v : State) (i : Instr) (to' : Word) (rs : List SReg) (entry : Word),
    (∃ a, i = .jr a ∧ to' = s.sget a ∧ rs = [a]) ∨ (i = .ret ∧ to' = s.sget 95#7 ∧ rs = [95#7]) ∨
      (∃ a, i = .callr a ∧ to' = s.sget a ∧ rs = [a, 95#7]) →
    SReady s .user rs true → s.cur.sWaits = false → Interruptible s → to' &&& 3 ≠ 0 →
    s.queueMem (s.sStop 0x07 0 0 [⟨255, ⟨0x07, 0, to', 0⟩⟩] 0) = u → u.cur = s.cur → u.strictOf u.cur = false →
    u.vectorEntry (u.coreOf u.cur) (u.ctxOf u.cur) 0x07 = (some (entry, true), v) → v.cur = u.cur → v.canEnter = true →
    ∃ t, exec i s = .next t ∧ t.cur.handler.isSome ∧ t.cur.level = .super ∧ t.cur.s.pc = entry ∧ t.sget 96 = 0x07 ∧
      t.sget 98 = s.cur.s.pc ∧ t.cur.s.regs = s.cur.s.regs ∧ t.cur.flags = s.cur.flags) ∧
  (∀ w0 w1 : Word32,
    let major := (w0.extractLsb' 26 6).toNat
    let cond := (w0.extractLsb' 23 3).toNat
    let fn := (w0.extractLsb' 0 5).toNat
    let refused := ∀ i, decodeS w0 w1 ≠ .instr i
    (major = 0x10 ∧ (cond = 7 ∨ cond = 6 ∧ w0.extractLsb' 16 7 ≠ 0) → refused) ∧
    (major = 0x13 ∧ (2 < fn ∨ w0.extractLsb' 19 7 ≠ 0 ∨ w0.extractLsb' 5 7 ≠ 0 ∨ fn = 1 ∧ w0.extractLsb' 12 7 ≠ 0) → refused) ∧
    (major = 0x14 ∧ (cond ≠ 0 ∨ w0.extractLsb' 16 7 = 127) → refused))

/-- R14, R26, R86, R318: NOP goes on at once; SJOIN once the L-stream is idle, and TRAPFENCE once it is idle and no
trapping flag stands, each joining the streams. Where one stands, TRAPFENCE takes ARITH at its own address, with FLAGS
AND FMASK as hs1 and FLAGS unchanged (R26, R310, R320). R198: a wait on counters goes on once each counter is at most
its limit. -/
def Obligations.JoinsAndCounterWaitsGoOn : Prop :=
  (∀ s : State,
    (SReady s .user [] true → JumpsTo s .nop (s.cur.s.pc + 4)) ∧
    (SReady s .user [] false → s.cur.lIdle = true →
      JoinsTo s .sjoin (s.cur.s.pc + 4) ∧
      (s.cur.flags &&& s.cur.fmask = 0 → JoinsTo s .trapfence (s.cur.s.pc + 4)) ∧
      (∀ (u : State) (entry : Word), s.cur.flags &&& s.cur.fmask ≠ 0 → Interruptible s → u.canEnter = true →
        s.joinS.vectorEntry (s.coreOf s.cur) (s.ctxOf s.cur) 0x11 = (some (entry, true), u) →
        ∃ t, exec .trapfence s = .next t ∧ EntersHandler u t 0x11 ((s.cur.flags &&& s.cur.fmask).setWidth 64) s.cur.s.pc entry))) ∧
  (∀ (s : State) (ld st cp mx : Byte) (p : Counter) (a : SReg),
    (SReady s .user [] true → s.cur.count .ld ≤ ld.toNat → s.cur.count .st ≤ st.toNat → s.cur.count .cp ≤ cp.toNat →
      s.cur.count .mx ≤ mx.toNat → JumpsTo s (.waitc ld st cp mx) (s.cur.s.pc + 8)) ∧
    (SReady s .user [a] true → s.cur.count p ≤ (s.sget a).toNat → JumpsTo s (.waitr p a) (s.cur.s.pc + 4)))

/-- R83 to R85, R12, R315: LRUN and DQPUT append to a decision queue that has room, with the mode of the group, and
RQGET and RQGET.TRY take the oldest result; a full DQ and an empty RQ hold LRUN, DQPUT and RQGET back without any
change. -/
def Obligations.QueueFormsMoveValues : Prop :=
  ∀ (s : State) (d a : SReg) (off : BitVec 19),
    let pc' := s.cur.s.pc + 4
    let appended (e : DqEntry) : State := { s with cur := { s.cur with dq := s.cur.dq ++ [e], s := { s.cur.s with pc := pc' } } }
    let h := s.cur.handler.isSome
    (SReady s .user [a] false →
      (s.cur.dq.length < 16 → exec (.dqput a) s = .next (appended ⟨false, h, s.sget a, s.cur.seq, s.cur.sAfter⟩)) ∧
      (16 ≤ s.cur.dq.length → exec (.dqput a) s = .next s)) ∧
    (SReady s .user [] false → h = false ∨ (s.ctxOf s.cur).hlbase ≠ 0 →
      (s.cur.dq.length < 16 → exec (.lrun off) s = .next (appended ⟨true, h, off.setWidth 64, s.cur.seq, s.cur.sAfter⟩)) ∧
      (16 ≤ s.cur.dq.length → exec (.lrun off) s = .next s)) ∧
    (SReady s .user [d] false →
      (s.cur.rq = [] → exec (.rqget d) s = .next s) ∧
      (∀ v vs, s.cur.rq = v :: vs → ∃ t, exec (.rqget d) s = .next t ∧ t.cur.rq = vs ∧
        t.sget d = (if d = 127#7 then 0 else v) ∧ (∀ r, r ≠ d → t.sget r = s.sget r) ∧ t.cur.s.pc = pc' ∧
        t.cur.s.flags = s.cur.s.flags ∧ t = { s with cur := { s.cur with s := t.cur.s, rq := vs } } ∧ SameMem s t)) ∧
    (SReady s .user [d, a] false → a ≠ d ∨ d = 127#7 →
      (s.cur.rq = [] → WritesReg s (.rqgetTry d a) a 1 0 4) ∧
      (∀ v vs, s.cur.rq = v :: vs → ∃ t, exec (.rqgetTry d a) s = .next t ∧ t.cur.rq = vs ∧
        t.sget d = (if d = 127#7 then 0 else v) ∧ t.sget a = 0 ∧ (∀ r, r ≠ d → r ≠ a → t.sget r = s.sget r) ∧
        t.cur.s.pc = pc' ∧ t.cur.s.flags = s.cur.s.flags ∧ t = { s with cur := { s.cur with s := t.cur.s, rq := vs } } ∧
        SameMem s t))

/-- R312, R313, R318: SYSCALL and BKPT, and a word that is no instruction, take the exception at once when the context's
vector has a handler that may be entered: vector number, value and resume PC in hs0 to hs2, the L-stream state banked
and empty, SUPER, the handler's address (a fetch that faults is StopsReachTheirGroup's). With a debug port attached BKPT
waits for it instead, and DEBUG_PORT_RESUME moves the group past it. -/
def Obligations.ExceptionsEnterTheirHandler : Prop :=
  ∀ (s u : State) (entry : Word) (imm : Bool), Interruptible s →
    (∀ a, SReady s .user [a] false → s.cur.lIdle = true → u.canEnter = true →
      (s.joinS.nextPc 4).vectorEntry (s.coreOf s.cur) (s.ctxOf s.cur) 0x1B = (some (entry, imm), u) →
      ∃ t, exec (.syscall a) s = .next t ∧ EntersHandler u t 0x1B (s.sget a) (s.cur.s.pc + 4) entry) ∧
    (SReady s .user [] false → s.cur.lIdle = true →
      (s.debugging s.cur = false → u.canEnter = true →
        (s.joinS.nextPc 4).vectorEntry (s.coreOf s.cur) (s.ctxOf s.cur) 0x1C = (some (entry, imm), u) →
        ∃ t, exec .bkpt s = .next t ∧ EntersHandler u t 0x1C 0 (s.cur.s.pc + 4) entry) ∧
      (s.debugging s.cur = true → exec .bkpt s = .next { s with cur := { s.cur with wait := .debug, sAfter := s.cur.seq } })) ∧
    (imm = true → u.canEnter = true → s.vectorEntry (s.coreOf s.cur) (s.ctxOf s.cur) 0x01 = (some (entry, imm), u) →
      (s.cur.sWaits = false → ∃ t, exec (.illegalEncoding false) s = .next t ∧ EntersHandler u t 0x01 0 s.cur.s.pc entry) ∧
      (s.cur.lWaits = false → ∃ t, exec (.illegalEncoding true) s = .next t ∧ EntersHandler u t 0x01 0 s.lpc entry)) ∧
    (∀ uid g, s.group? uid = some g → g.wait = .debug →
      ∃ t, exec (.debugPortResume uid) s = .next t ∧
        t.group? uid = some { g with wait := .none, s := { g.s with pc := g.s.pc + 4 } } ∧
        (∀ v, v ≠ uid → t.group? v = s.group? v) ∧ t = { s with cur := t.cur, others := t.others })

/-- R319: RETF out of a handler whose blocks retired no lane, in a context that is not halting: the banked L-stream
state (its paths that hold a lane among it), level and running flag come back, and the S-stream goes on at the PC it
had, or at hs2 where it was the stopped stream and the handler moved hs2. The scalar registers stay as the handler left
them. That an hs2 which is not aligned is taken as it stands is the model's choice (log 129); retired lanes, a halting
context and the resume of a stop of the L-stream are left out. -/
def Obligations.ReturnRestoresTheUser : Prop :=
  ∀ (s : State) (h : Handler), SReady s .super [] false → s.cur.handler = some h → s.cur.lIdle = true →
    s.cur.l.live = h.user.live → (s.ctxOf s.cur).st ≠ .halting → (∀ pc ws, h.wait ≠ .go pc ws) →
    ∃ t, exec .retf s = .next t ∧ t.cur.handler = none ∧ t.cur.level = h.level ∧ t.cur.running = h.running ∧
      t.cur.l.preds = h.user.preds ∧ t.cur.l.k = h.user.k ∧ t.cur.l.stack = h.user.stack ∧ t.cur.l.nest = h.user.nest ∧
      t.cur.l.hold = h.user.hold ∧ t.cur.l.live = h.user.live ∧ t.cur.l.vregs = s.cur.l.vregs ∧ t.cur.latch = h.latch ∧
      (h.stop.l = false →
        t.cur.l.ps0 = h.user.ps0.filter (fun p => p.mask ≠ 0) ∧ t.cur.l.ps1 = h.user.ps1.filter (fun p => p.mask ≠ 0)) ∧
      t.cur.s.pc = (if h.stop.l = false ∧ s.sget 98 ≠ h.stop.pc then s.sget 98 else h.userPc) ∧
      t.cur.s.regs = s.cur.s.regs ∧ t.cur.flags = s.cur.flags ∧ SameMem s t

/-- R150, R151: the last group to arrive at a round of its (sub-)team's barrier, the vote's value counting with those of
the groups before it: it goes on past the instruction, with the result of the vote in its destination. Its stores may
still be on their way (R151). R151: GBAR of the last group of a gang to arrive: it goes on past the instruction. -/
def Obligations.LastArrivalsCompleteTheirRound : Prop :=
  (∀ (s : State) (d a : SReg) (t : Team) (earlier : List (Nat × Word × SReg)),
    s.team? s.cur.team = some t → s.cur.status = .run → s.cur.lIdle = true → FrameHere s →
    s.barsOf s.cur ≠ 0 → (earlier.all fun x => x.1 ≠ s.cur.rank) = true →
    let v := s.viewTeam t
    s.cur.rank ∈ v.members (v.poolOf s.cur.rank) →
    (∀ m ∈ v.members (v.poolOf s.cur.rank), m = s.cur.rank ∨ m ∈ earlier.map Prod.fst) →
    (∀ k : RoundKind,
      (match t.rounds.find? fun x => x.pool == v.poolOf s.cur.rank with
        | none => earlier = []
        | some rd => rd.kind = k ∧ rd.arrived = earlier) →
      let values := earlier.map (fun x => x.2.1) ++ [s.sget a]
      let completes (i : Instr) (w : Word) : Prop :=
        ∃ u, exec i s = .next u ∧ u.cur.wait = .none ∧ u.cur.s.pc = s.cur.s.pc + 4 ∧
          u.sget d = (if d = 127#7 then 0 else w) ∧ (∀ r, r ≠ d → u.sget r = s.sget r) ∧ u.cur.l = s.cur.l ∧
          u.cur.flags = s.cur.flags ∧ SameMem s u
      (SReady s .user [d, a] false →
        (k = .voteAny → completes (.tvoteAny d a) (if values.any (· ≠ 0) then 1 else 0)) ∧
        (k = .voteAll → completes (.tvoteAll d a) (if values.all (· ≠ 0) then 1 else 0)) ∧
        (k = .voteSum → completes (.tvoteSum d a) (values.foldl (· + ·) 0))) ∧
      (SReady s .user [] false → k = .bar →
        ∃ u, exec .bar s = .next u ∧ u.cur.wait = .none ∧ u.cur.s.pc = s.cur.s.pc + 4 ∧ u.cur.s.regs = s.cur.s.regs ∧
          u.cur.l = s.cur.l ∧ u.cur.flags = s.cur.flags ∧ SameMem s u))) ∧
  (∀ (s : State) (t : Team) (g : Gang),
    SReady s .user [] false → s.team? s.cur.team = some t → s.gang? t.gang = some g → s.cur.status = .run →
    s.cur.lIdle = true →
    (t.tid, s.cur.rank) ∈ s.gangMembers t.gang →
    (∀ m ∈ s.gangMembers t.gang, m = (t.tid, s.cur.rank) ∨ m ∈ g.arrived) →
    (ranksOf t.all).contains s.cur.rank = true → t.exited.getLsbD s.cur.rank = false →
    ∃ u, exec .gbar s = .next u ∧ u.cur.wait = .none ∧ u.cur.s.pc = s.cur.s.pc + 4 ∧ u.cur.s.regs = s.cur.s.regs ∧
      u.cur.l = s.cur.l ∧ SameMem s u)

/-- R157 to R160: a team-call over one callee, made by a group alone in its team, enters that callee with its argument,
and one frame records the sub-team. R161, R162: a TRET by the one group of the only sub-team of a division with no
callee left returns past the call with status 0. -/
def Obligations.TeamCallsEnterAndReturn : Prop :=
  ∀ (s : State) (t : Team), s.team? s.cur.team = some t → s.cur.status = .run → s.cur.lIdle = true →
    s.cur.rank ∈ t.members (t.poolOf s.cur.rank) →
    (∀ (d a : SReg) (sp : Bool) (c : Callee) (u : State), SReady s .user [d, a] false → s.barsOf s.cur ≠ 0 →
      State.readTable sp 1 (s.sget a) [] s.joinS = .got [c] u → u.cur = s.joinS.cur → u.teams = s.teams →
      c.weight ≠ 0 → t.members (t.poolOf s.cur.rank) = [s.cur.rank] →
      (t.rounds.find? fun x => x.pool == t.poolOf s.cur.rank) = none → t.frames = [] → d ≠ 127#7 →
      ∃ v, exec (.tcall d a 1 sp) s = .next v ∧ v.cur.wait = .none ∧ v.cur.s.pc = c.entry ∧
        v.sget d = c.arg.signExtend 64 ∧ (∀ r, r ≠ d → v.sget r = s.sget r) ∧ v.cur.l = s.cur.l ∧
        (∃ f, (v.team? t.id).map Team.frames = some [f] ∧ f.mask = (1#16 <<< s.cur.rank) ∧ f.ret = s.cur.s.pc + 8 ∧
          f.argreg = d) ∧ SameMem u v) ∧
    (∀ (f : Frame) (dv : Division), SReady s .user [] false → t.frames = [f] → f.slot = none →
      t.frameOf s.cur.rank = some f → t.divs = [dv] → dv.frames = [f.idx] → dv.deferred = [] → dv.finished = [] →
      dv.addr = f.addr → dv.n = f.n → dv.sp = f.sp → dv.table.length = f.n.toNat → f.mask = (1#16 <<< s.cur.rank) → s.cur.rank < t.ngroups → t.ngroups ≤ 16 →
      ∃ v, exec .tret s = .next v ∧ v.cur.wait = .none ∧ v.cur.s.pc = f.ret ∧ v.sget 0 = 0 ∧
        (∀ r, r ≠ 0 → v.sget r = s.sget r) ∧ v.cur.l = s.cur.l ∧ (v.team? t.id).map Team.frames = some [] ∧ SameMem s v)

/-- R154, R318: EXIT, and HALT at MACH, with the L-stream idle, the group's stores performed and no round of its team or
gang open: the group is gone with its register blocks, and HALT counts an event of the machine log. -/
def Obligations.ExitAndHaltEndTheGroup : Prop :=
  ∀ (s : State) (t : Team) (g : Gang), s.team? s.cur.team = some t → s.gang? t.gang = some g → g.arrived = [] →
    t.rounds = [] → (s.viewTeam t).frameOf s.cur.rank = none → s.cur.lIdle = true → s.cur.count .st = 0 →
    (SReady s .user [] false → ∃ u, exec .exit s = .next u ∧ u.cur.status = .exited ∧
      u.cur.blocks = Vector.replicate 32 .off ∧ u.cur.stops = [] ∧ u.dev.mevt = s.dev.mevt ∧ SameMem s u) ∧
    (SReady s .mach [] false → ∃ u, exec .halt s = .next u ∧ u.cur.status = .exited ∧
      u.cur.blocks = Vector.replicate 32 .off ∧ u.dev.mevt = s.dev.mevt + 1)

/-- R144 to R146: a valid record, read by a group of rank 0 below depth 10 into a pending-launch store with room, under
FREE: LAUNCH and LAUNCH.W enqueue one grid, the child of the issuing group's, and report OK; LWAIT goes on. -/
def Obligations.LaunchesEnqueueOneGrid : Prop :=
  ∀ (s u : State) (d a : SReg) (bs : List Byte),
    let q := quadOf (s.coreOf s.cur)
    (SReady s .user [d, a] false → s.storesBefore false 0 = false → FrameHere s → (s.viewOf s.cur).gidOf s.cur.rank = 0 →
      (s.gridOf s.cur).depth < 10 → s.readRecord (s.sget a) = (.inr bs, u) → u.launchValid (s.ctxOf s.cur) bs = true →
      u.coreOf u.cur = s.coreOf s.cur → u.gridOf u.cur = s.gridOf s.cur → u.cur.s = s.cur.s →
      u.isFree u.cur = true → u.pendingIn q < 64 →
      ∀ i : Instr, i = .launch d a ∨ i = .launchW d a →
      ∃ t g, exec i s = .next t ∧ t.grids = u.grids ++ [g] ∧ g.launch = launchOf bs ∧ g.ctx = (s.gridOf s.cur).ctx ∧
        g.parent = some (s.gridOf s.cur).id ∧ g.depth = (s.gridOf s.cur).depth + 1 ∧ g.pending = true ∧ g.quad = q ∧
        t.sget d = 0 ∧ (∀ r, r ≠ d → t.sget r = s.sget r) ∧ t.cur.s.pc = s.cur.s.pc + 8 ∧ SameMem u t) ∧
    (SReady s .user [] false → s.isFree s.cur = true → s.pendingIn q < 64 → JumpsTo s .lwait (s.cur.s.pc + 8))

/-- R88 to R90, R199, R200: every load whose address passes its checks issues one read of its size at sa plus the
displacement and counts in ld; the register is written by its response. R89, R90, R199 to R202: every store and scalar
atomic whose address passes its checks issues one access of its size with the value of its data register, and the
compare value for an atomic, and counts in st. A scalar load, store, atomic or scratchpad access that fails a check of
R181 or R193 at its issue stops its group at the instruction (R245 to R248): one record with lane 0xFF and the flags of
a read, a write (bit 1) or an atomic (bits 1 and 2) is offered, hv0 to hv3 stand in lane 0, and the handler's blocks
begin with lane 0. -/
def Obligations.GlobalAccessesIssueOnce : Prop :=
  (∀ (s : State) (d a : SReg), SReady s .user [d, a] true → s.cur.count .ld < 255 → s.cur.acquiring false 0 = false →
    let issues (i : Instr) (va : Word) (n : Nat) (signed : Bool) (ord : Order) (sc : Scope) (len : Nat) : Prop :=
      ∀ pa, (s.checkGlobal .read va n).res = .inr pa →
        IssuesOne s (s.checkGlobal .read va n).st i (.load n signed) d ord sc false (reqOf 255 va pa n 0 0) [.ld] len
    (∀ imm : BitVec 12,
      let va := s.sget a + imm.signExtend 64
      issues (.ldS8 d a imm) va 1 true .rlx .grp 4 ∧ issues (.ldS16 d a imm) va 2 true .rlx .grp 4 ∧
      issues (.ldS32 d a imm) va 4 true .rlx .grp 4 ∧ issues (.ld64 d a imm) va 8 false .rlx .grp 4 ∧
      issues (.ldN8 d a imm) va 1 false .rlx .grp 4 ∧ issues (.ldN16 d a imm) va 2 false .rlx .grp 4 ∧
      issues (.ldN32 d a imm) va 4 false .rlx .grp 4) ∧
    (∀ (disp : BitVec 16) (ord : Order) (sc : Scope),
      let va := s.sget a + disp.signExtend 64
      issues (.ldo .s8 ord sc d a disp) va 1 true ord sc 8 ∧ issues (.ldo .s16 ord sc d a disp) va 2 true ord sc 8 ∧
      issues (.ldo .s32 ord sc d a disp) va 4 true ord sc 8 ∧ issues (.ldo .d64 ord sc d a disp) va 8 false ord sc 8 ∧
      issues (.ldo .n8 ord sc d a disp) va 1 false ord sc 8 ∧ issues (.ldo .n16 ord sc d a disp) va 2 false ord sc 8 ∧
      issues (.ldo .n32 ord sc d a disp) va 4 false ord sc 8)) ∧
  (∀ (s : State) (d a : SReg), s.cur.count .st < 255 →
    let x := s.sget d
    (SReady s .user [d, a] false →
      let issues (i : Instr) (va : Word) (n : Nat) (ord : Order) (sc : Scope) (len : Nat) : Prop :=
        ∀ pa, (s.checkGlobal .write va n).res = .inr pa →
          IssuesOne s (s.checkGlobal .write va n).st i (.store n) 0 ord sc false (reqOf 255 va pa n x 0) [.st] len
      (∀ imm : BitVec 12,
        let va := s.sget a + imm.signExtend 64
        issues (.st8 d a imm) va 1 .rlx .grp 4 ∧ issues (.st16 d a imm) va 2 .rlx .grp 4 ∧
        issues (.st32 d a imm) va 4 .rlx .grp 4 ∧ issues (.st64 d a imm) va 8 .rlx .grp 4) ∧
      (∀ (disp : BitVec 16) (ord : Order) (sc : Scope),
        let va := s.sget a + disp.signExtend 64
        issues (.sto .b8 ord sc d a disp) va 1 ord sc 8 ∧ issues (.sto .b16 ord sc d a disp) va 2 ord sc 8 ∧
        issues (.sto .b32 ord sc d a disp) va 4 ord sc 8 ∧ issues (.sto .b64 ord sc d a disp) va 8 ord sc 8)) ∧
    (∀ (op : AtomOp) (w64 : Bool) (ord : Order) (sc : Scope) (b : SReg) (disp : BitVec 16) (pa : Nat),
      SReady s .user [d, a, b] false →
      let n := if w64 then 8 else 4
      let va := s.sget a + disp.signExtend 64
      (s.checkGlobal .atomic va n).res = .inr pa →
      IssuesOne s (s.checkGlobal .atomic va n).st (.satom op w64 ord sc d a b disp) (.satom op n false) d ord sc false
        (reqOf 255 va pa n (s.sget b) x) [.st] 8)) ∧
  (∀ (s : State) (d a b : SReg) (f : MemFault), Interruptible s → s.cur.sWaits = false → s.cur.acquiring false 0 = false →
    s.cur.count .ld < 255 → s.cur.count .st < 255 → s.cur.count .rs < 255 → issueFault f →
    let one : Mask := 1
    let faults (y : State) (i : Instr) (flags : Byte) (wr loc : Bool) : Prop :=
      TakesFaults y (exec i s) [⟨255, f⟩] false false flags s.cur.s.pc wr loc one none
    let global (i : Instr) (k : AccessKind) (flags : Byte) (va : Word) (n : Nat) : Prop :=
      ∀ w, s.checkGlobal k va n = ⟨.inl f, w⟩ → w.cur = s.cur → faults w i flags (k != .read) false
    let window (i : Instr) (k : AccessKind) (flags : Byte) (va : Word) (n : Nat) : Prop :=
      s.outErr va n = some f → faults s i flags (k != .read) true
    (SReady s .user [d, a] true →
      (∀ imm : BitVec 12,
        let load (i : Instr) (n : Nat) : Prop := global i .read 0 (s.sget a + imm.signExtend 64) n
        load (.ldS8 d a imm) 1 ∧ load (.ldS16 d a imm) 2 ∧ load (.ldS32 d a imm) 4 ∧ load (.ld64 d a imm) 8 ∧
        load (.ldN8 d a imm) 1 ∧ load (.ldN16 d a imm) 2 ∧ load (.ldN32 d a imm) 4) ∧
      ∀ (disp : BitVec 16) (ord : Order) (sc : Scope) (sz : LdSize),
        let n : Nat := match sz with | .s8 | .n8 => 1 | .s16 | .n16 => 2 | .s32 | .n32 => 4 | .d64 => 8
        global (.ldo sz ord sc d a disp) .read 0 (s.sget a + disp.signExtend 64) n ∧
        window (.spaccLoad sz ord sc d a disp) .read 0 (s.sget a + disp.signExtend 64) n) ∧
    (SReady s .user [d, a] false →
      (∀ imm : BitVec 12,
        let store (i : Instr) (n : Nat) : Prop := global i .write 0x02 (s.sget a + imm.signExtend 64) n
        store (.st8 d a imm) 1 ∧ store (.st16 d a imm) 2 ∧ store (.st32 d a imm) 4 ∧ store (.st64 d a imm) 8) ∧
      ∀ (disp : BitVec 16) (ord : Order) (sc : Scope) (sz : StSize),
        let n : Nat := match sz with | .b8 => 1 | .b16 => 2 | .b32 => 4 | .b64 => 8
        global (.sto sz ord sc d a disp) .write 0x02 (s.sget a + disp.signExtend 64) n ∧
        (s.releaseHeld false 0 ord sc = false →
          window (.spaccStore sz ord sc d a disp) .write 0x02 (s.sget a + disp.signExtend 64) n)) ∧
    (SReady s .user [d, a, b] false → ∀ (op : AtomOp) (w64 : Bool) (sz : AtSize) (disp : BitVec 16) (ord : Order) (sc : Scope),
      global (.satom op w64 ord sc d a b disp) .atomic 0x06 (s.sget a + disp.signExtend 64) (if w64 then 8 else 4) ∧
      (s.releaseHeld false 0 ord sc = false →
        window (.spaccAtomic sz op ord sc d a b disp) .atomic 0x06 (s.sget a + disp.signExtend 64) (if sz = .d64 then 8 else 4))))

/-- R88, R194, R216: the responses of the only access of a group, an aligned scalar access on memory that nothing holds.
A load writes its register with the bytes at its address, extended as its form says, changes no byte, and ends. A
store's first response performs it (log 116): its bytes stand at its address, no other byte and no register changes; its
second one ends it. -/
def Obligations.ResponsesReadAndWriteMemory : Prop :=
  ∀ (s : State) (a : Access) (r : Req) (n : Nat), OnlyAccess s a r → a.peer = false → r.size = n →
    (n = 1 ∨ n = 2 ∨ n = 4 ∨ n = 8) → s.levelHeld r.pa = false → s.mem.wf = true →
    (∀ (signed : Bool) (d : SReg), a.kind = .load n signed → a.dest = d.setWidth 8 → d.toNat < 96 ∨ d = 127#7 →
      s.readErr s.myPort s.worldOf r.pa = none →
      ∃ t, exec (.loadResponse s.cur.uid a.seq) s = .next t ∧ t.cur.accs = [] ∧
        t.sget d = (if d = 127#7 then 0 else extended n signed (wordOf (s.memRead r.pa n))) ∧
        (∀ q, q ≠ d → t.sget q = s.sget q) ∧ t.cur.s.pc = s.cur.s.pc ∧ t.cur.l = s.cur.l ∧ SameMem s t) ∧
    (a.kind = .store n → s.writeErr s.myPort s.worldOf r.pa false = none →
      ∃ t, exec (.storeResponse s.cur.uid a.seq) s = .next t ∧
        t.cur.accs = [{ a with reqs := [{ r with ans := some 0 }] }] ∧ t.cur.s = s.cur.s ∧ t.cur.l = s.cur.l ∧
        Stored s.mem t.mem (s.place r.pa) n r.data ∧
        ∃ u, exec (.storeResponse s.cur.uid a.seq) t = .next u ∧ u.cur.accs = [] ∧ u.cur.s.regs = s.cur.s.regs ∧
          u.cur.l = s.cur.l ∧ SameMem t u)

/-- R203: a scratchpad access of the own window whose address, bank and order let it act is performed at its issue. A
load writes its register; a store writes its bytes of the scratchpad, and an atomic writes what its operation says and
returns the old bytes; no memory changes. -/
def Obligations.OwnWindowAccessesActAtOnce : Prop :=
  ∀ (s : State) (d a b : SReg) (disp : BitVec 16) (ord : Order) (sc : Scope) (t : Team),
    let va := s.sget a + disp.signExtend 64
    let byte := t.base * 8192 + offsetIn va
    let place := t.core * 2 ^ 19 + byte
    let may (n : Nat) (k : AccessKind) : Prop :=
      s.ownTarget va n = .inr t ∧ s.peerPending false 0 t.id (offsetIn va) n = false ∧ s.ownBank t va n k = .go
    isPeer va = false → s.sp.wf = true →
    (SReady s .user [d, a] true → s.cur.acquiring false 0 = false →
      ∀ (sz : LdSize), may (LdSize.bytes sz) .read → WritesReg s (.spaccLoad sz ord sc d a disp) d
        (extended (LdSize.bytes sz) (LdSize.signed sz) (wordOf (s.sp.read place (LdSize.bytes sz)))) 0 8) ∧
    (SReady s .user [d, a] false → s.releaseHeld false 0 ord sc = false →
      ∀ (sz : StSize), may (StSize.bytes sz) .write →
        ∃ u, exec (.spaccStore sz ord sc d a disp) s = .next u ∧ Stored s.sp u.sp place (StSize.bytes sz) (s.sget d) ∧
          u.cur = { s.cur with s := { s.cur.s with pc := s.cur.s.pc + 8 } } ∧ SameMem s u) ∧
    (SReady s .user [d, a, b] false → s.releaseHeld false 0 ord sc = false → s.isFree s.cur = true →
      ∀ (sz : AtSize) (op : AtomOp), may (AtSize.bytes sz) .atomic →
        let n := AtSize.bytes sz
        let old := wordOf (s.sp.read place n)
        ∃ u, exec (.spaccAtomic sz op ord sc d a b disp) s = .next u ∧
          u.sget d = (if d = 127#7 then 0 else extended n (sz == .s32) old) ∧ (∀ r, r ≠ d → u.sget r = s.sget r) ∧
          u.cur.s.pc = s.cur.s.pc + 8 ∧ SameMem s u ∧
          (match atomNew op n old (s.sget b) (s.sget d) with
            | some w => Stored s.sp u.sp place n w
            | none => u.sp = s.sp))

/-- R181, R203: a scratchpad access whose address takes the peer path issues one peer access and counts in rs, a store
and an atomic in st too. R181, R183: a peer store that is the only access of its group and that nothing holds reaches a
bank that holds data, over a network whose flows stand: its bytes stand in the target window, no other byte of the
scratchpad and no memory changes, and the request is answered. -/
def Obligations.PeerAccessesReachTheirTarget : Prop :=
  (∀ (s : State) (d a b : SReg) (disp : BitVec 16) (ord : Order) (sc : Scope),
    let va := s.sget a + disp.signExtend 64
    let may (n : Nat) : Prop := s.localIssueErr s.cur va n = none ∧ s.localLockErr s.cur va n = none
    isPeer va = true → s.cur.count .rs < 255 → s.cur.count .st < 255 →
    (SReady s .user [d, a] true → s.cur.acquiring false 0 = false → ∀ sz : LdSize, may (LdSize.bytes sz) →
      IssuesOne s s (.spaccLoad sz ord sc d a disp) (.load (LdSize.bytes sz) (LdSize.signed sz)) d ord sc true
        (reqOf 255 va 0 (LdSize.bytes sz) 0 0) [.rs] 8) ∧
    (SReady s .user [d, a] false → ∀ sz : StSize, may (StSize.bytes sz) →
      IssuesOne s s (.spaccStore sz ord sc d a disp) (.store (StSize.bytes sz)) 0 ord sc true
        (reqOf 255 va 0 (StSize.bytes sz) (s.sget d) 0) [.rs, .st] 8) ∧
    (SReady s .user [d, a, b] false → ∀ (sz : AtSize) (op : AtomOp),
      may (AtSize.bytes sz) →
      IssuesOne s s (.spaccAtomic sz op ord sc d a b disp) (.satom op (AtSize.bytes sz) (sz == .s32)) d ord sc true
        (reqOf 255 va 0 (AtSize.bytes sz) (s.sget b) (s.sget d)) [.rs, .st] 8)) ∧
  (∀ (s : State) (a : Access) (r : Req) (t : Team) (n : Nat), OnlyAccess s a r → a.peer = true → a.kind = .store n →
    r.size = n → (n = 1 ∨ n = 2 ∨ n = 4 ∨ n = 8) → s.sp.wf = true →
    s.localTarget s.cur r.va n = .inr t → (t.moving = true → t.id = s.cur.team) →
    s.flowBroken s.worldOf s.myPort (clusterOf t.core) = false →
    (s.core t.core).bankAns (t.base * 8192 + offsetIn r.va) n .write r.va = .go →
    ∃ u, exec (.peerRequest s.cur.uid a.seq) s = .next u ∧
      Stored s.sp u.sp (t.core * 2 ^ 19 + (t.base * 8192 + offsetIn r.va)) n r.data ∧
      u.cur.accs = [{ a with reqs := [{ r with ans := some 0 }] }] ∧ u.cur.s = s.cur.s ∧ SameMem s u)

/-- R208 to R210: a fence of GRP scope, an ACQ fence and FENCE.OWN go on at once; a REL or ACQREL fence goes on and puts
every access that comes before it before each later write of the stream; an SC fence goes on once every store before it
is performed, and waits until then. So does FENCE.REM, where no other group of the scope holds a slot and the issuer has
no store left; otherwise it then waits for each of them, and for its own stores, those of its L-stream too. A drain
request marks the target's point, and the acknowledgement of the only target left completes the fence. That a fence
other than SC waits for nothing at issue, since R194 holds the accesses before it, is the model's reading (log 30).
R198, R207, R208, R211: VFENCE goes on with its path: for .grp and an acquire at once, for a release with what comes
before it put before each later write of its path (log 30), for .sc once every store before it is performed, until when
it waits. VWAITC goes on once each counter is at most its limit, and VPREF at once; VPREF changes no register and no
memory, and without .tlb nothing but its hints. -/
def Obligations.FencesGoOnWhenDrained : Prop :=
  (∀ (s : State) (k : FenceKind) (sc : Scope),
    (SReady s .user [] false →
      (k = .acq ∨ sc = .grp → JumpsTo s (.fence k sc) (s.cur.s.pc + 4)) ∧
      ((k = .rel ∨ k = .acqrel) → sc ≠ .grp →
        exec (.fence k sc) s = .next { s with cur := { s.cur.fence false 0 with s := { s.cur.s with pc := s.cur.s.pc + 4 } } } ∧
        ∀ a ∈ s.cur.accs, s.cur.before false 0 a = true →
          ∀ o sc', a.seq ∈ (s.cur.fence false 0).needsOf false 0 true o sc') ∧
      (k = .sc → sc ≠ .grp → s.storesBefore false 0 = true →
        exec (.fence k sc) s = .next s ∧ exec (.fenceRem sc) s = .next s) ∧
      (s.storesBefore false 0 = false ∨ sc = .grp →
        let own := if s.cur.storesOut then [(s.cur.uid, some s.cur.seq)] else []
        (k = .sc → JumpsTo s (.fence k sc) (s.cur.s.pc + 4)) ∧
        (s.inScope sc = [] ∧ s.cur.storesOut = false → JumpsTo s (.fenceRem sc) (s.cur.s.pc + 4)) ∧
        (s.inScope sc ≠ [] ∨ s.cur.storesOut = true → exec (.fenceRem sc) s = .next { s with cur := { s.cur with
          wait := .fenceRem (((s.inScope sc).map fun g => (g.uid, none)) ++ own) } })) ∧
      JumpsTo s .fenceOwn (s.cur.s.pc + 4)) ∧
    (∀ (x : Group) (m : Option Nat), s.cur.handler = none → s.cur.wait = .fenceRem [(x.uid, m)] → x.uid ≠ s.cur.uid →
      s.group? x.uid = some x → (∀ g ∈ s.others, g.uid ≠ s.cur.uid) →
      (m = none → exec (.remDrainRequest s.cur.uid x.uid) s =
        .next { s with cur := { s.cur with wait := .fenceRem [(x.uid, some x.seq)] } }) ∧
      (∀ p, m = some p → (x.handler.isSome = true ∨
          ∀ a ∈ x.accs, a.seq < p → a.valued = true ∨ a.allKnown = true) →
        exec (.remDrainAck s.cur.uid x.uid) s =
          .next { s with cur := { s.cur with wait := .none, s := { s.cur.s with pc := s.cur.s.pc + 4 } } }))) ∧
  (∀ (s : State) (o : LOp) (p : Path) (vs : List Word) (g : Group),
    let next : State := s.withL (s.cur.l.setPath s.ps1 (some ⟨p.pc + 3, p.mask⟩))
    let after (g : Group) : State := { s with cur := { g with l := s.cur.l.setPath s.ps1 (some ⟨p.pc + 3, p.mask⟩) } }
    let grown := s.cur.grow p.mask
    let limit (i : Nat) : Nat := (o.w2.extractLsb' (8 * i) 8).toNat
    (LReady s { free := false } p vs g →
      let grp : Prop := o.mods.extractLsb' 0 3 = 0
      let kind := (o.mods.extractLsb' 3 2).toNat
      (grp ∨ kind = 0 ∨ kind = 3 ∧ s.storesBefore true p.mask = false → exec (.vfence o) s = .next (after grown)) ∧
      (¬ grp → kind = 3 → s.storesBefore true p.mask = true → exec (.vfence o) s = .next s) ∧
      (¬ grp → kind = 1 ∨ kind = 2 → exec (.vfence o) s = .next (after (grown.fence true p.mask)))) ∧
    (LReady s {} p vs g → s.cur.count .ld ≤ limit 0 → s.cur.count .st ≤ limit 1 → s.cur.count .cp ≤ limit 2 →
      s.cur.count .mx ≤ limit 3 → s.cur.count .rs ≤ o.vd.toNat → exec (.vwaitc o) s = .next next) ∧
    (LReady s (memUse o false false false true) p vs g →
      ∃ t, exec (.vpref o) s = .next t ∧ t.cur.path s.ps1 = some ⟨p.pc + 3, p.mask⟩ ∧ t.cur.dq = g.dq ∧
        (∀ r, t.cur.vget r = s.cur.vget r ∧ t.cur.vlife r = lifeAfter s (memUse o false false false true).reads r) ∧
        t = { s with cur := t.cur, cores := t.cores } ∧ SameMem s t ∧
        (o.mods.extractLsb' 3 3 ≠ 1 → t.cores = s.cores)))

/-- R212: MWAIT returns a doubleword that differs from sb, and sleeps on its line while it is equal; a sleeping MWAIT
whose line was written, or whose time is over, reads again and returns a value that differs, or any value at its time
limit. That an MWAIT reads and returns within one step, where R194 lets it be outstanding, is the model's choice (log
24). -/
def Obligations.WaitOnAWordReturnsIt : Prop :=
  ∀ (s u : State) (pa : Nat) (x : Word),
    (∀ (ord : Order) (sc : Scope) (d a b : SReg) (tmo : BitVec 27), SReady s .user [d, a, b] false →
      s.mwaitRead (s.sget a) = (.inr (pa, x), u) →
      (x ≠ s.sget b → WritesFrom s u (.mwait ord sc d a b tmo) d x 8) ∧
      (x = s.sget b → exec (.mwait ord sc d a b tmo) s = .next { u with cur := { u.cur with
        wait := .mwait s.time (s.place pa / 64) false d (s.sget a) (s.sget b) tmo.toNat } })) ∧
    (∀ (start line tmo : Nat) (woken : Bool) (d : SReg) (va cmp : Word),
      s.cur.wait = .mwait start line woken d va cmp tmo → s.issues s.cur = true → d.toNat < 96 →
      s.mwaitRead va = (.inr (pa, x), u) →
      let returns (i : Instr) : Prop := ∃ t, exec i s = .next t ∧ t.cur.wait = .none ∧ t.sget d = x ∧
        (∀ r, r ≠ d → t.sget r = u.sget r) ∧ t.cur.s.pc = u.cur.s.pc + 8 ∧ SameMem u t
      (woken = true → x ≠ cmp → returns (.mwaitWake s.cur.uid)) ∧
      (tmo ≠ 0 → 1000 * tmo ≤ s.time - start → returns (.mwaitTimeout s.cur.uid)))

/-- R194, R196, R214: QTAKE and QPUT on an address that passes its checks issue one access each, ACQ and REL, that
awaits its result in sd; QPUT counts in st. R213, R214: the response of a queue operation under FREE, the only access of
its group, on a well-formed descriptor. QTAKE from a queue with an entry returns its address and raises the head by one;
from an empty one it returns 0. QPUT into a queue with room writes its value to the entry of the tail, raises the tail
by one and returns 0; into a full one it returns 1. -/
def Obligations.QueueOperationsMoveTheIndex : Prop :=
  (∀ (s : State) (sc : Scope) (d a b : SReg) (pa : Nat),
    let va := s.sget a
    let u := (s.checkRange .atomic va 64 64).st
    (s.checkRange .atomic va 64 64).res = .inr pa →
    (SReady s .user [d, a] false →
      IssuesOne s u (.qtake sc d a) (.queue false) d .acq sc false (reqOf 255 va pa 64 0 0) [] 8) ∧
    (SReady s .user [d, a, b] false → s.cur.count .st < 255 →
      IssuesOne s u (.qput sc d a b) (.queue true) d .rel sc false (reqOf 255 va pa 64 (s.sget b) 0) [.st] 8)) ∧
  (∀ (s : State) (x : Access) (r : Req) (q : Queue) (d : SReg), OnlyAccess s x r → x.peer = false →
    x.dest = d.setWidth 8 → d.toNat < 96 ∨ d = 127#7 → s.levelHeld r.pa = false → s.isFree s.cur = true →
    s.readErr s.myPort s.worldOf r.pa = none → queueOf (s.memRead r.pa 64) = some q → s.mem.wf = true →
    let n := (q.tail - q.head).toNat
    let ends (v : Word) (M : State → Prop) : Prop := ∃ t, exec (.loadResponse s.cur.uid x.seq) s = .next t ∧
      t.cur.accs = [] ∧ t.sget d = (if d = 127#7 then 0 else v) ∧ (∀ p, p ≠ d → t.sget p = s.sget p) ∧
      t.cur.s.pc = s.cur.s.pc ∧ M t
    (x.kind = .queue false →
      (1 ≤ n → n ≤ q.cap → ends (q.base + BitVec.ofNat 64 (q.head.toNat % q.cap * 2 ^ (4 + q.esize))) fun t =>
        Stored s.mem t.mem (s.place (r.pa + 8)) 8 (q.head + 1)) ∧
      (n = 0 → ends 0 (SameMem s))) ∧
    (x.kind = .queue true →
      (q.cap ≤ n → ends 1 (SameMem s)) ∧
      (∀ (v : State) (ep : Nat), n < q.cap →
        s.checkGlobal .write (q.base + BitVec.ofNat 64 (q.tail.toNat % q.cap * 2 ^ (4 + q.esize))) 8 = ⟨.inr ep, v⟩ →
        v.levelHeld ep = false → v.writeErr s.myPort s.worldOf ep false = none → v.cur = s.cur → v.parts = s.parts →
        v.mem.wf = true →
        ends 0 fun t => ∃ m, Stored v.mem m (v.place ep) 8 r.data ∧ Stored m t.mem (v.place r.pa) 8 (q.tail + 1))))

/-- R183, R185: SPHINT with the L-stream idle, over banks of the window that no command holds and no wake is under way
in: FULL wakes or powers up each bank that does not hold data, RET lowers each FULL bank, OFF turns each bank off; no
other bank changes, and a range of no bank changes none. -/
def Obligations.BankHintsChangeTheirBanks : Prop :=
  ∀ (s : State) (t : Team) (st : BankHint) (a b : SReg), SReady s .user [a, b] false → s.team? s.cur.team = some t →
    s.cur.lIdle = true → t.core < 192 →
    let first := (s.sget a).toNat
    let n := (s.sget b).toNat
    first + n ≤ t.spbytes / 8192 → t.spbytes ≤ 393216 → t.base + t.spbytes / 8192 ≤ 48 →
    (∀ i, first ≤ i → i < first + n → s.windowLocked (s.gridOf s.cur).ctx t (8192 * i) 8192 = false ∧
      (s.core t.core).bankWaking (t.base + i) = false) →
    ∃ u, exec (.sphint st a b) s = .next u ∧
      u.cur = { s.cur with s := { s.cur.s with pc := s.cur.s.pc + 8 }, sAfter := s.cur.seq } ∧ SameMem s u ∧
      (∀ c, c ≠ t.core → u.core c = s.core c) ∧
      (∀ j, j < 48 → look (u.core t.core).banks j .off =
        let old := look (s.core t.core).banks j .off
        if t.base + first ≤ j ∧ j < t.base + first + n then
          (match st with
            | .full => if old = .full then .full else .waking (s.cyclesOf t.core + 40) (old == .ret)
            | .ret => if old = .full then .ret else old
            | .off => .off)
        else old)

/-- R255, R261, R262, R266: a CPY whose record and sides pass its checks registers one command with the record, bases,
direction, k and tag it was issued with, holds the range of each side, counts in cp and goes on. Stores before it may
still be on their way. R256, R259, R262, R263, R266: a registered command with no conflicting earlier range begins; an
element that both sides let through moves its bytes and the cursor; a command at its end leaves with its locks, and its
count falls when it is the oldest. -/
def Obligations.CopiesMoveTheirElements : Prop :=
  (∀ (s u : State) (dir : CopyDir) (d a b : SReg) (k tag : BitVec 4) (raw : List Byte),
    SReady s .user [d, a, b] false → (s.ctxOf s.cur).st ≠ .halting →
    (s.ctxOf s.cur).st ≠ .halted → s.readTensor (s.sget b) = (.inr raw, u) → u.cur = s.cur →
    u.copyErr dir tag.toNat k.toNat (s.sget b) (s.sget a) (s.sget d) (tensorOf raw) raw = none →
    s.cur.count .cp < 255 → s.lockRoom 2 = true →
    ∃ t c, exec (.cpy dir d a b k tag) s = .next t ∧ t.copies = u.copies ++ [c] ∧ c.tensor = tensorOf raw ∧
      c.src = s.sget a ∧ c.dst = s.sget d ∧ c.dir = dir ∧ c.k = k.toNat ∧ c.tag = tag.toNat ∧ c.pc = s.cur.s.pc ∧
      c.st = .registered ∧ c.cursor = 0 ∧ c.uid = s.cur.uid ∧ t.locks.length = u.locks.length + 2 ∧
      (∀ l ∈ u.locks, l ∈ t.locks) ∧ t.cur.tokens = s.cur.tokens ++ [⟨.cp, c.id, false⟩] ∧
      t.cur.s = { s.cur.s with pc := s.cur.s.pc + 8 } ∧ SameMem u t) ∧
  (∀ (s : State) (c : Copy), s.copy? c.id = some c →
    (c.st = .registered → s.lockConflict c.id = false →
      ∃ t, exec (.copyBegin c.id) s = .next t ∧ t.copy? c.id = some { c with st := .running } ∧ t = { s with copies := t.copies }) ∧
    (∀ (x : Ctx) (g : Group) (u v : State) (bs : List Byte), s.ctx? c.ctx = some x → s.group? c.uid = some g → c.st = .running →
      c.cursor < c.tensor.count →
      (s.walkAhead c x).engineRead c.core x c g (CopyDir.srcLocal c.dir)
        (c.src + BitVec.ofInt 64 (c.tensor.offset c.tensor.es c.tensor.ss c.cursor)) (c.tensor.ed c.k) = .ok u bs →
      u.copy? c.id = some c →
      let to' := c.dst + BitVec.ofInt 64 (c.tensor.offset (c.tensor.ed c.k) c.tensor.ds c.cursor)
      (CopyDir.dstWb c.dir = true →
        ∃ t, exec (.copyElement c.id) s = .next t ∧ t.copy? c.id = some { c with cursor := c.cursor + 1 } ∧
          t.wb = u.wb.write (c.core * 2 ^ 18 + c.tag * 2 ^ 14 + to'.toNat) bs ∧ t.sp = u.sp ∧ SameMem u t) ∧
      (CopyDir.dstWb c.dir = false → u.engineWrite c.core x c g (CopyDir.dstLocal c.dir) to' bs = .ok v [] →
        v.copy? c.id = some c →
        ∃ t, exec (.copyElement c.id) s = .next t ∧ t.copy? c.id = some { c with cursor := c.cursor + 1 } ∧
          t = { v with copies := t.copies })) ∧
    (∀ (g : Group) (rest : List Token), c.st = .finished ∨ c.st = .running ∧ c.cursor = c.tensor.count →
      s.group? c.uid = some g → g.tokens = ⟨.cp, c.id, false⟩ :: rest → (∀ x ∈ rest, x.done = false) →
      (∀ x ∈ rest, x.id = c.id → x.cls ≠ .cp ∧ x.cls ≠ .mx) →
      ∃ t, exec (.copyComplete c.id) s = .next t ∧ (∀ x ∈ t.copies, x.id ≠ c.id) ∧ (∀ l ∈ t.locks, l.cmd ≠ c.id) ∧
        t.group? c.uid = some { g with tokens := rest } ∧ SameMem s t))

/-- R295, R296, R277, R308: a WLOAD outside a handler of a tag the team holds, with a format that may serve as B and
ranges inside the region, queues one command, holds its ranges, counts in mx, makes its format the tag's latest, and
goes on. R274, R277, R280, R281, R293, R308: an MMA outside a handler of an ACTIVE tag that the team holds, with a
well-formed format block that fits the tag's latest WLOAD, queues one command with the rows of its register images, in
row order, and the block's format, scales and override; counts in mx and goes on; the latch takes the rows with .reuse.
R277, R297 to R300, R308: outside a handler MDRAIN, MDRSP and MZERO of an ACTIVE tag that the team holds queue one
command with their rows, target, type and options; count in mx and go on. A drain to registers holds them until it ends,
one to the scratchpad holds its range. -/
def Obligations.MatrixInstructionsQueueOneCommand : Prop :=
  (∀ (s : State) (tag : BitVec 4) (fmt : Byte) (blen : BitVec 2) (b128 : Bool) (a b : SReg),
    SReady s .user [a, b] false → s.cur.handler = none → s.tagErr tag.toNat = none → s.tagDying tag.toNat = false → wloadOk fmt blen b128 = true →
    (s.sget a).toNat % 64 = 0 → (s.sget b).toNat % 64 = 0 → (s.sget a).toNat + 128 * mxCol fmt b128 ≤ 16384 →
    (blen ≠ 0 → (s.sget b).toNat + 256 * mxBlocks fmt b128 blen ≤ 16384) → s.cur.count .mx < 255 →
    s.tagQueued tag.toNat < 8 → s.lockRoom 2 = true → s.coreOf s.cur < 192 →
    ∃ t c, exec (.wload tag fmt blen b128 a b) s = .next t ∧ t.cmds = s.cmds ++ [c] ∧
      c.kind = .wload fmt blen b128 (s.sget a).toNat (s.sget b).toNat ∧ c.tag = tag.toNat ∧ c.core = s.coreOf s.cur ∧
      c.pc = s.cur.s.pc ∧ (t.tag (s.coreOf s.cur) tag.toNat).issued = some (fmt, blen, b128) ∧
      t.locks.length = s.locks.length + (if mxBlocks fmt b128 blen = 0 then 1 else 2) ∧
      t.cur.tokens = s.cur.tokens ++ [⟨.mx, c.id, false⟩] ∧ t.cur.s = { s.cur.s with pc := s.cur.s.pc + 8 } ∧ SameMem s t) ∧
  (∀ (s w : State) (o : LOp) (p : Path) (vs : List Word) (g : Group) (bs : List Byte) (b : Byte × BitVec 2 × Bool),
    let use : LUse := ({ free := false } : LUse).withC o.c
    let f := formatBlock bs
    let tag := (o.w2.extractLsb' 0 4).toNat
    let m := (o.w2.extractLsb' 4 5).toNat + 1
    let rb := (o.w2.extractLsb' 9 5).toNat
    let len : Nat := if b.2.2 then 128 else 64
    let n := (m * len + 511) / 512
    let base : Word := match o.c with
      | .vec _ _ => 0
      | .imm => o.w2.setWidth 64
      | .dq => vs.headD 0
      | .kreg n => look s.cur.l.k n.toNat 0
    let regs := (List.range n).map fun i => o.a.r + BitVec.ofNat 8 i
    LReady s use p vs g → s.cur.handler = none → (∀ r h, o.c ≠ .vec r h) → rb + m ≤ 32 → s.tagErr tag = none → s.tagDying tag = false →
    s.cur.count .mx < 255 → s.readLocal16 base = .got bs w → f.bad = false → f.base.toNat % 2 = 0 → f.stride % 2 = 0 →
    (s.tag (s.coreOf s.cur) tag).issued = some b → f.fits b = true → s.mmaRoom tag = true → o.a.r ≠ 255 →
    s.cur.rangeBad o.a.r n = false → (∀ r ∈ regs, (s.cur.vlife r = .live ∨ s.cur.vlife r = .rest) ∧ s.cur.powered r = true) →
    s.cur.lBusy { reads := regs.map fun r => (r, o.a.hint) } = false → b.2.1 = 0 →
    ∃ t c rows, exec (.mma o) s = .next t ∧ t.cmds = s.cmds ++ [c] ∧ c.tag = tag ∧ c.core = s.coreOf s.cur ∧
      c.kind = .mma rb m rows f.afmt b.1 b.2.1 b.2.2 (f.flags == 1) f.base f.stride (s.cyclesOf (s.coreOf s.cur)) ∧
      rows.length = m ∧
      (∀ i, i < m → ∀ j, j < len → (rows.getD i []).getD j 0 =
        (look (s.cur.vget (o.a.r + BitVec.ofNat 8 ((len * i + j) / 512))) ((len * i + j) % 512 / 4) 0).extractLsb'
          (8 * (j % 4)) 8) ∧
      (o.mods.getLsbD 0 = true → t.cur.latch = some ⟨rows, len⟩) ∧ (o.mods.getLsbD 0 = false → t.cur.latch = s.cur.latch) ∧
      t.cur.tokens = s.cur.tokens ++ [⟨.mx, c.id, false⟩] ∧ t.locks = s.locks ∧ t.cur.dq = g.dq ∧
      t.cur.path s.ps1 = some ⟨p.pc + 3, p.mask⟩ ∧
      (∀ r, t.cur.vget r = s.cur.vget r ∧
        t.cur.vlife r = lifeAfter s (regs.map fun r => (r, o.a.hint)) r) ∧ SameMem s t) ∧
  (∀ (s : State) (o : LOp) (p : Path) (vs : List Word) (g : Group),
    let tag := (o.w2.extractLsb' 0 4).toNat
    let m := (o.w2.extractLsb' 4 5).toNat + 1
    let rb := (o.w2.extractLsb' 9 5).toNat
    let mode : Rnd := if o.rnd = 0 then .rne else if o.rnd = 1 then .rtz else if o.rnd = 2 then .rdn else .rup
    let queues (i : Instr) (use : LUse) (kind : MxKind) : Prop :=
      ∃ t c, exec i s = .next t ∧ t.cmds = s.cmds ++ [c] ∧ c.tag = tag ∧ c.core = s.coreOf s.cur ∧ c.kind = kind ∧
        t.cur.tokens = s.cur.tokens ++ [⟨.mx, c.id, false⟩] ∧ t.cur.path s.ps1 = some ⟨p.pc + 3, p.mask⟩ ∧
        t.cur.dq = g.dq ∧ (∀ r, t.cur.vget r = s.cur.vget r ∧ t.cur.vlife r = lifeAfter s use.reads r) ∧ SameMem s t
    rb + m ≤ 32 → s.cur.handler = none → s.tagErr tag = none → s.tagDying tag = false → s.cur.count .mx < 255 →
    s.tagQueued tag < 8 →
    let pops : Nat := if o.mods.getLsbD 3 then 3 else 0
    let drop (vs : List Word) : Option (Word × Word × Word) :=
      if o.mods.getLsbD 3 then some (vs.getD 0 0, vs.getD 1 0, vs.getD 2 0) else none
    (LReady s { free := false } p vs g → queues (.mzero o) {} (.mzero rb m)) ∧
    (LReady s { free := false, pops := pops } p vs g → s.cur.rangeBad o.vd m = false → o.mods.getLsbD 2 = false →
      s.cur.lBusy { writes := (List.range m).map fun i => o.vd + BitVec.ofNat 8 i } = false →
      (∀ i, i < m → s.cur.powered (o.vd + BitVec.ofNat 8 i) = true) →
      queues (.mdrain o) {} (.drain false o.vd 0 o.ty mode (o.mods.getLsbD 0) (o.mods.getLsbD 1) (drop vs) rb m [] vs s.cur.seq)) ∧
    (∀ (base : Word) (t : Team), LReady s (({ free := false, pops := pops } : LUse).withC o.c) p vs g →
      (∀ r h, o.c ≠ .vec r h) → o.mods.getLsbD 2 = false → s.cur.c64 o vs = base → s.localRange base 64 (m * 128 * (4 / o.ty.count)) = .inr t →
      s.lockRoom 1 = true →
      (∀ t', s.targetTeam s.cur base = some t' →
        s.peerPending true p.mask t'.id (offsetIn base) (m * 128 * (4 / o.ty.count)) = false) →
      queues (.mdrsp o) (({ free := false, pops := pops } : LUse).withC o.c)
        (.drain true o.vd base o.ty mode (o.mods.getLsbD 0) (o.mods.getLsbD 1)
          (drop (vs.drop (if o.c = .dq then 1 else 0))) rb m [] vs s.cur.seq)))

/-- R395, R396: STEP.BEGIN takes the lowest FREE entry of the core with the next generation and returns its handle;
STEP.PROG raises the work done, up to 2^34 - 1, and STEP.END frees the entry and returns the slack, of the entry that a
handle of the group's team names. -/
def Obligations.StepFormsKeepTheirEntry : Prop :=
  ∀ (s : State) (d a b : SReg) (i : Nat), s.coreOf s.cur < 192 → i < 16 →
    let core := s.coreOf s.cur
    let e := look (s.core core).steps i .free
    let after (t : State) := look (t.core core).steps i .free
    let goes (x : Instr) (w : Word) (t : State) : Prop :=
      exec x s = .next t ∧ t.sget d = (if d = 127#7 then 0 else w) ∧ (∀ r, r ≠ d → t.sget r = s.sget r) ∧
        t.cur.s.pc = s.cur.s.pc + 8 ∧ SameMem s t ∧
        (∀ j, j ≠ i → look (t.core core).steps j .free = look (s.core core).steps j .free)
    (SReady s .user [d, a, b] false → (s.sget b).toNat < 2 ^ 34 → e.st = .free →
      (∀ j, j < i → (look (s.core core).steps j .free).st ≠ .free) →
      ∃ t, goes (.stepBegin d a b) (BitVec.ofNat 64 ((e.gen + 1).toNat * 16 + i)) t ∧
        (after t).toStepView =
          ⟨.active, (s.gridOf s.cur).ctx, s.cur.team, s.cur.uid, s.cur.s.pc, s.sget a, (s.sget b).toNat, 0, e.gen + 1⟩) ∧
    (s.sget a = BitVec.ofNat 64 (e.gen.toNat * 16 + i) → e.st ≠ .free → e.team = s.cur.team →
      (SReady s .user [d, a, b] false → ∃ t, goes (.stepProg d a b) 0 t ∧
        (after t).toStepView = { e.toStepView with done := max e.done (min (s.sget b).toNat (2 ^ 34 - 1)) }) ∧
      (SReady s .user [d, a] false → ∃ t, goes (.stepEnd d a) (e.d - BitVec.ofNat 64 s.time) t ∧
        (after t).toStepView = { e.toStepView with st := .free }))

/-- R23, R82: RDSR of a listed register at its level writes its value: the register summary's identity, time, flag and
configuration registers as they stand in the state, behind no access (R194). FLAGS shows what earlier instructions of
the S-stream have set behind an access that awaits its value, too (R9). R5, R23, R82: WRSR of a listed register at its
write level changes the register's writable fields and nothing else: FLAGS and FMASK of the group, FVEC, FRQB, FRQH and
FTPN of its own context (log 85), the cadence of its core, and device registers; a write of PTROOT of its own context
(log 85) takes the value and waits for the invalidation of the context's address space (R247). -/
def Obligations.SpecialRegistersReadAndWrite : Prop :=
  (∀ (s : State) (d : SReg), SReady s .user [d] true →
    let reads (n : BitVec 12) (v : Word) : Prop := WritesReg s (.rdsr d n) d v 0 4
    let t := s.teamOf s.cur
    reads 0x001 (BitVec.ofNat 64 t.tid) ∧ reads 0x002 (BitVec.ofNat 64 (s.gangOf s.cur).num) ∧
    reads 0x003 ((s.gridOf s.cur).num.setWidth 64) ∧ reads 0x004 (BitVec.ofNat 64 t.lcore) ∧
    reads 0x006 (BitVec.ofNat 64 (s.gangOf s.cur).nteams) ∧ reads 0x010 (BitVec.ofNat 64 s.time) ∧
    reads 0x011 (BitVec.ofNat 64 s.cur.cycle) ∧ reads 0x020 ((s.cur.flags ||| s.cur.s.flags).setWidth 64) ∧
    reads 0x021 (s.cur.fmask.setWidth 64) ∧ reads 0x030 ((s.cur.done.extractLsb' 0 32).setWidth 64) ∧
    reads 0x033 ((s.cur.done.extractLsb' 96 32).setWidth 64) ∧ reads 0x050 s.cur.mxst ∧ reads 0x051 (t.tags.setWidth 64) ∧
    (s.cur.level ≠ .user →
      reads 0x102 (BitVec.ofNat 64 (s.coreOf s.cur)) ∧ reads 0x112 ((s.ctxOf s.cur).world.setWidth 64) ∧
      reads 0x172 ((s.ctxOf s.cur).frqh.setWidth 64) ∧ reads 0x174 (s.ctxOf s.cur).ftpb ∧ reads 0x175 (s.ctxOf s.cur).ftpn) ∧
    (s.cur.level = .mach →
      reads 0x1C0 (s.dev.pcap.setWidth 64) ∧ reads 0x1C6 (s.dev.guard.setWidth 64) ∧
      reads 0x1C7 (s.dev.domsel.setWidth 64) ∧ reads 0x1E3 (BitVec.ofNat 64 s.dev.mevt)) ∧
    (∀ n : BitVec 12, srFault s.cur.level false n.toNat = none → s.noSensor n.toNat = false →
      (n = 0x000 ∨ n = 0x005 → FrameHere s) → reads n (s.srRead n.toNat))) ∧
  (∀ (s : State) (a : SReg), SReady s .user [a] false →
    let v := s.sget a
    let moved : SState := { s.cur.s with pc := s.cur.s.pc + 4 }
    let next : State := { s with cur := { s.cur with s := moved } }
    exec (.wrsr a 0x020) s = .next { s with cur := { s.cur with s := moved, flags := v.setWidth 8 } } ∧
    exec (.wrsr a 0x021) s = .next { s with cur := { s.cur with s := moved, fmask := v.setWidth 8 } } ∧
    (s.cur.level ≠ .user →
      exec (.wrsr a 0x100) s = .next (next.mapCtx (s.ctxOf s.cur).id fun c => { c with fvec := v &&& 0x01FFFFFFFFFFFF00 }) ∧
      exec (.wrsr a 0x172) s = .next (next.mapCtx (s.ctxOf s.cur).id fun c => { c with frqh := v.setWidth 32 }) ∧
      exec (.wrsr a 0x175) s = .next (next.mapCtx (s.ctxOf s.cur).id fun c => { c with ftpn := v })) ∧
    (s.cur.level = .mach →
      exec (.wrsr a 0x171) s = .next (next.mapCtx (s.ctxOf s.cur).id fun c => { c with frqb := v &&& 0x01FFFFFFFFFFC000 }) ∧
      exec (.wrsr a 0x1A0) s = .next (next.mapCore (s.coreOf s.cur) fun c => { c with basem1 := v.extractLsb' 0 4 }) ∧
      exec (.wrsr a 0x1B0) s = .next { next with dev := { s.dev with ctxsel := v.setWidth 12 } } ∧
      exec (.wrsr a 0x1C0) s = .next { next with dev := { s.dev with pcap := v.setWidth 16 } } ∧
      exec (.wrsr a 0x1C6) s = .next { next with dev := { s.dev with guard := v.setWidth 32 } } ∧
      (∃ t, exec (.wrsr a 0x170) s = .next t ∧ t.cur.wait = .inval s.nextId 4 [] ∧
        t.ctxs = s.ctxs.map (fun c => if c.id == (s.ctxOf s.cur).id then { c with ptroot := v &&& 0x000FFFFFFFFFF000 } else c) ∧
        (t.invals.map Inval.id) = s.invals.map Inval.id ++ [s.nextId] ∧ t.cur.s = s.cur.s ∧ SameMem s t)))

/-- R325, R326: TAGSET of a FREE tag, with a bank and a slot that no tag holds and no move reserves, makes it ACTIVE for
its owner: the issuing context at SUPER, the context named at MACH. TAGKILL of an ACTIVE tag, of the issuing context or
at MACH of any, makes it DYING, where no drain waits in its queue. Both report OK. -/
def Obligations.TagFormsChangeTheTag : Prop :=
  ∀ (s : State) (d a : SReg), SReady s .super [d, a] false → s.coreOf s.cur < 192 →
    let v := s.sget a
    let core := s.coreOf s.cur
    let n := v.toNat % 16
    let x := s.tag core n
    let owner : Nat := if s.cur.level = .mach then (v.extractLsb' 32 12).toNat else (s.ctxOf s.cur).id
    let goes (i : Instr) (t : State) : Prop :=
      exec i s = .next t ∧ t.sget d = 0 ∧ (∀ r, r ≠ d → t.sget r = s.sget r) ∧ t.cur.s.pc = s.cur.s.pc + 8 ∧ SameMem s t
    (v &&& ~~~0x00000FFF00003FFF#64 = 0 → s.cur.level = .mach ∨ v.extractLsb' 32 12 = 0 → s.ownsCore owner core = true →
      x.st = .free → s.tagReserved core n (v.extractLsb' 4 4) (v.extractLsb' 8 3) = false →
      (∀ m, m < 16 → (s.tag core m).st ≠ .free →
        (s.tag core m).bank ≠ v.extractLsb' 4 4 ∧ (s.tag core m).slot ≠ v.extractLsb' 8 3) →
      ∃ t, goes (.tagset d a) t ∧ (t.tag core n).st = .active ∧ (t.tag core n).ctx = BitVec.ofNat 12 owner ∧
        (t.tag core n).bank = v.extractLsb' 4 4 ∧ (t.tag core n).slot = v.extractLsb' 8 3 ∧
        (t.tag core n).qm1 = v.extractLsb' 11 3 ∧ (t.tag core n).pois = 0 ∧ (∀ m, m ≠ n → t.tag core m = s.tag core m)) ∧
    (v < 16 → x.st = .active → s.cur.level = .mach ∨ x.ctx.toNat = (s.ctxOf s.cur).id →
      (∀ c ∈ s.cmds, c.core = core → c.tag = n → c.begun = true ∨
        ∀ sp vd b ty rnd sat clr drop rb m res pops acc, c.kind ≠ .drain sp vd b ty rnd sat clr drop rb m res pops acc) →
      ∃ t, goes (.tagkill d a) t ∧ (t.tag core n).st = .dying)

/-- R317, R327: PRIVQ.TAKE takes the oldest handle, or 0. RESUME and END act on the descheduled group that a handle
names and report OK: RESUME of another group enters its handler, END ends its grid with its fault's code. -/
def Obligations.ReplayListFormsActOnTheGroup : Prop :=
  ∀ (s : State) (d a : SReg),
    (SReady s .super [d] false → s.ctxs.Pairwise (fun x y => x.id ≠ y.id) → s.ctx? (s.gridOf s.cur).ctx ≠ none →
      ((s.ctxOf s.cur).replays = [] → WritesReg s (.privqTake d) d 0 0 8) ∧
      (∀ h hs, (s.ctxOf s.cur).replays = h :: hs → ∃ t, exec (.privqTake d) s = .next t ∧
        t.sget d = (if d = 127#7 then 0 else h) ∧ (∀ r, r ≠ d → t.sget r = s.sget r) ∧ t.cur.s.pc = s.cur.s.pc + 8 ∧
        (t.ctxOf t.cur).replays = hs ∧ SameMem s t)) ∧
    (SReady s .super [d, a] false →
      (s.desched? (s.sget a) = none → WritesReg s (.privqResume d a) d 1 0 8 ∧ WritesReg s (.privqEnd d a) d 1 0 8) ∧
      (∀ g st e, s.desched? (s.sget a) = some (g, st, e) → s.group? g.uid = some g → g.uid ≠ s.cur.uid →
        (s.groups.Pairwise fun x y => x.uid ≠ y.uid) → g.accs = [] → g.parked = false → g.halted = false → s.shadowsUsed (s.coreOf g) g.iu < 4 → d.toNat < 96 →
        (∃ t g', exec (.privqResume d a) s = .next t ∧ t.cur.uid = s.cur.uid ∧ t.sget d = 0 ∧
          t.cur.s.pc = s.cur.s.pc + 8 ∧ t.group? g.uid = some g' ∧ g'.handler.isSome ∧ g'.s.pc = e ∧ g'.level = .super ∧
          SameMem s t) ∧
        (∀ gr, s.grid? (s.gridOf g).id = some gr → gr.ending = none → (s.gridOf s.cur).id ≠ gr.id →
          ∃ t, exec (.privqEnd d a) s = .next t ∧ t.cur.uid = s.cur.uid ∧ t.sget d = 0 ∧ t.cur.s.pc = s.cur.s.pc + 8 ∧
            ((t.grid? gr.id).bind Grid.ending).map (fun x => (x.outcome, x.code)) = some (1, st.code))))

/-- R237, R239, R249: MAPPG of a page of any of the three sizes, on an aligned canonical address, whose walk meets no
fault and whose group's earlier stores are performed. A walk that ends at an absent entry returns NOTABLE, and one that
ends at a leaf above the size's level EXISTS, or SIZE for UNMAP. At the leaf-level entries, sixteen for 64K: MAP returns
EXISTS where one is valid and BADENTRY for a value that is no leaf of the size, and otherwise writes the value, entry i
with its frame i higher. POOL returns EXISTS, or EMPTY where FTPN is 0; otherwise it takes the frame f of the top slot,
lowers FTPN, zeroes the frame and writes f | (sb AND 6) | L | V. UNMAP returns NOTMAPPED or SIZE; otherwise it clears V
of its entries, and waits for an invalidation of the page that returns OK. That V is judged before the format of an
entry above the leaf level, and that UNMAP of 64K judges the first of its sixteen entries, are the model's reading of a
malformed table (log 52). R241, R247, R249: the completion of an invalidation none of whose accesses is in flight
removes it, drops the translations of its range from the TLB of every core, of every quadrant and of every walk-ahead,
and moves a group that waits for it past its instruction with its register writes. One of whose accesses is in flight
stays, and nothing changes. -/
def Obligations.PageFormsChangeTheEntry : Prop :=
  (∀ (s : State) (d a b : SReg) (sz : PageSize),
    let va := s.sget a
    let walk := s.leafWalk va (PageSize.level sz) 4 (s.ctxOf s.cur).root
    canonErr s.cur.level va = none → va.toNat % PageSize.bytes sz = 0 →
    (s.walkReads va 4 (s.ctxOf s.cur).root).any s.levelHeld = false →
    (SReady s .super [d, a, b] false →
      (walk = .noTable → WritesReg s (.mappgMap sz d a b) d 3 0 8 ∧ (sz = .k4 → WritesReg s (.mappgPool d a b) d 3 0 8)) ∧
      (walk = .above → WritesReg s (.mappgMap sz d a b) d 1 0 8 ∧ (sz = .k4 → WritesReg s (.mappgPool d a b) d 1 0 8))) ∧
    (SReady s .super [d, a] false →
      (walk = .noTable → WritesReg s (.mappgUnmap sz d a) d 3 0 8) ∧
      (walk = .above → WritesReg s (.mappgUnmap sz d a) d 6 0 8)) ∧
    (∀ ea, walk = .at ea → s.entriesErr va (PageSize.entries sz ea) = none → s.storesBefore false 0 = false →
      s.mem.wf = true →
      let n := if sz = .k64 then 16 else 1
      let valid (i : Nat) : Bool := (s.entryAt (ea + 8 * i)).testBit 0
      let ends (x : Instr) (P : State → Prop) : Prop := ∃ t, exec x s = .next t ∧ t.sget d = 0 ∧
        (∀ r, r ≠ d → t.sget r = s.sget r) ∧ t.cur.s.pc = s.cur.s.pc + 8 ∧ P t
      (SReady s .super [d, a, b] false →
        ((∃ i, i < n ∧ valid i = true) →
          WritesReg s (.mappgMap sz d a b) d 1 0 8 ∧ (sz = .k4 → WritesReg s (.mappgPool d a b) d 1 0 8)) ∧
        ((∀ i, i < n → valid i = false) →
          (leafOk sz (s.sget b).toNat = false → WritesReg s (.mappgMap sz d a b) d 5 0 8) ∧
          (leafOk sz (s.sget b).toNat = true → d.toNat < 96 → ends (.mappgMap sz d a b) fun t =>
            StoredWords s.mem t.mem ((List.range n).map fun i => (s.place (ea + 8 * i), s.sget b + BitVec.ofNat 64 (4096 * i)))) ∧
          (sz = .k4 →
            let c := s.ctxOf s.cur
            (c.ftpn = 0 → WritesReg s (.mappgPool d a b) d 2 0 8) ∧
            (c.ftpn ≠ 0 → d.toNat < 96 → ∀ pa u, s.checkGlobal .read (c.ftpb + 8 * (c.ftpn - 1)) 8 = ⟨.inr pa, u⟩ →
              u.readErr s.myPort c.world pa = none → u.cur = s.cur → u.mem.wf = true →
              let f := wordOf (u.memRead pa 8)
              let frame := pteFrame f.toNat * 4096
              s.targetOk c frame = true → ends (.mappgPool d a b) fun t =>
                t.ctxs = (u.mapCtx c.id fun c => { c with ftpn := c.ftpn - 1 }).ctxs ∧
                ∃ m, Zeroed u.mem m ((List.range 64).map fun i => u.place (frame + 64 * i)) 64 ∧
                  Stored m t.mem (u.place ea) 8 (f ||| (s.sget b &&& 6) ||| 0x41))))) ∧
      (SReady s .super [d, a] false →
        let e := s.entryAt ea
        (e.testBit 0 = false → WritesReg s (.mappgUnmap sz d a) d 4 0 8) ∧
        (e.testBit 0 = true → (e.testBit 6 && (e.testBit 5 == (sz == .k64))) = false →
          WritesReg s (.mappgUnmap sz d a) d 6 0 8) ∧
        (e.testBit 0 = true → e.testBit 6 = true → e.testBit 5 = (sz == .k64) →
          ∃ t, exec (.mappgUnmap sz d a) s = .next t ∧
            StoredWords s.mem t.mem ((List.range n).map fun i =>
              (s.place (ea + 8 * i), BitVec.ofNat 64 (s.entryAt (ea + 8 * i) / 2 * 2))) ∧
            t.cur.wait = .inval s.nextId 8 [(d, 0)] ∧ t.cur.s = s.cur.s ∧
            ∃ i ∈ t.invals, i.id = s.nextId ∧ i.ctx = (s.ctxOf s.cur).id ∧ i.lo = va.toNat % 2 ^ 57 ∧
              i.hi = va.toNat % 2 ^ 57 + PageSize.bytes sz)))) ∧
  (∀ (s : State) (i : Inval) (n : Nat) (d : SReg) (w : Word), s.invals.find? (fun x => x.id == i.id) = some i →
    ((∃ x ∈ i.accs, ∃ g, s.group? x.1 = some g ∧ g.acc? x.2 ≠ none) → exec (.invalidationComplete i.id) s = .next s) ∧
    ((∀ x ∈ i.accs, ∀ g, s.group? x.1 = some g → g.acc? x.2 = none) →
      ∃ t, exec (.invalidationComplete i.id) s = .next t ∧ t.invals = s.invals.filter (fun x => x.id != i.id) ∧
        (∀ e, ((∃ c, e ∈ (t.core c).tlb ∨ e ∈ (t.core c).ahead) ∨ ∃ q, e ∈ look t.qtlbs q []) → e.ctx = i.ctx →
          i.hi ≤ e.va ∨ e.va + e.size ≤ i.lo) ∧
        (s.cur.wait = .inval i.id n [(d, w)] → d.toNat < 96 →
          t.cur.wait = .none ∧ t.cur.s.pc = s.cur.s.pc + BitVec.ofNat 64 n ∧ t.sget d = w ∧
          ∀ r, r ≠ d → t.sget r = s.sget r) ∧ SameMem s t))

/-- R339 to R341: CTXSAVE of a HALTED context into a range that holds its image and takes every line reports OK with the
image's length, and with .FREE leaves the context EMPTY besides. CTXLOAD of an image that passes its checks and can be
placed reports OK. That each is one step, and that the device keeps beside the image what an image has no field for, is
the model's choice (log 74, 78, 79). -/
def Obligations.SaveAndLoadReportOk : Prop :=
  ∀ (s u v w : State) (d a b : SReg) (ctx : BitVec 12) (pa : Nat) (c : Ctx), s.cur.accs = [] →
    (∀ free : Bool, SReady s .mach [d, a, b] false → s.checkRange .write (s.sget a) 4096 64 = ⟨.inr pa, u⟩ → u.cur = s.cur →
      u.imageCtx? ctx.toNat = some c → c.st = .halted →
      let s1 := (u.teamsInOrder c.id).foldl State.settleFrames u
      let ss := s1.sects c.id
      let len := imageLength ss
      len ≤ (s.sget b).toNat → s1.imagePages .write (s.sget a) len = (none, v) →
      ({ v with fresh := v.fresh + (u.ctxGrids c.id).length }.mapCtx c.id fun x =>
        { x with counter := c.counter + 1, kept := s1.keptOf c.id }).putLines
        (linesFrom (s.sget a) (s1.imageBytes c ss (c.counter + 1))) = (true, w) → w.cur.uid = s.cur.uid → d.toNat < 96 →
      ∃ t, exec (.ctxsave free d a b ctx) s = .next t ∧
        (free = false → t = ((w.sput d (BitVec.ofNat 64 (len * 2 ^ 32))).nextPc 8)) ∧
        (free = true → (∀ x ∈ w.waiters, x.uid ≠ s.cur.uid) → t.sget d = BitVec.ofNat 64 (len * 2 ^ 32) ∧ ∀ x ∈ t.ctxs, x.id = c.id → x.st = .empty)) ∧
    (∀ hdr ss x y, SReady s .mach [d, a] false → s.checkRange .read (s.sget a) 4096 128 = ⟨.inr pa, u⟩ →
      u.getBytes (s.sget a) 8 = (.inr hdr, v) → v.imageCtx? ctx.toNat = some c → c.st = .empty →
      v.readImage c (s.sget a) hdr = (.got ss, x) → sectsOk c.id ss = true → x.installImage c ss = some y →
      exec (.ctxload d a ctx) s = .next ((y.sput d 0).nextPc 8))

/-- R92, R95, R96, R29: the integer rows, element by element, at the width and signedness of the type: wrapping and
clamping sums, products and their high half, distance, minimum and maximum, shifts by the low bits of c, counts,
reversal and division. IO, SA, NV and DZ are set where a selected element sets them, and no other flag. R95, R97 to R99:
the rows that compute whole lanes: the bitwise rows, VMOV, VIDX, VSEL by a predicate bit after its negation, the bit
fields of VBFX and VBFI, and the exact sum of VDOT4, wrapped or clamped with SA. -/
def Obligations.LaneIntegersAndBitsCompute : Prop :=
  (∀ (s : State) (o : LOp),
    let w := o.ty.width
    let num (x : BitVec w) : Int := if o.ty.signed then x.toInt else x.toNat
    let lo : Int := if o.ty.signed then -2 ^ (w - 1) else 0
    let hi : Int := if o.ty.signed then 2 ^ (w - 1) - 1 else 2 ^ w - 1
    let outside (i : Int) (f : Byte) : Byte := if i < lo ∨ hi < i then f else 0
    let clamped (i : Int) : BitVec w × Byte := (BitVec.ofInt w (max lo (min hi i)), outside i flagSA)
    let zero (a c : BitVec w) : Byte := if c ≠ 0 then 0 else if a = 0 then flagNV else flagDZ
    let top (a c : BitVec w) : Bool := o.ty.signed && a == BitVec.intMin w && c == BitVec.allOnes w
    ElemForm s (.vadd o) o .ac (fun a _ c => (a + c, 0)) ∧
    ElemForm s (.vsub o) o .ac (fun a _ c => (a - c, 0)) ∧
    ElemForm s (.vmul o) o .ac (fun a _ c => (a * c, outside (num a * num c) flagIO)) ∧
    ElemForm s (.vmulh o) o .ac (fun a _ c => (BitVec.ofInt w (num a * num c / 2 ^ w), 0)) ∧
    ElemForm s (.vmad o) o .abc (fun a b c => (a * b + c, 0)) ∧
    ElemForm s (.vadds o) o .ac (fun a _ c => clamped (num a + num c)) ∧
    ElemForm s (.vsubs o) o .ac (fun a _ c => clamped (num a - num c)) ∧
    ElemForm s (.vabsd o) o .ac (fun a _ c => (BitVec.ofNat w (num a - num c).natAbs, 0)) ∧
    ElemForm s (.vmin o) o .ac (fun a _ c => (if num a ≤ num c then a else c, 0)) ∧
    ElemForm s (.vmax o) o .ac (fun a _ c => (if num a ≤ num c then c else a, 0)) ∧
    ElemForm s (.vshl o) o .ac (fun a _ c => (a <<< (c.toNat % w), 0)) ∧
    ElemForm s (.vshr o) o .ac (fun a _ c => (a >>> (c.toNat % w), 0)) ∧
    ElemForm s (.vsra o) o .ac (fun a _ c => (a.sshiftRight (c.toNat % w), 0)) ∧
    ElemForm s (.vrotr o) o .ac (fun a _ c => (a.rotateRight (c.toNat % w), 0)) ∧
    ElemForm s (.vclz o) o .c (fun _ _ c => (c.clz, 0)) ∧
    ElemForm s (.vpopc o) o .c (fun _ _ c => (BitVec.ofNat w ((List.range w).countP fun i => c.getLsbD i), 0)) ∧
    ElemForm s (.vbrev o) o .c (fun _ _ c => (c.reverse, 0)) ∧
    ElemForm s (.vdiv o) o .ac (fun a _ c =>
      (if c = 0 then BitVec.allOnes w else BitVec.ofInt w ((num a).tdiv (num c)),
        if top a c then flagIO else zero a c)) ∧
    ElemForm s (.vrem o) o .ac (fun a _ c => (if c = 0 then a else BitVec.ofInt w ((num a).tmod (num c)), zero a c))) ∧
  (∀ (s : State) (o : LOp),
    let pos (c : Word32) : Nat := c.toNat % 32
    let len (c : Word32) : Nat := min (c.toNat / 256 % 64) 32
    let byte (signed : Bool) (e : Nat) (x : Word32) : Int :=
      if signed then (x.extractLsb' (8 * e) 8).toInt else (x.extractLsb' (8 * e) 8).toNat
    let mix : Bool := o.mods.getLsbD 0
    let other : Bool := o.ty.signed != mix
    let dot (a b c : Word32) : Int := c.toInt + byte o.ty.signed 0 a * byte other 0 b + byte o.ty.signed 1 a * byte other 1 b +
      byte o.ty.signed 2 a * byte other 2 b + byte o.ty.signed 3 a * byte other 3 b
    let field (a c : Word32) (i : Nat) : Bool :=
      if pos c + i < 32 then a.getLsbD (pos c + i) else o.ty == .s32 && a.msb
    WholeForm s (.vand o) o (lopUse o .ac) (fun a _ c => (a &&& c, 0)) ∧
    WholeForm s (.vor o) o (lopUse o .ac) (fun a _ c => (a ||| c, 0)) ∧
    WholeForm s (.vxor o) o (lopUse o .ac) (fun a _ c => (a ^^^ c, 0)) ∧
    WholeForm s (.vandn o) o (lopUse o .ac) (fun a _ c => (a &&& ~~~c, 0)) ∧
    WholeForm s (.vnot o) o (lopUse o .c) (fun _ _ c => (~~~c, 0)) ∧
    WholeForm s (.vmov o) o (lopUse o .c) (fun _ _ c => (c, 0)) ∧
    LaneForm s (.vidx o) o (lopUse o .c) (fun _ vs i x => x = BitVec.ofNat 32 i + srcC s o vs i) (fun _ _ f => f = 0) ∧
    LaneForm s (.vsel o) o { lopUse o .ac with preads := [o.g.p, o.mods.extractLsb' 0 3] }
      (fun p vs i x =>
        let bit := if o.mods.extractLsb' 0 3 = 0 then p.mask.getLsbD i else
          (look s.cur.l.preds (o.mods.extractLsb' 0 3).toNat 0).getLsbD i
        x = if bit ≠ o.mods.getLsbD 3 then srcA s o i else srcC s o vs i) (fun _ _ f => f = 0) ∧
    LaneForm s (.vbfx o) o (lopUse o .ac)
      (fun _ vs i x => ∀ n, n < 32 →
        let a := srcA s o i
        let c := srcC s o vs i
        x.getLsbD n = if n < len c then field a c n else o.ty == .s32 && len c != 0 && field a c (len c - 1))
      (fun _ _ f => f = 0) ∧
    LaneForm s (.vbfi o) o (lopUse o .acd)
      (fun _ vs i x => ∀ n, n < 32 →
        let c := srcC s o vs i
        x.getLsbD n = if pos c ≤ n ∧ n < pos c + len c then (srcA s o i).getLsbD (n - pos c)
          else (look (s.cur.vget o.vd) i 0).getLsbD n)
      (fun _ _ f => f = 0) ∧
    WholeForm s (.vdot4 o) o (lopUse o .abc) (fun a b c =>
      let sum := dot a b c
      if o.mods.getLsbD 1 then
        (BitVec.ofInt 32 (max (-2 ^ 31) (min (2 ^ 31 - 1) sum)), if sum < -2 ^ 31 ∨ 2 ^ 31 - 1 < sum then flagSA else 0)
      else (BitVec.ofInt 32 sum, 0)))

/-- R34 to R36, R100 to R103: the floating-point rows round the exact result of their operation once, in the mode of the
rounding field, with its flags and those of the operation; minimum, maximum, absolute value and negation keep the bits
of the element they choose, or give the canonical NaN, with NV for a signalling one. The exact result of VFRSQ, VFEX2,
VFLG2, VFSINP and VFCOSP stands as the model's bracket of it in 320 bits (log 15). -/
def Obligations.LaneFloatsRoundOnce : Prop :=
  ∀ (s : State) (o : LOp),
    let w := o.ty.width
    let fm := o.ty.ffmt
    let mode : Rnd := if o.rnd = 0 then .rne else if o.rnd = 1 then .rtz else if o.rnd = 2 then .rdn else .rup
    let val (x : BitVec w) : Val := fm.decode x.toNat
    let once (r : Val × Byte) : BitVec w × Byte :=
      (BitVec.ofNat w (fm.round mode (o.mods.getLsbD 0) r.1).1, (fm.round mode (o.mods.getLsbD 0) r.1).2 ||| r.2)
    let nans (a c : BitVec w) : Byte := if (val a).isSig ∨ (val c).isSig then flagNV else 0
    let chosen (a c x : BitVec w) : BitVec w × Byte :=
      if (val a).isNan ∨ (val c).isNan then (BitVec.ofNat w fm.nanBits, nans a c) else (x, 0)
    o.ty.isInt = false →
    ElemForm s (.vfadd o) o .ac (fun a _ c => once ((val a).add mode (val c))) ∧
    ElemForm s (.vfsub o) o .ac (fun a _ c => once ((val a).add mode (val c).neg)) ∧
    ElemForm s (.vfmul o) o .ac (fun a _ c => once ((val a).mul (val c))) ∧
    ElemForm s (.vfma o) o .abc (fun a b c => once (Val.fma mode (val a) (val b) (val c) false)) ∧
    ElemForm s (.vfms o) o .abc (fun a b c => once (Val.fma mode (val a) (val b) (val c).neg false)) ∧
    ElemForm s (.vfnma o) o .abc (fun a b c => once (Val.fma mode (val a) (val b) (val c) true)) ∧
    ElemForm s (.vfdiv o) o .ac (fun a _ c => once ((val a).div (val c))) ∧
    ElemForm s (.vfsqrt o) o .c (fun _ _ c => once (val c).sqrt) ∧
    ElemForm s (.vfrsq o) o .c (fun _ _ c => once (val c).rsqrt) ∧
    ElemForm s (.vfex2 o) o .c (fun _ _ c => once (val c).exp2) ∧
    ElemForm s (.vflg2 o) o .c (fun _ _ c => once (val c).log2) ∧
    ElemForm s (.vfsinp o) o .c (fun _ _ c => once (val c).sinpi) ∧
    ElemForm s (.vfcosp o) o .c (fun _ _ c => once (val c).cospi) ∧
    ElemForm s (.vfscale o) o .ac (fun a _ c => once ((val a).scale c.toInt, 0)) ∧
    ElemForm s (.vfmin o) o .ac (fun a _ c =>
      chosen a c (if fm.orderKey a.toNat ≤ fm.orderKey c.toNat then a else c)) ∧
    ElemForm s (.vfmax o) o .ac (fun a _ c =>
      chosen a c (if fm.orderKey a.toNat ≤ fm.orderKey c.toNat then c else a)) ∧
    ElemForm s (.vfabs o) o .c (fun _ _ c => chosen c c (c &&& ~~~BitVec.intMin w)) ∧
    ElemForm s (.vfneg o) o .c (fun _ _ c => chosen c c (c ^^^ BitVec.intMin w)) ∧
    ElemForm s (.vfclass o) o .c (fun _ _ c =>
      (BitVec.ofNat w (match val c with
        | .nan sig => if sig then 0x100 else 0x200
        | .inf n => if n then 0x001 else 0x080
        | .fin n m _ =>
          if m = 0 then (if n then 0x008 else 0x010)
          else if m < 2 ^ fm.fbits then (if n then 0x004 else 0x020)
          else if n then 0x002 else 0x040), 0)) ∧
    ElemForm s (.vfrnd o) o .c (fun _ _ c =>
      match val c with
      | .fin n m e => (BitVec.ofNat w (fm.round mode false (.fin n (roundInt mode n m e).1 0)).1, 0)
      | v => (BitVec.ofNat w (fm.round mode false v).1, (fm.round mode false v).2))

/-- R37, R104 to R108: the conversions: every element of the destination type is the conversion of its source element
(its own, those of a then c, or a half of c), VQNT writes one element and keeps or clears the others, VDQNT gives the
F32 of one element times the scale. Flags are the OR over the elements written in selected lanes. -/
def Obligations.LaneConversionsConvertTheirElements : Prop :=
  ∀ (s : State) (o : LOp) (dst : ElemType),
    let mode : Rnd := if o.rnd = 0 then .rne else if o.rnd = 1 then .rtz else if o.rnd = 2 then .rdn else .rup
    let conv (x : BitVec o.ty.width) : Nat × Byte := convert o.ty dst mode (o.mods.getLsbD 0) x.toNat
    let form (i : Instr) (k : Srcs) (src : List Word → Nat → Nat → BitVec o.ty.width) : Prop :=
      LaneForm s i o (lopUse o k)
        (fun _ vs i x => ∀ e, e < dst.count → elemOf dst e x = BitVec.ofNat dst.width (conv (src vs i e)).1)
        (flagsOver s o fun vs i x => ∃ e, e < dst.count ∧ x = (conv (src vs i e)).2)
    let n := o.ty.count
    let f32 (x : Word32) : Val := FFmt.f32.decode x.toNat
    let el := (o.mods.extractLsb' 0 2).toNat
    (ElemType.ofCode o.dstCode = some dst →
      (dst.count = n → form (.vcvt o) .c fun vs i e => elemOf o.ty e (srcC s o vs i)) ∧
      (dst.count = 2 * n → form (.vpack o) .ac fun vs i e =>
        if e < n then elemOf o.ty e (srcA s o i) else elemOf o.ty (e - n) (srcC s o vs i)) ∧
      (n = 2 * dst.count → form (.vunpk o) .c fun vs i e =>
        elemOf o.ty (if o.mods.getLsbD 1 then dst.count + e else e) (srcC s o vs i))) ∧
    (el < n →
      (∀ p vs g, LReady s (lopUse o .ac) p vs g →
        let q (i : Nat) : (Nat × Byte) × Byte :=
          let x := (f32 (srcA s o i)).mul (f32 (srcC s o vs i))
          (floatTo o.ty mode (o.mods.getLsbD 2) x.1, x.2)
        ∃ t f, exec (.vqnt o) s = .next t ∧ LIssued s t (lopUse o .ac) p g f ∧
          flagsOver s o (fun _ i x => x = (q i).1.2 ||| (q i).2) p vs f ∧
          LWrites s t (lopUse o .ac) o.vd (actsOn s p o.g) fun i x => ∀ e, e < n →
            elemOf o.ty e x =
              if e = el then BitVec.ofNat o.ty.width (q i).1.1
              else if lifeAfter s (lopUse o .ac).reads o.vd = .live ∨ lifeAfter s (lopUse o .ac).reads o.vd = .rest then
                elemOf o.ty e (look (s.cur.vget o.vd) i 0)
              else 0) ∧
      WholeForm s (.vdqnt o) o (lopUse o .ac) (fun a _ c =>
        let x := elemOf o.ty el a
        let v : Val :=
          if o.ty.isInt then
            let i : Int := if o.ty.signed then x.toInt else x.toNat
            .fin (decide (i < 0)) i.natAbs 0
          else o.ty.ffmt.decode x.toNat
        let r := v.mul (f32 c)
        (BitVec.ofNat 32 (FFmt.f32.round mode false r.1).1, (FFmt.f32.round mode false r.1).2 ||| r.2)))

/-- R109, R110: the predicate writers change the selected bits of pd alone, and none of p0: a comparison holds in every
element of the lane or, with .any, in one; its order is that of the type, and a NaN makes ne and un true and the other
conditions false; PLOGIC, PSET and PFIRST as their rows say. -/
def Obligations.PredicateFormsWriteTheirBits : Prop :=
  ∀ (s : State) (o : LOp),
    let w := o.ty.width
    let fm := o.ty.ffmt
    let k := (o.mods.extractLsb' 0 3).toNat
    let num (x : BitVec w) : Int := if o.ty.signed then x.toInt else x.toNat
    let nan (x : BitVec w) : Bool := (fm.decode x.toNat).isNan
    let sig (x : BitVec w) : Bool := (fm.decode x.toNat).isSig
    let key (x : BitVec w) : Int := fm.valueKey x.toNat
    let relation (k : Nat) (a c : Int) : Bool :=
      if k = 0 then a = c else if k = 1 then a ≠ c else if k = 2 then a < c else if k = 3 then a ≤ c
      else if k = 4 then c < a else c ≤ a
    let fholds (a c : BitVec w) : Bool :=
      if k = 6 then nan a || nan c else if k = 7 then !(nan a || nan c)
      else if nan a || nan c then k == 1 else relation k (key a) (key c)
    let invalid (a c : BitVec w) : Byte :=
      if (if 2 ≤ k ∧ k ≤ 5 then nan a || nan c else sig a || sig c) then flagNV else 0
    let compares (i : Instr) (h : BitVec w → BitVec w → Bool) (fl : BitVec w → BitVec w → Byte) : Prop :=
      let at' (vs : List Word) (i e : Nat) := (elemOf o.ty e (srcA s o i), elemOf o.ty e (srcC s o vs i))
      PredForm s i o (predUse o [(o.a.r, o.a.hint)] [] true)
        (fun _ vs i b => b = true ↔
          if o.mods.getLsbD 3 then ∃ e, e < o.ty.count ∧ h (at' vs i e).1 (at' vs i e).2 = true
          else ∀ e, e < o.ty.count → h (at' vs i e).1 (at' vs i e).2 = true)
        (flagsOver s o fun vs i x => ∃ e, e < o.ty.count ∧ x = fl (at' vs i e).1 (at' vs i e).2)
    let bit (p : Path) (r : BitVec 8) (i : Nat) : Bool :=
      if r.setWidth 3 = 0#3 then p.mask.getLsbD i else (look s.cur.l.preds (r.setWidth 3 : BitVec 3).toNat 0).getLsbD i
    let mode := o.mods.extractLsb' 0 2
    compares (.vcmp o) (fun a c => relation k (num a) (num c)) (fun _ _ => 0) ∧
    compares (.vfcmp o) fholds invalid ∧
    PredForm s (.plogic o) o (predUse o [] [o.a.r.setWidth 3, o.b.r.setWidth 3] false)
      (fun p _ i b =>
        let x := bit p o.a.r i
        let y := bit p o.b.r i
        b = if k = 0 then x && y else if k = 1 then x || y else if k = 2 then x != y else if k = 3 then x && !y
          else if k = 4 then !x else x)
      (fun _ _ f => f = 0) ∧
    PredForm s (.pset o) o (predUse o [] [] true)
      (fun _ vs i b =>
        let c := srcC s o vs i
        b = if mode = 0 then c.getLsbD 0 else if mode = 1 then decide (i < c.toNat) else c != 0)
      (fun _ _ f => f = 0) ∧
    PredForm s (.pfirst o) o (predUse o [] [o.a.r.setWidth 3] false)
      (fun p _ i b => b = true ↔ bit p o.a.r i = true ∧ ∀ j, j < i → actsOn s p o.g j → bit p o.a.r j = false)
      (fun _ _ f => f = 0)

/-- R111 to R113: the movement rows: each selected lane takes the lane that its row names, whatever lanes are selected;
a scan folds the selected lanes below it in ascending order; a reduction combines the selected lanes in its tree of
neighbours, whose float add rounds the sum of each two elements once; an integer reduction is the fold of the selected
lanes; VCOMP packs the selected lanes into the low ones. -/
def Obligations.LaneMovementsTakeTheirLanes : Prop :=
  ∀ (s : State) (o : LOp),
    let mode := o.mods.extractLsb' 0 2
    let from' (vs : List Word) (i : Nat) : Nat :=
      let c := (srcC s o vs i).toNat
      if mode = 0 then c % 128 else if mode = 1 then i ^^^ (c % 128)
      else if mode = 2 then (if c ≤ i then i - c else i) else (if i + c ≤ 127 then i + c else i)
    let moves (i : Instr) (src : List Word → Nat → Nat) : Prop :=
      LaneForm s i o (lopUse o .ac) (fun _ vs i x => x = srcA s o (src vs i)) (fun _ _ f => f = 0)
    let chosen (p : Path) : List Nat := lanesOf (s.cur.selected p.mask o.g)
    let identity : Word32 := BitVec.ofNat 32 (packElems o.ty.width (List.replicate o.ty.count (scanIdentity o)))
    let fold (vs : List Word) (ls : List Nat) : Word32 :=
      ls.foldl (fun acc j => (redLane o acc (srcC s o vs j)).1) identity
    moves (.vshfl o) from' ∧
    moves (.vrotl o) (fun vs i => (i + (srcC s o vs 0).toNat) % 128) ∧
    moves (.vbcl o) (fun vs _ => (srcC s o vs 0).toNat % 128) ∧
    LaneForm s (.vscan o) o (lopUse o .c)
      (fun p vs i x => x = fold vs ((chosen p).filter fun j => if o.mods.getLsbD 3 then decide (j < i) else decide (j ≤ i)))
      (fun _ _ f => o.ty.isInt = true → f = 0) ∧
    (o.ty.isInt = false → o.mods.extractLsb' 0 3 = 0 → ∀ (a c : Word32) (e : Nat), e < o.ty.count →
      let mode : Rnd := if o.rnd = 0 then .rne else if o.rnd = 1 then .rtz else if o.rnd = 2 then .rdn else .rup
      let val (x : Word32) : Val := o.ty.ffmt.decode (elemOf o.ty e x).toNat
      elemOf o.ty e (redLane o a c).1 =
        BitVec.ofNat o.ty.width (o.ty.ffmt.round mode false ((val a).add mode (val c)).1).1) ∧
    LaneForm s (.vred o) o (lopUse o .c)
      (fun p vs _ x =>
        treeNode (fun a c => (redLane o a c).1) (fun i => if i ∈ chosen p then some (srcC s o vs i) else none) 7 0 = some x ∧
        (o.ty.isInt = true → (o.mods.extractLsb' 0 3).toNat < 6 → chosen p ≠ [] → x = fold vs (chosen p)) ∧
        (∀ j, chosen p = [j] → x = srcC s o vs j))
      (fun _ _ f => o.ty.isInt = true → f = 0) ∧
    (∀ p vs g, LReady s (lopUse o .c) p vs g → ∃ t, exec (.vcomp o) s = .next t ∧ LIssued s t (lopUse o .c) p g 0 ∧
      LWrites s t (lopUse o .c) o.vd (fun i => i < (chosen p).length)
        fun i x => x = srcC s o vs ((chosen p).getD i 0))

/-- R114 to R116: KPOP writes the value popped plus its second operand to its k register, KFROM the lanes it takes, and
no other register changes; VNOP goes on; VLIFE sets the states of its range, clearing a register that it brings back to
LIVE from DEAD or POISON; a range that rises to LIVE in a block without data waits, and begins the wake of each such
block (R21). R136, R137, R13: VOTE appends to the RQ whether any or every active lane holds its predicate, how many do,
or the mask in two entries; RPUT appends the value of its source. -/
def Obligations.RegisterControlAndReturnsAct : Prop :=
  (∀ (s : State) (o : LOp),
    let k : BitVec 4 := o.vd.setWidth 4
    let writesK (i : Instr) (u : LUse) (v : List Word → Word) : Prop :=
      ∀ p vs g, LReady s u p vs g → ∃ t, exec i s = .next t ∧ LIssued s t u p g 0 ∧
        look t.cur.l.k k.toNat 0 = v vs ∧ (∀ n, n ≠ k.toNat → look t.cur.l.k n 0 = look s.cur.l.k n 0) ∧
        t.cur.l.preds = s.cur.l.preds ∧ ∀ r, t.cur.vget r = s.cur.vget r ∧ t.cur.vlife r = lifeAfter s u.reads r
    let n := o.w2.toNat
    let inRange (r : BitVec 8) : Prop := ∃ j, j < n ∧ r = o.vd + BitVec.ofNat 8 j
    let state := (o.mods.extractLsb' 0 2).toNat
    writesK (.kpop o) (({ pops := 1, kwrite := [k] } : LUse).withC o.c)
      (fun vs => vs.headD 0 + (match o.c with
        | .imm => o.w2.signExtend 64
        | .dq => vs.getD 1 0
        | .kreg n => look s.cur.l.k n.toNat 0
        | .vec _ _ => 0)) ∧
    writesK (.kfrom o) (({ kwrite := [k] } : LUse).withC o.c)
      (fun vs =>
        if o.mods.getLsbD 1 then srcC s o vs 1 ++ srcC s o vs 0
        else if o.mods.getLsbD 0 then (srcC s o vs 0).signExtend 64 else (srcC s o vs 0).setWidth 64) ∧
    (∀ p vs g, LReady s {} p vs g → ∃ t, exec (.vnop o) s = .next t ∧ LIssued s t {} p g 0 ∧ t.cur.l.vregs = s.cur.l.vregs ∧
      t.cur.l.life = s.cur.l.life ∧ t.cur.l.preds = s.cur.l.preds ∧ t.cur.l.k = s.cur.l.k) ∧
    (∀ p, s.cur.path s.ps1 = some p → s.cur.rangeBad o.vd n = false → state < 3 → s.cur.lHeld = false →
      s.cur.lBusy { writes := (List.range n).map fun j => o.vd + BitVec.ofNat 8 j } = false →
      (state = 2 → (∃ r, inRange r ∧ s.cur.powered r = false) →
        ∃ t, exec (.vlife o) s = .next t ∧ t = { s with cur := { s.cur with blocks := t.cur.blocks } } ∧
          ∀ r, inRange r → s.cur.powered r = false → ∃ due ret, look t.cur.blocks (r.toNat / 8) .off = .waking due ret) ∧
      ((state = 2 → ∀ r, inRange r → s.cur.powered r = true) →
      ∃ t, exec (.vlife o) s = .next t ∧ t.cur.path s.ps1 = some ⟨p.pc + 3, p.mask⟩ ∧
        t.cur.l.preds = s.cur.l.preds ∧ t.cur.l.k = s.cur.l.k ∧ t.cur.s = s.cur.s ∧ SameMem s t ∧
        ∀ r,
          let old := s.cur.vlife r
          let kept := old = .live ∨ old = .rest
          (¬ inRange r → t.cur.vlife r = old ∧ t.cur.vget r = s.cur.vget r) ∧
          (inRange r →
            t.cur.vlife r =
              (if state = 0 then .dead else if state = 1 then (if old = .live then .rest else old) else .live) ∧
            t.cur.vget r = if state = 2 ∧ ¬ kept then Vector.replicate 128 0 else s.cur.vget r)))) ∧
  (∀ (s : State) (o : LOp) (p : Path) (vs : List Word) (g : Group) (t : Mask),
    (∀ i, i < 128 → (t.getLsbD i = true ↔ takesIn s p o i)) →
    let mode := (o.mods.extractLsb' 4 2).toNat
    let uv : LUse := { preads := [o.mods.extractLsb' 0 3], pushes := if mode = 3 then 2 else 1 }
    let ur : LUse := ({ pushes := 1 } : LUse).withC o.c
    let lane : Nat := if o.mods.getLsbD 2 then ((List.range 128).find? fun i => p.mask.getLsbD i).getD 0 else 0
    (LReady s uv p vs g → RqForm s (.vote o) uv p g
      (if mode = 0 then [if t = 0 then 0 else 1]
        else if mode = 1 then [if t = p.mask then 1 else 0]
        else if mode = 2 then [BitVec.ofNat 64 ((List.range 128).countP fun i => t.getLsbD i)]
        else [t.extractLsb' 0 64, t.extractLsb' 64 64])) ∧
    (LReady s ur p vs g → RqForm s (.rput o) ur p g
      [match o.c with
        | .vec r _ =>
          let x := look (s.cur.vget r)
          if o.mods.getLsbD 1 then x 1 0 ++ x 0 0
          else if o.mods.getLsbD 0 then (x lane 0).signExtend 64 else (x lane 0).setWidth 64
        | .imm => o.w2.signExtend 64
        | .dq => vs.headD 0
        | .kreg n => look s.cur.l.k n.toNat 0]))

/-- R124 to R130: where a path goes at BUNI, BDIV and BLOOP, with the divergence stack in hardware and no counter at
255. A uniform branch moves the path and leaves the other; BDIV on a mixed predicate parks the other path, opens a JOIN
entry and splits the path; BLOOP opens its LOOP entry at its first entry, keeps the lanes that stay, and lets a path
that leaves whole go to the exit. A BUNI whose predicate is mixed takes NOTUNI at its own address, with no effect
(R130). R124, R127 to R129: JOIN and a BLOOP that every lane leaves. A path that meets the JOIN of the top entry gives
way to the other path; the last path of the region restores the mask of its entry past the JOIN, or at the exit of its
loop, and steps the counters down; what the lanes of the entry have done comes before what the restored path does
(R223). A JOIN that the top region does not match is passed, and steps down the counter of each lane whose entries it
exceeds (R124). -/
def Obligations.PathsBranchAndReconverge : Prop :=
  (∀ (s : State) (o : LOp) (p : Path) (vs : List Word) (g : Group) (t : Mask) (target other : Nat),
    LReady s (s.ctlUse o) p vs g → (∀ i, i < 128 → (t.getLsbD i = true ↔ takesIn s p o i)) →
    reaches p.pc (o.w2.extractLsb' 16 16) target →
    let l := s.cur.l
    let goes (l : LState) (pc : Nat) (m : Mask) : LState := l.setPath s.ps1 (some ⟨pc, m⟩)
    let up : LState := { l with nest := nestRaised l.nest p.mask }
    let free : Prop := ∀ i : Fin 128, p.mask.getLsbD i = true → l.nest[i] ≠ 255
    let parked : List StackEntry := match s.cur.path (!s.ps1) with
      | some q => [⟨.park, q.pc, q.mask⟩]
      | none => []
    let mine : Prop := ∃ below m0, topRegion l.stack = some (⟨.loop, other, m0⟩, below)
    (t = p.mask → exec (.buni o) s = .next (s.withL (goes l target p.mask))) ∧
    (t = 0 → p.mask ≠ 0 → exec (.buni o) s = .next (s.withL (goes l (p.pc + 3) p.mask))) ∧
    (t ≠ 0 → t ≠ p.mask → Interruptible s → s.cur.lWaits = false → ∀ (u : State) (entry : Word), u.canEnter = true →
      s.vectorEntry (s.coreOf s.cur) (s.ctxOf s.cur) 0x0F = (some (entry, true), u) →
      ∃ w, exec (.buni o) s = .next w ∧ EntersHandler u w 0x0F 0 s.lpc entry) ∧
    (reaches p.pc (o.w2.extractLsb' 0 16) other →
      (free →
        (t = p.mask → exec (.bdiv o) s = .next (s.withL (goes up target p.mask))) ∧
        (t = 0 → p.mask ≠ 0 → exec (.bdiv o) s = .next (s.withL (goes up (p.pc + 3) p.mask))) ∧
        (t ≠ 0 → t ≠ p.mask → l.stack.length + parked.length < 8 → exec (.bdiv o) s = .next (s.withL
          (goes ({ up with stack := ⟨.join, other, p.mask⟩ :: (parked ++ l.stack) }.setPath (!s.ps1)
            (some ⟨p.pc + 3, p.mask &&& ~~~t⟩)) target t)))) ∧
      (mine → t ≠ 0 → exec (.bloop o) s = .next (s.withL (goes l target t))) ∧
      (¬ mine → t = 0 → exec (.bloop o) s = .next (s.withL (goes l other p.mask))) ∧
      (¬ mine → t ≠ 0 → free → l.stack.length < 8 → exec (.bloop o) s = .next (s.withL
        (goes { up with stack := ⟨.loop, other, p.mask⟩ :: l.stack } target t))))) ∧
  (∀ (s : State) (o : LOp) (p : Path) (vs : List Word) (g : Group) (m0 : Mask) (rest : List StackEntry),
    LReady s (s.ctlUse o) p vs g → s.cur.l.hold = none → rest.length < 8 → (∀ e ∈ rest.head?, e.kind ≠ .park) → m0 ≠ 0 →
    let l := s.cur.l
    let restored (pc : Nat) : State := { s with cur := { s.cur.follow m0 m0 with
      wdog := 0
      l := { l with ps0 := some ⟨pc, m0⟩, ps1 := none, stack := rest, nest := nestLowered l.nest m0 } } }
    (l.stack = ⟨.join, p.pc, m0⟩ :: rest →
      (s.cur.path (!s.ps1) ≠ none → exec (.join o) s = .next (s.withL (l.setPath s.ps1 none))) ∧
      (s.cur.path (!s.ps1) = none → exec (.join o) s = .next (restored (p.pc + 3)))) ∧
    ((∀ e below, topRegion l.stack = some (e, below) → e.kind ≠ .join ∨ e.pc ≠ p.pc) → ∀ down : Mask,
      (∀ i, i < 128 → (down.getLsbD i = true ↔ p.mask.getLsbD i = true ∧
        (l.stack.filter fun e => e.kind != .park && e.mask.getLsbD i).length < (look l.nest i 0).toNat)) →
      exec (.join o) s =
        .next (s.withL ({ l with nest := nestLowered l.nest down }.setPath s.ps1 (some ⟨p.pc + 3, p.mask⟩)))) ∧
    (∀ top exit, reaches p.pc (o.w2.extractLsb' 16 16) top → reaches p.pc (o.w2.extractLsb' 0 16) exit →
      (∀ i, i < 128 → ¬ takesIn s p o i) → l.stack = ⟨.loop, exit, m0⟩ :: rest → s.cur.path (!s.ps1) = none →
      exec (.bloop o) s = .next (restored exit)))

/-- R131 to R133: VBAR and LEND of a converged group go on and end the block; a path that meets one while the other path
runs is held; the last path to arrive releases the held lanes past the VBAR, or ends the block. A converged VBAR puts
every earlier event of the L-stream before every later one, and a hold what its lanes have done before what its path
does (R138, R223). LKILL retires its lanes: the path goes on with those left, and the block ends when none is. -/
def Obligations.HoldsAndRetirementEndPaths : Prop :=
  ∀ (s : State) (o : LOp) (p : Path) (vs : List Word) (g : Group),
    let l := s.cur.l
    let ended (live : Mask) : State := { s with cur := { s.cur with
      running := false, wdog := 0
      l := { l with live := live, nest := Vector.replicate 128 0, ps0 := none, ps1 := none, hold := none, stack := [] } } }
    (LReady s { free := false } p vs g →
      (s.cur.converged = true →
        exec (.lend o) s = .next (ended l.live) ∧
        exec (.vbar o) s = .next { s with cur := { s.cur.followAll with wdog := 0, l := l.setPath s.ps1 (some ⟨p.pc + 3, p.mask⟩) } }) ∧
      (s.cur.path (!s.ps1) ≠ none → l.hold = none → (∀ e ∈ l.stack.head?, e.kind ≠ .park) →
        exec (.vbar o) s = .next (s.withL ({ l with hold := some ⟨.vbar p.pc, p.mask⟩ }.setPath s.ps1 none)) ∧
        exec (.lend o) s = .next (s.withL ({ l with hold := some ⟨.lend, p.mask⟩ }.setPath s.ps1 none))) ∧
      (s.cur.path (!s.ps1) = none → l.stack = [] →
        (∀ m, l.hold = some ⟨.vbar p.pc, m⟩ → m ||| p.mask ≠ 0 → exec (.vbar o) s = .next { s with cur := {
          s.cur.follow (m ||| p.mask) (m ||| p.mask) with
          wdog := 0
          l := { l with nest := Vector.replicate 128 0, ps0 := some ⟨p.pc + 3, m ||| p.mask⟩, ps1 := none, hold := none } } }) ∧
        (∀ m, l.hold = some ⟨.lend, m⟩ → exec (.lend o) s = .next (ended l.live)))) ∧
    (LReady s (s.ctlUse o) p vs g → s.cur.converged = true → ∀ t : Mask, (∀ i, i < 128 → (t.getLsbD i = true ↔ takesIn s p o i)) →
      (p.mask &&& ~~~t ≠ 0 → exec (.lkill o) s = .next (s.withL ({ l with
        live := l.live &&& ~~~t
        nest := Vector.ofFn fun i => if t.getLsbD i then 0 else l.nest[i] }.setPath s.ps1
          (some ⟨p.pc + 3, p.mask &&& ~~~t⟩)))) ∧
      (p.mask &&& ~~~t = 0 → exec (.lkill o) s = .next (ended (l.live &&& ~~~t))))

/-- R64, R118, R119, R193, R195, R205, R250: a lane access to global memory of which no lane fails its checks issues one
access with a request for each selected lane, in lane order, at the lane's address, with the lane of its data register
(and of its old destination for an atomic), and counts in ld or st. Loads and stores are RLX at GRP scope, and an atomic
is of the order of its rounding field at DEV scope (R205, R219). A replay acts on the lanes of its mask that live, with
the value popped at the first issue and no pop, applies the hints, and is over. R120, R195: a block access of which no
lane fails issues one access for its whole range of registers, lane j of register i at base + 512 i + 4 j, and counts in
ld or st. R27, R195, R245 to R248, R250: lanes of a VST, VLD or VATOM that fail a check stop the group exactly at the
instruction, once the lanes that pass have gone out: at the issue where it is a store, or where no lane passes. DONE0 to
DONE3 name the lanes completed so far, the replay names the selected lanes less those, each fault has its record and its
lane of hv0 to hv3, and no hint is applied. Where lanes of a VLD passed, it stops at their response, which writes them.
A replay of the path acts on the lanes of its mask that live. -/
def Obligations.LaneAccessesIssueTheirRequests : Prop :=
  (∀ (s v : State) (o : LOp) (p : Path) (vs : List Word) (g : Group) (qs : List Req) (w : Bool) (redo : Option Replay),
    s.cur.replay = redo → (∀ r, redo = some r → r.ps1 = s.ps1) → s.cur.acquiring true p.mask = false →
    let sel : Mask := match redo with | none => s.cur.selected p.mask o.g | some r => r.mask &&& s.cur.l.live
    let vals : List Word := match redo with | none => vs | some r => r.popped.toList
    sel ≠ 0 →
    let n := laneSize o
    let old (i : Nat) : Word := (look (s.cur.vget o.vd) i 0).setWidth 64
    let data (i : Nat) : Word := (srcB s o i).setWidth 64
    let issues (i : Instr) (u : LUse) (k : AccKind) (dests : List (BitVec 8)) (n : Nat) (ord : Order) (sc : Scope) (c : Counter)
        (data cmp : Nat → Word) : Prop :=
      let rs := (lanesOf sel).map fun i => reqOf i (laneAddress s o vals i) 0 n (data i) (cmp i)
      LReady s { u with pops := if redo.isSome then 0 else u.pops } p vs g → s.cur.count c < 255 →
      ({ s with cur := g.applyHints u.reads } : State).checkLanes k.access rs = ⟨v, qs, [], w⟩ →
      v.cur = g.applyHints u.reads →
      qs.map (fun q => { q with pa := 0 }) = rs ∧ IssuesLanes s v i u p g k dests o.vd ord sc false qs [c] ∧
        ∀ t, exec i s = .next t → t.cur.replay = none
    issues (.vld o) (memUse o false true false true) (.vload n (o.ty == .s32)) [o.vd] n .rlx .grp .ld (fun _ => 0) (fun _ => 0) ∧
    issues (.vst o) (memUse o true false false false) (.store n) [] n .rlx .grp .st data (fun _ => 0) ∧
    issues (.vatom o) (memUse o true true (o.mods.extractLsb' 3 3 == 2) false) (.vatom (o.mods.extractLsb' 3 3) o.ty) [o.vd] 4
      (if o.rnd = 0 then .rlx else if o.rnd = 1 then .acq else if o.rnd = 2 then .rel else .acqrel) .dev .st data old) ∧
  (∀ (s v : State) (o : LOp) (p : Path) (vs : List Word) (g : Group) (qs : List Req) (w : Bool),
    s.cur.acquiring true p.mask = false → (∃ i, i < 128 ∧ actsOn s p o.g i) →
    let n := 2 ^ (o.mods.extractLsb' 0 2).toNat
    let base := laneAddress s { o with mods := 0 } vs 0
    let regs (r : BitVec 8) : List (BitVec 8) := (List.range n).map fun i => r + BitVec.ofNat 8 i
    let issues (i : Instr) (u : LUse) (k : AccKind) (dests : List (BitVec 8)) (first : BitVec 8) (c : Counter)
        (data : Nat → Nat → Word) : Prop :=
      let rs := (List.range n).flatMap fun i => (lanesOf (s.cur.selected p.mask o.g)).map fun j =>
        reqOf (128 * i + j) (base + BitVec.ofNat 64 (512 * i + 4 * j)) 0 4 (data i j) 0
      LReady s u p vs g → s.cur.count c < 255 → s.cur.rangeBad first n = false → base.toNat % 64 = 0 →
      ({ s with cur := g.applyHints u.reads } : State).checkLanes k.access rs = ⟨v, qs, [], w⟩ →
      v.cur = g.applyHints u.reads →
      qs.map (fun q => { q with pa := 0 }) = rs ∧ IssuesLanes s v i u p g k dests first .rlx .grp false qs [c]
    issues (.vldblk o) ((({ writes := regs o.vd } : LUse).withC o.c).withGuard o.g) (.vblk n) (regs o.vd) o.vd .ld
      (fun _ _ => 0) ∧
    issues (.vstblk o) ((({ reads := (regs o.b.r).map fun r => (r, o.b.hint), free := false } : LUse).withC o.c).withGuard o.g)
      (.store 4) [] o.b.r .st (fun i j => (look (s.cur.vget (o.b.r + BitVec.ofNat 8 i)) j 0).setWidth 64)) ∧
  (∀ (s : State), Interruptible s → s.cur.lWaits = false →
    (∀ (v : State) (o : LOp) (p : Path) (vs : List Word) (g : Group) (qs : List Req) (fs : List LaneFault) (w : Bool)
        (redo : Option Replay),
      s.cur.replay = redo → (∀ r, redo = some r → r.ps1 = s.ps1) → s.cur.acquiring true p.mask = false → fs ≠ [] →
      (∀ f ∈ fs, issueFault f.mf) →
      let n := laneSize o
      let sel : Mask := match redo with | none => s.cur.selected p.mask o.g | some r => r.mask &&& s.cur.l.live
      let vals : List Word := match redo with | none => vs | some r => r.popped.toList
      let old (i : Nat) : Word := (look (s.cur.vget o.vd) i 0).setWidth 64
      let data (i : Nat) : Word := (srcB s o i).setWidth 64
      let passed : Mask := maskOf (qs.map Req.lane)
      let done : Mask := (match redo with | none => 0 | some r => r.done) ||| passed
      let stops (i : Instr) (u : LUse) (k : AccKind) (n : Nat) (flags : Byte) (wr : Bool) (c : Counter) (data cmp : Nat → Word) :
          Prop :=
        let rs := (lanesOf sel).map fun i => reqOf i (laneAddress s o vals i) 0 n (data i) (cmp i)
        LReady s { u with pops := if redo.isSome then 0 else u.pops } p vs g → s.cur.count c < 255 →
        ({ s with cur := g.applyHints u.reads } : State).checkLanes k.access rs = ⟨v, qs, fs, w⟩ →
        v.cur = g.applyHints u.reads →
        ∃ y, y = { v with cur := y.cur } ∧
          y.cur = { g with
            l := s.cur.l, replay := none, done := done
            accs := y.cur.accs, fences := y.cur.fences, seq := y.cur.seq, tokens := y.cur.tokens } ∧
          (qs = [] → y.cur.accs = s.cur.accs ∧ y.cur.fences = s.cur.fences ∧ y.cur.seq = s.cur.seq ∧ y.cur.tokens = s.cur.tokens) ∧
          (qs ≠ [] → y.cur.seq = s.cur.seq + 1 ∧ y.cur.tokens = s.cur.tokens ++ [⟨c, s.cur.seq, false⟩] ∧
            ∃ x, y.cur.accs = (s.cur.grow p.mask).accs ++ [x] ∧ x.seq = s.cur.seq ∧ x.kind = k ∧ x.reqs = qs ∧ x.path = p.mask) ∧
          TakesFaults y (exec i s) fs true s.ps1 flags (BitVec.ofNat 64 p.pc) wr false (maskOf (fs.map LaneFault.lane))
            (some ⟨s.ps1, sel &&& ~~~passed, vals.head?, done⟩)
      stops (.vst o) (memUse o true false false false) (.store n) n 0x02 true .st data (fun _ => 0) ∧
      (qs = [] →
        stops (.vld o) (memUse o false true false true) (.vload n (o.ty == .s32)) n 0 false .ld (fun _ => 0) (fun _ => 0) ∧
        stops (.vatom o) (memUse o true true (o.mods.extractLsb' 3 3 == 2) false) (.vatom (o.mods.extractLsb' 3 3) o.ty) 4 0x06 true
          .st data old)) ∧
    (∀ (a : Access) (l0 : LState) (size : Nat) (signed : Bool), s.cur.accs = [a] → a.l = true → a.peer = false →
      a.kind = .vload size signed → a.snap = .l l0 → a.fails ≠ [] → (∀ f ∈ a.fails, issueFault f.mf ∧ f.lane < 128) →
      (a.fails.map LaneFault.lane).Pairwise (· < ·) → (∀ r ∈ a.reqs, r.err = none ∧ r.ans ≠ none ∧ r.lane < 128) →
      (a.reqs.map Req.lane).Pairwise (· < ·) → s.cur.powered a.dest = true → a.dest.toNat < 248 →
      let passed : Mask := maskOf (a.reqs.map Req.lane)
      ∃ y, y = { (s.pick a.reqs.length).2 with ps1 := a.ps1, cur := y.cur } ∧ y.cur.accs = [] ∧ y.cur.replay = none ∧
        y.cur.done = a.done ||| passed ∧ y.cur.s.regs = s.cur.s.regs ∧ y.cur.status = .run ∧
        (∀ r ∈ a.reqs, look (y.cur.vget a.dest) r.lane 0 =
          (extended size signed (r.ans.getD 0)).setWidth 32) ∧
        (∀ r : BitVec 8, r ≠ a.dest → y.cur.vget r = ({ s.cur with l := l0 } : Group).vget r ∧
          y.cur.vlife r = ({ s.cur with l := l0 } : Group).vlife r) ∧
        TakesFaults y (exec (.loadResponse s.cur.uid a.seq) s) a.fails true a.ps1 0 a.pc false false
          (maskOf (a.fails.map LaneFault.lane)) (some ⟨a.ps1, a.sel &&& ~~~passed, a.popped, a.done ||| passed⟩)))

/-- R181, R204, R206: lane accesses to the scratchpad. A load and a store of which every selected lane names the own
window act at their issue: the load writes the lanes of its destination, the store its bytes in ascending lane order,
and no further access is left; what their path follows comes before what its lanes do later (R230). One of which every
lane takes the peer path issues one access with a request for each selected lane, and counts in rs, a store and an
atomic in st too; an atomic of which every lane names the own window does so and counts nowhere, since its lanes act in
an open order. -/
def Obligations.LaneScratchpadAccessesAct : Prop :=
  ∀ (s : State) (o : LOp) (p : Path) (vs : List Word) (g : Group) (t : Team),
    s.cur.replay = none → s.cur.acquiring true p.mask = false → (∃ i, i < 128 ∧ actsOn s p o.g i) →
    s.cur.count .rs < 255 → s.cur.count .st < 255 →
    let n := laneSize o
    let addr := laneAddress s o vs
    let chosen := lanesOf (s.cur.selected p.mask o.g)
    let place (i : Nat) : Nat := t.core * 2 ^ 19 + (t.base * 8192 + offsetIn (addr i))
    let own (k : AccessKind) : Prop := ∀ i, i < 128 → actsOn s p o.g i → isPeer (addr i) = false ∧
      s.ownTarget (addr i) n = .inr t ∧ s.peerPending true p.mask t.id (offsetIn (addr i)) n = false ∧
      (s.core t.core).bankAns (t.base * 8192 + offsetIn (addr i)) n k (addr i) = .go
    let out (peer : Bool) (n : Nat) : Prop := ∀ i, i < 128 → actsOn s p o.g i → isPeer (addr i) = peer ∧
      s.outErr (addr i) n = none
    let data (i : Nat) : Word := (srcB s o i).setWidth 64
    let goesOut (i : Instr) (u : LUse) (k : AccKind) (dests : List (BitVec 8)) (n : Nat) (ord : Order) (sc : Scope) (cs : List Counter)
        (peer : Bool) (data cmp : Nat → Word) : Prop :=
      LReady s u p vs g → out peer n → IssuesLanes s s i u p g k dests o.vd ord sc true
        (chosen.map fun i => reqOf i (addr i) 0 n (data i) (cmp i)) cs
    (LReady s (memUse o false true false true) p vs g → own .read →
      ∃ u, exec (.vldsp o) s = .next u ∧ u.cur.accs = (s.cur.grow p.mask).accs ∧ u.cur.path s.ps1 = some ⟨p.pc + 3, p.mask⟩ ∧
        LWrites s u (memUse o false true false true) o.vd (actsOn s p o.g)
          (fun i x => x = (extended n (o.ty == .s32) (wordOf (s.sp.read (place i) n))).setWidth 32) ∧
        u = { s with cur := u.cur } ∧ SameMem s u) ∧
    (LReady s (memUse o true false false false) p vs g → s.releaseHeld true p.mask .rlx .grp = false → own .write →
      ∃ u, exec (.vstsp o) s = .next u ∧ u.cur.accs = (s.cur.grow p.mask).accs ∧ u.cur.path s.ps1 = some ⟨p.pc + 3, p.mask⟩ ∧
        u.sp = chosen.foldl (fun m i => m.write (place i) (bytesOf n (data i).toNat)) s.sp ∧
        (∀ r, u.cur.vget r = s.cur.vget r) ∧ u = { s with sp := u.sp, cur := u.cur } ∧ SameMem s u) ∧
    goesOut (.vldsp o) (memUse o false true false true) (.vload n (o.ty == .s32)) [o.vd] n .rlx .grp [.rs] true (fun _ => 0)
      (fun _ => 0) ∧
    goesOut (.vstsp o) (memUse o true false false false) (.store n) [] n .rlx .grp [.rs, .st] true data (fun _ => 0) ∧
    (∀ peer : Bool, goesOut (.vatomsp o) (memUse o true true (o.mods.extractLsb' 3 3 == 2) false)
      (.vatom (o.mods.extractLsb' 3 3) o.ty) [o.vd] 4
      (if o.rnd = 0 then .rlx else if o.rnd = 1 then .acq else if o.rnd = 2 then .rel else .acqrel) .gang
      (if peer then [.rs, .st] else []) peer data (fun i => (look (s.cur.vget o.vd) i 0).setWidth 64))

/-- R12, R20, R21, R25, R93, R121, R183: the events of a group's L-stream and of supply. The oldest issued instruction
ORs its flags and leaves the scoreboard; an idle L-stream takes its oldest block entry with every live lane; a block
follows the life states of its registers; a wake that is due ends, with the registers named bad POISON where they were
REST, each an error that is met (log 62). -/
def Obligations.StreamEventsActInTurn : Prop :=
  ∀ (s : State) (uid : Nat) (g : Group), s.group? uid = some g →
    let now := s.cyclesOf (s.coreOf g)
    (∀ e es, g.lpend = e :: es → (∀ a ∈ g.accs, a.l = true → a.valued = true → e.seq ≤ a.seq) →
      ChangesGroup s (.lInstructionComplete uid) uid { g with flags := g.flags ||| e.flags, lpend := es }) ∧
    (∀ e before after, s.issues g = true → g.running = false → g.handler = none → g.l.live ≠ 0 → g.dq = before ++ e :: after →
      e.block = true → e.handler = false → (∀ x ∈ before, x.block = false ∨ x.handler = true) → e ∉ before →
      ChangesGroup s (.blockStart uid) uid { g with
        dq := before ++ after
        running := true
        hbase := false
        lAfter := e.seq
        bAfter := e.join
        l := { g.l with nest := Vector.replicate 128 0, ps0 := some ⟨e.val.toNat, g.l.live⟩, ps1 := none, stack := [], hold := none } }) ∧
    (∀ b, b < 32 →
      let old := look g.blocks b .off
      let has (x : Life) : Prop := ∃ i, i < 8 ∧ look g.l.life (8 * b + i) .dead = x
      let becomes (i : Instr) (x : Supply) (l : Vector Life 256) : Prop :=
        ChangesGroup s i uid { g with blocks := put g.blocks b x, l := { g.l with life := l } }
      ((∀ due kept, old ≠ .waking due kept) →
        (has .live → old ≠ .full → becomes (.blockSupplyFollow uid b) (.waking (now + 24) (old == .ret)) g.l.life) ∧
        (¬ has .live → has .rest → old ≠ .off → becomes (.blockSupplyFollow uid b) .ret g.l.life) ∧
        (¬ has .live → ¬ has .rest → becomes (.blockSupplyFollow uid b) .off g.l.life)) ∧
      (∀ due kept bad, old = .waking due kept → due ≤ now →
        let lost (r : Nat) : Prop := kept = true ∧ r ∈ bad ∧ r / 8 = b ∧ look g.l.life r .dead = .rest
        ∃ t g', exec (.regBlockWakeDone uid b bad) s = .next t ∧ t.group? uid = some g' ∧
          (∀ v, v ≠ uid → t.group? v = s.group? v) ∧ t = { s with cur := t.cur, others := t.others, errs := t.errs } ∧
          g' = { g with blocks := put g.blocks b .full, l := { g.l with life := g'.l.life }, accs := g'.accs } ∧
          (∀ r, r < 256 → (lost r → look g'.l.life r .dead = .poison) ∧
            (¬ lost r → look g'.l.life r .dead = look g.l.life r .dead)) ∧
          (t.errs = s.errs ↔ ∀ r, r < 256 → ¬ lost r))) ∧
    (∀ core bank due kept bad, core < 192 → bank < 48 → look (s.core core).banks bank .off = .waking due kept →
      due ≤ s.cyclesOf core → ∃ t marks, exec (.spBankWakeDone core bank bad) s = .next t ∧
        t.core core = { s.core core with
          banks := put (s.core core).banks bank .full, poison := (s.core core).poison ++ marks } ∧
        (∀ j, j ≠ core → t.core j = s.core j) ∧ t = { s with cores := t.cores, errs := t.errs } ∧
        (marks = [] → t.errs = s.errs) ∧
        ∀ w, w ∈ (s.core core).poison ++ marks ↔ w ∈ (s.core core).poison ∨ kept = true ∧ w ∈ bad ∧ w / 1024 = bank)

/-- R134, R310, R312, R313, R316, R317, R321, R323: stops reach their group. The watchdog past its limit, and a held
DEADLINE, take it into its handler; a fetch of either stream that faults offers its record, with the fetch flag, and
takes the handler of its code, with hs1 its cause for PAGE, ACCESS and POISON and 0 otherwise; the first held stop is
dispatched, unless the team is on a move; a stop that waits for a shadow set, or for its group to drain, enters once it
may. -/
def Obligations.StopsReachTheirGroup : Prop :=
  ∀ (s : State) (entry : Word) (u : State), Interruptible s →
    (u.canEnter = true → s.cur.watched = true → s.wdogLimit s.cur ≤ s.cur.wdog →
      s.vectorEntry (s.coreOf s.cur) (s.ctxOf s.cur) 0x10 = (some (entry, true), u) → u.cur = s.cur →
      ∃ t, exec (.watchdogExpiry s.cur.uid) s = .next t ∧ t.cur.handler.isSome ∧ t.cur.level = .super ∧
        t.cur.s.pc = entry ∧ t.sget 96 = 0x10 ∧ t.sget 98 = s.cur.s.pc ∧ t.cur.s.regs = s.cur.s.regs ∧ SameMem u t) ∧
    (∀ st rest imm, s.onMove = false → s.cur.stops = st :: rest → st.kind = .event → st.code = 0x17 → (st.queued = true ∨ st.lanes = []) →
      u.canEnter = true →
      (s.mapCur fun g => { g with stops := rest }).vectorEntry (s.coreOf s.cur) (s.ctxOf s.cur) 0x17 = (some (entry, imm), u) →
      u.cur.uid = s.cur.uid →
      ∃ t, exec (.deadlineDelivery s.cur.uid) s = .next t ∧ EntersHandler u t 0x17 st.hs1 s.cur.s.pc entry ∧
        t.cur.stops = u.cur.stops) ∧
    (∀ st rest, s.onMove = false → s.cur.stops = st :: rest → st.kind = .imprecise → st.l = false → memoryCode st.code = false →
      (st.queued = true ∨ st.lanes = []) → u.canEnter = true →
      (s.mapCur fun g => { g with stops := rest }).vectorEntry (s.coreOf s.cur) (s.ctxOf s.cur) st.code = (some (entry, true), u) →
      u.cur.uid = s.cur.uid → st.code ≠ 0x10 →
      ∃ t, exec (.faultDispatch s.cur.uid) s = .next t ∧ EntersHandler u t st.code st.hs1 s.cur.s.pc entry) ∧
    (∀ (g : Group) (st : Stop), ({ s with cur := g } : State).canEnter = true → g.status = .shadow st entry → st.code ≠ 0x10 →
      ∃ t, exec (.handlerEntry g.uid) { s with cur := g } = .next t ∧
        EntersHandler { s with cur := g } t st.code st.hs1 st.pc entry) ∧
    (∀ f : FetchFault, issueFault ⟨f.code, f.cause, f.addr, f.pa⟩ →
      let fs : List LaneFault := [⟨255, ⟨f.code, f.cause, f.addr, f.pa⟩⟩]
      (s.cur.sWaits = false →
        TakesFaults s (exec (.instructionFetchFault false f) s) fs false false 0x08 s.cur.s.pc false false 1 none) ∧
      (s.cur.lWaits = false →
        TakesFaults s (exec (.instructionFetchFault true f) s) fs true s.ps1 0x08 s.lpc false false 1 none))

/-- R10, R142, R145 to R147, R153, R155, R164, R165, R187: a gang of the first pending grid that fits is dispatched
whole, its groups at their start with their arguments, at SUPER or USER as the grid (R307), and those of the
pseudo-context 0 of machine firmware at MACH (log 7); a team that is done is freed with its window empty; a grid that is
done and has no completion word is gone, and any other writes it as a store of its context whose translation and range
locks pass (R193); a valid root record of the physical function, from the host or from firmware, enqueues one grid in
the quadrant that the submission names (log 131), and the first one of a context starts it in RUN (log 130). R153: the
ticket drawn for a gang of a partition is no ticket of a live gang of the partition, and not 0. -/
def Obligations.LaunchEventsMoveGridsOn : Prop :=
  (∀ (s : State),
    (∀ part gr num pos cluster bar ps,
      (s.pendingGrids part).findSome? (fun gr => (s.placeGang gr part).map fun x => (gr, x)) = some (gr, num, pos, cluster, bar, ps) →
      gr.next + 1 ≠ gr.launch.gx * gr.launch.gy * gr.launch.gz →
      ∃ t g ts, exec (.gangDispatch part) s = .next t ∧ t.gangs = s.gangs ++ [g] ∧ g.grid = gr.id ∧ g.num = num ∧
        g.x = num % gr.launch.gx ∧ g.y = num / gr.launch.gx % gr.launch.gy ∧ g.z = num / (gr.launch.gx * gr.launch.gy) ∧
        g.nteams = gr.launch.teams ∧ g.cluster = cluster ∧ g.ticket = (s.drawTicket part).1 ∧
        t.teams = s.teams ++ ts ∧ ts.map Team.core = ps.map Placed.core ∧ (∀ x ∈ ts, x.gang = g.id ∧ x.ngroups = gr.launch.groups) ∧
        (∀ x ∈ t.others, x ∈ s.others ∨ x.status = .run ∧ x.handler = none ∧ x.running = false ∧ x.flags = 0 ∧
          x.level = (if gr.ctx = 0 then .mach else if gr.sup then .super else .user) ∧
          x.s.pc = gr.launch.sbase + gr.launch.sentry.setWidth 64 ∧ (∀ i, i < 6 → look x.s.regs i 0 = look gr.launch.args i 0) ∧
          (∀ i, 6 ≤ i → i < 96 → look x.s.regs i 0 = 0) ∧ x.l.life = Vector.replicate 256 .dead ∧ x.l.live = BitVec.allOnes 128) ∧
        t.cur = s.cur ∧ t.mem = s.mem) ∧
    (∀ tm, s.team? tm.id = some tm → s.teamDone tm = true → tm.gang ≠ 0 → (∃ g ∈ s.others, g.team ≠ tm.id) → (s.groups.map Group.uid).Nodup →
      tm.core < 192 →
      ∃ t, exec (.teamFree tm.id) s = .next t ∧ t.teams = s.teams.filter (fun x => x.id ≠ tm.id) ∧
        (∀ g ∈ t.groups, g.team ≠ tm.id) ∧ t.mem = s.mem ∧
        (∀ a, t.sp.get a = if tm.core * 2 ^ 19 + tm.base * 8192 ≤ a ∧ a < tm.core * 2 ^ 19 + (tm.base + tm.units) * 8192 then 0
          else s.sp.get a) ∧
        (∀ b, b < 48 → tm.base ≤ b → b < tm.base + tm.units → look (t.core tm.core).banks b .full = .off)) ∧
    (∀ gr, s.grid? gr.id = some gr → s.gridDone gr = true → gr.id ≠ 0 → gr.launch.cword = 0 →
      exec (.gridRetire gr.id) s = .next { s with grids := s.grids.filter fun x => x.id != gr.id }) ∧
    (∀ gr c pa v u, s.grid? gr.id = some gr → s.gridDone gr = true → gr.id ≠ 0 → gr.launch.cword ≠ 0 → s.ctx? gr.ctx = some c →
      s.ctxPa (48 * gr.quad) c (if gr.sup then .super else .user) .write gr.launch.cword = ⟨.inr pa, v⟩ →
      v.globalLocked c.id gr.launch.cword 8 = false →
      let e := gr.ending.getD ⟨0, 0, 0, 0, 0⟩
      let w := e.outcome.toNat + 2 ^ 8 * e.code.toNat + 2 ^ 16 * (e.rank % 16) + 2 ^ 20 * (e.tid % 4) + 2 ^ 24 * (e.gang % 2 ^ 20)
      v.ctxWrite (48 * gr.quad) c (if gr.sup then .super else .user) gr.launch.cword (bytesOf 8 w) = (none, u) →
      exec (.gridRetire gr.id) s = .next { u with grids := u.grids.filter fun x => x.id != gr.id }) ∧
    (∀ (r : RootGrid) (c : Ctx) (x y : List Byte) (u v : State), s.ctx? r.ctx = some c → r.fn = 0 →
      r.src = 256 ∨ r.src = 281 →
      c.st ≠ .empty ∨ c.unstarted = true → r.quad < 4 →
      s.pendingIn r.quad < 64 → r.addr.toNat % 128 = 0 → s.ctxRead (48 * r.quad) c .super .read r.addr 64 = (.inr x, u) →
      u.ctxRead (48 * r.quad) c .super .read (r.addr + 64) 64 = (.inr y, v) → v.launchValid c (x ++ y) = true →
      ∃ t g, exec (.rootGridSubmit r) s = .next t ∧ t.grids = v.grids ++ [g] ∧ g.ctx = c.id ∧ g.launch = launchOf (x ++ y) ∧
        g.parent = none ∧ g.depth = 1 ∧ g.pending = true ∧ g.quad = r.quad ∧ g.sup = r.sup ∧ g.ending = none ∧
        (c.unstarted = true → ∀ x ∈ t.ctxs, x.id = c.id → x.st = .run) ∧ SameMem v t)) ∧
  (∀ (s : State) (part : Nat), s.gangs.length < 2 ^ 20 →
    (s.drawTicket part).1 ≠ 0 ∧ ∀ g ∈ s.gangs, s.partOfGang g = part → g.ticket ≠ (s.drawTicket part).1)

/-- R275, R282 to R287, R290, R294: the next row of a tag's unscaled MMA is prepared once its cycle has come; at an
injection cycle the tag of the turn, or the next tag with a ready wave, injects its wave; 200 cycles later the wave's
row takes the exact sums of an integer pair added with saturation, or its mark where its cells fail. With the last wave
of an MMA its command and its lock leave, and its count of mx falls in its turn. -/
def Obligations.WavesComputeTheirRow : Prop :=
  ∀ (s : State) (core tag : Nat), core < 192 → tag < 16 →
    (∀ c rb m rows afmt bfmt b128 ovr sbase stride issued, nextMma (s.cmds.filter fun c => c.core == core && c.tag == tag) = some c →
      c.kind = .mma rb m rows afmt bfmt 0 b128 ovr sbase stride issued → (s.group? c.uid).isSome → (s.tag core tag).st = .active →
      issued + 8 + c.prepared ≤ s.cyclesOf core → s.lockConflict c.id = false →
      ∃ t, exec (.wavePrepare core tag) s = .next t ∧ t.waves = s.waves ++ [⟨c.id, core, tag, c.prepared, [], none, none, false⟩] ∧
        t.cmds = s.cmds.map (fun x => if x.id = c.id then { x with prepared := x.prepared + 1 } else x)) ∧
    (∀ w before after, (∀ i, (s.core core).inj = some i → i + (s.core core).cadence ≤ s.cyclesOf core) →
      (∀ n, (s.core core).turn = some n → n ≤ (s.tag core (s.core core).rot.toNat).qm1.toNat →
        s.waveReady core (s.core core).rot.toNat = true → tag = (s.core core).rot.toNat) →
      ((∀ n, (s.core core).turn = some n → (s.tag core (s.core core).rot.toNat).qm1.toNat < n ∨
          s.waveReady core (s.core core).rot.toNat = false) →
        ∀ j, j < 16 → s.waveReady core (((s.core core).rot.toNat + 1 + j) % 16) = true →
          ∃ k, k ≤ j ∧ ((s.core core).rot.toNat + 1 + k) % 16 = tag) →
      s.waveReady core tag = true → s.waves = before ++ w :: after →
      w.core = core → w.tag = tag → w.inj = none → (∀ x ∈ before, x.core ≠ core ∨ x.tag ≠ tag ∨ x.inj ≠ none) →
      ∃ t, exec (.waveInject core) s = .next t ∧ t.waves = before ++ { w with inj := some (s.cyclesOf core) } :: after ∧
        (t.core core).rot = BitVec.ofNat 4 tag ∧ (t.core core).inj = some (s.cyclesOf core)) ∧
    (∀ w c (err : WaveErr) rb m rows afmt bfmt ovr sbase stride issued, s.oldestWave core = some w →
      w.inj.getD 0 + 200 ≤ s.cyclesOf core → s.cmd? w.cmd = some c → w.off = false → w.core = core → c.core = core → c.tag = tag →
      c.kind = .mma rb m rows afmt bfmt 0 false ovr sbase stride issued → c.killed = false → c.finished + 1 ≠ m →
      let t0 := s.tag core tag
      let row := rb + w.row
      let bank := core * 2 ^ 18 + t0.bank.toNat * 2 ^ 14 + row * 512
      let slot := core * 2 ^ 16 + t0.slot.toNat * 2 ^ 13
      let a (e : Nat) : Int := let b := (rows.getD w.row []).getD e 0; if afmt = 4 then b.toInt else b.toNat
      let wt (n e : Nat) : Int := (s.slots.get (slot + 64 * n + e)).toInt
      let old (n : Nat) : Int := (BitVec.ofNat 32 (natOfBytes (s.acc.read (bank + 4 * n) 4))).toInt
      let dot (n : Nat) : Int := ((List.range 64).map fun e => a e * wt n e).foldl (· + ·) 0
      row < 32 → w.null = none → afmt = 4 ∨ afmt = 5 →
      (err.slotPar = none → (∀ x ∈ s.slotBad, x < slot ∨ slot + 8192 ≤ x) → err.accEcc = false ∨ ovr = true → bfmt = 4 →
        s.acc.wf = true →
        ∃ t, exec (.waveWriteback core err) s = .next t ∧ (∀ x ∈ t.waves, x ≠ w) ∧
          (∀ n, n < 128 → (BitVec.ofNat 32 (natOfBytes (t.acc.read (bank + 4 * n) 4))).toInt =
            if ovr then (BitVec.ofInt 32 (dot n)).toInt else max (-2 ^ 31) (min (2 ^ 31 - 1) (old n + dot n))) ∧
          (∀ x, x < bank ∨ bank + 512 ≤ x → t.acc.get x = s.acc.get x) ∧ SameMem s t) ∧
      (err.slotPar.isSome = true → ∃ t, exec (.waveWriteback core err) s = .next t ∧ (∀ x ∈ t.waves, x ≠ w) ∧ t.acc = s.acc ∧
        (t.tag core tag).pois.getLsbD row = true ∧ ∀ j, j ≠ row → (t.tag core tag).pois.getLsbD j = t0.pois.getLsbD j)) ∧
    (∀ w c (err : WaveErr) rb m rows afmt bfmt blen b128 ovr sbase stride issued, s.oldestWave core = some w →
      w.inj.getD 0 + 200 ≤ s.cyclesOf core → s.cmd? w.cmd = some c →
      c.kind = .mma rb m rows afmt bfmt blen b128 ovr sbase stride issued → c.killed = false → c.finished + 1 = m →
      ∃ t, exec (.waveWriteback core err) s = .next t ∧ (∀ x ∈ t.waves, x ≠ w) ∧ t.cmds = s.cmds.filter (fun x => x.id != c.id) ∧
        t.locks = s.locks.filter (fun l => l.cmd != c.id) ∧
        ∀ g, t.group? c.uid = some g → ∀ x ∈ g.tokens, x.id = c.id → x.cls = .mx → x.done = true)

/-- R263, R276, R278, R289, R296, R298, R300, R302: the oldest command of a tag begins in its turn; a WLOAD leaves its
tile in the slot with the format of its bytes, 0 in the cells beyond it (log 142); MZERO clears its rows and their
marks; the rows of a drain are checked, and its path goes on; a drain to S32 or S8X4 registers of an S32 bank gives its
registers, clamped for S8X4 with SA where an element is clipped, and no other flag; a DYING tag with nothing left is
scrubbed and FREE. R302: a DYING tag with no wave in the array and no command left is scrubbed: bank, slot and resident
scales read zero and the tag is FREE. -/
def Obligations.TagCommandsActInTurn : Prop :=
  (∀ (s : State) (core tag : Nat) (c : MxCmd), core < 192 → tag < 16 → c.core = core → c.tag = tag → s.headCmd core tag = some c →
    s.cmds.Pairwise (fun x y => x.id ≠ y.id) →
    let t0 := s.tag core tag
    let bank := core * 2 ^ 18 + t0.bank.toNat * 2 ^ 14
    let slot := core * 2 ^ 16 + t0.slot.toNat * 2 ^ 13
    let region := core * 2 ^ 18 + tag * 2 ^ 14
    (∀ fmt blen b128 tile scales, c.kind = .wload fmt blen b128 tile scales →
      (c.begun = false → s.lockConflict c.id = false → ∃ t, exec (.wloadBegin core tag) s = .next t ∧
        t.cmd? c.id = some { c with begun := true } ∧ t = { s with cmds := t.cmds }) ∧
      (∀ bad, c.begun = true → s.slots.wf = true → 128 * mxCol fmt b128 ≤ 8192 →
        ∃ t, exec (.wloadComplete core tag bad) s = .next t ∧ t.cmds = s.cmds.filter (fun x => x.id ≠ c.id) ∧
          (t.tag core tag).bfmt = fmt ∧ (t.tag core tag).blen = blen ∧ (t.tag core tag).b128 = b128 ∧
          (∀ j, j < 8192 → t.slots.get (slot + j) = if j < 128 * mxCol fmt b128 then s.wb.get (region + tile + j) else 0) ∧
          (∀ x, x < slot ∨ slot + 8192 ≤ x → t.slots.get x = s.slots.get x) ∧ SameMem s t)) ∧
    (∀ rb m, c.kind = .mzero rb m → c.begun = false → s.lockConflict c.id = false →
      ∃ t, exec (.mzeroExecute core tag) s = .next t ∧ t.cmds = s.cmds.filter (fun x => x.id ≠ c.id) ∧
        (∀ x, t.acc.get x = if bank + rb * 512 ≤ x ∧ x < bank + (rb + m) * 512 then 0 else s.acc.get x) ∧
        (∀ j, j < 32 → (t.tag core tag).pois.getLsbD j = if rb ≤ j ∧ j < rb + m then false else t0.pois.getLsbD j)) ∧
    (∀ toSp vd base ty rnd sat clr drop rb m resid pops acc,
      c.kind = .drain toSp vd base ty rnd sat clr drop rb m resid pops acc →
      (∀ bad, c.begun = false → s.lockConflict c.id = false → (∀ i, i < m → t0.pois.getLsbD (rb + i) = false ∧ rb + i ∉ bad) →
        ∃ t, exec (.drainBegin core tag bad) s = .next t ∧ t.cmd? c.id = some { c with begun := true } ∧
          t = { s with cmds := t.cmds, cur := t.cur, others := t.others } ∧ (∀ v, v ≠ c.uid → t.group? v = s.group? v) ∧
          ∀ g, s.group? c.uid = some g →
            t.group? c.uid = some { g with accs := g.accs.map fun a => if a.seq = acc then a.checked else a }) ∧
      (∀ a chk, toSp = false → clr = false → drop = none → resid = [] → ty = .s32 ∨ ty = .s8x4 → c.begun = true → c.uid = s.cur.uid → s.cur.accs = [a] →
        a.seq = acc → a.l = true → a.kind = .drain c.id m chk → a.dest = vd → a.sel = BitVec.allOnes 128 → mxInt t0.bfmt t0.blen = true →
        vd.toNat + m ≤ 248 → (∀ i, i < m → s.cur.powered (vd + BitVec.ofNat 8 i) = true) → s.cur.s.flags = 0 →
        let elem (i n : Nat) : Word32 := BitVec.ofNat 32 (natOfBytes (s.acc.read (bank + (rb + i) * 512 + 4 * n) 4))
        let clipped : Prop := ty = .s8x4 ∧ ∃ i n, i < m ∧ n < 128 ∧ ((elem i n).toInt < -128 ∨ 127 < (elem i n).toInt)
        ∃ t, exec (.drainComplete core tag) s = .next t ∧ t.cmds = s.cmds.filter (fun x => x.id ≠ c.id) ∧ t.cur.accs = [] ∧
          (∀ i, i < m → t.cur.vlife (vd + BitVec.ofNat 8 i) = .live ∧ ∀ n, n < 128 →
            look (t.cur.vget (vd + BitVec.ofNat 8 i)) n 0 =
              if ty = .s32 then elem i n else (BitVec.ofInt 8 (max (-128) (min 127 (elem i n).toInt))).setWidth 32) ∧
          (c.handler = false → clipped → t.cur.flags = s.cur.flags ||| flagSA) ∧
          (c.handler = true ∨ ¬ clipped → t.cur.flags = s.cur.flags) ∧
          (∀ r : BitVec 8, r.toNat < vd.toNat ∨ vd.toNat + m ≤ r.toNat → t.cur.vget r = s.cur.vget r) ∧ SameMem s t))) ∧
  (∀ (s : State) (core tag : Nat), core < 192 → tag < 16 → (s.tag core tag).st = .dying →
    (∀ w ∈ s.waves, w.core ≠ core ∨ w.tag ≠ tag) → (∀ c ∈ s.cmds, c.core ≠ core ∨ c.tag ≠ tag) →
    let t0 := s.tag core tag
    let bank := core * 2 ^ 18 + t0.bank.toNat * 2 ^ 14
    let slot := core * 2 ^ 16 + t0.slot.toNat * 2 ^ 13
    let scale := core * 2 ^ 13 + t0.slot.toNat * 2 ^ 10
    ∃ t, exec (.tagScrub core tag) s = .next t ∧ (t.tag core tag).st = .free ∧ (t.tag core tag).pois = 0 ∧
      (∀ j, j ≠ tag → t.tag core j = s.tag core j) ∧
      (∀ x, t.acc.get x = if bank ≤ x ∧ x < bank + 2 ^ 14 then 0 else s.acc.get x) ∧
      (∀ x, t.slots.get x = if slot ≤ x ∧ x < slot + 2 ^ 13 then 0 else s.slots.get x) ∧
      (∀ x, t.scales.get x = if scale ≤ x ∧ x < scale + 2 ^ 10 then 0 else s.scales.get x) ∧ SameMem s t)

/-- R265, R328 to R334: the ladder of a context. ASK moves RUN to ASKED, or, with nothing left to park, to HALTING with
PARKED; HALT stops every running group at instruction level; a complete drain gives HALTED; RESUME lets its groups and
marked copies go on; STRIKE, of a context that owns no ACTIVE tag, leaves it EMPTY; the grace timer halts and the strike
timer strikes. That HALT and RESUME clear PARKED is log 67, and that a halt ends the waits of LWAIT, LAUNCH.W, MWAIT and
FENCE.REM, which issue again, is log 69. -/
def Obligations.LadderMovesTheContext : Prop :=
  ∀ (s : State) (c : Ctx), c.id ≠ 0 → s.ctx? c.id = some c →
    let mine (g : Group) : Prop := (s.gridOf g).ctx = c.id ∧ g.status ≠ .exited
    let toPark (g : Group) : Prop := mine g ∧ g.parked = false ∧ ∀ st e, g.status ≠ .desched st e
    let halts (t : State) : Prop :=
      t.ctx? c.id = some { c with st := .halting, parkedHalt := false, strike0 := s.time } ∧ SameMem s t ∧
        (∀ g ∈ s.groups, ¬ mine g → g ∈ t.groups) ∧
        (∀ g ∈ s.groups, mine g → g.parked = false → g.handler = none → g.status = .run →
          ({ g with halted := true, wait := SWait.atHalt g.wait } : Group) ∈ t.groups)
    let struck (t : State) : Prop :=
      (∃ x, t.ctx? c.id = some x ∧ x.st = .empty ∧ x.replays = [] ∧ x.struck = true) ∧ ∀ y ∈ t.copies, y.ctx ≠ c.id
    let untagged : Prop := ∀ core tag, core < 192 → tag < 16 → (s.tag core tag).st = .active → (s.tag core tag).ctx.toNat ≠ c.id
    (c.st = .run →
      ((∃ g ∈ s.groups, toPark g) →
        ChangesCtx s (.ask c.id) c.id { c with st := .asked, grace0 := s.time, parkedHalt := false }) ∧
      ((∀ g ∈ s.groups, ¬ toPark g) → s.dev.tmig ≠ .pending →
        ChangesCtx s (.ask c.id) c.id
          { c with st := .halting, grace0 := s.time, parkedHalt := true, strike0 := s.time })) ∧
    (c.st = .run ∨ c.st = .asked → ∃ t, exec (.preqHalt c.id) s = .next t ∧ halts t) ∧
    (c.st = .asked → c.grace0 + 1000 * max 1 c.pgrace.toNat ≤ s.time →
      ∃ t, exec (.graceExpiry c.id) s = .next t ∧ halts t) ∧
    (c.st = .halting → s.ctxDrained c.id = true → ChangesCtx s (.contextHalted c.id) c.id { c with st := .halted }) ∧
    (c.st = .asked ∨ c.st = .halted → c.challenge = none → s.dev.biv = .awake →
      ∃ t, exec (.resume c.id) s = .next t ∧ t.ctx? c.id = some { c with st := .run, parkedHalt := false } ∧ t.mem = s.mem ∧
        (∀ g ∈ s.groups, if (s.gridOf g).ctx = c.id ∧ g.status ≠ .exited then
          ({ g with parked := false, halted := false } : Group) ∈ t.groups else g ∈ t.groups) ∧
        (∀ x ∈ s.copies, if x.ctx = c.id ∧ x.resume = true ∧ x.st = .suspended then
          ({ x with st := .running, resume := false } : Copy) ∈ t.copies else x ∈ t.copies)) ∧
    (c.st ≠ .empty → untagged → ∃ t, exec (.strike c.id) s = .next t ∧ struck t) ∧
    (c.st = .halting → untagged → c.strike0 + 1000 * max 1 c.pstrike.toNat ≤ s.time →
      ∃ t, exec (.strikeExpiry c.id) s = .next t ∧ struck t)

/-- R342, R344, R416: the states of a function's migration. PRECOPY marks every page dirty and opens the window for
READ; STOP asks the function's contexts; ABORT and RESUME go back to RUNNING and resume its HALTED contexts; RECEIVE
opens the window of a function with no context; STOPPING ends, once every context is EMPTY and MIGDIRTY is written, with
the final report in host memory; MIGDIRTY keeps its page-aligned address. The function's contexts are those of its
partition (log 82), and ABORT and RESUME resume the HALTED ones (log 68), as the model has it. R343: the window of a
function. A posted READ of the next SEQ leaves the page sealed in its slot, the page clean and the descriptor done; a
posted WRITE whose tag verifies under a world's key writes the page, which becomes that world's. The states that serve a
READ and the world of a page are log 80, and the order in which the keys are tried is log 81. -/
def Obligations.MigrationMovesFunctionsAndPages : Prop :=
  (∀ (s : State) (f : Nat), 1 ≤ f → f ≤ 63 → s.mgmtOn = true → s.dev.biv = .awake → (s.ctxs.map Ctx.id).Nodup →
    let m := s.mig f
    let sets (i : Instr) (x : Mig) : Prop :=
      ∃ t, exec i s = .next t ∧ t.mig f = x ∧ (∀ k, k ≠ f → t.mig k = s.mig k) ∧ t = { s with migs := t.migs }
    let resumes (t : State) : Prop :=
      ∀ c ∈ s.fnCtxs f, c.st = .halted → c.challenge = none → ∃ x, t.ctx? c.id = some x ∧ x.st = .run
    (m.st = .running →
      sets (.migPrecopy f) { m with st := .precopy, lost := false, seq := 0, track := true, clean := [] } ∧
      (s.fnCtxs f = [] → sets (.migReceive f) { m with st := .resuming, lost := false, seq := 0 })) ∧
    (m.st = .precopy → ∃ t, exec (.migStop f) s = .next t ∧ t.mig f = { m with st := .stopping } ∧
      ∀ c ∈ s.fnCtxs f, c.st = .run → ∃ x, t.ctx? c.id = some x ∧ x.struck = false ∧ (x.st = .asked ∨ x.st = .halting)) ∧
    (m.st = .precopy ∨ m.st = .stopping → ∃ t, exec (.migAbort f) s = .next t ∧
      t.mig f = { m with st := .running, track := false, clean := [] } ∧ resumes t ∧ t.mem = s.mem) ∧
    (m.st = .resuming → ∃ t, exec (.migResume f) s = .next t ∧ t.mig f = { m with st := .running } ∧ resumes t ∧
      t.mem = s.mem) ∧
    (m.st = .stopping → m.dirty ≠ 0 → (∀ c ∈ s.fnCtxs f, c.st = .empty) → s.mem.wf = true → m.dirty.toNat + s.migLen f ≤ 2 ^ 50 →
      ∃ t, exec (.migStopped f) s = .next t ∧ t.mig f = { m with st := .stopped, lost := (s.fnCtxs f).any Ctx.struck } ∧
        (∀ i k, i < s.migLen f → k < 8 →
          ((t.mem.get (2 ^ 50 + m.dirty.toNat + i)).getLsbD k = true ↔
            slicePage ((s.fnSlices f).getD (i / 196608) 0) + 8 * (i % 196608) + k ∉ m.clean)) ∧
        (∀ a, a < 2 ^ 50 + m.dirty.toNat ∨ 2 ^ 50 + m.dirty.toNat + s.migLen f ≤ a → t.mem.get a = s.mem.get a)) ∧
    (∀ v, sets (.migdirtyWrite f v) { m with dirty := v &&& 0x000FFFFFFFFFF000 })) ∧
  (∀ (s : State) (f idx : Nat), 1 ≤ f → f ≤ 63 → idx < 15 → s.mgmtOn = true →
    let m := s.mig f
    let d := s.migDesc f idx
    let seq := fieldAt d 0 8
    let pa := fieldAt d 8 8
    let slot := f * 65536 + 4096 * (idx + 1)
    let desc := f * 65536 + 64 * idx
    let nonce := bytesOf 8 seq ++ bytesOf 4 f
    fieldAt d 17 1 = 1 → s.migFirst f seq = true → seq = m.seq + 1 → pa % 4096 = 0 → s.fnOwns f pa = true →
    (fieldAt d 16 1 = 1 → m.st = .precopy ∨ m.st = .stopping ∨ m.st = .stopped →
      (∀ i, i < 64 → s.sliceErr (s.pageWorld pa) (pa + 64 * i) = none ∧ s.levelHeld (pa + 64 * i) = false) →
      let e := gcmSeal (s.migKey (s.pageWorld pa)) nonce [] (s.memRead pa 4096)
      ∃ t, exec (.migDescRead f idx) s = .next t ∧
        t.mig f = { m with seq := seq, clean := pa / 4096 :: m.clean.filter fun p => p != pa / 4096 } ∧
        t.dev.migwin = ((s.dev.migwin.write slot e.1).write (desc + 32) e.2).write (desc + 17) [2] ∧
        t = { s with migs := t.migs, dev := { s.dev with migwin := t.dev.migwin } }) ∧
    (fieldAt d 16 1 = 2 → m.st = .resuming → s.mem.wf = true → ∀ w x,
      (s.fnWorlds f).findSome? (fun w => (gcmOpen (s.migKey w) nonce [] (s.dev.migwin.read slot 4096) ((d.drop 32).take 16)).map
        fun x => (w, x)) = some (w, x) → x.length = 4096 →
      ∃ t, exec (.migDescWrite f idx) s = .next t ∧ (t.mig f).seq = seq ∧
        t.dev.migwin = s.dev.migwin.write (desc + 17) [2] ∧
        (∀ a, t.mem.get a = if pa ≤ a ∧ a < pa + 4096 then x.getD (a - pa) 0 else s.mem.get a) ∧
        (∀ i, i < 64 → t.line? (pa + 64 * i) = some ⟨pa / 64 + i, some (w, s.genOf w), false⟩)))

/-- R345, R346: a write of TMIG with GO while no request is PENDING becomes PENDING with the reservation its checks
found, or REFUSED; while one is PENDING it is ignored; CANCEL withdraws it. The first step of the move of a drained team
gives it its core, first bank and barriers, with its window's bytes there, and its groups keep their registers and
queues; the second lets it go on, and the request is DONE. That the move is two steps, and that a request is past
withdrawal between them, is log 83. -/
def Obligations.ThermalMovesCarryTheTeam : Prop :=
  ∀ (s : State),
    (∀ v : Word, s.dev.tmig ≠ .pending →
      let d : Dev := { s.dev with tdst := v.extractLsb' 40 8, tsrc := v.extractLsb' 32 8, tslot := v.extractLsb' 0 7 }
      let u : State := { s with dev := d }
      (u.moveCheck d.tsrc.toNat d.tslot.toNat d.tdst.toNat = none →
        exec (.tmigGo v) s = .next { u with dev := { d with tmig := .refused } }) ∧
      (∀ tm gs base bars, u.moveCheck d.tsrc.toNat d.tslot.toNat d.tdst.toNat = some (tm, gs, base, bars) →
        exec (.tmigGo v) s = .next { u with dev := { d with
          tmig := .pending, tteam := tm.id, tcore := d.tdst.toNat, tres := gs, tbase := base, tbars := bars, tcarried := false } })) ∧
    (∀ v : Word, s.dev.tmig = .pending → exec (.tmigGo v) s = .next s) ∧
    (s.dev.tmig = .pending → s.dev.tcarried = false →
      exec .tmigCancel s = .next { s with
        dev := { s.dev with tmig := .cancelled }
        teams := s.teams.map fun x => if x.id == s.dev.tteam then { x with moving := false } else x }) ∧
    (∀ tm, s.dev.tmig = .pending → s.team? s.dev.tteam = some tm → tm.moving = true →
      (s.dev.tcarried = false → s.moveDrained tm = true →
        tm.core < 192 → s.dev.tcore < 192 → tm.core ≠ s.dev.tcore → tm.base + tm.units ≤ 48 → s.dev.tbase + tm.units ≤ 48 →
        s.sp.wf = true →
        ∃ t, exec .thermalMove s = .next t ∧ t.dev = { s.dev with tcarried := true } ∧ t.mem = s.mem ∧
          t.team? tm.id = some { tm with core := s.dev.tcore, base := s.dev.tbase, bars := s.dev.tbars } ∧
          (∀ i, i < tm.units * 8192 →
            t.sp.get (s.dev.tcore * 2 ^ 19 + s.dev.tbase * 8192 + i) = s.sp.get (tm.core * 2 ^ 19 + tm.base * 8192 + i) ∧
            t.sp.get (tm.core * 2 ^ 19 + tm.base * 8192 + i) = 0) ∧
          (∀ g ∈ s.groups, ∃ h ∈ t.groups, h.uid = g.uid ∧ h.s = g.s ∧ h.l = g.l ∧ h.dq = g.dq ∧ h.rq = g.rq ∧
            h.flags = g.flags ∧ h.tokens = g.tokens ∧ h.level = g.level)) ∧
      (s.dev.tcarried = true →
        ∃ t, exec .thermalMove s = .next t ∧ t.dev = { s.dev with tmig := .done } ∧ t.mem = s.mem ∧ t.sp = s.sp ∧
          t.team? tm.id = some { tm with moving := false } ∧
          (∀ g ∈ s.groups, ∃ h ∈ t.groups, h.uid = g.uid ∧ h.s = g.s ∧ h.l = g.l)))

/-- R244, R362 to R365, R369, R370, R372, R380: a host write or read of one line by a function of the link reaches host
memory, and the device memory of world 0 that the function may reach; a line of a protected world gives an error
response and stays; a recall takes a host line from level 2. A remote access whose packet its flow takes is performed at
its slice where a partition holds a share of its pod partition, and any other gets an error response; a packet that its
flow does not take breaks the flow. A packet inside the device that its flow takes delivers its access. As the model has
it, delivery is the performance of the access (log 88), an empty report stands for the error response (log 90, 115), and
log 91 says which remote accesses a share admits. -/
def Obligations.OutsideAccessesAct : Prop :=
  ∀ (s : State),
    (∀ (fn pa : Nat) (bs : List Byte), bs ≠ [] → pa % 64 + bs.length ≤ 64 → s.levelHeld pa = false →
      (s.hostReaches fn pa = false ∨ s.hostErr pa (bs.length == 64) = true → exec (.hostWrite ⟨fn, pa⟩ bs) s = .next s) ∧
      (s.hostReaches fn pa = true → s.hostErr pa (bs.length == 64) = false → s.mem.wf = true →
        ∃ t, exec (.hostWrite ⟨fn, pa⟩ bs) s = .next t ∧
          ∀ a, t.mem.get a = if pa ≤ a ∧ a < pa + bs.length then bs.getD (a - pa) 0 else s.mem.get a)) ∧
    (∀ fn pa n, n ≠ 0 → pa % 64 + n ≤ 64 → s.levelHeld pa = false →
      exec (.hostRead ⟨fn, pa⟩ n) s = .next { s with reports :=
        (if s.hostReaches fn pa = true ∧ s.hostErr pa false = false then s.mem.read pa n else []) :: s.reports }) ∧
    (∀ line, exec (.hostRecall line) s = .next { s with hostLines := s.hostLines.filter fun x => x != line }) ∧
    (∀ a : RemoteAccess, s.remoteHeld a = false →
      let f := s.flow a.pkt.flow
      let good : Prop := s.accepts a.pkt = true ∧ a.port < 24 ∧
        a.pkt.flow = flowId a.world (129 + a.port) (s.targetPort a.pa) false
      let u := s.putFlow { f with next := f.next + 1 }
      let refused := exec (.fabricAccess a) s = .next { u with reports := [] :: s.reports }
      (s.accepts a.pkt = false →
        exec (.fabricAccess a) s = .next { s.putFlow { f with broken := true } with reports := [] :: s.reports }) ∧
      (s.accepts a.pkt = true → ¬ good ∨ s.podShare? a = none ∨ s.mgmtOn = false → refused) ∧
      (∀ p, good → s.podShare? a = some p → s.mgmtOn = true →
        (∀ n, a.op = .read n → a.pa % 64 + n ≤ 64 →
          (u.readErr (129 + a.port) a.world a.pa ≠ none → refused) ∧
          (u.readErr (129 + a.port) a.world a.pa = none →
            exec (.fabricAccess a) s = .next { u with reports := s.mem.read a.pa n :: s.reports })) ∧
        (∀ bs, a.op = .write bs → a.pa % 64 + bs.length ≤ 64 →
          (u.writeErr (129 + a.port) a.world a.pa (bs.length == 64) ≠ none → refused) ∧
          (u.writeErr (129 + a.port) a.world a.pa (bs.length == 64) = none → s.mem.wf = true →
            ∃ t, exec (.fabricAccess a) s = .next t ∧
              ∀ x, t.mem.get x = if a.pa ≤ x ∧ x < a.pa + bs.length then bs.getD (x - a.pa) 0 else s.mem.get x)) ∧
        (∀ x op v, a.op = .atomic x → x.scalar = some op → a.pa % 64 + x.size ≤ 64 →
          u.readErr (129 + a.port) a.world a.pa = none → (s.part p).mode = 0 → s.mem.wf = true → x.size ≤ 8 →
          atomNew op x.size (BitVec.ofNat 64 (natOfBytes (s.mem.read a.pa x.size))) x.data x.cmp = some v →
          ∃ t, exec (.fabricAccess a) s = .next t ∧ t.reports = s.mem.read a.pa x.size :: s.reports ∧
            Stored s.mem t.mem a.pa x.size v))) ∧
    (∀ p : NocPacket,
      let f := s.flow p.pkt.flow
      (s.accepts p.pkt = true →
        let u := s.putFlow { f with next := f.next + 1 }
        (s.group? p.uid = none → exec (.nocPacketReceive p) s = .next u) ∧
        (∀ a, s.cur.uid = p.uid → s.cur.acc? p.acc = some a →
          ((∀ r ∈ a.reqs, s.carries p.pkt.flow a r = false) → exec (.nocPacketReceive p) s = .next u) ∧
          ((∃ r ∈ a.reqs, s.carries p.pkt.flow a r = true) → exec (.nocPacketReceive p) s =
            exec (if a.peer then .peerRequest p.uid p.acc else if a.valued then .loadResponse p.uid p.acc
              else .storeResponse p.uid p.acc) u))) ∧
      (s.accepts p.pkt = false → s.group? p.uid = none →
        exec (.nocPacketReceive p) s = .next (s.putFlow { f with broken := true })))

/-- R364, R367, R368, R374 to R376, R378, R379, R411, R413: the commands of trust. PTCMD, WLDCMD and CTXCMD act with
status OK where their checks pass and report the status of the check that fails; a rekey restarts a world's flows; DEBUG
is refused to a partition with a protected context; a requester receives a report; firmware takes an ANSWER from the in
mailbox, and the right one resumes a challenged context. The model's choices: a descriptor that names no world of its
partition (log 93), what an ignored write of DEBUG leaves (log 95), how firmware takes the answer (log 98). -/
def Obligations.TrustCommandsActAsAsked : Prop :=
  ∀ (s : State), s.mgmtOn = true →
    (∀ idx, idx < 16 →
      let p := s.part idx
      let sets (i : Instr) (st op : Nat) (q : Part) : Prop :=
        ∃ t, exec i s = .next t ∧ t.part idx = q ∧ (∀ k, k ≠ idx → t.part k = s.part k) ∧
          t.dev.ptcmd = BitVec.ofNat 64 (256 * st + 16 * op + idx) ∧
          t = { s with parts := t.parts, dev := { s.dev with ptcmd := t.dev.ptcmd } }
      let asked : Prop := p.live = false ∧ p.reservedOk = true ∧ p.clusters ≠ 0 ∧ p.mode.toNat ≤ 2 ∧
        (p.mode ≠ 0 → p.trailOk = true) ∧ s.routesBad p = false
      (asked → (∀ k, k < 16 → (s.part k).live = true → p.overlaps (s.part k) = false) →
        sets (.partitionCreate idx) 0 1 { p with
          live := true, trhead := 0, trtail := if p.mode = 1 then 0 else p.trtail, consumed := [], counts := [], latest := none }) ∧
      (asked → (∃ k, k < 16 ∧ (s.part k).live = true ∧ p.overlaps (s.part k) = true) → sets (.partitionCreate idx) 1 1 p) ∧
      (¬ asked → sets (.partitionCreate idx) 3 1 p) ∧ (p.live = false → sets (.partitionDestroy idx) 3 2 p) ∧
      (p.live = true → (∀ c ∈ s.ctxs, c.id ≠ 0 → c.part ≠ idx) → sets (.partitionDestroy idx) 0 2 { p with live := false }) ∧
      (p.live = true → (∃ c ∈ s.ctxs, c.id ≠ 0 ∧ c.part = idx) → sets (.partitionDestroy idx) 2 2 p)) ∧
    (∀ (w : Byte) (part : Nat), part < 16 →
      let v : Word := BitVec.ofNat 64 (w.toNat + 256 * part)
      let reg (st op : Nat) : Word := BitVec.ofNat 64 (2 ^ 60 * st + 4096 * op + 256 * part + w.toNat)
      let refused (i : Instr) (st op : Nat) : Prop := exec i s = .next { s with dev := { s.dev with wldcmd := reg st op } }
      ((w = 0 ∨ (s.part part).live = false) →
        refused (.worldCreate v) 3 1 ∧ refused (.worldImport v) 3 2 ∧ refused (.worldDestroy v) 3 3) ∧
      (w ≠ 0 → (s.part part).live = true → (∀ x, s.world? w = some x → x.part ≠ part) → refused (.worldDestroy v) 3 3) ∧
      (w ≠ 0 → (s.part part).live = true →
      (s.world? w = none → ∃ t keys, exec (.worldCreate v) s = .next t ∧ keys.length = 5 ∧
        t.worlds = s.worlds ++ [⟨w, part, s.worldGen + 1, keys⟩] ∧ t.worldGen = s.worldGen + 1 ∧ t.dev.wldcmd = reg 0 1) ∧
      ((s.world? w).isSome → refused (.worldCreate v) 2 1 ∧ refused (.worldImport v) 2 2) ∧
      (s.world? w = none →
        let b := s.memRead (hostPa s.dev.wldkey.toNat) 512
        let key := hkdf32 (Config.ecdhIdentity s.dev.resets ((b.drop 16).take 132)) (b.take 16) (ascii "svx-import")
        let opened := gcmOpen key ((b.drop 148).take 12) (b.take 16) ((b.drop 160).take 160) ((b.drop 320).take 16)
        (blobOk b w (s.part part).podPart = false → refused (.worldImport v) 3 2) ∧
        (blobOk b w (s.part part).podPart = true → opened = none → refused (.worldImport v) 4 2) ∧
        (∀ ks, blobOk b w (s.part part).podPart = true → opened = some ks → ∃ t keys, exec (.worldImport v) s = .next t ∧
          keys = (List.range 5).map (fun i => BitVec.ofNat 256 (natOfBytes ((ks.drop (32 * i)).take 32))) ∧
          t.worlds = s.worlds ++ [⟨w, part, s.worldGen + 1, keys⟩] ∧ t.dev.wldcmd = reg 0 2)) ∧
      (∀ x, s.world? w = some x → x.part = part →
        ((∃ c ∈ s.ctxs, c.id ≠ 0 ∧ c.world = w ∧ c.st ≠ .empty) → refused (.worldDestroy v) 2 3) ∧
        ((∀ c ∈ s.ctxs, c.id ≠ 0 → c.world = w → c.st = .empty) → ∃ t, exec (.worldDestroy v) s = .next t ∧
          t.worlds = s.worlds.filter (fun y => y.id != w) ∧ (∀ c ∈ t.ctxs, c.id ≠ 0 → c.world ≠ w) ∧
          (∀ f ∈ t.flows, flowWorld f.id ≠ w) ∧ t.dev.wldcmd = reg 0 3)))) ∧
    (∀ w, w < 256 → (∀ c ∈ s.ctxs, c.id ≠ 0 → c.world = BitVec.ofNat 8 w → c.st = .halted ∨ c.st = .empty) →
      ∃ t, exec (.worldRekey w) s = .next t ∧ t.flows = s.flows.filter (fun f => flowWorld f.id != BitVec.ofNat 8 w) ∧
        t.worlds.map World.id = s.worlds.map World.id ∧ t.ctxs = s.ctxs ∧ SameMem s t) ∧
    (∀ (v : Word) (sig : Bool),
      let at' := (v.toNat / 64) % 2 ^ 46 * 64
      let b := s.memRead (hostPa at') 64
      let id := fieldAt b 0 2
      let reg (st op : Nat) : Word := BitVec.ofNat 64 (2 ^ 60 * st + at' + op)
      let refused (i : Instr) (st op : Nat) : Prop := exec i s = .next { s with dev := { s.dev with ctxcmd := reg st op } }
      ((s.realCtx? id).isSome → refused (.contextCreate v sig) 2 1) ∧
      (s.realCtx? id = none → s.descOk b = false → refused (.contextCreate v sig) 3 1) ∧
      (s.realCtx? id = none → s.descOk b = true →
        (s.worldRefused (b.getD 3 0) (fieldAt b 2 1) = true → refused (.contextCreate v sig) 4 1) ∧
        (s.worldRefused (b.getD 3 0) (fieldAt b 2 1) = false →
          refused (.contextCreate v false) 5 1 ∧
          ∃ t c, exec (.contextCreate v true) s = .next t ∧ t.ctxs = s.ctxs ++ [c] ∧ c.id = id ∧ c.part = fieldAt b 2 1 ∧
            c.world = b.getD 3 0 ∧ c.tierMax = fieldAt b 4 1 ∧ c.st = .empty ∧ c.frqh = 0 ∧ c.frqt = 0 ∧ c.lost = 0 ∧ c.ovf = false ∧
            c.mboxo = BitVec.ofNat 64 (fieldAt b 32 8) ∧ c.mboxi = BitVec.ofNat 64 (fieldAt b 40 8) ∧ c.counter = 0 ∧
            t.dev.ctxcmd = reg 0 1)) ∧
      (∀ c, s.realCtx? id = some c →
        (c.st ≠ .empty → refused (.contextDestroy v) 2 2) ∧
        (c.st = .empty → ∃ t, exec (.contextDestroy v) s = .next t ∧ t.ctxs = s.ctxs.filter (fun x => x.id != id) ∧
          t.dev.ctxcmd = reg 0 2))) ∧
    (∀ v : Word,
      let closed : Prop := v.getLsbD 0 = true ∧ ∃ c ∈ s.ctxs, c.id ≠ 0 ∧ c.part = v.toNat / 16 % 16 ∧ c.world ≠ 0
      (closed → exec (.debugWrite v) s = .next s) ∧
      (¬ closed → exec (.debugWrite v) s = .next { s with dev := { s.dev with dbgPort := v &&& 0xF3 } })) ∧
    (∀ nonce, exec (.attestationRequest 0 nonce) s =
      .next { s with reports := Config.certChain s.dev.resets :: s.report none nonce :: s.reports }) ∧
    (∀ c, c.id ≠ 0 → s.ctx? c.id = some c →
      (∀ nonce, exec (.attestationRequest c.id nonce) s =
        .next { s with reports := Config.certChain s.dev.resets :: s.report (some c) nonce :: s.reports }) ∧
      (∀ ch, c.challenge = some ch →
        let right := (hmac (keyBytes (s.worldKey c.world 3)) ch).take 32
        ∀ core, let m := s.takeMail core c.id 6
          (m.1 = none → exec (.bivouacAnswer c.id core) s = .next m.2) ∧
          (∀ e, m.1 = some e →
            ((e.drop 16).take 32 ≠ right → exec (.bivouacAnswer c.id core) s = .next m.2) ∧
            ((e.drop 16).take 32 = right → m.2.ctx? c.id = some c → m.2.dev.biv = .awake → c.st = .asked ∨ c.st = .halted →
              ∃ t, exec (.bivouacAnswer c.id core) s = .next t ∧
                t.ctx? c.id = some { c with challenge := none, st := .run, parkedHalt := false } ∧ SameMem m.2 t ∧
                ∀ g ∈ t.groups, (t.gridOf g).ctx = c.id → g.parked = false ∧ g.halted = false))))

/-- R5, R25, R182, R241, R246, R247, R275, R349, R371, R384, R385, R403, R410, R412, R418: writes of registers as
events. The host moves TRHEAD of a RECORD partition and TRTAIL of a REPLAY partition; INVCMD and PTROOT post an
invalidation and drop the translations it covers; KILLREQ begins the removal of a tag; a clear acts on its field alone;
a special register is written as WRSR at MACH writes it. The model's choices: VLOGC.CLR zeroes the entries (log 86), a
partition's policy is a register (log 102), what MACH may write (log 103). -/
def Obligations.RegisterWritesActOnTheirField : Prop :=
  ∀ (s : State),
    (∀ idx v, idx < 16 → s.mgmtOn = true →
      let p := s.part idx
      let sets (i : Instr) (q : Part) : Prop :=
        ∃ t, exec i s = .next t ∧ t.part idx = q ∧ (∀ k, k ≠ idx → t.part k = s.part k) ∧ t = { s with parts := t.parts }
      p.live = true →
        sets (.trailHeadWrite idx v) (if p.mode = 1 then { p with trhead := v } else p) ∧
        sets (.trailTailWrite idx v) (if p.mode = 2 then { p with trtail := v } else p)) ∧
    (let posts (i : Instr) (ctx lo hi : Nat) (host : Bool) (t : State) : Prop :=
        exec i s = .next t ∧ (∃ x, t.invals = s.invals ++ [x] ∧ x.id = s.nextId ∧ x.ctx = ctx ∧ x.lo = lo ∧ x.hi = hi ∧ x.host = host) ∧
          (∀ k e, k < 192 → e ∈ (t.core k).tlb ∨ e ∈ (t.core k).ahead ∨ (k < 4 ∧ e ∈ look t.qtlbs k []) →
            e.inRange ctx lo hi = false) ∧ SameMem s t;
      (∀ v, s.mgmtOn = true → s.invBusy = false →
        let lo := v.toNat / 4096 % 2 ^ 45 * 4096
        ∃ t, posts (.invalidate v) (v.toNat % 4096) lo (lo + 4096 * s.dev.invpages.toNat) true t) ∧
      (∀ v, s.mgmtOn = true → s.invBusy = true → exec (.invalidate v) s = .next s) ∧
      (∀ c v, s.ctx? c.id = some c → ∃ t, posts (.ptrootWrite c.id v) c.id 0 (2 ^ 57) false t ∧
        t.ctx? c.id = some { c with ptroot := v &&& 0x000FFFFFFFFFF000 })) ∧
    (∀ core tag, core < 192 → tag < 16 → s.mgmtOn = true → (s.tag core tag).st = .active → s.headCmd core tag = none →
      let v : Word := BitVec.ofNat 64 (core + 256 * tag)
      ∃ t, exec (.killreq v) s = .next t ∧ (t.tag core tag).st = .dying ∧ (∀ k, k ≠ tag → t.tag core k = s.tag core k) ∧
        t.dev = { s.dev with killreq := v } ∧ SameMem s t) ∧
    (∀ core, core < 192 →
      (∀ v : Word, ChangesCore s (.mxcadWrite core v) core { s.core core with basem1 := v.extractLsb' 0 4 }) ∧
      ChangesCore s (.vlogClear core) core { s.core core with
        vcount := 0, vovf := false, vnext := 0, vaddr := Vector.replicate 8 0, vinfo := Vector.replicate 8 0 } ∧
      ChangesCore s (.thstOverClear core) core { s.core core with hot := false }) ∧
    (∀ (g : Group) (v : Word), s.group? g.uid = some g → ChangesGroup s (.flagsWrite g.uid v) g.uid { g with flags := v.setWidth 8 }) ∧
    (∀ c, s.ctx? c.id = some c →
      ChangesCtx s (.frqtOvfClear c.id) c.id { c with ovf := false, lost := 0 } ∧
      ChangesCtx s (.mboxoDropClear c.id) c.id { c with drop := 0 }) ∧
    (∀ dom, dom < 24 → exec (.domstFreezeClear dom) s =
      .next { s with doms := put s.doms dom { look s.doms dom (Dom.reset false) with freeze := false } }) ∧
    (∀ (a : SReg) (n : BitVec 12), SReady s .user [a] false → s.cur.level = .mach → (srLevels n.toNat).isSome → n ≠ 0x170 →
      ∃ t, exec (.registerWrite (.sr n) (s.sget a)) s = .next t ∧ exec (.wrsr a n) s = .next (t.nextPc 4)) ∧
    (∀ idx v, exec (.registerWrite (.policy idx) v) s =
      .next { s with parts := put s.parts idx { s.part idx with strict := v.getLsbD 0 } }) ∧
    (∀ v, s.mgmtOn = true →
      exec (.registerWrite (.mgmt 0x38) v) s = .next { s with dev := { s.dev with invpages := v.setWidth 32 } } ∧
      exec (.registerWrite (.mgmt 0x68) v) s = .next { s with dev := { s.dev with wldkey := v &&& 0x000FFFFFFFFFFFC0 } })

/-- R391 to R394, R398, R401 to R403, R417, R418: power. A governor window with no step and no throttled core gives each
compute domain the least of its default point and the highest point whose predicted power fits its share, each stacked
domain the lowest level with 1.125 times its demand; changes take effect when they are done; a current above the limit
raises LVL of the cores of the largest tier number; an uncorrectable error that is met waits for its record, and a line
that has one fails its check; the earliest of the errors met restores the voltage and is recorded, one TIME after the
other and by source within one (R1); a core above its threshold is HOT and logged once. The model's choices: headroom is
signed (log 63), flag bit 1 is set where an offset was restored (log 64), the events' moments (log 62), the index of a
core unit's word (log 132), and a record that its line refuses, which is counted and leaves no bytes (log 133). -/
def Obligations.PowerEventsAct : Prop :=
  ∀ (s : State),
    (∀ m : GovInput, s.dev.biv ≠ .asleep → s.time % 10000 = 0 → s.dev.window ≠ some s.time →
      (∀ k i, k < 192 → i < 16 →
        ((look (s.core k).steps i .free).seen s.time).st = .free ∧ (s.core k).throttled = false ∧ (s.core k).lvl = 0) →
      let dem := s.demands m fun q => (look s.doms q (Dom.reset true)).defpt.toNat
      ∃ t, exec (.governorWindow m) s = .next t ∧ t.dev = { s.dev with
          window := some s.time, pwr := BitVec.ofNat 16 (min m.board 65535) } ∧ SameMem s t ∧
        (∀ q, q < 4 →
          let d := look s.doms q (Dom.reset true)
          let x := look t.doms q (Dom.reset true)
          let share := shareOf dem (shares dem m.platform s.dev.pcap.toNat s.dev.pfloor) q
          let fits (i : Nat) : Prop := i < 16 ∧ (m.predict.getD (16 * q + i) 0 : Int) * share.2 ≤ share.1
          x.req = d.defpt.toNat ∧ x.cur = d.cur ∧
          ∃ h p, (fits h ∨ h = 0 ∧ ∀ i, ¬ fits i) ∧ (∀ i, h < i → ¬ fits i) ∧ p = min d.defpt.toNat h ∧
            x.pending = if p = d.cur then none else some p) ∧
        (∀ k, 4 ≤ k → k < 24 →
          let d := look s.doms k (Dom.reset false)
          let x := look t.doms k (Dom.reset false)
          let enough (l : Nat) : Prop := 9 * m.stacked.getD (k - 4) 0 ≤ 200 * (l + 1)
          x.cur = d.cur ∧ ∃ l, l ≤ 3 ∧ (enough l ∨ l = 3) ∧ (∀ j, j < l → ¬ enough j) ∧
            x.pending = if l = d.cur then none else some l)) ∧
    (∀ dom p, (look s.doms dom (Dom.reset (dom < 4))).pending = some p →
      let done : Out := .next
        { s with doms := put s.doms dom { look s.doms dom (Dom.reset (dom < 4)) with cur := p, pending := none } }
      (dom < 4 → exec (.pointChangeDone dom) s = done) ∧ (4 ≤ dom → dom < 24 → exec (.levelChangeDone dom) s = done)) ∧
    (∀ (amps : List Nat) (q : Nat), s.dev.biv ≠ .asleep → s.time % 1000 = 0 → s.dev.sample ≠ some s.time → q < 4 →
      let limit (k : Nat) : Nat := (look s.doms k (Dom.reset true)).ilim.toNat
      (∀ k, k < 4 → if k = q then limit k < amps.getD k 0 else
        9 * limit k ≤ 10 * amps.getD k 0 ∧ amps.getD k 0 ≤ limit k) →
      ∃ t, exec (.currentSample amps) s = .next t ∧ t.dev = { s.dev with sample := some s.time } ∧ SameMem s t ∧
        ∀ k, k < 192 →
          let raised : Prop := k / 48 = q ∧ (s.core k).lvl < 4 ∧ ∃ n, s.tierOf k = some n ∧
            ∀ j l, j / 48 = q → (s.core j).lvl < 4 → s.tierOf j = some l → l ≤ n
          (raised → t.core k = { s.core k with lvl := (s.core k).lvl + 1, throttled := true }) ∧
          (¬ raised → t.core k = s.core k)) ∧
    (∀ x : MetError, errReal x.err = true → s.errs.find? (fun y => y.err == x.err) = some x → x.time < s.time →
      (∀ y ∈ s.errs, x.time < y.time ∨ x.time = y.time ∧ unitSource x.err ≤ unitSource y.err) →
      let e := x.err
      let d := look s.doms (errDom e) (Dom.reset true)
      let base := s.dev.errlb.toNat / 2048 % 2 ^ 41 * 2048
      let pa := base + 32 * (s.dev.errlt.toNat % 64)
      let world := s.errWorld e
      let rec' := bytesOf 8 x.time ++ bytesOf 2 (unitSource e) ++
        [BitVec.ofNat 8 (errDom e), world, BitVec.ofNat 8 e.unit, BitVec.ofNat 8 x.uvofs,
          BitVec.ofNat 8 ((world != 0 || (s.errCtx e).isSome).toNat + 2 * (!d.freeze && d.uvofs != 0).toNat), 0] ++
        bytesOf 8 (if lineUnit e then e.addr.toNat else e.addr.toNat % 2 ^ 32) ++ bytesOf 2 ((s.errCtx e).getD 0xFFFF) ++ bytesOf 6 0
      (base ≠ 0 → s.levelHeld pa = false) →
      ∃ t, exec (.undervoltRestore e) s = .next t ∧ t.errs = s.errs.erase x ∧ t.dev = { s.dev with errlt := s.dev.errlt + 1 } ∧
        t.doms = (if d.freeze then s.doms else put s.doms (errDom e) { d with uvofs := 0, freeze := true }) ∧ t.held = s.held ∧
        t.mem = (if base = 0 ∨ (s.sliceErr 0 pa).isSome then s.mem else s.mem.write (s.place pa) rec')) ∧
    (∀ e : ErrInput, errReal e = true → lineUnit e = true → (∀ y ∈ s.errs, y.err ≠ e) →
      ∃ t, exec (.undervoltRestore e) s = .next t ∧ t = { s with errs := t.errs, lines := t.lines } ∧
        t.errs = s.errs ++ [⟨e, s.time, (look s.doms (errDom e) (Dom.reset true)).uvofs⟩] ∧
        ∀ w, t.sliceErr w e.addr.toNat = some (0x0A, 10)) ∧
    (∀ core (temp : BitVec 16), core < 192 → s.dev.biv ≠ .asleep → (∀ t, (s.core core).sampled = some t → t + 10000 ≤ s.time) →
      let c := s.core core
      let pa := s.dev.mevb.toNat / 4096 % 2 ^ 40 * 4096 + 16 * (s.dev.mevt % 256)
      (temp.toNat ≤ c.thr.toNat ∨ c.hot = true → ChangesCore s (.thermalSample core temp) core
        { c with temp := temp, hot := c.hot || decide (c.thr.toNat < temp.toNat), sampled := some s.time }) ∧
      (c.thr.toNat < temp.toNat → c.hot = false → (s.dev.mevb.toNat / 4096 % 2 ^ 40 ≠ 0 → s.levelHeld pa = false) →
        (∀ x, s.dev.mevLast = some x → x.1 = s.time → x.2 ≤ core) →
        ∃ t, exec (.thermalSample core temp) s = .next t ∧ t.core core = { c with temp := temp, hot := true, sampled := some s.time } ∧
          t.dev = { s.dev with mevt := s.dev.mevt + 1, mevLast := some (s.time, core) } ∧ t.held = s.held ∧
          t.mem = if s.dev.mevb.toNat / 4096 % 2 ^ 40 = 0 ∨ (s.sliceErr 0 pa).isSome then s.mem
            else s.mem.write (s.place pa) (bytesOf 8 s.time ++ bytesOf 2 core ++ [2] ++ List.replicate 5 0)))

/-- R169, R242, R376, R409, R415: bivouac, reset and placement. ENTER with every context HALTED or EMPTY leaves no key
and no translation; WAKE raises the epoch, zeroises the sleep key and challenges every protected context; the flows
stand in device memory meanwhile, wrapped with the sleep key (log 97); a power loss leaves no world and no save counter.
A reset that reaches READY leaves the reset state with device memory zero and host memory in place; one that fails is in
RECOVERY with no group that runs. A compactor move carries a register run or a window to its new place; a TLB may drop
an entry. The model's choices: ENTER is one step that drops translations and keeps contexts and groups (log 97), BOOTST
reads RESET after a power loss, and RECOVERY keeps memory and lines (log 100), the moves of a shortest sequence (log
44). -/
def Obligations.DeviceEventsAct : Prop :=
  ∀ (s : State),
    (s.dev.boot = .ready → s.dev.biv = .awake →
      ((∀ c ∈ s.ctxs, c.id ≠ 0 → c.st = .halted ∨ c.st = .empty) → ∃ t, exec .bivouacEnter s = .next t ∧
        t.dev.biv = .asleep ∧ t.dev.bivcmd = 1 ∧ t.dev.sleepKey.isSome ∧ (∀ w ∈ t.worlds, w.keys = []) ∧
        (∀ k, k < 192 → (t.core k).tlb = [] ∧ (t.core k).ahead = []) ∧ (∀ q, look t.qtlbs q [] = []) ∧ t.hostLines = [] ∧ t.flows = [] ∧
        (∀ k, t.dev.sleepKey = some k → t.dev.session = gcmSeal (keyBytes k) sessionNonce [] (s.flows.flatMap Flow.bytes)) ∧
        t.ctxs = s.ctxs ∧ t.groups = s.groups ∧ SameMem s t) ∧
      ((∃ c ∈ s.ctxs, c.id ≠ 0 ∧ c.st ≠ .halted ∧ c.st ≠ .empty) →
        exec .bivouacEnter s = .next { s with dev := { s.dev with bivcmd := BitVec.ofNat 64 (2 * 2 ^ 60 + 1) } })) ∧
    (∀ k, s.dev.boot = .ready → s.dev.biv = .asleep → s.dev.sleepKey = some k → ∃ t, exec .bivouacWake s = .next t ∧
      t.dev.biv = .awake ∧ t.dev.sleepKey = none ∧ t.dev.wrapped = [] ∧ t.dev.epoch = s.dev.epoch + 1 ∧ t.dev.bivcmd = 2 ∧
      t.flows = sessionFlows ((gcmOpen (keyBytes k) sessionNonce [] s.dev.session.1 s.dev.session.2).getD []) ∧ t.worlds.map World.id = s.worlds.map World.id ∧ (∀ c ∈ t.ctxs, c.id ≠ 0 → c.world ≠ 0 → c.challenge.isSome)) ∧
    (s.dev.biv = .asleep → ∃ t, exec .alwaysOnPowerLoss s = .next t ∧ t.worlds = [] ∧ (∀ c ∈ t.ctxs, c.counter = 0) ∧
      t.dev.sleepKey = none ∧ t.dev.boot = .reset ∧ t.mem = s.mem) ∧
    (∀ slices, s.lostCtxs = [] → ∃ t, exec (.deviceReset true true slices) s = .next t ∧
      t.dev = Dev.reset (s.dev.resets + 1) slices ∧ (∀ a, t.mem.get a = if a < 2 ^ 50 then 0 else s.mem.get a) ∧
      t = { State.reset with
        mem := t.mem, fresh := s.fresh, agenda := s.agenda, worldGen := s.worldGen, reports := s.reports, dev := t.dev }) ∧
    (∀ idOk fwOk slices, idOk = false ∨ fwOk = false → ∃ t, exec (.deviceReset idOk fwOk slices) s = .next t ∧
      t.dev.boot = .recovery ∧ (∀ g ∈ t.groups, g.status = .exited) ∧ t.mem = s.mem ∧ t.lines = s.lines ∧ t.dev.lost = s.lostCtxs) ∧
    (∀ core uid g dest, core < 192 → (s.core core).compact = none → s.group? uid = some g → g.status ≠ .exited → s.coreOf g = core →
      dest ≠ g.block → dest % (g.nregs / 8) = 0 → dest + g.nregs / 8 ≤ 64 →
      (∀ x ∈ (s.runsOn core).erase (g.iu, g.slot, g.block, g.nregs / 8),
        x.1 ≠ g.iu ∨ x.2.2.1 + x.2.2.2 ≤ dest ∨ dest + g.nregs / 8 ≤ x.2.2.1) →
      s.nearer (s.mapGroup uid fun g => { g with block := dest }) = true →
      ∃ t, exec (.compactorMove core (.regs uid dest)) s = .next t ∧ t.group? uid = some { g with block := dest } ∧
        t.core core = { s.core core with compact := some ⟨s.cyclesOf core + 512, [uid]⟩ } ∧ SameMem s t) ∧
    (∀ core tm dest, core < 192 → (s.core core).compact = none → s.team? tm.id = some tm → tm.core = core → tm.units ≠ 0 →
      tm.units ≠ 48 → dest ≠ tm.base → s.nearer (s.moveWindow tm dest) = true → dest % tm.units = 0 → s.unitsFree core tm.id dest tm.units = true → s.windowBusy tm = false → s.sp.wf = true →
      (∀ a, core * 2 ^ 19 + dest * 8192 ≤ a → a < core * 2 ^ 19 + (dest + tm.units) * 8192 →
        a < core * 2 ^ 19 + tm.base * 8192 ∨ core * 2 ^ 19 + (tm.base + tm.units) * 8192 ≤ a → s.sp.get a = 0) →
      ∃ t, exec (.compactorMove core (.window tm.id dest)) s = .next t ∧ t.team? tm.id = some { tm with base := dest } ∧
        (∀ i, i < tm.units * 8192 →
          t.sp.get (core * 2 ^ 19 + dest * 8192 + i) = s.sp.get (core * 2 ^ 19 + tm.base * 8192 + i)) ∧ SameMem s t) ∧
    (∀ core idx, core < 192 →
      ChangesCore s (.compactorMoveEnd core) core { s.core core with compact := none } ∧
      ChangesCore s (.tlbEntryDrop (.core core) idx) core { s.core core with tlb := (s.core core).tlb.eraseIdx idx } ∧
      ChangesCore s (.tlbEntryDrop (.ahead core) idx) core { s.core core with ahead := (s.core core).ahead.eraseIdx idx } ∧
      ∀ q, exec (.tlbEntryDrop (.quad q) idx) s = .next { s with qtlbs := put s.qtlbs q ((look s.qtlbs q []).eraseIdx idx) })

/-- R183, R275, R276, R395, R398, R400 to R403, R409, R417: what reset leaves, as the spec states it. READY, TIME 0,
memory that reads zero and lines that no world owns; every tag, step entry and partition entry FREE; base cadence 1 at
level 0; domains at point 15 and level 3 with no offset; the resets of the power, log and sensor registers; machine
firmware at MACH on core 0. -/
def Obligations.ResetLeavesTheStatedValues : Prop :=
  let s := State.reset
  s.dev.boot = .ready ∧ s.time = 0 ∧ s.lines = [] ∧ (∀ a, s.mem.get a = 0) ∧
  s.cur.level = .mach ∧ s.coreOf s.cur = 0 ∧
  (∀ c, c < 192 → (s.core c).basem1 = 0 ∧ (s.core c).lvl = 0 ∧ (s.core c).vcount = 0 ∧ (s.core c).thr = 1520 ∧
    (s.core c).temp = 0 ∧ (s.core c).hot = false ∧ (s.core c).tags = Vector.replicate 16 .free ∧
    (s.core c).steps = Vector.replicate 16 .free) ∧
  (∀ p, p < 16 → (s.part p).live = false) ∧
  (∀ d, d < 4 → (look s.doms d (Dom.reset true)).cur = 15 ∧ (look s.doms d (Dom.reset true)).defpt = 15 ∧
    (look s.doms d (Dom.reset true)).ilim = 520) ∧
  (∀ d, 4 ≤ d → d < 24 → (look s.doms d (Dom.reset true)).cur = 3) ∧
  (∀ d, d < 24 → (look s.doms d (Dom.reset true)).uvofs = 0 ∧ (look s.doms d (Dom.reset true)).freeze = false ∧
    (look s.doms d (Dom.reset true)).uven = false ∧ (look s.doms d (Dom.reset true)).cethr = 2) ∧
  s.dev.pcap = 2000 ∧ s.dev.guard = 20000 ∧ s.dev.pfloor = Vector.replicate 4 0 ∧ s.dev.tmig = .idle ∧ s.dev.errlt = 0 ∧
  s.dev.mevt = 0

/-- The model's form of memory, a choice of the model and no rule of the spec: it holds at reset. -/
def Obligations.ResetMemoryIsCanonical : Prop := StoresWf State.reset

/-- The model's form of memory: every step keeps it, so that equal memories are equal data. -/
def Obligations.StepsKeepMemoryCanonical : Prop := ∀ s t : State, StoresWf s → step s = .next t → StoresWf t

/-- No meaning stops the machine: every fault that the spec names is an exception it takes. -/
def Obligations.NoStepStops : Prop := ∀ s : State, ∃ t, step s = .next t

/-- R7, R47, R56, R57: a step lets its turn's time pass and then runs what its turn names: an event; the instruction
whose words the S-stream fetches at its S-PC, of one word or two, or a path at its L-PC, of three; a word that is none
raises ILLEGAL, a fetch that faults raises its fault, and a stream that may not issue, or whose code words a change of a
memory level holds, does nothing. An instruction one of whose accesses such a change holds waits, with no effect (R393,
log 65). -/
def Obligations.StepRunsTheDecodedInstruction : Prop :=
  ∀ (s : State) (turn : Turn) (rest : List Turn), s.agenda = turn :: rest →
    let u := ({ s with agenda := rest } : State).advance turn.dt
    let runs (i : Instr) (v : State) : Prop := ∀ t, exec i v = .next t → step s = .next (if t.held then u else t)
    (∀ i, turn.act = .event i → runs i u) ∧
    (turn.act = .issueS u.cur.uid →
      let pc := u.cur.s.pc
      (u.issuesS u.cur = false ∨ u.fetchHeld pc 8 = true → step s = .next u) ∧
      (u.issuesS u.cur = true → u.fetchHeld pc 8 = false →
        (∀ f v, u.fetchWord pc = (.inl f, v) → runs (.instructionFetchFault false f) v) ∧
        (∀ w0 v, u.fetchWord pc = (.inr w0, v) →
          (sWords w0 = 1 → (∀ i, decodeS w0 0 = .instr i → runs i v) ∧
            ((∀ i, decodeS w0 0 ≠ .instr i) → runs (.illegalEncoding false) v)) ∧
          (sWords w0 = 2 →
            (∀ f x, v.fetchWord (pc + 4) = (.inl f, x) → runs (.instructionFetchFault false f) x) ∧
            (∀ w1 x, v.fetchWord (pc + 4) = (.inr w1, x) → (∀ i, decodeS w0 w1 = .instr i → runs i x) ∧
              ((∀ i, decodeS w0 w1 ≠ .instr i) → runs (.illegalEncoding false) x)))))) ∧
    (∀ slot, turn.act = .issueL u.cur.uid slot →
      let x : State := { u with ps1 := slot }
      (x.issuesL x.cur slot = false → step s = .next x) ∧
      (∀ p, x.cur.path slot = some p →
        (x.fetchHeld (x.laddr p.pc) 12 = true → step s = .next x) ∧
        (x.issuesL x.cur slot = true → x.fetchHeld (x.laddr p.pc) 12 = false →
          (∀ f a, x.fetchWord (x.laddr p.pc) = (.inl f, a) → runs (.instructionFetchFault true f) a) ∧
          (∀ w0 a, x.fetchWord (x.laddr p.pc) = (.inr w0, a) →
            (∀ f b, a.fetchWord (a.laddr (p.pc + 1)) = (.inl f, b) → runs (.instructionFetchFault true f) b) ∧
            (∀ w1 b, a.fetchWord (a.laddr (p.pc + 1)) = (.inr w1, b) →
              (∀ f c, b.fetchWord (b.laddr (p.pc + 2)) = (.inl f, c) → runs (.instructionFetchFault true f) c) ∧
              (∀ w2 c, b.fetchWord (b.laddr (p.pc + 2)) = (.inr w2, c) →
                (∀ i, decodeL w0 w1 w2 = .instr i → runs i c) ∧
                ((∀ i, decodeL w0 w1 w2 ≠ .instr i) → runs (.illegalEncoding true) c)))))))

/-- R45 to R55: every well-formed instruction of the S-stream is read back from its own words, whatever word follows
those of a one-word form. R58 to R63: every well-formed instruction of the L-stream is read back from its own three
words. R68: the words of a statement that gsxa accepts are those of a well-formed instruction. -/
def Obligations.EncodingReadsBack : Prop :=
  (∀ i : Instr, i.lParts = none → i.wf = true →
    (∃ w0, encode i = [w0] ∧ sWords w0 = 1 ∧ ∀ w1, decodeS w0 w1 = .instr i) ∨
    (∃ w0 w1, encode i = [w0, w1] ∧ sWords w0 = 2 ∧ decodeS w0 w1 = .instr i)) ∧
  (∀ i : Instr, i.lParts ≠ none → i.wf = true →
    ∃ w0 w1 w2, encode i = [w0, w1, w2] ∧ decodeL w0 w1 w2 = .instr i) ∧
  (∀ (env : Gsxa.Env) (pc : Word) (guard : Nat) (parts : List Gsxa.Text) (ops : List (List Gsxa.Tok)) (ws : List Word32),
    env.final = true →
    (Gsxa.sStatement env pc parts ops = some ws ∨ ∃ n, Gsxa.lStatement env pc guard parts ops = some (ws, n)) →
    ∃ i : Instr, i.wf = true ∧ encode i = ws)

/-- R60, R77, R80, R92, R144: words that the spec writes out, and the instructions they stand for. R64, R69, R71, R72:
source lines that the spec writes out assemble to the words it gives, and gsxd lists those words in the same form; a
literal of `.e4m3` is rounded, and rejected where it overflows. -/
def Obligations.SpecWordsDecode : Prop :=
  (decodeS 0x1818300C 0 = .instr (.shli 3 3 12) ∧
  decodeS 0x24101FFF 0 = .instr (.slti 2 1 0xFFF) ∧
  decodeS 0x28312345 0 = .instr (.lui 6 0x12345) ∧
  decodeS 0x4C014000 0 = .instr (.jr 20) ∧
  decodeS 0x5001FFFF 0 = .instr (.loop 1 0xFFFF) ∧
  decodeS 0x0428A17B 0 = .instr (.sel 5 10 11) ∧
  decodeS 0x41030005 0 = .instr (.b .ltz 3 5) ∧
  decodeS 0x78488000 0 = .instr (.launch 9 8) ∧
  decodeS 0xD0206001 0 = .instr (.waitr .rs 6) ∧
  decodeL 0x04030000 0x01008004 0 = .instr (.vmad
    ⟨⟨0, false⟩, .s32, 0, 0, 3, ⟨1, .keep⟩, ⟨2, .keep⟩, .vec 0 .last, 0⟩)) ∧
  ((Gsxa.assemble (".scode\nADDI s4, s4, #-8\nLI s8, #0xAB12345678\nLD.64 s10, [s4+16]\nWRSR FLAGS, sz\nFENCE.REM.TEAM\n" ++
    "top: NOP\nLOOP s1, top").toList 0 0).map Gsxa.Object.scode =
      some (Gsxa.wordBytes [0x08204FF8, 0x2C400000, 0x12345678, 0x2C400001, 0xAB, 0x8C504010, 0xDFFFF020, 0xBC000041, 0, 0x5001FFFF]) ∧
  (Gsxa.assemble (".lcode\nVADD.s32 v2, v0!, v1~\nVFMUL.f32 v4, v4~, #1.5\n(!p2) VFADD.f32.rtz v9, v9, k3\n" ++
    "(p1) VLD.s32 v5, [k2 + v1*4]\nVLD.s32 v5, [#0x1000 + v1!*4]").toList 0 0).map Gsxa.Object.lcode =
      some (Gsxa.wordBytes [0x00020000, 0x00400018, 0, 0x22040600, 0x04800001, 0x3FC00000, 0x20095640, 0x09000033, 0,
        0x80052006, 0x01000023, 0, 0x80050006, 0x01400001, 0x1000]) ∧
  (Gsxa.assemble ".data\n.e4m3 300".toList 0 0).map Gsxa.Object.data = some [0x79] ∧
  Gsxa.assemble ".data\n.e4m3 470.0".toList 0 0 = none ∧
  Gsxa.assemble ".lcode\nVLD.s32 v5, [v1*4]".toList 0 0 = none ∧
  Gsxd.listS 4 0 [0x08204FF8, 0x2C400000, 0x12345678, 0xDFFFF020] =
    ["ADDI s4, s4, #-8".toList, "LI s8, #305419896".toList, "WRSR FLAGS, sz".toList] ∧
  Gsxd.listL 0 [0x00020000, 0x00400018, 0, 0x20095640, 0x09000033, 0] =
    ["VADD.s32 v2, v0!, v1~".toList, "(!p2) VFADD.f32.rtz v9, v9, k3".toList])

/-- R23, R49, R56, R307, R319, R325 to R327, R249: an instruction that its level does not suffice for takes PRIV,
exactly and with no effect: the S-PC and the registers stay. A read or a write of a special register above its level is
one, and so is one of a number from 0x100 up that is not listed, at USER. -/
def Obligations.LowLevelsTakePriv : Prop :=
  ∀ (s u : State) (i : Instr) (need : Level) (rs : List SReg) (entry : Word),
    (i = .retf ∧ need = .super ∧ rs = []) ∨ (i = .halt ∧ need = .mach ∧ rs = []) ∨
      (∃ d a, i = .tagset d a ∧ need = .super ∧ rs = [d, a]) ∨ (∃ d a, i = .tagkill d a ∧ need = .super ∧ rs = [d, a]) ∨
      (∃ d, i = .privqTake d ∧ need = .super ∧ rs = [d]) ∨ (∃ d a, i = .privqResume d a ∧ need = .super ∧ rs = [d, a]) ∨
      (∃ d a, i = .privqEnd d a ∧ need = .super ∧ rs = [d, a]) ∨
      (∃ z d a b, i = .mappgMap z d a b ∧ need = .super ∧ rs = [d, a, b]) ∨
      (∃ d a b, i = .mappgPool d a b ∧ need = .super ∧ rs = [d, a, b]) ∨
      (∃ z d a, i = .mappgUnmap z d a ∧ need = .super ∧ rs = [d, a]) ∨
      (∃ f d a b c, i = .ctxsave f d a b c ∧ need = .mach ∧ rs = [d, a, b]) ∨
      (∃ d a c, i = .ctxload d a c ∧ need = .mach ∧ rs = [d, a]) ∨
      (∃ d n w, i = .rdsr d n ∧ srLevels n.toNat = some (need, w) ∧ rs = [d]) ∨
      (∃ a n r, i = .wrsr a n ∧ srLevels n.toNat = some (r, need) ∧ rs = [a]) ∨
      (∃ d n, (i = .rdsr d n ∨ i = .wrsr d n) ∧ srLevels n.toNat = none ∧ 0x100 ≤ n.toNat ∧ need = .super ∧ rs = [d]) →
    (∀ r ∈ rs, s.cur.sLegal r = true) → Level.rank s.cur.level < Level.rank need → s.cur.sHeld = false →
    (∀ r ∈ rs, s.cur.sBusy r = false) → s.cur.sWaits = false → Interruptible s → u.canEnter = true →
    s.vectorEntry (s.coreOf s.cur) (s.ctxOf s.cur) 0x02 = (some (entry, true), u) →
    ∃ t, exec i s = .next t ∧ EntersHandler u t 0x02 0 s.cur.s.pc entry

/-- R338, R343, R363, R413: the cipher of the sealed data opens what it seals: under one key, nonce and additional data,
the ciphertext and tag of a plaintext verify and give the plaintext back. -/
def Obligations.SealedDataOpens : Prop :=
  ∀ (key : BitVec 256) (nonce aad pt : List Byte),
    gcmOpen (keyBytes key) nonce aad (gcmSeal (keyBytes key) nonce aad pt).1 (gcmSeal (keyBytes key) nonce aad pt).2 = some pt

/-- R34, R35: a value that a format represents rounds to its own encoding, in every mode, with and without .sat, and
sets no flag. -/
def Obligations.RepresentableValuesRoundToThemselves : Prop :=
  ∀ (f : FFmt) (mode : Rnd) (sat : Bool) (x : Nat), x < 2 ^ f.width →
    (∃ neg m e, f.decode x = .fin neg m e) → f.round mode sat (f.decode x) = (x, 0)
end

