-- ==== Sys2Proof/Laws/Cells.lean ====
section
/-! SUPPORT. The sparse byte stores: every operation keeps the canonical form, a read after a write to the same address
gives the byte written, and a write leaves every other address alone. -/

namespace Sys2Proof.Machine

/-- Every entry of a store lies above an address. -/
def Cells.above (a : Nat) (m : Cells) : Prop := ∀ c ∈ m, a < c.1

/-- The canonical form, with its head taken apart. -/
theorem Cells.wf_cons (a : Nat) (v : Byte) (m : Cells) : Cells.wf ((a, v) :: m) = true ↔ v ≠ 0 ∧ Cells.above a m ∧ Cells.wf m = true := by
  induction m generalizing a v with
  | nil => simp [Cells.wf, Cells.above]
  | cons c m ih =>
    obtain ⟨b, w⟩ := c
    simp only [Cells.wf, Bool.and_eq_true, bne_iff_ne, ne_eq, decide_eq_true_eq]
    constructor
    · rintro ⟨⟨hv, hab⟩, hm⟩
      refine ⟨hv, ?_, hm⟩
      intro x hx
      rcases List.mem_cons.mp hx with rfl | hx
      · exact hab
      · exact Nat.lt_trans hab (((ih b w).mp hm).2.1 x hx)
    · rintro ⟨hv, hab, hm⟩
      exact ⟨⟨hv, hab (b, w) (by simp)⟩, hm⟩

theorem Cells.erase_above {lo : Nat} {m : Cells} (a : Nat) (h : Cells.above lo m) : Cells.above lo (Cells.erase m a) := by
  induction m with
  | nil => simpa [Cells.erase] using h
  | cons c m ih =>
    obtain ⟨b, v⟩ := c
    have ht : Cells.above lo m := fun x hx => h x (by simp [hx])
    simp only [Cells.erase]
    split
    · exact ht
    · intro x hx
      rcases List.mem_cons.mp hx with rfl | hx
      · exact h (b, v) (by simp)
      · exact ih ht x hx

theorem Cells.erase_wf {m : Cells} (a : Nat) (h : Cells.wf m = true) : Cells.wf (Cells.erase m a) = true := by
  induction m with
  | nil => rfl
  | cons c m ih =>
    obtain ⟨b, v⟩ := c
    obtain ⟨hv, hb, hm⟩ := (Cells.wf_cons b v m).mp h
    simp only [Cells.erase]
    split
    · exact hm
    · exact (Cells.wf_cons _ _ _).mpr ⟨hv, Cells.erase_above a hb, ih hm⟩

theorem Cells.insert_above {lo : Nat} {m : Cells} (a : Nat) (x : Byte) (hl : lo < a) (h : Cells.above lo m) :
    Cells.above lo (Cells.insert m a x) := by
  induction m with
  | nil => intro c hc; simp [Cells.insert] at hc; subst hc; exact hl
  | cons c m ih =>
    obtain ⟨b, v⟩ := c
    have ht : Cells.above lo m := fun y hy => h y (by simp [hy])
    simp only [Cells.insert]
    split
    · intro y hy
      rcases List.mem_cons.mp hy with rfl | hy
      · exact hl
      · exact h y hy
    · split
      · intro y hy
        rcases List.mem_cons.mp hy with rfl | hy
        · exact hl
        · exact ht y hy
      · intro y hy
        rcases List.mem_cons.mp hy with rfl | hy
        · exact h (b, v) (by simp)
        · exact ih ht y hy

theorem Cells.insert_wf {m : Cells} (a : Nat) (x : Byte) (hx : x ≠ 0) (h : Cells.wf m = true) :
    Cells.wf (Cells.insert m a x) = true := by
  induction m with
  | nil => simpa [Cells.insert, Cells.wf] using hx
  | cons c m ih =>
    obtain ⟨b, v⟩ := c
    obtain ⟨hv, hb, hm⟩ := (Cells.wf_cons b v m).mp h
    simp only [Cells.insert]
    split
    · next hab =>
      refine (Cells.wf_cons _ _ _).mpr ⟨hx, ?_, h⟩
      intro y hy
      rcases List.mem_cons.mp hy with rfl | hy
      · exact hab
      · exact Nat.lt_trans hab (hb y hy)
    · next hab =>
      split
      · next he =>
        have he : b = a := by simpa using he
        subst he
        exact (Cells.wf_cons _ _ _).mpr ⟨hx, hb, hm⟩
      · next he =>
        have he : b ≠ a := by simpa using he
        exact (Cells.wf_cons _ _ _).mpr ⟨hv, Cells.insert_above a x (by omega) hb, ih hm⟩

/-- Writing one byte keeps the canonical form. -/
theorem Cells.set_wf {m : Cells} (a : Nat) (x : Byte) (h : Cells.wf m = true) : Cells.wf (Cells.set m a x) = true := by
  unfold Cells.set
  split
  · exact Cells.erase_wf a h
  · next hx => exact Cells.insert_wf a x (by simpa using hx) h

/-- Writing bytes keeps the canonical form. -/
theorem Cells.write_wf {m : Cells} (a : Nat) (bs : List Byte) (h : Cells.wf m = true) : Cells.wf (Cells.write m a bs) = true := by
  induction bs generalizing m a with
  | nil => exact h
  | cons b bs ih => exact ih (a + 1) (Cells.set_wf a b h)

theorem Cells.filter_wf {m : Cells} (p : Host.Cell → Bool) (h : Cells.wf m = true) : Cells.wf (m.filter p) = true := by
  induction m with
  | nil => rfl
  | cons c m ih =>
    obtain ⟨b, v⟩ := c
    obtain ⟨hv, hb, hm⟩ := (Cells.wf_cons b v m).mp h
    rw [List.filter_cons]
    split
    · exact (Cells.wf_cons _ _ _).mpr ⟨hv, fun x hx => hb x (List.mem_of_mem_filter hx), ih hm⟩
    · exact ih hm

/-- Discarding a range keeps the canonical form. -/
theorem Cells.clear_wf {m : Cells} (lo hi : Nat) (h : Cells.wf m = true) : Cells.wf (Cells.clear m lo hi) = true :=
  Cells.filter_wf _ h

theorem Cells.get_above {a : Nat} {m : Cells} (h : Cells.above a m) : Cells.get m a = 0 := by
  induction m with
  | nil => rfl
  | cons c m ih =>
    obtain ⟨b, v⟩ := c
    have : a < b := h (b, v) (by simp)
    have hb : (b == a) = false := by simp; omega
    simp only [Cells.get, hb, Bool.false_eq_true, if_false]
    exact ih fun x hx => h x (by simp [hx])

theorem Cells.get_erase_same {m : Cells} (a : Nat) (h : Cells.wf m = true) : Cells.get (Cells.erase m a) a = 0 := by
  induction m with
  | nil => rfl
  | cons c m ih =>
    obtain ⟨b, v⟩ := c
    obtain ⟨hv, hb, hm⟩ := (Cells.wf_cons b v m).mp h
    simp only [Cells.erase]
    split
    · next he => have : b = a := by simpa using he
                 subst this; exact Cells.get_above hb
    · next he => simp only [Cells.get, Bool.eq_false_iff.mpr he, Bool.false_eq_true, if_false]; exact ih hm

theorem Cells.get_erase_ne (m : Cells) (a b : Nat) (hab : b ≠ a) : Cells.get (Cells.erase m a) b = Cells.get m b := by
  induction m with
  | nil => rfl
  | cons c m ih =>
    obtain ⟨k, v⟩ := c
    simp only [Cells.erase]
    split
    · next he =>
      have : k = a := by simpa using he
      subst this
      have : (k == b) = false := by simp; omega
      simp [Cells.get, this]
    · simp only [Cells.get, ih]

theorem Cells.get_insert_same (m : Cells) (a : Nat) (x : Byte) : Cells.get (Cells.insert m a x) a = x := by
  induction m with
  | nil => simp [Cells.insert, Cells.get]
  | cons c m ih =>
    obtain ⟨k, v⟩ := c
    simp only [Cells.insert]
    split
    · simp [Cells.get]
    · split
      · simp [Cells.get]
      · next he => simp only [Cells.get, Bool.eq_false_iff.mpr he, Bool.false_eq_true, if_false]; exact ih

theorem Cells.get_insert_ne (m : Cells) (a b : Nat) (x : Byte) (hab : b ≠ a) : Cells.get (Cells.insert m a x) b = Cells.get m b := by
  have hf : (a == b) = false := by simp; omega
  induction m with
  | nil => simp [Cells.insert, Cells.get, hf]
  | cons c m ih =>
    obtain ⟨k, v⟩ := c
    simp only [Cells.insert]
    split
    · simp [Cells.get, hf]
    · split
      · next he =>
        have : k = a := by simpa using he
        subst this
        simp [Cells.get, hf]
      · simp only [Cells.get, ih]

/-- Reading the byte just written. -/
theorem Cells.get_set_same {m : Cells} (a : Nat) (x : Byte) (h : Cells.wf m = true) : Cells.get (Cells.set m a x) a = x := by
  unfold Cells.set
  split
  · next hx => rw [Cells.get_erase_same a h]; exact (by simpa using hx : x = 0).symm
  · exact Cells.get_insert_same m a x

/-- Reading another byte. -/
theorem Cells.get_set_ne (m : Cells) (a b : Nat) (x : Byte) (hab : b ≠ a) : Cells.get (Cells.set m a x) b = Cells.get m b := by
  unfold Cells.set
  split
  · exact Cells.get_erase_ne m a b hab
  · exact Cells.get_insert_ne m a b x hab

/-- A write leaves every address outside its bytes alone. -/
theorem Cells.get_write_out (m : Cells) (a b : Nat) (bs : List Byte) (h : b < a ∨ a + bs.length ≤ b) :
    Cells.get (Cells.write m a bs) b = Cells.get m b := by
  induction bs generalizing m a with
  | nil => rfl
  | cons x bs ih =>
    simp only [List.length_cons] at h
    rw [Cells.write, ih _ _ (by omega), Cells.get_set_ne _ _ _ _ (by omega)]

/-- A write gives its bytes. -/
theorem Cells.get_write_in {m : Cells} (a i : Nat) (bs : List Byte) (hi : i < bs.length) (h : Cells.wf m = true) :
    Cells.get (Cells.write m a bs) (a + i) = bs[i] := by
  induction bs generalizing m a i with
  | nil => simp at hi
  | cons x bs ih =>
    rw [Cells.write]
    cases i with
    | zero =>
      rw [Cells.get_write_out _ _ _ _ (by omega)]
      simpa using Cells.get_set_same a x h
    | succ i =>
      have := ih (a + 1) i (by simpa using hi) (Cells.set_wf a x h)
      rw [List.getElem_cons_succ, ← this]; congr 1; omega

/-- What is read is what each address holds. -/
theorem Cells.read_eq (m : Cells) (a n : Nat) : Cells.read m a n = (List.range n).map fun i => Cells.get m (a + i) := by
  induction n generalizing a with
  | zero => rfl
  | succ n ih =>
    rw [Cells.read, ih, List.range_succ_eq_map, List.map_cons, List.map_map]
    congr 1
    apply List.map_congr_left
    intro i _
    simp only [Function.comp]
    congr 1
    omega

/-- Bytes written are read back. -/
theorem Cells.read_write {m : Cells} (a : Nat) (bs : List Byte) (h : Cells.wf m = true) :
    Cells.read (Cells.write m a bs) a bs.length = bs := by
  rw [Cells.read_eq]
  apply List.ext_getElem (by simp)
  intro i h1 h2
  rw [List.getElem_map, List.getElem_range, Cells.get_write_in a i bs h2 h]

end Sys2Proof.Machine
end

