-- ==== Sys2Proof/Laws/Crypto.lean ====
section
/-! SUPPORT. Lengths of what the ciphers give: the key schedule, a block, a stream and a tag (FIPS 197, SP 800-38D). -/

namespace Sys2Proof.Machine

@[simp] theorem length_xorList (a b : List Byte) : (xorList a b).length = min a.length b.length := by simp [xorList]

@[simp] theorem length_shiftRows (b : List Byte) : (shiftRows b).length = 16 := by simp [shiftRows]

@[simp] theorem length_natBlock (n : BitVec 128) : (natBlock n).length = 16 := by simp [natBlock]

@[simp] theorem length_keyBytes (k : BitVec 256) : (keyBytes k).length = 32 := by
  simp only [keyBytes, bytesOf]
  have h : ∀ n w : Nat, (leBytes n w).length = n := by
    intro n
    induction n with
    | zero => intro w; rfl
    | succ n ih => intro w; simp [leBytes, ih]
  exact h 32 _

/-- One word of the schedule from the eight before it. -/
theorem keyStep {t : Array Byte} {i : Nat} {x : List (List Byte) × Byte} (hx : 8 ≤ x.1.length) (h : ∀ w ∈ x.1, w.length = 4) :
    let last := x.1.headD []
    let w := match i % 8 with
      | 0 => match last.map (subByte t) with
          | [a, b, c, d] => [b ^^^ x.2, c, d, a]
          | l => l
      | 4 => last.map (subByte t)
      | _ => last
    (xorList (x.1.getD 7 []) w).length = 4 := by
  intro last w
  have h7 : (x.1.getD 7 []).length = 4 := by
    rw [List.getD_eq_getElem _ _ (by omega)]
    exact h _ (List.getElem_mem _)
  have hl : last.length = 4 := by
    cases hx1 : x.1 with
    | nil => rw [hx1] at hx; simp at hx
    | cons y ys => exact h _ (by simp [last, hx1])
  have hw : w.length = 4 := by
    simp only [w]
    split
    · split
      · rfl
      · next hn => simpa using hl
    · simpa using hl
    · exact hl
  rw [length_xorList, h7, hw]; rfl

/-- The schedule of a 256-bit key: sixty words of four bytes. -/
theorem keyWords_words (t : Array Byte) (key : List Byte) (hk : key.length = 32) :
    (keyWords t key).length = 60 ∧ ∀ w ∈ keyWords t key, w.length = 4 := by
  unfold keyWords
  have aux : ∀ (l : List Nat) (x : List (List Byte) × Byte), 8 ≤ x.1.length → (∀ w ∈ x.1, w.length = 4) →
      (l.foldl (fun (x : List (List Byte) × Byte) i =>
        let last := x.1.headD []
        let w := match i % 8 with
          | 0 => match last.map (subByte t) with
              | [a, b, c, d] => [b ^^^ x.2, c, d, a]
              | l => l
          | 4 => last.map (subByte t)
          | _ => last
        (xorList (x.1.getD 7 []) w :: x.1, if i % 8 == 0 then xtime x.2 else x.2)) x).1.length = x.1.length + l.length ∧
      ∀ w ∈ (l.foldl (fun (x : List (List Byte) × Byte) i =>
        let last := x.1.headD []
        let w := match i % 8 with
          | 0 => match last.map (subByte t) with
              | [a, b, c, d] => [b ^^^ x.2, c, d, a]
              | l => l
          | 4 => last.map (subByte t)
          | _ => last
        (xorList (x.1.getD 7 []) w :: x.1, if i % 8 == 0 then xtime x.2 else x.2)) x).1, w.length = 4 := by
    intro l
    induction l with
    | nil => intro x _ h; exact ⟨rfl, h⟩
    | cons i l ih =>
      intro x hx h
      have hs := keyStep (t := t) (i := i) hx h
      have := ih (xorList (x.1.getD 7 []) (match i % 8 with
          | 0 => match (x.1.headD []).map (subByte t) with
              | [a, b, c, d] => [b ^^^ x.2, c, d, a]
              | l => l
          | 4 => (x.1.headD []).map (subByte t)
          | _ => x.1.headD []) :: x.1, if i % 8 == 0 then xtime x.2 else x.2) (by simp; omega)
        (by
          intro w hw
          rcases List.mem_cons.mp hw with rfl | hw
          · exact hs
          · exact h w hw)
      refine ⟨?_, this.2⟩
      rw [List.foldl_cons]
      refine this.1.trans ?_
      simp only [List.length_cons]
      omega
  have := aux (List.range 52) (((List.range 8).map fun i => (key.drop (4 * i)).take 4).reverse, 1) (by simp) (by
    intro w hw
    simp only [List.mem_reverse, List.mem_map, List.mem_range] at hw
    obtain ⟨i, hi, rfl⟩ := hw
    simp [hk]; omega)
  exact ⟨this.1.trans (by simp only [List.length_reverse, List.length_map, List.length_range]), this.2⟩

/-- Fifteen round keys of sixteen bytes. -/
theorem roundKeys_keys (t : Array Byte) (key : List Byte) (hk : key.length = 32) :
    (roundKeys t key).length = 15 ∧ ∀ k ∈ roundKeys t key, k.length = 16 := by
  obtain ⟨h1, h2⟩ := keyWords_words t key hk
  refine ⟨by simp [roundKeys], ?_⟩
  intro k hk'
  simp only [roundKeys, List.mem_map, List.mem_range] at hk'
  obtain ⟨i, hi, rfl⟩ := hk'
  rw [List.length_flatten, List.map_congr_left (g := fun _ => 4)
    (fun w hw => h2 w (by simpa using List.mem_of_mem_drop (List.mem_of_mem_take hw)))]
  simp only [List.map_const', List.sum_replicate, List.length_take, List.length_drop, List.length_reverse, h1, smul_eq_mul]
  omega

/-- A block is sixteen bytes. -/
theorem aesBlock_length (t : Array Byte) (rks : List (List Byte)) (b : List Byte) (h : rks.length = 15 ∧ ∀ k ∈ rks, k.length = 16) :
    (aesBlock t rks b).length = 16 := by
  cases rks with
  | nil => simp at h
  | cons k0 ks =>
    have hl : ks.length = 14 := by simpa using h.1
    have hk : (ks.getD 13 []).length = 16 := by
      rw [List.getD_eq_getElem _ _ (by omega)]
      exact h.2 _ (List.mem_cons_of_mem _ (List.getElem_mem _))
    simp only [aesBlock, length_xorList, length_shiftRows, hk, Nat.min_self]

theorem gcmTag_length (t : Array Byte) (rks : List (List Byte)) (nonce aad ct : List Byte)
    (h : rks.length = 15 ∧ ∀ k ∈ rks, k.length = 16) : (gcmTag t rks nonce aad ct).length = 16 := by
  simp [gcmTag, aesBlock_length t rks _ h]

theorem blocks16_length {bs b : List Byte} (h : b ∈ blocks16 bs) : b.length = 16 := by
  simp only [blocks16, List.mem_map, List.mem_range] at h
  obtain ⟨i, hi, rfl⟩ := h
  simp only [List.length_append, List.length_replicate, List.length_take]
  omega

theorem gcmStream_length (t : Array Byte) (rks : List (List Byte)) (nonce bs : List Byte)
    (h : rks.length = 15 ∧ ∀ k ∈ rks, k.length = 16) : (gcmStream t rks nonce bs).length = bs.length := by
  have aux : ∀ (l : List (List Byte)) (n : Nat), (∀ b ∈ l, b.length = 16) →
      ((l.zipIdx n).flatMap fun x => xorList x.1 (aesBlock t rks (nonce ++ beBytes 4 (x.2 + 2)))).length = 16 * l.length := by
    intro l
    induction l with
    | nil => intro n _; rfl
    | cons b l ih =>
      intro n hb
      rw [List.zipIdx_cons, List.flatMap_cons, List.length_append, ih _ fun x hx => hb x (List.mem_cons_of_mem _ hx),
        length_xorList, aesBlock_length t rks _ h, hb b (by simp), List.length_cons]
      omega
  unfold gcmStream
  rw [List.length_take, aux _ _ fun b hb => blocks16_length hb]
  simp only [blocks16, List.length_map, List.length_range]
  omega

/-- Opening gives a plaintext as long as the ciphertext. -/
theorem gcmOpen_length {key nonce aad ct tag pt : List Byte} (hk : key.length = 32) (h : gcmOpen key nonce aad ct tag = some pt) :
    pt.length = ct.length := by
  simp only [gcmOpen] at h
  split at h
  · cases h; exact gcmStream_length _ _ _ _ (roundKeys_keys _ _ hk)
  · cases h

/-- A ciphertext opens under its own tag. -/
theorem gcmOpen_own (key nonce aad ct : List Byte) :
    gcmOpen key nonce aad ct (gcmTag sboxTable (roundKeys sboxTable key) nonce aad ct) =
      some (gcmStream sboxTable (roundKeys sboxTable key) nonce ct) := by
  simp [gcmOpen]

/-- A ciphertext does not open under another tag. -/
theorem gcmOpen_other {key nonce aad ct tag : List Byte} (h : gcmTag sboxTable (roundKeys sboxTable key) nonce aad ct ≠ tag) :
    gcmOpen key nonce aad ct tag = none := by
  simp [gcmOpen, h]

theorem shaRound_length (ks : List Word) (x : List Word × List Word) (h : x.1.length = 8) :
    (ks.foldl shaRound x).1.length = 8 := by
  induction ks generalizing x with
  | nil => exact h
  | cons k ks ih =>
    apply ih
    unfold shaRound
    split
    · rfl
    · exact h

theorem shaBlock_length (ks h : List Word) (b : List Byte) (hl : h.length = 8) : (shaBlock ks h b).length = 8 := by
  rw [shaBlock, List.length_zipWith, shaRound_length ks (h, _) hl, hl, Nat.min_self]

theorem sha512_length (m : List Byte) : (sha512 m).length = 64 := by
  have aux : ∀ (f : Nat → List Byte) (l : List Nat) (h : List Word), h.length = 8 →
      (l.foldl (fun h i => shaBlock shaK h (f i)) h).length = 8 := by
    intro f l
    induction l with
    | nil => intro h hl; exact hl
    | cons i l ih => intro h hl; exact ih _ (shaBlock_length _ _ _ hl)
  unfold sha512
  dsimp only
  rw [List.length_flatMap, List.map_congr_left (g := fun _ => 8) (fun w _ => by simp [beBytes, leBytes]), List.map_const', List.sum_replicate,
    aux _ _ _ (by simp only [shaH, List.length_map]; decide +kernel)]
  rfl

/-- The derived key of an import has 32 bytes. -/
theorem hkdf32_length (secret salt info : List Byte) : (hkdf32 secret salt info).length = 32 := by
  simp [hkdf32, hmac, sha512_length]

/-- A list of sixteen, element by element. -/
theorem sixteen {t : List Byte} (h : t.length = 16) : ∃ a b c d e f g i j k l m n o p q, t = [a, b, c, d, e, f, g, i, j, k, l, m, n, o, p, q] := by
  obtain _ | ⟨a, _ | ⟨b, _ | ⟨c, _ | ⟨d, _ | ⟨e, _ | ⟨f, _ | ⟨g, _ | ⟨i, _ | ⟨j, _ | ⟨k, _ | ⟨l, _ | ⟨m, _ | ⟨n, _ | ⟨o, _ | ⟨p, _ | ⟨q, _ | ⟨r, t⟩⟩⟩⟩⟩⟩⟩⟩⟩⟩⟩⟩⟩⟩⟩⟩⟩ := t <;>
    simp at h
  exact ⟨a, b, c, d, e, f, g, i, j, k, l, m, n, o, p, q, rfl⟩

end Sys2Proof.Machine
end

