-- ==== Sys2Proof/Laws/State.lean ====
section
/-! SUPPORT. One lemma for each field of `State` and each of its updates, true by definition, and the fields of the issuing
group under the scalar register updates, so that no proof unfolds a record update. -/

namespace Sys2Proof.Machine

@[simp] theorem State.mapCur_ps1 (s : State) (f : Group → Group) : (s.mapCur f).ps1 = s.ps1 := rfl
@[simp] theorem State.mapCur_others (s : State) (f : Group → Group) : (s.mapCur f).others = s.others := rfl
@[simp] theorem State.mapCur_agenda (s : State) (f : Group → Group) : (s.mapCur f).agenda = s.agenda := rfl
@[simp] theorem State.mapCur_fresh (s : State) (f : Group → Group) : (s.mapCur f).fresh = s.fresh := rfl
@[simp] theorem State.mapCur_nextId (s : State) (f : Group → Group) : (s.mapCur f).nextId = s.nextId := rfl
@[simp] theorem State.mapCur_time (s : State) (f : Group → Group) : (s.mapCur f).time = s.time := rfl
@[simp] theorem State.mapCur_held (s : State) (f : Group → Group) : (s.mapCur f).held = s.held := rfl
@[simp] theorem State.mapCur_sub (s : State) (f : Group → Group) : (s.mapCur f).sub = s.sub := rfl
@[simp] theorem State.mapCur_teams (s : State) (f : Group → Group) : (s.mapCur f).teams = s.teams := rfl
@[simp] theorem State.mapCur_gangs (s : State) (f : Group → Group) : (s.mapCur f).gangs = s.gangs := rfl
@[simp] theorem State.mapCur_grids (s : State) (f : Group → Group) : (s.mapCur f).grids = s.grids := rfl
@[simp] theorem State.mapCur_waiters (s : State) (f : Group → Group) : (s.mapCur f).waiters = s.waiters := rfl
@[simp] theorem State.mapCur_freed (s : State) (f : Group → Group) : (s.mapCur f).freed = s.freed := rfl
@[simp] theorem State.mapCur_recorded (s : State) (f : Group → Group) : (s.mapCur f).recorded = s.recorded := rfl
@[simp] theorem State.mapCur_cores (s : State) (f : Group → Group) : (s.mapCur f).cores = s.cores := rfl
@[simp] theorem State.mapCur_copies (s : State) (f : Group → Group) : (s.mapCur f).copies = s.copies := rfl
@[simp] theorem State.mapCur_cmds (s : State) (f : Group → Group) : (s.mapCur f).cmds = s.cmds := rfl
@[simp] theorem State.mapCur_waves (s : State) (f : Group → Group) : (s.mapCur f).waves = s.waves := rfl
@[simp] theorem State.mapCur_locks (s : State) (f : Group → Group) : (s.mapCur f).locks = s.locks := rfl
@[simp] theorem State.mapCur_mem (s : State) (f : Group → Group) : (s.mapCur f).mem = s.mem := rfl
@[simp] theorem State.mapCur_olds (s : State) (f : Group → Group) : (s.mapCur f).olds = s.olds := rfl
@[simp] theorem State.mapCur_sp (s : State) (f : Group → Group) : (s.mapCur f).sp = s.sp := rfl
@[simp] theorem State.mapCur_wb (s : State) (f : Group → Group) : (s.mapCur f).wb = s.wb := rfl
@[simp] theorem State.mapCur_acc (s : State) (f : Group → Group) : (s.mapCur f).acc = s.acc := rfl
@[simp] theorem State.mapCur_slots (s : State) (f : Group → Group) : (s.mapCur f).slots = s.slots := rfl
@[simp] theorem State.mapCur_scales (s : State) (f : Group → Group) : (s.mapCur f).scales = s.scales := rfl
@[simp] theorem State.mapCur_slotBad (s : State) (f : Group → Group) : (s.mapCur f).slotBad = s.slotBad := rfl
@[simp] theorem State.mapCur_errs (s : State) (f : Group → Group) : (s.mapCur f).errs = s.errs := rfl
@[simp] theorem State.mapCur_lines (s : State) (f : Group → Group) : (s.mapCur f).lines = s.lines := rfl
@[simp] theorem State.mapCur_qtlbs (s : State) (f : Group → Group) : (s.mapCur f).qtlbs = s.qtlbs := rfl
@[simp] theorem State.mapCur_invals (s : State) (f : Group → Group) : (s.mapCur f).invals = s.invals := rfl
@[simp] theorem State.mapCur_hostLines (s : State) (f : Group → Group) : (s.mapCur f).hostLines = s.hostLines := rfl
@[simp] theorem State.mapCur_ctxs (s : State) (f : Group → Group) : (s.mapCur f).ctxs = s.ctxs := rfl
@[simp] theorem State.mapCur_parts (s : State) (f : Group → Group) : (s.mapCur f).parts = s.parts := rfl
@[simp] theorem State.mapCur_worlds (s : State) (f : Group → Group) : (s.mapCur f).worlds = s.worlds := rfl
@[simp] theorem State.mapCur_worldGen (s : State) (f : Group → Group) : (s.mapCur f).worldGen = s.worldGen := rfl
@[simp] theorem State.mapCur_flows (s : State) (f : Group → Group) : (s.mapCur f).flows = s.flows := rfl
@[simp] theorem State.mapCur_migs (s : State) (f : Group → Group) : (s.mapCur f).migs = s.migs := rfl
@[simp] theorem State.mapCur_doms (s : State) (f : Group → Group) : (s.mapCur f).doms = s.doms := rfl
@[simp] theorem State.mapCur_dev (s : State) (f : Group → Group) : (s.mapCur f).dev = s.dev := rfl
@[simp] theorem State.mapCur_reports (s : State) (f : Group → Group) : (s.mapCur f).reports = s.reports := rfl

@[simp] theorem State.mapGroup_ps1 (s : State) (u : Nat) (f : Group → Group) : (s.mapGroup u f).ps1 = s.ps1 := rfl
@[simp] theorem State.mapGroup_agenda (s : State) (u : Nat) (f : Group → Group) : (s.mapGroup u f).agenda = s.agenda := rfl
@[simp] theorem State.mapGroup_fresh (s : State) (u : Nat) (f : Group → Group) : (s.mapGroup u f).fresh = s.fresh := rfl
@[simp] theorem State.mapGroup_nextId (s : State) (u : Nat) (f : Group → Group) : (s.mapGroup u f).nextId = s.nextId := rfl
@[simp] theorem State.mapGroup_time (s : State) (u : Nat) (f : Group → Group) : (s.mapGroup u f).time = s.time := rfl
@[simp] theorem State.mapGroup_held (s : State) (u : Nat) (f : Group → Group) : (s.mapGroup u f).held = s.held := rfl
@[simp] theorem State.mapGroup_sub (s : State) (u : Nat) (f : Group → Group) : (s.mapGroup u f).sub = s.sub := rfl
@[simp] theorem State.mapGroup_teams (s : State) (u : Nat) (f : Group → Group) : (s.mapGroup u f).teams = s.teams := rfl
@[simp] theorem State.mapGroup_gangs (s : State) (u : Nat) (f : Group → Group) : (s.mapGroup u f).gangs = s.gangs := rfl
@[simp] theorem State.mapGroup_grids (s : State) (u : Nat) (f : Group → Group) : (s.mapGroup u f).grids = s.grids := rfl
@[simp] theorem State.mapGroup_waiters (s : State) (u : Nat) (f : Group → Group) : (s.mapGroup u f).waiters = s.waiters := rfl
@[simp] theorem State.mapGroup_freed (s : State) (u : Nat) (f : Group → Group) : (s.mapGroup u f).freed = s.freed := rfl
@[simp] theorem State.mapGroup_recorded (s : State) (u : Nat) (f : Group → Group) : (s.mapGroup u f).recorded = s.recorded := rfl
@[simp] theorem State.mapGroup_cores (s : State) (u : Nat) (f : Group → Group) : (s.mapGroup u f).cores = s.cores := rfl
@[simp] theorem State.mapGroup_copies (s : State) (u : Nat) (f : Group → Group) : (s.mapGroup u f).copies = s.copies := rfl
@[simp] theorem State.mapGroup_cmds (s : State) (u : Nat) (f : Group → Group) : (s.mapGroup u f).cmds = s.cmds := rfl
@[simp] theorem State.mapGroup_waves (s : State) (u : Nat) (f : Group → Group) : (s.mapGroup u f).waves = s.waves := rfl
@[simp] theorem State.mapGroup_locks (s : State) (u : Nat) (f : Group → Group) : (s.mapGroup u f).locks = s.locks := rfl
@[simp] theorem State.mapGroup_mem (s : State) (u : Nat) (f : Group → Group) : (s.mapGroup u f).mem = s.mem := rfl
@[simp] theorem State.mapGroup_olds (s : State) (u : Nat) (f : Group → Group) : (s.mapGroup u f).olds = s.olds := rfl
@[simp] theorem State.mapGroup_sp (s : State) (u : Nat) (f : Group → Group) : (s.mapGroup u f).sp = s.sp := rfl
@[simp] theorem State.mapGroup_wb (s : State) (u : Nat) (f : Group → Group) : (s.mapGroup u f).wb = s.wb := rfl
@[simp] theorem State.mapGroup_acc (s : State) (u : Nat) (f : Group → Group) : (s.mapGroup u f).acc = s.acc := rfl
@[simp] theorem State.mapGroup_slots (s : State) (u : Nat) (f : Group → Group) : (s.mapGroup u f).slots = s.slots := rfl
@[simp] theorem State.mapGroup_scales (s : State) (u : Nat) (f : Group → Group) : (s.mapGroup u f).scales = s.scales := rfl
@[simp] theorem State.mapGroup_slotBad (s : State) (u : Nat) (f : Group → Group) : (s.mapGroup u f).slotBad = s.slotBad := rfl
@[simp] theorem State.mapGroup_errs (s : State) (u : Nat) (f : Group → Group) : (s.mapGroup u f).errs = s.errs := rfl
@[simp] theorem State.mapGroup_lines (s : State) (u : Nat) (f : Group → Group) : (s.mapGroup u f).lines = s.lines := rfl
@[simp] theorem State.mapGroup_qtlbs (s : State) (u : Nat) (f : Group → Group) : (s.mapGroup u f).qtlbs = s.qtlbs := rfl
@[simp] theorem State.mapGroup_invals (s : State) (u : Nat) (f : Group → Group) : (s.mapGroup u f).invals = s.invals := rfl
@[simp] theorem State.mapGroup_hostLines (s : State) (u : Nat) (f : Group → Group) : (s.mapGroup u f).hostLines = s.hostLines := rfl
@[simp] theorem State.mapGroup_ctxs (s : State) (u : Nat) (f : Group → Group) : (s.mapGroup u f).ctxs = s.ctxs := rfl
@[simp] theorem State.mapGroup_parts (s : State) (u : Nat) (f : Group → Group) : (s.mapGroup u f).parts = s.parts := rfl
@[simp] theorem State.mapGroup_worlds (s : State) (u : Nat) (f : Group → Group) : (s.mapGroup u f).worlds = s.worlds := rfl
@[simp] theorem State.mapGroup_worldGen (s : State) (u : Nat) (f : Group → Group) : (s.mapGroup u f).worldGen = s.worldGen := rfl
@[simp] theorem State.mapGroup_flows (s : State) (u : Nat) (f : Group → Group) : (s.mapGroup u f).flows = s.flows := rfl
@[simp] theorem State.mapGroup_migs (s : State) (u : Nat) (f : Group → Group) : (s.mapGroup u f).migs = s.migs := rfl
@[simp] theorem State.mapGroup_doms (s : State) (u : Nat) (f : Group → Group) : (s.mapGroup u f).doms = s.doms := rfl
@[simp] theorem State.mapGroup_dev (s : State) (u : Nat) (f : Group → Group) : (s.mapGroup u f).dev = s.dev := rfl
@[simp] theorem State.mapGroup_reports (s : State) (u : Nat) (f : Group → Group) : (s.mapGroup u f).reports = s.reports := rfl

@[simp] theorem State.mapGroups_ps1 (s : State) (p : Group → Bool) (f : Group → Group) : (s.mapGroups p f).ps1 = s.ps1 := rfl
@[simp] theorem State.mapGroups_agenda (s : State) (p : Group → Bool) (f : Group → Group) : (s.mapGroups p f).agenda = s.agenda := rfl
@[simp] theorem State.mapGroups_fresh (s : State) (p : Group → Bool) (f : Group → Group) : (s.mapGroups p f).fresh = s.fresh := rfl
@[simp] theorem State.mapGroups_nextId (s : State) (p : Group → Bool) (f : Group → Group) : (s.mapGroups p f).nextId = s.nextId := rfl
@[simp] theorem State.mapGroups_time (s : State) (p : Group → Bool) (f : Group → Group) : (s.mapGroups p f).time = s.time := rfl
@[simp] theorem State.mapGroups_held (s : State) (p : Group → Bool) (f : Group → Group) : (s.mapGroups p f).held = s.held := rfl
@[simp] theorem State.mapGroups_sub (s : State) (p : Group → Bool) (f : Group → Group) : (s.mapGroups p f).sub = s.sub := rfl
@[simp] theorem State.mapGroups_teams (s : State) (p : Group → Bool) (f : Group → Group) : (s.mapGroups p f).teams = s.teams := rfl
@[simp] theorem State.mapGroups_gangs (s : State) (p : Group → Bool) (f : Group → Group) : (s.mapGroups p f).gangs = s.gangs := rfl
@[simp] theorem State.mapGroups_grids (s : State) (p : Group → Bool) (f : Group → Group) : (s.mapGroups p f).grids = s.grids := rfl
@[simp] theorem State.mapGroups_waiters (s : State) (p : Group → Bool) (f : Group → Group) : (s.mapGroups p f).waiters = s.waiters := rfl
@[simp] theorem State.mapGroups_freed (s : State) (p : Group → Bool) (f : Group → Group) : (s.mapGroups p f).freed = s.freed := rfl
@[simp] theorem State.mapGroups_recorded (s : State) (p : Group → Bool) (f : Group → Group) : (s.mapGroups p f).recorded = s.recorded := rfl
@[simp] theorem State.mapGroups_cores (s : State) (p : Group → Bool) (f : Group → Group) : (s.mapGroups p f).cores = s.cores := rfl
@[simp] theorem State.mapGroups_copies (s : State) (p : Group → Bool) (f : Group → Group) : (s.mapGroups p f).copies = s.copies := rfl
@[simp] theorem State.mapGroups_cmds (s : State) (p : Group → Bool) (f : Group → Group) : (s.mapGroups p f).cmds = s.cmds := rfl
@[simp] theorem State.mapGroups_waves (s : State) (p : Group → Bool) (f : Group → Group) : (s.mapGroups p f).waves = s.waves := rfl
@[simp] theorem State.mapGroups_locks (s : State) (p : Group → Bool) (f : Group → Group) : (s.mapGroups p f).locks = s.locks := rfl
@[simp] theorem State.mapGroups_mem (s : State) (p : Group → Bool) (f : Group → Group) : (s.mapGroups p f).mem = s.mem := rfl
@[simp] theorem State.mapGroups_olds (s : State) (p : Group → Bool) (f : Group → Group) : (s.mapGroups p f).olds = s.olds := rfl
@[simp] theorem State.mapGroups_sp (s : State) (p : Group → Bool) (f : Group → Group) : (s.mapGroups p f).sp = s.sp := rfl
@[simp] theorem State.mapGroups_wb (s : State) (p : Group → Bool) (f : Group → Group) : (s.mapGroups p f).wb = s.wb := rfl
@[simp] theorem State.mapGroups_acc (s : State) (p : Group → Bool) (f : Group → Group) : (s.mapGroups p f).acc = s.acc := rfl
@[simp] theorem State.mapGroups_slots (s : State) (p : Group → Bool) (f : Group → Group) : (s.mapGroups p f).slots = s.slots := rfl
@[simp] theorem State.mapGroups_scales (s : State) (p : Group → Bool) (f : Group → Group) : (s.mapGroups p f).scales = s.scales := rfl
@[simp] theorem State.mapGroups_slotBad (s : State) (p : Group → Bool) (f : Group → Group) : (s.mapGroups p f).slotBad = s.slotBad := rfl
@[simp] theorem State.mapGroups_errs (s : State) (p : Group → Bool) (f : Group → Group) : (s.mapGroups p f).errs = s.errs := rfl
@[simp] theorem State.mapGroups_lines (s : State) (p : Group → Bool) (f : Group → Group) : (s.mapGroups p f).lines = s.lines := rfl
@[simp] theorem State.mapGroups_qtlbs (s : State) (p : Group → Bool) (f : Group → Group) : (s.mapGroups p f).qtlbs = s.qtlbs := rfl
@[simp] theorem State.mapGroups_invals (s : State) (p : Group → Bool) (f : Group → Group) : (s.mapGroups p f).invals = s.invals := rfl
@[simp] theorem State.mapGroups_hostLines (s : State) (p : Group → Bool) (f : Group → Group) : (s.mapGroups p f).hostLines = s.hostLines := rfl
@[simp] theorem State.mapGroups_ctxs (s : State) (p : Group → Bool) (f : Group → Group) : (s.mapGroups p f).ctxs = s.ctxs := rfl
@[simp] theorem State.mapGroups_parts (s : State) (p : Group → Bool) (f : Group → Group) : (s.mapGroups p f).parts = s.parts := rfl
@[simp] theorem State.mapGroups_worlds (s : State) (p : Group → Bool) (f : Group → Group) : (s.mapGroups p f).worlds = s.worlds := rfl
@[simp] theorem State.mapGroups_worldGen (s : State) (p : Group → Bool) (f : Group → Group) : (s.mapGroups p f).worldGen = s.worldGen := rfl
@[simp] theorem State.mapGroups_flows (s : State) (p : Group → Bool) (f : Group → Group) : (s.mapGroups p f).flows = s.flows := rfl
@[simp] theorem State.mapGroups_migs (s : State) (p : Group → Bool) (f : Group → Group) : (s.mapGroups p f).migs = s.migs := rfl
@[simp] theorem State.mapGroups_doms (s : State) (p : Group → Bool) (f : Group → Group) : (s.mapGroups p f).doms = s.doms := rfl
@[simp] theorem State.mapGroups_dev (s : State) (p : Group → Bool) (f : Group → Group) : (s.mapGroups p f).dev = s.dev := rfl
@[simp] theorem State.mapGroups_reports (s : State) (p : Group → Bool) (f : Group → Group) : (s.mapGroups p f).reports = s.reports := rfl

@[simp] theorem State.mapTeam_cur (s : State) (i : Nat) (f : Team → Team) : (s.mapTeam i f).cur = s.cur := rfl
@[simp] theorem State.mapTeam_ps1 (s : State) (i : Nat) (f : Team → Team) : (s.mapTeam i f).ps1 = s.ps1 := rfl
@[simp] theorem State.mapTeam_others (s : State) (i : Nat) (f : Team → Team) : (s.mapTeam i f).others = s.others := rfl
@[simp] theorem State.mapTeam_agenda (s : State) (i : Nat) (f : Team → Team) : (s.mapTeam i f).agenda = s.agenda := rfl
@[simp] theorem State.mapTeam_fresh (s : State) (i : Nat) (f : Team → Team) : (s.mapTeam i f).fresh = s.fresh := rfl
@[simp] theorem State.mapTeam_nextId (s : State) (i : Nat) (f : Team → Team) : (s.mapTeam i f).nextId = s.nextId := rfl
@[simp] theorem State.mapTeam_time (s : State) (i : Nat) (f : Team → Team) : (s.mapTeam i f).time = s.time := rfl
@[simp] theorem State.mapTeam_held (s : State) (i : Nat) (f : Team → Team) : (s.mapTeam i f).held = s.held := rfl
@[simp] theorem State.mapTeam_sub (s : State) (i : Nat) (f : Team → Team) : (s.mapTeam i f).sub = s.sub := rfl
@[simp] theorem State.mapTeam_gangs (s : State) (i : Nat) (f : Team → Team) : (s.mapTeam i f).gangs = s.gangs := rfl
@[simp] theorem State.mapTeam_grids (s : State) (i : Nat) (f : Team → Team) : (s.mapTeam i f).grids = s.grids := rfl
@[simp] theorem State.mapTeam_waiters (s : State) (i : Nat) (f : Team → Team) : (s.mapTeam i f).waiters = s.waiters := rfl
@[simp] theorem State.mapTeam_freed (s : State) (i : Nat) (f : Team → Team) : (s.mapTeam i f).freed = s.freed := rfl
@[simp] theorem State.mapTeam_recorded (s : State) (i : Nat) (f : Team → Team) : (s.mapTeam i f).recorded = s.recorded := rfl
@[simp] theorem State.mapTeam_cores (s : State) (i : Nat) (f : Team → Team) : (s.mapTeam i f).cores = s.cores := rfl
@[simp] theorem State.mapTeam_copies (s : State) (i : Nat) (f : Team → Team) : (s.mapTeam i f).copies = s.copies := rfl
@[simp] theorem State.mapTeam_cmds (s : State) (i : Nat) (f : Team → Team) : (s.mapTeam i f).cmds = s.cmds := rfl
@[simp] theorem State.mapTeam_waves (s : State) (i : Nat) (f : Team → Team) : (s.mapTeam i f).waves = s.waves := rfl
@[simp] theorem State.mapTeam_locks (s : State) (i : Nat) (f : Team → Team) : (s.mapTeam i f).locks = s.locks := rfl
@[simp] theorem State.mapTeam_mem (s : State) (i : Nat) (f : Team → Team) : (s.mapTeam i f).mem = s.mem := rfl
@[simp] theorem State.mapTeam_olds (s : State) (i : Nat) (f : Team → Team) : (s.mapTeam i f).olds = s.olds := rfl
@[simp] theorem State.mapTeam_sp (s : State) (i : Nat) (f : Team → Team) : (s.mapTeam i f).sp = s.sp := rfl
@[simp] theorem State.mapTeam_wb (s : State) (i : Nat) (f : Team → Team) : (s.mapTeam i f).wb = s.wb := rfl
@[simp] theorem State.mapTeam_acc (s : State) (i : Nat) (f : Team → Team) : (s.mapTeam i f).acc = s.acc := rfl
@[simp] theorem State.mapTeam_slots (s : State) (i : Nat) (f : Team → Team) : (s.mapTeam i f).slots = s.slots := rfl
@[simp] theorem State.mapTeam_scales (s : State) (i : Nat) (f : Team → Team) : (s.mapTeam i f).scales = s.scales := rfl
@[simp] theorem State.mapTeam_slotBad (s : State) (i : Nat) (f : Team → Team) : (s.mapTeam i f).slotBad = s.slotBad := rfl
@[simp] theorem State.mapTeam_errs (s : State) (i : Nat) (f : Team → Team) : (s.mapTeam i f).errs = s.errs := rfl
@[simp] theorem State.mapTeam_lines (s : State) (i : Nat) (f : Team → Team) : (s.mapTeam i f).lines = s.lines := rfl
@[simp] theorem State.mapTeam_qtlbs (s : State) (i : Nat) (f : Team → Team) : (s.mapTeam i f).qtlbs = s.qtlbs := rfl
@[simp] theorem State.mapTeam_invals (s : State) (i : Nat) (f : Team → Team) : (s.mapTeam i f).invals = s.invals := rfl
@[simp] theorem State.mapTeam_hostLines (s : State) (i : Nat) (f : Team → Team) : (s.mapTeam i f).hostLines = s.hostLines := rfl
@[simp] theorem State.mapTeam_ctxs (s : State) (i : Nat) (f : Team → Team) : (s.mapTeam i f).ctxs = s.ctxs := rfl
@[simp] theorem State.mapTeam_parts (s : State) (i : Nat) (f : Team → Team) : (s.mapTeam i f).parts = s.parts := rfl
@[simp] theorem State.mapTeam_worlds (s : State) (i : Nat) (f : Team → Team) : (s.mapTeam i f).worlds = s.worlds := rfl
@[simp] theorem State.mapTeam_worldGen (s : State) (i : Nat) (f : Team → Team) : (s.mapTeam i f).worldGen = s.worldGen := rfl
@[simp] theorem State.mapTeam_flows (s : State) (i : Nat) (f : Team → Team) : (s.mapTeam i f).flows = s.flows := rfl
@[simp] theorem State.mapTeam_migs (s : State) (i : Nat) (f : Team → Team) : (s.mapTeam i f).migs = s.migs := rfl
@[simp] theorem State.mapTeam_doms (s : State) (i : Nat) (f : Team → Team) : (s.mapTeam i f).doms = s.doms := rfl
@[simp] theorem State.mapTeam_dev (s : State) (i : Nat) (f : Team → Team) : (s.mapTeam i f).dev = s.dev := rfl
@[simp] theorem State.mapTeam_reports (s : State) (i : Nat) (f : Team → Team) : (s.mapTeam i f).reports = s.reports := rfl

@[simp] theorem State.mapGang_cur (s : State) (i : Nat) (f : Gang → Gang) : (s.mapGang i f).cur = s.cur := rfl
@[simp] theorem State.mapGang_ps1 (s : State) (i : Nat) (f : Gang → Gang) : (s.mapGang i f).ps1 = s.ps1 := rfl
@[simp] theorem State.mapGang_others (s : State) (i : Nat) (f : Gang → Gang) : (s.mapGang i f).others = s.others := rfl
@[simp] theorem State.mapGang_agenda (s : State) (i : Nat) (f : Gang → Gang) : (s.mapGang i f).agenda = s.agenda := rfl
@[simp] theorem State.mapGang_fresh (s : State) (i : Nat) (f : Gang → Gang) : (s.mapGang i f).fresh = s.fresh := rfl
@[simp] theorem State.mapGang_nextId (s : State) (i : Nat) (f : Gang → Gang) : (s.mapGang i f).nextId = s.nextId := rfl
@[simp] theorem State.mapGang_time (s : State) (i : Nat) (f : Gang → Gang) : (s.mapGang i f).time = s.time := rfl
@[simp] theorem State.mapGang_held (s : State) (i : Nat) (f : Gang → Gang) : (s.mapGang i f).held = s.held := rfl
@[simp] theorem State.mapGang_sub (s : State) (i : Nat) (f : Gang → Gang) : (s.mapGang i f).sub = s.sub := rfl
@[simp] theorem State.mapGang_teams (s : State) (i : Nat) (f : Gang → Gang) : (s.mapGang i f).teams = s.teams := rfl
@[simp] theorem State.mapGang_grids (s : State) (i : Nat) (f : Gang → Gang) : (s.mapGang i f).grids = s.grids := rfl
@[simp] theorem State.mapGang_waiters (s : State) (i : Nat) (f : Gang → Gang) : (s.mapGang i f).waiters = s.waiters := rfl
@[simp] theorem State.mapGang_freed (s : State) (i : Nat) (f : Gang → Gang) : (s.mapGang i f).freed = s.freed := rfl
@[simp] theorem State.mapGang_recorded (s : State) (i : Nat) (f : Gang → Gang) : (s.mapGang i f).recorded = s.recorded := rfl
@[simp] theorem State.mapGang_cores (s : State) (i : Nat) (f : Gang → Gang) : (s.mapGang i f).cores = s.cores := rfl
@[simp] theorem State.mapGang_copies (s : State) (i : Nat) (f : Gang → Gang) : (s.mapGang i f).copies = s.copies := rfl
@[simp] theorem State.mapGang_cmds (s : State) (i : Nat) (f : Gang → Gang) : (s.mapGang i f).cmds = s.cmds := rfl
@[simp] theorem State.mapGang_waves (s : State) (i : Nat) (f : Gang → Gang) : (s.mapGang i f).waves = s.waves := rfl
@[simp] theorem State.mapGang_locks (s : State) (i : Nat) (f : Gang → Gang) : (s.mapGang i f).locks = s.locks := rfl
@[simp] theorem State.mapGang_mem (s : State) (i : Nat) (f : Gang → Gang) : (s.mapGang i f).mem = s.mem := rfl
@[simp] theorem State.mapGang_olds (s : State) (i : Nat) (f : Gang → Gang) : (s.mapGang i f).olds = s.olds := rfl
@[simp] theorem State.mapGang_sp (s : State) (i : Nat) (f : Gang → Gang) : (s.mapGang i f).sp = s.sp := rfl
@[simp] theorem State.mapGang_wb (s : State) (i : Nat) (f : Gang → Gang) : (s.mapGang i f).wb = s.wb := rfl
@[simp] theorem State.mapGang_acc (s : State) (i : Nat) (f : Gang → Gang) : (s.mapGang i f).acc = s.acc := rfl
@[simp] theorem State.mapGang_slots (s : State) (i : Nat) (f : Gang → Gang) : (s.mapGang i f).slots = s.slots := rfl
@[simp] theorem State.mapGang_scales (s : State) (i : Nat) (f : Gang → Gang) : (s.mapGang i f).scales = s.scales := rfl
@[simp] theorem State.mapGang_slotBad (s : State) (i : Nat) (f : Gang → Gang) : (s.mapGang i f).slotBad = s.slotBad := rfl
@[simp] theorem State.mapGang_errs (s : State) (i : Nat) (f : Gang → Gang) : (s.mapGang i f).errs = s.errs := rfl
@[simp] theorem State.mapGang_lines (s : State) (i : Nat) (f : Gang → Gang) : (s.mapGang i f).lines = s.lines := rfl
@[simp] theorem State.mapGang_qtlbs (s : State) (i : Nat) (f : Gang → Gang) : (s.mapGang i f).qtlbs = s.qtlbs := rfl
@[simp] theorem State.mapGang_invals (s : State) (i : Nat) (f : Gang → Gang) : (s.mapGang i f).invals = s.invals := rfl
@[simp] theorem State.mapGang_hostLines (s : State) (i : Nat) (f : Gang → Gang) : (s.mapGang i f).hostLines = s.hostLines := rfl
@[simp] theorem State.mapGang_ctxs (s : State) (i : Nat) (f : Gang → Gang) : (s.mapGang i f).ctxs = s.ctxs := rfl
@[simp] theorem State.mapGang_parts (s : State) (i : Nat) (f : Gang → Gang) : (s.mapGang i f).parts = s.parts := rfl
@[simp] theorem State.mapGang_worlds (s : State) (i : Nat) (f : Gang → Gang) : (s.mapGang i f).worlds = s.worlds := rfl
@[simp] theorem State.mapGang_worldGen (s : State) (i : Nat) (f : Gang → Gang) : (s.mapGang i f).worldGen = s.worldGen := rfl
@[simp] theorem State.mapGang_flows (s : State) (i : Nat) (f : Gang → Gang) : (s.mapGang i f).flows = s.flows := rfl
@[simp] theorem State.mapGang_migs (s : State) (i : Nat) (f : Gang → Gang) : (s.mapGang i f).migs = s.migs := rfl
@[simp] theorem State.mapGang_doms (s : State) (i : Nat) (f : Gang → Gang) : (s.mapGang i f).doms = s.doms := rfl
@[simp] theorem State.mapGang_dev (s : State) (i : Nat) (f : Gang → Gang) : (s.mapGang i f).dev = s.dev := rfl
@[simp] theorem State.mapGang_reports (s : State) (i : Nat) (f : Gang → Gang) : (s.mapGang i f).reports = s.reports := rfl

@[simp] theorem State.mapGrid_cur (s : State) (i : Nat) (f : Grid → Grid) : (s.mapGrid i f).cur = s.cur := rfl
@[simp] theorem State.mapGrid_ps1 (s : State) (i : Nat) (f : Grid → Grid) : (s.mapGrid i f).ps1 = s.ps1 := rfl
@[simp] theorem State.mapGrid_others (s : State) (i : Nat) (f : Grid → Grid) : (s.mapGrid i f).others = s.others := rfl
@[simp] theorem State.mapGrid_agenda (s : State) (i : Nat) (f : Grid → Grid) : (s.mapGrid i f).agenda = s.agenda := rfl
@[simp] theorem State.mapGrid_fresh (s : State) (i : Nat) (f : Grid → Grid) : (s.mapGrid i f).fresh = s.fresh := rfl
@[simp] theorem State.mapGrid_nextId (s : State) (i : Nat) (f : Grid → Grid) : (s.mapGrid i f).nextId = s.nextId := rfl
@[simp] theorem State.mapGrid_time (s : State) (i : Nat) (f : Grid → Grid) : (s.mapGrid i f).time = s.time := rfl
@[simp] theorem State.mapGrid_held (s : State) (i : Nat) (f : Grid → Grid) : (s.mapGrid i f).held = s.held := rfl
@[simp] theorem State.mapGrid_sub (s : State) (i : Nat) (f : Grid → Grid) : (s.mapGrid i f).sub = s.sub := rfl
@[simp] theorem State.mapGrid_teams (s : State) (i : Nat) (f : Grid → Grid) : (s.mapGrid i f).teams = s.teams := rfl
@[simp] theorem State.mapGrid_gangs (s : State) (i : Nat) (f : Grid → Grid) : (s.mapGrid i f).gangs = s.gangs := rfl
@[simp] theorem State.mapGrid_waiters (s : State) (i : Nat) (f : Grid → Grid) : (s.mapGrid i f).waiters = s.waiters := rfl
@[simp] theorem State.mapGrid_freed (s : State) (i : Nat) (f : Grid → Grid) : (s.mapGrid i f).freed = s.freed := rfl
@[simp] theorem State.mapGrid_recorded (s : State) (i : Nat) (f : Grid → Grid) : (s.mapGrid i f).recorded = s.recorded := rfl
@[simp] theorem State.mapGrid_cores (s : State) (i : Nat) (f : Grid → Grid) : (s.mapGrid i f).cores = s.cores := rfl
@[simp] theorem State.mapGrid_copies (s : State) (i : Nat) (f : Grid → Grid) : (s.mapGrid i f).copies = s.copies := rfl
@[simp] theorem State.mapGrid_cmds (s : State) (i : Nat) (f : Grid → Grid) : (s.mapGrid i f).cmds = s.cmds := rfl
@[simp] theorem State.mapGrid_waves (s : State) (i : Nat) (f : Grid → Grid) : (s.mapGrid i f).waves = s.waves := rfl
@[simp] theorem State.mapGrid_locks (s : State) (i : Nat) (f : Grid → Grid) : (s.mapGrid i f).locks = s.locks := rfl
@[simp] theorem State.mapGrid_mem (s : State) (i : Nat) (f : Grid → Grid) : (s.mapGrid i f).mem = s.mem := rfl
@[simp] theorem State.mapGrid_olds (s : State) (i : Nat) (f : Grid → Grid) : (s.mapGrid i f).olds = s.olds := rfl
@[simp] theorem State.mapGrid_sp (s : State) (i : Nat) (f : Grid → Grid) : (s.mapGrid i f).sp = s.sp := rfl
@[simp] theorem State.mapGrid_wb (s : State) (i : Nat) (f : Grid → Grid) : (s.mapGrid i f).wb = s.wb := rfl
@[simp] theorem State.mapGrid_acc (s : State) (i : Nat) (f : Grid → Grid) : (s.mapGrid i f).acc = s.acc := rfl
@[simp] theorem State.mapGrid_slots (s : State) (i : Nat) (f : Grid → Grid) : (s.mapGrid i f).slots = s.slots := rfl
@[simp] theorem State.mapGrid_scales (s : State) (i : Nat) (f : Grid → Grid) : (s.mapGrid i f).scales = s.scales := rfl
@[simp] theorem State.mapGrid_slotBad (s : State) (i : Nat) (f : Grid → Grid) : (s.mapGrid i f).slotBad = s.slotBad := rfl
@[simp] theorem State.mapGrid_errs (s : State) (i : Nat) (f : Grid → Grid) : (s.mapGrid i f).errs = s.errs := rfl
@[simp] theorem State.mapGrid_lines (s : State) (i : Nat) (f : Grid → Grid) : (s.mapGrid i f).lines = s.lines := rfl
@[simp] theorem State.mapGrid_qtlbs (s : State) (i : Nat) (f : Grid → Grid) : (s.mapGrid i f).qtlbs = s.qtlbs := rfl
@[simp] theorem State.mapGrid_invals (s : State) (i : Nat) (f : Grid → Grid) : (s.mapGrid i f).invals = s.invals := rfl
@[simp] theorem State.mapGrid_hostLines (s : State) (i : Nat) (f : Grid → Grid) : (s.mapGrid i f).hostLines = s.hostLines := rfl
@[simp] theorem State.mapGrid_ctxs (s : State) (i : Nat) (f : Grid → Grid) : (s.mapGrid i f).ctxs = s.ctxs := rfl
@[simp] theorem State.mapGrid_parts (s : State) (i : Nat) (f : Grid → Grid) : (s.mapGrid i f).parts = s.parts := rfl
@[simp] theorem State.mapGrid_worlds (s : State) (i : Nat) (f : Grid → Grid) : (s.mapGrid i f).worlds = s.worlds := rfl
@[simp] theorem State.mapGrid_worldGen (s : State) (i : Nat) (f : Grid → Grid) : (s.mapGrid i f).worldGen = s.worldGen := rfl
@[simp] theorem State.mapGrid_flows (s : State) (i : Nat) (f : Grid → Grid) : (s.mapGrid i f).flows = s.flows := rfl
@[simp] theorem State.mapGrid_migs (s : State) (i : Nat) (f : Grid → Grid) : (s.mapGrid i f).migs = s.migs := rfl
@[simp] theorem State.mapGrid_doms (s : State) (i : Nat) (f : Grid → Grid) : (s.mapGrid i f).doms = s.doms := rfl
@[simp] theorem State.mapGrid_dev (s : State) (i : Nat) (f : Grid → Grid) : (s.mapGrid i f).dev = s.dev := rfl
@[simp] theorem State.mapGrid_reports (s : State) (i : Nat) (f : Grid → Grid) : (s.mapGrid i f).reports = s.reports := rfl

@[simp] theorem State.mapCtx_cur (s : State) (i : Nat) (f : Ctx → Ctx) : (s.mapCtx i f).cur = s.cur := rfl
@[simp] theorem State.mapCtx_ps1 (s : State) (i : Nat) (f : Ctx → Ctx) : (s.mapCtx i f).ps1 = s.ps1 := rfl
@[simp] theorem State.mapCtx_others (s : State) (i : Nat) (f : Ctx → Ctx) : (s.mapCtx i f).others = s.others := rfl
@[simp] theorem State.mapCtx_agenda (s : State) (i : Nat) (f : Ctx → Ctx) : (s.mapCtx i f).agenda = s.agenda := rfl
@[simp] theorem State.mapCtx_fresh (s : State) (i : Nat) (f : Ctx → Ctx) : (s.mapCtx i f).fresh = s.fresh := rfl
@[simp] theorem State.mapCtx_nextId (s : State) (i : Nat) (f : Ctx → Ctx) : (s.mapCtx i f).nextId = s.nextId := rfl
@[simp] theorem State.mapCtx_time (s : State) (i : Nat) (f : Ctx → Ctx) : (s.mapCtx i f).time = s.time := rfl
@[simp] theorem State.mapCtx_held (s : State) (i : Nat) (f : Ctx → Ctx) : (s.mapCtx i f).held = s.held := rfl
@[simp] theorem State.mapCtx_sub (s : State) (i : Nat) (f : Ctx → Ctx) : (s.mapCtx i f).sub = s.sub := rfl
@[simp] theorem State.mapCtx_teams (s : State) (i : Nat) (f : Ctx → Ctx) : (s.mapCtx i f).teams = s.teams := rfl
@[simp] theorem State.mapCtx_gangs (s : State) (i : Nat) (f : Ctx → Ctx) : (s.mapCtx i f).gangs = s.gangs := rfl
@[simp] theorem State.mapCtx_grids (s : State) (i : Nat) (f : Ctx → Ctx) : (s.mapCtx i f).grids = s.grids := rfl
@[simp] theorem State.mapCtx_waiters (s : State) (i : Nat) (f : Ctx → Ctx) : (s.mapCtx i f).waiters = s.waiters := rfl
@[simp] theorem State.mapCtx_freed (s : State) (i : Nat) (f : Ctx → Ctx) : (s.mapCtx i f).freed = s.freed := rfl
@[simp] theorem State.mapCtx_recorded (s : State) (i : Nat) (f : Ctx → Ctx) : (s.mapCtx i f).recorded = s.recorded := rfl
@[simp] theorem State.mapCtx_cores (s : State) (i : Nat) (f : Ctx → Ctx) : (s.mapCtx i f).cores = s.cores := rfl
@[simp] theorem State.mapCtx_copies (s : State) (i : Nat) (f : Ctx → Ctx) : (s.mapCtx i f).copies = s.copies := rfl
@[simp] theorem State.mapCtx_cmds (s : State) (i : Nat) (f : Ctx → Ctx) : (s.mapCtx i f).cmds = s.cmds := rfl
@[simp] theorem State.mapCtx_waves (s : State) (i : Nat) (f : Ctx → Ctx) : (s.mapCtx i f).waves = s.waves := rfl
@[simp] theorem State.mapCtx_locks (s : State) (i : Nat) (f : Ctx → Ctx) : (s.mapCtx i f).locks = s.locks := rfl
@[simp] theorem State.mapCtx_mem (s : State) (i : Nat) (f : Ctx → Ctx) : (s.mapCtx i f).mem = s.mem := rfl
@[simp] theorem State.mapCtx_olds (s : State) (i : Nat) (f : Ctx → Ctx) : (s.mapCtx i f).olds = s.olds := rfl
@[simp] theorem State.mapCtx_sp (s : State) (i : Nat) (f : Ctx → Ctx) : (s.mapCtx i f).sp = s.sp := rfl
@[simp] theorem State.mapCtx_wb (s : State) (i : Nat) (f : Ctx → Ctx) : (s.mapCtx i f).wb = s.wb := rfl
@[simp] theorem State.mapCtx_acc (s : State) (i : Nat) (f : Ctx → Ctx) : (s.mapCtx i f).acc = s.acc := rfl
@[simp] theorem State.mapCtx_slots (s : State) (i : Nat) (f : Ctx → Ctx) : (s.mapCtx i f).slots = s.slots := rfl
@[simp] theorem State.mapCtx_scales (s : State) (i : Nat) (f : Ctx → Ctx) : (s.mapCtx i f).scales = s.scales := rfl
@[simp] theorem State.mapCtx_slotBad (s : State) (i : Nat) (f : Ctx → Ctx) : (s.mapCtx i f).slotBad = s.slotBad := rfl
@[simp] theorem State.mapCtx_errs (s : State) (i : Nat) (f : Ctx → Ctx) : (s.mapCtx i f).errs = s.errs := rfl
@[simp] theorem State.mapCtx_lines (s : State) (i : Nat) (f : Ctx → Ctx) : (s.mapCtx i f).lines = s.lines := rfl
@[simp] theorem State.mapCtx_qtlbs (s : State) (i : Nat) (f : Ctx → Ctx) : (s.mapCtx i f).qtlbs = s.qtlbs := rfl
@[simp] theorem State.mapCtx_invals (s : State) (i : Nat) (f : Ctx → Ctx) : (s.mapCtx i f).invals = s.invals := rfl
@[simp] theorem State.mapCtx_hostLines (s : State) (i : Nat) (f : Ctx → Ctx) : (s.mapCtx i f).hostLines = s.hostLines := rfl
@[simp] theorem State.mapCtx_parts (s : State) (i : Nat) (f : Ctx → Ctx) : (s.mapCtx i f).parts = s.parts := rfl
@[simp] theorem State.mapCtx_worlds (s : State) (i : Nat) (f : Ctx → Ctx) : (s.mapCtx i f).worlds = s.worlds := rfl
@[simp] theorem State.mapCtx_worldGen (s : State) (i : Nat) (f : Ctx → Ctx) : (s.mapCtx i f).worldGen = s.worldGen := rfl
@[simp] theorem State.mapCtx_flows (s : State) (i : Nat) (f : Ctx → Ctx) : (s.mapCtx i f).flows = s.flows := rfl
@[simp] theorem State.mapCtx_migs (s : State) (i : Nat) (f : Ctx → Ctx) : (s.mapCtx i f).migs = s.migs := rfl
@[simp] theorem State.mapCtx_doms (s : State) (i : Nat) (f : Ctx → Ctx) : (s.mapCtx i f).doms = s.doms := rfl
@[simp] theorem State.mapCtx_dev (s : State) (i : Nat) (f : Ctx → Ctx) : (s.mapCtx i f).dev = s.dev := rfl
@[simp] theorem State.mapCtx_reports (s : State) (i : Nat) (f : Ctx → Ctx) : (s.mapCtx i f).reports = s.reports := rfl

@[simp] theorem State.mapCore_cur (s : State) (c : Nat) (f : CoreState → CoreState) : (s.mapCore c f).cur = s.cur := rfl
@[simp] theorem State.mapCore_ps1 (s : State) (c : Nat) (f : CoreState → CoreState) : (s.mapCore c f).ps1 = s.ps1 := rfl
@[simp] theorem State.mapCore_others (s : State) (c : Nat) (f : CoreState → CoreState) : (s.mapCore c f).others = s.others := rfl
@[simp] theorem State.mapCore_agenda (s : State) (c : Nat) (f : CoreState → CoreState) : (s.mapCore c f).agenda = s.agenda := rfl
@[simp] theorem State.mapCore_fresh (s : State) (c : Nat) (f : CoreState → CoreState) : (s.mapCore c f).fresh = s.fresh := rfl
@[simp] theorem State.mapCore_nextId (s : State) (c : Nat) (f : CoreState → CoreState) : (s.mapCore c f).nextId = s.nextId := rfl
@[simp] theorem State.mapCore_time (s : State) (c : Nat) (f : CoreState → CoreState) : (s.mapCore c f).time = s.time := rfl
@[simp] theorem State.mapCore_held (s : State) (c : Nat) (f : CoreState → CoreState) : (s.mapCore c f).held = s.held := rfl
@[simp] theorem State.mapCore_sub (s : State) (c : Nat) (f : CoreState → CoreState) : (s.mapCore c f).sub = s.sub := rfl
@[simp] theorem State.mapCore_teams (s : State) (c : Nat) (f : CoreState → CoreState) : (s.mapCore c f).teams = s.teams := rfl
@[simp] theorem State.mapCore_gangs (s : State) (c : Nat) (f : CoreState → CoreState) : (s.mapCore c f).gangs = s.gangs := rfl
@[simp] theorem State.mapCore_grids (s : State) (c : Nat) (f : CoreState → CoreState) : (s.mapCore c f).grids = s.grids := rfl
@[simp] theorem State.mapCore_waiters (s : State) (c : Nat) (f : CoreState → CoreState) : (s.mapCore c f).waiters = s.waiters := rfl
@[simp] theorem State.mapCore_freed (s : State) (c : Nat) (f : CoreState → CoreState) : (s.mapCore c f).freed = s.freed := rfl
@[simp] theorem State.mapCore_recorded (s : State) (c : Nat) (f : CoreState → CoreState) : (s.mapCore c f).recorded = s.recorded := rfl
@[simp] theorem State.mapCore_copies (s : State) (c : Nat) (f : CoreState → CoreState) : (s.mapCore c f).copies = s.copies := rfl
@[simp] theorem State.mapCore_cmds (s : State) (c : Nat) (f : CoreState → CoreState) : (s.mapCore c f).cmds = s.cmds := rfl
@[simp] theorem State.mapCore_waves (s : State) (c : Nat) (f : CoreState → CoreState) : (s.mapCore c f).waves = s.waves := rfl
@[simp] theorem State.mapCore_locks (s : State) (c : Nat) (f : CoreState → CoreState) : (s.mapCore c f).locks = s.locks := rfl
@[simp] theorem State.mapCore_mem (s : State) (c : Nat) (f : CoreState → CoreState) : (s.mapCore c f).mem = s.mem := rfl
@[simp] theorem State.mapCore_olds (s : State) (c : Nat) (f : CoreState → CoreState) : (s.mapCore c f).olds = s.olds := rfl
@[simp] theorem State.mapCore_sp (s : State) (c : Nat) (f : CoreState → CoreState) : (s.mapCore c f).sp = s.sp := rfl
@[simp] theorem State.mapCore_wb (s : State) (c : Nat) (f : CoreState → CoreState) : (s.mapCore c f).wb = s.wb := rfl
@[simp] theorem State.mapCore_acc (s : State) (c : Nat) (f : CoreState → CoreState) : (s.mapCore c f).acc = s.acc := rfl
@[simp] theorem State.mapCore_slots (s : State) (c : Nat) (f : CoreState → CoreState) : (s.mapCore c f).slots = s.slots := rfl
@[simp] theorem State.mapCore_scales (s : State) (c : Nat) (f : CoreState → CoreState) : (s.mapCore c f).scales = s.scales := rfl
@[simp] theorem State.mapCore_slotBad (s : State) (c : Nat) (f : CoreState → CoreState) : (s.mapCore c f).slotBad = s.slotBad := rfl
@[simp] theorem State.mapCore_errs (s : State) (c : Nat) (f : CoreState → CoreState) : (s.mapCore c f).errs = s.errs := rfl
@[simp] theorem State.mapCore_lines (s : State) (c : Nat) (f : CoreState → CoreState) : (s.mapCore c f).lines = s.lines := rfl
@[simp] theorem State.mapCore_qtlbs (s : State) (c : Nat) (f : CoreState → CoreState) : (s.mapCore c f).qtlbs = s.qtlbs := rfl
@[simp] theorem State.mapCore_invals (s : State) (c : Nat) (f : CoreState → CoreState) : (s.mapCore c f).invals = s.invals := rfl
@[simp] theorem State.mapCore_hostLines (s : State) (c : Nat) (f : CoreState → CoreState) : (s.mapCore c f).hostLines = s.hostLines := rfl
@[simp] theorem State.mapCore_ctxs (s : State) (c : Nat) (f : CoreState → CoreState) : (s.mapCore c f).ctxs = s.ctxs := rfl
@[simp] theorem State.mapCore_parts (s : State) (c : Nat) (f : CoreState → CoreState) : (s.mapCore c f).parts = s.parts := rfl
@[simp] theorem State.mapCore_worlds (s : State) (c : Nat) (f : CoreState → CoreState) : (s.mapCore c f).worlds = s.worlds := rfl
@[simp] theorem State.mapCore_worldGen (s : State) (c : Nat) (f : CoreState → CoreState) : (s.mapCore c f).worldGen = s.worldGen := rfl
@[simp] theorem State.mapCore_flows (s : State) (c : Nat) (f : CoreState → CoreState) : (s.mapCore c f).flows = s.flows := rfl
@[simp] theorem State.mapCore_migs (s : State) (c : Nat) (f : CoreState → CoreState) : (s.mapCore c f).migs = s.migs := rfl
@[simp] theorem State.mapCore_doms (s : State) (c : Nat) (f : CoreState → CoreState) : (s.mapCore c f).doms = s.doms := rfl
@[simp] theorem State.mapCore_dev (s : State) (c : Nat) (f : CoreState → CoreState) : (s.mapCore c f).dev = s.dev := rfl
@[simp] theorem State.mapCore_reports (s : State) (c : Nat) (f : CoreState → CoreState) : (s.mapCore c f).reports = s.reports := rfl

@[simp] theorem State.mapPart_cur (s : State) (i : Nat) (f : Part → Part) : (s.mapPart i f).cur = s.cur := rfl
@[simp] theorem State.mapPart_ps1 (s : State) (i : Nat) (f : Part → Part) : (s.mapPart i f).ps1 = s.ps1 := rfl
@[simp] theorem State.mapPart_others (s : State) (i : Nat) (f : Part → Part) : (s.mapPart i f).others = s.others := rfl
@[simp] theorem State.mapPart_agenda (s : State) (i : Nat) (f : Part → Part) : (s.mapPart i f).agenda = s.agenda := rfl
@[simp] theorem State.mapPart_fresh (s : State) (i : Nat) (f : Part → Part) : (s.mapPart i f).fresh = s.fresh := rfl
@[simp] theorem State.mapPart_nextId (s : State) (i : Nat) (f : Part → Part) : (s.mapPart i f).nextId = s.nextId := rfl
@[simp] theorem State.mapPart_time (s : State) (i : Nat) (f : Part → Part) : (s.mapPart i f).time = s.time := rfl
@[simp] theorem State.mapPart_held (s : State) (i : Nat) (f : Part → Part) : (s.mapPart i f).held = s.held := rfl
@[simp] theorem State.mapPart_sub (s : State) (i : Nat) (f : Part → Part) : (s.mapPart i f).sub = s.sub := rfl
@[simp] theorem State.mapPart_teams (s : State) (i : Nat) (f : Part → Part) : (s.mapPart i f).teams = s.teams := rfl
@[simp] theorem State.mapPart_gangs (s : State) (i : Nat) (f : Part → Part) : (s.mapPart i f).gangs = s.gangs := rfl
@[simp] theorem State.mapPart_grids (s : State) (i : Nat) (f : Part → Part) : (s.mapPart i f).grids = s.grids := rfl
@[simp] theorem State.mapPart_waiters (s : State) (i : Nat) (f : Part → Part) : (s.mapPart i f).waiters = s.waiters := rfl
@[simp] theorem State.mapPart_freed (s : State) (i : Nat) (f : Part → Part) : (s.mapPart i f).freed = s.freed := rfl
@[simp] theorem State.mapPart_recorded (s : State) (i : Nat) (f : Part → Part) : (s.mapPart i f).recorded = s.recorded := rfl
@[simp] theorem State.mapPart_cores (s : State) (i : Nat) (f : Part → Part) : (s.mapPart i f).cores = s.cores := rfl
@[simp] theorem State.mapPart_copies (s : State) (i : Nat) (f : Part → Part) : (s.mapPart i f).copies = s.copies := rfl
@[simp] theorem State.mapPart_cmds (s : State) (i : Nat) (f : Part → Part) : (s.mapPart i f).cmds = s.cmds := rfl
@[simp] theorem State.mapPart_waves (s : State) (i : Nat) (f : Part → Part) : (s.mapPart i f).waves = s.waves := rfl
@[simp] theorem State.mapPart_locks (s : State) (i : Nat) (f : Part → Part) : (s.mapPart i f).locks = s.locks := rfl
@[simp] theorem State.mapPart_mem (s : State) (i : Nat) (f : Part → Part) : (s.mapPart i f).mem = s.mem := rfl
@[simp] theorem State.mapPart_olds (s : State) (i : Nat) (f : Part → Part) : (s.mapPart i f).olds = s.olds := rfl
@[simp] theorem State.mapPart_sp (s : State) (i : Nat) (f : Part → Part) : (s.mapPart i f).sp = s.sp := rfl
@[simp] theorem State.mapPart_wb (s : State) (i : Nat) (f : Part → Part) : (s.mapPart i f).wb = s.wb := rfl
@[simp] theorem State.mapPart_acc (s : State) (i : Nat) (f : Part → Part) : (s.mapPart i f).acc = s.acc := rfl
@[simp] theorem State.mapPart_slots (s : State) (i : Nat) (f : Part → Part) : (s.mapPart i f).slots = s.slots := rfl
@[simp] theorem State.mapPart_scales (s : State) (i : Nat) (f : Part → Part) : (s.mapPart i f).scales = s.scales := rfl
@[simp] theorem State.mapPart_slotBad (s : State) (i : Nat) (f : Part → Part) : (s.mapPart i f).slotBad = s.slotBad := rfl
@[simp] theorem State.mapPart_errs (s : State) (i : Nat) (f : Part → Part) : (s.mapPart i f).errs = s.errs := rfl
@[simp] theorem State.mapPart_lines (s : State) (i : Nat) (f : Part → Part) : (s.mapPart i f).lines = s.lines := rfl
@[simp] theorem State.mapPart_qtlbs (s : State) (i : Nat) (f : Part → Part) : (s.mapPart i f).qtlbs = s.qtlbs := rfl
@[simp] theorem State.mapPart_invals (s : State) (i : Nat) (f : Part → Part) : (s.mapPart i f).invals = s.invals := rfl
@[simp] theorem State.mapPart_hostLines (s : State) (i : Nat) (f : Part → Part) : (s.mapPart i f).hostLines = s.hostLines := rfl
@[simp] theorem State.mapPart_ctxs (s : State) (i : Nat) (f : Part → Part) : (s.mapPart i f).ctxs = s.ctxs := rfl
@[simp] theorem State.mapPart_worlds (s : State) (i : Nat) (f : Part → Part) : (s.mapPart i f).worlds = s.worlds := rfl
@[simp] theorem State.mapPart_worldGen (s : State) (i : Nat) (f : Part → Part) : (s.mapPart i f).worldGen = s.worldGen := rfl
@[simp] theorem State.mapPart_flows (s : State) (i : Nat) (f : Part → Part) : (s.mapPart i f).flows = s.flows := rfl
@[simp] theorem State.mapPart_migs (s : State) (i : Nat) (f : Part → Part) : (s.mapPart i f).migs = s.migs := rfl
@[simp] theorem State.mapPart_doms (s : State) (i : Nat) (f : Part → Part) : (s.mapPart i f).doms = s.doms := rfl
@[simp] theorem State.mapPart_dev (s : State) (i : Nat) (f : Part → Part) : (s.mapPart i f).dev = s.dev := rfl
@[simp] theorem State.mapPart_reports (s : State) (i : Nat) (f : Part → Part) : (s.mapPart i f).reports = s.reports := rfl

@[simp] theorem State.joinS_ps1 (s : State) : (s.joinS).ps1 = s.ps1 := rfl
@[simp] theorem State.joinS_others (s : State) : (s.joinS).others = s.others := rfl
@[simp] theorem State.joinS_agenda (s : State) : (s.joinS).agenda = s.agenda := rfl
@[simp] theorem State.joinS_fresh (s : State) : (s.joinS).fresh = s.fresh := rfl
@[simp] theorem State.joinS_nextId (s : State) : (s.joinS).nextId = s.nextId := rfl
@[simp] theorem State.joinS_time (s : State) : (s.joinS).time = s.time := rfl
@[simp] theorem State.joinS_held (s : State) : (s.joinS).held = s.held := rfl
@[simp] theorem State.joinS_sub (s : State) : (s.joinS).sub = s.sub := rfl
@[simp] theorem State.joinS_teams (s : State) : (s.joinS).teams = s.teams := rfl
@[simp] theorem State.joinS_gangs (s : State) : (s.joinS).gangs = s.gangs := rfl
@[simp] theorem State.joinS_grids (s : State) : (s.joinS).grids = s.grids := rfl
@[simp] theorem State.joinS_waiters (s : State) : (s.joinS).waiters = s.waiters := rfl
@[simp] theorem State.joinS_freed (s : State) : (s.joinS).freed = s.freed := rfl
@[simp] theorem State.joinS_recorded (s : State) : (s.joinS).recorded = s.recorded := rfl
@[simp] theorem State.joinS_cores (s : State) : (s.joinS).cores = s.cores := rfl
@[simp] theorem State.joinS_copies (s : State) : (s.joinS).copies = s.copies := rfl
@[simp] theorem State.joinS_cmds (s : State) : (s.joinS).cmds = s.cmds := rfl
@[simp] theorem State.joinS_waves (s : State) : (s.joinS).waves = s.waves := rfl
@[simp] theorem State.joinS_locks (s : State) : (s.joinS).locks = s.locks := rfl
@[simp] theorem State.joinS_mem (s : State) : (s.joinS).mem = s.mem := rfl
@[simp] theorem State.joinS_olds (s : State) : (s.joinS).olds = s.olds := rfl
@[simp] theorem State.joinS_sp (s : State) : (s.joinS).sp = s.sp := rfl
@[simp] theorem State.joinS_wb (s : State) : (s.joinS).wb = s.wb := rfl
@[simp] theorem State.joinS_acc (s : State) : (s.joinS).acc = s.acc := rfl
@[simp] theorem State.joinS_slots (s : State) : (s.joinS).slots = s.slots := rfl
@[simp] theorem State.joinS_scales (s : State) : (s.joinS).scales = s.scales := rfl
@[simp] theorem State.joinS_slotBad (s : State) : (s.joinS).slotBad = s.slotBad := rfl
@[simp] theorem State.joinS_errs (s : State) : (s.joinS).errs = s.errs := rfl
@[simp] theorem State.joinS_lines (s : State) : (s.joinS).lines = s.lines := rfl
@[simp] theorem State.joinS_qtlbs (s : State) : (s.joinS).qtlbs = s.qtlbs := rfl
@[simp] theorem State.joinS_invals (s : State) : (s.joinS).invals = s.invals := rfl
@[simp] theorem State.joinS_hostLines (s : State) : (s.joinS).hostLines = s.hostLines := rfl
@[simp] theorem State.joinS_ctxs (s : State) : (s.joinS).ctxs = s.ctxs := rfl
@[simp] theorem State.joinS_parts (s : State) : (s.joinS).parts = s.parts := rfl
@[simp] theorem State.joinS_worlds (s : State) : (s.joinS).worlds = s.worlds := rfl
@[simp] theorem State.joinS_worldGen (s : State) : (s.joinS).worldGen = s.worldGen := rfl
@[simp] theorem State.joinS_flows (s : State) : (s.joinS).flows = s.flows := rfl
@[simp] theorem State.joinS_migs (s : State) : (s.joinS).migs = s.migs := rfl
@[simp] theorem State.joinS_doms (s : State) : (s.joinS).doms = s.doms := rfl
@[simp] theorem State.joinS_dev (s : State) : (s.joinS).dev = s.dev := rfl
@[simp] theorem State.joinS_reports (s : State) : (s.joinS).reports = s.reports := rfl

@[simp] theorem State.bump_cur (s : State) : (s.bump).cur = s.cur := rfl
@[simp] theorem State.bump_ps1 (s : State) : (s.bump).ps1 = s.ps1 := rfl
@[simp] theorem State.bump_others (s : State) : (s.bump).others = s.others := rfl
@[simp] theorem State.bump_agenda (s : State) : (s.bump).agenda = s.agenda := rfl
@[simp] theorem State.bump_nextId (s : State) : (s.bump).nextId = s.nextId := rfl
@[simp] theorem State.bump_time (s : State) : (s.bump).time = s.time := rfl
@[simp] theorem State.bump_held (s : State) : (s.bump).held = s.held := rfl
@[simp] theorem State.bump_sub (s : State) : (s.bump).sub = s.sub := rfl
@[simp] theorem State.bump_teams (s : State) : (s.bump).teams = s.teams := rfl
@[simp] theorem State.bump_gangs (s : State) : (s.bump).gangs = s.gangs := rfl
@[simp] theorem State.bump_grids (s : State) : (s.bump).grids = s.grids := rfl
@[simp] theorem State.bump_waiters (s : State) : (s.bump).waiters = s.waiters := rfl
@[simp] theorem State.bump_freed (s : State) : (s.bump).freed = s.freed := rfl
@[simp] theorem State.bump_recorded (s : State) : (s.bump).recorded = s.recorded := rfl
@[simp] theorem State.bump_cores (s : State) : (s.bump).cores = s.cores := rfl
@[simp] theorem State.bump_copies (s : State) : (s.bump).copies = s.copies := rfl
@[simp] theorem State.bump_cmds (s : State) : (s.bump).cmds = s.cmds := rfl
@[simp] theorem State.bump_waves (s : State) : (s.bump).waves = s.waves := rfl
@[simp] theorem State.bump_locks (s : State) : (s.bump).locks = s.locks := rfl
@[simp] theorem State.bump_mem (s : State) : (s.bump).mem = s.mem := rfl
@[simp] theorem State.bump_olds (s : State) : (s.bump).olds = s.olds := rfl
@[simp] theorem State.bump_sp (s : State) : (s.bump).sp = s.sp := rfl
@[simp] theorem State.bump_wb (s : State) : (s.bump).wb = s.wb := rfl
@[simp] theorem State.bump_acc (s : State) : (s.bump).acc = s.acc := rfl
@[simp] theorem State.bump_slots (s : State) : (s.bump).slots = s.slots := rfl
@[simp] theorem State.bump_scales (s : State) : (s.bump).scales = s.scales := rfl
@[simp] theorem State.bump_slotBad (s : State) : (s.bump).slotBad = s.slotBad := rfl
@[simp] theorem State.bump_errs (s : State) : (s.bump).errs = s.errs := rfl
@[simp] theorem State.bump_lines (s : State) : (s.bump).lines = s.lines := rfl
@[simp] theorem State.bump_qtlbs (s : State) : (s.bump).qtlbs = s.qtlbs := rfl
@[simp] theorem State.bump_invals (s : State) : (s.bump).invals = s.invals := rfl
@[simp] theorem State.bump_hostLines (s : State) : (s.bump).hostLines = s.hostLines := rfl
@[simp] theorem State.bump_ctxs (s : State) : (s.bump).ctxs = s.ctxs := rfl
@[simp] theorem State.bump_parts (s : State) : (s.bump).parts = s.parts := rfl
@[simp] theorem State.bump_worlds (s : State) : (s.bump).worlds = s.worlds := rfl
@[simp] theorem State.bump_worldGen (s : State) : (s.bump).worldGen = s.worldGen := rfl
@[simp] theorem State.bump_flows (s : State) : (s.bump).flows = s.flows := rfl
@[simp] theorem State.bump_migs (s : State) : (s.bump).migs = s.migs := rfl
@[simp] theorem State.bump_doms (s : State) : (s.bump).doms = s.doms := rfl
@[simp] theorem State.bump_dev (s : State) : (s.bump).dev = s.dev := rfl
@[simp] theorem State.bump_reports (s : State) : (s.bump).reports = s.reports := rfl

@[simp] theorem State.sput_ps1 (s : State) (r : SReg) (v : Word) : (s.sput r v).ps1 = s.ps1 := rfl
@[simp] theorem State.sput_others (s : State) (r : SReg) (v : Word) : (s.sput r v).others = s.others := rfl
@[simp] theorem State.sput_agenda (s : State) (r : SReg) (v : Word) : (s.sput r v).agenda = s.agenda := rfl
@[simp] theorem State.sput_fresh (s : State) (r : SReg) (v : Word) : (s.sput r v).fresh = s.fresh := rfl
@[simp] theorem State.sput_nextId (s : State) (r : SReg) (v : Word) : (s.sput r v).nextId = s.nextId := rfl
@[simp] theorem State.sput_time (s : State) (r : SReg) (v : Word) : (s.sput r v).time = s.time := rfl
@[simp] theorem State.sput_held (s : State) (r : SReg) (v : Word) : (s.sput r v).held = s.held := rfl
@[simp] theorem State.sput_sub (s : State) (r : SReg) (v : Word) : (s.sput r v).sub = s.sub := rfl
@[simp] theorem State.sput_teams (s : State) (r : SReg) (v : Word) : (s.sput r v).teams = s.teams := rfl
@[simp] theorem State.sput_gangs (s : State) (r : SReg) (v : Word) : (s.sput r v).gangs = s.gangs := rfl
@[simp] theorem State.sput_grids (s : State) (r : SReg) (v : Word) : (s.sput r v).grids = s.grids := rfl
@[simp] theorem State.sput_waiters (s : State) (r : SReg) (v : Word) : (s.sput r v).waiters = s.waiters := rfl
@[simp] theorem State.sput_freed (s : State) (r : SReg) (v : Word) : (s.sput r v).freed = s.freed := rfl
@[simp] theorem State.sput_recorded (s : State) (r : SReg) (v : Word) : (s.sput r v).recorded = s.recorded := rfl
@[simp] theorem State.sput_cores (s : State) (r : SReg) (v : Word) : (s.sput r v).cores = s.cores := rfl
@[simp] theorem State.sput_copies (s : State) (r : SReg) (v : Word) : (s.sput r v).copies = s.copies := rfl
@[simp] theorem State.sput_cmds (s : State) (r : SReg) (v : Word) : (s.sput r v).cmds = s.cmds := rfl
@[simp] theorem State.sput_waves (s : State) (r : SReg) (v : Word) : (s.sput r v).waves = s.waves := rfl
@[simp] theorem State.sput_locks (s : State) (r : SReg) (v : Word) : (s.sput r v).locks = s.locks := rfl
@[simp] theorem State.sput_mem (s : State) (r : SReg) (v : Word) : (s.sput r v).mem = s.mem := rfl
@[simp] theorem State.sput_olds (s : State) (r : SReg) (v : Word) : (s.sput r v).olds = s.olds := rfl
@[simp] theorem State.sput_sp (s : State) (r : SReg) (v : Word) : (s.sput r v).sp = s.sp := rfl
@[simp] theorem State.sput_wb (s : State) (r : SReg) (v : Word) : (s.sput r v).wb = s.wb := rfl
@[simp] theorem State.sput_acc (s : State) (r : SReg) (v : Word) : (s.sput r v).acc = s.acc := rfl
@[simp] theorem State.sput_slots (s : State) (r : SReg) (v : Word) : (s.sput r v).slots = s.slots := rfl
@[simp] theorem State.sput_scales (s : State) (r : SReg) (v : Word) : (s.sput r v).scales = s.scales := rfl
@[simp] theorem State.sput_slotBad (s : State) (r : SReg) (v : Word) : (s.sput r v).slotBad = s.slotBad := rfl
@[simp] theorem State.sput_errs (s : State) (r : SReg) (v : Word) : (s.sput r v).errs = s.errs := rfl
@[simp] theorem State.sput_lines (s : State) (r : SReg) (v : Word) : (s.sput r v).lines = s.lines := rfl
@[simp] theorem State.sput_qtlbs (s : State) (r : SReg) (v : Word) : (s.sput r v).qtlbs = s.qtlbs := rfl
@[simp] theorem State.sput_invals (s : State) (r : SReg) (v : Word) : (s.sput r v).invals = s.invals := rfl
@[simp] theorem State.sput_hostLines (s : State) (r : SReg) (v : Word) : (s.sput r v).hostLines = s.hostLines := rfl
@[simp] theorem State.sput_ctxs (s : State) (r : SReg) (v : Word) : (s.sput r v).ctxs = s.ctxs := rfl
@[simp] theorem State.sput_parts (s : State) (r : SReg) (v : Word) : (s.sput r v).parts = s.parts := rfl
@[simp] theorem State.sput_worlds (s : State) (r : SReg) (v : Word) : (s.sput r v).worlds = s.worlds := rfl
@[simp] theorem State.sput_worldGen (s : State) (r : SReg) (v : Word) : (s.sput r v).worldGen = s.worldGen := rfl
@[simp] theorem State.sput_flows (s : State) (r : SReg) (v : Word) : (s.sput r v).flows = s.flows := rfl
@[simp] theorem State.sput_migs (s : State) (r : SReg) (v : Word) : (s.sput r v).migs = s.migs := rfl
@[simp] theorem State.sput_doms (s : State) (r : SReg) (v : Word) : (s.sput r v).doms = s.doms := rfl
@[simp] theorem State.sput_dev (s : State) (r : SReg) (v : Word) : (s.sput r v).dev = s.dev := rfl
@[simp] theorem State.sput_reports (s : State) (r : SReg) (v : Word) : (s.sput r v).reports = s.reports := rfl

@[simp] theorem State.setPc_ps1 (s : State) (pc : Word) : (s.setPc pc).ps1 = s.ps1 := rfl
@[simp] theorem State.setPc_others (s : State) (pc : Word) : (s.setPc pc).others = s.others := rfl
@[simp] theorem State.setPc_agenda (s : State) (pc : Word) : (s.setPc pc).agenda = s.agenda := rfl
@[simp] theorem State.setPc_fresh (s : State) (pc : Word) : (s.setPc pc).fresh = s.fresh := rfl
@[simp] theorem State.setPc_nextId (s : State) (pc : Word) : (s.setPc pc).nextId = s.nextId := rfl
@[simp] theorem State.setPc_time (s : State) (pc : Word) : (s.setPc pc).time = s.time := rfl
@[simp] theorem State.setPc_held (s : State) (pc : Word) : (s.setPc pc).held = s.held := rfl
@[simp] theorem State.setPc_sub (s : State) (pc : Word) : (s.setPc pc).sub = s.sub := rfl
@[simp] theorem State.setPc_teams (s : State) (pc : Word) : (s.setPc pc).teams = s.teams := rfl
@[simp] theorem State.setPc_gangs (s : State) (pc : Word) : (s.setPc pc).gangs = s.gangs := rfl
@[simp] theorem State.setPc_grids (s : State) (pc : Word) : (s.setPc pc).grids = s.grids := rfl
@[simp] theorem State.setPc_waiters (s : State) (pc : Word) : (s.setPc pc).waiters = s.waiters := rfl
@[simp] theorem State.setPc_freed (s : State) (pc : Word) : (s.setPc pc).freed = s.freed := rfl
@[simp] theorem State.setPc_recorded (s : State) (pc : Word) : (s.setPc pc).recorded = s.recorded := rfl
@[simp] theorem State.setPc_cores (s : State) (pc : Word) : (s.setPc pc).cores = s.cores := rfl
@[simp] theorem State.setPc_copies (s : State) (pc : Word) : (s.setPc pc).copies = s.copies := rfl
@[simp] theorem State.setPc_cmds (s : State) (pc : Word) : (s.setPc pc).cmds = s.cmds := rfl
@[simp] theorem State.setPc_waves (s : State) (pc : Word) : (s.setPc pc).waves = s.waves := rfl
@[simp] theorem State.setPc_locks (s : State) (pc : Word) : (s.setPc pc).locks = s.locks := rfl
@[simp] theorem State.setPc_mem (s : State) (pc : Word) : (s.setPc pc).mem = s.mem := rfl
@[simp] theorem State.setPc_olds (s : State) (pc : Word) : (s.setPc pc).olds = s.olds := rfl
@[simp] theorem State.setPc_sp (s : State) (pc : Word) : (s.setPc pc).sp = s.sp := rfl
@[simp] theorem State.setPc_wb (s : State) (pc : Word) : (s.setPc pc).wb = s.wb := rfl
@[simp] theorem State.setPc_acc (s : State) (pc : Word) : (s.setPc pc).acc = s.acc := rfl
@[simp] theorem State.setPc_slots (s : State) (pc : Word) : (s.setPc pc).slots = s.slots := rfl
@[simp] theorem State.setPc_scales (s : State) (pc : Word) : (s.setPc pc).scales = s.scales := rfl
@[simp] theorem State.setPc_slotBad (s : State) (pc : Word) : (s.setPc pc).slotBad = s.slotBad := rfl
@[simp] theorem State.setPc_errs (s : State) (pc : Word) : (s.setPc pc).errs = s.errs := rfl
@[simp] theorem State.setPc_lines (s : State) (pc : Word) : (s.setPc pc).lines = s.lines := rfl
@[simp] theorem State.setPc_qtlbs (s : State) (pc : Word) : (s.setPc pc).qtlbs = s.qtlbs := rfl
@[simp] theorem State.setPc_invals (s : State) (pc : Word) : (s.setPc pc).invals = s.invals := rfl
@[simp] theorem State.setPc_hostLines (s : State) (pc : Word) : (s.setPc pc).hostLines = s.hostLines := rfl
@[simp] theorem State.setPc_ctxs (s : State) (pc : Word) : (s.setPc pc).ctxs = s.ctxs := rfl
@[simp] theorem State.setPc_parts (s : State) (pc : Word) : (s.setPc pc).parts = s.parts := rfl
@[simp] theorem State.setPc_worlds (s : State) (pc : Word) : (s.setPc pc).worlds = s.worlds := rfl
@[simp] theorem State.setPc_worldGen (s : State) (pc : Word) : (s.setPc pc).worldGen = s.worldGen := rfl
@[simp] theorem State.setPc_flows (s : State) (pc : Word) : (s.setPc pc).flows = s.flows := rfl
@[simp] theorem State.setPc_migs (s : State) (pc : Word) : (s.setPc pc).migs = s.migs := rfl
@[simp] theorem State.setPc_doms (s : State) (pc : Word) : (s.setPc pc).doms = s.doms := rfl
@[simp] theorem State.setPc_dev (s : State) (pc : Word) : (s.setPc pc).dev = s.dev := rfl
@[simp] theorem State.setPc_reports (s : State) (pc : Word) : (s.setPc pc).reports = s.reports := rfl

@[simp] theorem State.nextPc_ps1 (s : State) (n : Nat) : (s.nextPc n).ps1 = s.ps1 := rfl
@[simp] theorem State.nextPc_others (s : State) (n : Nat) : (s.nextPc n).others = s.others := rfl
@[simp] theorem State.nextPc_agenda (s : State) (n : Nat) : (s.nextPc n).agenda = s.agenda := rfl
@[simp] theorem State.nextPc_fresh (s : State) (n : Nat) : (s.nextPc n).fresh = s.fresh := rfl
@[simp] theorem State.nextPc_nextId (s : State) (n : Nat) : (s.nextPc n).nextId = s.nextId := rfl
@[simp] theorem State.nextPc_time (s : State) (n : Nat) : (s.nextPc n).time = s.time := rfl
@[simp] theorem State.nextPc_held (s : State) (n : Nat) : (s.nextPc n).held = s.held := rfl
@[simp] theorem State.nextPc_sub (s : State) (n : Nat) : (s.nextPc n).sub = s.sub := rfl
@[simp] theorem State.nextPc_teams (s : State) (n : Nat) : (s.nextPc n).teams = s.teams := rfl
@[simp] theorem State.nextPc_gangs (s : State) (n : Nat) : (s.nextPc n).gangs = s.gangs := rfl
@[simp] theorem State.nextPc_grids (s : State) (n : Nat) : (s.nextPc n).grids = s.grids := rfl
@[simp] theorem State.nextPc_waiters (s : State) (n : Nat) : (s.nextPc n).waiters = s.waiters := rfl
@[simp] theorem State.nextPc_freed (s : State) (n : Nat) : (s.nextPc n).freed = s.freed := rfl
@[simp] theorem State.nextPc_recorded (s : State) (n : Nat) : (s.nextPc n).recorded = s.recorded := rfl
@[simp] theorem State.nextPc_cores (s : State) (n : Nat) : (s.nextPc n).cores = s.cores := rfl
@[simp] theorem State.nextPc_copies (s : State) (n : Nat) : (s.nextPc n).copies = s.copies := rfl
@[simp] theorem State.nextPc_cmds (s : State) (n : Nat) : (s.nextPc n).cmds = s.cmds := rfl
@[simp] theorem State.nextPc_waves (s : State) (n : Nat) : (s.nextPc n).waves = s.waves := rfl
@[simp] theorem State.nextPc_locks (s : State) (n : Nat) : (s.nextPc n).locks = s.locks := rfl
@[simp] theorem State.nextPc_mem (s : State) (n : Nat) : (s.nextPc n).mem = s.mem := rfl
@[simp] theorem State.nextPc_olds (s : State) (n : Nat) : (s.nextPc n).olds = s.olds := rfl
@[simp] theorem State.nextPc_sp (s : State) (n : Nat) : (s.nextPc n).sp = s.sp := rfl
@[simp] theorem State.nextPc_wb (s : State) (n : Nat) : (s.nextPc n).wb = s.wb := rfl
@[simp] theorem State.nextPc_acc (s : State) (n : Nat) : (s.nextPc n).acc = s.acc := rfl
@[simp] theorem State.nextPc_slots (s : State) (n : Nat) : (s.nextPc n).slots = s.slots := rfl
@[simp] theorem State.nextPc_scales (s : State) (n : Nat) : (s.nextPc n).scales = s.scales := rfl
@[simp] theorem State.nextPc_slotBad (s : State) (n : Nat) : (s.nextPc n).slotBad = s.slotBad := rfl
@[simp] theorem State.nextPc_errs (s : State) (n : Nat) : (s.nextPc n).errs = s.errs := rfl
@[simp] theorem State.nextPc_lines (s : State) (n : Nat) : (s.nextPc n).lines = s.lines := rfl
@[simp] theorem State.nextPc_qtlbs (s : State) (n : Nat) : (s.nextPc n).qtlbs = s.qtlbs := rfl
@[simp] theorem State.nextPc_invals (s : State) (n : Nat) : (s.nextPc n).invals = s.invals := rfl
@[simp] theorem State.nextPc_hostLines (s : State) (n : Nat) : (s.nextPc n).hostLines = s.hostLines := rfl
@[simp] theorem State.nextPc_ctxs (s : State) (n : Nat) : (s.nextPc n).ctxs = s.ctxs := rfl
@[simp] theorem State.nextPc_parts (s : State) (n : Nat) : (s.nextPc n).parts = s.parts := rfl
@[simp] theorem State.nextPc_worlds (s : State) (n : Nat) : (s.nextPc n).worlds = s.worlds := rfl
@[simp] theorem State.nextPc_worldGen (s : State) (n : Nat) : (s.nextPc n).worldGen = s.worldGen := rfl
@[simp] theorem State.nextPc_flows (s : State) (n : Nat) : (s.nextPc n).flows = s.flows := rfl
@[simp] theorem State.nextPc_migs (s : State) (n : Nat) : (s.nextPc n).migs = s.migs := rfl
@[simp] theorem State.nextPc_doms (s : State) (n : Nat) : (s.nextPc n).doms = s.doms := rfl
@[simp] theorem State.nextPc_dev (s : State) (n : Nat) : (s.nextPc n).dev = s.dev := rfl
@[simp] theorem State.nextPc_reports (s : State) (n : Nat) : (s.nextPc n).reports = s.reports := rfl

@[simp] theorem State.setFlags_ps1 (s : State) (f : Byte) : (s.setFlags f).ps1 = s.ps1 := rfl
@[simp] theorem State.setFlags_others (s : State) (f : Byte) : (s.setFlags f).others = s.others := rfl
@[simp] theorem State.setFlags_agenda (s : State) (f : Byte) : (s.setFlags f).agenda = s.agenda := rfl
@[simp] theorem State.setFlags_fresh (s : State) (f : Byte) : (s.setFlags f).fresh = s.fresh := rfl
@[simp] theorem State.setFlags_nextId (s : State) (f : Byte) : (s.setFlags f).nextId = s.nextId := rfl
@[simp] theorem State.setFlags_time (s : State) (f : Byte) : (s.setFlags f).time = s.time := rfl
@[simp] theorem State.setFlags_held (s : State) (f : Byte) : (s.setFlags f).held = s.held := rfl
@[simp] theorem State.setFlags_sub (s : State) (f : Byte) : (s.setFlags f).sub = s.sub := rfl
@[simp] theorem State.setFlags_teams (s : State) (f : Byte) : (s.setFlags f).teams = s.teams := rfl
@[simp] theorem State.setFlags_gangs (s : State) (f : Byte) : (s.setFlags f).gangs = s.gangs := rfl
@[simp] theorem State.setFlags_grids (s : State) (f : Byte) : (s.setFlags f).grids = s.grids := rfl
@[simp] theorem State.setFlags_waiters (s : State) (f : Byte) : (s.setFlags f).waiters = s.waiters := rfl
@[simp] theorem State.setFlags_freed (s : State) (f : Byte) : (s.setFlags f).freed = s.freed := rfl
@[simp] theorem State.setFlags_recorded (s : State) (f : Byte) : (s.setFlags f).recorded = s.recorded := rfl
@[simp] theorem State.setFlags_cores (s : State) (f : Byte) : (s.setFlags f).cores = s.cores := rfl
@[simp] theorem State.setFlags_copies (s : State) (f : Byte) : (s.setFlags f).copies = s.copies := rfl
@[simp] theorem State.setFlags_cmds (s : State) (f : Byte) : (s.setFlags f).cmds = s.cmds := rfl
@[simp] theorem State.setFlags_waves (s : State) (f : Byte) : (s.setFlags f).waves = s.waves := rfl
@[simp] theorem State.setFlags_locks (s : State) (f : Byte) : (s.setFlags f).locks = s.locks := rfl
@[simp] theorem State.setFlags_mem (s : State) (f : Byte) : (s.setFlags f).mem = s.mem := rfl
@[simp] theorem State.setFlags_olds (s : State) (f : Byte) : (s.setFlags f).olds = s.olds := rfl
@[simp] theorem State.setFlags_sp (s : State) (f : Byte) : (s.setFlags f).sp = s.sp := rfl
@[simp] theorem State.setFlags_wb (s : State) (f : Byte) : (s.setFlags f).wb = s.wb := rfl
@[simp] theorem State.setFlags_acc (s : State) (f : Byte) : (s.setFlags f).acc = s.acc := rfl
@[simp] theorem State.setFlags_slots (s : State) (f : Byte) : (s.setFlags f).slots = s.slots := rfl
@[simp] theorem State.setFlags_scales (s : State) (f : Byte) : (s.setFlags f).scales = s.scales := rfl
@[simp] theorem State.setFlags_slotBad (s : State) (f : Byte) : (s.setFlags f).slotBad = s.slotBad := rfl
@[simp] theorem State.setFlags_errs (s : State) (f : Byte) : (s.setFlags f).errs = s.errs := rfl
@[simp] theorem State.setFlags_lines (s : State) (f : Byte) : (s.setFlags f).lines = s.lines := rfl
@[simp] theorem State.setFlags_qtlbs (s : State) (f : Byte) : (s.setFlags f).qtlbs = s.qtlbs := rfl
@[simp] theorem State.setFlags_invals (s : State) (f : Byte) : (s.setFlags f).invals = s.invals := rfl
@[simp] theorem State.setFlags_hostLines (s : State) (f : Byte) : (s.setFlags f).hostLines = s.hostLines := rfl
@[simp] theorem State.setFlags_ctxs (s : State) (f : Byte) : (s.setFlags f).ctxs = s.ctxs := rfl
@[simp] theorem State.setFlags_parts (s : State) (f : Byte) : (s.setFlags f).parts = s.parts := rfl
@[simp] theorem State.setFlags_worlds (s : State) (f : Byte) : (s.setFlags f).worlds = s.worlds := rfl
@[simp] theorem State.setFlags_worldGen (s : State) (f : Byte) : (s.setFlags f).worldGen = s.worldGen := rfl
@[simp] theorem State.setFlags_flows (s : State) (f : Byte) : (s.setFlags f).flows = s.flows := rfl
@[simp] theorem State.setFlags_migs (s : State) (f : Byte) : (s.setFlags f).migs = s.migs := rfl
@[simp] theorem State.setFlags_doms (s : State) (f : Byte) : (s.setFlags f).doms = s.doms := rfl
@[simp] theorem State.setFlags_dev (s : State) (f : Byte) : (s.setFlags f).dev = s.dev := rfl
@[simp] theorem State.setFlags_reports (s : State) (f : Byte) : (s.setFlags f).reports = s.reports := rfl

@[simp] theorem State.mapCur_cur (s : State) (f : Group → Group) : (s.mapCur f).cur = f s.cur := rfl
@[simp] theorem State.bump_fresh (s : State) : s.bump.fresh = s.fresh + 1 := rfl
@[simp] theorem State.setPc_pc (s : State) (pc : Word) : (s.setPc pc).cur.s.pc = pc := rfl
@[simp] theorem State.nextPc_pc (s : State) (n : Nat) : (s.nextPc n).cur.s.pc = s.cur.s.pc + BitVec.ofNat 64 n := rfl
@[simp] theorem State.setFlags_cur (s : State) (f : Byte) : (s.setFlags f).cur = s.cur.setFlags f := rfl
@[simp] theorem State.sput_s (s : State) (r : SReg) (v : Word) : (s.sput r v).cur.s = s.cur.s.put r v := rfl

@[simp] theorem State.sput_cur_uid (s : State) (r : SReg) (v : Word) : (s.sput r v).cur.uid = s.cur.uid := rfl
@[simp] theorem State.sput_cur_team (s : State) (r : SReg) (v : Word) : (s.sput r v).cur.team = s.cur.team := rfl
@[simp] theorem State.sput_cur_rank (s : State) (r : SReg) (v : Word) : (s.sput r v).cur.rank = s.cur.rank := rfl
@[simp] theorem State.sput_cur_iu (s : State) (r : SReg) (v : Word) : (s.sput r v).cur.iu = s.cur.iu := rfl
@[simp] theorem State.sput_cur_slot (s : State) (r : SReg) (v : Word) : (s.sput r v).cur.slot = s.cur.slot := rfl
@[simp] theorem State.sput_cur_block (s : State) (r : SReg) (v : Word) : (s.sput r v).cur.block = s.cur.block := rfl
@[simp] theorem State.sput_cur_nregs (s : State) (r : SReg) (v : Word) : (s.sput r v).cur.nregs = s.cur.nregs := rfl
@[simp] theorem State.sput_cur_level (s : State) (r : SReg) (v : Word) : (s.sput r v).cur.level = s.cur.level := rfl
@[simp] theorem State.sput_cur_l (s : State) (r : SReg) (v : Word) : (s.sput r v).cur.l = s.cur.l := rfl
@[simp] theorem State.sput_cur_running (s : State) (r : SReg) (v : Word) : (s.sput r v).cur.running = s.cur.running := rfl
@[simp] theorem State.sput_cur_hbase (s : State) (r : SReg) (v : Word) : (s.sput r v).cur.hbase = s.cur.hbase := rfl
@[simp] theorem State.sput_cur_latch (s : State) (r : SReg) (v : Word) : (s.sput r v).cur.latch = s.cur.latch := rfl
@[simp] theorem State.sput_cur_dq (s : State) (r : SReg) (v : Word) : (s.sput r v).cur.dq = s.cur.dq := rfl
@[simp] theorem State.sput_cur_rq (s : State) (r : SReg) (v : Word) : (s.sput r v).cur.rq = s.cur.rq := rfl
@[simp] theorem State.sput_cur_flags (s : State) (r : SReg) (v : Word) : (s.sput r v).cur.flags = s.cur.flags := rfl
@[simp] theorem State.sput_cur_fmask (s : State) (r : SReg) (v : Word) : (s.sput r v).cur.fmask = s.cur.fmask := rfl
@[simp] theorem State.sput_cur_done (s : State) (r : SReg) (v : Word) : (s.sput r v).cur.done = s.cur.done := rfl
@[simp] theorem State.sput_cur_mxst (s : State) (r : SReg) (v : Word) : (s.sput r v).cur.mxst = s.cur.mxst := rfl
@[simp] theorem State.sput_cur_cycle (s : State) (r : SReg) (v : Word) : (s.sput r v).cur.cycle = s.cur.cycle := rfl
@[simp] theorem State.sput_cur_wdog (s : State) (r : SReg) (v : Word) : (s.sput r v).cur.wdog = s.cur.wdog := rfl
@[simp] theorem State.sput_cur_exiting (s : State) (r : SReg) (v : Word) : (s.sput r v).cur.exiting = s.cur.exiting := rfl
@[simp] theorem State.sput_cur_blocks (s : State) (r : SReg) (v : Word) : (s.sput r v).cur.blocks = s.cur.blocks := rfl
@[simp] theorem State.sput_cur_replay (s : State) (r : SReg) (v : Word) : (s.sput r v).cur.replay = s.cur.replay := rfl
@[simp] theorem State.sput_cur_accs (s : State) (r : SReg) (v : Word) : (s.sput r v).cur.accs = s.cur.accs := rfl
@[simp] theorem State.sput_cur_tokens (s : State) (r : SReg) (v : Word) : (s.sput r v).cur.tokens = s.cur.tokens := rfl
@[simp] theorem State.sput_cur_lpend (s : State) (r : SReg) (v : Word) : (s.sput r v).cur.lpend = s.cur.lpend := rfl
@[simp] theorem State.sput_cur_seq (s : State) (r : SReg) (v : Word) : (s.sput r v).cur.seq = s.cur.seq := rfl
@[simp] theorem State.sput_cur_lAfter (s : State) (r : SReg) (v : Word) : (s.sput r v).cur.lAfter = s.cur.lAfter := rfl
@[simp] theorem State.sput_cur_bAfter (s : State) (r : SReg) (v : Word) : (s.sput r v).cur.bAfter = s.cur.bAfter := rfl
@[simp] theorem State.sput_cur_sAfter (s : State) (r : SReg) (v : Word) : (s.sput r v).cur.sAfter = s.cur.sAfter := rfl
@[simp] theorem State.sput_cur_seen (s : State) (r : SReg) (v : Word) : (s.sput r v).cur.seen = s.cur.seen := rfl
@[simp] theorem State.sput_cur_fences (s : State) (r : SReg) (v : Word) : (s.sput r v).cur.fences = s.cur.fences := rfl
@[simp] theorem State.sput_cur_wait (s : State) (r : SReg) (v : Word) : (s.sput r v).cur.wait = s.cur.wait := rfl
@[simp] theorem State.sput_cur_status (s : State) (r : SReg) (v : Word) : (s.sput r v).cur.status = s.cur.status := rfl
@[simp] theorem State.sput_cur_handler (s : State) (r : SReg) (v : Word) : (s.sput r v).cur.handler = s.cur.handler := rfl
@[simp] theorem State.sput_cur_stops (s : State) (r : SReg) (v : Word) : (s.sput r v).cur.stops = s.cur.stops := rfl
@[simp] theorem State.sput_cur_parked (s : State) (r : SReg) (v : Word) : (s.sput r v).cur.parked = s.cur.parked := rfl
@[simp] theorem State.sput_cur_halted (s : State) (r : SReg) (v : Word) : (s.sput r v).cur.halted = s.cur.halted := rfl

@[simp] theorem State.setPc_cur_uid (s : State) (pc : Word) : (s.setPc pc).cur.uid = s.cur.uid := rfl
@[simp] theorem State.setPc_cur_team (s : State) (pc : Word) : (s.setPc pc).cur.team = s.cur.team := rfl
@[simp] theorem State.setPc_cur_rank (s : State) (pc : Word) : (s.setPc pc).cur.rank = s.cur.rank := rfl
@[simp] theorem State.setPc_cur_iu (s : State) (pc : Word) : (s.setPc pc).cur.iu = s.cur.iu := rfl
@[simp] theorem State.setPc_cur_slot (s : State) (pc : Word) : (s.setPc pc).cur.slot = s.cur.slot := rfl
@[simp] theorem State.setPc_cur_block (s : State) (pc : Word) : (s.setPc pc).cur.block = s.cur.block := rfl
@[simp] theorem State.setPc_cur_nregs (s : State) (pc : Word) : (s.setPc pc).cur.nregs = s.cur.nregs := rfl
@[simp] theorem State.setPc_cur_level (s : State) (pc : Word) : (s.setPc pc).cur.level = s.cur.level := rfl
@[simp] theorem State.setPc_cur_l (s : State) (pc : Word) : (s.setPc pc).cur.l = s.cur.l := rfl
@[simp] theorem State.setPc_cur_running (s : State) (pc : Word) : (s.setPc pc).cur.running = s.cur.running := rfl
@[simp] theorem State.setPc_cur_hbase (s : State) (pc : Word) : (s.setPc pc).cur.hbase = s.cur.hbase := rfl
@[simp] theorem State.setPc_cur_latch (s : State) (pc : Word) : (s.setPc pc).cur.latch = s.cur.latch := rfl
@[simp] theorem State.setPc_cur_dq (s : State) (pc : Word) : (s.setPc pc).cur.dq = s.cur.dq := rfl
@[simp] theorem State.setPc_cur_rq (s : State) (pc : Word) : (s.setPc pc).cur.rq = s.cur.rq := rfl
@[simp] theorem State.setPc_cur_flags (s : State) (pc : Word) : (s.setPc pc).cur.flags = s.cur.flags := rfl
@[simp] theorem State.setPc_cur_fmask (s : State) (pc : Word) : (s.setPc pc).cur.fmask = s.cur.fmask := rfl
@[simp] theorem State.setPc_cur_done (s : State) (pc : Word) : (s.setPc pc).cur.done = s.cur.done := rfl
@[simp] theorem State.setPc_cur_mxst (s : State) (pc : Word) : (s.setPc pc).cur.mxst = s.cur.mxst := rfl
@[simp] theorem State.setPc_cur_cycle (s : State) (pc : Word) : (s.setPc pc).cur.cycle = s.cur.cycle := rfl
@[simp] theorem State.setPc_cur_wdog (s : State) (pc : Word) : (s.setPc pc).cur.wdog = s.cur.wdog := rfl
@[simp] theorem State.setPc_cur_exiting (s : State) (pc : Word) : (s.setPc pc).cur.exiting = s.cur.exiting := rfl
@[simp] theorem State.setPc_cur_blocks (s : State) (pc : Word) : (s.setPc pc).cur.blocks = s.cur.blocks := rfl
@[simp] theorem State.setPc_cur_replay (s : State) (pc : Word) : (s.setPc pc).cur.replay = s.cur.replay := rfl
@[simp] theorem State.setPc_cur_accs (s : State) (pc : Word) : (s.setPc pc).cur.accs = s.cur.accs := rfl
@[simp] theorem State.setPc_cur_tokens (s : State) (pc : Word) : (s.setPc pc).cur.tokens = s.cur.tokens := rfl
@[simp] theorem State.setPc_cur_lpend (s : State) (pc : Word) : (s.setPc pc).cur.lpend = s.cur.lpend := rfl
@[simp] theorem State.setPc_cur_seq (s : State) (pc : Word) : (s.setPc pc).cur.seq = s.cur.seq := rfl
@[simp] theorem State.setPc_cur_lAfter (s : State) (pc : Word) : (s.setPc pc).cur.lAfter = s.cur.lAfter := rfl
@[simp] theorem State.setPc_cur_bAfter (s : State) (pc : Word) : (s.setPc pc).cur.bAfter = s.cur.bAfter := rfl
@[simp] theorem State.setPc_cur_sAfter (s : State) (pc : Word) : (s.setPc pc).cur.sAfter = s.cur.sAfter := rfl
@[simp] theorem State.setPc_cur_seen (s : State) (pc : Word) : (s.setPc pc).cur.seen = s.cur.seen := rfl
@[simp] theorem State.setPc_cur_fences (s : State) (pc : Word) : (s.setPc pc).cur.fences = s.cur.fences := rfl
@[simp] theorem State.setPc_cur_wait (s : State) (pc : Word) : (s.setPc pc).cur.wait = s.cur.wait := rfl
@[simp] theorem State.setPc_cur_status (s : State) (pc : Word) : (s.setPc pc).cur.status = s.cur.status := rfl
@[simp] theorem State.setPc_cur_handler (s : State) (pc : Word) : (s.setPc pc).cur.handler = s.cur.handler := rfl
@[simp] theorem State.setPc_cur_stops (s : State) (pc : Word) : (s.setPc pc).cur.stops = s.cur.stops := rfl
@[simp] theorem State.setPc_cur_parked (s : State) (pc : Word) : (s.setPc pc).cur.parked = s.cur.parked := rfl
@[simp] theorem State.setPc_cur_halted (s : State) (pc : Word) : (s.setPc pc).cur.halted = s.cur.halted := rfl

@[simp] theorem State.nextPc_cur_uid (s : State) (n : Nat) : (s.nextPc n).cur.uid = s.cur.uid := rfl
@[simp] theorem State.nextPc_cur_team (s : State) (n : Nat) : (s.nextPc n).cur.team = s.cur.team := rfl
@[simp] theorem State.nextPc_cur_rank (s : State) (n : Nat) : (s.nextPc n).cur.rank = s.cur.rank := rfl
@[simp] theorem State.nextPc_cur_iu (s : State) (n : Nat) : (s.nextPc n).cur.iu = s.cur.iu := rfl
@[simp] theorem State.nextPc_cur_slot (s : State) (n : Nat) : (s.nextPc n).cur.slot = s.cur.slot := rfl
@[simp] theorem State.nextPc_cur_block (s : State) (n : Nat) : (s.nextPc n).cur.block = s.cur.block := rfl
@[simp] theorem State.nextPc_cur_nregs (s : State) (n : Nat) : (s.nextPc n).cur.nregs = s.cur.nregs := rfl
@[simp] theorem State.nextPc_cur_level (s : State) (n : Nat) : (s.nextPc n).cur.level = s.cur.level := rfl
@[simp] theorem State.nextPc_cur_l (s : State) (n : Nat) : (s.nextPc n).cur.l = s.cur.l := rfl
@[simp] theorem State.nextPc_cur_running (s : State) (n : Nat) : (s.nextPc n).cur.running = s.cur.running := rfl
@[simp] theorem State.nextPc_cur_hbase (s : State) (n : Nat) : (s.nextPc n).cur.hbase = s.cur.hbase := rfl
@[simp] theorem State.nextPc_cur_latch (s : State) (n : Nat) : (s.nextPc n).cur.latch = s.cur.latch := rfl
@[simp] theorem State.nextPc_cur_dq (s : State) (n : Nat) : (s.nextPc n).cur.dq = s.cur.dq := rfl
@[simp] theorem State.nextPc_cur_rq (s : State) (n : Nat) : (s.nextPc n).cur.rq = s.cur.rq := rfl
@[simp] theorem State.nextPc_cur_flags (s : State) (n : Nat) : (s.nextPc n).cur.flags = s.cur.flags := rfl
@[simp] theorem State.nextPc_cur_fmask (s : State) (n : Nat) : (s.nextPc n).cur.fmask = s.cur.fmask := rfl
@[simp] theorem State.nextPc_cur_done (s : State) (n : Nat) : (s.nextPc n).cur.done = s.cur.done := rfl
@[simp] theorem State.nextPc_cur_mxst (s : State) (n : Nat) : (s.nextPc n).cur.mxst = s.cur.mxst := rfl
@[simp] theorem State.nextPc_cur_cycle (s : State) (n : Nat) : (s.nextPc n).cur.cycle = s.cur.cycle := rfl
@[simp] theorem State.nextPc_cur_wdog (s : State) (n : Nat) : (s.nextPc n).cur.wdog = s.cur.wdog := rfl
@[simp] theorem State.nextPc_cur_exiting (s : State) (n : Nat) : (s.nextPc n).cur.exiting = s.cur.exiting := rfl
@[simp] theorem State.nextPc_cur_blocks (s : State) (n : Nat) : (s.nextPc n).cur.blocks = s.cur.blocks := rfl
@[simp] theorem State.nextPc_cur_replay (s : State) (n : Nat) : (s.nextPc n).cur.replay = s.cur.replay := rfl
@[simp] theorem State.nextPc_cur_accs (s : State) (n : Nat) : (s.nextPc n).cur.accs = s.cur.accs := rfl
@[simp] theorem State.nextPc_cur_tokens (s : State) (n : Nat) : (s.nextPc n).cur.tokens = s.cur.tokens := rfl
@[simp] theorem State.nextPc_cur_lpend (s : State) (n : Nat) : (s.nextPc n).cur.lpend = s.cur.lpend := rfl
@[simp] theorem State.nextPc_cur_seq (s : State) (n : Nat) : (s.nextPc n).cur.seq = s.cur.seq := rfl
@[simp] theorem State.nextPc_cur_lAfter (s : State) (n : Nat) : (s.nextPc n).cur.lAfter = s.cur.lAfter := rfl
@[simp] theorem State.nextPc_cur_bAfter (s : State) (n : Nat) : (s.nextPc n).cur.bAfter = s.cur.bAfter := rfl
@[simp] theorem State.nextPc_cur_sAfter (s : State) (n : Nat) : (s.nextPc n).cur.sAfter = s.cur.sAfter := rfl
@[simp] theorem State.nextPc_cur_seen (s : State) (n : Nat) : (s.nextPc n).cur.seen = s.cur.seen := rfl
@[simp] theorem State.nextPc_cur_fences (s : State) (n : Nat) : (s.nextPc n).cur.fences = s.cur.fences := rfl
@[simp] theorem State.nextPc_cur_wait (s : State) (n : Nat) : (s.nextPc n).cur.wait = s.cur.wait := rfl
@[simp] theorem State.nextPc_cur_status (s : State) (n : Nat) : (s.nextPc n).cur.status = s.cur.status := rfl
@[simp] theorem State.nextPc_cur_handler (s : State) (n : Nat) : (s.nextPc n).cur.handler = s.cur.handler := rfl
@[simp] theorem State.nextPc_cur_stops (s : State) (n : Nat) : (s.nextPc n).cur.stops = s.cur.stops := rfl
@[simp] theorem State.nextPc_cur_parked (s : State) (n : Nat) : (s.nextPc n).cur.parked = s.cur.parked := rfl
@[simp] theorem State.nextPc_cur_halted (s : State) (n : Nat) : (s.nextPc n).cur.halted = s.cur.halted := rfl

end Sys2Proof.Machine
end

