-- ==== Sys2Proof/Laws/Regs.lean ====
section
/-! SUPPORT. What a read after a write of a scalar register gives, and what an instruction that may issue does: the lemmas
that the proofs about S-stream instructions cite. -/

namespace Sys2Proof.Machine

theorem look_put_same {α : Type} {n : Nat} (v : Vector α n) (i : Nat) (x d : α) (h : i < n) : look (put v i x) i d = x := by
  simp [look, put, h]

theorem look_put_ne {α : Type} {n : Nat} (v : Vector α n) (i j : Nat) (x d : α) (h : i ≠ j) :
    look (put v i x) j d = look v j d := by
  unfold look put
  by_cases hi : i < n <;> by_cases hj : j < n <;> simp [hi, hj, h]

/-- A register field that names no register of its own: sz, and the numbers that no group may name. -/
theorem SState.get_sz (st : SState) : st.get 127#7 = 0 := by simp [SState.get]

@[simp] theorem SState.put_pc (st : SState) (r : SReg) (v : Word) : (st.put r v).pc = st.pc := by
  unfold SState.put; split <;> [rfl; (split <;> rfl)]

@[simp] theorem SState.put_flags (st : SState) (r : SReg) (v : Word) : (st.put r v).flags = st.flags := by
  unfold SState.put; split <;> [rfl; (split <;> rfl)]

/-- Reading the register just written (R10, R73). -/
theorem SState.get_put_same (st : SState) (r : SReg) (v : Word) (h : r.toNat < 112) : (st.put r v).get r = v := by
  unfold SState.put SState.get
  by_cases h1 : r.toNat < 96
  · simp [h1, look_put_same]
  · have : r.toNat - 96 < 16 := by omega
    simp [h1, h, look_put_same, this]

/-- Reading another register (R73). -/
theorem SState.get_put_ne (st : SState) (r q : SReg) (v : Word) (h : q ≠ r) : (st.put r v).get q = st.get q := by
  have hn : r.toNat ≠ q.toNat := fun e => h (BitVec.eq_of_toNat_eq e.symm)
  unfold SState.put SState.get
  by_cases h1 : r.toNat < 96 <;> by_cases h2 : q.toNat < 96 <;> simp [h1, h2]
  · exact look_put_ne _ _ _ _ _ hn
  · split <;> rfl
  · split
    · split
      · exact look_put_ne _ _ _ _ _ (by omega)
      · rfl
    · rfl

theorem SState.put_sz (st : SState) (v : Word) : st.put 127#7 v = st := by simp [SState.put]

/-- A register the group may name is sz or has a place of its own (R10, R308). -/
theorem Group.sLegal_cases (g : Group) (r : SReg) (h : g.sLegal r = true) : r = 127#7 ∨ r.toNat < 112 := by
  simp only [Group.sLegal, Bool.or_eq_true, decide_eq_true_eq, beq_iff_eq, Bool.and_eq_true] at h
  rcases h with (h | h) | h
  · right; omega
  · left; exact BitVec.eq_of_toNat_eq (by simpa using h)
  · right; exact h.2

/-- The value of a register after its write (R10, R73). -/
theorem State.sget_sput_same (s : State) (r : SReg) (v : Word) (h : s.cur.sLegal r = true) :
    (s.sput r v).sget r = if r = 127#7 then 0 else v := by
  rcases s.cur.sLegal_cases r h with rfl | h'
  · simp [State.sget, State.sput, State.mapCur, SState.put_sz, SState.get_sz]
  · have : r ≠ 127#7 := fun e => by subst e; simp at h'
    simp [State.sget, this, SState.get_put_same _ _ _ h']

theorem State.sget_sput_ne (s : State) (r q : SReg) (v : Word) (h : q ≠ r) : (s.sput r v).sget q = s.sget q := by
  simp [State.sget, SState.get_put_ne _ _ _ _ h]

@[simp] theorem State.sget_nextPc (s : State) (n : Nat) (r : SReg) : (s.nextPc n).sget r = s.sget r := rfl
@[simp] theorem State.sget_setPc (s : State) (pc : Word) (r : SReg) : (s.setPc pc).sget r = s.sget r := rfl

theorem Group.setFlags_eq (g : Group) (f : Byte) :
    g.setFlags f = { g with s := { g.s with flags := (g.setFlags f).s.flags }, flags := (g.setFlags f).flags } := by
  unfold Group.setFlags; split <;> [rfl; (split <;> rfl)]

@[simp] theorem Group.setFlags_regs (g : Group) (f : Byte) : (g.setFlags f).s.regs = g.s.regs := by
  unfold Group.setFlags; split <;> [rfl; (split <;> rfl)]
@[simp] theorem Group.setFlags_hs (g : Group) (f : Byte) : (g.setFlags f).s.hs = g.s.hs := by
  unfold Group.setFlags; split <;> [rfl; (split <;> rfl)]
@[simp] theorem Group.setFlags_pc (g : Group) (f : Byte) : (g.setFlags f).s.pc = g.s.pc := by
  unfold Group.setFlags; split <;> [rfl; (split <;> rfl)]

@[simp] theorem State.sget_setFlags (s : State) (f : Byte) (r : SReg) : (s.setFlags f).sget r = s.sget r := by
  simp [State.sget, State.setFlags, State.mapCur, SState.get]

/-- An instruction that may issue executes (R56, R73). -/
theorem State.sIssue_ready {s : State} {need : Level} {rs : List SReg} {free : Bool} {body : State → State}
    (h : SReady s need rs free) : s.sIssue need rs free body = body s := by
  have h1 : (rs.any fun r => !s.cur.sLegal r) = false := by
    simp only [List.any_eq_false]; intro r hr; simp [h.legal r hr]
  have h2 : ¬ Level.rank s.cur.level < Level.rank need := Nat.not_lt.mpr h.level
  have h3 : rs.any s.cur.sBusy = false := by
    simp only [List.any_eq_false]; intro r hr; simp [h.busy r hr]
  have h4 : (!free && s.cur.sWaits) = false := by rcases h.waits with h | h <;> simp [h]
  simp [State.sIssue, h1, h2, h3, h4, h.held]

/-- What a register write with flags and the move to the next instruction leave (R25, R73). -/
theorem WritesReg.of_eq {s : State} {i : Instr} {d : SReg} {v : Word} {f : Byte} {n : Nat} (hd : s.cur.sLegal d = true)
    (h : exec i s = .next (((s.sput d v).setFlags f).nextPc n)) : WritesReg s i d v f n := by
  refine ⟨_, h, ?_, ?_, ?_, ?_, ?_, fun _ => rfl⟩
  · simp [State.sget_sput_same _ _ _ hd]
  · intro r hr; simp [State.sget_sput_ne _ _ _ _ hr]
  · simp
  · have hw : (s.sput d v).cur.sWaits = s.cur.sWaits := rfl
    have hh : (s.sput d v).cur.handler = s.cur.handler := rfl
    unfold FlagsOr
    split
    · next h1 => simp [State.nextPc, State.setPc, State.mapCur, State.setFlags, Group.setFlags, h1]
    · next h1 =>
      split
      · next h2 => simp [State.nextPc, State.setPc, State.mapCur, State.setFlags, Group.setFlags, hw, h1, h2]
      · next h2 => simp [State.nextPc, State.setPc, State.mapCur, State.setFlags, Group.setFlags, hw, h1, h2]
  · simp only [State.nextPc, State.setPc, State.mapCur, State.setFlags, State.sput]
    rw [Group.setFlags_eq]

end Sys2Proof.Machine
end

