-- ==== Sys2Proof/Laws/Issue.lean ====
section
/-! SUPPORT. What the shared issue operations do when nothing stops them: the lemmas that the proofs about single
instructions of both streams cite, and the canonical form through the writes of the state. -/

namespace Sys2Proof.Machine

/-- Readiness covers fewer registers too. -/
theorem SReady.sub {s : State} {need : Level} {rs qs : List SReg} {free : Bool} (h : SReady s need rs free)
    (hq : ∀ r ∈ qs, r ∈ rs) : SReady s need qs free :=
  ⟨fun r hr => h.legal r (hq r hr), h.level, h.held, fun r hr => h.busy r (hq r hr), h.waits⟩

/-- ORing no flag into FLAGS leaves the group as it is (R25). -/
@[simp] theorem Group.setFlags_zero (g : Group) : g.setFlags 0#8 = g := by
  unfold Group.setFlags; split <;> [rfl; (split <;> simp)]

@[simp] theorem State.setFlags_zero (s : State) : s.setFlags 0#8 = s := by simp [State.setFlags, State.mapCur]

/-- A register write without flags and the move to the next instruction. -/
theorem WritesReg.of_quiet {s : State} {i : Instr} {d : SReg} {v v' : Word} {n : Nat} (hd : s.cur.sLegal d = true)
    (h : exec i s = .next ((s.sput d v').nextPc n)) (hv : v' = v) : WritesReg s i d v 0 n := by
  subst hv; exact WritesReg.of_eq hd (by simpa using h)

/-- A form over two registers writes the result and ORs the flags of its function (R74, R75). -/
theorem WritesReg.of_alu2 {s : State} {i : Instr} {d a b : SReg} {f : Word → Word → Word × Byte} {v : Word} {fl : Byte}
    (h : SReady s .user [d, a, b] true) (e : exec i s = .next (s.alu2 d a b f)) (hv : f (s.sget a) (s.sget b) = (v, fl)) :
    WritesReg s i d v fl 4 := by
  apply WritesReg.of_eq (h.legal d (by simp))
  rw [e, State.alu2, State.sIssue_ready h]
  simp [hv]

/-- A form over one register writes the result of its function (R74). -/
theorem WritesReg.of_alu1 {s : State} {i : Instr} {d a : SReg} {f : Word → Word} {v : Word}
    (h : SReady s .user [d, a] true) (e : exec i s = .next (s.alu1 d a f)) (hv : f (s.sget a) = v) :
    WritesReg s i d v 0 4 := by
  apply WritesReg.of_quiet (h.legal d (by simp)) (hv := hv)
  rw [e, State.alu1, State.sIssue_ready h]

/-- An L-stream instruction that may issue executes, in the state that its pops and hints leave; one that pops late executes with
its pops still to make (R18, R56). -/
theorem State.lIssue_ready' {s : State} {u : LUse} {p : Path} {vs : List Word} {g : Group} {gd : Guard} {body : LIn → State}
    (h : LReady s u p vs g) : s.lIssue gd u body =
      body ⟨{ s with cur := (if u.late then s.cur else g).applyHints u.reads }, p.mask, s.cur.selected p.mask gd,
        if u.late then [] else vs⟩ := by
  have h1 : ((u.reads.map Prod.fst ++ u.writes).any fun r => !s.cur.vLegal r) = false := by
    rw [List.any_eq_false]; intro r hr; simp [h.legal r hr]
  have h2 : ((decide (0 < u.pops) || decide (0 < u.pushes)) && !s.cur.converged) = false := by
    rcases h.queues with ⟨a, b⟩ | c <;> simp [*]
  have h3 : (u.reads.any fun x => s.cur.vlife x.1 == .dead) = false := by
    rw [List.any_eq_false]; intro r hr; rcases h.alive r hr with e | e <;> simp [e]
  have h4 : (u.reads.any fun x => s.cur.vlife x.1 == .poison) = false := by
    rw [List.any_eq_false]; intro r hr; rcases h.alive r hr with e | e <;> simp [e]
  have h5 : ((!u.free || decide (0 < u.pops) || decide (0 < u.pushes)) && s.cur.lWaits) = false := by
    rcases h.waits with ⟨a, b, c⟩ | c <;> simp [*]
  have h6 : ((u.reads.map Prod.fst ++ u.writes).any fun r => !s.cur.powered r) = false := by
    rw [List.any_eq_false]; intro r hr; simp [h.powered r hr]
  have h7 : ¬ 16 < s.cur.rq.length + u.pushes := Nat.not_lt.mpr h.room
  have h8 : s.cur.pops (if u.late then 0 else u.pops) = .got (if u.late then [] else vs) (if u.late then s.cur else g) := by
    split
    · rfl
    · exact h.values
  simp only [State.lIssue, h.path, h1, h2, h3, h4, h8, h.held, h.busy, h5, h6, h7, Bool.or_false, Bool.false_eq_true, if_false]

theorem State.lIssue_ready {s : State} {u : LUse} {p : Path} {vs : List Word} {g : Group} {gd : Guard} {body : LIn → State}
    (h : LReady s u p vs g) (hl : u.late = false := by rfl) :
    s.lIssue gd u body = body ⟨{ s with cur := g.applyHints u.reads }, p.mask, s.cur.selected p.mask gd, vs⟩ := by
  simp [State.lIssue_ready' h, hl]

/-- The values of a late pop. -/
theorem State.latePops_got {s : State} {n : Nat} {k : List Word → Group → State} {vs : List Word} {g : Group}
    (h : s.cur.pops n = .got vs g) : s.latePops n k = k vs g := by rw [State.latePops, h]

/-- Whatever it meets, an S-stream instruction leaves the state alone, faults at its own address, or executes. -/
theorem State.sIssue_cases (s : State) (need : Level) (rs : List SReg) (free : Bool) (body : State → State) :
    s.sIssue need rs free body = s ∨ (∃ c, s.sIssue need rs free body = s.raise c) ∨ s.sIssue need rs free body = body s := by
  obtain ⟨r, hr⟩ : ∃ r, r = s.sIssue need rs free body := ⟨_, rfl⟩
  rw [← hr]
  unfold State.sIssue at hr
  repeat' split at hr
  all_goals subst hr
  all_goals first
    | exact .inl rfl
    | exact .inr (.inr rfl)
    | exact .inr (.inl ⟨_, rfl⟩)

/-- Whatever it meets, an L-stream instruction stalls (it may begin the wake of its registers), faults (its POISON registers
becoming DEAD), or executes for the path that has its turn. -/
theorem State.lIssue_cases (s : State) (gd : Guard) (u : LUse) (body : LIn → State) :
    s.lIssue gd u body = s ∨
    s.lIssue gd u body = (u.reads.map Prod.fst ++ u.writes).foldl State.wakeBlock s ∨
    (∃ c, s.lIssue gd u body = s.raiseL c) ∨
    (∃ t : State, t = s.mapCur (fun g => u.reads.foldl (fun g x => if g.vlife x.1 == .poison then g.setLife x.1 .dead else g) g) ∧
      s.lIssue gd u body = t.raiseL 0x04) ∨
    (∃ p vs g, s.cur.path s.ps1 = some p ∧ s.cur.pops (if u.late then 0 else u.pops) = .got vs g ∧
      s.lIssue gd u body = body ⟨{ s with cur := g.applyHints u.reads }, p.mask, s.cur.selected p.mask gd, vs⟩) := by
  obtain ⟨r, hr⟩ : ∃ r, r = s.lIssue gd u body := ⟨_, rfl⟩
  rw [← hr]
  unfold State.lIssue at hr
  split at hr
  · exact .inl hr
  · next p hp =>
    dsimp only at hr
    repeat' split at hr
    all_goals first
      | exact .inl hr
      | exact .inr (.inl hr)
      | exact .inr (.inr (.inl ⟨_, hr⟩))
      | exact .inr (.inr (.inr (.inl ⟨_, rfl, hr⟩)))
      | exact .inr (.inr (.inr (.inr ⟨p, _, _, hp, by assumption, hr⟩)))

/-- A write of device memory keeps its canonical form. -/
theorem State.memWrite_wf {s : State} (w : Byte) (pa : Nat) (bs : List Byte) (h : StoresWf s) : StoresWf (s.memWrite w pa bs) := by
  unfold StoresWf at *
  unfold State.memWrite
  exact Cells.write_wf _ _ h

@[simp] theorem State.memWrite_mem (s : State) (w : Byte) (pa : Nat) (bs : List Byte) :
    (s.memWrite w pa bs).mem = s.mem.write (s.place pa) bs := rfl

/-- A write of device memory leaves every byte outside it alone. -/
theorem State.memWrite_frame (s : State) (w : Byte) (pa : Nat) (bs : List Byte) (x : Nat)
    (h : x < s.place pa ∨ s.place pa + bs.length ≤ x) : (s.memWrite w pa bs).mem.get x = s.mem.get x :=
  Cells.get_write_out _ _ _ _ h

/-- A write of device memory gives its bytes. -/
theorem State.memWrite_same {s : State} (w : Byte) (pa i : Nat) (bs : List Byte) (hi : i < bs.length) (h : StoresWf s) :
    (s.memWrite w pa bs).mem.get (s.place pa + i) = bs[i] :=
  Cells.get_write_in _ _ _ hi h

end Sys2Proof.Machine
end

