-- ==== Sys2Proof/Laws/Trans.lean ====
section
/-! SUPPORT. A translation that the TLB of the core answers, through an entry that owes no A or D bit, leaves the device as it
is (R237, R242), and so do the reads and checks built on it. -/

namespace Sys2Proof.Machine

/-- Where no level changes a step goes on. -/
theorem State.holdIf_false (s : State) : s.holdIf false = s := rfl

@[simp] theorem State.holdIf_cur (s : State) (h : Bool) : (s.holdIf h).cur = s.cur := by cases h <;> rfl
@[simp] theorem State.holdIf_others (s : State) (h : Bool) : (s.holdIf h).others = s.others := by cases h <;> rfl
@[simp] theorem State.holdIf_mem (s : State) (h : Bool) : (s.holdIf h).mem = s.mem := by cases h <;> rfl
@[simp] theorem State.holdIf_ctxs (s : State) (h : Bool) : (s.holdIf h).ctxs = s.ctxs := by cases h <;> rfl
@[simp] theorem State.holdIf_lines (s : State) (h : Bool) : (s.holdIf h).lines = s.lines := by cases h <;> rfl
@[simp] theorem State.holdIf_cores (s : State) (h : Bool) : (s.holdIf h).cores = s.cores := by cases h <;> rfl
@[simp] theorem State.holdIf_qtlbs (s : State) (h : Bool) : (s.holdIf h).qtlbs = s.qtlbs := by cases h <;> rfl
@[simp] theorem State.holdIf_dev (s : State) (h : Bool) : (s.holdIf h).dev = s.dev := by cases h <;> rfl
@[simp] theorem State.holdIf_parts (s : State) (h : Bool) : (s.holdIf h).parts = s.parts := by cases h <;> rfl
@[simp] theorem State.holdIf_teams (s : State) (h : Bool) : (s.holdIf h).teams = s.teams := by cases h <;> rfl
@[simp] theorem State.holdIf_gangs (s : State) (h : Bool) : (s.holdIf h).gangs = s.gangs := by cases h <;> rfl
@[simp] theorem State.holdIf_grids (s : State) (h : Bool) : (s.holdIf h).grids = s.grids := by cases h <;> rfl
@[simp] theorem State.holdIf_fresh (s : State) (h : Bool) : (s.holdIf h).fresh = s.fresh := by cases h <;> rfl

/-- A step holds where an access of it found a level in change, before or now. -/
@[simp] theorem State.holdIf_held (s : State) (h : Bool) : (s.holdIf h).held = (h || s.held) := by cases h <;> rfl

/-- The TLB of the core holds the translation, permits the access and owes no bit, and no level changes at the line. -/
def State.holds (s : State) (core : Nat) (c : Ctx) (lvl : Level) (kind : AccessKind) (va : Word) : Bool :=
  (canonErr lvl va).isNone &&
    match (s.core core).tlb.find? fun e => e.hits c.id va with
    | some e => (e.permErr kind va).isNone && e.path.isEmpty && !(kind.writes && !e.dirty) && !s.levelHeld (e.paOf va)
    | none => false

/-- A held translation leaves the device as it is and answers the address of its entry, where no level changes, or a fault. -/
theorem State.translate_held' {s : State} {core : Nat} {c : Ctx} {lvl : Level} {kind : AccessKind} {va : Word}
    (h : s.holds core c lvl kind va = true) : (s.translate core c lvl kind va).st = s ∧ s.walkHeld core c va = false ∧
      ∀ pa, (s.translate core c lvl kind va).res = .inr pa → s.levelHeld pa = false := by
  unfold State.holds at h
  unfold State.translate State.walkHeld
  rw [Bool.and_eq_true] at h
  obtain ⟨h0, h⟩ := h
  rw [Option.isNone_iff_eq_none.mp h0]
  cases hr : (s.core core).tlb.find? (fun e => e.hits c.id va) with
  | none => rw [hr] at h; cases h
  | some e =>
    simp only [hr, Bool.and_eq_true, Bool.not_eq_true'] at h
    obtain ⟨⟨⟨h1, h2⟩, h3⟩, h4⟩ := h
    have hit : ((s.core core).tlb.any fun e => e.hits c.id va) = true :=
      List.any_eq_true.mpr ⟨e, List.mem_of_find?_eq_some hr, List.find?_some (p := fun e : TlbEntry => e.hits c.id va) hr⟩
    refine ⟨?_, by rw [hit]; simp, ?_⟩ <;>
      simp only [State.translateHeld, Option.isNone_iff_eq_none.mp h1, List.isEmpty_iff.mp h2, h3, List.nil_append]
    · split <;> simp [State.orErr, State.holdIf]
    · intro pa
      split
      · simp
      · simp only [Bool.false_eq_true, if_false, State.orErr, List.findSome?_nil]
        intro hp
        cases hp
        exact h4

theorem State.translate_held {s : State} {core : Nat} {c : Ctx} {lvl : Level} {kind : AccessKind} {va : Word}
    (h : s.holds core c lvl kind va = true) : (s.translate core c lvl kind va).st = s := (State.translate_held' h).1

theorem State.ctxPa_held {s : State} {core : Nat} {c : Ctx} {lvl : Level} {kind : AccessKind} {va : Word}
    (h : s.holds core c lvl kind va = true) : (s.ctxPa core c lvl kind va).st = s := by
  obtain ⟨hs, hw, hl⟩ := State.translate_held' h
  unfold State.ctxPa
  simp only [hw, Bool.and_false, State.holdIf, Bool.false_eq_true, if_false, hs]
  split
  · exact hs
  · rename_i pa hp
    simp only [hl pa hp, Bool.false_eq_true, if_false]

/-- The issuing group's own accesses. -/
def State.heldHere (s : State) (kind : AccessKind) (va : Word) : Bool :=
  s.holds (s.coreOf s.cur) (s.ctxOf s.cur) s.cur.level kind va

theorem State.checkRange_held {s : State} {kind : AccessKind} {va : Word} {align n : Nat}
    (h : s.heldHere kind va = true) : (s.checkRange kind va align n).st = s := by
  unfold State.checkRange
  split
  · rfl
  · split
    · rfl
    · dsimp only
      split
      · exact State.translate_held h
      · split <;> exact State.translate_held h

theorem State.checkGlobal_held {s : State} {kind : AccessKind} {va : Word} {n : Nat}
    (h : s.heldHere kind va = true) : (s.checkGlobal kind va n).st = s := State.checkRange_held h

theorem State.ctxRead_held {s : State} {core : Nat} {c : Ctx} {lvl : Level} {kind : AccessKind} {va : Word} {n : Nat}
    (h : s.holds core c lvl kind va = true) : (s.ctxRead core c lvl kind va n).2 = s := by
  unfold State.ctxRead
  dsimp only
  split
  · exact State.ctxPa_held h
  · split <;> exact State.ctxPa_held h

/-- The vector is read through a held translation (R311). -/
theorem State.vectorEntry_held {s : State} {core : Nat} {c : Ctx} {code : Byte}
    (h : s.holds core c .super .read (canonical c.fvec + BitVec.ofNat 64 (8 * code.toNat)) = true) :
    (s.vectorEntry core c code).2 = s := by
  unfold State.vectorEntry
  dsimp only
  split
  · exact State.ctxRead_held h
  · split <;> exact State.ctxRead_held h

theorem State.readTensor_held {s : State} {va : Word} (h : s.heldHere .read va = true) : (s.readTensor va).2 = s := by
  unfold State.readTensor
  dsimp only
  split
  · exact State.checkRange_held h
  · split
    · exact State.checkRange_held h
    · split <;> exact State.checkRange_held h

theorem State.readRecord_held {s : State} {va : Word} (h : s.heldHere .read va = true) : (s.readRecord va).2 = s := by
  unfold State.readRecord
  dsimp only
  split
  · exact State.checkRange_held h
  · split
    · exact State.checkRange_held h
    · split <;> exact State.checkRange_held h

theorem State.mwaitRead_held {s : State} {va : Word} (h : s.heldHere .read va = true) : (s.mwaitRead va).2 = s := by
  unfold State.mwaitRead
  dsimp only
  split
  · exact State.checkGlobal_held h
  · split
    · exact State.checkGlobal_held h
    · split <;> exact State.checkGlobal_held h

/-- The checks of the lanes of an access whose lanes all have held translations. -/
theorem State.checkLanes_held {s : State} {kind : AccessKind} {rs : List Req}
    (h : (rs.all fun r => s.heldHere kind r.va) = true) : (s.checkLanes kind rs).st = s := by
  unfold State.checkLanes
  have aux : ∀ (rs : List Req) (c : LaneChecks), c.st = s → (rs.all fun r => s.heldHere kind r.va) = true →
      (rs.foldl (fun c r =>
        let t := c.st.checkGlobal kind r.va r.size
        match t.res with
        | .inl f => { c with st := t.st, fails := c.fails ++ [⟨r.lane, f⟩] }
        | .inr pa => { c with st := t.st, reqs := c.reqs ++ [{ r with pa := pa }] }) c).st = s := by
    intro rs
    induction rs with
    | nil => intro c hc _; exact hc
    | cons r rs ih =>
      intro c hc h
      simp only [List.all_cons, Bool.and_eq_true] at h
      refine ih _ ?_ h.2
      dsimp only
      split <;> (dsimp only; rw [hc]; exact State.checkGlobal_held h.1)
  exact aux rs _ rfl h

/-- A callee table of one entry in memory, read through a held translation (R156, R157). -/
theorem State.readTable_held {s : State} {va : Word} {pa : Nat} {c : Callee} (h : s.heldHere .read va = true)
    (hr : (s.checkGlobal .read va 16).res = .inr pa) (hl : s.levelHeld pa = false)
    (hw' : s.readWaits s.cur.priorS s.cur.seq pa 16 = false) (he : s.readErr s.myPort (s.ctxOf s.cur).world pa = none)
    (hc : (⟨wordOf ((s.readOver s.cur s.cur.priorS pa 16).take 8), BitVec.ofNat 32 (natOfBytes (((s.readOver s.cur s.cur.priorS pa 16).drop 8).take 4)),
      ((s.readOver s.cur s.cur.priorS pa 16).getD 12 0).toNat⟩ : Callee) = c)
    (hw : (c.weight != 0 && c.entry &&& 3 != 0) = false) : State.readTable false 1 va [] s = .got [c] s := by
  have hs := State.checkGlobal_held (n := 16) h
  subst hc
  simp only [State.readTable, State.readEntry, hr, hs, hl, hw', he, Bool.or_false, Bool.false_eq_true, if_false, List.nil_append]
  rw [if_neg (by simpa using hw)]

/-- A record for a full queue is dropped and counted (R246). -/
theorem State.queueRecord_full {s : State} {core ctx : Nat} {r : Record} {c : Ctx} (h : s.ctx? ctx = some c)
    (hf : 256 ≤ (c.frqt - c.frqh).toNat) : s.queueRecord core ctx r = s.mapCtx ctx Ctx.dropRecord := by
  unfold State.queueRecord
  rw [h]
  dsimp only
  rw [if_pos hf]

/-- A context that an update changes. -/
theorem State.ctx?_mapCtx {s : State} {k : Nat} {c : Ctx} {f : Ctx → Ctx} (h : s.ctx? k = some c) (hf : ∀ x, (f x).id = x.id) :
    (s.mapCtx k f).ctx? k = some (f c) := by
  revert h
  show List.find? _ s.ctxs = _ → List.find? _ (mapIf s.ctxs _ f) = _
  induction s.ctxs with
  | nil => intro h; cases h
  | cons x xs ih =>
    intro h
    rw [mapIf, List.map_cons, List.find?_cons]
    rw [List.find?_cons] at h
    by_cases hx : (x.id == k) = true
    · simp only [hx, Option.some.injEq] at h
      subst h
      simp only [hx, if_true, hf]
    · simp only [hx] at h
      simp only [hx, Bool.false_eq_true, if_false]
      exact ih h

/-- Records for one full queue leave the group as it is. -/
theorem State.queueAll_full {s : State} {rs : List Record} {k : Nat} {c : Ctx} (h : s.ctx? k = some c) (hk : ∀ r ∈ rs, r.ctx = k)
    (hf : 256 ≤ (c.frqt - c.frqh).toNat) : (s.queueAll rs).cur = s.cur := by
  unfold State.queueAll
  induction rs generalizing s c with
  | nil => rfl
  | cons r rs ih =>
    have hr := hk r (List.mem_cons_self ..)
    rw [List.foldl_cons, hr, State.queueRecord_full h hf]
    exact ih (State.ctx?_mapCtx h fun _ => rfl) (fun x hx => hk x (List.mem_cons_of_mem _ hx)) hf

/-- A stop with one record for a full queue leaves the group as it is. -/
theorem State.queueStop_full {s : State} {st : Stop} {r : Record} {c : Ctx} (hr : s.stopRecords s.cur st = [r]) (h : s.ctx? r.ctx = some c) (hf : 256 ≤ (c.frqt - c.frqh).toNat) :
    (s.queueStop st).cur = s.cur := by
  unfold State.queueStop
  split
  · rfl
  · by_cases hm : memoryCode r.code = true <;> simp [State.queueAll, hr, hm, State.queueRecord_full h hf]

/-- The record of a memory fault that a full queue drops leaves the group as it is. -/
theorem State.queueMem_full {s : State} {st : Stop} {r : Record} {c : Ctx} (hq : st.queued = false)
    (hr : s.stopRecords s.cur st = [r]) (h : s.ctx? r.ctx = some c) (hf : 256 ≤ (c.frqt - c.frqh).toNat) :
    (s.queueMem st).cur = s.cur := by
  by_cases hm : memoryCode r.code = true <;>
    simp [State.queueMem, State.queueAll, hq, hr, hm, State.queueRecord_full h hf]

end Sys2Proof.Machine
end

