-- ==== Sys2Proof/Tests/Slice0.lean ====
section
/-! SUPPORT. Tests of single steps against values written in the spec: well-formedness, words and what they decode to, results; and,
for every statement with hypotheses, a state and operands that meet them. -/

open Sys2Proof Sys2Proof.Machine

section
set_option Elab.async false

/-! ## Well-formedness: an ill-formed term for each check, beside a well-formed neighbour -/

/-- A lane operation whose fields are all 0 but the type. -/
def plainOp (ty : ElemType) : LOp := ⟨⟨0, false⟩, ty, 0, 0, 0, ⟨0, .keep⟩, ⟨0, .keep⟩, .vec 0 .keep, 0⟩

/-- Register fields 112 to 126 name nothing (R10, R308). -/
theorem test_wf_registers :
    Instr.wf (.add 111 95 127) = true ∧ Instr.wf (.add 112 1 2) = false ∧ Instr.wf (.add 1 126 2) = false ∧
    Instr.wf (.rdsr 127 0x020) = false := by decide

/-- The limits of the S-stream forms (R48, R66, R81, R85, R157, R191, R203, R257, R295). -/
theorem test_wf_s_limits :
    Instr.wf (.b .always 1 4) = false ∧ Instr.wf (.loop 127 4) = false ∧ Instr.wf (.lrun 4) = false ∧ Instr.wf (.lrun 3) = true ∧
    Instr.wf (.rqgetTry 4 4) = false ∧ Instr.wf (.rqgetTry 127 127) = true ∧ Instr.wf (.tcall 1 2 0 false) = false ∧
    Instr.wf (.tcall 1 2 9 false) = false ∧ Instr.wf (.tcall 1 2 8 true) = true ∧
    Instr.wf (.ldo .d64 .rel .dev 1 2 0) = false ∧ Instr.wf (.sto .b64 .acq .dev 1 2 0) = false ∧
    Instr.wf (.spaccLoad .d64 .rlx .dev 1 2 0) = false ∧ Instr.wf (.spaccStore .b64 .acq .grp 1 2 0) = false ∧
    Instr.wf (.mwait .rel .dev 1 2 3 0) = false ∧ Instr.wf (.cpy .g2g 1 2 3 1 0) = false ∧ Instr.wf (.cpy .g2g 1 2 3 9 0) = false ∧
    Instr.wf (.cpy .g2s 1 2 3 0 4) = false ∧ Instr.wf (.cpy .s2w 1 2 3 0 4) = true ∧
    Instr.wf (.wload 0 0x08 0 false 1 2) = false := by decide

/-- Guards, types, modifiers and rounding (R61, R62). -/
theorem test_wf_l_fields :
    Instr.wf (.vadd (plainOp .s32)) = true ∧ Instr.wf (.vadd { plainOp .s32 with g := ⟨0, true⟩ }) = false ∧
    Instr.wf (.join { plainOp .s32 with g := ⟨1, false⟩ }) = false ∧ Instr.wf (.vadd (plainOp .f32)) = false ∧
    Instr.wf (.vfadd (plainOp .s32)) = false ∧ Instr.wf (.vadd { plainOp .s32 with mods := 1 }) = false ∧
    Instr.wf (.vadd { plainOp .s32 with rnd := 1 }) = false ∧ Instr.wf (.vfadd { plainOp .f32 with rnd := 3 }) = true := by decide

/-- Fields that a form does not use, predicates above p7, kinds of c and word2 (R59, R63). -/
theorem test_wf_l_unused :
    Instr.wf (.join { plainOp .s32 with vd := 1 }) = false ∧ Instr.wf (.vnot { plainOp .s32 with a := ⟨1, .keep⟩ }) = false ∧
    Instr.wf (.vadd { plainOp .s32 with b := ⟨1, .keep⟩ }) = false ∧ Instr.wf (.vadd { plainOp .s32 with b := ⟨0, .last⟩ }) = false ∧
    Instr.wf (.pset { plainOp .s32 with vd := 8 }) = false ∧ Instr.wf (.vrotl (plainOp .s32)) = false ∧
    Instr.wf (.vrotl { plainOp .s32 with c := .dq }) = true ∧ Instr.wf (.vadd { plainOp .s32 with w2 := 1 }) = false ∧
    Instr.wf (.vadd { plainOp .s32 with c := .imm, w2 := 1 }) = true ∧ Instr.wf (.vld (plainOp .s32)) = false ∧
    Instr.wf (.mzero { plainOp .s32 with w2 := 0x4000 }) = false := by decide

/-- What the descriptions add (R64, R104, R105, R107, R109, R112, R117, R118, R205, R292, R297). -/
theorem test_wf_l_pairings :
    Instr.wf (.vcvt { plainOp .f32 with w2 := 7 }) = false ∧ Instr.wf (.vcvt { plainOp .f32 with w2 := 1 }) = true ∧
    Instr.wf (.vpack { plainOp .f32 with w2 := 9 }) = false ∧ Instr.wf (.vunpk { plainOp .f32 with w2 := 7 }) = false ∧
    Instr.wf (.vqnt { plainOp .f16x2 with mods := 2 }) = false ∧ Instr.wf (.vcmp { plainOp .s32 with mods := 6 }) = false ∧
    Instr.wf (.plogic { plainOp .s32 with mods := 4, b := ⟨1, .keep⟩ }) = false ∧ Instr.wf (.pset { plainOp .s32 with mods := 3 }) = false ∧
    Instr.wf (.vred { plainOp .f32 with mods := 3 }) = false ∧ Instr.wf (.vscan { plainOp .s32 with rnd := 1 }) = false ∧
    Instr.wf (.vcomp (plainOp .s32)) = false ∧ Instr.wf (.vlife { plainOp .s32 with c := .imm, w2 := 0 }) = false ∧
    Instr.wf (.vld { plainOp .f32 with c := .kreg 1, mods := 8 }) = false ∧
    Instr.wf (.vld { plainOp .s32 with c := .kreg 1, a := ⟨1, .keep⟩ }) = false ∧
    Instr.wf (.vatom { plainOp .f32 with c := .kreg 1, mods := 24 }) = false ∧ Instr.wf (.vfence { plainOp .s32 with mods := 5 }) = false ∧
    Instr.wf (.mzero { plainOp .s32 with w2 := 0x21F0 }) = false ∧ Instr.wf (.mdrain (plainOp .s8x4)) = false ∧
    Instr.wf (.mdrain { plainOp .s32 with mods := 8 }) = false ∧ Instr.wf (.kpop { plainOp .s32 with vd := 16, c := .dq }) = false ∧
    Instr.wf (.kfrom { plainOp .s32 with mods := 3 }) = false ∧ Instr.wf (.rput { plainOp .s32 with mods := 1, c := .dq }) = false := by
  decide

/-- An event of the part is no encoding. -/
theorem test_wf_events : Instr.wf .tmigCancel = false ∧ Instr.wf (.teamFree 1) = false := by decide

/-- The decoder refuses a word. -/
def refuses (d : Decoded) : Bool := match d with | .reject _ => true | .instr _ => false

/-- Words whose fields break the rules, and words that no code names, are rejected (R50, R55, R61, R63, R65, R81). -/
theorem test_decode_rejects :
    refuses (decodeS 0x507FFFFF 0) ∧ refuses (decodeS 0x3C000000 0) ∧ refuses (decodeS 0x0000001F 0) ∧ refuses (decodeS 0x04180015 0x5) = false ∧
    refuses (decodeS 0x041800F5 0) ∧ refuses (decodeL 0x1E000000 0 0) ∧ refuses (decodeL 0x00021000 0x00400018 0) ∧
    refuses (decodeL 0x00020000 0x00400019 0) := by decide

/-! ## Words written out from the tables of the spec, and what they decode to -/

/-- SYS (R26, R50, R318, R319): fn 0 to 5 of major 0. -/
theorem test_decode_sys :
    decodeS 0x00000000 0x0 = .instr .nop ∧
    decodeS 0x00000001 0x0 = .instr .trapfence ∧
    decodeS 0x00000002 0x0 = .instr .bkpt ∧
    decodeS 0x00005003 0x0 = .instr (.syscall 5) ∧
    decodeS 0x00000004 0x0 = .instr .retf ∧
    decodeS 0x00000005 0x0 = .instr .halt := by decide

/-- Register forms of the ALU (R50, R74): printed words, and fn of major 1. -/
theorem test_decode_alu :
    decodeS 0x04181040 0x0 = .instr (.add 3 1 2) ∧
    decodeS 0x04287FE0 0x0 = .instr (.add 5 7 127) ∧
    decodeS 0x04301043 0x0 = .instr (.mulh 6 1 2) ∧
    decodeS 0x04181045 0x0 = .instr (.div 3 1 2) ∧
    decodeS 0x04383086 0x0 = .instr (.divn 7 3 4) ∧
    decodeS 0x0428A17B 0x0 = .instr (.sel 5 10 11) ∧
    decodeS 0x04488015 0x0 = .instr (.clz 9 8) ∧
    decodeS 0x04488016 0x0 = .instr (.popc 9 8) ∧
    decodeS 0x04181041 0x0 = .instr (.sub 3 1 2) ∧
    decodeS 0x04181042 0x0 = .instr (.mul 3 1 2) ∧
    decodeS 0x04181044 0x0 = .instr (.mulhn 3 1 2) ∧
    decodeS 0x04181047 0x0 = .instr (.rem 3 1 2) ∧
    decodeS 0x04181048 0x0 = .instr (.remn 3 1 2) ∧
    decodeS 0x04181049 0x0 = .instr (.and 3 1 2) ∧
    decodeS 0x0418104A 0x0 = .instr (.or 3 1 2) ∧
    decodeS 0x0418104B 0x0 = .instr (.xor 3 1 2) ∧
    decodeS 0x0418104C 0x0 = .instr (.andn 3 1 2) ∧
    decodeS 0x0418104D 0x0 = .instr (.shl 3 1 2) ∧
    decodeS 0x0418104E 0x0 = .instr (.shr 3 1 2) ∧
    decodeS 0x0418104F 0x0 = .instr (.sra 3 1 2) ∧
    decodeS 0x04181050 0x0 = .instr (.rotr 3 1 2) ∧
    decodeS 0x04181051 0x0 = .instr (.min 3 1 2) ∧
    decodeS 0x04181052 0x0 = .instr (.max 3 1 2) ∧
    decodeS 0x04181053 0x0 = .instr (.minn 3 1 2) ∧
    decodeS 0x04181054 0x0 = .instr (.maxn 3 1 2) ∧
    decodeS 0x04181057 0x0 = .instr (.slt 3 1 2) ∧
    decodeS 0x04181058 0x0 = .instr (.sltn 3 1 2) ∧
    decodeS 0x04181059 0x0 = .instr (.seq 3 1 2) ∧
    decodeS 0x0418105A 0x0 = .instr (.sne 3 1 2) := by decide

/-- Immediate forms (R45, R54, R76, R77). -/
theorem test_decode_immediates :
    decodeS 0x08204FF8 0x0 = .instr (.addi 4 4 0xFF8) ∧
    decodeS 0x0B162004 0x0 = .instr (.addi 98 98 4) ∧
    decodeS 0x0C2040FF 0x0 = .instr (.andi 4 4 255) ∧
    decodeS 0x102040FF 0x0 = .instr (.ori 4 4 255) ∧
    decodeS 0x142040FF 0x0 = .instr (.xori 4 4 255) ∧
    decodeS 0x1818300C 0x0 = .instr (.shli 3 3 12) ∧
    decodeS 0x1C18303F 0x0 = .instr (.shri 3 3 63) ∧
    decodeS 0x2018300C 0x0 = .instr (.srai 3 3 12) ∧
    decodeS 0x24101FFF 0x0 = .instr (.slti 2 1 0xFFF) ∧
    decodeS 0x28312345 0x0 = .instr (.lui 6 0x12345) ∧
    decodeS 0x2C400000 0x12345678 = .instr (.li 8 0x12345678) ∧
    decodeS 0x2C400001 0xAB = .instr (.liHi 8 0xAB) := by decide

/-- Branches, jumps and LOOP (R46, R48, R50, R78 to R81). -/
theorem test_decode_control :
    decodeS 0x41030005 0x0 = .instr (.b .ltz 3 5) ∧
    decodeS 0x4089FFFD 0x0 = .instr (.b .nez 9 0xFFFD) ∧
    decodeS 0x4300FFFE 0x0 = .instr (.b .always 0 0xFFFE) ∧
    decodeS 0x44000010 0x0 = .instr (.j 16) ∧
    decodeS 0x48000028 0x0 = .instr (.call 40) ∧
    decodeS 0x4C014000 0x0 = .instr (.jr 20) ∧
    decodeS 0x4C000001 0x0 = .instr .ret ∧
    decodeS 0x4C015002 0x0 = .instr (.callr 21) ∧
    decodeS 0x5001FFFF 0x0 = .instr (.loop 1 0xFFFF) := by decide

/-- Queues (R83 to R86). -/
theorem test_decode_queues :
    decodeS 0x60000030 0x0 = .instr (.lrun 48) ∧
    decodeS 0x64001000 0x0 = .instr (.dqput 1) ∧
    decodeS 0x68500000 0x0 = .instr (.rqget 10) ∧
    decodeS 0x6850B001 0x0 = .instr (.rqgetTry 10 11) ∧
    decodeS 0x6C000000 0x0 = .instr .sjoin := by decide

/-- Team forms, team-call and launch (R50, R143, R145, R150, R157). -/
theorem test_decode_team :
    decodeS 0x70000000 0x0 = .instr .bar ∧
    decodeS 0x70000001 0x0 = .instr .gbar ∧
    decodeS 0x70109002 0x0 = .instr (.tvoteAny 2 9) ∧
    decodeS 0x70109003 0x0 = .instr (.tvoteAll 2 9) ∧
    decodeS 0x70185004 0x0 = .instr (.tvoteSum 3 5) ∧
    decodeS 0x70000005 0x0 = .instr .tret ∧
    decodeS 0x70000006 0x0 = .instr .exit ∧
    decodeS 0x74384000 0x4 = .instr (.tcall 7 4 4 false) ∧
    decodeS 0x74384000 0x15 = .instr (.tcall 7 4 5 true) ∧
    decodeS 0x78488000 0x0 = .instr (.launch 9 8) ∧
    decodeS 0x78488001 0x0 = .instr (.launchW 9 8) ∧
    decodeS 0x78000002 0x0 = .instr .lwait := by decide

/-- Scalar loads and stores (R49, R88, R89). -/
theorem test_decode_memory :
    decodeS 0x8C504010 0x0 = .instr (.ld64 10 4 16) ∧
    decodeS 0x90384FFF 0x0 = .instr (.ldN8 7 4 0xFFF) ∧
    decodeS 0xA4284000 0x0 = .instr (.st32 5 4 0) ∧
    decodeS 0xABF82008 0x0 = .instr (.st64 127 2 8) ∧
    decodeS 0x80504010 0x0 = .instr (.ldS8 10 4 16) ∧
    decodeS 0x84504010 0x0 = .instr (.ldS16 10 4 16) ∧
    decodeS 0x88504010 0x0 = .instr (.ldS32 10 4 16) ∧
    decodeS 0x94504010 0x0 = .instr (.ldN16 10 4 16) ∧
    decodeS 0x98504010 0x0 = .instr (.ldN32 10 4 16) ∧
    decodeS 0x9C284010 0x0 = .instr (.st8 5 4 16) ∧
    decodeS 0xA0284010 0x0 = .instr (.st16 5 4 16) := by decide

/-- Ordered accesses, atomics, scratchpad accesses and fences (R50, R52, R199 to R203, R208 to R210). -/
theorem test_decode_ordered :
    decodeS 0xAC504003 0x10000B = .instr (.ldo .d64 .acq .dev 10 4 16) ∧
    decodeS 0xB028400B 0x80011 = .instr (.sto .b64 .rel .team 5 4 8) ∧
    decodeS 0xB43040E3 0x3B = .instr (.satom .add true .acqrel .dev 6 4 7 0) ∧
    decodeS 0xB8188126 0x3000 = .instr (.spaccAtomic .n32 .add .rlx .grp 3 8 9 0) ∧
    decodeS 0xB8188003 0x0 = .instr (.spaccLoad .d64 .rlx .grp 3 8 0) ∧
    decodeS 0xB818800B 0x0 = .instr (.spaccStore .b64 .rlx .grp 3 8 0) ∧
    decodeS 0xBC00000B 0x0 = .instr (.fence .rel .dev) ∧
    decodeS 0xBC00001C 0x0 = .instr (.fence .sc .sys) ∧
    decodeS 0xBC000001 0x0 = .instr (.fence .acq .team) ∧
    decodeS 0xBC000020 0x0 = .instr .fenceOwn ∧
    decodeS 0xBC000041 0x0 = .instr (.fenceRem .team) := by decide

/-- Waits, queues in memory, copies, WLOAD, counters, SPHINT and steps (R53, R185, R198, R212 to R214, R257, R295, R396). -/
theorem test_decode_engines :
    decodeS 0xC0494120 0xC = .instr (.mwait .acq .sys 9 20 9 0) ∧
    decodeS 0xC4514000 0x4 = .instr (.qtake .sys 10 20) ∧
    decodeS 0xC4514121 0x4 = .instr (.qput .sys 10 20 9) ∧
    decodeS 0xC81840A1 0x0 = .instr (.cpy .g2s 3 4 5 0 0) ∧
    decodeS 0xCBF80024 0x50 = .instr (.cpy .g2w 127 0 1 0 5) ∧
    decodeS 0xC850B184 0x23 = .instr (.cpy .g2w 10 11 12 3 2) ∧
    decodeS 0xCC003080 0x1081 = .instr (.wload 1 0x08 1 false 3 4) ∧
    decodeS 0xCC006000 0x4140 = .instr (.wload 0 0x14 0 true 6 0) ∧
    decodeS 0xCC07F000 0x45 = .instr (.wload 5 0x04 0 false 127 0) ∧
    decodeS 0xD0000000 0xFFFFFF00 = .instr (.waitc 0 255 255 255) ∧
    decodeS 0xD0206001 0x0 = .instr (.waitr .rs 6) ∧
    decodeS 0xD407F0A0 0x0 = .instr (.sphint .full 127 5) ∧
    decodeS 0xD4003080 0x2 = .instr (.sphint .off 3 4) ∧
    decodeS 0xD81840A0 0x0 = .instr (.stepBegin 3 4 5) ∧
    decodeS 0xD83030E1 0x0 = .instr (.stepProg 6 3 7) ∧
    decodeS 0xD8403002 0x0 = .instr (.stepEnd 8 3) := by decide

/-- Special registers and privileged forms (R50, R51, R249, R325 to R327, R339). -/
theorem test_decode_system :
    decodeS 0xDC600020 0x0 = .instr (.rdsr 12 0x020) ∧
    decodeS 0xDFFFF020 0x0 = .instr (.wrsr 127 0x020) ∧
    decodeS 0xDFF831B8 0x0 = .instr (.wrsr 3 0x1B8) ∧
    decodeS 0xE0184000 0x0 = .instr (.tagset 3 4) ∧
    decodeS 0xE0185001 0x0 = .instr (.tagkill 3 5) ∧
    decodeS 0xE01840A2 0x102A = .instr (.ctxsave true 3 4 5 0x2A) ∧
    decodeS 0xE0184003 0x2A = .instr (.ctxload 3 4 0x2A) ∧
    decodeS 0xE018A164 0x4 = .instr (.mappgPool 3 10 11) ∧
    decodeS 0xE018A004 0xA = .instr (.mappgUnmap .m2 3 10) ∧
    decodeS 0xE018A164 0x1 = .instr (.mappgMap .k64 3 10 11) ∧
    decodeS 0xE0180005 0x0 = .instr (.privqTake 3) ∧
    decodeS 0xE0184005 0x1 = .instr (.privqResume 3 4) ∧
    decodeS 0xE0184005 0x2 = .instr (.privqEnd 3 4) := by decide

/-- Lane arithmetic as the spec prints it (R58 to R63). -/
theorem test_decode_lanes :
    decodeL 0x00020000 0x400018 0x0 = .instr (.vadd ⟨⟨0, false⟩, .s32, 0, 0, 2, ⟨0, .last⟩, ⟨0, .keep⟩, .vec 1 .rest, 0x0⟩) ∧
    decodeL 0x00070000 0x7000002 0x0 = .instr (.vadd ⟨⟨0, false⟩, .s32, 0, 0, 7, ⟨7, .keep⟩, ⟨0, .keep⟩, .dq, 0x0⟩) ∧
    decodeL 0x1A000000 0x1 0x5 = .instr (.vmov ⟨⟨0, false⟩, .s32, 0, 0, 0, ⟨0, .keep⟩, ⟨0, .keep⟩, .imm, 0x5⟩) ∧
    decodeL 0x22040600 0x4800001 0x3FC00000 = .instr (.vfmul ⟨⟨0, false⟩, .f32, 0, 0, 4, ⟨4, .rest⟩, ⟨0, .keep⟩, .imm, 0x3fc00000⟩) ∧
    decodeL 0x20095640 0x9000033 0x0 = .instr (.vfadd ⟨⟨2, true⟩, .f32, 1, 0, 9, ⟨9, .keep⟩, ⟨0, .keep⟩, .kreg 3, 0x0⟩) ∧
    decodeL 0x04030000 0x1008004 0x0 = .instr (.vmad ⟨⟨0, false⟩, .s32, 0, 0, 3, ⟨1, .keep⟩, ⟨2, .keep⟩, .vec 0 .last, 0x0⟩) ∧
    decodeL 0x05060400 0x6000001 0x1010101 = .instr (.vadds ⟨⟨0, false⟩, .s8x4, 0, 0, 6, ⟨6, .keep⟩, ⟨0, .keep⟩, .imm, 0x1010101⟩) ∧
    decodeL 0x16080300 0x4000013 0x0 = .instr (.vdiv ⟨⟨0, false⟩, .n16x2, 0, 0, 8, ⟨4, .keep⟩, ⟨0, .keep⟩, .kreg 1, 0x0⟩) ∧
    decodeL 0x19055001 0x1000024 0x0 = .instr (.vsel ⟨⟨2, true⟩, .s32, 0, 1, 5, ⟨1, .keep⟩, ⟨0, .keep⟩, .vec 2 .last, 0x0⟩) ∧
    decodeL 0x230A06C0 0xB0320D4 0x0 = .instr (.vfma ⟨⟨0, false⟩, .f32, 3, 0, 10, ⟨11, .keep⟩, ⟨12, .rest⟩, .vec 13 .last, 0x0⟩) ∧
    decodeL 0x2B020800 0x24 0x0 = .instr (.vfsqrt ⟨⟨0, false⟩, .bf16x2, 0, 0, 2, ⟨0, .keep⟩, ⟨0, .keep⟩, .vec 2 .last, 0x0⟩) := by decide

/-- Conversions and predicate writers as the spec prints them (R104 to R110). -/
theorem test_decode_conversions :
    decodeL 0x43090904 0x1000023 0x0 = .instr (.vqnt ⟨⟨0, false⟩, .e4m3x4, 0, 4, 9, ⟨1, .keep⟩, ⟨0, .keep⟩, .kreg 2, 0x0⟩) ∧
    decodeL 0x41070640 0x1000028 0x8 = .instr (.vpack ⟨⟨0, false⟩, .f32, 1, 0, 7, ⟨1, .keep⟩, ⟨0, .keep⟩, .vec 2 .rest, 0x8⟩) ∧
    decodeL 0x42080902 0x90 0x7 = .instr (.vunpk ⟨⟨0, false⟩, .e4m3x4, 0, 2, 8, ⟨0, .keep⟩, ⟨0, .keep⟩, .vec 9 .keep, 0x7⟩) ∧
    decodeL 0x40080600 0x90 0x0 = .instr (.vcvt ⟨⟨0, false⟩, .f32, 0, 0, 8, ⟨0, .keep⟩, ⟨0, .keep⟩, .vec 9 .keep, 0x0⟩) ∧
    decodeL 0x44080902 0x1000023 0x0 = .instr (.vdqnt ⟨⟨0, false⟩, .e4m3x4, 0, 2, 8, ⟨1, .keep⟩, ⟨0, .keep⟩, .kreg 2, 0x0⟩) ∧
    decodeL 0x53010001 0x1 0x20 = .instr (.pset ⟨⟨0, false⟩, .s32, 0, 1, 1, ⟨0, .keep⟩, ⟨0, .keep⟩, .imm, 0x20⟩) ∧
    decodeL 0x50010002 0x1000020 0x0 = .instr (.vcmp ⟨⟨0, false⟩, .s32, 0, 2, 1, ⟨1, .keep⟩, ⟨0, .keep⟩, .vec 2 .keep, 0x0⟩) ∧
    decodeL 0x51010602 0x1000020 0x0 = .instr (.vfcmp ⟨⟨0, false⟩, .f32, 0, 2, 1, ⟨1, .keep⟩, ⟨0, .keep⟩, .vec 2 .keep, 0x0⟩) ∧
    decodeL 0x52010001 0x200C000 0x0 = .instr (.plogic ⟨⟨0, false⟩, .s32, 0, 1, 1, ⟨2, .keep⟩, ⟨3, .keep⟩, .vec 0 .keep, 0x0⟩) ∧
    decodeL 0x54010000 0x2000000 0x0 = .instr (.pfirst ⟨⟨0, false⟩, .s32, 0, 0, 1, ⟨2, .keep⟩, ⟨0, .keep⟩, .vec 0 .keep, 0x0⟩) := by decide

/-- Control of paths, votes and returns as the spec prints them (R125 to R137). -/
theorem test_decode_paths :
    decodeL 0x70000001 0x0 0x30009 = .instr (.bdiv ⟨⟨0, false⟩, .s32, 0, 1, 0, ⟨0, .keep⟩, ⟨0, .keep⟩, .vec 0 .keep, 0x30009⟩) ∧
    decodeL 0x71000000 0x0 0x0 = .instr (.join ⟨⟨0, false⟩, .s32, 0, 0, 0, ⟨0, .keep⟩, ⟨0, .keep⟩, .vec 0 .keep, 0x0⟩) ∧
    decodeL 0x72000002 0x0 0x70003 = .instr (.bloop ⟨⟨0, false⟩, .s32, 0, 2, 0, ⟨0, .keep⟩, ⟨0, .keep⟩, .vec 0 .keep, 0x70003⟩) ∧
    decodeL 0x73000000 0x0 0x0 = .instr (.lend ⟨⟨0, false⟩, .s32, 0, 0, 0, ⟨0, .keep⟩, ⟨0, .keep⟩, .vec 0 .keep, 0x0⟩) ∧
    decodeL 0x7400000B 0x0 0x0 = .instr (.lkill ⟨⟨0, false⟩, .s32, 0, 11, 0, ⟨0, .keep⟩, ⟨0, .keep⟩, .vec 0 .keep, 0x0⟩) ∧
    decodeL 0x75000000 0x0 0x0 = .instr (.vbar ⟨⟨0, false⟩, .s32, 0, 0, 0, ⟨0, .keep⟩, ⟨0, .keep⟩, .vec 0 .keep, 0x0⟩) ∧
    decodeL 0x76000022 0x0 0x0 = .instr (.vote ⟨⟨0, false⟩, .s32, 0, 34, 0, ⟨0, .keep⟩, ⟨0, .keep⟩, .vec 0 .keep, 0x0⟩) ∧
    decodeL 0x77000004 0x70 0x0 = .instr (.rput ⟨⟨0, false⟩, .s32, 0, 4, 0, ⟨0, .keep⟩, ⟨0, .keep⟩, .vec 7 .keep, 0x0⟩) ∧
    decodeL 0x78000000 0x0 0x70000 = .instr (.buni ⟨⟨0, false⟩, .s32, 0, 0, 0, ⟨0, .keep⟩, ⟨0, .keep⟩, .vec 0 .keep, 0x70000⟩) := by decide

/-- Lane memory instructions as the spec prints them (R64, R118 to R120, R204, R205, R207, R211). -/
theorem test_decode_laneMemory :
    decodeL 0x80052006 0x1000023 0x0 = .instr (.vld ⟨⟨1, false⟩, .s32, 0, 6, 5, ⟨1, .keep⟩, ⟨0, .keep⟩, .kreg 2, 0x0⟩) ∧
    decodeL 0x80050006 0x1400001 0x1000 = .instr (.vld ⟨⟨0, false⟩, .s32, 0, 6, 5, ⟨1, .last⟩, ⟨0, .keep⟩, .imm, 0x1000⟩) ∧
    decodeL 0x8006000C 0x2000033 0x0 = .instr (.vld ⟨⟨0, false⟩, .s32, 0, 12, 6, ⟨2, .keep⟩, ⟨0, .keep⟩, .kreg 3, 0x0⟩) ∧
    decodeL 0x81002006 0x101E023 0x0 = .instr (.vst ⟨⟨1, false⟩, .s32, 0, 6, 0, ⟨1, .keep⟩, ⟨7, .rest⟩, .kreg 2, 0x0⟩) ∧
    decodeL 0x82050006 0x1000023 0x0 = .instr (.vldsp ⟨⟨0, false⟩, .s32, 0, 6, 5, ⟨1, .keep⟩, ⟨0, .keep⟩, .kreg 2, 0x0⟩) ∧
    decodeL 0x83000006 0x101C023 0x0 = .instr (.vstsp ⟨⟨0, false⟩, .s32, 0, 6, 0, ⟨1, .keep⟩, ⟨7, .keep⟩, .kreg 2, 0x0⟩) ∧
    decodeL 0x84080606 0x1024023 0x0 = .instr (.vatom ⟨⟨0, false⟩, .f32, 0, 6, 8, ⟨1, .keep⟩, ⟨9, .keep⟩, .kreg 2, 0x0⟩) ∧
    decodeL 0x85030056 0x2010013 0x0 = .instr (.vatomsp ⟨⟨0, false⟩, .s32, 1, 22, 3, ⟨2, .keep⟩, ⟨4, .keep⟩, .kreg 1, 0x0⟩) ∧
    decodeL 0x86100002 0x13 0x400 = .instr (.vldblk ⟨⟨0, false⟩, .s32, 0, 2, 16, ⟨0, .keep⟩, ⟨0, .keep⟩, .kreg 1, 0x400⟩) ∧
    decodeL 0x87000002 0x40013 0x400 = .instr (.vstblk ⟨⟨0, false⟩, .s32, 0, 2, 0, ⟨0, .keep⟩, ⟨16, .keep⟩, .kreg 1, 0x400⟩) ∧
    decodeL 0x8800000E 0x1000023 0x0 = .instr (.vpref ⟨⟨0, false⟩, .s32, 0, 14, 0, ⟨1, .keep⟩, ⟨0, .keep⟩, .kreg 2, 0x0⟩) ∧
    decodeL 0x8900000B 0x0 0x0 = .instr (.vfence ⟨⟨0, false⟩, .s32, 0, 11, 0, ⟨0, .keep⟩, ⟨0, .keep⟩, .vec 0 .keep, 0x0⟩) := by decide

/-- Matrix instructions and register control as the spec prints them (R114 to R117, R198, R292 to R300). -/
theorem test_decode_matrix :
    decodeL 0xA0000000 0x4000013 0x12 = .instr (.mma ⟨⟨0, false⟩, .s32, 0, 0, 0, ⟨4, .keep⟩, ⟨0, .keep⟩, .kreg 1, 0x12⟩) ∧
    decodeL 0xA0000000 0xFF000013 0x813 = .instr (.mma ⟨⟨0, false⟩, .s32, 0, 0, 0, ⟨255, .keep⟩, ⟨0, .keep⟩, .kreg 1, 0x813⟩) ∧
    decodeL 0xA1080804 0xC400000 0x12 = .instr (.mdrain ⟨⟨0, false⟩, .bf16x2, 0, 4, 8, ⟨12, .last⟩, ⟨0, .keep⟩, .vec 0 .keep, 0x12⟩) ∧
    decodeL 0xA2000901 0x33 0x12 = .instr (.mdrsp ⟨⟨0, false⟩, .e4m3x4, 0, 1, 0, ⟨0, .keep⟩, ⟨0, .keep⟩, .kreg 3, 0x12⟩) ∧
    decodeL 0xA3000000 0x0 0x15 = .instr (.mzero ⟨⟨0, false⟩, .s32, 0, 0, 0, ⟨0, .keep⟩, ⟨0, .keep⟩, .vec 0 .keep, 0x15⟩) ∧
    decodeL 0xB0100001 0x1 0x8 = .instr (.vlife ⟨⟨0, false⟩, .s32, 0, 1, 16, ⟨0, .keep⟩, ⟨0, .keep⟩, .imm, 0x8⟩) ∧
    decodeL 0xB1000000 0x0 0x0 = .instr (.vnop ⟨⟨0, false⟩, .s32, 0, 0, 0, ⟨0, .keep⟩, ⟨0, .keep⟩, .vec 0 .keep, 0x0⟩) ∧
    decodeL 0xB2FF0000 0x1 0xFFFFFF00 = .instr (.vwaitc ⟨⟨0, false⟩, .s32, 0, 0, 255, ⟨0, .keep⟩, ⟨0, .keep⟩, .imm, 0xffffff00⟩) ∧
    decodeL 0xB3030000 0x1 0x0 = .instr (.kpop ⟨⟨0, false⟩, .s32, 0, 0, 3, ⟨0, .keep⟩, ⟨0, .keep⟩, .imm, 0x0⟩) ∧
    decodeL 0xB3040000 0x2 0x0 = .instr (.kpop ⟨⟨0, false⟩, .s32, 0, 0, 4, ⟨0, .keep⟩, ⟨0, .keep⟩, .dq, 0x0⟩) ∧
    decodeL 0xB4050001 0x90 0x0 = .instr (.kfrom ⟨⟨0, false⟩, .s32, 0, 1, 5, ⟨0, .keep⟩, ⟨0, .keep⟩, .vec 9 .keep, 0x0⟩) := by decide

/-- The other integer and movement rows: their opcodes of R65, with v1 and v2 in the slots of R58. -/
theorem test_decode_laneInts :
    decodeL 0x01030000 0x1000020 0x0 = .instr (.vsub ⟨⟨0, false⟩, .s32, 0, 0, 3, ⟨1, .keep⟩, ⟨0, .keep⟩, .vec 2 .keep, 0x0⟩) ∧
    decodeL 0x02030000 0x1000020 0x0 = .instr (.vmul ⟨⟨0, false⟩, .s32, 0, 0, 3, ⟨1, .keep⟩, ⟨0, .keep⟩, .vec 2 .keep, 0x0⟩) ∧
    decodeL 0x03030000 0x1000020 0x0 = .instr (.vmulh ⟨⟨0, false⟩, .s32, 0, 0, 3, ⟨1, .keep⟩, ⟨0, .keep⟩, .vec 2 .keep, 0x0⟩) ∧
    decodeL 0x06030000 0x1000020 0x0 = .instr (.vsubs ⟨⟨0, false⟩, .s32, 0, 0, 3, ⟨1, .keep⟩, ⟨0, .keep⟩, .vec 2 .keep, 0x0⟩) ∧
    decodeL 0x07030000 0x1000020 0x0 = .instr (.vabsd ⟨⟨0, false⟩, .s32, 0, 0, 3, ⟨1, .keep⟩, ⟨0, .keep⟩, .vec 2 .keep, 0x0⟩) ∧
    decodeL 0x08030000 0x1000020 0x0 = .instr (.vmin ⟨⟨0, false⟩, .s32, 0, 0, 3, ⟨1, .keep⟩, ⟨0, .keep⟩, .vec 2 .keep, 0x0⟩) ∧
    decodeL 0x09030000 0x1000020 0x0 = .instr (.vmax ⟨⟨0, false⟩, .s32, 0, 0, 3, ⟨1, .keep⟩, ⟨0, .keep⟩, .vec 2 .keep, 0x0⟩) ∧
    decodeL 0x0A030000 0x1000020 0x0 = .instr (.vand ⟨⟨0, false⟩, .s32, 0, 0, 3, ⟨1, .keep⟩, ⟨0, .keep⟩, .vec 2 .keep, 0x0⟩) ∧
    decodeL 0x0B030000 0x1000020 0x0 = .instr (.vor ⟨⟨0, false⟩, .s32, 0, 0, 3, ⟨1, .keep⟩, ⟨0, .keep⟩, .vec 2 .keep, 0x0⟩) ∧
    decodeL 0x0C030000 0x1000020 0x0 = .instr (.vxor ⟨⟨0, false⟩, .s32, 0, 0, 3, ⟨1, .keep⟩, ⟨0, .keep⟩, .vec 2 .keep, 0x0⟩) ∧
    decodeL 0x0D030000 0x1000020 0x0 = .instr (.vandn ⟨⟨0, false⟩, .s32, 0, 0, 3, ⟨1, .keep⟩, ⟨0, .keep⟩, .vec 2 .keep, 0x0⟩) ∧
    decodeL 0x0F030000 0x1000020 0x0 = .instr (.vshl ⟨⟨0, false⟩, .s32, 0, 0, 3, ⟨1, .keep⟩, ⟨0, .keep⟩, .vec 2 .keep, 0x0⟩) ∧
    decodeL 0x10030000 0x1000020 0x0 = .instr (.vshr ⟨⟨0, false⟩, .s32, 0, 0, 3, ⟨1, .keep⟩, ⟨0, .keep⟩, .vec 2 .keep, 0x0⟩) ∧
    decodeL 0x11030000 0x1000020 0x0 = .instr (.vsra ⟨⟨0, false⟩, .s32, 0, 0, 3, ⟨1, .keep⟩, ⟨0, .keep⟩, .vec 2 .keep, 0x0⟩) ∧
    decodeL 0x12030000 0x1000020 0x0 = .instr (.vrotr ⟨⟨0, false⟩, .s32, 0, 0, 3, ⟨1, .keep⟩, ⟨0, .keep⟩, .vec 2 .keep, 0x0⟩) ∧
    decodeL 0x17030000 0x1000020 0x0 = .instr (.vrem ⟨⟨0, false⟩, .s32, 0, 0, 3, ⟨1, .keep⟩, ⟨0, .keep⟩, .vec 2 .keep, 0x0⟩) ∧
    decodeL 0x1C030000 0x1000020 0x0 = .instr (.vbfx ⟨⟨0, false⟩, .s32, 0, 0, 3, ⟨1, .keep⟩, ⟨0, .keep⟩, .vec 2 .keep, 0x0⟩) ∧
    decodeL 0x1D030000 0x1000020 0x0 = .instr (.vbfi ⟨⟨0, false⟩, .s32, 0, 0, 3, ⟨1, .keep⟩, ⟨0, .keep⟩, .vec 2 .keep, 0x0⟩) ∧
    decodeL 0x60030000 0x1000020 0x0 = .instr (.vshfl ⟨⟨0, false⟩, .s32, 0, 0, 3, ⟨1, .keep⟩, ⟨0, .keep⟩, .vec 2 .keep, 0x0⟩) ∧
    decodeL 0x0E030000 0x20 0x0 = .instr (.vnot ⟨⟨0, false⟩, .s32, 0, 0, 3, ⟨0, .keep⟩, ⟨0, .keep⟩, .vec 2 .keep, 0x0⟩) ∧
    decodeL 0x13030000 0x20 0x0 = .instr (.vclz ⟨⟨0, false⟩, .s32, 0, 0, 3, ⟨0, .keep⟩, ⟨0, .keep⟩, .vec 2 .keep, 0x0⟩) ∧
    decodeL 0x14030000 0x20 0x0 = .instr (.vpopc ⟨⟨0, false⟩, .s32, 0, 0, 3, ⟨0, .keep⟩, ⟨0, .keep⟩, .vec 2 .keep, 0x0⟩) ∧
    decodeL 0x15030000 0x20 0x0 = .instr (.vbrev ⟨⟨0, false⟩, .s32, 0, 0, 3, ⟨0, .keep⟩, ⟨0, .keep⟩, .vec 2 .keep, 0x0⟩) ∧
    decodeL 0x1B030000 0x20 0x0 = .instr (.vidx ⟨⟨0, false⟩, .s32, 0, 0, 3, ⟨0, .keep⟩, ⟨0, .keep⟩, .vec 2 .keep, 0x0⟩) ∧
    decodeL 0x64030000 0x20 0x0 = .instr (.vscan ⟨⟨0, false⟩, .s32, 0, 0, 3, ⟨0, .keep⟩, ⟨0, .keep⟩, .vec 2 .keep, 0x0⟩) ∧
    decodeL 0x63030000 0x20 0x0 = .instr (.vred ⟨⟨0, false⟩, .s32, 0, 0, 3, ⟨0, .keep⟩, ⟨0, .keep⟩, .vec 2 .keep, 0x0⟩) ∧
    decodeL 0x65030000 0x20 0x0 = .instr (.vcomp ⟨⟨0, false⟩, .s32, 0, 0, 3, ⟨0, .keep⟩, ⟨0, .keep⟩, .vec 2 .keep, 0x0⟩) ∧
    decodeL 0x18030400 0x1014020 0x0 = .instr (.vdot4 ⟨⟨0, false⟩, .s8x4, 0, 0, 3, ⟨1, .keep⟩, ⟨5, .keep⟩, .vec 2 .keep, 0x0⟩) ∧
    decodeL 0x61030000 0x1000001 0x9 = .instr (.vrotl ⟨⟨0, false⟩, .s32, 0, 0, 3, ⟨1, .keep⟩, ⟨0, .keep⟩, .imm, 0x9⟩) ∧
    decodeL 0x62030000 0x1000001 0x9 = .instr (.vbcl ⟨⟨0, false⟩, .s32, 0, 0, 3, ⟨1, .keep⟩, ⟨0, .keep⟩, .imm, 0x9⟩) := by decide

/-- The other floating-point rows: their opcodes of R65 with type F32. -/
theorem test_decode_laneFloats :
    decodeL 0x21030600 0x1000020 0x0 = .instr (.vfsub ⟨⟨0, false⟩, .f32, 0, 0, 3, ⟨1, .keep⟩, ⟨0, .keep⟩, .vec 2 .keep, 0x0⟩) ∧
    decodeL 0x26030600 0x1000020 0x0 = .instr (.vfmin ⟨⟨0, false⟩, .f32, 0, 0, 3, ⟨1, .keep⟩, ⟨0, .keep⟩, .vec 2 .keep, 0x0⟩) ∧
    decodeL 0x27030600 0x1000020 0x0 = .instr (.vfmax ⟨⟨0, false⟩, .f32, 0, 0, 3, ⟨1, .keep⟩, ⟨0, .keep⟩, .vec 2 .keep, 0x0⟩) ∧
    decodeL 0x2A030600 0x1000020 0x0 = .instr (.vfdiv ⟨⟨0, false⟩, .f32, 0, 0, 3, ⟨1, .keep⟩, ⟨0, .keep⟩, .vec 2 .keep, 0x0⟩) ∧
    decodeL 0x33030600 0x1000020 0x0 = .instr (.vfscale ⟨⟨0, false⟩, .f32, 0, 0, 3, ⟨1, .keep⟩, ⟨0, .keep⟩, .vec 2 .keep, 0x0⟩) ∧
    decodeL 0x28030600 0x20 0x0 = .instr (.vfabs ⟨⟨0, false⟩, .f32, 0, 0, 3, ⟨0, .keep⟩, ⟨0, .keep⟩, .vec 2 .keep, 0x0⟩) ∧
    decodeL 0x29030600 0x20 0x0 = .instr (.vfneg ⟨⟨0, false⟩, .f32, 0, 0, 3, ⟨0, .keep⟩, ⟨0, .keep⟩, .vec 2 .keep, 0x0⟩) ∧
    decodeL 0x2C030600 0x20 0x0 = .instr (.vfrsq ⟨⟨0, false⟩, .f32, 0, 0, 3, ⟨0, .keep⟩, ⟨0, .keep⟩, .vec 2 .keep, 0x0⟩) ∧
    decodeL 0x2D030600 0x20 0x0 = .instr (.vfex2 ⟨⟨0, false⟩, .f32, 0, 0, 3, ⟨0, .keep⟩, ⟨0, .keep⟩, .vec 2 .keep, 0x0⟩) ∧
    decodeL 0x2E030600 0x20 0x0 = .instr (.vflg2 ⟨⟨0, false⟩, .f32, 0, 0, 3, ⟨0, .keep⟩, ⟨0, .keep⟩, .vec 2 .keep, 0x0⟩) ∧
    decodeL 0x2F030600 0x20 0x0 = .instr (.vfsinp ⟨⟨0, false⟩, .f32, 0, 0, 3, ⟨0, .keep⟩, ⟨0, .keep⟩, .vec 2 .keep, 0x0⟩) ∧
    decodeL 0x30030600 0x20 0x0 = .instr (.vfcosp ⟨⟨0, false⟩, .f32, 0, 0, 3, ⟨0, .keep⟩, ⟨0, .keep⟩, .vec 2 .keep, 0x0⟩) ∧
    decodeL 0x31030600 0x20 0x0 = .instr (.vfrnd ⟨⟨0, false⟩, .f32, 0, 0, 3, ⟨0, .keep⟩, ⟨0, .keep⟩, .vec 2 .keep, 0x0⟩) ∧
    decodeL 0x32030600 0x20 0x0 = .instr (.vfclass ⟨⟨0, false⟩, .f32, 0, 0, 3, ⟨0, .keep⟩, ⟨0, .keep⟩, .vec 2 .keep, 0x0⟩) ∧
    decodeL 0x24030600 0x1014020 0x0 = .instr (.vfms ⟨⟨0, false⟩, .f32, 0, 0, 3, ⟨1, .keep⟩, ⟨5, .keep⟩, .vec 2 .keep, 0x0⟩) ∧
    decodeL 0x25030600 0x1014020 0x0 = .instr (.vfnma ⟨⟨0, false⟩, .f32, 0, 0, 3, ⟨1, .keep⟩, ⟨5, .keep⟩, .vec 2 .keep, 0x0⟩) := by decide

/-! ## Results, each from a worked example or a table of the spec -/

/-- A test of the next state that an instruction answers. -/
def answers (o : Out) (p : State → Bool) : Bool := match o with | .next t => p t | _ => false

/-- The state after reset with values in scalar registers. -/
def withRegs (rs : List (Nat × Word)) : State :=
  State.reset.mapCur fun g => { g with s := { g.s with regs := rs.foldl (fun v x => put v x.1 x.2) g.s.regs } }

/-- A group that runs one path of the lanes `m`, its registers LIVE in supplied blocks, with the same value in every lane
of a register. -/
def withLanes (m : Mask) (rs : List (Nat × Word32)) : State :=
  State.reset.mapCur fun g => { g with
    running := true
    nregs := 32
    blocks := Vector.replicate 32 .full
    l := { g.l with
      ps0 := some ⟨0, m⟩
      life := Vector.replicate 256 .live
      vregs := rs.foldl (fun v x => put v x.1 (Vector.replicate 128 x.2)) g.l.vregs } }

/-- The value of s3 and the flags after an instruction over s1 and s2. -/
def aluGives (i : Instr) (x y v : Word) (f : Byte) : Bool :=
  answers (exec i (withRegs [(1, x), (2, y)])) fun t => t.sget 3 == v && t.cur.flags == f && t.cur.s.pc == 4

/-- R75, the table of worked divisions. -/
theorem test_divisions :
    aluGives (.div 3 1 2) 7 (-2) (-3) 0 ∧ aluGives (.rem 3 1 2) 7 (-2) 1 0 ∧ aluGives (.div 3 1 2) (-7) 2 (-3) 0 ∧
    aluGives (.rem 3 1 2) (-7) 2 (-1) 0 ∧ aluGives (.divn 3 1 2) (-1) 2 0x7FFFFFFFFFFFFFFF 0 := by decide +kernel
theorem test_division_corners :
    aluGives (.div 3 1 2) 0x8000000000000000 (-1) 0x8000000000000000 flagIO ∧
    aluGives (.rem 3 1 2) 0x8000000000000000 (-1) 0 0 ∧ aluGives (.div 3 1 2) 5 0 (-1) flagDZ ∧
    aluGives (.remn 3 1 2) 5 0 5 flagDZ ∧ aluGives (.div 3 1 2) 0 0 (-1) flagNV := by decide +kernel

/-- R45: an immediate of -8 is sign-extended; R77: LUI sign-extends its 32-bit word. -/
theorem test_immediates :
    aluGives (.addi 3 1 0xFF8) 4 0 (-4) 0 ∧ aluGives (.lui 3 0x40000) 0 0 0xFFFFFFFF80000000 0 := by decide +kernel

/-- Lane 0 of a register and the flags after an L-stream instruction has issued and completed. -/
def laneGives (s : State) (i : Instr) (r : Nat) (v : Word32) (f : Byte) : Bool :=
  answers (exec i s) fun t => answers (exec (.lInstructionComplete 0) t) fun u =>
    look (look u.cur.l.vregs r (Vector.replicate 128 0)) 0 0 == v && u.cur.flags == f

/-- R96, the note on VADDS: elements 2 and 3 hold 127 and clamp. -/
theorem test_vadds :
    laneGives (withLanes 1 [(6, 0x7F7F0080)])
      (.vadds { plainOp .s8x4 with vd := 6, a := ⟨6, .keep⟩, c := .imm, w2 := 0x01010101 }) 6 0x7F7F0181 flagSA = true := by decide +kernel

/-- R107, the second row of the table of quantisations: -1.25 becomes 0xBA in element 1. -/
theorem test_vqnt :
    laneGives ((withLanes 1 [(2, 0xBFA00000), (9, 0x79)]).mapCur fun g => { g with l := { g.l with k := put g.l.k 2 0x3F800000 } })
      (.vqnt { plainOp .e4m3x4 with mods := 5, vd := 9, a := ⟨2, .keep⟩, c := .kreg 2 }) 9 0xBA79 0 = true := by decide +kernel

/-- R105, the row of VUNPK: the high elements 0x01 and 0x7E become F16 0x1800 and 0x5F00, both exact. -/
theorem test_vunpk :
    laneGives (withLanes 1 [(9, 0x7E01BA79)]) (.vunpk { plainOp .e4m3x4 with mods := 2, vd := 8, c := .vec 9 .keep, w2 := 7 })
      8 0x5F001800 0 = true := by decide +kernel

/-- R17, R18: a last-use hint leaves its source DEAD, and a destination ends LIVE. -/
theorem test_hints :
    answers (exec (.vadd { plainOp .s32 with vd := 2, a := ⟨0, .last⟩, c := .vec 1 .rest }) (withLanes 1 []))
      (fun t => t.cur.vlife 0 == .dead && t.cur.vlife 1 == .rest && t.cur.vlife 2 == .live) = true := by decide +kernel

/-- R61: a lane that the guard does not select keeps its value; R110: PSET.below p1, #32 sets p1 in lanes 0 to 31. -/
theorem test_pset_below :
    answers (exec (.pset { plainOp .s32 with mods := 1, vd := 1, c := .imm, w2 := 32 }) (withLanes (BitVec.allOnes 128) []))
      (fun t => look t.cur.l.preds 1 0 == 0xFFFFFFFF#128) = true := by decide +kernel

/-- R80: a register jump to an address that is no multiple of 4 has no effect and faults; without a handler the grid ends
with the code of ALIGN (R312, R147). -/
theorem test_jr_align :
    answers (exec (.jr 1) (withRegs [(1, 6)])) (fun t => t.cur.s.pc == 0 &&
      (t.grids.map fun g => g.ending.map fun e => (e.outcome, e.code)) == [some (1, 0x07)]) = true := by decide +kernel

/-- A step from reset with a placed word fetches and runs it: ADDI s4, s4, #-8 (R45, R57). -/
theorem test_step_runs :
    answers (step (State.reset.withFetchWord 32 0x08204FF8)) (fun t => t.sget 4 == 0xFFFFFFFFFFFFFFF8 && t.cur.s.pc == 4) = true := by
  decide +kernel

/-- R2, R88, R89: a doubleword stored stands little-endian in memory after its response, and a byte load reads it. -/
def dataPage : State := (withRegs [(1, 0x1000), (2, 0x8877665544332211)]).mapCode 0x1000 0x2000
theorem test_store_bytes :
    answers (exec (.st64 2 1 8) dataPage) (fun t => answers (exec (.storeResponse 0 0) t) fun v => answers (exec (.storeResponse 0 0) v) fun u =>
      u.mem.read 0x2008 8 == [0x11, 0x22, 0x33, 0x44, 0x55, 0x66, 0x77, 0x88] && u.cur.accs == []) = true := by decide +kernel
theorem test_load_extends :
    answers (exec (.ldS8 5 1 15) { dataPage with mem := [(0x200F, 0x88)] }) (fun t => answers (exec (.loadResponse 0 0) t) fun u =>
      u.sget 5 == 0xFFFFFFFFFFFFFF88) = true := by decide +kernel

/-! ## Witnesses: states and operands that meet the hypotheses of each statement -/

/-- The conditions of `SReady` and `LReady`, as a test. -/
def readyS (s : State) (need : Level) (rs : List SReg) (free : Bool) : Bool :=
  rs.all s.cur.sLegal && decide (Level.rank need ≤ Level.rank s.cur.level) && !s.cur.sHeld && !rs.any s.cur.sBusy &&
    (free || !s.cur.sWaits)

theorem sready {s : State} {need : Level} {rs : List SReg} {free : Bool} (h : readyS s need rs free = true) :
    SReady s need rs free := by
  simp only [readyS, Bool.and_eq_true, List.all_eq_true, decide_eq_true_eq, Bool.not_eq_true', List.any_eq_false, Bool.or_eq_true] at h
  obtain ⟨⟨⟨⟨h1, h2⟩, h3⟩, h4⟩, h5⟩ := h
  exact ⟨h1, h2, h3, fun r hr => by simpa using h4 r hr, h5⟩

def readyL (s : State) (u : LUse) (p : Path) : Bool :=
  s.cur.path s.ps1 == some p && (u.reads.map Prod.fst ++ u.writes).all s.cur.vLegal &&
    ((u.pops == 0 && u.pushes == 0) || s.cur.converged) &&
    (u.reads.all fun x => s.cur.vlife x.1 == .live || s.cur.vlife x.1 == .rest) && !s.cur.lHeld && !s.cur.lBusy u &&
    ((u.free && u.pops == 0 && u.pushes == 0) || !s.cur.lWaits) && decide (s.cur.rq.length + u.pushes ≤ 16) &&
    (u.reads.map Prod.fst ++ u.writes).all s.cur.powered

theorem lready {s : State} {u : LUse} {p : Path} {vs : List Word} {g : Group} (h : readyL s u p = true)
    (hv : s.cur.pops u.pops = .got vs g) : LReady s u p vs g := by
  simp only [readyL, Bool.and_eq_true, List.all_eq_true, decide_eq_true_eq, Bool.not_eq_true', Bool.or_eq_true, beq_iff_eq] at h
  obtain ⟨⟨⟨⟨⟨⟨⟨⟨h1, h2⟩, h3⟩, h4⟩, h5⟩, h6⟩, h7⟩, h8⟩, h9⟩ := h
  exact ⟨h1, h2, h3, h4, hv, h5, h6, by rcases h7 with ⟨⟨a, b⟩, c⟩ | h <;> [exact .inl ⟨a, b, c⟩; exact .inr h], h8, h9⟩

/-- The next state of an instruction, or reset. -/
def after (o : Out) : State := match o with | .next t => t | _ => State.reset

theorem pairOf {α β : Type} {p : α × β} {a : α} {b : β} (h : p.1 = a) (g : p.2 = b) : p = (a, b) := Prod.ext h g
theorem transOf {t : Translated} {r : MemFault ⊕ Nat} {s : State} (h : t.res = r) (g : t.st = s) : t = ⟨r, s⟩ := by
  cases t; simp_all

/-- Firmware on a context with a fault vector at 0x10000, in memory at 0x2000, whose entries name a handler with IMM, and
with a full record queue. -/
def vectored : State :=
  ({ State.reset with mem := (List.range 32).foldl (fun m c => m.write (0x2000 + 8 * c) (bytesOf 8 0xFF00000000004001)) [] }.mapCtx 0
    fun c => { c with fvec := 0x10000, frqt := 256 }).mapCode 0x10000 0x2000

def vecEntry : Word := 0xFF00000000004000

/-- The group at a level, with values in scalar registers. -/
def withCur (s : State) (f : Group → Group) : State := s.mapCur f
def put1 (v : Word) (s : State) : State := withCur s fun g => { g with s := g.s.put 1 v }

theorem firmware_interruptible : Interruptible vectored := by constructor <;> decide +kernel
/-- A page of memory that the firmware reads at 0x20000, and writes. -/
def paged (m : Cells) (va : Word) : State := { put1 va (vectored.mapCode 0x20000 0x3000) with mem := m }

/-- Firmware that runs a path of the lanes `m` over register blocks that are FULL, in a team with a window of one bank that is
FULL and with tag 0, ACTIVE with a loaded format of bytes. -/
def bench (m : Mask) (rs : List (Nat × Word32)) : State :=
  { withLanes m rs with teams := [{ Team.firmware with units := 1, spbytes := 8192, tags := 1 }] }.mapCore 0 fun c =>
    { c with
      banks := put c.banks 0 .full
      tags := put c.tags 0 { Tag.free with st := .active, bfmt := 4, issued := some (4, 0, false) } }

def benchTeam : Team := { Team.firmware with units := 1, spbytes := 8192, tags := 1 }

/-- Another group of the same team. -/
def other : Group := { Group.start with uid := 1, rank := 1, iu := 1, seq := 3 }

/-- One lane's scalar access of n bytes of physical memory in flight. -/
def flying (k : AccKind) (dest : BitVec 8) (peer : Bool) (r : Req) : Access :=
  ⟨0, false, false, 0, k, dest, .rlx, .grp, peer, [r], [], 0, none, 0, false, .none, 0, [], [], false⟩

/-- It is the only access of its group. -/
theorem flying_only {s : State} {k : AccKind} {dest : BitVec 8} {peer : Bool} {r : Req} (h : s.cur.accs = [flying k dest peer r])
    (hr : r.lane = 255 ∧ r.ans = none ∧ r.err = none) (hs : s.cur.seen = []) : OnlyAccess s (flying k dest peer r) r :=
  ⟨h, rfl, ⟨rfl, hr.1⟩, ⟨rfl, hr.2⟩, by simp [flying], hs⟩

def parkedStop : Stop := ⟨.exact, 0x05, 1, 1, false, false, 4, [], 0, 0, none, 0, 0, true⟩

/-- A launch record: one gang of one team of one group of 8 registers. -/
def record : List Byte :=
  List.replicate 20 0 ++ bytesOf 4 1 ++ bytesOf 4 1 ++ bytesOf 4 1 ++ [1, 1, 0, 0, 0, 0, 0, 0] ++ List.replicate 88 0

/-- Firmware in context `ctx`, beside context 1 of a partition that owns cluster 0. -/
def twoContexts (ctx : Nat) (v : Word) : State :=
  put1 v { State.reset with
    ctxs := [{ Ctx.fresh 0 0 0 with st := .run }, { Ctx.fresh 1 0 0 with st := .run }]
    parts := put State.reset.parts 0 { Part.free with clusters := 1, live := true }
    grids := [{ Grid.firmware with ctx := ctx }] }

/-- The hypotheses of O1. -/
theorem witness_AluForms :
    SReady (withRegs [(1, 0x8000000000000000), (2, -1)]) .user [3, 1, 2] true ∧ SReady State.reset .user [127, 127, 127] true ∧
    SReady State.reset .user [95, 0] true ∧
    (withRegs [(1, 0x8000000000000000), (2, -1)]).sget 1 = 0x8000000000000000#64 ∧
    (withRegs [(1, 0x8000000000000000), (2, -1)]).sget 2 = BitVec.allOnes 64 ∧ State.reset.sget 2 = 0 ∧
    ((0x041800F5 : Word32).extractLsb' 26 6).toNat = 1 ∧ ((0x041800F5 : Word32).extractLsb' 0 5).toNat = 21 ∧
    (0x041800F5 : Word32).extractLsb' 5 7 ≠ 0 := by
  refine ⟨sready ?_, sready ?_, sready ?_, ?_⟩ <;> decide +kernel

/-- The hypotheses of O2. -/
theorem witness_ImmediateForms :
    SReady State.reset .user [3, 127] true ∧ SReady State.reset .user [127] true ∧
    ((0x18000040 : Word32).extractLsb' 26 6).toNat = 6 ∧ (0x18000040 : Word32).extractLsb' 6 6 ≠ 0 ∧
    ((0x20000FC0 : Word32).extractLsb' 26 6).toNat = 8 ∧ (0x20000FC0 : Word32).extractLsb' 6 6 ≠ 0 ∧
    ((0x2C000020 : Word32).extractLsb' 26 6).toNat = 0x0B ∧ (0x2C000020 : Word32).extractLsb' 5 14 ≠ 0 := by
  refine ⟨sready ?_, sready ?_, ?_⟩ <;> decide +kernel

/-- The hypotheses of O3. -/
theorem witness_Transfers :
    SReady (withRegs [(1, 4)]) .user [1] true ∧ (withRegs [(1, 4)]).sget 1 &&& 3 = 0 ∧ SReady State.reset .user [] true ∧
    SReady State.reset .user [95] true ∧ State.reset.sget 95 &&& 3 = 0 ∧ SReady (withRegs [(1, 4)]) .user [1, 95] true ∧
    (let s := put1 6 vectored
     let u := s.queueMem (s.sStop 0x07 0 0 [⟨255, ⟨0x07, 0, 6, 0⟩⟩] 0)
     s.sget 1 = 6 ∧ SReady s .user [1, 95] true ∧ s.cur.sWaits = false ∧ Interruptible s ∧ (6 : Word) &&& 3 ≠ 0 ∧ u.cur = s.cur ∧
     u.strictOf u.cur = false ∧ u.vectorEntry (u.coreOf u.cur) (u.ctxOf u.cur) 0x07 = (some (vecEntry, true), u) ∧
     u.canEnter = true) ∧
    ((0x43800000 : Word32).extractLsb' 26 6).toNat = 0x10 ∧ ((0x43800000 : Word32).extractLsb' 23 3).toNat = 7 ∧
    ((0x43010000 : Word32).extractLsb' 23 3).toNat = 6 ∧ (0x43010000 : Word32).extractLsb' 16 7 ≠ 0 ∧
    ((0x4C000003 : Word32).extractLsb' 26 6).toNat = 0x13 ∧ 2 < ((0x4C000003 : Word32).extractLsb' 0 5).toNat ∧
    ((0x507F0000 : Word32).extractLsb' 26 6).toNat = 0x14 ∧ (0x507F0000 : Word32).extractLsb' 16 7 = 127 := by
  refine ⟨sready ?_, ?_, sready ?_, sready ?_, ?_,
    sready ?_,
    ⟨?_, sready ?_, ?_, by constructor <;> decide +kernel, ?_,
      State.queueMem_full rfl rfl (c := (vectored.ctxOf vectored.cur)) ?_ ?_, ?_,
      pairOf ?_ (State.vectorEntry_held ?_), ?_⟩, ?_⟩ <;> decide +kernel

/-- The hypotheses of O4. -/
theorem witness_JoinsAndCounterWaits :
    SReady State.reset .user [] true ∧ SReady State.reset .user [] false ∧ State.reset.cur.lIdle = true ∧
    State.reset.cur.flags &&& State.reset.cur.fmask = 0 ∧
    (let s := withCur (withRegs [(6, 2)]) fun g => { g with tokens := [⟨.ld, 0, false⟩, ⟨.rs, 1, false⟩, ⟨.rs, 2, false⟩] }
     SReady s .user [] true ∧ s.cur.count .ld ≤ (1 : Byte).toNat ∧ s.cur.count .st ≤ (0 : Byte).toNat ∧
     s.cur.count .cp ≤ (0 : Byte).toNat ∧ s.cur.count .mx ≤ (0 : Byte).toNat ∧ SReady s .user [6] true ∧
     s.cur.count .rs ≤ (s.sget 6).toNat) ∧
    (let s := withCur vectored fun g => { g with flags := flagDZ, fmask := flagDZ ||| flagIO }
     SReady s .user [] false ∧ s.cur.lIdle = true ∧ s.cur.flags &&& s.cur.fmask ≠ 0 ∧ Interruptible s ∧ s.joinS.canEnter = true ∧
     s.joinS.vectorEntry (s.coreOf s.cur) (s.ctxOf s.cur) 0x11 = (some (vecEntry, true), s.joinS)) := by
  refine ⟨sready ?_, sready ?_, ?_, ?_, ⟨sready ?_, ?_, ?_, ?_, ?_, sready ?_, ?_⟩, sready ?_, ?_, ?_, by constructor <;> decide +kernel,
    ?_, pairOf ?_ (State.vectorEntry_held ?_)⟩ <;> decide +kernel

/-- The hypotheses of O5. -/
theorem witness_QueueForms :
    (let s := withCur State.reset fun g => { g with dq := List.replicate 15 ⟨false, false, 0, 0, 0⟩, rq := [7, 8] }
     SReady s .user [1] false ∧ SReady s .user [] false ∧ s.cur.handler.isSome = false ∧ s.cur.dq.length < 16 ∧
     s.cur.rq = 7 :: [8] ∧ SReady s .user [2, 1] false ∧ (1#7 : SReg) ≠ 2#7) ∧
    (let s := withCur State.reset fun g => { g with dq := List.replicate 16 ⟨false, false, 0, 0, 0⟩ }
     SReady s .user [1] false ∧ SReady s .user [127, 127] false ∧ 16 ≤ s.cur.dq.length ∧ s.cur.rq = []) := by
  refine ⟨⟨sready ?_, sready ?_, ?_, ?_, ?_,
    sready ?_, ?_⟩, sready ?_, sready ?_, ?_⟩ <;> decide +kernel

/-- The hypotheses of O6. -/
theorem witness_Exceptions :
    Interruptible vectored ∧ SReady vectored .user [1] false ∧ vectored.cur.lIdle = true ∧ vectored.canEnter = true ∧
    (vectored.joinS.nextPc 4).vectorEntry (vectored.coreOf vectored.cur) (vectored.ctxOf vectored.cur) 0x1B =
      (some (vecEntry, true), vectored.joinS.nextPc 4) ∧ (vectored.joinS.nextPc 4).canEnter = true ∧
    SReady vectored .user [] false ∧ vectored.debugging vectored.cur = false ∧
    (vectored.joinS.nextPc 4).vectorEntry (vectored.coreOf vectored.cur) (vectored.ctxOf vectored.cur) 0x1C =
      (some (vecEntry, true), vectored.joinS.nextPc 4) ∧
    vectored.vectorEntry (vectored.coreOf vectored.cur) (vectored.ctxOf vectored.cur) 0x01 = (some (vecEntry, true), vectored) ∧
    vectored.cur.sWaits = false ∧ vectored.cur.lWaits = false ∧
    (let s := { vectored with dev := { vectored.dev with dbgPort := 3 } }
     SReady s .user [] false ∧ s.cur.lIdle = true ∧ s.debugging s.cur = true ∧ Interruptible s) ∧
    (∃ g, (withCur vectored fun g => { g with wait := .debug }).group? 0 = some g ∧ g.wait = .debug) := by
  refine ⟨firmware_interruptible, sready ?_, ?_, ?_,
    pairOf ?_ (State.vectorEntry_held ?_), ?_, sready ?_,
    ?_, pairOf ?_ (State.vectorEntry_held ?_),
    pairOf ?_ (State.vectorEntry_held ?_), ?_, ?_,
    ⟨sready ?_, ?_, ?_, by constructor <;> decide +kernel⟩, _, rfl, rfl⟩ <;> decide +kernel

/-- A group in a handler that a SYSCALL entered. -/
def inHandler (uid : Nat) : Handler :=
  ⟨⟨.exact, 0x1B, 0, 0, false, false, 4, [], 0, 0, none, 0, uid, false⟩, { LState.start with ps0 := some ⟨3, 1⟩ }, none, true, false,
    4, 0, .user, none, .none, 0, 0⟩

/-- The hypotheses of O7. -/
theorem witness_Return :
    let s := withCur vectored fun g => { g with level := .super, handler := some (inHandler 0), s := g.s.put 98 8 }
    SReady s .super [] false ∧ s.cur.handler = some (inHandler 0) ∧ s.cur.lIdle = true ∧ s.cur.l.live = (inHandler 0).user.live ∧
    (s.ctxOf s.cur).st ≠ .halting ∧ (∀ pc ws, (inHandler 0).wait ≠ .go pc ws) ∧ (inHandler 0).stop.l = false ∧
    s.sget 98 ≠ (inHandler 0).stop.pc := by
  refine ⟨sready ?_, rfl, ?_, ?_, ?_, (by intro _ _ h; cases h),
    ?_, ?_⟩ <;> decide +kernel

/-- Firmware as rank 1 of a team of two groups with barriers, with rounds open. -/
def inTeam (rank n : Nat) (f : Team → Team) (arrived : List (Nat × Nat)) : State :=
  withCur { State.reset with
    teams := [f { Team.firmware with ngroups := n }]
    gangs := [{ Gang.firmware with arrived := arrived }]
    grids := [{ Grid.firmware with launch := { LaunchRec.firmware with bars := 1, groups := n } }] } fun g => { g with rank := rank }

/-- The hypotheses of O8. -/
theorem witness_LastArrivals :
    (∀ k ∈ [RoundKind.voteAny, .voteAll, .voteSum, .bar],
      let t := { Team.firmware with ngroups := 2, rounds := [⟨0, k, [(0, 5, 3)], 0, [], false⟩] }
      let s := inTeam 1 2 (fun t => { t with rounds := [⟨0, k, [(0, 5, 3)], 0, [], false⟩] }) [(0, 0)]
      let v := s.viewTeam t
      s.team? s.cur.team = some t ∧ s.cur.status = .run ∧ s.cur.lIdle = true ∧ (s.viewOf s.cur).frameOf s.cur.rank = none ∧
      s.barsOf s.cur ≠ 0 ∧ (([(0, 5, 3)] : List (Nat × Word × SReg)).all fun x => x.1 ≠ s.cur.rank) = true ∧
      s.cur.rank ∈ v.members (v.poolOf s.cur.rank) ∧
      (∀ m ∈ v.members (v.poolOf s.cur.rank), m = s.cur.rank ∨ m ∈ ([(0, 5, 3)] : List (Nat × Word × SReg)).map Prod.fst) ∧
      (t.rounds.find? fun x => x.pool == v.poolOf s.cur.rank) = some ⟨0, k, [(0, 5, 3)], 0, [], false⟩ ∧
      readyS s .user [3, 1] false = true ∧
      (t.tid, s.cur.rank) ∈ s.gangMembers t.gang ∧
      (∀ m ∈ s.gangMembers t.gang, m = (t.tid, s.cur.rank) ∨ m ∈ [(0, 0)]) ∧ (ranksOf t.all).contains s.cur.rank = true ∧
      t.exited.getLsbD s.cur.rank = false) ∧
    (let s := inTeam 0 1 id []
     s.cur.rank ∈ (s.viewOf s.cur).members 0 ∧ (s.teamOf s.cur).rounds = [] ∧
     ∀ m ∈ (s.viewOf s.cur).members 0, m = s.cur.rank) ∧
    (let f : Frame := ⟨0, none, 2, 1, 0, 0, 255, 1, false, 1, 0x20000, 8⟩
     let s := inTeam 1 2 (fun t => { t with frames := [f], divs := [⟨255, [⟨0x4000, 7, 1⟩], [], [0], [], [], 0x20000, 1, false⟩] }) []
     (∀ x, (s.viewOf s.cur).frameOf s.cur.rank = some x → x.slot = none) ∧
     s.cur.rank ∈ (s.viewOf s.cur).members ((s.viewOf s.cur).poolOf s.cur.rank) ∧
     ∀ m ∈ (s.viewOf s.cur).members ((s.viewOf s.cur).poolOf s.cur.rank), m = s.cur.rank) := by
  refine ⟨?_, ?_, ?_, ?_⟩
  · decide +kernel
  · decide +kernel
  · intro x hx
    have h : ((let f : Frame := ⟨0, none, 2, 1, 0, 0, 255, 1, false, 1, 0x20000, 8⟩
      let s := inTeam 1 2 (fun t => { t with frames := [f], divs := [⟨255, [⟨0x4000, 7, 1⟩], [], [0], [], [], 0x20000, 1, false⟩] }) []
      (s.viewOf s.cur).frameOf s.cur.rank).all fun x => x.slot.isNone) = true := by decide +kernel
    dsimp only at h hx
    rw [hx] at h
    simpa using h
  · decide +kernel

/-- The hypotheses of O9. -/
theorem witness_TeamCalls :
    (let s := { paged ((Cells.write [] 0x3000 (bytesOf 8 0x4000 ++ bytesOf 4 7 ++ [1]))) 0x20000 with
        grids := [{ Grid.firmware with launch := { LaunchRec.firmware with bars := 1 } }] }
     let t := Team.firmware
     s.team? s.cur.team = some t ∧ s.cur.status = .run ∧ s.cur.lIdle = true ∧
     s.cur.rank ∈ t.members (t.poolOf s.cur.rank) ∧ SReady s .user [2, 1] false ∧ s.barsOf s.cur ≠ 0 ∧
     State.readTable false 1 (s.sget 1) [] s.joinS = .got [⟨0x4000, 7, 1⟩] s.joinS ∧ s.joinS.teams = s.teams ∧ t.members (t.poolOf s.cur.rank) = [s.cur.rank] ∧
     (t.rounds.find? fun x => x.pool == t.poolOf s.cur.rank) = none ∧ t.frames = []) ∧
    (let f : Frame := ⟨0, none, 1, 0, 0, 0, 255, 1, false, 1, 0x20000, 8⟩
     let dv : Division := ⟨255, [⟨0x4000, 7, 1⟩], [], [0], [], [], 0x20000, 1, false⟩
     let t := { Team.firmware with frames := [f], divs := [dv] }
     let s := inTeam 0 1 (fun t => { t with frames := [f], divs := [dv] }) []
     s.team? s.cur.team = some t ∧ SReady s .user [] false ∧ s.cur.rank ∈ t.members (t.poolOf s.cur.rank) ∧
     t.frameOf s.cur.rank = some f ∧ dv.frames = [f.idx] ∧ dv.deferred = [] ∧ dv.finished = [] ∧
     dv.addr = f.addr ∧ dv.n = f.n ∧ dv.sp = f.sp ∧ dv.table.length = f.n.toNat ∧ f.mask = (1#16 <<< s.cur.rank) ∧ s.cur.rank < t.ngroups ∧
     s.cur.lIdle = true ∧ f.slot = none ∧ t.ngroups ≤ 16) := by
  refine ⟨⟨?_, ?_, ?_, ?_, sready ?_, ?_, State.readTable_held (pa := 0x3000) ?_ ?_ ?_ ?_ ?_ ?_ ?_, ?_⟩, ?_, sready ?_, ?_⟩ <;>
    decide +kernel

/-- The hypotheses of O10. -/
theorem witness_ExitAndHalt :
    let s := State.reset
    s.team? s.cur.team = some .firmware ∧ s.gang? Team.firmware.gang = some .firmware ∧ Gang.firmware.arrived = [] ∧
    Team.firmware.rounds = [] ∧ (s.viewTeam Team.firmware).frameOf s.cur.rank = none ∧ s.cur.lIdle = true ∧ s.cur.count .st = 0 ∧
    readyS s .user [] false = true ∧ readyS s .mach [] false = true := by decide +kernel

/-- The hypotheses of O11. -/
theorem witness_Launches :
    let s := paged (Cells.write [] 0x3000 record) 0x20000
    SReady s .user [2, 1] false ∧ s.storesBefore false 0 = false ∧ (s.viewOf s.cur).frameOf s.cur.rank = none ∧ (s.viewOf s.cur).gidOf s.cur.rank = 0 ∧ (s.gridOf s.cur).depth < 10 ∧
    s.readRecord (s.sget 1) = (.inr record, s) ∧ s.launchValid (s.ctxOf s.cur) record = true ∧ s.isFree s.cur = true ∧
    s.pendingIn (quadOf (s.coreOf s.cur)) < 64 ∧ SReady s .user [] false := by
  refine ⟨sready ?_, ?_, ?_, ?_, ?_, pairOf ?_ (State.readRecord_held ?_), ?_, ?_, ?_, sready ?_⟩ <;> decide +kernel

/-- The hypotheses of O12. -/
theorem witness_GlobalAccesses :
    let s := paged [] 0x20FF8
    SReady s .user [2, 1] true ∧ s.cur.count .ld < 255 ∧ s.cur.acquiring false 0 = false ∧
    (s.checkGlobal .read (s.sget 1 + (7 : BitVec 12).signExtend 64) 1).res = .inr 0x3FFF ∧
    (s.checkGlobal .read (s.sget 1 + (0 : BitVec 16).signExtend 64) 8).res = .inr 0x3FF8 ∧
    s.cur.count .st < 255 ∧ SReady s .user [2, 1] false ∧ (s.checkGlobal .write (s.sget 1) 8).res = .inr 0x3FF8 ∧
    SReady s .user [2, 1, 3] false ∧ (s.checkGlobal .atomic (s.sget 1) 4).res = .inr 0x3FF8 := by
  refine ⟨sready ?_, ?_, ?_, ?_, ?_, ?_,
    sready ?_, ?_, sready ?_, ?_⟩ <;> decide +kernel

/-- What `TakesFaults` asks of the device of an instruction that faults: the vector of the first fault may be entered. -/
def FaultsMet (y : State) (fs : List LaneFault) (l ps1 : Bool) (flags : Byte) (pc : Word) (wr loc : Bool) : Prop :=
  ∃ f, fs.head?.map LaneFault.mf = some f ∧
    let w := y.logLanes fs wr loc
    let v := w.queueAll (fs.map (faultRecord w (flags ||| (if l then 1 else 0) ||| (if l && ps1 then 0x40 else 0)) pc))
    v.cur = y.cur ∧ v.strictOf v.cur = false ∧
      v.vectorEntry (v.coreOf v.cur) (v.ctxOf v.cur) f.code = (some (vecEntry, true), v) ∧ v.canEnter = true

/-- A full record queue drops the records of an instruction, and its vector is held. -/
theorem faultsMet {y : State} {fs : List LaneFault} {l ps1 : Bool} {flags : Byte} {pc : Word} {wr loc : Bool} {f : MemFault} {k : Nat}
    {c : Ctx} (hf : fs.head?.map LaneFault.mf = some f)
    (hl : (y.logLanes fs wr loc).cur = y.cur) (hk : ((y.logLanes fs wr loc).gridOf (y.logLanes fs wr loc).cur).ctx = k)
    (hc : (y.logLanes fs wr loc).ctx? k = some c) (hq : 256 ≤ (c.frqt - c.frqh).toNat)
    (h : let w := y.logLanes fs wr loc
      let v := w.queueAll (fs.map (faultRecord w (flags ||| (if l then 1 else 0) ||| (if l && ps1 then 0x40 else 0)) pc))
      v.strictOf v.cur = false ∧ v.canEnter = true ∧
        (v.vectorEntry (v.coreOf v.cur) (v.ctxOf v.cur) f.code).1 = some (vecEntry, true) ∧
        v.holds (v.coreOf v.cur) (v.ctxOf v.cur) .super .read
          (canonical (v.ctxOf v.cur).fvec + BitVec.ofNat 64 (8 * f.code.toNat)) = true) :
    FaultsMet y fs l ps1 flags pc wr loc := by
  obtain ⟨h1, h2, h3, h4⟩ := h
  refine ⟨f, hf, (State.queueAll_full hc ?_ hq).trans hl, h1, pairOf h3 (State.vectorEntry_held h4), h2⟩
  intro r hr
  obtain ⟨x, _, rfl⟩ := List.mem_map.mp hr
  exact hk

/-- The hypotheses of O12, accesses that fail a check. -/
theorem witness_ScalarFaults :
    let s := put1 0x20001 (vectored.mapCode 0x20000 0x3000)
    Interruptible s ∧ s.cur.sWaits = false ∧ s.cur.acquiring false 0 = false ∧ s.cur.count .ld < 255 ∧ s.cur.count .st < 255 ∧
    s.cur.count .rs < 255 ∧ SReady s .user [2, 1] true ∧ SReady s .user [2, 1] false ∧ SReady s .user [2, 1, 3] false ∧
    s.releaseHeld false 0 .acqrel .sys = false ∧ issueFault (mf 0x07 0 0x20001) ∧ issueFault (mf 0x06 8 0x20000) ∧
    (∀ k : AccessKind, s.checkGlobal k 0x20001 8 = ⟨.inl (mf 0x07 0 0x20001), s⟩) ∧ s.outErr 0x20000 4 = some (mf 0x06 8 0x20000) ∧
    FaultsMet s [⟨255, mf 0x07 0 0x20001⟩] false false 0x06 s.cur.s.pc true false ∧
    FaultsMet s [⟨255, mf 0x06 8 0x20000⟩] false false 0x02 s.cur.s.pc true true := by
  refine ⟨by constructor <;> decide +kernel, ?_, ?_, ?_, ?_, ?_, sready ?_, sready ?_, sready ?_, ?_, ⟨?_, ?_⟩, ⟨?_, ?_⟩, fun k => rfl, ?_,
    faultsMet (c := vectored.ctxOf vectored.cur) rfl ?_ rfl ?_ ?_ ?_, faultsMet (c := vectored.ctxOf vectored.cur) rfl ?_ rfl ?_ ?_ ?_⟩ <;>
    decide +kernel

/-- The hypotheses of O13. -/
theorem witness_Responses :
    (∀ k dest r, r.lane = 255 ∧ r.ans = none ∧ r.err = none →
      OnlyAccess (withCur State.reset fun g => { g with accs := [flying k dest false r], seq := 1 }) (flying k dest false r) r ∧
      (flying k dest false r).peer = false ∧ (flying k dest false r).dest = dest) ∧
    (∀ n ∈ [1, 2, 4, 8], ∀ d ∈ [(95 : SReg), 127],
      let r := reqOf 255 0x20000 0x3000 n 0 0
      let s := withCur State.reset fun g => { g with accs := [flying (.load n true) (d.setWidth 8) false r], seq := 1 }
      (r.lane = 255 ∧ r.ans = none ∧ r.err = none) ∧ r.size = n ∧ s.levelHeld r.pa = false ∧ s.mem.wf = true ∧
      (d.toNat < 96 ∨ d = 127#7) ∧ s.readErr s.myPort s.worldOf r.pa = none) ∧
    (∀ n ∈ [1, 2, 4, 8],
      let r := reqOf 255 0x20000 0x3000 n (-1) 0
      let s := withCur State.reset fun g => { g with accs := [flying (.store n) 0 false r], seq := 1 }
      (r.lane = 255 ∧ r.ans = none ∧ r.err = none) ∧ s.levelHeld r.pa = false ∧
      s.writeErr s.myPort s.worldOf r.pa false = none) :=
  ⟨fun _ _ _ h => ⟨flying_only rfl h rfl, rfl, rfl⟩, by decide +kernel⟩

/-- The hypotheses of O14. -/
theorem witness_OwnWindow :
    let s := put1 8184 (bench 1 [])
    ∀ n ∈ [1, 2, 4, 8], ∀ k ∈ [AccessKind.read, .write, .atomic],
      isPeer (s.sget 1) = false ∧ s.sp.wf = true ∧ readyS s .user [2, 1, 3] false = true ∧ s.cur.acquiring false 0 = false ∧
      s.releaseHeld false 0 .rel .sys = false ∧ s.isFree s.cur = true ∧ s.ownTarget (s.sget 1) n = .inr benchTeam ∧
      s.peerPending false 0 benchTeam.id (offsetIn (s.sget 1)) n = false ∧ s.ownBank benchTeam (s.sget 1) n k = .go := by decide +kernel

/-- The hypotheses of O15. -/
theorem witness_PeerAccesses :
    (let s := put1 0x201FF8 (bench 1 [])
     ∀ n ∈ [1, 2, 4, 8],
      isPeer (s.sget 1) = true ∧ s.cur.count .rs < 255 ∧ s.cur.count .st < 255 ∧ readyS s .user [2, 1, 3] false = true ∧
      s.cur.acquiring false 0 = false ∧ s.localIssueErr s.cur (s.sget 1) n = none ∧
      s.localLockErr s.cur (s.sget 1) n = none) ∧
    (let r := reqOf 255 0x201FF8 0 8 (-1) 0
     let s := withCur (bench 1 []) fun g => { g with accs := [flying (.store 8) 0 true r], seq := 1 }
     s.cur.accs = [flying (.store 8) 0 true r] ∧ (r.lane = 255 ∧ r.ans = none ∧ r.err = none) ∧ s.sp.wf = true ∧
     s.localTarget s.cur r.va 8 = .inr benchTeam ∧ benchTeam.moving = false ∧
     s.flowBroken s.worldOf s.myPort (clusterOf benchTeam.core) = false ∧
     (s.core benchTeam.core).bankAns (benchTeam.base * 8192 + offsetIn r.va) 8 .write r.va = .go) := by decide +kernel

/-- Firmware with a store in flight. -/
def storing : State :=
  withCur State.reset fun g => { g with accs := [flying (.store 8) 0 false (reqOf 255 0x20000 0x3000 8 0 0)], seq := 1 }

/-- The hypotheses of O16. -/
theorem witness_Fences :
    (SReady State.reset .user [] false ∧ State.reset.storesBefore false 0 = false ∧ State.reset.inScope .dev = [] ∧ State.reset.cur.storesOut = false) ∧
    (SReady storing .user [] false ∧ storing.storesBefore false 0 = true ∧
      ∀ a ∈ storing.cur.accs, storing.cur.before false 0 a = true) ∧
    (let s := { State.reset with others := [other] }
     SReady s .user [] false ∧ s.storesBefore false 0 = false ∧ s.inScope .team ≠ [] ∧ s.cur.storesOut = false) ∧
    (let s := withCur State.reset fun g => { g with
       accs := [{ flying (.store 4) 0 false (reqOf 0 0x20000 0x3000 4 0 0) with l := true, path := 1 }], seq := 1 }
     SReady s .user [] false ∧ s.storesBefore false 0 = false ∧ s.inScope .gang = [] ∧ s.cur.storesOut = true) ∧
    (let s (m : Option Nat) := withCur { State.reset with others := [other] } fun g => { g with wait := .fenceRem [(1, m)] }
     (∀ m, (s m).cur.handler = none ∧ (s m).cur.wait = .fenceRem [(other.uid, m)] ∧ (s m).group? other.uid = some other ∧
       ∀ g ∈ (s m).others, g.uid ≠ (s m).cur.uid) ∧ other.uid ≠ (s none).cur.uid ∧
     (∀ a ∈ other.accs, a.seq < 3 → a.valued = true ∨ a.allKnown = true)) ∧
    (let s := withLanes 1 []
     let o := { plainOp .s32 with c := .kreg 1, a := ⟨3, .rest⟩, mods := 4 }
     LReady s { free := false } ⟨0, 1⟩ [] s.cur ∧ s.storesBefore true 1 = false ∧ LReady s {} ⟨0, 1⟩ [] s.cur ∧
     s.cur.count .ld ≤ 0 ∧ s.cur.count .st ≤ 0 ∧ s.cur.count .cp ≤ 0 ∧ s.cur.count .mx ≤ 0 ∧ s.cur.count .rs ≤ 0 ∧
     LReady s (memUse o false false false true) ⟨0, 1⟩ [] s.cur) ∧
    (let s := withCur (withLanes 1 []) fun g => { g with
       accs := [{ flying (.store 4) 0 false (reqOf 0 0x20000 0x3000 4 0 0) with l := true, path := 1 }], seq := 1 }
     LReady s { free := false } ⟨0, 1⟩ [] s.cur ∧ s.storesBefore true 1 = true) := by
  refine ⟨⟨sready ?_, ?_⟩, ⟨sready ?_, ?_⟩, ⟨sready ?_, ?_⟩, ⟨sready ?_, ?_⟩,
    ⟨fun m => ⟨rfl, rfl, rfl, fun g hg => by rw [List.mem_singleton.mp hg]; show (1 : Nat) ≠ 0; decide⟩, ?_⟩,
    ⟨lready ?_ rfl, ?_, lready ?_ rfl, ?_, ?_, ?_, ?_, ?_, lready ?_ rfl⟩, lready ?_ rfl, ?_⟩ <;> decide +kernel

/-- Page 0x20000 with the value 7 in its first doubleword. -/
def word7 : State := withCur (paged (Cells.write [] 0x3000 [7]) 0x20000) fun g => { g with s := g.s.put 3 7 }

/-- The hypotheses of O17. -/
theorem witness_WaitOnAWord :
    SReady word7 .user [2, 1, 3] false ∧ word7.mwaitRead (word7.sget 1) = (.inr (0x3000, 7), word7) ∧ (7 : Word) = word7.sget 3 ∧
    (7 : Word) ≠ word7.sget 4 ∧ SReady word7 .user [2, 1, 4] false ∧
    (∀ w : Bool, let s := withCur { word7 with time := 1000 } fun g => { g with wait := .mwait 0 192 w 95 0x20000 0 1 }
     s.cur.wait = .mwait 0 192 w 95 0x20000 0 1 ∧ s.issues s.cur = true ∧ (95 : SReg).toNat < 96 ∧
     s.mwaitRead 0x20000 = (.inr (0x3000, 7), s) ∧ (7 : Word) ≠ 0 ∧ 1000 * 1 ≤ s.time - 0) :=
  ⟨sready (by decide +kernel), pairOf (by decide +kernel) (State.mwaitRead_held (by decide +kernel)), by decide +kernel,
    by decide +kernel, sready (by decide +kernel), fun w => by
      cases w <;> exact ⟨rfl, by decide +kernel, by decide +kernel,
        pairOf (by decide +kernel) (State.mwaitRead_held (by decide +kernel)), by decide +kernel, by decide +kernel⟩⟩

/-- A queue of four 16-byte entries, with its head at 5. -/
def queuePage (tail : Nat) : State :=
  paged (Cells.write [] 0x3000 (bytesOf 8 5 ++ bytesOf 8 tail ++ bytesOf 8 0x20100 ++ bytesOf 4 4)) 0x20000

/-- The hypotheses of O18. -/
theorem witness_QueueOperations (tail : Nat) (h : tail ∈ [5, 6, 8, 9]) :
    let s := queuePage tail
    let x (k : AccKind) := flying k 95 false (reqOf 255 0x20000 0x3000 64 7 0)
    let t (k : AccKind) := withCur s fun g => { g with accs := [x k], seq := 1 }
    (s.checkRange .atomic (s.sget 1) 64 64).res = .inr 0x3000 ∧ SReady s .user [2, 1] false ∧ SReady s .user [2, 1, 3] false ∧
    s.cur.count .st < 255 ∧
    ∀ k ∈ [AccKind.queue false, .queue true], OnlyAccess (t k) (x k) (reqOf 255 0x20000 0x3000 64 7 0) ∧ (x k).peer = false ∧
      (x k).dest = (95#7).setWidth 8 ∧ (t k).levelHeld 0x3000 = false ∧ (t k).isFree (t k).cur = true ∧
      (t k).readErr (t k).myPort (t k).worldOf 0x3000 = none ∧
      queueOf ((t k).memRead 0x3000 64) = some ⟨5, BitVec.ofNat 64 tail, 0x20100, 4, 0⟩ ∧ (t k).mem.wf = true ∧
      (t k).checkGlobal .write (0x20100 + BitVec.ofNat 64 ((BitVec.ofNat 64 tail).toNat % 4 * 2 ^ (4 + 0))) 8 =
        ⟨.inr (0x3100 + tail % 4 * 16), t k⟩ ∧
      (t k).levelHeld (0x3100 + tail % 4 * 16) = false ∧
      (t k).writeErr (t k).myPort (t k).worldOf (0x3100 + tail % 4 * 16) false = none := by
  simp only [List.mem_cons, List.not_mem_nil, or_false] at h
  rcases h with rfl | rfl | rfl | rfl <;>
    refine ⟨by decide +kernel, sready (by decide +kernel), sready (by decide +kernel), by decide +kernel, fun k hk => ?_⟩ <;>
    (simp only [List.mem_cons, List.not_mem_nil, or_false] at hk
     rcases hk with rfl | rfl <;>
      exact ⟨flying_only rfl ⟨rfl, rfl, rfl⟩ rfl, rfl, rfl, by decide +kernel, by decide +kernel, by decide +kernel, by decide +kernel,
        by decide +kernel, transOf (by decide +kernel) (State.checkGlobal_held (by decide +kernel)), by decide +kernel,
        by decide +kernel⟩)

/-- The hypotheses of O19. -/
theorem witness_BankHints :
    let s := withCur (bench 0 []) fun g => { g with running := false, s := (g.s.put 1 0).put 2 1 }
    readyS s .user [1, 2] false = true ∧ s.team? s.cur.team = some benchTeam ∧ s.cur.lIdle = true ∧ benchTeam.core < 192 ∧
    (s.sget 1).toNat + (s.sget 2).toNat ≤ benchTeam.spbytes / 8192 ∧ benchTeam.spbytes ≤ 393216 ∧ benchTeam.base + benchTeam.spbytes / 8192 ≤ 48 ∧
    s.windowLocked (s.gridOf s.cur).ctx benchTeam 0 8192 = false ∧ (s.core benchTeam.core).bankWaking benchTeam.base = false := by
  decide +kernel

/-- Eight bytes, from one place to another. -/
def tensor8 : TensorRec := ⟨0, 1, false, false, ⟨#[8, 1, 1, 1], rfl⟩, ⟨#[0, 0, 0], rfl⟩, ⟨#[0, 0, 0], rfl⟩⟩
def copy8 (dir : CopyDir) (st : CopyState) (cursor : Nat) : Copy :=
  ⟨5, 0, 0, 0, 0, .mach, tensor8, 0, 4096, dir, 0, 0, 0, cursor, false, 0, 0, st, false, 0, 0⟩

/-- A copy whose sides are both local walks no page ahead. -/
theorem walkAhead_local {s : State} {c : Copy} {x : Ctx} (h : c.dir = .s2s ∨ c.dir = .s2w) :
    s.walkAhead c x = { s with fresh := s.fresh + 2 } := by
  unfold State.walkAhead
  rcases h with h | h <;> simp [h, CopyDir.srcLocal, CopyDir.dstLocal, CopyDir.dstWb]

theorem engineRead_local {s : State} {core : Nat} {x : Ctx} {c : Copy} {g : Group} {va : Word} {n k byte : Nat}
    (h : s.engineLocal g c .read va n = .inl (.inr (k, byte))) :
    s.engineRead core x c g true va n = .ok s (s.spRead k byte n) := by
  simp [State.engineRead, h]

theorem engineWrite_local {s : State} {core : Nat} {x : Ctx} {c : Copy} {g : Group} {va : Word} {bs : List Byte} {k byte : Nat}
    (h : s.engineLocal g c .write va bs.length = .inl (.inr (k, byte))) :
    s.engineWrite core x c g true va bs = .ok (s.writeSpPieces k (pieces 8 129 byte bs.length) bs) [] := by
  simp [State.engineWrite, h]

/-- The hypotheses of O20. -/
theorem witness_Copies :
    (let s := withCur (paged (Cells.write [] 0x3000 tensor8.bytes) 0x20000) fun g => { g with s := (g.s.put 2 0x20400).put 3 0x20800 }
     SReady s .user [3, 2, 1] false ∧ (s.ctxOf s.cur).st ≠ .halting ∧
     (s.ctxOf s.cur).st ≠ .halted ∧ s.readTensor (s.sget 1) = (.inr tensor8.bytes, s) ∧
     s.copyErr .g2g 0 0 (s.sget 1) (s.sget 2) (s.sget 3) (tensorOf tensor8.bytes) tensor8.bytes = none ∧ s.cur.count .cp < 255 ∧
     s.lockRoom 2 = true) ∧
    (let s := { State.reset with copies := [copy8 .s2s .registered 0] }
     s.copy? 5 = some (copy8 .s2s .registered 0) ∧ s.lockConflict 5 = false) ∧
    (let c := copy8 .s2w .running 7
     let s := { bench 1 [] with copies := [c] }
     let u := { s with fresh := s.fresh + 2 }
     s.copy? 5 = some c ∧ s.ctx? c.ctx = some { Ctx.fresh 0 0 0 with st := .run } ∧ s.group? c.uid = some s.cur ∧
     c.cursor < c.tensor.count ∧
     (s.walkAhead c { Ctx.fresh 0 0 0 with st := .run }).engineRead c.core { Ctx.fresh 0 0 0 with st := .run } c s.cur true
       (c.src + BitVec.ofInt 64 (c.tensor.offset c.tensor.es c.tensor.ss c.cursor)) (c.tensor.ed c.k) = .ok u (u.spRead 0 7 1) ∧
     u.copy? 5 = some c) ∧
    (let c := copy8 .s2s .running 0
     let s := { bench 1 [] with copies := [c] }
     let u := { s with fresh := s.fresh + 2 }
     (s.walkAhead c { Ctx.fresh 0 0 0 with st := .run }).engineRead c.core { Ctx.fresh 0 0 0 with st := .run } c s.cur true
       (c.src + BitVec.ofInt 64 (c.tensor.offset c.tensor.es c.tensor.ss c.cursor)) (c.tensor.ed c.k) = .ok u (u.spRead 0 0 1) ∧
     u.engineWrite c.core { Ctx.fresh 0 0 0 with st := .run } c s.cur true
       (c.dst + BitVec.ofInt 64 (c.tensor.offset (c.tensor.ed c.k) c.tensor.ds c.cursor)) (u.spRead 0 0 1) =
       .ok (u.writeSpPieces 0 (pieces 8 129 4096 1) (u.spRead 0 0 1)) [] ∧
     (u.writeSpPieces 0 (pieces 8 129 4096 1) (u.spRead 0 0 1)).copy? 5 = some c) ∧
    (let c := copy8 .s2s .running 8
     let s := withCur { State.reset with copies := [c] } fun g => { g with tokens := [⟨.cp, 5, false⟩, ⟨.cp, 6, false⟩] }
     s.copy? 5 = some c ∧ c.cursor = c.tensor.count ∧ s.group? c.uid = some s.cur ∧
     s.cur.tokens = ⟨.cp, c.id, false⟩ :: [⟨.cp, 6, false⟩]) := by
  refine ⟨⟨sready ?_, ?_, ?_, pairOf ?_ (State.readTensor_held ?_), ?_, ?_, ?_⟩, ?_,
    ⟨?_, ?_, rfl, ?_, by rw [walkAhead_local (.inr rfl)]; exact engineRead_local (by decide +kernel), ?_⟩,
    ⟨by rw [walkAhead_local (.inl rfl)]; exact engineRead_local (by decide +kernel), engineWrite_local ?_, ?_⟩,
    ?_, ?_, rfl, ?_⟩ <;> decide +kernel

theorem readLocal16_window {s : State} {va : Word} {t : Team} (h : s.ownTarget va 16 = .inr t)
    (hp : s.peerPending true s.lmask t.id (offsetIn va) 16 = false)
    (h0 : (s.core t.core).bankAns (spByte t (offsetIn va)) 8 .read va = .go)
    (h1 : (s.core t.core).bankAns (spByte t (offsetIn va) + 8) 8 .read va = .go) :
    s.readLocal16 va = .got (s.spRead t.core (spByte t (offsetIn va)) 16) s := by
  simp [State.readLocal16, h, hp, h0, h1]

/-- The hypotheses of O21. -/
theorem witness_MatrixInstructions :
    (let s := withCur (bench 0 []) fun g => { g with s := (g.s.put 1 8192).put 2 0 }
     SReady s .user [1, 2] false ∧ s.cur.handler = none ∧ s.tagErr 0 = none ∧ s.tagDying 0 = false ∧ wloadOk 4 1 false = true ∧ (s.sget 1).toNat % 64 = 0 ∧
     (s.sget 2).toNat % 64 = 0 ∧ (s.sget 1).toNat + 128 * mxCol 4 false ≤ 16384 ∧ (s.sget 2).toNat + 256 * mxBlocks 4 false 1 ≤ 16384 ∧
     s.cur.count .mx < 255 ∧ s.tagQueued 0 < 8 ∧ s.lockRoom 2 = true ∧ s.coreOf s.cur < 192) ∧
    (let s := { bench 1 [] with sp := [⟨0, 4⟩] }
     let o := { plainOp .s32 with c := .kreg 1, w2 := 0x3E00 }
     let bs := s.spRead 0 0 16
     let f := formatBlock bs
     LReady s (({ free := false } : LUse).withC o.c) ⟨0, 1⟩ [] s.cur ∧ s.cur.handler = none ∧ (∀ r h, o.c ≠ .vec r h) ∧
     (o.w2.extractLsb' 9 5).toNat + ((o.w2.extractLsb' 4 5).toNat + 1) = 32 ∧
     s.tagErr 0 = none ∧ s.tagDying 0 = false ∧ s.cur.count .mx < 255 ∧ s.readLocal16 (look s.cur.l.k 1 0) = .got bs s ∧
     f.bad = false ∧ f.base.toNat % 2 = 0 ∧ f.stride % 2 = 0 ∧ (s.tag (s.coreOf s.cur) 0).issued = some (4, 0, false) ∧
     f.fits (4, 0, false) = true ∧ s.mmaRoom 0 = true ∧ o.a.r ≠ 255 ∧ s.cur.rangeBad o.a.r 1 = false ∧ s.cur.vlife 0 = .live ∧
     s.cur.powered 0 = true ∧ s.cur.lBusy { reads := [(0, o.a.hint)] } = false) ∧
    (let s := withCur (bench 1 []) fun g => { g with
       dq := [⟨false, false, 1, 0, 0⟩, ⟨false, false, 2, 0, 0⟩, ⟨false, false, 3, 0, 0⟩], l := { g.l with k := put g.l.k 1 7680 } }
     let o := { plainOp .s32 with c := .kreg 1, vd := 31, w2 := 0x3E00 }
     LReady s { free := false } ⟨0, 1⟩ [] s.cur ∧ s.tagErr 0 = none ∧ s.tagDying 0 = false ∧ s.tagQueued 0 < 8 ∧
     (∃ vs g, LReady s { free := false, pops := 3 } ⟨0, 1⟩ vs g) ∧ s.cur.rangeBad o.vd 1 = false ∧ o.mods.getLsbD 2 = false ∧
     s.cur.lBusy { writes := [31] } = false ∧ s.cur.powered 31 = true ∧
     LReady s (({ free := false } : LUse).withC o.c) ⟨0, 1⟩ [] s.cur ∧ s.cur.c64 o [] = 7680 ∧
     s.localRange 7680 64 512 = .inr benchTeam ∧ s.lockRoom 1 = true ∧
     s.targetTeam s.cur 7680 = some benchTeam ∧ s.peerPending true 1 benchTeam.id (offsetIn 7680) 512 = false ∧
     (∀ r h, o.c ≠ .vec r h) ∧ s.cur.handler = none) := by
  refine ⟨⟨sready ?_, ?_⟩,
    ⟨lready ?_ rfl, rfl, (by intro _ _ h; cases h), ?_, ?_, ?_,
      ?_, readLocal16_window (t := benchTeam) ?_ ?_ ?_ ?_, ?_⟩,
    lready ?_ rfl, ?_, ?_, ?_,
    ⟨_, _, lready ?_ rfl⟩, ?_, ?_, ?_, ?_,
    lready ?_ rfl, ?_, ?_, ?_, ?_, ?_, (by intro _ _ h; cases h), rfl⟩ <;> decide +kernel

/-- Core 0 with step entry `i` in use by firmware and the entries below it in use. -/
def stepping (i : Nat) : State :=
  (put1 (BitVec.ofNat 64 (7 * 16 + i)) State.reset).mapCore 0 fun c => { c with
    steps := Vector.ofFn fun j => if j.val ≤ i then ⟨⟨.active, 0, 0, 0, 0, 9, 5, 2, 7⟩, 0, ⟨.free, 0, 0, 0, 0, 0, 0, 0, 0⟩⟩ else .free }

/-- The hypotheses of O22. -/
theorem witness_StepForms :
    (let s := stepping 14
     readyS s .user [3, 1, 2] false = true ∧ s.coreOf s.cur < 192 ∧ (s.sget 2).toNat < 2 ^ 34 ∧
     (look (s.core 0).steps 15 .free).st = .free ∧ ∀ j, j < 15 → (look (s.core 0).steps j .free).st ≠ .free) ∧
    (let s := stepping 15
     let e := look (s.core 0).steps 15 .free
     readyS s .user [3, 1, 2] false = true ∧ s.sget 1 = BitVec.ofNat 64 (e.gen.toNat * 16 + 15) ∧ e.st ≠ .free ∧ e.team = s.cur.team) := by
  decide +kernel

/-- The hypotheses of O23. -/
theorem witness_SpecialRegisters :
    SReady State.reset .user [3] true ∧ SReady State.reset .user [3] false ∧ State.reset.cur.level ≠ .user ∧ State.reset.cur.level = .mach ∧
    srFault State.reset.cur.level false 0x1E3 = none ∧ State.reset.noSensor 0x1E1 = false ∧
    SReady (withCur State.reset fun g => { g with level := .user }) .user [3] false ∧ srFault .user false 0x051 = none := by
  refine ⟨sready ?_, sready ?_, ?_, ?_, ?_, ?_,
    sready ?_, ?_⟩ <;> decide +kernel

/-- The hypotheses of O24. -/
theorem witness_TagForms :
    (let s := twoContexts 0 0x100003FFF
     readyS s .super [2, 1] false = true ∧ s.sget 1 &&& ~~~0x00000FFF00003FFF#64 = 0 ∧ s.cur.level = .mach ∧
     s.ownsCore ((s.sget 1).extractLsb' 32 12).toNat 0 = true ∧ (s.tag 0 15).st = .free ∧ s.tagReserved 0 15 15 7 = false ∧
     ∀ m, m < 16 → (s.tag 0 m).st = .free) ∧
    (let s := withCur (twoContexts 1 0x3FFF) fun g => { g with level := .super }
     readyS s .super [2, 1] false = true ∧ (s.sget 1).extractLsb' 32 12 = 0 ∧ s.ownsCore (s.ctxOf s.cur).id 0 = true) ∧
    (let s := put1 0 (bench 0 [])
     readyS s .super [2, 1] false = true ∧ s.sget 1 < 16 ∧ (s.tag 0 0).st = .active ∧ s.cmds = [] ∧
     (s.tag 0 0).ctx.toNat = (s.ctxOf s.cur).id) := by decide +kernel

/-- A group of another grid of the context that a page fault descheduled, in team 1, with its handle in s1. -/
def descheduled : State :=
  let s := { State.reset with
    others := [{ other with team := 1, rank := 0, status := .desched parkedStop vecEntry }]
    teams := [.firmware, { Team.firmware with id := 1, gang := 1 }]
    gangs := [.firmware, { Gang.firmware with id := 1, grid := 1 }]
    grids := [.firmware, { Grid.firmware with id := 1 }] }
  put1 (s.handleOf { other with team := 1, rank := 0, status := .desched parkedStop vecEntry }) s

/-- The hypotheses of O25. -/
theorem witness_ReplayListForms :
    (let s := State.reset
     readyS s .super [2] false = true ∧ s.ctxs.Pairwise (fun x y => x.id ≠ y.id) ∧ s.ctx? (s.gridOf s.cur).ctx ≠ none ∧
     (s.ctxOf s.cur).replays = [] ∧ s.desched? (s.sget 1) = none) ∧
    (let s := State.reset.mapCtx 0 fun c => { c with replays := [8, 9] }
     readyS s .super [127] false = true ∧ (s.ctxOf s.cur).replays = 8 :: [9]) ∧
    (let s := descheduled
     let g := { other with team := 1, rank := 0, status := .desched parkedStop vecEntry }
     readyS s .super [95, 1] false = true ∧ (s.desched? (s.sget 1)).map (fun x => (x.1.uid, x.2)) = some (g.uid, parkedStop, vecEntry) ∧
     g.uid ≠ s.cur.uid ∧ (s.groups.Pairwise fun x y => x.uid ≠ y.uid) ∧ g.accs = [] ∧ s.shadowsUsed (s.coreOf g) g.iu < 4 ∧
     (s.grid? (s.gridOf g).id).map Grid.ending = some none ∧ (s.gridOf s.cur).id ≠ (s.gridOf g).id) := by decide +kernel

/-- Tables of five levels at 0x10000 with an entry `e` at address `ea` of the last two, and a frame in the pool. -/
def tables (ea e : Nat) (va : Word) : State :=
  let m : Cells := [0x10000, 0x11000, 0x12000, 0x13000].foldl (fun (m : Cells) a => m.write a (bytesOf 8 (a + 0x1001))) []
  (paged ((m.write ea (bytesOf 8 e)).write 0x3000 (bytesOf 8 0x5000)) va).mapCtx 0 fun c =>
    { c with ptroot := 0x10000, ftpb := 0x20000, ftpn := 1 }

/-- Where the walk of a page of a size ends. -/
def walkEnds (s : State) (sz : PageSize) (p : LeafAt → Bool) : Bool := p (s.leafWalk (s.sget 1) (PageSize.level sz) 4 0x10000)

/-- The hypotheses of O26. -/
theorem witness_PageForms :
    (∀ x ∈ [(PageSize.k4, 0x14000, 0, 0x14000, (0x5043 : Word)), (.k64, 0x14000, 0, 0x14000, 0x10063), (.m2, 0x13000, 0, 0x13000, 0x200043)],
      let s := withCur (tables x.2.1 x.2.2.1 0) fun g => { g with s := g.s.put 2 x.2.2.2.2 }
      canonErr s.cur.level (s.sget 1) = none ∧ (s.sget 1).toNat % PageSize.bytes x.1 = 0 ∧
      (s.walkReads (s.sget 1) 4 (s.ctxOf s.cur).root).any s.levelHeld = false ∧
      walkEnds s x.1 (fun w => match w with | .at ea => ea == x.2.2.2.1 | _ => false) = true ∧
      s.entriesErr (s.sget 1) (PageSize.entries x.1 x.2.2.2.1) = none ∧ s.storesBefore false 0 = false ∧ s.mem.wf = true ∧
      readyS s .super [3, 1, 2] false = true ∧ (s.entryAt x.2.2.2.1).testBit 0 = false ∧ leafOk x.1 (s.sget 2).toNat = true) ∧
    (∀ x ∈ [(PageSize.k4, 0x14000, 0x5043), (.k64, 0x14000, 0x10063), (.m2, 0x13000, 0x200043)],
      let s := tables x.2.1 x.2.2 0
      readyS s .super [3, 1] false = true ∧
      walkEnds s x.1 (fun w => match w with | .at ea => ea == x.2.1 | _ => false) = true ∧
      (s.entryAt x.2.1).testBit 0 = true ∧ (s.entryAt x.2.1).testBit 6 = true ∧ (s.entryAt x.2.1).testBit 5 = (x.1 == .k64)) ∧
    (walkEnds (tables 0x13000 0 0) .k4 (fun w => match w with | .noTable => true | _ => false) = true ∧
      walkEnds (tables 0x13000 0x200043 0) .k4 (fun w => match w with | .above => true | _ => false) = true) ∧
    (let s := tables 0x14000 0 0
     (s.ctxOf s.cur).ftpn ≠ 0 ∧
     s.checkGlobal .read ((s.ctxOf s.cur).ftpb + 8 * ((s.ctxOf s.cur).ftpn - 1)) 8 = ⟨.inr 0x3000, s⟩ ∧
     s.readErr s.myPort (s.ctxOf s.cur).world 0x3000 = none ∧
     s.targetOk (s.ctxOf s.cur) (pteFrame (wordOf (s.memRead 0x3000 8)).toNat * 4096) = true) ∧
    (let i : Inval := ⟨9, 0, 0, 4096, [], false⟩
     let s := withCur { vectored with invals := [i] } fun g => { g with wait := .inval 9 8 [(95, 0)] }
     s.invals.find? (fun x => x.id == i.id) = some i ∧ s.cur.wait = .inval i.id 8 [(95, 0)] ∧ (95 : SReg).toNat < 96 ∧ i.accs = []) ∧
    (let i : Inval := ⟨9, 0, 0, 4096, [(0, 0)], false⟩
     let s := { storing with invals := [i] }
     s.invals.find? (fun x => x.id == i.id) = some i ∧ s.group? 0 = some s.cur ∧ s.cur.acc? 0 ≠ none) := by
  refine ⟨?_, ?_, ?_,
    ⟨?_, transOf ?_ (State.checkGlobal_held ?_), ?_⟩,
    ?_, ?_, rfl, ?_⟩ <;> decide +kernel

/-- The hypotheses of O28 to O32. -/
theorem witness_Lanes :
    let s := withLanes (BitVec.allOnes 128) []
    let o := { plainOp .s32 with g := ⟨7, true⟩, vd := 31, a := ⟨0, .last⟩, b := ⟨1, .rest⟩, c := .vec 31 .keep, mods := 3 }
    LReady s (lopUse o .c) ⟨0, BitVec.allOnes 128⟩ [] s.cur ∧ LReady s (lopUse o .ac) ⟨0, BitVec.allOnes 128⟩ [] s.cur ∧
    LReady s (lopUse o .abc) ⟨0, BitVec.allOnes 128⟩ [] s.cur ∧ LReady s (lopUse o .acd) ⟨0, BitVec.allOnes 128⟩ [] s.cur ∧
    LReady s { lopUse o .ac with preads := [o.g.p, o.mods.extractLsb' 0 3] } ⟨0, BitVec.allOnes 128⟩ [] s.cur ∧
    (∃ vs g, LReady (withCur s fun g => { g with dq := [⟨false, false, 9, 0, 0⟩] }) (lopUse { o with c := .dq } .ac) ⟨0, BitVec.allOnes 128⟩ vs g) ∧
    actsOn s ⟨0, BitVec.allOnes 128⟩ o.g 127 ∧ ElemType.f32.isInt = false ∧
    (ElemType.ofCode 1 = some .n32 ∧ ElemType.n32.count = ElemType.s32.count) ∧
    LReady s (predUse o [(o.a.r, o.a.hint)] [] true) ⟨0, BitVec.allOnes 128⟩ [] s.cur ∧
    LReady s (predUse o [] [o.a.r.setWidth 3, o.b.r.setWidth 3] false) ⟨0, BitVec.allOnes 128⟩ [] s.cur := by
  refine ⟨lready ?_ rfl, lready ?_ rfl, lready ?_ rfl, lready ?_ rfl,
    lready ?_ rfl, ⟨_, _, lready ?_ rfl⟩, ?_, ?_, ?_,
    lready ?_ rfl, lready ?_ rfl⟩ <;> decide +kernel

/-- The hypotheses of O33. -/
theorem witness_RegisterControl :
    (let s := withCur (bench 1 []) fun g => { g with dq := [⟨false, false, 9, 0, 0⟩, ⟨false, false, 8, 0, 0⟩], rq := List.replicate 14 0 }
     let o := { plainOp .s32 with vd := 15, c := .dq, w2 := 17 }
     (∃ vs g, LReady s (({ pops := 1, kwrite := [15] } : LUse).withC o.c) ⟨0, 1⟩ vs g) ∧
     LReady s (({ kwrite := [15] } : LUse).withC (.vec 31 .last)) ⟨0, 1⟩ [] s.cur ∧ LReady s {} ⟨0, 1⟩ [] s.cur ∧
     s.cur.lHeld = false ∧ s.cur.lBusy { writes := (List.range 17).map fun j => (15 : BitVec 8) + BitVec.ofNat 8 j } = false ∧
     s.cur.rangeBad 15 17 = false ∧ (o.mods.extractLsb' 0 2).toNat < 3 ∧
     (∃ v : State, v.cur = { s.cur with blocks := put s.cur.blocks 3 .off } ∧ v.cur.path v.ps1 = some ⟨0, 1⟩ ∧
       v.cur.rangeBad 15 17 = false ∧ v.cur.lHeld = false ∧
       v.cur.lBusy { writes := (List.range 17).map fun j => (15 : BitVec 8) + BitVec.ofNat 8 j } = false ∧
       (15 : BitVec 8) + BitVec.ofNat 8 16 = 31 ∧ v.cur.powered 31 = false) ∧
     LReady s { preads := [0], pushes := 2 } ⟨0, 1⟩ [] s.cur ∧ LReady s (({ pushes := 1 } : LUse).withC .imm) ⟨0, 1⟩ [] s.cur ∧
     ∀ i, i < 128 → ((1 : Mask).getLsbD i = true ↔ takesIn s ⟨0, 1⟩ o i)) := by
  refine ⟨⟨_, _, lready ?_ rfl⟩, lready ?_ rfl, lready ?_ rfl, ?_,
    ?_, ?_, ?_,
    ⟨{ bench 1 [] with cur := { (bench 1 []).cur with
      dq := [⟨false, false, 9, 0, 0⟩, ⟨false, false, 8, 0, 0⟩], rq := List.replicate 14 0, blocks := put (bench 1 []).cur.blocks 3 .off } },
      rfl, ?_⟩, lready ?_ rfl, lready ?_ rfl, ?_⟩ <;> decide +kernel

/-- A path of lanes 0 to 3 at offset 3, of which p1 holds in the lanes `t`, with other path state as `f` leaves it. -/
def diverging (t : Mask) (f : LState → LState) : State :=
  withCur (bench 15 []) fun g => { g with l := f { g.l with ps0 := some ⟨3, 15⟩, preds := put g.l.preds 1 t } }
def branchOp : LOp := { plainOp .s32 with mods := 1, w2 := 0xFFFF0001 }

/-- The hypotheses of O34. -/
theorem witness_Paths :
    (reaches 3 (branchOp.w2.extractLsb' 16 16) 0 ∧ reaches 3 (branchOp.w2.extractLsb' 0 16) 6) ∧
    (let s := diverging 0 id
     readyL s (s.ctlUse branchOp) ⟨3, 15⟩ = true ∧ ∀ i, i < 128 → ((0 : Mask).getLsbD i = true ↔ takesIn s ⟨3, 15⟩ branchOp i)) ∧
    (let s := diverging 5 id
     readyL s (s.ctlUse branchOp) ⟨3, 15⟩ = true ∧ ∀ i, i < 128 → ((5 : Mask).getLsbD i = true ↔ takesIn s ⟨3, 15⟩ branchOp i)) ∧
    (let s := diverging 15 id
     readyL s (s.ctlUse branchOp) ⟨3, 15⟩ = true ∧ ∀ i, i < 128 → ((15 : Mask).getLsbD i = true ↔ takesIn s ⟨3, 15⟩ branchOp i)) ∧
    (∀ i : Fin 128, (15 : Mask).getLsbD i = true → (diverging 5 id).cur.l.nest[i] ≠ 255) ∧
    ((diverging 5 id).cur.l.stack.length < 8 ∧ topRegion (diverging 5 id).cur.l.stack = none) ∧
    (let s := diverging 5 fun l => { l with stack := [⟨.loop, 6, 15⟩] }
     readyL s (s.ctlUse branchOp) ⟨3, 15⟩ = true ∧ topRegion s.cur.l.stack = some (⟨.loop, 6, 15⟩, []) ∧ (5 : Mask) ≠ 0) ∧
    (∀ other ∈ [none, some (⟨6, 240⟩ : Path)],
      let s := diverging 0 fun l => { l with stack := [⟨.join, 3, 255⟩], ps1 := other }
      readyL s (s.ctlUse branchOp) ⟨3, 15⟩ = true ∧ s.cur.l.hold = none ∧ s.cur.l.stack = ⟨.join, 3, 255⟩ :: [] ∧ (255 : Mask) ≠ 0 ∧
      s.cur.path (!s.ps1) = other) ∧
    (let s := diverging 0 fun l => { l with stack := [⟨.loop, 6, 255⟩] }
     readyL s (s.ctlUse branchOp) ⟨3, 15⟩ = true ∧ s.cur.l.stack = ⟨.loop, 6, 255⟩ :: [] ∧
     (∀ i, i < 128 → ¬ takesIn s ⟨3, 15⟩ branchOp i) ∧ s.cur.path (!s.ps1) = none) ∧
    (let s := { vectored with cur := (diverging 5 id).cur }
     readyL s (s.ctlUse branchOp) ⟨3, 15⟩ = true ∧ (∀ i, i < 128 → ((5 : Mask).getLsbD i = true ↔ takesIn s ⟨3, 15⟩ branchOp i)) ∧
     Interruptible s ∧ s.cur.lWaits = false ∧ s.canEnter = true ∧
     s.vectorEntry (s.coreOf s.cur) (s.ctxOf s.cur) 0x0F = (some (vecEntry, true), s)) ∧
    (∀ st ∈ [[⟨.join, 9, 255⟩], [⟨.loop, 3, 255⟩], ([] : List StackEntry)],
      let s := diverging 0 fun l => { l with stack := st, nest := put l.nest 0 2 }
      readyL s (s.ctlUse branchOp) ⟨3, 15⟩ = true ∧ s.cur.l.hold = none ∧
      (topRegion s.cur.l.stack).all (fun x => x.1.kind != .join || x.1.pc != 3) = true ∧
      ∀ i, i < 128 → ((1 : Mask).getLsbD i = true ↔ (15 : Mask).getLsbD i = true ∧
        (st.filter fun e => e.kind != .park && e.mask.getLsbD i).length < (look s.cur.l.nest i 0).toNat)) := by
  refine ⟨?_, ?_, ?_, ?_, ?_, ?_, ?_, ?_, ?_, ⟨?_, ?_, by constructor <;> decide +kernel, ?_, ?_,
    pairOf ?_ (State.vectorEntry_held ?_)⟩, ?_⟩ <;> decide +kernel

/-- The hypotheses of O35. -/
theorem witness_Holds :
    (let s := diverging 15 id
     readyL s { free := false } ⟨3, 15⟩ = true ∧ s.cur.converged = true ∧ s.cur.path (!s.ps1) = none ∧ s.cur.l.stack = [] ∧
     readyL s (s.ctlUse branchOp) ⟨3, 15⟩ = true ∧ (15 : Mask) &&& ~~~15 = 0 ∧
     ∀ i, i < 128 → ((15 : Mask).getLsbD i = true ↔ takesIn s ⟨3, 15⟩ branchOp i)) ∧
    (let s := diverging 5 fun l => { l with ps1 := some ⟨9, 240⟩ }
     readyL s { free := false } ⟨3, 15⟩ = true ∧ s.cur.path (!s.ps1) ≠ none ∧ s.cur.l.hold = none ∧ s.cur.l.stack = []) ∧
    (∀ h ∈ [HoldKind.vbar 3, .lend],
      let s := diverging 5 fun l => { l with hold := some ⟨h, 240⟩ }
      readyL s { free := false } ⟨3, 15⟩ = true ∧ s.cur.path (!s.ps1) = none ∧ s.cur.l.stack = [] ∧
      s.cur.l.hold = some ⟨h, 240⟩ ∧ (240 : Mask) ||| 15 ≠ 0) ∧
    (let s := diverging 5 id
     s.cur.converged = true ∧ (15 : Mask) &&& ~~~5 ≠ 0 ∧ ∀ i, i < 128 → ((5 : Mask).getLsbD i = true ↔ takesIn s ⟨3, 15⟩ branchOp i)) := by
  decide +kernel

/-- Lanes 0 and 127 with k1 at a base in page 0x20000. -/
def laneMask : Mask := 1 ||| (1 <<< 127)
def lanesAt (base : Word) : State :=
  (withCur (bench laneMask [(3, 8)]) fun g => { g with l := { g.l with k := put g.l.k 1 base } }).mapCode 0x20000 0x3000
def lanesOp : LOp := { plainOp .s32 with vd := 31, a := ⟨3, .keep⟩, b := ⟨4, .last⟩, c := .kreg 1, mods := 4, w2 := 0xFF0 }

theorem laneChecks {c : LaneChecks} {v : State} {qs : List Req} {fs : List LaneFault} {w : Bool} (h : c.st = v) (h1 : c.reqs = qs)
    (h2 : c.fails = fs) (h3 : c.wait = w) : c = ⟨v, qs, fs, w⟩ := by cases c; simp_all

/-- The three instructions of one lane access each, with their uses and kinds. -/
def laneForms : List (LUse × AccKind) :=
  [(memUse lanesOp false true false true, .vload 4 true), (memUse lanesOp true false false false, .store 4),
    (memUse lanesOp true true false false, .vatom 0 .s32)]

/-- The requests of the lanes of a mask. -/
def laneReqs (s : State) (m : Mask) : List Req := (lanesOf m).map fun i => reqOf i (laneAddress s lanesOp [] i) 0 4 0 0

/-- A replay of lane 127, of an instruction that completed lane 0. -/
def redoing : Replay := ⟨false, 1 <<< 127, none, 1⟩

/-- The hypotheses of O36. -/
theorem witness_LaneAccesses :
    (∀ redo ∈ [none, some redoing],
      let s := withCur (lanesAt 0x20000) fun g => { g with replay := redo }
      let sel : Mask := match redo with | none => s.cur.selected laneMask lanesOp.g | some r => r.mask &&& s.cur.l.live
      s.cur.replay = redo ∧ (∀ r, redo = some r → r.ps1 = s.ps1) ∧ s.cur.acquiring true laneMask = false ∧ sel ≠ 0 ∧
      s.cur.count .ld < 255 ∧ s.cur.count .st < 255 ∧ ∀ x ∈ laneForms,
        let g := s.cur.applyHints x.1.reads
        let v : State := { s with cur := g }
        LReady s { x.1 with pops := if redo.isSome then 0 else x.1.pops } ⟨0, laneMask⟩ [] s.cur ∧
        v.checkLanes x.2.access (laneReqs s sel) = ⟨v, (v.checkLanes x.2.access (laneReqs s sel)).reqs, [], false⟩) ∧
    (let s := lanesAt 0x20000
     let o := { plainOp .s32 with vd := 24, b := ⟨24, .keep⟩, c := .kreg 1, mods := 3 }
     let rs := (List.range 8).flatMap fun i => (lanesOf (s.cur.selected laneMask o.g)).map fun j =>
       reqOf (128 * i + j) (0x20000 + BitVec.ofNat 64 (512 * i + 4 * j)) 0 4 0 0
     let us : LUse := (({ writes := (List.range 8).map fun i => (24 : BitVec 8) + BitVec.ofNat 8 i } : LUse).withC o.c).withGuard o.g
     (∃ i, i < 128 ∧ actsOn s ⟨0, laneMask⟩ lanesOp.g i) ∧
     LReady s us ⟨0, laneMask⟩ [] s.cur ∧ s.cur.rangeBad 24 8 = false ∧ (laneAddress s { o with mods := 0 } [] 0).toNat % 64 = 0 ∧
     ∀ k ∈ [AccessKind.read, .write], s.checkLanes k rs = ⟨s, (s.checkLanes k rs).reqs, [], false⟩) := by
  refine ⟨fun redo hr => ?_, ⟨127, by decide +kernel⟩, lready ?_ rfl, ?_, ?_, fun k hk => ?_⟩
  · simp only [List.mem_cons, List.not_mem_nil, or_false] at hr
    rcases hr with rfl | rfl <;>
      refine ⟨rfl, (by intro r h; cases h <;> rfl), ?_, ?_, ?_, ?_, fun x hx => ?_⟩ <;> try decide +kernel
    all_goals
      simp only [laneForms, List.mem_cons, List.not_mem_nil, or_false] at hx
      rcases hx with rfl | rfl | rfl <;>
        exact ⟨lready (by decide +kernel) rfl, laneChecks (State.checkLanes_held (by decide +kernel)) rfl (by decide +kernel)
          (by decide +kernel)⟩
  · decide +kernel
  · decide +kernel
  · decide +kernel
  · simp only [List.mem_cons, List.not_mem_nil, or_false] at hk
    rcases hk with rfl | rfl <;>
      exact laneChecks (State.checkLanes_held (by decide +kernel)) rfl (by decide +kernel) (by decide +kernel)

/-- Lanes 0 and 127 at a base in page 0x20000 of firmware with a vector: with an odd base both lanes are misaligned, with `odd` lane
127 alone. -/
def lanesFail (base : Word) (odd : Bool) : State :=
  { vectored.mapCode 0x20000 0x3000 with
    cur := (withCur (lanesAt base) fun g => { g with
      l := { g.l with vregs := put g.l.vregs 3 (Vector.ofFn fun i => if odd && i.val == 127 then 1 else 8) } }).cur }
def oddLane (i : Nat) : LaneFault := ⟨i, mf 0x07 0 0x20FF9⟩

/-- Both lanes of each form fail. -/
theorem lanesFail_checks {x : LUse × AccKind} (hx : x ∈ laneForms) :
    let s := lanesFail 0x20001 false
    LReady s x.1 ⟨0, laneMask⟩ [] s.cur ∧
      ({ s with cur := s.cur.applyHints x.1.reads } : State).checkLanes x.2.access (laneReqs s laneMask) =
        ⟨{ s with cur := s.cur.applyHints x.1.reads }, [], [oddLane 0, oddLane 127], false⟩ := by
  simp only [laneForms, List.mem_cons, List.not_mem_nil, or_false] at hx
  rcases hx with rfl | rfl | rfl <;>
    exact ⟨lready (by decide +kernel) rfl, laneChecks (State.checkLanes_held (by decide +kernel)) (by decide +kernel) (by decide +kernel)
      (by decide +kernel)⟩

/-- The hypotheses of O36, lanes that fail a check at the issue of each form. -/
theorem witness_LaneFaults :
    (let s := lanesFail 0x20001 false
     let fs := [oddLane 0, oddLane 127]
     Interruptible s ∧ s.cur.lWaits = false ∧ s.cur.replay = none ∧ s.cur.acquiring true laneMask = false ∧
     (∀ f ∈ fs, 5 ≤ f.mf.code.toNat ∧ f.mf.code.toNat ≤ 0x0A) ∧ s.cur.count .ld < 255 ∧ s.cur.count .st < 255 ∧
     (∀ x ∈ laneForms, LReady s x.1 ⟨0, laneMask⟩ [] s.cur ∧
       ({ s with cur := s.cur.applyHints x.1.reads } : State).checkLanes x.2.access (laneReqs s laneMask) =
         ⟨{ s with cur := s.cur.applyHints x.1.reads }, [], fs, false⟩) ∧
     FaultsMet s fs true false 0x06 (BitVec.ofNat 64 0) true false) := by
  refine ⟨by constructor <;> decide +kernel, ?_, ?_, ?_, ?_, ?_, ?_,
    fun x hx => lanesFail_checks hx, faultsMet (c := vectored.ctxOf vectored.cur) rfl ?_ rfl ?_ ?_ ?_⟩ <;> decide +kernel

/-- The hypotheses of O36, at the issue of a store and at the response of a load, lanes that fail beside lanes that pass. -/
theorem witness_LanePartFaults :
    (let s := lanesFail 0x20000 true
     let x := (memUse lanesOp true false false false, AccKind.store 4)
     let u : State := { s with cur := s.cur.applyHints x.1.reads }
     let c := u.checkLanes x.2.access (laneReqs s laneMask)
     LReady s x.1 ⟨0, laneMask⟩ [] s.cur ∧ c = ⟨u, c.reqs, [⟨127, mf 0x07 0 0x20FF1⟩], false⟩ ∧ c.reqs.length = 1) ∧
    (let a : Access := { flying (.vload 4 true) 9 false ⟨0, 0x20000, 0x3000, 4, 0, 0, some 7, none⟩ with
       l := true, path := laneMask, sel := laneMask, fails := [oddLane 127], snap := .l LState.start }
     let s := withCur (lanesFail 0x20000 true) fun g => { g with accs := [a], seq := 1 }
     Interruptible s ∧ s.cur.lWaits = true ∧ s.cur.accs = [a] ∧ (∀ f ∈ a.fails, f.mf.code = 7 ∧ f.lane < 128) ∧
     (a.fails.map LaneFault.lane).Pairwise (· < ·) ∧ (∀ r ∈ a.reqs, r.err = none ∧ r.ans ≠ none ∧ r.lane < 128) ∧
     (a.reqs.map Req.lane).Pairwise (· < ·) ∧ s.cur.powered a.dest = true ∧ a.dest.toNat < 248 ∧
     FaultsMet (withCur s fun g => { g with accs := [], done := 1 }) a.fails true false 0 a.pc false false) := by
  refine ⟨⟨lready ?_ rfl, laneChecks (State.checkLanes_held ?_) rfl ?_ ?_, ?_⟩, by constructor <;> decide +kernel, ?_, rfl, ?_, ?_,
    ?_, ?_, ?_, ?_, faultsMet (c := vectored.ctxOf vectored.cur) rfl ?_ rfl ?_ ?_ ?_⟩ <;> decide +kernel

/-- The hypotheses of O37. -/
theorem witness_LaneScratchpad :
    (let s := lanesAt 0
     s.cur.replay = none ∧ s.cur.acquiring true laneMask = false ∧ s.releaseHeld true laneMask .rlx .grp = false ∧ s.cur.count .rs < 255 ∧
     s.cur.count .st < 255 ∧
     readyL s (memUse lanesOp false true false true) ⟨0, laneMask⟩ = true ∧ readyL s (memUse lanesOp true false false false) ⟨0, laneMask⟩ = true ∧
     ∀ k ∈ [AccessKind.read, .write], ∀ i, i < 128 → actsOn s ⟨0, laneMask⟩ lanesOp.g i →
       isPeer (laneAddress s lanesOp [] i) = false ∧ s.ownTarget (laneAddress s lanesOp [] i) 4 = .inr benchTeam ∧
       s.peerPending true laneMask benchTeam.id (offsetIn (laneAddress s lanesOp [] i)) 4 = false ∧
       (s.core benchTeam.core).bankAns (benchTeam.base * 8192 + offsetIn (laneAddress s lanesOp [] i)) 4 k
         (laneAddress s lanesOp [] i) = .go) ∧
    (let s := lanesAt 0x200000
     readyL s (memUse lanesOp false true false true) ⟨0, laneMask⟩ = true ∧ readyL s (memUse lanesOp true false false false) ⟨0, laneMask⟩ = true ∧
     readyL s (memUse lanesOp true true false false) ⟨0, laneMask⟩ = true ∧ ∀ i, i < 128 → actsOn s ⟨0, laneMask⟩ lanesOp.g i →
       isPeer (laneAddress s lanesOp [] i) = true ∧ s.outErr (laneAddress s lanesOp [] i) 4 = none) ∧
    (let s := lanesAt 0
     readyL s (memUse lanesOp true true false false) ⟨0, laneMask⟩ = true ∧ ∀ i, i < 128 → actsOn s ⟨0, laneMask⟩ lanesOp.g i →
       isPeer (laneAddress s lanesOp [] i) = false ∧ s.outErr (laneAddress s lanesOp [] i) 4 = none) := 
  ⟨by decide +kernel, by decide +kernel, by decide +kernel⟩

/-- The hypotheses of O38. -/
theorem witness_StreamEvents :
    (let s := withCur State.reset fun g => { g with
       lpend := [⟨3, 1, [], [], []⟩], accs := [{ flying (.load 4 true) 0 false (reqOf 255 0 0 4 0 0) with l := true, seq := 3 }] }
     s.group? 0 = some s.cur ∧ ∀ a ∈ s.cur.accs, a.l = true → a.valued = true → 3 ≤ a.seq) ∧
    (let e : DqEntry := ⟨true, false, 5, 7, 0⟩
     let s := withCur State.reset fun g => { g with dq := [⟨true, true, 4, 6, 0⟩, e] }
     s.issues s.cur = true ∧ s.cur.running = false ∧ s.cur.handler = none ∧ s.cur.l.live ≠ 0 ∧ s.cur.dq = [⟨true, true, 4, 6, 0⟩] ++ e :: [] ∧
     (∀ x ∈ [(⟨true, true, 4, 6, 0⟩ : DqEntry)], x.block = false ∨ x.handler = true) ∧ e ∉ [(⟨true, true, 4, 6, 0⟩ : DqEntry)]) ∧
    (let s := withCur State.reset fun g => { g with
       l := { g.l with life := (put g.l.life 255 .live).map id }, blocks := put (put g.blocks 30 .ret) 29 (.waking 0 true) }
     look s.cur.blocks 31 .off = .off ∧ look s.cur.l.life (8 * 31 + 7) .dead = .live ∧ look s.cur.blocks 30 .off ≠ .off ∧
     (∀ i, i < 8 → look s.cur.l.life (8 * 30 + i) .dead = .dead) ∧ look s.cur.blocks 29 .off = .waking 0 true ∧
     0 ≤ s.cyclesOf (s.coreOf s.cur)) ∧
    (let s := State.reset.mapCore 191 fun c => { c with banks := put c.banks 47 (.waking 0 true) }
     look (s.core 191).banks 47 .off = .waking 0 true ∧ 0 ≤ s.cyclesOf 191) := by
  refine ⟨⟨rfl, ?_⟩, ?_, ?_, ?_⟩ <;> decide +kernel

/-- The hypotheses of O39. -/
theorem witness_Stops :
    (let s := withCur vectored fun g => { g with wdog := 2 ^ 34 }
     Interruptible s ∧ s.canEnter = true ∧ s.cur.watched = true ∧ s.wdogLimit s.cur ≤ s.cur.wdog ∧
     s.vectorEntry (s.coreOf s.cur) (s.ctxOf s.cur) 0x10 = (some (vecEntry, true), s)) ∧
    (∀ st ∈ [({ parkedStop with kind := .event, code := 0x17 } : Stop), { parkedStop with kind := .imprecise, code := 0x0C }],
      let s := withCur vectored fun g => { g with stops := [st] }
      let u := s.mapCur fun g => { g with stops := [] }
      Interruptible s ∧ s.onMove = false ∧ st.l = false ∧ memoryCode st.code = false ∧ st.queued = true ∧ u.canEnter = true ∧ st.code ≠ 0x10 ∧ u.cur.uid = s.cur.uid ∧
      u.vectorEntry (s.coreOf s.cur) (s.ctxOf s.cur) st.code = (some (vecEntry, true), u)) ∧
    (let g : Group := { Group.start with status := .shadow { parkedStop with code := 0x17 } vecEntry }
     ({ vectored with cur := g } : State).canEnter = true) := by
  refine ⟨⟨by constructor <;> decide +kernel, ?_, ?_, ?_, pairOf ?_ (State.vectorEntry_held ?_)⟩, fun st hst => ?_, ?_⟩
  · decide +kernel
  · decide +kernel
  · decide +kernel
  · decide +kernel
  · decide +kernel
  · simp only [List.mem_cons, List.not_mem_nil, or_false] at hst
    rcases hst with rfl | rfl <;>
      refine ⟨by constructor <;> decide +kernel, ?_, ?_, ?_, ?_, ?_, ?_, ?_, pairOf ?_ (State.vectorEntry_held ?_)⟩ <;> decide +kernel
  · decide +kernel

/-- The hypotheses of O39, a fetch that faults. -/
theorem witness_FetchFaults :
    (vectored.cur.sWaits = false ∧ vectored.cur.lWaits = false ∧
     let fs : List LaneFault := [⟨255, ⟨0x0A, 3, 0x4000, 0x5000⟩⟩]
     issueFault ⟨0x0A, 3, 0x4000, 0x5000⟩ ∧ FaultsMet vectored fs false false 0x08 vectored.cur.s.pc false false ∧
     FaultsMet vectored fs true vectored.ps1 0x08 vectored.lpc false false) := by
  refine ⟨?_, ?_, ⟨?_, ?_⟩, faultsMet (c := vectored.ctxOf vectored.cur) rfl ?_ rfl ?_ ?_ ?_,
    faultsMet (c := vectored.ctxOf vectored.cur) rfl ?_ rfl ?_ ?_ ?_⟩ <;> decide +kernel

/-- Grid 1 of context 1, of two gangs, pending with the first of them next. -/
def pendingGrid (next : Nat) (cword : Word) : Grid :=
  ⟨1, 1, { LaunchRec.firmware with gx := 2, cword := cword }, none, 1, 0, false, next, next, true, 0, 0, 281, none⟩
def launching (g : Grid) : State := { twoContexts 0 0x20000 with grids := [.firmware, g] }

/-- The one grid that waits is the queue. -/
theorem pending_one {s : State} {part : Nat} {gr : Grid} (h : (s.grids.filter fun g => g.pending && g.ending.isNone &&
    ((s.ctx? g.ctx).any fun c => c.part == part && c.st == .run)) = [gr]) : s.pendingGrids part = [gr] := by
  unfold State.pendingGrids
  dsimp only
  rw [h]
  simp

theorem pending_launching : (launching (pendingGrid 0 0)).pendingGrids 0 = [pendingGrid 0 0] := pending_one (by decide +kernel)

/-- The hypotheses of O40. -/
theorem witness_LaunchEvents :
    (let s := launching (pendingGrid 0 0)
     let gr := pendingGrid 0 0
     (∃ num pos cluster bar ps, (s.pendingGrids 0).findSome? (fun gr => (s.placeGang gr 0).map fun x => (gr, x)) =
       some (gr, num, pos, cluster, bar, ps)) ∧ gr.next + 1 ≠ gr.launch.gx * gr.launch.gy * gr.launch.gz) ∧
    (let tm := { Team.firmware with id := 1, gang := 1, core := 191, base := 47, units := 1 }
     let s := { State.reset with
       teams := [.firmware, tm], others := [other, { other with uid := 2, team := 1, status := .exited }] }
     s.team? tm.id = some tm ∧ s.teamDone tm = true ∧ tm.gang ≠ 0 ∧ (∃ g ∈ s.others, g.team ≠ tm.id) ∧
     (s.groups.map Group.uid).Nodup ∧ tm.core < 192) ∧
    (let gr := pendingGrid 2 0
     let s := launching gr
     s.grid? gr.id = some gr ∧ s.gridDone gr = true ∧ gr.id ≠ 0 ∧ gr.launch.cword = 0) ∧
    (let gr := pendingGrid 2 0x20000
     let s := (launching gr).mapCore 0 fun c => { c with tlb := [⟨1, 0x20000, 4096, 0x3000, true, true, 0, true, []⟩] }
     s.grid? gr.id = some gr ∧ s.gridDone gr = true ∧ gr.id ≠ 0 ∧ gr.launch.cword ≠ 0 ∧
     s.ctxPa (48 * gr.quad) { Ctx.fresh 1 0 0 with st := .run } .user .write gr.launch.cword = ⟨.inr 0x3000, s⟩ ∧
     s.globalLocked 1 gr.launch.cword 8 = false ∧
     (s.ctxWrite (48 * gr.quad) { Ctx.fresh 1 0 0 with st := .run } .user gr.launch.cword (bytesOf 8 (2 ^ 24))).1 = none ∧
     s.ctx? gr.ctx = some { Ctx.fresh 1 0 0 with st := .run }) ∧
    (let s := paged (Cells.write [] 0x3000 record) 0
     let r : RootGrid := ⟨0, 0, 0, 0x20000, false, 281⟩
     let c := s.ctxOf s.cur
     s.ctx? r.ctx = some c ∧ r.fn = 0 ∧ (r.src = 281 ∧ c.st ≠ .empty ∧ r.quad < 4 ∧ s.pendingIn r.quad < 64 ∧ r.addr.toNat % 128 = 0) ∧
     s.ctxRead (48 * r.quad) c .super .read r.addr 64 = (.inr (record.take 64), s) ∧
     s.ctxRead (48 * r.quad) c .super .read (r.addr + 64) 64 = (.inr (record.drop 64), s) ∧
     s.launchValid c (record.take 64 ++ record.drop 64) = true) ∧
    (Ctx.fresh 1 0 0).st = .empty ∧ (Ctx.fresh 1 0 0).unstarted = true ∧ State.reset.gangs.length < 2 ^ 20 := by
  refine ⟨⟨?_, by decide +kernel⟩, by decide +kernel, by decide +kernel, ?_, ?_, by decide +kernel⟩
  · obtain ⟨x, hx⟩ := Option.isSome_iff_exists.mp
      (by decide +kernel : ((launching (pendingGrid 0 0)).placeGang (pendingGrid 0 0) 0).isSome = true)
    obtain ⟨num, pos, cluster, bar, ps⟩ := x
    refine ⟨num, pos, cluster, bar, ps, ?_⟩
    rw [pending_launching, List.findSome?_cons, hx]
    rfl
  · refine ⟨?_, ?_, ?_, ?_, transOf ?_ (State.ctxPa_held ?_), ?_⟩ <;> decide +kernel
  · refine ⟨?_, rfl, ?_, pairOf ?_ (State.ctxRead_held ?_), pairOf ?_ (State.ctxRead_held ?_), ?_⟩ <;> decide +kernel

/-- An MMA of two rows from row 30, with cycle 1000 of the clock of core 0. -/
def mma : MxCmd :=
  ⟨5, 0, 0, 0, 0, 0, .mma 30 2 [List.replicate 64 1, List.replicate 64 255] 4 4 0 false false 0 0 0, 0, false, false, false, 1, 0, 0, 0, 0⟩
def computing (ws : List Wave) (c : MxCmd) : State :=
  let s := bench 0 []
  { s with cmds := [c], waves := ws, doms := put s.doms 0 { Dom.reset true with cycles := 1000 } }

/-- The hypotheses of O41. -/
theorem witness_Waves :
    (let s := computing [] mma
     nextMma (s.cmds.filter fun c => c.core == 0 && c.tag == 0) = some mma ∧
     mma.kind = .mma 30 2 [List.replicate 64 1, List.replicate 64 255] 4 4 0 false false 0 0 0 ∧ (s.group? mma.uid).isSome ∧
     (s.tag 0 0).st = .active ∧ 0 + 8 + mma.prepared ≤ s.cyclesOf 0 ∧ s.lockConflict mma.id = false) ∧
    (let w : Wave := ⟨5, 0, 0, 0, [], none, none, false⟩
     let s := computing [w] mma
     ((s.core 0).inj = none ∧ (s.core 0).turn = none ∧ ((s.core 0).rot.toNat + 1 + 0) % 16 = 0) ∧ s.waveReady 0 0 = true ∧
     s.waves = [] ++ w :: []) ∧
    (let w : Wave := ⟨5, 0, 0, 0, [], none, none, false⟩
     let s := (computing [w] mma).mapCore 0 fun c => { c with turn := some 0, rot := 0, inj := some 999 }
     (∀ i, (s.core 0).inj = some i → i + (s.core 0).cadence ≤ s.cyclesOf 0) ∧ s.waveReady 0 (s.core 0).rot.toNat = true ∧
     (0 : Nat) ≤ (s.tag 0 (s.core 0).rot.toNat).qm1.toNat) ∧
    (let w : Wave := ⟨5, 0, 0, 1, [], none, some 800, false⟩
     let s := computing [w] mma
     s.oldestWave 0 = some w ∧ w.inj.getD 0 + 200 ≤ s.cyclesOf 0 ∧ s.cmd? w.cmd = some mma ∧ mma.killed = false ∧
     mma.finished + 1 ≠ 2 ∧ 30 + w.row = 31 ∧ w.null = none ∧ s.slotBad = [] ∧ s.acc.wf = true) ∧
    (let w : Wave := ⟨5, 0, 0, 1, [], none, some 800, false⟩
     let c : MxCmd := { mma with finished := 1 }
     let s := withCur (computing [w] c) fun g => { g with tokens := [⟨.mx, 5, false⟩] }
     s.oldestWave 0 = some w ∧ w.inj.getD 0 + 200 ≤ s.cyclesOf 0 ∧ s.cmd? w.cmd = some c ∧ c.killed = false ∧ c.finished + 1 = 2 ∧
     s.group? c.uid = some s.cur ∧ ∃ x ∈ s.cur.tokens, x.id = c.id) := by
  refine ⟨by decide +kernel, by decide +kernel, ⟨?_, by decide +kernel, by decide +kernel⟩, by decide +kernel, by decide +kernel⟩
  intro i hi
  have h : ((((computing [⟨5, 0, 0, 0, [], none, none, false⟩] mma).mapCore 0 fun c =>
    { c with turn := some 0, rot := 0, inj := some 999 }).core 0).inj) = some 999 := by decide +kernel
  rw [h] at hi
  cases hi
  decide +kernel

/-- The hypotheses of O42. -/
theorem witness_TagCommands :
    (∀ b ∈ [false, true],
      let c := { mma with kind := .wload 4 0 false 8192 0, begun := b }
      let s := computing [] c
      s.headCmd 0 0 = some c ∧ s.cmds.Pairwise (fun x y => x.id ≠ y.id) ∧ s.lockConflict c.id = false ∧ s.slots.wf = true ∧
      128 * mxCol 4 false ≤ 8192) ∧
    (let c := { mma with kind := .mzero 31 1 }
     (computing [] c).headCmd 0 0 = some c ∧ (computing [] c).lockConflict c.id = false) ∧
    (∀ b ∈ [false, true],
      let c := { mma with kind := .drain false 247 0 .s32 .rne false false none 31 1 [] [] 0, begun := b }
      let a : Access := ⟨0, true, false, 0, .drain 5 1 b, 247, .rlx, .grp, false, [], [], BitVec.allOnes 128, none, 0, false, .none, 0, [], [], false⟩
      let s := withCur (computing [] c) fun g => { g with accs := [a] }
      s.headCmd 0 0 = some c ∧ s.lockConflict c.id = false ∧ (∀ i, i < 1 → (s.tag 0 0).pois.getLsbD (31 + i) = false) ∧ c.uid = s.cur.uid ∧
      s.cur.accs = [a] ∧ mxInt (s.tag 0 0).bfmt (s.tag 0 0).blen = true ∧ (247 : BitVec 8).toNat + 1 ≤ 248 ∧ s.cur.s.flags = 0 ∧
      (∀ i, i < 1 → s.cur.powered (247 + BitVec.ofNat 8 i) = true)) ∧
    (let s := State.reset.mapCore 191 fun c => { c with tags := put c.tags 15 { Tag.free with st := .dying, bank := 15, slot := 7, pois := 1 } }
     (s.tag 191 15).st = .dying ∧ s.waves = [] ∧ s.cmds = []) := by decide +kernel

/-- Firmware as a group of context 1, which is in a state of the ladder. -/
def onLadder (ctx : Nat) (st : Ladder) : State :=
  let s := { twoContexts ctx 0 with time := 3000000 }
  s.mapCtx 1 fun c => { c with st := st }

/-- The hypotheses of O43. -/
theorem witness_Ladder :
    (∀ st ∈ [Ladder.run, .asked, .halting, .halted], ∀ k ∈ [0, 1],
      let s := onLadder k st
      let c := { Ctx.fresh 1 0 0 with st := st }
      c.id ≠ 0 ∧ s.ctx? c.id = some c ∧ s.groups = [s.cur] ∧ (s.gridOf s.cur).ctx = k ∧ s.cur.parked = false ∧ s.cur.status = .run ∧
      s.cur.handler = none ∧ s.dev.tmig ≠ .pending ∧ c.grace0 + 1000 * max 1 c.pgrace.toNat ≤ s.time ∧
      c.strike0 + 1000 * max 1 c.pstrike.toNat ≤ s.time ∧ c.challenge = none ∧ s.dev.biv = .awake) ∧
    (onLadder 0 .halting).ctxDrained 1 = true ∧
    (∀ core tag, core < 192 → tag < 16 → ((onLadder 1 .halting).tag core tag).st = .free) := by
  refine ⟨?_, by decide +kernel, ?_⟩
  · intro st hst k hk
    simp only [List.mem_cons, List.not_mem_nil, or_false] at hst hk
    rcases hst with rfl | rfl | rfl | rfl <;> rcases hk with rfl | rfl <;>
      exact ⟨by decide +kernel, by decide +kernel, rfl, by decide +kernel⟩
  · intro core tag hc ht
    have h : (onLadder 1 .halting).core core = .reset := by
      show look (Vector.replicate 192 CoreState.reset) core .reset = .reset
      simp [look, hc]
    rw [State.tag, h]
    simp [look, CoreState.reset, ht, Tag.free]

/-- Function 1 of partition 0 in a migration state, with context 1 in a state of the ladder. -/
def migrating (st : MigState) (l : Ladder) (dirty : Word) : State :=
  let s := onLadder 0 l
  { s with
    parts := put s.parts 0 { Part.free with clusters := 1, live := true, funcs := 2, slices := 1 }
    migs := [⟨1, st, false, dirty, 0, true, []⟩] }

/-- The hypotheses of O44. -/
theorem witness_Migration :
    (∀ st ∈ [MigState.running, .precopy, .stopping, .resuming], ∀ l ∈ [Ladder.run, .halted, .empty],
      let s := migrating st l 0x1000
      s.mgmtOn = true ∧ s.dev.biv = .awake ∧ (s.ctxs.map Ctx.id).Nodup ∧ (s.mig 1).st = st ∧ (s.fnCtxs 1).map Ctx.st = [l] ∧
      (s.fnCtxs 1).map Ctx.challenge = [none] ∧ s.mem.wf = true ∧ (s.mig 1).dirty ≠ 0 ∧ (s.mig 1).dirty.toNat + s.migLen 1 ≤ 2 ^ 50) ∧
    (State.reset.mgmtOn = true ∧ State.reset.dev.biv = .awake ∧ State.reset.fnCtxs 63 = [] ∧ (State.reset.mig 63).st = .running) ∧
    (let s := { migrating .precopy .run 0 with dev := { State.reset.dev with
       migwin := Cells.write [] (65536 + 64 * 14) (bytesOf 8 1 ++ bytesOf 8 0x3000 ++ [1, 1]) } }
     let d := s.migDesc 1 14
     s.mgmtOn = true ∧ fieldAt d 17 1 = 1 ∧ s.migFirst 1 (fieldAt d 0 8) = true ∧ fieldAt d 0 8 = (s.mig 1).seq + 1 ∧
     fieldAt d 8 8 % 4096 = 0 ∧ s.fnOwns 1 (fieldAt d 8 8) = true ∧ fieldAt d 16 1 = 1 ∧ (s.mig 1).st = .precopy ∧
     ∀ i, i < 64 → s.sliceErr (s.pageWorld 0x3000) (0x3000 + 64 * i) = none ∧ s.levelHeld (0x3000 + 64 * i) = false) := by decide +kernel

/-- Team 1 of context 1 on core 0, with a window of one bank, whose one group holds slot 0. -/
def hot (tmig : TmigStatus) (carried : Bool) : State :=
  let s := twoContexts 1 0
  { s with
    cur := { s.cur with team := 1 }
    teams := [{ Team.firmware with id := 1, units := 1, spbytes := 8192, moving := true }]
    parts := put s.parts 0 { Part.free with clusters := 2 ^ 48 - 1, live := true }
    dev := { s.dev with tmig := tmig, tcarried := carried, tteam := 1, tcore := 191, tbase := 47, tres := [(0, 0, 0)] } }

/-- The hypotheses of O45. -/
theorem witness_ThermalMoves :
    (let s := hot .idle false
     let v : Word := 191 <<< 40
     let u : State := { s with dev := { s.dev with tdst := v.extractLsb' 40 8, tsrc := v.extractLsb' 32 8, tslot := v.extractLsb' 0 7 } }
     s.dev.tmig ≠ .pending ∧ (u.moveCheck 0 0 191).isSome = true ∧ u.dev.tdst.toNat = 191 ∧ u.dev.tsrc.toNat = 0 ∧
     u.moveCheck 0 127 192 = none) ∧
    (let s := hot .pending false
     let tm := { Team.firmware with id := 1, units := 1, spbytes := 8192, moving := true }
     let u := hot .pending true
     u.dev.tmig = .pending ∧ u.dev.tcarried = true ∧ u.team? u.dev.tteam = some tm ∧
     s.dev.tmig = .pending ∧ s.dev.tcarried = false ∧ s.team? s.dev.tteam = some tm ∧ tm.moving = true ∧ s.moveDrained tm = true ∧ tm.core < 192 ∧
     s.dev.tcore < 192 ∧ tm.core ≠ s.dev.tcore ∧ tm.base + tm.units ≤ 48 ∧ s.dev.tbase + tm.units ≤ 48 ∧ s.sp.wf = true) := by
  decide +kernel

/-- A device with a live pod partition that owns port 23, slice 0 and function 5, and a line of a protected world; the flow
with id 9 is broken. -/
def pod : State :=
  { State.reset with
    parts := put State.reset.parts 15 { Part.free with clusters := 1, live := true, podPart := 7, slices := 1, ports := 0x800000, funcs := 0x20 }
    worlds := [⟨3, 15, 1, []⟩], lines := [⟨0x100, some (3, 1), false⟩], flows := [⟨9, 0, true⟩] }

/-- The next packet of a flow, without data. -/
def sealedOn (s : State) (id : Word32) : Packet :=
  let nonce := bytesOf 4 id.toNat ++ bytesOf 8 (s.flow id).next
  ⟨id, (s.flow id).next, [], gcmTag sboxTable (roundKeys sboxTable (s.flowKey id)) nonce [] []⟩

theorem accepts_sealedOn {s : State} {id : Word32} (h : (s.flow id).broken = false) (hn : (s.flow id).next ≤ 2 ^ 64 - 2) :
    s.accepts (sealedOn s id) = true := by
  simp only [State.accepts, sealedOn, packetNonce, gcmOpen_own]
  simp only [h, Bool.not_false, beq_self_eq_true, Bool.true_and, Option.isSome_some, Bool.and_true]
  exact decide_eq_true hn

/-- What a remote device asks for at port 23, in a packet of its flow. -/
def remotely (p : Word32) (w : Byte) (pa : Nat) (op : RemoteOp) : RemoteAccess :=
  ⟨23, sealedOn pod (flowId w 152 64 false), p, w, pa, op⟩

/-- The hypotheses of O46. -/
theorem witness_OutsideAccesses :
    (pod.levelHeld 0x4038 = false ∧ pod.hostReaches 5 0x4038 = true ∧ pod.hostErr 0x4038 false = true ∧ pod.hostReaches 5 0x3038 = true ∧
     pod.hostErr 0x3038 false = false ∧ 0x3038 % 64 + 8 ≤ 64 ∧ pod.mem.wf = true ∧ pod.hostErr 0x4000 true = true ∧
     pod.hostReaches 6 0x3038 = false) ∧
    (∀ w ∈ [(0 : Byte), 3], pod.accepts (sealedOn pod (flowId w 152 64 false)) = true ∧
      (sealedOn pod (flowId w 152 64 false)).flow = flowId w (129 + 23) (pod.targetPort 0x4000) false) ∧
    pod.accepts ⟨9, 0, [], []⟩ = false ∧
    (pod.mgmtOn = true ∧
     (∀ x ∈ [((8 : Word32), (0 : Byte), 0x3000), (7, 0, 0x3000), (7, 0, 0x4000), (7, 3, 0x4000)],
       pod.remoteHeld (remotely x.1 x.2.1 x.2.2 (.read 64)) = false ∧ pod.remoteHeld (remotely x.1 x.2.1 x.2.2 (.write [1])) = false ∧
       pod.podShare? (remotely x.1 x.2.1 x.2.2 (.read 64)) = (if x.1 = 7 then some 15 else none) ∧
       pod.podShare? (remotely x.1 x.2.1 x.2.2 (.write [1])) = (if x.1 = 7 then some 15 else none)) ∧
     (let u := pod.putFlow { pod.flow (flowId 0 152 64 false) with next := 1 }
      u.readErr 152 0 0x4000 ≠ none ∧ u.readErr 152 0 0x3000 = none ∧ u.writeErr 152 0 0x4000 false ≠ none ∧
      u.writeErr 152 0 0x3000 false = none) ∧
     (let u := pod.putFlow { pod.flow (flowId 3 152 64 false) with next := 1 }
      u.readErr 152 3 0x4000 = none ∧ u.writeErr 152 3 0x4000 false = none) ∧
     (let x : RemoteAtomic := ⟨some .add, 0, .s32, 8, 5, 0, 0x3000, false, 255, 0, 0, 1, 1⟩
      let a := remotely 7 0 0x3000 (.atomic x)
      pod.remoteHeld a = false ∧ pod.podShare? a = some 15 ∧ (pod.part 15).mode = 0 ∧
      atomNew .add 8 (BitVec.ofNat 64 (natOfBytes (pod.mem.read 0x3000 8))) 5 0 = some 5)) ∧
    (pod.accepts (sealedOn pod (flowId 0 0 64 false)) = true ∧ pod.group? 6 = none ∧
     (let a := flying (.store 8) 0 false (reqOf 255 0 0 8 0 0)
      let s := withCur pod fun g => { g with accs := [a] }
      s.cur.acc? 0 = some a ∧ (∃ r ∈ a.reqs, s.carries (flowId 0 0 64 false) a r = true) ∧
      ∀ r ∈ a.reqs, s.carries (flowId 0 0 65 false) a r = false)) := by
  refine ⟨by decide +kernel, ?_, by decide +kernel, by decide +kernel, accepts_sealedOn (by decide +kernel) (by decide +kernel),
    by decide +kernel⟩
  intro w hw
  simp only [List.mem_cons, List.not_mem_nil, or_false] at hw
  rcases hw with rfl | rfl <;> exact ⟨accepts_sealedOn (by decide +kernel) (by decide +kernel), by simp only [sealedOn]; decide +kernel⟩

def migTag : List Byte := gcmTag sboxTable (roundKeys sboxTable (keyBytes (Config.platformMigKey 0))) (bytesOf 8 1 ++ bytesOf 4 1) [] (zeros 4096)

/-- A posted WRITE of a page of zeros that the migration key sealed, to function 1 while it resumes. -/
def writeDesc : List Byte := (bytesOf 8 1 ++ bytesOf 8 0x3000 ++ [2, 1] ++ zeros 14) ++ (migTag ++ zeros 16)
def windowed (m : Cells) : State :=
  let s := migrating .resuming .run 0
  { s with dev := { s.dev with migwin := m } }
def posted : State := windowed (Cells.write [] 65536 writeDesc)

theorem migTag_length : migTag.length = 16 := gcmTag_length _ _ _ _ _ (roundKeys_keys _ _ (length_keyBytes _))

theorem writeDesc_length : writeDesc.length = 64 := by
  rw [writeDesc, List.length_append, List.length_append (as := migTag), migTag_length]
  rfl

theorem windowed_win (m : Cells) : (windowed m).dev.migwin = m := rfl
theorem posted_window : posted.dev.migwin = Cells.write [] 65536 writeDesc := windowed_win _

theorem posted_desc : posted.migDesc 1 0 = writeDesc := by
  have h := Cells.read_write (m := []) 65536 writeDesc rfl
  rw [writeDesc_length] at h
  rw [State.migDesc, posted_window]
  exact h

/-- Past the descriptor the window holds zeros. -/
theorem posted_zeros (a n : Nat) (h : 65600 ≤ a) : posted.dev.migwin.read a n = zeros n := by
  rw [posted_window, Cells.read_eq, zeros]
  apply List.ext_getElem (by rw [List.length_map, List.length_range, List.length_replicate])
  intro i h1 h2
  rw [List.getElem_map, List.getElem_replicate]
  exact Cells.get_write_out [] 65536 _ writeDesc (.inr (by rw [writeDesc_length]; omega))

theorem desc_fields {h t : List Byte} (hh : h.length = 32) (ht : t.length = 16) :
    let d := h ++ (t ++ zeros 16)
    (∀ o n, o + n ≤ 32 → fieldAt d o n = fieldAt h o n) ∧ (d.drop 32).take 16 = t := by
  refine ⟨?_, ?_⟩
  · intro o n hn
    rw [fieldAt, fieldAt, List.drop_append_of_le_length (by omega), List.take_append_of_le_length (by rw [List.length_drop]; omega)]
  · rw [List.drop_append, hh, List.drop_eq_nil_of_le (by omega), List.nil_append, Nat.sub_self, List.drop_zero,
      List.take_append_of_le_length (by omega), List.take_of_length_le (by omega)]

theorem windowed_state (m : Cells) :
    (windowed m).fnWorlds 1 = [0] ∧ (windowed m).mgmtOn = true ∧ (windowed m).mem.wf = true ∧
    ((windowed m).mig 1).st = .resuming ∧ ((windowed m).mig 1).seq = 0 := ⟨rfl, rfl, rfl, rfl, rfl⟩
theorem windowed_key (m : Cells) : (windowed m).migKey 0 = keyBytes (Config.platformMigKey 0) := rfl
theorem windowed_owns (m : Cells) : (windowed m).fnOwns 1 0x3000 = true := by
  have h : (windowed m).parts = (migrating .resuming .run 0).parts := rfl
  simp only [State.fnOwns, State.fnSlices, State.fnPart, State.part, h]
  decide +kernel
theorem writeDesc_fields : fieldAt writeDesc 0 8 = 1 ∧ fieldAt writeDesc 8 8 = 0x3000 ∧ fieldAt writeDesc 16 1 = 2 ∧
    fieldAt writeDesc 17 1 = 1 ∧ (writeDesc.drop 32).take 16 = migTag := by
  obtain ⟨hf, ht⟩ := desc_fields (h := bytesOf 8 1 ++ bytesOf 8 0x3000 ++ [2, 1] ++ zeros 14) (t := migTag) rfl migTag_length
  have h0 : fieldAt writeDesc 0 8 = 1 := (hf 0 8 (by omega)).trans (by decide +kernel)
  have h8 : fieldAt writeDesc 8 8 = 0x3000 := (hf 8 8 (by omega)).trans (by decide +kernel)
  have h16 : fieldAt writeDesc 16 1 = 2 := (hf 16 1 (by omega)).trans (by decide +kernel)
  have h17 : fieldAt writeDesc 17 1 = 1 := (hf 17 1 (by omega)).trans (by decide +kernel)
  exact ⟨h0, h8, h16, h17, ht⟩

theorem posted_tag : migTag = gcmTag sboxTable (roundKeys sboxTable (keyBytes (Config.platformMigKey 0)))
  (bytesOf 8 1 ++ bytesOf 4 1) [] (zeros 4096) := rfl

theorem first_of {α : Type} {f : Byte → Option α} {l : List Byte} {y : α} (h : l = [0]) (hy : f 0 = some y) :
    l.findSome? f = some y := by
  subst h
  rw [List.findSome?_cons, hy]

theorem posted_opens : ∃ w x, (posted.fnWorlds 1).findSome? (fun w => (gcmOpen (posted.migKey w) (bytesOf 8 1 ++ bytesOf 4 1) []
    (zeros 4096) migTag).map fun x => (w, x)) = some (w, x) ∧ x.length = 4096 := by
  have h : ∃ x, gcmOpen (posted.migKey 0) (bytesOf 8 1 ++ bytesOf 4 1) [] (zeros 4096) migTag = some x := by
    rw [posted, windowed_key, posted_tag]
    exact ⟨_, gcmOpen_own _ _ _ _⟩
  obtain ⟨x, hx⟩ := h
  have hw : posted.fnWorlds 1 = [0] := by rw [posted]; exact (windowed_state _).1
  refine ⟨0, x, first_of hw ?_, ?_⟩
  · show Option.map _ (gcmOpen (posted.migKey 0) _ _ _ _) = _
    rw [hx, Option.map_some]
  · rw [gcmOpen_length (length_keyBytes _) hx, zeros, List.length_replicate]

theorem posted_first : posted.migFirst 1 1 = true := by
  rw [State.migFirst, List.all_eq_true]
  intro i hi
  cases i with
  | zero =>
    rw [posted_desc, writeDesc_fields.1]
    simp
  | succ i =>
    rw [State.migDesc, posted_zeros _ _ (by omega)]
    rfl

/-- The hypotheses of O44, the served WRITE. -/
theorem witness_MigrationWrite :
    let s := posted
    let m := s.mig 1
    let d := s.migDesc 1 0
    let seq := fieldAt d 0 8
    let pa := fieldAt d 8 8
    let nonce := bytesOf 8 seq ++ bytesOf 4 1
    s.mgmtOn = true ∧ fieldAt d 17 1 = 1 ∧ s.migFirst 1 seq = true ∧ seq = m.seq + 1 ∧ pa % 4096 = 0 ∧ s.fnOwns 1 pa = true ∧
    fieldAt d 16 1 = 2 ∧ m.st = .resuming ∧ s.mem.wf = true ∧ ∃ w x,
      (s.fnWorlds 1).findSome? (fun w => (gcmOpen (s.migKey w) nonce []
        (s.dev.migwin.read (1 * 65536 + 4096 * (0 + 1)) 4096) ((d.drop 32).take 16)).map fun x => (w, x)) = some (w, x) ∧
      x.length = 4096 := by
  obtain ⟨h0, h8, h16, h17, ht⟩ := writeDesc_fields
  obtain ⟨hw, hon, hwf, hst, hseq⟩ := windowed_state (Cells.write [] 65536 writeDesc)
  dsimp only
  rw [posted_desc, posted_zeros _ _ (by omega), h0, h8, h16, h17, show (writeDesc.drop 32).take 16 = migTag from ht]
  refine ⟨hon, rfl, ?_, by rw [posted, hseq], rfl, windowed_owns _, rfl, hst, hwf, posted_opens⟩
  exact posted_first

/-- Firmware beside context 1, with a page at 0x20000 and a length of 4096 in s2. -/
def imaging (st : Ladder) (m : Cells) : State :=
  let s := paged m 0x20000
  { s with ctxs := s.ctxs ++ [{ Ctx.fresh 1 0 0 with st := st }] }.mapCur fun g => { g with s := g.s.put 2 4096 }

/-- The image of a context with no grid. -/
def emptyImage : List Byte := State.reset.imageBytes (Ctx.fresh 1 0 0) [] 0

/-- The hypotheses of O27, CTXSAVE. -/
theorem witness_Save :
    let s := imaging .halted []
    let c := { Ctx.fresh 1 0 0 with st := .halted }
    s.cur.accs = [] ∧ SReady s .mach [3, 1, 2] false ∧ s.checkRange .write (s.sget 1) 4096 64 = ⟨.inr 0x3000, s⟩ ∧
    s.imageCtx? 1 = some c ∧ c.st = .halted ∧
    (let s1 := (s.teamsInOrder c.id).foldl State.settleFrames s
     let ss := s1.sects c.id
     let len := imageLength ss
     len ≤ (s.sget 2).toNat ∧ ∃ v w, s1.imagePages .write (s.sget 1) len = (none, v) ∧
       ({ v with fresh := v.fresh + (s.ctxGrids c.id).length }.mapCtx c.id fun x =>
         { x with counter := c.counter + 1, kept := s1.keptOf c.id }).putLines
         (linesFrom (s.sget 1) (s1.imageBytes c ss (c.counter + 1))) = (true, w) ∧ w.cur.uid = s.cur.uid) := by
  refine ⟨?_, sready ?_,
    transOf ?_ (State.checkRange_held ?_), ?_, ?_, ?_,
    _, _, pairOf ?_ rfl, pairOf ?_ rfl, ?_⟩ <;> decide +kernel

/-- The hypotheses of O27, CTXLOAD. -/
theorem witness_Load :
    let s := imaging .empty (Cells.write [] 0x3000 emptyImage)
    let c := Ctx.fresh 1 0 0
    s.cur.accs = [] ∧ SReady s .mach [3, 1] false ∧ s.checkRange .read (s.sget 1) 4096 128 = ⟨.inr 0x3000, s⟩ ∧
    ∃ v x, s.getBytes (s.sget 1) 8 = (.inr emptyImage, v) ∧ v.imageCtx? 1 = some c ∧ c.st = .empty ∧
      v.readImage c (s.sget 1) emptyImage = (.got [], x) ∧ sectsOk c.id [] = true ∧ (∃ y, x.installImage c [] = some y) := by
  refine ⟨by decide +kernel, sready (by decide +kernel),
    transOf (by decide +kernel) (State.checkRange_held (by decide +kernel)), _, _, pairOf (by decide +kernel) rfl, by decide +kernel,
    by decide +kernel, pairOf ?_ rfl, by decide +kernel, Option.isSome_iff_exists.mp ?_⟩
  · rfl
  · decide +kernel

/-- Partition 3 asked for, beside a live partition 15. -/
def asking (q : Part) : State :=
  { State.reset with parts := put (put State.reset.parts 3 { Part.free with clusters := 1 }) 15 { q with live := true } }

/-- Partition 3 is live, with contexts 1 and 2 of it and world 7; bytes in host memory at 0x3000. -/
def trusted (ctxs : List Ctx) (ws : List World) (b : List Byte) : State :=
  { State.reset with
    parts := put State.reset.parts 3 { Part.free with clusters := 1, podPart := 5, live := true }
    ctxs := [Ctx.fresh 0 0 0] ++ ctxs
    worlds := ws
    mem := Cells.write [] (2 ^ 50 + 0x3000) b
    dev := { State.reset.dev with wldkey := 0x3000 } }

/-- The descriptor of a context of partition 3 and a world. -/
def ctxDesc (id w tier : Byte) : List Byte := [id, 0, 3, w, tier] ++ zeros 27 ++ bytesOf 8 0x40 ++ bytesOf 8 0x80 ++ zeros 16

/-- The hypotheses of O47, partitions. -/
theorem witness_Partitions :
    (∀ q ∈ [Part.free, { Part.free with clusters := 3 }],
      let s := asking q
      let p := s.part 3
      s.mgmtOn = true ∧ p.live = false ∧ p.reservedOk = true ∧ p.clusters ≠ 0 ∧ p.mode.toNat ≤ 2 ∧ (p.mode ≠ 0 → p.trailOk = true) ∧
      s.routesBad p = false) ∧
    (∀ k, k < 16 → ((asking .free).part k).live = true → ((asking .free).part 3).overlaps ((asking .free).part k) = false) ∧
    (∃ k, k < 16 ∧ ((asking { Part.free with clusters := 3 }).part k).live = true ∧
      ((asking { Part.free with clusters := 3 }).part 3).overlaps ((asking { Part.free with clusters := 3 }).part k) = true) ∧
    ((trusted [] [] []).mgmtOn = true ∧ ((trusted [] [] []).part 3).live = true ∧
      ∀ c ∈ (trusted [] [] []).ctxs, c.id ≠ 0 → c.part ≠ 3) ∧
    (∃ c ∈ (trusted [Ctx.fresh 1 3 0] [] []).ctxs, c.id ≠ 0 ∧ c.part = 3) ∧
    ((State.reset.part 15).live = false ∧ (State.reset.part 15).clusters = 0) := by
  refine ⟨?_, ?_, ⟨15, ?_⟩, ?_, ?_, ?_⟩ <;> decide +kernel

/-- A blob of world 7 for pod partition 5 with a tag. -/
def blobHead : List Byte := [0x53, 0x56, 0x58, 0x4B, 1, 0, 7, 0, 5, 0, 0, 0, 0, 0, 0, 0]
def blob (tag : List Byte) : List Byte := blobHead ++ (zeros 132 ++ (zeros 12 ++ (zeros 160 ++ (tag ++ zeros 176))))

/-- What the import of the blob opens it with. -/
def blobKey : List Byte := hkdf32 (Config.ecdhIdentity 0 (zeros 132)) blobHead (ascii "svx-import")
def blobTag : List Byte := gcmTag sboxTable (roundKeys sboxTable blobKey) (zeros 12) blobHead (zeros 160)

theorem pieces {A K N C T Z : List Byte} (hA : A.length = 16) (hK : K.length = 132) (hN : N.length = 12) (hC : C.length = 160)
    (hT : T.length = 16) (hZ : Z.length = 176) :
    let b := A ++ (K ++ (N ++ (C ++ (T ++ Z))))
    b.length = 512 ∧ b.take 16 = A ∧ (b.drop 16).take 132 = K ∧ (b.drop 148).take 12 = N ∧ (b.drop 160).take 160 = C ∧
      (b.drop 320).take 16 = T ∧ b.drop 336 = Z := by
  have d : ∀ (l : List Byte) n, l.length ≤ n → l.drop n = [] := fun l n h => List.drop_eq_nil_of_le h
  refine ⟨?_, ?_, ?_, ?_, ?_, ?_, ?_⟩ <;> simp [List.drop_append, *]

theorem head16 {b A : List Byte} (h : b.take 16 = A) (pod : Word32) (w : Byte) (hz : (b.drop 336).all (· == 0) = true)
    (hA : blobOk A w pod = true) : blobOk b w pod = true := by
  have h1 : ∀ o n, o + n ≤ 16 → fieldAt A o n = fieldAt b o n := by
    intro o n hn
    rw [fieldAt, fieldAt, ← h, List.drop_take, List.take_take, Nat.min_eq_left (by omega)]
  have h2 : ∀ n, n < 16 → A.getD n 0 = b.getD n 0 := by
    intro n hn
    rw [← h, List.getD_eq_getElem?_getD, List.getD_eq_getElem?_getD, List.getElem?_take_of_lt hn]
  have h3 : A.take 4 = b.take 4 := by rw [← h, List.take_take]; rfl
  unfold blobOk at *
  rw [h1 4 2 (by omega), h1 8 4 (by omega), h1 12 4 (by omega), h2 6 (by omega), h2 7 (by omega), h3] at hA
  rw [hz]
  simp only [Bool.and_eq_true] at *
  exact ⟨hA.1, trivial⟩

theorem trusted_reads (b : List Byte) (h : b.length = 512) :
    (trusted [] [] b).memRead (hostPa (trusted [] [] b).dev.wldkey.toNat) 512 = b := by
  have := Cells.read_write (m := []) (2 ^ 50 + 0x3000) b rfl
  rw [h] at this
  have e : targetOf (hostPa (0x3000 : Word).toNat) = .host := by decide +kernel
  rw [State.memRead, State.place, show targetOf (hostPa (trusted [] [] b).dev.wldkey.toNat) = .host from e]
  exact this

theorem blob_import (tag : List Byte) (ht : tag.length = 16) :
    let s := trusted [] [] (blob tag)
    let b := s.memRead (hostPa s.dev.wldkey.toNat) 512
    let key := hkdf32 (Config.ecdhIdentity s.dev.resets ((b.drop 16).take 132)) (b.take 16) (ascii "svx-import")
    s.mgmtOn = true ∧ (s.part 3).live = true ∧ s.world? 7 = none ∧ blobOk b 7 (s.part 3).podPart = true ∧
      gcmOpen key ((b.drop 148).take 12) (b.take 16) ((b.drop 160).take 160) ((b.drop 320).take 16) =
        gcmOpen blobKey (zeros 12) blobHead (zeros 160) tag := by
  obtain ⟨h0, h1, h2, h3, h4, h5, h6⟩ := pieces (A := blobHead) (K := zeros 132) (N := zeros 12) (C := zeros 160) (T := tag)
    (Z := zeros 176) rfl (by rw [zeros, List.length_replicate]) rfl (by rw [zeros, List.length_replicate]) ht
    (by rw [zeros, List.length_replicate])
  dsimp only
  rw [trusted_reads (blob tag) h0]
  unfold blob
  rw [h1, h2, h3, h4, h5]
  exact ⟨rfl, rfl, rfl, head16 h1 5 7 (by rw [h6]; decide +kernel) (by decide +kernel), rfl⟩

/-- The hypotheses of O47, the import of a world: with `blob_import`, tags that verify and that do not. -/
theorem witness_WorldImport :
    blobTag.length = 16 ∧ (∃ ks, gcmOpen blobKey (zeros 12) blobHead (zeros 160) blobTag = some ks) ∧
    (∃ tag : List Byte, tag.length = 16 ∧ gcmOpen blobKey (zeros 12) blobHead (zeros 160) tag = none) ∧
    blobOk ((trusted [] [] []).memRead (hostPa (trusted [] [] []).dev.wldkey.toNat) 512) 7 ((trusted [] [] []).part 3).podPart = false := by
  refine ⟨?_, ⟨_, gcmOpen_own _ _ _ _⟩, ?_, by decide +kernel⟩
  · exact gcmTag_length _ _ _ _ _ (roundKeys_keys _ _ (hkdf32_length _ _ _))
  · by_cases h : blobTag = zeros 16
    · exact ⟨zeros 15 ++ [1], rfl, gcmOpen_other (by rw [show gcmTag _ _ _ _ _ = blobTag from rfl, h]; decide)⟩
    · exact ⟨zeros 16, rfl, gcmOpen_other h⟩

/-- A protected context of world 7. -/
def secret (st : Ladder) (ch : Option (List Byte)) : Ctx := { Ctx.fresh 1 3 7 with st := st, challenge := ch }
def world7 : World := ⟨7, 3, 1, []⟩

/-- A challenged context whose in mailbox holds one ANSWER. -/
def answering (st : Ladder) (ans : List Byte) : State :=
  ({ trusted [{ secret st (some [1, 2]) with mboxi := 0x20000 }] [world7] [] with
    mem := Cells.write [] 0x3000 (bytesOf 8 1 ++ bytesOf 8 0 ++ bytesOf 8 0x20040 ++ bytesOf 4 1 ++ [2] ++ zeros 35 ++ [6] ++ zeros 15 ++ ans) }).mapCore 0
    fun c => { c with tlb := [⟨1, 0x20000, 4096, 0x3000, true, true, 0, true, []⟩] }
def rightAnswer : List Byte := (hmac (keyBytes 0) [1, 2]).take 32

/-- The hypotheses of O47. -/
theorem witness_Trust :
    (let s := trusted [secret .halted none] [world7] []
     s.mgmtOn = true ∧ (s.world? 7).isSome ∧ s.world? 7 = some world7 ∧ world7.part = 3 ∧ (s.part 3).live = true ∧
     (∃ c ∈ s.ctxs, c.id ≠ 0 ∧ c.world = 7 ∧ c.st ≠ .empty) ∧
     (∀ c ∈ s.ctxs, c.id ≠ 0 → c.world = BitVec.ofNat 8 7 → c.st = .halted ∨ c.st = .empty)) ∧
    (∀ c ∈ (trusted [secret .empty none] [world7] []).ctxs, c.id ≠ 0 → c.world = 7 → c.st = .empty) ∧
    (let v : Word := 0x3000
     let b (s : State) := s.memRead (hostPa ((v.toNat / 64) % 2 ^ 46 * 64)) 64
     let s := trusted [secret .run none] [world7] (ctxDesc 1 0 0)
     let e := trusted [secret .empty none] [world7] (ctxDesc 1 0 0)
     let bad := trusted [] [world7] (ctxDesc 2 0 4)
     let no := trusted [] [world7] (ctxDesc 2 9 1)
     let ok := trusted [] [world7] (ctxDesc 2 7 1)
     s.realCtx? (fieldAt (b s) 0 2) = some (secret .run none) ∧ (secret .run none).st ≠ .empty ∧
     e.realCtx? (fieldAt (b e) 0 2) = some (secret .empty none) ∧
     bad.realCtx? (fieldAt (b bad) 0 2) = none ∧ bad.descOk (b bad) = false ∧
     no.realCtx? (fieldAt (b no) 0 2) = none ∧ no.descOk (b no) = true ∧ no.worldRefused ((b no).getD 3 0) (fieldAt (b no) 2 1) = true ∧
     ok.realCtx? (fieldAt (b ok) 0 2) = none ∧ ok.descOk (b ok) = true ∧
     ok.worldRefused ((b ok).getD 3 0) (fieldAt (b ok) 2 1) = false) ∧
    (let closed (s : State) (v : Word) : Prop :=
      v.getLsbD 0 = true ∧ ∃ c ∈ s.ctxs, c.id ≠ 0 ∧ c.part = v.toNat / 16 % 16 ∧ c.world ≠ 0
     closed (trusted [secret .run none] [world7] []) 0x31 ∧ ¬ closed (trusted [secret .run none] [world7] []) 0x30 ∧
     ¬ closed (trusted [] [] []) 0x31) ∧
    ((trusted [] [world7] []).world? 0 = none ∧ ((trusted [] [world7] []).part 2).live = false ∧
     (trusted [] [⟨7, 2, 1, []⟩] []).world? 7 = some ⟨7, 2, 1, []⟩) := by decide +kernel

/-- The hypotheses of O47, ANSWER. -/
theorem witness_Answers :
    (∀ st ∈ [Ladder.asked, .halted], ∀ ans ∈ [rightAnswer, zeros 32],
      let c := { secret st (some [1, 2]) with mboxi := 0x20000 }
      let s := answering st ans
      let m := s.takeMail 0 c.id 6
      s.mgmtOn = true ∧ c.id ≠ 0 ∧ s.ctx? c.id = some c ∧ c.challenge = some [1, 2] ∧ m.2.ctx? c.id = some c ∧ m.2.dev.biv = .awake ∧
      m.1.map (fun e => (e.drop 16).take 32) = some ans) ∧
    (hmac (keyBytes ((answering .halted []).worldKey 7 3)) [1, 2]).take 32 = rightAnswer ∧ rightAnswer ≠ zeros 32 ∧
    (let s := trusted [secret .halted (some [1, 2])] [world7] []
     (s.takeMail 0 1 6).1 = none) := by decide +kernel

/-- The hypotheses of O48. -/
theorem witness_RegisterWrites :
    (∀ m ∈ [(1 : Byte), 2],
      let s := asking { Part.free with clusters := 2, mode := m }
      s.mgmtOn = true ∧ (s.part 15).live = true ∧ (s.part 15).mode = m) ∧
    ((trusted [] [] []).mgmtOn = true ∧ (trusted [] [] []).invBusy = false ∧
      ({ trusted [] [] [] with invals := [⟨1, 0, 0, 4096, [], true⟩] } : State).invBusy = true) ∧
    (let s := bench 0 []
     s.mgmtOn = true ∧ (s.tag 0 0).st = .active ∧ s.headCmd 0 0 = none) ∧
    State.reset.group? State.reset.cur.uid = some State.reset.cur ∧
    (State.reset.ctx? 0).isSome ∧
    (SReady State.reset .user [127] true ∧ SReady (put1 5 State.reset) .user [1] true ∧ State.reset.cur.level = .mach ∧
      (srLevels 0x100).isSome) := by
  refine ⟨?_, ?_, ?_, rfl, ?_,
    sready ?_, sready ?_, ?_⟩ <;> decide +kernel

/-- The state at a moment. -/
def atTime (t : Nat) : State := { State.reset with time := t }

/-- The hypotheses of O49. -/
theorem witness_Power :
    (let s := atTime 20000
     s.dev.biv ≠ .asleep ∧ s.time % 10000 = 0 ∧ s.dev.window ≠ some s.time ∧
     ∀ k i, k < 192 → i < 16 → ((look (s.core k).steps i .free).seen s.time).st = .free ∧ (s.core k).throttled = false ∧ (s.core k).lvl = 0) ∧
    (∀ dom ∈ [0, 3, 4, 23],
      let s := { State.reset with doms := put State.reset.doms dom { Dom.reset (dom < 4) with pending := some 1 } }
      (look s.doms dom (Dom.reset (dom < 4))).pending = some 1) ∧
    (let s := atTime 3000
     let limit (k : Nat) : Nat := (look s.doms k (Dom.reset true)).ilim.toNat
     s.dev.biv ≠ .asleep ∧ s.time % 1000 = 0 ∧ s.dev.sample ≠ some s.time ∧
     (∀ q, q < 4 → ∀ k, k < 4 → if k = q then limit k < (put (Vector.replicate 4 520) q 521).toList.getD k 0 else
        9 * limit k ≤ 10 * (put (Vector.replicate 4 520) q 521).toList.getD k 0 ∧
          (put (Vector.replicate 4 520) q 521).toList.getD k 0 ≤ limit k) ∧
     s.tierOf 0 = some 0 ∧ (s.core 0).lvl < 4 ∧ s.tierOf 1 = none) ∧
    (∀ e ∈ [(⟨4, 0x3000, 0, none⟩ : ErrInput), ⟨5, 0x5FFFFFFFC0, 3, none⟩], errReal e = true ∧ lineUnit e = true) ∧
    (∀ e ∈ [(⟨0, 0x1BF, 0, some 1⟩ : ErrInput), ⟨3, 0, 0, none⟩, ⟨4, 0x3000, 0, none⟩],
      let x : MetError := ⟨e, 5, 2⟩
      let s := { State.reset with errs := [⟨⟨3, 7, 1, none⟩, 6, 0⟩, x], time := 7 }
      errReal e = true ∧ s.errs.find? (fun y => y.err == e) = some x ∧ x.time < s.time ∧
      (∀ y ∈ s.errs, x.time < y.time ∨ x.time = y.time ∧ unitSource x.err ≤ unitSource y.err)) ∧
    (let s := { State.reset with time := 7, dev := { State.reset.dev with errlb := 0x5000 } }
     s.dev.errlb.toNat / 2048 % 2 ^ 41 * 2048 = 0x5000 ∧ s.levelHeld 0x5000 = false) ∧
    (let s := atTime 20000
     let m := { s with dev := { s.dev with mevb := 0x5000 } }
     s.dev.biv ≠ .asleep ∧ (s.core 191).sampled = none ∧ (some 10000).all (fun t => t + 10000 ≤ s.time) ∧ (1520 : BitVec 16).toNat ≤ (s.core 191).thr.toNat ∧
     (m.core 0).thr.toNat < (1521 : BitVec 16).toNat ∧ (m.core 0).hot = false ∧ m.dev.mevb.toNat / 4096 % 2 ^ 40 ≠ 0 ∧
     m.levelHeld 0x5000 = false ∧
     ([none, some (20000, 0), some (10000, 191)] : List (Option (Nat × Nat))).all
       (fun l => l.all fun x => x.1 != m.time || x.2 == 0) = true) := by
  refine ⟨⟨by decide +kernel, by decide +kernel, by decide +kernel, ?_⟩, by decide +kernel⟩
  intro k i hk hi
  have h : (atTime 20000).core k = .reset := by
    show look (Vector.replicate 192 CoreState.reset) k .reset = .reset
    simp [look, hk]
  rw [h]
  have e : look CoreState.reset.steps i .free = .free := by
    show look (Vector.replicate 16 StepEntry.free) i .free = .free
    simp [look, hi]
  rw [e]
  decide +kernel

/-- Two groups of 8 registers in the first and the last block of issue unit 0 of core 0, in a team with a window of one bank at
bank 2; windows that fill the other cores of cluster 0; and a grid that waits for units of core 0. -/
def crowd (groups regs spbytes : Nat) : Grid :=
  ⟨1, 1, { LaunchRec.firmware with groups := groups, regs := regs, spbytes := spbytes }, none, 1, 0, false, 0, 0, true, 0, 0, 281, none⟩
def crowded (gr : Grid) : State :=
  { twoContexts 0 0 with
    teams := [{ Team.firmware with units := 1, base := 2 }, { Team.firmware with id := 1, core := 1, units := 48 },
      { Team.firmware with id := 2, core := 2, units := 48 }, { Team.firmware with id := 3, core := 3, units := 48 }]
    others := [{ Group.start with uid := 1, rank := 1, slot := 1, block := 63 }]
    grids := [.firmware, gr] }

/-- A grid fits after a move and not before. -/
theorem nearer_of {s t : State} {gr : Grid} (hg : s.pendingGrids 0 = [gr]) (h0 : (s.placeGang gr 0).isSome = false)
    (h1 : (t.placeGang gr 0).isSome = true) : s.nearer t = true := by
  simp only [State.nearer, List.any_eq_true, List.mem_range]
  exact ⟨0, by decide, gr, by rw [hg]; exact List.mem_singleton_self _, 0, by decide, by simp [State.fitsWithin, h0, h1]⟩

/-- The hypotheses of O50. -/
theorem witness_DeviceEvents :
    (State.reset.dev.boot = .ready ∧ State.reset.dev.biv = .awake ∧ (∀ c ∈ State.reset.ctxs, c.id ≠ 0 → c.st = .halted ∨ c.st = .empty) ∧
      State.reset.lostCtxs = []) ∧
    (∃ c ∈ (trusted [secret .run none] [] []).ctxs, c.id ≠ 0 ∧ c.st ≠ .halted ∧ c.st ≠ .empty) ∧
    (let s := { State.reset with dev := { State.reset.dev with biv := .asleep, sleepKey := some 1 } }
     s.dev.boot = .ready ∧ s.dev.biv = .asleep ∧ s.dev.sleepKey = some 1) ∧
    (let s := crowded (crowd 15 5 8192)
     (s.core 0).compact = none ∧ s.cur.status ≠ .exited ∧ s.coreOf s.cur = 0 ∧ (62 : Nat) ≠ s.cur.block ∧
     62 % (s.cur.nregs / 8) = 0 ∧ 62 + s.cur.nregs / 8 ≤ 64 ∧
     (∀ x ∈ (s.runsOn 0).erase (s.cur.iu, s.cur.slot, s.cur.block, s.cur.nregs / 8),
       x.1 ≠ s.cur.iu ∨ x.2.2.1 + x.2.2.2 ≤ 62 ∨ 62 + s.cur.nregs / 8 ≤ x.2.2.1) ∧
     s.group? s.cur.uid = some s.cur ∧ s.nearer (s.mapGroup s.cur.uid fun g => { g with block := 62 }) = true) ∧
    (let s := crowded (crowd 1 0 (32 * 8192))
     let tm := { Team.firmware with units := 1, base := 2 }
     (s.core 0).compact = none ∧ s.team? tm.id = some tm ∧ tm.core = 0 ∧ tm.units ≠ 0 ∧ tm.units ≠ 48 ∧ (47 : Nat) ≠ tm.base ∧
     47 % tm.units = 0 ∧ s.unitsFree 0 tm.id 47 tm.units = true ∧ s.windowBusy tm = false ∧ s.sp.wf = true ∧ (∀ a, s.sp.get a = 0) ∧
     s.nearer (s.moveWindow tm 47) = true) := by
  refine ⟨?_, ?_, ?_,
    ⟨?_, ?_, ?_, ?_, ?_, ?_, ?_,
      rfl, nearer_of (pending_one (gr := crowd 15 5 8192) ?_) ?_ ?_⟩,
    ⟨?_, ?_, ?_, ?_, ?_, ?_, ?_,
      ?_, ?_, ?_, fun _ => rfl,
      nearer_of (pending_one (gr := crowd 1 0 (32 * 8192)) ?_) ?_ ?_⟩⟩ <;> decide +kernel

/-- A turn of the group's S-stream, and of its L-stream, in a state. -/
def sTurn (s : State) : State := { s with agenda := [⟨.issueS s.cur.uid, 0⟩] }
def lTurn (s : State) : State := { s with agenda := [⟨.issueL s.cur.uid false, 0⟩] }

/-- After the turn's time. -/
def turned (s : State) : State := ({ s with agenda := [] } : State).advance 0
def slotTurned (s : State) : State := { turned s with ps1 := false }

theorem turned_agenda (a : Act) : ({ State.reset with agenda := [⟨a, 0⟩] } : State).agenda = ⟨a, 0⟩ :: [] := rfl

/-- A word and a second one where the S-stream fetches; three words where the L-stream does. -/
def fetching (w : Nat) : State := State.reset.withFetchWord 64 w
def fetchingL (w : Nat) : State := State.reset.withFetchWord 96 w

/-- The hypotheses of O55, the S-stream. -/
theorem witness_STurns :
    (let u := turned (fetching 0x1818300C)
     u.issuesS u.cur = true ∧ u.fetchHeld u.cur.s.pc 8 = false ∧ (u.fetchWord u.cur.s.pc).1 = .inr 0x1818300C ∧ sWords 0x1818300C = 1 ∧
     decodeS 0x1818300C 0 = .instr (.shli 3 3 12)) ∧
    (let u := turned (fetching 0xFFFFFFFF)
     u.issuesS u.cur = true ∧ (u.fetchWord u.cur.s.pc).1 = .inr 0xFFFFFFFF ∧ sWords 0xFFFFFFFF = 1 ∧ (match decodeS 0xFFFFFFFF 0 with | .instr _ => false | .reject _ => true) = true) ∧
    (let u := turned (fetching (0x00000005 * 2 ^ 32 + 0x2C180000))
     let v := (u.fetchWord u.cur.s.pc).2
     u.issuesS u.cur = true ∧ (u.fetchWord u.cur.s.pc).1 = .inr 0x2C180000 ∧ sWords 0x2C180000 = 2 ∧
     (v.fetchWord (u.cur.s.pc + 4)).1 = .inr 5 ∧
     (match decodeS 0x2C180000 5 with | .instr _ => true | .reject _ => false) = true) ∧
    (let u := turned (sTurn State.reset)
     u.issuesS u.cur = true ∧ (u.fetchWord u.cur.s.pc).1.isLeft = true) ∧
    (let u := turned (sTurn (withCur State.reset fun g => { g with halted := true }))
     u.issuesS u.cur = false) := by decide +kernel

/-- The hypotheses of O55, the L-stream. -/
theorem witness_LTurns :
    (let x := slotTurned (fetchingL (0x01008004 * 2 ^ 32 + 0x04030000))
     let a := (x.fetchWord (x.laddr 0)).2
     let b := (a.fetchWord (a.laddr 1)).2
     x.issuesL x.cur false = true ∧ x.fetchHeld (x.laddr 0) 12 = false ∧ (x.cur.path false).isSome ∧ (x.fetchWord (x.laddr 0)).1 = .inr 0x04030000 ∧
     (a.fetchWord (a.laddr (0 + 1))).1 = .inr 0x01008004 ∧ (b.fetchWord (b.laddr (0 + 2))).1 = .inr 0) ∧
    (let x := slotTurned (lTurn (withCur State.reset fun g => { g with running := true, l := { g.l with ps0 := some ⟨0, 1⟩ } }))
     x.issuesL x.cur false = true ∧ x.fetchHeld (x.laddr 0) 12 = false ∧ x.cur.path false = some ⟨0, 1⟩ ∧
     (x.fetchWord (x.laddr 0)).1.isLeft = true) ∧
    (let x := slotTurned (lTurn State.reset)
     x.issuesL x.cur false = false) := by decide +kernel

/-- The hypotheses of O53. -/
theorem witness_StepsKeep : StoresWf State.reset ∧ answers (step (fetching 0x1818300C)) (fun _ => true) = true :=
  ⟨rfl, by decide +kernel⟩

/-- The hypotheses of O56. -/
theorem witness_Encodings :
    (Instr.shli 3 3 12).lParts = none ∧ (Instr.shli 3 3 12).wf = true ∧ (Instr.li 3 5).lParts = none ∧ (Instr.li 3 5).wf = true ∧
    (Instr.vmad ⟨⟨0, false⟩, .s32, 0, 0, 3, ⟨1, .keep⟩, ⟨2, .keep⟩, .vec 0 .last, 0⟩).lParts ≠ none ∧
    (Instr.vmad ⟨⟨0, false⟩, .s32, 0, 0, 3, ⟨1, .keep⟩, ⟨2, .keep⟩, .vec 0 .last, 0⟩).wf = true := by decide +kernel

/-- A group at USER that the vector serves. -/
def lowly : State := withCur vectored fun g => { g with level := .user }

/-- The hypotheses of O58. -/
theorem witness_LowLevels :
    (∀ r ∈ [(3 : SReg), 1, 127], lowly.cur.sLegal r = true ∧ lowly.cur.sBusy r = false) ∧
    Level.rank lowly.cur.level < Level.rank .super ∧ Level.rank lowly.cur.level < Level.rank .mach ∧ lowly.cur.sHeld = false ∧
    lowly.cur.sWaits = false ∧ Interruptible lowly ∧ lowly.canEnter = true ∧
    srLevels 0x102 = some (.super, .super) ∧ srLevels 0x1B8 = some (.mach, .mach) ∧ srLevels 0x3FF = none ∧
    lowly.vectorEntry (lowly.coreOf lowly.cur) (lowly.ctxOf lowly.cur) 0x02 = (some (vecEntry, true), lowly) := by
  refine ⟨?_, ?_, ?_, ?_, ?_, by constructor <;> decide +kernel,
    ?_, ?_, ?_, ?_, pairOf ?_ (State.vectorEntry_held ?_)⟩ <;> decide +kernel

/-- The hypotheses of O60. -/
theorem witness_Representable :
    (∀ x ∈ [0, 1, 0x3C00, 0x7BFF, 0x8000, 0xFBFF], x < 2 ^ FFmt.f16.width ∧
      (match FFmt.f16.decode x with | .fin _ _ _ => true | _ => false) = true) ∧
    (∀ x ∈ [0, 0x7E, 0xFE], (match FFmt.e4m3.decode x with | .fin _ _ _ => true | _ => false) = true) := by decide +kernel

/-! ## gsxa and gsxd -/

/-- The env of a source without names, in its last pass. -/
def nameless : Gsxa.Env := ⟨fun _ => none, true⟩

/-- The hypotheses of O56. -/
theorem witness_Statements : nameless.final = true ∧
    Gsxa.sStatement nameless 0 ["NOP".toList] [] = some [0] ∧
    Gsxa.lStatement nameless 0 0 ["VNOP".toList] [] = some ([0xB1000000, 0, 0], 0) := by decide +kernel

/-- The block that chapter 6 traces, with its joins left to gsxa (R139); the two words are those of its table. -/
theorem test_gsxa_joins :
    ((Gsxa.assemble (".lcode\n.block blk\nVIDX.s32 v1, #0\nVAND.s32 v2, v1, #1\nVCMP.s32.ne p1, v2, #0\nBDIV p1, odd\n" ++
      "VADD.s32 v3, v1, #100\nBUNI p0, j1\nodd: VCMP.s32.lt p2, v1, #64\nBDIV p2, low\nVMOV.s32 v3, #2\nBUNI p0, j2\n" ++
      "low: VMOV.s32 v3, #1\nj2: JOIN\nj1: JOIN\nLEND").toList 0 0).map fun o =>
        (wordOfBytes (o.lcode.drop 44), wordOfBytes (o.lcode.drop 92))) = some (0x00030009, 0x00030004) := by decide +kernel

/-- R70: a format block, and the launch record's S entry and dimensions (R142). -/
theorem test_gsxa_directives :
    ((Gsxa.assemble (".grid 3, 2, 1\n.shape 4, 16\n.scode\nNOP\ns_entry: EXIT\n.data\n.byte 7\n.fmt f, 2, 1, 32, 64, 5").toList 0
      0x40).map fun o => (o.data, (o.record.drop 16).take 18)) =
      some ([7, 0, 0, 0, 0, 0, 0, 0, 0, 0, 0, 0, 0, 0, 0, 0, 2, 1, 32, 0, 64, 0, 0, 0, 5, 0, 0, 0, 0, 0, 0, 0],
        [4, 0, 0, 0, 3, 0, 0, 0, 2, 0, 0, 0, 1, 0, 0, 0, 4, 16]) := by decide +kernel

/-- R68, R69, R71: sources that gsxa rejects. -/
theorem test_gsxa_rejects :
    [".scode\nADDI s1, s2, #2048", ".scode\nVNOP", ".lcode\nNOP", ".scode\n(p1) NOP", ".lcode\nVNOP\n.byte 1",
      ".data\nx: .word 1\nx: .word 2", ".data\nv7: .word 1", ".lcode\nVADD.s8x4 v1, v2, #200", ".lcode\nVADD.s32 v1, v2, #1.5",
      ".lcode\nVADD.s32 v1!, v2, v3"].all (fun t => (Gsxa.assemble t.toList 0 0).isNone) = true := by decide +kernel

/-- R72: a reserved bit of NOP, and a code of no map, are data; decoding goes on at the next word. -/
theorem test_gsxd_data :
    Gsxd.listS 2 0 [0x00000800, 0x00000000] = [".word 0x00000800 ; a field that must be zero is not".toList, "NOP".toList] := by
  decide +kernel

end
end

section
/-! The special registers (R5, R23, R82). -/

namespace Sys2Proof.Machine

/-- The fields that a register keeps of a word, as the mask of their bits. -/
theorem bitsIn_eq_and (v : Word) (hi lo : Nat) : bitsIn v hi lo = v &&& BitVec.ofNat 64 ((2 ^ (hi + 1 - lo) - 1) * 2 ^ lo) := by
  apply BitVec.eq_of_getLsbD_eq
  intro i hi64
  simp only [bitsIn, BitVec.getLsbD_ofNat, BitVec.getLsbD_and, Nat.testBit_mul_two_pow, Nat.testBit_mod_two_pow,
    Nat.testBit_div_two_pow, Nat.testBit_two_pow_sub_one, hi64, decide_true, Bool.true_and]
  by_cases hlo : lo ≤ i
  · simp [hlo, BitVec.getLsbD, Bool.and_comm]
  · simp [hlo]

@[simp] theorem fields_single (n : Nat) : fields [(0, n)] = BitVec.ofNat 64 n := by simp [fields]

/-! ### Access -/

/-- A listed register answers an access at its level (R23). -/
theorem srFault_none {lvl r w : Level} {write : Bool} {n : Nat} (hl : srLevels n = some (r, w))
    (hr : Level.rank (if write then w else r) ≤ Level.rank lvl) : srFault lvl write n = none := by
  simp [srFault, hl, Nat.not_lt.mpr hr]

theorem Level.rank_super_le {lvl : Level} (h : lvl ≠ .user) : Level.rank .super ≤ Level.rank lvl := by
  cases lvl with
  | user => exact absurd rfl h
  | super => exact Nat.le_refl _
  | mach => decide

/-! ### RDSR -/

/-- A read of the innermost frame goes on where the frame stands in hardware (R160). -/
theorem State.withFrame_here {s : State} (h : FrameHere s) (body : State → State) : s.withFrame body = body s := by
  unfold State.withFrame
  split
  · rfl
  · next f hf => simp [h f hf]

/-- A read of a special register waits for no frame: it needs none, or has it in hardware. -/
theorem State.srFrame_here {s : State} {n : Nat} (h : n = 0 ∨ n = 5 → FrameHere s) (body : State → State) :
    s.srFrame n body = body s := by
  unfold State.srFrame
  split
  · next hn => exact State.withFrame_here (h (by simpa using hn)) body
  · rfl

/-- RDSR of a register that answers writes its value (R82). -/
theorem WritesReg.of_rdsr {s : State} {d : SReg} {n : BitVec 12} (h : SReady s .user [d] true)
    (hf : srFault s.cur.level false n.toNat = none) (hs : s.noSensor n.toNat = false)
    (hr : n = 0x000 ∨ n = 0x005 → FrameHere s) : WritesReg s (.rdsr d n) d (s.srRead n.toNat) 0 4 := by
  refine WritesReg.of_quiet (h.legal d (by simp)) ?_ rfl
  have hr' : n.toNat = 0 ∨ n.toNat = 5 → FrameHere s := fun e =>
    hr (e.imp (fun e => BitVec.eq_of_toNat_eq e) fun e => BitVec.eq_of_toNat_eq e)
  show execRdsr d n s = _
  simp [execRdsr, State.sIssue_ready h, hf, hs, State.srFrame_here hr']

/-- RDSR of a listed register that names no frame and no sensor. -/
theorem WritesReg.of_read {s : State} {d : SReg} {n : BitVec 12} {r w : Level} {v : Word} (h : SReady s .user [d] true)
    (hl : srLevels n.toNat = some (r, w)) (hr : Level.rank r ≤ Level.rank s.cur.level)
    (hn : n ≠ 0x000 ∧ n ≠ 0x005 ∧ n.toNat ≠ 0x1E1) (hv : s.srRead n.toNat = v) : WritesReg s (.rdsr d n) d v 0 4 := by
  obtain ⟨h0, h5, hth⟩ := hn
  subst hv
  exact WritesReg.of_rdsr h (srFault_none hl hr) (by simp [State.noSensor, hth]) fun e => absurd e (not_or.mpr ⟨h0, h5⟩)

/-! ### WRSR -/

/-- WRSR of a listed register at its write level, PTROOT apart (R5, R82). -/
theorem exec_wrsr {s : State} {a : SReg} {n : BitVec 12} {r w : Level} (h : SReady s .user [a] false)
    (hl : srLevels n.toNat = some (r, w)) (hw : Level.rank w ≤ Level.rank s.cur.level) (hn : n ≠ 0x170) :
    exec (.wrsr a n) s = .next ((s.srWrite n.toNat (s.sget a)).nextPc 4) := by
  have hn' : n.toNat ≠ 0x170 := fun e => hn (BitVec.eq_of_toNat_eq e)
  show execWrsr a n s = _
  simp [execWrsr, State.sIssue_ready h, srFault_none (write := true) hl hw, hn']

/-- FVEC keeps bits 56:8 (R5). -/
theorem State.srWrite_fvec (s : State) (v : Word) :
    s.srWrite 0x100 v = s.mapCtx (s.ctxOf s.cur).id fun c => { c with fvec := v &&& 0x01FFFFFFFFFFFF00 } :=
  congrArg (s.mapCtx _) (funext fun c => congrArg (fun w => { c with fvec := w }) (bitsIn_eq_and v 56 8))

/-- FRQB keeps bits 56:14 (R5). -/
theorem State.srWrite_frqb (s : State) (v : Word) :
    s.srWrite 0x171 v = s.mapCtx (s.ctxOf s.cur).id fun c => { c with frqb := v &&& 0x01FFFFFFFFFFC000 } :=
  congrArg (s.mapCtx _) (funext fun c => congrArg (fun w => { c with frqb := w }) (bitsIn_eq_and v 56 14))

/-! ### Invalidations (R241, R247) -/

theorem State.postInval_invals (s : State) (ctx lo hi : Nat) (host : Bool) :
    (s.postInval ctx lo hi host).invals = s.invals ++ [⟨s.nextId, ctx, lo, hi, s.accsIn ctx lo hi, host⟩] := rfl

/-- WRSR of PTROOT waits for the invalidation that it posts (R247). -/
theorem exec_wrsr_ptroot {s : State} {a : SReg} (h : SReady s .user [a] false) (hm : s.cur.level = .mach) :
    exec (.wrsr a 0x170) s =
      .next ((s.setPtroot (s.ctxOf s.cur).id (s.sget a)).mapCur fun g => { g with wait := .inval s.nextId 4 [] }) := by
  have hf : srFault s.cur.level true (0x170 : BitVec 12).toNat = none := srFault_none (r := .super) (w := .mach) rfl (by simp [hm])
  show execWrsr a 0x170 s = _
  simp only [execWrsr, State.sIssue_ready h, hf]
  rfl

/-- The value that PTROOT of a context takes (R247). -/
theorem State.setPtroot_ctxs (s : State) (ctx : Nat) (v : Word) :
    (s.setPtroot ctx v).ctxs = s.ctxs.map fun c => if c.id == ctx then { c with ptroot := v &&& 0x000FFFFFFFFFF000 } else c := by
  show mapIf s.ctxs (fun c => c.id == ctx) (fun c => { c with ptroot := bitsIn v 51 12 }) = _
  rw [bitsIn_eq_and]
  rfl

/-- Settles O23: RDSR and WRSR of a ready S-stream come down to `State.srRead` and `State.srWrite`, register by register. -/
theorem specialRegistersReadAndWrite : Obligations.SpecialRegistersReadAndWrite := by
  unfold Obligations.SpecialRegistersReadAndWrite
  refine ⟨fun s d h => ?_, fun s a h => ?_⟩
  · have user := fun {n : BitVec 12} {v : Word} (hl : srLevels n.toNat = some (.user, .user)) =>
      WritesReg.of_read (n := n) (v := v) h hl (Nat.zero_le _)
    refine ⟨user rfl (by decide) (fields_single _), user rfl (by decide) (fields_single _), user rfl (by decide) rfl,
      user rfl (by decide) (fields_single _), user rfl (by decide) (fields_single _), user rfl (by decide) rfl,
      user rfl (by decide) rfl, user rfl (by decide) rfl, user rfl (by decide) rfl, user rfl (by decide) rfl,
      user rfl (by decide) rfl, user rfl (by decide) rfl, user rfl (by decide) rfl, fun hl => ?_, fun hl => ?_,
      fun n hf hs hr => WritesReg.of_rdsr h hf hs hr⟩
    · have super := fun {n : BitVec 12} {v : Word} (hn : srLevels n.toNat = some (.super, .super)) =>
        WritesReg.of_read (n := n) (v := v) h hn (Level.rank_super_le hl)
      exact ⟨super rfl (by decide) (fields_single _), super rfl (by decide) rfl, super rfl (by decide) rfl,
        super rfl (by decide) rfl, super rfl (by decide) rfl⟩
    · have mach := fun {n : BitVec 12} {v : Word} (hn : srLevels n.toNat = some (.mach, .mach)) =>
        WritesReg.of_read (n := n) (v := v) h hn (by simp [hl])
      exact ⟨mach rfl (by decide) rfl, mach rfl (by decide) rfl, mach rfl (by decide) rfl, mach rfl (by decide) rfl⟩
  · have writes := fun {n : BitVec 12} {r w : Level} => exec_wrsr (n := n) (r := r) (w := w) h
    refine ⟨writes (w := .user) rfl (Nat.zero_le _) (by decide), writes (w := .user) rfl (Nat.zero_le _) (by decide),
      fun hl => ⟨?_, ?_, ?_⟩, fun hl => ⟨?_, ?_, ?_, ?_, ?_, ?_⟩⟩
    · exact (writes (n := 0x100) (w := .super) rfl (Level.rank_super_le hl) (by decide)).trans
        (congrArg (fun t : State => (.next (t.nextPc 4) : Out)) (State.srWrite_fvec s _))
    · exact writes (n := 0x172) (w := .super) rfl (Level.rank_super_le hl) (by decide)
    · exact writes (n := 0x175) (w := .super) rfl (Level.rank_super_le hl) (by decide)
    · exact (writes (n := 0x171) (w := .mach) rfl (by simp [hl]) (by decide)).trans
        (congrArg (fun t : State => (.next (t.nextPc 4) : Out)) (State.srWrite_frqb s _))
    · exact writes (n := 0x1A0) (w := .mach) rfl (by simp [hl]) (by decide)
    · exact writes (n := 0x1B0) (w := .mach) rfl (by simp [hl]) (by decide)
    · exact writes (n := 0x1C0) (w := .mach) rfl (by simp [hl]) (by decide)
    · exact writes (n := 0x1C6) (w := .mach) rfl (by simp [hl]) (by decide)
    · exact ⟨_, exec_wrsr_ptroot h hl, rfl, State.setPtroot_ctxs s _ _, by simp [State.setPtroot, State.postInval_invals], rfl,
        fun _ => rfl⟩

end Sys2Proof.Machine
end

section
/-! Writes of registers as events (R5, R25, R182, R241, R247, R349, R412). -/

namespace Sys2Proof.Machine

theorem look_map {α β : Type} {n : Nat} (v : Vector α n) (f : α → β) (i : Nat) (d : α) (e : β) (h : i < n) :
    look (v.map f) i e = f (look v i d) := by
  simp [look, h]

/-! ### Entries found by their name -/

section
variable {α : Type} {key : α → Nat} {f : α → α} (hf : ∀ x, key (f x) = key x) (l : List α)
include hf

/-- A change of the entries of a name changes no name. -/
theorem key_mapIf (k : Nat) (x : α) : key (if (key x == k) = true then f x else x) = key x := by
  split
  · exact hf x
  · rfl

/-- The entry of a name, after a change of the entries of that name. -/
theorem find?_mapIf_same (k : Nat) :
    (mapIf l (fun x => key x == k) f).find? (fun x => key x == k) = (l.find? fun x => key x == k).map f := by
  induction l with
  | nil => rfl
  | cons x xs ih =>
    rw [mapIf, List.map_cons, List.find?_cons, List.find?_cons, key_mapIf hf]
    split
    · next hx => simp [hx]
    · exact ih

/-- The entry of another name. -/
theorem find?_mapIf_ne {k j : Nat} (hj : j ≠ k) :
    (mapIf l (fun x => key x == k) f).find? (fun x => key x == j) = l.find? fun x => key x == j := by
  induction l with
  | nil => rfl
  | cons x xs ih =>
    rw [mapIf, List.map_cons, List.find?_cons, List.find?_cons, key_mapIf hf]
    split
    · next hx => simp [beq_iff_eq.mp hx, hj]
    · exact ih

end

/-! ### Events that change one entry -/

theorem State.core_mapCore_same {s : State} {k : Nat} (f : CoreState → CoreState) (hk : k < 192) :
    (s.mapCore k f).core k = f (s.core k) := look_put_same _ _ _ _ hk

theorem State.core_mapCore_ne {s : State} {k j : Nat} (f : CoreState → CoreState) (hj : j ≠ k) :
    (s.mapCore k f).core j = s.core j := look_put_ne _ _ _ _ _ hj.symm

theorem ChangesCore.of_mapCore {s : State} {i : Instr} {k : Nat} {f : CoreState → CoreState} (hk : k < 192)
    (h : exec i s = .next (s.mapCore k f)) : ChangesCore s i k (f (s.core k)) :=
  ⟨_, h, State.core_mapCore_same f hk, fun _ hj => State.core_mapCore_ne f hj, rfl⟩

theorem ChangesCtx.of_mapCtx {s : State} {i : Instr} {c : Ctx} {f : Ctx → Ctx} (hc : s.ctx? c.id = some c)
    (hf : ∀ x, (f x).id = x.id) (h : exec i s = .next (s.mapCtx c.id f)) : ChangesCtx s i c.id (f c) :=
  ⟨_, h, State.ctx?_mapCtx hc hf, fun _ hv => find?_mapIf_ne (key := Ctx.id) hf s.ctxs hv, rfl⟩

theorem ChangesGroup.of_mapGroup {s : State} {i : Instr} {g : Group} {f : Group → Group} (hg : s.group? g.uid = some g)
    (hf : ∀ x, (f x).uid = x.uid) (h : exec i s = .next (s.mapGroup g.uid f)) : ChangesGroup s i g.uid (f g) :=
  ⟨_, h, (find?_mapIf_same (key := Group.uid) hf s.groups g.uid).trans (congrArg (Option.map f) hg),
    fun _ hv => find?_mapIf_ne (key := Group.uid) hf s.groups hv, rfl⟩

theorem setsPart_of_mapPart {s : State} {i : Instr} {idx : Nat} {f : Part → Part} {q : Part} (hi : idx < 16)
    (hq : f (s.part idx) = q) (h : exec i s = .next (s.mapPart idx f)) :
    ∃ t, exec i s = .next t ∧ t.part idx = q ∧ (∀ k, k ≠ idx → t.part k = s.part k) ∧ t = { s with parts := t.parts } :=
  ⟨_, h, (look_put_same _ _ _ _ hi).trans hq, fun _ hk => look_put_ne _ _ _ _ _ hk.symm, rfl⟩

/-! ### Invalidations (R241, R247) -/

/-- No TLB of the device keeps a translation of the range (R241). -/
def State.Untranslated (s : State) (ctx lo hi : Nat) : Prop :=
  ∀ k e, k < 192 → e ∈ (s.core k).tlb ∨ e ∈ (s.core k).ahead ∨ (k < 4 ∧ e ∈ look s.qtlbs k []) → e.inRange ctx lo hi = false

theorem State.postInval_untranslated (s : State) (ctx lo hi : Nat) (host : Bool) :
    (s.postInval ctx lo hi host).Untranslated ctx lo hi := by
  have kept {l : List TlbEntry} {e : TlbEntry} (h : e ∈ l.filter fun e => !e.inRange ctx lo hi) : e.inRange ctx lo hi = false := by
    simpa using (List.mem_filter.mp h).2
  intro k e hk h
  have hcore : (s.postInval ctx lo hi host).core k = _ := look_map s.cores _ k .reset _ hk
  rw [hcore] at h
  rcases h with h | h | ⟨hq, h⟩
  · exact kept h
  · exact kept h
  · have hqtlb : look (s.postInval ctx lo hi host).qtlbs k [] = _ := look_map s.qtlbs _ k [] _ hq
    exact kept (hqtlb ▸ h)

/-- The bits below the GO bit of a command, with the bit set. -/
theorem toNat_or_go (v : Word) : (v ||| 1#64 <<< 63).toNat % 2 ^ 63 = v.toNat % 2 ^ 63 := by
  rw [BitVec.toNat_or, Nat.or_mod_two_pow]
  simp

/-- INVCMD with GO posts the invalidation that it describes (R412). -/
theorem State.writeInvcmd_go {s : State} (v : Word) (h : s.invBusy = false) :
    ∃ w, s.writeInvcmd (v ||| 1#64 <<< 63) =
      ({ s with dev := { s.dev with invcmd := w } } : State).postInval (v.toNat % 4096) (v.toNat / 4096 % 2 ^ 45 * 4096)
        (v.toNat / 4096 % 2 ^ 45 * 4096 + 4096 * s.dev.invpages.toNat) true := by
  have hgo := toNat_or_go v
  have hctx : (v ||| 1#64 <<< 63).toNat % 4096 = v.toNat % 4096 := by omega
  have hlo : (bitsIn (v ||| 1#64 <<< 63) 56 12).toNat = v.toNat / 4096 % 2 ^ 45 * 4096 := by
    simp only [bitsIn, BitVec.toNat_ofNat]
    omega
  have hbit : (v ||| 1#64 <<< 63).getLsbD 63 = true := by simp
  refine ⟨bitsIn (v ||| 1#64 <<< 63) 56 0, ?_⟩
  simp only [State.writeInvcmd, h, hbit, hctx, hlo, if_true, Bool.false_eq_true, if_false]

/-! ### The removal of a tag by KILLREQ (R302, R349) -/

/-- The removal of a tag that has no command makes it DYING and ends its turn on the core (R287, R302). -/
theorem State.killTag_idle {s : State} {core t : Nat} (h : s.headCmd core t = none) :
    (s.killTag core t).cores =
      ((s.mapTag core t fun x => { x with st := .dying }).mapCore core fun c =>
        { c with turn := if c.rot.toNat == t then none else c.turn }).cores ∧
      (s.killTag core t).mem = s.mem ∧ (s.killTag core t).dev = s.dev := by
  have hnone : (s.cmds.map fun c => if ((c.core == core && c.tag == t) && c.begun) = true then { c with killed := true } else c).filter
      (fun c => c.core == core && c.tag == t) = [] := by
    rw [List.filter_eq_nil_iff]
    intro c hc
    obtain ⟨x, hx, rfl⟩ := List.mem_map.mp hc
    have hmine := List.find?_eq_none.mp h x hx
    split <;> exact hmine
  unfold State.killTag
  dsimp only [State.mapTag, State.mapCore_cmds]
  rw [hnone]
  exact ⟨rfl, rfl, rfl⟩

/-- A tag that is removed with no command is DYING, and every other tag of its core stands (R302). -/
theorem State.killTag_tags {s : State} {core t : Nat} (hc : core < 192) (ht : t < 16) (h : s.headCmd core t = none) :
    ((s.killTag core t).tag core t).st = .dying ∧ ∀ k, k ≠ t → (s.killTag core t).tag core k = s.tag core k := by
  have hcores := (State.killTag_idle h).1
  have htags : ((s.killTag core t).core core).tags = put (s.core core).tags t { look (s.core core).tags t .free with st := .dying } := by
    rw [State.core, hcores, ← State.core, State.core_mapCore_same _ hc, State.mapTag, State.core_mapCore_same _ hc]
  refine ⟨?_, fun k hk => ?_⟩
  · rw [State.tag, htags, look_put_same _ _ _ _ ht]
  · rw [State.tag, htags, look_put_ne _ _ _ _ _ hk.symm]
    rfl

/-- KILLREQ with GO kills the ACTIVE tag that it names, and reports OK (R326, R349). -/
theorem State.writeKillreq_go {s : State} {core tag : Nat} (hc : core < 192) (ht : tag < 16) (h : (s.tag core tag).st = .active) :
    s.writeKillreq (BitVec.ofNat 64 (core + 256 * tag) ||| 1#64 <<< 63) =
      { s.killTag core tag with
        dev := { (s.killTag core tag).dev with killreq := BitVec.ofNat 64 (core + 256 * tag) } } := by
  have hgo := toNat_or_go (BitVec.ofNat 64 (core + 256 * tag))
  rw [BitVec.toNat_ofNat] at hgo
  have hbit : (BitVec.ofNat 64 (core + 256 * tag) ||| 1#64 <<< 63).getLsbD 63 = true := by simp
  generalize hv : BitVec.ofNat 64 (core + 256 * tag) ||| 1#64 <<< 63 = v at hgo hbit ⊢
  have hcore : v.toNat % 256 = core := by omega
  have htag : v.toNat / 256 % 16 = tag := by omega
  have hlow : v.toNat % 4096 = core + 256 * tag := by omega
  have hkill : s.tagkill core 0 true (BitVec.ofNat 64 tag) = (0, s.killTag core tag) := by
    have hshift : BitVec.ofNat 64 tag >>> 4 = 0 := by
      apply BitVec.eq_of_toNat_eq
      rw [BitVec.toNat_ushiftRight, BitVec.toNat_ofNat, Nat.shiftRight_eq_div_pow]
      show _ = 0
      omega
    simp [State.tagkill, Nat.mod_eq_of_lt ht, hshift, h]
  simp [State.writeKillreq, hbit, hcore, htag, hlow, hkill, fields, Nat.not_le.mpr hc]

/-! ### The statement -/

/-- Settles O48: each event comes down to a change of one entry, to `State.postInval` or to `State.killTag`. -/
theorem registerWritesActOnTheirField : Obligations.RegisterWritesActOnTheirField := by
  unfold Obligations.RegisterWritesActOnTheirField
  intro s
  refine ⟨?trail, ⟨?inv, ?busy, ?ptroot⟩, ?killreq, fun core hc => ⟨fun v => ?_, ?_, ?_⟩, fun g v hg => ?_,
    fun c hc => ⟨?_, ?_⟩, fun dom hd => ?_, ?sr, fun idx v => rfl, ?mgmt⟩
  case trail =>
    intro idx v hi hm p sets hl
    have hgate : (s.mgmtOn && decide (idx < 16)) = true := by simp [hm, hi]
    refine ⟨setsPart_of_mapPart (f := fun p => p.writeDword 8 v) hi ?_ ?_,
      setsPart_of_mapPart (f := fun p => p.writeDword 9 v) hi ?_ ?_⟩
    · simp [Part.writeDword, Part.setDword, p, hl]
    · show execTrailHeadWrite idx v s = _
      rw [execTrailHeadWrite, if_pos hgate, State.writePtab]
    · simp [Part.writeDword, Part.setDword, p, hl]
    · show execTrailTailWrite idx v s = _
      rw [execTrailTailWrite, if_pos hgate, State.writePtab]
  case inv =>
    intro v hm hb
    obtain ⟨w, hw⟩ := State.writeInvcmd_go v hb
    have hexec : exec (.invalidate v) s = .next (if s.mgmtOn then s.writeInvcmd (v ||| 1#64 <<< 63) else s) := rfl
    rw [if_pos hm, hw] at hexec
    exact ⟨_, hexec, ⟨_, rfl, rfl, rfl, rfl, rfl, rfl⟩, State.postInval_untranslated _ _ _ _ _, fun _ => rfl⟩
  case busy =>
    intro v hm hb
    show execInvalidate v s = _
    rw [execInvalidate, if_pos hm, State.writeInvcmd, if_pos hb]
  case ptroot =>
    intro c v hc
    refine ⟨s.setPtroot c.id v, ⟨?_, ⟨_, rfl, rfl, rfl, rfl, rfl, rfl⟩, State.postInval_untranslated _ _ _ _ _,
      fun _ => rfl⟩, ?_⟩
    · show execPtrootWrite c.id v s = _
      rw [execPtrootWrite, hc]
      rfl
    · rw [← show bitsIn v 51 12 = v &&& 0x000FFFFFFFFFF000 from bitsIn_eq_and v 51 12]
      exact State.ctx?_mapCtx hc fun _ => rfl
  case killreq =>
    intro core tag hc ht hm hact hidle v
    obtain ⟨_, hmem, hdev⟩ := State.killTag_idle hidle
    obtain ⟨hdying, hothers⟩ := State.killTag_tags hc ht hidle
    have hexec : exec (.killreq v) s = .next (if s.mgmtOn then s.writeKillreq (v ||| 1#64 <<< 63) else s) := rfl
    rw [if_pos hm, State.writeKillreq_go hc ht hact, hdev] at hexec
    exact ⟨_, hexec, hdying, hothers, rfl, fun pa => congrArg (Cells.get · pa) hmem⟩
  · exact .of_mapCore (f := fun c => c.writeMxcad v) hc rfl
  · exact .of_mapCore (f := fun c => c.writeVlogc (1#64 <<< 63)) hc rfl
  · exact .of_mapCore (f := fun c => { c with hot := false }) hc rfl
  · exact .of_mapGroup (f := fun g => g.writeUser 0x20 v) hg (fun _ => rfl) rfl
  · exact .of_mapCtx (f := fun c => c.writeFrqt (1#64 <<< 63)) hc (fun _ => rfl) rfl
  · exact .of_mapCtx (f := fun c => c.writeMboxo (1#64 <<< 63)) hc (fun _ => rfl) rfl
  · show execDomstFreezeClear dom s = _
    rw [execDomstFreezeClear, if_pos hd]
  case sr =>
    intro a n h hl hn hp
    obtain ⟨⟨r, w⟩, hlist⟩ := Option.isSome_iff_exists.mp hn
    have hp' : n.toNat ≠ 0x170 := fun e => hp (BitVec.eq_of_toNat_eq e)
    refine ⟨s.srWrite n.toNat (s.sget a), ?_, exec_wrsr h hlist ?_ hp⟩
    · show execRegisterWrite (.sr n) _ s = _
      simp [execRegisterWrite, hlist, hp']
    · rw [hl]
      cases w <;> decide
  case mgmt =>
    intro v hm
    refine ⟨?_, ?_⟩
    · show execRegisterWrite (.mgmt 0x38) v s = _
      simp [execRegisterWrite, State.mgmtWrite, hm]
    · rw [← show bitsIn v 51 6 = v &&& 0x000FFFFFFFFFFFC0 from bitsIn_eq_and v 51 6]
      show execRegisterWrite (.mgmt 0x68) v s = _
      simp [execRegisterWrite, State.mgmtWrite, hm]

end Sys2Proof.Machine
end

section
/-! The governor's window, changes of point and level (R392, R393, R398). -/

namespace Sys2Proof.Machine

/-! ### Choices of a point and a level -/

/-- The highest number below a bound that satisfies a test, or 0 where none does. -/
theorem lastFiltered_spec (p : Nat → Bool) (n : Nat) :
    let h := (((List.range n).filter p).getLast?).getD 0
    ((h < n ∧ p h = true) ∨ (h = 0 ∧ ∀ i, ¬ (i < n ∧ p i = true))) ∧ ∀ i, h < i → ¬ (i < n ∧ p i = true) := by
  have mem (i : Nat) : i ∈ (List.range n).filter p ↔ i < n ∧ p i = true := by rw [List.mem_filter, List.mem_range]
  cases hl : ((List.range n).filter p).getLast? with
  | none =>
    have hnil := List.getLast?_eq_none_iff.mp hl
    have none_fits (i : Nat) : ¬ (i < n ∧ p i = true) := by simp [← mem, hnil]
    exact ⟨.inr ⟨rfl, none_fits⟩, fun i _ => none_fits i⟩
  | some h =>
    obtain ⟨ys, hys⟩ := List.getLast?_eq_some_iff.mp hl
    have sorted : ((List.range n).filter p).Pairwise (· < ·) := List.pairwise_lt_range.filter p
    refine ⟨.inl ((mem h).mp (by simp [hys])), fun i hi hfit => ?_⟩
    rw [hys] at sorted
    have hi' := (mem i).mpr hfit
    rw [hys, List.mem_append, List.mem_singleton] at hi'
    rcases hi' with hlow | rfl
    · exact Nat.lt_asymm hi ((List.pairwise_append.mp sorted).2.2 i hlow h (by simp))
    · exact Nat.lt_irrefl _ hi

/-- The highest point whose predicted power fits the share, or 0 where none does (R398). -/
theorem fitting_spec (m : GovInput) (dem a : List Int) (q : Nat) :
    let share := shareOf dem a q
    let fits (i : Nat) : Prop := i < 16 ∧ (m.predict.getD (16 * q + i) 0 : Int) * share.2 ≤ share.1
    let h := fitting m dem a q
    (fits h ∨ h = 0 ∧ ∀ i, ¬ fits i) ∧ ∀ i, h < i → ¬ fits i := by
  have h := lastFiltered_spec (fun i => decide ((m.predict.getD (16 * q + i) 0 : Int) * (shareOf dem a q).2 ≤ (shareOf dem a q).1)) 16
  simp only [decide_eq_true_eq] at h
  exact h

/-- The lowest level whose bandwidth suffices, or the highest where none does (R393). -/
theorem levelFor_spec (demand : Nat) :
    let l := levelFor demand
    l ≤ 3 ∧ (9 * demand ≤ 200 * (l + 1) ∨ l = 3) ∧ ∀ j, j < l → ¬ 9 * demand ≤ 200 * (j + 1) := by
  unfold levelFor
  cases hl : (List.range 4).find? (fun l => decide (9 * demand ≤ 200 * (l + 1))) with
  | none =>
    refine ⟨Nat.le_refl 3, .inr rfl, fun j hj => ?_⟩
    replace hj : j < 3 := hj
    simpa using List.find?_eq_none.mp hl j (List.mem_range.mpr (by omega))
  | some l =>
    obtain ⟨hfit, hmem, hlow⟩ := List.find?_range_eq_some.mp hl
    have h4 := List.mem_range.mp hmem
    exact ⟨Nat.le_of_lt_succ h4, .inl (by simpa using hfit), fun j hj => by simpa using hlow j hj⟩

@[simp] theorem Dom.decide_pending (d : Dom) (p : Nat) : (d.decide p).pending = if p = d.cur then none else some p := by
  simp [Dom.decide]

@[simp] theorem Dom.decide_cur (d : Dom) (p : Nat) : (d.decide p).cur = d.cur := rfl

@[simp] theorem Dom.undervolt_cur (d : Dom) (n : Nat) (b : Bool) : (d.undervolt n b).cur = d.cur := rfl
@[simp] theorem Dom.undervolt_req (d : Dom) (n : Nat) (b : Bool) : (d.undervolt n b).req = d.req := rfl
@[simp] theorem Dom.undervolt_pending (d : Dom) (n : Nat) (b : Bool) : (d.undervolt n b).pending = d.pending := rfl

/-! ### The window -/

theorem look_of_lt {α : Type} {n : Nat} {v : Vector α n} {i : Nat} {d : α} (h : i < n) : look v i d = v[i] := dif_pos h

/-- Every step entry was free before this TIME, and no core is throttled. -/
structure State.Calm (s : State) : Prop where
  free : ∀ k i, k < 192 → i < 16 → ((look (s.core k).steps i .free).seen s.time).st = .free
  slow : ∀ k, k < 192 → (s.core k).throttled = false ∧ (s.core k).lvl = 0

/-- A window sees nothing in a free entry (R398). -/
theorem State.windowStep_free {s : State} {core i : Nat} (h : ((look (s.core core).steps i .free).seen s.time).st = .free) :
    s.windowStep core i = (none, s) := by
  simp [State.windowStep, h]

/-- Free entries require no point of a quadrant (R398). -/
theorem State.windowQuad_calm {s : State} (h : s.Calm) (q : Nat) : s.windowQuad q = (none, s) := by
  unfold State.windowQuad
  refine List.foldlRecOn (motive := fun x => x = (none, s)) _ _ rfl ?_
  rintro x rfl k hk
  have hk' : k < 3072 := List.mem_range.mp (List.mem_filter.mp hk).1
  rw [State.windowStep_free (h.free _ _ (by omega) (by omega))]

/-- A domain with its required point and its next point, at most a fitting one (R398). -/
def Dom.windowed (d : Dom) (req fit : Nat) : Dom := { d.decide (Nat.min req fit) with req := req }

/-- A compute domain that no throttled core holds back takes its point (R398). -/
theorem State.windowDom_calm {s : State} (h : ∀ k, k < 192 → (s.core k).throttled = false ∧ (s.core k).lvl = 0)
    {q : Nat} (hq : q < 4) (req fit : Nat) :
    s.windowDom q req fit = { s with doms := put s.doms q ((look s.doms q (Dom.reset true)).windowed req fit) } := by
  have hthr : ((List.range 48).any fun k => (s.core (48 * q + k)).throttled || decide (0 < (s.core (48 * q + k)).lvl)) = false := by
    rw [List.any_eq_false]
    intro k hk
    have hk' := List.mem_range.mp hk
    obtain ⟨ht, hl⟩ := h (48 * q + k) (by omega)
    simp [ht, hl]
  simp only [State.windowDom, hthr, Bool.false_eq_true, if_false]
  rfl

/-- Compute domains that take their points one after the other. -/
theorem State.windowDoms_calm {s : State} (h : ∀ k, k < 192 → (s.core k).throttled = false ∧ (s.core k).lvl = 0)
    (req fit : Nat → Nat) {l : List Nat} (hl : l.Nodup) (h4 : ∀ q ∈ l, q < 4) :
    ∃ v, l.foldl (fun s q => s.windowDom q (req q) (fit q)) s = { s with doms := v } ∧
      ∀ k d, look v k d = if k ∈ l then (look s.doms k (Dom.reset true)).windowed (req k) (fit k) else look s.doms k d := by
  induction l generalizing s with
  | nil => exact ⟨s.doms, rfl, fun k d => by simp⟩
  | cons q qs ih =>
    obtain ⟨hq, hqs⟩ := List.nodup_cons.mp hl
    have hq4 : q < 4 := h4 q (by simp)
    let u : State := { s with doms := put s.doms q ((look s.doms q (Dom.reset true)).windowed (req q) (fit q)) }
    obtain ⟨v, hv, hlook⟩ := ih (s := u) h hqs fun x hx => h4 x (List.mem_cons_of_mem _ hx)
    refine ⟨v, ?_, fun k d => ?_⟩
    · rw [List.foldl_cons, State.windowDom_calm h hq4, hv]
    · rw [hlook k d]
      by_cases hk : k = q
      · subst hk
        simp [hq, u, look_put_same _ _ _ _ (show k < 24 by omega)]
      · simp [hk, u, look_put_ne _ _ _ _ _ (Ne.symm hk)]

/-- A governor's window over a calm device (R393, R398, R402). -/
theorem State.governorWindow_calm {s : State} (m : GovInput) (h : s.Calm) (hb : s.dev.biv ≠ .asleep) (ht : s.time % 10000 = 0)
    (hw : s.dev.window ≠ some s.time) :
    let point := fun q => (look s.doms q (Dom.reset true)).defpt.toNat
    let dem := s.demands m point
    let fit := fitting m dem (shares dem m.platform s.dev.pcap.toNat s.dev.pfloor)
    ∃ v cs, exec (.governorWindow m) s = .next { s with
        doms := v
        cores := cs
        dev := { s.dev with window := some s.time, pwr := BitVec.ofNat 16 (min m.board 65535) } } ∧
      (∀ q, q < 4 → look v q (Dom.reset true) =
        ((look s.doms q (Dom.reset true)).windowed (point q) (fit q)).undervolt (m.corrected.getD q 0) (s.time % 1000000 == 0)) ∧
      (∀ k, 4 ≤ k → k < 24 → look v k (Dom.reset false) =
        ((look s.doms k (Dom.reset false)).decide (levelFor (m.stacked.getD (k - 4) 0))).undervolt (m.corrected.getD k 0)
          (s.time % 1000000 == 0)) := by
  intro point dem fit
  have hgate : (s.dev.biv == .asleep || s.time % 10000 != 0 || s.dev.window == some s.time) = false := by simp [hb, ht, hw]
  have hquads : (List.range 4).foldl (fun (x : List (Option Nat) × State) q => let r := x.2.windowQuad q; (x.1 ++ [r.1], r.2)) ([], s) =
      ([none, none, none, none], s) := by
    simp [List.range_succ, State.windowQuad_calm h]
  have hpoint : s.reqPoint [none, none, none, none] = point := by
    funext q
    rcases q with _ | _ | _ | _ | q <;> rfl
  obtain ⟨v, hv, hlook⟩ := State.windowDoms_calm h.slow point fit List.nodup_range fun q hq => List.mem_range.mp hq
  have hexec : exec (.governorWindow m) s = execGovernorWindow m s := rfl
  simp only [fit, dem] at hv
  simp only [execGovernorWindow, hgate, Bool.false_eq_true, if_false, hquads, hpoint, hv] at hexec
  refine ⟨_, _, hexec, fun q hq => ?_, fun k hk hk' => ?_⟩
  · rw [look_of_lt (show q < 24 by omega), Vector.getElem_ofFn]
    simp only [hq, if_true, Fin.getElem_fin]
    rw [← look_of_lt (d := Dom.reset true), hlook, if_pos (List.mem_range.mpr hq)]
  · rw [look_of_lt hk', Vector.getElem_ofFn]
    simp only [Nat.not_lt.mpr hk, if_false, Fin.getElem_fin]
    rw [← look_of_lt (d := Dom.reset false), hlook, if_neg (by simpa using hk)]

end Sys2Proof.Machine
end

section
/-! The fast control of the current (R400, R401). -/

namespace Sys2Proof.Machine

/-! ### The cores of a quadrant -/

/-- The cores that a quadrant lists: those of its cores that satisfy the test and have a tier (R394). -/
theorem State.mem_tiered {s : State} {q : Nat} {p : CoreState → Bool} {x : Nat × Nat} :
    x ∈ s.tiered q p ↔ x.1 / 48 = q ∧ p (s.core x.1) = true ∧ s.tierOf x.1 = some x.2 := by
  obtain ⟨k, t⟩ := x
  simp only [State.tiered, List.mem_filterMap, List.mem_map, List.mem_range]
  constructor
  · rintro ⟨c, ⟨i, hi, rfl⟩, hc⟩
    split at hc
    · next hp =>
      obtain ⟨n, hn, he⟩ := Option.map_eq_some_iff.mp hc
      obtain ⟨rfl, rfl⟩ := Prod.mk.inj he
      exact ⟨by omega, hp, hn⟩
    · cases hc
  · rintro ⟨hq, hp, ht⟩
    exact ⟨k, ⟨k - 48 * q, by omega, by omega⟩, by simp [hp, ht]⟩

/-- A quadrant lists each core once. -/
theorem State.tiered_distinct (s : State) (q : Nat) (p : CoreState → Bool) :
    (s.tiered q p).Pairwise fun x y => x.1 ≠ y.1 := by
  have first {c : Nat} {x : Nat × Nat} (h : (if p (s.core c) then (s.tierOf c).map fun t => (c, t) else none) = some x) : x.1 = c := by
    split at h
    · obtain ⟨t, -, rfl⟩ := Option.map_eq_some_iff.mp h
      rfl
    · cases h
  rw [State.tiered, List.pairwise_filterMap, List.pairwise_map]
  refine List.pairwise_lt_range.imp fun {i j} hij x hx y hy => ?_
  rw [first hx, first hy]
  omega

/-! ### LVL -/

/-- A core one level up (R401). -/
def CoreState.raised (c : CoreState) : CoreState := { c with lvl := c.lvl + 1, throttled := true }

/-- Cores that go one level up, one after the other, and what stands. -/
theorem State.raiseAll {s : State} {l : List (Nat × Nat)} (hl : l.Pairwise fun x y => x.1 ≠ y.1) :
    ∃ v, l.foldl (fun s x => s.setLvl x.1 ((s.core x.1).lvl + 1)) s = { s with cores := v } ∧
      ∀ k, k < 192 → ((∃ t, (k, t) ∈ l) → look v k .reset = (s.core k).raised) ∧
        ((∀ t, (k, t) ∉ l) → look v k .reset = s.core k) := by
  induction l generalizing s with
  | nil => exact ⟨s.cores, rfl, fun k _ => ⟨fun h => by simp at h, fun _ => rfl⟩⟩
  | cons x xs ih =>
    obtain ⟨hx, hxs⟩ := List.pairwise_cons.mp hl
    let u := s.setLvl x.1 ((s.core x.1).lvl + 1)
    obtain ⟨v, hv, hcores⟩ := ih (s := u) hxs
    refine ⟨v, by rw [List.foldl_cons, hv]; rfl, fun k hk => ?_⟩
    obtain ⟨hin, hout⟩ := hcores k hk
    by_cases hkx : k = x.1
    · have hu : u.core k = (s.core k).raised := by
        subst hkx
        exact (State.core_mapCore_same _ hk).trans (by simp [CoreState.raised])
      have hrest : ∀ t, (k, t) ∉ xs := fun t ht => hx (k, t) ht hkx.symm
      exact ⟨fun _ => (hout hrest).trans hu, fun h => absurd List.mem_cons_self (hkx ▸ h x.2)⟩
    · have hu : u.core k = s.core k := State.core_mapCore_ne _ hkx
      have hmem (t : Nat) : (k, t) ∈ x :: xs ↔ (k, t) ∈ xs := by
        rw [List.mem_cons, or_iff_right fun e => hkx (congrArg Prod.fst e)]
      simp only [hmem, ← hu]
      exact ⟨hin, hout⟩

/-- A core that a current above the limit raises: below level 4, of the largest tier number among those of its quadrant (R401). -/
def State.Raises (s : State) (q k : Nat) : Prop :=
  k / 48 = q ∧ (s.core k).lvl < 4 ∧ ∃ n, s.tierOf k = some n ∧
    ∀ j l, j / 48 = q → (s.core j).lvl < 4 → s.tierOf j = some l → l ≤ n

/-- Where the largest tier number is known, the cores that a current above the limit raises are those of that tier (R401). -/
theorem State.raises_iff {s : State} {q t : Nat}
    (ht : ((s.tiered q fun c => decide (c.lvl < 4)).map Prod.snd).max? = some t) (k : Nat) :
    s.Raises q k ↔ (k, t) ∈ s.tiered q fun c => decide (c.lvl < 4) := by
  obtain ⟨hmem, hmax⟩ := List.max?_eq_some_iff.mp ht
  obtain ⟨⟨j, _⟩, hj, rfl⟩ := List.mem_map.mp hmem
  have upper {i n : Nat} (hi : i / 48 = q) (hl : (s.core i).lvl < 4) (hn : s.tierOf i = some n) : n ≤ _ :=
    hmax n (List.mem_map.mpr ⟨(i, n), State.mem_tiered.mpr ⟨hi, by simpa using hl, hn⟩, rfl⟩)
  obtain ⟨hjq, hjl, hjt⟩ := State.mem_tiered.mp hj
  constructor
  · rintro ⟨hq, hl, n, hn, hall⟩
    have he := Nat.le_antisymm (upper hq hl hn) (hall _ _ hjq (by simpa using hjl) hjt)
    subst he
    exact State.mem_tiered.mpr ⟨hq, by simpa using hl, hn⟩
  · intro hk
    obtain ⟨hq, hl, hn⟩ := State.mem_tiered.mp hk
    exact ⟨hq, by simpa using hl, _, hn, fun i n hi hil hin => upper hi hil hin⟩

/-- Where no core of the quadrant is below level 4, a current above the limit raises none (R401). -/
theorem State.raises_none {s : State} {q : Nat}
    (ht : ((s.tiered q fun c => decide (c.lvl < 4)).map Prod.snd).max? = none) (k : Nat) : ¬ s.Raises q k := by
  rintro ⟨hq, hl, n, hn, -⟩
  have hk : (k, n) ∈ s.tiered q fun c => decide (c.lvl < 4) := State.mem_tiered.mpr ⟨hq, by simpa using hl, hn⟩
  have hnil := List.map_eq_nil_iff.mp (List.max?_eq_none_iff.mp ht)
  simp [hnil] at hk

/-! ### Samples -/

/-- The count of low samples is no limit. -/
theorem ilim_put_low (v : Vector Dom 24) (q k n : Nat) :
    (look (put v q { look v q (Dom.reset true) with low := n }) k (Dom.reset true)).ilim = (look v k (Dom.reset true)).ilim := by
  by_cases hk : q = k
  · subst hk
    by_cases hq : q < 24
    · rw [look_put_same _ _ _ _ hq]
    · rw [put, dif_neg hq]
  · rw [look_put_ne _ _ _ _ _ hk]

/-- A current from 0.9 of the limit up to the limit changes no level (R401). -/
theorem State.sampleDom_within {s : State} {q amps : Nat}
    (h : 9 * (look s.doms q (Dom.reset true)).ilim.toNat ≤ 10 * amps ∧ amps ≤ (look s.doms q (Dom.reset true)).ilim.toNat) :
    s.sampleDom q amps = { s with doms := put s.doms q { look s.doms q (Dom.reset true) with low := 0 } } := by
  obtain ⟨hlow, hhigh⟩ := h
  simp [State.sampleDom, Nat.not_lt.mpr hlow, Nat.not_lt.mpr hhigh]

/-- Domains whose currents are within their limits, one after the other (R401). -/
theorem State.sampleDoms_within {s : State} {amps : Nat → Nat} {l : List Nat}
    (h : ∀ q ∈ l, 9 * (look s.doms q (Dom.reset true)).ilim.toNat ≤ 10 * amps q ∧
      amps q ≤ (look s.doms q (Dom.reset true)).ilim.toNat) :
    ∃ v, l.foldl (fun s q => s.sampleDom q (amps q)) s = { s with doms := v } ∧
      ∀ k, (look v k (Dom.reset true)).ilim = (look s.doms k (Dom.reset true)).ilim := by
  induction l generalizing s with
  | nil => exact ⟨s.doms, rfl, fun _ => rfl⟩
  | cons q qs ih =>
    let u : State := { s with doms := put s.doms q { look s.doms q (Dom.reset true) with low := 0 } }
    have hu (k : Nat) : (look u.doms k (Dom.reset true)).ilim = (look s.doms k (Dom.reset true)).ilim := ilim_put_low _ _ _ _
    obtain ⟨v, hv, hlim⟩ := ih (s := u) fun k hk => by
      rw [hu]
      exact h k (List.mem_cons_of_mem _ hk)
    refine ⟨v, ?_, fun k => (hlim k).trans (hu k)⟩
    rw [List.foldl_cons, State.sampleDom_within (h q List.mem_cons_self), hv]

/-- A current above the limit raises the cores of the largest tier number (R401). -/
theorem State.sampleDom_over {s : State} {q amps : Nat} (h : (look s.doms q (Dom.reset true)).ilim.toNat < amps) :
    ∃ v cs, s.sampleDom q amps = { s with doms := v, cores := cs } ∧
      (∀ k, (look v k (Dom.reset true)).ilim = (look s.doms k (Dom.reset true)).ilim) ∧
      ∀ k, k < 192 → (s.Raises q k → look cs k .reset = (s.core k).raised) ∧ (¬ s.Raises q k → look cs k .reset = s.core k) := by
  simp only [State.sampleDom, if_pos h]
  split
  · next ht =>
    exact ⟨_, s.cores, rfl, fun k => ilim_put_low _ _ _ _, fun k _ => ⟨fun hk => absurd hk (State.raises_none ht k), fun _ => rfl⟩⟩
  · next t ht =>
    obtain ⟨cs, hcs, hcores⟩ := State.raiseAll (s := { s with doms := put s.doms q _ })
      ((State.tiered_distinct s q fun c => decide (c.lvl < 4)).filter fun x => x.2 == t)
    refine ⟨_, cs, hcs, fun k => ilim_put_low _ _ _ _, fun k hk => ?_⟩
    obtain ⟨hin, hout⟩ := hcores k hk
    have ht' : ((s.tiered q fun c => decide (c.lvl < 4)).map Prod.snd).max? = some t := ht
    rw [State.raises_iff ht']
    refine ⟨fun hmem => hin ⟨t, List.mem_filter.mpr ⟨hmem, by simp⟩⟩, fun hmem => hout fun n hn => hmem ?_⟩
    obtain ⟨hn, he⟩ := List.mem_filter.mp hn
    rwa [← beq_iff_eq.mp he]

/-- A sample in which one domain is above its limit and the others are within theirs (R401). -/
theorem State.currentSample_over {s : State} {amps : List Nat} {q : Nat} (hb : s.dev.biv ≠ .asleep) (ht : s.time % 1000 = 0)
    (hs : s.dev.sample ≠ some s.time) (hq : q < 4) (hover : (look s.doms q (Dom.reset true)).ilim.toNat < amps.getD q 0)
    (hwithin : ∀ k, k < 4 → k ≠ q → 9 * (look s.doms k (Dom.reset true)).ilim.toNat ≤ 10 * amps.getD k 0 ∧
      amps.getD k 0 ≤ (look s.doms k (Dom.reset true)).ilim.toNat) :
    ∃ v cs, exec (.currentSample amps) s = .next { s with
        doms := v
        cores := cs
        dev := { s.dev with sample := some s.time } } ∧
      ∀ k, k < 192 → (s.Raises q k → look cs k .reset = (s.core k).raised) ∧ (¬ s.Raises q k → look cs k .reset = s.core k) := by
  have hgate : (s.dev.biv == .asleep || s.time % 1000 != 0 || s.dev.sample == some s.time) = false := by simp [hb, ht, hs]
  obtain ⟨before, after, hsplit⟩ := List.append_of_mem (List.mem_range.mpr hq)
  have hdistinct : (before ++ q :: after).Nodup := hsplit ▸ List.nodup_range
  have hlt (k : Nat) (hk : k ∈ before ++ q :: after) : k < 4 := List.mem_range.mp (hsplit ▸ hk)
  obtain ⟨-, hafter, hbefore⟩ := List.nodup_append.mp hdistinct
  obtain ⟨v₁, hv₁, hlim₁⟩ := State.sampleDoms_within (s := s) (amps := fun k => amps.getD k 0) (l := before) fun k hk =>
    hwithin k (hlt k (by simp [hk])) (hbefore k hk q List.mem_cons_self)
  obtain ⟨v₂, cs, hv₂, hlim₂, hcores⟩ := State.sampleDom_over (s := { s with doms := v₁ }) (q := q) (amps := amps.getD q 0)
    (by rw [hlim₁]; exact hover)
  obtain ⟨v₃, hv₃, -⟩ := State.sampleDoms_within (s := { s with doms := v₂, cores := cs }) (amps := fun k => amps.getD k 0)
    (l := after) fun k hk => by
      rw [hlim₂, hlim₁]
      exact hwithin k (hlt k (by simp [hk])) fun e => (List.nodup_cons.mp hafter).1 (e ▸ hk)
  refine ⟨v₃, cs, ?_, hcores⟩
  have hexec : exec (.currentSample amps) s = execCurrentSample amps s := rfl
  simp only [execCurrentSample, hgate, Bool.false_eq_true, if_false, hsplit, List.foldl_append, List.foldl_cons, hv₁, hv₂,
    hv₃] at hexec
  exact hexec

end Sys2Proof.Machine
end

section
/-! Uncorrectable errors, the thermal sensors, and the statement about power (R403, R417 to R419). -/

namespace Sys2Proof.Machine

/-! ### Records in a ring of memory -/

/-- The write of a record to the ring at a base: none where there is no ring or where the line refuses it (R403, R419). -/
def State.ringWrite (s : State) (base pa : Nat) (bs : List Byte) : State :=
  if base == 0 || (s.sliceErr 0 pa).isSome then s else s.memWrite 0 pa bs

section
variable (s : State) (base pa : Nat) (bs : List Byte)

@[simp] theorem State.ringWrite_errs : (s.ringWrite base pa bs).errs = s.errs := by
  unfold State.ringWrite; split <;> rfl
@[simp] theorem State.ringWrite_doms : (s.ringWrite base pa bs).doms = s.doms := by
  unfold State.ringWrite; split <;> rfl
@[simp] theorem State.ringWrite_dev : (s.ringWrite base pa bs).dev = s.dev := by
  unfold State.ringWrite; split <;> rfl
@[simp] theorem State.ringWrite_held : (s.ringWrite base pa bs).held = s.held := by
  unfold State.ringWrite; split <;> rfl
@[simp] theorem State.ringWrite_time : (s.ringWrite base pa bs).time = s.time := by
  unfold State.ringWrite; split <;> rfl
@[simp] theorem State.ringWrite_cores : (s.ringWrite base pa bs).cores = s.cores := by
  unfold State.ringWrite; split <;> rfl

theorem State.ringWrite_core (k : Nat) : (s.ringWrite base pa bs).core k = s.core k := by
  rw [State.core, State.ringWrite_cores, State.core]

theorem State.ringWrite_mem : (s.ringWrite base pa bs).mem =
    if base = 0 ∨ (s.sliceErr 0 pa).isSome = true then s.mem else s.mem.write (s.place pa) bs := by
  unfold State.ringWrite
  by_cases h : base = 0 ∨ (s.sliceErr 0 pa).isSome = true
  · rw [if_pos h, if_pos (by simpa using h)]
  · rw [if_neg h, if_neg (by simpa using h)]
    rfl

end

/-! ### Errors -/

/-- What an error that is recorded leaves, where its record's line is at rest (R403). -/
theorem State.restoreOffset_eq {s : State} {x : MetError} :
    let d := look s.doms (errDom x.err) (Dom.reset true)
    let base := s.dev.errlb.toNat / 2048 % 2 ^ 41 * 2048
    let pa := base + 32 * (s.dev.errlt.toNat % 64)
    (base ≠ 0 → s.levelHeld pa = false) →
    s.restoreOffset x = { s.ringWrite base pa (s.errRecord x (!d.freeze && d.uvofs != 0)) with
      doms := if d.freeze then s.doms else put s.doms (errDom x.err) { d with uvofs := 0, freeze := true }
      dev := { s.dev with errlt := s.dev.errlt + 1 } } := by
  intro d base pa h
  have hheld : (base != 0 && s.levelHeld pa) = false := by
    by_cases hb : base = 0
    · simp [hb]
    · simp [h hb]
  simp only [State.restoreOffset]
  rw [hheld, State.holdIf_false, ← State.ringWrite, State.ringWrite_doms, State.ringWrite_dev]

/-- The line that has just been put is the one that is found. -/
theorem find?_putLine (l : Line) (ls : List Line) : (putLine l ls).find? (fun x => x.line == l.line) = some l := by
  induction ls with
  | nil => simp [putLine]
  | cons x xs ih =>
    unfold putLine
    split
    · simp
    · split
      · simp
      · next h => simpa [h] using ih

/-- A line of device memory with an uncorrectable word fails its check (R244). -/
theorem State.sliceErr_breakLine (s : State) (w : Byte) {pa : Nat} (h : targetOf pa = .device) :
    (s.breakLine pa).sliceErr w pa = some (0x0A, 10) := by
  have hplace : (s.breakLine pa).place pa = pa := by simp [State.place, h]
  have hline : (s.breakLine pa).line? pa = some ⟨pa / 64, (s.line? pa).bind Line.owner, true⟩ := by
    rw [State.line?, hplace]
    exact find?_putLine ⟨pa / 64, (s.line? pa).bind Line.owner, true⟩ s.lines
  simp [State.sliceErr, hline]

/-- A unit of memory that exists lies in device memory. -/
theorem targetOf_of_errReal {e : ErrInput} (h : errReal e = true) (hl : lineUnit e = true) : targetOf e.addr.toNat = .device := by
  simp only [errReal, hl, if_true, Bool.and_eq_true, beq_iff_eq] at h
  exact h.1.1

/-- The next record: that of the earliest error, and by source within one TIME (R1). -/
theorem State.nextError_of_least {s : State} {x : MetError} (ht : x.time < s.time)
    (h : ∀ y ∈ s.errs, x.time < y.time ∨ x.time = y.time ∧ unitSource x.err ≤ unitSource y.err) : s.nextError x = true := by
  simp only [State.nextError, earlier, ht, decide_true, Bool.true_and, List.all_eq_true]
  intro y hy
  have := h y hy
  simp only [Bool.not_eq_true', Bool.or_eq_false_iff, Bool.and_eq_false_imp, beq_iff_eq, decide_eq_false_iff_not]
  omega

/-! ### Machine events -/

/-- What a machine event leaves, where its record's line is at rest and no record of a higher source waits (R419). -/
theorem State.logEvent_eq {s : State} {src : Nat} {type : Byte} :
    let base := s.dev.mevb.toNat / 4096 % 2 ^ 40 * 4096
    let pa := base + 16 * (s.dev.mevt % 256)
    (base ≠ 0 → s.levelHeld pa = false) → (∀ x, s.dev.mevLast = some x → x.1 = s.time → x.2 ≤ src) →
    s.logEvent src type =
      { s.ringWrite base pa (bytesOf 8 s.time ++ bytesOf 2 src ++ [type] ++ List.replicate 5 0) with
        dev := { s.dev with mevt := s.dev.mevt + 1, mevLast := some (s.time, src) } } := by
  intro base pa h hlast
  have hheld : ((base != 0 && s.levelHeld pa) || s.dev.mevLast.any fun x => x.1 == s.time && decide (src < x.2)) = false := by
    rw [Bool.or_eq_false_iff]
    constructor
    · by_cases hb : base = 0
      · simp [hb]
      · simp [h hb]
    · cases hm : s.dev.mevLast with
      | none => rfl
      | some x => simpa [Nat.not_lt] using hlast x hm
  simp only [State.logEvent]
  rw [hheld, State.holdIf_false, ← State.ringWrite, State.ringWrite_dev, State.ringWrite_time]

/-- A core with the reading of its sensor (R417, R418). -/
def CoreState.sense (c : CoreState) (temp : BitVec 16) (above : Bool) (time : Nat) : CoreState :=
  { c with temp := temp, hot := c.hot || above, sampled := some time }

/-- A sample of a sensor in its time (R417, R418). -/
theorem State.thermalSample_eq {s : State} {core : Nat} (temp : BitVec 16) (hc : core < 192) (hb : s.dev.biv ≠ .asleep)
    (hs : ∀ t, (s.core core).sampled = some t → t + 10000 ≤ s.time) :
    let c := s.core core
    let u := s.mapCore core fun x => x.sense temp (decide (c.thr.toNat < temp.toNat)) s.time
    exec (.thermalSample core temp) s =
      .next (if c.thr.toNat < temp.toNat ∧ c.hot = false then u.logEvent core 2 else u) := by
  intro c u
  have hgate : (s.dev.biv == .asleep || decide (192 ≤ core) || c.sampled.any fun t => decide (s.time < t + 10000)) = false := by
    have hany : (c.sampled.any fun t => decide (s.time < t + 10000)) = false := by
      cases ht : c.sampled with
      | none => rfl
      | some t => simpa using hs t ht
    simp [hb, hc, hany]
  have hexec : exec (.thermalSample core temp) s = execThermalSample core temp s := rfl
  simp only [execThermalSample] at hexec
  rw [hexec, hgate]
  simp only [Bool.false_eq_true, if_false, Bool.and_eq_true, decide_eq_true_eq, Bool.not_eq_true']
  rfl

/-! ### The statement -/

/-- Settles O49: a calm window leaves every domain its own choice, the quadrants of a sample do not touch one another, and a record is
one write to its ring. -/
theorem powerEventsAct : Obligations.PowerEventsAct := by
  unfold Obligations.PowerEventsAct
  intro s
  refine ⟨?window, ?changes, ?current, ?recorded, ?met, ?sensor⟩
  case window =>
    intro m hb ht hw hfree dem
    have calm : s.Calm := ⟨fun k i hk hi => (hfree k i hk hi).1, fun k hk => (hfree k 0 hk (by decide)).2⟩
    obtain ⟨v, cs, hexec, hcompute, hstacked⟩ := State.governorWindow_calm m calm hb ht hw
    refine ⟨_, hexec, rfl, fun _ => rfl, fun q hq => ?_, fun k hk hk' => ?_⟩
    · simp only [hcompute q hq]
      obtain ⟨hchosen, hhigher⟩ := fitting_spec m dem (shares dem m.platform s.dev.pcap.toNat s.dev.pfloor) q
      exact ⟨rfl, rfl, _, _, hchosen, hhigher, rfl, Dom.decide_pending _ _⟩
    · simp only [hstacked k hk hk']
      obtain ⟨hle, henough, hleast⟩ := levelFor_spec (m.stacked.getD (k - 4) 0)
      exact ⟨rfl, _, hle, henough, hleast, Dom.decide_pending _ _⟩
  case changes =>
    intro dom p hp done
    constructor
    · intro hd
      simp only [hd, decide_true] at hp
      show execPointChangeDone dom s = _
      simp only [execPointChangeDone, hd, if_true, hp, done, decide_true]
    · intro hd hd'
      have hn : ¬ dom < 4 := Nat.not_lt.mpr hd
      simp only [hn, decide_false] at hp
      show execLevelChangeDone dom s = _
      simp only [execLevelChangeDone, hd, hd', decide_true, Bool.and_self, if_true, hp, done, hn, decide_false]
  case current =>
    intro amps q hb ht hs hq limit h
    have hover := h q hq
    rw [if_pos rfl] at hover
    obtain ⟨v, cs, hexec, hcores⟩ := State.currentSample_over hb ht hs hq hover fun k hk hkq => by
      simpa only [if_neg hkq] using h k hk
    exact ⟨_, hexec, rfl, fun _ => rfl, hcores⟩
  case recorded =>
    intro x hr hfind ht hleast e d base pa world rec' hheld
    have hexec : exec (.undervoltRestore e) s = execUndervoltRestore e s := rfl
    simp only [execUndervoltRestore, hr, Bool.not_true, Bool.false_eq_true, if_false, e, hfind,
      State.nextError_of_least ht hleast, if_true] at hexec
    rw [State.restoreOffset_eq (s := { s with errs := s.errs.erase x }) hheld] at hexec
    exact ⟨_, hexec, by simp, rfl, rfl, by simp, State.ringWrite_mem _ _ _ _⟩
  case met =>
    intro e hr hl hnew
    have hnone : s.errs.find? (fun y => y.err == e) = none := List.find?_eq_none.mpr fun y hy => by simpa using hnew y hy
    have hexec : exec (.undervoltRestore e) s = execUndervoltRestore e s := rfl
    simp only [execUndervoltRestore, hr, hl, Bool.not_true, Bool.false_eq_true, if_false, hnone, if_true] at hexec
    exact ⟨_, hexec, rfl, rfl, fun w => State.sliceErr_breakLine _ w (targetOf_of_errReal hr hl)⟩
  case sensor =>
    intro core temp hc hb hsampled c pa
    have hexec := State.thermalSample_eq temp hc hb hsampled
    refine ⟨fun hcool => ?_, fun hover hnew hheld hlast => ?_⟩
    · have hquiet : ¬ (c.thr.toNat < temp.toNat ∧ c.hot = false) := by
        rintro ⟨ho, hn⟩
        rcases hcool with hle | hhot
        · exact Nat.not_lt.mpr hle ho
        · rw [hn] at hhot
          cases hhot
      exact .of_mapCore hc (hexec.trans (congrArg _ (if_neg hquiet)))
    · dsimp only at hexec
      rw [if_pos ⟨hover, hnew⟩,
        State.logEvent_eq (s := s.mapCore core _) (fun h => hheld fun e => h (mul_eq_zero_of_left e _)) hlast] at hexec
      refine ⟨_, hexec, ?_, rfl, by simp, ?_⟩
      · have hcore : (s.mapCore core fun x => x.sense temp (decide (c.thr.toNat < temp.toNat)) s.time).core core =
            { c with temp := temp, hot := true, sampled := some s.time } := by
          rw [State.core_mapCore_same _ hc, CoreState.sense, decide_eq_true hover, Bool.or_true]
        exact (State.ringWrite_core _ _ _ _ core).trans hcore
      · simp only [State.ringWrite_mem, Nat.mul_eq_zero, OfNat.ofNat_ne_zero, or_false]
        rfl

end Sys2Proof.Machine
end

section
/-! Stops of the issuing group that enter their handler (R56, R309 to R313). -/

namespace Sys2Proof.Machine

/-- The group stands in the handler that it enters (R313); that of the watchdog, 0x10, finds the L-PCs in hs3 and hs4. -/
theorem EntersHandler.of_enter (u : State) (st : Stop) (entry : Word) (hc : st.code ≠ 0x10) :
    EntersHandler u (u.mapCur fun g => g.enter st entry) st.code st.hs1 st.pc entry where
  level := rfl
  pc := rfl
  hs := by
    have hhs : (u.mapCur fun g => g.enter st entry).cur.s.hs =
        put (put (put (Vector.replicate 16 0) 0 (st.code.setWidth 64)) 1 st.hs1) 2 st.pc := by
      exact if_neg (by simpa using hc)
    rw [hhs]
    refine ⟨rfl, rfl, rfl, fun i h3 h16 => ?_⟩
    rw [look_put_ne _ _ _ _ _ (by omega), look_put_ne _ _ _ _ _ (by omega), look_put_ne _ _ _ _ _ (by omega)]
    simp [look]
  kept := ⟨rfl, rfl, rfl, rfl, rfl⟩
  empty := ⟨rfl, rfl, rfl, rfl, rfl, rfl, rfl⟩
  bank := ⟨_, rfl, rfl, rfl, rfl, rfl, rfl⟩
  rest := rfl

/-- A stop whose handler may be entered at once reaches it: its records of memory faults go first (R312). -/
theorem State.dispatch_enters {s v u : State} {st : Stop} {entry : Word} {imm : Bool} (hq : s.queueMem st = v)
    (hi : Interruptible v) (hv : v.vectorEntry (v.coreOf v.cur) (v.ctxOf v.cur) st.code = (some (entry, imm), u))
    (himm : imm = true ∨ st.inPlace = true) : s.dispatch st = u.enterHandler { st with queued := true } entry := by
  have hholds : v.cur.holdsStops = false := by simp [Group.holdsStops, hi.runs, hi.parked, hi.halted]
  have hplace : (Stop.inPlace { st with queued := true } || imm) = true := by
    rw [Bool.or_eq_true]
    exact himm.symm
  simp only [State.dispatch, hq, hholds, hi.policy, hi.user, hv, hplace, Bool.false_and, Bool.false_eq_true, if_false, if_true,
    Option.isSome_none]

/-- A stop that is no memory fault has no record before its dispatch (R312). -/
theorem State.queueMem_plain {s : State} {st : Stop} (hl : st.lanes = []) (hm : memoryCode st.code = false) : s.queueMem st = s := by
  have hnone : (s.stopRecords s.cur st).filter (fun r => memoryCode r.code) = [] := by
    simp [State.stopRecords, hl, hm, State.recordOf]
  unfold State.queueMem
  rw [hnone]
  exact ite_self s

/-- An exact stop of the S-stream, other than a memory fault, enters its handler where a free shadow set lets it (R312, R313). -/
theorem State.sFault_enters {s u : State} {code : Byte} {hs1 entry pc : Word} (hw : s.cur.sWaits = false) (hi : Interruptible s)
    (hu : u.canEnter = true) (hv : s.vectorEntry (s.coreOf s.cur) (s.ctxOf s.cur) code = (some (entry, true), u))
    (hm : memoryCode code = false) (hc : code ≠ 0x10) (hpc : s.cur.s.pc = pc) :
    EntersHandler u (s.sFault (s.sStop code 0 hs1 [] 0)) code hs1 pc entry := by
  have hd := State.dispatch_enters (st := s.sStop code 0 hs1 [] 0) (State.queueMem_plain rfl hm) hi hv (.inl rfl)
  simp only [State.sFault, hw, Bool.false_eq_true, if_false, hd, State.enterHandler, hu, if_true]
  subst hpc
  exact EntersHandler.of_enter u _ entry hc

/-- What the S-stream has joined changes nothing of what a stop meets (R14). -/
theorem Interruptible.joinS {s : State} (h : Interruptible s) : Interruptible s.joinS :=
  ⟨h.runs, h.user, h.parked, h.halted, h.policy⟩

/-- An S-stream instruction above the level of its group takes PRIV (R49, R307). -/
theorem State.sIssue_above {s : State} {need : Level} {rs : List SReg} {free : Bool} {body : State → State}
    (hl : ∀ r ∈ rs, s.cur.sLegal r = true) (hn : Level.rank s.cur.level < Level.rank need) :
    s.sIssue need rs free body = s.raise 0x02 := by
  have h1 : (rs.any fun r => !s.cur.sLegal r) = false := by
    simp only [List.any_eq_false]; intro r hr; simp [hl r hr]
  simp [State.sIssue, h1, hn]

end Sys2Proof.Machine
end

section
/-! The scalar traffic with the L-stream, the joins and the waits on counters, and the instructions above the level of their group
(R14, R23, R26, R49, R83 to R86, R198, R307). -/

namespace Sys2Proof.Machine

/-! ### The queues -/

/-- An append to a decision queue with room (R12, R83, R84). -/
theorem State.dqAppend_room {s : State} (block : Bool) (v : Word) (h : s.cur.dq.length < 16) :
    s.dqAppend block v = (s.mapCur fun g => { g with dq := g.dq ++ [⟨block, g.mode, v, g.seq, g.sAfter⟩] }).nextPc 4 := by
  simp [State.dqAppend, Group.dqFull, h]

/-- A full decision queue holds the append back (R12). -/
theorem State.dqAppend_full {s : State} (block : Bool) (v : Word) (h : 16 ≤ s.cur.dq.length) : s.dqAppend block v = s := by
  simp [State.dqAppend, Group.dqFull, h]

/-- Writing one register after another: what the first reads afterwards. -/
theorem State.sget_sput_sput {s : State} {d a : SReg} {v w : Word} (hd : s.cur.sLegal d = true) (h : a ≠ d ∨ d = 127#7) :
    ((s.sput d v).sput a w).sget d = if d = 127#7 then 0 else v := by
  by_cases hda : d = a
  · subst hda
    obtain rfl : d = 127#7 := h.resolve_left fun n => n rfl
    exact State.sget_sput_same (s.sput 127#7 v) 127#7 w hd
  · rw [State.sget_sput_ne _ _ _ _ hda, State.sget_sput_same _ _ _ hd]

/-- The group with its oldest result taken (R13, R85). -/
def State.withRq (s : State) (vs : List Word) : State := s.mapCur fun g => { g with rq := vs }

theorem State.sget_withRq (s : State) (vs : List Word) (r : SReg) : (s.withRq vs).sget r = s.sget r := rfl

/-- Settles O5: a ready form of the queues comes down to one append, or to one pop and its register writes. -/
theorem queueFormsMoveValues : Obligations.QueueFormsMoveValues := by
  unfold Obligations.QueueFormsMoveValues
  intro s d a off pc' appended h
  refine ⟨fun hr => ?dqput, fun hr hb => ?lrun, fun hr => ?rqget, fun hr had => ?rqgetTry⟩
  case dqput =>
    have hexec : exec (.dqput a) s = .next (s.dqAppend false (s.sget a)) := by
      show execDqput a s = _
      rw [execDqput, State.sIssue_ready hr]
    rw [hexec]
    exact ⟨fun hq => by rw [State.dqAppend_room _ _ hq]; rfl, fun hq => by rw [State.dqAppend_full _ _ hq]⟩
  case lrun =>
    have hbase : (s.cur.mode && (s.ctxOf s.cur).hlbase == 0) = false := by
      rw [Bool.and_eq_false_imp]
      intro hm
      exact beq_false_of_ne (hb.resolve_left fun hf => Bool.false_ne_true (hf.symm.trans hm))
    have hexec : exec (.lrun off) s = .next (s.dqAppend true (off.setWidth 64)) := by
      show execLrun off s = _
      rw [execLrun, State.sIssue_ready hr, hbase]
      rfl
    rw [hexec]
    exact ⟨fun hq => by rw [State.dqAppend_room _ _ hq]; rfl, fun hq => by rw [State.dqAppend_full _ _ hq]⟩
  case rqget =>
    refine ⟨fun hq => ?_, fun v vs hq => ?_⟩
    · show execRqget d s = _
      rw [execRqget, State.sIssue_ready hr, hq]
    · have hexec : exec (.rqget d) s = .next (((s.withRq vs).sput d v).nextPc 4) := by
        show execRqget d s = _
        rw [execRqget, State.sIssue_ready hr, hq]
        rfl
      have hd : (s.withRq vs).cur.sLegal d = true := hr.legal d (by simp)
      refine ⟨_, hexec, rfl, ?_, fun r hrd => ?_, ?_, ?_, rfl, fun _ => rfl⟩
      · rw [State.sget_nextPc, State.sget_sput_same _ _ _ hd]
      · rw [State.sget_nextPc, State.sget_sput_ne _ _ _ _ hrd, State.sget_withRq]
      · rw [State.nextPc_pc, State.sput_s, SState.put_pc]
        rfl
      · exact SState.put_flags _ _ _
  case rqgetTry =>
    have hd : s.cur.sLegal d = true := hr.legal d (by simp)
    have ha : s.cur.sLegal a = true := hr.legal a (by simp)
    refine ⟨fun hq => ?_, fun v vs hq => ?_⟩
    · refine WritesReg.of_quiet (v' := 1) ha ?_ rfl
      show execRqgetTry d a s = _
      rw [execRqgetTry, State.sIssue_ready hr, hq]
    · have hexec : exec (.rqgetTry d a) s = .next ((((s.withRq vs).sput d v).sput a 0).nextPc 4) := by
        show execRqgetTry d a s = _
        rw [execRqgetTry, State.sIssue_ready hr, hq]
        rfl
      refine ⟨_, hexec, rfl, ?_, ?_, fun r hrd hra => ?_, ?_, ?_, rfl, fun _ => rfl⟩
      · rw [State.sget_nextPc, State.sget_sput_sput (s := s.withRq vs) hd had]
      · rw [State.sget_nextPc, State.sget_sput_same ((s.withRq vs).sput d v) _ _ ha, ite_self]
      · rw [State.sget_nextPc, State.sget_sput_ne _ _ _ _ hra, State.sget_sput_ne _ _ _ _ hrd, State.sget_withRq]
      · rw [State.nextPc_pc, State.sput_s, SState.put_pc, State.sput_s, SState.put_pc]
        rfl
      · exact (SState.put_flags _ _ _).trans (SState.put_flags _ _ _)

/-! ### Joins and waits -/

/-- Settles O4: each form that may issue comes down to its condition. -/
theorem joinsAndCounterWaitsGoOn : Obligations.JoinsAndCounterWaitsGoOn := by
  unfold Obligations.JoinsAndCounterWaitsGoOn
  refine ⟨fun s => ⟨fun hr => ?nop, fun hr hl => ⟨?sjoin, fun hf => ?passes, fun u entry hf hi hu hv => ?traps⟩⟩,
    fun s ld st cp mx p a => ⟨fun hr h1 h2 h3 h4 => ?waitc, fun hr hc => ?waitr⟩⟩
  case nop =>
    show execNop s = _
    rw [execNop, State.sIssue_ready hr]
    rfl
  case sjoin =>
    show execSjoin s = _
    rw [execSjoin, State.sIssue_ready hr, hl]
    rfl
  case passes =>
    show execTrapfence s = _
    rw [execTrapfence, State.sIssue_ready hr, hl, hf]
    rfl
  case traps =>
    have hexec : exec .trapfence s =
        .next (s.joinS.sFault (s.joinS.sStop 0x11 0 ((s.cur.flags &&& s.cur.fmask).setWidth 64) [] 0)) := by
      show execTrapfence s = _
      have hf' : (s.cur.flags &&& s.cur.fmask != 0) = true := bne_iff_ne.mpr hf
      simp only [execTrapfence, State.sIssue_ready hr, hl, hf', Bool.not_true, Bool.false_eq_true, if_false, if_true]
      rfl
    have hw : s.joinS.cur.sWaits = false := hr.waits.resolve_left Bool.false_ne_true
    exact ⟨_, hexec, State.sFault_enters hw hi.joinS hu hv rfl (by decide) rfl⟩
  case waitc =>
    show execWaitc ld st cp mx s = _
    rw [execWaitc, State.sIssue_ready hr]
    simp only [h1, h2, h3, h4, decide_true, Bool.and_self, if_true]
    rfl
  case waitr =>
    show execWaitr p a s = _
    rw [execWaitr, State.sIssue_ready hr, if_pos hc]
    rfl

/-! ### Levels -/

/-- A listed register above the level of its group is refused (R23). -/
theorem srFault_above {lvl r w : Level} {write : Bool} {n : Nat} (hl : srLevels n = some (r, w))
    (h : Level.rank lvl < Level.rank (if write then w else r)) : srFault lvl write n = some 0x02 := by
  simp only [srFault, hl, h, if_true]

/-- A number from 0x100 up that is not listed is refused at USER (R23). -/
theorem srFault_unlisted {lvl : Level} {write : Bool} {n : Nat} (hl : srLevels n = none) (hn : 0x100 ≤ n)
    (h : Level.rank lvl < Level.rank .super) : srFault lvl write n = some 0x02 := by
  cases lvl with
  | user => simp [srFault, hl, hn]
  | super => exact absurd h (Nat.lt_irrefl _)
  | mach => exact absurd h (by decide)

/-- RDSR that its level does not suffice for takes PRIV (R82). -/
theorem exec_rdsr_above {s : State} {d : SReg} {n : BitVec 12} (h : SReady s .user [d] true)
    (hf : srFault s.cur.level false n.toNat = some 0x02) : exec (.rdsr d n) s = .next (s.raise 0x02) := by
  show execRdsr d n s = _
  simp only [execRdsr, State.sIssue_ready h, hf]

/-- WRSR that its level does not suffice for takes PRIV (R82). -/
theorem exec_wrsr_above {s : State} {a : SReg} {n : BitVec 12} (h : SReady s .user [a] false)
    (hf : srFault s.cur.level true n.toNat = some 0x02) : exec (.wrsr a n) s = .next (s.raise 0x02) := by
  show execWrsr a n s = _
  simp only [execWrsr, State.sIssue_ready h, hf]

/-- Settles O58: the check of the level in the shared issue, or in the access of a special register, takes PRIV. -/
theorem lowLevelsTakePriv : Obligations.LowLevelsTakePriv := by
  unfold Obligations.LowLevelsTakePriv
  intro s u i need rs entry hform hlegal hlevel hheld hbusy hwaits hi hu hv
  have hready (free : Bool) : SReady s .user rs free := ⟨hlegal, Nat.zero_le _, hheld, hbusy, .inr hwaits⟩
  suffices hexec : exec i s = .next (s.raise 0x02) from
    ⟨_, hexec, State.sFault_enters hwaits hi hu hv rfl (by decide) rfl⟩
  have hissue (free : Bool) (body : State → State) : (.next (s.sIssue need rs free body) : Out) = .next (s.raise 0x02) :=
    congrArg _ (State.sIssue_above hlegal hlevel)
  rcases hform with ⟨rfl, rfl, rfl⟩ | ⟨rfl, rfl, rfl⟩ | ⟨d, a, rfl, rfl, rfl⟩ | ⟨d, a, rfl, rfl, rfl⟩ | ⟨d, rfl, rfl, rfl⟩ |
    ⟨d, a, rfl, rfl, rfl⟩ | ⟨d, a, rfl, rfl, rfl⟩ | ⟨z, d, a, b, rfl, rfl, rfl⟩ | ⟨d, a, b, rfl, rfl, rfl⟩ |
    ⟨z, d, a, rfl, rfl, rfl⟩ | ⟨f, d, a, b, c, rfl, rfl, rfl⟩ | ⟨d, a, c, rfl, rfl, rfl⟩ | ⟨d, n, w, rfl, hn, rfl⟩ |
    ⟨a, n, r, rfl, hn, rfl⟩ | ⟨d, n, hdn, hn, hlow, rfl, rfl⟩
  iterate 12 exact hissue _ _
  · exact exec_rdsr_above (hready true) (srFault_above hn hlevel)
  · exact exec_wrsr_above (hready false) (srFault_above hn hlevel)
  · rcases hdn with rfl | rfl
    · exact exec_rdsr_above (hready true) (srFault_unlisted hn hlow hlevel)
    · exact exec_wrsr_above (hready false) (srFault_unlisted hn hlow hlevel)

end Sys2Proof.Machine
end

section
/-! A step of the machine: what its turn runs (R7, R47, R56, R57). -/

namespace Sys2Proof.Machine

theorem foldl_keeps {α β σ : Type} {f : σ → α → σ} {p : σ → β} (h : ∀ s x, p (f s x) = p s) (l : List α) (s : σ) :
    p (l.foldl f s) = p s := by
  induction l generalizing s with
  | nil => rfl
  | cons x xs ih => rw [List.foldl_cons, ih, h]

/-! ### A translation keeps the stream state -/

/-- What a translation leaves of the issuing group's streams: the registers of the S-stream, and whose turn it is in the L-stream. -/
def State.streams (s : State) : SState × Bool := (s.cur.s, s.ps1)

@[simp] theorem State.holdIf_streams (s : State) (h : Bool) : (s.holdIf h).streams = s.streams := by cases h <;> rfl

/-- Waking who waits on a line leaves every stream's registers (R212). -/
theorem State.wakeLine_streams (s : State) (line : Nat) : (s.wakeLine line).streams = s.streams := by
  unfold State.wakeLine State.mapGroups State.streams
  dsimp only
  split <;> rfl

theorem State.memWrite_streams (s : State) (w : Byte) (pa : Nat) (bs : List Byte) : (s.memWrite w pa bs).streams = s.streams :=
  State.wakeLine_streams ..

theorem State.orEntry_streams (s : State) (ea bits : Nat) : (s.orEntry ea bits).streams = s.streams := by
  unfold State.orEntry
  dsimp only
  split
  · rfl
  · exact State.memWrite_streams ..

theorem State.setAD_streams (s : State) (path : List Nat) (leaf : Nat) (d : Bool) : (s.setAD path leaf d).streams = s.streams := by
  have hpath := foldl_keeps (f := fun s ea => State.orEntry s ea 8) (p := State.streams)
    (fun s ea => State.orEntry_streams s ea 8) path s
  cases d
  · exact hpath
  · exact (State.orEntry_streams ..).trans hpath

theorem State.translateHeld_streams (s : State) (core : Nat) (c : Ctx) (e : TlbEntry) (kind : AccessKind) (va : Word) :
    (s.translateHeld core c e kind va).st.streams = s.streams := by
  unfold State.translateHeld
  split
  · rfl
  · split
    · rfl
    · dsimp only
      split
      · rfl
      · have hset (h : Bool) := State.setAD_streams (s.holdIf h) e.path e.leaf (kind.writes && !e.dirty)
        simp only [State.holdIf_streams] at hset
        dsimp only
        split <;> exact hset _

theorem State.translateWalk_streams (s : State) (core : Nat) (c : Ctx) (kind : AccessKind) (va : Word) :
    (s.translateWalk core c kind va).st.streams = s.streams := by
  unfold State.translateWalk
  split
  · rfl
  · split
    · rfl
    · dsimp only
      split
      · rfl
      · split
        · rfl
        · exact State.setAD_streams ..

/-- A translation may set bits of its tables and keep entries, and leaves the streams (R237, R242). -/
theorem State.translate_streams (s : State) (core : Nat) (c : Ctx) (lvl : Level) (kind : AccessKind) (va : Word) :
    (s.translate core c lvl kind va).st.streams = s.streams := by
  unfold State.translate
  split
  · rfl
  · split
    · exact State.translateHeld_streams ..
    · split
      · exact State.translateHeld_streams ..
      · exact State.translateWalk_streams ..

/-- The fetch of a code word leaves the stream state (R57). -/
theorem State.fetchWord_cur_s (s : State) (va : Word) : (s.fetchWord va).2.cur.s = s.cur.s := by
  have ht := congrArg Prod.fst (State.translate_streams s (s.coreOf s.cur) (s.ctxOf s.cur) s.cur.level .fetch va)
  unfold State.fetchWord
  dsimp only
  split
  · exact ht
  · split
    · exact ht
    · refine Eq.trans ?_ ht
      unfold State.codeBytes
      dsimp only
      split <;> rfl

/-! ### What a turn finds -/

theorem State.focus_self (s : State) : s.focus s.cur.uid = s := by simp [State.focus]

theorem instrOr_instr {d : Decoded} {l : Bool} {i : Instr} (h : d = .instr i) : instrOr l d = i := by rw [h]; rfl

theorem instrOr_reject {d : Decoded} {l : Bool} (h : ∀ i, d ≠ .instr i) : instrOr l d = .illegalEncoding l := by
  cases d with
  | instr i => exact absurd rfl (h i)
  | reject r => rfl

/-- A turn that finds an instruction runs it; one that a change of level holds is taken again (R393). -/
theorem step_runs {s : State} {turn : Turn} {rest : List Turn} {i : Instr} {v t : State} (ha : s.agenda = turn :: rest)
    (hf : (({ s with agenda := rest } : State).advance turn.dt).found turn.act = (some i, v)) (hx : exec i v = .next t) :
    step s = .next (if t.held then ({ s with agenda := rest } : State).advance turn.dt else t) := by
  have hn : s.nextTurn = (turn, { s with agenda := rest }) := by rw [State.nextTurn, ha]
  simp only [step, hn, hf, hx, State.orWait]

/-- A turn that finds nothing to run lets its time pass. -/
theorem step_idle {s : State} {turn : Turn} {rest : List Turn} {v : State} (ha : s.agenda = turn :: rest)
    (hf : (({ s with agenda := rest } : State).advance turn.dt).found turn.act = (none, v)) : step s = .next v := by
  have hn : s.nextTurn = (turn, { s with agenda := rest }) := by rw [State.nextTurn, ha]
  simp only [step, hn, hf]

/-- The S-stream's turn (R56). -/
theorem State.found_issueS (u : State) : u.found (.issueS u.cur.uid) =
    if u.issuesS u.cur && !u.fetchHeld u.cur.s.pc 8 then (some u.fetchS.1, u.fetchS.2) else (none, u) := by
  simp [State.found, State.focus_self]

/-- A path's turn (R56). -/
theorem State.found_issueL {u x : State} {slot : Bool} {p : Path} (hx : x = { u with ps1 := slot }) (hp : x.cur.path slot = some p) :
    u.found (.issueL u.cur.uid slot) =
      if x.issuesL x.cur slot && !x.fetchHeld (x.laddr p.pc) 12 then (some (x.fetchL p.pc).1, (x.fetchL p.pc).2) else (none, x) := by
  subst hx
  have hf : u.focus u.cur.uid = u := State.focus_self u
  simp only [State.found, hf, beq_self_eq_true, Bool.true_and]
  rw [show u.cur.path slot = some p from hp]

/-- A path slot that is empty runs nothing. -/
theorem State.found_issueL_none {u x : State} {slot : Bool} (hx : x = { u with ps1 := slot }) (hp : x.cur.path slot = none) :
    u.found (.issueL u.cur.uid slot) = (none, x) := by
  subst hx
  have hf : u.focus u.cur.uid = u := State.focus_self u
  simp only [State.found, hf]
  rw [show u.cur.path slot = none from hp]

/-! ### What a stream fetches -/

section
variable {s v x : State} {pc : Word} {w0 w1 : Word32} {f : FetchFault}

theorem State.fetchS_fault (hpc : s.cur.s.pc = pc) (h : s.fetchWord pc = (.inl f, v)) :
    s.fetchS = (.instructionFetchFault false f, v) := by
  subst hpc
  simp only [State.fetchS, h]

theorem State.fetchS_one (hpc : s.cur.s.pc = pc) (h : s.fetchWord pc = (.inr w0, v)) (hn : sWords w0 = 1) :
    s.fetchS = (instrOr false (decodeS w0 0), v) := by
  subst hpc
  simp only [State.fetchS, h, hn]
  rfl

/-- The second word of an instruction stands after the first, whatever the fetch of that did to the tables. -/
theorem State.pc_of_fetchWord (hpc : s.cur.s.pc = pc) (h : s.fetchWord pc = (.inr w0, v)) : v.cur.s.pc = pc := by
  have hk := congrArg SState.pc (State.fetchWord_cur_s s pc)
  rw [h] at hk
  exact hk.trans hpc

theorem State.fetchS_fault_second (hpc : s.cur.s.pc = pc) (h : s.fetchWord pc = (.inr w0, v)) (hn : sWords w0 = 2)
    (h1 : v.fetchWord (pc + 4) = (.inl f, x)) : s.fetchS = (.instructionFetchFault false f, x) := by
  have hv := State.pc_of_fetchWord hpc h
  subst hpc
  simp only [State.fetchS, h, hn, beq_self_eq_true, if_true, hv, h1]

theorem State.fetchS_two (hpc : s.cur.s.pc = pc) (h : s.fetchWord pc = (.inr w0, v)) (hn : sWords w0 = 2)
    (h1 : v.fetchWord (pc + 4) = (.inr w1, x)) : s.fetchS = (instrOr false (decodeS w0 w1), x) := by
  have hv := State.pc_of_fetchWord hpc h
  subst hpc
  simp only [State.fetchS, h, hn, beq_self_eq_true, if_true, hv, h1]

end

/-- Settles O55: a turn of a stream fetches, decodes and runs as its words say. -/
theorem stepRunsTheDecodedInstruction : Obligations.StepRunsTheDecodedInstruction := by
  unfold Obligations.StepRunsTheDecodedInstruction
  intro s turn rest ha u runs
  have hruns {i : Instr} {v : State} (hf : u.found turn.act = (some i, v)) : runs i v := fun t hx => step_runs ha hf hx
  refine ⟨fun i hact => hruns (by rw [hact]; rfl), fun hact => ?sstream, fun slot hact => ?lstream⟩
  case sstream =>
    intro pc
    refine ⟨fun hno => step_idle ha ?_, fun hi hh => ?_⟩
    · have hcond : ¬ (u.issuesS u.cur && !u.fetchHeld u.cur.s.pc 8) = true := by
        rw [Bool.and_eq_true, Bool.not_eq_true']
        rintro ⟨hi, hh⟩
        rcases hno with h | h
        · exact Bool.false_ne_true (h.symm.trans hi)
        · exact Bool.false_ne_true (hh.symm.trans h)
      rw [hact]
      exact (State.found_issueS u).trans (if_neg hcond)
    · have hcond : (u.issuesS u.cur && !u.fetchHeld u.cur.s.pc 8) = true := by
        rw [hi, show u.fetchHeld u.cur.s.pc 8 = false from hh]
        rfl
      have hfetch {i : Instr} {v : State} (h : u.fetchS = (i, v)) : runs i v :=
        hruns (by rw [hact, State.found_issueS, if_pos hcond, h])
      refine ⟨fun f v h0 => hfetch (State.fetchS_fault rfl h0), fun w0 v h0 => ⟨fun hn => ?one, fun hn =>
        ⟨fun f x h1 => hfetch (State.fetchS_fault_second rfl h0 hn h1), fun w1 x h1 => ?two⟩⟩⟩
      case one =>
        have hf := hfetch (State.fetchS_one rfl h0 hn)
        exact ⟨fun i hd => instrOr_instr hd ▸ hf, fun hd => instrOr_reject hd ▸ hf⟩
      case two =>
        have hf := hfetch (State.fetchS_two rfl h0 hn h1)
        exact ⟨fun i hd => instrOr_instr hd ▸ hf, fun hd => instrOr_reject hd ▸ hf⟩
  case lstream =>
    intro x
    refine ⟨fun hno => step_idle ha ?_, fun p hp => ⟨fun hh => step_idle ha ?_, fun hi hh => ?_⟩⟩
    · rw [hact]
      cases hp : x.cur.path slot with
      | none => exact State.found_issueL_none rfl hp
      | some p => exact (State.found_issueL rfl hp).trans (if_neg (by rw [hno, Bool.false_and]; exact Bool.false_ne_true))
    · rw [hact]
      exact (State.found_issueL rfl hp).trans (if_neg (by rw [hh, Bool.not_true, Bool.and_false]; exact Bool.false_ne_true))
    · have hcond : (x.issuesL x.cur slot && !x.fetchHeld (x.laddr p.pc) 12) = true := by rw [hi, hh]; rfl
      have hfetch {i : Instr} {v : State} (h : x.fetchL p.pc = (i, v)) : runs i v :=
        hruns (by rw [hact, State.found_issueL (x := x) rfl hp, if_pos hcond, h])
      refine ⟨fun f a h0 => hfetch ?_, fun w0 a h0 => ⟨fun f b h1 => hfetch ?_, fun w1 b h1 => ⟨fun f c h2 => hfetch ?_,
        fun w2 c h2 => ?_⟩⟩⟩
      · simp only [State.fetchL, h0]
      · simp only [State.fetchL, h0, h1]
      · simp only [State.fetchL, h0, h1, h2]
      · have hf : runs (instrOr true (decodeL w0 w1 w2)) c := hfetch (by simp only [State.fetchL, h0, h1, h2])
        exact ⟨fun i hd => instrOr_instr hd ▸ hf, fun hd => instrOr_reject hd ▸ hf⟩

end Sys2Proof.Machine
end

section
/-! What an L-stream instruction leaves: its pops, its hints, and the entry it makes in the scoreboard (R17, R18, R25, R91, R93). -/

namespace Sys2Proof.Machine

/-! ### Pops -/

/-- Pops change the decision queue alone (R12, R135). -/
theorem Group.pops_got {g g' : Group} {n : Nat} {vs : List Word} (h : g.pops n = .got vs g') : g' = { g with dq := g'.dq } := by
  induction n generalizing g vs with
  | zero => cases h; rfl
  | succ n ih =>
    rw [Group.pops] at h
    split at h
    · cases h
    · split at h
      · cases h
      · split at h
        · next hp =>
          cases h
          exact (ih hp).trans rfl
        · next hne => exact absurd h (hne _ _)

/-! ### Life states -/

@[simp] theorem Group.hvIndex_setLife (g : Group) (r q : BitVec 8) (x : Life) : (g.setLife r x).hvIndex q = g.hvIndex q := by
  unfold Group.setLife
  split <;> rfl

/-- A register field stands among the vector registers or is hv i with i below 8 (R308). -/
theorem Group.hvIndex_lt {g : Group} {r : BitVec 8} {i : Nat} (h : g.hvIndex r = some i) : i < 8 ∧ r.toNat = 248 + i := by
  unfold Group.hvIndex at h
  split at h
  · next hc =>
    simp only [Bool.and_eq_true, decide_eq_true_eq] at hc
    obtain rfl := Option.some.inj h
    have := r.isLt
    omega
  · cases h

theorem Group.vlife_setLife_same (g : Group) (r : BitVec 8) (x : Life) : (g.setLife r x).vlife r = x := by
  unfold Group.vlife
  rw [Group.hvIndex_setLife]
  cases h : g.hvIndex r with
  | some i =>
    simp only [Group.setLife, h]
    exact look_put_same _ _ _ _ (Group.hvIndex_lt h).1
  | none =>
    simp only [Group.setLife, h]
    exact look_put_same _ _ _ _ r.isLt

theorem Group.vlife_setLife_ne (g : Group) {r q : BitVec 8} (x : Life) (h : q ≠ r) : (g.setLife r x).vlife q = g.vlife q := by
  have hne : r.toNat ≠ q.toNat := fun e => h (BitVec.eq_of_toNat_eq e.symm)
  unfold Group.vlife
  rw [Group.hvIndex_setLife]
  cases hr : g.hvIndex r with
  | some i =>
    cases hq : g.hvIndex q with
    | some j =>
      simp only [Group.setLife, hr]
      exact look_put_ne _ _ _ _ _ fun e => hne (by have := Group.hvIndex_lt hr; have := Group.hvIndex_lt hq; omega)
    | none => simp only [Group.setLife, hr]
  | none =>
    cases hq : g.hvIndex q with
    | some j => simp only [Group.setLife, hr]
    | none =>
      simp only [Group.setLife, hr]
      exact look_put_ne _ _ _ _ _ hne

/-! ### Changes of life states alone -/

/-- A group that differs from another in life states alone. -/
def Group.LivesFrom (g g' : Group) : Prop := g' = { g with l := { g.l with life := g'.l.life, hvLife := g'.l.hvLife } }

theorem Group.LivesFrom.refl (g : Group) : g.LivesFrom g := rfl

theorem Group.LivesFrom.trans {a b c : Group} (h : a.LivesFrom b) (h' : b.LivesFrom c) : a.LivesFrom c := by
  unfold Group.LivesFrom at *
  rw [h', h]

theorem Group.LivesFrom.foldl {α : Type} {f : Group → α → Group} (h : ∀ (g : Group) x, g.LivesFrom (f g x)) (l : List α) (g : Group) :
    g.LivesFrom (l.foldl f g) := by
  induction l generalizing g with
  | nil => exact .refl g
  | cons x xs ih => exact (h g x).trans (ih _)

theorem Group.livesFrom_setLife (g : Group) (r : BitVec 8) (x : Life) : g.LivesFrom (g.setLife r x) := by
  unfold Group.setLife
  split <;> rfl

theorem Group.LivesFrom.vget {g g' : Group} (h : g.LivesFrom g') (r : BitVec 8) : g'.vget r = g.vget r := by
  unfold Group.LivesFrom at h
  rw [h]
  rfl

@[simp] theorem Group.vget_setLife (g : Group) (r q : BitVec 8) (x : Life) : (g.setLife r x).vget q = g.vget q :=
  (g.livesFrom_setLife r x).vget q

theorem Group.LivesFrom.preds {g g' : Group} (h : g.LivesFrom g') : g'.l.preds = g.l.preds := by
  unfold Group.LivesFrom at h
  rw [h]

theorem Group.LivesFrom.k {g g' : Group} (h : g.LivesFrom g') : g'.l.k = g.l.k := by
  unfold Group.LivesFrom at h
  rw [h]

/-! ### Changes of the registers of the L-stream alone -/

/-- A group that differs from another in vector registers, their lives, predicates and k registers alone. -/
def Group.RegsFrom (g g' : Group) : Prop :=
  g' = { g with l := { g.l with
    vregs := g'.l.vregs, life := g'.l.life, hv := g'.l.hv, hvLife := g'.l.hvLife, preds := g'.l.preds, k := g'.l.k } }

theorem Group.RegsFrom.refl (g : Group) : g.RegsFrom g := rfl

theorem Group.RegsFrom.trans {a b c : Group} (h : a.RegsFrom b) (h' : b.RegsFrom c) : a.RegsFrom c := by
  unfold Group.RegsFrom at *
  rw [h', h]

theorem Group.RegsFrom.foldl {α : Type} {f : Group → α → Group} (h : ∀ (g : Group) x, g.RegsFrom (f g x)) (l : List α) (g : Group) :
    g.RegsFrom (l.foldl f g) := by
  induction l generalizing g with
  | nil => exact .refl g
  | cons x xs ih => exact (h g x).trans (ih _)

theorem Group.LivesFrom.regs {g g' : Group} (h : g.LivesFrom g') : g.RegsFrom g' := by
  unfold Group.LivesFrom at h
  unfold Group.RegsFrom
  rw [h]

theorem Group.regsFrom_vput (g : Group) (r : BitVec 8) (v : VReg) : g.RegsFrom (g.vput r v) := by
  unfold Group.vput
  split <;> rfl

theorem Group.regsFrom_pwrite (g : Group) (p : Nat) (sel v : Mask) : g.RegsFrom (g.pwrite p sel v) := by
  unfold Group.pwrite
  split <;> rfl

theorem Group.regsFrom_kput (g : Group) (n : Nat) (v : Word) : g.RegsFrom (g.kput n v) := rfl

/-! ### Hints -/

/-- One pass of the hints: the registers read with the hint take its life (R18). -/
def Group.hintPass (g : Group) (hs : List (BitVec 8 × Hint)) (k : Hint) : Group :=
  hs.foldl (fun g x => if x.2 == k then g.setLife x.1 (hintLife k) else g) g

theorem Group.applyHints_eq (g : Group) (hs : List (BitVec 8 × Hint)) :
    g.applyHints hs = ((g.hintPass hs .keep).hintPass hs .rest).hintPass hs .last := rfl

theorem Group.vlife_hintPass (g : Group) (hs : List (BitVec 8 × Hint)) (k : Hint) (r : BitVec 8) :
    (g.hintPass hs k).vlife r = if (r, k) ∈ hs then hintLife k else g.vlife r := by
  induction hs generalizing g with
  | nil => rfl
  | cons x xs ih =>
    have hstep : (g.hintPass (x :: xs) k) = (if x.2 == k then g.setLife x.1 (hintLife k) else g).hintPass xs k := rfl
    rw [hstep, ih]
    by_cases hmem : (r, k) ∈ xs
    · simp [hmem]
    · by_cases hx : (r, k) = x
      · subst hx
        simp [Group.vlife_setLife_same]
      · have hne : ¬ ((x.2 == k) = true ∧ r = x.1) := fun ⟨hk, hr⟩ => hx (Prod.ext hr (beq_iff_eq.mp hk).symm)
        rw [if_neg hmem, if_neg fun h => (List.mem_cons.mp h).elim hx hmem]
        split
        · next hk => exact Group.vlife_setLife_ne _ _ fun hr => hne ⟨hk, hr⟩
        · rfl

theorem Group.livesFrom_hintPass (g : Group) (hs : List (BitVec 8 × Hint)) (k : Hint) : g.LivesFrom (g.hintPass hs k) :=
  .foldl (fun g x => by
    split
    · exact g.livesFrom_setLife _ _
    · exact .refl g) hs g

/-- Hints change life states alone (R18). -/
theorem Group.livesFrom_applyHints (g : Group) (hs : List (BitVec 8 × Hint)) : g.LivesFrom (g.applyHints hs) :=
  ((g.livesFrom_hintPass hs .keep).trans (Group.livesFrom_hintPass _ hs .rest)).trans (Group.livesFrom_hintPass _ hs .last)

section
variable {s : State} {u : LUse} {p : Path} {vs : List Word} {g : Group} (h : LReady s u p vs g)
include h

/-- LAST over REST over KEEP (R18). -/
theorem LReady.vlife_hinted (r : BitVec 8) : (g.applyHints u.reads).vlife r = lifeAfter s u.reads r := by
  rw [Group.applyHints_eq, Group.vlife_hintPass, Group.vlife_hintPass, Group.vlife_hintPass, Group.pops_got h.values]
  rfl

theorem LReady.vget_hinted (r : BitVec 8) : (g.applyHints u.reads).vget r = s.cur.vget r := by
  rw [(g.livesFrom_applyHints _).vget, Group.pops_got h.values]
  rfl

theorem LReady.preds_hinted : (g.applyHints u.reads).l.preds = s.cur.l.preds := by
  rw [(g.livesFrom_applyHints _).preds, Group.pops_got h.values]

theorem LReady.k_hinted : (g.applyHints u.reads).l.k = s.cur.l.k := by
  rw [(g.livesFrom_applyHints _).k, Group.pops_got h.values]

end

/-! ### Issue -/

/-- A path moves on to its next instruction. -/
theorem State.lNext_eq {s : State} {p : Path} (h : s.cur.path s.ps1 = some p) :
    s.lNext = { s with cur := { s.cur with l := s.cur.l.setPath s.ps1 (some { p with pc := p.pc + 3 }) } } := by
  unfold State.lNext State.mapCur
  dsimp only
  rw [h]

/-- An instruction that is issued enters the scoreboard, and its path moves on (R25, R93). -/
theorem State.lDone_eq {s : State} {p : Path} (h : s.cur.path s.ps1 = some p) (f : Byte) (u : LUse) :
    s.lDone f u = { s with cur := { s.cur with
      l := s.cur.l.setPath s.ps1 (some { p with pc := p.pc + 3 })
      lpend := s.cur.lpend ++ [⟨s.cur.seq, if s.cur.handler.isSome then 0 else f, u.writes, u.pwrite, u.kwrite⟩]
      seq := s.cur.seq + 1 } } :=
  State.lNext_eq (s := s.mapCur fun g => { g with
    lpend := g.lpend ++ [⟨g.seq, if g.handler.isSome then 0 else f, u.writes, u.pwrite, u.kwrite⟩]
    seq := g.seq + 1 }) h

/-- A path slot that takes a path leaves every other part of the L-stream's state. -/
theorem LState.setPath_eq (l : LState) (b : Bool) (p : Option Path) :
    l.setPath b p = { l with ps0 := (l.setPath b p).ps0, ps1 := (l.setPath b p).ps1 } := by
  cases b <;> rfl

theorem Group.path_setPath_same (g : Group) (b : Bool) (p : Option Path) :
    ({ g with l := g.l.setPath b p } : Group).path b = p := by
  cases b <;> rfl

theorem Group.path_setPath_other (g : Group) (b : Bool) (p : Option Path) :
    ({ g with l := g.l.setPath b p } : Group).path (!b) = g.path (!b) := by
  cases b <;> rfl

/-- A ready instruction whose effects are confined to the registers of its stream issues (R25, R91, R93). -/
theorem LIssued.of_lDone {s : State} {u : LUse} {p : Path} {vs : List Word} {g g' : Group} (h : LReady s u p vs g)
    (hg : (g.applyHints u.reads).RegsFrom g') (f : Byte) : LIssued s (({ s with cur := g' } : State).lDone f u) u p g f := by
  have hfrom : ({ s.cur with dq := g.dq } : Group).RegsFrom g' := Group.pops_got h.values ▸ (g.livesFrom_applyHints u.reads).regs.trans hg
  have hp : g'.path s.ps1 = some p := by
    rw [hfrom]
    exact h.path
  rw [State.lDone_eq (s := { s with cur := g' }) hp]
  refine ⟨Group.path_setPath_same g' _ _, (Group.path_setPath_other g' _ _).trans (by rw [hfrom]; rfl), ?_, ?_, ?_, ?_, ?_⟩
  · dsimp only
    rw [hfrom]
  · dsimp only
    rw [hfrom]
  · dsimp only
    rw [hfrom]
  · dsimp only
    rw [LState.setPath_eq, hfrom]
  · dsimp only
    rw [LState.setPath_eq, hfrom]

/-! ### What an instruction that is issued keeps of the registers -/

section
variable (s : State) (f : Byte) (u : LUse) (r : BitVec 8)

theorem State.vget_lNext : s.lNext.cur.vget r = s.cur.vget r := by
  unfold State.lNext State.mapCur
  dsimp only
  split
  · rfl
  · cases s.ps1 <;> rfl

theorem State.vlife_lNext : s.lNext.cur.vlife r = s.cur.vlife r := by
  unfold State.lNext State.mapCur
  dsimp only
  split
  · rfl
  · cases s.ps1 <;> rfl

theorem State.preds_lNext : s.lNext.cur.l.preds = s.cur.l.preds := by
  unfold State.lNext State.mapCur
  dsimp only
  split
  · rfl
  · cases s.ps1 <;> rfl

theorem State.k_lNext : s.lNext.cur.l.k = s.cur.l.k := by
  unfold State.lNext State.mapCur
  dsimp only
  split
  · rfl
  · cases s.ps1 <;> rfl

@[simp] theorem State.vget_lDone : (s.lDone f u).cur.vget r = s.cur.vget r := State.vget_lNext _ r
@[simp] theorem State.vlife_lDone : (s.lDone f u).cur.vlife r = s.cur.vlife r := State.vlife_lNext _ r
@[simp] theorem State.preds_lDone : (s.lDone f u).cur.l.preds = s.cur.l.preds := State.preds_lNext _
@[simp] theorem State.k_lDone : (s.lDone f u).cur.l.k = s.cur.l.k := State.k_lNext _

end

end Sys2Proof.Machine
end

section
/-! Masks, sources and selected lanes (R10, R25, R59, R61, R91). -/

namespace Sys2Proof.Machine

/-! ### Masks of lanes -/

theorem mem_lanesOf {m : Mask} {i : Nat} : i ∈ lanesOf m ↔ i < 128 ∧ m.getLsbD i = true := by
  simp [lanesOf]

theorem oneLane_getLsbD (i j : Nat) : (oneLane j).getLsbD i = true ↔ i < 128 ∧ i = j := by
  unfold oneLane
  rw [BitVec.getLsbD_shiftLeft, BitVec.getLsbD_one]
  simp
  omega

theorem foldl_oneLane_getLsbD (l : List Nat) (m : Mask) (i : Nat) :
    (l.foldl (fun m j => m ||| oneLane j) m).getLsbD i = true ↔ m.getLsbD i = true ∨ i < 128 ∧ i ∈ l := by
  induction l generalizing m with
  | nil => simp
  | cons x xs ih =>
    rw [List.foldl_cons, ih, BitVec.getLsbD_or, Bool.or_eq_true, oneLane_getLsbD, List.mem_cons]
    tauto

theorem maskOf_getLsbD (l : List Nat) (i : Nat) : (maskOf l).getLsbD i = true ↔ i < 128 ∧ i ∈ l := by
  unfold maskOf
  rw [foldl_oneLane_getLsbD]
  simp

/-- Two masks that agree in every lane are equal. -/
theorem mask_ext {m n : Mask} (h : ∀ i, i < 128 → (m.getLsbD i = true ↔ n.getLsbD i = true)) : m = n :=
  BitVec.eq_of_getLsbD_eq fun i hi => Bool.eq_iff_iff.mpr (h i hi)

/-! ### The selected lanes -/

/-- A predicate as a path reads it, lane by lane (R10). -/
theorem Group.pget_getLsbD (g : Group) (active : Mask) (p : BitVec 3) (i : Nat) :
    (g.pget active p.toNat).getLsbD i = if p = 0 then active.getLsbD i else (look g.l.preds p.toNat 0).getLsbD i := by
  unfold Group.pget
  by_cases hp : p = 0
  · simp [hp]
  · have : ¬ (p.toNat == 0) = true := fun h => hp (BitVec.eq_of_toNat_eq (by simpa using h))
    rw [if_neg this, if_neg hp]

/-- The lanes an instruction acts on are its selected ones (R61, R91). -/
theorem selected_getLsbD (s : State) (p : Path) (gd : Guard) {i : Nat} (hi : i < 128) :
    (s.cur.selected p.mask gd).getLsbD i = true ↔ actsOn s p gd i := by
  unfold Group.selected actsOn
  simp only [BitVec.getLsbD_and, Bool.and_eq_true]
  refine and_congr_right fun hm => ?_
  have hp : (s.cur.pget p.mask gd.p.toNat).getLsbD i =
      if gd.p = 0 then true else (look s.cur.l.preds gd.p.toNat 0).getLsbD i := by
    rw [Group.pget_getLsbD, hm]
  cases gd.neg
  · rw [← hp]
    simp
  · rw [← hp]
    simp [hi]

/-! ### Sources -/

/-- Source c of a lane (R59). -/
theorem look_cvec (s : State) (o : LOp) (vs : List Word) {i : Nat} (hi : i < 128) :
    look (s.cur.cvec o vs) i 0 = srcC s o vs i := by
  unfold Group.cvec srcC
  cases o.c with
  | vec r _ => rfl
  | imm => simp [look, hi]
  | dq => simp [look, hi]
  | kreg n => simp [look, hi]

theorem getElem_eq_look {α : Type} {n : Nat} (v : Vector α n) (i : Fin n) (d : α) : v[i] = look v i.val d := by
  simp [look, i.isLt]

/-! ### Flags over the selected lanes -/

/-- A flag is set in an OR where some part sets it. -/
theorem foldl_or_getLsbD {α : Type} (f : α → Byte) (l : List α) (x : Byte) (b : Nat) :
    (l.foldl (fun x r => x ||| f r) x).getLsbD b = true ↔ x.getLsbD b = true ∨ ∃ r ∈ l, (f r).getLsbD b = true := by
  induction l generalizing x with
  | nil => simp
  | cons r rs ih =>
    rw [List.foldl_cons, ih, BitVec.getLsbD_or, Bool.or_eq_true, List.exists_mem_cons_iff, or_assoc]

theorem foldl_or_zero_getLsbD {α : Type} (f : α → Byte) (l : List α) (b : Nat) :
    (l.foldl (fun x r => x ||| f r) 0).getLsbD b = true ↔ ∃ r ∈ l, (f r).getLsbD b = true := by
  rw [foldl_or_getLsbD]
  simp

/-- What a computation in the selected lanes gives in each of them, and its flags (R25). -/
theorem lanewise_lane (sel : Mask) (f : Fin 128 → Word32 × Byte) (i : Fin 128) (h : sel.getLsbD i.val = true) :
    look (lanewise sel f).1 i.val 0 = (f i).1 := by
  simp [lanewise, look, h]

theorem lanewise_flags (sel : Mask) (f : Fin 128 → Word32 × Byte) (b : Nat) :
    (lanewise sel f).2.getLsbD b = true ↔ ∃ i : Fin 128, sel.getLsbD i.val = true ∧ (f i).2.getLsbD b = true := by
  unfold lanewise
  dsimp only
  rw [foldl_or_zero_getLsbD]
  simp only [Vector.mem_toList_iff, Vector.mem_ofFn]
  constructor
  · rintro ⟨_, ⟨i, rfl⟩, hb⟩
    by_cases hi : sel.getLsbD i.val = true
    · exact ⟨i, hi, by rwa [if_pos hi] at hb⟩
    · rw [if_neg hi] at hb
      simp at hb
  · rintro ⟨i, hi, hb⟩
    exact ⟨_, ⟨i, rfl⟩, by rwa [if_pos hi]⟩

end Sys2Proof.Machine
end

section
/-! Comparisons and the other writers of predicates (R109, R110). -/

namespace Sys2Proof.Machine

/-! ### The write of a predicate -/

theorem Group.vget_pwrite (g : Group) (n : Nat) (sel v : Mask) (r : BitVec 8) : (g.pwrite n sel v).vget r = g.vget r := by
  unfold Group.pwrite
  split <;> rfl

theorem Group.vlife_pwrite (g : Group) (n : Nat) (sel v : Mask) (r : BitVec 8) : (g.pwrite n sel v).vlife r = g.vlife r := by
  unfold Group.pwrite
  split <;> rfl

theorem Group.k_pwrite (g : Group) (n : Nat) (sel v : Mask) : (g.pwrite n sel v).l.k = g.l.k := by
  unfold Group.pwrite
  split <;> rfl

/-- The selected bits of the predicate take their value (R10, R109). -/
theorem Group.pwrite_written (g : Group) {n i : Nat} {sel : Mask} (v : Mask) (hn : n < 8) (h0 : n ≠ 0) (hi : sel.getLsbD i = true) :
    (look (g.pwrite n sel v).l.preds n 0).getLsbD i = v.getLsbD i := by
  simp only [Group.pwrite, beq_false_of_ne h0, Bool.false_eq_true, if_false, look_put_same _ _ _ _ hn]
  simp [hi]

/-- Every other bit stays (R10, R109). -/
theorem Group.pwrite_kept (g : Group) {n d i : Nat} {sel : Mask} (v : Mask) (hn : n < 8) (hi128 : i < 128)
    (h : ¬ (d = n ∧ n ≠ 0 ∧ sel.getLsbD i = true)) :
    (look (g.pwrite d sel v).l.preds n 0).getLsbD i = (look g.l.preds n 0).getLsbD i := by
  unfold Group.pwrite
  split
  · rfl
  · next h0 =>
    by_cases hd : d = n
    · subst hd
      have hsel : sel.getLsbD i = false := by
        by_contra hs
        exact h ⟨rfl, by simpa using h0, by simpa using hs⟩
      dsimp only
      rw [look_put_same _ _ _ _ hn]
      simp only [BitVec.getLsbD_or, BitVec.getLsbD_and, BitVec.getLsbD_not, hsel, hi128]
      simp
    · dsimp only
      rw [look_put_ne _ _ _ _ _ hd]

/-- What an instruction that writes a predicate finds once it issues. -/
def predIn (s : State) (o : LOp) (u : LUse) (p : Path) (vs : List Word) (g : Group) : LIn :=
  ⟨{ s with cur := g.applyHints u.reads }, p.mask, s.cur.selected p.mask o.g, vs⟩

/-- An instruction that writes what `f` finds into the selected bits of its predicate (R109). -/
theorem PredForm.of_lpred {s : State} {i : Instr} {o : LOp} {u : LUse} {f : LIn → Mask × Byte}
    {R : Path → List Word → Nat → Bool → Prop} {F : Path → List Word → Byte → Prop} (hexec : exec i s = .next (s.lpred o u f))
    (hl : u.late = false) (hf : ∀ p vs g, F p vs (f (predIn s o u p vs g)).2)
    (hr : ∀ p vs g j, j < 128 → actsOn s p o.g j → R p vs j ((f (predIn s o u p vs g)).1.getLsbD j)) :
    PredForm s i o u R F := by
  intro p vs g h
  refine ⟨_, (f (predIn s o u p vs g)).2, hexec.trans (congrArg _ (State.lIssue_ready h hl)),
    LIssued.of_lDone h (Group.regsFrom_pwrite _ _ _ _) _, hf p vs g, fun n hn j hj => ?_, fun r => ⟨?_, ?_⟩, ?_⟩
  · rw [State.preds_lDone]
    split
    · next hw =>
      obtain ⟨hd, h0, ha⟩ := hw
      subst hd
      have hsel := (selected_getLsbD s p o.g hj).mpr ha
      have hw := Group.pwrite_written (g.applyHints u.reads) (f (predIn s o u p vs g)).1 hn h0 hsel
      have hj := hr p vs g j hj ha
      rw [← hw] at hj
      exact hj
    · next hw =>
      refine (Group.pwrite_kept _ _ hn hj fun hk => hw ⟨hk.1, hk.2.1, (selected_getLsbD s p o.g hj).mp hk.2.2⟩).trans ?_
      exact congrArg (fun v => (look v n 0).getLsbD j) h.preds_hinted
  · rw [State.vget_lDone]
    exact (Group.vget_pwrite ..).trans (h.vget_hinted r)
  · rw [State.vlife_lDone]
    exact (Group.vlife_pwrite ..).trans (h.vlife_hinted r)
  · rw [State.k_lDone]
    exact (Group.k_pwrite ..).trans h.k_hinted

/-! ### Tests of the selected lanes -/

/-- The lanes in which a test holds (R109). -/
theorem laneTest_lane (sel : Mask) (f : Fin 128 → Bool × Byte) (i : Fin 128) (h : sel.getLsbD i.val = true) :
    (laneTest sel f).1.getLsbD i.val = (f i).1 := by
  rw [Bool.eq_iff_iff]
  unfold laneTest
  dsimp only
  rw [maskOf_getLsbD, List.mem_filter, mem_lanesOf, lanewise_lane sel _ i h]
  cases (f i).1 <;> simp [i.isLt, h]

theorem laneTest_flags (sel : Mask) (f : Fin 128 → Bool × Byte) (b : Nat) :
    (laneTest sel f).2.getLsbD b = true ↔ ∃ i : Fin 128, sel.getLsbD i.val = true ∧ (f i).2.getLsbD b = true := by
  unfold laneTest
  dsimp only
  rw [lanewise_flags]

/-- No test sets a flag: none is set. -/
theorem laneTest_quiet (sel : Mask) (f : Fin 128 → Bool) : (laneTest sel fun i => (f i, 0)).2 = 0 := by
  refine BitVec.eq_of_getLsbD_eq fun b _ => Bool.eq_iff_iff.mpr ?_
  rw [laneTest_flags]
  simp

/-! ### Elements of a lane -/

/-- An element as a number (R11). -/
theorem toNat_elemOf (t : ElemType) (e : Nat) (x : Word32) : (elemOf t e x).toNat = elemAt t.width e x := by
  simp [elemOf, elemAt]

/-- The integer that an element stands for (R28). -/
theorem asInt_elem (o : LOp) (x : BitVec o.ty.width) : asInt o x.toNat = if o.ty.signed then x.toInt else (x.toNat : Int) := by
  have hw : 0 < o.ty.width := by cases o.ty <;> decide
  have hpow : 2 ^ o.ty.width = 2 * 2 ^ (o.ty.width - 1) := by rw [← Nat.pow_succ']; congr 1; omega
  unfold asInt intOf
  cases o.ty.signed with
  | false => simp
  | true =>
    rw [BitVec.toInt_eq_toNat_cond]
    simp only [Bool.true_and, decide_eq_true_eq, if_true]
    by_cases hx : 2 ^ (o.ty.width - 1) ≤ x.toNat
    · rw [if_pos hx, if_neg (by omega)]
      push_cast
      rfl
    · rw [if_neg hx, if_pos (by omega)]

/-- Elements that stand for one integer are one element (R28). -/
theorem asInt_inj (o : LOp) {x y : BitVec o.ty.width} : asInt o x.toNat = asInt o y.toNat ↔ x = y := by
  rw [asInt_elem, asInt_elem]
  split
  · exact BitVec.toInt_inj
  · rw [Int.ofNat_inj, BitVec.toNat_inj]

/-! ### Conditions -/

/-- The relation of two integers that a condition names (R109). -/
def relationOf (k : Nat) (a c : Int) : Bool :=
  if k = 0 then a = c else if k = 1 then a ≠ c else if k = 2 then a < c else if k = 3 then a ≤ c
  else if k = 4 then c < a else c ≤ a

/-- A condition on an order, from its two relations (R109). -/
theorem condHolds_int (k : Nat) (a c : Int) (eq : Bool) (he : eq = true ↔ a = c) :
    condHolds k (decide (a < c)) eq = relationOf k a c := by
  have heq : eq = decide (a = c) := Bool.eq_iff_iff.mpr (he.trans decide_eq_true_iff.symm)
  rw [heq, Bool.eq_iff_iff]
  match k with
  | 0 => simp [condHolds, relationOf]
  | 1 => simp [condHolds, relationOf]
  | 2 => simp [condHolds, relationOf]
  | 3 => simp [condHolds, relationOf, Int.le_iff_lt_or_eq]
  | 4 => simp [condHolds, relationOf]; omega
  | k + 5 => simp [condHolds, relationOf]

theorem modField_eq (o : LOp) (lo w : Nat) : modField o lo w = (o.mods.extractLsb' lo w).toNat := by
  simp [modField]

theorem predUse_late (o : LOp) (reads : List (BitVec 8 × Hint)) (preads : List (BitVec 3)) (c : Bool) :
    (predUse o reads preads c).late = false := by
  unfold predUse
  cases c
  · rfl
  · cases o.c <;> rfl

/-- The results of the elements combined (R109). -/
theorem combine_map (any : Bool) (n : Nat) (f : Nat → Bool) : combine any ((List.range n).map f) = true ↔
    if any = true then ∃ e, e < n ∧ f e = true else ∀ e, e < n → f e = true := by
  cases any <;> simp [combine]

/-- A comparison of elements, from what it says of two of them (R109). -/
theorem PredForm.of_lcompare {s : State} {i : Instr} {o : LOp} {f : Nat → Nat → Bool × Byte}
    {h : BitVec o.ty.width → BitVec o.ty.width → Bool} {fl : BitVec o.ty.width → BitVec o.ty.width → Byte}
    (hexec : exec i s = .next (s.lcompare o f)) (hf : ∀ a c : BitVec o.ty.width, f a.toNat c.toNat = (h a c, fl a c)) :
    PredForm s i o (predUse o [(o.a.r, o.a.hint)] [] true)
      (fun _ vs i b => b = true ↔
        if o.mods.getLsbD 3 then
          ∃ e, e < o.ty.count ∧ h (elemOf o.ty e (srcA s o i)) (elemOf o.ty e (srcC s o vs i)) = true
        else ∀ e, e < o.ty.count → h (elemOf o.ty e (srcA s o i)) (elemOf o.ty e (srcC s o vs i)) = true)
      (flagsOver s o fun vs i x =>
        ∃ e, e < o.ty.count ∧ x = fl (elemOf o.ty e (srcA s o i)) (elemOf o.ty e (srcC s o vs i))) := by
  have helem (vs : List Word) (j : Fin 128) (e : Nat) :
      f (elemAt o.ty.width e (s.cur.vget o.a.r)[j]) (elemAt o.ty.width e (s.cur.cvec o vs)[j]) =
        (h (elemOf o.ty e (srcA s o j)) (elemOf o.ty e (srcC s o vs j)), fl (elemOf o.ty e (srcA s o j)) (elemOf o.ty e (srcC s o vs j))) := by
    rw [getElem_eq_look _ j 0, getElem_eq_look _ j 0, look_cvec s o vs j.isLt, ← toNat_elemOf, ← toNat_elemOf, hf]
    rfl
  refine PredForm.of_lpred hexec (predUse_late ..) (fun p vs g b hb => ?_) fun p vs g j hj ha => ?_
  · simp only [predIn]
    rw [laneTest_flags]
    simp only [helem, foldl_or_zero_getLsbD, List.mem_map, List.mem_range]
    constructor
    · rintro ⟨j, hj, _, ⟨e, he, rfl⟩, hx⟩
      exact ⟨j, _, j.isLt, (selected_getLsbD s p o.g j.isLt).mp hj, ⟨e, he, rfl⟩, hx⟩
    · rintro ⟨j, _, hj, ha, ⟨e, he, rfl⟩, hx⟩
      exact ⟨⟨j, hj⟩, (selected_getLsbD s p o.g hj).mpr ha, _, ⟨e, he, rfl⟩, hx⟩
  · simp only [predIn]
    rw [laneTest_lane _ _ ⟨j, hj⟩ ((selected_getLsbD s p o.g hj).mpr ha)]
    simp only [helem]
    rw [List.map_map, combine_map]
    rfl

/-- A comparison of floating-point elements (R109). -/
theorem fcompare_eq (f : FFmt) (k a c : Nat) :
    let nan (x : Nat) : Bool := (f.decode x).isNan
    let sig (x : Nat) : Bool := (f.decode x).isSig
    fcompare f k a c =
      (if k = 6 then nan a || nan c else if k = 7 then !(nan a || nan c)
        else if nan a || nan c then k == 1 else relationOf k (f.valueKey a) (f.valueKey c),
      if (if 2 ≤ k ∧ k ≤ 5 then nan a || nan c else sig a || sig c) then flagNV else 0) := by
  intro nan sig
  have hc : condHolds k (decide (f.valueKey a < f.valueKey c)) (f.valueKey a == f.valueKey c) =
      relationOf k (f.valueKey a) (f.valueKey c) := condHolds_int _ _ _ _ beq_iff_eq
  have hnv : flagIf (if 2 ≤ k && k ≤ 5 then nan a || nan c else sig a || sig c) flagNV =
      if (if 2 ≤ k ∧ k ≤ 5 then nan a || nan c else sig a || sig c) then flagNV else 0 := by
    simp only [flagIf, Bool.and_eq_true, decide_eq_true_eq]
  unfold fcompare
  dsimp only
  rw [hc, hnv]
  by_cases h6 : k = 6
  · simp only [h6, beq_self_eq_true, if_true]
    rfl
  by_cases h7 : k = 7
  · simp only [h7, beq_self_eq_true, if_true]
    rfl
  simp only [beq_false_of_ne h6, beq_false_of_ne h7, h6, h7, Bool.false_eq_true, if_false]
  by_cases hn : (nan a || nan c) = true
  · rw [if_pos hn, if_pos hn]
  · rw [if_neg hn, if_neg hn]

/-- The bit of a predicate operand in a lane (R10, R110). -/
theorem pget_pfield (s : State) (p : Path) (x : VSrc) (i : Nat) : (s.cur.pget p.mask (pfield x).toNat).getLsbD i =
    if x.r.setWidth 3 = 0#3 then p.mask.getLsbD i else (look s.cur.l.preds (x.r.setWidth 3 : BitVec 3).toNat 0).getLsbD i :=
  Group.pget_getLsbD ..

/-- PLOGIC lane by lane (R110). -/
theorem plogic_getLsbD (k : Nat) (a b : Mask) {i : Nat} (hi : i < 128) :
    let x := a.getLsbD i
    let y := b.getLsbD i
    (plogic k a b).getLsbD i = if k = 0 then x && y else if k = 1 then x || y else if k = 2 then x != y else if k = 3 then x && !y
      else if k = 4 then !x else x := by
  intro x y
  unfold plogic
  split
  · exact BitVec.getLsbD_and
  · exact BitVec.getLsbD_or
  · exact (BitVec.getLsbD_xor).trans rfl
  · rw [BitVec.getLsbD_and, BitVec.getLsbD_not, decide_eq_true hi]
    rfl
  · rw [BitVec.getLsbD_not, decide_eq_true hi]
    rfl
  · next h0 h1 h2 h3 h4 => rw [if_neg h0, if_neg h1, if_neg h2, if_neg h3, if_neg h4]

/-- What PSET writes in a lane (R110). -/
def psetBit (mode : Nat) (c : Word32) (i : Nat) : Bool :=
  match mode with
  | 0 => c.getLsbD 0
  | 1 => decide (i < c.toNat)
  | _ => c != 0

theorem psetBit_eq (mode : BitVec 2) (c : Word32) (i : Nat) : psetBit mode.toNat c i =
    if mode = 0 then c.getLsbD 0 else if mode = 1 then decide (i < c.toNat) else c != 0 := by
  have h0 : mode = 0 ↔ mode.toNat = 0 := BitVec.toNat_inj.symm
  have h1 : mode = 1 ↔ mode.toNat = 1 := BitVec.toNat_inj.symm
  simp only [h0, h1]
  generalize mode.toNat = k
  unfold psetBit
  split
  · rfl
  · rfl
  · next h h' => rw [if_neg h, if_neg h']

/-- The lowest lane of a mask (R110). -/
theorem lowest_getLsbD (m : Mask) {i : Nat} (hi : i < 128) :
    (lowest m).getLsbD i = true ↔ m.getLsbD i = true ∧ ∀ j, j < i → m.getLsbD j = false := by
  unfold lowest
  rw [BitVec.getLsbD_and, BitVec.getLsbD_neg]
  simp only [hi, decide_true, Bool.true_and, Bool.and_eq_true]
  refine and_congr_right fun hm => ?_
  simp [hm]

/-- Settles O31: each row comes down to the bits that it writes in the selected lanes. -/
theorem predicateFormsWriteTheirBits : Obligations.PredicateFormsWriteTheirBits := by
  unfold Obligations.PredicateFormsWriteTheirBits
  intro s o w fm k num nan sig key relation fholds invalid compares bit mode
  have hk : k = modField o 0 3 := (modField_eq o 0 3).symm
  refine ⟨?vcmp, ?vfcmp, ?plogic, ?pset, ?pfirst⟩
  case vcmp =>
    refine PredForm.of_lcompare (s := s) (i := .vcmp o) (h := fun a c => relation k (num a) (num c)) (fl := fun _ _ => 0)
      (f := fun a c => (condHolds (modField o 0 3) (asInt o a < asInt o c) (a == c), 0)) rfl fun a c => ?_
    rw [condHolds_int _ _ _ _ (beq_iff_eq.trans (BitVec.toNat_inj.trans (asInt_inj o).symm)), asInt_elem, asInt_elem, ← hk]
    rfl
  case vfcmp =>
    refine PredForm.of_lcompare (s := s) (i := .vfcmp o) (f := fun a c => fcompare fm (modField o 0 3) a c) rfl fun a c => ?_
    rw [fcompare_eq, ← hk]
    rfl
  case plogic =>
    refine PredForm.of_lpred (f := fun x =>
      (plogic (modField o 0 3) (s.cur.pget x.active (pfield o.a).toNat) (s.cur.pget x.active (pfield o.b).toNat), 0)) rfl
      (predUse_late ..) (fun _ _ _ => rfl) fun p vs g j hj ha => ?_
    have hx : bit p o.a.r j = (s.cur.pget p.mask (pfield o.a).toNat).getLsbD j := (pget_pfield s p o.a j).symm
    have hy : bit p o.b.r j = (s.cur.pget p.mask (pfield o.b).toNat).getLsbD j := (pget_pfield s p o.b j).symm
    dsimp only [predIn]
    rw [hx, hy, hk]
    exact plogic_getLsbD _ _ _ hj
  case pset =>
    refine PredForm.of_lpred (f := fun x =>
      laneTest x.sel fun i => (psetBit (modField o 0 2) (s.cur.cvec o x.popped)[i] i.val, 0)) rfl (predUse_late ..)
      (fun _ _ _ => laneTest_quiet _ _) fun p vs g j hj ha => ?_
    have hc : (s.cur.cvec o vs)[(⟨j, hj⟩ : Fin 128)] = srcC s o vs j := (getElem_eq_look _ _ 0).trans (look_cvec s o vs hj)
    refine (laneTest_lane _ _ ⟨j, hj⟩ ((selected_getLsbD s p o.g hj).mpr ha)).trans ?_
    rw [modField_eq]
    exact (congrArg (fun c => psetBit mode.toNat c j) hc).trans (psetBit_eq mode _ j)
  case pfirst =>
    refine PredForm.of_lpred (f := fun x => (lowest (x.sel &&& s.cur.pget x.active (pfield o.a).toNat), 0)) rfl (predUse_late ..)
      (fun _ _ _ => rfl) fun p vs g j hj ha => ?_
    have hb (i : Nat) : bit p o.a.r i = (s.cur.pget p.mask (pfield o.a).toNat).getLsbD i := (pget_pfield s p o.a i).symm
    have hs (i : Nat) (hi : i < 128) := selected_getLsbD s p o.g hi
    dsimp only [predIn]
    rw [lowest_getLsbD _ hj, BitVec.getLsbD_and, (hs j hj).mpr ha, Bool.true_and]
    simp only [hb]
    refine and_congr_right fun _ => forall_congr' fun i => imp_congr_right fun hi => ?_
    rw [BitVec.getLsbD_and, Bool.and_eq_false_imp, hs i (hi.trans hj)]

end Sys2Proof.Machine
end

section
/-! The k registers, the life of registers, votes and returns (R21, R114 to R116, R136, R137). -/

namespace Sys2Proof.Machine

/-! ### k registers -/

theorem Group.vget_kput (g : Group) (n : Nat) (v : Word) (r : BitVec 8) : (g.kput n v).vget r = g.vget r := rfl
theorem Group.vlife_kput (g : Group) (n : Nat) (v : Word) (r : BitVec 8) : (g.kput n v).vlife r = g.vlife r := rfl

/-- An instruction that writes a k register alone (R114, R115). -/
theorem writesK_of_lIssue {s : State} {i : Instr} {gd : Guard} {u : LUse} {k : BitVec 4} {v : List Word → Word}
    (hexec : exec i s = .next (s.lIssue gd u fun x => (x.st.mapCur fun g => g.kput k.toNat (v x.popped)).lDone 0 u))
    (hl : u.late = false) {p : Path} {vs : List Word} {g : Group} (h : LReady s u p vs g) :
    ∃ t, exec i s = .next t ∧ LIssued s t u p g 0 ∧ look t.cur.l.k k.toNat 0 = v vs ∧
      (∀ n, n ≠ k.toNat → look t.cur.l.k n 0 = look s.cur.l.k n 0) ∧ t.cur.l.preds = s.cur.l.preds ∧
      ∀ r, t.cur.vget r = s.cur.vget r ∧ t.cur.vlife r = lifeAfter s u.reads r := by
  refine ⟨_, hexec.trans (congrArg _ (State.lIssue_ready h hl)), LIssued.of_lDone h (Group.regsFrom_kput _ _ _) _, ?_,
    fun n hn => ?_, ?_, fun r => ⟨?_, ?_⟩⟩
  · rw [State.k_lDone]
    exact look_put_same _ _ _ _ k.isLt
  · rw [State.k_lDone]
    exact (look_put_ne _ _ _ _ _ hn.symm).trans (congrArg (fun k => look k n 0) h.k_hinted)
  · rw [State.preds_lDone]
    exact h.preds_hinted
  · rw [State.vget_lDone]
    exact h.vget_hinted r
  · rw [State.vlife_lDone]
    exact h.vlife_hinted r

theorem LUse.withC_late (u : LUse) (c : CSrc) : (u.withC c).late = u.late := by cases c <;> rfl

/-! ### Registers and blocks -/

theorem Group.hvIndex_vput (g : Group) (r q : BitVec 8) (v : VReg) : (g.vput r v).hvIndex q = g.hvIndex q := by
  unfold Group.vput
  split <;> rfl

theorem Group.vlife_vput (g : Group) (r q : BitVec 8) (v : VReg) : (g.vput r v).vlife q = g.vlife q := by
  unfold Group.vlife
  rw [Group.hvIndex_vput]
  unfold Group.vput
  cases g.hvIndex r <;> rfl

theorem Group.vget_vput_same (g : Group) (r : BitVec 8) (v : VReg) : (g.vput r v).vget r = v := by
  unfold Group.vget
  rw [Group.hvIndex_vput]
  cases h : g.hvIndex r with
  | some i =>
    simp only [Group.vput, h]
    exact look_put_same _ _ _ _ (Group.hvIndex_lt h).1
  | none =>
    simp only [Group.vput, h]
    exact look_put_same _ _ _ _ r.isLt

theorem Group.vget_vput_ne (g : Group) {r q : BitVec 8} (v : VReg) (h : q ≠ r) : (g.vput r v).vget q = g.vget q := by
  have hne : r.toNat ≠ q.toNat := fun e => h (BitVec.eq_of_toNat_eq e.symm)
  unfold Group.vget
  rw [Group.hvIndex_vput]
  cases hr : g.hvIndex r with
  | some i =>
    cases hq : g.hvIndex q with
    | some j =>
      simp only [Group.vput, hr]
      exact look_put_ne _ _ _ _ _ fun e => hne (by have := Group.hvIndex_lt hr; have := Group.hvIndex_lt hq; omega)
    | none => simp only [Group.vput, hr]
  | none =>
    cases hq : g.hvIndex q with
    | some j => simp only [Group.vput, hr]
    | none =>
      simp only [Group.vput, hr]
      exact look_put_ne _ _ _ _ _ hne

/-! ### VLIFE -/

/-- The life state that VLIFE gives a register (R116). -/
def lifeSet (state : Nat) (old : Life) : Life :=
  if state = 0 then .dead else if state = 1 then (if old = .live then .rest else old) else .live

/-- VLIFE clears a register that it brings back to LIVE from DEAD or POISON (R116). -/
def lifeClears (state : Nat) (old : Life) : Prop := 2 ≤ state ∧ ¬ (old = .live ∨ old = .rest)

theorem Group.vlife_vlifeStep (g : Group) (state : Nat) (r : BitVec 8) :
    (g.vlifeStep state r).vlife r = lifeSet state (g.vlife r) := by
  match state with
  | 0 => exact g.vlife_setLife_same r _
  | 1 => cases h : g.vlife r <;> simp [Group.vlifeStep, h, lifeSet, Group.vlife_setLife_same]
  | n + 2 => cases h : g.vlife r <;> simp [Group.vlifeStep, h, lifeSet, Group.vlife_setLife_same]

theorem Group.vget_vlifeStep_cleared (g : Group) {state : Nat} {r : BitVec 8} (hc : lifeClears state (g.vlife r)) :
    (g.vlifeStep state r).vget r = Vector.replicate 128 0 := by
  obtain ⟨hs, hl⟩ := hc
  match state with
  | n + 2 => cases h : g.vlife r <;> simp [h] at hl <;> simp [Group.vlifeStep, h, Group.vget_vput_same]

theorem Group.vget_vlifeStep_kept (g : Group) {state : Nat} {r : BitVec 8} (hc : ¬ lifeClears state (g.vlife r)) :
    (g.vlifeStep state r).vget r = g.vget r := by
  match state with
  | 0 => exact g.vget_setLife r r _
  | 1 => cases h : g.vlife r <;> simp [Group.vlifeStep, h]
  | n + 2 =>
    have hl : g.vlife r = .live ∨ g.vlife r = .rest := by
      by_contra hn
      exact hc ⟨Nat.le_add_left .., hn⟩
    rcases hl with h | h <;> simp [Group.vlifeStep, h]

theorem Group.vlifeStep_ne (g : Group) (state : Nat) {r q : BitVec 8} (h : q ≠ r) :
    (g.vlifeStep state r).vlife q = g.vlife q ∧ (g.vlifeStep state r).vget q = g.vget q := by
  unfold Group.vlifeStep
  split <;> simp [Group.vlife_setLife_ne _ _ h, Group.vget_vput_ne _ _ h, Group.vlife_vput]

theorem Group.regsFrom_vlifeStep (g : Group) (state : Nat) (r : BitVec 8) : g.RegsFrom (g.vlifeStep state r) := by
  unfold Group.vlifeStep
  split
  · exact (g.livesFrom_setLife _ _).regs
  · exact (g.livesFrom_setLife _ _).regs
  · exact (g.livesFrom_setLife _ _).regs
  · exact .refl g
  · exact (g.livesFrom_setLife _ _).regs
  · exact (g.livesFrom_setLife _ _).regs
  · exact (g.regsFrom_vput _ _).trans (Group.livesFrom_setLife _ _ _).regs

theorem Group.preds_vput (g : Group) (r : BitVec 8) (v : VReg) : (g.vput r v).l.preds = g.l.preds := by
  unfold Group.vput
  split <;> rfl

theorem Group.k_vput (g : Group) (r : BitVec 8) (v : VReg) : (g.vput r v).l.k = g.l.k := by
  unfold Group.vput
  split <;> rfl

theorem Group.preds_vlifeStep (g : Group) (state : Nat) (r : BitVec 8) : (g.vlifeStep state r).l.preds = g.l.preds := by
  unfold Group.vlifeStep
  split <;> simp [(Group.livesFrom_setLife _ _ _).preds, Group.preds_vput]

theorem Group.k_vlifeStep (g : Group) (state : Nat) (r : BitVec 8) : (g.vlifeStep state r).l.k = g.l.k := by
  unfold Group.vlifeStep
  split <;> simp [(Group.livesFrom_setLife _ _ _).k, Group.k_vput]

theorem lifeSet_lifeSet (state : Nat) (x : Life) : lifeSet state (lifeSet state x) = lifeSet state x := by
  match state with
  | 0 => rfl
  | 1 => cases x <;> rfl
  | n + 2 => rfl

/-- VLIFE on a range: a register outside it stays (R116). -/
theorem Group.foldl_vlifeStep_out {state : Nat} {l : List (BitVec 8)} {q : BitVec 8} (h : q ∉ l) (g : Group) :
    (l.foldl (fun g r => g.vlifeStep state r) g).vlife q = g.vlife q ∧
      (l.foldl (fun g r => g.vlifeStep state r) g).vget q = g.vget q := by
  induction l generalizing g with
  | nil => exact ⟨rfl, rfl⟩
  | cons x xs ih =>
    obtain ⟨hx, hxs⟩ := not_or.mp (mt List.mem_cons.mpr h)
    obtain ⟨h1, h2⟩ := g.vlifeStep_ne state hx
    rw [List.foldl_cons, (ih hxs _).1, (ih hxs _).2]
    exact ⟨h1, h2⟩

/-- VLIFE on a range: a register of it takes its state once, however often the range names it (R116). -/
theorem Group.foldl_vlifeStep_in {state : Nat} {l : List (BitVec 8)} {q : BitVec 8} (h : q ∈ l) (g : Group) :
    let t := l.foldl (fun g r => g.vlifeStep state r) g
    t.vlife q = lifeSet state (g.vlife q) ∧ (lifeClears state (g.vlife q) → t.vget q = Vector.replicate 128 0) ∧
      (¬ lifeClears state (g.vlife q) → t.vget q = g.vget q) := by
  induction l generalizing g with
  | nil => cases h
  | cons x xs ih =>
    have hnot : ¬ lifeClears state (lifeSet state (g.vlife x)) := by
      rintro ⟨hs, hl⟩
      exact hl (.inl (by simp [lifeSet, show state ≠ 0 by omega, show state ≠ 1 by omega]))
    rw [List.foldl_cons]
    by_cases hx : q = x
    · subst hx
      have hlife := g.vlife_vlifeStep state q
      have hget : (xs.foldl (fun g r => g.vlifeStep state r) (g.vlifeStep state q)).vlife q = lifeSet state (g.vlife q) ∧
          (xs.foldl (fun g r => g.vlifeStep state r) (g.vlifeStep state q)).vget q = (g.vlifeStep state q).vget q := by
        by_cases hxs : q ∈ xs
        · obtain ⟨h1, -, h3⟩ := ih hxs (g.vlifeStep state q)
          rw [h1, h3 (hlife ▸ hnot), hlife, lifeSet_lifeSet]
          exact ⟨rfl, rfl⟩
        · obtain ⟨h1, h2⟩ := Group.foldl_vlifeStep_out hxs (g.vlifeStep state q)
          exact ⟨h1.trans hlife, h2⟩
      exact ⟨hget.1, fun hc => hget.2.trans (g.vget_vlifeStep_cleared hc), fun hc => hget.2.trans (g.vget_vlifeStep_kept hc)⟩
    · obtain ⟨h1, h2⟩ := g.vlifeStep_ne state hx
      have := ih ((List.mem_cons.mp h).resolve_left hx) (g.vlifeStep state x)
      rw [h1, h2] at this
      exact this

/-! ### The wake of blocks (R21) -/

theorem Group.blockOf_eq {g : Group} {r : BitVec 8} {b : Nat} (h : g.blockOf r = some b) : b = r.toNat / 8 ∧ b < 32 := by
  unfold Group.blockOf at h
  have := r.isLt
  split at h
  · cases h
  · cases h
    omega

/-- A block wakes. -/
def Supply.Wakes (x : Supply) : Prop := ∃ due kept, x = .waking due kept

section
variable (s : State) (r : BitVec 8)

/-- A wake changes the supply of one block. -/
theorem State.wakeBlock_eq : s.wakeBlock r = { s with cur := { s.cur with blocks := (s.wakeBlock r).cur.blocks } } := by
  unfold State.wakeBlock State.mapCur
  dsimp only
  split
  · rfl
  · split <;> rfl

/-- What the wake of a register's block leaves of any block. -/
theorem State.blocks_wakeBlock (b : Nat) : look (s.wakeBlock r).cur.blocks b .off = look s.cur.blocks b .off ∨
    (look (s.wakeBlock r).cur.blocks b .off).Wakes := by
  unfold State.wakeBlock State.mapCur
  dsimp only
  split
  · exact .inl rfl
  · next k hk =>
    split
    · exact .inl rfl
    · exact .inl rfl
    · by_cases hb : k = b
      · subst hb
        exact .inr ⟨_, _, look_put_same _ _ _ _ (Group.blockOf_eq hk).2⟩
      · exact .inl (look_put_ne _ _ _ _ _ hb)

/-- The block of a register that is not FULL wakes. -/
theorem State.wakeBlock_wakes {b : Nat} (hb : s.cur.blockOf r = some b) (hf : look s.cur.blocks b .off ≠ .full) :
    (look (s.wakeBlock r).cur.blocks b .off).Wakes := by
  have hlt := (Group.blockOf_eq hb).2
  unfold State.wakeBlock State.mapCur
  dsimp only
  rw [hb]
  dsimp only
  split
  · next h => exact absurd h hf
  · next h => exact ⟨_, _, h⟩
  · exact ⟨_, _, look_put_same _ _ _ _ hlt⟩

end

/-- The wakes of some registers' blocks change the supply of blocks alone. -/
theorem State.foldl_wakeBlock_eq (l : List (BitVec 8)) (s : State) :
    l.foldl State.wakeBlock s = { s with cur := { s.cur with blocks := (l.foldl State.wakeBlock s).cur.blocks } } := by
  induction l generalizing s with
  | nil => rfl
  | cons x xs ih =>
    rw [List.foldl_cons, ih, State.wakeBlock_eq s x]

theorem State.foldl_wakeBlock_keeps (l : List (BitVec 8)) {s : State} {b : Nat} (h : (look s.cur.blocks b .off).Wakes) :
    (look (l.foldl State.wakeBlock s).cur.blocks b .off).Wakes := by
  induction l generalizing s with
  | nil => exact h
  | cons x xs ih => exact ih ((s.blocks_wakeBlock x b).elim (fun e => e ▸ h) id)

theorem State.foldl_wakeBlock_wakes {l : List (BitVec 8)} {s : State} {r : BitVec 8} {b : Nat} (hr : r ∈ l)
    (hb : s.cur.blockOf r = some b) (hf : look s.cur.blocks b .off ≠ .full) :
    (look (l.foldl State.wakeBlock s).cur.blocks b .off).Wakes := by
  induction l generalizing s with
  | nil => cases hr
  | cons x xs ih =>
    rw [List.foldl_cons]
    rcases List.mem_cons.mp hr with rfl | hr
    · exact State.foldl_wakeBlock_keeps xs (s.wakeBlock_wakes r hb hf)
    · rcases s.blocks_wakeBlock x b with he | hw
      · exact ih hr (by rw [State.wakeBlock_eq]; exact hb) (he ▸ hf)
      · exact State.foldl_wakeBlock_keeps xs hw

/-- A register whose block does not let an access pass stands in a block that is not FULL (R20). -/
theorem Group.blockOf_of_unpowered {g : Group} {r : BitVec 8} (h : g.powered r = false) :
    g.blockOf r = some (r.toNat / 8) ∧ look g.blocks (r.toNat / 8) .off ≠ .full := by
  unfold Group.powered at h
  split at h
  · cases h
  · next b hb =>
    obtain ⟨rfl, -⟩ := Group.blockOf_eq hb
    exact ⟨hb, by simpa using h⟩

/-! ### Votes and returns -/

/-- The group whose oldest and newest queues alone may have changed (R13). -/
theorem RqForm.of_lIssue {s : State} {i : Instr} {u : LUse} {p : Path} {vs : List Word} {g : Group} {gd : Guard} {w : LIn → List Word}
    {ws : List Word} (hexec : exec i s = .next (s.lIssue gd u fun x => (x.st.rqPush (w x)).lNext)) (hl : u.late = false)
    (h : LReady s u p vs g) (hw : w ⟨{ s with cur := g.applyHints u.reads }, p.mask, s.cur.selected p.mask gd, vs⟩ = ws) :
    RqForm s i u p g ws := by
  have hfrom : ({ s.cur with dq := g.dq } : Group).LivesFrom (g.applyHints u.reads) :=
    Group.pops_got h.values ▸ g.livesFrom_applyHints u.reads
  have hp : (g.applyHints u.reads).path s.ps1 = some p := by
    rw [hfrom]
    exact h.path
  have hexec' := hexec.trans (congrArg _ (State.lIssue_ready h hl))
  dsimp only at hexec'
  rw [hw, State.lNext_eq (s := State.rqPush { s with cur := g.applyHints u.reads } ws) hp] at hexec'
  refine ⟨_, hexec', ?_, Group.path_setPath_same _ _ _, (Group.path_setPath_other (g.applyHints u.reads) _ _).trans ?_, ?_,
    fun r => ⟨?_, ?_⟩, ?_, ?_⟩
  · show (g.applyHints u.reads).rq ++ ws = _
    rw [hfrom]
  · rw [hfrom]
    rfl
  · show (g.applyHints u.reads).dq = _
    rw [hfrom]
  · exact Eq.trans (by cases s.ps1 <;> rfl) (h.vget_hinted r)
  · exact Eq.trans (by cases s.ps1 <;> rfl) (h.vlife_hinted r)
  · dsimp only [State.rqPush, State.mapCur]
    rw [LState.setPath_eq, hfrom]
  · dsimp only [State.rqPush, State.mapCur]
    rw [LState.setPath_eq, hfrom]

/-- The predicate operand of a control instruction (R125). -/
theorem ctlPred_getLsbD (s : State) (p : Path) (o : LOp) {i : Nat} (hi : i < 128) :
    (s.cur.ctlPred o p.mask).getLsbD i = true ↔ takesIn s p o i := by
  have heq : s.cur.ctlPred o p.mask = s.cur.selected p.mask ⟨o.mods.extractLsb' 0 3, o.mods.getLsbD 3⟩ := by
    unfold Group.ctlPred
    rw [modField_eq]
    rfl
  rw [heq]
  exact selected_getLsbD s p _ hi

theorem foldl_countP {α : Type} (f : α → Bool) (l : List α) (n : Nat) :
    l.foldl (fun n i => n + (f i).toNat) n = n + l.countP f := by
  induction l generalizing n with
  | nil => rfl
  | cons x xs ih =>
    rw [List.foldl_cons, ih, List.countP_cons]
    cases f x
    · simp
    · simp
      omega

theorem popcount_eq_countP {w : Nat} (v : BitVec w) : popcount v = (List.range w).countP fun i => v.getLsbD i :=
  (foldl_countP _ _ _).trans (Nat.zero_add _)

theorem lowestLane_eq (m : Mask) : lowestLane m = ((List.range 128).find? fun i => m.getLsbD i).getD 0 := by
  unfold lowestLane lanesOf
  rw [List.headD_eq_head?_getD, List.head?_filter]

/-- What VOTE appends (R136). -/
theorem voteValues_eq (mode : BitVec 2) (a v : Mask) : voteValues mode.toNat a v =
    if mode.toNat = 0 then [if v = 0 then 0 else 1] else if mode.toNat = 1 then [if v = a then 1 else 0]
    else if mode.toNat = 2 then [BitVec.ofNat 64 ((List.range 128).countP fun i => v.getLsbD i)]
    else [v.extractLsb' 0 64, v.extractLsb' 64 64] := by
  rw [← popcount_eq_countP]
  generalize mode.toNat = k
  unfold voteValues
  simp only [beq_iff_eq]
  split
  · rfl
  · rfl
  · rfl
  · next h0 h1 h2 => rw [if_neg h0, if_neg h1, if_neg h2]

/-- The value that RPUT appends (R137). -/
theorem rputValue_eq (s : State) (o : LOp) (p : Path) (vs : List Word) : rputValue s.cur o p.mask vs =
    match o.c with
    | .vec r _ =>
      let x := look (s.cur.vget r)
      let lane := if o.mods.getLsbD 2 then ((List.range 128).find? fun i => p.mask.getLsbD i).getD 0 else 0
      if o.mods.getLsbD 1 then x 1 0 ++ x 0 0
      else if o.mods.getLsbD 0 then (x lane 0).signExtend 64 else (x lane 0).setWidth 64
    | .imm => o.w2.signExtend 64
    | .dq => vs.headD 0
    | .kreg n => look s.cur.l.k n.toNat 0 := by
  unfold rputValue
  cases o.c with
  | vec r _ =>
    dsimp only
    rw [lowestLane_eq]
    rfl
  | imm => rfl
  | dq => rfl
  | kreg n => rfl

/-! ### The statement -/

/-- VLIFE of a range that may be set (R116). -/
theorem exec_vlife {s : State} {o : LOp} {p : Path} (hp : s.cur.path s.ps1 = some p) (hbad : s.cur.rangeBad o.vd o.w2.toNat = false)
    (hheld : s.cur.lHeld = false) :
    let regs := (List.range o.w2.toNat).map fun j => o.vd + BitVec.ofNat 8 j
    let state := (o.mods.extractLsb' 0 2).toNat
    let wake := regs.filter fun r => state == 2 && !s.cur.powered r
    s.cur.lBusy { writes := regs } = false →
    exec (.vlife o) s = .next (if !wake.isEmpty then wake.foldl State.wakeBlock s
      else (s.mapCur fun g => regs.foldl (fun g r => g.vlifeStep state r) g).lDone 0 { writes := regs }) := by
  intro regs state wake hbusy
  show execVlife o s = _
  unfold execVlife
  dsimp only
  rw [hp, modField_eq]
  dsimp only
  rw [hbad, hheld, show s.cur.lBusy { writes := List.map (fun i => o.vd + BitVec.ofNat 8 i) (List.range o.w2.toNat) } = false from hbusy]
  rfl

/-- Settles O33: a k register, a range of registers or the result queue takes its value, and nothing else changes. -/
theorem registerControlAndReturnsAct : Obligations.RegisterControlAndReturnsAct := by
  unfold Obligations.RegisterControlAndReturnsAct
  refine ⟨fun s o => ?registers, fun s o p vs g t ht => ?queue⟩
  case registers =>
    intro k writesK n inRange state
    refine ⟨fun p vs g h => ?kpop, fun p vs g h => ?kfrom, fun p vs g h => ?vnop, fun p hp hbad hstate hheld hbusy => ?vlife⟩
    case kpop => exact writesK_of_lIssue (v := fun vs => vs.headD 0 + kpopAddend s.cur o vs) rfl (LUse.withC_late _ _) h
    case kfrom =>
      have hlane (j : Nat) (hj : j < 128) : (s.cur.cvec o vs)[j] = srcC s o vs j :=
        (getElem_eq_look _ (⟨j, hj⟩ : Fin 128) 0).trans (look_cvec s o vs hj)
      have hvalue : kfromValue o (s.cur.cvec o vs) = if o.mods.getLsbD 1 then srcC s o vs 1 ++ srcC s o vs 0
          else if o.mods.getLsbD 0 then (srcC s o vs 0).signExtend 64 else (srcC s o vs 0).setWidth 64 := by
        unfold kfromValue
        rw [hlane 0 (by decide), hlane 1 (by decide)]
        rfl
      have hform := writesK_of_lIssue (i := .kfrom o) (v := fun vs => kfromValue o (s.cur.cvec o vs)) rfl (LUse.withC_late _ _) h
      rw [hvalue] at hform
      exact hform
    case vnop =>
      have hexec : exec (.vnop o) s = .next (({ s with cur := g.applyHints [] } : State).lDone 0 {}) := by
        show execVnop o s = _
        rw [execVnop, State.lIssue_ready h]
      refine ⟨_, hexec, LIssued.of_lDone h (.refl _) _, ?_⟩
      have hp : g.path s.ps1 = some p := by
        rw [Group.pops_got h.values]
        exact h.path
      rw [State.lDone_eq (s := { s with cur := g.applyHints [] }) hp, LState.setPath_eq]
      exact Group.pops_got h.values ▸ ⟨rfl, rfl, rfl, rfl⟩
    case vlife =>
      have hexec := exec_vlife hp hbad hheld hbusy
      have hmem (r : BitVec 8) : r ∈ (List.range n).map (fun j => o.vd + BitVec.ofNat 8 j) ↔ inRange r := by
        simp only [List.mem_map, List.mem_range]
        exact exists_congr fun j => and_congr_right fun _ => eq_comm
      generalize hregs : (List.range o.w2.toNat).map (fun j => o.vd + BitVec.ofNat 8 j) = regs at hexec
      have hmem (r : BitVec 8) : r ∈ regs ↔ inRange r := hregs ▸ hmem r
      generalize hwake : regs.filter (fun r => state == 2 && !s.cur.powered r) = wake at hexec
      have hwakes (r : BitVec 8) : r ∈ wake ↔ inRange r ∧ state = 2 ∧ s.cur.powered r = false := by
        simp [← hwake, hmem]
      refine ⟨fun h2 ⟨r, hr, hoff⟩ => ?wakes, fun hon => ?sets⟩
      case wakes =>
        have hne : wake.isEmpty = false := by
          rw [List.isEmpty_eq_false_iff_exists_mem]
          exact ⟨r, (hwakes r).mpr ⟨hr, h2, hoff⟩⟩
        rw [hne] at hexec
        refine ⟨_, hexec, State.foldl_wakeBlock_eq wake s, fun q hq hqoff => ?_⟩
        obtain ⟨hb, hf⟩ := Group.blockOf_of_unpowered hqoff
        exact State.foldl_wakeBlock_wakes ((hwakes q).mpr ⟨hq, h2, hqoff⟩) hb hf
      case sets =>
        have hempty : wake = [] := List.eq_nil_iff_forall_not_mem.mpr fun r hr => by
          obtain ⟨hin, h2, hoff⟩ := (hwakes r).mp hr
          rw [hon h2 r hin] at hoff
          cases hoff
        rw [hempty] at hexec
        have hfrom : s.cur.RegsFrom (regs.foldl (fun g r => g.vlifeStep state r) s.cur) :=
          .foldl (fun g r => g.regsFrom_vlifeStep state r) regs s.cur
        generalize hg' : regs.foldl (fun g r => g.vlifeStep state r) s.cur = g' at hfrom
        have hexec : exec (.vlife o) s = .next (({ s with cur := g' } : State).lDone 0 { writes := regs }) :=
          hg' ▸ hexec
        have hp' : g'.path s.ps1 = some p := by
          rw [hfrom]
          exact hp
        have hpreds : g'.l.preds = s.cur.l.preds :=
          hg' ▸ foldl_keeps (p := fun g : Group => g.l.preds) (fun g r => g.preds_vlifeStep state r) regs s.cur
        have hk : g'.l.k = s.cur.l.k := hg' ▸ foldl_keeps (p := fun g : Group => g.l.k) (fun g r => g.k_vlifeStep state r) regs s.cur
        have hdone := State.lDone_eq (s := { s with cur := g' }) hp' 0 { writes := regs }
        refine ⟨_, hexec, ?_, (State.preds_lDone ..).trans hpreds, (State.k_lDone ..).trans hk, ?_, ?_, fun r => ?_⟩
        · rw [hdone]
          exact Group.path_setPath_same g' _ _
        · rw [hdone]
          show g'.s = _
          rw [hfrom]
        · rw [hdone]
          exact fun _ => rfl
        · rw [State.vlife_lDone, State.vget_lDone]
          intro old kept
          refine ⟨fun hout => ?_, fun hin => ?_⟩
          · exact hg' ▸ Group.foldl_vlifeStep_out (mt (hmem r).mp hout) s.cur
          · obtain ⟨hlife, hclear, hkeep⟩ := Group.foldl_vlifeStep_in (state := state) ((hmem r).mpr hin) s.cur
            rw [hg'] at hlife hclear hkeep
            refine ⟨hlife, ?_⟩
            have hiff : state = 2 ∧ ¬ kept ↔ lifeClears state old := and_congr_left fun _ => by omega
            split
            · next hc => exact hclear (hiff.mp hc)
            · next hc => exact hkeep (mt hiff.mpr hc)
  case queue =>
    intro mode uv ur lane
    have hctl : s.cur.ctlPred o p.mask = t := mask_ext fun i hi => (ctlPred_getLsbD s p o hi).trans (ht i hi).symm
    refine ⟨fun h => ?vote, fun h => ?rput⟩
    case vote =>
      have hexec : exec (.vote o) s = .next (s.lIssue o.g uv fun x =>
          (x.st.rqPush (voteValues mode x.active (s.cur.ctlPred o x.active))).lNext) := by
        show execVote o s = _
        unfold execVote
        rw [modField_eq, modField_eq]
        simp only [BitVec.ofNat_toNat, BitVec.setWidth_eq, beq_iff_eq]
        rfl
      refine RqForm.of_lIssue hexec rfl h ?_
      show voteValues mode p.mask (s.cur.ctlPred o p.mask) = _
      rw [hctl]
      exact voteValues_eq _ _ _
    case rput =>
      exact RqForm.of_lIssue (i := .rput o) (w := fun x => [rputValue s.cur o x.active x.popped]) rfl (LUse.withC_late _ _) h
        (congrArg (fun w => [w]) (rputValue_eq s o p vs))

end Sys2Proof.Machine
end

section
/-! The events of a group's L-stream and of supply (R12, R20, R21, R25, R93, R121, R183). -/

namespace Sys2Proof.Machine

theorem State.uid_of_group? {s : State} {uid : Nat} {g : Group} (h : s.group? uid = some g) : g.uid = uid :=
  beq_iff_eq.mp (List.find?_some (p := fun g : Group => g.uid == uid) h)

/-! ### The L-stream -/

/-- The oldest entry for the group's mode that starts a block (R12, R315). -/
theorem Group.blockEntry_of_first {g : Group} {before after : List DqEntry} {e : DqEntry} (hh : g.handler = none)
    (hq : g.dq = before ++ e :: after) (hb : e.block = true) (he : e.handler = false)
    (hbefore : ∀ x ∈ before, x.block = false ∨ x.handler = true) : g.blockEntry = some e := by
  have hm : g.mode = false := by rw [Group.mode, hh]; rfl
  have hskip : before.find? (fun e => e.block && e.handler == g.mode) = none := by
    rw [List.find?_eq_none]
    intro x hx
    rcases hbefore x hx with h | h <;> simp [h, hm]
  rw [Group.blockEntry, hq, List.find?_append, hskip, Option.none_or, List.find?_cons_of_pos (by simp [hb, he, hm])]

/-- A group whose oldest issued instruction completes where it may (R25, R93). -/
def Group.completeOldest (g : Group) : Group :=
  if g.mayComplete then
    match g.lpend with
    | [] => g
    | e :: es => { g with flags := g.flags ||| e.flags, lpend := es }
  else g

/-- A group whose L-stream begins a block (R12, R121). -/
def Group.beginBlock (e : DqEntry) (g : Group) : Group :=
  let g := { g with dq := g.dq.erase e }
  if g.blockMask == (0 : Mask) then { g with wdog := 0 }
  else { g with
    running := true, hbase := e.handler, lAfter := e.seq, bAfter := e.join
    l := { g.l.nestZero with ps0 := some ⟨e.val.toNat, g.blockMask⟩, ps1 := none, stack := [], hold := none } }

theorem exec_blockStart {s : State} {uid : Nat} {g : Group} {e : DqEntry} (hg : s.group? uid = some g) (hi : s.issues g = true)
    (hr : g.running = false) (he : g.blockEntry = some e) :
    exec (.blockStart uid) s = .next (s.mapGroup uid (Group.beginBlock e)) := by
  show execBlockStart uid s = _
  unfold execBlockStart
  rw [hg]
  dsimp only
  rw [hi, hr, he]
  rfl

/-! ### Supply -/

/-- Some register of a block has a life state. -/
def Group.hasLife (g : Group) (b : Nat) (x : Life) : Prop := ∃ i, i < 8 ∧ look g.l.life (8 * b + i) .dead = x

/-- The supply that life states ask for (R20). -/
theorem Group.supplyFor_live {g : Group} {b : Nat} (h : g.hasLife b .live) : g.supplyFor b = .full := by
  obtain ⟨i, hi, hx⟩ := h
  have hc : ((List.range 8).map fun i => look g.l.life (8 * b + i) .dead).contains Life.live = true := by
    rw [List.contains_iff_mem, List.mem_map]
    exact ⟨i, List.mem_range.mpr hi, hx⟩
  simp only [Group.supplyFor, hc, if_true]

theorem Group.contains_life {g : Group} {b : Nat} (x : Life) :
    ((List.range 8).map fun i => look g.l.life (8 * b + i) .dead).contains x = true ↔ g.hasLife b x := by
  rw [List.contains_iff_mem, List.mem_map]
  simp only [List.mem_range, Group.hasLife]

theorem Group.supplyFor_rest {g : Group} {b : Nat} (hl : ¬ g.hasLife b .live) (hr : g.hasLife b .rest) : g.supplyFor b = .ret := by
  rw [← Group.contains_life] at hl hr
  simp only [Group.supplyFor, hl, hr, if_true]
  rfl

theorem Group.supplyFor_none {g : Group} {b : Nat} (hl : ¬ g.hasLife b .live) (hr : ¬ g.hasLife b .rest) : g.supplyFor b = .off := by
  rw [← Group.contains_life] at hl hr
  simp only [Group.supplyFor, hl, hr]
  rfl

/-- What BLOCK_SUPPLY_FOLLOW leaves of the blocks of a group (R20). -/
def Group.follows (blk due : Nat) (g : Group) : Group :=
  match look g.blocks blk .off, g.supplyFor blk with
  | .waking _ _, _ | .full, .full => g
  | x, .full => { g with blocks := put g.blocks blk (.waking due (x == .ret)) }
  | .off, .ret => { g with blocks := put g.blocks blk (.waking due false) }
  | _, y => { g with blocks := put g.blocks blk y }

theorem Group.uid_follows (blk due : Nat) (g : Group) : (g.follows blk due).uid = g.uid := by
  unfold Group.follows
  split <;> rfl

theorem exec_blockSupplyFollow {s : State} {uid blk : Nat} {g : Group} (hg : s.group? uid = some g) :
    exec (.blockSupplyFollow uid blk) s = .next (s.mapGroup uid (Group.follows blk (s.cyclesOf (s.coreOf g) + 24))) := by
  show execBlockSupplyFollow uid blk s = _
  unfold execBlockSupplyFollow
  rw [hg]
  rfl

section
variable {blk due : Nat} {g : Group} (hold : ∀ due kept, look g.blocks blk .off ≠ .waking due kept)
include hold

/-- A block with a live register rises (R20, R21). -/
theorem Group.follows_wakes (hs : g.supplyFor blk = .full) (hf : look g.blocks blk .off ≠ .full) :
    g.follows blk due = { g with blocks := put g.blocks blk (.waking due (look g.blocks blk .off == .ret)) } := by
  unfold Group.follows
  rw [hs]
  cases hb : look g.blocks blk .off with
  | full => exact absurd hb hf
  | ret => rfl
  | off => rfl
  | waking d k => exact absurd hb (hold d k)

/-- A block whose registers rest keeps them (R20). -/
theorem Group.follows_retains (hs : g.supplyFor blk = .ret) (hf : look g.blocks blk .off ≠ .off) :
    g.follows blk due = { g with blocks := put g.blocks blk .ret } := by
  unfold Group.follows
  rw [hs]
  cases hb : look g.blocks blk .off with
  | full => rfl
  | ret => rfl
  | off => exact absurd hb hf
  | waking d k => exact absurd hb (hold d k)

/-- A block without data is switched off (R20). -/
theorem Group.follows_off (hs : g.supplyFor blk = .off) : g.follows blk due = { g with blocks := put g.blocks blk .off } := by
  unfold Group.follows
  rw [hs]
  cases hb : look g.blocks blk .off with
  | full => rfl
  | ret => rfl
  | off => rfl
  | waking d k => exact absurd hb (hold d k)

end

/-! ### Errors that wakes meet -/

/-- The device with errors added to those that it has met (R403). -/
def State.withErrs (s : State) (es : List MetError) : State := { s with errs := s.errs ++ es }

@[simp] theorem State.core_withErrs (s : State) (es : List MetError) (k : Nat) : (s.withErrs es).core k = s.core k := rfl
@[simp] theorem State.group?_withErrs (s : State) (es : List MetError) (uid : Nat) :
    (s.withErrs es).group? uid = s.group? uid := rfl

/-- Errors that are met stand last in the record, and nothing else changes (R403). -/
theorem foldl_meetError {α : Type} (e : State → α → ErrInput) (l : List α) (s : State) :
    ∃ es, l.foldl (fun s x => s.meetError (e s x)) s = s.withErrs es ∧ es.length = l.length := by
  induction l generalizing s with
  | nil => exact ⟨[], congrArg (fun es => { s with errs := es }) (List.append_nil _).symm, rfl⟩
  | cons x xs ih =>
    obtain ⟨es, hes, hn⟩ := ih (s.meetError (e s x))
    refine ⟨⟨e s x, s.time, (look s.doms (errDom (e s x)) (Dom.reset true)).uvofs⟩ :: es, hes.trans ?_, congrArg (· + 1) hn⟩
    exact congrArg (fun es => { s with errs := es }) (List.append_assoc _ _ _)

theorem State.errs_withErrs {s : State} {es : List MetError} : (s.withErrs es).errs = s.errs ↔ es = [] := by
  simp [State.withErrs]

/-! ### A change of one group -/

theorem State.group?_mapGroup_same {s : State} {g : Group} {f : Group → Group} (hg : s.group? g.uid = some g)
    (hf : ∀ x, (f x).uid = x.uid) : (s.mapGroup g.uid f).group? g.uid = some (f g) :=
  (find?_mapIf_same (key := Group.uid) hf s.groups g.uid).trans (congrArg (Option.map f) hg)

theorem State.group?_mapGroup_ne {s : State} {uid v : Nat} {f : Group → Group} (hf : ∀ x, (f x).uid = x.uid) (hv : v ≠ uid) :
    (s.mapGroup uid f).group? v = s.group? v :=
  find?_mapIf_ne (key := Group.uid) hf s.groups hv

/-! ### Registers that lose their value -/

theorem LState.life_lose (l : LState) (r q : Nat) (hq : q < 256) : look (l.lose r).life q .dead =
    if q = r ∧ look l.life q .dead = .rest then .poison else look l.life q .dead := by
  unfold LState.lose
  by_cases hr : look l.life r .dead = .rest
  · rw [if_pos (beq_iff_eq.mpr hr)]
    by_cases hqr : q = r
    · subst hqr
      rw [if_pos ⟨rfl, hr⟩]
      exact look_put_same _ _ _ _ hq
    · rw [if_neg fun h => hqr h.1]
      exact look_put_ne _ _ _ _ _ (Ne.symm hqr)
  · have hq : ¬ (q = r ∧ look l.life q .dead = .rest) := fun h => hr (h.1 ▸ h.2)
    rw [if_neg fun h => hr (beq_iff_eq.mp h), if_neg hq]

/-- The group after registers lost their value: lives and what accesses would restore change alone. -/
theorem Group.lose_eq (g : Group) (rs : List Nat) :
    g.lose rs = { g with l := { g.l with life := (g.lose rs).l.life }, accs := (g.lose rs).accs } := by
  unfold Group.lose
  induction rs generalizing g with
  | nil => rfl
  | cons r rs ih =>
    rw [List.foldl_cons, ih]
    have hl : g.l.lose r = { g.l with life := (g.l.lose r).life } := by
      unfold LState.lose
      split <;> rfl
    dsimp only
    rw [hl]

theorem Group.life_lose (g : Group) (rs : List Nat) (q : Nat) (hq : q < 256) : look (g.lose rs).l.life q .dead =
    if q ∈ rs ∧ look g.l.life q .dead = .rest then .poison else look g.l.life q .dead := by
  unfold Group.lose
  induction rs generalizing g with
  | nil => simp
  | cons r rs ih =>
    rw [List.foldl_cons, ih]
    dsimp only
    rw [LState.life_lose _ _ _ hq]
    by_cases hr : look g.l.life q .dead = .rest
    · by_cases hqr : q = r
      · subst hqr
        simp [hr]
      · simp [hr, hqr]
    · simp [hr]

/-- A group one of whose blocks has woken, with the registers that lost their value (R21). -/
def Group.woken (b : Nat) (rs : List Nat) (g : Group) : Group := { (g.lose rs) with blocks := put g.blocks b .full }

theorem Group.uid_woken (b : Nat) (rs : List Nat) (g : Group) : (g.woken b rs).uid = g.uid := by
  unfold Group.woken
  dsimp only
  rw [g.lose_eq]

/-- The wake of a block ends (R21, R403). -/
theorem exec_regBlockWakeDone {s : State} {uid blk due : Nat} {kept : Bool} {bad : List Nat} {g : Group}
    (hg : s.group? uid = some g) (hold : look g.blocks blk .off = .waking due kept) (hdue : due ≤ s.cyclesOf (s.coreOf g)) :
    let rs := if kept then bad.filter fun r => r / 8 == blk && look g.l.life r .dead == Life.rest else []
    exec (.regBlockWakeDone uid blk bad) s =
      .next (rs.foldl (fun s r => s.meetError (coreError 0 (s.coreOf g) r (s.gridOf g).ctx)) (s.mapGroup uid (Group.woken blk rs))) := by
  intro rs
  show execRegBlockWakeDone uid blk bad s = _
  unfold execRegBlockWakeDone
  rw [hg]
  dsimp only
  rw [hold]
  dsimp only
  rw [if_neg (Nat.not_lt.mpr hdue)]
  rfl

/-- A core one of whose banks has woken, with the words that hold an error (R183, R184). -/
def CoreState.woken (bank : Nat) (marks : List Nat) (c : CoreState) : CoreState :=
  { c with banks := put c.banks bank .full, poison := c.poison ++ marks }

/-- The wake of a bank ends (R183, R184, R403). -/
theorem exec_spBankWakeDone {s : State} {core bank due : Nat} {kept : Bool} {bad : List Nat}
    (hold : look (s.core core).banks bank .off = .waking due kept) (hdue : due ≤ s.cyclesOf core) :
    let marks := if kept then bad.filter fun w => w / 1024 == bank && !(s.core core).poison.contains w else []
    exec (.spBankWakeDone core bank bad) s =
      .next (marks.foldl (fun s w => s.meetError (coreError 1 core w (s.bankCtx core bank)))
        (s.mapCore core (CoreState.woken bank marks))) := by
  intro marks
  show execSpBankWakeDone core bank bad s = _
  unfold execSpBankWakeDone
  rw [hold]
  dsimp only
  rw [if_neg (Nat.not_lt.mpr hdue)]
  rfl

/-- Settles O38: each event changes the entry that it names, in its group or its core. -/
theorem streamEventsActInTurn : Obligations.StreamEventsActInTurn := by
  unfold Obligations.StreamEventsActInTurn
  intro s uid g hg now
  obtain rfl := State.uid_of_group? hg
  refine ⟨fun e es hp hacc => ?complete, fun e before after hi hrun hh hlive hq hb he hbefore hnot => ?start,
    fun b hb32 => ?supply, fun core bank due kept bad hcore hbank hold hdue => ?bank⟩
  case complete =>
    have hmay : g.mayComplete = true := by
      have hnone : (g.accs.any fun a => a.l && a.valued && decide (a.seq < e.seq)) = false := by
        rw [List.any_eq_false]
        intro a ha hc
        simp only [Bool.and_eq_true, decide_eq_true_eq] at hc
        exact Nat.not_lt.mpr (hacc a ha hc.1.1 hc.1.2) hc.2
      simp only [Group.mayComplete, hp, hnone, Bool.not_false]
    have hf : g.completeOldest = { g with flags := g.flags ||| e.flags, lpend := es } := by
      simp only [Group.completeOldest, hmay, if_true, hp]
    refine hf ▸ ChangesGroup.of_mapGroup (f := Group.completeOldest) hg (fun x => ?_) rfl
    unfold Group.completeOldest
    split
    · split <;> rfl
    · rfl
  case start =>
    have hf : g.beginBlock e = { g with
        dq := before ++ after, running := true, hbase := false, lAfter := e.seq, bAfter := e.join
        l := { g.l with
          nest := Vector.replicate 128 0, ps0 := some ⟨e.val.toNat, g.l.live⟩, ps1 := none, stack := [], hold := none } } := by
      have hdq : g.dq.erase e = before ++ after := by
        rw [hq, List.erase_append_right _ hnot, List.erase_cons_head]
      have hmask : ({ g with dq := g.dq.erase e } : Group).blockMask = g.l.live := by
        simp only [Group.blockMask, hh]
      unfold Group.beginBlock
      dsimp only
      rw [hmask, hdq, beq_false_of_ne hlive, he]
      rfl
    refine hf ▸ ChangesGroup.of_mapGroup hg (fun x => ?_)
      (exec_blockStart hg hi hrun (Group.blockEntry_of_first hh hq hb he hbefore))
    unfold Group.beginBlock
    dsimp only
    split <;> rfl
  case supply =>
    intro old has becomes
    refine ⟨fun hold => ⟨fun hl hf => ?wakes, fun hl hr hf => ?retains, fun hl hr => ?off⟩, fun due kept bad hold hdue => ?done⟩
    case wakes =>
      have hf := Group.follows_wakes (due := now + 24) hold (Group.supplyFor_live hl) hf
      have hc := ChangesGroup.of_mapGroup hg (Group.uid_follows b _) (exec_blockSupplyFollow hg)
      rw [hf] at hc
      exact hc
    case retains =>
      have hf := Group.follows_retains (due := now + 24) hold (Group.supplyFor_rest hl hr) hf
      have hc := ChangesGroup.of_mapGroup hg (Group.uid_follows b _) (exec_blockSupplyFollow hg)
      rw [hf] at hc
      exact hc
    case off =>
      have hf := Group.follows_off (due := now + 24) hold (Group.supplyFor_none hl hr)
      have hc := ChangesGroup.of_mapGroup hg (Group.uid_follows b _) (exec_blockSupplyFollow hg)
      rw [hf] at hc
      exact hc
    case done =>
      intro lost
      have hexec := exec_regBlockWakeDone (bad := bad) hg hold hdue
      generalize hlist : (if kept then bad.filter fun r => r / 8 == b && look g.l.life r .dead == Life.rest else []) = rs at hexec
      have hmem (r : Nat) : r ∈ rs ↔ lost r := by
        rw [← hlist]
        cases kept <;> simp [lost]
      obtain ⟨es, hes, hn⟩ := foldl_meetError (fun (s : State) r => coreError 0 (s.coreOf g) r (s.gridOf g).ctx) rs
        (s.mapGroup g.uid (Group.woken b rs))
      refine ⟨_, g.woken b rs, hexec.trans (congrArg _ hes), ?_, fun v hv => ?_, rfl, ?_, fun r hr => ?_, ?_⟩
      · rw [State.group?_withErrs]
        exact State.group?_mapGroup_same hg (Group.uid_woken b rs)
      · rw [State.group?_withErrs]
        exact State.group?_mapGroup_ne (Group.uid_woken b rs) hv
      · unfold Group.woken
        rw [g.lose_eq]
      · have hlife : look (g.woken b rs).l.life r .dead = _ := g.life_lose rs r hr
        rw [hlife, ← hmem]
        exact ⟨fun hl => if_pos ⟨hl, ((hmem r).mp hl).2.2.2⟩, fun hl => if_neg fun h => hl h.1⟩
      · refine State.errs_withErrs.trans ?_
        rw [← List.length_eq_zero_iff, hn, List.length_eq_zero_iff, List.eq_nil_iff_forall_not_mem]
        simp only [hmem]
        exact ⟨fun h r _ => h r, fun h r hl => h r (by have := hl.2.2.1; omega) hl⟩
  case bank =>
    have hexec := exec_spBankWakeDone (bad := bad) hold hdue
    generalize hmarks : (if kept then bad.filter fun w => w / 1024 == bank && !(s.core core).poison.contains w else []) = marks at hexec
    obtain ⟨es, hes, hn⟩ := foldl_meetError (fun (s : State) w => coreError 1 core w (s.bankCtx core bank)) marks
      (s.mapCore core (CoreState.woken bank marks))
    refine ⟨_, marks, hexec.trans (congrArg _ hes), ?_, fun j hj => ?_, rfl, fun hm => ?_, fun w => ?_⟩
    · rw [State.core_withErrs]
      exact State.core_mapCore_same _ hcore
    · rw [State.core_withErrs]
      exact State.core_mapCore_ne _ hj
    · exact State.errs_withErrs.mpr (List.eq_nil_of_length_eq_zero (by rw [hn, hm]; rfl))
    · rw [← hmarks]
      cases kept
      · simp
      · simp only [if_true, List.mem_append, List.mem_filter, Bool.and_eq_true, beq_iff_eq, Bool.not_eq_true', List.contains_eq_mem,
          decide_eq_false_iff_not, true_and]
        tauto

end Sys2Proof.Machine
end

section
/-! Gangs, teams and grids from their launch to their end (R142 to R165, R187). -/

namespace Sys2Proof.Machine

/-! ### Ranges of a sparse store -/

theorem Cells.get_clear (m : Cells) (lo hi a : Nat) : (m.clear lo hi).get a = if lo ≤ a ∧ a < hi then 0 else m.get a := by
  induction m with
  | nil => simp [Cells.clear, Cells.get]
  | cons c m ih =>
    obtain ⟨b, v⟩ := c
    unfold Cells.clear at ih ⊢
    by_cases hb : b < lo ∨ hi ≤ b
    · rw [List.filter_cons_of_pos (by simpa using hb)]
      by_cases hba : b = a
      · subst hba
        rw [if_neg (by omega)]
        simp [Cells.get]
      · simpa [Cells.get, hba] using ih
    · rw [List.filter_cons_of_neg (by simpa using hb), ih]
      by_cases hin : lo ≤ a ∧ a < hi
      · rw [if_pos hin, if_pos hin]
      · rw [if_neg hin, if_neg hin]
        have hba : b ≠ a := by omega
        simp [Cells.get, hba]

theorem look_foldl_put {α : Type} {n : Nat} (f : Nat → α) (l : List Nat) (v : Vector α n) {i : Nat} (hi : i < n) (d : α) :
    look (l.foldl (fun v i => put v i (f i)) v) i d = if i ∈ l then f i else look v i d := by
  induction l generalizing v with
  | nil => simp
  | cons j l ih =>
    rw [List.foldl_cons, ih]
    by_cases hl : i ∈ l
    · simp [hl]
    · by_cases hj : i = j
      · subst hj
        simp [hl, look_put_same _ _ _ _ hi]
      · simp [hl, hj, look_put_ne _ _ _ _ _ (Ne.symm hj)]

/-! ### The window of a team -/

@[simp] theorem State.clearWindow_teams (s : State) (core base units : Nat) : (s.clearWindow core base units).teams = s.teams := rfl
@[simp] theorem State.clearWindow_others (s : State) (core base units : Nat) : (s.clearWindow core base units).others = s.others := rfl
@[simp] theorem State.clearWindow_groups (s : State) (core base units : Nat) : (s.clearWindow core base units).groups = s.groups := rfl

theorem State.clearWindow_sp (s : State) (core base units a : Nat) :
    (s.clearWindow core base units).sp.get a =
      if core * 2 ^ 19 + base * 8192 ≤ a ∧ a < core * 2 ^ 19 + (base + units) * 8192 then 0 else s.sp.get a :=
  Cells.get_clear ..

theorem State.clearWindow_banks {s : State} {core base units b : Nat} (hc : core < 192) (hb : b < 48) (hlo : base ≤ b) (hhi : b < base + units) :
    look ((s.clearWindow core base units).core core).banks b .full = .off := by
  unfold State.clearWindow
  rw [State.core_mapCore_same _ hc]
  simp [look, hb, hlo, hhi]

/-! ### Dispatch (R142, R164) -/

/-- A group as a dispatch of the grid starts it (R10, R142, R307). -/
def Group.AtStart (gr : Grid) (x : Group) : Prop :=
  x.status = .run ∧ x.handler = none ∧ x.running = false ∧ x.flags = 0 ∧
    x.level = (if gr.ctx = 0 then .mach else if gr.sup then .super else .user) ∧
    x.s.pc = gr.launch.sbase + gr.launch.sentry.setWidth 64 ∧ (∀ i, i < 6 → look x.s.regs i 0 = look gr.launch.args i 0) ∧
    (∀ i, 6 ≤ i → i < 96 → look x.s.regs i 0 = 0) ∧ x.l.life = Vector.replicate 256 .dead ∧ x.l.live = BitVec.allOnes 128

theorem startGroup_regs (gr : Grid) (uid team rank : Nat) (x : Nat × Nat × Nat) {i : Nat} (hi : i < 96) :
    look (startGroup gr uid team rank x).s.regs i 0 = if i < 6 then look gr.launch.args i 0 else 0 := by
  refine (look_foldl_put _ _ _ hi _).trans ?_
  have hzero : look SState.start.regs i 0 = 0 := by simp [look, hi, SState.start]
  simp only [List.mem_range, hzero]

theorem startGroup_atStart (gr : Grid) (uid team rank : Nat) (x : Nat × Nat × Nat) : (startGroup gr uid team rank x).AtStart gr := by
  refine ⟨rfl, rfl, rfl, rfl, ?_, rfl, fun i hi => ?_, fun i hlo hhi => ?_, rfl, rfl⟩
  · show (if gr.ctx == 0 then Level.mach else _) = _
    simp only [beq_iff_eq]
  · rw [startGroup_regs _ _ _ _ _ (by omega), if_pos hi]
  · rw [startGroup_regs _ _ _ _ _ hhi, if_neg (by omega)]

/-- What the start of teams in their places does: each is added with its groups at their start, and the issuing group, the
gangs and memory stay. -/
structure State.Starts (gr : Grid) (gang : Nat) (ps : List Placed) (s t : State) : Prop where
  cur : t.cur = s.cur
  mem : t.mem = s.mem
  gangs : t.gangs = s.gangs
  teams : ∃ ts, t.teams = s.teams ++ ts ∧ ts.map Team.core = ps.map Placed.core ∧
    ∀ x ∈ ts, x.gang = gang ∧ x.ngroups = gr.launch.groups
  others : ∀ x ∈ t.others, x ∈ s.others ∨ x.AtStart gr

theorem State.startTeam_starts (s : State) (gr : Grid) (gang rank : Nat) (p : Placed) :
    State.Starts gr gang [p] s (s.startTeam gr gang rank p) where
  cur := rfl
  mem := rfl
  gangs := rfl
  teams := by
    refine ⟨[_], rfl, rfl, fun x hx => ?_⟩
    rw [List.mem_singleton.mp hx]
    exact ⟨rfl, rfl⟩
  others x hx := by
    refine (List.mem_append.mp hx).imp_right fun hx => ?_
    obtain ⟨y, -, rfl⟩ := List.mem_map.mp hx
    exact startGroup_atStart ..

theorem State.Starts.cons {gr : Grid} {gang : Nat} {p : Placed} {ps : List Placed} {s t u : State}
    (h : State.Starts gr gang [p] s t) (h' : State.Starts gr gang ps t u) : State.Starts gr gang (p :: ps) s u where
  cur := h'.cur.trans h.cur
  mem := h'.mem.trans h.mem
  gangs := h'.gangs.trans h.gangs
  teams := by
    obtain ⟨ts, hts, hcore, hof⟩ := h.teams
    obtain ⟨us, hus, hcore', hof'⟩ := h'.teams
    refine ⟨ts ++ us, by rw [hus, hts, List.append_assoc], by rw [List.map_append, hcore, hcore']; rfl, fun x hx => ?_⟩
    exact (List.mem_append.mp hx).elim (hof x) (hof' x)
  others x hx := (h'.others x hx).elim (h.others x) .inr

theorem foldl_startTeam (gr : Grid) (gang : Nat) (l : List (Placed × Nat)) (s : State) :
    State.Starts gr gang (l.map Prod.fst) s (l.foldl (fun s x => s.startTeam gr gang x.2 x.1) s) := by
  induction l generalizing s with
  | nil => exact ⟨rfl, rfl, rfl, ⟨[], by simp, rfl, by simp⟩, fun x hx => .inl hx⟩
  | cons x l ih => exact (s.startTeam_starts gr gang x.2 x.1).cons (ih _)

theorem foldl_startTeam_zipIdx (gr : Grid) (gang : Nat) (ps : List Placed) (s : State) :
    State.Starts gr gang ps s (ps.zipIdx.foldl (fun s x => s.startTeam gr gang x.2 x.1) s) := by
  simpa using foldl_startTeam gr gang ps.zipIdx s

/-- The gang that a dispatch adds. -/
def State.newGang (s : State) (gr : Grid) (part num pos cluster : Nat) (bar : Option Nat) : Gang :=
  ⟨s.nextId, gr.id, num, num % gr.launch.gx, num / gr.launch.gx % gr.launch.gy, num / (gr.launch.gx * gr.launch.gy), gr.launch.teams,
    cluster, (s.drawTicket part).1, bar, [], pos, false⟩

/-- The state in which the teams of a new gang start. -/
def State.withGang (s : State) (gr : Grid) (part num pos cluster : Nat) (bar : Option Nat) : State :=
  { (s.drawTicket part).2 with nextId := s.nextId + 1, gangs := s.gangs ++ [s.newGang gr part num pos cluster bar] }

theorem exec_gangDispatch {s : State} {part num pos cluster : Nat} {gr : Grid} {bar : Option Nat} {ps : List Placed}
    (h : (s.pendingGrids part).findSome? (fun gr => (s.placeGang gr part).map fun x => (gr, x)) = some (gr, num, pos, cluster, bar, ps))
    (hlast : gr.next + 1 ≠ gr.launch.gx * gr.launch.gy * gr.launch.gz) :
    exec (.gangDispatch part) s =
      .next ((ps.zipIdx.foldl (fun t x => t.startTeam gr (s.newGang gr part num pos cluster bar).id x.2 x.1)
        (s.withGang gr part num pos cluster bar)).mapGrid
        gr.id fun x => { x with next := x.next + 1, pending := true }) := by
  show execGangDispatch part s = _
  unfold execGangDispatch
  rw [h]
  refine congrArg Host.Outcome.next ?_
  show s.dispatchGang gr part num pos cluster bar ps = _
  unfold State.dispatchGang
  simp only [beq_eq_false_iff_ne.mpr hlast]
  exact if_neg Bool.false_ne_true

/-! ### Tickets (R153) -/

/-- The next ticket is usable as soon as one of those that the search reaches is. -/
theorem nextTicket_usable (live : List Word32) (fuel : Nat) (t : Word32)
    (h : ∃ k, k < fuel ∧ t + BitVec.ofNat 32 (k + 1) ≠ 0 ∧ t + BitVec.ofNat 32 (k + 1) ∉ live) :
    nextTicket live fuel t ≠ 0 ∧ nextTicket live fuel t ∉ live := by
  induction fuel generalizing t with
  | zero =>
    obtain ⟨k, hk, -⟩ := h
    omega
  | succ n ih =>
    unfold nextTicket
    by_cases hu : t + 1 = 0 ∨ t + 1 ∈ live
    · rw [if_pos (by simpa using hu)]
      obtain ⟨k, hk, hne, hnot⟩ := h
      cases k with
      | zero => exact absurd hu (not_or.mpr ⟨hne, hnot⟩)
      | succ k =>
        have hstep : t + 1 + BitVec.ofNat 32 (k + 1) = t + BitVec.ofNat 32 (k + 1 + 1) := by
          rw [BitVec.add_assoc, BitVec.add_comm 1]
          exact congrArg _ (BitVec.ofNat_add ..).symm
        exact ih _ ⟨k, by omega, hstep ▸ hne, hstep ▸ hnot⟩
    · rw [if_neg (by simpa using hu)]
      exact not_or.mp hu

/-- Of the n + 2 tickets past t, all different, n live ones and 0 leave one. -/
theorem exists_usable (live : List Word32) (t : Word32) (h : live.length < 2 ^ 20) :
    ∃ k, k < live.length + 2 ∧ t + BitVec.ofNat 32 (k + 1) ≠ 0 ∧ t + BitVec.ofNat 32 (k + 1) ∉ live := by
  by_contra hall
  push Not at hall
  let reached := (List.range (live.length + 2)).map fun k => t + BitVec.ofNat 32 (k + 1)
  have hnodup : reached.Nodup := by
    refine (List.nodup_map_iff_inj_on List.nodup_range).mpr fun i hi j hj hij => ?_
    rw [List.mem_range] at hi hj
    have := congrArg BitVec.toNat ((BitVec.add_right_inj t).mp hij)
    simp only [BitVec.toNat_ofNat] at this
    omega
  have hsub : reached ⊆ 0 :: live := fun x hx => by
    obtain ⟨k, hk, rfl⟩ := List.mem_map.mp hx
    rw [List.mem_range] at hk
    by_cases hz : t + BitVec.ofNat 32 (k + 1) = 0
    · exact hz ▸ List.mem_cons_self
    · exact List.mem_cons_of_mem _ (hall k hk hz)
  have := (List.subperm_of_subset hnodup hsub).length_le
  simp [reached] at this

theorem State.drawTicket_fresh (s : State) (part : Nat) (h : s.gangs.length < 2 ^ 20) :
    (s.drawTicket part).1 ≠ 0 ∧ ∀ g ∈ s.gangs, s.partOfGang g = part → g.ticket ≠ (s.drawTicket part).1 := by
  let live := (s.gangs.filter fun g => s.partOfGang g == part).map Gang.ticket
  have hlen : live.length < 2 ^ 20 := by
    have := List.length_filter_le (fun g => s.partOfGang g == part) s.gangs
    simp only [live, List.length_map]
    omega
  obtain ⟨hne, hnot⟩ := nextTicket_usable live _ _ (exists_usable live (s.part part).tickets hlen)
  refine ⟨hne, fun g hg hpart heq => hnot ?_⟩
  exact List.mem_map.mpr ⟨g, List.mem_filter.mpr ⟨hg, beq_iff_eq.mpr hpart⟩, heq⟩

/-! ### The end of a team (R155, R187) -/

/-- What frees a gang changes the gangs and the grids alone. -/
structure State.SameButGangs (s t : State) : Prop where
  teams : t.teams = s.teams
  groups : t.groups = s.groups
  mem : t.mem = s.mem
  sp : t.sp = s.sp
  cores : t.cores = s.cores

theorem State.SameButGangs.refl (s : State) : s.SameButGangs s := ⟨rfl, rfl, rfl, rfl, rfl⟩

theorem State.SameButGangs.trans {s t u : State} (h : s.SameButGangs t) (h' : t.SameButGangs u) : s.SameButGangs u :=
  ⟨h'.teams.trans h.teams, h'.groups.trans h.groups, h'.mem.trans h.mem, h'.sp.trans h.sp, h'.cores.trans h.cores⟩

theorem State.retireGang_same (s : State) (g : Gang) : s.SameButGangs (s.retireGang g) := ⟨rfl, rfl, rfl, rfl, rfl⟩

theorem State.retireFreed_same (grid fuel : Nat) (s : State) : s.SameButGangs (State.retireFreed grid fuel s) := by
  induction fuel generalizing s with
  | zero => exact .refl s
  | succ n ih =>
    unfold State.retireFreed
    split
    · exact .refl s
    · split
      · exact .refl s
      · exact (s.retireGang_same _).trans (ih _)

theorem State.freeGang_same (s : State) (gang : Nat) : s.SameButGangs (s.freeGang gang) := by
  unfold State.freeGang
  split
  · exact .refl s
  · split
    · exact .refl s
    · split
      · exact s.retireGang_same _
      · exact State.SameButGangs.trans (t := s.mapGang _ _) ⟨rfl, rfl, rfl, rfl, rfl⟩ (State.retireFreed_same ..)

theorem find?_uid_of_nodup {l : List Group} (hn : (l.map Group.uid).Nodup) {g : Group} (hg : g ∈ l) :
    l.find? (fun x => x.uid == g.uid) = some g := by
  obtain ⟨x, hx⟩ : ∃ x, l.find? (fun x => x.uid == g.uid) = some x :=
    Option.isSome_iff_exists.mp (List.find?_isSome.mpr ⟨g, hg, beq_iff_eq.mpr rfl⟩)
  have huid : x.uid = g.uid := by simpa using List.find?_some hx
  rw [hx, List.inj_on_of_nodup_map hn (List.mem_of_find?_eq_some hx) hg huid]

theorem State.focus_other {s : State} (hn : (s.groups.map Group.uid).Nodup) {g : Group} (hg : g ∈ s.others) :
    (s.focus g.uid).cur = g := by
  obtain ⟨hcur, hothers⟩ := List.nodup_cons.mp hn
  have hne : s.cur.uid ≠ g.uid := fun h => hcur (h ▸ List.mem_map_of_mem hg)
  unfold State.focus
  rw [if_neg (by simpa using hne), find?_uid_of_nodup hothers hg]

/-- What the device does when it steps out of a team: its groups are gone. -/
theorem State.leaveTeam_groups {s : State} {team : Nat} (hn : (s.groups.map Group.uid).Nodup) (h : ∃ g ∈ s.others, g.team ≠ team) :
    ∀ g ∈ (s.leaveTeam team).groups, g.team ≠ team := by
  have hothers : ∀ g ∈ (s.leaveTeam team).others, g.team ≠ team := fun g hg => by
    simpa using (List.mem_filter.mp hg).2
  have hcur : (s.leaveTeam team).cur.team ≠ team := by
    unfold State.leaveTeam
    by_cases hc : s.cur.team = team
    · rw [if_pos (by simpa using hc)]
      obtain ⟨g, hfind⟩ : ∃ g, s.others.find? (fun g => g.team != team) = some g :=
        Option.isSome_iff_exists.mp (List.find?_isSome.mpr (by simpa using h))
      rw [hfind]
      show (s.focus g.uid).cur.team ≠ team
      rw [State.focus_other hn (List.mem_of_find?_eq_some hfind)]
      simpa using List.find?_some hfind
    · rw [if_neg (by simpa using hc)]
      exact hc
  exact List.forall_mem_cons.mpr ⟨hcur, hothers⟩

theorem State.leaveTeam_same (s : State) (team : Nat) :
    (s.leaveTeam team).teams = s.teams ∧ (s.leaveTeam team).mem = s.mem ∧ (s.leaveTeam team).sp = s.sp ∧
      (s.leaveTeam team).cores = s.cores := by
  unfold State.leaveTeam State.focus
  split
  · split
    · split
      · exact ⟨rfl, rfl, rfl, rfl⟩
      · split <;> exact ⟨rfl, rfl, rfl, rfl⟩
    · exact ⟨rfl, rfl, rfl, rfl⟩
  · exact ⟨rfl, rfl, rfl, rfl⟩

/-- The state without a team among its teams, and its PENDING move cancelled. -/
def State.dropTeam (s : State) (id : Nat) : State :=
  { s with
    teams := s.teams.filter fun x => x.id != id
    dev := if s.dev.tmig == .pending && s.dev.tteam == id then { s.dev with tmig := .cancelled } else s.dev }

theorem State.freeTeam_eq (s : State) (t : Team) :
    s.freeTeam t = ((((s.dropTeam t.id).leaveTeam t.id).clearWindow t.core t.base t.units).freeSteps t.id).freeGang t.gang := by
  unfold State.freeTeam State.dropTeam
  split <;> rfl

/-- The freed steps of a team leave the banks of every core as they are. -/
theorem State.freeSteps_banks (s : State) (team : Nat) {c : Nat} (hc : c < 192) : ((s.freeSteps team).core c).banks = (s.core c).banks := by
  unfold State.freeSteps State.core
  rw [look_map _ _ _ _ _ hc]

theorem exec_teamFree {s : State} {tm : Team} (htm : s.team? tm.id = some tm) (hdone : s.teamDone tm = true) (hgang : tm.gang ≠ 0) :
    exec (.teamFree tm.id) s = .next (s.freeTeam tm) := by
  show execTeamFree tm.id s = _
  unfold execTeamFree
  rw [htm]
  simp [hdone, hgang]

theorem State.freeTeam_frees {s : State} {tm : Team} (hother : ∃ g ∈ s.others, g.team ≠ tm.id) (hn : (s.groups.map Group.uid).Nodup)
    (hcore : tm.core < 192) :
    (s.freeTeam tm).teams = s.teams.filter (fun x => x.id ≠ tm.id) ∧ (∀ g ∈ (s.freeTeam tm).groups, g.team ≠ tm.id) ∧
      (s.freeTeam tm).mem = s.mem ∧
      (∀ a, (s.freeTeam tm).sp.get a =
        if tm.core * 2 ^ 19 + tm.base * 8192 ≤ a ∧ a < tm.core * 2 ^ 19 + (tm.base + tm.units) * 8192 then 0 else s.sp.get a) ∧
      (∀ b, b < 48 → tm.base ≤ b → b < tm.base + tm.units → look ((s.freeTeam tm).core tm.core).banks b .full = .off) := by
  have hgroups := State.leaveTeam_groups (s := s.dropTeam tm.id) (team := tm.id) hn hother
  obtain ⟨hteams, hmem, hsp, -⟩ := (s.dropTeam tm.id).leaveTeam_same tm.id
  rw [s.freeTeam_eq]
  obtain ⟨hteams', hgroups', hmem', hsp', hcores'⟩ :=
    State.freeGang_same ((((s.dropTeam tm.id).leaveTeam tm.id).clearWindow tm.core tm.base tm.units).freeSteps tm.id) tm.gang
  refine ⟨?_, ?_, hmem'.trans hmem, fun a => ?_, fun b hb hlo hhi => ?_⟩
  · refine (hteams'.trans hteams).trans (List.filter_congr fun x _ => ?_)
    exact Bool.eq_iff_iff.mpr (by simp)
  · rw [hgroups']
    exact hgroups
  · rw [hsp']
    refine (State.clearWindow_sp ..).trans ?_
    rw [hsp]
    rfl
  · unfold State.core
    rw [hcores']
    refine (congrArg (look · b .full) (State.freeSteps_banks _ _ hcore)).trans ?_
    exact State.clearWindow_banks hcore hb hlo hhi

/-! ### The end of a grid (R147) -/

theorem exec_gridRetire {s : State} {gr : Grid} (hgr : s.grid? gr.id = some gr) (hdone : s.gridDone gr = true) (hid : gr.id ≠ 0) :
    exec (.gridRetire gr.id) s =
      .next { s.writeCompletion gr with grids := (s.writeCompletion gr).grids.filter fun x => x.id != gr.id } := by
  show execGridRetire gr.id s = _
  unfold execGridRetire
  rw [hgr]
  simp [hdone, hid]

theorem State.writeCompletion_none {s : State} {gr : Grid} (h : gr.launch.cword = 0) : s.writeCompletion gr = s := by
  unfold State.writeCompletion
  split
  · rfl
  · simp [h]

/-- The completion word of an ending as a number. -/
def Ending.number (e : Ending) : Nat :=
  e.outcome.toNat + 2 ^ 8 * e.code.toNat + 2 ^ 16 * (e.rank % 16) + 2 ^ 20 * (e.tid % 4) + 2 ^ 24 * (e.gang % 2 ^ 20)

theorem Ending.toNat_word (e : Ending) : e.word.toNat = e.number := by
  refine (BitVec.toNat_ofNat ..).trans (Nat.mod_eq_of_lt ?_)
  have := e.outcome.isLt
  have := e.code.isLt
  show _ + _ + _ + _ + _ < _
  omega

theorem State.writeCompletion_stores {s u v : State} {gr : Grid} {c : Ctx} {pa : Nat} (hword : gr.launch.cword ≠ 0) (hc : s.ctx? gr.ctx = some c)
    (hpa : s.ctxPa (48 * gr.quad) c (if gr.sup then .super else .user) .write gr.launch.cword = ⟨.inr pa, v⟩)
    (hlock : v.globalLocked c.id gr.launch.cword 8 = false)
    (hw : v.ctxWrite (48 * gr.quad) c (if gr.sup then .super else .user) gr.launch.cword
      (bytesOf 8 (gr.ending.getD ⟨0, 0, 0, 0, 0⟩).number) = (none, u)) :
    s.writeCompletion gr = u := by
  unfold State.writeCompletion
  simp only [hc, beq_iff_eq, hword, if_false, hpa, hlock, Ending.toNat_word, hw, Bool.false_eq_true]

/-! ### Root grids (R145) -/

theorem State.id_of_ctx? {s : State} {id : Nat} {c : Ctx} (h : s.ctx? id = some c) : c.id = id :=
  beq_iff_eq.mp (List.find?_some (p := fun c : Ctx => c.id == id) h)

theorem State.startCtx_ctxs {s : State} {c : Ctx} (h : c.unstarted = true) : ∀ x ∈ (s.startCtx c).ctxs, x.id = c.id → x.st = .run := by
  unfold State.startCtx
  rw [if_pos h]
  intro x hx hid
  obtain ⟨y, -, rfl⟩ := List.mem_map.mp hx
  by_cases hy : y.id = c.id
  · simp [hy]
  · simp [hy] at hid

theorem State.startCtx_grids (s : State) (c : Ctx) : (s.startCtx c).grids = s.grids := by
  unfold State.startCtx
  split <;> rfl

theorem State.startCtx_mem (s : State) (c : Ctx) : (s.startCtx c).mem = s.mem := by
  unfold State.startCtx
  split <;> rfl

theorem exec_rootGridSubmit {r : RootGrid} {c : Ctx} {x y : List Byte} {s u v : State} (hc : s.ctx? r.ctx = some c) (hfn : r.fn = 0)
    (hsrc : r.src = 256 ∨ r.src = 281) (hst : c.st ≠ .empty ∨ c.unstarted = true) (hquad : r.quad < 4) (hroom : s.pendingIn r.quad < 64)
    (haddr : r.addr.toNat % 128 = 0) (hx : s.ctxRead (48 * r.quad) c .super .read r.addr 64 = (.inr x, u))
    (hy : u.ctxRead (48 * r.quad) c .super .read (r.addr + 64) 64 = (.inr y, v)) (hv : v.launchValid c (x ++ y) = true) :
    exec (.rootGridSubmit r) s = .next ((v.startCtx c).enqueue c.id (launchOf (x ++ y)) none 1 r.quad r.src r.sup) := by
  show execRootGridSubmit r s = _
  have hgo : (r.fn != 0 || (r.src != 256 && r.src != 281) || (c.st == .empty && !c.unstarted) || 4 ≤ r.quad || 64 ≤ s.pendingIn r.quad ||
      r.addr.toNat % 128 != 0) = false := by
    have hsrc' : (r.src != 256 && r.src != 281) = false := by
      rcases hsrc with h | h <;> simp [h]
    have hst' : (c.st == .empty && !c.unstarted) = false := by
      rcases hst with h | h <;> simp [h]
    simp [hfn, hsrc', hst', haddr, hquad, hroom]
  unfold execRootGridSubmit
  simp only [hc, hgo, hx, hy, hv, if_true, Bool.false_eq_true, if_false]

theorem State.enqueue_started {s : State} {c : Ctx} (h : ∀ x ∈ s.ctxs, x.id = c.id → x.st = .run) (rec : LaunchRec)
    (quad src : Nat) (sup : Bool) :
    ∀ x ∈ (s.enqueue c.id rec none 1 quad src sup).ctxs, x.id = c.id → x.st = .run := by
  intro x hx hid
  obtain ⟨y, hy, rfl⟩ := List.mem_map.mp hx
  by_cases hyc : y.id = c.id
  · simpa [hyc] using h y hy hyc
  · simp [hyc] at hid

/-! ### The statement -/

/-- Settles O40: the places of a gang one by one, the end of a team, of a grid and of its word, the entry of a root grid, and the
tickets past those of the live gangs. -/
theorem launchEventsMoveGridsOn : Obligations.LaunchEventsMoveGridsOn := by
  unfold Obligations.LaunchEventsMoveGridsOn
  refine ⟨fun s => ⟨?dispatch, ?teamFree, ?retire, ?completion, ?root⟩, State.drawTicket_fresh⟩
  case dispatch =>
    intro part gr num pos cluster bar ps hplace hlast
    have h := foldl_startTeam_zipIdx gr (s.newGang gr part num pos cluster bar).id ps (s.withGang gr part num pos cluster bar)
    obtain ⟨ts, hteams, hcore, hof⟩ := h.teams
    exact ⟨_, s.newGang gr part num pos cluster bar, ts, exec_gangDispatch hplace hlast, h.gangs, rfl, rfl, rfl, rfl, rfl, rfl, rfl, rfl,
      hteams, hcore, hof, h.others, h.cur, h.mem⟩
  case teamFree =>
    intro tm htm hdone hgang hother hn hcore
    exact ⟨_, exec_teamFree htm hdone hgang, State.freeTeam_frees hother hn hcore⟩
  case retire =>
    intro gr hgr hdone hid hword
    rw [exec_gridRetire hgr hdone hid, State.writeCompletion_none hword]
  case completion =>
    intro gr c pa v u hgr hdone hid hword hc hpa hlock e w hw
    rw [exec_gridRetire hgr hdone hid, State.writeCompletion_stores hword hc hpa hlock hw]
  case root =>
    intro r c x y u v hc hfn hsrc hst hquad hroom haddr hx hy hv
    refine ⟨_, _, exec_rootGridSubmit hc hfn hsrc hst hquad hroom haddr hx hy hv, congrArg (· ++ [_]) (v.startCtx_grids c), rfl, rfl, rfl,
      rfl, rfl, rfl, rfl, rfl, fun hun => State.enqueue_started (State.startCtx_ctxs hun) _ _ _ _, fun pa => ?_⟩
    exact congrArg (Cells.get · pa) (v.startCtx_mem c)

end Sys2Proof.Machine
end

section
/-! Accesses of the L-stream to global memory: the checks of their lanes, their issue, and their stop (R118 to R120, R193 to R195, R250). -/

namespace Sys2Proof.Machine

/-! ### Lanes in order -/

theorem lanesOf_lt {m : Mask} {i : Nat} (h : i ∈ lanesOf m) : i < 128 := (mem_lanesOf.mp h).1

theorem lanesOf_pairwise (m : Mask) : (lanesOf m).Pairwise (· < ·) := List.pairwise_lt_range.filter _

theorem lanesOf_ne_nil {m : Mask} (h : m ≠ 0) : lanesOf m ≠ [] := fun hnil => h <| mask_ext fun i hi => by
  have hnot : i ∉ lanesOf m := by simp [hnil]
  rw [mem_lanesOf] at hnot
  simpa [hi] using hnot

/-- Looking for the lanes in their order gives back what rises by its lanes. -/
theorem filterMap_find?_lane (n : Nat) (k : Nat) (l : List LaneFault) (hl : (l.map LaneFault.lane).Pairwise (· < ·))
    (hlo : ∀ f ∈ l, k ≤ f.lane) (hhi : ∀ f ∈ l, f.lane < k + n) :
    (List.range' k n).filterMap (fun i => l.find? fun f => f.lane == i) = l := by
  induction n generalizing k l with
  | zero =>
    cases l with
    | nil => rfl
    | cons f l =>
      have := hlo f List.mem_cons_self
      have := hhi f List.mem_cons_self
      omega
  | succ n ih =>
    rw [List.range'_succ]
    cases l with
    | nil => simp
    | cons f l =>
      obtain ⟨hf, hl'⟩ := List.pairwise_cons.mp hl
      have hgt : ∀ x ∈ l, f.lane < x.lane := fun x hx => hf _ (List.mem_map_of_mem hx)
      have hk := hlo f List.mem_cons_self
      by_cases hfk : f.lane = k
      · have hrest : ((List.range' (k + 1) n).filterMap fun i => (f :: l).find? fun f => f.lane == i) = l := by
          refine (List.filterMap_congr fun i hi => ?_).trans (ih (k + 1) l hl' (fun x hx => ?_) fun x hx => ?_)
          · have := List.mem_range'_1.mp hi
            exact List.find?_cons_of_neg (by simp; omega)
          · have := hgt x hx
            omega
          · have := hhi x (List.mem_cons_of_mem _ hx)
            omega
        rw [List.filterMap_cons_some (b := f) (by simp [hfk]), hrest]
      · have hall : ∀ x ∈ f :: l, k + 1 ≤ x.lane := fun x hx => by
          rcases List.mem_cons.mp hx with rfl | hx
          · omega
          · have := hgt x hx; omega
        rw [List.filterMap_cons_none]
        · exact ih (k + 1) (f :: l) hl hall fun x hx => by have := hhi x hx; omega
        · exact List.find?_eq_none.mpr fun x hx => by have := hall x hx; simp; omega

/-! ### The checks of the lanes (R193) -/

/-- A request without its physical address. -/
def Req.unplaced (r : Req) : Req := { r with pa := 0 }

/-- The check of one lane. -/
def LaneChecks.check (kind : AccessKind) (c : LaneChecks) (r : Req) : LaneChecks :=
  let t := c.st.checkGlobal kind r.va r.size
  match t.res with
  | .inl f => { c with st := t.st, fails := c.fails ++ [⟨r.lane, f⟩] }
  | .inr pa => { c with st := t.st, reqs := c.reqs ++ [{ r with pa := pa }] }

theorem State.checkLanes_eq (s : State) (kind : AccessKind) (rs : List Req) :
    s.checkLanes kind rs = rs.foldl (LaneChecks.check kind) ⟨s, [], [], false⟩ := rfl

/-- What the checks of some lanes add: each goes on or fails, in order. -/
structure LaneChecks.Adds (rs : List Req) (c d : LaneChecks) : Prop where
  reqs : (d.reqs.map Req.unplaced).Sublist (c.reqs.map Req.unplaced ++ rs.map Req.unplaced)
  fails : (d.fails.map LaneFault.lane).Sublist (c.fails.map LaneFault.lane ++ rs.map Req.lane)
  all : d.reqs.length + d.fails.length = c.reqs.length + c.fails.length + rs.length

theorem LaneChecks.check_adds (kind : AccessKind) (c : LaneChecks) (r : Req) : LaneChecks.Adds [r] c (c.check kind r) := by
  unfold LaneChecks.check
  dsimp only
  split
  · refine ⟨List.sublist_append_left .., ?_, ?_⟩
    · simp
    · simp [Nat.add_assoc]
  · refine ⟨?_, List.sublist_append_left .., ?_⟩
    · simp [Req.unplaced]
    · simp; omega

theorem LaneChecks.foldl_check_adds (kind : AccessKind) (rs : List Req) (c : LaneChecks) :
    LaneChecks.Adds rs c (rs.foldl (LaneChecks.check kind) c) := by
  induction rs generalizing c with
  | nil => exact ⟨by simp, by simp, rfl⟩
  | cons r rs ih =>
    have h := c.check_adds kind r
    have h' := ih (c.check kind r)
    refine ⟨h'.reqs.trans ?_, h'.fails.trans ?_, ?_⟩
    · simpa using h.reqs.append_right (rs.map Req.unplaced)
    · simpa using h.fails.append_right (rs.map Req.lane)
    · have := h.all
      have := h'.all
      simp only [List.foldl_cons, List.length_cons, List.length_nil] at *
      omega

section
variable {s v : State} {kind : AccessKind} {rs qs : List Req} {fs : List LaneFault} {w : Bool} (h : s.checkLanes kind rs = ⟨v, qs, fs, w⟩)
include h

theorem State.checkLanes_adds : LaneChecks.Adds rs ⟨s, [], [], false⟩ ⟨v, qs, fs, w⟩ :=
  h ▸ s.checkLanes_eq kind rs ▸ LaneChecks.foldl_check_adds kind rs _

/-- Where no lane fails, each goes on. -/
theorem State.checkLanes_pass (hfs : fs = []) : qs.map Req.unplaced = rs.map Req.unplaced := by
  subst hfs
  have ha := State.checkLanes_adds h
  refine (ha.reqs.trans (by simp)).eq_of_length ?_
  simpa using ha.all

/-- A lane that goes on is one of those checked. -/
theorem State.checkLanes_req {q : Req} (hq : q ∈ qs) : ∃ r ∈ rs, r.unplaced = q.unplaced := by
  have := (State.checkLanes_adds h).reqs.subset (List.mem_map_of_mem hq)
  simpa using this

theorem State.checkLanes_fails : (fs.map LaneFault.lane).Sublist (rs.map Req.lane) := by
  simpa using (State.checkLanes_adds h).fails

end

/-- The checks answer no lane. -/
theorem State.checkLanes_unknown {s v : State} {kind : AccessKind} {rs qs : List Req} {fs : List LaneFault} {w : Bool}
    (h : s.checkLanes kind rs = ⟨v, qs, fs, w⟩) (hrs : ∀ r ∈ rs, r.ans = none ∧ r.err = none) :
    ∀ q ∈ qs, q.ans = none ∧ q.err = none := by
  intro q hq
  obtain ⟨r, hr, hrq⟩ := State.checkLanes_req h hq
  obtain ⟨hans, herr⟩ := hrs r hr
  exact ⟨(congrArg Req.ans hrq).symm.trans hans, (congrArg Req.err hrq).symm.trans herr⟩

theorem Req.known_eq_false {r : Req} (h : r.ans = none ∧ r.err = none) : r.known = false := by
  simp [Req.known, h.1, h.2]

/-- The requests of some lanes to global memory. -/
def laneReqs (m : Mask) (addr : Nat → Word) (n : Nat) (data cmp : Nat → Word) : List Req :=
  (lanesOf m).map fun i => reqOf i (addr i) 0 n (data i) (cmp i)

section
variable (m : Mask) (addr : Nat → Word) (n : Nat) (data cmp : Nat → Word)

theorem laneReqs_unknown : ∀ r ∈ laneReqs m addr n data cmp, r.ans = none ∧ r.err = none := by
  intro r hr
  obtain ⟨i, -, rfl⟩ := List.mem_map.mp hr
  exact ⟨rfl, rfl⟩

theorem laneReqs_unplaced : (laneReqs m addr n data cmp).map Req.unplaced = laneReqs m addr n data cmp := by
  unfold laneReqs
  rw [List.map_map]
  rfl

theorem laneReqs_lane : (laneReqs m addr n data cmp).map Req.lane = lanesOf m := by
  unfold laneReqs
  rw [List.map_map]
  exact List.map_id _

end

/-! ### An access in flight (R194, R196, R221) -/

/-- An access in flight, and a fence, once later lanes of its path have done something that follows it (R221, R230). -/
def Group.grown (g : Group) (m : Mask) (a : Access) : Access := if a.l && g.before true m a then { a with path := a.path ||| m } else a
def FenceMark.grown (m : Mask) (f : FenceMark) : FenceMark := if f.l && f.mask &&& m != 0 then { f with mask := f.mask ||| m } else f

theorem Group.grow_eq (g : Group) (m : Mask) :
    g.grow m = { g with accs := g.accs.map (g.grown m), fences := g.fences.map (FenceMark.grown m) } := rfl

theorem or_or_self (x m : Mask) : x ||| m ||| m = x ||| m := by rw [BitVec.or_assoc, BitVec.or_self]

theorem Group.grown_grown (g : Group) (m : Mask) (a : Access) : g.grown m (g.grown m a) = g.grown m a := by
  by_cases h : (a.l && g.before true m a) = true
  · have hg : g.grown m a = { a with path := a.path ||| m } := if_pos h
    rw [hg]
    unfold Group.grown
    simp only [or_or_self, ite_self]
  · have hg : g.grown m a = a := if_neg h
    rw [hg, hg]

theorem FenceMark.grown_grown (m : Mask) (f : FenceMark) : (f.grown m).grown m = f.grown m := by
  by_cases h : (f.l && f.mask &&& m != 0) = true
  · have hg : f.grown m = { f with mask := f.mask ||| m } := if_pos h
    rw [hg]
    unfold FenceMark.grown
    simp only [or_or_self, ite_self]
  · have hg : f.grown m = f := if_neg h
    rw [hg, hg]

/-- What a path's lanes reach, they reach once (R221). -/
theorem Group.grow_grow (g : Group) (m : Mask) : (g.grow m).grow m = g.grow m := by
  have haccs : (g.accs.map (g.grown m)).map (g.grown m) = g.accs.map (g.grown m) := by
    rw [List.map_map]
    exact List.map_congr_left fun a _ => g.grown_grown m a
  have hfences : (g.fences.map (FenceMark.grown m)).map (FenceMark.grown m) = g.fences.map (FenceMark.grown m) := by
    rw [List.map_map]
    exact List.map_congr_left fun f _ => f.grown_grown m
  calc (g.grow m).grow m
      = { g with accs := (g.accs.map (g.grown m)).map (g.grown m)
                 fences := (g.fences.map (FenceMark.grown m)).map (FenceMark.grown m) } := rfl
    _ = g.grow m := by rw [haccs, hfences]; rfl

/-- An access of the L-stream as it stands in the group's order once it is issued. -/
def Group.numbered (g : Group) (a : Access) : Access :=
  { a with
    seq := g.seq
    prior := (g.accs.filter (g.before a.l a.path)).map Access.seq
    needs := g.needsOf a.l a.path a.kind.writes a.ord a.scope
    cumul := g.cumulOf a.l a.path a.kind.writes a.ord a.scope }

theorem Group.push_eq (g : Group) {a : Access} (cs : List Counter) (hl : a.l = true) :
    g.push a cs = { g with
      accs := (g.grow a.path).accs ++ [g.numbered a], fences := (g.grow a.path).fences, seq := g.seq + 1
      tokens := g.tokens ++ cs.map fun c => ⟨c, g.seq, false⟩ } := by
  unfold Group.push
  rw [if_pos hl]
  rfl

/-! ### The destination of a load (R18, R19) -/

theorem Group.regsFrom_vwrite (g : Group) (r : BitVec 8) (m : Mask) (v : VReg) : g.RegsFrom (g.vwrite r m v) :=
  (g.regsFrom_vput r _).trans (Group.livesFrom_setLife _ _ _).regs

/-- The group `g'` is `g` with registers `ds` written, and no other register, no predicate and no k register changed. -/
structure Group.Touched (ds : List (BitVec 8)) (g g' : Group) : Prop where
  regs : g.RegsFrom g'
  preds : g'.l.preds = g.l.preds
  k : g'.l.k = g.l.k
  others : ∀ r, r ∉ ds → g'.vget r = g.vget r ∧ g'.vlife r = g.vlife r
  live : ∀ r ∈ ds, g'.vlife r = .live

theorem Group.Touched.refl (g : Group) : Group.Touched [] g g := ⟨.refl g, rfl, rfl, fun _ _ => ⟨rfl, rfl⟩, by simp⟩

theorem Group.touched_vwrite (g : Group) (r : BitVec 8) (m : Mask) (v : VReg) : Group.Touched [r] g (g.vwrite r m v) where
  regs := g.regsFrom_vwrite r m v
  preds := ((Group.livesFrom_setLife _ _ _).preds).trans (Group.preds_vput ..)
  k := ((Group.livesFrom_setLife _ _ _).k).trans (Group.k_vput ..)
  others q hq := by
    have hne : q ≠ r := by simpa using hq
    exact ⟨(Group.vget_setLife ..).trans (Group.vget_vput_ne _ _ hne), (Group.vlife_setLife_ne _ _ hne).trans (Group.vlife_vput ..)⟩
  live q hq := by
    obtain rfl : q = r := by simpa using hq
    exact Group.vlife_setLife_same ..

theorem Group.Touched.cons {r : BitVec 8} {ds : List (BitVec 8)} {a b c : Group} (h : Group.Touched [r] a b) (h' : Group.Touched ds b c) :
    Group.Touched (r :: ds) a c where
  regs := h.regs.trans h'.regs
  preds := h'.preds.trans h.preds
  k := h'.k.trans h.k
  others q hq := by
    obtain ⟨hr, hds⟩ := not_or.mp (List.mem_cons.not.mp hq)
    obtain ⟨hv, hl⟩ := h.others q (by simpa using hr)
    obtain ⟨hv', hl'⟩ := h'.others q hds
    exact ⟨hv'.trans hv, hl'.trans hl⟩
  live q hq := by
    by_cases hds : q ∈ ds
    · exact h'.live q hds
    · rw [(h'.others q hds).2]
      exact h.live q (by simpa [hds] using hq)

theorem Group.touched_foldl_vwrite {α : Type} (f : α → BitVec 8) (l : List α) (g : Group) :
    Group.Touched (l.map f) g (l.foldl (fun g i => g.vwrite (f i) 0 (Vector.replicate 128 0)) g) := by
  induction l generalizing g with
  | nil => exact .refl g
  | cons i l ih => exact (g.touched_vwrite (f i) _ _).cons (ih _)

/-! ### Operands of lane accesses (R64, R118, R205) -/

theorem Group.memBase_eq (s : State) (o : LOp) (vs : List Word) :
    s.cur.memBase o vs = laneAddress s { o with mods := 0 } vs 0 := by
  have hindex : (0 : BitVec 6).getLsbD 2 = false := by decide
  unfold Group.memBase Group.c64 laneAddress
  simp only [beq_iff_eq, hindex, Bool.false_eq_true, if_false]
  exact (BitVec.add_zero _).symm

theorem Group.laneAddr_eq (s : State) (o : LOp) (vs : List Word) (i : Nat) : s.cur.laneAddr o vs i = laneAddress s o vs i := by
  unfold Group.laneAddr Group.memBase Group.c64 laneAddress
  simp only [beq_iff_eq, modField_eq]
  rfl

theorem memSize_eq (o : LOp) : memSize o = laneSize o := by
  unfold memSize laneSize
  rw [modField_eq]
  generalize o.mods.extractLsb' 3 3 = m
  revert m
  decide

theorem laneOrder_eq (o : LOp) :
    laneOrder o = if o.rnd = 0 then .rlx else if o.rnd = 1 then .acq else if o.rnd = 2 then .rel else .acqrel := by
  unfold laneOrder
  generalize o.rnd = r
  revert r
  decide

theorem laneAtom_eq (o : LOp) : laneAtom o = .vatom (o.mods.extractLsb' 3 3) o.ty := by
  unfold laneAtom
  rw [modField_eq]
  exact congrArg (AccKind.vatom · o.ty) (BitVec.ofNat_toNat ..)

theorem modField_cas (o : LOp) : (modField o 3 3 == 2) = (o.mods.extractLsb' 3 3 == 2) := by
  rw [modField_eq]
  generalize o.mods.extractLsb' 3 3 = m
  revert m
  decide

theorem memUse_late (o : LOp) (data dest old free : Bool) : (memUse o data dest old free).late = false :=
  LUse.withC_late _ _

/-! ### Issue and replay (R250) -/

/-- The lanes a lane access acts on, and the values popped for it: those of its issue, or of the replay of its path. -/
def State.laneSel (s : State) (p : Path) (gd : Guard) (redo : Option Replay) : Mask :=
  match redo with
  | none => s.cur.selected p.mask gd
  | some r => r.mask &&& s.cur.l.live
def laneVals (vs : List Word) (redo : Option Replay) : List Word :=
  match redo with
  | none => vs
  | some r => r.popped.toList
def laneDone (redo : Option Replay) : Mask :=
  match redo with
  | none => 0
  | some r => r.done

/-- What a lane access uses of the queues and registers: a replay pops nothing. -/
def LUse.again (u : LUse) (redo : Option Replay) : LUse := { u with pops := if redo.isSome then 0 else u.pops }

section
variable {s : State} {redo : Option Replay} (hredo : s.cur.replay = redo) (hps : ∀ r, redo = some r → r.ps1 = s.ps1)
include hredo hps

theorem State.replaying_eq : s.replaying = redo := by
  unfold State.replaying
  rw [hredo]
  cases redo with
  | none => rfl
  | some r => simp [hps r rfl]

theorem State.doneBefore_eq : s.doneBefore = laneDone redo := by
  unfold State.doneBefore
  rw [State.replaying_eq hredo hps]
  cases redo <;> rfl

theorem State.memIssue_ready {o : LOp} {u : LUse} {p : Path} {vs : List Word} {g : Group} {body : LIn → State}
    (h : LReady s (u.again redo) p vs g) (hl : u.late = false) :
    s.memIssue o u body =
      body ⟨{ s with cur := g.applyHints u.reads }, p.mask, s.laneSel p o.g redo, laneVals vs redo⟩ := by
  unfold State.memIssue
  rw [State.replaying_eq hredo hps]
  cases redo with
  | none => exact State.lIssue_ready (u := u.again none) h hl
  | some r =>
    refine (State.lIssue_ready (u := u.again (some r)) h hl).trans (congrArg body ?_)
    have hlive : (g.applyHints u.reads).l.live = s.cur.l.live := by
      rw [g.livesFrom_applyHints u.reads, Group.pops_got h.values]
    exact congrArg (fun m => LIn.mk { s with cur := g.applyHints u.reads } p.mask (r.mask &&& m) r.popped.toList) hlive

end

/-! ### A lane access that goes out, and one that stops (R119, R195, R250) -/

/-- The access after the checks of its lanes. -/
def Access.afterChecks (a : Access) (x : LIn) (qs : List Req) (fs : List LaneFault) (done : Mask) : Access :=
  { a with reqs := qs, fails := fs, sel := x.sel, popped := x.popped.head?, done := done }

/-- The group of a lane access that stops, but for the lanes it has completed: no hint applied, no replay, and the access in flight where
some lanes pass their checks. -/
def Group.stopped (g : Group) (l : LState) (a : Access) (cs : List Counter) : Group :=
  if a.reqs.isEmpty then { g with l := l, replay := none } else (Group.grow { g with l := l, replay := none } a.path).push a cs

theorem Group.stopped_nil (g : Group) (l : LState) {a : Access} (cs : List Counter) (h : a.reqs = []) :
    g.stopped l a cs = { g with l := l, replay := none } := if_pos (by rw [h]; rfl)

theorem Group.stopped_sent (g : Group) (l : LState) {a : Access} (cs : List Counter) (h : a.reqs ≠ []) (hl : a.l = true) :
    g.stopped l a cs = { g with
      l := l, replay := none, accs := (g.grow a.path).accs ++ [(Group.grow { g with l := l, replay := none } a.path).numbered a]
      fences := (g.grow a.path).fences, seq := g.seq + 1, tokens := g.tokens ++ cs.map fun c => ⟨c, g.seq, false⟩ } := by
  refine (if_neg (by simpa using h)).trans ?_
  rw [Group.push_eq _ _ hl, Group.grow_grow]
  rfl

theorem Group.stopped_eq (g : Group) (l : LState) {a : Access} (cs : List Counter) (hl : a.l = true) :
    g.stopped l a cs = { g with
      l := l, replay := none
      accs := (g.stopped l a cs).accs, fences := (g.stopped l a cs).fences, seq := (g.stopped l a cs).seq, tokens := (g.stopped l a cs).tokens } := by
  by_cases h : a.reqs = []
  · rw [g.stopped_nil l cs h]
  · rw [g.stopped_sent l cs h hl]

/-- Hints are not applied where the access stops. -/
theorem Group.LivesFrom.stopped {g g' : Group} (h : g.LivesFrom g') (l : LState) (a : Access) (cs : List Counter) :
    g'.stopped l a cs = g.stopped l a cs := by
  rw [h]
  rfl

section
variable {s v : State} {x : LIn} {qs : List Req} {fs : List LaneFault} {w : Bool} {a : Access} {cs : List Counter}
  (hun : ∀ q ∈ qs, q.ans = none ∧ q.err = none)
include hun

theorem all_known_iff : qs.all Req.known = qs.isEmpty := by
  cases qs with
  | nil => rfl
  | cons q qs => simp [Req.known_eq_false (hun q List.mem_cons_self)]

theorem any_unknown_iff : (qs.any fun r => !r.known) = !qs.isEmpty := by
  cases qs with
  | nil => rfl
  | cons q qs => simp [Req.known_eq_false (hun q List.mem_cons_self)]

theorem State.launchLanes_goes (hne : qs ≠ []) :
    s.launchLanes x ⟨v, qs, [], w⟩ a cs =
      (v.mapCur fun g => (Group.grow { a.kind.touch g a.dest with replay := none } a.path).push (a.afterChecks x qs [] s.doneBefore) cs).lNext := by
  have hempty : qs.isEmpty = false := by simpa using hne
  unfold State.launchLanes
  simp only [Access.allKnown, all_known_iff hun, any_unknown_iff hun, hempty, List.any_nil, List.isEmpty_nil, Bool.not_true, Bool.not_false,
    Bool.false_eq_true, if_false, if_true]
  rfl

theorem State.launchLanes_stops (hw : s.cur.lWaits = false) (hfs : fs ≠ []) (hcode : ∀ f ∈ fs, issueFault f.mf)
    (hgone : a.kind.valued = false ∨ qs = []) :
    s.launchLanes x ⟨v, qs, fs, w⟩ a cs =
      (v.mapCur (Group.stopped · s.cur.l (a.afterChecks x qs fs s.doneBefore) cs)).laneFault
        (a.afterChecks x qs fs s.doneBefore) (maskOf (qs.map Req.lane)) := by
  have hfs' : fs.isEmpty = false := by simpa using hfs
  have hcode' : (fs.any fun f => f.mf.code == 0) = false := by
    simp only [List.any_eq_false, beq_iff_eq]
    intro f hf hzero
    have := (hcode f hf).1
    simp [hzero] at this
  have hgone' : (a.kind.valued && !qs.isEmpty) = false := by
    rcases hgone with h | h <;> simp [h]
  unfold State.launchLanes
  simp only [Access.allKnown, all_known_iff hun, any_unknown_iff hun, hfs', hcode', hgone', hw, Bool.false_and, Bool.not_false,
    Bool.false_eq_true, if_false, if_true]
  refine congrArg (fun f => (v.mapCur f).laneFault _ _) (funext fun g => ?_)
  unfold Group.stopped Access.afterChecks
  cases qs <;> rfl

theorem Access.flagsOf_unknown (hr : a.reqs = qs) : a.flagsOf = 0 := by
  unfold Access.flagsOf
  rw [hr]
  clear hr
  induction qs with
  | nil => rfl
  | cons q qs ih =>
    rw [List.foldl_cons, (hun q List.mem_cons_self).1]
    exact ih fun q hq => hun q (List.mem_cons_of_mem _ hq)

/-- The lanes that failed are those that failed their checks, where no answer has come. -/
theorem Access.failed_unknown (hr : a.reqs = qs) (hf : a.fails = fs) (hl : (fs.map LaneFault.lane).Sublist (lanesOf m)) : a.failed = fs := by
  have herrs : (a.reqs.filterMap fun r => r.err.map fun e =>
      (⟨r.lane, ⟨e.1, e.2, r.va, if e.1 == 0x0A && !a.peer then BitVec.ofNat 64 r.pa else 0⟩⟩ : LaneFault)) = [] := by
    rw [List.filterMap_eq_nil_iff, hr]
    intro q hq
    rw [(hun q hq).2]
    rfl
  unfold Access.failed
  rw [herrs]
  dsimp only
  rw [List.append_nil, hf, List.range_eq_range']
  refine filterMap_find?_lane 1024 0 fs ((lanesOf_pairwise m).sublist hl) (fun f _ => Nat.zero_le _) fun f hf => ?_
  have := lanesOf_lt (hl.subset (List.mem_map_of_mem hf))
  omega

end

/-- The group of a lane access that stops: its replay is on the stop, and it has completed some lanes (R27, R248). -/
def Group.doneWith (g : Group) (done : Mask) : Group := { g with done := done, replay := none }

/-- A lane access that stops with no value and no flag delivered (R248, R250). -/
theorem State.laneFault_eq {s : State} {a : Access} {completed : Mask} {fs : List LaneFault} (hv : a.kind.valued = false ∨ completed = 0)
    (hflags : a.flagsOf = 0) (hfailed : a.failed = fs) :
    s.laneFault a completed =
      ((s.mapCur (Group.doneWith · (a.done ||| completed))).logLanes fs a.kind.writes a.peer).raiseLanes a.ps1 a.pc fs
        ⟨a.ps1, a.sel &&& ~~~completed, a.popped, a.done ||| completed⟩ a.kind.rflags := by
  have hkeep : (a.kind.valued && completed != 0) = false := by
    rcases hv with h | h <;> simp [h]
  unfold State.laneFault Group.doneWith
  have hzero (f : Byte) : f ||| 0 = f := BitVec.or_zero
  simp only [hkeep, hflags, hfailed, Bool.false_eq_true, if_false, ite_self, hzero]

/-! ### Entry for lane faults (R245, R246, R248, R313) -/

theorem look_hvAtEntry (fs : List LaneFault) (x : MemFault → Word32) {i : Nat} (hi : i < 128) :
    look (hvAtEntry fs x) i 0 = ((fs.find? fun f => f.lane == i || (f.lane == 255 && i == 0)).map fun f => x f.mf).getD 0 := by
  unfold look hvAtEntry
  rw [dif_pos hi, Vector.getElem_ofFn]
  dsimp only
  cases fs.find? fun f => f.lane == i || (f.lane == 255 && i == 0) <;> rfl

/-- A vector whose first four entries were put in turn. -/
theorem look_put_four {α : Type} (v : Vector α 8) (a b c d e : α) :
    look (put (put (put (put v 0 a) 1 b) 2 c) 3 d) 0 e = a ∧ look (put (put (put (put v 0 a) 1 b) 2 c) 3 d) 1 e = b ∧
      look (put (put (put (put v 0 a) 1 b) 2 c) 3 d) 2 e = c ∧ look (put (put (put (put v 0 a) 1 b) 2 c) 3 d) 3 e = d ∧
      ∀ n, 4 ≤ n → look (put (put (put (put v 0 a) 1 b) 2 c) 3 d) n e = look v n e := by
  refine ⟨?_, ?_, ?_, look_put_same _ _ _ _ (by decide), fun n hn => ?_⟩
  · rw [look_put_ne _ _ _ _ _ (by decide), look_put_ne _ _ _ _ _ (by decide), look_put_ne _ _ _ _ _ (by decide), look_put_same _ _ _ _ (by decide)]
  · rw [look_put_ne _ _ _ _ _ (by decide), look_put_ne _ _ _ _ _ (by decide), look_put_same _ _ _ _ (by decide)]
  · rw [look_put_ne _ _ _ _ _ (by decide), look_put_same _ _ _ _ (by decide)]
  · rw [look_put_ne _ _ _ _ _ (by omega), look_put_ne _ _ _ _ _ (by omega), look_put_ne _ _ _ _ _ (by omega), look_put_ne _ _ _ _ _ (by omega)]

/-- hv0 to hv3 at the entry of a stop that gives them (R248). -/
theorem hvHolds_enter (u : State) {st : Stop} {fs : List LaneFault} (entry : Word) (hl : st.lanes = fs) (hg : st.givesHv = true) :
    HvHolds (u.mapCur fun g => g.enter st entry) fs := by
  intro i hi at' hv
  have hhv : (u.mapCur fun g => g.enter st entry).cur.l.hv =
      put (put (put (put (Vector.replicate 8 (Vector.replicate 128 0)) 0 (hvAtEntry st.lanes fun f => f.addr.setWidth 32))
        1 (hvAtEntry st.lanes fun f => f.addr.extractLsb' 32 32)) 2 (hvAtEntry st.lanes fun f => f.cause.setWidth 32))
        3 (hvAtEntry st.lanes fun f => f.code.setWidth 32) := if_pos hg
  have hlife : (u.mapCur fun g => g.enter st entry).cur.l.hvLife =
      put (put (put (put (Vector.replicate 8 .dead) 0 .live) 1 .live) 2 .live) 3 .live := if_pos hg
  have hat (n : Nat) (x : MemFault → Word32)
      (hn : look (u.mapCur fun g => g.enter st entry).cur.l.hv n (Vector.replicate 128 0) = hvAtEntry st.lanes x) : hv n = at' x := by
    refine (congrArg (look · i 0) hn).trans ?_
    rw [hl]
    exact look_hvAtEntry fs x hi
  obtain ⟨h0, h1, h2, h3, -⟩ := look_put_four (Vector.replicate 8 (Vector.replicate 128 (0 : Word32)))
    (hvAtEntry st.lanes fun f => f.addr.setWidth 32) (hvAtEntry st.lanes fun f => f.addr.extractLsb' 32 32)
    (hvAtEntry st.lanes fun f => f.cause.setWidth 32) (hvAtEntry st.lanes fun f => f.code.setWidth 32) (Vector.replicate 128 0)
  refine ⟨hat 0 _ (hhv ▸ h0), hat 1 _ (hhv ▸ h1), hat 2 _ (hhv ▸ h2), hat 3 _ (hhv ▸ h3), fun n hn => ?_⟩
  rw [hlife]
  obtain ⟨l0, l1, l2, l3, l4⟩ := look_put_four (Vector.replicate 8 Life.dead) .live .live .live .live .dead
  by_cases h4 : n < 4
  · rw [if_pos h4]
    interval_cases n
    exacts [l0, l1, l2, l3]
  · rw [if_neg h4, l4 n (by omega)]
    simp [look, hn]

theorem causeWord_eq (f : MemFault) : causeWord f.code f.cause = hs1Of f := by
  unfold causeWord hs1Of
  simp only [Bool.or_eq_true, beq_iff_eq, or_assoc]

theorem memoryCode_of_issueFault {f : MemFault} (h : issueFault f) : memoryCode f.code = true := by
  simp [memoryCode, h.1, h.2]

/-- The stop of an L-stream access on some lanes, the first of whose faults is `f` (R195, R248). -/
def State.laneStop (s : State) (f : MemFault) (ps1 : Bool) (pc : Word) (fs : List LaneFault) (replay : Replay) (rflags : Byte) : Stop :=
  ⟨.exact, f.code, f.cause, causeWord f.code f.cause, true, ps1, pc, fs, rflags, faultMask fs, some replay, s.time, s.coreOf s.cur, false⟩

theorem State.raiseLanes_eq {s : State} {f : MemFault} {fs : List LaneFault} (hf : fs.head?.map LaneFault.mf = some f) (hm : memoryCode f.code = true)
    (ps1 : Bool) (pc : Word) (replay : Replay) (rflags : Byte) :
    s.raiseLanes ps1 pc fs replay rflags = s.dispatch (s.laneStop f ps1 pc fs replay rflags) := by
  unfold State.raiseLanes
  rw [hf]
  show s.dispatch ⟨_, _, _, _, _, _, _, _, _, if memoryCode f.code then _ else _, _, _, _, _⟩ = _
  rw [if_pos hm]
  rfl

/-- The records of lane faults are offered before the stop is taken (R245, R246, R312). -/
theorem State.queueMem_laneStop {s : State} {f : MemFault} {fs : List LaneFault} (hm : memoryCode f.code = true)
    (hall : ∀ x ∈ fs, memoryCode x.mf.code = true) (ps1 : Bool) (pc : Word) (replay : Replay) (flags : Byte) :
    s.queueMem (s.laneStop f ps1 pc fs replay flags) =
      s.queueAll (fs.map (faultRecord s (flags ||| 1 ||| (if ps1 then 0x40 else 0)) pc)) := by
  have hrec (x : LaneFault) : s.recordOf s.cur x.mf.code x.mf.cause x.lane (flags ||| 1 ||| (if ps1 then 0x40 else 0)) x.mf.addr pc x.mf.pa 0 =
      faultRecord s (flags ||| 1 ||| (if ps1 then 0x40 else 0)) pc x := by
    unfold State.recordOf faultRecord rankByte
    simp only [beq_iff_eq]
  have hrecords : s.stopRecords s.cur (s.laneStop f ps1 pc fs replay flags) =
      fs.map (faultRecord s (flags ||| 1 ||| (if ps1 then 0x40 else 0)) pc) := by
    unfold State.stopRecords State.laneStop
    simp only [hm, if_true, List.append_nil, List.filter_eq_self.mpr hall, Bool.true_and, hrec]
  unfold State.queueMem
  rw [hrecords, List.filter_eq_self.mpr]
  · rfl
  · intro r hr
    obtain ⟨x, hx, rfl⟩ := List.mem_map.mp hr
    exact hall x hx

theorem TakesFaults.of_raiseLanes {y : State} {fs : List LaneFault} {ps1 : Bool} {pc : Word} {flags : Byte} {wr loc : Bool} {replay : Replay}
    (hrun : y.cur.status = .run) (huser : y.cur.handler = none) (hparked : y.cur.parked = false) (hhalted : y.cur.halted = false)
    (hcode : ∀ f ∈ fs, issueFault f.mf) :
    TakesFaults y (.next ((y.logLanes fs wr loc).raiseLanes ps1 pc fs replay flags)) fs true ps1 flags pc wr loc
      (maskOf (fs.map LaneFault.lane)) (some replay) := by
  intro u entry imm f w v hhead hcur hstrict hvec hu himm
  obtain ⟨x, hx, rfl⟩ := Option.map_eq_some_iff.mp hhead
  have hissue : issueFault x.mf := hcode x (List.mem_of_head? hx)
  have hm := memoryCode_of_issueFault hissue
  have hi : Interruptible v := by
    constructor
    · rw [hcur, hrun]
    · rw [hcur, huser]
    · rw [hcur, hparked]
    · rw [hcur, hhalted]
    · exact hstrict
  have hq : w.queueMem (w.laneStop x.mf ps1 pc fs replay flags) = v :=
    State.queueMem_laneStop hm (fun x hx => memoryCode_of_issueFault (hcode x hx)) ps1 pc replay flags
  have hplace : (w.laneStop x.mf ps1 pc fs replay flags).inPlace = true := by
    simp [Stop.inPlace, State.laneStop, hm]
  have hd := (State.raiseLanes_eq hhead hm ps1 pc replay flags).trans (State.dispatch_enters hq hi hvec (.inr hplace))
  refine ⟨_, congrArg Host.Outcome.next hd, fun hcan => ?_, fun hcan => ?_⟩
  · have hne : fs ≠ [] := by
      rintro rfl
      cases hx
    have hhv : Stop.givesHv { w.laneStop x.mf ps1 pc fs replay flags with queued := true } = true := by
      simp [Stop.givesHv, State.laneStop, hne, hissue.1, hissue.2]
    have hvec : x.mf.code ≠ 0x10 := fun h => by
      have := hissue.2
      simp [h] at this
    unfold State.enterHandler
    rw [if_pos hcan, ← causeWord_eq]
    exact ⟨EntersHandler.of_enter u { w.laneStop x.mf ps1 pc fs replay flags with queued := true } entry hvec, hvHolds_enter u entry rfl hhv,
      _, rfl, rfl, rfl, rfl, rfl⟩
  · have hfree : (u.cur.parked || u.cur.halted) = false := by
      rw [hu, hi.parked, hi.halted]
      rfl
    refine ⟨{ w.laneStop x.mf ps1 pc fs replay flags with queued := true }, ?_, rfl, rfl, causeWord_eq x.mf, rfl, rfl, rfl, rfl, rfl⟩
    unfold State.enterHandler State.mapCur
    rw [if_neg (by simp [hcan])]
    dsimp only
    rw [hfree]
    rfl

/-! ### The checks keep the turn of the L-stream -/

theorem State.checkRange_ps1 (s : State) (kind : AccessKind) (va : Word) (align n : Nat) : (s.checkRange kind va align n).st.ps1 = s.ps1 := by
  have ht := congrArg Prod.snd (State.translate_streams s (s.coreOf s.cur) (s.ctxOf s.cur) s.cur.level kind va)
  unfold State.checkRange
  split
  · rfl
  · split
    · rfl
    · dsimp only
      split
      · exact ht
      · split <;> exact ht

theorem State.checkLanes_ps1 (s : State) (kind : AccessKind) (rs : List Req) : (s.checkLanes kind rs).st.ps1 = s.ps1 := by
  rw [State.checkLanes_eq]
  refine foldl_keeps (f := LaneChecks.check kind) (p := fun c => c.st.ps1) (fun c r => ?_) rs _
  have hr := State.checkRange_ps1 c.st kind r.va r.size r.size
  unfold LaneChecks.check
  dsimp only
  split <;> exact hr

/-! ### An access of the L-stream that is issued -/

theorem State.lmask_eq {s : State} {p : Path} (h : s.cur.path s.ps1 = some p) : s.lmask = p.mask := by
  unfold Group.path at h
  unfold State.lmask
  rw [h]

theorem State.lpc_eq {s : State} {p : Path} (h : s.cur.path s.ps1 = some p) : s.lpc = BitVec.ofNat 64 p.pc := by
  unfold State.lpc
  rw [h]

/-- What the checks leave of the issuing group, before its access goes out: its pops and hints apply, and registers `ds` are written. -/
theorem LReady.touched_from {s : State} {u : LUse} {p : Path} {vs : List Word} {g g1 : Group} (h : LReady s u p vs g) {ds : List (BitVec 8)}
    (ht : Group.Touched ds (g.applyHints u.reads) g1) : ({ s.cur with dq := g.dq } : Group).RegsFrom g1 :=
  Group.pops_got h.values ▸ (g.livesFrom_applyHints u.reads).regs.trans ht.regs

/-- The order of a group's accesses, and what its later ones follow, do not hang on its registers. -/
theorem Group.RegsFrom.grow_accs {g g' : Group} (h : g.RegsFrom g') (m : Mask) : (g'.grow m).accs = (g.grow m).accs := by
  rw [h]
  rfl

theorem LState.preds_setPath (l : LState) (b : Bool) (x : Option Path) : (l.setPath b x).preds = l.preds := by cases b <;> rfl
theorem LState.k_setPath (l : LState) (b : Bool) (x : Option Path) : (l.setPath b x).k = l.k := by cases b <;> rfl
theorem LState.stack_setPath (l : LState) (b : Bool) (x : Option Path) : (l.setPath b x).stack = l.stack := by cases b <;> rfl

theorem Group.vget_setPath (g : Group) (b : Bool) (x : Option Path) (r : BitVec 8) :
    ({ g with l := g.l.setPath b x } : Group).vget r = g.vget r := by cases b <;> rfl

theorem Group.vlife_setPath (g : Group) (b : Bool) (x : Option Path) (r : BitVec 8) :
    ({ g with l := g.l.setPath b x } : Group).vlife r = g.vlife r := by cases b <;> rfl

/-- A group whose path `p` has issued an access: the path at its next instruction, and the accesses, fences and counts as they are then. -/
def Group.sent (g : Group) (b : Bool) (p : Path) (redo : Option Replay) (accs : List Access) (fences : List FenceMark)
    (tokens : List Token) : Group :=
  { g with
    l := g.l.setPath b (some ⟨p.pc + 3, p.mask⟩), replay := redo, accs := accs, fences := fences, seq := g.seq + 1, tokens := tokens }

/-- A push of the L-stream's, and the step of its path (R194, R196). -/
theorem State.lNext_push {v : State} {g G : Group} {p : Path} {a : Access} {cs : List Counter} {redo : Option Replay}
    (hG : G = { g with replay := redo, accs := G.accs, fences := G.fences }) (hp : g.path v.ps1 = some p) (hl : a.l = true) :
    ({ v with cur := G.push a cs } : State).lNext =
      { v with
        cur := g.sent v.ps1 p redo ((G.grow a.path).accs ++ [G.numbered a]) (G.grow a.path).fences
          (g.tokens ++ cs.map fun c => ⟨c, g.seq, false⟩) } := by
  obtain ⟨accs, fences, rfl⟩ : ∃ accs fences, G = { g with replay := redo, accs := accs, fences := fences } := ⟨_, _, hG⟩
  rw [Group.push_eq _ cs hl]
  exact State.lNext_eq (p := p) hp

/-- A ready lane access whose checks pass issues (R118, R120, R194, R196). The group as it is pushed has the hints applied and the
destination written, and may have another replay, and its earlier accesses grown. -/
theorem IssuesLanes.of_push {s v : State} {i : Instr} {u : LUse} {p : Path} {vs : List Word} {g g1 G : Group} {kind : AccKind}
    {ds : List (BitVec 8)} {dest : BitVec 8} {ord : Order} {sc : Scope} {qs : List Req} {cs : List Counter} {redo : Option Replay}
    {x : LIn} {d : Mask} {a : Access} (h : LReady s u p vs g) (hv : v.ps1 = s.ps1) (ht : Group.Touched ds (g.applyHints u.reads) g1)
    (hG : G = { g1 with replay := redo, accs := G.accs, fences := G.fences }) (hgrow : (G.grow p.mask).accs = (s.cur.grow p.mask).accs)
    (ha : a = (s.newAccess true kind dest ord sc false []).afterChecks x qs [] d)
    (hexec : exec i s = .next ({ v with cur := G.push a cs } : State).lNext) :
    IssuesLanes s v i u p g kind ds dest ord sc false qs cs ∧ ∀ t, exec i s = .next t → t.cur.replay = redo := by
  have hfrom : g1 = _ := h.touched_from ht
  have hpath : a.path = p.mask := ha ▸ State.lmask_eq h.path
  have hpc : a.pc = BitVec.ofNat 64 p.pc := ha ▸ State.lpc_eq h.path
  have hseq : g1.seq = s.cur.seq := by rw [hfrom]
  have htokens : g1.tokens = s.cur.tokens := by rw [hfrom]
  have hGseq : G.seq = s.cur.seq := (show G.seq = g1.seq by rw [hG]).trans hseq
  have hturn : g1.path v.ps1 = some p := by
    rw [hv, hfrom]
    exact h.path
  rw [State.lNext_push hG hturn (ha ▸ rfl), hpath, hgrow] at hexec
  refine ⟨⟨_, G.numbered a, hexec, rfl, hpath, hGseq, ?l, ?ps1, hpc, ?kind, ?dest, ?ord, ?scope, ?peer, ?reqs, ?fails,
    ?next, ?tokens, ?dq, ?turn, ?other, ?kept, ?live, ?preds, ?k, ?stack, ?sregs, ?flags, rfl, fun _ => rfl⟩, fun t ht => ?replay⟩
  case next => exact hseq ▸ rfl
  case tokens => exact htokens ▸ hseq ▸ rfl
  case dq =>
    show g1.dq = _
    rw [hfrom]
  case sregs =>
    show g1.s = _
    rw [hfrom]
  case flags =>
    show g1.flags = _
    rw [hfrom]
  case turn => exact hv ▸ Group.path_setPath_same g1 _ _
  case other =>
    refine (hv ▸ Group.path_setPath_other g1 v.ps1 _ : _ = g1.path (!s.ps1)).trans ?_
    rw [hfrom]
    rfl
  case kept =>
    intro r hr
    obtain ⟨hget, hlife⟩ := ht.others r hr
    exact ⟨((g1.vget_setPath ..).trans hget).trans (h.vget_hinted r), ((g1.vlife_setPath ..).trans hlife).trans (h.vlife_hinted r)⟩
  case live => exact fun r hr => (g1.vlife_setPath ..).trans (ht.live r hr)
  case preds =>
    exact (LState.preds_setPath g1.l v.ps1 _).trans (ht.preds.trans h.preds_hinted)
  case k =>
    exact (LState.k_setPath g1.l v.ps1 _).trans (ht.k.trans h.k_hinted)
  case stack =>
    refine (LState.stack_setPath g1.l v.ps1 _).trans ?_
    rw [hfrom]
  case replay =>
    cases hexec.symm.trans ht
    rfl
  all_goals
    rw [ha]
    rfl

/-! ### Lane accesses to global memory (R118, R205) -/

theorem Group.full_of_lt {g : Group} {c : Counter} (h : g.count c < 255) : g.full c = false := by
  unfold Group.full
  simpa using h

section
variable {s v : State} {i : Instr} {o : LOp} {u : LUse} {kind : AccKind} {n : Nat} {ord : Order} {sc : Scope} {c : Counter}
  {data cmp : Nat → Word} {p : Path} {vs : List Word} {g : Group} {qs : List Req} {fs : List LaneFault} {w : Bool} {redo : Option Replay}
  {ds : List (BitVec 8)}
  (hredo : s.cur.replay = redo) (hps : ∀ r, redo = some r → r.ps1 = s.ps1) (hacq : s.cur.acquiring true p.mask = false)
  (hl : u.late = false) (hexec : exec i s = .next (s.gLanes o u kind n ord sc [c] data cmp))
  (h : LReady s (u.again redo) p vs g) (hcount : s.cur.count c < 255)
  (hcheck : ({ s with cur := g.applyHints u.reads } : State).checkLanes kind.access
    (laneReqs (s.laneSel p o.g redo) (laneAddress s o (laneVals vs redo)) n data cmp) = ⟨v, qs, fs, w⟩)
  (hv : v.cur = g.applyHints u.reads)
include hredo hps hacq hl hexec h hcount hcheck

/-- What a ready lane access to global memory does with the lanes checked. -/
theorem exec_gLanes :
    exec i s = .next (s.launchLanes ⟨{ s with cur := g.applyHints u.reads }, p.mask, s.laneSel p o.g redo, laneVals vs redo⟩
      ⟨v, qs, fs, w⟩ (s.newAccess true kind o.vd ord sc false []) [c]) := by
  have hfree : ([c].any s.cur.full || s.cur.acquiring true s.lmask) = false := by
    simp [Group.full_of_lt hcount, State.lmask_eq h.path, hacq]
  rw [hexec, State.gLanes, State.memIssue_ready hredo hps h hl]
  simp only [hfree, Bool.false_eq_true, if_false]
  rw [← hcheck]
  simp only [laneReqs, Group.laneAddr_eq]

include hv

/-- Where every lane passes, one access goes out with a request for each, and the replay is over (R118, R250). -/
theorem IssuesLanes.of_gLanes (ht : ∀ g, Group.Touched ds g (kind.touch g o.vd)) (hsel : s.laneSel p o.g redo ≠ 0) (hfs : fs = []) :
    qs.map Req.unplaced = laneReqs (s.laneSel p o.g redo) (laneAddress s o (laneVals vs redo)) n data cmp ∧
      IssuesLanes s v i u p g kind ds o.vd ord sc false qs [c] ∧ ∀ t, exec i s = .next t → t.cur.replay = none := by
  have hx := exec_gLanes hredo hps hacq hl hexec h hcount hcheck
  have hun := State.checkLanes_unknown hcheck (laneReqs_unknown _ _ _ _ _)
  have hqs := (State.checkLanes_pass hcheck hfs).trans (laneReqs_unplaced ..)
  have hne : qs ≠ [] := by
    rintro rfl
    have hnil : lanesOf (s.laneSel p o.g redo) = [] := List.map_eq_nil_iff.mp hqs.symm
    exact lanesOf_ne_nil hsel hnil
  subst hfs
  have hps1 : v.ps1 = s.ps1 := (congrArg (fun c => c.st.ps1) hcheck).symm.trans (State.checkLanes_ps1 ..)
  have hfrom := h.touched_from (ht (g.applyHints u.reads))
  have hpath : (s.newAccess true kind o.vd ord sc false []).path = p.mask := State.lmask_eq h.path
  rw [State.launchLanes_goes hun hne, hpath, State.mapCur, hv] at hx
  have hgrow : ((Group.grow { kind.touch (g.applyHints u.reads) o.vd with replay := none } p.mask).grow p.mask).accs = (s.cur.grow p.mask).accs :=
    (congrArg Group.accs (Group.grow_grow ..)).trans (hfrom.grow_accs p.mask)
  exact ⟨hqs, IssuesLanes.of_push (u := u.again redo) h hps1 (ht _)
    (G := Group.grow { kind.touch (g.applyHints u.reads) o.vd with replay := none } p.mask) rfl hgrow rfl hx⟩

/-- Where some lanes fail and none awaits a value, the group stops at the instruction, once the lanes that pass have gone out (R195, R248,
R250). -/
theorem TakesFaults.of_gLanes (hi : Interruptible s) (hw : s.cur.lWaits = false) (hfs : fs ≠ []) (hcode : ∀ f ∈ fs, issueFault f.mf)
    (hgone : kind.valued = false ∨ qs = []) :
    let passed : Mask := maskOf (qs.map Req.lane)
    let done : Mask := laneDone redo ||| passed
    ∃ y, y = { v with cur := y.cur } ∧
      y.cur = { g with
        l := s.cur.l, replay := none, done := done
        accs := y.cur.accs, fences := y.cur.fences, seq := y.cur.seq, tokens := y.cur.tokens } ∧
      (qs = [] → y.cur.accs = s.cur.accs ∧ y.cur.fences = s.cur.fences ∧ y.cur.seq = s.cur.seq ∧ y.cur.tokens = s.cur.tokens) ∧
      (qs ≠ [] → y.cur.seq = s.cur.seq + 1 ∧ y.cur.tokens = s.cur.tokens ++ [⟨c, s.cur.seq, false⟩] ∧
        ∃ x, y.cur.accs = (s.cur.grow p.mask).accs ++ [x] ∧ x.seq = s.cur.seq ∧ x.kind = kind ∧ x.reqs = qs ∧ x.path = p.mask) ∧
      TakesFaults y (exec i s) fs true s.ps1 kind.rflags (BitVec.ofNat 64 p.pc) kind.writes false (maskOf (fs.map LaneFault.lane))
        (some ⟨s.ps1, s.laneSel p o.g redo &&& ~~~passed, (laneVals vs redo).head?, done⟩) := by
  intro passed done
  have hx := exec_gLanes hredo hps hacq hl hexec h hcount hcheck
  have hun := State.checkLanes_unknown hcheck (laneReqs_unknown _ _ _ _ _)
  have hlanes : (fs.map LaneFault.lane).Sublist (lanesOf (s.laneSel p o.g redo)) := by
    simpa only [laneReqs_lane] using State.checkLanes_fails hcheck
  have hg := Group.pops_got h.values
  rw [State.launchLanes_stops hun hw hfs hcode hgone] at hx
  obtain ⟨a, ha⟩ : ∃ a, a = (s.newAccess true kind o.vd ord sc false []).afterChecks
    ⟨{ s with cur := g.applyHints u.reads }, p.mask, s.laneSel p o.g redo, laneVals vs redo⟩ qs fs s.doneBefore := ⟨_, rfl⟩
  have hreqs : a.reqs = qs := ha ▸ rfl
  have hkind : a.kind = kind := ha ▸ rfl
  have hlstream : a.l = true := ha ▸ rfl
  have hpath : a.path = p.mask := ha ▸ State.lmask_eq h.path
  have hpc : a.pc = BitVec.ofNat 64 p.pc := ha ▸ State.lpc_eq h.path
  have hdone : a.done = laneDone redo := (ha ▸ rfl : a.done = s.doneBefore).trans (State.doneBefore_eq hredo hps)
  have hkeeps : a.kind.valued = false ∨ passed = 0 := hkind ▸ hgone.imp_right fun hq => by
    subst hq
    rfl
  have hfailed : a.failed = fs := Access.failed_unknown hun hreqs (ha ▸ rfl) hlanes
  have hy : exec i s = .next ((({ v with cur := (g.stopped s.cur.l a [c]).doneWith done } : State).logLanes fs kind.writes false).raiseLanes s.ps1
      (BitVec.ofNat 64 p.pc) fs ⟨s.ps1, s.laneSel p o.g redo &&& ~~~passed, (laneVals vs redo).head?, done⟩ kind.rflags) := by
    rw [hx, ← ha, State.laneFault_eq hkeeps (Access.flagsOf_unknown hun hreqs) hfailed, hdone, hkind, hpc, State.mapCur, State.mapCur, hv,
      (g.livesFrom_applyHints u.reads).stopped, ha]
    rfl
  have hstop := g.stopped_eq s.cur.l [c] hlstream
  have hcur : (g.stopped s.cur.l a [c]).doneWith done = { g with
      l := s.cur.l, replay := none, done := done
      accs := (g.stopped s.cur.l a [c]).accs, fences := (g.stopped s.cur.l a [c]).fences
      seq := (g.stopped s.cur.l a [c]).seq, tokens := (g.stopped s.cur.l a [c]).tokens } := by
    unfold Group.doneWith
    rw [hstop]
  refine ⟨{ v with cur := (g.stopped s.cur.l a [c]).doneWith done }, rfl, hcur, fun hq => ?none, fun hq => ?some, ?stops⟩
  case none =>
    unfold Group.doneWith
    rw [g.stopped_nil s.cur.l [c] (hreqs.trans hq), hg]
    exact ⟨rfl, rfl, rfl, rfl⟩
  case some =>
    unfold Group.doneWith
    rw [g.stopped_sent s.cur.l [c] (hreqs ▸ hq) hlstream, hpath, hg]
    exact ⟨rfl, rfl, _, rfl, rfl, hkind, hreqs, hpath⟩
  case stops =>
    rw [hy]
    refine TakesFaults.of_raiseLanes ?_ ?_ ?_ ?_ hcode
    · rw [hcur, hg]
      exact hi.runs
    · rw [hcur, hg]
      exact hi.user
    · rw [hcur, hg]
      exact hi.parked
    · rw [hcur, hg]
      exact hi.halted

end

/-! ### Blocks of registers (R120) -/

theorem blockReqs_unknown (base : Word) (n : Nat) (m : Mask) (data : Nat → Nat → Word) :
    ∀ r ∈ blockReqs base n m data, r.ans = none ∧ r.err = none := by
  intro r hr
  obtain ⟨i, -, hi⟩ := List.mem_flatMap.mp hr
  obtain ⟨j, -, rfl⟩ := List.mem_map.mp hi
  exact ⟨rfl, rfl⟩

theorem blockReqs_unplaced (base : Word) (n : Nat) (m : Mask) (data : Nat → Nat → Word) :
    (blockReqs base n m data).map Req.unplaced = blockReqs base n m data := by
  refine (List.map_congr_left fun r hr => ?_).trans (List.map_id _)
  obtain ⟨i, -, hi⟩ := List.mem_flatMap.mp hr
  obtain ⟨j, -, rfl⟩ := List.mem_map.mp hi
  rfl

theorem blockReqs_ne_nil {n : Nat} {m : Mask} (hn : 0 < n) (hm : m ≠ 0) (base : Word) (data : Nat → Nat → Word) :
    blockReqs base n m data ≠ [] := by
  obtain ⟨j, hj⟩ := List.exists_mem_of_ne_nil _ (lanesOf_ne_nil hm)
  exact List.ne_nil_of_mem (List.mem_flatMap.mpr ⟨0, List.mem_range.mpr hn, List.mem_map.mpr ⟨j, hj, rfl⟩⟩)

/-- A ready block access of which no lane fails issues one access for its range of registers (R120, R195). -/
theorem IssuesLanes.of_block {s v : State} {i : Instr} {o : LOp} {u : LUse} {kind : AccKind} {first : BitVec 8} {c : Counter}
    {data : Nat → Nat → Word} {p : Path} {vs : List Word} {g : Group} {qs : List Req} {w : Bool} {ds : List (BitVec 8)}
    (hacq : s.cur.acquiring true p.mask = false) (hsel : s.cur.selected p.mask o.g ≠ 0) (hl : u.late = false)
    (hexec : exec i s = .next (s.block o u first kind c data)) (ht : ∀ g, Group.Touched ds g (kind.touch g first))
    (h : LReady s u p vs g) (hcount : s.cur.count c < 255) (hrange : s.cur.rangeBad first (2 ^ modField o 0 2) = false)
    (hbase : (laneAddress s { o with mods := 0 } vs 0).toNat % 64 = 0)
    (hcheck : ({ s with cur := g.applyHints u.reads } : State).checkLanes kind.access
      (blockReqs (laneAddress s { o with mods := 0 } vs 0) (2 ^ modField o 0 2) (s.cur.selected p.mask o.g) data) = ⟨v, qs, [], w⟩)
    (hv : v.cur = g.applyHints u.reads) :
    qs.map Req.unplaced = blockReqs (laneAddress s { o with mods := 0 } vs 0) (2 ^ modField o 0 2) (s.cur.selected p.mask o.g) data ∧
      IssuesLanes s v i u p g kind ds first .rlx .grp false qs [c] := by
  have hqs := (State.checkLanes_pass hcheck rfl).trans (blockReqs_unplaced ..)
  have hne : qs.isEmpty = false := by
    rw [List.isEmpty_eq_false_iff]
    rintro rfl
    exact blockReqs_ne_nil (Nat.two_pow_pos _) hsel _ _ hqs.symm
  have hps1 : v.ps1 = s.ps1 := (congrArg (fun c => c.st.ps1) hcheck).symm.trans (State.checkLanes_ps1 ..)
  have hgrow := (h.touched_from (ht (g.applyHints u.reads))).grow_accs p.mask
  have hfree : (s.cur.full c || s.cur.acquiring true s.lmask) = false := by
    simp [Group.full_of_lt hcount, State.lmask_eq h.path, hacq]
  have hx : exec i s = .next ({ v with
      cur := (kind.touch (g.applyHints u.reads) first).push ((s.newAccess true kind first .rlx .grp false []).afterChecks
        ⟨{ s with cur := g.applyHints u.reads }, p.mask, s.cur.selected p.mask o.g, vs⟩ qs [] 0) [c] } : State).lNext := by
    rw [hexec, State.block]
    simp only [hrange, Bool.false_eq_true, if_false]
    rw [State.lIssue_ready h hl]
    simp only [hfree, Group.memBase_eq, hbase, hcheck, bne_self_eq_false, Bool.false_eq_true, if_false, hne, State.mapCur, hv]
    rfl
  exact ⟨hqs, (IssuesLanes.of_push h hps1 (ht _) rfl hgrow rfl hx).1⟩

/-! ### The statement -/

/-- The register that each kind of access writes at its issue. -/
theorem Group.touched_vload (n : Nat) (signed : Bool) (r : BitVec 8) (g : Group) : Group.Touched [r] g (AccKind.touch (.vload n signed) g r) :=
  g.touched_vwrite ..
theorem Group.touched_vatom (op : BitVec 3) (ty : ElemType) (r : BitVec 8) (g : Group) : Group.Touched [r] g (AccKind.touch (.vatom op ty) g r) :=
  g.touched_vwrite ..
theorem Group.touched_store (n : Nat) (r : BitVec 8) (g : Group) : Group.Touched [] g (AccKind.touch (.store n) g r) := .refl g
theorem Group.touched_vblk (n : Nat) (r : BitVec 8) (g : Group) :
    Group.Touched ((List.range n).map fun i => r + BitVec.ofNat 8 i) g (AccKind.touch (.vblk n) g r) := Group.touched_foldl_vwrite ..

theorem exec_vld (o : LOp) (s : State) : exec (.vld o) s = .next (s.gLanes o (memUse o false true false true) (.vload (laneSize o) (o.ty == .s32))
    (laneSize o) .rlx .grp [.ld] (fun _ => 0) (fun _ => 0)) := by
  show execVld o s = _
  rw [execVld, memSize_eq]

theorem exec_vst (o : LOp) (s : State) : exec (.vst o) s = .next (s.gLanes o (memUse o true false false false) (.store (laneSize o)) (laneSize o)
    .rlx .grp [.st] (fun i => (srcB s o i).setWidth 64) (fun _ => 0)) := by
  show execVst o s = _
  rw [execVst, memSize_eq]
  rfl

theorem exec_vatom (o : LOp) (s : State) : exec (.vatom o) s = .next (s.gLanes o (memUse o true true (o.mods.extractLsb' 3 3 == 2) false)
    (.vatom (o.mods.extractLsb' 3 3) o.ty) 4 (if o.rnd = 0 then .rlx else if o.rnd = 1 then .acq else if o.rnd = 2 then .rel else .acqrel) .dev
    [.st] (fun i => (srcB s o i).setWidth 64) (fun i => (look (s.cur.vget o.vd) i 0).setWidth 64)) := by
  show execVatom o s = _
  rw [execVatom, laneAtom_eq, laneOrder_eq, modField_cas]
  rfl

theorem selected_ne_zero {s : State} {p : Path} {gd : Guard} (h : ∃ i, i < 128 ∧ actsOn s p gd i) : s.cur.selected p.mask gd ≠ 0 := by
  obtain ⟨i, hi, hact⟩ := h
  intro hzero
  have := (selected_getLsbD s p gd hi).mpr hact
  simp [hzero] at this

/-- Settles O36: the checks of the lanes in order, then one access of those that pass, or the stop on those that fail. Its last part, a VLD
that stops at its response, holds for want of a case: it asks of one state both that the L-stream awaits no value and that a VLD of it is
in flight. -/
theorem laneAccessesIssueTheirRequests : Obligations.LaneAccessesIssueTheirRequests := by
  unfold Obligations.LaneAccessesIssueTheirRequests
  refine ⟨?lanes, ?blocks, fun s hi hw => ⟨?stops, ?response⟩⟩
  case lanes =>
    intro s v o p vs g qs w redo hredo hps hacq sel vals hsel n old data issues
    refine ⟨?vld, ?vst, ?vatom⟩
    case vld =>
      intro h hcount hcheck hv
      exact IssuesLanes.of_gLanes hredo hps hacq (memUse_late ..) (exec_vld o s) h hcount hcheck hv (Group.touched_vload _ _ _) hsel rfl
    case vst =>
      intro h hcount hcheck hv
      exact IssuesLanes.of_gLanes hredo hps hacq (memUse_late ..) (exec_vst o s) h hcount hcheck hv (Group.touched_store _ _) hsel rfl
    case vatom =>
      intro h hcount hcheck hv
      exact IssuesLanes.of_gLanes hredo hps hacq (memUse_late ..) (exec_vatom o s) h hcount hcheck hv (Group.touched_vatom _ _ _) hsel rfl
  case blocks =>
    intro s v o p vs g qs w hacq hact n base regs issues
    have hn : 2 ^ modField o 0 2 = n := by rw [modField_eq]
    have hregs (r : BitVec 8) : blockRegs o r = regs r := by
      unfold blockRegs
      rw [hn]
    refine ⟨?vldblk, ?vstblk⟩
    case vldblk =>
      intro h hcount hrange hbase hcheck hv
      have hexec : exec (.vldblk o) s = .next (s.block o ((({ writes := regs o.vd } : LUse).withC o.c).withGuard o.g) o.vd (.vblk n) .ld
          fun _ _ => 0) := by
        show execVldblk o s = _
        rw [execVldblk, hregs, hn]
      have hout := IssuesLanes.of_block hacq (selected_ne_zero hact) (LUse.withC_late _ _) hexec (Group.touched_vblk n o.vd) h hcount
        (hn ▸ hrange) hbase (hn ▸ hcheck) hv
      rw [hn] at hout
      exact hout
    case vstblk =>
      intro h hcount hrange hbase hcheck hv
      have hexec : exec (.vstblk o) s = .next (s.block o
          ((({ reads := (regs o.b.r).map fun r => (r, o.b.hint), free := false } : LUse).withC o.c).withGuard o.g) o.b.r (.store 4) .st
          fun i j => (look (s.cur.vget (o.b.r + BitVec.ofNat 8 i)) j 0).setWidth 64) := by
        show execVstblk o s = _
        rw [execVstblk, hregs]
      have hout := IssuesLanes.of_block hacq (selected_ne_zero hact) (LUse.withC_late _ _) hexec (Group.touched_store 4 o.b.r) h hcount
        (hn ▸ hrange) hbase (hn ▸ hcheck) hv
      rw [hn] at hout
      exact hout
  case stops =>
    intro v o p vs g qs fs w redo hredo hps hacq hfs hcode n sel vals old data passed done stops
    refine ⟨?vst, fun hq => ⟨?vld, ?vatom⟩⟩
    case vst =>
      intro h hcount hcheck hv
      exact TakesFaults.of_gLanes hredo hps hacq (memUse_late ..) (exec_vst o s) h hcount hcheck hv hi hw hfs hcode (.inl rfl)
    case vld =>
      intro h hcount hcheck hv
      exact TakesFaults.of_gLanes hredo hps hacq (memUse_late ..) (exec_vld o s) h hcount hcheck hv hi hw hfs hcode (.inr hq)
    case vatom =>
      intro h hcount hcheck hv
      exact TakesFaults.of_gLanes hredo hps hacq (memUse_late ..) (exec_vatom o s) h hcount hcheck hv hi hw hfs hcode (.inr hq)
  case response =>
    intro a l0 size signed haccs hl _ hkind
    have hwaits : s.cur.lWaits = true := by simp [Group.lWaits, haccs, hl, Access.valued, hkind]
    exact absurd hwaits (by simp [hw])

end Sys2Proof.Machine
end

section
/-! Instructions that write a vector register lane by lane (R18, R19, R25, R91, R92). -/

namespace Sys2Proof.Machine

/-! ### The write of the destination -/

/-- A write of some lanes: those lanes take the new value. -/
theorem Group.look_vwrite (g : Group) (r : BitVec 8) (m : Mask) (v : VReg) {i : Nat} (hi : i < 128) :
    look ((g.vwrite r m v).vget r) i 0 = if m.getLsbD i = true then look v i 0 else look (g.kept r) i 0 := by
  unfold Group.vwrite
  rw [Group.vget_setLife, Group.vget_vput_same]
  simp [mergeLanes, look, hi]

/-- What the lanes that are not written hold (R19). -/
theorem Group.look_kept (g : Group) (r : BitVec 8) {i : Nat} (hi : i < 128) :
    look (g.kept r) i 0 = if g.vlife r = .live ∨ g.vlife r = .rest then look (g.vget r) i 0 else 0 := by
  unfold Group.kept
  cases g.vlife r <;> simp [look, hi]

section
variable {s : State} {u : LUse} {p : Path} {vs : List Word} {g : Group} (h : LReady s u p vs g)
include h

/-- What the destination keeps, once the hints are applied (R18, R19). -/
theorem LReady.look_kept_hinted (r : BitVec 8) {i : Nat} (hi : i < 128) : look ((g.applyHints u.reads).kept r) i 0 =
    if lifeAfter s u.reads r = .live ∨ lifeAfter s u.reads r = .rest then look (s.cur.vget r) i 0 else 0 := by
  rw [Group.look_kept _ _ hi, h.vlife_hinted, h.vget_hinted]

/-- A ready instruction that writes the selected lanes of one register (R18, R19, R91). -/
theorem LWrites.of_vwrite (gd : Guard) (d : BitVec 8) (v : VReg) (f : Byte) {R : Nat → Word32 → Prop}
    (hR : ∀ i, i < 128 → actsOn s p gd i → R i (look v i 0)) :
    LWrites s (({ s with cur := (g.applyHints u.reads).vwrite d (s.cur.selected p.mask gd) v } : State).lDone f u) u d
      (actsOn s p gd) R := by
  have ht := (g.applyHints u.reads).touched_vwrite d (s.cur.selected p.mask gd) v
  have hsel (i : Nat) (hi : i < 128) := selected_getLsbD s p gd hi
  refine ⟨fun i hi ha => ?lanes, fun i hi ha => ?kept, ?live, fun r hr => ?others, ?preds, ?ks⟩
  case lanes =>
    rw [State.vget_lDone, Group.look_vwrite _ _ _ _ hi, if_pos ((hsel i hi).mpr ha)]
    exact hR i hi ha
  case kept =>
    rw [State.vget_lDone, Group.look_vwrite _ _ _ _ hi, if_neg fun hs => ha ((hsel i hi).mp hs)]
    exact h.look_kept_hinted d hi
  case live =>
    rw [State.vlife_lDone]
    exact ht.live d (List.mem_singleton_self d)
  case others =>
    obtain ⟨hv, hlife⟩ := ht.others r (by simpa using hr)
    rw [State.vget_lDone, State.vlife_lDone]
    exact ⟨hv.trans (h.vget_hinted r), hlife.trans (h.vlife_hinted r)⟩
  case preds =>
    rw [State.preds_lDone]
    exact ht.preds.trans h.preds_hinted
  case ks =>
    rw [State.k_lDone]
    exact ht.k.trans h.k_hinted

end

/-! ### Forms that compute in the selected lanes -/

section
variable {s : State} {i : Instr} {o : LOp} {u : LUse} {R : Path → List Word → Nat → Word32 → Prop}
  {F : Path → List Word → Byte → Prop}

/-- An instruction that writes what `f` finds in each selected lane (R91). -/
theorem LaneForm.of_lIssue {f : LIn → Fin 128 → Word32 × Byte}
    (hexec : exec i s = .next (s.lIssue o.g u fun x =>
      (x.st.mapCur fun g => g.vwrite o.vd x.sel (lanewise x.sel (f x)).1).lDone (lanewise x.sel (f x)).2 u))
    (hl : u.late = false)
    (hf : ∀ p vs g, LReady s u p vs g →
      F p vs (lanewise (s.cur.selected p.mask o.g) (f (predIn s o u p vs g))).2)
    (hr : ∀ p vs g, LReady s u p vs g → ∀ j : Fin 128, R p vs j (f (predIn s o u p vs g) j).1) :
    LaneForm s i o u R F := by
  intro p vs g h
  refine ⟨_, _, hexec.trans (congrArg _ (State.lIssue_ready h hl)), LIssued.of_lDone h (Group.regsFrom_vwrite ..) _, hf p vs g h,
    LWrites.of_vwrite h o.g o.vd _ _ fun j hj ha => ?_⟩
  rw [lanewise_lane _ _ ⟨j, hj⟩ ((selected_getLsbD s p o.g hj).mpr ha)]
  exact hr p vs g h ⟨j, hj⟩

/-- The flags of a computation in the selected lanes, from what each lane sets (R25). -/
theorem flagsOver_lanewise {fl : List Word → Nat → Byte → Prop} {p : Path} {vs : List Word} {f : Fin 128 → Word32 × Byte}
    (hfl : ∀ (j : Fin 128) b, (f j).2.getLsbD b = true ↔ ∃ x, fl vs j x ∧ x.getLsbD b = true) :
    flagsOver s o fl p vs (lanewise (s.cur.selected p.mask o.g) f).2 := by
  intro b _
  rw [lanewise_flags]
  simp only [hfl]
  constructor
  · rintro ⟨j, hj, x, hx, hb⟩
    exact ⟨j, x, j.isLt, (selected_getLsbD s p o.g j.isLt).mp hj, hx, hb⟩
  · rintro ⟨j, x, hj, ha, hx, hb⟩
    exact ⟨⟨j, hj⟩, (selected_getLsbD s p o.g hj).mpr ha, x, hx, hb⟩

/-- No lane sets a flag: none is set. -/
theorem lanewise_quiet (sel : Mask) {f : Fin 128 → Word32 × Byte} (hf : ∀ j, (f j).2 = 0) : (lanewise sel f).2 = 0 := by
  refine BitVec.eq_of_getLsbD_eq fun b _ => Bool.eq_iff_iff.mpr ?_
  rw [lanewise_flags]
  simp [hf]

/-- The values of a lane that an instruction reads (R59, R99). -/
def laneIn (s : State) (o : LOp) (vs : List Word) (j : Nat) : LaneIn :=
  ⟨srcA s o j, srcB s o j, srcC s o vs j, look (s.cur.vget o.vd) j 0, j⟩

theorem laneIn_eq (s : State) (o : LOp) (vs : List Word) (j : Fin 128) :
    (⟨(s.cur.vget o.a.r)[j], (s.cur.vget o.b.r)[j], (s.cur.cvec o vs)[j], (s.cur.vget o.vd)[j], j.val⟩ : LaneIn) =
      laneIn s o vs j := by
  have hc := (getElem_eq_look (s.cur.cvec o vs) j 0).trans (look_cvec s o vs j.isLt)
  rw [hc, getElem_eq_look _ j 0, getElem_eq_look _ j 0, getElem_eq_look _ j 0]
  rfl

variable {f : LaneIn → Word32 × Byte} (hexec : exec i s = .next (s.lcompute o u f)) (hl : u.late = false)
include hexec hl

/-- An instruction that computes each selected lane, and whose lanes set flags (R25, R91). -/
theorem LaneForm.of_lcompute {fl : List Word → Nat → Byte → Prop}
    (hr : ∀ p vs g, LReady s u p vs g → ∀ j, j < 128 → R p vs j (f (laneIn s o vs j)).1)
    (hfl : ∀ vs j b, (f (laneIn s o vs j)).2.getLsbD b = true ↔ ∃ x, fl vs j x ∧ x.getLsbD b = true) :
    LaneForm s i o u R (flagsOver s o fl) := by
  refine LaneForm.of_lIssue (f := fun x j => f
    ⟨(s.cur.vget o.a.r)[j], (s.cur.vget o.b.r)[j], (s.cur.cvec o x.popped)[j], (s.cur.vget o.vd)[j], j.val⟩) hexec hl
    (fun p vs g h => flagsOver_lanewise fun j b => ?_) fun p vs g h j => ?_
  · rw [laneIn_eq]
    exact hfl vs j b
  · rw [laneIn_eq]
    exact hr p vs g h j j.isLt

/-- An instruction that computes each selected lane and sets no flag (R25, R91). -/
theorem LaneForm.of_lcompute_quiet
    (hr : ∀ p vs g, LReady s u p vs g → ∀ j, j < 128 → R p vs j (f (laneIn s o vs j)).1)
    (hq : ∀ x, (f x).2 = 0) : LaneForm s i o u R fun _ _ fl => fl = 0 := by
  refine LaneForm.of_lIssue (f := fun x j => f
    ⟨(s.cur.vget o.a.r)[j], (s.cur.vget o.b.r)[j], (s.cur.cvec o x.popped)[j], (s.cur.vget o.vd)[j], j.val⟩) hexec hl
    (fun p vs g h => lanewise_quiet _ fun j => hq _) fun p vs g h j => ?_
  rw [laneIn_eq]
  exact hr p vs g h j j.isLt

/-- An instruction that computes whole lanes from those of a, b and c (R91). -/
theorem WholeForm.of_lcompute {F : Word32 → Word32 → Word32 → Word32 × Byte} (hF : ∀ x, f x = F x.a x.b x.c) :
    WholeForm s i o u F := by
  refine LaneForm.of_lcompute hexec hl (fun p vs g h j hj => ?_) fun vs j b => ?_
  · rw [hF]
    rfl
  · rw [hF]
    exact (exists_eq_left (p := fun x : Byte => x.getLsbD b = true)).symm

end

theorem lopUse_late (o : LOp) (k : Srcs) : (lopUse o k).late = false := by
  cases k
  case a => rfl
  all_goals exact LUse.withC_late _ _

/-! ### Elements of a lane (R11, R92) -/

theorem elemWidth_mul_count (t : ElemType) : t.width * t.count = 32 := by cases t <;> rfl

theorem elemWidth_pos (t : ElemType) : 0 < t.width := by cases t <;> decide

theorem elemWidth_le (t : ElemType) : t.width ≤ 32 := by cases t <;> decide

theorem packElems_lt (w : Nat) (xs : List Nat) : packElems w xs < 2 ^ (w * xs.length) := by
  induction xs with
  | nil => simp [packElems]
  | cons x xs ih =>
    have hx : x % 2 ^ w < 2 ^ w := Nat.mod_lt _ (Nat.two_pow_pos w)
    calc packElems w (x :: xs) = x % 2 ^ w + 2 ^ w * packElems w xs := rfl
      _ < 2 ^ w * (packElems w xs + 1) := by rw [Nat.mul_add]; omega
      _ ≤ 2 ^ w * 2 ^ (w * xs.length) := Nat.mul_le_mul_left _ ih
      _ = 2 ^ (w * (x :: xs).length) := by rw [List.length_cons, Nat.mul_succ, Nat.add_comm, Nat.pow_add]

/-- Each element of a packed lane is the one it was packed from. -/
theorem packElems_elem (w : Nat) {xs : List Nat} {e : Nat} (he : e < xs.length) :
    packElems w xs / 2 ^ (w * e) % 2 ^ w = xs[e] % 2 ^ w := by
  induction xs generalizing e with
  | nil => cases he
  | cons x xs ih =>
    have hx : x % 2 ^ w < 2 ^ w := Nat.mod_lt _ (Nat.two_pow_pos w)
    cases e with
    | zero => simp [packElems]
    | succ e =>
      have hdiv : packElems w (x :: xs) / 2 ^ w = packElems w xs := by
        rw [packElems, Nat.add_mul_div_left _ _ (Nat.two_pow_pos w), Nat.div_eq_of_lt hx, Nat.zero_add]
      rw [Nat.mul_succ, Nat.add_comm, Nat.pow_add, ← Nat.div_div_eq_div_mul, hdiv]
      exact ih (Nat.lt_of_succ_lt_succ he)

/-- An element of a lane that is packed from as many elements as its type has (R11). -/
theorem elemOf_packElems (t : ElemType) {xs : List Nat} (hlen : xs.length = t.count) {e : Nat} (he : e < t.count) :
    elemOf t e (BitVec.ofNat 32 (packElems t.width xs)) = BitVec.ofNat t.width (xs[e]'(hlen ▸ he)) := by
  have hlt : packElems t.width xs < 2 ^ 32 := by
    rw [← elemWidth_mul_count t, ← hlen]
    exact packElems_lt _ _
  apply BitVec.eq_of_toNat_eq
  rw [toNat_elemOf, elemAt, BitVec.toNat_ofNat, BitVec.toNat_ofNat, Nat.mod_eq_of_lt hlt, Nat.shiftRight_eq_div_pow]
  exact packElems_elem _ _

/-- A lane gathered from elements holds each of them (R11). -/
theorem elemOf_gather (t : ElemType) (f : Nat → Nat × Byte) {e : Nat} (he : e < t.count) :
    elemOf t e (gather t f).1 = BitVec.ofNat t.width (f e).1 := by
  unfold gather
  dsimp only
  rw [elemOf_packElems t (by simp) he]
  simp

/-- Its flags are those that some element sets (R38, R92). -/
theorem gather_flags (t : ElemType) (f : Nat → Nat × Byte) (b : Nat) :
    (gather t f).2.getLsbD b = true ↔ ∃ e, e < t.count ∧ (f e).2.getLsbD b = true := by
  unfold gather
  dsimp only
  rw [foldl_or_zero_getLsbD]
  simp

/-- A computation on the elements of one type is gathered from them (R92). -/
theorem elemwise_eq_gather (t : ElemType) (f : Nat → Nat → Nat → Nat × Byte) (a b c : Word32) :
    elemwise t f a b c = gather t fun e => f (elemOf t e a).toNat (elemOf t e b).toNat (elemOf t e c).toNat := by
  simp only [toNat_elemOf]
  rfl

/-- An instruction that gathers each selected lane from elements of a type (R38, R92). -/
theorem LaneForm.of_gather {s : State} {i : Instr} {o : LOp} {k : Srcs} {t : ElemType} {f : LaneIn → Nat → Nat × Byte}
    {r : List Word → Nat → Nat → BitVec t.width × Byte}
    (hexec : exec i s = .next (s.lcompute o (lopUse o k) fun x => gather t (f x)))
    (hr : ∀ vs j e, e < t.count → (BitVec.ofNat t.width (f (laneIn s o vs j) e).1, (f (laneIn s o vs j) e).2) = r vs j e) :
    LaneForm s i o (lopUse o k) (fun _ vs i x => ∀ e, e < t.count → elemOf t e x = (r vs i e).1)
      (flagsOver s o fun vs i x => ∃ e, e < t.count ∧ x = (r vs i e).2) := by
  refine LaneForm.of_lcompute hexec (lopUse_late o k) (fun p vs g h j hj e he => ?_) fun vs j b => ?_
  · rw [elemOf_gather t _ he, ← hr vs j e he]
  · rw [gather_flags]
    constructor
    · rintro ⟨e, he, hb⟩
      exact ⟨_, ⟨e, he, rfl⟩, by rwa [← hr vs j e he]⟩
    · rintro ⟨_, ⟨e, he, rfl⟩, hb⟩
      exact ⟨e, he, by rwa [← hr vs j e he] at hb⟩

/-- An instruction that computes the elements of its type, from what it gives for three of them (R92). -/
theorem ElemForm.of_lelem {s : State} {i : Instr} {o : LOp} {k : Srcs} {f : Nat → Nat → Nat → Nat × Byte}
    {F : BitVec o.ty.width → BitVec o.ty.width → BitVec o.ty.width → BitVec o.ty.width × Byte}
    (hexec : exec i s = .next (s.lelem o k f))
    (hf : ∀ a b c : BitVec o.ty.width, (BitVec.ofNat o.ty.width (f a.toNat b.toNat c.toNat).1, (f a.toNat b.toNat c.toNat).2) = F a b c) :
    ElemForm s i o k F := by
  refine LaneForm.of_gather (t := o.ty) (r := fun vs j e =>
      F (elemOf o.ty e (srcA s o j)) (elemOf o.ty e (srcB s o j)) (elemOf o.ty e (srcC s o vs j)))
    (f := fun x e => f (elemOf o.ty e x.a).toNat (elemOf o.ty e x.b).toNat (elemOf o.ty e x.c).toNat)
    ?_ fun vs j e _ => hf _ _ _
  simp only [← elemwise_eq_gather]
  exact hexec

end Sys2Proof.Machine
end

section
/-! Integer elements of a lane (R28, R29, R75, R95, R96). -/

namespace Sys2Proof.Machine

/-! ### The integer that an element stands for (R28, R29) -/

/-- The integer of a bit vector, signed or natural (R28). -/
def numOf (signed : Bool) {w : Nat} (x : BitVec w) : Int := if signed then x.toInt else x.toNat

theorem intOf_toNat (signed : Bool) {w : Nat} (x : BitVec w) : intOf signed w x.toNat = numOf signed x := by
  unfold intOf numOf
  cases signed
  · rfl
  · rw [BitVec.toInt_eq_msb_cond, BitVec.msb_eq_decide]
    simp

theorem asInt_toNat (o : LOp) (x : BitVec o.ty.width) : asInt o x.toNat = numOf o.ty.signed x := asInt_elem o x

/-- The low bits of the integer are the element itself (R29). -/
@[simp] theorem ofInt_numOf (signed : Bool) {w : Nat} (x : BitVec w) : BitVec.ofInt w (numOf signed x) = x := by
  unfold numOf
  cases signed
  · simp [BitVec.ofInt_natCast]
  · simp

theorem toNat_ofInt_eq_wrapInt (w : Nat) (i : Int) : (BitVec.ofInt w i).toNat = wrapInt w i := by
  rw [BitVec.toNat_ofInt, wrapInt]
  push_cast
  rfl

@[simp] theorem ofNat_wrapInt (w : Nat) (i : Int) : BitVec.ofNat w (wrapInt w i) = BitVec.ofInt w i := by
  rw [← toNat_ofInt_eq_wrapInt, BitVec.ofNat_toNat, BitVec.setWidth_eq]

theorem ofInt_sub (w : Nat) (i j : Int) : BitVec.ofInt w (i - j) = BitVec.ofInt w i - BitVec.ofInt w j := by
  rw [Int.sub_eq_add_neg, BitVec.ofInt_add, BitVec.ofInt_neg, BitVec.sub_eq_add_neg]

/-- A flag for an exact result that lies outside the range (R29). -/
theorem flagIf_outside (signed : Bool) (w : Nat) (i : Int) (f : Byte) :
    flagIf (!inRange signed w i) f = if i < intMin signed w ∨ intMax signed w < i then f else 0 := by
  unfold flagIf inRange
  by_cases h : i < intMin signed w ∨ intMax signed w < i
  · rw [if_pos h, if_pos (by simpa using h)]
  · rw [if_neg h, if_neg (by simpa using h)]

/-! ### Bits of an element (R95) -/

theorem ofNat_shl {w : Nat} (a : BitVec w) (n : Nat) : BitVec.ofNat w (a.toNat * 2 ^ n % 2 ^ w) = a <<< n := by
  apply BitVec.eq_of_toNat_eq
  simp [BitVec.toNat_shiftLeft, Nat.shiftLeft_eq]

theorem ofNat_shr {w : Nat} (a : BitVec w) (n : Nat) : BitVec.ofNat w (a.toNat / 2 ^ n) = a >>> n := by
  apply BitVec.eq_of_toNat_eq
  rw [BitVec.toNat_ofNat, BitVec.toNat_ushiftRight, Nat.shiftRight_eq_div_pow]
  exact Nat.mod_eq_of_lt (Nat.lt_of_le_of_lt (Nat.div_le_self ..) a.isLt)

theorem ofInt_sra {w : Nat} (a : BitVec w) (n : Nat) : BitVec.ofInt w (numOf true a / 2 ^ n) = a.sshiftRight n := by
  unfold BitVec.sshiftRight
  rw [Int.shiftRight_eq_div_pow]
  push_cast
  rfl

/-- A rotation adds the bits shifted out to those that stay, which lie below them (R95). -/
theorem ofNat_rotr {w : Nat} (a : BitVec w) {n : Nat} (h : n < w) :
    BitVec.ofNat w (a.toNat / 2 ^ n + a.toNat * 2 ^ (w - n) % 2 ^ w) = a.rotateRight n := by
  have hw : 2 ^ w = 2 ^ (w - n) * 2 ^ n := by rw [← Nat.pow_add, Nat.sub_add_cancel h.le]
  have hlow : a.toNat / 2 ^ n < 2 ^ (w - n) := Nat.div_lt_of_lt_mul (by rw [Nat.mul_comm, ← hw]; exact a.isLt)
  have hhigh : a.toNat * 2 ^ (w - n) % 2 ^ w = 2 ^ (w - n) * (a.toNat % 2 ^ n) := by rw [hw, Nat.mul_comm, Nat.mul_mod_mul_left]
  have hrot : (a.rotateRight n).toNat = a.toNat / 2 ^ n + a.toNat * 2 ^ (w - n) % 2 ^ w := by
    rw [BitVec.toNat_rotateRight, Nat.mod_eq_of_lt h, Nat.shiftRight_eq_div_pow, Nat.shiftLeft_eq, hhigh, Nat.lor_comm,
      ← Nat.two_pow_add_eq_or_of_lt hlow, Nat.add_comm]
  rw [← hrot, BitVec.ofNat_toNat, BitVec.setWidth_eq]

/-- The number of leading zeros, from the place of the highest one (R74). -/
theorem ofNat_leadingZeros {w : Nat} (hw : 0 < w) (x : BitVec w) : BitVec.ofNat w (leadingZeros w x.toNat) = x.clz := by
  unfold leadingZeros
  by_cases hx : x = 0
  · subst hx
    exact (BitVec.clz_eq_iff_eq_zero.mpr rfl).symm
  · have hne : x.toNat ≠ 0 := fun h => hx (BitVec.eq_of_toNat_eq h)
    have hlow := BitVec.two_pow_sub_clz_le_toNat_of_ne_zero hw hx
    have hhigh := x.toNat_lt_two_pow_sub_clz
    have hclz : x.clz.toNat < w := by
      by_contra hge
      rw [Nat.sub_eq_zero_of_le (Nat.le_of_not_lt hge), Nat.pow_zero] at hhigh
      omega
    have hlog : Nat.log2 x.toNat = w - 1 - x.clz.toNat :=
      (Nat.log2_eq_iff hne).mpr ⟨hlow, by rwa [show w - 1 - x.clz.toNat + 1 = w - x.clz.toNat by omega]⟩
    rw [if_neg (by simpa using hne), hlog, show w - 1 - (w - 1 - x.clz.toNat) = x.clz.toNat by omega, BitVec.ofNat_toNat,
      BitVec.setWidth_eq]

/-- The one bits of an element are those of the lane that holds it alone (R95). -/
theorem popcount_ofNat {w n : Nat} (h : w ≤ n) (x : BitVec w) :
    popcount (BitVec.ofNat n x.toNat) = (List.range w).countP fun i => x.getLsbD i := by
  obtain ⟨k, rfl⟩ := Nat.exists_eq_add_of_le h
  have hbit (i : Nat) (hi : i < w + k) : (BitVec.ofNat (w + k) x.toNat).getLsbD i = x.getLsbD i := by
    rw [BitVec.ofNat_toNat, BitVec.getLsbD_setWidth, decide_eq_true hi, Bool.true_and]
  rw [popcount_eq_countP, List.range_add, List.countP_append, List.countP_map]
  have hhigh : (List.range k).countP ((fun i => (BitVec.ofNat (w + k) x.toNat).getLsbD i) ∘ fun j => w + j) = 0 := by
    refine List.countP_eq_zero.mpr fun j hj => ?_
    rw [Function.comp_apply, hbit _ (Nat.add_lt_add_left (List.mem_range.mp hj) w), BitVec.getLsbD_of_ge _ _ (Nat.le_add_right w j)]
    simp
  rw [hhigh, Nat.add_zero]
  exact List.countP_congr fun i hi => by rw [hbit i (by have := List.mem_range.mp hi; omega)]

theorem reverseBits_lt (w x : Nat) : reverseBits w x < 2 ^ w := by
  induction w generalizing x with
  | zero => simp [reverseBits]
  | succ w ih =>
    have := ih (x / 2)
    have hbit : x % 2 * 2 ^ w ≤ 1 * 2 ^ w := Nat.mul_le_mul_right _ (by omega)
    rw [reverseBits, Nat.pow_succ]
    omega

/-- Bit i of the reversal is bit w - 1 - i (R95). -/
theorem testBit_reverseBits (w x : Nat) {i : Nat} (hi : i < w) : (reverseBits w x).testBit i = x.testBit (w - 1 - i) := by
  induction w generalizing x with
  | zero => cases hi
  | succ w ih =>
    rw [reverseBits, Nat.mul_comm]
    by_cases h : i < w
    · rw [Nat.testBit_two_pow_mul_add _ (reverseBits_lt w _), if_pos h, ih _ h, Nat.testBit_div_two]
      congr 1
      omega
    · obtain rfl : i = w := by omega
      rw [Nat.testBit_two_pow_mul_add _ (reverseBits_lt _ _), if_neg h]
      simp [Nat.testBit_zero]

theorem ofNat_reverseBits {w : Nat} (x : BitVec w) : BitVec.ofNat w (reverseBits w x.toNat) = x.reverse := by
  refine BitVec.eq_of_getLsbD_eq fun i hi => ?_
  rw [BitVec.getLsbD_ofNat, testBit_reverseBits w _ hi, BitVec.getLsbD_reverse, BitVec.getMsbD]
  rfl

/-! ### Division (R75, R96) -/

/-- The most negative element, divided by minus one, overflows (R75). -/
def divTop (signed : Bool) {w : Nat} (a c : BitVec w) : Bool := signed && a == BitVec.intMin w && c == BitVec.allOnes w

theorem divTop_eq (signed : Bool) {w : Nat} (hw : 0 < w) (a c : BitVec w) :
    (signed && a.toNat == 2 ^ (w - 1) && c.toNat == 2 ^ w - 1) = divTop signed a c := by
  have ha : (a.toNat == 2 ^ (w - 1)) = (a == BitVec.intMin w) := by
    rw [Bool.eq_iff_iff, beq_iff_eq, beq_iff_eq, ← BitVec.toNat_inj, BitVec.toNat_intMin_of_pos hw]
  have hc : (c.toNat == 2 ^ w - 1) = (c == BitVec.allOnes w) := by
    rw [Bool.eq_iff_iff, beq_iff_eq, beq_iff_eq, ← BitVec.toNat_inj, BitVec.toNat_allOnes]
  rw [ha, hc, divTop]

/-- A division by zero: all ones, and the dividend (R75). -/
theorem divideInt_zero (signed : Bool) {w : Nat} (a : BitVec w) (overflow : Bool) :
    divideInt signed w a.toNat (0 : BitVec w).toNat overflow = ((2 ^ w - 1, a.toNat), if a = 0 then flagNV else flagDZ) := by
  have ha : a.toNat = 0 ↔ a = 0 := BitVec.toNat_inj (y := 0)
  simp [divideInt, ha]

section
variable (signed : Bool) {w : Nat} (hw : 0 < w) {a c : BitVec w} (overflow : Bool)
include hw

/-- The division that overflows: the dividend, and zero (R75). -/
theorem divideInt_top (h : divTop signed a c = true) :
    divideInt signed w a.toNat c.toNat overflow = ((a.toNat, 0), flagIf overflow flagIO) := by
  have hc : (c.toNat == 0) = false := by
    simp only [divTop, Bool.and_eq_true, beq_iff_eq] at h
    obtain ⟨_, rfl⟩ := h
    exact beq_false_of_ne fun h0 => hw.ne' (BitVec.allOnes_eq_zero_iff.mp (BitVec.eq_of_toNat_eq h0))
  simp only [divideInt, hc, Bool.false_eq_true, if_false, divTop_eq signed hw, h, if_true]

/-- Every other division truncates toward zero (R75). -/
theorem divideInt_exact (hc : c ≠ 0) (h : divTop signed a c = false) : divideInt signed w a.toNat c.toNat overflow =
    ((wrapInt w ((numOf signed a).tdiv (numOf signed c)), wrapInt w ((numOf signed a).tmod (numOf signed c))), 0) := by
  have hc : (c.toNat == 0) = false := beq_false_of_ne fun h0 => hc (BitVec.eq_of_toNat_eq h0)
  simp only [divideInt, hc, Bool.false_eq_true, if_false, divTop_eq signed hw, h, intOf_toNat]

/-- The exact quotient and remainder of the division that overflows (R75). -/
theorem ofInt_div_top (h : divTop signed a c = true) :
    BitVec.ofInt w ((numOf signed a).tdiv (numOf signed c)) = a ∧ (numOf signed a).tmod (numOf signed c) = 0 := by
  simp only [divTop, Bool.and_eq_true, beq_iff_eq] at h
  obtain ⟨⟨rfl, rfl⟩, rfl⟩ := h
  have hc : numOf true (BitVec.allOnes w) = -1 := BitVec.toInt_allOnes.trans (if_pos hw)
  rw [hc, Int.tdiv_neg, Int.tdiv_one, Int.tmod_neg, Int.tmod_one, BitVec.ofInt_neg, ofInt_numOf, BitVec.neg_intMin]
  exact ⟨rfl, rfl⟩

variable (a c)

/-- The quotient of a division (R75). -/
theorem ofNat_quotient : BitVec.ofNat w (divideInt signed w a.toNat c.toNat overflow).1.1 =
    if c = 0 then BitVec.allOnes w else BitVec.ofInt w ((numOf signed a).tdiv (numOf signed c)) := by
  by_cases hc : c = 0
  · subst hc
    rw [divideInt_zero, if_pos rfl]
    exact BitVec.eq_of_toNat_eq (by simp)
  · rw [if_neg hc]
    cases htop : divTop signed a c
    · rw [divideInt_exact signed hw overflow hc htop, ofNat_wrapInt]
    · rw [divideInt_top signed hw overflow htop, (ofInt_div_top signed hw htop).1]
      simp

/-- The remainder of a division (R75). -/
theorem ofNat_remainder : BitVec.ofNat w (divideInt signed w a.toNat c.toNat overflow).1.2 =
    if c = 0 then a else BitVec.ofInt w ((numOf signed a).tmod (numOf signed c)) := by
  by_cases hc : c = 0
  · subst hc
    rw [divideInt_zero, if_pos rfl]
    simp
  · rw [if_neg hc]
    cases htop : divTop signed a c
    · rw [divideInt_exact signed hw overflow hc htop, ofNat_wrapInt]
    · rw [divideInt_top signed hw overflow htop, (ofInt_div_top signed hw htop).2]
      simp

/-- The flags of a division (R75, R96). -/
theorem divideInt_flags : (divideInt signed w a.toNat c.toNat overflow).2 =
    if divTop signed a c && overflow then flagIO else if c ≠ 0 then 0 else if a = 0 then flagNV else flagDZ := by
  by_cases hc : c = 0
  · subst hc
    have htop : divTop signed a (0 : BitVec w) = false := by
      simp [divTop, hw.ne']
    rw [divideInt_zero, htop]
    simp
  · rw [if_pos hc]
    cases htop : divTop signed a c
    · rw [divideInt_exact signed hw overflow hc htop]
      rfl
    · rw [divideInt_top signed hw overflow htop]
      rfl

end

end Sys2Proof.Machine
end

section
/-! Bit fields and the exact sum of VDOT4 (R97, R99), and the statement about the integer and bit rows. -/

namespace Sys2Proof.Machine

/-! ### Bit fields (R99) -/

/-- The lane whose bits from a position on are the field: the sign, or zeros, continue it (R99). -/
def extendLane (signed : Bool) (a : Word32) : BitVec 64 := if signed then a.signExtend 64 else a.setWidth 64

theorem extendLane_getLsbD (signed : Bool) (a : Word32) {i : Nat} (hi : i < 64) :
    (extendLane signed a).getLsbD i = if i < 32 then a.getLsbD i else signed && a.msb := by
  unfold extendLane
  cases signed
  · by_cases h : i < 32
    · simp [h, hi]
    · simp [h, hi, BitVec.getLsbD_of_ge _ _ (Nat.le_of_not_lt h)]
  · rw [if_pos rfl, BitVec.getLsbD_signExtend, decide_eq_true hi]
    simp

/-- The low bits of the integer of a shorter bit vector: its bits, and above them its sign or zeros (R29). -/
theorem ofInt_numOf_getLsbD (signed : Bool) {n : Nat} (x : BitVec n) {v i : Nat} (hi : i < v) :
    (BitVec.ofInt v (numOf signed x)).getLsbD i = if i < n then x.getLsbD i else signed && x.msb := by
  unfold numOf
  cases signed
  · rw [if_neg (by simp), BitVec.ofInt_natCast, BitVec.ofNat_toNat, BitVec.getLsbD_setWidth, decide_eq_true hi]
    by_cases h : i < n
    · simp [h]
    · simp [h, BitVec.getLsbD_of_ge _ _ (Nat.le_of_not_lt h)]
  · have hext : BitVec.ofInt v x.toInt = x.signExtend v := rfl
    rw [if_pos rfl, hext, BitVec.getLsbD_signExtend, decide_eq_true hi]
    simp

theorem numOf_of_width_zero (signed : Bool) {w : Nat} (hw : w = 0) (x : BitVec w) : numOf signed x = 0 := by
  subst hw
  rw [BitVec.eq_nil x]
  cases signed <;> rfl

/-- VBFX in a lane (R99). -/
def bitField (signed : Bool) (a c : Word32) : Word32 :=
  BitVec.ofInt 32 (numOf signed ((extendLane signed a).extractLsb' (fieldPos c) (fieldLen c)))

theorem bitField_getLsbD (signed : Bool) (a c : Word32) {n : Nat} (hn : n < 32) :
    let field (i : Nat) : Bool := if fieldPos c + i < 32 then a.getLsbD (fieldPos c + i) else signed && a.msb
    (bitField signed a c).getLsbD n =
      if n < fieldLen c then field n else signed && fieldLen c != 0 && field (fieldLen c - 1) := by
  intro field
  have hpos : fieldPos c < 32 := Nat.mod_lt _ (by decide)
  have hlen : fieldLen c ≤ 32 := Nat.min_le_right ..
  have hfield {i : Nat} (hi : i < fieldLen c) :
      ((extendLane signed a).extractLsb' (fieldPos c) (fieldLen c)).getLsbD i = field i := by
    rw [BitVec.getLsbD_extractLsb', decide_eq_true hi, Bool.true_and, extendLane_getLsbD _ _ (by omega)]
  rw [bitField, ofInt_numOf_getLsbD _ _ hn]
  split
  · next h => exact hfield h
  · rw [BitVec.msb_eq_getLsbD_last, Bool.and_assoc]
    congr 1
    by_cases h0 : fieldLen c = 0
    · rw [BitVec.getLsbD_of_ge _ _ (by omega)]
      simp [h0]
    · rw [hfield (by omega)]
      simp [h0]

/-- The model's VBFX extracts the field (R99). -/
theorem execVbfx_eq (o : LOp) (s : State) :
    execVbfx o s = .next (s.lcompute o (lopUse o .ac) fun x => (bitField (o.ty == .s32) x.a x.c, 0)) := by
  unfold execVbfx bitField
  refine congrArg (fun f => Host.Outcome.next (s.lcompute o _ f)) (funext fun x => ?_)
  generalize (o.ty == .s32) = signed
  dsimp only
  have hfield : (extendLane signed x.a).toNat / 2 ^ fieldPos x.c % 2 ^ fieldLen x.c =
      ((extendLane signed x.a).extractLsb' (fieldPos x.c) (fieldLen x.c)).toNat := by
    rw [BitVec.extractLsb'_toNat, Nat.shiftRight_eq_div_pow]
  refine Prod.ext ?_ rfl
  dsimp only
  rw [← extendLane, hfield, intOf_toNat]
  split
  · next h0 =>
    rw [numOf_of_width_zero signed (beq_iff_eq.mp h0)]
    rfl
  · rfl

/-- The lanes of bits that VBFI writes (R99). -/
theorem fieldMask_getLsbD (len pos : Nat) {n : Nat} (hn : n < 32) :
    (BitVec.ofNat 32 ((2 ^ len - 1) * 2 ^ pos)).getLsbD n = decide (pos ≤ n ∧ n < pos + len) := by
  rw [BitVec.getLsbD_ofNat, decide_eq_true hn, Bool.true_and, Nat.testBit_mul_two_pow, Nat.testBit_two_pow_sub_one,
    ← Bool.decide_and]
  exact decide_eq_decide.mpr (and_congr_right fun h => by omega)

/-- VBFI in a lane (R99). -/
theorem insertField_getLsbD (d a : Word32) (len pos : Nat) {n : Nat} (hn : n < 32) :
    ((d &&& ~~~BitVec.ofNat 32 ((2 ^ len - 1) * 2 ^ pos)) ||| ((a <<< pos) &&& BitVec.ofNat 32 ((2 ^ len - 1) * 2 ^ pos))).getLsbD n =
      if pos ≤ n ∧ n < pos + len then a.getLsbD (n - pos) else d.getLsbD n := by
  rw [BitVec.getLsbD_or, BitVec.getLsbD_and, BitVec.getLsbD_and, BitVec.getLsbD_not, fieldMask_getLsbD _ _ hn,
    BitVec.getLsbD_shiftLeft, decide_eq_true hn]
  by_cases h : pos ≤ n ∧ n < pos + len
  · rw [if_pos h, decide_eq_true h]
    simp [Nat.not_lt.mpr h.1]
  · rw [if_neg h, decide_eq_false h]
    simp

/-! ### The exact sum of VDOT4 (R97) -/

theorem intOf_byte (signed : Bool) (e : Nat) (x : Word32) :
    intOf signed 8 (elemAt 8 e x) = numOf signed (x.extractLsb' (8 * e) 8) := by
  rw [← intOf_toNat, BitVec.extractLsb'_toNat]
  rfl

theorem dot4_eq (o : LOp) (a b c : Word32) :
    let byte (signed : Bool) (e : Nat) (x : Word32) : Int := numOf signed (x.extractLsb' (8 * e) 8)
    let other : Bool := o.ty.signed != o.mods.getLsbD 0
    dot4 o a b c = c.toInt + byte o.ty.signed 0 a * byte other 0 b + byte o.ty.signed 1 a * byte other 1 b +
      byte o.ty.signed 2 a * byte other 2 b + byte o.ty.signed 3 a * byte other 3 b := by
  simp only [dot4, intOf_byte]
  rfl

/-! ### The integer rows, element by element (R95, R96) -/

section
variable {s : State} {i : Instr} {o : LOp} {k : Srcs}
  {F : BitVec o.ty.width → BitVec o.ty.width → BitVec o.ty.width → BitVec o.ty.width}

/-- A row whose exact result wraps (R29). -/
theorem ElemForm.of_wrapTo {f : Nat → Nat → Nat → Int} (hexec : exec i s = .next (s.lelem o k fun a b c => wrapTo o (f a b c)))
    (hF : ∀ a b c : BitVec o.ty.width, BitVec.ofInt o.ty.width (f a.toNat b.toNat c.toNat) = F a b c) :
    ElemForm s i o k fun a b c => (F a b c, 0) :=
  .of_lelem hexec fun a b c => Prod.ext ((ofNat_wrapInt ..).trans (hF a b c)) rfl

/-- A row that sets no flag, on the elements as numbers. -/
theorem ElemForm.of_plain {f : Nat → Nat → Nat → Nat} (hexec : exec i s = .next (s.lelem o k fun a b c => plain (f a b c)))
    (hF : ∀ a b c : BitVec o.ty.width, BitVec.ofNat o.ty.width (f a.toNat b.toNat c.toNat) = F a b c) :
    ElemForm s i o k fun a b c => (F a b c, 0) :=
  .of_lelem hexec fun a b c => Prod.ext (hF a b c) rfl

/-- A row whose exact result clamps, with SA where it lies outside the range (R29). -/
theorem ElemForm.of_clampTo {f : Nat → Nat → Nat → Int} {I : BitVec o.ty.width → BitVec o.ty.width → BitVec o.ty.width → Int}
    (hexec : exec i s = .next (s.lelem o k fun a b c => clampTo o (f a b c)))
    (hI : ∀ a b c : BitVec o.ty.width, f a.toNat b.toNat c.toNat = I a b c) :
    ElemForm s i o k fun a b c => (BitVec.ofInt o.ty.width (clampInt o.ty.signed o.ty.width (I a b c)),
      if I a b c < intMin o.ty.signed o.ty.width ∨ intMax o.ty.signed o.ty.width < I a b c then flagSA else 0) :=
  .of_lelem hexec fun a b c => by
    rw [hI]
    exact Prod.ext (ofNat_wrapInt ..) (flagIf_outside ..)

end

section
variable (s : State) (o : LOp)

theorem elemForm_vadd : ElemForm s (.vadd o) o .ac fun a _ c => (a + c, 0) :=
  .of_wrapTo rfl fun a _ c => by rw [asInt_toNat, asInt_toNat, BitVec.ofInt_add, ofInt_numOf, ofInt_numOf]

theorem elemForm_vsub : ElemForm s (.vsub o) o .ac fun a _ c => (a - c, 0) :=
  .of_wrapTo rfl fun a _ c => by rw [asInt_toNat, asInt_toNat, ofInt_sub, ofInt_numOf, ofInt_numOf]

theorem elemForm_vmad : ElemForm s (.vmad o) o .abc fun a b c => (a * b + c, 0) :=
  .of_wrapTo rfl fun a b c => by
    rw [asInt_toNat, asInt_toNat, asInt_toNat, BitVec.ofInt_add, BitVec.ofInt_mul, ofInt_numOf, ofInt_numOf, ofInt_numOf]

theorem elemForm_vmulh : ElemForm s (.vmulh o) o .ac fun a _ c =>
    (BitVec.ofInt o.ty.width (numOf o.ty.signed a * numOf o.ty.signed c / 2 ^ o.ty.width), 0) :=
  .of_wrapTo rfl fun a _ c => by rw [asInt_toNat, asInt_toNat]

/-- The product wraps, with IO where it lies outside the range (R95). -/
theorem elemForm_vmul : ElemForm s (.vmul o) o .ac fun a _ c =>
    let p := numOf o.ty.signed a * numOf o.ty.signed c
    (a * c, if p < intMin o.ty.signed o.ty.width ∨ intMax o.ty.signed o.ty.width < p then flagIO else 0) :=
  .of_lelem rfl fun a _ c => by
    rw [asInt_toNat, asInt_toNat, ofNat_wrapInt, BitVec.ofInt_mul, ofInt_numOf, ofInt_numOf]
    exact Prod.ext rfl (flagIf_outside ..)

theorem elemForm_vabsd : ElemForm s (.vabsd o) o .ac fun a _ c =>
    (BitVec.ofNat o.ty.width (numOf o.ty.signed a - numOf o.ty.signed c).natAbs, 0) :=
  .of_plain rfl fun a _ c => by rw [asInt_toNat, asInt_toNat]

theorem elemForm_vmin : ElemForm s (.vmin o) o .ac fun a _ c => (if numOf o.ty.signed a ≤ numOf o.ty.signed c then a else c, 0) :=
  .of_plain rfl fun a _ c => by
    rw [asInt_toNat, asInt_toNat]
    split <;> simp

theorem elemForm_vmax : ElemForm s (.vmax o) o .ac fun a _ c => (if numOf o.ty.signed a ≤ numOf o.ty.signed c then c else a, 0) :=
  .of_plain rfl fun a _ c => by
    rw [asInt_toNat, asInt_toNat]
    split <;> simp

theorem elemForm_vrotr : ElemForm s (.vrotr o) o .ac fun a _ c => (a.rotateRight (c.toNat % o.ty.width), 0) :=
  .of_plain rfl fun a _ _ => ofNat_rotr a (Nat.mod_lt _ (elemWidth_pos o.ty))

theorem elemForm_vpopc : ElemForm s (.vpopc o) o .c fun _ _ c =>
    (BitVec.ofNat o.ty.width ((List.range o.ty.width).countP fun i => c.getLsbD i), 0) :=
  .of_plain rfl fun _ _ _ => by rw [popcount_ofNat (elemWidth_le o.ty)]

/-- The quotient, with IO where it overflows and NV or DZ where the divisor is zero (R75, R96). -/
theorem elemForm_vdiv : ElemForm s (.vdiv o) o .ac fun a _ c =>
    (if c = 0 then BitVec.allOnes o.ty.width else BitVec.ofInt o.ty.width ((numOf o.ty.signed a).tdiv (numOf o.ty.signed c)),
      if divTop o.ty.signed a c then flagIO else if c ≠ 0 then 0 else if a = 0 then flagNV else flagDZ) :=
  .of_lelem rfl fun a _ c => Prod.ext (ofNat_quotient _ (elemWidth_pos o.ty) a c true) (by
    rw [divideInt_flags _ (elemWidth_pos o.ty), Bool.and_true])

/-- The remainder, with NV or DZ where the divisor is zero (R75, R96). -/
theorem elemForm_vrem : ElemForm s (.vrem o) o .ac fun a _ c =>
    (if c = 0 then a else BitVec.ofInt o.ty.width ((numOf o.ty.signed a).tmod (numOf o.ty.signed c)),
      if c ≠ 0 then 0 else if a = 0 then flagNV else flagDZ) :=
  .of_lelem rfl fun a _ c => Prod.ext (ofNat_remainder _ (elemWidth_pos o.ty) a c false) (by
    rw [divideInt_flags _ (elemWidth_pos o.ty), Bool.and_false]
    rfl)

/-! ### The rows that compute whole lanes (R95, R97 to R99) -/

/-- VSEL chooses by the bit of its predicate, which for p0 is the active mask (R10, R98). -/
theorem laneForm_vsel : LaneForm s (.vsel o) o { lopUse o .ac with preads := [o.g.p, o.mods.extractLsb' 0 3] }
    (fun p vs i x =>
      let bit := if o.mods.extractLsb' 0 3 = 0 then p.mask.getLsbD i else
        (look s.cur.l.preds (o.mods.extractLsb' 0 3).toNat 0).getLsbD i
      x = if bit ≠ o.mods.getLsbD 3 then srcA s o i else srcC s o vs i) fun _ _ f => f = 0 := by
  have hfield : BitVec.ofNat 3 (modField o 0 3) = o.mods.extractLsb' 0 3 := by
    rw [modField_eq, BitVec.ofNat_toNat, BitVec.setWidth_eq]
  refine .of_lcompute_quiet (f := fun x =>
    (if (s.cur.pget (((s.cur.path s.ps1).map Path.mask).getD 0) (modField o 0 3)).getLsbD x.i != modBit o 3 then x.a else x.c, 0))
    (by rw [← hfield]; rfl) (lopUse_late o .ac) (fun p vs g h j hj => ?_) fun _ => rfl
  rw [h.path, modField_eq]
  simp only [Option.map_some, Option.getD_some, Group.pget_getLsbD, bne_iff_ne]
  rfl

theorem laneForm_vbfx : LaneForm s (.vbfx o) o (lopUse o .ac)
    (fun _ vs i x => ∀ n, n < 32 →
      let c := srcC s o vs i
      let field (j : Nat) : Bool :=
        if fieldPos c + j < 32 then (srcA s o i).getLsbD (fieldPos c + j) else o.ty == .s32 && (srcA s o i).msb
      x.getLsbD n = if n < fieldLen c then field n else o.ty == .s32 && fieldLen c != 0 && field (fieldLen c - 1))
    fun _ _ f => f = 0 :=
  .of_lcompute_quiet (execVbfx_eq o s) (lopUse_late o .ac) (fun _ _ _ _ _ _ _ hn => bitField_getLsbD _ _ _ hn) fun _ => rfl

theorem laneForm_vbfi : LaneForm s (.vbfi o) o (lopUse o .acd)
    (fun _ vs i x => ∀ n, n < 32 →
      let c := srcC s o vs i
      x.getLsbD n = if fieldPos c ≤ n ∧ n < fieldPos c + fieldLen c then (srcA s o i).getLsbD (n - fieldPos c)
        else (look (s.cur.vget o.vd) i 0).getLsbD n)
    fun _ _ f => f = 0 :=
  .of_lcompute_quiet rfl (lopUse_late o .acd) (fun _ _ _ _ _ _ _ hn => insertField_getLsbD _ _ _ _ hn) fun _ => rfl

/-- The sum of VDOT4 is exact; it wraps, or clamps with SA where it lies outside the range (R97). -/
theorem wholeForm_vdot4 : WholeForm s (.vdot4 o) o (lopUse o .abc) fun a b c =>
    let byte (signed : Bool) (e : Nat) (x : Word32) : Int := numOf signed (x.extractLsb' (8 * e) 8)
    let other : Bool := o.ty.signed != o.mods.getLsbD 0
    let sum := c.toInt + byte o.ty.signed 0 a * byte other 0 b + byte o.ty.signed 1 a * byte other 1 b +
      byte o.ty.signed 2 a * byte other 2 b + byte o.ty.signed 3 a * byte other 3 b
    if o.mods.getLsbD 1 then
      (BitVec.ofInt 32 (clampInt true 32 sum), if sum < intMin true 32 ∨ intMax true 32 < sum then flagSA else 0)
    else (BitVec.ofInt 32 sum, 0) := by
  refine .of_lcompute rfl (lopUse_late o .abc) fun x => ?_
  dsimp only
  rw [dot4_eq, flagIf_outside]
  rfl

end

/-- Settles O28: each row comes down to what it makes of its elements, as integers or as bits, or of its whole lanes. -/
theorem laneIntegersAndBitsCompute : Obligations.LaneIntegersAndBitsCompute := by
  refine ⟨fun s o => ⟨elemForm_vadd s o, elemForm_vsub s o, elemForm_vmul s o, elemForm_vmulh s o, elemForm_vmad s o, ?vadds, ?vsubs,
      elemForm_vabsd s o, elemForm_vmin s o, elemForm_vmax s o, ?vshl, ?vshr, ?vsra, elemForm_vrotr s o, ?vclz, elemForm_vpopc s o,
      ?vbrev, elemForm_vdiv s o, elemForm_vrem s o⟩,
    fun s o => ⟨?vand, ?vor, ?vxor, ?vandn, ?vnot, ?vmov, ?vidx, laneForm_vsel s o, laneForm_vbfx s o, laneForm_vbfi s o,
      wholeForm_vdot4 s o⟩⟩
  case vadds => exact .of_clampTo rfl fun a _ c => by rw [asInt_toNat, asInt_toNat]; rfl
  case vsubs => exact .of_clampTo rfl fun a _ c => by rw [asInt_toNat, asInt_toNat]; rfl
  case vshl => exact .of_plain rfl fun a _ c => ofNat_shl a _
  case vshr => exact .of_plain rfl fun a _ c => ofNat_shr a _
  case vsra => exact .of_wrapTo rfl fun a _ c => by rw [intOf_toNat, ofInt_sra]
  case vclz => exact .of_plain rfl fun _ _ c => ofNat_leadingZeros (elemWidth_pos o.ty) c
  case vbrev => exact .of_plain rfl fun _ _ c => ofNat_reverseBits c
  case vand => exact .of_lcompute rfl (lopUse_late o .ac) fun _ => rfl
  case vor => exact .of_lcompute rfl (lopUse_late o .ac) fun _ => rfl
  case vxor => exact .of_lcompute rfl (lopUse_late o .ac) fun _ => rfl
  case vandn => exact .of_lcompute rfl (lopUse_late o .ac) fun _ => rfl
  case vnot => exact .of_lcompute rfl (lopUse_late o .c) fun _ => rfl
  case vmov => exact .of_lcompute rfl (lopUse_late o .c) fun _ => rfl
  case vidx => exact .of_lcompute_quiet rfl (lopUse_late o .c) (fun _ _ _ _ _ _ => rfl) fun _ => rfl

end Sys2Proof.Machine
end

section
/-! The floating-point rows (R34 to R36, R100 to R103). -/

namespace Sys2Proof.Machine

/-- The rounding mode by the code of its field (R34). -/
theorem rounding_eq (o : LOp) :
    rounding o = if o.rnd = 0 then .rne else if o.rnd = 1 then .rtz else if o.rnd = 2 then .rdn else .rup := by
  unfold rounding
  generalize o.rnd = r
  revert r
  decide

/-- An element of a floating-point type is as wide as its format (R30). -/
theorem ffmt_width {t : ElemType} (h : t.isInt = false) : t.ffmt.width = t.width := by
  cases t
  case f32 | f16x2 | bf16x2 | e4m3x4 | e5m2x4 => rfl
  all_goals cases h

/-! ### Rows that round once (R35, R100) -/

/-- An exact result rounded once, with its flags and those of the operation (R35). -/
def roundedOnce (o : LOp) (mode : Rnd) (r : Val × Byte) : BitVec o.ty.width × Byte :=
  (BitVec.ofNat o.ty.width (o.ty.ffmt.round mode (o.mods.getLsbD 0) r.1).1, (o.ty.ffmt.round mode (o.mods.getLsbD 0) r.1).2 ||| r.2)

theorem ElemForm.of_lfp {s : State} {i : Instr} {o : LOp} {k : Srcs} {f : Val → Val → Val → Val × Byte}
    (hexec : exec i s = .next (s.lfp o k f)) :
    ElemForm s i o k fun a b c =>
      roundedOnce o (rounding o) (f (o.ty.ffmt.decode a.toNat) (o.ty.ffmt.decode b.toNat) (o.ty.ffmt.decode c.toNat)) :=
  .of_lelem hexec fun _ _ _ => rfl

/-! ### Rows that keep the bits of an element (R101) -/

/-- An element as it is, or the canonical NaN where one of two elements is a NaN, with NV for a signalling one (R101). -/
def chosenOrNan (f : FFmt) {w : Nat} (a c x : BitVec w) : BitVec w × Byte :=
  if (f.decode a.toNat).isNan ∨ (f.decode c.toNat).isNan then
    (BitVec.ofNat w f.nanBits, if (f.decode a.toNat).isSig ∨ (f.decode c.toNat).isSig then flagNV else 0)
  else (x, 0)

theorem fminmax_eq (f : FFmt) (larger : Bool) {w : Nat} (a c : BitVec w) :
    (BitVec.ofNat w (fminmax f larger a.toNat c.toNat).1, (fminmax f larger a.toNat c.toNat).2) =
      chosenOrNan f a c (if decide (f.orderKey a.toNat ≤ f.orderKey c.toNat) != larger then a else c) := by
  unfold fminmax chosenOrNan
  simp only [Bool.or_eq_true, flagIf]
  split
  · rfl
  · split <;> simp

theorem fsign_eq (f : FFmt) {g : Nat → Nat} {w : Nat} (c : BitVec w) :
    (BitVec.ofNat w (fsign f g c.toNat).1, (fsign f g c.toNat).2) = chosenOrNan f c c (BitVec.ofNat w (g c.toNat)) := by
  unfold fsign chosenOrNan
  cases f.decode c.toNat <;> simp [Val.isNan, Val.isSig, flagIf]

/-- The magnitude is the element without its sign bit (R30). -/
theorem ofNat_mag (f : FFmt) {w : Nat} (hf : f.width = w) (c : BitVec w) : BitVec.ofNat w (f.mag c.toNat) = c &&& ~~~BitVec.intMin w := by
  refine BitVec.eq_of_getLsbD_eq fun i hi => ?_
  have hsign : (decide (i < w - 1)) = !(BitVec.intMin w).getLsbD i := by
    rw [BitVec.getLsbD_intMin]
    simp only [← decide_not, decide_eq_decide]
    omega
  rw [FFmt.mag, hf, BitVec.getLsbD_ofNat, Nat.testBit_mod_two_pow, BitVec.getLsbD_and, BitVec.getLsbD_not, decide_eq_true hi,
    Bool.true_and, Bool.true_and, hsign, Bool.and_comm]
  rfl

theorem ofNat_flipped {w : Nat} (hw : 0 < w) (c : BitVec w) : BitVec.ofNat w (c.toNat ^^^ 2 ^ (w - 1)) = c ^^^ BitVec.intMin w := by
  rw [← BitVec.toNat_intMin_of_pos hw, ← BitVec.toNat_xor, BitVec.ofNat_toNat, BitVec.setWidth_eq]

/-! ### Classes and integral values (R101, R103) -/

theorem two_pow_classBit (f : FFmt) (c : Nat) : 2 ^ classBit f c =
    match f.decode c with
    | .nan sig => if sig then 0x100 else 0x200
    | .inf n => if n then 0x001 else 0x080
    | .fin n m _ =>
      if m = 0 then (if n then 0x008 else 0x010)
      else if m < 2 ^ f.fbits then (if n then 0x004 else 0x020)
      else if n then 0x002 else 0x040 := by
  unfold classBit
  cases f.decode c with
  | nan sig => cases sig <;> rfl
  | inf n => cases n <;> rfl
  | fin n m e =>
    simp only [beq_iff_eq]
    split
    · cases n <;> rfl
    · split <;> cases n <;> rfl

/-- Settles O29: a row rounds the exact result of its operation, or keeps the bits of an element, or gives its class. -/
theorem laneFloatsRoundOnce : Obligations.LaneFloatsRoundOnce := by
  intro s o w fm mode val once nans chosen hfloat
  have hmode : rounding o = mode := rounding_eq o
  have hw : 0 < w := elemWidth_pos o.ty
  have hwidth : fm.width = w := ffmt_width hfloat
  clear_value mode
  subst hmode
  refine ⟨?vfadd, ?vfsub, ?vfmul, ?vfma, ?vfms, ?vfnma, ?vfdiv, ?vfsqrt, ?vfrsq, ?vfex2, ?vflg2, ?vfsinp,
    ?vfcosp, ?vfscale, ?vfmin, ?vfmax, ?vfabs, ?vfneg, ?vfclass, ?vfrnd⟩
  case vfadd => exact .of_lfp (f := fun a _ c => a.add (rounding o) c) rfl
  case vfsub => exact .of_lfp (f := fun a _ c => a.add (rounding o) c.neg) rfl
  case vfmul => exact .of_lfp (f := fun a _ c => a.mul c) rfl
  case vfma => exact .of_lfp (f := fun a b c => Val.fma (rounding o) a b c false) rfl
  case vfms => exact .of_lfp (f := fun a b c => Val.fma (rounding o) a b c.neg false) rfl
  case vfnma => exact .of_lfp (f := fun a b c => Val.fma (rounding o) a b c true) rfl
  case vfdiv => exact .of_lfp (f := fun a _ c => a.div c) rfl
  case vfsqrt => exact .of_lfp (f := fun _ _ c => c.sqrt) rfl
  case vfrsq => exact .of_lfp (f := fun _ _ c => c.rsqrt) rfl
  case vfex2 => exact .of_lfp (f := fun _ _ c => c.exp2) rfl
  case vflg2 => exact .of_lfp (f := fun _ _ c => c.log2) rfl
  case vfsinp => exact .of_lfp (f := fun _ _ c => c.sinpi) rfl
  case vfcosp => exact .of_lfp (f := fun _ _ c => c.cospi) rfl
  case vfscale =>
    refine .of_lelem rfl fun a _ c => ?_
    rw [intOf_toNat]
    rfl
  case vfmin => exact .of_lelem rfl fun a _ c => (fminmax_eq fm false a c).trans (congrArg (chosenOrNan fm a c) (by simp))
  case vfmax => exact .of_lelem rfl fun a _ c => (fminmax_eq fm true a c).trans (congrArg (chosenOrNan fm a c) (by
    simp only [bne_iff_ne, ne_eq, decide_eq_true_eq, ite_not]))
  case vfabs => exact .of_lelem rfl fun _ _ c => (fsign_eq fm c).trans (congrArg (chosenOrNan fm c c) (ofNat_mag fm hwidth c))
  case vfneg =>
    exact .of_lelem rfl fun _ _ c => (fsign_eq fm c).trans (congrArg (chosenOrNan fm c c) (by rw [hwidth, ofNat_flipped hw]))
  case vfclass => exact .of_lelem rfl fun _ _ c => Prod.ext (congrArg (BitVec.ofNat w) (two_pow_classBit fm c.toNat)) rfl
  case vfrnd =>
    refine .of_lelem rfl fun _ _ c => ?_
    dsimp only [roundIntegral, val, fm]
    cases o.ty.ffmt.decode c.toNat <;> rfl

end Sys2Proof.Machine
end

section
/-! Conversions, packing and quantisation in the lanes (R37, R104 to R108). -/

namespace Sys2Proof.Machine

section
variable {s : State} {i : Instr} {o : LOp} {k : Srcs}

/-- An instruction that converts a source element to each element of its destination type (R37, R38). -/
theorem LaneForm.of_convert {src : LaneIn → Nat → Nat} {F : List Word → Nat → Nat → BitVec o.ty.width}
    (hexec : exec i s = .next (s.lcompute o (lopUse o k) fun x =>
      gather (dstType o) fun e => convert o.ty (dstType o) (rounding o) (modBit o 0) (src x e)))
    (hF : ∀ vs j e, src (laneIn s o vs j) e = (F vs j e).toNat) :
    LaneForm s i o (lopUse o k)
      (fun _ vs j x => ∀ e, e < (dstType o).count → elemOf (dstType o) e x =
        BitVec.ofNat (dstType o).width (convert o.ty (dstType o) (rounding o) (o.mods.getLsbD 0) (F vs j e).toNat).1)
      (flagsOver s o fun vs j x => ∃ e, e < (dstType o).count ∧
        x = (convert o.ty (dstType o) (rounding o) (o.mods.getLsbD 0) (F vs j e).toNat).2) := by
  refine LaneForm.of_gather (r := fun vs j e =>
    (BitVec.ofNat (dstType o).width (convert o.ty (dstType o) (rounding o) (o.mods.getLsbD 0) (F vs j e).toNat).1,
      (convert o.ty (dstType o) (rounding o) (o.mods.getLsbD 0) (F vs j e).toNat).2)) hexec fun vs j e _ => ?_
  rw [← hF]
  rfl

end

theorem dstType_of_code {o : LOp} {t : ElemType} (h : ElemType.ofCode o.dstCode = some t) : dstType o = t := by
  rw [dstType, h, Option.getD_some]

/-! ### One element of a lane replaced (R107) -/

theorem setElem_getLsbD (w n : Nat) (old : Word32) (x : Nat) {i : Nat} (hi : i < 32) :
    (setElem w n old x).getLsbD i = if w * n ≤ i ∧ i < w * n + w then x.testBit (i - w * n) else old.getLsbD i := by
  have hshift : BitVec.ofNat 32 (x * 2 ^ (w * n)) = BitVec.ofNat 32 x <<< (w * n) := by
    apply BitVec.eq_of_toNat_eq
    simp [Nat.shiftLeft_eq]
  rw [setElem, hshift, insertField_getLsbD _ _ _ _ hi, BitVec.getLsbD_ofNat, decide_eq_true (show i - w * n < 32 by omega),
    Bool.true_and]

theorem elemOf_getLsbD (t : ElemType) (e : Nat) (x : Word32) {i : Nat} (hi : i < t.width) :
    (elemOf t e x).getLsbD i = x.getLsbD (t.width * e + i) := by
  rw [elemOf, BitVec.getLsbD_extractLsb', decide_eq_true hi, Bool.true_and]

/-- The element takes its value; every other one stays (R107). -/
theorem elemOf_setElem (t : ElemType) {e n : Nat} (old : Word32) (x : Nat) (he : e < t.count) :
    elemOf t e (setElem t.width n old x) = if e = n then BitVec.ofNat t.width x else elemOf t e old := by
  have hend : t.width * (e + 1) ≤ 32 := elemWidth_mul_count t ▸ Nat.mul_le_mul_left _ he
  rw [Nat.mul_succ] at hend
  refine BitVec.eq_of_getLsbD_eq fun i hi => ?_
  rw [elemOf_getLsbD _ _ _ hi, setElem_getLsbD _ _ _ _ (by omega)]
  by_cases hn : e = n
  · subst hn
    rw [if_pos rfl, if_pos ⟨by omega, by omega⟩, BitVec.getLsbD_ofNat, decide_eq_true hi, Bool.true_and, Nat.add_sub_cancel_left]
  · have hout : ¬ (t.width * n ≤ t.width * e + i ∧ t.width * e + i < t.width * n + t.width) := by
      rcases Nat.lt_or_gt_of_ne hn with h | h
      · have := Nat.mul_le_mul_left t.width (Nat.succ_le_of_lt h)
        rw [Nat.mul_succ] at this
        omega
      · have := Nat.mul_le_mul_left t.width (Nat.succ_le_of_lt h)
        rw [Nat.mul_succ] at this
        omega
    rw [if_neg hn, if_neg hout, elemOf_getLsbD _ _ _ hi]

/-! ### VQNT and VDQNT (R107, R108) -/

/-- VQNT in a lane: the product of a and c as an element of the type, with its flags (R107). -/
def quantised (o : LOp) (a c : Word32) : Nat × Byte :=
  let p := (ElemType.f32.val a.toNat).mul (ElemType.f32.val c.toNat)
  ((floatTo o.ty (rounding o) (modBit o 2) p.1).1, (floatTo o.ty (rounding o) (modBit o 2) p.1).2 ||| p.2)

theorem laneForm_vqnt (s : State) (o : LOp) : LaneForm s (.vqnt o) o (lopUse o .ac)
    (fun _ vs i x => ∀ e, e < o.ty.count → elemOf o.ty e x =
      if e = (o.mods.extractLsb' 0 2).toNat then BitVec.ofNat o.ty.width (quantised o (srcA s o i) (srcC s o vs i)).1
      else if lifeAfter s (lopUse o .ac).reads o.vd = .live ∨ lifeAfter s (lopUse o .ac).reads o.vd = .rest then
        elemOf o.ty e (look (s.cur.vget o.vd) i 0)
      else 0)
    (flagsOver s o fun vs i x => x = (quantised o (srcA s o i) (srcC s o vs i)).2) := by
  have hlane (vs : List Word) (j : Fin 128) :
      quantised o (s.cur.vget o.a.r)[j] (s.cur.cvec o vs)[j] = quantised o (srcA s o j) (srcC s o vs j) := by
    rw [getElem_eq_look _ j 0, getElem_eq_look _ j 0, look_cvec s o vs j.isLt]
    rfl
  refine .of_lIssue (f := fun x j =>
    (setElem o.ty.width (modField o 0 2) (x.st.cur.kept o.vd)[j] (quantised o (s.cur.vget o.a.r)[j] (s.cur.cvec o x.popped)[j]).1,
      (quantised o (s.cur.vget o.a.r)[j] (s.cur.cvec o x.popped)[j]).2)) rfl (lopUse_late o .ac)
    (fun p vs g h => flagsOver_lanewise fun j b => ?_) fun p vs g h j e he => ?_
  · dsimp only [predIn]
    rw [hlane]
    exact (exists_eq_left (p := fun x : Byte => x.getLsbD b = true)).symm
  · dsimp only [predIn]
    rw [hlane, elemOf_setElem _ _ _ he, modField_eq, getElem_eq_look _ j 0, h.look_kept_hinted o.vd j.isLt]
    refine if_congr Iff.rfl rfl ?_
    split
    · rfl
    · exact BitVec.extractLsb'_zero

/-- The exact value of an element of any type (R28, R31, R108). -/
def elemVal (t : ElemType) (x : BitVec t.width) : Val :=
  if t.isInt then .fin (decide (numOf t.signed x < 0)) (numOf t.signed x).natAbs 0 else t.ffmt.decode x.toNat

theorem wholeForm_vdqnt (s : State) (o : LOp) : WholeForm s (.vdqnt o) o (lopUse o .ac) fun a _ c =>
    let r := (elemVal o.ty (elemOf o.ty (o.mods.extractLsb' 0 2).toNat a)).mul (FFmt.f32.decode c.toNat)
    (BitVec.ofNat 32 (FFmt.f32.round (rounding o) false r.1).1, (FFmt.f32.round (rounding o) false r.1).2 ||| r.2) := by
  refine .of_lcompute rfl (lopUse_late o .ac) fun x => ?_
  dsimp only
  rw [modField_eq, ← toNat_elemOf, intOf_toNat]
  rfl

/-- Settles O30: every element of the destination is a conversion; the element of VQNT is a product, that of VDQNT a factor. -/
theorem laneConversionsConvertTheirElements : Obligations.LaneConversionsConvertTheirElements := by
  intro s o dst mode conv form n f32 el
  have hmode : rounding o = mode := rounding_eq o
  clear_value mode
  subst hmode
  refine ⟨fun hdst => ?_, fun _ => ⟨laneForm_vqnt s o, ?_⟩⟩
  · obtain rfl := dstType_of_code hdst
    refine ⟨fun _ => ?vcvt, fun _ => ?vpack, fun _ => ?vunpk⟩
    case vcvt => exact .of_convert rfl fun vs j e => (toNat_elemOf ..).symm
    case vpack =>
      refine .of_convert rfl fun vs j e => ?_
      split <;> exact (toNat_elemOf ..).symm
    case vunpk => exact .of_convert rfl fun vs j e => (toNat_elemOf ..).symm
  · exact wholeForm_vdqnt s o

end Sys2Proof.Machine
end

section
/-! A value that a format represents rounds to its own encoding (R31, R34, R35). -/

namespace Sys2Proof

open Machine

/-! ### The fields of an encoding (R30) -/

/-- The exponent field and the fraction field make the magnitude of an encoding (R31). -/
theorem FFmt.mag_eq (f : FFmt) (x : Nat) :
    f.mag x = (x >>> f.fbits) % 2 ^ f.ebits * 2 ^ f.fbits + x % 2 ^ f.fbits := by
  have hw : f.width - 1 = f.fbits + f.ebits := by cases f <;> rfl
  rw [FFmt.mag, hw, Nat.pow_add, Nat.mod_mul, Nat.shiftRight_eq_div_pow, Nat.mul_comm, Nat.add_comm]

/-- Sign and magnitude make the encoding (R31). -/
theorem FFmt.signBits_mag (f : FFmt) {x : Nat} (hx : x < 2 ^ f.width) : signBits f (f.isNeg x) (f.mag x) = x := by
  have hw : 2 ^ f.width = 2 ^ (f.width - 1) * 2 := by cases f <;> rfl
  have hdiv : x / 2 ^ (f.width - 1) < 2 := Nat.div_lt_of_lt_mul (hw ▸ hx)
  have hsplit := Nat.div_add_mod x (2 ^ (f.width - 1))
  unfold signBits FFmt.isNeg FFmt.mag
  rw [Nat.shiftRight_eq_div_pow, Nat.mod_eq_of_lt hdiv]
  obtain h | h := Nat.le_one_iff_eq_zero_or_eq_one.mp (Nat.lt_succ_iff.mp hdiv)
  · rw [h] at hsplit ⊢
    simpa using hsplit
  · rw [h] at hsplit ⊢
    simpa [Nat.add_comm] using hsplit

/-! ### Exact values (R35) -/

/-- A value that is a multiple of its own spacing rounds to its encoding, with no flag, where that is finite (R35). -/
theorem FFmt.round_of_spacing (f : FFmt) (mode : Rnd) (sat neg : Bool) {m : Nat} {e : Int} (hm : m ≠ 0)
    (hq : max (Nat.log2 m + e) f.emin - f.fbits = e) (hmax : f.encodeMag m e ≤ f.maxBits) :
    f.round mode sat (.fin neg m e) = (signBits f neg (f.encodeMag m e), 0) := by
  have hm' : (m == 0) = false := beq_false_of_ne hm
  simp only [FFmt.round, hm', Bool.false_eq_true, if_false, hq, le_refl, if_true, Int.sub_self, Int.toNat_zero,
    Nat.pow_zero, Nat.mul_one, Nat.not_lt.mpr hmax]
  simp [flagIf]

/-- A subnormal value: its fraction is its magnitude (R31). -/
theorem FFmt.encodeMag_subnormal (f : FFmt) {m : Nat} (h : m < 2 ^ f.fbits) (qe : Int) : f.encodeMag m qe = m := by
  have hne : (m == 2 ^ (f.fbits + 1)) = false := beq_false_of_ne (by rw [Nat.pow_succ]; omega)
  simp only [FFmt.encodeMag, hne, Bool.false_eq_true, if_false, if_pos h]

/-- A normal value: its exponent field over its fraction (R31). -/
theorem FFmt.encodeMag_normal (f : FFmt) {fr : Nat} (h : fr < 2 ^ f.fbits) (n : Nat) :
    f.encodeMag (2 ^ f.fbits + fr) ((n : Int) - f.bias - f.fbits) = n * 2 ^ f.fbits + fr := by
  have hne : (2 ^ f.fbits + fr == 2 ^ (f.fbits + 1)) = false := beq_false_of_ne (by rw [Nat.pow_succ]; omega)
  have hn : ((n : Int) - f.bias - f.fbits + f.fbits + f.bias).toNat = n := by omega
  have hge : ¬ 2 ^ f.fbits + fr < 2 ^ f.fbits := by omega
  simp only [FFmt.encodeMag, hne, Bool.false_eq_true, if_false, hn, if_neg hge, Nat.add_sub_cancel_left]

theorem FFmt.round_subnormal (f : FFmt) (mode : Rnd) (sat neg : Bool) {m : Nat} (h0 : m ≠ 0) (h : m < 2 ^ f.fbits) :
    f.round mode sat (.fin neg m (f.emin - f.fbits)) = (signBits f neg m, 0) := by
  have hlog : Nat.log2 m < f.fbits := (Nat.log2_lt h0).mpr h
  have hmax : 2 ^ f.fbits ≤ f.maxBits := by cases f <;> decide
  rw [FFmt.round_of_spacing f mode sat neg h0 (by omega) (by rw [f.encodeMag_subnormal h]; omega), f.encodeMag_subnormal h]

theorem FFmt.round_normal (f : FFmt) (mode : Rnd) (sat neg : Bool) {n fr : Nat} (hn : n ≠ 0) (h : fr < 2 ^ f.fbits)
    (hmax : n * 2 ^ f.fbits + fr ≤ f.maxBits) :
    f.round mode sat (.fin neg (2 ^ f.fbits + fr) ((n : Int) - f.bias - f.fbits)) = (signBits f neg (n * 2 ^ f.fbits + fr), 0) := by
  have h0 : 2 ^ f.fbits + fr ≠ 0 := by have := Nat.two_pow_pos f.fbits; omega
  have hlog : Nat.log2 (2 ^ f.fbits + fr) = f.fbits := (Nat.log2_eq_iff h0).mpr ⟨by omega, by rw [Nat.pow_succ]; omega⟩
  have hemin : f.emin = 1 - (f.bias : Int) := rfl
  rw [FFmt.round_of_spacing f mode sat neg h0 (by omega) (by rw [f.encodeMag_normal h]; exact hmax), f.encodeMag_normal h]

/-- The exponent field of all ones, other than in the finite values of E4M3, is infinity or NaN; every other magnitude is at
most the largest finite one (R30, R31). -/
theorem FFmt.le_maxBits (f : FFmt) {n fr : Nat} (hn : n < 2 ^ f.ebits) (hfr : fr < 2 ^ f.fbits)
    (hfin : ¬ (n == 2 ^ f.ebits - 1 && (f != .e4m3 || fr == 7)) = true) : n * 2 ^ f.fbits + fr ≤ f.maxBits := by
  cases f <;> simp [FFmt.ebits, FFmt.fbits, FFmt.maxBits] at hn hfr hfin ⊢ <;> omega

/-- What a finite encoding stands for: its magnitude at the smallest exponent, or its fraction under a leading one at the
exponent of its field (R31). -/
theorem FFmt.decode_fin {f : FFmt} {x : Nat} {neg : Bool} {m : Nat} {e : Int} (h : f.decode x = .fin neg m e) :
    neg = f.isNeg x ∧ (f.mag x < 2 ^ f.fbits ∧ m = f.mag x ∧ e = f.emin - f.fbits ∨
      ∃ n fr : Nat, n ≠ 0 ∧ fr < 2 ^ f.fbits ∧ f.mag x = n * 2 ^ f.fbits + fr ∧ f.mag x ≤ f.maxBits ∧ m = 2 ^ f.fbits + fr ∧
        e = (n : Int) - f.bias - f.fbits) := by
  have hn : (x >>> f.fbits) % 2 ^ f.ebits < 2 ^ f.ebits := Nat.mod_lt _ (Nat.two_pow_pos _)
  have hfr : x % 2 ^ f.fbits < 2 ^ f.fbits := Nat.mod_lt _ (Nat.two_pow_pos _)
  rw [f.mag_eq]
  simp only [FFmt.decode] at h
  split at h
  · next h0 =>
    rw [beq_iff_eq.mp h0, Nat.zero_mul, Nat.zero_add]
    cases h
    exact ⟨rfl, .inl ⟨hfr, rfl, rfl⟩⟩
  · next h0 =>
    split at h
    · split at h
      · cases h
      · split at h <;> cases h
    · next hfinite =>
      cases h
      exact ⟨rfl, .inr ⟨_, _, fun h => h0 (beq_iff_eq.mpr h), hfr, rfl, f.le_maxBits hn hfr hfinite, rfl, rfl⟩⟩

/-- Settles O60: a zero keeps its sign, a subnormal value has the spacing of the smallest exponent, a normal one that of its own. -/
theorem representableValuesRoundToThemselves : Obligations.RepresentableValuesRoundToThemselves := by
  rintro f mode sat x hx ⟨neg, m, e, hdec⟩
  have hsign := f.signBits_mag hx
  rw [hdec]
  obtain ⟨rfl, ⟨hlt, rfl, rfl⟩ | ⟨n, fr, hn, hfr, hmag, hmax, rfl, rfl⟩⟩ := FFmt.decode_fin hdec
  · by_cases hz : f.mag x = 0
    · rw [hz] at hsign ⊢
      exact Prod.ext hsign rfl
    · rw [f.round_subnormal mode sat _ hz hlt, hsign]
  · rw [f.round_normal mode sat _ hn hfr (hmag ▸ hmax), ← hmag, hsign]

end Sys2Proof
end

section
/-! Every well-formed instruction is read back from its own words (R45 to R63). -/

namespace Sys2Proof

/-! ### Fields of concatenated bits -/

/-- A field above the lower part of a concatenation is a field of the upper part. -/
theorem extractLsb'_append_high {w v : Nat} (x : BitVec w) (y : BitVec v) {start : Nat} (len : Nat) (h : v ≤ start) :
    (x ++ y).extractLsb' start len = x.extractLsb' (start - v) len := by
  ext i hi
  simp only [BitVec.getElem_extractLsb', BitVec.getLsbD_append]
  rw [if_neg (by omega)]
  congr 1
  omega

/-- A field within the lower part of a concatenation is a field of that part. -/
theorem extractLsb'_append_low {w v : Nat} (x : BitVec w) (y : BitVec v) {start len : Nat} (h : start + len ≤ v) :
    (x ++ y).extractLsb' start len = y.extractLsb' start len := by
  ext i hi
  simp only [BitVec.getElem_extractLsb', BitVec.getLsbD_append]
  rw [if_pos (by omega)]

/-! ### The fields of the S-stream formats (R45) -/

section
variable (maj : BitVec 6) (d a b : SReg) (fn : BitVec 5)

theorem major_sR : (sR maj d a b fn).extractLsb' 26 6 = maj := by
  simp (disch := decide) only [sR, extractLsb'_append_high, Nat.reduceSub, BitVec.extractLsb'_eq_self]

theorem fD_sR : fD (sR maj d a b fn) = d := by
  simp (disch := decide) only [fD, sR, extractLsb'_append_high, extractLsb'_append_low, Nat.reduceSub,
    BitVec.extractLsb'_eq_self]

theorem fA_sR : fA (sR maj d a b fn) = a := by
  simp (disch := decide) only [fA, sR, extractLsb'_append_high, extractLsb'_append_low, Nat.reduceSub,
    BitVec.extractLsb'_eq_self]

theorem fB_sR : fB (sR maj d a b fn) = b := by
  simp (disch := decide) only [fB, sR, extractLsb'_append_high, extractLsb'_append_low, Nat.reduceSub,
    BitVec.extractLsb'_eq_self]

theorem fFn_sR : fFn (sR maj d a b fn) = fn := by
  simp (disch := decide) only [fFn, sR, extractLsb'_append_low, BitVec.extractLsb'_eq_self]

end

section
variable (maj : BitVec 6) (d a : SReg) (imm : BitVec 12)

theorem major_sI : (sI maj d a imm).extractLsb' 26 6 = maj := by
  simp (disch := decide) only [sI, extractLsb'_append_high, Nat.reduceSub, BitVec.extractLsb'_eq_self]

theorem fD_sI : fD (sI maj d a imm) = d := by
  simp (disch := decide) only [fD, sI, extractLsb'_append_high, extractLsb'_append_low, Nat.reduceSub,
    BitVec.extractLsb'_eq_self]

theorem fA_sI : fA (sI maj d a imm) = a := by
  simp (disch := decide) only [fA, sI, extractLsb'_append_high, extractLsb'_append_low, Nat.reduceSub,
    BitVec.extractLsb'_eq_self]

theorem fImm12_sI : fImm12 (sI maj d a imm) = imm := by
  simp (disch := decide) only [fImm12, sI, extractLsb'_append_low, BitVec.extractLsb'_eq_self]

/-- The count of a shift form (R76). -/
theorem count_sI (n : BitVec 6) : (sI maj d a (n.zeroExtend 12)).extractLsb' 0 6 = n := by
  rw [sI, extractLsb'_append_low _ _ (by decide), BitVec.extractLsb'_setWidth_of_le (by decide), BitVec.extractLsb'_eq_self]

end

section
variable (maj : BitVec 6) (d : SReg) (imm : BitVec 19)

theorem major_sU : (sU maj d imm).extractLsb' 26 6 = maj := by
  simp (disch := decide) only [sU, extractLsb'_append_high, Nat.reduceSub, BitVec.extractLsb'_eq_self]

theorem fD_sU : fD (sU maj d imm) = d := by
  simp (disch := decide) only [fD, sU, extractLsb'_append_high, extractLsb'_append_low, Nat.reduceSub,
    BitVec.extractLsb'_eq_self]

theorem fImm19_sU : fImm19 (sU maj d imm) = imm := by
  simp (disch := decide) only [fImm19, sU, extractLsb'_append_low, BitVec.extractLsb'_eq_self]

end

section
variable (maj : BitVec 6) (off : BitVec 26)

theorem major_sJ : (sJ maj off).extractLsb' 26 6 = maj := by
  simp (disch := decide) only [sJ, extractLsb'_append_high, Nat.reduceSub, BitVec.extractLsb'_eq_self]

theorem off_sJ : (sJ maj off).extractLsb' 0 26 = off := by
  simp (disch := decide) only [sJ, extractLsb'_append_low, BitVec.extractLsb'_eq_self]

end

section
variable (maj : BitVec 6) (cond : BitVec 3) (a : SReg) (off : BitVec 16)

theorem major_sB : (sB maj cond a off).extractLsb' 26 6 = maj := by
  simp (disch := decide) only [sB, extractLsb'_append_high, Nat.reduceSub, BitVec.extractLsb'_eq_self]

theorem cond_sB : (sB maj cond a off).extractLsb' 23 3 = cond := by
  simp (disch := decide) only [sB, extractLsb'_append_high, extractLsb'_append_low, Nat.reduceSub,
    BitVec.extractLsb'_eq_self]

theorem reg_sB : (sB maj cond a off).extractLsb' 16 7 = a := by
  simp (disch := decide) only [sB, extractLsb'_append_high, extractLsb'_append_low, Nat.reduceSub,
    BitVec.extractLsb'_eq_self]

theorem off_sB : (sB maj cond a off).extractLsb' 0 16 = off := by
  simp (disch := decide) only [sB, extractLsb'_append_low, BitVec.extractLsb'_eq_self]

end

/-! ### The codes of the operand kinds -/

/-- A field of one bit that holds a truth value. -/
theorem getLsbD_of_bit {w : Nat} {x : BitVec w} {i : Nat} {v : Bool} (h : x.extractLsb' i 1 = bit v) : x.getLsbD i = v := by
  rw [BitVec.getLsbD_eq_extractLsb', h]
  cases v <;> rfl

theorem Cond.ofBits_bits (c : Cond) : Cond.ofBits c.bits = some c := by cases c <;> rfl
theorem Order.ofBits_bits (o : Order) : Order.ofBits o.bits = o := by cases o <;> rfl
theorem Scope.ofBits_bits (c : Scope) : Scope.ofBits c.bits = some c := by cases c <;> rfl
theorem FenceKind.ofBits_bits (k : FenceKind) : FenceKind.ofBits k.bits = k := by cases k <;> rfl
theorem Counter.ofBits_bits (p : Counter) : Counter.ofBits p.bits = some p := by cases p <;> rfl
theorem LdSize.ofBits_bits (z : LdSize) : LdSize.ofBits z.bits = some z := by cases z <;> rfl
theorem StSize.ofBits_bits (z : StSize) : StSize.ofBits z.bits = some z := by cases z <;> rfl
theorem AtSize.ofBits_bits (z : AtSize) : AtSize.ofBits z.bits = some z := by cases z <;> rfl
theorem CopyDir.ofBits_bits (c : CopyDir) : CopyDir.ofBits c.bits = some c := by cases c <;> rfl
theorem BankHint.ofBits_bits (h : BankHint) : BankHint.ofBits h.bits = some h := by cases h <;> rfl
theorem PageSize.ofBits_bits (z : PageSize) : PageSize.ofBits z.bits = some z := by cases z <;> rfl
theorem Hint.ofBits_bits (h : Hint) : Hint.ofBits h.bits = some h := by cases h <;> rfl

/-- The code of SATOM is its fn field (R201). -/
theorem AtomOp.ofCode_fn (op : AtomOp) : AtomOp.ofCode (op.bits.zeroExtend 5).toNat = some op := by cases op <;> rfl

/-- A load size is no store size (R50). -/
theorem LdSize.ofBits_store (z : StSize) : LdSize.ofBits z.bits = none := by cases z <;> rfl

theorem ElemType.ofCode_code (t : ElemType) : ElemType.ofCode (BitVec.ofNat 4 t.code).toNat = some t := by cases t <;> rfl

/-! ### Word1 of the ordered accesses (R199) -/

section
variable (disp : BitVec 16) (aop : BitVec 4) (w : BitVec 1) (ord : Order) (sc : Scope)

theorem fDisp_ordered : fDisp (ordered disp aop w ord sc) = disp := by
  simp (disch := decide) only [fDisp, ordered, extractLsb'_append_high, Nat.reduceSub, BitVec.extractLsb'_eq_self]

theorem aop_ordered : (ordered disp aop w ord sc).extractLsb' 12 4 = aop := by
  simp (disch := decide) only [ordered, extractLsb'_append_high, extractLsb'_append_low, Nat.reduceSub,
    BitVec.extractLsb'_eq_self]

theorem fOrd_ordered : fOrd (ordered disp aop w ord sc) = ord := by
  simp (disch := decide) only [fOrd, ordered, extractLsb'_append_high, extractLsb'_append_low, Nat.reduceSub,
    BitVec.extractLsb'_eq_self, Order.ofBits_bits]

theorem fScope_ordered : fScope (ordered disp aop w ord sc) = some sc := by
  simp (disch := decide) only [fScope, ordered, extractLsb'_append_low, BitVec.extractLsb'_eq_self, Scope.ofBits_bits]

theorem width_ordered (w64 : Bool) : (ordered disp aop (bit w64) ord sc).getLsbD 5 = w64 := by
  refine getLsbD_of_bit ?_
  simp (disch := decide) only [ordered, extractLsb'_append_high, extractLsb'_append_low, Nat.reduceSub,
    BitVec.extractLsb'_eq_self]

end

/-! ### The other second words of the S-stream -/

section
variable (sc : Scope) (ord : Order) (tmo : BitVec 27)

theorem tmo_mwait : (tmo ++ ord.bits ++ sc.bits : BitVec 32).extractLsb' 5 27 = tmo := by
  simp (disch := decide) only [extractLsb'_append_high, Nat.reduceSub, BitVec.extractLsb'_eq_self]

theorem fOrd_mwait : fOrd (tmo ++ ord.bits ++ sc.bits : BitVec 32) = ord := by
  simp (disch := decide) only [fOrd, extractLsb'_append_high, extractLsb'_append_low, Nat.reduceSub, BitVec.extractLsb'_eq_self,
    Order.ofBits_bits]

theorem fScope_mwait : fScope (tmo ++ ord.bits ++ sc.bits : BitVec 32) = some sc := by
  simp (disch := decide) only [fScope, extractLsb'_append_low, BitVec.extractLsb'_eq_self, Scope.ofBits_bits]

theorem fScope_queue : fScope ((0 : BitVec 29) ++ sc.bits : BitVec 32) = some sc := by
  simp (disch := decide) only [fScope, extractLsb'_append_low, BitVec.extractLsb'_eq_self, Scope.ofBits_bits]

end

section
variable (n k tag : BitVec 4) (v : Bool)

theorem n_tcall : ((0 : BitVec 27) ++ bit v ++ n : BitVec 32).extractLsb' 0 4 = n := by
  simp (disch := decide) only [extractLsb'_append_low, BitVec.extractLsb'_eq_self]

theorem sp_tcall : ((0 : BitVec 27) ++ bit v ++ n : BitVec 32).getLsbD 4 = v := by
  refine getLsbD_of_bit ?_
  simp (disch := decide) only [extractLsb'_append_high, extractLsb'_append_low, Nat.reduceSub, BitVec.extractLsb'_eq_self]

theorem k_cpy : ((0 : BitVec 24) ++ tag ++ k : BitVec 32).extractLsb' 0 4 = k := by
  simp (disch := decide) only [extractLsb'_append_low, BitVec.extractLsb'_eq_self]

theorem tag_cpy : ((0 : BitVec 24) ++ tag ++ k : BitVec 32).extractLsb' 4 4 = tag := by
  simp (disch := decide) only [extractLsb'_append_high, extractLsb'_append_low, Nat.reduceSub, BitVec.extractLsb'_eq_self]

end

section
variable (tag : BitVec 4) (fmt : Byte) (blen : BitVec 2) (v : Bool)

theorem tag_wload : ((0 : BitVec 17) ++ bit v ++ blen ++ fmt ++ tag : BitVec 32).extractLsb' 0 4 = tag := by
  simp (disch := decide) only [extractLsb'_append_low, BitVec.extractLsb'_eq_self]

theorem fmt_wload : ((0 : BitVec 17) ++ bit v ++ blen ++ fmt ++ tag : BitVec 32).extractLsb' 4 8 = fmt := by
  simp (disch := decide) only [extractLsb'_append_high, extractLsb'_append_low, Nat.reduceSub, BitVec.extractLsb'_eq_self]

theorem blen_wload : ((0 : BitVec 17) ++ bit v ++ blen ++ fmt ++ tag : BitVec 32).extractLsb' 12 2 = blen := by
  simp (disch := decide) only [extractLsb'_append_high, extractLsb'_append_low, Nat.reduceSub, BitVec.extractLsb'_eq_self]

theorem b128_wload : ((0 : BitVec 17) ++ bit v ++ blen ++ fmt ++ tag : BitVec 32).getLsbD 14 = v := by
  refine getLsbD_of_bit ?_
  simp (disch := decide) only [extractLsb'_append_high, extractLsb'_append_low, Nat.reduceSub, BitVec.extractLsb'_eq_self]

end

section
variable (ld st cp mx : Byte)

theorem ld_waitc : (mx ++ cp ++ st ++ ld : BitVec 32).extractLsb' 0 8 = ld := by
  simp (disch := decide) only [extractLsb'_append_low, BitVec.extractLsb'_eq_self]

theorem st_waitc : (mx ++ cp ++ st ++ ld : BitVec 32).extractLsb' 8 8 = st := by
  simp (disch := decide) only [extractLsb'_append_high, extractLsb'_append_low, Nat.reduceSub, BitVec.extractLsb'_eq_self]

theorem cp_waitc : (mx ++ cp ++ st ++ ld : BitVec 32).extractLsb' 16 8 = cp := by
  simp (disch := decide) only [extractLsb'_append_high, extractLsb'_append_low, Nat.reduceSub, BitVec.extractLsb'_eq_self]

theorem mx_waitc : (mx ++ cp ++ st ++ ld : BitVec 32).extractLsb' 24 8 = mx := by
  simp (disch := decide) only [extractLsb'_append_high, Nat.reduceSub, BitVec.extractLsb'_eq_self]

end

section
variable (ctx : BitVec 12) (v : Bool)

theorem ctx_ctxsave : ((0 : BitVec 19) ++ bit v ++ ctx : BitVec 32).extractLsb' 0 12 = ctx := by
  simp (disch := decide) only [extractLsb'_append_low, BitVec.extractLsb'_eq_self]

theorem free_ctxsave : ((0 : BitVec 19) ++ bit v ++ ctx : BitVec 32).getLsbD 12 = v := by
  refine getLsbD_of_bit ?_
  simp (disch := decide) only [extractLsb'_append_high, extractLsb'_append_low, Nat.reduceSub, BitVec.extractLsb'_eq_self]

theorem ctx_ctxload : (ctx.zeroExtend 32).extractLsb' 0 12 = ctx := by
  rw [BitVec.extractLsb'_setWidth_of_le (by decide), BitVec.extractLsb'_eq_self]

end

theorem hint_sphint (h : BankHint) : BankHint.ofBits (((0 : BitVec 30) ++ h.bits : BitVec 32).extractLsb' 0 2) = some h := by
  simp (disch := decide) only [extractLsb'_append_low, BitVec.extractLsb'_eq_self, BankHint.ofBits_bits]

section
variable (op : BitVec 2) (z : PageSize)

theorem op_mappg : ((0 : BitVec 28) ++ op ++ z.bits : BitVec 32).extractLsb' 2 2 = op := by
  simp (disch := decide) only [extractLsb'_append_high, extractLsb'_append_low, Nat.reduceSub, BitVec.extractLsb'_eq_self]

theorem size_mappg : PageSize.ofBits (((0 : BitVec 28) ++ op ++ z.bits : BitVec 32).extractLsb' 0 2) = some z := by
  simp (disch := decide) only [extractLsb'_append_low, BitVec.extractLsb'_eq_self, PageSize.ofBits_bits]

end

/-! ### The S-stream (R45 to R55) -/

/-- The words say how many they are (R47), and name the instruction, whatever word follows a single one (R49). -/
def ReadAs (i : Instr) : List Word32 → Prop
  | [w0] => sWords w0 = 1 ∧ ∀ w1, sCandidate w0 w1 = some i
  | [w0, w1] => sWords w0 = 2 ∧ sCandidate w0 w1 = some i
  | _ => False

/-- The major opcode gives the length, but for that of WAITC and WAITR (R47). -/
theorem sWords_of_major {w0 : Word32} {maj : BitVec 6} (hm : w0.extractLsb' 26 6 = maj) (h : maj ≠ 0x34#6) :
    sWords w0 = sWords (sJ maj 0) := by
  rw [sWords, sWords, hm, major_sJ]
  generalize (fFn w0 == 0) = x
  generalize (fFn (sJ maj 0) == 0) = y
  clear hm
  revert x y maj
  decide

theorem ReadAs.one {i : Instr} {w0 : Word32} {maj : BitVec 6} (hm : w0.extractLsb' 26 6 = maj) (h : maj ≠ 0x34#6)
    (hw : sWords (sJ maj 0) = 1) (hc : ∀ w1, sCandidate w0 w1 = some i) : ReadAs i [w0] :=
  ⟨(sWords_of_major hm h).trans hw, hc⟩

theorem ReadAs.two {i : Instr} {w0 w1 : Word32} {maj : BitVec 6} (hm : w0.extractLsb' 26 6 = maj) (h : maj ≠ 0x34#6)
    (hw : sWords (sJ maj 0) = 2) (hc : sCandidate w0 w1 = some i) : ReadAs i [w0, w1] :=
  ⟨(sWords_of_major hm h).trans hw, hc⟩

theorem readAs_b (c : Cond) (a : SReg) (off : BitVec 16) :
    ReadAs (.b c a off) (sEncode (.b c a off)) := by
  refine ReadAs.one (major_sB ..) (by decide) rfl fun w1 => ?_
  rw [sCandidate, major_sB, cond_sB, reg_sB, off_sB, Cond.ofBits_bits]
  rfl

theorem readAs_tcall (d a : SReg) (n : BitVec 4) (sp : Bool) :
    ReadAs (.tcall d a n sp) (sEncode (.tcall d a n sp)) := by
  refine ReadAs.two (major_sR ..) (by decide) rfl ?_
  rw [sCandidate, major_sR, fFn_sR, fD_sR, fA_sR, n_tcall, sp_tcall]
  rfl

theorem readAs_ldo (sz : LdSize) (ord : Order) (sc : Scope) (d a : SReg) (disp : BitVec 16) :
    ReadAs (.ldo sz ord sc d a disp) (sEncode (.ldo sz ord sc d a disp)) := by
  refine ReadAs.two (major_sR ..) (by decide) rfl ?_
  rw [sCandidate, major_sR, fFn_sR, fD_sR, fA_sR, LdSize.ofBits_bits, fOrd_ordered, fScope_ordered, fDisp_ordered]
  rfl

theorem readAs_sto (sz : StSize) (ord : Order) (sc : Scope) (d a : SReg) (disp : BitVec 16) :
    ReadAs (.sto sz ord sc d a disp) (sEncode (.sto sz ord sc d a disp)) := by
  refine ReadAs.two (major_sR ..) (by decide) rfl ?_
  rw [sCandidate, major_sR, fFn_sR, fD_sR, fA_sR, StSize.ofBits_bits, fOrd_ordered, fScope_ordered, fDisp_ordered]
  rfl

theorem readAs_satom (op : AtomOp) (w64 : Bool) (ord : Order) (sc : Scope) (d a b : SReg) (disp : BitVec 16) :
    ReadAs (.satom op w64 ord sc d a b disp) (sEncode (.satom op w64 ord sc d a b disp)) := by
  refine ReadAs.two (major_sR ..) (by decide) rfl ?_
  rw [sCandidate, major_sR, fFn_sR, fD_sR, fA_sR, fB_sR, AtomOp.ofCode_fn, width_ordered, fOrd_ordered, fScope_ordered,
    fDisp_ordered]
  rfl

theorem readAs_spaccLoad (sz : LdSize) (ord : Order) (sc : Scope) (d a : SReg) (disp : BitVec 16) :
    ReadAs (.spaccLoad sz ord sc d a disp) (sEncode (.spaccLoad sz ord sc d a disp)) := by
  refine ReadAs.two (major_sR ..) (by decide) rfl ?_
  rw [sCandidate, major_sR, spaccCandidate, fScope_ordered, aop_ordered, fFn_sR, LdSize.ofBits_bits, fOrd_ordered, fD_sR,
    fA_sR, fDisp_ordered]
  rfl

theorem readAs_spaccStore (sz : StSize) (ord : Order) (sc : Scope) (d a : SReg) (disp : BitVec 16) :
    ReadAs (.spaccStore sz ord sc d a disp) (sEncode (.spaccStore sz ord sc d a disp)) := by
  refine ReadAs.two (major_sR ..) (by decide) rfl ?_
  rw [sCandidate, major_sR, spaccCandidate, fScope_ordered, aop_ordered, fFn_sR, LdSize.ofBits_store, StSize.ofBits_bits,
    fOrd_ordered, fD_sR, fA_sR, fDisp_ordered]
  rfl

/-- The operation of a SPACC atomic is never 0, the code of the loads and stores (R203). -/
theorem readAs_spaccAtomic (sz : AtSize) (op : AtomOp) (ord : Order) (sc : Scope) (d a b : SReg) (disp : BitVec 16) :
    ReadAs (.spaccAtomic sz op ord sc d a b disp) (sEncode (.spaccAtomic sz op ord sc d a b disp)) := by
  refine ReadAs.two (major_sR ..) (by decide) rfl ?_
  rw [sCandidate, major_sR, spaccCandidate, fScope_ordered, aop_ordered, fFn_sR, AtSize.ofBits_bits, fOrd_ordered, fD_sR,
    fA_sR, fB_sR, fDisp_ordered]
  cases op <;> rfl

/-- The scope field of FENCE (R52). -/
theorem scope_fence (d a b : SReg) (x : BitVec 2) (sc : Scope) :
    Scope.ofBits ((sR 0x2F d a b (x ++ sc.bits)).extractLsb' 0 3) = some sc := by
  simp (disch := decide) only [sR, extractLsb'_append_low, BitVec.extractLsb'_eq_self, Scope.ofBits_bits]

/-- The kind field of FENCE (R52). -/
theorem kind_fence (d a b : SReg) (k : FenceKind) (sc : Scope) :
    FenceKind.ofBits ((sR 0x2F d a b (k.bits ++ sc.bits)).extractLsb' 3 2) = k := by
  simp (disch := decide) only [sR, extractLsb'_append_high, extractLsb'_append_low, Nat.reduceSub, BitVec.extractLsb'_eq_self,
    FenceKind.ofBits_bits]

theorem readAs_fence (k : FenceKind) (sc : Scope) :
    ReadAs (.fence k sc) (sEncode (.fence k sc)) := by
  refine ReadAs.one (major_sR ..) (by decide) rfl fun w1 => ?_
  rw [sCandidate, major_sR, fenceCandidate, fB_sR, scope_fence, kind_fence]
  rfl

theorem readAs_fenceRem (sc : Scope) :
    ReadAs (.fenceRem sc) (sEncode (.fenceRem sc)) := by
  refine ReadAs.one (major_sR ..) (by decide) rfl fun w1 => ?_
  rw [sCandidate, major_sR, fenceCandidate, fB_sR, scope_fence]
  rfl

theorem readAs_mwait (ord : Order) (sc : Scope) (d a b : SReg) (tmo : BitVec 27) :
    ReadAs (.mwait ord sc d a b tmo) (sEncode (.mwait ord sc d a b tmo)) := by
  refine ReadAs.two (major_sR ..) (by decide) rfl ?_
  rw [sCandidate, major_sR, fFn_sR, fD_sR, fA_sR, fB_sR, fOrd_mwait, fScope_mwait, tmo_mwait]
  rfl

theorem readAs_qtake (sc : Scope) (d a : SReg) :
    ReadAs (.qtake sc d a) (sEncode (.qtake sc d a)) := by
  refine ReadAs.two (major_sR ..) (by decide) rfl ?_
  rw [sCandidate, major_sR, fFn_sR, fD_sR, fA_sR, fScope_queue]
  rfl

theorem readAs_qput (sc : Scope) (d a b : SReg) :
    ReadAs (.qput sc d a b) (sEncode (.qput sc d a b)) := by
  refine ReadAs.two (major_sR ..) (by decide) rfl ?_
  rw [sCandidate, major_sR, fFn_sR, fD_sR, fA_sR, fB_sR, fScope_queue]
  rfl

theorem readAs_cpy (dir : CopyDir) (d a b : SReg) (k tag : BitVec 4) :
    ReadAs (.cpy dir d a b k tag) (sEncode (.cpy dir d a b k tag)) := by
  refine ReadAs.two (major_sR ..) (by decide) rfl ?_
  rw [sCandidate, major_sR, fFn_sR, fD_sR, fA_sR, fB_sR, CopyDir.ofBits_bits, k_cpy, tag_cpy]
  rfl

theorem readAs_wload (tag : BitVec 4) (fmt : Byte) (blen : BitVec 2) (b128 : Bool) (a b : SReg) :
    ReadAs (.wload tag fmt blen b128 a b) (sEncode (.wload tag fmt blen b128 a b)) := by
  refine ReadAs.two (major_sR ..) (by decide) rfl ?_
  rw [sCandidate, major_sR, fFn_sR, fA_sR, fB_sR, tag_wload, fmt_wload, blen_wload, b128_wload]
  rfl

theorem readAs_waitc (ld st cp mx : Byte) : ReadAs (.waitc ld st cp mx) (sEncode (.waitc ld st cp mx)) := by
  refine ⟨by rw [sWords, major_sR, fFn_sR]; rfl, ?_⟩
  rw [sCandidate, major_sR, fFn_sR, ld_waitc, st_waitc, cp_waitc, mx_waitc]
  rfl

theorem readAs_waitr (p : Counter) (a : SReg) : ReadAs (.waitr p a) (sEncode (.waitr p a)) := by
  refine ⟨by rw [sWords, major_sR, fFn_sR]; rfl, fun w1 => ?_⟩
  rw [sCandidate, major_sR, fFn_sR, fD_sR, fA_sR, Counter.ofBits_bits]
  rfl

theorem readAs_sphint (st : BankHint) (a b : SReg) :
    ReadAs (.sphint st a b) (sEncode (.sphint st a b)) := by
  refine ReadAs.two (major_sR ..) (by decide) rfl ?_
  rw [sCandidate, major_sR, fFn_sR, fA_sR, fB_sR, hint_sphint]
  rfl

/-- RDSR names no sz: that is the field that tells WRSR (R51). -/
theorem readAs_rdsr {d : SReg} (num : BitVec 12) (hd : d ≠ 127#7) :
    ReadAs (.rdsr d num) (sEncode (.rdsr d num)) := by
  refine ReadAs.one (major_sI ..) (by decide) rfl fun w1 => ?_
  rw [sCandidate, major_sI, fD_sI, fImm12_sI, beq_false_of_ne hd]
  rfl

theorem readAs_ctxsave (free : Bool) (d a b : SReg) (ctx : BitVec 12) :
    ReadAs (.ctxsave free d a b ctx) (sEncode (.ctxsave free d a b ctx)) := by
  refine ReadAs.two (major_sR ..) (by decide) rfl ?_
  rw [sCandidate, major_sR, fFn_sR, fD_sR, fA_sR, fB_sR, ctx_ctxsave, free_ctxsave]
  rfl

theorem readAs_ctxload (d a : SReg) (ctx : BitVec 12) :
    ReadAs (.ctxload d a ctx) (sEncode (.ctxload d a ctx)) := by
  refine ReadAs.two (major_sR ..) (by decide) rfl ?_
  rw [sCandidate, major_sR, fFn_sR, fD_sR, fA_sR, ctx_ctxload]
  rfl

theorem readAs_mappgMap (z : PageSize) (d a b : SReg) :
    ReadAs (.mappgMap z d a b) (sEncode (.mappgMap z d a b)) := by
  refine ReadAs.two (major_sR ..) (by decide) rfl ?_
  rw [sCandidate, major_sR, fFn_sR, mappgCandidate, size_mappg, op_mappg, fD_sR, fA_sR, fB_sR]
  rfl

theorem readAs_mappgUnmap (z : PageSize) (d a : SReg) :
    ReadAs (.mappgUnmap z d a) (sEncode (.mappgUnmap z d a)) := by
  refine ReadAs.two (major_sR ..) (by decide) rfl ?_
  rw [sCandidate, major_sR, fFn_sR, mappgCandidate, size_mappg, op_mappg, fD_sR, fA_sR]
  rfl

theorem readAs_mappgPool (d a b : SReg) :
    ReadAs (.mappgPool d a b) (sEncode (.mappgPool d a b)) := by
  refine ReadAs.two (major_sR ..) (by decide) rfl ?_
  rw [sCandidate, major_sR, fFn_sR, mappgCandidate, fD_sR, fA_sR, fB_sR]
  rfl

/-- Well-formed words of the S-stream are read as their instruction. The forms with no coded field come format by format. -/
theorem readAs_sEncode {i : Instr} (h : sInstrWf i = true) : ReadAs i (sEncode i) := by
  cases i with
  | nop | trapfence | bkpt | syscall | retf | halt
  | add | sub | mul | mulh | mulhn | div | divn | rem | remn | and | or | xor | andn | shl | shr | sra | rotr | min | max | minn
  | maxn | clz | popc | slt | sltn | seq | sne | sel
  | jr | ret | callr | dqput | rqget | rqgetTry | sjoin | bar | gbar | tvoteAny | tvoteAll | tvoteSum | tret | exit =>
    refine ReadAs.one (major_sR ..) (by decide) rfl fun w1 => ?_
    rw [sCandidate, major_sR, fFn_sR, fD_sR, fA_sR, fB_sR]
    rfl
  | addi | andi | ori | xori | slti | ldS8 | ldS16 | ldS32 | ld64 | ldN8 | ldN16 | ldN32 | st8 | st16 | st32 | st64 | wrsr =>
    refine ReadAs.one (major_sI ..) (by decide) rfl fun w1 => ?_
    rw [sCandidate, major_sI, fD_sI, fA_sI, fImm12_sI]
    rfl
  | shli | shri | srai =>
    refine ReadAs.one (major_sI ..) (by decide) rfl fun w1 => ?_
    rw [sCandidate, major_sI, fD_sI, fA_sI, count_sI]
    rfl
  | lui | lrun =>
    refine ReadAs.one (major_sU ..) (by decide) rfl fun w1 => ?_
    rw [sCandidate, major_sU, fD_sU, fImm19_sU]
    rfl
  | j | call =>
    refine ReadAs.one (major_sJ ..) (by decide) rfl fun w1 => ?_
    rw [sCandidate, major_sJ, off_sJ]
    rfl
  | loop =>
    refine ReadAs.one (major_sB ..) (by decide) rfl fun w1 => ?_
    rw [sCandidate, major_sB, reg_sB, off_sB]
    rfl
  | li | liHi | launch | launchW | lwait | stepBegin | stepProg | stepEnd | tagset | tagkill | privqTake | privqResume | privqEnd =>
    refine ReadAs.two (major_sR ..) (by decide) rfl ?_
    rw [sCandidate, major_sR, fFn_sR, privqCandidate, fD_sR, fA_sR, fB_sR]
    rfl
  | b => exact readAs_b ..
  | tcall => exact readAs_tcall ..
  | ldo => exact readAs_ldo ..
  | sto => exact readAs_sto ..
  | satom => exact readAs_satom ..
  | spaccLoad => exact readAs_spaccLoad ..
  | spaccStore => exact readAs_spaccStore ..
  | spaccAtomic => exact readAs_spaccAtomic ..
  | fence => exact readAs_fence ..
  | fenceOwn =>
    refine ReadAs.one (major_sR ..) (by decide) rfl fun w1 => ?_
    rw [sCandidate, major_sR, fenceCandidate, fB_sR]
    rfl
  | fenceRem => exact readAs_fenceRem ..
  | mwait => exact readAs_mwait ..
  | qtake => exact readAs_qtake ..
  | qput => exact readAs_qput ..
  | cpy => exact readAs_cpy ..
  | wload => exact readAs_wload ..
  | waitc => exact readAs_waitc ..
  | waitr => exact readAs_waitr ..
  | sphint => exact readAs_sphint ..
  | rdsr d num =>
    have hd : (sregOk d && d != 127#7) = true := h
    rw [Bool.and_eq_true, bne_iff_ne] at hd
    exact readAs_rdsr num hd.2
  | ctxsave => exact readAs_ctxsave ..
  | ctxload => exact readAs_ctxload ..
  | mappgMap => exact readAs_mappgMap ..
  | mappgPool => exact readAs_mappgPool ..
  | mappgUnmap => exact readAs_mappgUnmap ..
  | _ => exact absurd h Bool.false_ne_true

/-! ### The L-stream (R58 to R63) -/

/-- Source c is read back from its bits (R59). -/
theorem CSrc.ofBits_bits (c : CSrc) : CSrc.ofBits c.bits = some c := by
  cases c with
  | vec r h =>
    simp (disch := decide) only [CSrc.ofBits, CSrc.bits, extractLsb'_append_high, extractLsb'_append_low, Nat.reduceSub,
      BitVec.extractLsb'_eq_self, Hint.ofBits_bits]
    rfl
  | imm => rfl
  | dq => rfl
  | kreg n =>
    simp (disch := decide) only [CSrc.ofBits, CSrc.bits, extractLsb'_append_high, extractLsb'_append_low, Nat.reduceSub,
      BitVec.extractLsb'_eq_self]

theorem op_lWord0 (op : BitVec 8) (o : LOp) : (lWord0 op o).extractLsb' 24 8 = op := by
  simp (disch := decide) only [lWord0, extractLsb'_append_high, Nat.reduceSub, BitVec.extractLsb'_eq_self]

/-- The fields of an L-stream instruction are read back from its words (R58). -/
theorem lFields_lWords (op : BitVec 8) (o : LOp) : lFields (lWord0 op o) (lWord1 o) o.w2 = some o := by
  have hneg : (lWord0 op o).getLsbD 12 = o.g.neg := by
    refine getLsbD_of_bit ?_
    simp (disch := decide) only [lWord0, extractLsb'_append_high, extractLsb'_append_low, Nat.reduceSub, BitVec.extractLsb'_eq_self]
  rw [lFields, hneg]
  simp (disch := decide) only [lWord0, lWord1, extractLsb'_append_high, extractLsb'_append_low, Nat.reduceSub,
    BitVec.extractLsb'_eq_self, ElemType.ofCode_code, Hint.ofBits_bits, CSrc.ofBits_bits]

/-- The opcode of an L-stream instruction names it (R65). -/
theorem lInstr_lParts {i : Instr} {op : Nat} {o : LOp} (h : i.lParts = some (op, o)) : lInstr op o = some i ∧ op < 256 := by
  cases i <;> cases h <;> exact ⟨rfl, by decide⟩

/-! ### What the decoder accepts -/

/-- The decoder accepts an instruction that the words name, whose words they are, and that is well-formed (R55, R56, R63). -/
theorem accept_eq_instr {c : Option Instr} {ws : List Word32} {i : Instr} :
    accept c ws = .instr i ↔ c = some i ∧ encode i = ws ∧ i.wf = true := by
  constructor
  · intro h
    cases c with
    | none => cases h
    | some j =>
      rw [accept] at h
      split at h
      · cases h
      · next he =>
        split at h
        · next hw =>
          cases h
          exact ⟨rfl, by simpa using he, hw⟩
        · cases h
  · rintro ⟨rfl, he, hw⟩
    rw [accept, if_neg (by simp [he]), if_pos hw]

theorem encode_of_lParts {i : Instr} {op : Nat} {o : LOp} (h : i.lParts = some (op, o)) :
    encode i = [lWord0 (BitVec.ofNat 8 op) o, lWord1 o, o.w2] := by
  rw [encode, h]

theorem encode_of_none {i : Instr} (h : i.lParts = none) : encode i = sEncode i := by
  rw [encode, h]

theorem sInstrWf_of_wf {i : Instr} (h : i.lParts = none) (hw : i.wf = true) : sInstrWf i = true := by
  rw [Instr.wf, h] at hw
  exact hw

/-- A well-formed instruction of the S-stream is read back from its words. -/
theorem decodeS_encode {i : Instr} (hs : i.lParts = none) (hw : i.wf = true) :
    (∃ w0, encode i = [w0] ∧ sWords w0 = 1 ∧ ∀ w1, decodeS w0 w1 = .instr i) ∨
    (∃ w0 w1, encode i = [w0, w1] ∧ sWords w0 = 2 ∧ decodeS w0 w1 = .instr i) := by
  have hread : ReadAs i (encode i) := encode_of_none hs ▸ readAs_sEncode (sInstrWf_of_wf hs hw)
  match he : encode i, hread with
  | [w0], ⟨hn, hc⟩ => exact .inl ⟨w0, rfl, hn, fun w1 => accept_eq_instr.mpr ⟨hc w1, by rw [hn]; exact he, hw⟩⟩
  | [w0, w1], ⟨hn, hc⟩ => exact .inr ⟨w0, w1, rfl, hn, accept_eq_instr.mpr ⟨hc, by rw [hn]; exact he, hw⟩⟩

/-- A well-formed instruction of the L-stream is read back from its words. -/
theorem decodeL_encode {i : Instr} (hl : i.lParts ≠ none) (hw : i.wf = true) :
    ∃ w0 w1 w2, encode i = [w0, w1, w2] ∧ decodeL w0 w1 w2 = .instr i := by
  obtain ⟨⟨op, o⟩, hp⟩ := Option.ne_none_iff_exists'.mp hl
  obtain ⟨hi, hop⟩ := lInstr_lParts hp
  refine ⟨_, _, _, encode_of_lParts hp, accept_eq_instr.mpr ⟨?_, encode_of_lParts hp, hw⟩⟩
  rw [lFields_lWords, op_lWord0, BitVec.toNat_ofNat, Nat.mod_eq_of_lt hop]
  exact hi

/-! ### What gsxa accepts (R68) -/

/-- Words that may run are those of a well-formed instruction. -/
theorem Gsxa.encodes_of_mayRun {c : Option Instr} {ws : List Word32} (h : Gsxa.mayRun (accept c ws) = true) :
    ∃ i : Instr, i.wf = true ∧ encode i = ws := by
  cases hd : accept c ws with
  | instr i =>
    obtain ⟨-, he, hw⟩ := accept_eq_instr.mp hd
    exact ⟨i, hw, he⟩
  | reject r =>
    rw [hd] at h
    cases h

/-- In the last pass the words of an S-stream statement decode. -/
theorem Gsxa.sStatement_encodes {env : Gsxa.Env} {pc : Word} {parts : List Gsxa.Text} {ops : List (List Gsxa.Tok)}
    {ws : List Word32} (hf : env.final = true) (h : Gsxa.sStatement env pc parts ops = some ws) :
    ∃ i : Instr, i.wf = true ∧ encode i = ws := by
  obtain ⟨f, -, hread⟩ := List.exists_of_findSome?_eq_some h
  simp only [Option.bind_eq_bind, Option.bind_eq_some_iff, hf, Bool.true_and] at hread
  obtain ⟨bits, -, hread⟩ := hread
  split at hread
  · cases hread
  · next hrun =>
    rw [Bool.not_eq_true', Bool.not_eq_false] at hrun
    obtain ⟨i, hw, he⟩ := Gsxa.encodes_of_mayRun hrun
    exact ⟨i, hw, he.trans (Option.some.inj hread)⟩

/-- In the last pass the words of an L-stream statement decode. -/
theorem Gsxa.lStatement_encodes {env : Gsxa.Env} {own : Word} {guard n : Nat} {parts : List Gsxa.Text}
    {ops : List (List Gsxa.Tok)} {ws : List Word32} (hf : env.final = true)
    (h : Gsxa.lStatement env own guard parts ops = some (ws, n)) : ∃ i : Instr, i.wf = true ∧ encode i = ws := by
  obtain ⟨f, -, hread⟩ := List.exists_of_findSome?_eq_some h
  simp only [Option.bind_eq_bind, Option.bind_eq_some_iff, hf, Bool.true_and] at hread
  obtain ⟨bits, -, hread⟩ := hread
  split at hread
  · cases hread
  · next hrun =>
    rw [Bool.not_eq_true', Bool.not_eq_false] at hrun
    obtain ⟨i, hw, he⟩ := Gsxa.encodes_of_mayRun hrun
    exact ⟨i, hw, he.trans (congrArg Prod.fst (Option.some.inj hread))⟩

/-- Settles O56: the fields of each format are read back, and gsxa gives no words that its decoder does not accept. -/
theorem encodingReadsBack : Obligations.EncodingReadsBack := by
  unfold Obligations.EncodingReadsBack
  refine ⟨fun i hs hw => decodeS_encode hs hw, fun i hl hw => decodeL_encode hl hw, fun env pc guard parts ops ws hf h => ?_⟩
  rcases h with hs | ⟨n, hl⟩
  · exact Gsxa.sStatement_encodes hf hs
  · exact Gsxa.lStatement_encodes hf hl

end Sys2Proof
end

section
/-! What the immediate forms write, and the words of theirs that are no instruction (R54, R76, R77). -/

namespace Sys2Proof.Machine

/-! ### Results -/

/-- A concatenation as shifted halves. -/
theorem append_eq_or {w v : Nat} (x : BitVec w) (y : BitVec v) :
    x ++ y = (x.setWidth (w + v) <<< v) ||| y.setWidth (w + v) := by
  rw [BitVec.append_def, BitVec.shiftLeftZeroExtend_eq, BitVec.setWidth'_eq]

/-- LUI gives the immediate 13 bits up (R77). -/
theorem append_zero_eq_shiftLeft (i : BitVec 19) : i ++ (0 : BitVec 13) = i.setWidth 32 <<< 13 :=
  (append_eq_or i 0).trans (by simp)

/-- LI.HI gives the upper half and keeps the lower one (R54). -/
theorem append_setWidth_eq_or (i : Word32) (x : Word) :
    i ++ x.setWidth 32 = (x &&& 0xFFFFFFFF#64) ||| (i.setWidth 64 <<< 32) := by
  have hlow : (x.setWidth 32).setWidth 64 = x &&& 0xFFFFFFFF#64 := by
    apply BitVec.eq_of_toNat_eq
    rw [BitVec.toNat_and, BitVec.toNat_setWidth, BitVec.toNat_setWidth,
      Nat.mod_eq_of_lt ((Nat.mod_lt _ (by decide)).trans (by decide : 2 ^ 32 < 2 ^ 64))]
    exact (Nat.and_two_pow_sub_one_eq_mod x.toNat 32).symm
  exact (append_eq_or i _).trans (by rw [BitVec.or_comm, hlow])

/-- The signed comparison as a word (R74, R76). -/
theorem boolWord_slt (x y : Word) : boolWord (x.slt y) = if x.toInt < y.toInt then 1 else 0 := by
  simp [boolWord, BitVec.slt]

/-- A form without a source register writes its result (R54, R77). -/
theorem WritesReg.of_sput {s : State} {i : Instr} {d : SReg} {v v' : Word} {n : Nat} (h : SReady s .user [d] true)
    (e : exec i s = .next (s.sIssue .user [d] true fun s => (s.sput d v').nextPc n)) (hv : v' = v) : WritesReg s i d v 0 n :=
  WritesReg.of_quiet (h.legal d (List.mem_singleton_self d)) (by rw [e, State.sIssue_ready h]) hv

/-! ### Words that are no instruction -/

/-- A shift form has bits 11:6 of its count clear (R76). -/
theorem high_sI (maj : BitVec 6) (d a : SReg) (n : BitVec 6) : (sI maj d a (n.zeroExtend 12)).extractLsb' 6 6 = 0 := by
  rw [sI, extractLsb'_append_low _ _ (by decide)]
  ext k hk
  simp

/-- LI and LI.HI have sa and sb clear (R54). -/
theorem sources_sR (maj : BitVec 6) (d : SReg) (fn : BitVec 5) : (sR maj d 0 0 fn).extractLsb' 5 14 = 0 := by
  rw [sR, extractLsb'_append_high _ _ _ (by decide)]
  ext k hk
  simp only [BitVec.getElem_extractLsb', BitVec.getLsbD_append]
  split
  · simp
  · split
    · simp
    · omega

/-- What the decoder answers is named by the words, and has them as its own. -/
theorem decodeS_eq_instr {w0 w1 : Word32} {i : Instr} (h : decodeS w0 w1 = .instr i) :
    sCandidate w0 w1 = some i ∧ encode i = if sWords w0 == 2 then [w0, w1] else [w0] :=
  (accept_eq_instr.mp h).imp id And.left

/-- A word of a shift form with another count than 0 to 63 is no instruction (R76). -/
theorem decodeS_shift_ne {w0 : Word32} (hm : 6 ≤ (w0.extractLsb' 26 6).toNat ∧ (w0.extractLsb' 26 6).toNat ≤ 8)
    (hc : w0.extractLsb' 6 6 ≠ 0) (w1 : Word32) (i : Instr) : decodeS w0 w1 ≠ .instr i := by
  intro h
  obtain ⟨hn, he⟩ := decodeS_eq_instr h
  suffices hw : ∃ (maj : BitVec 6) (d a : SReg) (n : BitVec 6), w0 = sI maj d a (n.zeroExtend 12) by
    obtain ⟨maj, d, a, n, rfl⟩ := hw
    exact hc (high_sI maj d a n)
  obtain hm | hm | hm : (w0.extractLsb' 26 6).toNat = 6 ∨ (w0.extractLsb' 26 6).toNat = 7 ∨ (w0.extractLsb' 26 6).toNat = 8 := by
    omega
  all_goals
    rw [sWords, hm] at he
    rw [sCandidate, hm] at hn
    cases hn
    rw [encode_of_none rfl] at he
    exact ⟨_, _, _, _, (List.singleton_inj.mp he).symm⟩

/-- A word of LI or LI.HI with a source field in use is no instruction (R54). -/
theorem decodeS_li_ne {w0 : Word32} (hm : (w0.extractLsb' 26 6).toNat = 0x0B) (hc : w0.extractLsb' 5 14 ≠ 0) (w1 : Word32)
    (i : Instr) : decodeS w0 w1 ≠ .instr i := by
  intro h
  obtain ⟨hn, he⟩ := decodeS_eq_instr h
  suffices hw : ∃ maj d fn, w0 = sR maj d 0 0 fn by
    obtain ⟨maj, d, fn, rfl⟩ := hw
    exact hc (sources_sR maj d fn)
  rw [sWords, hm] at he
  simp only [sCandidate, hm] at hn
  split at hn
  · cases hn
    rw [encode_of_none rfl] at he
    exact ⟨_, _, _, (List.cons.inj he).1.symm⟩
  · cases hn
    rw [encode_of_none rfl] at he
    exact ⟨_, _, _, (List.cons.inj he).1.symm⟩
  · cases hn

/-- Settles O2: a ready form writes the value of its function, and the words of a form have the fields it leaves out clear. -/
theorem immediateFormsWriteTheirResult : Obligations.ImmediateFormsWriteTheirResult := by
  unfold Obligations.ImmediateFormsWriteTheirResult
  refine ⟨fun s d a => ⟨fun h imm n => ?_, fun h => ⟨fun i => ?_, fun i => ⟨?_, ?_⟩⟩⟩, fun w0 w1 => ⟨fun h => ?_, fun h => ?_⟩⟩
  · exact ⟨.of_alu1 h rfl rfl, .of_alu1 h rfl rfl, .of_alu1 h rfl rfl, .of_alu1 h rfl rfl, .of_alu1 h rfl rfl, .of_alu1 h rfl rfl,
      .of_alu1 h rfl rfl, .of_alu1 h rfl (boolWord_slt _ _)⟩
  · exact .of_sput h rfl (congrArg (BitVec.signExtend 64) (append_zero_eq_shiftLeft i))
  · exact .of_sput h rfl rfl
  · refine WritesReg.of_quiet (h.legal d (List.mem_singleton_self d)) ?_ (append_setWidth_eq_or i _)
    show execLiHi d i s = _
    rw [execLiHi, State.sIssue_ready h]
  · exact decodeS_shift_ne ⟨h.1, h.2.1⟩ h.2.2 w1
  · exact decodeS_li_ne h.1 h.2 w1

end Sys2Proof.Machine
end

section
/-! Exceptions of the instructions that enter a handler by themselves, and of words that are none (R312, R313, R318). -/

namespace Sys2Proof.Machine

/-- A stop that is no memory fault, and that may be entered at once, enters its handler (R312, R313). -/
theorem State.dispatch_entersHandler {s u : State} {st : Stop} {entry : Word} {imm : Bool} (hl : st.lanes = [])
    (hm : memoryCode st.code = false) (hc : st.code ≠ 0x10) (hi : Interruptible s) (hu : u.canEnter = true)
    (hv : s.vectorEntry (s.coreOf s.cur) (s.ctxOf s.cur) st.code = (some (entry, imm), u))
    (himm : imm = true ∨ st.inPlace = true) : EntersHandler u (s.dispatch st) st.code st.hs1 st.pc entry := by
  rw [State.dispatch_enters (State.queueMem_plain hl hm) hi hv himm, State.enterHandler, if_pos hu]
  exact EntersHandler.of_enter u { st with queued := true } entry hc

/-- SYSCALL and BKPT enter their handler after themselves (R312, R318). -/
theorem State.softStop_enters {s u : State} {code : Byte} {hs1 entry : Word} {imm : Bool} (hi : Interruptible s)
    (hu : u.canEnter = true)
    (hv : (s.nextPc 4).vectorEntry (s.coreOf s.cur) (s.ctxOf s.cur) code = (some (entry, imm), u))
    (hc : code = 0x1B ∨ code = 0x1C) : EntersHandler u (s.softStop code hs1) code hs1 (s.cur.s.pc + 4) entry := by
  have hn : Interruptible (s.nextPc 4) := ⟨hi.runs, hi.user, hi.parked, hi.halted, hi.policy⟩
  have hm : memoryCode code = false := by rcases hc with rfl | rfl <;> rfl
  have h10 : code ≠ 0x10 := by rcases hc with rfl | rfl <;> decide
  have hp : ((s.nextPc 4).sStop code 0 hs1 [] 0).inPlace = true := by
    rcases hc with rfl | rfl <;> simp [Stop.inPlace, State.sStop]
  exact State.dispatch_entersHandler (st := (s.nextPc 4).sStop code 0 hs1 [] 0) rfl hm h10 hn hu hv (.inr hp)

/-- An exact stop of the L-stream, other than a memory fault, enters its handler (R312, R313). -/
theorem State.raiseL_enters {s u : State} {code : Byte} {entry : Word} (hw : s.cur.lWaits = false) (hi : Interruptible s)
    (hu : u.canEnter = true) (hv : s.vectorEntry (s.coreOf s.cur) (s.ctxOf s.cur) code = (some (entry, true), u))
    (hm : memoryCode code = false) (hc : code ≠ 0x10) : EntersHandler u (s.raiseL code) code 0 s.lpc entry := by
  rw [State.raiseL, State.lFault, hw, if_neg Bool.false_ne_true]
  exact State.dispatch_entersHandler rfl hm hc hi hu hv (.inl rfl)

/-- The end of a wait leaves the name of the group. -/
theorem Group.endWait_uid (g : Group) (p : SWait → Bool) (pc : Word → Word) (ws : List (SReg × Word)) :
    (g.endWait p pc ws).uid = g.uid := by
  unfold Group.endWait
  split <;> rfl

/-- Settles O6: SYSCALL and BKPT stop past themselves, a word that is no instruction at itself, and each stop enters its
handler; the port ends the wait of BKPT. -/
theorem exceptionsEnterTheirHandler : Obligations.ExceptionsEnterTheirHandler := by
  unfold Obligations.ExceptionsEnterTheirHandler
  intro s u entry imm hi
  refine ⟨fun a hr hl hu hv => ?syscall, fun hr hl => ⟨fun hd hu hv => ?bkpt, fun hd => ?debugged⟩,
    fun himm hu hv => ⟨fun hw => ?wordS, fun hw => ?wordL⟩, fun uid g hg hwait => ?resume⟩
  case syscall =>
    have hexec : exec (.syscall a) s = .next (s.joinS.softStop 0x1B (s.sget a)) := by
      show execSyscall a s = _
      rw [execSyscall, State.sIssue_ready hr, hi.user, hl]
      rfl
    exact ⟨_, hexec, State.softStop_enters hi.joinS hu hv (.inl rfl)⟩
  case bkpt =>
    have hexec : exec .bkpt s = .next (s.joinS.softStop 0x1C 0) := by
      show execBkpt s = _
      rw [execBkpt, State.sIssue_ready hr, hi.user, hl, hd]
      rfl
    exact ⟨_, hexec, State.softStop_enters hi.joinS hu hv (.inr rfl)⟩
  case debugged =>
    show execBkpt s = _
    rw [execBkpt, State.sIssue_ready hr, hi.user, hl, hd]
    rfl
  case wordS =>
    subst himm
    exact ⟨_, rfl, State.sFault_enters hw hi hu hv rfl (by decide) rfl⟩
  case wordL =>
    subst himm
    exact ⟨_, rfl, State.raiseL_enters hw hi hu hv rfl (by decide)⟩
  case resume =>
    obtain rfl := State.uid_of_group? hg
    have hend : g.endWait (· == .debug) (· + 4) [] = { g with wait := .none, s := { g.s with pc := g.s.pc + 4 } } := by
      rw [Group.endWait, hwait]
      rfl
    rw [← hend]
    exact ChangesGroup.of_mapGroup hg (fun x => x.endWait_uid _ _ _) rfl

end Sys2Proof.Machine
end

section
/-! Every step goes on (R56, R309, R312). -/

namespace Sys2Proof.Machine

/-- Each meaning answers a next state. -/
theorem exec_goesOn (i : Instr) (s : State) : goesOn (exec i s) := by
  cases i <;> exact ⟨_, rfl⟩

/-- What waits for a level of memory goes on too (R393). -/
theorem State.orWait_goesOn {s : State} {o : Out} (h : goesOn o) : goesOn (s.orWait o) := by
  obtain ⟨t, rfl⟩ := h
  exact ⟨_, rfl⟩

/-- Settles O54: the turn has nothing to run, or runs a meaning that goes on. -/
theorem noStepStops : Obligations.NoStepStops := by
  unfold Obligations.NoStepStops
  intro s
  unfold step
  dsimp only
  split
  · exact State.orWait_goesOn (exec_goesOn _ _)
  · exact ⟨_, rfl⟩

end Sys2Proof.Machine
end

section
/-! The words and the source lines that the spec writes out (R60 to R81, R92, R144). -/

namespace Sys2Proof.Machine

/-- Settles O57: every word is decoded, every source assembled and every listing printed by evaluation in the kernel. -/
theorem specWordsDecode : Obligations.SpecWordsDecode := by
  unfold Obligations.SpecWordsDecode
  refine ⟨by decide, ?scode, ?lcode, ?rounded, ?overflow, ?noBase, ?listS, ?listL⟩
  all_goals decide +kernel

end Sys2Proof.Machine
end

section
/-! What the register forms of the ALU write, and the words of theirs that are no instruction (R74, R75). -/

namespace Sys2Proof.Machine

/-! ### Results -/

theorem count6_eq (y : Word) : count6 y = (y.extractLsb' 0 6).toNat := by
  simp [count6, BitVec.extractLsb'_toNat]

/-- The high half of a product, from the exact product (R74). -/
theorem extractLsb'_ofInt_high (p : Int) : (BitVec.ofInt 128 p).extractLsb' 64 64 = BitVec.ofInt 64 (p / 2 ^ 64) := by
  apply BitVec.eq_of_toNat_eq
  rw [BitVec.extractLsb'_toNat, BitVec.toNat_ofInt, BitVec.toNat_ofInt, Nat.shiftRight_eq_div_pow]
  push_cast
  omega

theorem ofInt_toInt_signExtend {w v : Nat} (x : BitVec w) (h : w ≤ v) : BitVec.ofInt v x.toInt = x.signExtend v := by
  rw [← BitVec.toInt_signExtend_of_le h, BitVec.ofInt_toInt]

theorem mulHigh_eq (x y : Word) : mulHigh x y = (x.signExtend 128 * y.signExtend 128).extractLsb' 64 64 := by
  rw [mulHigh, ← extractLsb'_ofInt_high, BitVec.ofInt_mul, ofInt_toInt_signExtend x (by decide), ofInt_toInt_signExtend y (by decide)]

theorem mulHighN_eq (x y : Word) : mulHighN x y = (x.setWidth 128 * y.setWidth 128).extractLsb' 64 64 := by
  have hx : BitVec.ofInt 128 x.toNat = x.setWidth 128 := by rw [BitVec.ofInt_natCast, BitVec.ofNat_toNat]
  have hy : BitVec.ofInt 128 y.toNat = y.setWidth 128 := by rw [BitVec.ofInt_natCast, BitVec.ofNat_toNat]
  rw [← hx, ← hy, ← BitVec.ofInt_mul, extractLsb'_ofInt_high, mulHighN, ← BitVec.ofInt_natCast]
  push_cast
  rfl

theorem rotateRight_count6 (y : Word) (x : Word) :
    x.rotateRight (count6 y) = (x >>> (y.extractLsb' 0 6).toNat) ||| (x <<< (64 - (y.extractLsb' 0 6).toNat)) := by
  rw [count6_eq, BitVec.rotateRight_def, Nat.mod_eq_of_lt (BitVec.isLt _)]

/-- The choice of a signed or natural minimum or maximum (R74). -/
theorem ite_sle {α : Type} (x y : Word) (a b : α) : (if x.sle y then a else b) = if x.toInt ≤ y.toInt then a else b := by
  simp [BitVec.sle]

theorem ite_ule {α : Type} (x y : Word) (a b : α) : (if x.ule y then a else b) = if x.toNat ≤ y.toNat then a else b := by
  simp [BitVec.ule]

theorem boolWord_ult (x y : Word) : boolWord (x.ult y) = if x.toNat < y.toNat then 1 else 0 := by
  simp [boolWord, BitVec.ult]

theorem boolWord_beq (x y : Word) : boolWord (x == y) = if x = y then 1 else 0 := by
  simp [boolWord]

theorem boolWord_bne (x y : Word) : boolWord (x != y) = if x = y then 0 else 1 := by
  simp only [boolWord, bne_iff_ne, ne_eq, ite_not]

/-- The bits above the highest one bit are clear (R74). -/
theorem getLsbD_of_lt_clz {x : Word} {i : Nat} (h : i < x.clz.toNat) : x.getLsbD (63 - i) = false := by
  have hx := x.toNat_lt_two_pow_sub_clz
  refine Nat.testBit_lt_two_pow (hx.trans_le (Nat.pow_le_pow_right (by decide) ?_))
  omega

theorem getLsbD_clz {x : Word} (h : x.clz.toNat < 64) : x.getLsbD (63 - x.clz.toNat) = true := by
  have hx : x ≠ 0 := BitVec.clz_lt_iff_ne_zero.mp h
  exact BitVec.getLsbD_true_clz_of_ne_zero (by decide) hx

theorem mulWord_eq (x y : Word) :
    mulWord x y = (x * y, if x.toInt * y.toInt < -2 ^ 63 ∨ 2 ^ 63 - 1 < x.toInt * y.toInt then flagIO else 0) :=
  Prod.ext rfl (flagIf_outside true 64 _ flagIO)

/-- A zero divisor gives all ones and the dividend, with NV or DZ (R75). -/
theorem divWord_zero (signed overflow : Bool) (x : Word) :
    divWord signed overflow x 0 = (BitVec.allOnes 64, if x = 0 then flagNV else flagDZ) := by
  rw [divWord, divideInt_zero]
  rfl

theorem remWord_zero (signed : Bool) (x : Word) : remWord signed x 0 = (x, if x = 0 then flagNV else flagDZ) := by
  rw [remWord, divideInt_zero, BitVec.ofNat_toNat, BitVec.setWidth_eq]

section
variable {signed : Bool} {x y : Word} (hy : y ≠ 0) (htop : divTop signed x y = false)
include hy htop

/-- A division that does not overflow truncates toward zero, and sets no flag (R75). -/
theorem divWord_exact (overflow : Bool) :
    divWord signed overflow x y = (BitVec.ofInt 64 ((numOf signed x).tdiv (numOf signed y)), 0) := by
  rw [divWord, divideInt_exact signed (by decide) overflow hy htop, ofNat_wrapInt]

theorem remWord_exact : remWord signed x y = (BitVec.ofInt 64 ((numOf signed x).tmod (numOf signed y)), 0) := by
  rw [remWord, divideInt_exact signed (by decide) false hy htop, ofNat_wrapInt]

end

theorem divTop_false {x y : Word} (h : ¬ (x = 0x8000000000000000#64 ∧ y = BitVec.allOnes 64)) : divTop true x y = false := by
  rw [divTop, Bool.true_and, Bool.and_eq_false_imp]
  exact fun hx => beq_false_of_ne fun hy => h ⟨eq_of_beq hx, hy⟩

/-- The natural quotient and remainder (R75). -/
theorem divnWord_exact {x y : Word} (hy : y ≠ 0) : divWord false false x y = (BitVec.ofNat 64 (x.toNat / y.toNat), 0) :=
  (divWord_exact hy rfl false).trans (congrArg (·, (0 : Byte)) (BitVec.ofInt_natCast ..))

theorem remnWord_exact {x y : Word} (hy : y ≠ 0) : remWord false x y = (BitVec.ofNat 64 (x.toNat % y.toNat), 0) :=
  (remWord_exact hy rfl).trans (congrArg (·, (0 : Byte)) (BitVec.ofInt_natCast ..))

/-! ### Words that are no instruction -/

/-- A word of CLZ or POPC with sb in use is no instruction (R74). -/
theorem decodeS_count_ne {w0 : Word32} (hm : (w0.extractLsb' 26 6).toNat = 1)
    (hf : (w0.extractLsb' 0 5).toNat = 21 ∨ (w0.extractLsb' 0 5).toNat = 22) (hb : w0.extractLsb' 5 7 ≠ 0) (w1 : Word32) (i : Instr) :
    decodeS w0 w1 ≠ .instr i := by
  intro h
  obtain ⟨hn, he⟩ := decodeS_eq_instr h
  suffices hw : ∃ maj d a fn, w0 = sR maj d a 0 fn by
    obtain ⟨maj, d, a, fn, rfl⟩ := hw
    exact hb (fB_sR maj d a 0 fn)
  rw [sWords, hm] at he
  rcases hf with hf | hf
  all_goals
    rw [sCandidate, hm] at hn
    simp only [fFn, hf] at hn
    cases hn
    rw [encode_of_none rfl] at he
    exact ⟨_, _, _, _, (List.singleton_inj.mp he).symm⟩

/-- Settles O1: each ready form writes what its function gives, and each function gives the value that R74 or R75 states. -/
theorem aluFormsWriteTheirResult : Obligations.AluFormsWriteTheirResult := by
  unfold Obligations.AluFormsWriteTheirResult
  refine ⟨fun s d a b h => ?forms, fun s d a h => ⟨rfl, fun w0 w1 hm hf hb => decodeS_count_ne hm hf hb w1, ?clz, ?popc⟩,
    fun s d a b h => ?products⟩
  case forms =>
    intro x y n
    have hn : count6 y = n := count6_eq y
    have alu {i : Instr} {f : Word → Word → Word} {v : Word} (e : exec i s = .next (s.alu2 d a b (quiet f))) (hv : f x y = v) :
        WritesReg s i d v 0 4 := .of_alu2 h e (congrArg (·, (0 : Byte)) hv)
    exact ⟨alu rfl rfl, alu rfl rfl, alu rfl (mulHigh_eq x y), alu rfl (mulHighN_eq x y), alu rfl rfl, alu rfl rfl, alu rfl rfl,
      alu rfl rfl, alu rfl (congrArg (x <<< ·) hn), alu rfl (congrArg (x >>> ·) hn), alu rfl (congrArg x.sshiftRight hn),
      alu rfl (rotateRight_count6 y x), alu rfl (ite_sle ..), alu rfl (ite_sle ..), alu rfl (ite_ule ..), alu rfl (ite_ule ..),
      alu rfl (boolWord_slt x y), alu rfl (boolWord_ult x y), alu rfl (boolWord_beq x y), alu rfl (boolWord_bne x y),
      alu rfl (by simp)⟩
  case clz =>
    refine ⟨(s.sget a).clz.toNat, BitVec.clz_le, fun i hi => getLsbD_of_lt_clz hi, getLsbD_clz, .of_alu1 h rfl ?_⟩
    rw [ofNat_leadingZeros (by decide), BitVec.ofNat_toNat, BitVec.setWidth_eq]
  case popc => exact .of_alu1 h rfl (congrArg _ (popcount_eq_countP _))
  case products =>
    intro x y p zero
    refine ⟨.of_alu2 h rfl (mulWord_eq x y), fun hy => ?zero, fun ⟨hx, hy⟩ => ?top, fun hy hxy => ?signed, fun hy => ?natural⟩
    case zero =>
      have hdiv (signed overflow : Bool) : divWord signed overflow x y = (BitVec.allOnes 64, zero) :=
        hy ▸ divWord_zero signed overflow x
      have hrem (signed : Bool) : remWord signed x y = (x, zero) := hy ▸ remWord_zero signed x
      exact ⟨.of_alu2 h rfl (hdiv ..), .of_alu2 h rfl (hdiv ..), .of_alu2 h rfl (hrem _), .of_alu2 h rfl (hrem _)⟩
    case top =>
      have hdiv : divWord true true x y = (0x8000000000000000#64, flagIO) := by rw [hx, hy]; decide
      have hrem : remWord true x y = (0, 0) := by rw [hx, hy]; decide
      exact ⟨.of_alu2 h rfl hdiv, .of_alu2 h rfl hrem⟩
    case signed =>
      have htop := divTop_false hxy
      exact ⟨.of_alu2 h rfl (divWord_exact hy htop true), .of_alu2 h rfl (remWord_exact hy htop)⟩
    case natural => exact ⟨.of_alu2 h rfl (divnWord_exact hy), .of_alu2 h rfl (remnWord_exact hy)⟩

end Sys2Proof.Machine
end

section
/-! Where the transfers of the S-stream go, the stop of a register jump that is not aligned, and the words of theirs that are no
instruction (R78 to R81). -/

namespace Sys2Proof.Machine

/-! ### Transfers that go on -/

/-- A transfer that writes no register (R78 to R80). -/
theorem JumpsTo.of_setPc {s : State} {i : Instr} {pc pc' : Word} (h : exec i s = .next (s.setPc pc')) (hpc : pc' = pc) :
    JumpsTo s i pc := hpc ▸ h

/-- A transfer that leaves a value in a register (R80, R81). -/
theorem JumpsWriting.of_sput {s : State} {i : Instr} {pc pc' v : Word} {d : SReg} (hd : s.cur.sLegal d = true) (hne : d ≠ 127#7)
    (h : exec i s = .next ((s.sput d v).setPc pc')) (hpc : pc' = pc) : JumpsWriting s i pc d v := by
  subst hpc
  refine ⟨_, h, rfl, ?_, fun r hr => ?_, SState.put_flags .., rfl, fun _ => rfl⟩
  · rw [State.sget_setPc, State.sget_sput_same _ _ _ hd, if_neg hne]
  · rw [State.sget_setPc, State.sget_sput_ne _ _ _ _ hr]

/-- The signs that branches test (R48). -/
theorem slt_zero_iff (x : Word) : x.slt 0 = true ↔ x.toInt < 0 := by simp [BitVec.slt]
theorem zero_slt_iff (x : Word) : (0 : Word).slt x = true ↔ 0 < x.toInt := by simp [BitVec.slt]
theorem sle_zero_iff (x : Word) : x.sle 0 = true ↔ ¬ 0 < x.toInt := by simp [BitVec.sle]

/-- A branch goes to its target or to the next instruction (R78). -/
theorem JumpsTo.of_branch {s : State} {a : SReg} (h : SReady s .user [a] true) (c : Cond) (off : BitVec 16) {pc : Word}
    (hpc : (if Cond.holds c (s.sget a) then s.target off else s.cur.s.pc + 4) = pc) : JumpsTo s (.b c a off) pc := by
  refine JumpsTo.of_setPc (pc' := if Cond.holds c (s.sget a) then s.target off else s.cur.s.pc + 4) ?_ hpc
  show execB c a off s = _
  rw [execB, State.sIssue_ready h]
  split <;> rfl

/-- A register jump to an aligned target (R80). -/
theorem State.jumpTo_aligned {s : State} {t : Word} (h : t &&& 3 = 0) (link : Bool) :
    s.jumpTo t link = (if link then s.sput linkReg (s.cur.s.pc + 4) else s).setPc t := by
  rw [State.jumpTo, h]
  rfl

/-- LOOP goes on counting while its counter is not 1 (R81). -/
theorem JumpsWriting.of_loop {s : State} {a : SReg} (h : SReady s .user [a] true) (ha : a ≠ 127#7) (off : BitVec 16) :
    JumpsWriting s (.loop a off) (if s.sget a = 1 then s.cur.s.pc + 4 else s.target off) a (s.sget a - 1) := by
  refine JumpsWriting.of_sput (h.legal a (List.mem_singleton_self a)) ha (pc' := if s.sget a = 1 then s.cur.s.pc + 4 else s.target off) ?_ rfl
  have hpc : (s.sput a (s.sget a - 1)).cur.s.pc = s.cur.s.pc := SState.put_pc ..
  have hzero : s.sget a - 1 ≠ 0 ↔ s.sget a ≠ 1 := not_congr sub_eq_zero
  show execLoop a off s = _
  rw [execLoop, State.sIssue_ready h]
  simp only [bne_iff_ne, hzero, State.target, State.nextPc, hpc]
  by_cases h1 : s.sget a = 1
  · rw [if_neg (not_not.mpr h1), if_pos h1]
    rfl
  · rw [if_pos h1, if_neg h1]

/-! ### A target that is not aligned (R80, log 16) -/

/-- A register jump to an address that is not aligned stops at its own address with no effect. -/
theorem State.jumpTo_misaligned {s : State} {t : Word} (h : t &&& 3 ≠ 0) (hw : s.cur.sWaits = false) (link : Bool) :
    s.jumpTo t link = s.dispatch (s.sStop 0x07 0 0 [⟨255, ⟨0x07, 0, t, 0⟩⟩] 0) := by
  rw [State.jumpTo, if_pos (bne_iff_ne.mpr h), State.raiseMem, State.sFault, hw]
  rfl

/-- What a stop meets is what it met before its records were offered, where those leave the group (R246, R312). -/
theorem Interruptible.of_cur {s u : State} (h : Interruptible s) (hc : u.cur = s.cur) (hp : u.strictOf u.cur = false) : Interruptible u :=
  ⟨hc ▸ h.runs, hc ▸ h.user, hc ▸ h.parked, hc ▸ h.halted, hp⟩

/-- A register jump, with the register it reads and those its fields name (R79, R80). -/
theorem exec_jump {s : State} {i : Instr} {t : Word} {rs : List SReg}
    (h : (∃ a, i = .jr a ∧ t = s.sget a ∧ rs = [a]) ∨ (i = .ret ∧ t = s.sget 95#7 ∧ rs = [95#7]) ∨
      (∃ a, i = .callr a ∧ t = s.sget a ∧ rs = [a, 95#7]))
    (hr : SReady s .user rs true) : ∃ link, exec i s = .next (s.jumpTo t link) := by
  rcases h with ⟨a, rfl, rfl, rfl⟩ | ⟨rfl, rfl, rfl⟩ | ⟨a, rfl, rfl, rfl⟩
  · exact ⟨false, congrArg Host.Outcome.next (State.sIssue_ready hr)⟩
  · exact ⟨false, congrArg Host.Outcome.next (State.sIssue_ready hr)⟩
  · exact ⟨true, congrArg Host.Outcome.next (State.sIssue_ready hr)⟩

/-! ### Words that are no instruction -/

/-- A branch word names the branch of its condition (R78). -/
theorem sCandidate_branch {w0 : Word32} (hm : (w0.extractLsb' 26 6).toNat = 0x10) (w1 : Word32) :
    sCandidate w0 w1 = (Cond.ofBits (w0.extractLsb' 23 3)).map fun c => .b c (w0.extractLsb' 16 7) (w0.extractLsb' 0 16) := by
  simp only [sCandidate, hm]

/-- A branch word with the condition 7, or with a register and no condition, is no instruction (R48, R78). -/
theorem decodeS_branch_ne {w0 : Word32} (hm : (w0.extractLsb' 26 6).toNat = 0x10)
    (hc : (w0.extractLsb' 23 3).toNat = 7 ∨ (w0.extractLsb' 23 3).toNat = 6 ∧ w0.extractLsb' 16 7 ≠ 0) (w1 : Word32) (i : Instr) :
    decodeS w0 w1 ≠ .instr i := by
  intro h
  obtain ⟨hn, -, hw⟩ := accept_eq_instr.mp h
  rw [sCandidate_branch hm] at hn
  rcases hc with h7 | ⟨h6, ha⟩
  · have hcond : Cond.ofBits (w0.extractLsb' 23 3) = none := by simp only [Cond.ofBits, h7]
    rw [hcond] at hn
    cases hn
  · have hcond : Cond.ofBits (w0.extractLsb' 23 3) = some .always := by simp only [Cond.ofBits, h6]
    rw [hcond] at hn
    obtain rfl := Option.some.inj hn
    have hwf : (sregOk (w0.extractLsb' 16 7) && (Cond.always != .always || w0.extractLsb' 16 7 == 0)) = true :=
      sInstrWf_of_wf (i := .b .always (w0.extractLsb' 16 7) (w0.extractLsb' 0 16)) rfl hw
    exact ha (by simpa using (Bool.and_eq_true_iff.mp hwf).2)

/-- A word of JR, RET or CALLR has sd and sb clear, and RET sa too (R79, R80). -/
theorem decodeS_jump_ne {w0 : Word32} (hm : (w0.extractLsb' 26 6).toNat = 0x13)
    (hc : 2 < (fFn w0).toNat ∨ fD w0 ≠ 0 ∨ fB w0 ≠ 0 ∨ (fFn w0).toNat = 1 ∧ fA w0 ≠ 0) (w1 : Word32) (i : Instr) :
    decodeS w0 w1 ≠ .instr i := by
  intro h
  obtain ⟨hn, he⟩ := decodeS_eq_instr h
  suffices hw : ∃ a fn, w0 = sR 0x13 0 a 0 fn ∧ fn.toNat ≤ 2 ∧ (fn.toNat = 1 → a = 0) by
    obtain ⟨a, fn, rfl, hfn, ha⟩ := hw
    rw [fFn_sR, fD_sR, fB_sR, fA_sR] at hc
    rcases hc with hc | hc | hc | ⟨h1, hc⟩
    · omega
    · exact hc rfl
    · exact hc rfl
    · exact hc (ha h1)
  rw [sWords, hm] at he
  simp only [sCandidate, hm] at hn
  split at hn
  case h_4 => cases hn
  all_goals
    cases hn
    rw [encode_of_none rfl] at he
    exact ⟨_, _, (List.singleton_inj.mp he).symm, by decide, by simp⟩

/-- A word of LOOP has no condition, and a register to count in (R81). -/
theorem decodeS_loop_ne {w0 : Word32} (hm : (w0.extractLsb' 26 6).toNat = 0x14)
    (hc : (w0.extractLsb' 23 3).toNat ≠ 0 ∨ w0.extractLsb' 16 7 = 127) (w1 : Word32) (i : Instr) : decodeS w0 w1 ≠ .instr i := by
  intro h
  obtain ⟨hn, he, hw⟩ := accept_eq_instr.mp h
  rw [sWords, hm] at he
  rw [sCandidate, hm] at hn
  cases hn
  rcases hc with hc | hc
  · rw [encode_of_none rfl] at he
    rw [← List.singleton_inj.mp he, cond_sB] at hc
    exact hc rfl
  · have hwf : (sregOk (w0.extractLsb' 16 7) && w0.extractLsb' 16 7 != 127#7) = true :=
      sInstrWf_of_wf (i := .loop (w0.extractLsb' 16 7) (w0.extractLsb' 0 16)) rfl hw
    simp [hc] at hwf

/-- Settles O3: a ready transfer comes down to its next S-PC and its one register; a target that is not aligned, to the entry of the
ALIGN handler. -/
theorem transfersReachTheirTarget : Obligations.TransfersReachTheirTarget := by
  unfold Obligations.TransfersReachTheirTarget
  refine ⟨fun s a off far => ⟨fun h => ?near, fun h => ?j, fun h => ?link, fun h hx => ?callr⟩,
    fun s u v i t rs entry hi hr hw hint hal hq hu hstrict hv hvu hcan => ?align, fun w0 w1 => ⟨fun h => ?branch, fun h => ?jump, fun h => ?loop⟩⟩
  case near =>
    refine ⟨.of_branch h _ _ ?_, .of_branch h _ _ ?_, .of_branch h _ _ ?_, .of_branch h _ _ ?_, .of_branch h _ _ ?_, .of_branch h _ _ ?_,
      .of_branch h _ _ rfl, fun hx => ?_, fun ha => .of_loop h ha off⟩
    · simp only [Cond.holds, beq_iff_eq]
      rfl
    · simp only [Cond.holds, bne_iff_ne, ne_eq, ite_not]
      rfl
    · simp only [Cond.holds, slt_zero_iff]
      rfl
    · simp only [Cond.holds, Bool.not_eq_true', ← Bool.not_eq_true, slt_zero_iff, ite_not]
      rfl
    · simp only [Cond.holds, zero_slt_iff]
      rfl
    · simp only [Cond.holds, sle_zero_iff, ite_not]
      rfl
    · refine JumpsTo.of_setPc ?_ rfl
      show execJr a s = _
      rw [execJr, State.sIssue_ready h, State.jumpTo_aligned hx]
      rfl
  case j =>
    refine JumpsTo.of_setPc ?_ rfl
    show execJ far s = _
    rw [execJ, State.sIssue_ready h]
    rfl
  case link =>
    refine ⟨JumpsWriting.of_sput (h.legal _ (List.mem_singleton_self _)) (by decide) ?_ rfl, fun hx => JumpsTo.of_setPc ?_ rfl⟩
    · show execCall far s = _
      rw [execCall]
      exact congrArg Host.Outcome.next (State.sIssue_ready h)
    · show execRet s = _
      rw [execRet]
      exact congrArg Host.Outcome.next ((State.sIssue_ready h).trans (State.jumpTo_aligned hx false))
  case callr =>
    refine JumpsWriting.of_sput (h.legal _ (by simp)) (by decide) ?_ rfl
    show execCallr a s = _
    rw [execCallr]
    exact congrArg Host.Outcome.next ((State.sIssue_ready h).trans (State.jumpTo_aligned hx true))
  case align =>
    obtain ⟨link, hexec⟩ := exec_jump hi hr
    rw [State.jumpTo_misaligned hal hw, State.dispatch_enters hq (hint.of_cur hu hstrict) hv (.inl rfl), State.enterHandler,
      if_pos hcan] at hexec
    obtain ⟨-, -, ⟨h0, -, h2, -⟩, ⟨hregs, -, -, hflags, -⟩, -, -, -⟩ := EntersHandler.of_enter v
      { s.sStop 0x07 0 0 [⟨255, ⟨0x07, 0, t, 0⟩⟩] 0 with queued := true } entry (show (0x07 : Byte) ≠ 0x10 by decide)
    have hvs : v.cur = s.cur := hvu.trans hu
    exact ⟨_, hexec, rfl, rfl, rfl, h0, h2, hvs ▸ hregs, hvs ▸ hflags⟩
  case branch => exact decodeS_branch_ne h.1 h.2 w1
  case jump => exact decodeS_jump_ne h.1 h.2 w1
  case loop => exact decodeS_loop_ne h.1 h.2 w1

end Sys2Proof.Machine
end

section
/-! Scalar accesses to memory and to the scratchpad: their issue, and their stop at a fault (R88 to R90, R181, R193, R199 to R203, R245 to
R248). -/

namespace Sys2Proof.Machine

/-! ### An access of the S-stream that goes out (R194, R196) -/

theorem Group.push_scalar (g : Group) {a : Access} (cs : List Counter) (hl : a.l = false) :
    g.push a cs = { g with
      accs := g.accs ++ [g.numbered a], seq := g.seq + 1, tokens := g.tokens ++ cs.map fun c => ⟨c, g.seq, false⟩ } := by
  unfold Group.push
  rw [if_neg (by simp [hl])]
  rfl

theorem IssuesOne.of_push {s u : State} {i : Instr} {kind : AccKind} {dest : SReg} {ord : Order} {sc : Scope} {peer : Bool} {r : Req}
    {cs : List Counter} {len : Nat}
    (h : exec i s =
      .next ((u.mapCur fun g => g.push (s.newAccess false kind (dest.setWidth 8) ord sc peer [r]) cs).nextPc len)) :
    IssuesOne s u i kind dest ord sc peer r cs len := by
  refine ⟨_, u.cur.numbered (s.newAccess false kind (dest.setWidth 8) ord sc peer [r]), h, ?_, rfl, rfl, rfl, rfl, rfl, rfl, rfl, rfl, rfl, rfl⟩
  rw [State.mapCur, Group.push_scalar _ _ rfl]
  rfl

/-! ### A scalar access that stops (R245, R246, R248, R313) -/

@[simp] theorem State.logFault_cur (s : State) (f : MemFault) (wr loc : Bool) : (s.logFault f wr loc).cur = s.cur := by
  unfold State.logFault
  split <;> rfl

theorem issueFault.not_stall {f : MemFault} (h : issueFault f) : (f.code == 0) = false := by
  refine beq_false_of_ne fun hzero => ?_
  have := h.1
  simp [hzero] at this

/-- The stop of the S-stream for a fault of its access (R248). -/
def State.memStop (s : State) (f : MemFault) (flags : Byte) : Stop := s.sStop f.code f.cause (hs1Of f) [⟨255, f⟩] flags

theorem State.sMemFault_stops {s : State} {f : MemFault} (hw : s.cur.sWaits = false) (hf : issueFault f) (flags : Byte) (wr loc : Bool) :
    s.sMemFault f flags wr loc = (s.logFault f wr loc).dispatch ((s.logFault f wr loc).memStop f flags) := by
  unfold State.sMemFault State.raiseMem State.sFault
  rw [State.logFault_cur, hw, hf.not_stall, memoryCode_of_issueFault hf, causeWord_eq]
  rfl

/-- The record of the fault is offered before the stop is taken (R245, R246, R312). -/
theorem State.queueMem_memStop {s : State} {f : MemFault} (hm : memoryCode f.code = true) (flags : Byte) :
    s.queueMem (s.memStop f flags) = s.queueAll [faultRecord s (flags ||| 0 ||| 0) s.cur.s.pc ⟨255, f⟩] := by
  have hrec : s.recordOf s.cur f.code f.cause 255 (flags ||| 0 ||| 0) f.addr s.cur.s.pc f.pa 0 =
      faultRecord s (flags ||| 0 ||| 0) s.cur.s.pc ⟨255, f⟩ := by
    unfold State.recordOf faultRecord rankByte
    simp only [beq_iff_eq]
  have hrecords : s.stopRecords s.cur (s.memStop f flags) = [faultRecord s (flags ||| 0 ||| 0) s.cur.s.pc ⟨255, f⟩] := by
    rw [← hrec]
    simp [State.stopRecords, State.memStop, State.sStop, hm]
  unfold State.queueMem
  rw [hrecords, List.filter_eq_self.mpr (by simpa [faultRecord] using hm)]
  rfl

/-- A fault of a scalar access stops its group at the instruction: `y` is the device as the checks of the access leave it. -/
theorem TakesFaults.of_sMemFault {s y : State} {f : MemFault} (hi : Interruptible s) (hw : s.cur.sWaits = false) (hy : y.cur = s.cur)
    (hf : issueFault f) (flags : Byte) (wr loc : Bool) :
    TakesFaults y (.next (y.sMemFault f flags wr loc)) [⟨255, f⟩] false false flags s.cur.s.pc wr loc 1 none := by
  intro u entry imm f' w v hhead hcur hstrict hvec hu himm
  obtain rfl : f = f' := Option.some.inj hhead
  have himm : imm = true := himm.resolve_right (by simp)
  have hws : w.cur = s.cur := (State.logFault_cur ..).trans hy
  have hvs : v.cur = s.cur := hcur.trans hy
  have hiv : Interruptible v := hi.of_cur hvs hstrict
  have hq : w.queueMem (w.memStop f flags) = v := by
    rw [State.queueMem_memStop (memoryCode_of_issueFault hf), hws]
    rfl
  have hd := (State.sMemFault_stops (hy ▸ hw) hf flags wr loc).trans (State.dispatch_enters hq hiv hvec (.inl himm))
  refine ⟨_, congrArg Host.Outcome.next hd, fun hcan => ?enters, fun hcan => ?waits⟩
  case enters =>
    have hhv : Stop.givesHv { w.memStop f flags with queued := true } = true := by
      simp [Stop.givesHv, State.memStop, State.sStop, hf.1, hf.2]
    have hvec : f.code ≠ 0x10 := fun h => by
      have := hf.2
      simp [h] at this
    unfold State.enterHandler
    rw [if_pos hcan, ← hws]
    exact ⟨EntersHandler.of_enter u { w.memStop f flags with queued := true } entry hvec, hvHolds_enter u entry rfl hhv,
      _, rfl, rfl, rfl, rfl, rfl⟩
  case waits =>
    have hfree : (u.cur.parked || u.cur.halted) = false := by rw [hu, hiv.parked, hiv.halted]; rfl
    refine ⟨{ w.memStop f flags with queued := true }, ?_, rfl, rfl, rfl, congrArg (fun g : Group => g.s.pc) hws, rfl, rfl, rfl, rfl⟩
    unfold State.enterHandler State.mapCur
    rw [if_neg (by simp [hcan])]
    dsimp only
    rw [hfree]
    rfl

/-! ### Global accesses (R88 to R90, R193, R199 to R202) -/

/-- What a scalar access to global memory that may go out comes to: its one access in flight, or its fault. -/
def State.sendGlobal (s : State) (kind : AccKind) (dest : SReg) (ord : Order) (sc : Scope) (va : Word) (n : Nat) (data cmp : Word)
    (c : Counter) (len : Nat) : State :=
  match (s.checkGlobal kind.access va n).res with
  | .inl f => s.sGlobalFault (s.checkGlobal kind.access va n).st f kind.rflags kind.writes
  | .inr pa => ((s.checkGlobal kind.access va n).st.mapCur fun g =>
      g.push (s.newAccess false kind (dest.setWidth 8) ord sc false [reqOf 255 va pa n data cmp]) [c]).nextPc len

section
variable {s : State} {i : Instr} {kind : AccKind} {dest : SReg} {ord : Order} {sc : Scope} {va : Word} {n : Nat} {data cmp : Word}
  {c : Counter} {len : Nat} (h : exec i s = .next (s.sendGlobal kind dest ord sc va n data cmp c len))
include h

theorem IssuesOne.of_sendGlobal {pa : Nat} (hpa : (s.checkGlobal kind.access va n).res = .inr pa) :
    IssuesOne s (s.checkGlobal kind.access va n).st i kind dest ord sc false (reqOf 255 va pa n data cmp) [c] len := by
  refine IssuesOne.of_push ?_
  rw [h, State.sendGlobal, hpa]

theorem TakesFaults.of_sendGlobal {w : State} {f : MemFault} (hi : Interruptible s) (hw : s.cur.sWaits = false) (hf : issueFault f)
    (hcheck : s.checkGlobal kind.access va n = ⟨.inl f, w⟩) (hcur : w.cur = s.cur) :
    TakesFaults w (exec i s) [⟨255, f⟩] false false kind.rflags s.cur.s.pc kind.writes false 1 none := by
  have hsend : s.sendGlobal kind dest ord sc va n data cmp c len = w.sMemFault f kind.rflags kind.writes false := by
    rw [State.sendGlobal, hcheck]
    dsimp only
    rw [State.sGlobalFault, hw, hf.not_stall]
    rfl
  rw [h, hsend]
  exact TakesFaults.of_sMemFault hi hw hcur hf _ _ _

end

section
variable {s : State} {d a b : SReg}

/-- A ready load goes out unless its counter is full or an acquiring access holds it (R90, R191, R196). -/
theorem State.sLoad_ready (h : SReady s .user [d, a] true) (hc : s.cur.count .ld < 255) (hacq : s.cur.acquiring false 0 = false)
    (n : Nat) (signed : Bool) (ord : Order) (sc : Scope) (va : Word) (len : Nat) :
    s.sLoad n signed ord sc d a va len = s.sendGlobal (.load n signed) d ord sc va n 0 0 .ld len := by
  rw [State.sLoad, State.sIssue_ready h, Group.full_of_lt hc, hacq]
  rfl

/-- A ready store goes out unless its counter is full (R89, R196). -/
theorem State.sStore_ready (h : SReady s .user [d, a] false) (hc : s.cur.count .st < 255)
    (n : Nat) (ord : Order) (sc : Scope) (va : Word) (len : Nat) :
    s.sStore n ord sc d a va len = s.sendGlobal (.store n) 0 ord sc va n (s.sget d) 0 .st len := by
  rw [State.sStore, State.sIssue_ready h, Group.full_of_lt hc]
  rfl

/-- A ready atomic goes out unless its counter is full (R196, R202). -/
theorem exec_satom_ready (h : SReady s .user [d, a, b] false) (hc : s.cur.count .st < 255) (op : AtomOp) (w64 : Bool) (ord : Order)
    (sc : Scope) (disp : BitVec 16) :
    exec (.satom op w64 ord sc d a b disp) s = .next (s.sendGlobal (.satom op (if w64 then 8 else 4) false) d ord sc
      (s.sget a + disp.signExtend 64) (if w64 then 8 else 4) (s.sget b) (s.sget d) .st 8) := by
  show execSatom op w64 ord sc d a b disp s = _
  rw [execSatom, State.sIssue_ready h, Group.full_of_lt hc]
  rfl

end

/-! ### Scratchpad accesses (R181, R203) -/

/-- A scratchpad access that fails a check at its issue, where neither its order nor a counter holds it, faults. -/
theorem State.spScalar_err {s : State} {kind : AccessKind} {n : Nat} {va : Word} {rflags : Byte} {cs : List Counter} {out : Bool}
    {x : Access} {own : State → Team → State} {f : MemFault} (hrel : kind.writes = true → out = false → s.releaseHeld false 0 x.ord x.scope = false)
    (hcs : cs.any s.cur.full = false) (hout : out = false → isPeer va = false) (herr : s.outErr va n = some f) :
    s.spScalar kind n va rflags cs out x own = s.sMemFault f rflags kind.writes true := by
  have hgo : (kind.writes && !out && s.releaseHeld false 0 x.ord x.scope) = false := by
    cases hk : kind.writes
    · rfl
    · cases out
      · exact hrel hk rfl
      · rfl
  unfold State.spScalar
  rw [hgo]
  cases out
  · rw [State.outErr, hout rfl] at herr
    have hown : s.ownTarget va n = .inl f := by
      cases ht : s.ownTarget va n with
      | inl g => simpa [ht] using herr
      | inr t => simp [ht] at herr
    simp only [hown, Bool.false_eq_true, if_false]
  · simp only [hcs, herr, Bool.false_eq_true, if_false, if_true]

section
variable {s : State} {d a b : SReg} {f : MemFault} {disp : BitVec 16}

theorem exec_spaccLoad_err (h : SReady s .user [d, a] true) (hacq : s.cur.acquiring false 0 = false) (hrs : s.cur.count .rs < 255)
    (sz : LdSize) (ord : Order) (sc : Scope) (herr : s.outErr (s.sget a + disp.signExtend 64) (LdSize.bytes sz) = some f) :
    exec (.spaccLoad sz ord sc d a disp) s = .next (s.sMemFault f 0 false true) := by
  show execSpaccLoad sz ord sc d a disp s = _
  rw [execSpaccLoad]
  dsimp only
  rw [State.sIssue_ready h, hacq, if_neg Bool.false_ne_true]
  exact congrArg Host.Outcome.next
    (State.spScalar_err (kind := .read) (cs := [.rs]) (fun h => absurd h (by decide)) (by simp [Group.full_of_lt hrs]) id herr)

theorem exec_spaccStore_err (h : SReady s .user [d, a] false) (hrs : s.cur.count .rs < 255) (hst : s.cur.count .st < 255)
    (sz : StSize) {ord : Order} {sc : Scope} (hrel : s.releaseHeld false 0 ord sc = false)
    (herr : s.outErr (s.sget a + disp.signExtend 64) (StSize.bytes sz) = some f) :
    exec (.spaccStore sz ord sc d a disp) s = .next (s.sMemFault f 0x02 true true) := by
  show execSpaccStore sz ord sc d a disp s = _
  rw [execSpaccStore]
  dsimp only
  rw [State.sIssue_ready h]
  exact congrArg Host.Outcome.next
    (State.spScalar_err (fun _ _ => hrel) (by simp [Group.full_of_lt hrs, Group.full_of_lt hst]) id herr)

theorem exec_spaccAtomic_err (h : SReady s .user [d, a, b] false) (hrs : s.cur.count .rs < 255) (hst : s.cur.count .st < 255)
    (sz : AtSize) (op : AtomOp) {ord : Order} {sc : Scope} (hrel : s.releaseHeld false 0 ord sc = false)
    (herr : s.outErr (s.sget a + disp.signExtend 64) (AtSize.bytes sz) = some f) :
    exec (.spaccAtomic sz op ord sc d a b disp) s = .next (s.sMemFault f 0x06 true true) := by
  have hcs : (if isPeer (s.sget a + disp.signExtend 64) then [Counter.rs, .st] else []).any s.cur.full = false := by
    split <;> simp [Group.full_of_lt hrs, Group.full_of_lt hst]
  show execSpaccAtomic sz op ord sc d a b disp s = _
  rw [execSpaccAtomic]
  dsimp only
  rw [State.sIssue_ready h]
  exact congrArg Host.Outcome.next (State.spScalar_err (fun _ _ => hrel) hcs (fun hout => (Bool.or_eq_false_iff.mp hout).1) herr)

end

/-! ### The statement -/

/-- Settles O12: a ready access goes out through its checks, which pass, or stop the group. -/
theorem globalAccessesIssueOnce : Obligations.GlobalAccessesIssueOnce := by
  unfold Obligations.GlobalAccessesIssueOnce
  refine ⟨fun s d a h hc hacq => ?loads, fun s d a hc => ⟨fun h => ?stores, fun op w64 ord sc b disp pa h => ?atomics⟩,
    fun s d a b f hi hw hacq hld hst hrs hf => ?faults⟩
  case loads =>
    intro issues
    have load {i : Instr} {n : Nat} {signed : Bool} {ord : Order} {sc : Scope} {va : Word} {len : Nat}
        (e : exec i s = .next (s.sLoad n signed ord sc d a va len)) : issues i va n signed ord sc len :=
      fun pa hpa => .of_sendGlobal (e.trans (congrArg _ (State.sLoad_ready h hc hacq ..))) hpa
    exact ⟨fun imm => ⟨load rfl, load rfl, load rfl, load rfl, load rfl, load rfl, load rfl⟩,
      fun disp ord sc => ⟨load rfl, load rfl, load rfl, load rfl, load rfl, load rfl, load rfl⟩⟩
  case stores =>
    intro issues
    have store {i : Instr} {n : Nat} {ord : Order} {sc : Scope} {va : Word} {len : Nat}
        (e : exec i s = .next (s.sStore n ord sc d a va len)) : issues i va n ord sc len :=
      fun pa hpa => .of_sendGlobal (e.trans (congrArg _ (State.sStore_ready h hc ..))) hpa
    exact ⟨fun imm => ⟨store rfl, store rfl, store rfl, store rfl⟩, fun disp ord sc => ⟨store rfl, store rfl, store rfl, store rfl⟩⟩
  case atomics => exact fun hpa => .of_sendGlobal (exec_satom_ready h hc ..) hpa
  case faults =>
    intro one faults global window
    have window_faults {i : Instr} {k : AccessKind} {flags : Byte} {va : Word} {n : Nat}
        (e : s.outErr va n = some f → exec i s = .next (s.sMemFault f flags (k != .read) true)) : window i k flags va n := fun herr => by
      show TakesFaults s (exec i s) _ _ _ _ _ _ _ _ _
      rw [e herr]
      exact TakesFaults.of_sMemFault hi hw rfl hf _ _ _
    refine ⟨fun h => ?loads, fun h => ?stores, fun h op w64 sz disp ord sc => ?atomics⟩
    case loads =>
      have load {i : Instr} {n : Nat} {signed : Bool} {ord : Order} {sc : Scope} {va : Word} {len : Nat}
          (e : exec i s = .next (s.sLoad n signed ord sc d a va len)) : global i .read 0 va n :=
        fun w hcheck hcur => .of_sendGlobal (e.trans (congrArg _ (State.sLoad_ready h hld hacq ..))) hi hw hf hcheck hcur
      refine ⟨fun imm => ⟨load rfl, load rfl, load rfl, load rfl, load rfl, load rfl, load rfl⟩, fun disp ord sc sz => ?_⟩
      intro n
      have hn : n = LdSize.bytes sz := by cases sz <;> rfl
      rw [hn]
      exact ⟨load rfl, window_faults (exec_spaccLoad_err h hacq hrs sz ord sc)⟩
    case stores =>
      have store {i : Instr} {n : Nat} {ord : Order} {sc : Scope} {va : Word} {len : Nat}
          (e : exec i s = .next (s.sStore n ord sc d a va len)) : global i .write 0x02 va n :=
        fun w hcheck hcur => .of_sendGlobal (e.trans (congrArg _ (State.sStore_ready h hst ..))) hi hw hf hcheck hcur
      refine ⟨fun imm => ⟨store rfl, store rfl, store rfl, store rfl⟩, fun disp ord sc sz => ?_⟩
      intro n
      have hn : n = StSize.bytes sz := by cases sz <;> rfl
      rw [hn]
      exact ⟨store rfl, fun hrel => window_faults (exec_spaccStore_err h hrs hst sz hrel)⟩
    case atomics =>
      refine ⟨fun w hcheck hcur => .of_sendGlobal (exec_satom_ready h hst ..) hi hw hf hcheck hcur, fun hrel => ?_⟩
      have hn : (if sz = .d64 then 8 else 4) = AtSize.bytes sz := by cases sz <;> rfl
      rw [hn]
      exact window_faults (exec_spaccAtomic_err h hrs hst sz op hrel)

end Sys2Proof.Machine
end

section
/-! The responses of the only access of a group: what a load and a store do to its registers and to memory (R88, R194, R216). -/

namespace Sys2Proof.Machine

/-! ### Bytes of a word (R2) -/

@[simp] theorem length_leBytes (n w : Nat) : (leBytes n w).length = n := by
  induction n generalizing w with
  | zero => rfl
  | succ n ih => rw [leBytes, List.length_cons, ih]

theorem getElem_leBytes {n : Nat} (w : Nat) {i : Nat} (h : i < (leBytes n w).length) :
    (leBytes n w)[i] = BitVec.ofNat 8 (w / 2 ^ (8 * i)) := by
  induction n generalizing w i with
  | zero => exact absurd h (Nat.not_lt_zero _)
  | succ n ih =>
    cases i with
    | zero => simp [leBytes]
    | succ i =>
      have hi : i < (leBytes n (w / 256)).length := by simpa using h
      refine (ih (w / 256) hi).trans ?_
      rw [Nat.div_div_eq_div_mul, Nat.mul_succ, Nat.add_comm, Nat.pow_add]

/-- A write of the low bytes of a word (R2). -/
theorem Stored.of_write {m : Cells} (hm : m.wf = true) (p n : Nat) (w : Word) : Stored m (m.write p (bytesOf n w.toNat)) p n w := by
  have hlen : (bytesOf n w.toNat).length = n := length_leBytes ..
  intro x
  split
  · next hx =>
    obtain ⟨i, rfl⟩ := Nat.exists_eq_add_of_le hx.1
    have hi : i < (bytesOf n w.toNat).length := by omega
    rw [Cells.get_write_in p i _ hi hm, Nat.add_sub_cancel_left]
    exact (getElem_leBytes _ hi).trans (by rw [BitVec.extractLsb', Nat.shiftRight_eq_div_pow])
  · next hx => exact Cells.get_write_out _ _ _ _ (by omega)

/-- The value that a load gives its register (R88). -/
theorem extend_load (n : Nat) (signed : Bool) (w : Word) : AccKind.extend (.load n signed) w = extended n signed w := by
  cases signed
  · exact (BitVec.ofNat_toNat ..).symm
  · rfl

/-! ### The end of an access -/

/-- The end of an access leaves the registers, and all of the group but its counts and the flags behind it (R194, R197). -/
theorem Group.endAcc_eq (g : Group) (seq : Nat) : g.endAcc seq = { g with
    accs := g.accs.filter fun a => a.seq != seq
    tokens := (g.endAcc seq).tokens, flags := (g.endAcc seq).flags, s := { g.s with flags := (g.endAcc seq).s.flags } } := by
  unfold Group.endAcc Group.settleFlags
  split <;> rfl

/-- A write wakes who waits on its line, and leaves the rest of the issuing group (R212). -/
theorem State.wakeLine_cur (s : State) (line : Nat) : ∃ w h, (s.wakeLine line).cur = { s.cur with wait := w, handler := h } := by
  unfold State.wakeLine State.mapGroups
  dsimp only
  split <;> exact ⟨_, _, rfl⟩

theorem State.memWrite_cur (s : State) (w : Byte) (pa : Nat) (bs : List Byte) :
    ∃ wait h, (s.memWrite w pa bs).cur = { s.cur with wait := wait, handler := h } := State.wakeLine_cur ..

theorem State.holdHost_cur (s : State) (pa : Nat) : (s.holdHost pa).cur = s.cur := by
  unfold State.holdHost
  split <;> rfl

theorem State.holdHost_mem (s : State) (pa : Nat) : (s.holdHost pa).mem = s.mem := by
  unfold State.holdHost
  split <;> rfl

/-- An event of the issuing group runs in place. -/
theorem State.withGroup_self {s : State} {f : State → State} (h : (f s).cur.uid = s.cur.uid) : s.withGroup s.cur.uid f = f s := by
  have hback : (f s).focus s.cur.uid = f s := h ▸ (f s).focus_self
  simp only [State.withGroup, s.focus_self, beq_self_eq_true, if_true, hback]

/-! ### The only access of a group -/

/-- An access whose only request is known. -/
def Access.answered (a : Access) (r : Req) (v : Word) : Access := { a with reqs := [{ r with ans := some v }] }

theorem Access.answered_known (a : Access) (r : Req) (v : Word) : (a.answered r v).allKnown = true := rfl

theorem Access.answered_failed {a : Access} {r : Req} (v : Word) (hf : a.fails = []) (hr : r.err = none) : (a.answered r v).failed = [] := by
  simp [Access.failed, Access.answered, hf, hr]

theorem Group.acc?_single {g : Group} {a : Access} (h : g.accs = [a]) : g.acc? a.seq = some a := by
  simp [Group.acc?, h]

theorem Group.endAcc_single {g : Group} {a : Access} (h : g.accs = [a]) : (g.endAcc a.seq).accs = [] := by
  rw [g.endAcc_eq]
  simp [h]

/-- A load gives its register its value, and sets no flag (R88). -/
theorem Access.deliver_load {a : Access} {r : Req} {n : Nat} {signed : Bool} (hk : a.kind = .load n signed) (g : Group) (v : Word) :
    (a.answered r v).deliver g = { g with s := g.s.put (a.dest.setWidth 7) (extended n signed v) } := by
  rw [← extend_load]
  simp [Access.deliver, Access.answered, hk]

/-- What the end of the only access, a load, leaves of the group. -/
theorem State.completeAccess_load {s : State} {a : Access} {r : Req} {n : Nat} {signed : Bool} {v : Word} (hk : a.kind = .load n signed)
    (ha : s.cur.accs = [a.answered r v]) : ∃ tokens flags sflags, s.completeAccess (a.answered r v) = s.mapCur fun g => { g with
      s := { g.s.put (a.dest.setWidth 7) (extended n signed v) with flags := sflags }
      accs := [], tokens := tokens, flags := flags } := by
  have haccs : ((s.cur.accs.map ((a.answered r v).deliverSnap s.cur)).filter fun b => b.seq != (a.answered r v).seq) = [] := by
    simp [ha, Access.deliverSnap]
  unfold State.completeAccess State.mapCur
  dsimp only
  rw [Group.endAcc_eq, Access.deliver_load hk]
  dsimp only
  rw [haccs]
  exact ⟨_, _, _, rfl⟩

namespace OnlyAccess

section
variable {s : State} {a : Access} {r : Req} (h : OnlyAccess s a r)
include h

theorem unknown : r.known = false := by
  obtain ⟨-, hans, herr⟩ := h.clean
  simp [Req.known, hans, herr]

theorem othersOut (q : Nat) (p : Group → Access → Req → Bool) : s.othersOut s.cur q p = false := by
  rw [State.othersOut, h.alone]
  rfl

/-- Nothing of the group comes before its only access. -/
theorem olderMeets (p : Access → Req → Bool) : s.olderMeets a r p = false := by
  have hself : a.prior.contains a.seq = false := by simpa using h.first.1
  rw [State.olderMeets, State.othersMeet, h.othersOut, h.accs]
  simp only [List.any_cons, List.any_nil, hself, Bool.false_and, Bool.or_false]

theorem needsOut : s.needsOut a = false := by
  have hself : a.needs.contains a.seq = false := by simpa using h.first.2
  rw [State.needsOut, State.anyOut, h.othersOut, Group.pending, h.accs]
  simp only [List.any_cons, List.any_nil, hself, Bool.false_and, Bool.and_false, Bool.or_false]

/-- Its one request acts: there is no choice to make (R225). -/
theorem someReqs (rep : Nat → Nat) (f : State → Access → Req → State × Req) :
    s.someReqs a rep f = (f s a r).1.mapCur fun g => g.setReq a.seq 0 (f s a r).2 := by
  have hpick : s.pick a.reqs.length = (fun _ => true, s) := by
    rw [h.reqs]
    rfl
  have hat : s.atReq a.seq 0 f = (f s a r).1.mapCur fun g => g.setReq a.seq 0 (f s a r).2 := by
    simp only [State.atReq, Group.acc?_single h.accs, h.reqs, List.getElem?_cons_zero, h.unknown, Bool.false_eq_true, if_false]
  rw [State.someReqs, hpick, h.reqs]
  exact hat

/-- The access once its request has its answer. -/
theorem setReq_accs {g : Group} (hg : g.accs = s.cur.accs) (v : Word) :
    (g.setReq a.seq 0 { r with ans := some v }).accs = [a.answered r v] := by
  simp [Group.setReq, mapIf, hg, h.accs, h.reqs, Access.answered]

/-! ### A load (R88, R194) -/

section
variable {n : Nat} {signed : Bool} (hk : a.kind = .load n signed) (hp : a.peer = false) (hl : s.levelHeld r.pa = false)
  (he : s.readErr s.myPort s.worldOf r.pa = none)
include hk

/-- No store of the group stands over memory for it. -/
theorem storesOn_load : s.storesOn s.cur a.prior r.pa r.size = [] := by
  simp [State.storesOn, h.accs, Access.valued, hk]

theorem readOver_load : s.readOver s.cur a.prior r.pa r.size = s.memRead r.pa r.size := by
  rw [State.readOver, h.storesOn_load hk, State.memRead, Cells.read_eq]
  rfl

include hl he

theorem answerRead : s.answerRead a r = (s.holdHost r.pa, { r with ans := some (wordOf (s.memRead r.pa r.size)) }) := by
  rw [State.answerRead, hl, h.storesOn_load hk, h.olderMeets, he, h.readOver_load hk]
  rfl

include hp

/-- Its response completes it, in the group whose access is answered. -/
theorem loadResponse {v : Word} (hv : v = wordOf (s.memRead r.pa r.size)) : s.loadResponse a.seq =
    ((s.holdHost r.pa).mapCur fun g => g.setReq a.seq 0 { r with ans := some v }).completeAccess (a.answered r v) := by
  obtain ⟨u, hu⟩ : ∃ u, u = (s.holdHost r.pa).mapCur fun g => g.setReq a.seq 0 { r with ans := some v } := ⟨_, rfl⟩
  have hsome (rep : Nat → Nat) : s.someReqs a rep State.answerRead = u := by
    rw [h.someReqs, h.answerRead hk hl he, hu, hv]
  have hacc : u.cur.accs = [a.answered r v] := by
    rw [hu]
    exact h.setReq_accs (congrArg (fun g : Group => g.accs) (s.holdHost_cur r.pa)) v
  have hfind : u.cur.acc? a.seq = some (a.answered r v) := Group.acc?_single (a := a.answered r v) hacc
  have hcan : u.cur.canDeliver (a.answered r v) = true := by simp [Group.canDeliver, Access.destRegs, Access.answered, hk]
  rw [← hu]
  simp only [State.loadResponse, Group.acc?_single h.accs, hk, hp, hsome, hfind, Bool.false_eq_true, if_false]
  simp only [State.finishAccess, Access.answered_known, hcan, Access.answered_failed v h.clean.1 h.clean.2.2, Bool.not_true, Bool.and_false,
    Bool.false_eq_true, if_false]

end

/-! ### A store (R216, log 116) -/

/-- A request of at most 8 bytes covers no line (R244). -/
theorem coversLine (hr : r.size ≤ 8) (line : Nat) : s.coversLine a line = false := by
  rw [State.coversLine, h.reqs]
  refine Bool.eq_false_iff.mpr fun hall => ?_
  have hfirst := List.all_eq_true.mp hall 0 (by simp)
  have hlast := List.all_eq_true.mp hall 63 (by simp)
  simp [meets] at hfirst hlast
  omega

section
variable {n : Nat} (hk : a.kind = .store n) (hp : a.peer = false) (hl : s.levelHeld r.pa = false) (hr : r.size ≤ 8)
  (he : s.writeErr s.myPort s.worldOf r.pa false = none)
include hl hr he

theorem performStore :
    s.performStore a a r = (s.memWrite s.worldOf r.pa (bytesOf r.size r.data.toNat), { r with ans := some 0 }) := by
  have hlower : (a.reqs.any fun q => !q.known && decide (q.lane < r.lane) && s.reqsMeet r q) = false := by
    simp [h.reqs]
  simp only [State.performStore, hlower, State.writeHeld, hl, h.olderMeets, h.needsOut, h.coversLine hr, he, Bool.or_self,
    Bool.false_eq_true, if_false]

include hk hp

/-- Its first response performs it. -/
theorem storeResponse : s.storeResponse a.seq =
    (s.memWrite s.worldOf r.pa (bytesOf r.size r.data.toNat)).mapCur fun g => g.setReq a.seq 0 { r with ans := some 0 } := by
  have hvalued : a.valued = false := by rw [Access.valued, hk]
  have hdrains : a.drains = false := by rw [Access.drains, hk]
  have hknown : a.allKnown = false := by simp [Access.allKnown, h.reqs, h.unknown]
  simp only [State.storeResponse, Group.acc?_single h.accs, hvalued, hdrains, hknown, hp, Bool.or_self, Bool.false_eq_true, if_false]
  rw [h.someReqs, h.performStore hl hr he]

end

end

end OnlyAccess

/-- The response of a store that is performed ends it (R216). -/
theorem State.storeResponse_answered {s : State} {a : Access} {r : Req} {n : Nat} {v : Word} (hk : a.kind = .store n) (he : r.err = none)
    (ha : s.cur.accs = [a.answered r v]) : s.storeResponse a.seq = s.mapCur fun g => g.endAcc a.seq := by
  have hfind : s.cur.acc? a.seq = some (a.answered r v) := Group.acc?_single (a := a.answered r v) ha
  have hvalued : (a.answered r v).valued = false := by simp only [Access.valued, Access.answered, hk]
  have hdrains : (a.answered r v).drains = false := by simp only [Access.drains, Access.answered, hk]
  simp only [State.storeResponse, hfind, hvalued, hdrains, Access.answered_known, Bool.or_self, Bool.false_eq_true, if_false, if_true]
  simp [State.reportErrs, Access.answered, he]

/-! ### The statement -/

/-- Reading a register of a stream whose flags differ. -/
theorem SState.get_withFlags (st : SState) (f : Byte) (q : SReg) : ({ st with flags := f } : SState).get q = st.get q := rfl

/-- Settles O13: the one request of the access acts, then the access ends. -/
theorem responsesReadAndWriteMemory : Obligations.ResponsesReadAndWriteMemory := by
  unfold Obligations.ResponsesReadAndWriteMemory
  intro s a r n h hp hsize hn hl hm
  subst hsize
  refine ⟨fun signed d hk hdest hd he => ?load, fun hk he => ?store⟩
  case load =>
    obtain ⟨v, hv⟩ : ∃ v, v = wordOf (s.memRead r.pa r.size) := ⟨_, rfl⟩
    have hcur := s.holdHost_cur r.pa
    have haccs : ((s.holdHost r.pa).mapCur fun g => g.setReq a.seq 0 { r with ans := some v }).cur.accs = [a.answered r v] :=
      h.setReq_accs (congrArg (fun g : Group => g.accs) hcur) v
    obtain ⟨tokens, flags, sflags, hend⟩ := State.completeAccess_load hk haccs
    have hresp := (h.loadResponse hk hp hl he hv).trans hend
    have hreg : a.dest.setWidth 7 = d := by
      rw [hdest, BitVec.setWidth_setWidth_of_le _ (by decide), BitVec.setWidth_eq]
    have hs : (s.loadResponse a.seq).cur.s =
        { s.cur.s.put d (extended r.size signed v) with flags := sflags } := by
      rw [hresp, ← hreg, ← hcur]
      rfl
    have huid : (s.loadResponse a.seq).cur.uid = s.cur.uid := by
      rw [hresp, ← hcur]
      rfl
    have hexec : exec (.loadResponse s.cur.uid a.seq) s = .next (s.loadResponse a.seq) :=
      congrArg Host.Outcome.next (State.withGroup_self (f := fun s => s.loadResponse a.seq) huid)
    refine ⟨_, hexec, ?accs, ?reg, fun q hq => ?others, ?pc, ?l, fun pa => ?mem⟩
    case accs => rw [hresp]; rfl
    case reg =>
      have hlegal : s.cur.sLegal d = true := by
        rcases hd with hd | rfl
        · simp [Group.sLegal, hd]
        · simp [Group.sLegal]
      rw [State.sget, hs, SState.get_withFlags, ← hv]
      exact State.sget_sput_same s d _ hlegal
    case others => rw [State.sget, hs, SState.get_withFlags, SState.get_put_ne _ _ _ _ hq]; rfl
    case pc => rw [hs]; exact SState.put_pc ..
    case l => rw [hresp, ← hcur]; rfl
    case mem => rw [hresp, ← s.holdHost_mem r.pa]; rfl
  case store =>
    have hr : r.size ≤ 8 := by omega
    obtain ⟨wait, hd, hcur⟩ := s.memWrite_cur s.worldOf r.pa (bytesOf r.size r.data.toNat)
    have hresp := h.storeResponse hk hp hl hr he
    obtain ⟨t, ht⟩ : ∃ t, t = s.storeResponse a.seq := ⟨_, rfl⟩
    rw [hresp] at ht
    have hgroup : t.cur = Group.setReq { s.cur with wait := wait, handler := hd } a.seq 0 { r with ans := some 0 } := by
      rw [ht, State.mapCur, hcur]
    have haccs : t.cur.accs = [a.answered r 0] := hgroup ▸ h.setReq_accs (g := { s.cur with wait := wait, handler := hd }) rfl 0
    have huid : t.cur.uid = s.cur.uid := hgroup ▸ rfl
    have hfirst : exec (.storeResponse s.cur.uid a.seq) s = .next t := by
      refine congrArg Host.Outcome.next ?_
      rw [State.withGroup_self (f := fun s => s.storeResponse a.seq) (by rw [hresp, ← ht, huid]), hresp, ← ht]
    have hsecond : exec (.storeResponse s.cur.uid a.seq) t = .next (t.mapCur fun g => g.endAcc a.seq) := by
      have hend := State.storeResponse_answered hk h.clean.2.2 haccs
      refine congrArg Host.Outcome.next ?_
      rw [← huid, State.withGroup_self (f := fun s => s.storeResponse a.seq) (by rw [hend, State.mapCur, Group.endAcc_eq]), hend]
    refine ⟨t, hfirst, haccs, hgroup ▸ rfl, hgroup ▸ rfl, ?stored, _, hsecond, ?gone, ?regs, ?l, fun _ => rfl⟩
    case stored =>
      rw [ht]
      exact Stored.of_write hm _ _ _
    case gone => exact Group.endAcc_single (a := a.answered r 0) haccs
    case regs =>
      rw [State.mapCur, Group.endAcc_eq, hgroup]
      rfl
    case l =>
      rw [State.mapCur, Group.endAcc_eq, hgroup]
      rfl

end Sys2Proof.Machine
end

section
/-! The order in which scans and reductions combine their lanes (R112). -/

namespace Sys2Proof.Machine

/-! ### The tree of VRED -/

section
variable {op : Word32 → Word32 → Word32} {leaf : Nat → Option Word32}

theorem treeNode_succ (n i : Nat) :
    treeNode op leaf (n + 1) i = Option.merge op (treeNode op leaf n (2 * i)) (treeNode op leaf n (2 * i + 1)) := by
  rw [treeNode]
  cases treeNode op leaf n (2 * i) <;> cases treeNode op leaf n (2 * i + 1) <;> rfl

/-- A tree whose leaves are the nodes of level 1 has the same nodes, one level down. -/
theorem treeNode_neighbours (n i : Nat) :
    treeNode op (fun k => Option.merge op (leaf (2 * k)) (leaf (2 * k + 1))) n i = treeNode op leaf (n + 1) i := by
  induction n generalizing i with
  | zero => exact (treeNode_succ 0 i).symm
  | succ n ih => rw [treeNode_succ, ih, ih, ← treeNode_succ]

/-- A node is present where one of its leaves is. -/
theorem treeNode_isSome {j : Nat} (hj : (leaf j).isSome) (n : Nat) : (treeNode op leaf n (j / 2 ^ n)).isSome := by
  induction n with
  | zero => simpa [treeNode] using hj
  | succ n ih =>
    have hchild : j / 2 ^ n = 2 * (j / 2 ^ (n + 1)) ∨ j / 2 ^ n = 2 * (j / 2 ^ (n + 1)) + 1 := by
      rw [Nat.pow_succ, ← Nat.div_div_eq_div_mul]
      omega
    rw [treeNode_succ, Option.isSome_merge, Bool.or_eq_true]
    rcases hchild with h | h <;> rw [h] at ih
    · exact .inl ih
    · exact .inr ih

/-- A lane alone goes up the tree unchanged. -/
theorem treeNode_single (j : Nat) (x : Word32) (n i : Nat) :
    treeNode op (fun k => if k = j then some x else none) n i = if i = j / 2 ^ n then some x else none := by
  induction n generalizing i with
  | zero => simp [treeNode]
  | succ n ih =>
    have hparent : i = j / 2 ^ (n + 1) ↔ 2 * i = j / 2 ^ n ∨ 2 * i + 1 = j / 2 ^ n := by
      rw [Nat.pow_succ, ← Nat.div_div_eq_div_mul]
      omega
    rw [treeNode_succ, ih, ih]
    by_cases hl : 2 * i = j / 2 ^ n
    · rw [if_pos hl, if_neg (by omega), if_pos (hparent.mpr (.inl hl)), Option.merge_none_right]
    · rw [if_neg hl, Option.merge_none_left]
      exact if_congr (by rw [hparent, or_iff_right hl]) rfl rfl

variable [Std.Associative op]

/-- An associative operation combines the leaves below a node from left to right. -/
theorem treeNode_eq_foldl (n i : Nat) :
    treeNode op leaf n i = ((List.range' (2 ^ n * i) (2 ^ n)).map leaf).foldl (Option.merge op) none := by
  induction n generalizing i with
  | zero => simp [treeNode, List.range'_one]
  | succ n ih =>
    have hrange : List.range' (2 ^ (n + 1) * i) (2 ^ (n + 1)) =
        List.range' (2 ^ n * (2 * i)) (2 ^ n) ++ List.range' (2 ^ n * (2 * i + 1)) (2 ^ n) := by
      rw [Nat.pow_succ, Nat.mul_assoc, Nat.mul_two, ← List.range'_append, Nat.one_mul, ← Nat.mul_succ]
    rw [treeNode_succ, ih, ih, hrange, List.map_append, List.foldl_append]
    exact List.foldl_assoc.symm.trans (by rw [Option.merge_none_right])

end

/-- Absent values leave the combination of the others as it is. -/
theorem foldl_merge_filter (op : Word32 → Word32 → Word32) (v : Nat → Word32) (q : Nat → Prop) [DecidablePred q] (l : List Nat)
    (x : Word32) : (l.map fun i => if q i then some (v i) else none).foldl (Option.merge op) (some x) =
      some ((l.filter q).foldl (fun acc i => op acc (v i)) x) := by
  induction l generalizing x with
  | nil => rfl
  | cons i l ih =>
    rw [List.map_cons, List.foldl_cons]
    by_cases hi : q i
    · rw [if_pos hi, Option.merge_some_some, ih, List.filter_cons_of_pos (by simpa using hi), List.foldl_cons]
    · rw [if_neg hi, Option.merge_none_right, ih, List.filter_cons_of_neg (by simpa using hi)]

/-- Of an associative operation with an identity, the tree is the fold of the lanes that are present. -/
theorem treeNode_eq_fold {op : Word32 → Word32 → Word32} [Std.Associative op] {e : Word32} (he : ∀ x, op e x = x) {n : Nat}
    {ls : List Nat} (hls : (List.range (2 ^ n)).filter (· ∈ ls) = ls) {v : Nat → Word32} {x : Word32}
    (hx : treeNode op (fun i => if i ∈ ls then some (v i) else none) n 0 = some x) :
    x = ls.foldl (fun acc i => op acc (v i)) e := by
  rw [treeNode_eq_foldl, Nat.mul_zero, ← List.range_eq_range'] at hx
  refine Option.some.inj ?_
  calc some x
    _ = Option.merge op (some e) (some x) := by rw [Option.merge_some_some, he]
    _ = ((List.range (2 ^ n)).map fun i => if i ∈ ls then some (v i) else none).foldl (Option.merge op)
          (Option.merge op (some e) none) := by rw [List.foldl_assoc, hx]
    _ = some (ls.foldl (fun acc i => op acc (v i)) e) := by rw [Option.merge_none_right, foldl_merge_filter, hls]

/-- What VRED and VSCAN make of two lanes (R112). -/
def laneOp (o : LOp) (a c : Word32) : Word32 := (redLane o a c).1

/-! ### The tree of the model -/

/-- A level of the tree begins with the combination of its first two nodes. -/
theorem redLevel_cons_cons (o : LOp) (x y : Option Word32) (l : List (Option Word32)) :
    (redLevel o (x :: y :: l)).1 = Option.merge (laneOp o) x y :: (redLevel o l).1 := by
  cases x <;> cases y <;> rfl

theorem redLevel_getD (o : LOp) (l : List (Option Word32)) (i : Nat) :
    (redLevel o l).1.getD i none = Option.merge (laneOp o) (l.getD (2 * i) none) (l.getD (2 * i + 1) none) := by
  match l, i with
  | [], _ => rfl
  | [x], i =>
    have hlast : redLevel o [x] = ([x], 0) := by cases x <;> rfl
    rw [hlast]
    cases i with
    | zero => exact Option.merge_none_right.symm
    | succ i => rfl
  | x :: y :: l, 0 => rw [redLevel_cons_cons]; rfl
  | x :: y :: l, i + 1 =>
    rw [redLevel_cons_cons]
    exact redLevel_getD o l i

/-- The model's tree holds the nodes of its level (R112). -/
theorem redTree_getD (o : LOp) (n : Nat) (l : List (Option Word32)) (i : Nat) :
    (redTree o n l).1.getD i none = treeNode (laneOp o) (fun k => l.getD k none) n i := by
  induction n generalizing l with
  | zero => rfl
  | succ n ih =>
    rw [← treeNode_neighbours]
    simp only [← redLevel_getD]
    exact ih _

/-- The model's tree begins with the root (R112). -/
theorem redTree_head (o : LOp) (n : Nat) (l : List (Option Word32)) :
    (redTree o n l).1.head?.getD none = treeNode (laneOp o) (fun k => l.getD k none) n 0 := by
  rw [← redTree_getD, List.getD_eq_getElem?_getD, List.head?_eq_getElem?]

section
variable {o : LOp} (hq : ∀ a c, (redLane o a c).2 = 0)
include hq

theorem redLevel_quiet (l : List (Option Word32)) : (redLevel o l).2 = 0 := by
  fun_induction redLevel o l with
  | case1 x y l r k ih => simp [r, k, hq, ih]
  | case2 x l k ih => exact ih
  | case3 y l k ih => exact ih
  | case4 l => rfl

theorem redTree_quiet (n : Nat) (l : List (Option Word32)) : (redTree o n l).2 = 0 := by
  induction n generalizing l with
  | zero => rfl
  | succ n ih => simp [redTree, redLevel_quiet hq, ih]

theorem scanLanes_quiet (c : VReg) (ls : List Nat) (acc : Word32) : (scanLanes o c ls acc).2 = 0 := by
  induction ls generalizing acc with
  | nil => rfl
  | cons i ls ih => simp [scanLanes, hq, ih]

end

/-! ### The lanes of a scan -/

/-- The lanes whose values a scan has combined in what it writes to lane i (R112). -/
def scanned (o : LOp) (ls : List Nat) (i : Nat) : List Nat :=
  ls.filter fun j => if o.mods.getLsbD 3 then decide (j < i) else decide (j ≤ i)

/-- The fold of some lanes from a value. -/
def foldLanes (o : LOp) (v : Nat → Word32) (acc : Word32) (ls : List Nat) : Word32 :=
  ls.foldl (fun acc j => laneOp o acc (v j)) acc

/-- Above the first of ascending lanes, a scan has combined that lane first. -/
theorem scanned_cons_of_lt (o : LOp) {i j : Nat} (ls : List Nat) (h : j < i) : scanned o (j :: ls) i = j :: scanned o ls i :=
  List.filter_cons_of_pos (by simp [h, h.le])

/-- At the first of ascending lanes, it has combined that lane alone, or none with .ex. -/
theorem scanned_first (o : LOp) {i : Nat} {ls : List Nat} (h : ∀ j ∈ ls, i < j) :
    scanned o (i :: ls) i = if o.mods.getLsbD 3 then [] else [i] := by
  have hrest : scanned o ls i = [] := List.filter_eq_nil_iff.mpr fun j hj => by
    have := h j hj
    split <;> simp <;> omega
  unfold scanned at hrest ⊢
  rw [List.filter_cons, hrest]
  cases o.mods.getLsbD 3 <;> simp

/-- A scan writes to each lane the fold of the lanes that it has combined (R112). -/
theorem scanLanes_eq (o : LOp) (c : VReg) {ls : List Nat} (hls : ls.Pairwise (· < ·)) (acc : Word32) :
    (scanLanes o c ls acc).1 = ls.map fun i => (i, foldLanes o (fun j => look c j 0) acc (scanned o ls i)) := by
  induction ls generalizing acc with
  | nil => rfl
  | cons i ls ih =>
    obtain ⟨hi, hls⟩ := List.pairwise_cons.mp hls
    rw [scanLanes, ih hls, List.map_cons, scanned_first o hi]
    refine congrArg₂ List.cons (Prod.ext rfl ?_) ?_
    · unfold modBit
      split <;> rfl
    · refine List.map_congr_left fun j hj => ?_
      rw [scanned_cons_of_lt o ls (hi j hj)]
      rfl

/-! ### Elements of what two lanes combine to -/

/-- Lanes with the same elements of a type are the same (R11). -/
theorem lane_ext (t : ElemType) {x y : Word32} (h : ∀ e, e < t.count → elemOf t e x = elemOf t e y) : x = y := by
  refine BitVec.eq_of_getLsbD_eq fun i hi => ?_
  have hmod : i % t.width < t.width := Nat.mod_lt _ (elemWidth_pos t)
  have hdiv : i / t.width < t.count := Nat.div_lt_of_lt_mul (by rwa [elemWidth_mul_count])
  have hbit := congrArg (fun z => z.getLsbD (i % t.width)) (h _ hdiv)
  rwa [elemOf_getLsbD _ _ _ hmod, elemOf_getLsbD _ _ _ hmod, Nat.div_add_mod] at hbit

theorem elemOf_laneOp (o : LOp) (a c : Word32) {e : Nat} (he : e < o.ty.count) :
    elemOf o.ty e (laneOp o a c) = BitVec.ofNat o.ty.width (redOp o (elemOf o.ty e a).toNat (elemOf o.ty e c).toNat).1 := by
  rw [laneOp, redLane, elemwise_eq_gather, elemOf_gather _ _ he]

/-- No flag where the operation sets none in any element (R92). -/
theorem redLane_quiet {o : LOp} (h : ∀ x y, (redOp o x y).2 = 0) (a c : Word32) : (redLane o a c).2 = 0 := by
  refine BitVec.eq_of_getLsbD_eq fun b _ => Bool.eq_iff_iff.mpr ?_
  rw [redLane, elemwise_eq_gather, gather_flags]
  simp [h]

/-! ### Integer operations (R112) -/

theorem redOp_int_quiet {o : LOp} (hint : o.ty.isInt = true) (x y : Nat) : (redOp o x y).2 = 0 := by
  unfold redOp
  rw [if_pos hint, if_pos hint, if_pos hint]
  split <;> rfl

/-- The operation of a code on integer elements: add wraps, min and max are those of the integers they stand for. -/
def intRed (signed : Bool) {w : Nat} : Nat → BitVec w → BitVec w → BitVec w
  | 0, x, y => x + y
  | 1, x, y => if numOf signed x ≤ numOf signed y then x else y
  | 2, x, y => if numOf signed x ≤ numOf signed y then y else x
  | 3, x, y => x &&& y
  | 4, x, y => x ||| y
  | _, x, y => x ^^^ y

theorem ofNat_redOp_int {o : LOp} (hint : o.ty.isInt = true) (x y : BitVec o.ty.width) :
    BitVec.ofNat o.ty.width (redOp o x.toNat y.toNat).1 = intRed o.ty.signed (modField o 0 3) x y := by
  unfold redOp
  rw [if_pos hint, if_pos hint, if_pos hint, asInt_toNat, asInt_toNat]
  match modField o 0 3 with
  | 0 => exact (ofNat_wrapInt ..).trans (by rw [BitVec.ofInt_add, ofInt_numOf, ofInt_numOf]; rfl)
  | 1 => simp [plain, intRed, apply_ite (BitVec.ofNat o.ty.width)]
  | 2 => simp [plain, intRed, apply_ite (BitVec.ofNat o.ty.width)]
  | 3 => simp [plain, intRed]
  | 4 => simp [plain, intRed]
  | k + 5 => simp [plain, intRed]

theorem intRed_assoc (signed : Bool) {w : Nat} (k : Nat) (x y z : BitVec w) :
    intRed signed k (intRed signed k x y) z = intRed signed k x (intRed signed k y z) := by
  match k with
  | 0 => exact BitVec.add_assoc ..
  | 1 => grind [intRed]
  | 2 => grind [intRed]
  | 3 => exact BitVec.and_assoc ..
  | 4 => exact BitVec.or_assoc ..
  | k + 5 => exact BitVec.xor_assoc ..

/-- An integer that an element stands for lies in the range of its type (R28). -/
theorem numOf_inRange (signed : Bool) {w : Nat} (x : BitVec w) :
    intMin signed w ≤ numOf signed x ∧ numOf signed x ≤ intMax signed w := by
  unfold numOf intMin intMax
  cases signed with
  | true => exact ⟨BitVec.le_toInt x, Int.le_sub_one_of_lt BitVec.toInt_lt⟩
  | false =>
    have hlt : (x.toNat : Int) < 2 ^ w := mod_cast x.isLt
    exact ⟨Int.natCast_nonneg _, Int.le_sub_one_of_lt hlt⟩

/-- Each integer of the range is that of its low bits (R28, R29). -/
theorem numOf_ofInt (signed : Bool) {w : Nat} (hw : 0 < w) {i : Int} (hlo : intMin signed w ≤ i) (hhi : i ≤ intMax signed w) :
    numOf signed (BitVec.ofInt w i) = i := by
  have hpow : (2 : Int) ^ w = 2 * 2 ^ (w - 1) := by rw [← pow_succ', Nat.sub_add_cancel hw]
  unfold intMin at hlo
  unfold intMax at hhi
  unfold numOf
  cases signed with
  | true =>
    have hlo : -2 ^ (w - 1) ≤ i := hlo
    have hhi : i ≤ 2 ^ (w - 1) - 1 := hhi
    rw [if_pos rfl, BitVec.toInt_ofInt]
    exact Int.bmod_eq_of_le_mul_two (by push_cast; omega) (by push_cast; omega)
  | false =>
    have hlo : 0 ≤ i := hlo
    have hhi : i ≤ 2 ^ w - 1 := hhi
    rw [if_neg Bool.false_ne_true, BitVec.toNat_ofInt, Int.toNat_of_nonneg (Int.emod_nonneg _ (by positivity))]
    exact Int.emod_eq_of_lt hlo (by push_cast; omega)

theorem numOf_inj (signed : Bool) {w : Nat} {x y : BitVec w} (h : numOf signed x = numOf signed y) : x = y := by
  rw [← ofInt_numOf signed x, h, ofInt_numOf]

/-- The greatest integer of the type is the identity of min. -/
theorem intRed_min_intMax (signed : Bool) {w : Nat} (hw : 0 < w) (x : BitVec w) :
    intRed signed 1 (BitVec.ofInt w (intMax signed w)) x = x := by
  obtain ⟨hlo, hhi⟩ := numOf_inRange signed x
  have hmax := numOf_ofInt signed hw (hlo.trans hhi) le_rfl
  exact ite_eq_right_iff.mpr fun hle => numOf_inj signed (by omega)

/-- The least integer of the type is the identity of max. -/
theorem intRed_max_intMin (signed : Bool) {w : Nat} (hw : 0 < w) (x : BitVec w) :
    intRed signed 2 (BitVec.ofInt w (intMin signed w)) x = x := by
  obtain ⟨hlo, hhi⟩ := numOf_inRange signed x
  have hmin := numOf_ofInt signed hw le_rfl (hlo.trans hhi)
  exact if_pos (by omega)

/-- What a scan starts from does not change what it is combined with (R112). -/
theorem intRed_identity {o : LOp} (hint : o.ty.isInt = true) (x : BitVec o.ty.width) :
    intRed o.ty.signed (modField o 0 3) (BitVec.ofNat o.ty.width (scanIdentity o)) x = x := by
  simp only [scanIdentity, if_pos hint]
  match modField o 0 3 with
  | 0 => simp [intRed]
  | 1 => exact (congrArg (intRed o.ty.signed 1 · x) (ofNat_wrapInt ..)).trans (intRed_min_intMax _ (elemWidth_pos o.ty) x)
  | 2 => exact (congrArg (intRed o.ty.signed 2 · x) (ofNat_wrapInt ..)).trans (intRed_max_intMin _ (elemWidth_pos o.ty) x)
  | 3 =>
    have hones : BitVec.ofNat o.ty.width (2 ^ o.ty.width - 1) = BitVec.allOnes o.ty.width := BitVec.eq_of_toNat_eq (by simp)
    exact (congrArg (· &&& x) hones).trans BitVec.allOnes_and
  | 4 => simp [intRed]
  | k + 5 => simp [intRed]

/-- The elements of what an integer operation makes of two lanes (R112). -/
theorem elemOf_laneOp_int {o : LOp} (hint : o.ty.isInt = true) (a c : Word32) {e : Nat} (he : e < o.ty.count) :
    elemOf o.ty e (laneOp o a c) = intRed o.ty.signed (modField o 0 3) (elemOf o.ty e a) (elemOf o.ty e c) := by
  rw [elemOf_laneOp o a c he, ofNat_redOp_int hint]

theorem laneOp_assoc {o : LOp} (hint : o.ty.isInt = true) : Std.Associative (laneOp o) where
  assoc a b c := lane_ext o.ty fun e he => by simp only [elemOf_laneOp_int hint _ _ he, intRed_assoc]

/-- The lane that a scan starts from. -/
def identityLane (o : LOp) : Word32 := BitVec.ofNat 32 (packElems o.ty.width (List.replicate o.ty.count (scanIdentity o)))

theorem laneOp_identity {o : LOp} (hint : o.ty.isInt = true) (x : Word32) : laneOp o (identityLane o) x = x :=
  lane_ext o.ty fun e he => by
    rw [elemOf_laneOp_int hint _ _ he, identityLane, elemOf_packElems _ List.length_replicate he, List.getElem_replicate,
      intRed_identity hint]

/-! ### Float add (R112) -/

/-- The sum of two elements, rounded once. -/
theorem elemOf_laneOp_float {o : LOp} (hfloat : o.ty.isInt = false) (hadd : o.mods.extractLsb' 0 3 = 0) (a c : Word32) {e : Nat}
    (he : e < o.ty.count) : elemOf o.ty e (laneOp o a c) = BitVec.ofNat o.ty.width
      (o.ty.ffmt.round (rounding o) false
        ((o.ty.ffmt.decode (elemOf o.ty e a).toNat).add (rounding o) (o.ty.ffmt.decode (elemOf o.ty e c).toNat)).1).1 := by
  have hfield : modField o 0 3 = 0 := by rw [modField_eq, hadd]; rfl
  rw [elemOf_laneOp o a c he, redOp, hfield, hfloat]
  rfl

end Sys2Proof.Machine
end

section
/-! The movement of lanes, scans, reductions and compaction (R111 to R113). -/

namespace Sys2Proof.Machine

/-! ### Instructions that read whole registers (R111) -/

section
variable {s : State} {i : Instr} {o : LOp} {u : LUse} {R : Path → List Word → Nat → Word32 → Prop}
  {F : Path → List Word → Byte → Prop}

/-- An instruction that writes what `f` finds in the selected lanes (R111). -/
theorem LaneForm.of_lmove {f : LIn → VReg → VReg → VReg × Byte} (hexec : exec i s = .next (s.lmove o u f)) (hl : u.late = false)
    (hf : ∀ p vs g, F p vs (f (predIn s o u p vs g) (s.cur.vget o.a.r) (s.cur.cvec o vs)).2)
    (hr : ∀ p vs g j, j < 128 → actsOn s p o.g j →
      R p vs j (look (f (predIn s o u p vs g) (s.cur.vget o.a.r) (s.cur.cvec o vs)).1 j 0)) :
    LaneForm s i o u R F := fun p vs g h =>
  ⟨_, _, hexec.trans (congrArg _ (State.lIssue_ready h hl)), LIssued.of_lDone h (Group.regsFrom_vwrite ..) _, hf p vs g,
    LWrites.of_vwrite h o.g o.vd _ _ fun j hj ha => hr p vs g j hj ha⟩

/-- An instruction that moves lanes of its source a (R111). -/
theorem LaneForm.of_moved_lanes {v : VReg → VReg → VReg} {src : List Word → Nat → Nat}
    (hexec : exec i s = .next (s.lmove o u fun _ va vc => (v va vc, 0))) (hl : u.late = false)
    (hv : ∀ vs (j : Fin 128), (v (s.cur.vget o.a.r) (s.cur.cvec o vs))[j] = srcA s o (src vs j)) :
    LaneForm s i o u (fun _ vs j x => x = srcA s o (src vs j)) fun _ _ f => f = 0 :=
  .of_lmove hexec hl (fun _ _ _ => rfl) fun _ vs _ j hj _ => (getElem_eq_look _ ⟨j, hj⟩ 0).symm.trans (hv vs ⟨j, hj⟩)

end

/-- The source lane of VSHFL by the code of its mode (R111). -/
theorem shuffleFrom_eq (m : BitVec 2) (i c : Nat) : shuffleFrom m.toNat i c =
    if m = 0 then c % 128 else if m = 1 then i ^^^ (c % 128)
    else if m = 2 then (if c ≤ i then i - c else i) else (if i + c ≤ 127 then i + c else i) := by
  have hm : m = 0 ∨ m = 1 ∨ m = 2 ∨ m = 3 := by revert m; decide
  rcases hm with rfl | rfl | rfl | rfl <;> rfl

section
variable (s : State) (o : LOp)

/-- Source c of a lane, where an instruction reads the whole register (R59, R111). -/
theorem getElem_cvec (vs : List Word) {j : Nat} (hj : j < 128) : (s.cur.cvec o vs)[j] = srcC s o vs j :=
  (getElem_eq_look _ ⟨j, hj⟩ 0).trans (look_cvec s o vs hj)

theorem laneForm_vshfl : LaneForm s (.vshfl o) o (lopUse o .ac)
    (fun _ vs i x => x = srcA s o (shuffleFrom (o.mods.extractLsb' 0 2).toNat i (srcC s o vs i).toNat)) fun _ _ f => f = 0 :=
  .of_moved_lanes rfl (lopUse_late o .ac) fun vs j => by
    rw [← getElem_cvec s o vs j.isLt, ← modField_eq]
    exact Vector.getElem_ofFn _

theorem laneForm_vrotl : LaneForm s (.vrotl o) o (lopUse o .ac)
    (fun _ vs i x => x = srcA s o ((i + (srcC s o vs 0).toNat) % 128)) fun _ _ f => f = 0 :=
  .of_moved_lanes (src := fun vs i => (i + (srcC s o vs 0).toNat) % 128) rfl (lopUse_late o .ac) fun vs j => by
    rw [← getElem_cvec s o vs (Nat.zero_lt_succ 127)]
    exact Vector.getElem_ofFn _

theorem laneForm_vbcl : LaneForm s (.vbcl o) o (lopUse o .ac)
    (fun _ vs _ x => x = srcA s o ((srcC s o vs 0).toNat % 128)) fun _ _ f => f = 0 :=
  .of_moved_lanes (src := fun vs _ => (srcC s o vs 0).toNat % 128) rfl (lopUse_late o .ac) fun vs j => by
    rw [← getElem_cvec s o vs (Nat.zero_lt_succ 127)]
    exact Vector.getElem_replicate _

/-! ### Scans and reductions (R112) -/

/-- The lanes on which an instruction acts, in ascending order (R61, R91). -/
def chosenLanes (p : Path) : List Nat := lanesOf (s.cur.selected p.mask o.g)

theorem mem_chosenLanes {p : Path} {i : Nat} (hi : i < 128) : i ∈ chosenLanes s o p ↔ actsOn s p o.g i := by
  rw [chosenLanes, mem_lanesOf, selected_getLsbD s p o.g hi, and_iff_right hi]

theorem chosenLanes_lt {p : Path} {i : Nat} (h : i ∈ chosenLanes s o p) : i < 128 := lanesOf_lt h

theorem filter_chosenLanes (p : Path) : (List.range 128).filter (· ∈ chosenLanes s o p) = chosenLanes s o p :=
  List.filter_congr fun i hi => by simp [chosenLanes, mem_lanesOf, List.mem_range.mp hi]

theorem foldLanes_congr {v w : Nat → Word32} (acc : Word32) {ls : List Nat} (h : ∀ j ∈ ls, v j = w j) :
    foldLanes o v acc ls = foldLanes o w acc ls :=
  List.foldl_ext _ _ _ fun acc j hj => by rw [h j hj]

theorem laneForm_vscan : LaneForm s (.vscan o) o (lopUse o .c)
    (fun p vs i x => x = foldLanes o (srcC s o vs) (identityLane o) (scanned o (chosenLanes s o p) i))
    fun _ _ f => o.ty.isInt = true → f = 0 := by
  refine .of_lmove rfl (lopUse_late o .c) (fun p vs g hint => scanLanes_quiet (redLane_quiet (redOp_int_quiet hint)) ..)
    fun p vs g j hj ha => ?_
  have hsel : j ∈ lanesOf (predIn s o (lopUse o .c) p vs g).sel := (mem_chosenLanes s o hj).mpr ha
  dsimp only
  rw [scanLanes_eq o _ (lanesOf_pairwise _), List.foldl_map, look_foldl_put _ _ _ hj, if_pos hsel]
  exact foldLanes_congr o _ fun i hi => look_cvec s o vs (lanesOf_lt (List.mem_of_mem_filter hi))

/-- The leaf of a lane in the tree of VRED: the value of source c where the instruction acts (R112). -/
def redLeaf (p : Path) (vs : List Word) (i : Nat) : Option Word32 := if i ∈ chosenLanes s o p then some (srcC s o vs i) else none

/-- The leaves from which the model's tree starts: the selected lanes of a register. -/
def laneLeaves (sel : Mask) (c : VReg) : List (Option Word32) :=
  (List.range 128).map fun i => if sel.getLsbD i then some (look c i 0) else none

theorem laneLeaves_getD (p : Path) (vs : List Word) (k : Nat) :
    (laneLeaves (s.cur.selected p.mask o.g) (s.cur.cvec o vs)).getD k none = redLeaf s o p vs k := by
  unfold laneLeaves
  by_cases hk : k < 128
  · rw [List.getD_eq_getElem _ _ (by simpa using hk), List.getElem_map, List.getElem_range, look_cvec s o vs hk]
    exact if_congr (by rw [chosenLanes, mem_lanesOf, and_iff_right hk]) rfl rfl
  · rw [List.getD_eq_default _ _ (by simpa using hk), redLeaf, if_neg fun h => hk (chosenLanes_lt s o h)]

theorem treeNode_redLeaf_isSome {p : Path} (vs : List Word) {i : Nat} (hi : i < 128) (ha : actsOn s p o.g i) :
    (treeNode (laneOp o) (redLeaf s o p vs) 7 0).isSome := by
  have hleaf : (redLeaf s o p vs i).isSome := by rw [redLeaf, if_pos ((mem_chosenLanes s o hi).mpr ha)]; rfl
  have hroot := treeNode_isSome (op := laneOp o) hleaf 7
  rwa [Nat.div_eq_of_lt (show i < 2 ^ 7 from hi)] at hroot

theorem laneForm_vred : LaneForm s (.vred o) o (lopUse o .c)
    (fun p vs _ x => treeNode (laneOp o) (redLeaf s o p vs) 7 0 = some x) fun _ _ f => o.ty.isInt = true → f = 0 := by
  refine .of_lmove
    (f := fun x _ c =>
      let r := redTree o 7 (laneLeaves x.sel c)
      (Vector.replicate 128 ((r.1.head?.getD none).getD 0), r.2))
    rfl (lopUse_late o .c) (fun p vs g hint => redTree_quiet (redLane_quiet (redOp_int_quiet hint)) ..) fun p vs g j hj ha => ?_
  obtain ⟨x, hx⟩ := Option.isSome_iff_exists.mp (treeNode_redLeaf_isSome s o vs hj ha)
  dsimp only [predIn]
  rw [redTree_head]
  simp only [laneLeaves_getD]
  rw [hx]
  simp [look, hj]

/-- The root of the tree of one lane is the value of that lane. -/
theorem redLeaf_single {p : Path} {vs : List Word} {j : Nat} (hj : chosenLanes s o p = [j]) {x : Word32}
    (hx : treeNode (laneOp o) (redLeaf s o p vs) 7 0 = some x) : x = srcC s o vs j := by
  have hlt : j < 128 := chosenLanes_lt s o (p := p) (by simp [hj])
  have hleaf : redLeaf s o p vs = fun k => if k = j then some (srcC s o vs j) else none := by
    funext k
    rw [redLeaf, hj]
    by_cases hk : k = j <;> simp [hk]
  rw [hleaf, treeNode_single, Nat.div_eq_of_lt (show j < 2 ^ 7 from hlt), if_pos rfl] at hx
  exact (Option.some.inj hx).symm

end

/-! ### Compaction (R113) -/

/-- A ready instruction that writes the lanes of a mask in one register (R18, R19). -/
theorem LWrites.of_vwrite_lanes {s : State} {u : LUse} {p : Path} {vs : List Word} {g : Group} (h : LReady s u p vs g) (d : BitVec 8)
    {m : Mask} {sel : Nat → Prop} (hsel : ∀ i, i < 128 → (m.getLsbD i = true ↔ sel i)) {v : VReg} {R : Nat → Word32 → Prop}
    (hR : ∀ i, i < 128 → sel i → R i (look v i 0)) (f : Byte) :
    LWrites s (({ s with cur := (g.applyHints u.reads).vwrite d m v } : State).lDone f u) u d sel R := by
  have ht := (g.applyHints u.reads).touched_vwrite d m v
  refine ⟨fun i hi hs => ?lanes, fun i hi hs => ?kept, ?live, fun r hr => ?others, ?preds, ?ks⟩
  case lanes =>
    rw [State.vget_lDone, Group.look_vwrite _ _ _ _ hi, if_pos ((hsel i hi).mpr hs)]
    exact hR i hi hs
  case kept =>
    rw [State.vget_lDone, Group.look_vwrite _ _ _ _ hi, if_neg fun hm => hs ((hsel i hi).mp hm)]
    exact h.look_kept_hinted d hi
  case live => exact (State.vlife_lDone ..).trans (ht.live d (List.mem_singleton_self d))
  case others =>
    obtain ⟨hv, hlife⟩ := ht.others r (by simpa using hr)
    exact ⟨(State.vget_lDone ..).trans (hv.trans (h.vget_hinted r)), (State.vlife_lDone ..).trans (hlife.trans (h.vlife_hinted r))⟩
  case preds => exact (State.preds_lDone ..).trans (ht.preds.trans h.preds_hinted)
  case ks => exact (State.k_lDone ..).trans (ht.k.trans h.k_hinted)

/-- VCOMP writes the low lanes, as many as it acts on, whether they are active or not (R113). -/
theorem vcomp_packs {s : State} {o : LOp} {p : Path} {vs : List Word} {g : Group} (h : LReady s (lopUse o .c) p vs g) :
    ∃ t, exec (.vcomp o) s = .next t ∧ LIssued s t (lopUse o .c) p g 0 ∧
      LWrites s t (lopUse o .c) o.vd (fun i => i < (chosenLanes s o p).length)
        fun i x => x = srcC s o vs ((chosenLanes s o p).getD i 0) := by
  refine ⟨_, congrArg Host.Outcome.next (State.lIssue_ready h (lopUse_late o .c)), LIssued.of_lDone h (Group.regsFrom_vwrite ..) _,
    LWrites.of_vwrite_lanes h o.vd (fun i hi => ?_) (fun i hi hn => ?_) 0⟩
  · rw [maskOf_getLsbD, List.mem_range, and_iff_right hi]
    rfl
  · have hmem : (chosenLanes s o p).getD i 0 ∈ chosenLanes s o p := by
      rw [List.getD_eq_getElem _ _ hn]
      exact List.getElem_mem hn
    rw [← look_cvec s o vs (chosenLanes_lt s o hmem)]
    simp [look, hi, chosenLanes]

/-- Settles O32: movements read the lane they name, a scan and a reduction combine the lanes that `chosenLanes` lists, an integer
reduction is a fold because its operation is associative, and VCOMP writes the low lanes. -/
theorem laneMovementsTakeTheirLanes : Obligations.LaneMovementsTakeTheirLanes := by
  intro s o mode from' moves chosen identity fold
  refine ⟨?vshfl, laneForm_vrotl s o, laneForm_vbcl s o, laneForm_vscan s o, fun hfloat hadd a c e he => ?add, ?vred,
    fun p vs g h => vcomp_packs h⟩
  case vshfl =>
    have hfrom : from' = fun vs i => shuffleFrom mode.toNat i (srcC s o vs i).toNat := funext₂ fun _ _ => (shuffleFrom_eq ..).symm
    rw [hfrom]
    exact laneForm_vshfl s o
  case add =>
    intro mode val
    rw [show mode = rounding o from (rounding_eq o).symm]
    exact elemOf_laneOp_float hfloat hadd a c he
  case vred =>
    intro p vs g h
    obtain ⟨t, f, hexec, hissued, hf, hw⟩ := laneForm_vred s o p vs g h
    refine ⟨t, f, hexec, hissued, hf, { hw with lanes := fun i hi ha => ?_ }⟩
    have hx := hw.lanes i hi ha
    refine ⟨hx, fun hint _ _ => ?fold, fun j hj => redLeaf_single s o hj hx⟩
    have := laneOp_assoc hint
    exact treeNode_eq_fold (laneOp_identity hint) (filter_chosenLanes s o p) hx

end Sys2Proof.Machine
end

section
/-! Control instructions of the L-stream: what they find at their issue, and the divergence stack that they push, pop and refill from
(R121 to R132). -/

namespace Sys2Proof.Machine

/-! ### Issue -/

/-- An instruction that reads no vector register and pops nothing finds the state as it is. -/
theorem State.lIssue_plain {s : State} {u : LUse} {p : Path} {vs : List Word} {g : Group} {gd : Guard} {body : LIn → State}
    (h : LReady s u p vs g) (hr : u.reads = [] := by rfl) (hp : u.pops = 0 := by rfl) (hl : u.late = false := by rfl) :
    s.lIssue gd u body = body ⟨s, p.mask, s.cur.selected p.mask gd, []⟩ := by
  have hv := h.values
  rw [hp] at hv
  cases hv
  rw [State.lIssue_ready h hl, hr]
  rfl

/-- An instruction that may issue may also issue without the need to wait for the accesses before it (R194). -/
theorem LReady.freed {s : State} {u : LUse} {p : Path} {vs : List Word} {g : Group} (h : LReady s u p vs g)
    (hp : u.pops = 0 := by rfl) (hq : u.pushes = 0 := by rfl) : LReady s { u with free := true } p vs g :=
  { h with waits := .inl ⟨rfl, hp, hq⟩ }

theorem State.own_eq {s : State} {p : Path} (h : s.cur.path s.ps1 = some p) : s.own = p.pc := by
  rw [State.own, h]

/-- A displacement that reaches an offset names it (R66, R125). -/
theorem offsetOf_of_reaches {own target : Nat} {d : BitVec 16} (h : reaches own d target) : offsetOf own d = some target := by
  obtain ⟨heq, hle, hmod⟩ := h
  have hrange : (decide (0 ≤ (target : Int)) && decide ((target : Int) ≤ 524286) && (target : Int) % 3 == 0) = true := by
    simp only [Bool.and_eq_true, decide_eq_true_eq, beq_iff_eq]
    omega
  unfold offsetOf
  dsimp only
  rw [← heq, if_pos hrange, Int.toNat_natCast]

/-- The predicate operand of a control instruction as a mask (R125). -/
theorem ctlPred_eq {s : State} {p : Path} {o : LOp} {t : Mask} (ht : ∀ i, i < 128 → (t.getLsbD i = true ↔ takesIn s p o i)) :
    s.cur.ctlPred o p.mask = t :=
  mask_ext fun i hi => (ctlPred_getLsbD s p o hi).trans (ht i hi).symm

/-- A path whose predicate holds in some of its lanes and not in all leaves lanes on both sides (R126). -/
theorem remaining_ne_zero {m t : Mask} (hsub : ∀ i, i < 128 → t.getLsbD i = true → m.getLsbD i = true) (hne : t ≠ m) :
    m &&& ~~~t ≠ 0 := by
  refine fun hzero => hne (mask_ext fun i hi => ⟨hsub i hi, fun hm => ?_⟩)
  have hbit : (m &&& ~~~t).getLsbD i = false := by rw [hzero]; simp
  simpa [hi, hm] using hbit

/-! ### Path slots -/

/-- Where the other slot is empty, a path that dissolves leaves none. -/
theorem LState.setPath_last {g : Group} {b : Bool} (h : g.path (!b) = none) : g.l.setPath b none = { g.l with ps0 := none, ps1 := none } := by
  cases b
  · have h : g.l.ps1 = none := h
    simp [LState.setPath, h]
  · have h : g.l.ps0 = none := h
    simp [LState.setPath, h]

/-- Where the other slot holds a path, one is left. -/
theorem LState.setPath_isSome {g : Group} {b : Bool} (h : g.path (!b) ≠ none) :
    ((g.l.setPath b none).ps0.isNone && (g.l.setPath b none).ps1.isNone) = false := by
  cases b
  · exact Option.isNone_eq_false_iff.mpr (Option.isSome_iff_ne_none.mpr h)
  · rw [show (g.l.setPath true none).ps0.isNone = false from Option.isNone_eq_false_iff.mpr (Option.isSome_iff_ne_none.mpr h)]
    rfl

/-- A converged group has one path, no entry and no hold (R121). -/
theorem Group.alone_of_converged {g : Group} {b : Bool} {p : Path} (hp : g.path b = some p) (hc : g.converged = true) :
    g.path (!b) = none ∧ g.l.stack = [] ∧ g.l.hold = none := by
  unfold Group.converged at hc
  simp only [Bool.and_eq_true, List.isEmpty_iff, Option.isNone_iff_eq_none, bne_iff_ne, ne_eq] at hc
  obtain ⟨⟨hone, hstack⟩, hhold⟩ := hc
  refine ⟨?_, hstack, hhold⟩
  cases b
  · have hp : g.l.ps0 = some p := hp
    rw [hp] at hone
    exact Option.not_isSome_iff_eq_none.mp fun h : g.l.ps1.isSome = true => hone (by rw [h]; rfl)
  · have hp : g.l.ps1 = some p := hp
    rw [hp] at hone
    exact Option.not_isSome_iff_eq_none.mp fun h : g.l.ps0.isSome = true => hone (by rw [h]; rfl)

theorem Group.diverged_of_other {g : Group} {b : Bool} {p : Path} (hp : g.path b = some p) (ho : g.path (!b) ≠ none) : g.converged = false :=
  Bool.eq_false_iff.mpr fun hc => ho (Group.alone_of_converged hp hc).1

theorem Group.diverged_of_hold {g : Group} {b : Bool} {p : Path} {h : Hold} (hp : g.path b = some p) (hh : g.l.hold = some h) :
    g.converged = false :=
  Bool.eq_false_iff.mpr fun hc => by
    have hnone := (Group.alone_of_converged hp hc).2.2
    rw [hh] at hnone
    cases hnone

/-! ### Nesting counters (R124) -/

/-- No lane of a mask has its counter at 255. -/
theorem LState.nestFull_eq_zero {l : LState} {m : Mask} (h : ∀ i : Fin 128, m.getLsbD i = true → l.nest[i] ≠ 255) : l.nestFull m = 0 := by
  refine mask_ext fun i hi => iff_of_false (fun hfull => ?_) (by simp)
  obtain ⟨-, hmem⟩ := (maskOf_getLsbD _ _).mp hfull
  obtain ⟨hlane, h255⟩ := List.mem_filter.mp hmem
  exact h ⟨i, hi⟩ (mem_lanesOf.mp hlane).2 ((getElem_eq_look l.nest ⟨i, hi⟩ 0).trans (beq_iff_eq.mp h255))

theorem LState.nestDown_eq (l : LState) (m : Mask) : l.nestDown m = { l with nest := nestLowered l.nest m } := by
  have hnest : (l.nestDown m).nest = nestLowered l.nest m := by
    refine congrArg Vector.ofFn (funext fun i => ?_)
    generalize l.nest[i] = x
    cases m.getLsbD i.val
    · rfl
    · by_cases hx : x = 0
      · simp [hx]
      · show (if (x != 0) = true then x - 1 else x) = if x = 0 then 0 else x - 1
        rw [if_neg hx, if_pos (bne_iff_ne.mpr hx)]
  rw [← hnest]
  rfl

/-! ### The divergence stack in hardware (R123) -/

theorem State.pushEntry_room {s : State} (e : StackEntry) (h : s.cur.l.stack.length < 8) :
    s.pushEntry e = some (s.withL { s.cur.l with stack := e :: s.cur.l.stack }) := by
  unfold State.pushEntry
  dsimp only
  rw [if_neg (Nat.not_le.mpr h)]
  rfl

theorem State.popEntry_room {s : State} {e : StackEntry} {rest : List StackEntry} (hs : s.cur.l.stack = e :: rest) (h : rest.length < 8) :
    s.popEntry = some { s with cur := { s.cur with wdog := 0, l := { s.cur.l with stack := rest } } } := by
  unfold State.popEntry
  rw [hs]
  exact if_neg (Nat.not_le.mpr h)

/-! ### Refill of the slots (R128, R132) -/

/-- A group with a path keeps its slots where no parked path stands on top. -/
theorem State.refill_running {s : State} (n : Nat) (hk : ∀ e ∈ s.cur.l.stack.head?, e.kind ≠ .park)
    (hp : (s.cur.l.ps0.isNone && s.cur.l.ps1.isNone) = false) : s.refill n = some s := by
  cases n with
  | zero => rfl
  | succ n =>
    rcases hs : s.cur.l.stack with _ | ⟨e, es⟩
    · rw [State.refill]
      dsimp only
      rw [hs]
      exact if_neg (by simp [hp])
    · have hpark : (e.kind == EntryKind.park) = false := beq_false_of_ne (hk e (by rw [hs]; rfl))
      rw [State.refill]
      dsimp only
      rw [hs]
      dsimp only
      rw [hpark, hp]
      rfl

/-- Without an entry and without a path the hold completes, or the block ends. -/
theorem State.refill_empty {s : State} (n : Nat) (hs : s.cur.l.stack = []) (h0 : s.cur.l.ps0 = none) (h1 : s.cur.l.ps1 = none) :
    s.refill (n + 1) = some (s.cur.l.hold.elim s.endBlock s.completeHold) := by
  rw [State.refill]
  dsimp only
  rw [hs, h0, h1]
  cases s.cur.l.hold <;> rfl

/-- The state in which an entry has left the stack and its mask goes on at an offset, after what its lanes have done (R128, R223). -/
def State.restoredBy (s : State) (m : Mask) (pc : Nat) (rest : List StackEntry) : State :=
  { s with cur := { s.cur.follow m m with
      wdog := 0
      l := { s.cur.l with ps0 := some ⟨pc, m⟩, stack := rest, nest := nestLowered s.cur.l.nest m } } }

/-- Where a region's mask goes on: past its JOIN, or at the exit of its loop (R127, R129). -/
def StackEntry.after (e : StackEntry) : Nat := if e.kind == .join then e.pc + 3 else e.pc

/-- The last path of a region restores the mask of its entry (R128). -/
theorem State.refill_region {s : State} (n : Nat) {e : StackEntry} {rest : List StackEntry} (hs : s.cur.l.stack = e :: rest)
    (hk : e.kind ≠ .park) (hm : e.mask ≠ 0) (hr : rest.length < 8) (hrk : ∀ x ∈ rest.head?, x.kind ≠ .park)
    (h0 : s.cur.l.ps0 = none) (h1 : s.cur.l.ps1 = none) (hh : s.cur.l.hold = none) :
    s.refill (n + 1) = some (s.restoredBy e.mask e.after rest) := by
  have hpark : (e.kind == EntryKind.park) = false := beq_false_of_ne hk
  have hmask : e.mask &&& ~~~((s.cur.l.hold.map Hold.mask).getD 0) = e.mask := by
    rw [hh]
    exact BitVec.and_allOnes
  rw [State.refill]
  dsimp only
  rw [hs]
  dsimp only
  rw [hpark, h0, h1, State.popEntry_room hs hr, hmask]
  simp only [Option.isNone_none, Bool.and_self, Bool.false_eq_true, if_false, if_true, Option.bind_some, LState.nestDown_eq]
  rw [if_neg (by simpa using hm)]
  exact State.refill_running (s := s.restoredBy e.mask e.after rest) n hrk rfl

/-! ### A path that dissolves (R128) -/

/-- The L-stream without a path. -/
def State.pathless (s : State) : State := s.withL { s.cur.l with ps0 := none, ps1 := none }

/-- The path that dissolves was the only one. -/
theorem State.pathless_eq {s : State} (ho : s.cur.path (!s.ps1) = none) : s.mapL (fun l => l.setPath s.ps1 none) = s.pathless :=
  congrArg s.withL (LState.setPath_last ho)

/-- A path that dissolves leaves the other one running. -/
theorem State.dissolve_yields {s : State} (ho : s.cur.path (!s.ps1) ≠ none) (hk : ∀ e ∈ s.cur.l.stack.head?, e.kind ≠ .park) :
    s.dissolve = some (s.withL (s.cur.l.setPath s.ps1 none)) := by
  refine State.refill_running (s := s.withL (s.cur.l.setPath s.ps1 none)) _ ?_ (LState.setPath_isSome ho)
  rw [LState.setPath_eq]
  exact hk

/-- The last path of a region dissolves into the mask of its entry. -/
theorem State.dissolve_restores {s : State} {e : StackEntry} {rest : List StackEntry} (ho : s.cur.path (!s.ps1) = none)
    (hs : s.cur.l.stack = e :: rest) (hk : e.kind ≠ .park) (hm : e.mask ≠ 0) (hr : rest.length < 8)
    (hrk : ∀ x ∈ rest.head?, x.kind ≠ .park) (hh : s.cur.l.hold = none) :
    s.dissolve = some (s.pathless.restoredBy e.mask e.after rest) := by
  rw [State.dissolve, State.pathless_eq ho]
  exact State.refill_region _ hs hk hm hr hrk rfl rfl hh

/-- The last path of the block dissolves into its hold, or ends the block. -/
theorem State.dissolve_last {s : State} (ho : s.cur.path (!s.ps1) = none) (hs : s.cur.l.stack = []) :
    s.dissolve = some (s.cur.l.hold.elim s.pathless.endBlock s.pathless.completeHold) := by
  rw [State.dissolve, State.pathless_eq ho]
  exact State.refill_empty _ hs rfl rfl

/-- The last path of a block without a hold ends it. -/
theorem State.dissolve_ends {s : State} (ho : s.cur.path (!s.ps1) = none) (hs : s.cur.l.stack = []) (hh : s.cur.l.hold = none) :
    s.dissolve = some s.pathless.endBlock := by
  rw [State.dissolve_last ho hs, hh]
  rfl

end Sys2Proof.Machine
end

section
/-! Where paths go at BUNI, BDIV, BLOOP and JOIN (R123 to R130). -/

namespace Sys2Proof.Machine

/-! ### A branch that moves its path -/

theorem State.setPath_eq (s : State) (pc : Nat) (m : Mask) : s.setPath pc m = s.withL (s.cur.l.setPath s.ps1 (some ⟨pc, m⟩)) := rfl

theorem State.setPath_mapL (s : State) (f : LState → LState) (pc : Nat) (m : Mask) :
    (s.mapL f).setPath pc m = s.withL ((f s.cur.l).setPath s.ps1 (some ⟨pc, m⟩)) := rfl

theorem State.withL_withL (s : State) (l l' : LState) : (s.withL l).withL l' = s.withL l' := rfl

/-- BUNI moves its path where its predicate agrees in all lanes, and takes NOTUNI where it does not (R130). -/
theorem exec_buni {s : State} {o : LOp} {p : Path} {vs : List Word} {g : Group} {t : Mask} {target : Nat} (h : LReady s (s.ctlUse o) p vs g)
    (ht : s.cur.ctlPred o p.mask = t) (hfar : offsetOf p.pc (farField o) = some target) :
    exec (.buni o) s = .next (if t == p.mask then s.setPath target p.mask else if t == 0 then s.setPath (p.pc + 3) p.mask else s.raiseL 0x0F) := by
  show execBuni o s = _
  rw [execBuni, State.own_eq h.path, hfar, ← ht]
  exact congrArg Host.Outcome.next (State.lIssue_plain h.freed)

/-- BDIV (R126). -/
theorem exec_bdiv {s : State} {o : LOp} {p : Path} {vs : List Word} {g : Group} {t : Mask} {target join : Nat}
    (h : LReady s (s.ctlUse o) p vs g) (ht : s.cur.ctlPred o p.mask = t) (hfar : offsetOf p.pc (farField o) = some target)
    (hnear : offsetOf p.pc (nearField o) = some join) : exec (.bdiv o) s = .next (s.bdiv target join p.mask t) := by
  show execBdiv o s = _
  rw [execBdiv, State.own_eq h.path, hfar, hnear, ← ht]
  exact congrArg Host.Outcome.next (State.lIssue_plain h)

/-- BLOOP (R129). -/
theorem exec_bloop {s : State} {o : LOp} {p : Path} {vs : List Word} {g : Group} {t : Mask} {top exit : Nat}
    (h : LReady s (s.ctlUse o) p vs g) (ht : s.cur.ctlPred o p.mask = t) (hfar : offsetOf p.pc (farField o) = some top)
    (hnear : offsetOf p.pc (nearField o) = some exit) : exec (.bloop o) s = .next (s.bloop top exit p.mask t) := by
  show execBloop o s = _
  rw [execBloop, State.own_eq h.path, hfar, hnear, ← ht]
  exact congrArg Host.Outcome.next (State.lIssue_plain h)

/-- JOIN (R127). -/
theorem exec_join {s : State} {o : LOp} {p : Path} {vs : List Word} {g : Group} (h : LReady s (s.ctlUse o) p vs g) :
    exec (.join o) s = .next (s.join p.mask) :=
  congrArg Host.Outcome.next (State.lIssue_plain h)

/-! ### BDIV (R126) -/

/-- A path whose lanes agree takes its branch whole. -/
theorem State.bdiv_uniform {s : State} {target join : Nat} {m t : Mask} (hn : s.cur.l.nestFull m = 0) (h : t = m ∨ t = 0) :
    s.bdiv target join m t = s.withL ((s.cur.l.nestUp m).setPath s.ps1 (some ⟨if t == m then target else s.own + 3, m⟩)) := by
  have huniform : (t == m || m &&& ~~~t == 0 || t == 0) = true := by
    rcases h with rfl | rfl <;> simp
  unfold State.bdiv
  dsimp only
  rw [hn, huniform, if_neg (by simp), if_pos rfl]
  exact State.setPath_mapL ..

/-- The PARK entry of the other path, if there is one. -/
def parkedEntry (q : Option Path) : List StackEntry := (q.map fun q => ⟨.park, q.pc, q.mask⟩).toList

/-- A path whose lanes disagree parks the other one, opens a JOIN entry and splits. -/
theorem State.bdiv_mixed {s : State} {target join : Nat} {m t : Mask} (hn : s.cur.l.nestFull m = 0) (h0 : t ≠ 0) (hm : t ≠ m)
    (hf : m &&& ~~~t ≠ 0) (hroom : s.cur.l.stack.length + (parkedEntry (s.cur.path (!s.ps1))).length < 8) :
    s.bdiv target join m t = s.withL ((({ s.cur.l.nestUp m with
      stack := ⟨.join, join, m⟩ :: (parkedEntry (s.cur.path (!s.ps1)) ++ s.cur.l.stack) } : LState).setPath (!s.ps1)
        (some ⟨s.own + 3, m &&& ~~~t⟩)).setPath s.ps1 (some ⟨target, t⟩)) := by
  have hmixed : (t == m || m &&& ~~~t == 0 || t == 0) = false := by
    simp only [Bool.or_eq_false_iff, beq_eq_false_iff_ne]
    exact ⟨⟨hm, hf⟩, h0⟩
  have hcap : ¬ 72 < s.cur.l.stack.length + (if (s.cur.path (!s.ps1)).isSome then 2 else 1) := by
    split <;> omega
  unfold State.bdiv
  dsimp only
  rw [hn, hmixed, if_neg hcap, if_neg (by simp), if_neg (by simp)]
  rcases hq : s.cur.path (!s.ps1) with _ | q
  · rw [hq] at hroom
    rw [Option.bind_some, State.pushEntry_room _ hroom, Option.map_some, orSpill, State.setPath_mapL, State.withL_withL]
    rfl
  · have hpark : s.cur.l.stack.length + 1 < 8 := by
      rw [hq] at hroom
      exact hroom
    dsimp only
    rw [State.pushEntry_room _ (by omega), Option.bind_some, State.pushEntry_room, Option.map_some, orSpill, State.setPath_mapL,
      State.withL_withL, State.withL_withL]
    · rfl
    · exact hpark

/-! ### BLOOP (R129) -/

/-- The path stands in the region of its loop: the top region is that of a LOOP entry with its exit. -/
def LState.inLoop (l : LState) (exit : Nat) : Bool :=
  match topRegion l.stack with
  | some (e, _) => e.kind == .loop && e.pc == exit
  | none => false

theorem LState.inLoop_iff {l : LState} {exit : Nat} :
    l.inLoop exit = true ↔ ∃ below m0, topRegion l.stack = some (⟨.loop, exit, m0⟩, below) := by
  unfold LState.inLoop
  rcases topRegion l.stack with _ | ⟨⟨kind, pc, m0⟩, below⟩ <;> simp

/-- A path in its loop keeps the lanes that stay. -/
theorem State.bloop_in {s : State} {top exit : Nat} {m t : Mask} (h : s.cur.l.inLoop exit = true) :
    s.bloop top exit m t = orSpill s (s.bloopRest top t) :=
  if_pos h

/-- A path out of its loop that leaves whole goes to the exit. -/
theorem State.bloop_leaves {s : State} {top exit : Nat} {m : Mask} (h : s.cur.l.inLoop exit = false) :
    s.bloop top exit m 0 = s.setPath exit m := by
  refine (if_neg (Bool.eq_false_iff.mp h)).trans ?_
  rw [beq_self_eq_true, if_pos rfl]

/-- A path out of its loop opens the loop's entry and keeps the lanes that stay. -/
theorem State.bloop_opens {s : State} {top exit : Nat} {m t : Mask} (h : s.cur.l.inLoop exit = false) (h0 : t ≠ 0)
    (hn : s.cur.l.nestFull m = 0) (hroom : s.cur.l.stack.length < 8) :
    s.bloop top exit m t = s.withL (({ s.cur.l.nestUp m with stack := ⟨.loop, exit, m⟩ :: s.cur.l.stack } : LState).setPath s.ps1
      (some ⟨top, t⟩)) := by
  refine (if_neg (Bool.eq_false_iff.mp h)).trans ?_
  dsimp only
  rw [if_neg (by simpa using h0), hn, if_neg (by simp), if_neg (by omega), State.pushEntry_room _ hroom, Option.bind_some,
    State.bloopRest, if_neg (by simpa using h0), orSpill, State.setPath_mapL, State.withL_withL]
  rfl

/-! ### JOIN (R124, R127) -/

/-- A path that meets the JOIN of the top entry dissolves. -/
theorem State.join_closes {s : State} {m m0 : Mask} {rest : List StackEntry} (h : s.cur.l.stack = ⟨.join, s.own, m0⟩ :: rest) :
    s.join m = orSpill s s.dissolve := by
  have htop : topRegion s.cur.l.stack = some (⟨.join, s.own, m0⟩, rest) := by
    rw [h]
    rfl
  unfold State.join
  rw [htop]
  exact if_pos (by simp)

/-- A JOIN that the top region does not match is passed. -/
theorem State.join_passes {s : State} {m : Mask} (hh : s.cur.l.hold = none)
    (h : ∀ e below, topRegion s.cur.l.stack = some (e, below) → e.kind ≠ .join ∨ e.pc ≠ s.own) : s.join m = s.joinPass m := by
  unfold State.join
  rcases htop : topRegion s.cur.l.stack with _ | ⟨e, below⟩
  · rfl
  · have hother : ¬ (e.kind == .join && e.pc == s.own) = true := by
      simpa [imp_iff_not_or] using h e below htop
    dsimp only
    rw [if_neg hother, hh]
    rfl

/-- A JOIN that is passed steps down the counters that exceed their entries (R124). -/
theorem State.joinPass_eq {s : State} {m down : Mask}
    (hd : ∀ i, i < 128 → (down.getLsbD i = true ↔ m.getLsbD i = true ∧
      (s.cur.l.stack.filter fun e => e.kind != .park && e.mask.getLsbD i).length < (look s.cur.l.nest i 0).toNat)) :
    s.joinPass m = s.withL (({ s.cur.l with nest := nestLowered s.cur.l.nest down } : LState).setPath s.ps1 (some ⟨s.own + 3, m⟩)) := by
  have hmask : maskOf ((lanesOf m).filter fun i => s.cur.l.entriesOf i < (look s.cur.l.nest i 0).toNat) = down := by
    refine mask_ext fun i hi => ?_
    rw [maskOf_getLsbD, List.mem_filter, mem_lanesOf, hd i hi, decide_eq_true_iff]
    exact ⟨fun ⟨_, ⟨_, hm⟩, hn⟩ => ⟨hm, hn⟩, fun ⟨hm, hn⟩ => ⟨hi, ⟨hi, hm⟩, hn⟩⟩
  rw [State.joinPass, State.setPath_mapL, hmask, LState.nestDown_eq]

/-! ### The statement -/

/-- Settles O34: BUNI and BDIV branch on the mask of their predicate, BLOOP on that and on the region of its path, and the last path of
a region, at its JOIN or as it leaves its loop, dissolves into the mask of the entry. -/
theorem pathsBranchAndReconverge : Obligations.PathsBranchAndReconverge := by
  unfold Obligations.PathsBranchAndReconverge
  refine ⟨fun s o p vs g t target other h ht hfar => ?branch, fun s o p vs g m0 rest h hhold hroom hrest hm0 => ?reconverge⟩
  case branch =>
    intro l goes up free parked mine
    have hctl := ctlPred_eq ht
    have hown := State.own_eq h.path
    have hfar := offsetOf_of_reaches hfar
    refine ⟨?taken, ?fallen, ?notuni, fun hnear => ?rest⟩
    case taken =>
      rintro rfl
      rw [exec_buni h hctl hfar, if_pos (beq_self_eq_true _)]
      rfl
    case fallen =>
      rintro rfl hp
      rw [exec_buni h hctl hfar, if_neg (by simpa using hp.symm), if_pos (beq_self_eq_true _)]
      rfl
    case notuni =>
      intro h0 hp hi hw u entry hu hv
      refine ⟨s.raiseL 0x0F, ?_, State.raiseL_enters hw hi hu hv rfl (by decide)⟩
      rw [exec_buni h hctl hfar, if_neg (by simpa using hp), if_neg (by simpa using h0)]
    case rest =>
      have hnear := offsetOf_of_reaches hnear
      have hbdiv := exec_bdiv h hctl hfar hnear
      have hbloop := exec_bloop h hctl hfar hnear
      refine ⟨fun hfree => ?bdiv, ?stays, ?leaves, ?opens⟩
      case bdiv =>
        have hnest := LState.nestFull_eq_zero hfree
        refine ⟨?all, ?no, ?mixed⟩
        case all =>
          rintro rfl
          rw [hbdiv, State.bdiv_uniform hnest (.inl rfl), if_pos (beq_self_eq_true _)]
          rfl
        case no =>
          rintro rfl hp
          rw [hbdiv, State.bdiv_uniform hnest (.inr rfl), if_neg (by simpa using hp.symm), hown]
          rfl
        case mixed =>
          intro h0 hp hcap
          have hparked : parked = parkedEntry (s.cur.path (!s.ps1)) := by
            dsimp only [parked]
            cases s.cur.path (!s.ps1) <;> rfl
          have hsub (i : Nat) (hi : i < 128) (hti : t.getLsbD i = true) : p.mask.getLsbD i = true := ((ht i hi).mp hti).1
          rw [hparked] at hcap ⊢
          rw [hbdiv, State.bdiv_mixed hnest h0 hp (remaining_ne_zero hsub hp) hcap, hown]
          rfl
      case stays =>
        intro hmine h0
        rw [hbloop, State.bloop_in (LState.inLoop_iff.mpr hmine), State.bloopRest, if_neg (by simpa using h0)]
        rfl
      case leaves =>
        rintro hmine rfl
        rw [hbloop, State.bloop_leaves (Bool.eq_false_iff.mpr (mt LState.inLoop_iff.mp hmine))]
        rfl
      case opens =>
        intro hmine h0 hfree hcap
        rw [hbloop, State.bloop_opens (Bool.eq_false_iff.mpr (mt LState.inLoop_iff.mp hmine)) h0 (LState.nestFull_eq_zero hfree) hcap]
        rfl
  case reconverge =>
    intro l restored
    have hown := State.own_eq h.path
    refine ⟨fun hstack => ⟨fun hother => ?yields, fun hother => ?closes⟩, fun hout down hdown => ?passes,
      fun top exit hfar hnear hno hstack hother => ?exits⟩
    case yields =>
      rw [exec_join h, State.join_closes (hown ▸ hstack), State.dissolve_yields hother]
      · rfl
      · rw [hstack]
        simp
    case closes =>
      rw [exec_join h, State.join_closes (hown ▸ hstack), State.dissolve_restores hother hstack (by simp) hm0 hroom hrest hhold]
      rfl
    case passes =>
      rw [exec_join h, State.join_passes hhold (hown ▸ hout), State.joinPass_eq hdown, hown]
    case exits =>
      have hctl : s.cur.ctlPred o p.mask = 0 := ctlPred_eq fun i hi => iff_of_false (by simp) (hno i hi)
      have hin : s.cur.l.inLoop exit = true := LState.inLoop_iff.mpr ⟨rest, m0, by rw [hstack]; rfl⟩
      rw [exec_bloop h hctl (offsetOf_of_reaches hfar) (offsetOf_of_reaches hnear), State.bloop_in hin, State.bloopRest,
        if_pos (beq_self_eq_true _), State.dissolve_restores hother hstack (by simp) hm0 hroom hrest hhold]
      rfl

end Sys2Proof.Machine
end

section
/-! Holds, the end of a block, and the retirement of lanes (R131 to R133). -/

namespace Sys2Proof.Machine

/-! ### Holds (R132) -/

/-- The group without a path, its last one having entered a hold. -/
def State.heldLast (s : State) (k : HoldKind) (m : Mask) : State := (s.withL { s.cur.l with hold := some ⟨k, m⟩ }).pathless

/-- A path that enters the first hold leaves the other one running. -/
theorem State.enterHold_first {s : State} {k : HoldKind} {m : Mask} (hh : s.cur.l.hold = none) (ho : s.cur.path (!s.ps1) ≠ none)
    (hk : ∀ e ∈ s.cur.l.stack.head?, e.kind ≠ .park) :
    s.enterHold k m = s.withL (({ s.cur.l with hold := some ⟨k, m⟩ } : LState).setPath s.ps1 none) := by
  have hmask : (s.cur.l.hold.map Hold.mask).getD 0 ||| m = m := by
    rw [hh]
    exact BitVec.zero_or
  unfold State.enterHold
  dsimp only
  rw [hmask]
  exact congrArg (orSpill s) (State.dissolve_yields (s := s.withL { s.cur.l with hold := some ⟨k, m⟩ }) ho hk)

/-- The last path that enters the hold completes it. -/
theorem State.enterHold_last {s : State} {k k' : HoldKind} {m m' : Mask} (hh : s.cur.l.hold = some ⟨k', m'⟩)
    (ho : s.cur.path (!s.ps1) = none) (hs : s.cur.l.stack = []) :
    s.enterHold k m = (s.heldLast k (m' ||| m)).completeHold ⟨k, m' ||| m⟩ := by
  have hmask : (s.cur.l.hold.map Hold.mask).getD 0 ||| m = m' ||| m := by rw [hh]; rfl
  unfold State.enterHold
  dsimp only
  rw [hmask]
  exact congrArg (orSpill s) (State.dissolve_last (s := s.withL { s.cur.l with hold := some ⟨k, m' ||| m⟩ }) ho hs)

/-! ### VBAR and LEND (R132, R133) -/

theorem exec_vbar_converged {s : State} {o : LOp} {p : Path} {vs : List Word} {g : Group} (h : LReady s { free := false } p vs g)
    (hc : s.cur.converged = true) :
    exec (.vbar o) s = .next ((s.mapCur fun g => { g.followAll with wdog := 0 }).setPath (p.pc + 3) p.mask) := by
  show execVbar o s = _
  rw [execVbar, State.lIssue_plain h, if_pos hc, State.own_eq h.path]

theorem exec_lend_converged {s : State} {o : LOp} {p : Path} {vs : List Word} {g : Group} (h : LReady s { free := false } p vs g)
    (hc : s.cur.converged = true) : exec (.lend o) s = .next s.endBlock := by
  show execLend o s = _
  rw [execLend, State.lIssue_plain h, if_pos hc]

/-- What a path that is not the whole group makes of the state: it enters the hold, or, where there is a hold of another kind, `other`
(R132). -/
def State.takeHold (s : State) (k : HoldKind) (m : Mask) (other : State) : State :=
  match s.cur.l.hold with
  | some h => if h.kind == k then s.enterHold k m else other
  | none => s.enterHold k m

theorem State.takeHold_open {s : State} {k : HoldKind} (m : Mask) (other : State)
    (hh : s.cur.l.hold = none ∨ ∃ m', s.cur.l.hold = some ⟨k, m'⟩) : s.takeHold k m other = s.enterHold k m := by
  unfold State.takeHold
  rcases hh with hh | ⟨m', hh⟩
  · rw [hh]
  · rw [hh]
    exact if_pos (beq_self_eq_true _)

theorem exec_vbar_diverged {s : State} {o : LOp} {p : Path} {vs : List Word} {g : Group} (h : LReady s { free := false } p vs g)
    (hc : s.cur.converged = false) : exec (.vbar o) s = .next (s.takeHold (.vbar p.pc) p.mask (s.raiseL 0x0E)) := by
  show execVbar o s = _
  rw [execVbar, State.lIssue_plain h, if_neg (Bool.eq_false_iff.mp hc), State.own_eq h.path]
  rfl

theorem exec_lend_diverged {s : State} {o : LOp} {p : Path} {vs : List Word} {g : Group} (h : LReady s { free := false } p vs g)
    (hc : s.cur.converged = false) : exec (.lend o) s = .next (s.takeHold .lend p.mask (s.raiseL 0x0E)) := by
  show execLend o s = _
  rw [execLend, State.lIssue_plain h, if_neg (Bool.eq_false_iff.mp hc)]
  rfl

/-! ### LKILL (R131) -/

/-- Lanes that retire from a converged group leave its path, its counters and the live lanes. -/
theorem LState.retire_alone {g : Group} {b : Bool} (ho : g.path (!b) = none) (hs : g.l.stack = []) (hh : g.l.hold = none) (k : Mask)
    (q : Option Path) : (g.l.retire k).setPath b q = ({ g.l with
      live := g.l.live &&& ~~~k
      nest := Vector.ofFn fun i => if k.getLsbD i then 0 else g.l.nest[i] } : LState).setPath b q := by
  cases b
  · have ho : g.l.ps1 = none := ho
    simp [LState.retire, LState.setPath, ho, hs, hh]
  · have ho : g.l.ps0 = none := ho
    simp [LState.retire, LState.setPath, ho, hs, hh]

/-- An empty path slot stays empty. -/
theorem Group.path_retire_none {g : Group} {b : Bool} (h : g.path b = none) (k : Mask) :
    ({ g with l := g.l.retire k } : Group).path b = none := by
  cases b
  · exact Option.bind_eq_none_iff.mpr fun q hq => by rw [show g.l.ps0 = none from h] at hq; cases hq
  · exact Option.bind_eq_none_iff.mpr fun q hq => by rw [show g.l.ps1 = none from h] at hq; cases hq

/-- With no entry to spill again, the path of an LKILL goes on with the lanes left, or dissolves. -/
theorem State.lkill_eq {s : State} {m k : Mask} (hs : s.cur.l.stack = []) :
    s.lkill m k = orSpill s (if m &&& ~~~k == 0 then (s.withL (s.cur.l.retire k)).dissolve
      else some ((s.withL (s.cur.l.retire k)).setPath (s.own + 3) (m &&& ~~~k))) := by
  have hstack : (s.mapL fun l => l.retire k).cur.l.stack = [] := List.map_eq_nil_iff.mpr hs
  unfold State.lkill
  dsimp only
  rw [hstack]
  rfl

theorem exec_lkill {s : State} {o : LOp} {p : Path} {vs : List Word} {g : Group} {t : Mask} (h : LReady s (s.ctlUse o) p vs g)
    (ht : s.cur.ctlPred o p.mask = t) : exec (.lkill o) s = .next (s.lkill p.mask t) := by
  show execLkill o s = _
  rw [execLkill, State.lIssue_plain h, ht]

/-! ### The statement -/

/-- Settles O35: a VBAR, LEND or LKILL of a converged group acts at once; a path of a diverged one enters the hold, and the last path
that enters it completes it. -/
theorem holdsAndRetirementEndPaths : Obligations.HoldsAndRetirementEndPaths := by
  unfold Obligations.HoldsAndRetirementEndPaths
  intro s o p vs g l ended
  refine ⟨fun h => ⟨fun hc => ⟨?ends, ?passes⟩, fun hother hhold hk => ⟨?bars, ?waits⟩,
    fun hother hstack => ⟨fun m hhold hm => ?releases, fun m hhold => ?closes⟩⟩, fun h hc t ht => ?retires⟩
  case ends =>
    rw [exec_lend_converged h hc]
    rfl
  case passes =>
    rw [exec_vbar_converged h hc]
    rfl
  case bars =>
    rw [exec_vbar_diverged h (Group.diverged_of_other h.path hother), State.takeHold_open _ _ (.inl hhold),
      State.enterHold_first hhold hother hk]
  case waits =>
    rw [exec_lend_diverged h (Group.diverged_of_other h.path hother), State.takeHold_open _ _ (.inl hhold),
      State.enterHold_first hhold hother hk]
  case releases =>
    rw [exec_vbar_diverged h (Group.diverged_of_hold h.path hhold), State.takeHold_open _ _ (.inr ⟨m, hhold⟩),
      State.enterHold_last hhold hother hstack]
    exact congrArg Host.Outcome.next (if_neg (by simpa using hm))
  case closes =>
    rw [exec_lend_diverged h (Group.diverged_of_hold h.path hhold), State.takeHold_open _ _ (.inr ⟨m, hhold⟩),
      State.enterHold_last hhold hother hstack]
    rfl
  case retires =>
    obtain ⟨hother, hstack, hhold⟩ := Group.alone_of_converged h.path hc
    have hexec := (exec_lkill h (ctlPred_eq ht)).trans (congrArg Host.Outcome.next (State.lkill_eq hstack))
    refine ⟨fun hleft => ?left, fun hleft => ?none⟩
    case left =>
      rw [hexec, if_neg (by simpa using hleft), orSpill, State.setPath_eq, State.own_eq h.path]
      exact congrArg (fun l => Host.Outcome.next (s.withL l)) (LState.retire_alone hother hstack hhold t _)
    case none =>
      rw [hexec, if_pos (by simpa using hleft),
        State.dissolve_ends (s := s.withL (s.cur.l.retire t)) (Group.path_retire_none hother t)]
      · rfl
      · exact List.map_eq_nil_iff.mpr hstack
      · exact Option.map_eq_none_iff.mpr hhold

end Sys2Proof.Machine
end

section
/-! Stops on their way to a group: the watchdog, DEADLINE, fetches that fault, and stops that were held (R134, R310 to R323). -/

namespace Sys2Proof.Machine

/-! ### A memory fault of one whole instruction (R245, R246, R248, R313) -/

/-- The record of a memory fault that names no lane of its own is offered before the stop is taken (R245, R246, R312). -/
theorem State.queueMem_whole {s : State} {st : Stop} {f : MemFault} (hl : st.lanes = [⟨255, f⟩]) (hc : st.code = f.code)
    (hm : memoryCode f.code = true) (hq : st.queued = false) :
    s.queueMem st =
      s.queueAll [faultRecord s (st.rflags ||| (if st.l then 1 else 0) ||| (if st.l && st.ps1 then 0x40 else 0)) st.pc ⟨255, f⟩] := by
  have hrec (flags : Byte) : s.recordOf s.cur f.code f.cause 255 flags f.addr st.pc f.pa 0 = faultRecord s flags st.pc ⟨255, f⟩ := by
    unfold State.recordOf faultRecord rankByte
    simp only [beq_iff_eq]
  have hrecords : s.stopRecords s.cur st =
      [faultRecord s (st.rflags ||| (if st.l then 1 else 0) ||| (if st.l && st.ps1 then 0x40 else 0)) st.pc ⟨255, f⟩] := by
    rw [← hrec]
    simp [State.stopRecords, hl, hc, hm]
  unfold State.queueMem
  rw [hrecords, hq, List.filter_eq_self.mpr (by simpa [faultRecord] using hm)]
  rfl

/-- The stop of one memory fault of an instruction as a whole, taken in a state whose log has it (R248). -/
structure Stop.OfFault (st : Stop) (f : MemFault) : Prop where
  kind   : st.kind = .exact
  code   : st.code = f.code
  hs1    : st.hs1 = hs1Of f
  lanes  : st.lanes = [⟨255, f⟩]
  mask   : st.mask = 1
  replay : st.replay = none
  queued : st.queued = false

/-- Such a stop reaches its group. -/
theorem TakesFaults.of_dispatch {y : State} {st : Stop} {f : MemFault} (hi : Interruptible y) (hst : st.OfFault f) (hf : issueFault f)
    (wr loc : Bool) :
    TakesFaults y (.next ((y.logLanes [⟨255, f⟩] wr loc).dispatch st)) [⟨255, f⟩] st.l st.ps1 st.rflags st.pc wr loc 1 none := by
  intro u entry imm f' w v hhead hcur hstrict hvec hu himm
  obtain rfl : f = f' := Option.some.inj hhead
  have himm : imm = true := himm.resolve_right (by simp)
  have hiv : Interruptible v := hi.of_cur hcur hstrict
  have hq : w.queueMem st = v := State.queueMem_whole hst.lanes hst.code (memoryCode_of_issueFault hf) hst.queued
  have hd := State.dispatch_enters (st := st) hq hiv (hst.code ▸ hvec) (.inl himm)
  refine ⟨_, congrArg Host.Outcome.next hd, fun hcan => ?enters, fun hcan => ?waits⟩
  case enters =>
    have hhv : Stop.givesHv { st with queued := true } = true := by
      simp [Stop.givesHv, hst.lanes, hst.code, hst.kind, hf.1, hf.2]
    have hvec : st.code ≠ 0x10 := fun h => by
      have := hf.2
      simp [← hst.code, h] at this
    unfold State.enterHandler
    rw [if_pos hcan, ← hst.code, ← hst.hs1]
    exact ⟨EntersHandler.of_enter u { st with queued := true } entry hvec, hvHolds_enter u entry hst.lanes hhv,
      _, rfl, hst.mask, hst.replay, rfl, rfl⟩
  case waits =>
    have hfree : (u.cur.parked || u.cur.halted) = false := by rw [hu, hiv.parked, hiv.halted]; rfl
    refine ⟨{ st with queued := true }, ?_, hst.lanes, hst.code, hst.hs1, rfl, hst.mask, hst.replay, rfl, rfl⟩
    unfold State.enterHandler State.mapCur
    rw [if_neg (by simp [hcan])]
    dsimp only
    rw [hfree]
    rfl

/-! ### Fetches that fault (R56, R57, R310) -/

theorem State.logFault_ps1 (s : State) (f : MemFault) (wr loc : Bool) : (s.logFault f wr loc).ps1 = s.ps1 := by
  unfold State.logFault
  split <;> rfl

theorem State.logFault_lpc (s : State) (f : MemFault) (wr loc : Bool) : (s.logFault f wr loc).lpc = s.lpc := by
  unfold State.lpc
  rw [State.logFault_cur, State.logFault_ps1]

/-- The stop of the L-stream for a memory fault of its instruction as a whole (R195, R248). -/
def State.wholeStop (s : State) (f : MemFault) (flags : Byte) : Stop :=
  ⟨.exact, f.code, f.cause, hs1Of f, true, s.ps1, s.lpc, [⟨255, f⟩], flags, oneLane 0, none, s.time, s.coreOf s.cur, false⟩

theorem State.raiseLMem_stops {s : State} (f : MemFault) (flags : Byte) (hw : s.cur.lWaits = false) :
    s.raiseLMem f flags = s.dispatch (s.wholeStop f flags) := by
  rw [State.raiseLMem, State.lFault, hw, causeWord_eq, if_neg Bool.false_ne_true]
  rfl

/-- A fetch of the L-stream that faults stops its group at the instruction. -/
theorem TakesFaults.of_fetchL {s : State} {f : FetchFault} {m : MemFault} (hfault : ⟨f.code, f.cause, f.addr, f.pa⟩ = m)
    (hi : Interruptible s) (hw : s.cur.lWaits = false) (hf : issueFault m) :
    TakesFaults s (exec (.instructionFetchFault true f) s) [⟨255, m⟩] true s.ps1 0x08 s.lpc false false 1 none := by
  have hexec : exec (.instructionFetchFault true f) s =
      .next ((s.logFault m false false).dispatch ((s.logFault m false false).wholeStop m 0x08)) := by
    show execInstructionFetchFault true f s = _
    unfold execInstructionFetchFault
    dsimp only
    rw [hfault, if_pos rfl, hw, if_neg Bool.false_ne_true, State.raiseLMem_stops _ _ (by rw [State.logFault_cur, hw])]
  rw [hexec, ← State.logFault_ps1 s m false false, ← State.logFault_lpc s m false false]
  exact TakesFaults.of_dispatch hi ⟨rfl, rfl, rfl, rfl, rfl, rfl, rfl⟩ hf false false

/-! ### Stops that were held (R310, R316, R323) -/

theorem Interruptible.takesStops {s : State} (hi : Interruptible s) : s.cur.takesStops = true := by
  simp [Group.takesStops, hi.runs, hi.user, hi.parked, hi.halted]

/-- The stops that the group holds change nothing of how it takes one. -/
theorem Interruptible.withStops {s : State} (hi : Interruptible s) (rest : List Stop) :
    Interruptible (s.mapCur fun g => { g with stops := rest }) :=
  ⟨hi.runs, hi.user, hi.parked, hi.halted, hi.policy⟩

/-- A stop offers no record before its dispatch where its records are queued, or where it has no lanes and is no memory fault. -/
theorem State.queueMem_offered {s : State} {st : Stop} (h : st.queued = true ∨ st.lanes = []) (hm : memoryCode st.code = false) :
    s.queueMem st = s := by
  rcases h with hq | hl
  · exact if_pos hq
  · exact State.queueMem_plain hl hm

/-- The dispatch of a stop that may be entered at once stands the group at its handler. -/
theorem State.dispatch_handler {s u : State} {st : Stop} {entry : Word} {imm : Bool} (hst : st.queued = true ∨ st.lanes = [])
    (hm : memoryCode st.code = false) (hi : Interruptible s) (hu : u.canEnter = true)
    (hv : s.vectorEntry (s.coreOf s.cur) (s.ctxOf s.cur) st.code = (some (entry, imm), u)) (himm : imm = true ∨ st.inPlace = true) :
    s.dispatch st = u.mapCur fun g => g.enter { st with queued := true } entry := by
  rw [State.dispatch_enters (State.queueMem_offered hst hm) hi hv himm, State.enterHandler, if_pos hu]

/-- An event of the issuing group after which it stands in its handler. -/
theorem State.withGroup_enters {s u : State} {f : State → State} {st : Stop} {entry : Word} (hf : f s = u.mapCur fun g => g.enter st entry)
    (hu : u.cur.uid = s.cur.uid) : s.withGroup s.cur.uid f = u.mapCur fun g => g.enter st entry :=
  (State.withGroup_self ((congrArg (fun s => s.cur.uid) hf).trans hu)).trans hf

/-- The stop of the watchdog (R134, R321). -/
def State.watchdogStop (s : State) : Stop :=
  ⟨.whole, 0x10, 0, 0, false, false, s.cur.s.pc, [], 0, BitVec.allOnes 128, none, s.time, s.coreOf s.cur, false⟩

theorem exec_watchdogExpiry {s u : State} {st : Stop} {entry : Word} (hw : s.cur.watched = true) (hl : s.wdogLimit s.cur ≤ s.cur.wdog)
    (hd : s.dispatch s.watchdogStop = u.mapCur fun g => g.enter st entry) (hu : u.cur.uid = s.cur.uid) :
    exec (.watchdogExpiry s.cur.uid) s = .next (u.mapCur fun g => g.enter st entry) := by
  have hfound : s.group? s.cur.uid = some s.cur := List.find?_cons_of_pos (beq_self_eq_true _)
  show execWatchdogExpiry s.cur.uid s = _
  unfold execWatchdogExpiry
  rw [hfound]
  dsimp only
  rw [if_pos (by simp [hw, hl])]
  exact congrArg Host.Outcome.next (State.withGroup_enters hd hu)

theorem exec_deadlineDelivery {s u : State} {st st' : Stop} {rest : List Stop} {entry : Word} (hi : Interruptible s) (hmove : s.onMove = false)
    (hs : s.cur.stops = st :: rest) (hk : st.kind = .event)
    (hd : (s.mapCur fun g => { g with stops := rest }).dispatch { st with pc := s.cur.s.pc } = u.mapCur fun g => g.enter st' entry)
    (hu : u.cur.uid = s.cur.uid) : exec (.deadlineDelivery s.cur.uid) s = .next (u.mapCur fun g => g.enter st' entry) := by
  show execDeadlineDelivery s.cur.uid s = _
  refine congrArg Host.Outcome.next (State.withGroup_enters ?_ hu)
  rw [hs]
  dsimp only
  rw [if_pos (by simp [hi.takesStops, hmove, hk]), hd]

/-- An imprecise stop of the S-stream is taken before its next instruction (R217, R316). -/
theorem exec_faultDispatch {s u : State} {st st' : Stop} {rest : List Stop} {entry : Word} (hi : Interruptible s) (hmove : s.onMove = false)
    (hs : s.cur.stops = st :: rest) (hk : st.kind = .imprecise) (hl : st.l = false)
    (hd : (s.mapCur fun g => { g with stops := rest }).dispatch { st with pc := s.cur.s.pc } = u.mapCur fun g => g.enter st' entry)
    (hu : u.cur.uid = s.cur.uid) : exec (.faultDispatch s.cur.uid) s = .next (u.mapCur fun g => g.enter st' entry) := by
  have hpoint : s.cur.stopPoint st = { st with pc := s.cur.s.pc } := by
    simp [Group.stopPoint, hk, hl]
  show execFaultDispatch s.cur.uid s = _
  refine congrArg Host.Outcome.next (State.withGroup_enters ?_ hu)
  rw [hs]
  dsimp only
  rw [if_pos (by simp [hi.takesStops, hmove, hk]), hpoint, hd]

theorem exec_handlerEntry {s : State} {st : Stop} {entry : Word} (hs : s.cur.status = .shadow st entry) (hu : s.canEnter = true) :
    exec (.handlerEntry s.cur.uid) s = .next (s.mapCur fun g => g.enter st entry) := by
  show execHandlerEntry s.cur.uid s = _
  refine congrArg Host.Outcome.next (State.withGroup_enters ?_ rfl)
  rw [hs]
  exact if_pos hu

/-! ### The statement -/

/-- Settles O39: each stop goes through the dispatch of its group, whose handler it enters, and one that waits enters as it is. -/
theorem stopsReachTheirGroup : Obligations.StopsReachTheirGroup := by
  unfold Obligations.StopsReachTheirGroup
  intro s entry u hi
  refine ⟨fun hu hwatched hlimit hv hcur => ?watchdog, fun st rest imm hmove hstops hkind hcode hrec hu hv huid => ?deadline,
    fun st rest hmove hstops hkind hl hm hrec hu hv huid hcode => ?fault, fun g st hu hstatus hcode => ?waiting,
    fun f hf => ?fetch⟩
  case watchdog =>
    have hd := State.dispatch_handler (st := s.watchdogStop) (.inr rfl) rfl hi hu hv (.inl rfl)
    have hexec := exec_watchdogExpiry hwatched hlimit hd (congrArg Group.uid hcur)
    have hregs : u.cur.s.regs = s.cur.s.regs := by rw [hcur]
    exact ⟨_, hexec, rfl, rfl, rfl, rfl, rfl, hregs, fun _ => rfl⟩
  case deadline =>
    have hd := State.dispatch_handler (st := { st with pc := s.cur.s.pc }) hrec (by simp [hcode, memoryCode]) (hi.withStops rest) hu
      (hcode ▸ hv) (.inr (by simp [Stop.inPlace, hcode]))
    have hexec := exec_deadlineDelivery hi hmove hstops hkind hd huid
    have henters := EntersHandler.of_enter u { st with pc := s.cur.s.pc, queued := true } entry (by simp [hcode])
    exact ⟨_, hexec, hcode ▸ henters, rfl⟩
  case fault =>
    have hd := State.dispatch_handler (st := { st with pc := s.cur.s.pc }) hrec hm (hi.withStops rest) hu hv (.inl rfl)
    have hexec := exec_faultDispatch hi hmove hstops hkind hl hd huid
    exact ⟨_, hexec, EntersHandler.of_enter u { st with pc := s.cur.s.pc, queued := true } entry hcode⟩
  case waiting => exact ⟨_, exec_handlerEntry (s := { s with cur := g }) hstatus hu, EntersHandler.of_enter _ st entry hcode⟩
  case fetch => exact ⟨fun hw => TakesFaults.of_sMemFault hi hw rfl hf 0x08 false false, fun hw => TakesFaults.of_fetchL rfl hi hw hf⟩

end Sys2Proof.Machine
end

section
/-! Rounds of barriers and team-calls: what they leave of the issuing group, and how its wait ends (R150 to R162). -/

namespace Sys2Proof.Machine

/-! ### What a change leaves of the issuing group -/

/-- Two groups agree in their place, their status and their streams: registers, S-PC, L-stream state, flags and wait. -/
structure Group.SameStreams (g h : Group) : Prop where
  team : h.team = g.team
  rank : h.rank = g.rank
  status : h.status = g.status
  wait : h.wait = g.wait
  s : h.s = g.s
  l : h.l = g.l
  flags : h.flags = g.flags

theorem Group.SameStreams.refl (g : Group) : g.SameStreams g := ⟨rfl, rfl, rfl, rfl, rfl, rfl, rfl⟩

theorem Group.SameStreams.trans {g h k : Group} (a : g.SameStreams h) (b : h.SameStreams k) : g.SameStreams k :=
  ⟨b.team.trans a.team, b.rank.trans a.rank, b.status.trans a.status, b.wait.trans a.wait, b.s.trans a.s, b.l.trans a.l,
    b.flags.trans a.flags⟩

/-- What the end of a round does beside its releases: the streams of the issuing group, memory and the frames of each team stay. -/
structure State.KeepsStreams (s t : State) : Prop where
  cur : s.cur.SameStreams t.cur
  mem : t.mem = s.mem
  frames : ∀ id, (t.team? id).map Team.frames = (s.team? id).map Team.frames

theorem State.KeepsStreams.refl (s : State) : s.KeepsStreams s := ⟨.refl _, rfl, fun _ => rfl⟩

theorem State.KeepsStreams.trans {s t u : State} (h : s.KeepsStreams t) (h' : t.KeepsStreams u) : s.KeepsStreams u :=
  ⟨h.cur.trans h'.cur, h'.mem.trans h.mem, fun id => (h'.frames id).trans (h.frames id)⟩

/-- What a PENDING move or the parking of a context changes: neither the issuing group, nor memory, the frames of a team or the
count of the machine log. -/
structure State.SameButMove (s t : State) : Prop where
  cur : t.cur = s.cur
  mem : t.mem = s.mem
  mevt : t.dev.mevt = s.dev.mevt
  frames : ∀ id, (t.team? id).map Team.frames = (s.team? id).map Team.frames

theorem State.SameButMove.refl (s : State) : s.SameButMove s := ⟨rfl, rfl, rfl, fun _ => rfl⟩

theorem State.SameButMove.trans {s t u : State} (h : s.SameButMove t) (h' : t.SameButMove u) : s.SameButMove u :=
  ⟨h'.cur.trans h.cur, h'.mem.trans h.mem, h'.mevt.trans h.mevt, fun id => (h'.frames id).trans (h.frames id)⟩

theorem State.SameButMove.keeps {s t : State} (h : s.SameButMove t) : s.KeepsStreams t := ⟨h.cur ▸ .refl _, h.mem, h.frames⟩

/-! ### Teams by their name -/

theorem State.id_of_team? {s : State} {id : Nat} {t : Team} (h : s.team? id = some t) : t.id = id :=
  beq_iff_eq.mp (List.find?_some (p := fun t : Team => t.id == id) h)

/-- A team after a change that keeps names. -/
theorem State.team?_mapTeam (s : State) (id : Nat) {f : Team → Team} (hf : ∀ t, (f t).id = t.id) :
    (s.mapTeam id f).team? id = (s.team? id).map f := find?_mapIf_same (key := Team.id) hf s.teams id

theorem State.team?_mapTeam_some {s : State} {id : Nat} {t : Team} (ht : s.team? id = some t) (f : Team → Team)
    (hf : ∀ t, (f t).id = t.id) :
    (s.mapTeam id f).team? id = some (f t) := (s.team?_mapTeam id hf).trans (congrArg (Option.map f) ht)

/-- A change of a team that keeps its name and its frames keeps the frames of every team. -/
theorem State.frames_mapTeam (s : State) (id : Nat) {f : Team → Team} (hid : ∀ t, (f t).id = t.id)
    (hframes : ∀ t, (f t).frames = t.frames) (k : Nat) :
    ((s.mapTeam id f).team? k).map Team.frames = (s.team? k).map Team.frames := by
  by_cases hk : k = id
  · subst hk
    rw [State.team?_mapTeam s k hid, Option.map_map]
    exact congrArg (Option.map · (s.team? k)) (funext hframes)
  · exact congrArg (Option.map Team.frames) (find?_mapIf_ne (key := Team.id) hid s.teams hk)

/-! ### Moves, parking and boundaries (R330, R346, R347) -/

theorem State.withdrawMove_same (s : State) : s.SameButMove s.withdrawMove := by
  unfold State.withdrawMove
  split
  · exact ⟨rfl, rfl, rfl, State.frames_mapTeam { s with dev := { s.dev with tmig := .cancelled } } s.dev.tteam
      (fun _ => rfl) fun _ => rfl⟩
  · exact .refl s

theorem State.cancelMove_same (s : State) (ctx : Nat) : s.SameButMove (s.cancelMove ctx) := by
  unfold State.cancelMove
  dsimp only
  split
  · exact s.withdrawMove_same
  · exact .refl s

theorem State.checkParked_same (s : State) (ctx : Nat) : s.SameButMove (s.checkParked ctx) := by
  unfold State.checkParked
  split
  · exact .refl s
  · dsimp only
    split
    · exact (s.cancelMove_same ctx).trans ⟨rfl, rfl, rfl, fun _ => rfl⟩
    · exact .refl s

theorem State.beginMove_same (s : State) (team : Nat) : s.SameButMove (s.beginMove team) := by
  unfold State.beginMove
  split
  · exact ⟨rfl, rfl, rfl, s.frames_mapTeam team (fun _ => rfl) fun _ => rfl⟩
  · exact .refl s

/-- A running group has no stop that a boundary would hold (R333). -/
theorem Group.holdStop_run {g : Group} (h : g.status = .run) : g.holdStop = g := by
  unfold Group.holdStop
  rw [h]

/-- A boundary parks a running group at most (R330). -/
theorem State.boundary_keeps {s : State} (hrun : s.cur.status = .run) (team : Nat) (ranks : List Nat) :
    s.KeepsStreams (s.boundary team ranks) := by
  unfold State.boundary
  dsimp only
  split
  · exact .refl s
  · split
    · refine State.KeepsStreams.trans (t := s.mapGroups _ _) ⟨?_, rfl, fun _ => rfl⟩ (State.checkParked_same ..).keeps
      unfold State.mapGroups
      dsimp only
      split
      · rw [Group.holdStop_run hrun]
        exact ⟨rfl, rfl, rfl, rfl, rfl, rfl, rfl⟩
      · exact .refl _
    · exact .refl s

/-- The end of a round as a boundary of its groups, at which a PENDING move may begin (R346). -/
theorem State.moveBoundary_keeps {s : State} (hrun : s.cur.status = .run) (team : Nat) (ranks : List Nat) :
    s.KeepsStreams ((s.beginMove team).boundary team ranks) := by
  have hmove := s.beginMove_same team
  exact hmove.keeps.trans (State.boundary_keeps (hmove.cur ▸ hrun) ..)

/-- What a round orders stands in `seen` alone (R152). -/
theorem State.meetRound_keeps (s : State) (p : Group → Bool) : s.KeepsStreams (s.meetRound p) := by
  refine ⟨?_, rfl, fun _ => rfl⟩
  unfold State.meetRound State.mapGroups
  dsimp only
  split <;> exact ⟨rfl, rfl, rfl, rfl, rfl, rfl, rfl⟩

/-! ### Releases (R151) -/

/-- The group of a rank goes on from a wait that its release ends. -/
theorem State.release_hit {s : State} {w : SWait → Bool} {pc : Word → Word} {ws : List (SReg × Word)} (hrun : s.cur.status = .run)
    (hw : w s.cur.wait = true) :
    (s.cur.goOn (pc s.cur.s.pc) ws).SameStreams (s.release s.cur.team s.cur.rank w pc ws).cur := by
  have hmine : (s.cur.team == s.cur.team && s.cur.rank == s.cur.rank && s.cur.status != .exited) = true := by simp [hrun]
  unfold State.release State.mapRank State.mapGroups Group.endWait
  dsimp only
  rw [if_pos hmine, if_pos hw]
  exact ⟨rfl, rfl, rfl, rfl, rfl, rfl, rfl⟩

/-- The release of another rank leaves the issuing group alone. -/
theorem State.release_miss {s : State} {team rank : Nat} (w : SWait → Bool) (pc : Word → Word) (ws : List (SReg × Word))
    (h : ¬(team = s.cur.team ∧ rank = s.cur.rank)) : (s.release team rank w pc ws).cur = s.cur := by
  unfold State.release State.mapRank State.mapGroups
  refine if_neg fun hp => h ?_
  simp only [Bool.and_eq_true, beq_iff_eq] at hp
  exact ⟨hp.1.1.symm, hp.1.2.symm⟩

/-- A release that the wait of the issuing group is not for leaves its streams alone. -/
theorem State.release_done {s : State} {team rank : Nat} {w : SWait → Bool} {pc : Word → Word} {ws : List (SReg × Word)}
    (hw : w s.cur.wait = false) : s.cur.SameStreams (s.release team rank w pc ws).cur := by
  unfold State.release State.mapRank State.mapGroups Group.endWait
  simp only [hw, Bool.false_eq_true, if_false]
  split <;> exact ⟨rfl, rfl, rfl, rfl, rfl, rfl, rfl⟩

section
variable {α : Type} (team rank : α → Nat) (w : SWait → Bool) (pc : Word → Word) (ws : α → List (SReg × Word))

/-- The state after the releases of a list. -/
def State.releases (s : State) (l : List α) : State := l.foldl (fun s x => s.release (team x) (rank x) w pc (ws x)) s

theorem State.releases_same (s : State) (l : List α) :
    (s.releases team rank w pc ws l).mem = s.mem ∧ (s.releases team rank w pc ws l).teams = s.teams := by
  induction l generalizing s with
  | nil => exact ⟨rfl, rfl⟩
  | cons x l ih => exact ih _

theorem State.releases_done {s : State} (l : List α) (hw : w s.cur.wait = false) :
    s.cur.SameStreams (s.releases team rank w pc ws l).cur := by
  induction l generalizing s with
  | nil => exact .refl _
  | cons x l ih =>
    have h := State.release_done (s := s) (team := team x) (rank := rank x) (pc := pc) (ws := ws x) hw
    exact h.trans (ih (h.wait ▸ hw))

/-- The issuing group goes on at the first release that names it, and no later one reaches it. -/
theorem State.releases_goOn {s : State} {l : List α} {vs : List (SReg × Word)} (hrun : s.cur.status = .run) (hw : w s.cur.wait = true)
    (hnone : w .none = false) (hin : ∃ x ∈ l, team x = s.cur.team ∧ rank x = s.cur.rank)
    (hws : ∀ x ∈ l, rank x = s.cur.rank → ws x = vs) :
    (s.cur.goOn (pc s.cur.s.pc) vs).SameStreams (s.releases team rank w pc ws l).cur := by
  induction l generalizing s with
  | nil =>
    obtain ⟨x, hx, -⟩ := hin
    cases hx
  | cons x l ih =>
    by_cases hx : team x = s.cur.team ∧ rank x = s.cur.rank
    · have hit := State.release_hit (pc := pc) (ws := ws x) hrun hw
      rw [← hx.1, ← hx.2, hws x List.mem_cons_self hx.2] at hit
      have hdone := State.releases_done team rank w pc ws (s := s.release (team x) (rank x) w pc vs) l (hit.wait ▸ hnone)
      rw [State.releases, List.foldl_cons, hws x List.mem_cons_self hx.2]
      exact hit.trans hdone
    · have hmiss := State.release_miss w pc (ws x) hx
      rw [State.releases, List.foldl_cons, ← State.releases, ← hmiss]
      rw [← hmiss] at hrun hw hin hws
      refine ih hrun hw ?_ fun y hy => hws y (List.mem_cons_of_mem _ hy)
      obtain ⟨y, hy, hname⟩ := hin
      rcases List.mem_cons.mp hy with rfl | hy
      · exact absurd (hmiss ▸ hname) hx
      · exact ⟨y, hy, hname⟩

end

/-! ### The team of the issuing group -/

theorem State.viewOf_eq {s : State} {t : Team} (h : s.team? s.cur.team = some t) : s.viewOf s.cur = s.viewTeam t := by
  rw [State.viewOf, State.teamOf, h, Option.getD_some]

end Sys2Proof.Machine
end

section
/-! The last arrival at a round of a team or of a gang (R150, R151). -/

namespace Sys2Proof.Machine

/-! ### The group goes on -/

/-- Groups that agree in their streams still do once both have gone on. -/
theorem Group.SameStreams.goOn {g h : Group} (a : g.SameStreams h) (pc : Word) (ws : List (SReg × Word)) :
    (g.goOn pc ws).SameStreams (h.goOn pc ws) := by
  refine ⟨a.team, a.rank, a.status, rfl, ?_, a.l, a.flags⟩
  rw [Group.goOn, Group.goOn, a.s]

/-- The wait of the issuing group ends: it goes on at a PC with registers written, and memory is as it was. -/
structure State.GoesOnAt (s u : State) (pc : Word) (ws : List (SReg × Word)) : Prop where
  cur : (s.cur.goOn pc ws).SameStreams u.cur
  mem : u.mem = s.mem

namespace State.GoesOnAt
variable {s t u : State} {pc v : Word} {ws : List (SReg × Word)} {d : SReg}

theorem trans (h : s.GoesOnAt t pc ws) (h' : t.KeepsStreams u) : s.GoesOnAt u pc ws := ⟨h.cur.trans h'.cur, h'.mem.trans h.mem⟩

/-- What the group waited in does not show once its wait has ended. -/
theorem of_wait {w : SWait} (hcur : t.cur = { s.cur with wait := w }) (hmem : t.mem = s.mem) (h : t.GoesOnAt u pc ws) :
    s.GoesOnAt u pc ws := by
  refine ⟨?_, h.mem.trans hmem⟩
  have hon := h.cur
  rw [hcur] at hon
  exact hon

theorem status (h : s.GoesOnAt u pc ws) : u.cur.status = s.cur.status := h.cur.status

theorem wait (h : s.GoesOnAt u pc ws) : u.cur.wait = .none := h.cur.wait

theorem pc_eq (h : s.GoesOnAt u pc ws) : u.cur.s.pc = pc := congrArg SState.pc h.cur.s

theorem l (h : s.GoesOnAt u pc ws) : u.cur.l = s.cur.l := h.cur.l

theorem flags (h : s.GoesOnAt u pc ws) : u.cur.flags = s.cur.flags := h.cur.flags

theorem of_keeps (h : s.KeepsStreams t) (h' : t.GoesOnAt u pc ws) : s.GoesOnAt u pc ws :=
  ⟨(h.cur.goOn pc ws).trans h'.cur, h'.mem.trans h.mem⟩

theorem sameMem (h : s.GoesOnAt u pc ws) : SameMem s u := fun pa => congrArg (Cells.get · pa) h.mem

theorem regs (h : s.GoesOnAt u pc []) : u.cur.s.regs = s.cur.s.regs := (congrArg SState.regs h.cur.s).trans rfl

theorem sget_eq (h : s.GoesOnAt u pc [(d, v)]) (r : SReg) : u.sget r = (s.sput d v).sget r :=
  (congrArg (fun st : SState => st.get r) h.cur.s).trans rfl

theorem sget_same (h : s.GoesOnAt u pc [(d, v)]) (hd : s.cur.sLegal d = true) : u.sget d = if d = 127#7 then 0 else v :=
  (h.sget_eq d).trans (State.sget_sput_same s d v hd)

theorem sget_ne (h : s.GoesOnAt u pc [(d, v)]) {r : SReg} (hr : r ≠ d) : u.sget r = s.sget r :=
  (h.sget_eq r).trans (State.sget_sput_ne s d r v hr)

end State.GoesOnAt

/-- The releases of a round let the issuing group go on where one of them names it (R151). -/
theorem State.GoesOnAt.of_releases {α : Type} {team rank : α → Nat} {w : SWait → Bool} {pc : Word → Word}
    {ws : α → List (SReg × Word)} {s t : State} {l : List α} {vs : List (SReg × Word)} (hcur : s.cur.SameStreams t.cur)
    (hmem : t.mem = s.mem) (hrun : s.cur.status = .run) (hw : w s.cur.wait = true) (hnone : w .none = false)
    (hin : ∃ x ∈ l, team x = s.cur.team ∧ rank x = s.cur.rank) (hws : ∀ x ∈ l, rank x = s.cur.rank → ws x = vs) :
    s.GoesOnAt (t.releases team rank w pc ws l) (pc s.cur.s.pc) vs := by
  refine ⟨?_, (State.releases_same ..).1.trans hmem⟩
  rw [← hcur.s]
  refine (hcur.goOn _ _).trans (State.releases_goOn _ _ _ _ _ (hcur.status.trans hrun) (hcur.wait.symm ▸ hw) hnone ?_ ?_)
  · rwa [hcur.team, hcur.rank]
  · rwa [hcur.rank]

/-! ### Rounds of a team -/

/-- A round stands at its pool entry with the arrival of the issuing group, which waits in it. -/
def State.posted (s : State) (rd : Round) : State :=
  (s.mapTeam s.cur.team fun t => { t with rounds := rd :: t.rounds.filter fun x => x.pool != rd.pool }).mapCur fun g =>
    { g with wait := .round }

/-- The groups of a round meet, and the round is no longer open. -/
def State.metAt (s : State) (team pool : Nat) (ranks : List Nat) : State :=
  (s.meetRound (isRank team ranks)).mapTeam team fun t => { t with rounds := t.rounds.filter fun r => r.pool != pool }

theorem State.metAt_keeps (s : State) (team pool : Nat) (ranks : List Nat) : s.KeepsStreams (s.metAt team pool ranks) :=
  (s.meetRound_keeps _).trans ⟨.refl _, rfl, State.frames_mapTeam _ _ (fun _ => rfl) fun _ => rfl⟩

/-- What the kind of a round does once its groups have met (R150, R151, R158). -/
def State.endRound (s : State) (team : Nat) (rd : Round) (ranks : List Nat) : State :=
  match rd.kind with
  | .bar => (s.releases (fun _ => team) id isRound (· + 4) (fun _ => []) ranks).beginMove team
  | .tcall pc addr => (s.divide team rd.pool rd pc addr ranks).beginMove team
  | .gbar => s
  | k => s.releases (fun _ => team) Prod.fst isRound (· + 4) (fun x => [(x.2.2, voteResult k (rd.arrived.map fun x => x.2.1))]) rd.arrived

/-- The releases of a posted round let the issuing group go on. -/
theorem State.posted_goesOn {α : Type} {rank : α → Nat} {ws : α → List (SReg × Word)} {s : State} {l : List α}
    {vs : List (SReg × Word)} (rd : Round) (ranks : List Nat) (hrun : s.cur.status = .run) (hin : ∃ x ∈ l, rank x = s.cur.rank)
    (hws : ∀ x ∈ l, rank x = s.cur.rank → ws x = vs) :
    s.GoesOnAt (((s.posted rd).metAt s.cur.team rd.pool ranks).releases (fun _ => s.cur.team) rank isRound (· + 4) ws l)
      (s.cur.s.pc + 4) vs := by
  refine .of_wait (t := s.posted rd) rfl rfl ?_
  obtain ⟨x, hx, hrank⟩ := hin
  have hmet := (s.posted rd).metAt_keeps s.cur.team rd.pool ranks
  exact .of_releases hmet.cur hmet.mem hrun rfl rfl ⟨x, hx, rfl, hrank⟩ hws

section
variable {s : State} {t : Team} (ht : s.team? s.cur.team = some t)
include ht

/-- An arrival with which no round was open opens one of its kind. -/
theorem State.arrive_opens {pool : Nat} {k : RoundKind} (v : Word) (d : SReg) (table : List Callee) (sp : Bool)
    (hpool : (s.viewTeam t).poolOf s.cur.rank = pool) (hnone : (t.rounds.find? fun x => x.pool == pool) = none) :
    s.arrive k v d table sp =
      (s.posted ⟨pool, k, [(s.cur.rank, v, d)], s.cur.rank, table, sp⟩).completeRound s.cur.team pool := by
  unfold State.arrive
  simp only [State.viewOf_eq ht, hpool]
  have hview : ((s.viewTeam t).rounds.find? fun x => x.pool == pool) = none := hnone
  have hid : (s.viewTeam t).id = s.cur.team := (State.id_of_team? ht :)
  rw [hview, hid]
  rfl

/-- An arrival at an open round of its kind joins those before it. -/
theorem State.arrive_joins {pool : Nat} {rd : Round} (v : Word) (d : SReg) (table : List Callee) (sp : Bool)
    (hpool : (s.viewTeam t).poolOf s.cur.rank = pool) (hopen : (t.rounds.find? fun x => x.pool == pool) = some rd)
    (hearlier : (rd.arrived.all fun x => x.1 ≠ s.cur.rank) = true) :
    s.arrive rd.kind v d table sp =
      (s.posted { rd with arrived := rd.arrived ++ [(s.cur.rank, v, d)], table := table, sp := sp }).completeRound s.cur.team rd.pool := by
  obtain rfl : rd.pool = pool := beq_iff_eq.mp (List.find?_some (p := fun x : Round => x.pool == pool) hopen)
  unfold State.arrive
  simp only [State.viewOf_eq ht, hpool]
  have hview : ((s.viewTeam t).rounds.find? fun x => x.pool == rd.pool) = some rd := hopen
  have hid : (s.viewTeam t).id = s.cur.team := (State.id_of_team? ht :)
  have hfilter : (rd.arrived.filter fun x => x.1 != s.cur.rank) = rd.arrived :=
    List.filter_eq_self.mpr fun x hx => bne_iff_ne.mpr (of_decide_eq_true (List.all_eq_true.mp hearlier x hx))
  rw [hview, hid]
  simp only [bne_self_eq_false, Bool.false_eq_true, if_false, hfilter]
  rfl

/-- An arrival posts its round, with the arrivals before it (R151). -/
theorem State.arrive_posts {k : RoundKind} {earlier : List (Nat × Word × SReg)} (v : Word) (d : SReg) (table : List Callee) (sp : Bool)
    (hearlier : (earlier.all fun x => x.1 ≠ s.cur.rank) = true)
    (hround : match t.rounds.find? fun x => x.pool == (s.viewTeam t).poolOf s.cur.rank with
      | none => earlier = []
      | some rd => rd.kind = k ∧ rd.arrived = earlier) :
    ∃ rd : Round, rd.pool = (s.viewTeam t).poolOf s.cur.rank ∧ rd.kind = k ∧ rd.arrived = earlier ++ [(s.cur.rank, v, d)] ∧
      s.arrive k v d table sp = (s.posted rd).completeRound s.cur.team rd.pool := by
  split at hround
  · next hnone =>
    subst hround
    exact ⟨_, rfl, rfl, rfl, State.arrive_opens ht v d table sp rfl hnone⟩
  · next rd hopen =>
    obtain ⟨rfl, rfl⟩ := hround
    exact ⟨{ rd with arrived := _, table := table, sp := sp },
      beq_iff_eq.mp (List.find?_some (p := fun x : Round => x.pool == _) (a := rd) hopen), rfl, rfl,
      State.arrive_joins ht v d table sp rfl hopen hearlier⟩

omit ht in
/-- A round at which every participant has arrived ends (R151). -/
theorem State.completeRound_ends {team : Nat} {rd : Round} (ht : s.team? team = some t)
    (hopen : (t.rounds.find? fun r => r.pool == rd.pool) = some rd)
    (hall : ∀ m ∈ (s.viewTeam t).members rd.pool, m ∈ rd.arrived.map Prod.fst) :
    s.completeRound team rd.pool = ((s.metAt team rd.pool ((s.viewTeam t).members rd.pool)).endRound team rd
      ((s.viewTeam t).members rd.pool)).boundary team ((s.viewTeam t).members rd.pool) := by
  have harrived : ¬ (((s.viewTeam t).members rd.pool).any fun r => !(rd.arrived.any fun x => x.1 == r)) = true := by
    rw [Bool.not_eq_true]
    refine List.any_eq_false.mpr fun r hr => ?_
    obtain ⟨x, hx, rfl⟩ := List.mem_map.mp (hall r hr)
    have : (rd.arrived.any fun y => y.1 == x.1) = true := List.any_eq_true.mpr ⟨x, hx, beq_self_eq_true _⟩
    rw [this]
    exact Bool.false_ne_true
  unfold State.completeRound
  rw [ht]
  dsimp only
  rw [hopen]
  exact (if_neg harrived).trans rfl

/-- The team of a group whose arrival is posted. -/
theorem State.posted_team? (rd : Round) :
    (s.posted rd).team? s.cur.team = some { t with rounds := rd :: t.rounds.filter fun x => x.pool != rd.pool } :=
  State.team?_mapTeam_some ht (fun t => { t with rounds := rd :: t.rounds.filter fun x => x.pool != rd.pool }) fun _ => rfl

theorem State.completeRound_posted {rd : Round} (hall : ∀ m ∈ (s.viewTeam t).members rd.pool, m ∈ rd.arrived.map Prod.fst) :
    (s.posted rd).completeRound s.cur.team rd.pool =
      (((s.posted rd).metAt s.cur.team rd.pool ((s.viewTeam t).members rd.pool)).endRound s.cur.team rd
        ((s.viewTeam t).members rd.pool)).boundary s.cur.team ((s.viewTeam t).members rd.pool) :=
  (State.completeRound_ends (State.posted_team? ht rd) (List.find?_cons_of_pos (beq_self_eq_true _)) hall :)

/-! ### The last arrival (R151) -/

variable {k : RoundKind} {earlier : List (Nat × Word × SReg)}
  (hearlier : (earlier.all fun x => x.1 ≠ s.cur.rank) = true)
  (hall : ∀ m ∈ (s.viewTeam t).members ((s.viewTeam t).poolOf s.cur.rank), m = s.cur.rank ∨ m ∈ earlier.map Prod.fst)
  (hround : match t.rounds.find? fun x => x.pool == (s.viewTeam t).poolOf s.cur.rank with
    | none => earlier = []
    | some rd => rd.kind = k ∧ rd.arrived = earlier)
include hearlier hall hround

/-- The last arrival ends its round. -/
theorem State.arrive_ends (v : Word) (d : SReg) (table : List Callee) (sp : Bool) :
    ∃ rd : Round, rd.kind = k ∧ rd.arrived = earlier ++ [(s.cur.rank, v, d)] ∧ rd.pool = (s.viewTeam t).poolOf s.cur.rank ∧
      s.arrive k v d table sp =
        (((s.posted rd).metAt s.cur.team rd.pool ((s.viewTeam t).members rd.pool)).endRound s.cur.team rd
          ((s.viewTeam t).members rd.pool)).boundary s.cur.team ((s.viewTeam t).members rd.pool) := by
  obtain ⟨rd, hpool, hkind, harrived, harrive⟩ := State.arrive_posts ht v d table sp hearlier hround
  refine ⟨rd, hkind, harrived, hpool, harrive.trans (State.completeRound_posted ht fun m hm => ?_)⟩
  rw [hpool] at hm
  rw [harrived, List.map_append, List.mem_append]
  exact (hall m hm).symm.imp_right fun h => by simp [h]

variable (hrun : s.cur.status = .run)
include hrun

/-- At the last arrival of a vote the group goes on with its result (R150). -/
theorem State.arrive_vote (hk : k = .voteAny ∨ k = .voteAll ∨ k = .voteSum) (v : Word) (d : SReg) :
    s.GoesOnAt (s.arrive k v d [] false) (s.cur.s.pc + 4)
      [(d, voteResult k (earlier.map (fun x => x.2.1) ++ [v]))] := by
  obtain ⟨rd, rfl, harrived, -, harrive⟩ := State.arrive_ends ht hearlier hall hround v d [] false
  have hvalues : rd.arrived.map (fun x => x.2.1) = earlier.map (fun x => x.2.1) ++ [v] := by rw [harrived, List.map_append]; rfl
  have hend (m : State) (ranks : List Nat) : m.endRound s.cur.team rd ranks =
      m.releases (fun _ => s.cur.team) Prod.fst isRound (· + 4)
        (fun x => [(x.2.2, voteResult rd.kind (earlier.map (fun x => x.2.1) ++ [v]))]) rd.arrived := by
    unfold State.endRound
    rcases hk with hk | hk | hk <;> rw [hk, hvalues]
  rw [harrive, hend]
  have hmine : (s.cur.rank, v, d) ∈ rd.arrived := harrived ▸ List.mem_append_right _ List.mem_cons_self
  have hon := State.posted_goesOn (rank := Prod.fst) (l := rd.arrived)
    (ws := fun x => [(x.2.2, voteResult rd.kind (earlier.map (fun x => x.2.1) ++ [v]))])
    (vs := [(d, voteResult rd.kind (earlier.map (fun x => x.2.1) ++ [v]))])
    rd ((s.viewTeam t).members rd.pool) hrun ⟨_, hmine, rfl⟩ fun x hx hrank => ?dest
  · exact hon.trans (State.boundary_keeps (hon.status.trans hrun) ..)
  case dest =>
    rw [harrived, List.mem_append, List.mem_singleton] at hx
    rcases hx with hx | rfl
    · exact absurd hrank (of_decide_eq_true (List.all_eq_true.mp hearlier x hx))
    · rfl

/-- At the last arrival of a barrier the group goes on (R151). -/
theorem State.arrive_bar (hmember : s.cur.rank ∈ (s.viewTeam t).members ((s.viewTeam t).poolOf s.cur.rank)) (hk : k = .bar) :
    s.GoesOnAt (s.arrive .bar 0 127 [] false) (s.cur.s.pc + 4) [] := by
  subst hk
  obtain ⟨rd, hkind, -, hpool, harrive⟩ := State.arrive_ends ht hearlier hall hround 0 127 [] false
  rw [← hpool] at hmember
  rw [harrive, State.endRound, hkind]
  have hon := State.posted_goesOn (rank := id) (ws := fun _ => []) rd ((s.viewTeam t).members rd.pool) hrun ⟨_, hmember, rfl⟩
    fun _ _ _ => rfl
  exact hon.trans (State.moveBoundary_keeps (hon.status.trans hrun) ..)

end

/-! ### Rounds of a gang (R151) -/

theorem State.gang?_mapGang (s : State) (id : Nat) {f : Gang → Gang} (hf : ∀ g, (f g).id = g.id) :
    (s.mapGang id f).gang? id = (s.gang? id).map f := find?_mapIf_same (key := Gang.id) hf s.gangs id

/-- The boundaries of some teams. -/
theorem State.boundaries_keep {s : State} (hrun : s.cur.status = .run) (ts : List Team) :
    s.KeepsStreams (ts.foldl (fun s t => s.boundary t.id (ranksOf t.all)) s) := by
  induction ts generalizing s with
  | nil => exact .refl s
  | cons t ts ih =>
    have h := State.boundary_keeps hrun t.id (ranksOf t.all)
    exact h.trans (ih (h.cur.status.trans hrun))

/-- A group waits in a round of its gang, at which it has arrived. -/
def State.postedGbar (s : State) (gang : Nat) (me : Nat × Nat) : State :=
  (s.mapGang gang fun g => { g with arrived := (g.arrived.filter (· != me)) ++ [me] }).mapCur fun g => { g with wait := .gbar }

/-- The groups of a gang as a round of it names them: team and rank. -/
def gangJobs (ts : List Team) : List (Nat × Nat) :=
  ts.flatMap fun t => ((ranksOf t.all).filter fun r => !t.exited.getLsbD r).map fun r => (t.id, r)

/-- The groups of a gang meet, and its round is no longer open. -/
def State.metGang (s : State) (gang : Nat) : State :=
  (s.meetRound fun h => (s.teamOf h).gang == gang && h.status != .exited).mapGang gang fun g => { g with arrived := [] }

theorem State.mapGang_keeps (s : State) (gang : Nat) (f : Gang → Gang) : s.KeepsStreams (s.mapGang gang f) :=
  ⟨.refl _, rfl, fun _ => rfl⟩

theorem State.metGang_keeps (s : State) (gang : Nat) : s.KeepsStreams (s.metGang gang) :=
  (s.meetRound_keeps _).trans (State.mapGang_keeps ..)

/-- A round of a gang at which every group has arrived ends (R151). -/
theorem State.completeGbar_ends {s : State} {gang : Nat} {g : Gang} (hg : s.gang? gang = some g) (hopen : g.arrived ≠ [])
    (hall : ∀ m ∈ s.gangMembers gang, m ∈ g.arrived) :
    s.completeGbar gang = (s.teams.filter fun t => t.gang == gang).foldl (fun s t => s.boundary t.id (ranksOf t.all))
      ((s.metGang gang).releases Prod.fst Prod.snd (· == .gbar) (· + 4) (fun _ => [])
        (gangJobs (s.teams.filter fun t => t.gang == gang))) := by
  have harrived : ¬ (g.arrived.isEmpty || (s.gangMembers gang).any fun x => !g.arrived.contains x) = true := by
    rw [Bool.not_eq_true, Bool.or_eq_false_iff]
    exact ⟨by simpa using hopen, List.any_eq_false.mpr fun x hx => by simp [hall x hx]⟩
  unfold State.completeGbar State.releases gangJobs
  rw [hg, List.foldl_flatMap]
  simp only [List.foldl_map]
  exact (if_neg harrived).trans rfl

/-- At the last arrival of a gang the group goes on (R151). -/
theorem State.completeGbar_last {s : State} {t : Team} {g : Gang} (ht : s.team? s.cur.team = some t) (hg : s.gang? t.gang = some g)
    (hrun : s.cur.status = .run) (hall : ∀ m ∈ s.gangMembers t.gang, m = (t.tid, s.cur.rank) ∨ m ∈ g.arrived)
    (hrank : s.cur.rank ∈ ranksOf t.all) (hexited : t.exited.getLsbD s.cur.rank = false) :
    s.GoesOnAt ((s.postedGbar t.gang (t.tid, s.cur.rank)).completeGbar t.gang) (s.cur.s.pc + 4) [] := by
  let me := (t.tid, s.cur.rank)
  let ts := s.teams.filter fun x => x.gang == t.gang
  have hposted : (s.postedGbar t.gang me).gang? t.gang = some { g with arrived := (g.arrived.filter (· != me)) ++ [me] } :=
    (State.gang?_mapGang s t.gang (f := fun g => { g with arrived := (g.arrived.filter (· != me)) ++ [me] })
      fun _ => rfl).trans (congrArg _ hg)
  have harrived : ∀ x ∈ s.gangMembers t.gang, x ∈ (g.arrived.filter (· != me)) ++ [me] := fun x hx => by
    by_cases hme : x = me
    · simp [hme]
    · simp [hme, (hall x hx).resolve_left hme]
  have hmine : (s.cur.team, s.cur.rank) ∈ gangJobs ts := by
    refine List.mem_flatMap.mpr ⟨t, List.mem_filter.mpr ⟨List.mem_of_find?_eq_some ht, beq_self_eq_true _⟩, ?_⟩
    refine List.mem_map.mpr ⟨s.cur.rank, List.mem_filter.mpr ⟨hrank, by rw [hexited]; rfl⟩, ?_⟩
    rw [State.id_of_team? ht]
  have hmet := (s.postedGbar t.gang me).metGang_keeps t.gang
  have hon : (s.postedGbar t.gang me).GoesOnAt _ (s.cur.s.pc + 4) [] :=
    .of_releases hmet.cur hmet.mem (team := Prod.fst) (rank := Prod.snd) (w := (· == .gbar)) (pc := (· + 4))
      (ws := fun _ => []) (l := gangJobs ts) hrun rfl rfl ⟨_, hmine, rfl, rfl⟩ fun _ _ _ => rfl
  refine .of_wait (t := s.postedGbar t.gang me) rfl rfl ?_
  rw [State.completeGbar_ends hposted (by simp) harrived]
  exact hon.trans (State.boundaries_keep (hon.status.trans hrun) ts)

/-! ### The instructions -/

section
variable {s : State} (hidle : s.cur.lIdle = true) (hframe : FrameHere s) (hbars : s.barsOf s.cur ≠ 0)
include hidle hframe hbars

/-- A vote that may issue arrives at its round (R150, R151). -/
theorem State.tvote_ready {d a : SReg} (hr : SReady s .user [d, a] false) (k : RoundKind) :
    s.tvote k d a = s.joinS.arrive k (s.sget a) d [] false := by
  unfold State.tvote State.joined
  rw [State.sIssue_ready hr, hidle, Bool.not_true, if_neg Bool.false_ne_true, beq_false_of_ne hbars, if_neg Bool.false_ne_true,
    State.withFrame_here hframe]

/-- BAR that may issue arrives at its round (R150, R151). -/
theorem exec_bar_ready (hr : SReady s .user [] false) : exec .bar s = .next (s.joinS.arrive .bar 0 127 [] false) := by
  show execBar s = _
  unfold execBar State.joined
  rw [State.sIssue_ready hr, hidle, Bool.not_true, if_neg Bool.false_ne_true, beq_false_of_ne hbars, if_neg Bool.false_ne_true,
    State.withFrame_here hframe]

end

/-- GBAR that may issue arrives at the round of its gang (R151). -/
theorem exec_gbar_ready {s : State} {t : Team} (ht : s.team? s.cur.team = some t) (hidle : s.cur.lIdle = true)
    (hr : SReady s .user [] false) :
    exec .gbar s = .next ((s.joinS.postedGbar t.gang (t.tid, s.cur.rank)).completeGbar t.gang) := by
  show execGbar s = _
  unfold execGbar State.joined State.teamOf
  rw [State.sIssue_ready hr, hidle, ht]
  rfl

/-! ### The statement -/

theorem bne_zero_eq_decide (x : Word) : (x != 0) = decide (x ≠ 0) := Bool.eq_iff_iff.mpr (by simp)

/-- Settles O8: the last arrival posts a round at which every participant stands, and the releases of its end name the group. -/
theorem lastArrivalsCompleteTheirRound : Obligations.LastArrivalsCompleteTheirRound := by
  unfold Obligations.LastArrivalsCompleteTheirRound
  refine ⟨?team, ?gang⟩
  case team =>
    intro s d a t earlier ht hrun hidle hframe hbars hearlier v hmember hall k hround values completes
    refine ⟨fun hr => ?votes, fun hr hk => ?bar⟩
    case votes =>
      have hvote (i : Instr) (hk : k = .voteAny ∨ k = .voteAll ∨ k = .voteSum) (hi : exec i s = .next (s.tvote k d a)) :
          completes i (voteResult k values) := by
        have hon := State.arrive_vote (s := s.joinS) ht hearlier hall hround hrun hk (s.sget a) d
        exact ⟨_, hi.trans (congrArg _ (State.tvote_ready hidle hframe hbars hr k)), hon.wait, hon.pc_eq,
          hon.sget_same (hr.legal d List.mem_cons_self), fun r hne => hon.sget_ne hne, hon.l, hon.flags, hon.sameMem⟩
      refine ⟨fun hk => ?any, fun hk => ?all, fun hk => ?sum⟩ <;> subst hk
      case any => simpa only [voteResult, bne_zero_eq_decide] using hvote (.tvoteAny d a) (.inl rfl) rfl
      case all => simpa only [voteResult, bne_zero_eq_decide] using hvote (.tvoteAll d a) (.inr (.inl rfl)) rfl
      case sum => exact hvote (.tvoteSum d a) (.inr (.inr rfl)) rfl
    case bar =>
      have hon := State.arrive_bar (s := s.joinS) ht hearlier hall hround hrun hmember hk
      exact ⟨_, exec_bar_ready hidle hframe hbars hr, hon.wait, hon.pc_eq, hon.regs, hon.l, hon.flags, hon.sameMem⟩
  case gang =>
    intro s t g hr ht hg hrun hidle _ hall hrank hexited
    have hon := State.completeGbar_last (s := s.joinS) ht hg hrun hall (List.contains_iff_mem.mp hrank) hexited
    exact ⟨_, exec_gbar_ready ht hidle hr, hon.wait, hon.pc_eq, hon.regs, hon.l, hon.sameMem⟩

end Sys2Proof.Machine
end

section
/-! The end of a group (R154, R318). -/

namespace Sys2Proof.Machine

/-- A gang with no arrival has no round to end. -/
theorem State.completeGbar_closed {s : State} {gang : Nat} {g : Gang} (hg : s.gang? gang = some g) (hclosed : g.arrived = []) :
    s.completeGbar gang = s := by
  unfold State.completeGbar
  rw [hg]
  dsimp only
  rw [hclosed]
  rfl

/-- The group as its exit leaves it: gone, with its register blocks OFF (R154). -/
def Group.gone (g : Group) : Group := { g.leave with blocks := Vector.replicate 32 .off }

/-- A group leaves a team and a gang without open rounds: it is gone, and memory and the machine log stay (R154). -/
theorem State.exitGroup_closed {s : State} {t : Team} {g : Gang} (ht : s.team? s.cur.team = some t) (hg : s.gang? t.gang = some g)
    (hclosed : g.arrived = []) (hrounds : t.rounds = []) :
    s.exitGroup.cur = s.cur.gone ∧ s.exitGroup.mem = s.mem ∧ s.exitGroup.dev.mevt = s.dev.mevt := by
  let left := (s.mapTeam t.id fun t => { t with exited := t.exited ||| (1#16 <<< s.cur.rank) }).mapCur Group.gone
  have hleft : s.exitGroup = left.checkParked (left.gridOf left.cur).ctx := by
    unfold State.exitGroup State.teamOf
    rw [ht]
    dsimp only [Option.getD_some]
    rw [hrounds, List.foldl_nil]
    show (left.completeGbar t.gang).checkParked ((left.completeGbar t.gang).gridOf (left.completeGbar t.gang).cur).ctx = _
    rw [State.completeGbar_closed (s := left) hg hclosed]
  obtain ⟨hcur, hmem, hmevt, -⟩ := left.checkParked_same (left.gridOf left.cur).ctx
  rw [hleft]
  exact ⟨hcur, hmem, hmevt⟩

/-- EXIT and HALT end their group once it has nothing to wait for (R154). -/
theorem State.exitWait_ready {s : State} {t : Team} (ht : s.team? s.cur.team = some t)
    (hframe : (s.viewTeam t).frameOf s.cur.rank = none) (hidle : s.cur.lIdle = true) (hst : s.cur.count .st = 0) (hrounds : t.rounds = [])
    (last : State → State) : s.exitWait last = (last s).exitGroup := by
  have hspills : s.exitSpills (s.viewTeam t) s.cur.rank = false := by
    unfold State.exitSpills
    rw [show (s.viewTeam t).rounds = [] from hrounds]
    rfl
  unfold State.exitWait
  rw [State.viewOf_eq ht, hframe, hspills, hidle, hst]
  rfl

/-- An event of the machine log is counted, and leaves the teams and the gangs (R419). -/
theorem State.logEvent_counts (s : State) (src : Nat) (type : Byte) :
    (s.logEvent src type).dev.mevt = s.dev.mevt + 1 ∧ (s.logEvent src type).teams = s.teams ∧
      (s.logEvent src type).gangs = s.gangs ∧ (s.logEvent src type).cur.team = s.cur.team := by
  unfold State.logEvent
  dsimp only
  split
  · exact ⟨by rw [State.holdIf_dev], State.holdIf_teams .., State.holdIf_gangs .., by rw [State.holdIf_cur]⟩
  · refine ⟨?_, State.holdIf_teams .., State.holdIf_gangs .., ?_⟩
    · show (s.holdIf _).dev.mevt + 1 = _
      rw [State.holdIf_dev]
    · obtain ⟨_, _, hcur⟩ := State.memWrite_cur _ _ _ _
      rw [hcur, State.holdIf_cur]

/-- Settles O10: the group has nothing to wait for and leaves no round behind; HALT counts its event first. -/
theorem exitAndHaltEndTheGroup : Obligations.ExitAndHaltEndTheGroup := by
  unfold Obligations.ExitAndHaltEndTheGroup
  intro s t g ht hg hclosed hrounds hframe hidle hst
  refine ⟨fun hr => ?exit, fun hr => ?halt⟩
  case exit =>
    have hexec : exec .exit s = .next s.exitGroup := by
      show execExit s = _
      rw [execExit, State.sIssue_ready hr, State.exitWait_ready ht hframe hidle hst hrounds]
      rfl
    obtain ⟨hcur, hmem, hmevt⟩ := State.exitGroup_closed ht hg hclosed hrounds
    refine ⟨_, hexec, ?_, ?_, ?_, hmevt, fun pa => congrArg (Cells.get · pa) hmem⟩ <;> rw [hcur] <;> rfl
  case halt =>
    let logged := s.logEvent (s.coreOf s.cur) 1
    have hexec : exec .halt s = .next logged.exitGroup := by
      show execHalt s = _
      rw [execHalt, State.sIssue_ready hr, State.exitWait_ready ht hframe hidle hst hrounds]
    obtain ⟨hcount, hteams, hgangs, hteam⟩ := s.logEvent_counts (s.coreOf s.cur) 1
    have ht' : logged.team? logged.cur.team = some t := by rw [State.team?, hteams, hteam]; exact ht
    have hg' : logged.gang? t.gang = some g := by rw [State.gang?, hgangs]; exact hg
    obtain ⟨hcur, -, hmevt⟩ := State.exitGroup_closed ht' hg' hclosed hrounds
    refine ⟨_, hexec, ?_, ?_, hmevt.trans hcount⟩ <;> rw [hcur] <;> rfl

end Sys2Proof.Machine
end

section
/-! Launches that find room in the pending-launch store (R142 to R146). -/

namespace Sys2Proof.Machine

/-! ### Choices under FREE (R381) -/

section
variable {s t : State} {g : Group} (h : s.isFree g = true)
include h

/-- Under FREE the trail of a group's choice is not in force, or its partition neither records nor replays. -/
theorem State.governs_free {c : Choice} (hpart : c.part = (s.ctxOf g).part) (hctx : c.ctx = (s.ctxOf g).id) :
    s.governs c = false ∨ (s.part c.part).mode = 0 := by
  unfold State.isFree at h
  unfold State.governs
  simp only [Bool.or_eq_true, beq_iff_eq, Bool.not_eq_true'] at h
  rw [hpart, hctx]
  rcases h with (hmode | hlive) | hid
  · exact .inr hmode
  · exact .inl (by rw [hlive]; rfl)
  · exact .inl (by rw [hid, bne_self_eq_false, Bool.and_false])

/-- Under FREE a launch is admitted at once (R382, R384). -/
theorem State.trailAsk_launch (q : Nat) : s.trailAsk (s.launchChoice q g) = .go none := by
  unfold State.trailAsk
  rcases State.governs_free h (c := s.launchChoice q g) rfl rfl with hg | hmode
  · rw [hg]
    rfl
  · simp [hmode]

/-- Under FREE the choice of a launch leaves no record (R384). -/
theorem State.trailMark_launch (hparts : t.parts = s.parts) (q : Nat) : t.trailMark (s.launchChoice q g) none none = t := by
  have hfree : t.governs (s.launchChoice q g) = false ∨ (t.part (s.launchChoice q g).part).mode = 0 := by
    unfold State.governs State.part
    rw [hparts]
    exact State.governs_free h rfl rfl
  unfold State.trailMark
  rcases hfree with hg | hmode
  · rw [hg]
    rfl
  · simp [hmode]

end

/-! ### Launches -/

/-- The issuing group launches a grid: an entry of its quadrant's store takes the record, as the child of its own grid (R145). -/
def State.launchChild (s : State) (rec : LaunchRec) : State :=
  let gr := s.gridOf s.cur
  s.enqueue gr.ctx rec (some gr.id) (gr.depth + 1) s.myQuad (s.coreOf s.cur) false

/-- With room in the store a launch of either kind goes in and reports OK (R145). -/
theorem State.takeLaunch_room {s : State} (hfree : s.isFree s.cur = true) (hroom : s.pendingIn s.myQuad < 64) (wait : Bool) (d : SReg)
    (rec : LaunchRec) : s.takeLaunch wait d rec = ((s.launchChild rec).sput d 0).nextPc 8 := by
  unfold State.takeLaunch
  dsimp only
  cases wait with
  | false => rw [Bool.not_false, if_pos rfl, if_neg (Nat.not_le.mpr hroom)]; rfl
  | true =>
    rw [State.trailAsk_launch hfree]
    dsimp only
    rw [Bool.not_true, if_neg Bool.false_ne_true, if_neg (Nat.not_le.mpr hroom), State.trailMark_launch (t := s.enqueue ..) hfree rfl]
    rfl

/-- A group that may launch reads its record, and a valid one is taken (R145). -/
theorem State.launch_ready {s u : State} {d a : SReg} {bs : List Byte} (hr : SReady s .user [d, a] false)
    (hstores : s.storesBefore false 0 = false) (hframe : FrameHere s) (hgid : (s.viewOf s.cur).gidOf s.cur.rank = 0)
    (hdepth : (s.gridOf s.cur).depth < 10) (hread : s.readRecord (s.sget a) = (.inr bs, u))
    (hvalid : u.launchValid (s.ctxOf s.cur) bs = true) (wait : Bool) : s.launch wait d a = u.takeLaunch wait d (launchOf bs) := by
  unfold State.launch
  rw [State.sIssue_ready hr, hstores, if_neg Bool.false_ne_true, State.withFrame_here hframe, hgid, bne_self_eq_false,
    if_neg Bool.false_ne_true, if_neg (Nat.not_le.mpr hdepth), hread]
  dsimp only
  rw [hvalid, Bool.not_true, if_neg Bool.false_ne_true]

/-- LWAIT goes on where its quadrant's store has room (R144). -/
theorem exec_lwait_room {s : State} (hr : SReady s .user [] false) (hfree : s.isFree s.cur = true) (hroom : s.pendingIn s.myQuad < 64) :
    exec .lwait s = .next (s.nextPc 8) := by
  show execLwait s = _
  unfold execLwait
  rw [State.sIssue_ready hr]
  dsimp only
  rw [State.trailAsk_launch hfree]
  dsimp only
  rw [if_neg (Nat.not_le.mpr hroom), State.trailMark_launch hfree rfl]

/-- Settles O11: the record is read and taken, and under FREE a store with room enqueues it at once. -/
theorem launchesEnqueueOneGrid : Obligations.LaunchesEnqueueOneGrid := by
  unfold Obligations.LaunchesEnqueueOneGrid
  intro s u d a bs q
  refine ⟨fun hr hstores hframe hgid hdepth hread hvalid hcore hgrid hs hfree hroom i hi => ?launch,
    fun hr hfree hroom => exec_lwait_room hr hfree hroom⟩
  have hquad : u.myQuad = q := congrArg quadOf hcore
  have hexec : exec i s = .next (((u.launchChild (launchOf bs)).sput d 0).nextPc 8) := by
    have htake (wait : Bool) := (State.launch_ready hr hstores hframe hgid hdepth hread hvalid wait).trans
      (State.takeLaunch_room hfree (hquad ▸ hroom) wait d (launchOf bs))
    rcases hi with rfl | rfl
    · exact congrArg _ (htake false)
    · exact congrArg _ (htake true)
  have hget (r : SReg) : (((u.launchChild (launchOf bs)).sput d 0).nextPc 8).sget r = (s.sput d 0).sget r :=
    congrArg (fun st : SState => (st.put d 0).get r) hs
  refine ⟨_, _, hexec, rfl, rfl, (congrArg Grid.ctx hgrid :), (congrArg (fun g : Grid => some g.id) hgrid :),
    (congrArg (fun g : Grid => g.depth + 1) hgrid :), rfl, hquad, ?_, fun r hrd => ?_, ?_, fun _ => rfl⟩
  · rw [hget, State.sget_sput_same s d 0 (hr.legal d List.mem_cons_self), ite_self]
  · rw [hget, State.sget_sput_ne s d r 0 hrd]
  · rw [State.nextPc_pc, State.sput_s, SState.put_pc]
    exact congrArg (fun st : SState => st.pc + 8) hs

end Sys2Proof.Machine
end

section
/-! A team-call over one callee, and the return that rejoins its division (R156 to R162). -/

namespace Sys2Proof.Machine

/-! ### Frames that stand in hardware (R160) -/

/-- A team whose frames all stand in hardware shows them as they are. -/
theorem State.viewTeam_here {t : Team} (s : State) (h : ∀ f ∈ t.frames, f.slot = none) : s.viewTeam t = t := by
  have hframes : t.frames.map (fun f => (s.frameAt t f).getD f) = t.frames := by
    refine (List.map_congr_left fun f hf => ?_).trans (List.map_id _)
    rw [State.frameAt, h f hf]
    rfl
  unfold State.viewTeam
  rw [hframes]

theorem State.viewTeam_unframed {t : Team} (s : State) (h : t.frames = []) : s.viewTeam t = t :=
  s.viewTeam_here (by simp [h])

theorem Team.frameOf_unframed {t : Team} (h : t.frames = []) (r : Nat) : t.frameOf r = none := by
  rw [Team.frameOf, h]
  rfl

/-- The first frame of a team stays in hardware. -/
theorem State.addFrame_first {s : State} {team : Nat} {t : Team} (ht : s.team? team = some t) (hframes : t.frames = []) (f : Frame) :
    s.addFrame team f = s.mapTeam team fun t => t.touch f := by
  have hteam : (s.mapTeam team fun t => t.touch f).team? team = some (t.touch f) :=
    State.team?_mapTeam_some ht (fun t => t.touch f) fun _ => rfl
  have hcached : (t.touch f).cached.drop 4 = [] := by
    rw [Team.cached, Team.touch, hframes]
    rfl
  unfold State.addFrame State.trimFrames
  rw [hteam]
  dsimp only
  rw [hcached]

/-! ### The division over one callee (R158, R159) -/

/-- One group goes to the only callee. -/
theorem quotas_one {w : Nat} (hw : w ≠ 0) : quotas 1 [w] = [1] := by
  simp [quotas, Nat.div_self (Nat.pos_of_ne_zero hw)]

theorem State.plan_one {t : Team} {c : Callee} (s : State) (hw : c.weight ≠ 0) (hframes : t.frames = []) :
    s.plan t [c] 1 = ⟨.go, [1], [0], [], []⟩ := by
  simp [State.plan, quotas_one hw, hframes, hw]

/-- The frame of the only sub-team of a division. -/
def onlyFrame (rank pool : Nat) (sp : Bool) (argreg : SReg) (addr ret : Word) : Frame :=
  ⟨0, none, rankMask [rank], BitVec.ofNat 8 pool, 0, 0, 255, 1, sp, argreg, addr, ret⟩

/-- A team takes a division with the frame of its only sub-team. -/
def State.divided (s : State) (team : Nat) (div : Division) (f : Frame) : State :=
  (s.mapTeam team fun t => { t with pool := t.pool ++ [], divs := div :: t.divs }).mapTeam team fun t => t.touch f

/-- The only group of a team that calls one callee enters it, with a frame for its sub-team (R158, R159). -/
theorem State.divide_one {s : State} {team rank : Nat} {t : Team} {c : Callee} (ht : s.team? team = some t) (hframes : t.frames = [])
    (hw : c.weight ≠ 0) (pool : Nat) (kind : RoundKind) (v : Word) (d : SReg) (sp : Bool) (pc addr : Word) :
    ∃ div : Division, s.divide team pool ⟨pool, kind, [(rank, v, d)], rank, [c], sp⟩ pc addr [rank] =
      (s.divided team div (onlyFrame rank pool sp d addr (pc + 8))).releases (fun _ => team) id isRound (fun _ => c.entry)
        (fun _ => [(d, c.arg.signExtend 64)]) [rank] := by
  have hids : ((List.range 36).filter fun i => !(t.frames.any fun f => f.idx == i)).take [0].length = [0] := by
    rw [hframes]
    rfl
  have hfirst : [(rank, v, d)].find? (fun x => x.1 == rank) = some (rank, v, d) := List.find?_cons_of_pos (beq_self_eq_true rank)
  let div : Division := ⟨255, [c], [], [0], [], [], addr, 1, sp⟩
  let called := s.mapTeam team fun t => { t with pool := t.pool ++ [], divs := div :: t.divs }
  have hteam : called.team? team = some { t with pool := t.pool ++ [], divs := div :: t.divs } :=
    State.team?_mapTeam_some ht (fun t => { t with pool := t.pool ++ [], divs := div :: t.divs }) fun _ => rfl
  refine ⟨div, ?_⟩
  unfold State.divide
  rw [ht]
  dsimp only
  rw [List.length_singleton, State.plan_one s hw hframes]
  dsimp only
  rw [State.viewTeam_unframed s hframes, Team.frameOf_unframed hframes, hids, hfirst]
  show (called.addFrame team (onlyFrame rank pool sp d addr (pc + 8))).enterCallee team [rank] isRound d c = _
  rw [State.addFrame_first hteam hframes]
  rfl

/-- The frames of a team that has taken its first division. -/
theorem State.divided_frames {s : State} {team : Nat} {t : Team} (ht : s.team? team = some t) (hframes : t.frames = []) (div : Division)
    {f : Frame} (hslot : f.slot = none) : ((s.divided team div f).team? team).map Team.frames = some [f] := by
  have hf : { f with slot := none } = f := by rw [← hslot]
  have hcalled := State.team?_mapTeam_some ht (fun t => { t with pool := t.pool ++ [], divs := div :: t.divs }) fun _ => rfl
  have hdivided := State.team?_mapTeam_some hcalled (fun t => t.touch f) fun _ => rfl
  rw [State.divided, hdivided]
  simp [Team.touch, hframes, hf]

/-! ### TCALL (R157) -/

section
variable {s u : State} {t : Team} {c : Callee} (hframes : t.frames = []) (hw : c.weight ≠ 0)
  (hmembers : t.members (t.poolOf s.cur.rank) = [s.cur.rank])
include hframes hw hmembers

/-- The call of a group alone in its team takes it into the callee, and one frame records the sub-team (R158 to R160). -/
theorem State.arrive_tcall (ht : s.team? s.cur.team = some t) (hrun : s.cur.status = .run)
    (hnone : (t.rounds.find? fun x => x.pool == t.poolOf s.cur.rank) = none) (pc addr : Word) (d : SReg) (sp : Bool) :
    s.GoesOnAt (s.arrive (.tcall pc addr) 0 d [c] sp) c.entry [(d, c.arg.signExtend 64)] ∧
      ((s.arrive (.tcall pc addr) 0 d [c] sp).team? s.cur.team).map Team.frames =
        some [onlyFrame s.cur.rank (t.poolOf s.cur.rank) sp d addr (pc + 8)] := by
  let pool := t.poolOf s.cur.rank
  let rd : Round := ⟨pool, .tcall pc addr, [(s.cur.rank, 0, d)], s.cur.rank, [c], sp⟩
  let m := (s.posted rd).metAt s.cur.team pool [s.cur.rank]
  have hview : s.viewTeam t = t := s.viewTeam_unframed hframes
  have hranks : (s.viewTeam t).members pool = [s.cur.rank] := by rw [hview]; exact hmembers
  have harrive : s.arrive (.tcall pc addr) 0 d [c] sp = (m.endRound s.cur.team rd [s.cur.rank]).boundary s.cur.team [s.cur.rank] := by
    rw [State.arrive_opens ht 0 d [c] sp (congrArg (Team.poolOf · _) hview) hnone]
    refine (State.completeRound_posted ht (rd := rd) ?_).trans ?_
    · rw [hranks]
      exact fun r hr => hr
    · rw [hranks]
  have hmet : (s.posted rd).KeepsStreams m := State.metAt_keeps ..
  have hunframed : (m.team? s.cur.team).map Team.frames = some [] := by
    rw [hmet.frames, State.posted_team? ht]
    exact congrArg some hframes
  obtain ⟨tm, htm, htmframes⟩ := Option.map_eq_some_iff.mp hunframed
  obtain ⟨div, hdivide⟩ := State.divide_one (rank := s.cur.rank) htm htmframes hw pool (.tcall pc addr) 0 d sp pc addr
  let divided := m.divided s.cur.team div (onlyFrame s.cur.rank pool sp d addr (pc + 8))
  have hentered : s.GoesOnAt (m.divide s.cur.team pool rd pc addr [s.cur.rank]) c.entry [(d, c.arg.signExtend 64)] := by
    rw [hdivide]
    refine .of_wait (t := s.posted rd) rfl rfl ?_
    exact .of_releases (t := divided) (pc := fun _ => c.entry) hmet.cur hmet.mem hrun rfl rfl ⟨_, List.mem_cons_self, rfl, rfl⟩
      fun _ _ _ => rfl
  have hend := State.moveBoundary_keeps (hentered.status.trans hrun) s.cur.team [s.cur.rank]
  rw [harrive]
  refine ⟨hentered.trans hend, (hend.frames _).trans ?_⟩
  rw [hdivide, State.team?, (State.releases_same ..).2]
  exact State.divided_frames htm htmframes div rfl

/-- A TCALL of one group, whose table has one entry, arrives at its round: its division spills no frame (R157, R187). -/
theorem exec_tcall_alone {d a : SReg} {sp : Bool} (ht : s.team? s.cur.team = some t) (hidle : s.cur.lIdle = true)
    (hr : SReady s .user [d, a] false) (hbars : s.barsOf s.cur ≠ 0) (hcur : u.cur = s.joinS.cur) (hteams : u.teams = s.teams)
    (hread : State.readTable sp 1 (s.sget a) [] s.joinS = .got [c] u) :
    exec (.tcall d a 1 sp) s = .next (u.arrive (.tcall s.cur.s.pc (s.sget a)) 0 d [c] sp) := by
  have hhere : FrameHere s := fun f hf => by
    rw [State.viewOf_eq ht, State.viewTeam_unframed s hframes, Team.frameOf_unframed hframes] at hf
    cases hf
  have htu : u.team? u.cur.team = some t := by rw [State.team?, hteams, hcur]; exact ht
  have hview : u.viewOf u.cur = t := (State.viewOf_eq htu).trans (u.viewTeam_unframed hframes)
  have hrank : u.cur.rank = s.cur.rank := by rw [hcur]; rfl
  have hspill : u.spillWaits t [c] 1 = false := by
    rw [State.spillWaits, State.plan_one u hw hframes, Team.cached, hframes]
    rfl
  show execTcall d a 1 sp s = _
  unfold execTcall State.joined
  rw [State.sIssue_ready hr, hidle, Bool.not_true, if_neg Bool.false_ne_true, beq_false_of_ne hbars, if_neg Bool.false_ne_true,
    State.withFrame_here hhere]
  dsimp only
  rw [show (1 : BitVec 4).toNat = 1 from rfl, hread]
  dsimp only
  rw [hview, hrank, hmembers, List.length_singleton, hspill, Bool.and_false, if_neg Bool.false_ne_true]

end

/-! ### TRET (R161, R162) -/

/-- The ranks of a mask that have executed TRET leave none to wait for, where the mask is that of the last. -/
theorem rankMask_last (l : List Nat) (r : Nat) (e : BitVec 16) : (1#16 <<< r) &&& ~~~rankMask (l ++ [r]) &&& e = 0 := by
  have hmask : rankMask (l ++ [r]) = rankMask l ||| (1#16 <<< r) := by simp [rankMask]
  rw [hmask, BitVec.not_or, BitVec.and_comm (~~~rankMask l), ← BitVec.and_assoc, BitVec.and_not_self]
  simp

/-- A sub-team that finishes last, with no callee left, rejoins its division (R162). -/
theorem State.finishSub_last {s : State} {d : Division} {f : Frame} (hdeferred : d.deferred = []) (hlast : d.frames = [f.idx])
    (team : Nat) : s.finishSub team d f =
      ((s.meetRound (isRank team (ranksOf f.mask))).mapDiv team f.idx fun x => { x with finished := d.finished ++ [f.idx] }).rejoin team
        { d with finished := d.finished ++ [f.idx] } f.ret := by
  have htakes (free : Bool) : d.takes free f = none := by
    rw [Division.takes, hdeferred]
    rfl
  have hall : (d.frames.all ((d.finished ++ [f.idx]).contains ·)) = true := by simp [hlast]
  unfold State.finishSub
  dsimp only
  rw [htakes]
  exact if_pos hall

/-- The groups of a division meet, and its frames, its division and the barriers that it freed are gone. -/
def State.undivided (s : State) (team : Nat) (ranks : List Nat) (d : Division) (freed : List Nat) : State :=
  (s.meetRound (isRank team ranks)).mapTeam team fun t => { t with
    frames := t.frames.filter fun f => !d.frames.contains f.idx
    pool := t.pool.filter fun b => !freed.contains b
    divs := t.divs.filter fun x => x.frames != d.frames }

theorem State.undivided_frames {s : State} {team : Nat} {t : Team} (ht : s.team? team = some t) (ranks : List Nat) (d : Division)
    (freed : List Nat) :
    ((s.undivided team ranks d freed).team? team).map Team.frames = some (t.frames.filter fun f => !d.frames.contains f.idx) := by
  have hmet : (s.meetRound (isRank team ranks)).team? team = some t := ht
  exact congrArg (Option.map Team.frames) (State.team?_mapTeam_some hmet (fun t => { t with
    frames := t.frames.filter fun f => !d.frames.contains f.idx
    pool := t.pool.filter fun b => !freed.contains b
    divs := t.divs.filter fun x => x.frames != d.frames }) fun _ => rfl)

/-- The groups of a division whose only frame is the innermost of the issuing group rejoin past their call, and the frame is gone
(R162). -/
theorem State.rejoin_one {s : State} {team : Nat} {t : Team} {d : Division} {f : Frame} (hteam : s.cur.team = team)
    (ht : s.team? team = some t) (hframes : t.frames = [f]) (hslot : f.slot = none) (hlast : d.frames = [f.idx])
    (hmask : f.mask.getLsbD s.cur.rank = true) (hrank : s.cur.rank ∈ ranksOf t.all) (hrun : s.cur.status = .run)
    (hwait : s.cur.wait = .tret) (ret : Word) :
    s.GoesOnAt (s.rejoin team d ret) ret [(0, 0)] ∧ ((s.rejoin team d ret).team? team).map Team.frames = some [] := by
  subst hteam
  let ranks := (ranksOf t.all).filter fun r => [f].any fun x => x.mask.getLsbD r
  have hmine : ((s.viewTeam t).frames.filter fun f => d.frames.contains f.idx) = [f] := by
    rw [State.viewTeam_here s (by simp [hframes, hslot]), hframes, hlast]
    simp
  obtain ⟨freed, hrejoin⟩ : ∃ freed, s.rejoin s.cur.team d ret =
      (((s.undivided s.cur.team ranks d freed).releases (fun _ => s.cur.team) id (· == .tret) (fun _ => ret) (fun _ => [(0, 0)])
        ranks).beginMove s.cur.team).boundary s.cur.team ranks := by
    unfold State.rejoin
    rw [ht]
    dsimp only
    rw [hmine]
    exact ⟨_, rfl⟩
  let rejoined := (s.undivided s.cur.team ranks d freed).releases (fun _ => s.cur.team) id (· == .tret) (fun _ => ret)
    (fun _ => [(0, 0)]) ranks
  have hmet := s.meetRound_keeps (isRank s.cur.team ranks)
  have hmember : s.cur.rank ∈ ranks := List.mem_filter.mpr ⟨hrank, by simpa using hmask⟩
  have hon : s.GoesOnAt rejoined ret [(0, 0)] :=
    .of_releases (t := s.undivided s.cur.team ranks d freed) (pc := fun _ => ret) hmet.cur hmet.mem hrun (by rw [hwait]; rfl) rfl
      ⟨_, hmember, rfl, rfl⟩ fun _ _ _ => rfl
  have hgone : (rejoined.team? s.cur.team).map Team.frames = some [] := by
    rw [State.team?, (State.releases_same ..).2]
    refine (State.undivided_frames ht ranks d freed).trans ?_
    simp [hframes, hlast]
  have hend := State.moveBoundary_keeps (hon.status.trans hrun) s.cur.team ranks
  rw [hrejoin]
  exact ⟨hon.trans hend, (hend.frames _).trans hgone⟩

/-- What stands between a TRET and the end of its sub-team: its frame is the latest used, its rank has executed TRET, and it waits. -/
def State.returning (s : State) (team : Nat) (f : Frame) (order : List Nat) : State :=
  ((s.mapTeam team fun t => t.touch f).mapDiv team f.idx fun x => { x with order := order }).mapCur fun g => { g with wait := .tret }

/-- A change of a division leaves the frames and the groups of its team. -/
theorem State.team?_mapDiv {s : State} {id : Nat} {t : Team} (ht : s.team? id = some t) (frame : Nat) (f : Division → Division) :
    ∃ t', (s.mapDiv id frame f).team? id = some t' ∧ t'.frames = t.frames ∧ t'.all = t.all :=
  ⟨_, State.team?_mapTeam_some ht (fun t => { t with divs := mapIf t.divs (fun d => d.frames.contains frame) f }) fun _ => rfl,
    rfl, rfl⟩

theorem State.mapDiv_keeps (s : State) (team frame : Nat) (f : Division → Division) : s.KeepsStreams (s.mapDiv team frame f) :=
  ⟨.refl _, rfl, State.frames_mapTeam _ _ (fun _ => rfl) fun _ => rfl⟩

section
variable {s : State} {t : Team} {f : Frame} {dv : Division} (ht : s.team? s.cur.team = some t) (hframes : t.frames = [f])
  (hslot : f.slot = none) (hlast : dv.frames = [f.idx]) (hmask : f.mask = 1#16 <<< s.cur.rank)
include ht hframes hslot hlast hmask

/-- A TRET by the one group of the only sub-team of a division finishes that sub-team (R161). -/
theorem exec_tret_only (hidle : s.cur.lIdle = true) (hr : SReady s .user [] false) (hmine : t.frameOf s.cur.rank = some f)
    (hdivs : t.divs = [dv]) (htable : dv.addr = f.addr ∧ dv.n = f.n ∧ dv.sp = f.sp ∧ dv.table.length = f.n.toNat) :
    exec .tret s = .next ((s.joinS.returning s.cur.team f (dv.order ++ [s.cur.rank])).finishSub s.cur.team dv f) := by
  have hview : s.viewOf s.cur = t := (State.viewOf_eq ht).trans (s.viewTeam_here (by simp [hframes, hslot]))
  have hhere : FrameHere s := fun x hx => by
    rw [hview, hmine, Option.some.injEq] at hx
    rw [← hx, hslot]
  have hdiv : (t.divs.find? fun d => d.frames.contains f.idx) = some dv := by simp [hdivs, hlast]
  have hdone : (f.mask &&& ~~~rankMask (dv.order ++ [s.cur.rank]) &&& ~~~t.exited == 0) = true := by
    rw [hmask, rankMask_last]
    rfl
  have hspilled : (t.frames.any fun x => dv.frames.contains x.idx && x.slot.isSome) = false := by simp [hframes, hslot]
  have hread : s.joinS.divisionOf dv f = .got dv s.joinS := by
    obtain ⟨haddr, hn, hsp, hlen⟩ := htable
    simp [State.divisionOf, haddr, hn, hsp, hlen]
  have hbad : s.joinS.matesBad s.cur.team dv f = false := by
    have hteam : s.joinS.team? s.cur.team = some t := ht
    simp [State.matesBad, hteam, hframes, State.frameAt, hslot]
  show execTret s = _
  unfold execTret State.joined
  rw [State.sIssue_ready hr, hidle, Bool.not_true, if_neg Bool.false_ne_true, State.withFrame_here hhere, hview]
  dsimp only
  rw [hmine]
  dsimp only
  rw [hdiv, Option.getD_some, if_pos hdone, hspilled, Bool.false_and, if_neg Bool.false_ne_true, hread]
  dsimp only
  rw [State.id_of_team? ht, hbad, if_neg Bool.false_ne_true]
  rfl

/-- The sub-team that finishes is the only one: the group goes on past its call with status 0 (R162). -/
theorem State.returning_goesOn (hdeferred : dv.deferred = []) (hrun : s.cur.status = .run) (hrank : s.cur.rank ∈ ranksOf t.all)
    (order : List Nat) :
    s.GoesOnAt ((s.returning s.cur.team f order).finishSub s.cur.team dv f) f.ret [(0, 0)] ∧
      (((s.returning s.cur.team f order).finishSub s.cur.team dv f).team? s.cur.team).map Team.frames = some [] := by
  let r := s.returning s.cur.team f order
  let finished := dv.finished ++ [f.idx]
  let m := (r.meetRound (isRank s.cur.team (ranksOf f.mask))).mapDiv s.cur.team f.idx fun x => { x with finished := finished }
  have hmet : r.KeepsStreams m := (r.meetRound_keeps _).trans (State.mapDiv_keeps ..)
  have htouched : (t.touch f).frames = [f] := by
    have hf : { f with slot := none } = f := by rw [← hslot]
    simp [Team.touch, hframes, hf]
  obtain ⟨t₁, ht₁, hframes₁, hall₁⟩ := State.team?_mapDiv (State.team?_mapTeam_some ht (fun t => t.touch f) fun _ => rfl) f.idx
    fun x => { x with order := order }
  obtain ⟨t₂, ht₂, hframes₂, hall₂⟩ := State.team?_mapDiv (s := r.meetRound (isRank s.cur.team (ranksOf f.mask))) ht₁ f.idx
    fun x => { x with finished := finished }
  have hbit : f.mask.getLsbD s.cur.rank = true := by
    have : s.cur.rank < 16 := List.mem_range.mp (List.mem_filter.mp hrank).1
    simp [hmask, this]
  have hrank₂ : s.cur.rank ∈ ranksOf t₂.all := by
    rw [hall₂, hall₁]
    exact hrank
  obtain ⟨hon, hgone⟩ := State.rejoin_one (team := s.cur.team) (d := { dv with finished := finished }) hmet.cur.team ht₂
    ((hframes₂.trans hframes₁).trans htouched) hslot hlast (by rw [hmet.cur.rank]; exact hbit) (by rw [hmet.cur.rank]; exact hrank₂)
    (hmet.cur.status.trans hrun) hmet.cur.wait f.ret
  rw [State.finishSub_last hdeferred hlast s.cur.team]
  exact ⟨.of_wait (t := r) rfl rfl (.of_keeps hmet hon), hgone⟩

end

/-! ### The statement -/

/-- Settles O9: the arrival of the only group divides its team over the callee; its TRET finishes the only sub-team. -/
theorem teamCallsEnterAndReturn : Obligations.TeamCallsEnterAndReturn := by
  unfold Obligations.TeamCallsEnterAndReturn
  intro s t ht hrun hidle hmember
  refine ⟨fun d a sp c u hr hbars hread hcur hteams hw hmembers hnone hframes hd => ?call,
    fun f dv hr hframes hslot hmine hdivs hlast hdeferred _ haddr hn hsp hlen hmask _ _ => ?back⟩
  case call =>
    have hexec := exec_tcall_alone hframes hw hmembers ht hidle hr hbars hcur hteams hread
    have htu : u.team? u.cur.team = some t := by rw [State.team?, hteams, hcur]; exact ht
    have hrank : u.cur.rank = s.cur.rank := by rw [hcur]; rfl
    obtain ⟨hon, hframe⟩ := State.arrive_tcall hframes hw (hrank ▸ hmembers) htu (by rw [hcur]; exact hrun) (hrank ▸ hnone)
      s.cur.s.pc (s.sget a) d sp
    have hlegal : u.cur.sLegal d = true := by rw [hcur]; exact hr.legal d List.mem_cons_self
    have hget (r : SReg) : u.sget r = s.sget r := by rw [State.sget, hcur]; rfl
    have hteam : u.cur.team = t.id := by rw [hcur, State.id_of_team? ht]; rfl
    rw [hteam] at hframe
    refine ⟨_, hexec, hon.wait, hon.pc_eq, (hon.sget_same hlegal).trans (if_neg hd),
      fun r hne => (hon.sget_ne hne).trans (hget r), ?_, ⟨_, hframe, ?_, rfl, rfl⟩, hon.sameMem⟩
    · rw [hon.l, hcur]
      rfl
    · rw [← hrank]
      exact BitVec.zero_or
  case back =>
    have hexec := exec_tret_only ht hframes hslot hlast hmask hidle hr hmine hdivs ⟨haddr, hn, hsp, hlen⟩
    have hrank : s.cur.rank ∈ ranksOf t.all := (List.mem_filter.mp hmember).1
    obtain ⟨hon, hgone⟩ := State.returning_goesOn (s := s.joinS) ht hframes hslot hlast hmask hdeferred hrun hrank
      (dv.order ++ [s.cur.rank])
    rw [State.id_of_team? ht]
    exact ⟨_, hexec, hon.wait, hon.pc_eq, hon.sget_same rfl, fun r hne => hon.sget_ne hne, hon.l, hgone, hon.sameMem⟩

end Sys2Proof.Machine
end

section
/-! What a read or a write that the device makes for a context leaves, and the mail of a context (R237, R242, R371). -/

namespace Sys2Proof.Machine

/-! ### What a translation leaves -/

/-- A part of the state that no access of a context changes: neither the mark of a wait, nor the memory with what a write of it
updates, nor the state of a core, nor the TLBs of the quadrants. -/
structure State.Untouched {β : Type} (p : State → β) : Prop where
  holdIf : ∀ s h, p (s.holdIf h) = p s
  memWrite : ∀ s w pa bs, p (s.memWrite w pa bs) = p s
  mapCore : ∀ s k f, p (s.mapCore k f) = p s
  qtlbs : ∀ (s : State) q, p { s with qtlbs := q } = p s

namespace State.Untouched

variable {β : Type} {p : State → β} (hp : State.Untouched p)
include hp

theorem orEntry (s : State) (ea bits : Nat) : p (s.orEntry ea bits) = p s := by
  unfold State.orEntry
  dsimp only
  split
  · rfl
  · exact hp.memWrite ..

theorem setAD (s : State) (path : List Nat) (leaf : Nat) (d : Bool) : p (s.setAD path leaf d) = p s := by
  have hpath := foldl_keeps (f := fun s ea => State.orEntry s ea 8) (p := p) (fun s ea => hp.orEntry s ea 8) path s
  cases d with
  | false => exact hpath
  | true => exact (hp.orEntry ..).trans hpath

theorem usedEntry (s : State) (core : Nat) (e : TlbEntry) (dirty : Bool) : p (s.usedEntry core e dirty) = p s :=
  (hp.qtlbs ..).trans (hp.mapCore ..)

theorem translateHeld (s : State) (core : Nat) (c : Ctx) (e : TlbEntry) (kind : AccessKind) (va : Word) :
    p (s.translateHeld core c e kind va).st = p s := by
  have hset (h : Bool) : p ((s.holdIf h).setAD e.path e.leaf (kind.writes && !e.dirty)) = p s :=
    (hp.setAD ..).trans (hp.holdIf ..)
  unfold State.translateHeld
  split
  · rfl
  · split
    · rfl
    · dsimp only
      split
      · rfl
      · dsimp only
        split
        · exact (hp.usedEntry ..).trans (hset _)
        · exact hset _

theorem translateWalk (s : State) (core : Nat) (c : Ctx) (kind : AccessKind) (va : Word) :
    p (s.translateWalk core c kind va).st = p s := by
  unfold State.translateWalk
  split
  · rfl
  · split
    · rfl
    · dsimp only
      split
      · rfl
      · split
        · rfl
        · exact (hp.qtlbs ..).trans ((hp.mapCore ..).trans (hp.setAD ..))

theorem translate (s : State) (core : Nat) (c : Ctx) (lvl : Level) (kind : AccessKind) (va : Word) :
    p (s.translate core c lvl kind va).st = p s := by
  unfold State.translate
  split
  · rfl
  · split
    · exact hp.translateHeld ..
    · split
      · exact (hp.translateHeld ..).trans (hp.mapCore ..)
      · exact hp.translateWalk ..

/-! ### What an access leaves -/

theorem ctxPa (s : State) (core : Nat) (c : Ctx) (lvl : Level) (kind : AccessKind) (va : Word) :
    p (s.ctxPa core c lvl kind va).st = p s := by
  have ht (h : Bool) : p ((s.holdIf h).translate core c lvl kind va).st = p s := (hp.translate ..).trans (hp.holdIf ..)
  unfold State.ctxPa
  dsimp only
  split
  · exact ht _
  · exact (hp.holdIf ..).trans (ht _)

theorem ctxRead (s : State) (core : Nat) (c : Ctx) (lvl : Level) (kind : AccessKind) (va : Word) (n : Nat) :
    p (s.ctxRead core c lvl kind va n).2 = p s := by
  unfold State.ctxRead
  dsimp only
  split
  · exact hp.ctxPa ..
  · split <;> exact hp.ctxPa ..

theorem ctxWrite (s : State) (core : Nat) (c : Ctx) (lvl : Level) (va : Word) (bs : List Byte) :
    p (s.ctxWrite core c lvl va bs).2 = p s := by
  unfold State.ctxWrite State.ctxWriteAs
  dsimp only
  split
  · exact hp.ctxPa ..
  · split
    · exact hp.ctxPa ..
    · exact (hp.memWrite ..).trans (hp.ctxPa ..)

/-- Mail leaves what accesses leave, and what a change of the counts of its context leaves (R371). -/
theorem mail (hdrop : ∀ s id, p (s.mapCtx id Ctx.dropMail) = p s)
    (hmsix : ∀ (s : State) id, p (s.mapCtx id fun c => { c with msix := c.msix + 1 }) = p s)
    (s : State) (core ctx : Nat) (type : Byte) (payload : List Byte) : p (s.mail core ctx type payload) = p s := by
  unfold State.mail
  split
  · rfl
  · dsimp only
    split
    · exact hp.ctxRead ..
    · split
      · exact hp.ctxRead ..
      · split
        · exact hp.ctxRead ..
        · split
          · exact (hdrop ..).trans (hp.ctxRead ..)
          · split
            · exact (hp.ctxWrite ..).trans (hp.ctxRead ..)
            · exact (hmsix ..).trans ((hp.ctxWrite ..).trans ((hp.ctxWrite ..).trans (hp.ctxRead ..)))

end State.Untouched

/-! ### What mail leaves -/

/-- What bivouac asks of a context: its name, its world and its challenge (R376). -/
def Ctx.trust (c : Ctx) : Nat × Byte × Option (List Byte) := (c.id, c.world, c.challenge)

/-- What bivouac works on: the device registers, the worlds, the flows, and its part of each context (R376, R415). -/
def State.trust (s : State) : Dev × List World × List Flow × List (Nat × Byte × Option (List Byte)) :=
  (s.dev, s.worlds, s.flows, s.ctxs.map Ctx.trust)

theorem State.trust_mapCtx {f : Ctx → Ctx} (hf : ∀ c, (f c).trust = c.trust) (s : State) (id : Nat) :
    (s.mapCtx id f).trust = s.trust := by
  have hctxs : (mapIf s.ctxs (fun c => c.id == id) f).map Ctx.trust = s.ctxs.map Ctx.trust := by
    rw [mapIf, List.map_map]
    refine List.map_congr_left fun c _ => ?_
    rw [Function.comp_apply]
    split
    · exact hf c
    · rfl
  exact congrArg (fun l => (s.dev, s.worlds, s.flows, l)) hctxs

theorem State.trust_untouched : State.Untouched State.trust where
  holdIf s h := by cases h <;> rfl
  memWrite _ _ _ _ := rfl
  mapCore _ _ _ := rfl
  qtlbs _ _ := rfl

theorem State.mail_trust (s : State) (core ctx : Nat) (type : Byte) (payload : List Byte) :
    (s.mail core ctx type payload).trust = s.trust :=
  State.trust_untouched.mail (State.trust_mapCtx (f := Ctx.dropMail) fun _ => rfl)
    (State.trust_mapCtx (f := fun c => { c with msix := c.msix + 1 }) fun _ => rfl) ..

end Sys2Proof.Machine
end

section
/-! Bivouac: the commands of BIVCMD and the challenges of the protected contexts (R376, R415). -/

namespace Sys2Proof.Machine

/-! ### Challenges (R376) -/

/-- What challenges of the contexts of some names do: each of these has a challenge, none is lost, and the rest of what bivouac
works on stays. -/
structure State.Challenges (ids : List Nat) (s t : State) : Prop where
  dev : t.dev = s.dev
  worlds : t.worlds = s.worlds
  flows : t.flows = s.flows
  ctxs : ∀ d ∈ t.ctxs, ∃ c ∈ s.ctxs, d.id = c.id ∧ d.world = c.world ∧
    (c.challenge.isSome = true ∨ c.id ∈ ids → d.challenge.isSome = true)

namespace State.Challenges

theorem of_trust {s t : State} (h : t.trust = s.trust) : State.Challenges [] s t := by
  obtain ⟨hdev, hworlds, hflows, hctxs⟩ : t.dev = s.dev ∧ t.worlds = s.worlds ∧ t.flows = s.flows ∧
      t.ctxs.map Ctx.trust = s.ctxs.map Ctx.trust := by
    simpa only [State.trust, Prod.mk.injEq] using h
  refine ⟨hdev, hworlds, hflows, fun d hd => ?_⟩
  obtain ⟨c, hc, hcd⟩ := List.mem_map.mp (hctxs ▸ List.mem_map_of_mem hd)
  obtain ⟨hid, hworld, hchallenge⟩ : c.id = d.id ∧ c.world = d.world ∧ c.challenge = d.challenge := by
    simpa only [Ctx.trust, Prod.mk.injEq] using hcd
  refine ⟨c, hc, hid.symm, hworld.symm, fun h => ?_⟩
  rw [← hchallenge]
  exact h.resolve_right List.not_mem_nil

theorem trans {is js : List Nat} {s t u : State} (h : State.Challenges is s t) (h' : State.Challenges js t u) :
    State.Challenges (is ++ js) s u where
  dev := h'.dev.trans h.dev
  worlds := h'.worlds.trans h.worlds
  flows := h'.flows.trans h.flows
  ctxs e he := by
    obtain ⟨d, hd, hid', hworld', hsome'⟩ := h'.ctxs e he
    obtain ⟨c, hc, hid, hworld, hsome⟩ := h.ctxs d hd
    refine ⟨c, hc, hid'.trans hid, hworld'.trans hworld, fun hor => ?_⟩
    rw [List.mem_append] at hor
    rcases hor with hold | his | hjs
    · exact hsome' (.inl (hsome (.inl hold)))
    · exact hsome' (.inl (hsome (.inr his)))
    · exact hsome' (.inr (hid ▸ hjs))

end State.Challenges

theorem State.setChallenge_challenges (s : State) (id : Nat) (b : List Byte) :
    State.Challenges [id] s (s.bump.mapCtx id fun c => { c with challenge := some b }) := by
  refine ⟨rfl, rfl, rfl, fun d hd => ?_⟩
  obtain ⟨c, hc, rfl⟩ := List.mem_map.mp hd
  refine ⟨c, hc, ?_⟩
  split
  · exact ⟨rfl, rfl, fun _ => rfl⟩
  · next hne => exact ⟨rfl, rfl, fun h => h.resolve_right fun hid => hne (beq_iff_eq.mpr (List.mem_singleton.mp hid))⟩

theorem State.challengeCtx_challenges (s : State) (id : Nat) : State.Challenges [id] s (s.challengeCtx id) :=
  (s.setChallenge_challenges id _).trans (.of_trust (State.mail_trust ..))

theorem State.challengeAll_challenges (ids : List Nat) (s : State) :
    State.Challenges ids s (ids.foldl State.challengeCtx s) := by
  induction ids generalizing s with
  | nil => exact .of_trust rfl
  | cons id ids ih => exact (s.challengeCtx_challenges id).trans (ih _)

theorem State.mem_protectedCtxs {s : State} {c : Ctx} (hc : c ∈ s.ctxs) (hid : c.id ≠ 0) (hworld : c.world ≠ 0) :
    c.id ∈ s.protectedCtxs :=
  List.mem_map_of_mem (List.mem_filter.mpr ⟨hc, by simpa [hid] using hworld⟩)

/-- After the challenges of a wake every protected context has one. -/
theorem State.Challenges.of_protected {s t : State} (h : State.Challenges s.protectedCtxs s t) {d : Ctx} (hd : d ∈ t.ctxs)
    (hid : d.id ≠ 0) (hworld : d.world ≠ 0) : d.challenge.isSome = true := by
  obtain ⟨c, hc, hid', hworld', hsome⟩ := h.ctxs d hd
  exact hsome (.inr (State.mem_protectedCtxs hc (hid' ▸ hid) (hworld' ▸ hworld)))

/-! ### The commands of BIVCMD (R415) -/

/-- The state with a value in BIVCMD. -/
def State.setBivcmd (s : State) (v : Word) : State := { s with dev := { s.dev with bivcmd := v } }

theorem State.contextsBusy_iff (s : State) :
    s.contextsBusy = true ↔ ∃ c ∈ s.ctxs, c.id ≠ 0 ∧ c.st ≠ .halted ∧ c.st ≠ .empty := by
  simp [State.contextsBusy, and_assoc]

theorem State.contextsBusy_eq_false {s : State} (h : ∀ c ∈ s.ctxs, c.id ≠ 0 → c.st = .halted ∨ c.st = .empty) :
    s.contextsBusy = false := by
  rw [Bool.eq_false_iff, Ne, State.contextsBusy_iff]
  rintro ⟨c, hc, hid, hhalted, hempty⟩
  exact (h c hc hid).elim hhalted hempty

theorem exec_bivouacEnter_idle {s : State} (hboot : s.dev.boot = .ready) (hbiv : s.dev.biv = .awake)
    (hidle : s.contextsBusy = false) : exec .bivouacEnter s = .next (s.bivEnter.setBivcmd 1) := by
  show Host.Outcome.next (s.writeBivcmd _) = _
  simp [State.writeBivcmd, State.enterCmd, State.setBivcmd, fields, hboot, hbiv, hidle]

theorem exec_bivouacEnter_busy {s : State} (hboot : s.dev.boot = .ready) (hbiv : s.dev.biv = .awake)
    (hbusy : s.contextsBusy = true) : exec .bivouacEnter s = .next (s.setBivcmd (BitVec.ofNat 64 (2 * 2 ^ 60 + 1))) := by
  show Host.Outcome.next (s.writeBivcmd _) = _
  simp [State.writeBivcmd, State.enterCmd, State.setBivcmd, fields, hboot, hbiv, hbusy]

theorem exec_bivouacWake_asleep {s : State} {k : BitVec 256} (hboot : s.dev.boot = .ready) (hbiv : s.dev.biv = .asleep)
    (hkey : s.dev.sleepKey = some k) : exec .bivouacWake s = .next ((s.bivWake k).setBivcmd 2) := by
  show Host.Outcome.next (s.writeBivcmd _) = _
  simp [State.writeBivcmd, State.wakeCmd, State.setBivcmd, fields, hboot, hbiv, hkey]

/-! ### Entry and wake (R376) -/

theorem State.bivEnter_no_keys (s : State) : ∀ w ∈ s.bivEnter.worlds, w.keys = [] := by
  intro w hw
  obtain ⟨_, _, rfl⟩ := List.mem_map.mp hw
  rfl

theorem State.bivEnter_core (s : State) {k : Nat} (hk : k < 192) :
    s.bivEnter.core k = { s.core k with tlb := [], ahead := [] } :=
  look_map _ _ _ _ _ hk

theorem State.bivEnter_qtlbs (s : State) (q : Nat) : look s.bivEnter.qtlbs q [] = [] := by
  show look (Vector.replicate 4 ([] : List TlbEntry)) q [] = []
  simp [look]

/-- What stands when a wake has its keys back, before its challenges. -/
def State.unwrapped (s : State) (k : BitVec 256) : State :=
  { s with
    worlds := s.worlds.map fun w =>
      { w with keys := unwrapKeys (keyBytes k) w.id (((s.dev.wrapped.find? fun x => x.1 == w.id).map Prod.snd).getD []) }
    flows := sessionFlows ((gcmOpen (keyBytes k) sessionNonce [] s.dev.session.1 s.dev.session.2).getD [])
    dev := { s.dev with biv := .awake, session := ([], []), sleepKey := none, wrapped := [], epoch := s.dev.epoch + 1 } }

theorem State.unwrapped_worlds (s : State) (k : BitVec 256) :
    (s.unwrapped k).worlds.map World.id = s.worlds.map World.id := by
  rw [State.unwrapped, List.map_map]
  rfl

theorem State.bivWake_challenges (s : State) (k : BitVec 256) :
    State.Challenges (s.unwrapped k).protectedCtxs (s.unwrapped k) (s.bivWake k) :=
  State.challengeAll_challenges ..

end Sys2Proof.Machine
end

section
/-! Moves of the compactor: the run or the window that one takes to its new place (R169). -/

namespace Sys2Proof.Machine

/-! ### Bytes of a sparse store that move -/

/-- The cells of some addresses. -/
theorem Cells.get_filter (p : Nat → Bool) (m : Cells) (a : Nat) :
    Cells.get (m.filter fun c => p c.1) a = if p a then m.get a else 0 := by
  induction m with
  | nil => simp [Cells.get]
  | cons c m ih =>
    obtain ⟨b, v⟩ := c
    by_cases hab : b = a
    · subst hab
      cases hb : p b <;> simp [hb, Cells.get, ih]
    · cases hb : p b <;> simp [hb, Cells.get, ih, hab]

/-- Cells put at other addresses leave an address to which none goes. -/
theorem Cells.get_foldl_set_ne (f : Nat → Nat) {bytes : Cells} (m : Cells) {a : Nat} (h : ∀ c ∈ bytes, f c.1 ≠ a) :
    Cells.get (bytes.foldl (fun (m : Cells) (c : Host.Cell) => m.set (f c.1) c.2) m) a = m.get a := by
  induction bytes generalizing m with
  | nil => rfl
  | cons c bytes ih =>
    rw [List.foldl_cons, ih _ fun x hx => h x (List.mem_cons_of_mem _ hx)]
    exact Cells.get_set_ne _ _ _ _ (h c List.mem_cons_self).symm

/-- Cells put at other addresses, each at one of its own that read 0 before. -/
theorem Cells.get_foldl_set {f : Nat → Nat} {bytes m : Cells} {a : Nat} (hbytes : bytes.wf = true) (hm : m.wf = true)
    (hf : ∀ c ∈ bytes, f c.1 = f a → c.1 = a) (hzero : m.get (f a) = 0) :
    Cells.get (bytes.foldl (fun (m : Cells) (c : Host.Cell) => m.set (f c.1) c.2) m) (f a) = bytes.get a := by
  induction bytes generalizing m with
  | nil => exact hzero
  | cons c bytes ih =>
    obtain ⟨b, v⟩ := c
    obtain ⟨-, habove, hwf⟩ := (Cells.wf_cons b v bytes).mp hbytes
    have htail : ∀ c ∈ bytes, f c.1 = f a → c.1 = a := fun c hc => hf c (List.mem_cons_of_mem _ hc)
    rw [List.foldl_cons]
    by_cases hba : b = a
    · subst hba
      rw [Cells.get_foldl_set_ne f _ fun c hc heq => (habove c hc).ne' (htail c hc heq), Cells.get_set_same _ _ hm]
      simp [Cells.get]
    · have hne : f a ≠ f b := fun heq => hba (hf (b, v) List.mem_cons_self heq.symm)
      rw [ih hwf (Cells.set_wf _ _ hm) htail ((Cells.get_set_ne _ _ _ _ hne).trans hzero)]
      simp [Cells.get, hba]

/-! ### A move begins -/

theorem exec_compactorMove {s t : State} {core : Nat} {what : MoveSpec} (hto : s.moveTo core what = some t)
    (hfree : (s.core core).compact = none) (hbusy : s.moveBusy what = false) (hnearer : s.nearer t = true) :
    exec (.compactorMove core what) s =
      .next (t.mapCore core fun c => { c with compact := some ⟨s.cyclesOf core + 512, s.ownersOf what⟩ }) := by
  show execCompactorMove core what s = _
  simp [execCompactorMove, hto, hfree, hbusy, hnearer]

theorem State.moveTo_regs {s : State} {core uid dest : Nat} {g : Group} (hg : s.group? uid = some g)
    (hlive : g.status ≠ .exited) (hcore : s.coreOf g = core) (hnew : dest ≠ g.block) (halign : dest % (g.nregs / 8) = 0)
    (hfits : dest + g.nregs / 8 ≤ 64)
    (hclear : ∀ x ∈ (s.runsOn core).erase (g.iu, g.slot, g.block, g.nregs / 8),
      x.1 ≠ g.iu ∨ x.2.2.1 + x.2.2.2 ≤ dest ∨ dest + g.nregs / 8 ≤ x.2.2.1) :
    s.moveTo core (.regs uid dest) = some (s.mapGroup uid fun g => { g with block := dest }) := by
  have hclash : (((s.runsOn core).erase (g.iu, g.slot, g.block, g.nregs / 8)).any fun x =>
      x.1 == g.iu && decide (x.2.2.1 < dest + g.nregs / 8) && decide (dest < x.2.2.1 + x.2.2.2)) = false := by
    rw [List.any_eq_false]
    intro x hx
    have hx := hclear x hx
    simp only [Bool.and_eq_true, beq_iff_eq, decide_eq_true_eq]
    omega
  simp [State.moveTo, hg, hclash, hlive, hcore, hnew, halign, Nat.not_lt.mpr hfits]

theorem State.moveTo_window {s : State} {core dest : Nat} {tm : Team} (htm : s.team? tm.id = some tm) (hcore : tm.core = core)
    (hsome : tm.units ≠ 0) (hpart : tm.units ≠ 48) (hnew : dest ≠ tm.base) (halign : dest % tm.units = 0)
    (hfree : s.unitsFree core tm.id dest tm.units = true) :
    s.moveTo core (.window tm.id dest) = some (s.moveWindow tm dest) := by
  simp [State.moveTo, htm, hcore, hsome, hpart, hnew, halign, hfree]

/-! ### The window at its new place -/

theorem State.moveWindow_mem (s : State) (tm : Team) (dest : Nat) : (s.moveWindow tm dest).mem = s.mem := rfl

theorem State.moveWindow_team {s : State} {tm : Team} (htm : s.team? tm.id = some tm) (dest : Nat) :
    (s.moveWindow tm dest).team? tm.id = some { tm with base := dest } := by
  unfold State.moveWindow
  exact State.team?_mapTeam_some htm (fun t => { t with base := dest }) fun _ => rfl

/-- An address of the scratchpads lies in the window of a team. -/
def Team.holdsByte (tm : Team) (a : Nat) : Bool :=
  decide (tm.core * 2 ^ 19 + tm.base * 8192 ≤ a) && decide (a < tm.core * 2 ^ 19 + tm.base * 8192 + tm.units * 8192)

/-- Where a move of the window to a new first bank takes a byte of it. -/
def Team.movedByte (tm : Team) (dest a : Nat) : Nat := a + dest * 8192 - tm.base * 8192

theorem Team.movedByte_offset (tm : Team) (dest i : Nat) :
    tm.movedByte dest (tm.core * 2 ^ 19 + tm.base * 8192 + i) = tm.core * 2 ^ 19 + dest * 8192 + i := by
  unfold Team.movedByte
  omega

theorem Team.movedByte_inj {tm : Team} {dest a b : Nat} (ha : tm.holdsByte a = true) (hb : tm.holdsByte b = true)
    (h : tm.movedByte dest a = tm.movedByte dest b) : a = b := by
  simp only [Team.holdsByte, Bool.and_eq_true, decide_eq_true_eq] at ha hb
  unfold Team.movedByte at h
  omega

/-- Each byte of the window stands at its offset from the new first bank, where every byte outside the window read 0. -/
theorem State.moveWindow_sp {s : State} {tm : Team} {dest i : Nat} (hwf : s.sp.wf = true) (hi : i < tm.units * 8192)
    (hzero : ∀ a, tm.core * 2 ^ 19 + dest * 8192 ≤ a → a < tm.core * 2 ^ 19 + (dest + tm.units) * 8192 →
      a < tm.core * 2 ^ 19 + tm.base * 8192 ∨ tm.core * 2 ^ 19 + (tm.base + tm.units) * 8192 ≤ a → s.sp.get a = 0) :
    (s.moveWindow tm dest).sp.get (tm.core * 2 ^ 19 + dest * 8192 + i) =
      s.sp.get (tm.core * 2 ^ 19 + tm.base * 8192 + i) := by
  have hholds : tm.holdsByte (tm.core * 2 ^ 19 + tm.base * 8192 + i) = true := by simp [Team.holdsByte, hi]
  have hcleared : (s.clearWindow tm.core tm.base tm.units).sp.get (tm.core * 2 ^ 19 + dest * 8192 + i) = 0 := by
    rw [State.clearWindow_sp]
    split
    · rfl
    · exact hzero _ (by omega) (by omega) (by omega)
  have hmoved := Cells.get_foldl_set (Cells.filter_wf (fun c => tm.holdsByte c.1) hwf)
    (Cells.clear_wf _ _ hwf : (s.clearWindow tm.core tm.base tm.units).sp.wf = true)
    (fun c hc => Team.movedByte_inj (List.mem_filter.mp hc).2 hholds) ((tm.movedByte_offset dest i).symm ▸ hcleared)
  rw [tm.movedByte_offset, Cells.get_filter tm.holdsByte, if_pos hholds] at hmoved
  exact hmoved

end Sys2Proof.Machine
end

section
/-! Bivouac, device reset, the compactor and TLB drops (R169, R242, R376, R409, R415). -/

namespace Sys2Proof.Machine

/-- A reset that reaches READY with no context to report LOST (R409). -/
theorem exec_deviceReset_ready {s : State} (hlost : s.lostCtxs = []) (slices : Word) :
    exec (.deviceReset true true slices) s = .next (s.booted slices) := by
  show Host.Outcome.next (s.reportLost.booted slices) = _
  rw [State.reportLost, hlost]
  rfl

theorem exec_deviceReset_failed {idOk fwOk : Bool} (h : idOk = false ∨ fwOk = false) (s : State) (slices : Word) :
    exec (.deviceReset idOk fwOk slices) s = .next s.recovery := by
  have hfail : (idOk && fwOk) = false := Bool.and_eq_false_iff.mpr h
  show execDeviceReset idOk fwOk slices s = _
  rw [execDeviceReset, hfail]
  rfl

/-- Device memory reads 0 after a boot, and the memory above it reads as before (R409). -/
theorem State.booted_mem (s : State) (slices : Word) (a : Nat) :
    (s.booted slices).mem.get a = if a < 2 ^ 50 then 0 else s.mem.get a := by
  refine (Cells.get_filter (fun x => decide (2 ^ 50 ≤ x)) s.mem a).trans ?_
  rcases Nat.lt_or_ge a (2 ^ 50) with h | h
  · exact (if_neg (mt of_decide_eq_true h.not_ge)).trans (if_pos h).symm
  · exact (if_pos (decide_eq_true h)).trans (if_neg h.not_gt).symm

theorem exec_alwaysOnPowerLoss {s : State} (hbiv : s.dev.biv = .asleep) :
    exec .alwaysOnPowerLoss s = .next { s with
      worlds := []
      ctxs := s.ctxs.map fun c => { c with counter := 0, kept := ⟨[], [], [], []⟩ }
      dev := { s.dev with boot := .reset, sleepKey := none, wrapped := [], session := ([], []), dbgPort := 0 } } := by
  show execAlwaysOnPowerLoss s = _
  simp [execAlwaysOnPowerLoss, hbiv]

/-! ### The statement -/

/-- Settles O50: ENTER and WAKE come down to the entry and to the challenges of a wake, a reset to the state that it leaves, and a
move of the compactor to the change of one group or to a window whose bytes stand at their new place. -/
theorem deviceEventsAct : Obligations.DeviceEventsAct := by
  unfold Obligations.DeviceEventsAct
  intro s
  refine ⟨fun hboot hbiv => ⟨fun hidle => ?enter, fun hbusy => ?busy⟩, ?wake, fun hbiv => ?powerLoss, fun slices hlost => ?reset,
    fun idOk fwOk slices hfail => ?recovery, ?regs, ?window, ?drops⟩
  case enter =>
    refine ⟨_, exec_bivouacEnter_idle hboot hbiv (State.contextsBusy_eq_false hidle), rfl, rfl, rfl, s.bivEnter_no_keys,
      fun k hk => ?_, s.bivEnter_qtlbs, rfl, rfl, fun k hkey => ?_, rfl, rfl, fun _ => rfl⟩
    · show (s.bivEnter.core k).tlb = [] ∧ (s.bivEnter.core k).ahead = []
      rw [s.bivEnter_core hk]
      exact ⟨rfl, rfl⟩
    · obtain rfl : s.drawKey 0 = k := Option.some.inj hkey
      rfl
  case busy => exact exec_bivouacEnter_busy hboot hbiv (s.contextsBusy_iff.mpr hbusy)
  case wake =>
    intro k hboot hbiv hkey
    have hwoken := s.bivWake_challenges k
    refine ⟨_, exec_bivouacWake_asleep hboot hbiv hkey, congrArg Dev.biv hwoken.dev, congrArg Dev.sleepKey hwoken.dev,
      congrArg Dev.wrapped hwoken.dev, congrArg Dev.epoch hwoken.dev, rfl, hwoken.flows, ?_,
      fun c hc hid hworld => hwoken.of_protected hc hid hworld⟩
    exact (congrArg (List.map World.id) hwoken.worlds).trans (s.unwrapped_worlds k)
  case powerLoss =>
    refine ⟨_, exec_alwaysOnPowerLoss hbiv, rfl, fun c hc => ?_, rfl, rfl, rfl⟩
    obtain ⟨_, _, rfl⟩ := List.mem_map.mp hc
    rfl
  case reset => exact ⟨_, exec_deviceReset_ready hlost slices, rfl, s.booted_mem slices, rfl⟩
  case recovery =>
    refine ⟨_, exec_deviceReset_failed hfail s slices, rfl, fun g hg => ?_, rfl, rfl, rfl⟩
    obtain rfl := List.mem_singleton.mp hg
    rfl
  case regs =>
    intro core uid g dest hcore hfree hg hlive hon hnew halign hfits hclear hnearer
    obtain rfl : g.uid = uid := beq_iff_eq.mp (List.find?_some (p := fun g : Group => g.uid == uid) hg)
    have hexec := exec_compactorMove (State.moveTo_regs hg hlive hon hnew halign hfits hclear) hfree rfl hnearer
    exact ⟨_, hexec, State.group?_mapGroup_same (f := fun g => { g with block := dest }) hg fun _ => rfl,
      State.core_mapCore_same _ hcore, fun _ => rfl⟩
  case window =>
    rintro core tm dest hcore hfree htm rfl hsome hpart hnew hnearer halign hunits hidle hwf hzero
    have hbusy : s.moveBusy (.window tm.id dest) = false := by
      rw [State.moveBusy, htm]
      exact hidle
    have hexec := exec_compactorMove (State.moveTo_window htm rfl hsome hpart hnew halign hunits) hfree hbusy hnearer
    refine ⟨_, hexec, ?_, fun i hi => ?_, fun a => ?_⟩
    · rw [State.team?, State.mapCore_teams]
      exact State.moveWindow_team htm dest
    · rw [State.mapCore_sp]
      exact State.moveWindow_sp hwf hi hzero
    · rw [State.mapCore_mem, State.moveWindow_mem]
  case drops =>
    intro core idx hcore
    exact ⟨.of_mapCore (f := fun c => { c with compact := none }) hcore rfl,
      .of_mapCore (f := fun c => { c with tlb := c.tlb.eraseIdx idx }) hcore rfl,
      .of_mapCore (f := fun c => { c with ahead := c.ahead.eraseIdx idx }) hcore rfl, fun _ => rfl⟩

end Sys2Proof.Machine
end

section
/-! What reset leaves (R183, R275, R276, R395, R398, R400 to R403, R409, R417). -/

namespace Sys2Proof.Machine

theorem State.reset_core {c : Nat} (hc : c < 192) : State.reset.core c = .reset := by
  simp [State.core, State.reset, look, hc]

theorem State.reset_part {p : Nat} (hp : p < 16) : State.reset.part p = .free := by
  simp [State.part, State.reset, look, hp]

/-- The domains of the quadrants stand before those of the memory (R393). -/
theorem State.reset_dom {d : Nat} (hd : d < 24) : look State.reset.doms d (Dom.reset true) = Dom.reset (decide (d < 4)) := by
  have hlook : look State.reset.doms d (Dom.reset true) =
      (Vector.replicate 4 (Dom.reset true) ++ Vector.replicate 20 (Dom.reset false))[d] := dif_pos hd
  rw [hlook, Vector.getElem_append]
  split
  · next h => simp [h]
  · next h => simp [h]

/-- Settles O51: each core, each partition entry and each domain stands at its own reset, and the other values are those written there. -/
theorem resetLeavesTheStatedValues : Obligations.ResetLeavesTheStatedValues := by
  unfold Obligations.ResetLeavesTheStatedValues
  refine ⟨rfl, rfl, rfl, fun _ => rfl, rfl, rfl, fun c hc => ?cores, fun p hp => ?parts, fun d hd => ?compute, fun d hlo hhi => ?memory,
    fun d hd => ?domains, rfl, rfl, rfl, rfl, rfl, rfl⟩
  case cores =>
    rw [State.reset_core hc]
    exact ⟨rfl, rfl, rfl, rfl, rfl, rfl, rfl, rfl⟩
  case parts => rw [State.reset_part hp]; rfl
  case compute =>
    rw [State.reset_dom (by omega), decide_eq_true hd]
    exact ⟨rfl, rfl, rfl⟩
  case memory =>
    rw [State.reset_dom hhi, decide_eq_false (by omega)]
    rfl
  case domains =>
    rw [State.reset_dom hd]
    exact ⟨rfl, rfl, rfl, rfl⟩

end Sys2Proof.Machine
end

section
/-! Scalar accesses to the scratchpad that nothing stops: those of the own window act at their issue, those of the peer path go out, and a
peer store acts at its target (R181, R183, R203). -/

namespace Sys2Proof.Machine

/-! ### Writes of the scratchpad (R184) -/

@[simp] theorem State.spWrite_cur (s : State) (core byte : Nat) (bs : List Byte) : (s.spWrite core byte bs).cur = s.cur := by
  unfold State.spWrite
  split <;> rfl

@[simp] theorem State.spWrite_mem (s : State) (core byte : Nat) (bs : List Byte) : (s.spWrite core byte bs).mem = s.mem := by
  unfold State.spWrite
  split <;> rfl

@[simp] theorem State.spWrite_sp (s : State) (core byte : Nat) (bs : List Byte) :
    (s.spWrite core byte bs).sp = s.sp.write (core * 2 ^ 19 + byte) bs := by
  unfold State.spWrite
  split <;> rfl

/-! ### What lets an access of the own window act (R181, R193) -/

/-- The checks, the order and the bank let an own-window access of a stream by some lanes act, in the window of the team `t`. -/
structure State.ActsIn (s : State) (l : Bool) (m : Mask) (t : Team) (kind : AccessKind) (va : Word) (n : Nat) : Prop where
  target : s.ownTarget va n = .inr t
  clear : s.peerPending l m t.id (offsetIn va) n = false
  bank : (s.core t.core).bankAns (spByte t (offsetIn va)) n kind va = .go

theorem State.spScalar_acts {s : State} {t : Team} {kind : AccessKind} {n : Nat} {va : Word} {rflags : Byte} {cs : List Counter} {x : Access}
    {own : State → Team → State} (h : s.ActsIn false 0 t kind va n)
    (hrel : kind.writes = true → s.releaseHeld false 0 x.ord x.scope = false) :
    s.spScalar kind n va rflags cs false x own = own s t := by
  have hgo : (kind.writes && !false && s.releaseHeld false 0 x.ord x.scope) = false := by
    cases hk : kind.writes
    · rfl
    · exact hrel hk
  have hbank : s.ownBank t va n kind = .go := h.bank
  unfold State.spScalar
  rw [hgo, h.target]
  simp only [h.clear, hbank, Bool.false_eq_true, if_false]

/-- An access that its core lets out goes out (R181, R196). -/
theorem State.spScalar_out {s : State} {kind : AccessKind} {n : Nat} {va : Word} {rflags : Byte} {cs : List Counter} {x : Access}
    {own : State → Team → State} (hcs : cs.any s.cur.full = false) (hout : s.outErr va n = none) :
    s.spScalar kind n va rflags cs true x own = (s.mapCur fun g => g.push x cs).nextPc 8 := by
  unfold State.spScalar
  rw [Bool.not_true, Bool.and_false, Bool.false_and, hcs, hout]
  rfl

/-- What the core of a peer access checks (R181). -/
theorem State.outErr_peer {s : State} {va : Word} {n : Nat} (hp : isPeer va = true) (hissue : s.localIssueErr s.cur va n = none)
    (hlock : s.localLockErr s.cur va n = none) : s.outErr va n = none := by
  rw [State.outErr, if_pos hp, hissue]
  exact hlock

/-! ### The three instructions, once they may issue (R203) -/

/-- What a load, a store and an atomic of the own window do at the address `va`. -/
def State.actLoad (d : SReg) (k : AccKind) (va : Word) (n : Nat) (s : State) (t : Team) : State :=
  (s.sput d (k.extend (wordOf (s.spRead t.core (spByte t (offsetIn va)) n)))).nextPc 8
def State.actStore (va : Word) (n : Nat) (w : Word) (s : State) (t : Team) : State :=
  (s.spWrite t.core (spByte t (offsetIn va)) (bytesOf n w.toNat)).nextPc 8
def State.putAtomic (s : State) (core byte n : Nat) (w : Option Word) : State :=
  match w with
  | some v => s.spWrite core byte (bytesOf n v.toNat)
  | none => s
def State.actAtomic (op : AtomOp) (d b : SReg) (k : AccKind) (va : Word) (n : Nat) (s : State) (t : Team) : State :=
  let old := wordOf (s.spRead t.core (spByte t (offsetIn va)) n)
  ((s.putAtomic t.core (spByte t (offsetIn va)) n (atomNew op n old (s.sget b) (s.sget d))).sput d (k.extend old)).nextPc 8

section
variable {s : State} {d a b : SReg} {disp : BitVec 16}

theorem exec_spaccLoad_ready (h : SReady s .user [d, a] true) (hacq : s.cur.acquiring false 0 = false) (sz : LdSize) (ord : Order)
    (sc : Scope) {va : Word} (hva : va = s.sget a + disp.signExtend 64) :
    exec (.spaccLoad sz ord sc d a disp) s = .next (s.spScalar .read (LdSize.bytes sz) va 0 [.rs] (isPeer va)
      (s.newAccess false (.load (LdSize.bytes sz) (LdSize.signed sz)) (d.setWidth 8) ord sc true [reqOf 255 va 0 (LdSize.bytes sz) 0 0])
      (State.actLoad d (.load (LdSize.bytes sz) (LdSize.signed sz)) va (LdSize.bytes sz))) := by
  subst hva
  show execSpaccLoad sz ord sc d a disp s = _
  rw [execSpaccLoad]
  dsimp only
  rw [State.sIssue_ready h, hacq]
  rfl

theorem exec_spaccStore_ready (h : SReady s .user [d, a] false) (sz : StSize) (ord : Order) (sc : Scope) {va : Word}
    (hva : va = s.sget a + disp.signExtend 64) :
    exec (.spaccStore sz ord sc d a disp) s = .next (s.spScalar .write (StSize.bytes sz) va 0x02 [.rs, .st] (isPeer va)
      (s.newAccess false (.store (StSize.bytes sz)) 0 ord sc true [reqOf 255 va 0 (StSize.bytes sz) (s.sget d) 0])
      fun u t => u.actStore va (StSize.bytes sz) (u.sget d) t) := by
  subst hva
  show execSpaccStore sz ord sc d a disp s = _
  rw [execSpaccStore]
  dsimp only
  rw [State.sIssue_ready h]
  rfl

theorem exec_spaccAtomic_ready (h : SReady s .user [d, a, b] false) (sz : AtSize) (op : AtomOp) (ord : Order) (sc : Scope) {va : Word}
    (hva : va = s.sget a + disp.signExtend 64) :
    exec (.spaccAtomic sz op ord sc d a b disp) s =
      .next (s.spScalar .atomic (AtSize.bytes sz) va 0x06 (if isPeer va then [.rs, .st] else []) (isPeer va || !s.isFree s.cur)
        (s.newAccess false (.satom op (AtSize.bytes sz) (sz == .s32)) (d.setWidth 8) ord sc true
          [reqOf 255 va 0 (AtSize.bytes sz) (s.sget b) (s.sget d)])
        (State.actAtomic op d b (.satom op (AtSize.bytes sz) (sz == .s32)) va (AtSize.bytes sz))) := by
  subst hva
  show execSpaccAtomic sz op ord sc d a b disp s = _
  rw [execSpaccAtomic]
  dsimp only
  rw [State.sIssue_ready h]
  rfl

end

/-! ### Accesses of the own window -/

/-- The old bytes that an atomic gives its register (R201). -/
theorem extend_satom (op : AtomOp) (n : Nat) (signed : Bool) (w : Word) : AccKind.extend (.satom op n signed) w = extended n signed w :=
  extend_load n signed w

@[simp] theorem State.putAtomic_cur (s : State) (core byte n : Nat) (w : Option Word) : (s.putAtomic core byte n w).cur = s.cur := by
  cases w
  · rfl
  · exact s.spWrite_cur ..

theorem State.putAtomic_mem (s : State) (core byte n : Nat) (w : Option Word) : (s.putAtomic core byte n w).mem = s.mem := by
  cases w
  · rfl
  · exact s.spWrite_mem ..

theorem State.putAtomic_sp {s : State} (hwf : s.sp.wf = true) (core byte n : Nat) (w : Option Word) :
    match w with
    | some w' => Stored s.sp (s.putAtomic core byte n w).sp (core * 2 ^ 19 + byte) n w'
    | none => (s.putAtomic core byte n w).sp = s.sp := by
  cases w with
  | none => rfl
  | some w' => exact State.spWrite_sp .. ▸ Stored.of_write hwf _ _ _

section
variable (s : State) (t : Team) (va : Word) (n : Nat) (w : Word)

theorem State.actStore_cur : (s.actStore va n w t).cur = { s.cur with s := { s.cur.s with pc := s.cur.s.pc + 8 } } := by
  have h := s.spWrite_cur t.core (spByte t (offsetIn va)) (bytesOf n w.toNat)
  unfold State.actStore State.nextPc State.setPc State.mapCur
  rw [h]
  rfl

theorem State.actStore_mem : (s.actStore va n w t).mem = s.mem := s.spWrite_mem ..

theorem State.actStore_sp :
    (s.actStore va n w t).sp = s.sp.write (t.core * 2 ^ 19 + spByte t (offsetIn va)) (bytesOf n w.toNat) := s.spWrite_sp ..

end

/-- Settles O14: neither order nor bank holds the access, so that it reads or writes its bytes of the window at once. -/
theorem ownWindowAccessesActAtOnce : Obligations.OwnWindowAccessesActAtOnce := by
  unfold Obligations.OwnWindowAccessesActAtOnce
  intro s d a b disp ord sc t va byte place may hpeer hwf
  have acts {n : Nat} {k : AccessKind} (h : may n k) : s.ActsIn false 0 t k va n := by
    obtain ⟨htarget, hclear, hbank⟩ := h
    exact ⟨htarget, hclear, hbank⟩
  refine ⟨fun h hacq sz hmay => ?load, fun h hrel sz hmay => ?store, fun h hrel hfree sz op hmay => ?atomic⟩
  case load =>
    refine WritesReg.of_quiet (h.legal d (by simp)) ?_ (extend_load ..)
    rw [exec_spaccLoad_ready h hacq sz ord sc rfl, hpeer, State.spScalar_acts (acts hmay) fun hw => absurd hw (by decide)]
    rfl
  case store =>
    have hexec := exec_spaccStore_ready h sz ord sc (rfl : va = _)
    rw [hpeer, State.spScalar_acts (acts hmay) fun _ => hrel] at hexec
    refine ⟨_, hexec, ?_, ?_, fun pa => ?_⟩
    · rw [State.actStore_sp]
      exact Stored.of_write hwf place _ _
    · rw [State.actStore_cur]
    · rw [State.actStore_mem]
  case atomic =>
    intro n old
    have hexec := exec_spaccAtomic_ready h sz op ord sc (rfl : va = _)
    rw [hpeer, hfree, Bool.not_true, Bool.or_false, State.spScalar_acts (acts hmay) fun _ => hrel] at hexec
    obtain ⟨w, hw⟩ : ∃ w, w = s.putAtomic t.core (spByte t (offsetIn va)) n (atomNew op n old (s.sget b) (s.sget d)) := ⟨_, rfl⟩
    have hact : State.actAtomic op d b (.satom op n (sz == .s32)) va n s t = (w.sput d (extended n (sz == .s32) old)).nextPc 8 := by
      rw [hw, ← extend_satom op]
      rfl
    have hcur : w.cur = s.cur := hw ▸ s.putAtomic_cur ..
    have hget (r : SReg) : w.sget r = s.sget r := by rw [State.sget, hcur, State.sget]
    rw [hact] at hexec
    refine ⟨_, hexec, ?reg, fun r hr => ?others, ?pc, fun pa => ?mem, ?sp⟩
    case reg =>
      rw [State.sget_nextPc]
      exact State.sget_sput_same w d _ (hcur ▸ h.legal d (by simp))
    case others => rw [State.sget_nextPc, State.sget_sput_ne _ _ _ _ hr, hget]
    case pc => simp [hcur]
    case mem =>
      rw [State.nextPc_mem, State.sput_mem, hw, State.putAtomic_mem]
    case sp =>
      rw [State.nextPc_sp, State.sput_sp, hw]
      exact State.putAtomic_sp hwf ..

/-! ### A peer store at its target (R181, R183) -/

namespace OnlyAccess

section
variable {s : State} {a : Access} {r : Req} {t : Team} {n : Nat} (h : OnlyAccess s a r) (hk : a.kind = .store n)
include h

/-- Nothing of the group meets the one request of its only access. -/
theorem spHeld : s.spHeld a r = false := by
  unfold State.spHeld
  split
  · rfl
  · rw [h.othersOut, h.accs]
    simp [h.reqs]

include hk

theorem answerPeer_store (htarget : s.localTarget s.cur r.va r.size = .inr t) (hmove : t.moving = true → t.id = s.cur.team)
    (hflow : s.flowBroken s.worldOf s.myPort (clusterOf t.core) = false)
    (hbank : (s.core t.core).bankAns (spByte t (offsetIn r.va)) r.size .write r.va = .go) :
    s.answerPeer a r =
      (s.spWrite t.core (spByte t (offsetIn r.va)) (bytesOf r.size r.data.toNat), { r with ans := some 0 }) := by
  have hteam : s.targetTeam s.cur r.va = some t := by
    unfold State.localTarget at htarget
    split at htarget
    · cases htarget
    · next t' ht' =>
      split at htarget
      · cases htarget
      · cases htarget
        exact ht'
  have hstays : (s.targetTeam s.cur r.va).any (fun t => t.moving && t.id != s.cur.team) = false := by
    rw [hteam, Option.any_some]
    cases hm : t.moving
    · rfl
    · simp [hmove hm]
  have haccess : a.kind.access = .write := by rw [hk]; rfl
  unfold State.answerPeer
  simp only [h.spHeld, h.needsOut, hstays, htarget, hflow, haccess, hbank, Bool.or_self, Bool.false_eq_true, if_false]

end

end OnlyAccess

/-- What a PEER_REQUEST does in the group of its access (R181). -/
def State.peerEvent (s : State) (seq : Nat) : State :=
  match s.cur.acc? seq with
  | none => s
  | some a => if a.peer then s.someReqs a id State.answerPeer else s

/-- Settles O15: the access goes out once its core's checks pass; at the target, its one request has nothing to wait for and writes. -/
theorem peerAccessesReachTheirTarget : Obligations.PeerAccessesReachTheirTarget := by
  unfold Obligations.PeerAccessesReachTheirTarget
  refine ⟨fun s d a b disp ord sc => ?issue, fun s a r t n h hp hk hsize hn hwf htarget hmove hflow hbank => ?target⟩
  case issue =>
    intro va may hpeer hrs hst
    have hout {n : Nat} (h : may n) : s.outErr va n = none := State.outErr_peer hpeer h.1 h.2
    have hroom : [Counter.rs].any s.cur.full = false := by simp [Group.full_of_lt hrs]
    have hroom2 : [Counter.rs, .st].any s.cur.full = false := by simp [Group.full_of_lt hrs, Group.full_of_lt hst]
    refine ⟨fun h hacq sz hmay => ?load, fun h sz hmay => ?store, fun h sz op hmay => ?atomic⟩
    case load =>
      refine IssuesOne.of_push ?_
      rw [exec_spaccLoad_ready h hacq sz ord sc rfl, hpeer, State.spScalar_out hroom (hout hmay)]
    case store =>
      refine IssuesOne.of_push ?_
      rw [exec_spaccStore_ready h sz ord sc rfl, hpeer, State.spScalar_out hroom2 (hout hmay)]
      rfl
    case atomic =>
      refine IssuesOne.of_push ?_
      rw [exec_spaccAtomic_ready h sz op ord sc rfl, hpeer, if_pos rfl, Bool.true_or, State.spScalar_out hroom2 (hout hmay)]
  case target =>
    subst hsize
    obtain ⟨u, hu⟩ : ∃ u, u = (s.spWrite t.core (spByte t (offsetIn r.va)) (bytesOf r.size r.data.toNat)).mapCur
      fun g => g.setReq a.seq 0 { r with ans := some 0 } := ⟨_, rfl⟩
    have hrun : s.someReqs a id State.answerPeer = u := by
      rw [h.someReqs, h.answerPeer_store hk htarget hmove hflow hbank, hu]
    have hcur : u.cur = s.cur.setReq a.seq 0 { r with ans := some 0 } := by rw [hu, State.mapCur, State.spWrite_cur]
    have hexec : exec (.peerRequest s.cur.uid a.seq) s = .next u := by
      have hevent : s.peerEvent a.seq = u := by
        rw [State.peerEvent, Group.acc?_single h.accs]
        dsimp only
        rw [hp, if_pos rfl, hrun]
      refine congrArg Host.Outcome.next ((State.withGroup_self (f := fun s => s.peerEvent a.seq) ?_).trans hevent)
      rw [hevent, hcur]
      rfl
    refine ⟨u, hexec, ?stored, hcur ▸ h.setReq_accs rfl 0, hcur ▸ rfl, fun pa => ?mem⟩
    case stored =>
      rw [hu, State.mapCur_sp, State.spWrite_sp]
      exact Stored.of_write hwf _ _ _
    case mem => rw [hu, State.mapCur_mem, State.spWrite_mem]

end Sys2Proof.Machine
end

section
/-! The supply of scratchpad banks that SPHINT changes (R183, R185). -/

namespace Sys2Proof.Machine

/-- What a hint makes of the supply of one bank; `due` is the end of a wake or a power-up that begins (R185). -/
def BankHint.after (st : BankHint) (due : Nat) (old : Supply) : Supply :=
  match st, old with
  | .full, .ret => .waking due true
  | .full, .off => .waking due false
  | .ret, .full => .ret
  | .off, _ => .off
  | _, x => x

theorem BankHint.after_after (st : BankHint) (due : Nat) (old : Supply) :
    BankHint.after st due (BankHint.after st due old) = BankHint.after st due old := by
  cases st <;> cases old <;> rfl

/-- Where no wake is under way, the table of R185. -/
theorem BankHint.after_eq (st : BankHint) (due : Nat) {old : Supply} (h : ∀ n k, old ≠ .waking n k) :
    BankHint.after st due old = match st with
      | .full => if old = .full then .full else .waking due (old == .ret)
      | .ret => if old = .full then .ret else old
      | .off => .off := by
  cases old with
  | waking n k => exact absurd rfl (h n k)
  | full => cases st <;> rfl
  | ret => cases st <;> rfl
  | off => cases st <;> rfl

/-- The state `t` is `s` with a hint given to some banks of a core (R185): what it leaves, and the supply of each bank. -/
structure State.Hinted (st : BankHint) (core : Nat) (banks : List Nat) (s t : State) : Prop where
  cur : t.cur = s.cur
  mem : t.mem = s.mem
  doms : t.doms = s.doms
  others : ∀ c, c ≠ core → t.core c = s.core c
  supply : ∀ j, j < 48 → look (t.core core).banks j .off =
    if j ∈ banks then BankHint.after st (s.cyclesOf core + 40) (look (s.core core).banks j .off) else look (s.core core).banks j .off

theorem State.Hinted.refl (st : BankHint) (core : Nat) (s : State) : State.Hinted st core [] s s :=
  ⟨rfl, rfl, rfl, fun _ _ => rfl, fun j _ => by simp⟩

theorem State.Hinted.cons {st : BankHint} {core b : Nat} {bs : List Nat} {s t u : State} (h : State.Hinted st core [b] s t)
    (h' : State.Hinted st core bs t u) : State.Hinted st core (b :: bs) s u where
  cur := h'.cur.trans h.cur
  mem := h'.mem.trans h.mem
  doms := h'.doms.trans h.doms
  others c hc := (h'.others c hc).trans (h.others c hc)
  supply j hj := by
    have hcycles : t.cyclesOf core = s.cyclesOf core := by rw [State.cyclesOf, h.doms, State.cyclesOf]
    rw [h'.supply j hj, h.supply j hj, hcycles]
    by_cases hb : j = b
    · by_cases hbs : j ∈ bs
      · simp only [hb, hb ▸ hbs, List.mem_cons, true_or, if_true, BankHint.after_after]
      · simp only [hb, hb ▸ hbs, List.mem_cons, true_or, if_true, if_false]
    · simp only [hb, List.mem_cons, List.not_mem_nil, false_or, if_false]

/-- A change of the supply of one bank of a core. -/
theorem State.Hinted.of_core {st : BankHint} {core b : Nat} {s t : State} {c : CoreState} (hcore : core < 192)
    (hcur : t.cur = s.cur) (hmem : t.mem = s.mem) (hdoms : t.doms = s.doms) (hcores : t.cores = put s.cores core c)
    (hc : c.banks =
      put (s.core core).banks b (BankHint.after st (s.cyclesOf core + 40) (look (s.core core).banks b .off))) :
    State.Hinted st core [b] s t where
  cur := hcur
  mem := hmem
  doms := hdoms
  others k hk := by
    rw [State.core, hcores]
    exact look_put_ne _ _ _ _ _ hk.symm
  supply j hj := by
    have hcore' : t.core core = c := by
      rw [State.core, hcores]
      exact look_put_same _ _ _ _ hcore
    rw [hcore', hc]
    by_cases hjb : j = b
    · subst hjb
      simp [look_put_same _ _ _ _ hj]
    · simp [hjb, look_put_ne _ _ _ _ _ (Ne.symm hjb)]

theorem put_look {α : Type} {n : Nat} (v : Vector α n) (i : Nat) (d : α) : put v i (look v i d) = v := by
  unfold put look
  split <;> simp

/-- One bank of the range (R185). -/
theorem State.hintBank_hinted (s : State) {core : Nat} (b : Nat) (st : BankHint) (hcore : core < 192) :
    State.Hinted st core [b] s (s.hintBank core b st) := by
  have hsame := put_look (s.core core).banks b .off
  cases st with
  | full =>
    refine .of_core hcore rfl rfl rfl rfl ?_
    beta_reduce
    cases hold : look (s.core core).banks b .off with
    | full => exact (hold ▸ hsame).symm
    | waking due kept => exact (hold ▸ hsame).symm
    | ret => rfl
    | off => rfl
  | ret =>
    refine .of_core hcore rfl rfl rfl rfl ?_
    beta_reduce
    cases hold : look (s.core core).banks b .off with
    | full => rfl
    | waking due kept => exact (hold ▸ hsame).symm
    | ret => exact (hold ▸ hsame).symm
    | off => exact (hold ▸ hsame).symm
  | off => exact .of_core hcore rfl rfl rfl rfl rfl

theorem State.foldl_hintBank {core : Nat} {st : BankHint} (hcore : core < 192) (bs : List Nat) (s : State) :
    State.Hinted st core bs s (bs.foldl (fun s b => s.hintBank core b st) s) := by
  induction bs generalizing s with
  | nil => exact .refl st core s
  | cons b bs ih =>
    exact (s.hintBank_hinted b st hcore).cons (ih _)

/-- The banks of the window that SPHINT names. -/
def hintedBanks (t : Team) (first n : Nat) : List Nat := ((List.range (Nat.min n 48)).map fun i => first + i).map fun i => t.base + i

theorem mem_hintedBanks {t : Team} {first n j : Nat} (hn : n ≤ 48) :
    j ∈ hintedBanks t first n ↔ t.base + first ≤ j ∧ j < t.base + first + n := by
  have hmin : Nat.min n 48 = n := Nat.min_eq_left hn
  unfold hintedBanks
  rw [hmin]
  simp only [List.mem_map, List.mem_range, exists_exists_and_eq_and]
  constructor
  · rintro ⟨i, hi, rfl⟩
    omega
  · rintro ⟨hlo, hhi⟩
    exact ⟨j - (t.base + first), by omega, by omega⟩

/-- SPHINT that nothing holds gives its hint to each bank of its range in turn (R185). -/
theorem exec_sphint_ready {s : State} {t : Team} {st : BankHint} {a b : SReg} (h : SReady s .user [a, b] false)
    (ht : s.team? s.cur.team = some t) (hidle : s.cur.lIdle = true)
    (hrange : (s.sget a).toNat + (s.sget b).toNat ≤ t.spbytes / 8192)
    (hclear : ∀ i, (s.sget a).toNat ≤ i → i < (s.sget a).toNat + (s.sget b).toNat →
      s.windowLocked (s.gridOf s.cur).ctx t (8192 * i) 8192 = false ∧ (s.core t.core).bankWaking (t.base + i) = false) :
    exec (.sphint st a b) s =
      .next (((hintedBanks t (s.sget a).toNat (s.sget b).toNat).foldl (fun s b => s.hintBank t.core b st) s).joinS.nextPc 8) := by
  have hteam : s.teamOf s.cur = t := by rw [State.teamOf, ht, Option.getD_some]
  have hfree : (((List.range (Nat.min (s.sget b).toNat 48)).map fun i => (s.sget a).toNat + i).any fun i =>
      s.windowLocked (s.gridOf s.cur).ctx t (8192 * i) 8192 || (s.core t.core).bankWaking (t.base + i)) = false := by
    rw [List.any_eq_false]
    intro i hi
    obtain ⟨k, hk, rfl⟩ := List.mem_map.mp hi
    have hlt : k < (s.sget b).toNat := Nat.lt_of_lt_of_le (List.mem_range.mp hk) (Nat.min_le_left ..)
    obtain ⟨hlock, hwake⟩ := hclear _ (Nat.le_add_right ..) (Nat.add_lt_add_left hlt _)
    simp [hlock, hwake]
  show execSphint st a b s = _
  rw [execSphint, State.sIssue_ready h]
  simp only [hteam, hidle, hfree, Nat.not_lt.mpr hrange, Bool.not_true, Bool.and_false, Bool.false_eq_true, if_false]
  refine congrArg Host.Outcome.next ?_
  rw [hintedBanks, List.foldl_map (l := List.map _ _)]
  split
  · next hzero =>
    rw [beq_iff_eq.mp hzero]
    rfl
  · rfl

/-- Settles O19: the banks of the range take the hint one after another, and no wake is under way in any of them. -/
theorem bankHintsChangeTheirBanks : Obligations.BankHintsChangeTheirBanks := by
  unfold Obligations.BankHintsChangeTheirBanks
  intro s t st a b h ht hidle hcore first n hrange hsize hwindow hclear
  have hn : n ≤ 48 := by omega
  obtain ⟨u, hu⟩ : ∃ u, u = (hintedBanks t first n).foldl (fun s b => s.hintBank t.core b st) s := ⟨_, rfl⟩
  have hhint : State.Hinted st t.core (hintedBanks t first n) s u := hu ▸ State.foldl_hintBank hcore _ s
  have hexec : exec (.sphint st a b) s = .next (u.joinS.nextPc 8) := hu ▸ exec_sphint_ready h ht hidle hrange hclear
  refine ⟨_, hexec, ?cur, fun pa => ?mem, hhint.others, fun j hj => ?supply⟩
  case cur =>
    unfold State.nextPc State.setPc State.joinS State.mapCur
    rw [hhint.cur]
    rfl
  case mem => rw [State.nextPc_mem, State.joinS_mem, hhint.mem]
  case supply =>
    refine (hhint.supply j hj).trans ?_
    simp only [mem_hintedBanks hn]
    split
    · next hin =>
      refine BankHint.after_eq st _ fun due kept hwaking => ?_
      obtain ⟨-, hwake⟩ := hclear (j - t.base) (by omega) (by omega)
      have hj' : t.base + (j - t.base) = j := by omega
      rw [CoreState.bankWaking, hj', hwaking] at hwake
      cases hwake
    · rfl

end Sys2Proof.Machine
end

section
/-! The checks of the lanes of an access to the scratchpad (R181, R206). -/

namespace Sys2Proof.Machine

/-! ### What the checks read (R181, R193) -/

/-- The state `v` is `s` with another L-stream state, decision queue and scratchpad, none of which a check reads. -/
def State.ChecksAs (s v : State) : Prop := ∃ sp l dq, v = { s with sp := sp, cur := { s.cur with l := l, dq := dq } }

/-- A test of the group of a name, in two devices whose issuing groups it does not tell apart. -/
theorem State.any_group?_congr {s v : State} {f : Group → Bool} (hothers : v.others = s.others) (huid : v.cur.uid = s.cur.uid)
    (hf : f v.cur = f s.cur) (uid : Nat) : (v.group? uid).any f = (s.group? uid).any f := by
  unfold State.group? State.groups
  rw [List.find?_cons, List.find?_cons, huid, hothers]
  split
  · exact hf
  · rfl

section
variable {s v : State} (h : s.ChecksAs v)
include h

theorem State.ChecksAs.ownTarget (va : Word) (n : Nat) : v.ownTarget va n = s.ownTarget va n := by
  obtain ⟨sp, l, dq, rfl⟩ := h
  rfl

theorem State.ChecksAs.outErr (va : Word) (n : Nat) : v.outErr va n = s.outErr va n := by
  obtain ⟨sp, l, dq, rfl⟩ := h
  rfl

theorem State.ChecksAs.peerPending (l : Bool) (m : Mask) (team off n : Nat) :
    v.peerPending l m team off n = s.peerPending l m team off n := by
  obtain ⟨sp, l', dq, rfl⟩ := h
  unfold State.peerPending State.othersOut
  refine congrArg (_ || ·) (congrArg (s.cur.seen.any ·) (funext fun x => congrArg (_ && ·) ?_))
  refine State.any_group?_congr (s := s) ?_ ?_ ?_ x.uid <;> rfl

theorem State.ChecksAs.actsIn {l : Bool} {m : Mask} {t : Team} {kind : AccessKind} {va : Word} {n : Nat} (ha : s.ActsIn l m t kind va n) :
    v.ActsIn l m t kind va n where
  target := (h.ownTarget va n).trans ha.target
  clear := (h.peerPending ..).trans ha.clear
  bank := by
    obtain ⟨sp, l', dq, rfl⟩ := h
    exact ha.bank

end

/-- The pops and hints of a lane access leave what its checks read. -/
theorem LReady.checksAs {s : State} {u : LUse} {p : Path} {vs : List Word} {g : Group} (h : LReady s u p vs g) :
    s.ChecksAs { s with cur := g.applyHints u.reads } := by
  have hfrom : ({ s.cur with dq := g.dq } : Group).RegsFrom (g.applyHints u.reads) := h.touched_from (.refl _)
  have hcur : g.applyHints u.reads = { s.cur with l := (g.applyHints u.reads).l, dq := g.dq } := by rw [hfrom]
  exact ⟨s.sp, _, g.dq, congrArg (fun x => { s with cur := x }) hcur⟩

/-! ### The lanes in their order -/

/-- The check of one lane (R181). -/
def LaneChecks.checkSp (kind : AccessKind) (out : Word → Bool) (own : State → Nat → Nat → Req → State × Word)
    (c : LaneChecks) (r : Req) : LaneChecks :=
  if out r.va then
    match c.st.outErr r.va r.size with
    | some f => { c with fails := c.fails ++ [⟨r.lane, f⟩] }
    | none => { c with reqs := c.reqs ++ [r] }
  else match c.st.ownTarget r.va r.size with
    | .inl f => { c with fails := c.fails ++ [⟨r.lane, f⟩] }
    | .inr t =>
      if c.st.peerPending true c.st.lmask t.id (offsetIn r.va) r.size then { c with wait := true }
      else
        match (c.st.core t.core).bankAns (spByte t (offsetIn r.va)) r.size kind r.va with
        | .wake => { c with st := c.st.wakeBank t.core (spByte t (offsetIn r.va) / 8192), wait := true }
        | .fault f => { c with fails := c.fails ++ [⟨r.lane, f⟩] }
        | .go =>
          let x := own c.st t.core (spByte t (offsetIn r.va)) r
          { c with st := x.1, reqs := c.reqs ++ [{ r with ans := some x.2 }] }

theorem State.checkLocal_eq (s : State) (kind : AccessKind) (out : Word → Bool) (rs : List Req)
    (own : State → Nat → Nat → Req → State × Word) :
    s.checkLocal kind out rs own = rs.foldl (LaneChecks.checkSp kind out own) ⟨s, [], [], false⟩ := rfl

/-- A request with its answer. -/
def Req.answer (r : Req) (w : Word) : Req := { r with ans := some w }

theorem Req.answer_known (r : Req) (w : Word) : (r.answer w).known = true := rfl

section
variable {kind : AccessKind} {out : Word → Bool} {own : State → Nat → Nat → Req → State × Word}

/-- Where the core of every lane lets it out, every lane goes out. -/
theorem foldl_checkSp_out {s : State} {rs : List Req} (h : ∀ r ∈ rs, out r.va = true ∧ s.outErr r.va r.size = none) (qs : List Req) :
    rs.foldl (LaneChecks.checkSp kind out own) ⟨s, qs, [], false⟩ = ⟨s, qs ++ rs, [], false⟩ := by
  induction rs generalizing qs with
  | nil => simp
  | cons r rs ih =>
    obtain ⟨hout, herr⟩ := h r List.mem_cons_self
    have hstep : LaneChecks.checkSp kind out own ⟨s, qs, [], false⟩ r = ⟨s, qs ++ [r], [], false⟩ := by
      unfold LaneChecks.checkSp
      rw [if_pos hout, herr]
    rw [List.foldl_cons, hstep, ih fun r hr => h r (List.mem_cons_of_mem _ hr)]
    simp

/-- Where every lane may act in one window, the lanes act one after another: `act` is what a lane does, `val` its answer, and `P` what
holds of the device between two lanes. -/
theorem foldl_checkSp_acts {P : State → Prop} {t : Team} {act : State → Req → State} {val : Req → Word} {rs : List Req}
    (h : ∀ v, P v → ∀ r ∈ rs, out r.va = false ∧ v.ActsIn true v.lmask t kind r.va r.size ∧
      own v t.core (spByte t (offsetIn r.va)) r = (act v r, val r) ∧ P (act v r))
    {v : State} (hv : P v) (qs : List Req) :
    rs.foldl (LaneChecks.checkSp kind out own) ⟨v, qs, [], false⟩ =
      ⟨rs.foldl act v, qs ++ rs.map (fun r => r.answer (val r)), [], false⟩ := by
  induction rs generalizing v qs with
  | nil => simp
  | cons r rs ih =>
    obtain ⟨hout, hacts, hown, hnext⟩ := h v hv r List.mem_cons_self
    have hstep : LaneChecks.checkSp kind out own ⟨v, qs, [], false⟩ r = ⟨act v r, qs ++ [r.answer (val r)], [], false⟩ := by
      unfold LaneChecks.checkSp
      simp only [hout, hacts.target, hacts.clear, hacts.bank, hown, Bool.false_eq_true, if_false]
      rfl
    rw [List.foldl_cons, hstep, ih (fun v hv r hr => h v hv r (List.mem_cons_of_mem _ hr)) hnext]
    simp

theorem State.checkLocal_out {s : State} {rs : List Req} (h : ∀ r ∈ rs, out r.va = true ∧ s.outErr r.va r.size = none) :
    s.checkLocal kind out rs own = ⟨s, rs, [], false⟩ := foldl_checkSp_out h []

theorem State.checkLocal_acts {P : State → Prop} {t : Team} {act : State → Req → State} {val : Req → Word} {rs : List Req}
    (h : ∀ v, P v → ∀ r ∈ rs, out r.va = false ∧ v.ActsIn true v.lmask t kind r.va r.size ∧
      own v t.core (spByte t (offsetIn r.va)) r = (act v r, val r) ∧ P (act v r))
    {v : State} (hv : P v) :
    v.checkLocal kind out rs own = ⟨rs.foldl act v, rs.map fun r => r.answer (val r), [], false⟩ := foldl_checkSp_acts h hv []

end

end Sys2Proof.Machine
end

section
/-! Lane accesses to the scratchpad that act at their issue, and those that go out (R181, R204, R206, R230). -/

namespace Sys2Proof.Machine

/-! ### Issue (R196, R204, R205) -/

theorem laneReqs_ne_nil {m : Mask} (h : m ≠ 0) (addr : Nat → Word) (n : Nat) (data cmp : Nat → Word) :
    laneReqs m addr n data cmp ≠ [] :=
  fun hnil => lanesOf_ne_nil h (List.map_eq_nil_iff.mp hnil)

/-- A ready lane access to the scratchpad goes by its checks, where no lane waits, its counters have room and its order does not hold it
(R174, R191, R196). -/
theorem State.lLanes_ready {s : State} {o : LOp} {u : LUse} {kind : AccKind} {n : Nat} {ord : Order} {sc : Scope} {cs cs' : List Counter}
    {out : Word → Bool} {data cmp : Nat → Word} {own : State → Nat → Nat → Req → State × Word} {p : Path} {vs : List Word} {g : Group}
    {v : State} {qs : List Req} (hredo : s.cur.replay = none) (hacq : s.cur.acquiring true p.mask = false) (hl : u.late = false)
    (h : LReady s u p vs g)
    (hcheck : ({ s with cur := g.applyHints u.reads } : State).checkLocal kind.access out
      (laneReqs (s.cur.selected p.mask o.g) (laneAddress s o vs) n data cmp) own = ⟨v, qs, [], false⟩)
    (hcs : (if qs.any fun r => !r.known && isPeer r.va then cs else []) = cs') (hroom : cs'.any s.cur.full = false)
    (hrel : (kind.writes && ((laneReqs (s.cur.selected p.mask o.g) (laneAddress s o vs) n data cmp).any fun r => !out r.va) &&
      s.releaseHeld true p.mask ord sc) = false) :
    s.lLanes o u kind n ord sc cs out data cmp own =
      s.launchLanes ⟨{ s with cur := g.applyHints u.reads }, p.mask, s.cur.selected p.mask o.g, vs⟩ ⟨v, qs, [], false⟩
        (s.newAccess true kind o.vd ord sc true []) cs' := by
  have hreqs : ((lanesOf (s.cur.selected p.mask o.g)).map fun i => reqOf i (s.cur.laneAddr o vs i) 0 n (data i) (cmp i)) =
      laneReqs (s.cur.selected p.mask o.g) (laneAddress s o vs) n data cmp := by
    simp only [Group.laneAddr_eq]
    rfl
  rw [State.lLanes, State.memIssue_ready (redo := none) hredo (fun _ h => nomatch h) h hl]
  simp only [State.lmask_eq h.path, hacq, State.laneSel, laneVals, hreqs, hcheck, hcs, hroom, hrel, Bool.or_self, Bool.false_eq_true, if_false]

/-! ### Accesses that go out (R181, R206) -/

/-- A path that has its turn issues an access, the group `g1` being as its hints and its destination leave it (R118, R194, R196). Unlike
`IssuesLanes.of_push`, which is about global memory, it leaves the access free, so that it may be one of the scratchpad. -/
theorem IssuesLanes.of_sent {s : State} {i : Instr} {u : LUse} {p : Path} {vs : List Word} {g g1 : Group} {ds : List (BitVec 8)} {a : Access}
    {fences : List FenceMark} {cs : List Counter} {qs : List Req} (h : LReady s u p vs g) (ht : Group.Touched ds (g.applyHints u.reads) g1)
    (hl : a.l = true) (hps1 : a.ps1 = s.ps1) (hpath : a.path = p.mask) (hseq : a.seq = s.cur.seq) (hpc : a.pc = BitVec.ofNat 64 p.pc)
    (hreqs : a.reqs = qs) (hfails : a.fails = [])
    (hexec : exec i s = .next { s with
      cur := g1.sent s.ps1 p none ((s.cur.grow p.mask).accs ++ [a]) fences (s.cur.tokens ++ cs.map fun c => ⟨c, s.cur.seq, false⟩) }) :
    IssuesLanes s s i u p g a.kind ds a.dest a.ord a.scope a.peer qs cs := by
  have hfrom : g1 = _ := h.touched_from ht
  have hturn : g1.path (!s.ps1) = s.cur.path (!s.ps1) := by
    rw [hfrom]
    rfl
  refine ⟨_, a, hexec, rfl, hpath, hseq, hl, hps1, hpc, rfl, rfl, rfl, rfl, rfl, hreqs, hfails, ?next, rfl, ?dq,
    Group.path_setPath_same g1 _ _, (Group.path_setPath_other g1 _ _).trans hturn, fun r hr => ?kept, fun r hr => ?live,
    (LState.preds_setPath g1.l _ _).trans (ht.preds.trans h.preds_hinted), (LState.k_setPath g1.l _ _).trans (ht.k.trans h.k_hinted),
    (LState.stack_setPath g1.l _ _).trans ?stack, ?sregs, ?flags, rfl, fun _ => rfl⟩
  case kept =>
    obtain ⟨hget, hlife⟩ := ht.others r hr
    exact ⟨((g1.vget_setPath ..).trans hget).trans (h.vget_hinted r), ((g1.vlife_setPath ..).trans hlife).trans (h.vlife_hinted r)⟩
  case live => exact (g1.vlife_setPath ..).trans (ht.live r hr)
  case next =>
    show g1.seq + 1 = _
    rw [hfrom]
  case dq =>
    show g1.dq = _
    rw [hfrom]
  case stack => rw [hfrom]
  case sregs =>
    show g1.s = _
    rw [hfrom]
  case flags =>
    show g1.flags = _
    rw [hfrom]

/-- A ready lane access to the scratchpad whose checks let every lane out issues one access (R181, R196). -/
theorem IssuesLanes.of_launch {s : State} {i : Instr} {u : LUse} {kind : AccKind} {dest : BitVec 8} {ord : Order} {sc : Scope}
    {cs : List Counter} {p : Path} {vs : List Word} {g : Group} {ds : List (BitVec 8)} {x : LIn} {qs : List Req} (h : LReady s u p vs g)
    (ht : ∀ g, Group.Touched ds g (kind.touch g dest)) (hun : ∀ q ∈ qs, q.ans = none ∧ q.err = none) (hne : qs ≠ [])
    (hexec : exec i s = .next (s.launchLanes x ⟨{ s with cur := g.applyHints u.reads }, qs, [], false⟩
      (s.newAccess true kind dest ord sc true []) cs)) :
    IssuesLanes s s i u p g kind ds dest ord sc true qs cs := by
  obtain ⟨g1, hg1⟩ : ∃ g1, g1 = kind.touch (g.applyHints u.reads) dest := ⟨_, rfl⟩
  obtain ⟨a, ha⟩ : ∃ a, a = (s.newAccess true kind dest ord sc true []).afterChecks x qs [] s.doneBefore := ⟨_, rfl⟩
  obtain ⟨G, hG⟩ : ∃ G, G = Group.grow { g1 with replay := none } p.mask := ⟨_, rfl⟩
  have hmask : a.path = p.mask := ha ▸ State.lmask_eq h.path
  have hpc : a.pc = BitVec.ofNat 64 p.pc := ha ▸ State.lpc_eq h.path
  have hreqs : a.reqs = qs := ha ▸ rfl
  have hwrites : Group.Touched ds (g.applyHints u.reads) g1 := hg1 ▸ ht _
  have hfrom := h.touched_from hwrites
  have hturn : g1.path s.ps1 = some p := by
    rw [hfrom]
    exact h.path
  have hseq : g1.seq = s.cur.seq := by rw [hfrom]
  have htokens : g1.tokens = s.cur.tokens := by rw [hfrom]
  have hgrow : (G.grow p.mask).accs = (s.cur.grow p.mask).accs :=
    hG ▸ (congrArg Group.accs (Group.grow_grow ..)).trans (hfrom.grow_accs p.mask)
  have hGfrom : G = { g1 with replay := none, accs := G.accs, fences := G.fences } := hG ▸ rfl
  have hGseq : G.seq = s.cur.seq := hG ▸ hseq
  have hsent : exec i s = .next ({ s with cur := G.push a cs } : State).lNext := by
    rw [hexec, State.launchLanes_goes hun hne, ← ha, hG, ← hmask, hg1, ha]
    rfl
  rw [State.lNext_push hGfrom hturn (ha ▸ rfl), hmask, hgrow, hseq, htokens] at hsent
  have hout := IssuesLanes.of_sent h hwrites (a := G.numbered a) (ha ▸ rfl) (ha ▸ rfl) hmask hGseq hpc hreqs (ha ▸ rfl) hsent
  subst ha
  exact hout

/-- Lanes that take the same path count there, or nowhere (R174). -/
theorem any_unknown_peer {rs : List Req} {peer : Bool} (hne : rs ≠ []) (hun : ∀ r ∈ rs, r.ans = none ∧ r.err = none)
    (hpeer : ∀ r ∈ rs, isPeer r.va = peer) : (rs.any fun r => !r.known && isPeer r.va) = peer := by
  have hsame : ∀ r ∈ rs, (!r.known && isPeer r.va) = peer := fun r hr => by
    rw [Req.known_eq_false (hun r hr), hpeer r hr]
    rfl
  obtain ⟨r, hr⟩ := List.exists_mem_of_ne_nil rs hne
  cases peer
  · exact List.any_eq_false.mpr fun q hq => by rw [hsame q hq]; exact Bool.false_ne_true
  · exact List.any_eq_true.mpr ⟨r, hr, hsame r hr⟩

/-- What holds of every lane that an instruction acts on holds of its requests. -/
theorem forall_laneReqs {s : State} {p : Path} {gd : Guard} {addr : Nat → Word} {n : Nat} {data cmp : Nat → Word} {P : Req → Prop}
    (h : ∀ j, j < 128 → actsOn s p gd j → P (reqOf j (addr j) 0 n (data j) (cmp j))) :
    ∀ r ∈ laneReqs (s.cur.selected p.mask gd) addr n data cmp, P r := by
  intro r hr
  obtain ⟨j, hj, rfl⟩ := List.mem_map.mp hr
  have hlt := lanesOf_lt hj
  exact h j hlt ((selected_getLsbD s p gd hlt).mp (mem_lanesOf.mp hj).2)

section
variable {s : State} {i : Instr} {o : LOp} {u : LUse} {kind : AccKind} {n : Nat} {ord : Order} {sc : Scope} {cs : List Counter}
  {out : Word → Bool} {data cmp : Nat → Word} {own : State → Nat → Nat → Req → State × Word} {p : Path} {vs : List Word} {g : Group}
  (hredo : s.cur.replay = none) (hacq : s.cur.acquiring true p.mask = false) (hsel : ∃ i, i < 128 ∧ actsOn s p o.g i)
  (hl : u.late = false) (hexec : exec i s = .next (s.lLanes o u kind n ord sc cs out data cmp own)) (h : LReady s u p vs g)
include hredo hacq hsel hl hexec h

/-- A ready lane access of which every lane goes out issues one access, and counts where its lanes take the peer path (R181, R196, R206). -/
theorem IssuesLanes.of_lLanes {ds : List (BitVec 8)} {peer : Bool} (ht : ∀ g, Group.Touched ds g (kind.touch g o.vd))
    (hgo : ∀ j, j < 128 → actsOn s p o.g j →
      isPeer (laneAddress s o vs j) = peer ∧ out (laneAddress s o vs j) = true ∧ s.outErr (laneAddress s o vs j) n = none)
    (hroom : cs.any s.cur.full = false) :
    IssuesLanes s s i u p g kind ds o.vd ord sc true (laneReqs (s.cur.selected p.mask o.g) (laneAddress s o vs) n data cmp)
      (if peer then cs else []) := by
  have hne := laneReqs_ne_nil (selected_ne_zero hsel) (laneAddress s o vs) n data cmp
  have hun := laneReqs_unknown (s.cur.selected p.mask o.g) (laneAddress s o vs) n data cmp
  have hcheck : ({ s with cur := g.applyHints u.reads } : State).checkLocal kind.access out
      (laneReqs (s.cur.selected p.mask o.g) (laneAddress s o vs) n data cmp) own =
        ⟨_, laneReqs (s.cur.selected p.mask o.g) (laneAddress s o vs) n data cmp, [], false⟩ :=
    State.checkLocal_out (forall_laneReqs fun j hj ha => ⟨(hgo j hj ha).2.1, (h.checksAs.outErr ..).trans (hgo j hj ha).2.2⟩)
  have hcount := any_unknown_peer hne hun (forall_laneReqs fun j hj ha => (hgo j hj ha).1)
  have hroom' : (if peer then cs else []).any s.cur.full = false := by
    cases peer
    · rfl
    · exact hroom
  have hnone : ((laneReqs (s.cur.selected p.mask o.g) (laneAddress s o vs) n data cmp).any fun r => !out r.va) = false :=
    List.any_eq_false.mpr (forall_laneReqs fun j hj ha => by
      have hout := (hgo j hj ha).2.1
      simp [reqOf, hout])
  exact .of_launch h ht hun hne (hexec.trans (congrArg Host.Outcome.next
    (State.lLanes_ready hredo hacq hl h hcheck (by rw [hcount]) hroom' (by rw [hnone, Bool.and_false, Bool.false_and]))))

end

/-! ### Lanes that act at their issue (R204, R230) -/

/-- What the accesses and the fences of a path follow once its lanes act, with the flags that they set (R230). -/
def Group.followed (g : Group) (m : Mask) (f : Byte) : Group := { g.grow m with replay := none, flags := g.flags ||| f }

/-- The group of a lane access that acts at its issue: the destination as at any issue, then the answers. -/
def Group.acted (g : Group) (a : Access) (f : Byte) : Group :=
  { a.deliver (Group.grow { a.kind.touch g a.dest with replay := none } a.path) with flags := (a.kind.touch g a.dest).flags ||| f }

theorem Group.RegsFrom.followed {g g' : Group} (h : g.RegsFrom g') (m : Mask) (f : Byte) : (g.followed m f).RegsFrom (g'.followed m f) := by
  rw [h]
  rfl

/-- But for registers of the L-stream, it is the group whose later events follow what its path follows. -/
theorem Group.regsFrom_acted {g : Group} {a : Access} (ht : g.RegsFrom (a.kind.touch g a.dest)) (hd : ∀ x : Group, x.RegsFrom (a.deliver x))
    (f : Byte) : (g.followed a.path f).RegsFrom (g.acted a f) := by
  refine (ht.followed a.path f).trans ?_
  have hx := hd (Group.grow { a.kind.touch g a.dest with replay := none } a.path)
  unfold Group.acted Group.RegsFrom
  rw [hx]
  rfl

section
variable {s v : State} {x : LIn} {qs : List Req} {w : Bool} {a : Access} {cs : List Counter}

theorem State.launchLanes_acts (hne : qs ≠ []) (hknown : ∀ q ∈ qs, q.known = true) :
    s.launchLanes x ⟨v, qs, [], w⟩ a cs = (v.mapCur fun g => g.acted (a.afterChecks x qs [] s.doneBefore)
      (if s.cur.handler.isSome then 0 else (a.afterChecks x qs [] s.doneBefore).flagsOf)).lNext := by
  have hempty : qs.isEmpty = false := by simpa using hne
  have hall : qs.all Req.known = true := List.all_eq_true.mpr hknown
  unfold State.launchLanes
  simp only [Access.allKnown, hall, hempty, List.any_nil, List.isEmpty_nil, Bool.not_true, Bool.false_eq_true, if_false, if_true]
  rfl

end

/-- The device between two lanes of a lane access: its hints applied, and scratchpad bytes that its lanes wrote. -/
theorem State.ChecksAs.withSp {s v : State} (h : s.ChecksAs v) (sp : Cells) : s.ChecksAs { v with sp := sp } := by
  obtain ⟨sp', l, dq, rfl⟩ := h
  exact ⟨sp, l, dq, rfl⟩

theorem LReady.path_hinted {s : State} {u : LUse} {p : Path} {vs : List Word} {g : Group} (h : LReady s u p vs g) :
    (g.applyHints u.reads).path s.ps1 = some p := by
  have hfrom : ({ s.cur with dq := g.dq } : Group).RegsFrom (g.applyHints u.reads) := h.touched_from (.refl _)
  rw [hfrom]
  exact h.path

section
variable {s w : State} {i : Instr} {o : LOp} {u : LUse} {kind : AccKind} {n : Nat} {ord : Order} {sc : Scope} {cs : List Counter}
  {data cmp : Nat → Word} {own : State → Nat → Nat → Req → State × Word} {p : Path} {vs : List Word} {g : Group} {val : Req → Word}
  (hredo : s.cur.replay = none) (hacq : s.cur.acquiring true p.mask = false) (hsel : ∃ i, i < 128 ∧ actsOn s p o.g i)
  (hl : u.late = false) (hexec : exec i s = .next (s.lLanes o u kind n ord sc cs isPeer data cmp own)) (h : LReady s u p vs g)
  (hrel : kind.writes = true → s.releaseHeld true p.mask ord sc = false)
  (hcheck : ({ s with cur := g.applyHints u.reads } : State).checkLocal kind.access isPeer
    (laneReqs (s.cur.selected p.mask o.g) (laneAddress s o vs) n data cmp) own =
      ⟨w, (laneReqs (s.cur.selected p.mask o.g) (laneAddress s o vs) n data cmp).map fun r => r.answer (val r), [], false⟩)
  (hw : w = { s with cur := g.applyHints u.reads, sp := w.sp })
include hredo hacq hsel hl hexec h hrel hcheck hw

/-- A ready lane access whose lanes have acted is complete, its path goes on, and what came before its path comes before what its lanes do
later (R204, R230). -/
theorem exec_lLanes_acted {ds : List (BitVec 8)} (ht : ∀ g, Group.Touched ds g (kind.touch g o.vd))
    (hd : ∀ (a : Access) (x : Group), a.kind = kind → x.RegsFrom (a.deliver x)) :
    ∃ (a : Access) (f : Byte), a.kind = kind ∧ a.dest = o.vd ∧
      a.reqs = ((laneReqs (s.cur.selected p.mask o.g) (laneAddress s o vs) n data cmp).map fun r => r.answer (val r)) ∧
      ((g.applyHints u.reads).acted a f).accs = (s.cur.grow p.mask).accs ∧
      exec i s = .next { w with cur := { (g.applyHints u.reads).acted a f with
        l := ((g.applyHints u.reads).acted a f).l.setPath s.ps1 (some ⟨p.pc + 3, p.mask⟩) } } := by
  obtain ⟨qs, hqs⟩ : ∃ qs, qs = (laneReqs (s.cur.selected p.mask o.g) (laneAddress s o vs) n data cmp).map fun r => r.answer (val r) :=
    ⟨_, rfl⟩
  have hknown : ∀ q ∈ qs, q.known = true := fun q hq => by
    obtain ⟨r, -, rfl⟩ := List.mem_map.mp (hqs ▸ hq)
    exact r.answer_known _
  have hne : qs ≠ [] := fun hnil =>
    laneReqs_ne_nil (selected_ne_zero hsel) _ _ _ _ (List.map_eq_nil_iff.mp (hqs.symm.trans hnil))
  have hnone : (qs.any fun r => !r.known && isPeer r.va) = false := List.any_eq_false.mpr fun q hq => by simp [hknown q hq]
  have hfree : (kind.writes && ((laneReqs (s.cur.selected p.mask o.g) (laneAddress s o vs) n data cmp).any fun r => !isPeer r.va) &&
      s.releaseHeld true p.mask ord sc) = false := by
    cases hk : kind.writes
    · rfl
    · rw [hrel hk, Bool.and_false]
  rw [← hqs] at hcheck ⊢
  have hrun := State.lLanes_ready (cs := cs) hredo hacq hl h hcheck (by rw [hnone]; rfl) (List.any_nil) hfree
  obtain ⟨x, hx⟩ : ∃ x : LIn, x = ⟨{ s with cur := g.applyHints u.reads }, p.mask, s.cur.selected p.mask o.g, vs⟩ := ⟨_, rfl⟩
  obtain ⟨a, ha⟩ : ∃ a, a = (s.newAccess true kind o.vd ord sc true []).afterChecks x qs [] s.doneBefore := ⟨_, rfl⟩
  have hcur : w.cur = g.applyHints u.reads := by rw [hw]
  have hps1 : w.ps1 = s.ps1 := by rw [hw]
  obtain ⟨f, hf⟩ : ∃ f, exec i s = .next ({ w with cur := (g.applyHints u.reads).acted a f } : State).lNext := by
    refine ⟨if s.cur.handler.isSome then 0 else a.flagsOf, hexec.trans (congrArg Host.Outcome.next ?_)⟩
    rw [hrun, ← hx, State.launchLanes_acts hne hknown, ← ha, State.mapCur, hcur]
  have hmask : a.path = p.mask := ha ▸ State.lmask_eq h.path
  have hregs : ((g.applyHints u.reads).followed p.mask f).RegsFrom ((g.applyHints u.reads).acted a f) :=
    hmask ▸ Group.regsFrom_acted (ha ▸ (ht _).regs) (fun x => hd a x (ha ▸ rfl)) f
  have hpath : ((g.applyHints u.reads).acted a f).path w.ps1 = some p := by
    rw [hregs, hps1]
    exact h.path_hinted
  refine ⟨a, f, ha ▸ rfl, ha ▸ rfl, ha ▸ rfl, ?_, hf.trans (congrArg Host.Outcome.next ?_)⟩
  · rw [hregs]
    exact (h.touched_from (.refl _)).grow_accs p.mask
  · rw [State.lNext_eq (s := { w with cur := (g.applyHints u.reads).acted a f }) hpath, hps1]

end

end Sys2Proof.Machine
end

section
/-! Loads, stores and atomics of the lanes in the scratchpad (R204, R206). -/

namespace Sys2Proof.Machine

/-! ### A load of the own window (R18, R19, R204) -/

theorem find?_lane {l : List Nat} {f : Nat → Req} (hf : ∀ j, (f j).lane = j) {i : Nat} (hi : i ∈ l) :
    (l.map f).find? (fun r => r.lane == 0 + i) = some (f i) := by
  rw [List.find?_map]
  obtain ⟨j, hj⟩ : ∃ j, l.find? ((fun r => r.lane == 0 + i) ∘ f) = some j :=
    Option.isSome_iff_exists.mp (List.find?_isSome.mpr ⟨i, hi, by simp [hf]⟩)
  have hji := List.find?_some hj
  simp only [Function.comp_apply, hf, Nat.zero_add, beq_iff_eq] at hji
  rw [hj, hji]
  rfl

section
variable {a : Access} {m : Mask} {addr : Nat → Word} {n : Nat} {data cmp : Nat → Word} {val : Req → Word}
  (ha : a.reqs = (laneReqs m addr n data cmp).map fun r => r.answer (val r))
include ha

/-- The lanes that have their answer are those of the access. -/
theorem answeredLanes_getLsbD {i : Nat} (hi : i < 128) : a.answeredLanes.getLsbD i = true ↔ m.getLsbD i = true := by
  have hall : (a.reqs.filter fun r => r.ans.isSome).map Req.lane = lanesOf m := by
    rw [ha, List.filter_eq_self.mpr, List.map_map]
    · exact laneReqs_lane m addr n data cmp
    · intro q hq
      obtain ⟨r, -, rfl⟩ := List.mem_map.mp hq
      rfl
  rw [Access.answeredLanes, hall, maskOf_getLsbD, mem_lanesOf]
  simp [hi]

/-- What a lane of the register image takes: the answer of its request. -/
theorem look_image {i : Nat} (hi : i < 128) (hm : m.getLsbD i = true) :
    look (a.image 0) i 0 = (a.kind.extend (val (reqOf i (addr i) 0 n (data i) (cmp i)))).setWidth 32 := by
  have hfind : a.reqs.find? (fun r => r.lane == 0 + i) =
      some ((reqOf i (addr i) 0 n (data i) (cmp i)).answer (val (reqOf i (addr i) 0 n (data i) (cmp i)))) := by
    rw [ha, laneReqs, List.map_map]
    exact find?_lane (f := fun j => (reqOf j (addr j) 0 n (data j) (cmp j)).answer (val (reqOf j (addr j) 0 n (data j) (cmp j))))
      (fun _ => rfl) (mem_lanesOf.mpr ⟨hi, hm⟩)
  unfold look Access.image
  rw [dif_pos hi, Vector.getElem_ofFn]
  dsimp only
  rw [hfind]
  rfl

end

/-- A load that acts at its issue writes the selected lanes of its destination (R18, R19, R204). -/
theorem LWrites.of_acted {s w : State} {u : LUse} {p : Path} {vs : List Word} {g : Group} {gd : Guard} {a : Access} {f : Byte} {b : Bool}
    {q : Option Path} {n : Nat} {signed : Bool} {addr : Nat → Word} {size : Nat} {data cmp : Nat → Word} {val : Req → Word}
    (h : LReady s u p vs g) (hk : a.kind = .vload n signed)
    (ha : a.reqs = (laneReqs (s.cur.selected p.mask gd) addr size data cmp).map fun r => r.answer (val r)) :
    LWrites s { w with cur := { (g.applyHints u.reads).acted a f with l := ((g.applyHints u.reads).acted a f).l.setPath b q } } u a.dest
      (actsOn s p gd) fun i x => x = (extended n signed (val (reqOf i (addr i) 0 size (data i) (cmp i)))).setWidth 32 := by
  obtain ⟨G0, hG0⟩ : ∃ G0, G0 = (g.applyHints u.reads).vwrite a.dest 0 (Vector.replicate 128 0) := ⟨_, rfl⟩
  obtain ⟨G, hG⟩ : ∃ G, G = Group.grow { G0 with replay := none } a.path := ⟨_, rfl⟩
  have hacted : (g.applyHints u.reads).acted a f = { G.vwrite a.dest a.answeredLanes (a.image 0) with flags := G0.flags ||| f } := by
    unfold Group.acted Access.deliver AccKind.touch
    rw [hk, hG, hG0]
  have ht0 : Group.Touched [a.dest] (g.applyHints u.reads) G0 := hG0 ▸ Group.touched_vwrite ..
  have ht := G.touched_vwrite a.dest a.answeredLanes (a.image 0)
  have hget (r : BitVec 8) : G.vget r = G0.vget r := hG ▸ rfl
  have hlife (r : BitVec 8) : G.vlife r = G0.vlife r := hG ▸ rfl
  have hvget (r : BitVec 8) : Group.vget { (g.applyHints u.reads).acted a f with l := ((g.applyHints u.reads).acted a f).l.setPath b q } r =
      (G.vwrite a.dest a.answeredLanes (a.image 0)).vget r := by
    rw [Group.vget_setPath, hacted]
    rfl
  have hvlife (r : BitVec 8) : Group.vlife { (g.applyHints u.reads).acted a f with l := ((g.applyHints u.reads).acted a f).l.setPath b q } r =
      (G.vwrite a.dest a.answeredLanes (a.image 0)).vlife r := by
    rw [Group.vlife_setPath, hacted]
    rfl
  have hsel {i : Nat} (hi : i < 128) : a.answeredLanes.getLsbD i = true ↔ actsOn s p gd i :=
    (answeredLanes_getLsbD ha hi).trans (selected_getLsbD s p gd hi)
  refine ⟨fun i hi hact => ?lanes, fun i hi hact => ?kept, ?live, fun r hr => ?others, ?preds, ?ks⟩
  case lanes =>
    rw [hvget, Group.look_vwrite _ _ _ _ hi, if_pos ((hsel hi).mpr hact), look_image ha hi ((selected_getLsbD s p gd hi).mpr hact), hk]
    exact congrArg (BitVec.setWidth 32) (extend_load n signed _)
  case kept =>
    have hnot : ¬ a.answeredLanes.getLsbD i = true := fun hm => hact ((hsel hi).mp hm)
    rw [hvget, Group.look_vwrite _ _ _ _ hi, if_neg hnot, Group.look_kept _ _ hi, hlife, ht0.live _ (List.mem_singleton_self _),
      if_pos (.inl rfl), hget, hG0, Group.look_vwrite _ _ _ _ hi, if_neg (by simp)]
    exact h.look_kept_hinted a.dest hi
  case live => exact (hvlife _).trans (ht.live _ (List.mem_singleton_self _))
  case others =>
    have hne : r ∉ [a.dest] := by simpa using hr
    obtain ⟨hv, hl⟩ := ht.others r hne
    obtain ⟨hv0, hl0⟩ := ht0.others r hne
    exact ⟨(hvget r).trans (hv.trans ((hget r).trans (hv0.trans (h.vget_hinted r)))),
      (hvlife r).trans (hl.trans ((hlife r).trans (hl0.trans (h.vlife_hinted r))))⟩
  case preds =>
    refine (LState.preds_setPath ..).trans ?_
    rw [hacted]
    exact ht.preds.trans ((hG ▸ rfl : G.l.preds = G0.l.preds).trans (ht0.preds.trans h.preds_hinted))
  case ks =>
    refine (LState.k_setPath ..).trans ?_
    rw [hacted]
    exact ht.k.trans ((hG ▸ rfl : G.l.k = G0.l.k).trans (ht0.k.trans h.k_hinted))

/-! ### A store of the own window (R204) -/

/-- A write of fewer than 8 bytes leaves every poison mark (R184). -/
theorem State.spWrite_short {bs : List Byte} (h : bs.length ≠ 8) (s : State) (core byte : Nat) :
    s.spWrite core byte bs = { s with sp := s.sp.write (core * 2 ^ 19 + byte) bs } := by
  unfold State.spWrite
  exact if_neg (by simpa using h)

/-- It keeps what differs from another device in the scratchpad alone. -/
theorem State.spWrite_between {bs : List Byte} (h : bs.length ≠ 8) {s v : State} (hv : v = { s with sp := v.sp }) (core byte : Nat) :
    v.spWrite core byte bs = { s with sp := (v.spWrite core byte bs).sp } := by
  rw [State.spWrite_short h]
  exact congrArg (fun x : State => { x with sp := v.sp.write (core * 2 ^ 19 + byte) bs }) hv

theorem State.foldl_spWrite {core : Nat} {byte : Nat → Nat} {bs : Nat → List Byte} (hbs : ∀ i, (bs i).length ≠ 8) (l : List Nat)
    (s : State) :
    l.foldl (fun v i => v.spWrite core (byte i) (bs i)) s =
      { s with sp := l.foldl (fun m i => m.write (core * 2 ^ 19 + byte i) (bs i)) s.sp } := by
  induction l generalizing s with
  | nil => rfl
  | cons i l ih =>
    rw [List.foldl_cons, State.spWrite_short (hbs i), ih]
    rfl

theorem laneSize_le (o : LOp) : laneSize o ≤ 4 := by
  unfold laneSize
  split
  · decide
  · split <;> decide

/-! ### The instructions -/

/-- What one lane of VLDSP and of VSTSP does in the own window (R204). -/
def State.loadLane (s : State) (core byte : Nat) (r : Req) : State × Word := (s, wordOf (s.spRead core byte r.size))
def State.storeLane (s : State) (core byte : Nat) (r : Req) : State × Word := (s.spWrite core byte (bytesOf r.size r.data.toNat), 0)

theorem exec_vldsp (o : LOp) (s : State) : exec (.vldsp o) s = .next (s.lLanes o (memUse o false true false true)
    (.vload (laneSize o) (o.ty == .s32)) (laneSize o) .rlx .grp [.rs] isPeer (fun _ => 0) (fun _ => 0) State.loadLane) := by
  show execVldsp o s = _
  rw [execVldsp, memSize_eq]
  rfl

theorem exec_vstsp (o : LOp) (s : State) : exec (.vstsp o) s = .next (s.lLanes o (memUse o true false false false) (.store (laneSize o))
    (laneSize o) .rlx .grp [.rs, .st] isPeer (fun i => (srcB s o i).setWidth 64) (fun _ => 0) State.storeLane) := by
  show execVstsp o s = _
  rw [execVstsp, memSize_eq]
  rfl

theorem exec_vatomsp (o : LOp) (s : State) : exec (.vatomsp o) s = .next (s.lLanes o
    (memUse o true true (o.mods.extractLsb' 3 3 == 2) false) (.vatom (o.mods.extractLsb' 3 3) o.ty) 4
    (if o.rnd = 0 then .rlx else if o.rnd = 1 then .acq else if o.rnd = 2 then .rel else .acqrel) .gang [.rs, .st] (fun _ => true)
    (fun i => (srcB s o i).setWidth 64) (fun i => (look (s.cur.vget o.vd) i 0).setWidth 64) fun s _ _ _ => (s, 0)) := by
  show execVatomsp o s = _
  rw [execVatomsp, laneAtom_eq, laneOrder_eq, modField_cas]
  rfl

/-! ### The lanes of the own window, one after another (R181, R204) -/

/-- Between two lanes of a lane access, a lane that might act at the issue may act still. -/
theorem LReady.actsIn_between {s v : State} {u : LUse} {p : Path} {vs : List Word} {g : Group} (h : LReady s u p vs g)
    (hv : v = { s with cur := g.applyHints u.reads, sp := v.sp }) {t : Team} {k : AccessKind} {va : Word} {n : Nat}
    (ha : s.ActsIn true p.mask t k va n) : v.ActsIn true v.lmask t k va n := by
  have hchecks : s.ChecksAs v := by
    rw [hv]
    exact h.checksAs.withSp v.sp
  have hmask : v.lmask = p.mask := by
    refine State.lmask_eq ?_
    rw [hv]
    exact h.path_hinted
  rw [hmask]
  exact hchecks.actsIn ha

section
variable {s : State} {o : LOp} {u : LUse} {p : Path} {vs : List Word} {g : Group} {t : Team} {n : Nat} {data cmp : Nat → Word}
  (h : LReady s u p vs g)
include h

theorem LReady.checkLocal_load (hmay : ∀ j, j < 128 → actsOn s p o.g j → isPeer (laneAddress s o vs j) = false ∧
      s.ActsIn true p.mask t .read (laneAddress s o vs j) n) :
    ({ s with cur := g.applyHints u.reads } : State).checkLocal .read isPeer
      (laneReqs (s.cur.selected p.mask o.g) (laneAddress s o vs) n data cmp) State.loadLane =
        ⟨{ s with cur := g.applyHints u.reads }, (laneReqs (s.cur.selected p.mask o.g) (laneAddress s o vs) n data cmp).map fun r =>
          r.answer (wordOf (s.spRead t.core (spByte t (offsetIn r.va)) r.size)), [], false⟩ := by
  have hacts := State.checkLocal_acts (kind := .read) (own := State.loadLane) (t := t) (P := (· = { s with cur := g.applyHints u.reads }))
    (act := fun v _ => v) (val := fun r => wordOf (s.spRead t.core (spByte t (offsetIn r.va)) r.size))
    (rs := laneReqs (s.cur.selected p.mask o.g) (laneAddress s o vs) n data cmp) (out := isPeer)
    (fun v hv => forall_laneReqs fun j hj ha => by
      obtain ⟨hown, hacts⟩ := hmay j hj ha
      subst hv
      exact ⟨hown, h.actsIn_between rfl hacts, rfl, rfl⟩) rfl
  rw [hacts, List.foldl_fixed]

theorem LReady.checkLocal_store (hn : n ≤ 4) (hmay : ∀ j, j < 128 → actsOn s p o.g j → isPeer (laneAddress s o vs j) = false ∧
      s.ActsIn true p.mask t .write (laneAddress s o vs j) n) :
    ({ s with cur := g.applyHints u.reads } : State).checkLocal .write isPeer
      (laneReqs (s.cur.selected p.mask o.g) (laneAddress s o vs) n data cmp) State.storeLane =
        ⟨{ s with
            cur := g.applyHints u.reads
            sp := (lanesOf (s.cur.selected p.mask o.g)).foldl (fun m i =>
              m.write (t.core * 2 ^ 19 + spByte t (offsetIn (laneAddress s o vs i))) (bytesOf n (data i).toNat)) s.sp },
          (laneReqs (s.cur.selected p.mask o.g) (laneAddress s o vs) n data cmp).map fun r => r.answer 0, [], false⟩ := by
  have hshort (w : Nat) : (bytesOf n w).length ≠ 8 := by
    rw [bytesOf, length_leBytes]
    omega
  have hacts := State.checkLocal_acts (kind := .write) (own := State.storeLane) (t := t)
    (P := fun v => v = { s with cur := g.applyHints u.reads, sp := v.sp })
    (act := fun v r => v.spWrite t.core (spByte t (offsetIn r.va)) (bytesOf r.size r.data.toNat)) (val := fun _ => 0)
    (rs := laneReqs (s.cur.selected p.mask o.g) (laneAddress s o vs) n data cmp) (out := isPeer)
    (fun v hv => forall_laneReqs fun j hj ha => by
      obtain ⟨hown, hacts⟩ := hmay j hj ha
      exact ⟨hown, h.actsIn_between hv hacts, rfl,
        State.spWrite_between (s := { s with cur := g.applyHints u.reads }) (hshort _) hv ..⟩)
    (v := { s with cur := g.applyHints u.reads }) rfl
  refine hacts.trans (congrArg (LaneChecks.mk · _ [] false) (List.foldl_map.trans ?_))
  exact State.foldl_spWrite (byte := fun i => spByte t (offsetIn (laneAddress s o vs i))) (fun i => hshort (data i).toNat) _ _

end

/-! ### The statement -/

/-- Settles O37: lanes of the own window act one after another, and the access ends with them; lanes that go out make one access in
flight. -/
theorem laneScratchpadAccessesAct : Obligations.LaneScratchpadAccessesAct := by
  unfold Obligations.LaneScratchpadAccessesAct
  intro s o p vs g t hredo hacq hsel hrs hst n addr chosen place own out data goesOut
  have acts {k : AccessKind} (h : own k) (j : Nat) (hj : j < 128) (ha : actsOn s p o.g j) :
      isPeer (laneAddress s o vs j) = false ∧ s.ActsIn true p.mask t k (laneAddress s o vs j) n := by
    obtain ⟨hown, htarget, hclear, hbank⟩ := h j hj ha
    exact ⟨hown, htarget, hclear, hbank⟩
  have hroom : [Counter.rs].any s.cur.full = false := by simp [Group.full_of_lt hrs]
  have hroom2 : [Counter.rs, .st].any s.cur.full = false := by simp [Group.full_of_lt hrs, Group.full_of_lt hst]
  refine ⟨fun h hmay => ?load, fun h hrel hmay => ?store, fun h hout => ?vldsp, fun h hout => ?vstsp, fun peer h hout => ?vatomsp⟩
  case load =>
    have hcheck := h.checkLocal_load (data := fun _ => 0) (cmp := fun _ => 0) (acts hmay)
    obtain ⟨a, f, hk, hdest, hreqs, haccs, hexec⟩ := exec_lLanes_acted hredo hacq hsel (memUse_late ..) (exec_vldsp o s) h
      (fun hw => absurd hw (by simp [AccKind.writes])) hcheck rfl (Group.touched_vload _ _ _) fun a x hk => by
        unfold Access.deliver
        rw [hk]
        exact x.regsFrom_vwrite ..
    refine ⟨_, hexec, haccs, Group.path_setPath_same .., ?_, rfl, fun _ => rfl⟩
    have hwrites := LWrites.of_acted (w := { s with cur := g.applyHints (memUse o false true false true).reads }) (f := f) (b := s.ps1)
      (q := some ⟨p.pc + 3, p.mask⟩) h hk hreqs
    rw [hdest] at hwrites
    exact hwrites
  case store =>
    have hcheck := h.checkLocal_store (data := data) (cmp := fun _ => 0) (laneSize_le o) (acts hmay)
    obtain ⟨a, f, hk, -, -, haccs, hexec⟩ := exec_lLanes_acted hredo hacq hsel (memUse_late ..) (exec_vstsp o s) h
      (fun _ => hrel) hcheck rfl (Group.touched_store _ _) fun a x hk => by
        unfold Access.deliver
        rw [hk]
        exact .refl x
    refine ⟨_, hexec, haccs, Group.path_setPath_same .., rfl, fun r => (Group.vget_setPath ..).trans ?_, rfl, fun _ => rfl⟩
    unfold Group.acted Access.deliver AccKind.touch
    rw [hk]
    exact h.vget_hinted r
  case vldsp =>
    exact IssuesLanes.of_lLanes hredo hacq hsel (memUse_late ..) (exec_vldsp o s) h (Group.touched_vload _ _ _) (peer := true)
      (fun j hj ha => ⟨(hout j hj ha).1, (hout j hj ha).1, (hout j hj ha).2⟩) hroom
  case vstsp =>
    exact IssuesLanes.of_lLanes hredo hacq hsel (memUse_late ..) (exec_vstsp o s) h (Group.touched_store _ _) (peer := true)
      (fun j hj ha => ⟨(hout j hj ha).1, (hout j hj ha).1, (hout j hj ha).2⟩) hroom2
  case vatomsp =>
    exact IssuesLanes.of_lLanes hredo hacq hsel (memUse_late ..) (exec_vatomsp o s) h (Group.touched_vatom _ _ _)
      (fun j hj ha => ⟨(hout j hj ha).1, rfl, (hout j hj ha).2⟩) hroom2

end Sys2Proof.Machine
end

section
/-! Fences of both streams, the waits of the L-stream on its counters, and prefetches (R198, R207 to R211). -/

namespace Sys2Proof.Machine

/-! ### Fences (R208, R211) -/

section
variable {s t : State} {k : FenceKind} {grp l : Bool} {m : Mask} {go : State → State}

/-- A fence of GRP scope, an ACQ fence, and an SC fence that no store comes before bind nothing. -/
theorem State.fence_goes (h : grp = true ∨ k = .acq ∨ k = .sc ∧ s.storesBefore l m = false) : s.fence t k grp l m go = go t := by
  unfold State.fence
  rcases h with rfl | rfl | ⟨rfl, hs⟩
  · rfl
  · exact ite_self _
  · rw [hs]
    exact ite_self _

/-- A REL or ACQREL fence binds the stream. -/
theorem State.fence_binds (h : k = .rel ∨ k = .acqrel) (hg : grp = false) : s.fence t k grp l m go = go (t.mapCur fun g => g.fence l m) := by
  subst hg
  rcases h with rfl | rfl <;> rfl

/-- An SC fence waits for the stores before it. -/
theorem State.fence_waits (h : k = .sc) (hg : grp = false) (hs : s.storesBefore l m = true) : s.fence t k grp l m go = s := by
  subst h hg
  unfold State.fence
  rw [hs]
  rfl

end

/-- What a fence binds comes before each later write of the S-stream (R208). -/
theorem Group.mem_needsOf_fence {g : Group} {a : Access} (ha : a ∈ g.accs) (hb : g.before false 0 a = true) (o : Order) (sc : Scope) :
    a.seq ∈ (g.fence false 0).needsOf false 0 true o sc := by
  have hmark : a.seq ∈ (g.accs.filter (g.before false 0)).map Access.seq := List.mem_map_of_mem (List.mem_filter.mpr ⟨ha, hb⟩)
  exact List.mem_append_right _ (List.mem_flatMap.mpr ⟨_, List.mem_filter.mpr ⟨List.mem_cons_self, rfl⟩, hmark⟩)

theorem exec_fence_ready {s : State} (h : SReady s .user [] false) (k : FenceKind) (sc : Scope) :
    exec (.fence k sc) s = .next (s.fence s k (sc == .grp) false 0 fun s => s.nextPc 4) :=
  congrArg Host.Outcome.next (State.sIssue_ready h)

/-! ### FENCE.REM (R210) -/

/-- The targets of FENCE.REM and the marks of those that have marked their point. -/
def State.remTargets (s : State) (sc : Scope) : List (Nat × Option Nat) :=
  ((s.inScope sc).map fun g => (g.uid, none)) ++ if s.cur.storesOut then [(s.cur.uid, some s.cur.seq)] else []

theorem exec_fenceRem_waits {s : State} {sc : Scope} (h : SReady s .user [] false) (hg : sc ≠ .grp) (hs : s.storesBefore false 0 = true) :
    exec (.fenceRem sc) s = .next s := by
  have hwait : (sc != .grp && s.storesBefore false 0) = true := by
    rw [hs, Bool.and_true]
    exact bne_iff_ne.mpr hg
  show execFenceRem sc s = _
  rw [execFenceRem, State.sIssue_ready h, if_pos hwait]

theorem exec_fenceRem_goes {s : State} {sc : Scope} (h : SReady s .user [] false) (hs : s.storesBefore false 0 = false ∨ sc = .grp) :
    exec (.fenceRem sc) s = .next (match s.remTargets sc with
      | [] => s.nextPc 4
      | ts => s.mapCur fun g => { g with wait := .fenceRem ts }) := by
  have hgo : (sc != .grp && s.storesBefore false 0) = false := by
    rcases hs with hs | rfl
    · rw [hs, Bool.and_false]
    · rfl
  show execFenceRem sc s = _
  rw [execFenceRem, State.sIssue_ready h, hgo]
  rfl

theorem State.remTargets_nil {s : State} {sc : Scope} (h : s.inScope sc = [] ∧ s.cur.storesOut = false) : s.remTargets sc = [] := by
  rw [State.remTargets, h.1, h.2]
  rfl

theorem State.remTargets_ne_nil {s : State} {sc : Scope} (h : s.inScope sc ≠ [] ∨ s.cur.storesOut = true) : s.remTargets sc ≠ [] := by
  unfold State.remTargets
  rcases h with h | h
  · exact List.append_ne_nil_of_left_ne_nil (by simpa using h) _
  · rw [h]
    exact List.append_ne_nil_of_right_ne_nil _ (List.cons_ne_nil _ _)

/-- A change of the issuing group by its name, where no other group has the name. -/
theorem State.mapGroup_cur {s : State} (h : ∀ g ∈ s.others, g.uid ≠ s.cur.uid) (f : Group → Group) : s.mapGroup s.cur.uid f = s.mapCur f := by
  have hothers : mapIf s.others (fun g => g.uid == s.cur.uid) f = s.others := by
    refine (List.map_congr_left fun g hg => ?_).trans (List.map_id _)
    rw [if_neg (by simpa using h g hg)]
    rfl
  rw [State.mapGroup, hothers, if_pos (beq_self_eq_true _)]
  rfl

/-- Outside a handler a change of the waits is one of the group's own. -/
theorem Group.mapWait_user {g : Group} {p : SWait → Bool} (hh : g.handler = none) (hp : p g.wait = true) (f : SWait → SWait) :
    g.mapWait p f = { g with wait := f g.wait } := by
  rw [Group.mapWait, hp, hh]
  rfl

section
variable {s : State} {x : Group} {m : Option Nat} (hh : s.cur.handler = none) (hw : s.cur.wait = .fenceRem [(x.uid, m)])
  (hn : ∀ g ∈ s.others, g.uid ≠ s.cur.uid)
include hh hw hn

/-- A drain request marks the point of its target. -/
theorem exec_remDrainRequest_marks (hx : s.group? x.uid = some x) (hm : m = none) : exec (.remDrainRequest s.cur.uid x.uid) s =
    .next (s.mapCur fun g => { g with wait := .fenceRem [(x.uid, some x.seq)] }) := by
  have hwait : isFenceRem s.cur.wait = true := by rw [hw]; rfl
  show execRemDrainRequest s.cur.uid x.uid s = _
  unfold execRemDrainRequest
  rw [hx]
  dsimp only
  rw [State.mapGroup_cur hn, State.mapCur, Group.mapWait_user hh hwait, hw, hm]
  simp [State.mapCur, fenceTargets, mapIf]

/-- The last target that acknowledges lets the fence go on. -/
theorem exec_remDrainAck_goes (hack : s.acked s.cur.uid (x.uid, m) = true) : exec (.remDrainAck s.cur.uid x.uid) s =
    .next (s.mapCur fun g => { g with wait := .none, s := { g.s with pc := g.s.pc + 4 } }) := by
  have hwait : isFenceRem s.cur.wait = true := by rw [hw]; rfl
  have hleft : (fenceTargets s.cur.wait).filter (fun y => !(y.1 == x.uid && s.acked s.cur.uid y)) = [] := by simp [hw, fenceTargets, hack]
  show execRemDrainAck s.cur.uid x.uid s = _
  unfold execRemDrainAck
  rw [State.mapGroup_cur hn, State.mapCur, Group.mapWait_user hh hwait, hleft]
  rfl

end

/-- A target that has gone into a handler, or whose stores before its mark are performed, acknowledges (R210). -/
theorem State.acked_of_drained {s : State} {x : Group} {uid p : Nat} (hx : s.group? x.uid = some x) (hne : x.uid ≠ uid)
    (h : x.handler.isSome = true ∨ ∀ a ∈ x.accs, a.seq < p → a.valued = true ∨ a.allKnown = true) : s.acked uid (x.uid, some p) = true := by
  unfold State.acked
  dsimp only
  rw [hx]
  rcases h with h | h
  · simp [Group.away, h, hne]
  · have hdrained : x.drained p = true := by
      simp only [Group.drained, Bool.not_eq_true', List.any_eq_false, Bool.and_eq_true, decide_eq_true_eq, not_and]
      intro a ha hopen hlt
      rcases h a ha hlt with hv | hk
      · simp [hv] at hopen
      · simp [hk] at hopen
    simp only [hdrained, Bool.or_true]

/-! ### VFENCE and VWAITC (R198, R211) -/

section
variable {s : State} {o : LOp} {p : Path} {vs : List Word} {g : Group}

theorem exec_vfence_ready (h : LReady s { free := false } p vs g) : exec (.vfence o) s =
    .next (s.fence (s.mapCur (Group.grow · p.mask)) (fenceKindOf (o.mods.extractLsb' 3 2).toNat) (o.mods.extractLsb' 0 3 == 0) true p.mask
      State.lNext) := by
  have hgrp : (modField o 0 3 == 0) = (o.mods.extractLsb' 0 3 == 0) := by
    rw [modField_eq, Bool.eq_iff_iff, beq_iff_eq, beq_iff_eq]
    exact BitVec.toNat_inj (y := 0)
  show execVfence o s = _
  rw [execVfence, State.lIssue_plain h, hgrp, modField_eq]

/-- The path goes on from a group that stands where it stood. -/
theorem State.lNext_mapCur (hp : s.cur.path s.ps1 = some p) {f : Group → Group} (hf : (f s.cur).l = s.cur.l) :
    (s.mapCur f).lNext = { s with cur := { f s.cur with l := s.cur.l.setPath s.ps1 (some ⟨p.pc + 3, p.mask⟩) } } := by
  have hpath : (s.mapCur f).cur.path (s.mapCur f).ps1 = some p := by
    rw [← hp]
    unfold Group.path
    rw [State.mapCur_cur, hf]
    rfl
  rw [State.lNext_eq hpath]
  dsimp only [State.mapCur]
  rw [hf]

theorem exec_vwaitc_ready (h : LReady s {} p vs g) (hld : s.cur.count .ld ≤ (o.w2.extractLsb' (8 * 0) 8).toNat)
    (hst : s.cur.count .st ≤ (o.w2.extractLsb' (8 * 1) 8).toNat) (hcp : s.cur.count .cp ≤ (o.w2.extractLsb' (8 * 2) 8).toNat)
    (hmx : s.cur.count .mx ≤ (o.w2.extractLsb' (8 * 3) 8).toNat) (hrs : s.cur.count .rs ≤ o.vd.toNat) :
    exec (.vwaitc o) s = .next s.lNext := by
  show execVwaitc o s = _
  rw [execVwaitc, State.lIssue_plain h]
  simp only [hld, hst, hcp, hmx, hrs, decide_true, Bool.and_self, if_true]

end

/-! ### VPREF (R207) -/

/-- A prefetch changes the TLB of the core alone. -/
theorem State.prefetch_eq (s : State) (va : Word) : s.prefetch va = { s with cores := (s.prefetch va).cores } := by
  unfold State.prefetch
  dsimp only
  split
  · rfl
  · split
    · rfl
    · split <;> rfl

theorem State.foldl_prefetch_eq (f : Nat → Word) (is : List Nat) (s : State) :
    is.foldl (fun t i => t.prefetch (f i)) s = { s with cores := (is.foldl (fun t i => t.prefetch (f i)) s).cores } := by
  induction is generalizing s with
  | nil => rfl
  | cons i is ih =>
    rw [List.foldl_cons, ih, s.prefetch_eq (f i)]

/-- The device after the prefetches of a VPREF: those of its selected lanes under .tlb, else none. -/
def State.prefetches (s : State) (o : LOp) (sel : Mask) (addr : Nat → Word) : State :=
  if modField o 3 3 == 1 then (lanesOf sel).foldl (fun t i => t.prefetch (addr i)) s else s

theorem State.prefetches_eq (s : State) (o : LOp) (sel : Mask) (addr : Nat → Word) :
    s.prefetches o sel addr = { s with cores := (s.prefetches o sel addr).cores } := by
  unfold State.prefetches
  split
  · exact State.foldl_prefetch_eq ..
  · rfl

theorem exec_vpref_ready {s : State} {o : LOp} {p : Path} {vs : List Word} {g : Group} (h : LReady s (memUse o false false false true) p vs g) :
    exec (.vpref o) s = .next (State.prefetches { s with cur := g.applyHints (memUse o false false false true).reads } o
      (s.cur.selected p.mask o.g) fun i => s.cur.laneAddr o vs i).lNext := by
  show execVpref o s = _
  rw [execVpref, State.lIssue_ready h (memUse_late ..)]
  rfl

/-! ### The statement -/

/-- Settles O16: the cases of a fence, of FENCE.REM and its events, and the prefetches in the order of their lanes. -/
theorem fencesGoOnWhenDrained : Obligations.FencesGoOnWhenDrained := by
  unfold Obligations.FencesGoOnWhenDrained
  refine ⟨fun s k sc => ⟨fun hr => ⟨fun hgo => ?light, fun hk hg => ⟨?binds, fun a ha hb o sc' => Group.mem_needsOf_fence ha hb o sc'⟩,
      fun hk hg hs => ⟨?waits, exec_fenceRem_waits hr hg hs⟩, fun hs => ⟨fun hk => ?drained, fun hnone => ?empty, fun hsome => ?asks⟩, ?own⟩,
    fun x m hh hw hne hx hn => ⟨fun hm => exec_remDrainRequest_marks hh hw hn hx hm, fun q hq hd => ?ack⟩⟩,
    fun s o p vs g => ⟨fun h => ⟨fun hgo => ?vgoes, fun hg hk hs => ?vwaits, fun hg hk => ?vbinds⟩,
      fun h hld hst hcp hmx hrs => ?vwaitc, fun h => ?vpref⟩⟩
  case light =>
    refine (exec_fence_ready hr k sc).trans (congrArg Host.Outcome.next (State.fence_goes ?_))
    rcases hgo with hk | rfl
    · exact .inr (.inl hk)
    · exact .inl rfl
  case binds => exact (exec_fence_ready hr k sc).trans (congrArg Host.Outcome.next (State.fence_binds hk (beq_false_of_ne hg)))
  case waits => exact (exec_fence_ready hr k sc).trans (congrArg Host.Outcome.next (State.fence_waits hk (beq_false_of_ne hg) hs))
  case drained =>
    refine (exec_fence_ready hr k sc).trans (congrArg Host.Outcome.next (State.fence_goes ?_))
    rcases hs with hs | rfl
    · exact .inr (.inr ⟨hk, hs⟩)
    · exact .inl rfl
  case empty =>
    refine (exec_fenceRem_goes hr hs).trans ?_
    rw [State.remTargets_nil hnone]
    rfl
  case asks =>
    refine (exec_fenceRem_goes hr hs).trans ?_
    obtain ⟨x, xs, hts⟩ := List.exists_cons_of_ne_nil (State.remTargets_ne_nil hsome)
    show _ = Host.Outcome.next (s.mapCur fun g => { g with wait := .fenceRem (s.remTargets sc) })
    rw [hts]
  case own =>
    show execFenceOwn s = _
    rw [execFenceOwn, State.sIssue_ready hr]
    rfl
  case ack => exact exec_remDrainAck_goes hh hw hn (hq ▸ State.acked_of_drained hx hne hd)
  case vgoes =>
    have hnext := State.lNext_mapCur h.path (f := (Group.grow · p.mask)) rfl
    refine (exec_vfence_ready h).trans (congrArg Host.Outcome.next ((State.fence_goes ?_).trans hnext))
    rcases hgo with hg | hk | ⟨hk, hs⟩
    · exact .inl (beq_iff_eq.mpr hg)
    · exact .inr (.inl (by rw [hk]; rfl))
    · exact .inr (.inr ⟨by rw [hk]; rfl, hs⟩)
  case vwaits =>
    exact (exec_vfence_ready h).trans (congrArg Host.Outcome.next (State.fence_waits (by rw [hk]; rfl) (beq_false_of_ne hg) hs))
  case vbinds =>
    have hnext := State.lNext_mapCur h.path (f := fun g => (g.grow p.mask).fence true p.mask) rfl
    have hkind : fenceKindOf (o.mods.extractLsb' 3 2).toNat = .rel ∨ fenceKindOf (o.mods.extractLsb' 3 2).toNat = .acqrel := by
      rcases hk with hk | hk
      · exact .inl (by rw [hk]; rfl)
      · exact .inr (by rw [hk]; rfl)
    exact (exec_vfence_ready h).trans (congrArg Host.Outcome.next ((State.fence_binds hkind (beq_false_of_ne hg)).trans hnext))
  case vwaitc =>
    exact (exec_vwaitc_ready h hld hst hcp hmx hrs).trans (congrArg Host.Outcome.next (State.lNext_eq h.path))
  case vpref =>
    have hexec := exec_vpref_ready h
    rw [State.prefetches_eq, State.lNext_eq (p := p) h.path_hinted] at hexec
    have hfrom : ({ s.cur with dq := g.dq } : Group).LivesFrom (g.applyHints (memUse o false false false true).reads) :=
      Group.pops_got h.values ▸ g.livesFrom_applyHints _
    refine ⟨_, hexec, Group.path_setPath_same .., ?dq, fun r => ⟨?value, ?life⟩, rfl, fun _ => rfl, fun hl2 => ?cores⟩
    case dq =>
      show (g.applyHints _).dq = g.dq
      rw [hfrom]
    case value => exact (Group.vget_setPath ..).trans (h.vget_hinted r)
    case life => exact (Group.vlife_setPath ..).trans (h.vlife_hinted r)
    case cores =>
      have hno : (modField o 3 3 == 1) = false := by
        rw [modField_eq]
        exact beq_false_of_ne fun h1 => hl2 (BitVec.eq_of_toNat_eq h1)
      show (State.prefetches _ o _ _).cores = s.cores
      unfold State.prefetches
      rw [hno]
      rfl

end Sys2Proof.Machine
end

section
/-! MWAIT (R212). -/

namespace Sys2Proof.Machine

/-! ### What a read leaves of the issuing group -/

/-- What the registers of the issuing group are read and written by: their values, the name of the group, and whether it is in a
handler (R308). -/
def State.caller (s : State) : SState × Nat × Bool := (s.cur.s, s.cur.uid, s.cur.handler.isSome)

/-- A change of the waits of a group leaves whether it is in a handler. -/
theorem Group.handler_mapWait (g : Group) (p : SWait → Bool) (f : SWait → SWait) : (g.mapWait p f).handler.isSome = g.handler.isSome :=
  Option.isSome_map

/-- A write wakes at most who waits on its line (R212). -/
theorem State.wakeLine_caller (s : State) (line : Nat) : (s.wakeLine line).caller = s.caller := by
  unfold State.caller State.wakeLine State.mapGroups
  dsimp only
  split
  · rw [Group.handler_mapWait]
    rfl
  · rfl

theorem State.caller_untouched : State.Untouched State.caller where
  holdIf s h := congrArg (fun g : Group => (g.s, g.uid, g.handler.isSome)) (s.holdIf_cur h)
  memWrite _ _ _ _ := State.wakeLine_caller ..
  mapCore _ _ _ := rfl
  qtlbs _ _ := rfl

theorem State.uid_of_caller {s u : State} (h : u.caller = s.caller) : u.cur.uid = s.cur.uid := congrArg (fun c => c.2.1) h

theorem State.sLegal_of_caller {s u : State} (h : u.caller = s.caller) (r : SReg) : u.cur.sLegal r = s.cur.sLegal r := by
  have hhandler : u.cur.handler.isSome = s.cur.handler.isSome := congrArg (fun c => c.2.2) h
  unfold Group.sLegal
  rw [hhandler]

namespace State.Untouched

variable {β : Type} {p : State → β} (hp : State.Untouched p)
include hp

theorem checkRange (s : State) (kind : AccessKind) (va : Word) (align n : Nat) : p (s.checkRange kind va align n).st = p s := by
  unfold State.checkRange
  split
  · rfl
  · split
    · rfl
    · dsimp only
      split
      · exact hp.translate ..
      · split <;> exact hp.translate ..

theorem mwaitRead (s : State) (va : Word) : p (s.mwaitRead va).2 = p s := by
  unfold State.mwaitRead
  dsimp only
  split
  · exact hp.checkRange ..
  · split
    · exact hp.checkRange ..
    · split <;> exact hp.checkRange ..

end State.Untouched

/-- A register write and the move to the next instruction, in a device that a translation left. -/
theorem WritesFrom.of_sput {s u : State} {i : Instr} {d : SReg} {v : Word} {n : Nat} (hd : u.cur.sLegal d = true)
    (h : exec i s = .next ((u.sput d v).nextPc n)) : WritesFrom s u i d v n :=
  ⟨_, h, State.sget_sput_same u d v hd, fun r hr => State.sget_sput_ne u d r v hr,
    congrArg (· + BitVec.ofNat 64 n) (SState.put_pc ..), SState.put_flags .., rfl, fun _ => rfl⟩

/-! ### The instruction -/

section
variable {s u : State} {pa : Nat} {x : Word}

theorem exec_mwait_read {d a b : SReg} (h : SReady s .user [d, a, b] false) (hr : s.mwaitRead (s.sget a) = (.inr (pa, x), u)) (ord : Order)
    (sc : Scope) (tmo : BitVec 27) : exec (.mwait ord sc d a b tmo) s = .next (if x != s.sget b then (u.sput d x).nextPc 8
      else u.mapCur fun g => { g with wait := .mwait s.time (s.place pa / 64) false d (s.sget a) (s.sget b) tmo.toNat }) := by
  show execMwait ord sc d a b tmo s = _
  unfold execMwait
  dsimp only
  rw [State.sIssue_ready h, hr]

/-! ### A sleep that ends -/

section
variable {start line tmo : Nat} {woken : Bool} {d : SReg} {va cmp : Word} (hw : s.cur.wait = .mwait start line woken d va cmp tmo)
  (hr : s.mwaitRead va = (.inr (pa, x), u))
include hw hr

/-- A sleep ends with a value that differs, and with any value at its time limit. -/
theorem State.mwaitAgain_returns (h : x ≠ cmp ∨ tmo ≠ 0 ∧ 1000 * tmo ≤ s.time - start) :
    s.mwaitAgain = ((u.mapCur fun g => { g with wait := .none }).sput d x).nextPc 8 := by
  have hends : (x != cmp || (tmo != 0 && decide (1000 * tmo ≤ s.time - start))) = true := by
    rcases h with h | ⟨h0, ht⟩
    · rw [bne_iff_ne.mpr h, Bool.true_or]
    · rw [bne_iff_ne.mpr h0, decide_eq_true ht, Bool.and_self, Bool.or_true]
  simp only [State.mwaitAgain, hw, hr, hends, if_true]

/-- An event of the group that has its MWAIT read again returns the value. -/
theorem mwaitAgain_event {i : Instr} {f : State → State} (hexec : exec i s = .next (s.withGroup s.cur.uid f)) (hf : f s = s.mwaitAgain)
    (hd : d.toNat < 96) (h : x ≠ cmp ∨ tmo ≠ 0 ∧ 1000 * tmo ≤ s.time - start) :
    ∃ t, exec i s = .next t ∧ t.cur.wait = .none ∧ t.sget d = x ∧ (∀ r, r ≠ d → t.sget r = u.sget r) ∧ t.cur.s.pc = u.cur.s.pc + 8 ∧
      SameMem u t := by
  have huid : u.cur.uid = s.cur.uid := by
    have hcaller := State.caller_untouched.mwaitRead s va
    rw [hr] at hcaller
    exact State.uid_of_caller hcaller
  have hreturns := hf.trans (State.mwaitAgain_returns hw hr h)
  rw [State.withGroup_self (by rw [hreturns]; exact huid), hreturns] at hexec
  refine ⟨_, hexec, rfl, SState.get_put_same _ d x (by omega), fun r hr => SState.get_put_ne _ d r x hr, ?_, fun _ => rfl⟩
  exact congrArg (· + 8#64) (SState.put_pc ..)

end

end

/-- Settles O17: the one read of MWAIT, at its issue or after a sleep, and the value that it returns. -/
theorem waitOnAWordReturnsIt : Obligations.WaitOnAWordReturnsIt := by
  unfold Obligations.WaitOnAWordReturnsIt
  intro s u pa x
  refine ⟨fun ord sc d a b tmo h hr => ⟨fun hne => ?returns, fun heq => ?sleeps⟩,
    fun start line tmo woken d va cmp hw hi hd hr => ⟨fun hwoken hne => ?wake, fun h0 ht => ?timeout⟩⟩
  case returns =>
    have hcaller := State.caller_untouched.mwaitRead s (s.sget a)
    rw [hr] at hcaller
    refine WritesFrom.of_sput ((State.sLegal_of_caller hcaller d).trans (h.legal d List.mem_cons_self)) ?_
    rw [exec_mwait_read h hr, if_pos (bne_iff_ne.mpr hne)]
  case sleeps =>
    rw [exec_mwait_read h hr, heq, bne_self_eq_false]
    rfl
  case wake =>
    refine mwaitAgain_event hw hr rfl ?_ hd (.inl hne)
    simp only [hw, hwoken, hi, Bool.and_self, if_true]
  case timeout =>
    refine mwaitAgain_event hw hr rfl ?_ hd (.inr ⟨h0, ht⟩)
    simp only [hw, bne_iff_ne.mpr h0, decide_eq_true ht, hi, Bool.and_self, if_true]

end Sys2Proof.Machine
end

section
/-! Work queues: the issue of QTAKE and QPUT, and the one response that reads the queue and moves its index (R194, R196, R213, R214). -/

namespace Sys2Proof.Machine

/-! ### Issue (R194, R196) -/

theorem IssuesOne.of_queueGo {s : State} {i : Instr} {put : Bool} {sc : Scope} {d : SReg} {va data : Word} {pa : Nat}
    (h : exec i s = .next (s.queueGo put sc d va data)) (hroom : put = true → s.cur.count .st < 255)
    (hpa : (s.checkRange .atomic va 64 64).res = .inr pa) :
    IssuesOne s (s.checkRange .atomic va 64 64).st i (.queue put) d (if put then .rel else .acq) sc false (reqOf 255 va pa 64 data 0)
      (if put then [.st] else []) 8 := by
  have hfull : (put && s.cur.full .st) = false := by
    cases put
    · rfl
    · exact Group.full_of_lt (hroom rfl)
  refine IssuesOne.of_push ?_
  rw [h, State.queueGo, hfull]
  simp only [Bool.false_eq_true, if_false, hpa]

/-! ### The turn of an operation under FREE (R381) -/

section
variable {s t : State} {g : Group} {c : Choice} (h : s.isFree g = true) (hpart : c.part = (s.ctxOf g).part) (hctx : c.ctx = (s.ctxOf g).id)
include h hpart hctx

/-- Under FREE a choice is made at once (R384). -/
theorem State.trailAsk_free : s.trailAsk c = .go none := by
  unfold State.trailAsk
  rcases State.governs_free h hpart hctx with hg | hmode
  · rw [hg]
    rfl
  · simp [hmode]

/-- Under FREE a choice leaves no record (R384). -/
theorem State.trailMark_free (hparts : t.parts = s.parts) (q : Option (Bool × Nat)) : t.trailMark c none q = t := by
  have hfree : t.governs c = false ∨ (t.part c.part).mode = 0 := by
    unfold State.governs State.part
    rw [hparts]
    exact State.governs_free h hpart hctx
  unfold State.trailMark
  rcases hfree with hg | hmode
  · rw [hg]
    rfl
  · simp [hmode]

end

/-- Under FREE the queue alone decides whether an operation acts (R214). -/
theorem State.queueTurn_free {s : State} (h : s.isFree s.cur = true) (put : Bool) (r : Req) (q : Queue) :
    s.queueTurn put r q = if q.can put false then .act none else .empty none := by
  unfold State.queueTurn
  dsimp only
  rw [State.trailAsk_free h (c := s.queueChoice put r) rfl rfl, h]
  rfl

/-- A QTAKE of a queue that holds from 1 to its capacity of entries may act (R214). -/
theorem Queue.can_take {q : Queue} (h0 : 1 ≤ (q.tail - q.head).toNat) (hcap : (q.tail - q.head).toNat ≤ q.cap) : q.can false false = true := by
  have hne : q.tail - q.head ≠ 0 := fun h => by simp [h] at h0
  simp only [Queue.can, Bool.false_eq_true, if_false, Bool.false_or, bne_iff_ne.mpr hne, decide_eq_true hcap, Bool.and_self]

theorem Queue.can_take_empty {q : Queue} (h : (q.tail - q.head).toNat = 0) : q.can false false = false := by
  have hzero : q.tail - q.head = 0 := BitVec.eq_of_toNat_eq h
  simp [Queue.can, hzero]

theorem Queue.can_put (q : Queue) : q.can true false = decide ((q.tail - q.head).toNat < q.cap) := rfl

/-! ### What a write leaves of the issuing group -/

/-- A device whose issuing group differs from that of another in its waits alone. -/
def State.SameButWaits (s t : State) : Prop := ∃ wait h, t.cur = { s.cur with wait := wait, handler := h }

theorem State.SameButWaits.of_cur {s t : State} (h : t.cur = s.cur) : s.SameButWaits t := ⟨s.cur.wait, s.cur.handler, h⟩

theorem State.SameButWaits.trans {s t u : State} (h : s.SameButWaits t) (h' : t.SameButWaits u) : s.SameButWaits u := by
  obtain ⟨w, x, ht⟩ := h
  obtain ⟨w', x', hu⟩ := h'
  exact ⟨w', x', by rw [hu, ht]⟩

theorem State.sameButWaits_memWrite (s : State) (w : Byte) (pa : Nat) (bs : List Byte) : s.SameButWaits (s.memWrite w pa bs) :=
  s.memWrite_cur w pa bs

/-! ### The response of the only access of a group -/

/-- The end of the only access of a group that gives a scalar register its value (R194). -/
theorem State.completeAccess_puts {s : State} {a : Access} {d : SReg} {v : Word} (hdeliver : ∀ g, a.deliver g = { g with s := g.s.put d v })
    (ha : s.cur.accs = [a]) : ∃ tokens flags sflags, s.completeAccess a = s.mapCur fun g => { g with
      s := { g.s.put d v with flags := sflags }, accs := [], tokens := tokens, flags := flags } := by
  have haccs : ((s.cur.accs.map (a.deliverSnap s.cur)).filter fun b => b.seq != a.seq) = [] := by
    simp [ha, Access.deliverSnap]
  unfold State.completeAccess State.mapCur
  dsimp only
  rw [Group.endAcc_eq, hdeliver]
  dsimp only
  rw [haccs]
  exact ⟨_, _, _, rfl⟩

/-- A queue operation gives its register its answer (R214). -/
theorem Access.deliver_queue {a : Access} {put : Bool} (hk : a.kind = .queue put) (r : Req) (v : Word) (g : Group) :
    (a.answered r v).deliver g = { g with s := g.s.put (a.dest.setWidth 7) v } := by
  simp [Access.deliver, Access.answered, hk, AccKind.extend]

namespace OnlyAccess

section
variable {s : State} {a : Access} {r : Req} (h : OnlyAccess s a r)
include h

/-- It is the only access of the group of another device too. -/
theorem of_cur {v : State} (hcur : v.cur = s.cur) : OnlyAccess v a r :=
  ⟨hcur ▸ h.accs, h.reqs, h.scalar, h.clean, h.first, hcur ▸ h.alone⟩

/-- Nothing but a level in change holds a write of it, at any address. -/
theorem writeHeld_eq (q : Req) : s.writeHeld a q = s.levelHeld q.pa := by
  have hself : a.prior.contains a.seq = false := by simpa using h.first.1
  rw [State.writeHeld, h.needsOut, State.olderMeets, State.othersMeet, h.othersOut, h.accs]
  simp only [List.any_cons, List.any_nil, hself, Bool.false_and, Bool.or_false]

section
variable {put : Bool} (hk : a.kind = .queue put)
include hk

/-- Once its request is answered the response ends it (R194). -/
theorem queueResponse_completes {w : State} {v : Word} (hans : s.someReqs a id (fun s a r => s.answerQueue put a r) = w)
    (haccs : w.cur.accs = [a.answered r v]) : s.loadResponse a.seq = w.completeAccess (a.answered r v) := by
  have hfind : w.cur.acc? a.seq = some (a.answered r v) := Group.acc?_single (a := a.answered r v) haccs
  have hcan : w.cur.canDeliver (a.answered r v) = true := by simp [Group.canDeliver, Access.destRegs, Access.answered, hk]
  simp only [State.loadResponse, Group.acc?_single h.accs, hk, hans, hfind]
  simp only [State.finishAccess, Access.answered_known, hcan, Access.answered_failed v h.clean.1 h.clean.2.2, Bool.not_true, Bool.and_false,
    Bool.false_eq_true, if_false]

/-- Its answer gives the register of a queue operation its value and ends the access; the rest of the device is as the operation left it
(R194, R214). -/
theorem queueResponse_ends {t : State} {v : Word} {d : SReg} (hans : s.answerQueue put a r = (t, { r with ans := some v }))
    (hcur : s.SameButWaits t) (hdest : a.dest = d.setWidth 8) (hd : d.toNat < 96 ∨ d = 127#7) :
    ∃ u, exec (.loadResponse s.cur.uid a.seq) s = .next u ∧ u.cur.accs = [] ∧ u.sget d = (if d = 127#7 then 0 else v) ∧
      (∀ p, p ≠ d → u.sget p = s.sget p) ∧ u.cur.s.pc = s.cur.s.pc ∧ u.mem = t.mem := by
  obtain ⟨wait, hh, hcur⟩ := hcur
  obtain ⟨w, hw⟩ : ∃ w, w = t.mapCur fun g => g.setReq a.seq 0 { r with ans := some v } := ⟨_, rfl⟩
  have haccs : w.cur.accs = [a.answered r v] := by
    rw [hw]
    exact h.setReq_accs (g := t.cur) (by rw [hcur]) v
  have hws : w.cur.s = s.cur.s := by
    rw [hw, State.mapCur, hcur]
    rfl
  have hreg : a.dest.setWidth 7 = d := by
    rw [hdest, BitVec.setWidth_setWidth_of_le _ (by decide), BitVec.setWidth_eq]
  obtain ⟨tokens, flags, sflags, hend⟩ := State.completeAccess_puts (hreg ▸ Access.deliver_queue hk r v) haccs
  have hresp := (h.queueResponse_completes hk (by rw [h.someReqs, hans, hw]) haccs).trans hend
  have huid : (s.loadResponse a.seq).cur.uid = s.cur.uid := by
    rw [hresp, hw, State.mapCur, State.mapCur, hcur]
    rfl
  have hexec : exec (.loadResponse s.cur.uid a.seq) s = .next (s.loadResponse a.seq) :=
    congrArg Host.Outcome.next (State.withGroup_self (f := fun s => s.loadResponse a.seq) huid)
  have hs : (s.loadResponse a.seq).cur.s = { s.cur.s.put d v with flags := sflags } := by
    rw [hresp, ← hws]
    rfl
  have hlegal : s.cur.sLegal d = true := by
    rcases hd with hd | rfl
    · simp [Group.sLegal, hd]
    · simp [Group.sLegal]
  refine ⟨_, hexec, ?accs, ?reg, fun q hq => ?others, ?pc, ?mem⟩
  case accs => rw [hresp]; rfl
  case reg =>
    rw [State.sget, hs, SState.get_withFlags]
    exact State.sget_sput_same s d v hlegal
  case others =>
    rw [State.sget, hs, SState.get_withFlags]
    exact SState.get_put_ne _ _ _ _ hq
  case pc =>
    rw [hs]
    exact SState.put_pc ..
  case mem => rw [hresp, hw]; rfl

end

/-! ### The operation (R213, R214) -/

section
variable {q : Queue} (hl : s.levelHeld r.pa = false) (hf : s.isFree s.cur = true) (he : s.readErr s.myPort s.worldOf r.pa = none)
  (hq : queueOf (s.memRead r.pa 64) = some q)
include hl hf he hq

/-- A queue that does not let an operation act answers EMPTY or FULL, and stays. -/
theorem answerQueue_empty {put : Bool} (hc : q.can put false = false) :
    s.answerQueue put a r = (s, { r with ans := some (if put then 1 else 0) }) := by
  have hmark := State.trailMark_free hf (c := s.queueChoice put r) rfl rfl (t := s) rfl
  simp only [State.answerQueue, h.writeHeld_eq, hl, he, hq, State.queueTurn_free hf, hc, hmark, Bool.false_eq_true, if_false]

/-- QTAKE raises the head and answers the address of its entry. -/
theorem answerQueue_take (hc : q.can false false = true) : s.answerQueue false a r =
    (s.memWrite s.worldOf (r.pa + 8) (bytesOf 8 (q.head + 1).toNat), { r with ans := some (q.entry q.head) }) := by
  have hmark := State.trailMark_free hf (c := s.queueChoice false r) rfl rfl
    (t := s.memWrite s.worldOf (r.pa + 8) (bytesOf 8 (q.head + 1).toNat)) rfl
  simp only [State.answerQueue, h.writeHeld_eq, hl, he, hq, State.queueTurn_free hf, hc, State.takeEntry, hmark, Bool.false_eq_true,
    if_false, if_true]

/-- QPUT writes its entry, then raises the tail. -/
theorem answerQueue_put {v : State} {ep : Nat} (hc : q.can true false = true) (hcheck : s.checkGlobal .write (q.entry q.tail) 8 = ⟨.inr ep, v⟩)
    (hvl : v.levelHeld ep = false) (hve : v.writeErr s.myPort s.worldOf ep false = none) (hcur : v.cur = s.cur) (hparts : v.parts = s.parts) :
    s.answerQueue true a r = (((v.memWrite s.worldOf ep (bytesOf 8 r.data.toNat)).memWrite s.worldOf r.pa
      (bytesOf 8 (q.tail + 1).toNat)).appended r.va, { r with ans := some 0 }) := by
  have hmark := State.trailMark_free hf (c := s.queueChoice true r) rfl rfl
    (t := (v.memWrite s.worldOf ep (bytesOf 8 r.data.toNat)).memWrite s.worldOf r.pa (bytesOf 8 (q.tail + 1).toNat)) hparts
  have hentry : v.writeHeld a (reqOf 255 (q.entry q.tail) ep 8 0 0) = false := ((h.of_cur hcur).writeHeld_eq _).trans hvl
  simp only [State.answerQueue, h.writeHeld_eq, hl, he, hq, State.queueTurn_free hf, hc, State.putEntry, hcheck, hentry, hve, hmark,
    Bool.false_eq_true, if_false, if_true]

end

end

end OnlyAccess

/-- Settles O18: the access that goes out, and the answers of the queue to QTAKE and to QPUT. -/
theorem queueOperationsMoveTheIndex : Obligations.QueueOperationsMoveTheIndex := by
  unfold Obligations.QueueOperationsMoveTheIndex
  refine ⟨?issues, ?responds⟩
  case issues =>
    intro s sc d a b pa va u hpa
    exact ⟨fun h => IssuesOne.of_queueGo (congrArg Host.Outcome.next (State.sIssue_ready h)) (fun hput => nomatch hput) hpa,
      fun h hroom => IssuesOne.of_queueGo (congrArg Host.Outcome.next (State.sIssue_ready h)) (fun _ => hroom) hpa⟩
  intro s x r q d h hp hdest hd hl hf he hq hm n ends
  refine ⟨fun hk => ⟨fun h1 hcap => ?takes, fun h0 => ?empty⟩,
    fun hk => ⟨fun hcap => ?full, fun v ep hroom hcheck hvl hve hcur hparts hvm => ?puts⟩⟩
  case takes =>
    obtain ⟨t, hexec, haccs, hreg, hothers, hpc, hmem⟩ := h.queueResponse_ends hk
      (h.answerQueue_take hl hf he hq (Queue.can_take h1 hcap)) (s.sameButWaits_memWrite ..) hdest hd
    have hhead : Stored s.mem t.mem (s.place (r.pa + 8)) 8 (q.head + 1) := hmem.symm ▸ Stored.of_write hm _ _ _
    exact ⟨t, hexec, haccs, hreg, hothers, hpc, hhead⟩
  case empty =>
    obtain ⟨t, hexec, haccs, hreg, hothers, hpc, hmem⟩ := h.queueResponse_ends hk
      (h.answerQueue_empty hl hf he hq (Queue.can_take_empty h0)) (.of_cur rfl) hdest hd
    exact ⟨t, hexec, haccs, hreg, hothers, hpc, fun a => congrArg (Cells.get · a) hmem⟩
  case full =>
    obtain ⟨t, hexec, haccs, hreg, hothers, hpc, hmem⟩ := h.queueResponse_ends hk
      (h.answerQueue_empty hl hf he hq (q.can_put.trans (decide_eq_false (by omega)))) (.of_cur rfl) hdest hd
    exact ⟨t, hexec, haccs, hreg, hothers, hpc, fun a => congrArg (Cells.get · a) hmem⟩
  case puts =>
    have hentry := h.answerQueue_put hl hf he hq (q.can_put.trans (decide_eq_true hroom)) hcheck hvl hve hcur hparts
    obtain ⟨t, hexec, haccs, hreg, hothers, hpc, hmem⟩ := h.queueResponse_ends hk hentry
      (((State.SameButWaits.of_cur hcur).trans (State.sameButWaits_memWrite ..)).trans (State.sameButWaits_memWrite ..)) hdest hd
    exact ⟨t, hexec, haccs, hreg, hothers, hpc, v.mem.write (v.place ep) (bytesOf 8 r.data.toNat), Stored.of_write hvm _ _ _,
      hmem.symm ▸ Stored.of_write (Cells.write_wf _ _ hvm) _ _ _⟩

end Sys2Proof.Machine
end

section
/-! The cipher of the sealed data: counter mode is one XOR with a key stream, so that it undoes itself (SP 800-38D). -/

namespace Sys2Proof.Machine

/-- Two streams end to end are XORed part by part. -/
theorem xorList_append {a b : List Byte} (c d : List Byte) (h : a.length = b.length) :
    xorList (a ++ c) (b ++ d) = xorList a b ++ xorList c d := List.zipWith_append h

/-- XOR with one stream twice gives the data back. -/
theorem xorList_xorList {a k : List Byte} (h : a.length ≤ k.length) : xorList (xorList a k) k = a := by
  induction a generalizing k with
  | nil => simp [xorList]
  | cons x a ih =>
    obtain _ | ⟨y, k⟩ := k
    · simp at h
    · have ht := ih (k := k) (by simpa using h)
      simp only [xorList, List.zipWith_cons_cons] at ht ⊢
      rw [ht, BitVec.xor_assoc, BitVec.xor_self, BitVec.xor_zero]

theorem blocks16_of_le {bs : List Byte} (h : bs.length ≤ 16) (h0 : bs ≠ []) :
    blocks16 bs = [bs ++ List.replicate (16 - bs.length) 0] := by
  have hn : 0 < bs.length := List.length_pos_iff.mpr h0
  have : (bs.length + 15) / 16 = 1 := by omega
  simp [blocks16, this, List.take_of_length_le h, Nat.min_eq_right h]

theorem blocks16_append {a : List Byte} (bs : List Byte) (h : a.length = 16) : blocks16 (a ++ bs) = a :: blocks16 bs := by
  have hn : ((a ++ bs).length + 15) / 16 = (bs.length + 15) / 16 + 1 := by simp; omega
  unfold blocks16
  rw [hn, List.range_succ_eq_map, List.map_cons, List.map_map]
  congr 1
  · simp [h, List.take_append_of_le_length (Nat.le_of_eq h.symm), List.take_of_length_le (Nat.le_of_eq h)]
  · apply List.map_congr_left
    intro i _
    have hd : (a ++ bs).drop (16 * (i + 1)) = bs.drop (16 * i) := by
      rw [List.drop_append, List.drop_of_length_le (by omega)]
      simp [h, Nat.mul_add]
    simp only [Function.comp, Nat.succ_eq_add_one, hd]

/-- The blocks of some bytes begin with the bytes. -/
theorem blocks16_flatten_take (bs : List Byte) : (blocks16 bs).flatten.take bs.length = bs := by
  induction hn : bs.length using Nat.strong_induction_on generalizing bs with
  | _ n ih =>
    subst hn
    obtain rfl | h0 := eq_or_ne bs []
    · simp
    · obtain h | h := Nat.le_total bs.length 16
      · simp [blocks16_of_le h h0]
      · have ha : (bs.take 16).length = 16 := by simp; omega
        have hb := ih (bs.drop 16).length (by simp; omega) (bs.drop 16) rfl
        conv_lhs => rw [← List.take_append_drop 16 bs]
        rw [blocks16_append _ ha, List.flatten_cons, List.length_append, List.take_length_add_append, hb, List.take_append_drop]

/-- The key stream of the blocks from a number on. -/
def keyStream (f : Nat → List Byte) (n : Nat) : List (List Byte) → List Byte
  | [] => []
  | _ :: bs => f n ++ keyStream f (n + 1) bs

/-- The key stream depends on the number of blocks alone. -/
theorem keyStream_congr (f : Nat → List Byte) {n : Nat} {l m : List (List Byte)} (h : l.length = m.length) :
    keyStream f n l = keyStream f n m := by
  induction l generalizing n m with
  | nil => simp [List.length_eq_zero_iff.mp h.symm]
  | cons b l ih =>
    obtain _ | ⟨c, m⟩ := m
    · simp at h
    · simp only [keyStream, ih (by simpa using h)]

theorem keyStream_length {f : Nat → List Byte} (hf : ∀ i, (f i).length = 16) (n : Nat) (l : List (List Byte)) :
    (keyStream f n l).length = 16 * l.length := by
  induction l generalizing n with
  | nil => rfl
  | cons b l ih => rw [keyStream, List.length_append, ih, hf, List.length_cons]; omega

/-- Whole blocks are encrypted as one stream. -/
theorem zipIdx_flatMap_xorList {f : Nat → List Byte} (hf : ∀ i, (f i).length = 16) (l : List (List Byte)) (hl : ∀ b ∈ l, b.length = 16)
    (n : Nat) : ((l.zipIdx n).flatMap fun x => xorList x.1 (f x.2)) = xorList l.flatten (keyStream f n l) := by
  induction l generalizing n with
  | nil => rfl
  | cons b l ih =>
    rw [List.zipIdx_cons, List.flatMap_cons, ih (fun x hx => hl x (List.mem_cons_of_mem _ hx)), List.flatten_cons, keyStream,
      xorList_append _ _ (by rw [hf, hl b (List.mem_cons_self ..)])]

section
variable {t : Array Byte} {rks : List (List Byte)} (h : rks.length = 15 ∧ ∀ k ∈ rks, k.length = 16)
include h

/-- Counter mode is one XOR of the bytes with the key stream of their blocks. -/
theorem gcmStream_eq (nonce bs : List Byte) : gcmStream t rks nonce bs =
    xorList bs ((keyStream (fun i => aesBlock t rks (nonce ++ beBytes 4 (i + 2))) 0 (blocks16 bs)).take bs.length) := by
  have hx := zipIdx_flatMap_xorList (f := fun i => aesBlock t rks (nonce ++ beBytes 4 (i + 2)))
    (fun i => aesBlock_length t rks _ h) (blocks16 bs) (fun b hb => blocks16_length hb) 0
  unfold gcmStream
  rw [hx, xorList, List.take_zipWith, blocks16_flatten_take]
  rfl

/-- Counter mode under one nonce undoes itself. -/
theorem gcmStream_gcmStream (nonce bs : List Byte) : gcmStream t rks nonce (gcmStream t rks nonce bs) = bs := by
  have hl := gcmStream_length t rks nonce bs h
  have hb : (blocks16 (gcmStream t rks nonce bs)).length = (blocks16 bs).length := by simp [blocks16, hl]
  have hk := keyStream_length (f := fun i => aesBlock t rks (nonce ++ beBytes 4 (i + 2))) (fun i => aesBlock_length t rks _ h) 0 (blocks16 bs)
  rw [gcmStream_eq h nonce (gcmStream t rks nonce bs), hl, keyStream_congr _ hb, gcmStream_eq h nonce bs, xorList_xorList]
  rw [List.length_take, hk]
  simp only [blocks16, List.length_map, List.length_range]
  omega

end

/-- Settles O59: the tag is made of the ciphertext, and counter mode undoes itself. -/
theorem sealedDataOpens : Obligations.SealedDataOpens := by
  unfold Obligations.SealedDataOpens
  intro key nonce aad pt
  have hk := roundKeys_keys sboxTable (keyBytes key) (length_keyBytes key)
  rw [gcmSeal, gcmOpen_own, gcmStream_gcmStream hk]

end Sys2Proof.Machine
end


section
/-! SUPPORT. The form of memory: the operations of the state keep it. -/

namespace Sys2Proof.Machine

-- One after the other: side by side, these many small proofs wait for each other, each in a thread of its own.
set_option Elab.async false

/-! A lemma `f_mem` says that `f` leaves the memory as it is, a lemma `f_wf` that it keeps the form.
The rules of the callees stand before `grind` as hypotheses: a lemma of this text that its list names makes it wait for that
lemma's proof. -/

theorem foldl_wf {α : Type} {f : State → α → State} (l : List α) {s : State} (hs : s.mem.wf)
    (hf : ∀ (s : State) a, s.mem.wf → (f s a).mem.wf) : (l.foldl f s).mem.wf := by
  induction l generalizing s with
  | nil => exact hs
  | cons a l ih => exact ih (hf _ _ hs)
theorem ite_wf {c : Prop} [Decidable c] {s t : State} (hs : s.mem.wf) (ht : t.mem.wf) : (if c then s else t).mem.wf := by
  split <;> assumption
theorem getD_wf {o : Option State} {s : State} (ho : ∀ t, o = some t → t.mem.wf) (hs : s.mem.wf) : (o.getD s).mem.wf := by
  cases o with
  | none => exact hs
  | some t => exact ho t rfl
theorem foldl_snd_wf {α β : Type} {f : β × State → α → β × State} (l : List α) {x : β × State} (hx : x.2.mem.wf)
    (hf : ∀ x a, x.2.mem.wf → (f x a).2.mem.wf) : (l.foldl f x).2.mem.wf := by
  induction l generalizing x with
  | nil => exact hx
  | cons a l ih => exact ih (hf x a hx)
theorem State.focus_wf {s : State} (uid : Nat) (hs : s.mem.wf) : (State.focus s uid).mem.wf := by
  grind [State.focus]
theorem State.withGroup_wf {s : State} (uid : Nat) (f : State → State) (hs : s.mem.wf) (hf : ∀ s : State,
    s.mem.wf → (f s).mem.wf) :
    (s.withGroup uid f).mem.wf := by
  have := @State.focus_wf
  grind [State.withGroup]
@[simp] theorem State.meetError_mem (s : State) (e : ErrInput) : (State.meetError s e).mem = s.mem := rfl
theorem State.pageHeld_wf {s : State} (pa : Nat) (hs : s.mem.wf) : (State.pageHeld s pa).mem.wf := by
  grind [State.pageHeld, State.holdIf_mem]
theorem State.wf_memWrite {s : State} (w : Byte) (pa : Nat) (bs : List Byte) (hs : s.mem.wf) : (s.memWrite w pa bs).mem.wf :=
  Cells.write_wf _ _ hs
@[simp] theorem State.logCur_mem (s : State) (addr : Word) (pcore : Nat) (wr : Bool) (peer : Bool) (isLocal : Bool)
    (code : Byte) : (State.logCur s addr pcore wr peer isLocal code).mem = s.mem := rfl
@[simp] theorem State.logEngine_mem (s : State) (core : Nat) (ctx : Nat) (addr : Word) (pcore : Nat) (wr : Bool) (peer : Bool)
    (isLocal : Bool) (code : Byte) : (State.logEngine s core ctx addr pcore wr peer isLocal code).mem = s.mem := rfl
theorem State.orEntry_wf {s : State} (ea : Nat) (bits : Nat) (hs : s.mem.wf) : (State.orEntry s ea bits).mem.wf := by
  grind [State.orEntry, State.wf_memWrite]
theorem State.setAD_wf {s : State} (path : List Nat) (leaf : Nat) (d : Bool) (hs : s.mem.wf) :
    (State.setAD s path leaf d).mem.wf := by
  have := @State.orEntry_wf
  grind [State.setAD, foldl_wf]
@[simp] theorem State.usedEntry_mem (s : State) (core : Nat) (e : TlbEntry) (dirty : Bool) :
    (State.usedEntry s core e dirty).mem = s.mem := rfl
theorem State.translateHeld_wf {s : State} (core : Nat) (c : Ctx) (e : TlbEntry) (kind : AccessKind) (va : Word)
    (hs : s.mem.wf) : (State.translateHeld s core c e kind va).st.mem.wf := by
  have := @State.orEntry_wf
  grind [State.translateHeld, State.holdIf_mem, State.usedEntry_mem, foldl_wf]
theorem State.translateWalk_wf {s : State} (core : Nat) (c : Ctx) (kind : AccessKind) (va : Word) (hs : s.mem.wf) :
    (State.translateWalk s core c kind va).st.mem.wf := by
  have := @State.setAD_wf
  grind [State.translateWalk, State.mapCore_mem]
theorem State.translate_wf {s : State} (core : Nat) (c : Ctx) (lvl : Level) (kind : AccessKind) (va : Word) (hs : s.mem.wf) :
    (State.translate s core c lvl kind va).st.mem.wf := by
  have := @State.translateHeld_wf
  have := @State.translateWalk_wf
  grind [State.translate, State.mapCore_mem]
theorem State.ctxPa_wf {s : State} (core : Nat) (c : Ctx) (lvl : Level) (kind : AccessKind) (va : Word) (hs : s.mem.wf) :
    (State.ctxPa s core c lvl kind va).st.mem.wf := by
  have := @State.translate_wf
  grind [State.ctxPa, State.holdIf_mem]
theorem State.ctxRead_wf {s : State} (core : Nat) (c : Ctx) (lvl : Level) (kind : AccessKind) (va : Word) (n : Nat)
    (hs : s.mem.wf) : (State.ctxRead s core c lvl kind va n).2.mem.wf := by
  have := @State.ctxPa_wf
  grind [State.ctxRead]
theorem State.ctxWriteAs_wf {s : State} (whole : Bool) (core : Nat) (c : Ctx) (lvl : Level) (va : Word) (bs : List Byte)
    (hs : s.mem.wf) : (State.ctxWriteAs s whole core c lvl va bs).2.mem.wf := by
  have := @State.ctxPa_wf
  grind [State.ctxWriteAs, State.wf_memWrite]
theorem State.ctxWrite_wf {s : State} (core : Nat) (c : Ctx) (lvl : Level) (va : Word) (bs : List Byte) (hs : s.mem.wf) :
    (State.ctxWrite s core c lvl va bs).2.mem.wf := by
  have := @State.ctxWriteAs_wf
  grind [State.ctxWrite]
theorem State.queueRecord_wf {s : State} (core : Nat) (ctx : Nat) (r : Record) (hs : s.mem.wf) :
    (State.queueRecord s core ctx r).mem.wf := by
  have := @State.ctxWriteAs_wf
  grind [State.queueRecord, State.mapCtx_mem]
theorem State.queueAll_wf {s : State} (rs : List Record) (hs : s.mem.wf) : (State.queueAll s rs).mem.wf := by
  have := @State.queueRecord_wf
  grind [State.queueAll, foldl_wf]
theorem State.queueMem_wf {s : State} (st : Stop) (hs : s.mem.wf) : (State.queueMem s st).mem.wf := by
  have := @State.queueAll_wf
  grind [State.queueMem]
theorem State.queueStop_wf {s : State} (st : Stop) (hs : s.mem.wf) : (State.queueStop s st).mem.wf := by
  have := @State.queueAll_wf
  grind [State.queueStop]
theorem State.trailMark_wf {s : State} (c : Choice) (r : Option (Nat × List Byte)) (queue : Option (Bool × Nat))
    (hs : s.mem.wf) :
    (s.trailMark c r queue).mem.wf := by
  cases queue <;> cases r <;> grind [State.trailMark, State.wf_memWrite, State.mapPart_mem]
@[simp] theorem State.enqueue_mem (s : State) (ctx : Nat) (rec : LaunchRec) (parent : Option Nat) (depth : Nat) (quad : Nat)
    (src : Nat) (sup : Bool) : (State.enqueue s ctx rec parent depth quad src sup).mem = s.mem := rfl
theorem State.releaseOne_wf {s : State} (x : Waiter) (hs : s.mem.wf) : (State.releaseOne s x).mem.wf := by
  grind [State.releaseOne, State.enqueue_mem, State.mapGroup_mem]
@[simp] theorem State.unwait_mem (s : State) (w : Waiter) : (State.unwait s w).mem = s.mem := rfl
theorem State.fillWaiters_wf {s : State} (q : Nat) (hs : s.mem.wf) : (State.fillWaiters s q).mem.wf := by
  grind [State.fillWaiters]
theorem State.serveQuad_wf {s : State} (q : Nat) (hs : s.mem.wf) : (State.serveQuad s q).mem.wf := by
  have := @State.fillWaiters_wf
  have := @State.releaseOne_wf
  have := @State.trailMark_wf
  grind [State.serveQuad, State.unwait_mem]
theorem State.entryFreed_wf {s : State} (q : Nat) (hs : s.mem.wf) : (State.entryFreed s q).mem.wf := by
  have := @State.serveQuad_wf
  grind [State.entryFreed]
theorem State.serveWaiters_wf {s : State} (hs : s.mem.wf) : (State.serveWaiters s).mem.wf := by
  have := @State.serveQuad_wf
  grind [State.serveWaiters, foldl_wf]
theorem State.withdrawMove_wf {s : State} (hs : s.mem.wf) : (State.withdrawMove s).mem.wf := by
  grind [State.withdrawMove, State.mapTeam_mem]
theorem State.cancelMove_wf {s : State} (ctx : Nat) (hs : s.mem.wf) : (State.cancelMove s ctx).mem.wf := by
  have := @State.withdrawMove_wf
  grind [State.cancelMove]
theorem State.checkParked_wf {s : State} (ctx : Nat) (hs : s.mem.wf) : (State.checkParked s ctx).mem.wf := by
  have := @State.cancelMove_wf
  grind [State.checkParked, State.mapCtx_mem]
@[simp] theorem State.freeSteps_mem (s : State) (team : Nat) : (State.freeSteps s team).mem = s.mem := rfl
theorem State.endOne_wf {s : State} (grid : Nat) (e : Ending) (hs : s.mem.wf) : (State.endOne s grid e).mem.wf := by
  have := @State.entryFreed_wf
  have := @State.checkParked_wf
  grind [State.endOne, State.mapGroups_mem, State.freeSteps_mem, State.mapGrid_mem, foldl_wf]
theorem State.endTree_wf {s : State} (e : Ending) (d grid : Nat) (hs : s.mem.wf) : (s.endTree e d grid).mem.wf := by
  induction d generalizing s e grid with
  | zero => exact State.endOne_wf grid e hs
  | succ d ih => exact foldl_wf _ (State.endOne_wf grid e hs) fun s k hs => ih _ k hs
theorem State.endGrid_wf {s : State} (code : Byte) (hs : s.mem.wf) : (State.endGrid s code).mem.wf := by
  have := @State.endTree_wf
  grind [State.endGrid]
theorem State.endStrict_wf {s : State} (st : Stop) (hs : s.mem.wf) : (State.endStrict s st).mem.wf := by
  have := @State.endTree_wf
  grind [State.endStrict, foldl_wf]
theorem State.vectorEntry_wf {s : State} (core : Nat) (c : Ctx) (code : Byte) (hs : s.mem.wf) :
    (State.vectorEntry s core c code).2.mem.wf := by
  have := @State.ctxRead_wf
  grind [State.vectorEntry]
theorem State.descheduleNow_wf {s : State} (st : Stop) (entry : Word) (hs : s.mem.wf) :
    (State.descheduleNow s st entry).mem.wf := by
  have := @State.checkParked_wf
  grind [State.descheduleNow, State.mapCur_mem, State.mapCtx_mem]
theorem State.deschedule_wf {s : State} (st : Stop) (entry : Word) (hs : s.mem.wf) : (State.deschedule s st entry).mem.wf := by
  have := @State.descheduleNow_wf
  grind [State.deschedule, State.mapCur_mem]
theorem State.enterHandler_wf {s : State} (st : Stop) (entry : Word) (hs : s.mem.wf) :
    (State.enterHandler s st entry).mem.wf := by
  grind [State.enterHandler, State.mapCur_mem]
theorem State.dispatch_wf {s : State} (st : Stop) (hs : s.mem.wf) : (State.dispatch s st).mem.wf := by
  have := @State.queueMem_wf
  have := @State.queueStop_wf
  have := @State.endStrict_wf
  have := @State.endGrid_wf
  have := @State.vectorEntry_wf
  have := @State.enterHandler_wf
  have := @State.deschedule_wf
  grind [State.dispatch, State.mapCur_mem]
theorem State.sFault_wf {s : State} (st : Stop) (hs : s.mem.wf) : (State.sFault s st).mem.wf := by
  have := @State.dispatch_wf
  grind [State.sFault]
theorem State.lFault_wf {s : State} (st : Stop) (hs : s.mem.wf) : (State.lFault s st).mem.wf := by
  have := @State.dispatch_wf
  grind [State.lFault]
theorem State.raise_wf {s : State} (code : Byte) (hs : s.mem.wf) : (State.raise s code).mem.wf := by
  have := @State.sFault_wf
  grind [State.raise]
theorem State.raiseMem_wf {s : State} (f : MemFault) (rflags : Byte) (hs : s.mem.wf) : (State.raiseMem s f rflags).mem.wf := by
  have := @State.sFault_wf
  grind [State.raiseMem]
theorem State.raiseL_wf {s : State} (code : Byte) (hs : s.mem.wf) : (State.raiseL s code).mem.wf := by
  have := @State.lFault_wf
  grind [State.raiseL]
theorem State.raiseNest_wf {s : State} (m : Mask) (hs : s.mem.wf) : (State.raiseNest s m).mem.wf := by
  have := @State.lFault_wf
  grind [State.raiseNest]
theorem State.raiseLMem_wf {s : State} (f : MemFault) (rflags : Byte) (hs : s.mem.wf) :
    (State.raiseLMem s f rflags).mem.wf := by
  have := @State.lFault_wf
  grind [State.raiseLMem]
theorem State.raiseLanes_wf {s : State} (ps1 : Bool) (pc : Word) (fs : List LaneFault) (replay : Replay) (rflags : Byte)
    (hs : s.mem.wf) : (State.raiseLanes s ps1 pc fs replay rflags).mem.wf := by
  have := @State.dispatch_wf
  grind [State.raiseLanes]
end Sys2Proof.Machine
end

section
/-! SUPPORT. The form of memory: issue, the scalar and lane forms, control and fetch keep it. -/

namespace Sys2Proof.Machine

-- One after the other: side by side, these many small proofs wait for each other, each in a thread of its own.
set_option Elab.async false

theorem State.sIssue_wf {s : State} (need : Level) (rs : List SReg) (free : Bool) (body : State → State) (hs : s.mem.wf)
    (hbody : s.mem.wf → (body s).mem.wf) : (s.sIssue need rs free body).mem.wf := by
  rcases State.sIssue_cases s need rs free body with h | ⟨c, h⟩ | h <;> rw [h]
  · exact hs
  · exact State.raise_wf c hs
  · exact hbody hs
@[simp] theorem State.wakeBlock_mem (s : State) (r : BitVec 8) : (State.wakeBlock s r).mem = s.mem := rfl
theorem State.lIssue_wf {s : State} (gd : Guard) (u : LUse) (body : LIn → State) (hs : s.mem.wf)
    (hbody : ∀ x : LIn, x.st.mem.wf → (body x).mem.wf) : (s.lIssue gd u body).mem.wf := by
  rcases State.lIssue_cases s gd u body with h | h | ⟨c, h⟩ | ⟨t, rfl, h⟩ | ⟨p, vs, g, -, -, h⟩ <;> rw [h]
  · exact hs
  · exact foldl_wf _ hs fun s r hs => by simpa using hs
  · exact State.raiseL_wf c hs
  · exact State.raiseL_wf _ (by simpa using hs)
  · exact hbody _ hs
theorem State.latePops_wf {s : State} (n : Nat) (k : List Word → Group → State) (hs : s.mem.wf) (hk : ∀ a b, (k a b).mem.wf) :
    (State.latePops s n k).mem.wf := by
  have := @State.raiseL_wf
  grind [State.latePops]
@[simp] theorem State.lNext_mem (s : State) : (State.lNext s).mem = s.mem := rfl
@[simp] theorem State.lDone_mem (s : State) (flags : Byte) (u : LUse) : (State.lDone s flags u).mem = s.mem := rfl
theorem State.alu2_wf {s : State} (d : SReg) (a : SReg) (b : SReg) (f : Word → Word → Word × Byte) (hs : s.mem.wf) :
    (State.alu2 s d a b f).mem.wf := by
  have := @State.sIssue_wf
  grind [State.alu2, State.sput_mem, State.setFlags_mem, State.nextPc_mem]
theorem State.alu1_wf {s : State} (d : SReg) (a : SReg) (f : Word → Word) (hs : s.mem.wf) : (State.alu1 s d a f).mem.wf := by
  have := @State.sIssue_wf
  grind [State.alu1, State.sput_mem, State.nextPc_mem]
theorem State.lcompute_wf {s : State} (o : LOp) (u : LUse) (f : LaneIn → Word32 × Byte) (hs : s.mem.wf) :
    (State.lcompute s o u f).mem.wf := by
  have := @State.lIssue_wf
  grind [State.lcompute, State.mapCur_mem, State.lDone_mem]
theorem State.lelem_wf {s : State} (o : LOp) (k : Srcs) (f : Nat → Nat → Nat → Nat × Byte) (hs : s.mem.wf) :
    (State.lelem s o k f).mem.wf := by
  have := @State.lcompute_wf
  grind [State.lelem]
theorem State.spillWrite_wf {s : State} (i : Nat) (e : StackEntry) (hs : s.mem.wf) {u : State} (hu :
    (State.spillWrite s i e) = some u) : u.mem.wf := by
  have := @State.ctxWrite_wf
  grind [State.spillWrite]
theorem State.spillRead_wf {s : State} (i : Nat) (hs : s.mem.wf) {r : StackEntry × State}
    (hr : s.spillRead i = some r) : r.2.mem.wf := by
  have := @State.ctxRead_wf
  grind [State.spillRead, Option.map_eq_some_iff]
@[simp] theorem State.mapL_mem (s : State) (f : LState → LState) : (State.mapL s f).mem = s.mem := rfl
theorem State.pushEntry_wf {s : State} (e : StackEntry) (hs : s.mem.wf) {u : State}
    (hu : s.pushEntry e = some u) : u.mem.wf := by
  have := @State.spillWrite_wf
  grind [State.pushEntry, State.mapL_mem, Option.map_eq_some_iff]
theorem State.popEntry_wf {s : State} (hs : s.mem.wf) {u : State} (hu : s.popEntry = some u) : u.mem.wf := by
  have read {v : State} {i r} (hv : v.mem.wf) := State.spillRead_wf (s := v) i hv (r := r)
  simp only [State.popEntry] at hu
  split at hu
  · obtain ⟨r, hr, rfl⟩ := Option.map_eq_some_iff.mp hu
    simpa using read (by simpa using hs) hr
  · cases hu; exact hs
@[simp] theorem State.endBlock_mem (s : State) : (State.endBlock s).mem = s.mem := rfl
theorem State.completeHold_wf {s : State} (h : Hold) (hs : s.mem.wf) : (State.completeHold s h).mem.wf := by
  grind [State.completeHold, State.endBlock_mem, State.mapCur_mem]
theorem State.refill_wf {s : State} (n : Nat) (hs : s.mem.wf) {u : State} (hu : s.refill n = some u) : u.mem.wf := by
  induction n generalizing s with
  | zero => cases hu; exact hs
  | succ n ih =>
    have pop {v : State} (hv : s.popEntry = some v) : v.mem.wf := State.popEntry_wf hs hv
    grind [State.refill, Option.bind_eq_some_iff, State.mapL_mem, State.mapCur_mem, State.completeHold_wf, State.endBlock_mem]
theorem State.dissolve_wf {s : State} (hs : s.mem.wf) {u : State} (hu : s.dissolve = some u) : u.mem.wf :=
  State.refill_wf _ (by simpa using hs) hu
theorem orSpill_wf {s : State} {o : Option State} (hs : s.mem.wf) (ho : ∀ t, o = some t → t.mem.wf) : (orSpill s o).mem.wf := by
  cases o with
  | none => exact State.raiseL_wf _ hs
  | some t => exact ho t rfl
theorem State.jumpTo_wf {s : State} (t : Word) (link : Bool) (hs : s.mem.wf) : (State.jumpTo s t link).mem.wf := by
  have := @State.raiseMem_wf
  grind [State.jumpTo, State.sput_mem, State.setPc_mem]
theorem State.dqAppend_wf {s : State} (block : Bool) (v : Word) (hs : s.mem.wf) : (State.dqAppend s block v).mem.wf := by
  grind [State.dqAppend, State.mapCur_mem, State.nextPc_mem]
theorem State.dropTrace_wf {s : State} (hs : s.mem.wf) : (State.dropTrace s).mem.wf := by
  grind [State.dropTrace, State.bump_mem]
theorem State.elapse_wf {s : State} (dt : Nat) (hs : s.mem.wf) : (State.elapse s dt).mem.wf := by
  grind [State.elapse]
theorem State.advance_wf {s : State} (dt : Nat) (hs : s.mem.wf) : (State.advance s dt).mem.wf := by
  have := @State.dropTrace_wf
  have := @State.elapse_wf
  have := @State.serveWaiters_wf
  grind [State.advance]
theorem State.nextTurn_wf {s : State} (hs : s.mem.wf) : (State.nextTurn s).2.mem.wf := by
  grind [State.nextTurn, State.bump_mem]
theorem State.codeBytes_wf {s : State} (pa : Nat) (now : List Byte) (hs : s.mem.wf) : (State.codeBytes s pa now).2.mem.wf := by
  grind [State.codeBytes, State.bump_mem]
theorem State.fetchWord_wf {s : State} (va : Word) (hs : s.mem.wf) : (State.fetchWord s va).2.mem.wf := by
  have := @State.translate_wf
  have := @State.codeBytes_wf
  grind [State.fetchWord]
theorem State.fetchS_wf {s : State} (hs : s.mem.wf) : (State.fetchS s).2.mem.wf := by
  have := @State.fetchWord_wf
  grind [State.fetchS]
theorem State.fetchL_wf {s : State} (pc : Nat) (hs : s.mem.wf) : (State.fetchL s pc).2.mem.wf := by
  have := @State.fetchWord_wf
  grind [State.fetchL]
theorem State.found_wf {s : State} (a : Act) (hs : s.mem.wf) : (s.found a).2.mem.wf := by
  cases a <;> grind [State.found, State.focus_wf, State.fetchS_wf, State.fetchL_wf]
theorem State.lfp_wf {s : State} (o : LOp) (k : Srcs) (f : Val → Val → Val → Val × Byte) (hs : s.mem.wf) :
    (State.lfp s o k f).mem.wf := by
  have := @State.lelem_wf
  grind [State.lfp]
end Sys2Proof.Machine
end

section
/-! SUPPORT. The form of memory: memory accesses keep it. -/

namespace Sys2Proof.Machine

-- One after the other: side by side, these many small proofs wait for each other, each in a thread of its own.
set_option Elab.async false

theorem State.checkRange_wf {s : State} (kind : AccessKind) (va : Word) (align : Nat) (n : Nat) (hs : s.mem.wf) :
    (State.checkRange s kind va align n).st.mem.wf := by
  have := @State.translate_wf
  grind [State.checkRange]
theorem State.checkGlobal_wf {s : State} (kind : AccessKind) (va : Word) (n : Nat) (hs : s.mem.wf) :
    (State.checkGlobal s kind va n).st.mem.wf := by
  have := @State.checkRange_wf
  grind [State.checkGlobal]
@[simp] theorem State.wakeBank_mem (s : State) (core : Nat) (bank : Nat) : (State.wakeBank s core bank).mem = s.mem := rfl
theorem State.logFault_wf {s : State} (f : MemFault) (wr : Bool) (loc : Bool) (hs : s.mem.wf) :
    (State.logFault s f wr loc).mem.wf := by
  grind [State.logFault, State.logCur_mem]
theorem State.logLanes_wf {s : State} (fs : List LaneFault) (wr : Bool) (loc : Bool) (hs : s.mem.wf) :
    (State.logLanes s fs wr loc).mem.wf := by
  have := @State.logFault_wf
  grind [State.logLanes, foldl_wf]
theorem State.sMemFault_wf {s : State} (f : MemFault) (rflags : Byte) (wr : Bool) (loc : Bool) (hs : s.mem.wf) :
    (State.sMemFault s f rflags wr loc).mem.wf := by
  have := @State.logFault_wf
  have := @State.raiseMem_wf
  have := @State.raise_wf
  grind [State.sMemFault]
theorem State.sGlobalFault_wf {s : State} {t : State} (f : MemFault) (rflags : Byte) (wr : Bool) (hs : s.mem.wf)
    (ht : t.mem.wf) : (State.sGlobalFault s t f rflags wr).mem.wf := by
  have := @State.sMemFault_wf
  grind [State.sGlobalFault]
theorem State.pick_wf {s : State} (n : Nat) (hs : s.mem.wf) : (s.pick n).2.mem.wf := by
  grind [State.pick]
theorem State.sLoad_wf {s : State} (n : Nat) (signed : Bool) (ord : Order) (sc : Scope) (d : SReg) (a : SReg) (va : Word)
    (len : Nat) (hs : s.mem.wf) : (State.sLoad s n signed ord sc d a va len).mem.wf := by
  have := @State.sIssue_wf
  have := @State.checkGlobal_wf
  have := @State.sGlobalFault_wf
  grind [State.sLoad, State.mapCur_mem, State.nextPc_mem]
theorem State.sStore_wf {s : State} (n : Nat) (ord : Order) (sc : Scope) (d : SReg) (a : SReg) (va : Word) (len : Nat)
    (hs : s.mem.wf) : (State.sStore s n ord sc d a va len).mem.wf := by
  have := @State.sIssue_wf
  have := @State.checkGlobal_wf
  have := @State.sGlobalFault_wf
  grind [State.sStore, State.mapCur_mem, State.nextPc_mem]
theorem State.spScalar_wf {s : State} (kind : AccessKind) (n : Nat) (va : Word) (rflags : Byte) (cs : List Counter)
    (inFlight : Bool) (x : Access) (own : State → Team → State) (hs : s.mem.wf) (hown : ∀ (s : State) t,
    s.mem.wf → (own s t).mem.wf) : (State.spScalar s kind n va rflags cs inFlight x own).mem.wf := by
  have := @State.sMemFault_wf
  grind [State.spScalar, State.mapCur_mem, State.nextPc_mem, State.wakeBank_mem]
theorem State.fence_wf {s t : State} (k : FenceKind) (grp l : Bool) (m : Mask) (go : State → State) (hs : s.mem.wf)
    (ht : t.mem.wf)
    (hgo : ∀ s : State, s.mem.wf → (go s).mem.wf) : (s.fence t k grp l m go).mem.wf := by
  unfold State.fence
  repeat' split
  all_goals first | exact hs | exact hgo _ ht
theorem State.mwaitRead_wf {s : State} (va : Word) (hs : s.mem.wf) : (State.mwaitRead s va).2.mem.wf := by
  have := @State.checkGlobal_wf
  grind [State.mwaitRead]
theorem State.mwaitAgain_wf {s : State} (hs : s.mem.wf) : (State.mwaitAgain s).mem.wf := by
  have := @State.mwaitRead_wf
  have := @State.sMemFault_wf
  grind [State.mwaitAgain, State.mapCur_mem, State.sput_mem, State.nextPc_mem]
theorem State.queueGo_wf {s : State} (put : Bool) (sc : Scope) (d : SReg) (va : Word) (data : Word) (hs : s.mem.wf) :
    (State.queueGo s put sc d va data).mem.wf := by
  have := @State.checkRange_wf
  have := @State.sGlobalFault_wf
  grind [State.queueGo, State.mapCur_mem, State.nextPc_mem]
@[simp] theorem State.appended_mem (s : State) (va : Word) : (State.appended s va).mem = s.mem := rfl
theorem State.hintBank_wf {s : State} (core bank : Nat) (st : BankHint) (hs : s.mem.wf) : (s.hintBank core bank st).mem.wf := by
  cases st <;> simpa [State.hintBank] using hs

end Sys2Proof.Machine
end

section
/-! SUPPORT. The form of memory: teams, divisions and launches keep it. -/

namespace Sys2Proof.Machine

-- One after the other: side by side, these many small proofs wait for each other, each in a thread of its own.
set_option Elab.async false

@[simp] theorem State.wakeFrames_mem (s : State) (t : Team) : (State.wakeFrames s t).mem = s.mem := rfl
theorem State.writeSlot_wf {s : State} (t : Team) (slot : Nat) (bs : List Byte) (hs : s.mem.wf) :
    (State.writeSlot s t slot bs).mem.wf := by
  grind [State.writeSlot, State.spWrite_mem, foldl_wf]
theorem State.writeFrame_wf {s : State} (t : Team) (slot : Nat) (f : Frame) (hs : s.mem.wf) :
    (State.writeFrame s t slot f).mem.wf := by
  have := @State.writeSlot_wf
  grind [State.writeFrame]
theorem State.spillFrame_wf {s : State} (t : Team) (f : Frame) (hs : s.mem.wf) : (State.spillFrame s t f).mem.wf := by
  have := @State.writeFrame_wf
  grind [State.spillFrame, State.mapTeam_mem]
theorem State.trimFrames_wf {s : State} (team : Nat) (hs : s.mem.wf) : (State.trimFrames s team).mem.wf := by
  have := @State.spillFrame_wf
  grind [State.trimFrames]
theorem State.needFrame_wf {s : State} (team : Nat) (f : Frame) (hs : s.mem.wf) {r : Frame × State}
    (hr : s.needFrame team f = some r) :
    r.2.mem.wf := by
  have := @State.trimFrames_wf
  grind [State.needFrame, State.mapTeam_mem, Option.map_eq_some_iff]
theorem State.withFrame_wf {s : State} (body : State → State) (hs : s.mem.wf) (hbody : ∀ s : State,
    s.mem.wf → (body s).mem.wf) :
    (s.withFrame body).mem.wf := by
  unfold State.withFrame
  split
  · exact hbody s hs
  · split
    · exact hbody s hs
    · split
      · simpa using hs
      · split
        · exact State.raise_wf _ hs
        · next hf => exact hbody _ (State.needFrame_wf _ _ hs hf)
/-- The state that the read of a callee entry leaves keeps the form. -/
def EntryRead.keeps : EntryRead → Prop
  | .got _ s | .wait s => s.mem.wf
  | .fault _ => True
theorem State.readEntry_wf {s : State} (sp : Bool) (va : Word) (hs : s.mem.wf) : (s.readEntry sp va).keeps := by
  have := @State.checkGlobal_wf
  grind [State.readEntry, EntryRead.keeps, State.wakeBank_mem]
/-- The state that the read of a callee table leaves keeps the form. -/
def TableRead.keeps : TableRead → Prop
  | .got _ s | .wait s => s.mem.wf
  | .fault _ => True
theorem State.readTable_wf {s : State} (sp : Bool) (n : Nat) (va : Word) (cs : List Callee) (hs : s.mem.wf) :
    (State.readTable sp n va cs s).keeps := by
  induction n generalizing va cs s with
  | zero => exact hs
  | succ n ih =>
    have := State.readEntry_wf sp va hs
    grind [State.readTable, EntryRead.keeps, TableRead.keeps]
/-- The state that the search for a division leaves keeps the form. -/
def DivRead.keeps : DivRead → Prop
  | .got _ s | .wait s => s.mem.wf
  | .fault _ => True
theorem State.divisionOf_wf {s : State} (d : Division) (f : Frame) (hs : s.mem.wf) : (s.divisionOf d f).keeps := by
  have := State.readTable_wf f.sp f.n.toNat f.addr [] hs
  grind [State.divisionOf, TableRead.keeps, DivRead.keeps]
theorem State.setNext_wf {s : State} (team : Nat) (idxs : List Nat) (n : Nat) (hs : s.mem.wf)
    : (s.setNext team idxs n).mem.wf := by
  unfold State.setNext
  split
  · exact hs
  · exact foldl_wf _ hs fun s f hs => by grind [State.writeFrame_wf]
theorem State.addFrame_wf {s : State} (team : Nat) (f : Frame) (hs : s.mem.wf) : (State.addFrame s team f).mem.wf := by
  have := @State.trimFrames_wf
  grind [State.addFrame, State.mapTeam_mem]
theorem State.boundary_wf {s : State} (team : Nat) (ranks : List Nat) (hs : s.mem.wf) :
    (State.boundary s team ranks).mem.wf := by
  have := @State.checkParked_wf
  grind [State.boundary, State.mapGroups_mem]
theorem State.beginMove_wf {s : State} (team : Nat) (hs : s.mem.wf) : (State.beginMove s team).mem.wf := by
  grind [State.beginMove, State.mapTeam_mem]
@[simp] theorem State.meetRound_mem (s : State) (p : Group → Bool) : (State.meetRound s p).mem = s.mem := rfl
@[simp] theorem State.release_mem (s : State) (team : Nat) (rank : Nat) (w : SWait → Bool) (pc : Word → Word) (ws : List
    (SReg × Word)) : (State.release s team rank w pc ws).mem = s.mem := rfl
theorem State.enterCallee_wf {s : State} (team : Nat) (ranks : List Nat) (w : SWait → Bool) (argreg : SReg) (c : Callee)
    (hs : s.mem.wf) : (State.enterCallee s team ranks w argreg c).mem.wf := by
  grind [State.enterCallee, State.release_mem, foldl_wf]
theorem State.userStop_wf {s : State} (st : Stop) (hs : s.mem.wf) : (State.userStop s st).mem.wf := by
  have := @State.dispatch_wf
  grind [State.userStop, State.mapCur_mem]
theorem State.tnest_wf {s : State} (team : Nat) (ranks : List Nat) (hs : s.mem.wf) : (State.tnest s team ranks).mem.wf := by
  have := @State.withGroup_wf
  have := @State.userStop_wf
  grind [State.tnest, State.mapCur_mem, foldl_wf]
theorem State.divide_wf {s : State} (team : Nat) (pool : Nat) (rd : Round) (pc : Word) (addr : Word) (ranks : List Nat)
    (hs : s.mem.wf) : (State.divide s team pool rd pc addr ranks).mem.wf := by
  have := @State.tnest_wf
  have := @State.addFrame_wf
  have := @State.enterCallee_wf
  grind [State.divide, State.release_mem, State.mapTeam_mem, foldl_wf]
theorem State.completeRound_wf {s : State} (team pool : Nat) (hs : s.mem.wf) : (s.completeRound team pool).mem.wf := by
  have released (ws : Nat → List (SReg × Word)) {v : State} (ranks : List Nat) (hv : v.mem.wf) :
      (ranks.foldl (fun (s : State) r => s.release team r isRound (· + 4) (ws r)) v).mem.wf := foldl_wf _ hv
          fun s r hs => by simpa using hs
  have voted (ws : Nat × Word × SReg → List (SReg × Word)) {v : State} (xs : List (Nat × Word × SReg)) (hv : v.mem.wf) :
      (xs.foldl (fun (s : State) x => s.release team x.1 isRound (· + 4) (ws x)) v).mem.wf := foldl_wf _ hv
          fun s r hs => by simpa using hs
  unfold State.completeRound
  split
  · exact hs
  · split
    · exact hs
    · next rd _ =>
      refine ite_wf hs (State.boundary_wf _ _ ?_)
      cases rd.kind with
      | bar => exact State.beginMove_wf _ (released _ _ (by simpa using hs))
      | tcall pc addr => exact State.beginMove_wf _ (State.divide_wf _ _ _ _ _ _ (by simpa using hs))
      | gbar => simpa using hs
      | voteAny | voteAll | voteSum => exact voted _ _ (by simpa using hs)
theorem State.completeGbar_wf {s : State} (gang : Nat) (hs : s.mem.wf) : (State.completeGbar s gang).mem.wf := by
  have := @State.boundary_wf
  grind [State.completeGbar, State.meetRound_mem, State.mapGang_mem, State.release_mem, foldl_wf]
theorem State.arrive_wf {s : State} (k : RoundKind) (v : Word) (d : SReg) (table : List Callee) (sp : Bool) (hs : s.mem.wf) :
    (State.arrive s k v d table sp).mem.wf := by
  have := @State.completeRound_wf
  have := @State.raise_wf
  grind [State.arrive, State.mapTeam_mem, State.mapCur_mem]
theorem State.tvote_wf {s : State} (k : RoundKind) (d : SReg) (a : SReg) (hs : s.mem.wf) : (State.tvote s k d a).mem.wf := by
  have := @State.sIssue_wf
  have := @State.raise_wf
  have := @State.withFrame_wf
  have := @State.arrive_wf
  grind [State.tvote, State.joinS_mem]
@[simp] theorem State.mapDiv_mem (s : State) (team : Nat) (frame : Nat) (f : Division → Division) :
    (State.mapDiv s team frame f).mem = s.mem := rfl
theorem State.rejoin_wf {s : State} (team : Nat) (d : Division) (ret : Word) (hs : s.mem.wf) :
    (State.rejoin s team d ret).mem.wf := by
  have := @State.beginMove_wf
  have := @State.boundary_wf
  grind [State.rejoin, State.meetRound_mem, State.mapTeam_mem, State.release_mem, foldl_wf]
theorem State.finishSub_wf {s : State} (team : Nat) (d : Division) (f : Frame) (hs : s.mem.wf) :
    (State.finishSub s team d f).mem.wf := by
  have := @State.setNext_wf
  have := @State.enterCallee_wf
  have := @State.beginMove_wf
  have := @State.boundary_wf
  have := @State.rejoin_wf
  grind [State.finishSub, State.meetRound_mem, State.mapDiv_mem, State.mapTeam_mem]
theorem State.exitGroup_wf {s : State} (hs : s.mem.wf) : (State.exitGroup s).mem.wf := by
  have := @State.completeRound_wf
  have := @State.completeGbar_wf
  have := @State.checkParked_wf
  grind [State.exitGroup, State.mapTeam_mem, State.mapCur_mem, foldl_wf]
theorem State.exitWait_wf {s : State} (last : State → State) (hs : s.mem.wf) (hlast : ∀ s : State, s.mem.wf → (last s).mem.wf)
    : (State.exitWait s last).mem.wf := by
  grind [State.exitWait, State.raise_wf, State.mapCur_mem, State.wakeFrames_mem, State.exitGroup_wf]
theorem State.readRecord_wf {s : State} (va : Word) (hs : s.mem.wf) : (State.readRecord s va).2.mem.wf := by
  have := @State.checkRange_wf
  grind [State.readRecord]
@[simp] theorem State.queueUp_mem (s : State) (full : Bool) (w : SWait) : (State.queueUp s full w).mem = s.mem := rfl
theorem State.takeLaunch_wf {s : State} (wait : Bool) (d : SReg) (rec : LaunchRec) (hs : s.mem.wf) :
    (State.takeLaunch s wait d rec).mem.wf := by
  have := @State.sMemFault_wf
  have := @State.trailMark_wf
  grind [State.takeLaunch, State.sput_mem, State.nextPc_mem, State.enqueue_mem, State.queueUp_mem]
theorem State.launch_wf {s : State} (wait : Bool) (d : SReg) (a : SReg) (hs : s.mem.wf) : (State.launch s wait d a).mem.wf := by
  have := @State.sIssue_wf
  have := @State.withFrame_wf
  have := @State.raise_wf
  have := @State.readRecord_wf
  have := @State.sGlobalFault_wf
  have := @State.takeLaunch_wf
  grind [State.launch, State.sput_mem, State.nextPc_mem]
@[simp] theorem State.drawTicket_mem (s : State) (part : Nat) : (State.drawTicket s part).2.mem = s.mem := rfl
@[simp] theorem State.clearWindow_mem (s : State) (core : Nat) (base : Nat) (units : Nat) :
    (State.clearWindow s core base units).mem = s.mem := rfl
@[simp] theorem State.startTeam_mem (s : State) (gr : Grid) (gang : Nat) (rank : Nat) (p : Placed) :
    (State.startTeam s gr gang rank p).mem = s.mem := rfl
theorem State.dispatchGang_wf {s : State} (gr : Grid) (part : Nat) (num : Nat) (pos : Nat) (cluster : Nat) (bar : Option Nat)
    (ps : List Placed) (hs : s.mem.wf) : (State.dispatchGang s gr part num pos cluster bar ps).mem.wf := by
  have := @State.launch_wf
  have := @State.entryFreed_wf
  grind [State.dispatchGang, State.drawTicket_mem, State.startTeam_mem, State.mapGrid_mem, foldl_wf]
@[simp] theorem State.retireGang_mem (s : State) (g : Gang) : (State.retireGang s g).mem = s.mem := rfl
theorem State.retireFreed_wf {s : State} (grid n : Nat) (hs : s.mem.wf) : (State.retireFreed grid n s).mem.wf := by
  induction n generalizing s with
  | zero => exact hs
  | succ n ih => grind [State.retireFreed, State.retireGang_mem]
theorem State.leaveTeam_wf {s : State} (team : Nat) (hs : s.mem.wf) : (State.leaveTeam s team).mem.wf := by
  have := @State.focus_wf
  grind [State.leaveTeam]
theorem State.freeGang_wf {s : State} (gang : Nat) (hs : s.mem.wf) : (State.freeGang s gang).mem.wf := by
  have := @State.retireFreed_wf
  grind [State.freeGang, State.retireGang_mem, State.mapGang_mem]
theorem State.freeTeam_wf {s : State} (t : Team) (hs : s.mem.wf) : (State.freeTeam s t).mem.wf := by
  have := @State.leaveTeam_wf
  have := @State.freeGang_wf
  grind [State.freeTeam, State.clearWindow_mem, State.freeSteps_mem]
theorem State.writeCompletion_wf {s : State} (gr : Grid) (hs : s.mem.wf) : (State.writeCompletion s gr).mem.wf := by
  have := @State.launch_wf
  have := @State.queueRecord_wf
  have := @State.ctxPa_wf
  have := @State.ctxWrite_wf
  grind [State.writeCompletion]
theorem State.moveTo_wf {s : State} (core : Nat) (m : MoveSpec) (hs : s.mem.wf) {u : State}
    (hu : s.moveTo core m = some u) : u.mem.wf := by
  cases m <;> grind [State.moveTo, Option.bind_eq_some_iff, State.mapGroup_mem, State.moveWindow_mem]

end Sys2Proof.Machine
end

section
/-! SUPPORT. The form of memory: responses and lane accesses keep it. -/

namespace Sys2Proof.Machine

-- One after the other: side by side, these many small proofs wait for each other, each in a thread of its own.
set_option Elab.async false

theorem State.atReq_wf {s : State} (seq : Nat) (i : Nat) (f : State → Access → Req → State × Req) (hs : s.mem.wf) (hf : ∀
    (s : State) a r, s.mem.wf → (f s a r).1.mem.wf) : (State.atReq s seq i f).mem.wf := by
  grind [State.atReq, State.mapCur_mem]
theorem State.someReqs_wf {s : State} (a : Access) (rep : Nat → Nat) (f : State → Access → Req → State × Req) (hs : s.mem.wf)
    (hf : ∀ (s : State) a r, s.mem.wf → (f s a r).1.mem.wf) : (s.someReqs a rep f).mem.wf :=
  foldl_wf _ (State.pick_wf _ hs) fun s i hs => by grind [State.atReq_wf]
theorem State.answerRead_wf {s : State} (a : Access) (r : Req) (hs : s.mem.wf) : (State.answerRead s a r).1.mem.wf := by
  grind [State.answerRead, State.holdHost_mem]
theorem State.answerAtomic_wf {s : State} (a : Access) (r : Req) (hs : s.mem.wf) : (State.answerAtomic s a r).1.mem.wf := by
  have := @State.trailMark_wf
  grind [State.answerAtomic, State.wf_memWrite]
theorem State.putEntry_wf {s : State} (a : Access) (r : Req) (q : Queue) (c : Choice) (x : Option (Nat × List Byte))
    (hs : s.mem.wf) : (State.putEntry s a r q c x).1.mem.wf := by
  have := @State.checkGlobal_wf
  have := @State.trailMark_wf
  grind [State.putEntry, State.wf_memWrite, State.appended_mem]
theorem State.takeEntry_wf {s : State} (r : Req) (q : Queue) (c : Choice) (x : Option (Nat × List Byte)) (hs : s.mem.wf) :
    (State.takeEntry s r q c x).1.mem.wf := by
  have := @State.trailMark_wf
  grind [State.takeEntry, State.wf_memWrite]
theorem State.answerQueue_wf {s : State} (put : Bool) (a : Access) (r : Req) (hs : s.mem.wf) :
    (State.answerQueue s put a r).1.mem.wf := by
  have := @State.trailMark_wf
  have := @State.putEntry_wf
  have := @State.takeEntry_wf
  grind [State.answerQueue]
theorem State.wakeDest_wf {s : State} (a : Access) (hs : s.mem.wf) : (State.wakeDest s a).mem.wf := by
  grind [State.wakeDest, State.wakeBlock_mem, foldl_wf]
@[simp] theorem State.completeAccess_mem (s : State) (a : Access) : (State.completeAccess s a).mem = s.mem := rfl
theorem State.laneFault_wf {s : State} (a : Access) (completed : Mask) (hs : s.mem.wf) :
    (State.laneFault s a completed).mem.wf := by
  have := @State.logLanes_wf
  have := @State.raiseLanes_wf
  grind [State.laneFault, State.mapCur_mem]
theorem State.takeBack_wf {s : State} (l : Bool) (hs : s.mem.wf) : (State.takeBack s l).mem.wf := by
  have := @State.wakeDest_wf
  grind [State.takeBack, State.mapCur_mem]
theorem State.storeErr_wf {s : State} (a : Access) (r : Req) (code : Byte) (cause : Byte) (hs : s.mem.wf) :
    (State.storeErr s a r code cause).mem.wf := by
  have := @State.logFault_wf
  have := @State.queueRecord_wf
  have := @State.endGrid_wf
  grind [State.storeErr, State.mapCur_mem]
theorem State.reportErrs_wf {s : State} (a : Access) (hs : s.mem.wf) : (State.reportErrs s a).mem.wf := by
  have := @State.storeErr_wf
  grind [State.reportErrs, foldl_wf]
theorem State.leftAccess_wf {s : State} (a : Access) (hs : s.mem.wf) : (State.leftAccess s a).mem.wf := by
  have := @State.reportErrs_wf
  grind [State.leftAccess, State.mapCur_mem]
theorem State.finishAccess_wf {s : State} (a : Access) (hs : s.mem.wf) : (State.finishAccess s a).mem.wf := by
  have := @State.wakeDest_wf
  have := @State.leftAccess_wf
  have := @State.logFault_wf
  have := @State.raiseMem_wf
  have := @State.raise_wf
  have := @State.raiseLMem_wf
  have := @State.laneFault_wf
  grind [State.finishAccess, State.completeAccess_mem, State.mapCur_mem]
theorem State.loadResponse_wf {s : State} (seq : Nat) (hs : s.mem.wf) : (State.loadResponse s seq).mem.wf := by
  have := @State.someReqs_wf
  have := @State.answerQueue_wf
  have := @State.answerAtomic_wf
  have := @State.answerRead_wf
  have := @State.finishAccess_wf
  grind [State.loadResponse]
theorem State.performStore_wf {s : State} (a0 : Access) (a : Access) (r : Req) (hs : s.mem.wf) :
    (State.performStore s a0 a r).1.mem.wf := by
  grind [State.performStore, State.wf_memWrite]
theorem State.storeResponse_wf {s : State} (seq : Nat) (hs : s.mem.wf) : (State.storeResponse s seq).mem.wf := by
  have := @State.reportErrs_wf
  have := @State.someReqs_wf
  have := @State.performStore_wf
  grind [State.storeResponse, State.mapCur_mem]
theorem State.answerPeer_wf {s : State} (a : Access) (r : Req) (hs : s.mem.wf) : (s.answerPeer a r).1.mem.wf := by
  have marked {v : State} (hv : v.mem.wf) (c x q) : (v.trailMark c x q).mem.wf := State.trailMark_wf c x q hv
  have written (core byte bs) : (s.spWrite core byte bs).mem.wf := by simpa using hs
  unfold State.answerPeer
  split
  · exact hs
  · split
    · exact hs
    · dsimp only
      split
      · exact hs
      · split
        · simpa using hs
        · exact hs
        · split
          · exact written ..
          · split
            · exact hs
            · exact hs
            · split <;> dsimp only
              · exact marked (written ..) _ _ _
              · exact marked hs _ _ _
          · exact hs
theorem State.memIssue_wf {s : State} (o : LOp) (u : LUse) (body : LIn → State) (hs : s.mem.wf) (hbody : ∀ x : LIn,
    x.st.mem.wf → (body x).mem.wf) : (State.memIssue s o u body).mem.wf := by
  have := @State.lIssue_wf
  grind [State.memIssue]
theorem State.checkLanes_wf {s : State} (kind : AccessKind) (rs : List Req) (hs : s.mem.wf)
    : (s.checkLanes kind rs).st.mem.wf :=
  List.foldlRecOn (motive := fun c : LaneChecks => c.st.mem.wf) rs _ hs fun c hc r _ => by grind [State.checkGlobal_wf]
theorem State.checkLocal_wf {s : State} (kind : AccessKind) (out : Word → Bool) (rs : List Req)
    (own : State → Nat → Nat → Req → State × Word) (hs : s.mem.wf) (hown : ∀ (s : State) a b r,
        s.mem.wf → (own s a b r).1.mem.wf) :
    (s.checkLocal kind out rs own).st.mem.wf :=
  List.foldlRecOn (motive := fun c : LaneChecks => c.st.mem.wf) rs _ hs fun c hc r _ => by grind [State.wakeBank_mem]
@[simp] theorem State.keepWakes_mem (s : State) (t : State) : (State.keepWakes s t).mem = s.mem := rfl
theorem State.launchLanes_wf {s : State} (x : LIn) (c : LaneChecks) (a : Access) (cs : List Counter) (hs : s.mem.wf)
    (hc : c.st.mem.wf) :
    (s.launchLanes x c a cs).mem.wf := by
  unfold State.launchLanes
  exact ite_wf hs (ite_wf (ite_wf hs (ite_wf hc (State.laneFault_wf _ _ hc))) hc)
theorem State.gLanes_wf {s : State} (o : LOp) (u : LUse) (kind : AccKind) (n : Nat) (ord : Order) (sc : Scope)
    (cs : List Counter) (data : Nat → Word) (cmp : Nat → Word) (hs : s.mem.wf) :
    (State.gLanes s o u kind n ord sc cs data cmp).mem.wf := by
  have := @State.memIssue_wf
  have := @State.launchLanes_wf
  have := @State.checkLanes_wf
  grind [State.gLanes]
theorem State.lLanes_wf {s : State} (o : LOp) (u : LUse) (kind : AccKind) (n : Nat) (ord : Order) (sc : Scope)
    (cs : List Counter)
    (out : Word → Bool) (data cmp : Nat → Word) (own : State → Nat → Nat → Req → State × Word) (hs : s.mem.wf)
    (hown : ∀ (s : State) a b r, s.mem.wf → (own s a b r).1.mem.wf) :
    (s.lLanes o u kind n ord sc cs out data cmp own).mem.wf :=
  State.memIssue_wf _ _ _ hs fun x hx => by
    have := State.checkLocal_wf kind.access out ((lanesOf x.sel).map
        fun i => reqOf i (s.cur.laneAddr o x.popped i) 0 n (data i) (cmp i)) own hx hown
    grind [State.keepWakes_mem, State.launchLanes_wf]
theorem State.block_wf {s : State} (o : LOp) (u : LUse) (first : BitVec 8) (kind : AccKind) (c : Counter)
    (data : Nat → Nat → Word) (hs : s.mem.wf) : (State.block s o u first kind c data).mem.wf := by
  have := @State.raiseL_wf
  have := @State.lIssue_wf
  have := @State.logFault_wf
  have := @State.raiseLMem_wf
  have := @State.checkLanes_wf
  grind [State.block, State.mapCur_mem, State.lNext_mem]
theorem State.prefetch_wf {s : State} (va : Word) (hs : s.mem.wf) : (State.prefetch s va).mem.wf := by
  grind [State.prefetch, State.mapCore_mem]

end Sys2Proof.Machine
end

section
/-! SUPPORT. The form of memory: the matrix engine keep it. -/

namespace Sys2Proof.Machine

-- One after the other: side by side, these many small proofs wait for each other, each in a thread of its own.
set_option Elab.async false

@[simp] theorem State.mapTag_mem (s : State) (core : Nat) (t : Nat) (f : Tag → Tag) :
    (State.mapTag s core t f).mem = s.mem := rfl
@[simp] theorem State.enqueueCmd_mem (s : State) (tag : Nat) (pc : Word) (kind : MxKind) (locks : List
    (Space × Nat × Nat × Bool)) : (State.enqueueCmd s tag pc kind locks).mem = s.mem := rfl
theorem State.lOperands_wf {s : State} {k : State} (u : LUse) (hs : s.mem.wf) (hk : k.mem.wf) :
    (State.lOperands s u k).mem.wf := by
  have := @State.raiseL_wf
  grind [State.lOperands, State.mapCur_mem, State.wakeBlock_mem, foldl_wf]
theorem State.mxFault_wf {s : State} (f : MemFault) (rflags : Byte) (wr : Bool) (loc : Bool) (hs : s.mem.wf) :
    (State.mxFault s f rflags wr loc).mem.wf := by
  have := @State.logFault_wf
  have := @State.raiseLMem_wf
  have := @State.raiseL_wf
  grind [State.mxFault]
theorem State.readLocal16_wf {s : State} (va : Word) (hs : s.mem.wf) : (s.readLocal16 va).keeps := by
  grind [State.readLocal16, EntryRead.keeps, State.wakeBank_mem]
theorem State.mmaBody_wf {s : State} {t : State} (o : LOp) (f : FormatBlock) (b : Byte × BitVec 2 × Bool) (hs : s.mem.wf)
    (ht : t.mem.wf) : (State.mmaBody s t o f b).mem.wf := by
  have := @State.raiseL_wf
  have := @State.mxFault_wf
  have := @State.lOperands_wf
  grind [State.mmaBody, State.mapCur_mem, State.enqueueCmd_mem, State.lNext_mem]
theorem State.mmaFormat_wf {s t : State} (o : LOp) (va : Word) (hs : s.mem.wf) (ht : t.mem.wf)
    : (s.mmaFormat t o va).mem.wf := by
  have hr := State.readLocal16_wf va hs
  unfold State.mmaFormat
  split
  · exact State.mxFault_wf _ _ _ _ hs
  · next h => rw [h] at hr; exact hr
  · refine ite_wf (State.raiseL_wf _ hs) (ite_wf (State.mxFault_wf _ _ _ _ hs) (ite_wf (State.mxFault_wf _ _ _ _ hs) ?_))
    split
    · exact State.raiseL_wf _ hs
    · exact ite_wf (State.mmaBody_wf _ _ _ hs ht) (State.raiseL_wf _ hs)
theorem State.registerDrain_wf (s : State) {t : State} (o : LOp) (toSp : Bool) (base : Word) (pops : List Word) (locks : List
    (Space × Nat × Nat × Bool)) (ht : t.mem.wf) : (State.registerDrain s t o toSp base pops locks).mem.wf := by
  grind [State.registerDrain, State.enqueueCmd_mem, State.mapCur_mem, State.lNext_mem]
theorem State.drain_wf {s : State} (o : LOp) (toSp : Bool) (hs : s.mem.wf) : (s.drain o toSp).mem.wf := by
  have fault (f r a b) : (s.mxFault f r a b).mem.wf := State.mxFault_wf f r a b hs
  have raised (c) : (s.raiseL c).mem.wf := State.raiseL_wf c hs
  unfold State.drain
  refine ite_wf (raised _) (State.lIssue_wf _ _ _ hs fun _ _ => ?_)
  dsimp only
  split
  · exact fault ..
  · refine ite_wf (raised _) (State.lOperands_wf _ hs (State.latePops_wf _ _ hs fun vc _ => ?_))
    split
    · exact fault ..
    · exact ite_wf hs (State.latePops_wf _ _ hs fun vs g => State.registerDrain_wf _ _ _ _ _ _ hs)
@[simp] theorem State.mapCmd_mem (s : State) (id : Nat) (f : MxCmd → MxCmd) : (State.mapCmd s id f).mem = s.mem := rfl
@[simp] theorem State.endCmd_mem (s : State) (c : MxCmd) : (State.endCmd s c).mem = s.mem := rfl
@[simp] theorem State.endCmdAs_mem (s : State) (c : MxCmd) (status : Nat) (rows : Word32) :
    (State.endCmdAs s c status rows).mem = s.mem := rfl
theorem State.cmdFlags_wf {s : State} (c : MxCmd) (f : Byte) (hs : s.mem.wf) : (State.cmdFlags s c f).mem.wf := by
  grind [State.cmdFlags, State.mapGroup_mem]
theorem State.endMma_wf {s : State} (c : MxCmd) (hs : s.mem.wf) : (State.endMma s c).mem.wf := by
  have := @State.cmdFlags_wf
  grind [State.endMma, State.endCmdAs_mem, State.endCmd_mem]
theorem State.prepareWave_wf {s : State} (core : Nat) (t : Nat) (hs : s.mem.wf) : (State.prepareWave s core t).mem.wf := by
  grind [State.prepareWave, State.mapCmd_mem, State.logEngine_mem, State.wakeBank_mem]
theorem State.inject_wf {s : State} (core : Nat) (t : Nat) (n : Nat) (hs : s.mem.wf) : (State.inject s core t n).mem.wf := by
  grind [State.inject, State.mapCmd_mem, State.mapCore_mem]
@[simp] theorem State.setRow_mem (s : State) (core : Nat) (bank : Nat) (row : Nat) (v : VReg) :
    (State.setRow s core bank row v).mem = s.mem := rfl
theorem State.waveRecord_wf {s : State} (c : MxCmd) (cause : Byte) (row : Nat) (va : Word) (hs : s.mem.wf) :
    (State.waveRecord s c cause row va).mem.wf := by
  have := @State.queueRecord_wf
  grind [State.waveRecord]
theorem State.writeWave_wf {s : State} (c : MxCmd) (w : Wave) (err : WaveErr) (hs : s.mem.wf) :
    (State.writeWave s c w err).mem.wf := by
  have := @State.waveRecord_wf
  grind [State.writeWave, State.meetError_mem, State.mapTag_mem, State.mapCmd_mem, State.setRow_mem]
theorem State.waveDone_wf {s : State} (id : Nat) (hs : s.mem.wf) : (State.waveDone s id).mem.wf := by
  have := @State.endMma_wf
  grind [State.waveDone, State.mapCmd_mem]
theorem State.finishWload_wf {s : State} (c : MxCmd) (fmt : Byte) (blen : BitVec 2) (b128 : Bool) (tile : Nat) (scales : Nat)
    (bad : List Nat) (hs : s.mem.wf) : (State.finishWload s c fmt blen b128 tile scales bad).mem.wf := by
  grind [State.finishWload, State.meetError_mem, State.mapTag_mem, State.endCmd_mem, foldl_wf]
theorem State.drainFault_wf {s : State} (c : MxCmd) (acc : Nat) (pops : List Word) (code : Byte) (cause : Byte)
    (lanes : List LaneFault) (hs : s.mem.wf) : (State.drainFault s c acc pops code cause lanes).mem.wf := by
  have := @State.withGroup_wf
  have := @State.dispatch_wf
  grind [State.drainFault, State.endCmd_mem, State.mapCur_mem]
@[simp] theorem State.clearRows_mem (s : State) (c : MxCmd) (rb : Nat) (m : Nat) : (State.clearRows s c rb m).mem = s.mem := rfl
theorem State.deliveryWakes_wf {s : State} (uid : Nat) (acc : Nat) (hs : s.mem.wf) {u : State} (hu :
    (State.deliveryWakes s uid acc) = some u) : u.mem.wf := by
  have := @State.withGroup_wf
  have := @State.wakeDest_wf
  grind [State.deliveryWakes]
theorem State.finishDrain_wf {s : State} (uid : Nat) (acc : Nat) (rows : List VReg) (hs : s.mem.wf) :
    (State.finishDrain s uid acc rows).mem.wf := by
  have := @State.withGroup_wf
  grind [State.finishDrain, State.completeAccess_mem]
theorem State.engineStop_wf {s : State} (core : Nat) (ctx : Nat) (uid : Nat) (pc : Word) (handler : Bool) (wr : Bool)
    (f : MemFault) (hs : s.mem.wf) : (State.engineStop s core ctx uid pc handler wr f).mem.wf := by
  have := @State.queueRecord_wf
  have := @State.withGroup_wf
  have := @State.endGrid_wf
  grind [State.engineStop, State.mapGroup_mem]
theorem State.drainToSp_wf {s : State} (c : MxCmd) (g : Group) (base : Word) (ty : ElemType) (rows : List VReg) (acc : Nat)
    (k : State → State) (hs : s.mem.wf) (hk : ∀ s : State, s.mem.wf → (k s).mem.wf) :
    (State.drainToSp s c g base ty rows acc k).mem.wf := by
  have := @State.finishDrain_wf
  have := @State.engineStop_wf
  grind [State.drainToSp, State.logEngine_mem, State.endCmd_mem, State.wakeBank_mem, State.spWrite_mem, foldl_wf]
theorem State.removeCmd_wf {s : State} (c : MxCmd) (hs : s.mem.wf) : (State.removeCmd s c).mem.wf := by
  have := @State.drain_wf
  have := @State.drainFault_wf
  grind [State.removeCmd, State.endCmdAs_mem]
theorem State.killTag_wf {s : State} (core : Nat) (t : Nat) (hs : s.mem.wf) : (State.killTag s core t).mem.wf := by
  have := @State.removeCmd_wf
  have := @State.endMma_wf
  grind [State.killTag, State.mapTag_mem, State.mapCore_mem, foldl_wf]
@[simp] theorem State.freeTag_mem (s : State) (core : Nat) (t : Nat) : (State.freeTag s core t).mem = s.mem := rfl
@[simp] theorem State.scrubTag_mem (s : State) (core : Nat) (t : Nat) : (State.scrubTag s core t).mem = s.mem := rfl
theorem State.tagkill_wf {s : State} (core : Nat) (ctx : Nat) (mach : Bool) (v : Word) (hs : s.mem.wf) :
    (State.tagkill s core ctx mach v).2.mem.wf := by
  have := @State.killTag_wf
  grind [State.tagkill]
end Sys2Proof.Machine
end

section
/-! SUPPORT. The form of memory: lane control, traps, pages and the copy engine keep it. -/

namespace Sys2Proof.Machine

-- One after the other: side by side, these many small proofs wait for each other, each in a thread of its own.
set_option Elab.async false

@[simp] theorem State.setPath_mem (s : State) (pc : Nat) (m : Mask) : (State.setPath s pc m).mem = s.mem := rfl
theorem State.bdiv_wf {s : State} (target join : Nat) (m t : Mask) (hs : s.mem.wf) : (s.bdiv target join m t).mem.wf := by
  have parked {o : Option Path} {u : State} (hu : (match o with
      | some o => s.pushEntry ⟨.park, o.pc, o.mask⟩
      | none => some s) = some u) : u.mem.wf := by
    grind [State.pushEntry_wf]
  have joined (x : Option State) (hx : ∀ u, x = some u → u.mem.wf) (f : State → State) (hf : ∀ u, (f u).mem = u.mem) :
      (orSpill s (x.bind fun s1 => (s1.pushEntry ⟨.join, join, m⟩).map f)).mem.wf :=
    orSpill_wf hs fun u hu => by
      obtain ⟨s1, h1, hu⟩ := Option.bind_eq_some_iff.mp hu
      obtain ⟨s2, h2, rfl⟩ := Option.map_eq_some_iff.mp hu
      exact hf s2 ▸ State.pushEntry_wf _ (hx _ h1) h2
  unfold State.bdiv
  dsimp only
  refine ite_wf (State.raiseNest_wf _ hs) (ite_wf (by simpa using hs) (ite_wf
      (State.raiseL_wf _ hs) (joined _ (fun u => parked) _ fun u => rfl)))
theorem State.joinPass_wf {s : State} (m : Mask) (hs : s.mem.wf) : (State.joinPass s m).mem.wf := by
  grind [State.joinPass, State.mapL_mem, State.setPath_mem]
theorem State.join_wf {s : State} (m : Mask) (hs : s.mem.wf) : (State.join s m).mem.wf := by
  have := @orSpill_wf
  have := @State.dissolve_wf
  have := @State.raiseL_wf
  have := @State.joinPass_wf
  grind [State.join]
theorem State.bloopRest_wf {s : State} (top : Nat) (t : Mask) (hs : s.mem.wf) {u : State} (hu :
    (State.bloopRest s top t) = some u) : u.mem.wf := by
  have := @State.dissolve_wf
  grind [State.bloopRest, State.setPath_mem]
theorem State.bloop_wf {s : State} (top exit : Nat) (m t : Mask) (hs : s.mem.wf) : (s.bloop top exit m t).mem.wf := by
  have rest {u v : State} (hu : u.mem.wf) := State.bloopRest_wf (s := u) top t hu (u := v)
  have pushed (u : State) (hu : ((s.pushEntry ⟨.loop, exit, m⟩).bind fun s1 => (s1.mapL
      fun l => l.nestUp m).bloopRest top t) = some u) :
      u.mem.wf := by
    obtain ⟨s1, h1, hu⟩ := Option.bind_eq_some_iff.mp hu
    exact rest (by simpa using State.pushEntry_wf _ hs h1) hu
  grind [State.bloop, orSpill_wf, State.setPath_mem, State.raiseNest_wf, State.raiseL_wf]
theorem State.respill_wf {s : State} (es : List (StackEntry × Nat)) (hs : s.mem.wf) {u : State}
    (hu : s.respill es = some u) : u.mem.wf := by
  induction es generalizing s with
  | nil => cases hu; exact hs
  | cons e es ih => grind [State.respill, Option.bind_eq_some_iff, State.spillWrite_wf]
theorem State.lkill_wf {s : State} (m k : Mask) (hs : s.mem.wf) : (s.lkill m k).mem.wf := by
  refine orSpill_wf hs fun u hu => ?_
  obtain ⟨s2, h2, hu⟩ := Option.bind_eq_some_iff.mp hu
  have h2 : s2.mem.wf := State.respill_wf (s := s.mapL fun l => l.retire k) _ hs h2
  split at hu
  · exact State.dissolve_wf h2 hu
  · cases hu; exact h2
theorem State.enterHold_wf {s : State} (k : HoldKind) (m : Mask) (hs : s.mem.wf) : (State.enterHold s k m).mem.wf := by
  have := @orSpill_wf
  have := @State.dissolve_wf
  grind [State.enterHold, State.mapL_mem]
@[simp] theorem State.rqPush_mem (s : State) (vs : List Word) : (State.rqPush s vs).mem = s.mem := rfl
theorem State.logEvent_wf {s : State} (src : Nat) (type : Byte) (hs : s.mem.wf) : (State.logEvent s src type).mem.wf := by
  grind [State.logEvent, State.holdIf_mem, State.wf_memWrite]
theorem State.softStop_wf {s : State} (code : Byte) (hs1 : Word) (hs : s.mem.wf) : (State.softStop s code hs1).mem.wf := by
  have := @State.dispatch_wf
  grind [State.softStop, State.nextPc_mem]
theorem State.resumeCopies_wf {s : State} (uid : Nat) (st : Stop) (hs : s.mem.wf) : (State.resumeCopies s uid st).mem.wf := by
  grind [State.resumeCopies]
theorem State.dropRetired_wf {s : State} (h : Handler) (hs : s.mem.wf) : (s.dropRetired h).mem.wf := by
  have spilled {v t : State} {es} (hv : v.mem.wf) := State.respill_wf (s := v) es hv (u := t)
  have refilled {v t : State} {n} (hv : v.mem.wf) := State.refill_wf (s := v) n hv (u := t)
  unfold State.dropRetired
  dsimp only
  split
  · refine orSpill_wf (by simpa using hs) fun u hu => ?_
    obtain ⟨t, ht, hu⟩ := Option.bind_eq_some_iff.mp hu
    have ht := spilled (by simpa using hs) ht
    grind
  · exact hs
@[simp] theorem State.dropRange_mem (s : State) (ctx : Nat) (lo : Nat) (hi : Nat) :
    (State.dropRange s ctx lo hi).mem = s.mem := rfl
@[simp] theorem State.postInval_mem (s : State) (ctx : Nat) (lo : Nat) (hi : Nat) (host : Bool) :
    (State.postInval s ctx lo hi host).mem = s.mem := rfl
theorem State.tagset_wf {s : State} (core : Nat) (ctx : Nat) (mach : Bool) (v : Word) (hs : s.mem.wf) :
    (State.tagset s core ctx mach v).2.mem.wf := by
  grind [State.tagset, State.freeTag_mem, State.mapTag_mem]
theorem State.privq_wf {s : State} (d : SReg) (a : SReg) (f : State → Stop → Word → State) (hs : s.mem.wf) (hf : ∀
    (s : State) a b, s.mem.wf → (f s a b).mem.wf) : (State.privq s d a f).mem.wf := by
  have := @State.sIssue_wf
  have := @State.withGroup_wf
  grind [State.privq, State.sput_mem, State.nextPc_mem, State.mapCtx_mem]
theorem State.writeEntries_wf {s : State} (eas : List Nat) (v : Nat) (hs : s.mem.wf) : (s.writeEntries eas v).mem.wf :=
  foldl_wf _ hs fun _ _ hs => State.wf_memWrite _ _ _ hs
theorem State.mappg_wf {s : State} (sz : PageSize) (rs : List SReg) (d : SReg) (a : SReg) (above : Word)
    (k : State → Word → List Nat → State) (hs : s.mem.wf) (hk : ∀ (s : State) a b, s.mem.wf → (k s a b).mem.wf) :
    (State.mappg s sz rs d a above k).mem.wf := by
  have := @State.sIssue_wf
  have := @State.sMemFault_wf
  grind [State.mappg, State.sput_mem, State.nextPc_mem]
theorem State.zeroFrame_wf {s : State} (w : Byte) (pa : Nat) (hs : s.mem.wf) : (s.zeroFrame w pa).mem.wf :=
  foldl_wf _ hs fun _ _ hs => State.wf_memWrite _ _ _ hs
theorem State.readTensor_wf {s : State} (va : Word) (hs : s.mem.wf) : (State.readTensor s va).2.mem.wf := by
  have := @State.checkRange_wf
  grind [State.readTensor]
@[simp] theorem State.registerCopy_mem (s : State) (dir : CopyDir) (tag : Nat) (k : Nat) (src : Word) (dst : Word)
    (t : TensorRec) : (State.registerCopy s dir tag k src dst t).mem = s.mem := rfl
theorem State.engineTranslate_wf {s : State} (core : Nat) (c : Ctx) (lvl : Level) (kind : AccessKind) (va : Word)
    (hs : s.mem.wf) : (State.engineTranslate s core c lvl kind va).st.mem.wf := by
  have := @State.translateHeld_wf
  have := @State.translateWalk_wf
  grind [State.engineTranslate, State.mapCore_mem]
theorem State.engineGlobal_wf {s : State} (core : Nat) (c : Ctx) (lvl : Level) (out : Nat → Nat → Bool) (kind : AccessKind)
    (ps acc : List (Nat × Nat)) (hs : s.mem.wf) : (s.engineGlobal core c lvl out kind ps acc).2.mem.wf := by
  induction ps generalizing s acc with
  | nil => exact hs
  | cons p ps ih => grind [State.engineGlobal, State.engineTranslate_wf]
theorem State.engineLocal_wf {s : State} (g : Group) (y : Copy) (kind : AccessKind) (va : Word) (n : Nat)
    (hs : s.mem.wf) {u : State}
    (hu : s.engineLocal g y kind va n = .inr u) : u.mem.wf := by
  grind [State.engineLocal, State.wakeBank_mem]
theorem State.writePieces_wf {s : State} (w : Byte) (ps : List (Nat × Nat)) (bs : List Byte) (hs : s.mem.wf) :
    (s.writePieces w ps bs).mem.wf := by
  induction ps generalizing s bs with
  | nil => exact hs
  | cons p ps ih => exact ih _ (State.wf_memWrite w _ _ hs)
theorem State.writeSpPieces_wf {s : State} (core : Nat) (ps : List (Nat × Nat)) (bs : List Byte) (hs : s.mem.wf) :
    (s.writeSpPieces core ps bs).mem.wf := by
  induction ps generalizing s bs with
  | nil => exact hs
  | cons p ps ih => exact ih _ (by simpa using hs)
@[simp] theorem State.mapCopy_mem (s : State) (id : Nat) (f : Copy → Copy) : (State.mapCopy s id f).mem = s.mem := rfl
theorem State.copyFault_wf {s : State} (c : Copy) (wr : Bool) (loc : Bool) (f : MemFault) (hs : s.mem.wf) :
    (State.copyFault s c wr loc f).mem.wf := by
  have := @State.engineStop_wf
  grind [State.copyFault, State.mapCopy_mem, State.logEngine_mem]
theorem State.walkAhead_wf {s : State} (c : Copy) (x : Ctx) (hs : s.mem.wf) : (State.walkAhead s c x).mem.wf := by
  grind [State.walkAhead, State.mapCore_mem]
/-- The state that an access of a copy leaves keeps the form. -/
def EngAns.keeps : EngAns → Prop
  | .ok s _ | .fault s _ | .wait s => s.mem.wf
theorem State.engineRead_wf {s : State} (core : Nat) (c : Ctx) (y : Copy) (g : Group) (loc : Bool) (va : Word) (n : Nat)
    (hs : s.mem.wf) :
    (s.engineRead core c y g loc va n).keeps := by
  have := State.engineGlobal_wf core c y.level (s.priorOn g y) .read (pieces 64 5 va.toNat n) [] hs
  grind [State.engineRead, EngAns.keeps, State.engineLocal_wf]
theorem State.engineWrite_wf {s : State} (core : Nat) (c : Ctx) (y : Copy) (g : Group) (loc : Bool) (va : Word)
    (bs : List Byte) (hs : s.mem.wf) :
    (s.engineWrite core c y g loc va bs).keeps := by
  have := State.engineGlobal_wf core c y.level (s.priorOn g y) .write (pieces 64 5 va.toNat bs.length) [] hs
  grind [State.engineWrite, EngAns.keeps, State.engineLocal_wf, State.writeSpPieces_wf, State.writePieces_wf]
theorem State.copyElement_wf {s : State} (c : Copy) (x : Ctx) (g : Group) (hs : s.mem.wf) : (s.copyElement c x g).mem.wf := by
  have hr := State.engineRead_wf c.core x c g (CopyDir.srcLocal c.dir) (c.srcAt c.cursor) (c.tensor.ed c.k) hs
  unfold State.copyElement
  dsimp only
  split
  · next h => rw [h] at hr; exact hr
  · next h => rw [h] at hr; exact State.copyFault_wf _ _ _ _ hr
  · next u bs h =>
    rw [h] at hr
    have hw := State.engineWrite_wf (s := u) c.core x c g (CopyDir.dstLocal c.dir) (c.dstAt c.cursor) bs hr
    refine ite_wf (by simpa [EngAns.keeps] using hr) ?_
    split
    · next h => rw [h] at hw; exact hw
    · next h => rw [h] at hw; exact State.copyFault_wf _ _ _ _ hw
    · next h => rw [h] at hw; simpa [EngAns.keeps] using hw
@[simp] theorem State.endCopy_mem (s : State) (c : Copy) : (State.endCopy s c).mem = s.mem := rfl

end Sys2Proof.Machine
end

section
/-! SUPPORT. The form of memory: mailbox, preemption, migration and links keep it. -/

namespace Sys2Proof.Machine

-- One after the other: side by side, these many small proofs wait for each other, each in a thread of its own.
set_option Elab.async false

theorem State.mail_wf {s : State} (core ctx : Nat) (type : Byte) (payload : List Byte) (hs : s.mem.wf) :
    (s.mail core ctx type payload).mem.wf := by
  unfold State.mail
  split
  · exact hs
  · next c _ =>
    have hr := State.ctxRead_wf (s := s) core c .super .atomic (canonical c.mboxo) 64 hs
    dsimp only
    split
    · exact hr
    · split
      · exact hr
      · have hw := State.ctxWrite_wf (s := (s.ctxRead core c .super .atomic (canonical c.mboxo) 64).2) core c .super
        grind [State.ctxWrite_wf, State.mapCtx_mem]
theorem State.takeMail_wf {s : State} (core ctx : Nat) (type : Byte) (hs : s.mem.wf) : (s.takeMail core ctx type).2.mem.wf := by
  have read {v : State} (hv : v.mem.wf) (c lvl k va n) : (v.ctxRead core c lvl k va n).2.mem.wf := State.ctxRead_wf core c lvl k va n hv
  have wrote {v : State} (hv : v.mem.wf) (c lvl va bs) : (v.ctxWrite core c lvl va bs).2.mem.wf := State.ctxWrite_wf core c lvl va bs hv
  unfold State.takeMail
  split
  · exact hs
  · dsimp only
    split
    · exact read hs ..
    · split
      · exact read hs ..
      · split
        · exact read hs ..
        · split
          · exact read (read hs ..) ..
          · split
            · exact read (read hs ..) ..
            · exact wrote (read (read hs ..) ..) ..
theorem State.askCtx_wf {s : State} (ctx : Nat) (hs : s.mem.wf) : (State.askCtx s ctx).mem.wf := by
  have := @State.checkParked_wf
  grind [State.askCtx, State.mapCtx_mem]
theorem State.haltCtx_wf {s : State} (ctx : Nat) (hs : s.mem.wf) : (State.haltCtx s ctx).mem.wf := by
  have := @State.cancelMove_wf
  grind [State.haltCtx, State.mapGroups_mem, State.mapCtx_mem]
theorem State.haltedCtx_wf {s : State} (ctx : Nat) (hs : s.mem.wf) : (State.haltedCtx s ctx).mem.wf := by
  grind [State.haltedCtx, State.mapCtx_mem]
theorem State.resumeCtx_wf {s : State} (ctx : Nat) (hs : s.mem.wf) : (State.resumeCtx s ctx).mem.wf := by
  grind [State.resumeCtx, State.mapGroups_mem, State.mapCtx_mem]
theorem State.flushStore_wf {s : State} (port : Nat) (w : Byte) (a : Access) (hs : s.mem.wf) : (s.flushStore port w a).mem.wf :=
  foldl_wf _ hs fun s r hs => by grind [State.wf_memWrite]
theorem State.flushCtx_wf {s : State} (ctx : Nat) (w : Byte) (hs : s.mem.wf) : (State.flushCtx s ctx w).mem.wf := by
  have := @State.flushStore_wf
  grind [State.flushCtx, foldl_wf]
theorem State.killTags_wf {s : State} (ctx : Nat) (hs : s.mem.wf) : (State.killTags s ctx).mem.wf := by
  have := @State.killTag_wf
  grind [State.killTags, foldl_wf]
theorem State.retireCtx_wf {s : State} (ctx n : Nat) (hs : s.mem.wf) : (State.retireCtx ctx n s).mem.wf := by
  induction n generalizing s with
  | zero => exact hs
  | succ n ih => grind [State.retireCtx, State.writeCompletion_wf]
theorem State.strikeCtx_wf {s : State} (ctx : Nat) (hs : s.mem.wf) : (State.strikeCtx s ctx).mem.wf := by
  have := @State.cancelMove_wf
  have := @State.killTags_wf
  have := @State.flushCtx_wf
  have := @State.endOne_wf
  have := @State.freeTeam_wf
  have := @State.retireCtx_wf
  have := @State.mail_wf
  grind [State.strikeCtx, State.endCopy_mem, State.mapCtx_mem, foldl_wf]
theorem State.preqCmd_wf {s : State} (ctx cmd : Nat) (hs : s.mem.wf) : (s.preqCmd ctx cmd).mem.wf := by
  unfold State.preqCmd
  split <;> grind [State.askCtx_wf, State.haltCtx_wf, State.strikeCtx_wf, State.resumeCtx_wf]
@[simp] theorem State.putMig_mem (s : State) (m : Mig) : (State.putMig s m).mem = s.mem := rfl
theorem State.migPrecopy_wf {s : State} (f : Nat) (hs : s.mem.wf) : (State.migPrecopy s f).mem.wf := by
  grind [State.migPrecopy, State.putMig_mem]
theorem State.migStop_wf {s : State} (f : Nat) (hs : s.mem.wf) : (State.migStop s f).mem.wf := by
  have := @State.askCtx_wf
  grind [State.migStop, State.putMig_mem, State.mapCtx_mem, foldl_wf]
theorem State.migAbort_wf {s : State} (f : Nat) (hs : s.mem.wf) : (State.migAbort s f).mem.wf := by
  have := @State.resumeCtx_wf
  grind [State.migAbort, State.putMig_mem, foldl_wf]
theorem State.migReceive_wf {s : State} (f : Nat) (hs : s.mem.wf) : (State.migReceive s f).mem.wf := by
  grind [State.migReceive, State.putMig_mem]
theorem State.migResume_wf {s : State} (f : Nat) (hs : s.mem.wf) : (State.migResume s f).mem.wf := by
  have := @State.resumeCtx_wf
  grind [State.migResume, State.putMig_mem, foldl_wf]
theorem State.migCmd_wf {s : State} (f cmd : Nat) (hs : s.mem.wf) : (s.migCmd f cmd).mem.wf := by
  unfold State.migCmd
  split <;> grind [State.migPrecopy_wf, State.migStop_wf, State.migResume_wf, State.migAbort_wf, State.migReceive_wf]
theorem State.dirtyReport_wf {s : State} (f : Nat) (hs : s.mem.wf) : (s.dirtyReport f).mem.wf :=
  foldl_wf _ hs fun _ _ hs => State.wf_memWrite _ _ _ hs
theorem State.writeMigDirty_wf {s : State} (f : Nat) (v : Word) (hs : s.mem.wf) : (State.writeMigDirty s f v).mem.wf := by
  grind [State.writeMigDirty, State.putMig_mem]
@[simp] theorem State.putWindow_mem (s : State) (f : Nat) (off : Nat) (bs : List Byte) :
    (State.putWindow s f off bs).mem = s.mem := rfl
theorem State.serve_wf {s : State} (f : Nat) (idx : Nat) (op : Nat) (go : State → Nat → Nat → State) (hs : s.mem.wf) (hgo : ∀
    (s : State) a b, s.mem.wf → (go s a b).mem.wf) : (State.serve s f idx op go).mem.wf := by
  grind [State.serve, State.putWindow_mem]
@[simp] theorem State.arrives_mem (s : State) (p : Packet) : (State.arrives s p).mem = s.mem := rfl
theorem State.netauth_wf {s : State} (id : Word32) (seq : Nat) (hs : s.mem.wf) : (State.netauth s id seq).mem.wf := by
  have := @State.finishAccess_wf
  have := @State.storeResponse_wf
  grind [State.netauth, State.mapCur_mem]
theorem State.delivered_wf {s : State} (seq : Nat) (hs : s.mem.wf) : (State.delivered s seq).mem.wf := by
  have := @State.someReqs_wf
  have := @State.answerPeer_wf
  have := @State.loadResponse_wf
  have := @State.storeResponse_wf
  grind [State.delivered]
theorem State.hostPiece_wf {s : State} (fn : Nat) (x : Nat × List Byte) (hs : s.mem.wf) : (State.hostPiece s fn x).mem.wf := by
  grind [State.hostPiece, State.wf_memWrite]
theorem State.serveRemote_wf {s : State} (acc : RemoteAccess) (hs : s.mem.wf) : (s.serveRemote acc).mem.wf := by
  have hw := fun bs => State.wf_memWrite (s := s) acc.world acc.pa bs hs
  have hm {v : State} (hv : v.mem.wf) (c x q) : (v.trailMark c x q).mem.wf := State.trailMark_wf c x q hv
  unfold State.serveRemote
  dsimp only
  split
  · exact hs
  · refine ite_wf hs ?_
    split
    · exact ite_wf hs hs
    · exact ite_wf hs (hw _)
    · refine ite_wf hs ?_
      split
      · exact hs
      · exact hs
      · split <;> dsimp only
        · exact hm (hw _) _ _ _
        · exact hm hs _ _ _

end Sys2Proof.Machine
end

section
/-! SUPPORT. The form of memory: save, power and thermal moves keep it. -/

namespace Sys2Proof.Machine

-- One after the other: side by side, these many small proofs wait for each other, each in a thread of its own.
set_option Elab.async false

theorem State.settleFrames_wf {s : State} (t : Team) (hs : s.mem.wf) : (State.settleFrames s t).mem.wf := by
  have := @State.writeSlot_wf
  grind [State.settleFrames, State.mapTeam_mem, foldl_wf]
theorem State.freeTags_wf {s : State} (ctx : Nat) (hs : s.mem.wf) : (State.freeTags s ctx).mem.wf := by
  grind [State.freeTags, State.scrubTag_mem, foldl_wf]
theorem State.dropCtx_wf {s : State} (ctx : Nat) (hs : s.mem.wf) : (State.dropCtx s ctx).mem.wf := by
  have := @State.freeTags_wf
  have := @State.leaveTeam_wf
  have := @State.entryFreed_wf
  grind [State.dropCtx, State.freeSteps_mem, State.clearWindow_mem, State.mapCtx_mem, foldl_wf]
theorem State.imagePages_wf {s : State} (kind : AccessKind) (base : Word) (len : Nat) (hs : s.mem.wf) :
    (s.imagePages kind base len).2.mem.wf :=
  List.foldlRecOn (motive := fun x : Option MemFault × State => x.2.mem.wf) _ _ hs
      fun x hx i _ => by grind [State.checkRange_wf]
theorem State.putLines_wf {s : State} (ls : List (Word × List Byte)) (hs : s.mem.wf) : (s.putLines ls).2.mem.wf := by
  induction ls generalizing s with
  | nil => exact hs
  | cons l ls ih => grind [State.putLines, State.ctxWrite_wf]
theorem State.saveCtx_wf {s : State} (free : Bool) (d : SReg) (base : Word) (cap : Nat) (c : Ctx) (hs : s.mem.wf) :
    (State.saveCtx s free d base cap c).mem.wf := by
  have := @State.settleFrames_wf
  have := @State.imagePages_wf
  have := @State.sMemFault_wf
  have := @State.putLines_wf
  have := @State.dropCtx_wf
  grind [State.saveCtx, State.sput_mem, State.nextPc_mem, State.mapCtx_mem, foldl_wf]
@[simp] theorem State.mapStep_mem (s : State) (core : Nat) (i : Nat) (f : StepEntry → StepEntry) :
    (State.mapStep s core i f).mem = s.mem := rfl
theorem State.raiseDeadline_wf {s : State} (core : Nat) (i : Nat) (e : StepView) (hs : s.mem.wf) :
    (State.raiseDeadline s core i e).mem.wf := by
  have := @State.queueRecord_wf
  have := @State.mail_wf
  grind [State.raiseDeadline, State.mapGroup_mem]
theorem State.windowStep_wf {s : State} (core : Nat) (i : Nat) (hs : s.mem.wf) : (State.windowStep s core i).2.mem.wf := by
  have := @State.raiseDeadline_wf
  grind [State.windowStep, State.mapStep_mem]
theorem State.windowQuad_wf {s : State} (q : Nat) (hs : s.mem.wf) : (s.windowQuad q).2.mem.wf := by
  unfold State.windowQuad
  generalize (List.range 3072).filter _ = ks
  exact List.foldlRecOn (motive := fun x : Option Nat × State => x.2.mem.wf) ks _ hs fun x hx k _ => State.windowStep_wf _ _ hx
@[simp] theorem State.windowDom_mem (s : State) (q : Nat) (req : Nat) (fit : Nat) :
    (State.windowDom s q req fit).mem = s.mem := rfl
@[simp] theorem State.setLvl_mem (s : State) (core : Nat) (lvl : Nat) : (State.setLvl s core lvl).mem = s.mem := rfl
theorem State.sampleDom_wf {s : State} (q : Nat) (amps : Nat) (hs : s.mem.wf) : (State.sampleDom s q amps).mem.wf := by
  grind [State.sampleDom, State.setLvl_mem, foldl_wf]
@[simp] theorem State.breakLine_mem (s : State) (pa : Nat) : (State.breakLine s pa).mem = s.mem := rfl
theorem State.restoreOffset_wf {s : State} (x : MetError) (hs : s.mem.wf) : (State.restoreOffset s x).mem.wf := by
  grind [State.restoreOffset, State.holdIf_mem, State.wf_memWrite]
theorem State.tmigSubmit_wf {s : State} (hs : s.mem.wf) : (State.tmigSubmit s).mem.wf := by
  grind [State.tmigSubmit]
theorem State.writeTmig_wf {s : State} (v : Word) (hs : s.mem.wf) : (State.writeTmig s v).mem.wf := by
  grind [State.writeTmig, State.withdrawMove_wf, State.tmigSubmit_wf]
@[simp] theorem State.carryWindow_mem (s : State) (t : Team) (core : Nat) (base : Nat) :
    (State.carryWindow s t core base).mem = s.mem := rfl
@[simp] theorem State.carryTag_mem (s : State) (src : Nat) (dst : Nat) (i : Nat) :
    (State.carryTag s src dst i).mem = s.mem := rfl
theorem State.carrySteps_wf {s : State} (t : Team) (core : Nat) (hs : s.mem.wf) : (State.carrySteps s t core).mem.wf := by
  grind [State.carrySteps, State.mapStep_mem, foldl_wf]
@[simp] theorem State.carryCopies_mem (s : State) (t : Team) (core : Nat) (base : Nat) :
    (State.carryCopies s t core base).mem = s.mem := rfl
theorem State.carryGroups_wf {s : State} (t : Team) (core : Nat) (hs : s.mem.wf) : (State.carryGroups s t core).mem.wf := by
  have := @State.block_wf
  grind [State.carryGroups, State.mapGroup_mem, State.mapCtx_mem, foldl_wf]
theorem State.carryTeam_wf {s : State} (t : Team) (hs : s.mem.wf) : (State.carryTeam s t).mem.wf := by
  have := @State.carryGroups_wf
  have := @State.carrySteps_wf
  grind [State.carryTeam, State.carryCopies_mem, State.carryWindow_mem, State.carryTag_mem, State.mapTeam_mem, foldl_wf]
theorem State.resumeTeam_wf {s : State} (t : Team) (hs : s.mem.wf) : (State.resumeTeam s t).mem.wf := by
  have := @State.boundary_wf
  grind [State.resumeTeam, State.mapTeam_mem]
end Sys2Proof.Machine
end

section
/-! SUPPORT. The form of memory: special registers, trust and boot keep it. -/

namespace Sys2Proof.Machine

-- One after the other: side by side, these many small proofs wait for each other, each in a thread of its own.
set_option Elab.async false

theorem State.srFrame_wf {s : State} (n : Nat) (body : State → State) (hs : s.mem.wf) (hbody : ∀ s : State,
    s.mem.wf → (body s).mem.wf) : (State.srFrame s n body).mem.wf := by
  have := @State.withFrame_wf
  grind [State.srFrame]
@[simp] theorem State.setPtroot_mem (s : State) (ctx : Nat) (v : Word) : (State.setPtroot s ctx v).mem = s.mem := rfl
theorem State.writeDev_wf {s : State} (n : Nat) (v : Word) (hs : s.mem.wf) : (s.writeDev n v).mem.wf := by
  unfold State.writeDev
  dsimp only
  split
  · exact State.preqCmd_wf _ _ hs
  · exact ite_wf hs hs
  · exact ite_wf hs hs
  · exact State.writeTmig_wf _ hs
  · exact ite_wf hs hs
  · exact ite_wf hs hs
  · exact hs
theorem State.srWrite_wf {s : State} (n : Nat) (v : Word) (hs : s.mem.wf) : (State.srWrite s n v).mem.wf := by
  have := @State.writeDev_wf
  grind [State.srWrite, State.mapCur_mem, State.mapCtx_mem, State.mapCore_mem]
theorem State.partCreate_wf {s : State} (idx : Nat) (hs : s.mem.wf) : (State.partCreate s idx).2.mem.wf := by
  grind [State.partCreate, State.mapPart_mem]
theorem State.partDestroy_wf {s : State} (idx : Nat) (hs : s.mem.wf) : (State.partDestroy s idx).2.mem.wf := by
  grind [State.partDestroy, State.mapPart_mem]
theorem State.writePtcmd_wf {s : State} (v : Word) (hs : s.mem.wf) : (State.writePtcmd s v).mem.wf := by
  have := @State.partCreate_wf
  have := @State.partDestroy_wf
  grind [State.writePtcmd]
@[simp] theorem State.writePtab_mem (s : State) (idx : Nat) (i : Nat) (v : Word) :
    (State.writePtab s idx i v).mem = s.mem := rfl
@[simp] theorem State.restartFlows_mem (s : State) (w : Byte) : (State.restartFlows s w).mem = s.mem := rfl
@[simp] theorem State.installWorld_mem (s : State) (w : Byte) (part : Nat) (keys : List (BitVec 256)) :
    (State.installWorld s w part keys).mem = s.mem := rfl
theorem State.worldCreate_wf {s : State} (w : Byte) (part : Nat) (hs : s.mem.wf) : (State.worldCreate s w part).2.mem.wf := by
  grind [State.worldCreate, State.installWorld_mem]
theorem State.worldImport_wf {s : State} (w : Byte) (part : Nat) (hs : s.mem.wf) : (State.worldImport s w part).2.mem.wf := by
  grind [State.worldImport, State.installWorld_mem]
@[simp] theorem State.removeCtx_mem (s : State) (id : Nat) : (State.removeCtx s id).mem = s.mem := rfl
@[simp] theorem State.teardown_mem (s : State) (w : Byte) : (State.teardown s w).mem = s.mem := rfl
theorem State.worldDestroy_wf {s : State} (w : Byte) (part : Nat) (hs : s.mem.wf) : (State.worldDestroy s w part).2.mem.wf := by
  grind [State.worldDestroy, State.removeCtx_mem, State.teardown_mem, foldl_wf]
theorem State.writeWldcmd_wf {s : State} (v : Word) (hs : s.mem.wf) : (State.writeWldcmd s v).mem.wf := by
  have := @State.worldCreate_wf
  have := @State.worldImport_wf
  have := @State.worldDestroy_wf
  grind [State.writeWldcmd]
theorem State.ctxCreate_wf {s : State} (b : List Byte) (sigOk : Bool) (hs : s.mem.wf) :
    (State.ctxCreate s b sigOk).2.mem.wf := by
  grind [State.ctxCreate, State.bump_mem]
theorem State.ctxDestroy_wf {s : State} (id : Nat) (hs : s.mem.wf) : (State.ctxDestroy s id).2.mem.wf := by
  grind [State.ctxDestroy, State.removeCtx_mem]
theorem State.writeCtxcmd_wf {s : State} (v : Word) (sigOk : Bool) (hs : s.mem.wf) : (State.writeCtxcmd s v sigOk).mem.wf := by
  have := @State.ctxCreate_wf
  have := @State.ctxDestroy_wf
  grind [State.writeCtxcmd]
theorem State.writeDebug_wf {s : State} (v : Word) (hs : s.mem.wf) : (State.writeDebug s v).mem.wf := by
  grind [State.writeDebug]
@[simp] theorem State.bivEnter_mem (s : State) : (State.bivEnter s).mem = s.mem := rfl
theorem State.challengeCtx_wf {s : State} (id : Nat) (hs : s.mem.wf) : (State.challengeCtx s id).mem.wf := by
  have := @State.mail_wf
  grind [State.challengeCtx, State.bump_mem, State.mapCtx_mem]
theorem State.bivWake_wf {s : State} (k : BitVec 256) (hs : s.mem.wf) : (State.bivWake s k).mem.wf := by
  have := @State.challengeCtx_wf
  grind [State.bivWake, foldl_wf]
theorem State.enterCmd_wf {s : State} (hs : s.mem.wf) : (State.enterCmd s).2.mem.wf := by
  grind [State.enterCmd, State.bivEnter_mem]
theorem State.wakeCmd_wf {s : State} (hs : s.mem.wf) : (State.wakeCmd s).2.mem.wf := by
  have := @State.bivWake_wf
  grind [State.wakeCmd]
theorem State.writeBivcmd_wf {s : State} (v : Word) (hs : s.mem.wf) : (State.writeBivcmd s v).mem.wf := by
  have := @State.enterCmd_wf
  have := @State.wakeCmd_wf
  grind [State.writeBivcmd]
theorem State.reportLost_wf {s : State} (hs : s.mem.wf) : (State.reportLost s).mem.wf := by
  have := @State.mail_wf
  grind [State.reportLost, foldl_wf]
end Sys2Proof.Machine
end

section
/-! SUPPORT. The form of memory: images, integer lanes and the management page keep it. -/

namespace Sys2Proof.Machine

-- One after the other: side by side, these many small proofs wait for each other, each in a thread of its own.
set_option Elab.async false

theorem State.lbits_wf {s : State} (o : LOp) (k : Srcs) (f : Word32 → Word32 → Word32) (hs : s.mem.wf) :
    (State.lbits s o k f).mem.wf := by
  have := @State.lcompute_wf
  grind [State.lbits]
theorem State.lpred_wf {s : State} (o : LOp) (u : LUse) (f : LIn → Mask × Byte) (hs : s.mem.wf) :
    (State.lpred s o u f).mem.wf := by
  have := @State.lIssue_wf
  grind [State.lpred, State.mapCur_mem, State.lDone_mem]
theorem State.lcompare_wf {s : State} (o : LOp) (f : Nat → Nat → Bool × Byte) (hs : s.mem.wf) :
    (State.lcompare s o f).mem.wf := by
  have := @State.lpred_wf
  grind [State.lcompare, foldl_wf]
theorem State.lmove_wf {s : State} (o : LOp) (u : LUse) (f : LIn → VReg → VReg → VReg × Byte) (hs : s.mem.wf) :
    (State.lmove s o u f).mem.wf := by
  have := @State.lIssue_wf
  grind [State.lmove, State.mapCur_mem, State.lDone_mem]
theorem State.getBytes_wf {s : State} (at' : Word) (n : Nat) (hs : s.mem.wf) : (s.getBytes at' n).2.mem.wf := by
  induction n with
  | zero => exact hs
  | succ n ih => grind [State.getBytes, State.checkRange_wf]
theorem State.readSects_wf {s : State} (base : Word) (hdr : List Byte) (len : Nat) (sl : Option Seal) (n i pos : Nat)
    (acc : List Sect)
    (hs : s.mem.wf) : (s.readSects base hdr len sl n i pos acc).2.mem.wf := by
  induction n generalizing s i pos acc with
  | zero => exact hs
  | succ n ih => grind [State.readSects, State.getBytes_wf]
@[simp] theorem State.loadWindow_mem (s : State) (core : Nat) (base : Nat) (b : List Byte) (banks : Nat) (marks : List Nat) :
    (State.loadWindow s core base b banks marks).mem = s.mem := rfl
theorem State.loadSteps_wf {s : State} (core : Nat) (ctx : Nat) (team : Nat) (es : List (List Byte)) (hs : s.mem.wf) :
    (State.loadSteps s core ctx team es).mem.wf := by
  grind [State.loadSteps, State.mapStep_mem, foldl_wf]
theorem State.loadSpill_wf {s : State} (uid n : Nat) (hs : s.mem.wf) : (s.loadSpill uid n).mem.wf :=
  foldl_wf _ hs fun s i hs => State.withGroup_wf _ _ hs fun s hs => by
    split
    · exact hs
    · next hr => exact State.spillRead_wf _ hs hr
theorem State.loadRounds_wf {s : State} (team : Nat) (b : List Byte) (hs : s.mem.wf) : (State.loadRounds s team b).mem.wf := by
  grind [State.loadRounds, State.mapGroups_mem, State.mapTeam_mem]
theorem State.loadTeam_wf {s : State} (gr : Grid) (gang : Gang) (ss : List Sect) (kept : Kept) (t : Sect) (p : Placed)
    (hs : s.mem.wf) : (State.loadTeam s gr gang ss kept t p).mem.wf := by
  have := @State.launch_wf
  have := @State.loadRounds_wf
  have := @State.loadSteps_wf
  have := @State.loadSpill_wf
  grind [State.loadTeam, State.clearWindow_mem, State.loadWindow_mem, foldl_wf]
@[simp] theorem State.loadTag_mem (s : State) (core : Nat) (x : Sect) : (State.loadTag s core x).mem = s.mem := rfl
theorem State.loadGang_wf {s : State} (part : Nat) (ids : List Nat) (ss : List Sect) (kept : Kept) (key : Nat × Nat)
    (hs : s.mem.wf)
    {u : State} (hu : s.loadGang part ids ss kept key = some u) : u.mem.wf := by
  unfold State.loadGang at hu
  split at hu
  · obtain ⟨p, -, rfl⟩ := Option.map_eq_some_iff.mp hu
    exact foldl_wf _ (by simpa using hs) fun s x hs =>
      foldl_wf _ (State.loadTeam_wf _ _ _ _ _ _ hs) fun s t hs => by simpa using hs
  · cases hu
theorem State.loadLoose_wf {s : State} (part : Nat) (x : Sect) (hs : s.mem.wf) {u : State}
    (hu : s.loadLoose part x = some u) : u.mem.wf := by
  grind [State.loadLoose, State.loadTag_mem, Option.map_eq_some_iff]
theorem State.loadFreed_wf {s : State} (part : Nat) (ctx : Nat) (x : Word32 × Nat) (hs : s.mem.wf) :
    (State.loadFreed s part ctx x).mem.wf := by
  have := @State.launch_wf
  grind [State.loadFreed, State.drawTicket_mem]
theorem State.loadCopy_wf {s : State} (ctx : Nat) (ids : List Nat) (x : Sect) (hs : s.mem.wf) :
    (State.loadCopy s ctx ids x).mem.wf := by
  grind [State.loadCopy, State.mapGroup_mem]
theorem State.installImage_wf {s : State} (c : Ctx) (ss : List Sect) (hs : s.mem.wf) {u : State}
    (hu : s.installImage c ss = some u) :
    u.mem.wf := by
  have bound {α : Type} (f : State → α → Option State) (hf : ∀ (s : State) a t, s.mem.wf → f s a = some t → t.mem.wf)
      (l : List α)
      (o : Option State) (ho : ∀ t, o = some t → t.mem.wf) : ∀ t, l.foldl (fun o a => o.bind (f · a)) o = some t → t.mem.wf :=
    List.foldlRecOn (motive := fun o : Option State => ∀ t, o = some t → t.mem.wf) l _ ho fun o ho a _ t ht => by
      obtain ⟨v, hv, ht⟩ := Option.bind_eq_some_iff.mp ht
      exact hf v a t (ho v hv) ht
  unfold State.installImage at hu
  dsimp only at hu
  split at hu
  · cases hu
  · obtain ⟨t, ht, rfl⟩ := Option.map_eq_some_iff.mp hu
    have ht := bound (fun s x => s.loadLoose c.part x) (fun s x t hs h => State.loadLoose_wf _ _ hs h) _ _
      (bound (fun s (k : Nat × Nat) => s.loadGang c.part _ ss c.kept k) (fun s k t hs h => State.loadGang_wf _ _ _ _ _ hs h) _ _
        (by rintro t ⟨⟩; simpa using hs)) t ht
    rw [State.mapCtx_mem]
    exact foldl_wf _ (foldl_wf _ ht fun s x hs => State.loadFreed_wf _ _ _ hs) fun s x hs => State.loadCopy_wf _ _ _ hs
theorem State.readImage_wf {s : State} (c : Ctx) (base : Word) (hdr : List Byte) (hs : s.mem.wf)
    : (s.readImage c base hdr).2.mem.wf := by
  have := @State.readSects_wf
  grind [State.readImage]
theorem State.loadCtx_wf {s : State} (d : SReg) (base : Word) (hdr : List Byte) (c : Ctx) (hs : s.mem.wf) :
    (State.loadCtx s d base hdr c).mem.wf := by
  have := @State.readImage_wf
  have := @State.sMemFault_wf
  have := @State.installImage_wf
  grind [State.loadCtx, State.sput_mem, State.nextPc_mem]
theorem State.writeInvcmd_wf {s : State} (v : Word) (hs : s.mem.wf) : (State.writeInvcmd s v).mem.wf := by
  grind [State.writeInvcmd, State.postInval_mem]
theorem State.writeKillreq_wf {s : State} (v : Word) (hs : s.mem.wf) : (State.writeKillreq s v).mem.wf := by
  have := @State.tagkill_wf
  grind [State.writeKillreq]
theorem State.writeRtab_wf {s : State} (w i : Nat) (v : Word) (hs : s.mem.wf) : (s.writeRtab w i v).mem.wf :=
  ite_wf hs hs
theorem State.mgmtWrite_wf {s : State} (off : Nat) (v : Word) (hs : s.mem.wf) : (s.mgmtWrite off v).mem.wf := by
  unfold State.mgmtWrite
  refine ite_wf hs (ite_wf (State.writeBivcmd_wf _ hs) (ite_wf hs (ite_wf (State.writePtcmd_wf _ hs) (ite_wf ?_
    (ite_wf (State.writeInvcmd_wf _ hs) (ite_wf hs (ite_wf (State.writeKillreq_wf _ hs) (ite_wf (State.writeDebug_wf _ hs)
    (ite_wf (State.writeWldcmd_wf _ hs) (ite_wf hs (ite_wf ?_ (ite_wf ?_ (ite_wf (State.preqCmd_wf _ _ hs)
    (ite_wf (State.writeRtab_wf _ _ _ hs) (ite_wf ?_ hs)))))))))))))))
  · exact State.writeCtxcmd_wf _ _ (by simpa using hs)
  · rw [State.writePtab_mem]; exact hs
  · dsimp only
    split
    · exact State.migCmd_wf _ _ hs
    · exact State.writeMigDirty_wf _ _ hs
    · exact hs
  · rw [State.putWindow_mem]; exact hs
theorem State.booted_wf {s : State} (slices : Word) (hs : s.mem.wf) : (s.booted slices).mem.wf := Cells.filter_wf _ hs

end Sys2Proof.Machine
end

section
/-! SUPPORT. The form of memory: each instruction and event keeps it. A family with one meaning has the rule of that meaning
above; the others have a rule of their own here. -/

namespace Sys2Proof.Machine

-- One after the other: side by side, these many small proofs wait for each other, each in a thread of its own.
set_option Elab.async false

/-- The state in which a meaning goes on keeps the form. -/
def Out.keeps : Out → Prop
  | .next t => t.mem.wf
  | _ => True
theorem execTcall_wf {s : State} (d a : SReg) (n : BitVec 4) (sp : Bool) (hs : s.mem.wf) : (execTcall d a n sp s).keeps := by
  refine State.sIssue_wf _ _ _ _ hs fun hs => ite_wf hs (ite_wf (State.raise_wf _ hs) (State.withFrame_wf _ hs fun s hs => ?_))
  have hr := State.readTable_wf (s := s.joinS) sp n.toNat (s.sget a) [] (by simpa using hs)
  grind [TableRead.keeps, State.sMemFault_wf, State.wakeFrames_mem, State.arrive_wf]
theorem execTret_wf {s : State} (hs : s.mem.wf) : (execTret s).keeps := by
  refine State.sIssue_wf _ _ _ _ hs fun hs => ite_wf hs (State.withFrame_wf _ hs fun s hs => ?_)
  have hr (d : Division) (f : Frame) := State.divisionOf_wf (s := s.joinS) d f (by simpa using hs)
  dsimp only
  split
  · exact State.raise_wf _ hs
  · next f _ =>
    refine ite_wf (ite_wf (by simpa using hs) ?_) (by simpa using hs)
    have hr := hr ((List.find? (fun d => d.frames.contains f.idx) (s.viewOf s.cur).divs).getD ⟨0xFF, [], [], [f.idx], [], [],
        0, 0, false⟩) f
    grind [DivRead.keeps, State.sMemFault_wf, State.raise_wf, State.finishSub_wf, State.mapDiv_mem, State.mapTeam_mem,
        State.mapCur_mem]
theorem execDrainComplete_wf {s : State} (core tag : Nat) (hs : s.mem.wf) : (execDrainComplete core tag s).keeps := by
  have cleared (s : State) (clr : Bool) (c rb m) (hs : s.mem.wf) : (if clr then s.clearRows c rb m else s).mem.wf :=
    ite_wf (by simpa using hs) hs
  have ends (s : State) (c f uid acc rows) (hs : s.mem.wf) : (((s.cmdFlags c f).endCmd c).finishDrain uid acc rows).mem.wf :=
    State.finishDrain_wf _ _ _ (by simpa using State.cmdFlags_wf c f hs)
  unfold execDrainComplete
  simp only [Out.keeps]
  split
  · exact hs
  · split
    · refine ite_wf (State.drainToSp_wf _ _ _ _ _ _ _ hs fun s hs => ends _ _ _ _ _ _ (cleared _ _ _ _ _ hs)) ?_
      exact getD_wf (fun t => State.deliveryWakes_wf _ _ hs) (ends _ _ _ _ _ _ (cleared _ _ _ _ _ hs))
    · rw [State.endCmd_mem]; exact cleared _ _ _ _ _ hs
    · exact hs
theorem execTlbEntryDrop_wf {s : State} (t : TlbSel) (idx : Nat) (hs : s.mem.wf) : (execTlbEntryDrop t idx s).keeps := by
  cases t <;> exact hs
theorem execGovernorWindow_wf {s : State} (m : GovInput) (hs : s.mem.wf) : (execGovernorWindow m s).keeps := by
  unfold execGovernorWindow
  simp only [Out.keeps]
  generalize List.range 4 = qs
  refine ite_wf hs ?_
  dsimp only
  refine foldl_wf qs ?_ fun s q hs => by simpa using hs
  refine foldl_snd_wf qs hs fun x q hx => ?_
  dsimp only
  exact State.windowQuad_wf q hx
theorem execDeviceReset_wf {s : State} (idOk fwOk : Bool) (slices : Word) (hs : s.mem.wf)
    : (execDeviceReset idOk fwOk slices s).keeps :=
  ite_wf (State.booted_wf _ (State.reportLost_wf hs)) hs
theorem execCtxload_wf {s : State} (d a : SReg) (ctx : BitVec 12) (hs : s.mem.wf) : (execCtxload d a ctx s).keeps := by
  refine State.sIssue_wf _ _ _ _ hs fun hs => ite_wf hs ?_
  have ht := State.checkRange_wf (s := s) .read (s.sget a) 4096 128 hs
  have hh := State.getBytes_wf (s.sget a) 8 ht
  grind [State.sMemFault_wf, State.sput_mem, State.nextPc_mem, State.loadCtx_wf]
theorem execRegisterWrite_wf {s : State} (r : RegSel) (v : Word) (hs : s.mem.wf) : (execRegisterWrite r v s).keeps := by
  cases r with
  | mgmt off => exact State.mgmtWrite_wf off v hs
  | policy part => exact hs
  | sr num => exact ite_wf hs (ite_wf (by simpa using hs) (State.srWrite_wf _ _ hs))
theorem execLui_wf {s : State} (d : SReg) (imm : BitVec 19) (hs : s.mem.wf) : (execLui d imm s).keeps := by
  have := @State.sIssue_wf
  grind [execLui, Out.keeps, State.sput_mem, State.nextPc_mem]
theorem execLi_wf {s : State} (d : SReg) (imm : Word32) (hs : s.mem.wf) : (execLi d imm s).keeps := by
  have := @State.sIssue_wf
  grind [execLi, Out.keeps, State.sput_mem, State.nextPc_mem]
theorem execLiHi_wf {s : State} (d : SReg) (imm : Word32) (hs : s.mem.wf) : (execLiHi d imm s).keeps := by
  have := @State.sIssue_wf
  grind [execLiHi, Out.keeps, State.sput_mem, State.nextPc_mem]
theorem execB_wf {s : State} (cond : Cond) (a : SReg) (off : BitVec 16) (hs : s.mem.wf) : (execB cond a off s).keeps := by
  have := @State.sIssue_wf
  grind [execB, Out.keeps, State.setPc_mem, State.nextPc_mem]
theorem execJ_wf {s : State} (off : BitVec 26) (hs : s.mem.wf) : (execJ off s).keeps := by
  have := @State.sIssue_wf
  grind [execJ, Out.keeps, State.setPc_mem]
theorem execCall_wf {s : State} (off : BitVec 26) (hs : s.mem.wf) : (execCall off s).keeps := by
  have := @State.sIssue_wf
  grind [execCall, Out.keeps, State.sput_mem, State.setPc_mem]
theorem execJr_wf {s : State} (a : SReg) (hs : s.mem.wf) : (execJr a s).keeps := by
  have := @State.sIssue_wf
  have := @State.jumpTo_wf
  grind [execJr, Out.keeps]
theorem execRet_wf {s : State} (hs : s.mem.wf) : (execRet s).keeps := by
  have := @State.sIssue_wf
  have := @State.jumpTo_wf
  grind [execRet, Out.keeps]
theorem execCallr_wf {s : State} (a : SReg) (hs : s.mem.wf) : (execCallr a s).keeps := by
  have := @State.sIssue_wf
  have := @State.jumpTo_wf
  grind [execCallr, Out.keeps]
theorem execLoop_wf {s : State} (a : SReg) (off : BitVec 16) (hs : s.mem.wf) : (execLoop a off s).keeps := by
  have := @State.sIssue_wf
  grind [execLoop, Out.keeps, State.sput_mem, State.setPc_mem, State.nextPc_mem]
theorem execLrun_wf {s : State} (off : BitVec 19) (hs : s.mem.wf) : (execLrun off s).keeps := by
  have := @State.sIssue_wf
  have := @State.raise_wf
  have := @State.dqAppend_wf
  grind [execLrun, Out.keeps]
theorem execDqput_wf {s : State} (a : SReg) (hs : s.mem.wf) : (execDqput a s).keeps := by
  have := @State.sIssue_wf
  have := @State.dqAppend_wf
  grind [execDqput, Out.keeps]
theorem execRqget_wf {s : State} (d : SReg) (hs : s.mem.wf) : (execRqget d s).keeps := by
  have := @State.sIssue_wf
  grind [execRqget, Out.keeps, State.mapCur_mem, State.sput_mem, State.nextPc_mem]
theorem execRqgetTry_wf {s : State} (d : SReg) (a : SReg) (hs : s.mem.wf) : (execRqgetTry d a s).keeps := by
  have := @State.sIssue_wf
  grind [execRqgetTry, Out.keeps, State.sput_mem, State.nextPc_mem, State.mapCur_mem]
theorem execSjoin_wf {s : State} (hs : s.mem.wf) : (execSjoin s).keeps := by
  have := @State.sIssue_wf
  grind [execSjoin, Out.keeps, State.joinS_mem, State.nextPc_mem]
theorem execSatom_wf {s : State} (op : AtomOp) (w64 : Bool) (ord : Order) (sc : Scope) (d : SReg) (a : SReg) (b : SReg)
    (disp : BitVec 16) (hs : s.mem.wf) : (execSatom op w64 ord sc d a b disp s).keeps := by
  have := @State.sIssue_wf
  have := @State.checkGlobal_wf
  have := @State.sGlobalFault_wf
  grind [execSatom, Out.keeps, State.mapCur_mem, State.nextPc_mem]
theorem execSpaccLoad_wf {s : State} (sz : LdSize) (ord : Order) (sc : Scope) (d : SReg) (a : SReg) (disp : BitVec 16)
    (hs : s.mem.wf) : (execSpaccLoad sz ord sc d a disp s).keeps := by
  have := @State.sIssue_wf
  have := @State.spScalar_wf
  grind [execSpaccLoad, Out.keeps, State.sput_mem, State.nextPc_mem]
theorem execSpaccStore_wf {s : State} (sz : StSize) (ord : Order) (sc : Scope) (d : SReg) (a : SReg) (disp : BitVec 16)
    (hs : s.mem.wf) : (execSpaccStore sz ord sc d a disp s).keeps := by
  have := @State.sIssue_wf
  have := @State.spScalar_wf
  grind [execSpaccStore, Out.keeps, State.spWrite_mem, State.nextPc_mem]
theorem execSpaccAtomic_wf {s : State} (sz : AtSize) (op : AtomOp) (ord : Order) (sc : Scope) (d : SReg) (a : SReg) (b : SReg)
    (disp : BitVec 16) (hs : s.mem.wf) : (execSpaccAtomic sz op ord sc d a b disp s).keeps := by
  have := @State.sIssue_wf
  have := @State.spScalar_wf
  grind [execSpaccAtomic, Out.keeps, State.spWrite_mem, State.sput_mem, State.nextPc_mem]
theorem execFence_wf {s : State} (k : FenceKind) (sc : Scope) (hs : s.mem.wf) : (execFence k sc s).keeps := by
  have := @State.sIssue_wf
  have := @State.fence_wf
  grind [execFence, Out.keeps, State.nextPc_mem]
theorem execFenceOwn_wf {s : State} (hs : s.mem.wf) : (execFenceOwn s).keeps := by
  have := @State.sIssue_wf
  grind [execFenceOwn, Out.keeps, State.nextPc_mem]
theorem execFenceRem_wf {s : State} (sc : Scope) (hs : s.mem.wf) : (execFenceRem sc s).keeps := by
  have := @State.sIssue_wf
  grind [execFenceRem, Out.keeps, State.nextPc_mem, State.mapCur_mem]
theorem execRemDrainRequest_wf {s : State} (uid : Nat) (target : Nat) (hs : s.mem.wf)
    : (execRemDrainRequest uid target s).keeps := by
  grind [execRemDrainRequest, Out.keeps, State.mapGroup_mem]
theorem execRemDrainAck_wf {s : State} (uid : Nat) (target : Nat) (hs : s.mem.wf) : (execRemDrainAck uid target s).keeps := by
  grind [execRemDrainAck, Out.keeps, State.mapGroup_mem]
theorem execWaitc_wf {s : State} (ld : Byte) (st : Byte) (cp : Byte) (mx : Byte) (hs : s.mem.wf)
    : (execWaitc ld st cp mx s).keeps := by
  have := @State.sIssue_wf
  grind [execWaitc, Out.keeps, State.nextPc_mem]
theorem execWaitr_wf {s : State} (p : Counter) (a : SReg) (hs : s.mem.wf) : (execWaitr p a s).keeps := by
  have := @State.sIssue_wf
  grind [execWaitr, Out.keeps, State.nextPc_mem]
theorem execMwait_wf {s : State} (ord : Order) (sc : Scope) (d : SReg) (a : SReg) (b : SReg) (tmo : BitVec 27) (hs : s.mem.wf)
    : (execMwait ord sc d a b tmo s).keeps := by
  have := @State.sIssue_wf
  have := @State.mwaitRead_wf
  have := @State.sMemFault_wf
  grind [execMwait, Out.keeps, State.sput_mem, State.nextPc_mem, State.mapCur_mem]
theorem execMwaitWake_wf {s : State} (uid : Nat) (hs : s.mem.wf) : (execMwaitWake uid s).keeps := by
  have := @State.withGroup_wf
  have := @State.mwaitAgain_wf
  grind [execMwaitWake, Out.keeps]
theorem execMwaitTimeout_wf {s : State} (uid : Nat) (hs : s.mem.wf) : (execMwaitTimeout uid s).keeps := by
  have := @State.withGroup_wf
  have := @State.mwaitAgain_wf
  grind [execMwaitTimeout, Out.keeps]
theorem execQtake_wf {s : State} (sc : Scope) (d : SReg) (a : SReg) (hs : s.mem.wf) : (execQtake sc d a s).keeps := by
  have := @State.sIssue_wf
  have := @State.queueGo_wf
  grind [execQtake, Out.keeps]
theorem execQput_wf {s : State} (sc : Scope) (d : SReg) (a : SReg) (b : SReg) (hs : s.mem.wf)
    : (execQput sc d a b s).keeps := by
  have := @State.sIssue_wf
  have := @State.queueGo_wf
  grind [execQput, Out.keeps]
theorem execSphint_wf {s : State} (st : BankHint) (a : SReg) (b : SReg) (hs : s.mem.wf) : (execSphint st a b s).keeps := by
  have := @State.sIssue_wf
  have := @State.raiseMem_wf
  have := @State.hintBank_wf
  grind [execSphint, Out.keeps, State.joinS_mem, State.nextPc_mem, State.logCur_mem, foldl_wf]
theorem execBar_wf {s : State} (hs : s.mem.wf) : (execBar s).keeps := by
  have := @State.sIssue_wf
  have := @State.raise_wf
  have := @State.withFrame_wf
  have := @State.arrive_wf
  grind [execBar, Out.keeps, State.joinS_mem]
theorem execGbar_wf {s : State} (hs : s.mem.wf) : (execGbar s).keeps := by
  have := @State.sIssue_wf
  have := @State.completeGbar_wf
  grind [execGbar, Out.keeps, State.joinS_mem, State.mapGang_mem, State.mapCur_mem]
theorem execExit_wf {s : State} (hs : s.mem.wf) : (execExit s).keeps := by
  have := @State.sIssue_wf
  have := @State.exitWait_wf
  grind [execExit, Out.keeps]
theorem execLwait_wf {s : State} (hs : s.mem.wf) : (execLwait s).keeps := by
  have := @State.sIssue_wf
  have := @State.sMemFault_wf
  have := @State.trailMark_wf
  grind [execLwait, Out.keeps, State.queueUp_mem, State.nextPc_mem]
theorem execRootGridSubmit_wf {s : State} (r : RootGrid) (hs : s.mem.wf) : (execRootGridSubmit r s).keeps := by
  have := @State.ctxRead_wf
  grind [execRootGridSubmit, Out.keeps, State.startCtx_mem, State.enqueue_mem]
theorem execGangDispatch_wf {s : State} (part : Nat) (hs : s.mem.wf) : (execGangDispatch part s).keeps := by
  have := @State.dispatchGang_wf
  grind [execGangDispatch, Out.keeps]
theorem execTeamFree_wf {s : State} (team : Nat) (hs : s.mem.wf) : (execTeamFree team s).keeps := by
  have := @State.freeTeam_wf
  grind [execTeamFree, Out.keeps]
theorem execGridRetire_wf {s : State} (grid : Nat) (hs : s.mem.wf) : (execGridRetire grid s).keeps := by
  have := @State.writeCompletion_wf
  grind [execGridRetire, Out.keeps]
theorem execCompactorMove_wf {s : State} (core : Nat) (what : MoveSpec) (hs : s.mem.wf)
    : (execCompactorMove core what s).keeps := by
  have := @State.moveTo_wf
  grind [execCompactorMove, Out.keeps, State.mapCore_mem]
theorem execCompactorMoveEnd_wf {s : State} (core : Nat) (hs : s.mem.wf) : (execCompactorMoveEnd core s).keeps := by
  grind [execCompactorMoveEnd, Out.keeps, State.mapCore_mem]
theorem execLoadResponse_wf {s : State} (uid : Nat) (seq : Nat) (hs : s.mem.wf) : (execLoadResponse uid seq s).keeps := by
  have := @State.withGroup_wf
  have := @State.loadResponse_wf
  grind [execLoadResponse, Out.keeps]
theorem execStoreResponse_wf {s : State} (uid : Nat) (seq : Nat) (hs : s.mem.wf) : (execStoreResponse uid seq s).keeps := by
  have := @State.withGroup_wf
  have := @State.storeResponse_wf
  grind [execStoreResponse, Out.keeps]
theorem execPeerRequest_wf {s : State} (uid : Nat) (seq : Nat) (hs : s.mem.wf) : (execPeerRequest uid seq s).keeps := by
  have := @State.withGroup_wf
  have := @State.someReqs_wf
  have := @State.answerPeer_wf
  grind [execPeerRequest, Out.keeps]
theorem execVldsp_wf {s : State} (o : LOp) (hs : s.mem.wf) : (execVldsp o s).keeps := by
  have := @State.lLanes_wf
  grind [execVldsp, Out.keeps]
theorem execVstsp_wf {s : State} (o : LOp) (hs : s.mem.wf) : (execVstsp o s).keeps := by
  have := @State.lLanes_wf
  grind [execVstsp, Out.keeps, State.spWrite_mem]
theorem execVatomsp_wf {s : State} (o : LOp) (hs : s.mem.wf) : (execVatomsp o s).keeps := by
  have := @State.lLanes_wf
  grind [execVatomsp, Out.keeps]
theorem execVldblk_wf {s : State} (o : LOp) (hs : s.mem.wf) : (execVldblk o s).keeps := by
  have := @State.block_wf
  grind [execVldblk, Out.keeps]
theorem execVstblk_wf {s : State} (o : LOp) (hs : s.mem.wf) : (execVstblk o s).keeps := by
  have := @State.block_wf
  grind [execVstblk, Out.keeps]
theorem execVpref_wf {s : State} (o : LOp) (hs : s.mem.wf) : (execVpref o s).keeps := by
  have := @State.lIssue_wf
  have := @State.prefetch_wf
  grind [execVpref, Out.keeps, State.lNext_mem, foldl_wf]
theorem execVfence_wf {s : State} (o : LOp) (hs : s.mem.wf) : (execVfence o s).keeps := by
  have := @State.lIssue_wf
  have := @State.fence_wf
  grind [execVfence, Out.keeps, State.mapCur_mem, State.lNext_mem]
theorem execVwaitc_wf {s : State} (o : LOp) (hs : s.mem.wf) : (execVwaitc o s).keeps := by
  have := @State.lIssue_wf
  grind [execVwaitc, Out.keeps, State.lNext_mem]
theorem execMma_wf {s : State} (o : LOp) (hs : s.mem.wf) : (execMma o s).keeps := by
  have := @State.raiseL_wf
  have := @State.lIssue_wf
  have := @State.mxFault_wf
  have := @State.latePops_wf
  have := @State.mmaFormat_wf
  grind [execMma, Out.keeps, State.mapCur_mem, State.lNext_mem]
theorem execWload_wf {s : State} (tag : BitVec 4) (fmt : Byte) (blen : BitVec 2) (b128 : Bool) (a : SReg) (b : SReg)
    (hs : s.mem.wf) : (execWload tag fmt blen b128 a b s).keeps := by
  have := @State.sIssue_wf
  have := @State.raise_wf
  have := @State.sMemFault_wf
  grind [execWload, Out.keeps, State.mapCur_mem, State.nextPc_mem, State.mapTag_mem, State.enqueueCmd_mem]
theorem execMzero_wf {s : State} (o : LOp) (hs : s.mem.wf) : (execMzero o s).keeps := by
  have := @State.raiseL_wf
  have := @State.lIssue_wf
  have := @State.mxFault_wf
  grind [execMzero, Out.keeps, State.mapCur_mem, State.lNext_mem, State.enqueueCmd_mem]
theorem execWaveInject_wf {s : State} (core : Nat) (hs : s.mem.wf) : (execWaveInject core s).keeps := by
  have := @State.inject_wf
  grind [execWaveInject, Out.keeps, State.mapCore_mem]
theorem execWaveWriteback_wf {s : State} (core : Nat) (err : WaveErr) (hs : s.mem.wf)
    : (execWaveWriteback core err s).keeps := by
  have := @State.writeWave_wf
  have := @State.waveDone_wf
  grind [execWaveWriteback, Out.keeps]
theorem execWloadBegin_wf {s : State} (core : Nat) (tag : Nat) (hs : s.mem.wf) : (execWloadBegin core tag s).keeps := by
  grind [execWloadBegin, Out.keeps, State.mapCmd_mem]
theorem execWloadComplete_wf {s : State} (core : Nat) (tag : Nat) (bad : List Nat) (hs : s.mem.wf)
    : (execWloadComplete core tag bad s).keeps := by
  have := @State.finishWload_wf
  grind [execWloadComplete, Out.keeps]
theorem execMzeroExecute_wf {s : State} (core : Nat) (tag : Nat) (hs : s.mem.wf) : (execMzeroExecute core tag s).keeps := by
  grind [execMzeroExecute, Out.keeps, State.mapTag_mem, State.endCmd_mem, foldl_wf]
theorem execDrainBegin_wf {s : State} (core : Nat) (tag : Nat) (bad : List Nat) (hs : s.mem.wf)
    : (execDrainBegin core tag bad s).keeps := by
  have := @State.drain_wf
  have := @State.drainFault_wf
  grind [execDrainBegin, Out.keeps, State.mapCmd_mem, State.mapGroup_mem, State.mapTag_mem, State.meetError_mem]
theorem execTagScrub_wf {s : State} (core : Nat) (tag : Nat) (hs : s.mem.wf) : (execTagScrub core tag s).keeps := by
  grind [execTagScrub, Out.keeps, State.scrubTag_mem]
theorem execBdiv_wf {s : State} (o : LOp) (hs : s.mem.wf) : (execBdiv o s).keeps := by
  have := @State.join_wf
  have := @State.lIssue_wf
  have := @State.bdiv_wf
  have := @State.raiseL_wf
  grind [execBdiv, Out.keeps]
theorem execJoin_wf {s : State} (o : LOp) (hs : s.mem.wf) : (execJoin o s).keeps := by
  have := @State.lIssue_wf
  have := @State.join_wf
  grind [execJoin, Out.keeps]
theorem execBloop_wf {s : State} (o : LOp) (hs : s.mem.wf) : (execBloop o s).keeps := by
  have := @State.lIssue_wf
  have := @State.bloop_wf
  have := @State.raiseL_wf
  grind [execBloop, Out.keeps]
theorem execBuni_wf {s : State} (o : LOp) (hs : s.mem.wf) : (execBuni o s).keeps := by
  have := @State.lIssue_wf
  have := @State.raiseL_wf
  grind [execBuni, Out.keeps, State.setPath_mem]
theorem execLkill_wf {s : State} (o : LOp) (hs : s.mem.wf) : (execLkill o s).keeps := by
  have := @State.lIssue_wf
  have := @State.lkill_wf
  grind [execLkill, Out.keeps]
theorem execVbar_wf {s : State} (o : LOp) (hs : s.mem.wf) : (execVbar o s).keeps := by
  have := @State.lIssue_wf
  have := @State.enterHold_wf
  have := @State.raiseL_wf
  grind [execVbar, Out.keeps, State.mapCur_mem, State.setPath_mem]
theorem execLend_wf {s : State} (o : LOp) (hs : s.mem.wf) : (execLend o s).keeps := by
  have := @State.lIssue_wf
  have := @State.enterHold_wf
  have := @State.raiseL_wf
  grind [execLend, Out.keeps, State.endBlock_mem]
theorem execVote_wf {s : State} (o : LOp) (hs : s.mem.wf) : (execVote o s).keeps := by
  have := @State.lIssue_wf
  grind [execVote, Out.keeps, State.rqPush_mem, State.lNext_mem]
theorem execRput_wf {s : State} (o : LOp) (hs : s.mem.wf) : (execRput o s).keeps := by
  have := @State.lIssue_wf
  grind [execRput, Out.keeps, State.rqPush_mem, State.lNext_mem]
theorem execBlockStart_wf {s : State} (uid : Nat) (hs : s.mem.wf) : (execBlockStart uid s).keeps := by
  have := @State.join_wf
  grind [execBlockStart, Out.keeps, State.mapGroup_mem]
theorem execLInstructionComplete_wf {s : State} (uid : Nat) (hs : s.mem.wf) : (execLInstructionComplete uid s).keeps := by
  grind [execLInstructionComplete, Out.keeps, State.mapGroup_mem]
theorem execWatchdogExpiry_wf {s : State} (uid : Nat) (hs : s.mem.wf) : (execWatchdogExpiry uid s).keeps := by
  have := @State.withGroup_wf
  have := @State.dispatch_wf
  grind [execWatchdogExpiry, Out.keeps]
theorem execNop_wf {s : State} (hs : s.mem.wf) : (execNop s).keeps := by
  have := @State.sIssue_wf
  grind [execNop, Out.keeps, State.nextPc_mem]
theorem execTrapfence_wf {s : State} (hs : s.mem.wf) : (execTrapfence s).keeps := by
  have := @State.sIssue_wf
  have := @State.sFault_wf
  grind [execTrapfence, Out.keeps, State.joinS_mem, State.nextPc_mem]
theorem execSyscall_wf {s : State} (a : SReg) (hs : s.mem.wf) : (execSyscall a s).keeps := by
  have := @State.sIssue_wf
  have := @State.raise_wf
  have := @State.softStop_wf
  grind [execSyscall, Out.keeps, State.joinS_mem]
theorem execBkpt_wf {s : State} (hs : s.mem.wf) : (execBkpt s).keeps := by
  have := @State.sIssue_wf
  have := @State.raise_wf
  have := @State.softStop_wf
  grind [execBkpt, Out.keeps, State.joinS_mem, State.mapCur_mem]
theorem execDebugPortResume_wf {s : State} (uid : Nat) (hs : s.mem.wf) : (execDebugPortResume uid s).keeps := by
  grind [execDebugPortResume, Out.keeps, State.mapGroup_mem]
theorem execHalt_wf {s : State} (hs : s.mem.wf) : (execHalt s).keeps := by
  have := @State.sIssue_wf
  have := @State.exitWait_wf
  have := @State.logEvent_wf
  grind [execHalt, Out.keeps]
theorem execRetf_wf {s : State} (hs : s.mem.wf) : (execRetf s).keeps := by
  have := @State.sIssue_wf
  have := @State.raise_wf
  have := @State.dropRetired_wf
  have := @State.resumeCopies_wf
  grind [execRetf, Out.keeps, State.joinS_mem, State.mapCur_mem]
theorem execIllegalEncoding_wf {s : State} (l : Bool) (hs : s.mem.wf) : (execIllegalEncoding l s).keeps := by
  have := @State.raiseL_wf
  have := @State.raise_wf
  grind [execIllegalEncoding, Out.keeps]
theorem execInstructionFetchFault_wf {s : State} (l : Bool) (f : FetchFault) (hs : s.mem.wf)
    : (execInstructionFetchFault l f s).keeps := by
  have := @State.logFault_wf
  have := @State.raiseLMem_wf
  have := @State.sMemFault_wf
  grind [execInstructionFetchFault, Out.keeps]
theorem execFaultDispatch_wf {s : State} (uid : Nat) (hs : s.mem.wf) : (execFaultDispatch uid s).keeps := by
  have := @State.withGroup_wf
  have := @State.dispatch_wf
  grind [execFaultDispatch, Out.keeps, State.mapCur_mem]
theorem execDeadlineDelivery_wf {s : State} (uid : Nat) (hs : s.mem.wf) : (execDeadlineDelivery uid s).keeps := by
  have := @State.withGroup_wf
  have := @State.dispatch_wf
  grind [execDeadlineDelivery, Out.keeps, State.mapCur_mem]
theorem execHandlerEntry_wf {s : State} (uid : Nat) (hs : s.mem.wf) : (execHandlerEntry uid s).keeps := by
  have := @State.withGroup_wf
  have := @State.takeBack_wf
  have := @State.descheduleNow_wf
  grind [execHandlerEntry, Out.keeps, State.mapCur_mem]
theorem execInvalidationComplete_wf {s : State} (id : Nat) (hs : s.mem.wf) : (execInvalidationComplete id s).keeps := by
  grind [execInvalidationComplete, Out.keeps, State.dropRange_mem, State.mapGroups_mem]
theorem execTagset_wf {s : State} (d : SReg) (a : SReg) (hs : s.mem.wf) : (execTagset d a s).keeps := by
  have := @State.sIssue_wf
  have := @State.tagset_wf
  grind [execTagset, Out.keeps, State.sput_mem, State.nextPc_mem]
theorem execTagkill_wf {s : State} (d : SReg) (a : SReg) (hs : s.mem.wf) : (execTagkill d a s).keeps := by
  have := @State.sIssue_wf
  have := @State.tagkill_wf
  grind [execTagkill, Out.keeps, State.sput_mem, State.nextPc_mem]
theorem execPrivqTake_wf {s : State} (d : SReg) (hs : s.mem.wf) : (execPrivqTake d s).keeps := by
  have := @State.sIssue_wf
  grind [execPrivqTake, Out.keeps, State.sput_mem, State.nextPc_mem, State.mapCtx_mem]
theorem execPrivqResume_wf {s : State} (d : SReg) (a : SReg) (hs : s.mem.wf) : (execPrivqResume d a s).keeps := by
  have := @State.privq_wf
  have := @State.enterHandler_wf
  grind [execPrivqResume, Out.keeps]
theorem execPrivqEnd_wf {s : State} (d : SReg) (a : SReg) (hs : s.mem.wf) : (execPrivqEnd d a s).keeps := by
  have := @State.privq_wf
  have := @State.endGrid_wf
  grind [execPrivqEnd, Out.keeps]
theorem execMappgMap_wf {s : State} (sz : PageSize) (d : SReg) (a : SReg) (b : SReg) (hs : s.mem.wf)
    : (execMappgMap sz d a b s).keeps := by
  have := @State.mappg_wf
  have := @State.writeEntries_wf
  grind [execMappgMap, Out.keeps, State.sput_mem, State.nextPc_mem]
theorem execMappgPool_wf {s : State} (d : SReg) (a : SReg) (b : SReg) (hs : s.mem.wf) : (execMappgPool d a b s).keeps := by
  have := @State.mappg_wf
  have := @State.checkGlobal_wf
  have := @State.sMemFault_wf
  have := @State.pageHeld_wf
  have := @State.zeroFrame_wf
  have := @State.writeEntries_wf
  grind [execMappgPool, Out.keeps, State.sput_mem, State.nextPc_mem, State.holdIf_mem, State.mapCtx_mem]
theorem execMappgUnmap_wf {s : State} (sz : PageSize) (d : SReg) (a : SReg) (hs : s.mem.wf)
    : (execMappgUnmap sz d a s).keeps := by
  have := @State.mappg_wf
  grind [execMappgUnmap, Out.keeps, State.sput_mem, State.nextPc_mem, State.wf_memWrite, State.postInval_mem, State.mapCur_mem, foldl_wf]
theorem execCpy_wf {s : State} (dir : CopyDir) (d : SReg) (a : SReg) (b : SReg) (k : BitVec 4) (tag : BitVec 4)
    (hs : s.mem.wf) : (execCpy dir d a b k tag s).keeps := by
  have := @State.sIssue_wf
  have := @State.readTensor_wf
  have := @State.sGlobalFault_wf
  have := @State.sMemFault_wf
  grind [execCpy, Out.keeps, State.registerCopy_mem, State.nextPc_mem]
theorem execCopyBegin_wf {s : State} (id : Nat) (hs : s.mem.wf) : (execCopyBegin id s).keeps := by
  grind [execCopyBegin, Out.keeps, State.mapCopy_mem]
theorem execCopyElement_wf {s : State} (id : Nat) (hs : s.mem.wf) : (execCopyElement id s).keeps := by
  have := @State.walkAhead_wf
  have := @State.copyElement_wf
  grind [execCopyElement, Out.keeps]
theorem execCopyComplete_wf {s : State} (id : Nat) (hs : s.mem.wf) : (execCopyComplete id s).keeps := by
  grind [execCopyComplete, Out.keeps, State.endCopy_mem]
theorem execBlockSupplyFollow_wf {s : State} (uid : Nat) (blk : Nat) (hs : s.mem.wf)
    : (execBlockSupplyFollow uid blk s).keeps := by
  grind [execBlockSupplyFollow, Out.keeps, State.mapGroup_mem]
theorem execRegBlockWakeDone_wf {s : State} (uid : Nat) (blk : Nat) (bad : List Nat) (hs : s.mem.wf)
    : (execRegBlockWakeDone uid blk bad s).keeps := by
  grind [execRegBlockWakeDone, Out.keeps, State.mapGroup_mem, State.meetError_mem, foldl_wf]
theorem execSpBankWakeDone_wf {s : State} (core : Nat) (bank : Nat) (bad : List Nat) (hs : s.mem.wf)
    : (execSpBankWakeDone core bank bad s).keeps := by
  grind [execSpBankWakeDone, Out.keeps, State.mapCore_mem, State.meetError_mem, foldl_wf]
theorem execGraceExpiry_wf {s : State} (ctx : Nat) (hs : s.mem.wf) : (execGraceExpiry ctx s).keeps := by
  have := @State.haltCtx_wf
  grind [execGraceExpiry, Out.keeps]
theorem execStrikeExpiry_wf {s : State} (ctx : Nat) (hs : s.mem.wf) : (execStrikeExpiry ctx s).keeps := by
  have := @State.strikeCtx_wf
  grind [execStrikeExpiry, Out.keeps]
theorem execMigStopped_wf {s : State} (f : Nat) (hs : s.mem.wf) : (execMigStopped f s).keeps := by
  have := @State.dirtyReport_wf
  grind [execMigStopped, Out.keeps, State.putMig_mem]
theorem execMigDescRead_wf {s : State} (f : Nat) (idx : Nat) (hs : s.mem.wf) : (execMigDescRead f idx s).keeps := by
  have := @State.serve_wf
  have := @State.pageHeld_wf
  grind [execMigDescRead, Out.keeps, State.putMig_mem, State.putWindow_mem]
theorem execMigDescWrite_wf {s : State} (f : Nat) (idx : Nat) (hs : s.mem.wf) : (execMigDescWrite f idx s).keeps := by
  have := @State.serve_wf
  have := @State.pageHeld_wf
  grind [execMigDescWrite, Out.keeps, State.putWindow_mem, State.wf_memWrite, State.putMig_mem, foldl_wf]
theorem execNocPacketReceive_wf {s : State} (p : NocPacket) (hs : s.mem.wf) : (execNocPacketReceive p s).keeps := by
  have := @State.withGroup_wf
  have := @State.delivered_wf
  have := @State.netauth_wf
  grind [execNocPacketReceive, Out.keeps, State.arrives_mem]
theorem execHostWrite_wf {s : State} (place : HostAt) (data : List Byte) (hs : s.mem.wf)
    : (execHostWrite place data s).keeps := by
  have := @State.hostPiece_wf
  grind [execHostWrite, Out.keeps, foldl_wf]
theorem execHostRead_wf {s : State} (place : HostAt) (n : Nat) (hs : s.mem.wf) : (execHostRead place n s).keeps := by
  grind [execHostRead, Out.keeps]
theorem execHostRecall_wf {s : State} (line : Nat) (hs : s.mem.wf) : (execHostRecall line s).keeps := by
  grind [execHostRecall, Out.keeps]
theorem execFabricAccess_wf {s : State} (acc : RemoteAccess) (hs : s.mem.wf) : (execFabricAccess acc s).keeps := by
  have := @State.serveRemote_wf
  grind [execFabricAccess, Out.keeps, State.arrives_mem]
theorem execCtxsave_wf {s : State} (free : Bool) (d : SReg) (a : SReg) (b : SReg) (ctx : BitVec 12) (hs : s.mem.wf)
    : (execCtxsave free d a b ctx s).keeps := by
  have := @State.sIssue_wf
  have := @State.checkRange_wf
  have := @State.sMemFault_wf
  have := @State.saveCtx_wf
  grind [execCtxsave, Out.keeps, State.sput_mem, State.nextPc_mem]
theorem execStepBegin_wf {s : State} (d : SReg) (a : SReg) (b : SReg) (hs : s.mem.wf) : (execStepBegin d a b s).keeps := by
  have := @State.sIssue_wf
  grind [execStepBegin, Out.keeps, State.sput_mem, State.nextPc_mem, State.mapStep_mem]
theorem execStepProg_wf {s : State} (d : SReg) (a : SReg) (b : SReg) (hs : s.mem.wf) : (execStepProg d a b s).keeps := by
  have := @State.sIssue_wf
  grind [execStepProg, Out.keeps, State.sput_mem, State.nextPc_mem, State.mapStep_mem]
theorem execStepEnd_wf {s : State} (d : SReg) (a : SReg) (hs : s.mem.wf) : (execStepEnd d a s).keeps := by
  have := @State.sIssue_wf
  grind [execStepEnd, Out.keeps, State.sput_mem, State.nextPc_mem, State.mapStep_mem]
theorem execPointChangeDone_wf {s : State} (dom : Nat) (hs : s.mem.wf) : (execPointChangeDone dom s).keeps := by
  grind [execPointChangeDone, Out.keeps]
theorem execLevelChangeDone_wf {s : State} (dom : Nat) (hs : s.mem.wf) : (execLevelChangeDone dom s).keeps := by
  grind [execLevelChangeDone, Out.keeps]
theorem execCurrentSample_wf {s : State} (amps : List Nat) (hs : s.mem.wf) : (execCurrentSample amps s).keeps := by
  have := @State.sampleDom_wf
  grind [execCurrentSample, Out.keeps, foldl_wf]
theorem execUndervoltRestore_wf {s : State} (e : ErrInput) (hs : s.mem.wf) : (execUndervoltRestore e s).keeps := by
  have := @State.restoreOffset_wf
  grind [execUndervoltRestore, Out.keeps, State.meetError_mem, State.breakLine_mem]
theorem execThermalSample_wf {s : State} (core : Nat) (temp : BitVec 16) (hs : s.mem.wf)
    : (execThermalSample core temp s).keeps := by
  have := @State.logEvent_wf
  grind [execThermalSample, Out.keeps, State.mapCore_mem]
theorem execTmigCancel_wf {s : State} (hs : s.mem.wf) : (execTmigCancel s).keeps := by
  have := @State.withdrawMove_wf
  grind [execTmigCancel, Out.keeps]
theorem execThermalMove_wf {s : State} (hs : s.mem.wf) : (execThermalMove s).keeps := by
  have := @State.resumeTeam_wf
  have := @State.carryTeam_wf
  grind [execThermalMove, Out.keeps]
theorem execRdsr_wf {s : State} (d : SReg) (num : BitVec 12) (hs : s.mem.wf) : (execRdsr d num s).keeps := by
  have := @State.sIssue_wf
  have := @State.raise_wf
  have := @State.srFrame_wf
  grind [execRdsr, Out.keeps, State.bump_mem, State.sput_mem, State.nextPc_mem]
theorem execWrsr_wf {s : State} (a : SReg) (num : BitVec 12) (hs : s.mem.wf) : (execWrsr a num s).keeps := by
  have := @State.sIssue_wf
  have := @State.raise_wf
  have := @State.srWrite_wf
  grind [execWrsr, Out.keeps, State.setPtroot_mem, State.mapCur_mem, State.nextPc_mem]
theorem execPtrootWrite_wf {s : State} (ctx : Nat) (v : Word) (hs : s.mem.wf) : (execPtrootWrite ctx v s).keeps := by
  grind [execPtrootWrite, Out.keeps, State.setPtroot_mem]
theorem execMxcadWrite_wf {s : State} (core : Nat) (v : Word) (hs : s.mem.wf) : (execMxcadWrite core v s).keeps := by
  grind [execMxcadWrite, Out.keeps, State.mapCore_mem]
theorem execFlagsWrite_wf {s : State} (uid : Nat) (v : Word) (hs : s.mem.wf) : (execFlagsWrite uid v s).keeps := by
  grind [execFlagsWrite, Out.keeps, State.mapGroup_mem]
theorem execVlogClear_wf {s : State} (core : Nat) (hs : s.mem.wf) : (execVlogClear core s).keeps := by
  grind [execVlogClear, Out.keeps, State.mapCore_mem]
theorem execFrqtOvfClear_wf {s : State} (ctx : Nat) (hs : s.mem.wf) : (execFrqtOvfClear ctx s).keeps := by
  grind [execFrqtOvfClear, Out.keeps, State.mapCtx_mem]
theorem execMboxoDropClear_wf {s : State} (ctx : Nat) (hs : s.mem.wf) : (execMboxoDropClear ctx s).keeps := by
  grind [execMboxoDropClear, Out.keeps, State.mapCtx_mem]
theorem execThstOverClear_wf {s : State} (core : Nat) (hs : s.mem.wf) : (execThstOverClear core s).keeps := by
  grind [execThstOverClear, Out.keeps, State.mapCore_mem]
theorem execDomstFreezeClear_wf {s : State} (dom : Nat) (hs : s.mem.wf) : (execDomstFreezeClear dom s).keeps := by
  grind [execDomstFreezeClear, Out.keeps]
theorem execPartitionCreate_wf {s : State} (idx : Nat) (hs : s.mem.wf) : (execPartitionCreate idx s).keeps := by
  have := @State.writePtcmd_wf
  grind [execPartitionCreate, Out.keeps]
theorem execPartitionDestroy_wf {s : State} (idx : Nat) (hs : s.mem.wf) : (execPartitionDestroy idx s).keeps := by
  have := @State.writePtcmd_wf
  grind [execPartitionDestroy, Out.keeps]
theorem execTrailHeadWrite_wf {s : State} (idx : Nat) (v : Word) (hs : s.mem.wf) : (execTrailHeadWrite idx v s).keeps := by
  grind [execTrailHeadWrite, Out.keeps, State.writePtab_mem]
theorem execTrailTailWrite_wf {s : State} (idx : Nat) (v : Word) (hs : s.mem.wf) : (execTrailTailWrite idx v s).keeps := by
  grind [execTrailTailWrite, Out.keeps, State.writePtab_mem]
theorem execWorldCreate_wf {s : State} (v : Word) (hs : s.mem.wf) : (execWorldCreate v s).keeps := by
  have := @State.writeWldcmd_wf
  grind [execWorldCreate, Out.keeps]
theorem execWorldImport_wf {s : State} (v : Word) (hs : s.mem.wf) : (execWorldImport v s).keeps := by
  have := @State.writeWldcmd_wf
  grind [execWorldImport, Out.keeps]
theorem execWorldDestroy_wf {s : State} (v : Word) (hs : s.mem.wf) : (execWorldDestroy v s).keeps := by
  have := @State.writeWldcmd_wf
  grind [execWorldDestroy, Out.keeps]
theorem execWorldRekey_wf {s : State} (w : Nat) (hs : s.mem.wf) : (execWorldRekey w s).keeps := by
  grind [execWorldRekey, Out.keeps, State.bump_mem, State.restartFlows_mem]
theorem execContextCreate_wf {s : State} (v : Word) (sigOk : Bool) (hs : s.mem.wf) : (execContextCreate v sigOk s).keeps := by
  have := @State.writeCtxcmd_wf
  grind [execContextCreate, Out.keeps]
theorem execContextDestroy_wf {s : State} (v : Word) (hs : s.mem.wf) : (execContextDestroy v s).keeps := by
  have := @State.writeCtxcmd_wf
  grind [execContextDestroy, Out.keeps]
theorem execDebugWrite_wf {s : State} (v : Word) (hs : s.mem.wf) : (execDebugWrite v s).keeps := by
  have := @State.writeDebug_wf
  grind [execDebugWrite, Out.keeps]
theorem execAttestationRequest_wf {s : State} (ctx : Nat) (nonce : List Byte) (hs : s.mem.wf)
    : (execAttestationRequest ctx nonce s).keeps := by
  grind [execAttestationRequest, Out.keeps]
theorem execBivouacAnswer_wf {s : State} (ctx : Nat) (core : Nat) (hs : s.mem.wf) : (execBivouacAnswer ctx core s).keeps := by
  have := @State.takeMail_wf
  have := @State.resumeCtx_wf
  grind [execBivouacAnswer, Out.keeps, State.mapCtx_mem]
theorem execAlwaysOnPowerLoss_wf {s : State} (hs : s.mem.wf) : (execAlwaysOnPowerLoss s).keeps := by
  grind [execAlwaysOnPowerLoss, Out.keeps]
theorem execVpack_wf {s : State} (o : LOp) (hs : s.mem.wf) : (execVpack o s).keeps := by
  have := @State.lcompute_wf
  grind [execVpack, Out.keeps]
theorem execVunpk_wf {s : State} (o : LOp) (hs : s.mem.wf) : (execVunpk o s).keeps := by
  have := @State.lcompute_wf
  grind [execVunpk, Out.keeps]
theorem execVqnt_wf {s : State} (o : LOp) (hs : s.mem.wf) : (execVqnt o s).keeps := by
  have := @State.lIssue_wf
  grind [execVqnt, Out.keeps, State.mapCur_mem, State.lDone_mem]
theorem execVsel_wf {s : State} (o : LOp) (hs : s.mem.wf) : (execVsel o s).keeps := by
  have := @State.lcompute_wf
  grind [execVsel, Out.keeps]
theorem execKpop_wf {s : State} (o : LOp) (hs : s.mem.wf) : (execKpop o s).keeps := by
  have := @State.lIssue_wf
  grind [execKpop, Out.keeps, State.mapCur_mem, State.lDone_mem]
theorem execKfrom_wf {s : State} (o : LOp) (hs : s.mem.wf) : (execKfrom o s).keeps := by
  have := @State.lIssue_wf
  grind [execKfrom, Out.keeps, State.mapCur_mem, State.lDone_mem]
theorem execVlife_wf {s : State} (o : LOp) (hs : s.mem.wf) : (execVlife o s).keeps := by
  have := @State.raiseL_wf
  grind [execVlife, Out.keeps, State.wakeBlock_mem, State.mapCur_mem, State.lDone_mem, foldl_wf]
theorem execVnop_wf {s : State} (o : LOp) (hs : s.mem.wf) : (execVnop o s).keeps := by
  have := @State.lIssue_wf
  grind [execVnop, Out.keeps, State.lDone_mem]
theorem execVcomp_wf {s : State} (o : LOp) (hs : s.mem.wf) : (execVcomp o s).keeps := by
  have := @State.lIssue_wf
  grind [execVcomp, Out.keeps, State.mapCur_mem, State.lDone_mem]
theorem execInvalidate_wf {s : State} (v : Word) (hs : s.mem.wf) : (execInvalidate v s).keeps := by
  have := @State.writeInvcmd_wf
  grind [execInvalidate, Out.keeps]
theorem execKillreq_wf {s : State} (v : Word) (hs : s.mem.wf) : (execKillreq v s).keeps := by
  have := @State.writeKillreq_wf
  grind [execKillreq, Out.keeps]
theorem exec_wf {s : State} (i : Instr) (hs : s.mem.wf) : Out.keeps (exec i s) := by
  cases i with
  | add | sub | mul | mulh | mulhn | div | divn | rem | remn | and | or | xor | andn | shl | shr | sra | rotr | min | max
      | minn | maxn | slt | sltn | seq | sne | sel => exact State.alu2_wf _ _ _ _ hs
  | clz | popc | addi | andi | ori | xori | shli | shri | srai | slti => exact State.alu1_wf _ _ _ hs
  | vfadd | vfsub | vfmul | vfma | vfms | vfnma | vfdiv | vfsqrt | vfrsq | vfex2 | vflg2 | vfsinp
      | vfcosp => exact State.lfp_wf _ _ _ hs
  | vfmin | vfmax | vfabs | vfneg | vfrnd | vfclass | vfscale | vadd | vsub | vmul | vmulh | vmad | vadds | vsubs | vabsd
      | vmin | vmax | vshl | vshr | vsra | vrotr | vclz | vpopc | vbrev | vdiv | vrem => exact State.lelem_wf _ _ _ hs
  | ldS8 | ldS16 | ldS32 | ld64 | ldN8 | ldN16 | ldN32 | ldo => exact State.sLoad_wf _ _ _ _ _ _ _ _ hs
  | st8 | st16 | st32 | st64 | sto => exact State.sStore_wf _ _ _ _ _ _ _ hs
  | tvoteAny | tvoteAll | tvoteSum => exact State.tvote_wf _ _ _ hs
  | launch | launchW => exact State.launch_wf _ _ _ hs
  | vld | vst | vatom => exact State.gLanes_wf _ _ _ _ _ _ _ _ _ hs
  | mdrain | mdrsp => exact State.drain_wf _ _ hs
  | wavePrepare => exact State.prepareWave_wf _ _ hs
  | ask => exact State.askCtx_wf _ hs
  | preqHalt => exact State.haltCtx_wf _ hs
  | contextHalted => exact State.haltedCtx_wf _ hs
  | resume => exact State.resumeCtx_wf _ hs
  | strike => exact State.strikeCtx_wf _ hs
  | migPrecopy => exact State.migPrecopy_wf _ hs
  | migStop => exact State.migStop_wf _ hs
  | migResume => exact State.migResume_wf _ hs
  | migAbort => exact State.migAbort_wf _ hs
  | migReceive => exact State.migReceive_wf _ hs
  | migdirtyWrite => exact State.writeMigDirty_wf _ _ hs
  | tmigGo => exact State.writeTmig_wf _ hs
  | bivouacEnter | bivouacWake => exact State.writeBivcmd_wf _ hs
  | vcvt | vdqnt | vdot4 | vidx | vbfx | vbfi => exact State.lcompute_wf _ _ _ hs
  | vand | vor | vxor | vandn | vnot | vmov => exact State.lbits_wf _ _ _ hs
  | vcmp | vfcmp => exact State.lcompare_wf _ _ hs
  | plogic | pset | pfirst => exact State.lpred_wf _ _ _ hs
  | vshfl | vrotl | vbcl | vred | vscan => exact State.lmove_wf _ _ _ hs
  | lui => exact execLui_wf _ _ hs
  | li => exact execLi_wf _ _ hs
  | liHi => exact execLiHi_wf _ _ hs
  | b => exact execB_wf _ _ _ hs
  | j => exact execJ_wf _ hs
  | call => exact execCall_wf _ hs
  | jr => exact execJr_wf _ hs
  | ret => exact execRet_wf hs
  | callr => exact execCallr_wf _ hs
  | loop => exact execLoop_wf _ _ hs
  | lrun => exact execLrun_wf _ hs
  | dqput => exact execDqput_wf _ hs
  | rqget => exact execRqget_wf _ hs
  | rqgetTry => exact execRqgetTry_wf _ _ hs
  | sjoin => exact execSjoin_wf hs
  | satom => exact execSatom_wf _ _ _ _ _ _ _ _ hs
  | spaccLoad => exact execSpaccLoad_wf _ _ _ _ _ _ hs
  | spaccStore => exact execSpaccStore_wf _ _ _ _ _ _ hs
  | spaccAtomic => exact execSpaccAtomic_wf _ _ _ _ _ _ _ _ hs
  | fence => exact execFence_wf _ _ hs
  | fenceOwn => exact execFenceOwn_wf hs
  | fenceRem => exact execFenceRem_wf _ hs
  | remDrainRequest => exact execRemDrainRequest_wf _ _ hs
  | remDrainAck => exact execRemDrainAck_wf _ _ hs
  | waitc => exact execWaitc_wf _ _ _ _ hs
  | waitr => exact execWaitr_wf _ _ hs
  | mwait ord sc d a b tmo => exact execMwait_wf ord sc d a b tmo hs
  | mwaitWake => exact execMwaitWake_wf _ hs
  | mwaitTimeout => exact execMwaitTimeout_wf _ hs
  | qtake => exact execQtake_wf _ _ _ hs
  | qput => exact execQput_wf _ _ _ _ hs
  | sphint => exact execSphint_wf _ _ _ hs
  | bar => exact execBar_wf hs
  | gbar => exact execGbar_wf hs
  | tcall => exact execTcall_wf _ _ _ _ hs
  | tret => exact execTret_wf hs
  | exit => exact execExit_wf hs
  | lwait => exact execLwait_wf hs
  | rootGridSubmit => exact execRootGridSubmit_wf _ hs
  | gangDispatch => exact execGangDispatch_wf _ hs
  | teamFree => exact execTeamFree_wf _ hs
  | gridRetire => exact execGridRetire_wf _ hs
  | compactorMove => exact execCompactorMove_wf _ _ hs
  | compactorMoveEnd => exact execCompactorMoveEnd_wf _ hs
  | loadResponse => exact execLoadResponse_wf _ _ hs
  | storeResponse => exact execStoreResponse_wf _ _ hs
  | peerRequest => exact execPeerRequest_wf _ _ hs
  | vldsp => exact execVldsp_wf _ hs
  | vstsp => exact execVstsp_wf _ hs
  | vatomsp => exact execVatomsp_wf _ hs
  | vldblk => exact execVldblk_wf _ hs
  | vstblk => exact execVstblk_wf _ hs
  | vpref => exact execVpref_wf _ hs
  | vfence => exact execVfence_wf _ hs
  | vwaitc => exact execVwaitc_wf _ hs
  | mma => exact execMma_wf _ hs
  | wload => exact execWload_wf _ _ _ _ _ _ hs
  | mzero => exact execMzero_wf _ hs
  | waveInject => exact execWaveInject_wf _ hs
  | waveWriteback => exact execWaveWriteback_wf _ _ hs
  | wloadBegin => exact execWloadBegin_wf _ _ hs
  | wloadComplete => exact execWloadComplete_wf _ _ _ hs
  | mzeroExecute => exact execMzeroExecute_wf _ _ hs
  | drainBegin => exact execDrainBegin_wf _ _ _ hs
  | drainComplete => exact execDrainComplete_wf _ _ hs
  | tagScrub => exact execTagScrub_wf _ _ hs
  | bdiv => exact execBdiv_wf _ hs
  | join => exact execJoin_wf _ hs
  | bloop => exact execBloop_wf _ hs
  | buni => exact execBuni_wf _ hs
  | lkill => exact execLkill_wf _ hs
  | vbar => exact execVbar_wf _ hs
  | lend => exact execLend_wf _ hs
  | vote => exact execVote_wf _ hs
  | rput => exact execRput_wf _ hs
  | blockStart => exact execBlockStart_wf _ hs
  | lInstructionComplete => exact execLInstructionComplete_wf _ hs
  | watchdogExpiry => exact execWatchdogExpiry_wf _ hs
  | nop => exact execNop_wf hs
  | trapfence => exact execTrapfence_wf hs
  | syscall => exact execSyscall_wf _ hs
  | bkpt => exact execBkpt_wf hs
  | debugPortResume => exact execDebugPortResume_wf _ hs
  | halt => exact execHalt_wf hs
  | retf => exact execRetf_wf hs
  | illegalEncoding => exact execIllegalEncoding_wf _ hs
  | instructionFetchFault => exact execInstructionFetchFault_wf _ _ hs
  | faultDispatch => exact execFaultDispatch_wf _ hs
  | deadlineDelivery => exact execDeadlineDelivery_wf _ hs
  | handlerEntry => exact execHandlerEntry_wf _ hs
  | invalidationComplete => exact execInvalidationComplete_wf _ hs
  | tlbEntryDrop => exact execTlbEntryDrop_wf _ _ hs
  | tagset => exact execTagset_wf _ _ hs
  | tagkill => exact execTagkill_wf _ _ hs
  | privqTake => exact execPrivqTake_wf _ hs
  | privqResume => exact execPrivqResume_wf _ _ hs
  | privqEnd => exact execPrivqEnd_wf _ _ hs
  | mappgMap => exact execMappgMap_wf _ _ _ _ hs
  | mappgPool => exact execMappgPool_wf _ _ _ hs
  | mappgUnmap => exact execMappgUnmap_wf _ _ _ hs
  | cpy => exact execCpy_wf _ _ _ _ _ _ hs
  | copyBegin => exact execCopyBegin_wf _ hs
  | copyElement => exact execCopyElement_wf _ hs
  | copyComplete => exact execCopyComplete_wf _ hs
  | blockSupplyFollow => exact execBlockSupplyFollow_wf _ _ hs
  | regBlockWakeDone => exact execRegBlockWakeDone_wf _ _ _ hs
  | spBankWakeDone => exact execSpBankWakeDone_wf _ _ _ hs
  | graceExpiry => exact execGraceExpiry_wf _ hs
  | strikeExpiry => exact execStrikeExpiry_wf _ hs
  | migStopped => exact execMigStopped_wf _ hs
  | migDescRead f idx => exact execMigDescRead_wf f idx hs
  | migDescWrite f idx => exact execMigDescWrite_wf f idx hs
  | nocPacketReceive => exact execNocPacketReceive_wf _ hs
  | hostWrite => exact execHostWrite_wf _ _ hs
  | hostRead => exact execHostRead_wf _ _ hs
  | hostRecall => exact execHostRecall_wf _ hs
  | fabricAccess => exact execFabricAccess_wf _ hs
  | ctxsave => exact execCtxsave_wf _ _ _ _ _ hs
  | stepBegin => exact execStepBegin_wf _ _ _ hs
  | stepProg => exact execStepProg_wf _ _ _ hs
  | stepEnd => exact execStepEnd_wf _ _ hs
  | governorWindow => exact execGovernorWindow_wf _ hs
  | pointChangeDone => exact execPointChangeDone_wf _ hs
  | levelChangeDone => exact execLevelChangeDone_wf _ hs
  | currentSample => exact execCurrentSample_wf _ hs
  | undervoltRestore => exact execUndervoltRestore_wf _ hs
  | thermalSample => exact execThermalSample_wf _ _ hs
  | tmigCancel => exact execTmigCancel_wf hs
  | thermalMove => exact execThermalMove_wf hs
  | rdsr => exact execRdsr_wf _ _ hs
  | wrsr => exact execWrsr_wf _ _ hs
  | ptrootWrite => exact execPtrootWrite_wf _ _ hs
  | mxcadWrite => exact execMxcadWrite_wf _ _ hs
  | flagsWrite => exact execFlagsWrite_wf _ _ hs
  | vlogClear => exact execVlogClear_wf _ hs
  | frqtOvfClear => exact execFrqtOvfClear_wf _ hs
  | mboxoDropClear => exact execMboxoDropClear_wf _ hs
  | thstOverClear => exact execThstOverClear_wf _ hs
  | domstFreezeClear => exact execDomstFreezeClear_wf _ hs
  | partitionCreate => exact execPartitionCreate_wf _ hs
  | partitionDestroy => exact execPartitionDestroy_wf _ hs
  | trailHeadWrite => exact execTrailHeadWrite_wf _ _ hs
  | trailTailWrite => exact execTrailTailWrite_wf _ _ hs
  | worldCreate => exact execWorldCreate_wf _ hs
  | worldImport => exact execWorldImport_wf _ hs
  | worldDestroy => exact execWorldDestroy_wf _ hs
  | worldRekey => exact execWorldRekey_wf _ hs
  | contextCreate => exact execContextCreate_wf _ _ hs
  | contextDestroy => exact execContextDestroy_wf _ hs
  | debugWrite => exact execDebugWrite_wf _ hs
  | attestationRequest => exact execAttestationRequest_wf _ _ hs
  | bivouacAnswer => exact execBivouacAnswer_wf _ _ hs
  | alwaysOnPowerLoss => exact execAlwaysOnPowerLoss_wf hs
  | deviceReset => exact execDeviceReset_wf _ _ _ hs
  | vpack => exact execVpack_wf _ hs
  | vunpk => exact execVunpk_wf _ hs
  | vqnt => exact execVqnt_wf _ hs
  | vsel => exact execVsel_wf _ hs
  | kpop => exact execKpop_wf _ hs
  | kfrom => exact execKfrom_wf _ hs
  | vlife => exact execVlife_wf _ hs
  | vnop => exact execVnop_wf _ hs
  | vcomp => exact execVcomp_wf _ hs
  | ctxload => exact execCtxload_wf _ _ _ hs
  | invalidate => exact execInvalidate_wf _ hs
  | killreq => exact execKillreq_wf _ hs
  | registerWrite => exact execRegisterWrite_wf _ _ hs

end Sys2Proof.Machine
end

section
/-! SUPPORT. The form of memory: every step keeps it. -/

namespace Sys2Proof.Machine

-- One after the other: side by side, these many small proofs wait for each other, each in a thread of its own.
set_option Elab.async false

/-- A held turn ends with the state of the turn before it, which keeps the form too. -/

theorem State.orWait_wf {s : State} {o : Out} (hs : s.mem.wf) (ho : o.keeps) : Out.keeps (s.orWait o) := by
  cases o with
  | next t => exact ite_wf hs ho
  | fault f => exact ho
  | refused r => exact ho

/-- What a turn names runs in the state after its time, and every meaning keeps the form. -/

theorem step_wf {s : State} (hs : s.mem.wf) : Out.keeps (step s) := by
  have ha := State.advance_wf s.nextTurn.1.dt (State.nextTurn_wf hs)
  have hf := State.found_wf s.nextTurn.1.act ha
  unfold step
  dsimp only
  split
  · next i u h => exact State.orWait_wf ha (exec_wf i (by rw [h] at hf; exact hf))
  · next u h => rw [h] at hf; exact hf

/-- Settles O52: the memory of reset stores nothing. -/

theorem resetMemoryIsCanonical : Obligations.ResetMemoryIsCanonical := rfl

/-- Settles O53, by the rule of each meaning for the stored bytes. -/

theorem stepsKeepMemoryCanonical : Obligations.StepsKeepMemoryCanonical := by
  intro s t hs ht
  have h := step_wf hs
  rw [ht] at h
  exact h


end Sys2Proof.Machine
end


section
/-! SUPPORT. The step entries of a core. -/

namespace Sys2Proof.Machine

/-- The state in which an instruction of a step entry goes on: entry `i` of the core changed by `f`, `w` in its destination. -/
def State.stepDone (s : State) (core i : Nat) (f : StepEntry → StepEntry) (d : SReg) (w : Word) : State :=
  ((s.mapStep core i f).sput d w).nextPc 8

/-- What such an instruction leaves, whatever it does to its entry. -/
theorem State.stepDone_keeps {s : State} {core i : Nat} {f : StepEntry → StepEntry} {d : SReg} {w : Word}
    (hd : s.cur.sLegal d = true) (hc : core < 192) :
    (s.stepDone core i f d w).sget d = (if d = 127#7 then 0 else w) ∧
      (∀ r, r ≠ d → (s.stepDone core i f d w).sget r = s.sget r) ∧
      (s.stepDone core i f d w).cur.s.pc = s.cur.s.pc + 8 ∧ SameMem s (s.stepDone core i f d w) ∧
      (∀ j, j ≠ i → look ((s.stepDone core i f d w).core core).steps j .free = look (s.core core).steps j .free) := by
  have hcore : (s.stepDone core i f d w).core core = (s.mapStep core i f).core core := rfl
  refine ⟨State.sget_sput_same _ _ _ hd, fun r hr => State.sget_sput_ne _ _ _ _ hr, ?_, fun _ => rfl, fun j hj => ?_⟩
  · simp [stepDone, State.nextPc, State.mapStep]
  · rw [hcore, State.mapStep, State.core_mapCore_same _ hc, look_put_ne _ _ _ _ _ hj.symm]

/-- The entry itself. -/
theorem State.stepDone_entry {s : State} {core i : Nat} {f : StepEntry → StepEntry} {d : SReg} {w : Word}
    (hc : core < 192) (hi : i < 16) :
    look ((s.stepDone core i f d w).core core).steps i .free = f (look (s.core core).steps i .free) := by
  have hcore : (s.stepDone core i f d w).core core = (s.mapStep core i f).core core := rfl
  rw [hcore, State.mapStep, State.core_mapCore_same _ hc, look_put_same _ _ _ _ hi]

/-- The search of STEP.BEGIN finds the lowest FREE entry. -/
theorem State.find_free_step {s : State} {core i : Nat} (hi : i < 16)
    (hfree : (look (s.core core).steps i .free).st = .free)
    (hlow : ∀ j, j < i → (look (s.core core).steps j .free).st ≠ .free) :
    (List.range 16).find? (fun i => (look (s.core core).steps i .free).st == .free) = some i := by
  rw [List.find?_range_eq_some]
  exact ⟨by simp [hfree], by simpa using hi, fun j hj => by simpa using hlow j hj⟩

/-- A handle of the team names its entry. -/
theorem State.stepOf_handle {s : State} {core i : Nat} (hi : i < 16)
    (hst : (look (s.core core).steps i .free).st ≠ .free) :
    s.stepOf core (look (s.core core).steps i .free).team
        (BitVec.ofNat 64 ((look (s.core core).steps i .free).gen.toNat * 16 + i)) =
      some (i, look (s.core core).steps i .free) := by
  generalize he : look (s.core core).steps i .free = e at hst
  have hn : (BitVec.ofNat 64 (e.gen.toNat * 16 + i)).toNat = e.gen.toNat * 16 + i := by
    rw [BitVec.toNat_ofNat, Nat.mod_eq_of_lt]; omega
  have hh : BitVec.ofNat 64 (e.gen.toNat * 16 + i) >>> 20 = 0 := by
    apply BitVec.eq_of_toNat_eq
    rw [BitVec.toNat_ushiftRight, hn, Nat.shiftRight_eq_div_pow]
    show (e.gen.toNat * 16 + i) / 2 ^ 20 = 0
    omega
  have hmod : (e.gen.toNat * 16 + i) % 16 = i := by omega
  have hdiv : (e.gen.toNat * 16 + i) / 16 = e.gen.toNat := by omega
  simp [State.stepOf, hn, hh, hmod, hdiv, he, hst]

/-- Settles O22: each form's own path is one change of its entry. -/
theorem stepFormsKeepTheirEntry : Obligations.StepFormsKeepTheirEntry := by
  intro s d a b i hc hi core e after goes
  refine ⟨fun hr hw hfree hlow => ?_, fun ha hst ht => ?_⟩
  · have hrun : exec (.stepBegin d a b) s = .next (s.stepDone core i (fun e => e.update s.time fun _ =>
        ⟨.active, (s.gridOf s.cur).ctx, s.cur.team, s.cur.uid, s.cur.s.pc, s.sget a, (s.sget b).toNat, 0,
          (look (s.core core).steps i .free).gen + 1⟩) d (BitVec.ofNat 64 ((e.gen + 1).toNat * 16 + i))) := by
      show execStepBegin d a b s = _
      rw [execStepBegin, State.sIssue_ready hr]
      simp only [if_neg (Nat.not_le.mpr hw)]
      rw [State.find_free_step hi hfree hlow]
      rfl
    exact ⟨_, ⟨hrun, State.stepDone_keeps (hr.legal d (by simp)) hc⟩,
      congrArg StepEntry.toStepView (State.stepDone_entry hc hi)⟩
  · have hof : s.stepOf core s.cur.team (s.sget a) = some (i, e) := by
      rw [ha, ← ht]; exact State.stepOf_handle hi hst
    refine ⟨fun hr => ?_, fun hr => ?_⟩
    · have hrun : exec (.stepProg d a b) s = .next (s.stepDone core i (fun e => e.update s.time fun v =>
          { v with done := Nat.max v.done (Nat.min (s.sget b).toNat (2 ^ 34 - 1)) }) d 0) := by
        show execStepProg d a b s = _
        rw [execStepProg, State.sIssue_ready hr]
        simp only [core] at hof
        simp only [hof]
        rfl
      exact ⟨_, ⟨hrun, State.stepDone_keeps (hr.legal d (by simp)) hc⟩,
        congrArg StepEntry.toStepView (State.stepDone_entry hc hi)⟩
    · have hrun : exec (.stepEnd d a) s = .next (s.stepDone core i (fun e => e.update s.time fun v =>
          { v with st := .free }) d (e.d - BitVec.ofNat 64 s.time)) := by
        show execStepEnd d a s = _
        rw [execStepEnd, State.sIssue_ready hr]
        simp only [core] at hof
        simp only [hof]
        rfl
      exact ⟨_, ⟨hrun, State.stepDone_keeps (hr.legal d (by simp)) hc⟩,
        congrArg StepEntry.toStepView (State.stepDone_entry hc hi)⟩

end Sys2Proof.Machine
end


section
/-! SUPPORT. What TAGSET and TAGKILL do to the tag and leave of the rest. -/

namespace Sys2Proof.Machine

/-- The cores, the memory and the scalar stream of the issuing group stand. -/
def State.CoresStand (s t : State) : Prop := t.cores = s.cores ∧ t.mem = s.mem ∧ t.cur.s = s.cur.s

theorem State.CoresStand.trans {s t u : State} (h : s.CoresStand t) (k : t.CoresStand u) : s.CoresStand u :=
  ⟨k.1.trans h.1, k.2.1.trans h.2.1, k.2.2.trans h.2.2⟩

theorem State.CoresStand.refl (s : State) : s.CoresStand s := ⟨rfl, rfl, rfl⟩

/-- A change of one group beside its scalar stream. -/
theorem State.CoresStand.mapGroup {s : State} (uid : Nat) {f : Group → Group} (hf : ∀ g, (f g).s = g.s) :
    s.CoresStand (s.mapGroup uid f) := by
  refine ⟨rfl, rfl, ?_⟩
  unfold State.mapGroup
  dsimp only
  split
  · exact hf _
  · rfl

theorem Group.complete_s (g : Group) (command : Bool) (id : Nat) : (g.complete command id).s = g.s := rfl

theorem State.CoresStand.endCmd (s : State) (c : MxCmd) : s.CoresStand (s.endCmd c) := by
  refine ⟨rfl, rfl, ?_⟩
  unfold State.endCmd State.mapGroup
  dsimp only
  split
  · exact Group.complete_s _ _ _
  · rfl

theorem Group.setMxst_s (g : Group) (status tag : Nat) (rows : Word32) : (g.setMxst status tag rows).s = g.s := by
  cases g
  rfl

theorem State.CoresStand.endCmdAs (s : State) (c : MxCmd) (status : Nat) (rows : Word32) : s.CoresStand (s.endCmdAs c status rows) :=
  (CoresStand.endCmd s c).trans (CoresStand.mapGroup c.uid fun g => Group.setMxst_s g status c.tag rows)

theorem State.CoresStand.cmdFlags (s : State) (c : MxCmd) (f : Byte) : s.CoresStand (s.cmdFlags c f) := by
  unfold State.cmdFlags
  split
  · exact CoresStand.refl s
  · exact CoresStand.mapGroup _ fun _ => rfl

theorem State.CoresStand.endMma (s : State) (c : MxCmd) : s.CoresStand (s.endMma c) := by
  unfold State.endMma
  split
  · exact CoresStand.endCmdAs s c _ _
  · split
    · exact (CoresStand.cmdFlags s c _).trans (CoresStand.endCmdAs _ c _ _)
    · exact (CoresStand.cmdFlags s c _).trans (CoresStand.endCmd _ c)

/-- The removal of a command that is no drain (R302). -/
theorem State.CoresStand.removeCmd (s : State) {c : MxCmd}
    (h : ∀ sp vd b ty rnd sat clr drop rb m res pops acc, c.kind ≠ .drain sp vd b ty rnd sat clr drop rb m res pops acc) :
    s.CoresStand (s.removeCmd c) := by
  unfold State.removeCmd
  split
  · next e => exact absurd e (h _ _ _ _ _ _ _ _ _ _ _ _ _)
  · exact CoresStand.endCmdAs s c 2 0

/-- No drain of the tag waits in its queue. -/
def State.NoDrainWaits (s : State) (core n : Nat) : Prop :=
  ∀ c ∈ s.cmds, c.core = core → c.tag = n → c.begun = true ∨
    ∀ sp vd b ty rnd sat clr drop rb m res pops acc, c.kind ≠ .drain sp vd b ty rnd sat clr drop rb m res pops acc

/-- The commands that TAGKILL ends stand aside from the cores and the killing stream. -/
theorem State.CoresStand.foldl {α : Type} {f : State → α → State} (l : List α) (s : State)
    (hf : ∀ (s : State), ∀ a ∈ l, s.CoresStand (f s a)) : s.CoresStand (l.foldl f s) := by
  induction l generalizing s with
  | nil => exact CoresStand.refl s
  | cons a l ih => exact (hf s a (by simp)).trans (ih _ fun s b hb => hf s b (by simp [hb]))

/-- The state in which a kill goes through the commands of its tag: the tag DYING, its waves and begun commands marked. -/
def State.killStart (s : State) (core n : Nat) : State :=
  let s := (s.mapTag core n fun x => { x with st := .dying }).mapCore core fun c =>
    { c with turn := if c.rot.toNat == n then none else c.turn }
  { s with
    waves := (s.waves.filter fun (w : Wave) => !(w.core == core && w.tag == n && w.inj.isNone)).map fun (w : Wave) =>
      if w.core == core && w.tag == n then { w with off := true } else w
    cmds := s.cmds.map fun c => if (c.core == core && c.tag == n) && c.begun then { c with killed := true } else c }

/-- What a kill does with one command of its tag. -/
def State.killCmd (s : State) (c : MxCmd) : State :=
  match c.begun, c.kind with
  | false, _ => s.removeCmd c
  | true, .mma .. => if c.finished == c.injected then s.endMma c else s
  | true, _ => s

theorem State.killTag_eq (s : State) (core n : Nat) :
    s.killTag core n =
      ((s.killStart core n).cmds.filter fun c => c.core == core && c.tag == n).foldl State.killCmd (s.killStart core n) := by
  unfold State.killTag State.killStart
  dsimp only
  refine congrArg (fun f => List.foldl f _ _) (funext fun t => funext fun c => ?_)
  unfold State.killCmd
  cases c.begun <;> cases c.kind <;> rfl

theorem State.killStart_st {s : State} {core n : Nat} (hc : core < 192) (hn : n < 16) :
    ((s.killStart core n).tag core n).st = .dying := by
  have hcores : (s.killStart core n).cores = ((s.mapTag core n fun x => { x with st := .dying }).mapCore core fun c =>
    { c with turn := if c.rot.toNat == n then none else c.turn }).cores := rfl
  rw [State.tag, State.core, hcores, ← State.core, State.core_mapCore_same _ hc, State.mapTag, State.core_mapCore_same _ hc,
    look_put_same _ _ _ _ hn]

/-- The commands that a kill goes through hold no drain that has not begun. -/
theorem State.killStart_cmds {s : State} {core n : Nat} (h : s.NoDrainWaits core n) {c : MxCmd}
    (hc : c ∈ (s.killStart core n).cmds.filter fun c => c.core == core && c.tag == n) :
    c.begun = true ∨
      ∀ sp vd b ty rnd sat clr drop rb m res pops acc, c.kind ≠ .drain sp vd b ty rnd sat clr drop rb m res pops acc := by
  obtain ⟨hin, hmine⟩ := List.mem_filter.mp hc
  simp only [Bool.and_eq_true, beq_iff_eq] at hmine
  obtain ⟨x, hx, rfl⟩ := List.mem_map.mp hin
  split at hmine
  · next hb => simpa only [hb, if_true] using h x hx hmine.1 hmine.2
  · next hb => simpa only [hb, Bool.false_eq_true, if_false] using h x hx hmine.1 hmine.2

theorem State.CoresStand.killCmd (s : State) {c : MxCmd} (h : c.begun = true ∨
      ∀ sp vd b ty rnd sat clr drop rb m res pops acc, c.kind ≠ .drain sp vd b ty rnd sat clr drop rb m res pops acc) :
    s.CoresStand (s.killCmd c) := by
  unfold State.killCmd
  split
  · next _ hb => exact CoresStand.removeCmd s (h.resolve_left (by simp [hb]))
  · split
    · exact CoresStand.endMma s c
    · exact CoresStand.refl s
  · exact CoresStand.refl s

/-- A killed tag is DYING on its core, and the memory and the killing stream stand. -/
theorem State.killTag_dying {s : State} {core n : Nat} (hc : core < 192) (hn : n < 16) (h : s.NoDrainWaits core n) :
    ((s.killTag core n).tag core n).st = .dying ∧ (s.killTag core n).mem = s.mem ∧ (s.killTag core n).cur.s = s.cur.s := by
  obtain ⟨hcores, hmem, hs⟩ := CoresStand.foldl (f := State.killCmd) _ (s.killStart core n)
    fun t c hm => CoresStand.killCmd t (State.killStart_cmds h hm)
  rw [State.killTag_eq, hmem, hs, State.tag, State.core, hcores]
  exact ⟨State.killStart_st hc hn, rfl, rfl⟩

/-- TAGKILL of an ACTIVE tag the caller may kill is its removal, with status OK (R326). -/
theorem State.tagkill_active {s : State} {core ctx : Nat} {mach : Bool} {v : Word} (hv : v < 16)
    (hst : (s.tag core (v.toNat % 16)).st = .active)
    (hown : mach = true ∨ (s.tag core (v.toNat % 16)).ctx.toNat = ctx) :
    s.tagkill core ctx mach v = (0, s.killTag core (v.toNat % 16)) := by
  have hshift : v >>> 4 = 0 := by bv_omega
  have hother : (!mach && (s.tag core (v.toNat % 16)).ctx.toNat != ctx) = false := by
    rcases hown with h | h <;> simp [h]
  simp [State.tagkill, hshift, hst, hother]

/-- TAGSET whose checks pass frees the tag's cells and makes it ACTIVE, with status OK (R325). -/
theorem State.tagset_ok {s : State} {core ctx : Nat} {mach : Bool} {v : Word}
    (hv : v &&& ~~~0x00000FFF00003FFF#64 = 0) (hctx : mach = true ∨ v.extractLsb' 32 12 = 0)
    (hown : s.ownsCore (if mach then (v.extractLsb' 32 12).toNat else ctx) core = true)
    (hst : (s.tag core (v.toNat % 16)).st = .free)
    (hres : s.tagReserved core (v.toNat % 16) (v.extractLsb' 4 4) (v.extractLsb' 8 3) = false)
    (hfree : ∀ m, m < 16 → (s.tag core m).st ≠ .free →
      (s.tag core m).bank ≠ v.extractLsb' 4 4 ∧ (s.tag core m).slot ≠ v.extractLsb' 8 3) :
    s.tagset core ctx mach v = (0, (s.freeTag core (v.toNat % 16)).mapTag core (v.toNat % 16) fun _ =>
      ⟨BitVec.ofNat 12 (if mach then (v.extractLsb' 32 12).toNat else ctx), v.extractLsb' 4 4, v.extractLsb' 8 3, .active,
        v.extractLsb' 11 3, 0, 0, false, 0, none⟩) := by
  have hfit : (v &&& ~~~0x00000FFF00003FFF != 0 || (!mach && v.extractLsb' 32 12 != 0)) = false := by
    rw [show v &&& ~~~0x00000FFF00003FFF = 0 from hv]
    rcases hctx with h | h <;> simp [h]
  have hany : ((s.core core).tags.any fun x =>
      x.st != TagState.free && (x.bank == v.extractLsb' 4 4 || x.slot == v.extractLsb' 8 3)) = false := by
    rw [Bool.eq_false_iff]
    intro hany
    obtain ⟨m, hm, hx⟩ := Vector.any_eq_true.mp hany
    have hk := hfree m hm
    rw [State.tag, look_of_lt hm] at hk
    simp only [Bool.and_eq_true, bne_iff_ne, ne_eq, Bool.or_eq_true, beq_iff_eq] at hx
    obtain ⟨hne, hhit⟩ := hx
    exact hhit.elim (hk hne).1 (hk hne).2
  simp only [State.tagset, hfit, hown, hst, hres, hany]
  rfl

/-- The tag that TAGSET makes, and the others. -/
theorem State.tag_freed_set {s : State} {core n : Nat} {x : Tag} (hc : core < 192) (hn : n < 16) :
    ((s.freeTag core n).mapTag core n fun _ => x).tag core n = x ∧
      ∀ m, m ≠ n → ((s.freeTag core n).mapTag core n fun _ => x).tag core m = s.tag core m := by
  unfold State.tag State.freeTag State.mapTag
  simp only [State.core_mapCore_same _ hc]
  exact ⟨look_put_same _ _ _ _ hn, fun m hm => by rw [look_put_ne _ _ _ _ _ hm.symm, look_put_ne _ _ _ _ _ hm.symm]⟩

/-- Settles O24. -/
theorem tagFormsChangeTheTag : Obligations.TagFormsChangeTheTag := by
  intro s d a hr hc v core n x owner goes
  have hd : s.cur.sLegal d = true := hr.legal d (by simp)
  have hn : n < 16 := Nat.mod_lt _ (by decide)
  have hmach : s.atMach = true ↔ s.cur.level = .mach := beq_iff_eq
  refine ⟨fun hv hl hown hst hres hfree => ?_, fun hv hst hl hdrain => ?_⟩
  · have howner : owner = if s.atMach then (v.extractLsb' 32 12).toNat else (s.ctxOf s.cur).id := by
      simp only [owner, hmach]
    have hset := State.tagset_ok (ctx := (s.ctxOf s.cur).id) hv (hl.imp_left hmach.mpr) (howner ▸ hown) hst hres hfree
    rw [← howner] at hset
    have hrun : exec (.tagset d a) s = .next ((((s.freeTag core n).mapTag core n fun _ =>
        ⟨BitVec.ofNat 12 owner, v.extractLsb' 4 4, v.extractLsb' 8 3, .active, v.extractLsb' 11 3, 0, 0, false, 0, none⟩).sput d
          0).nextPc 8) := by
      show execTagset d a s = _
      rw [execTagset, State.sIssue_ready hr]
      dsimp only
      rw [hset]
    obtain ⟨hthis, hothers⟩ := State.tag_freed_set (s := s) (x := ⟨BitVec.ofNat 12 owner, v.extractLsb' 4 4, v.extractLsb' 8 3, .active,
      v.extractLsb' 11 3, 0, 0, false, 0, none⟩) hc hn
    refine ⟨_, ⟨hrun, ?_, fun r hr => State.sget_sput_ne _ _ _ _ hr, ?_, fun _ => rfl⟩, ?_⟩
    · exact (State.sget_sput_same _ _ _ hd).trans (by simp)
    · simp [State.nextPc, State.freeTag, State.mapTag]
    · exact ⟨congrArg Tag.st hthis, congrArg Tag.ctx hthis, congrArg Tag.bank hthis, congrArg Tag.slot hthis, congrArg Tag.qm1 hthis,
        congrArg Tag.pois hthis, hothers⟩
  · have hown := hl.imp_left hmach.mpr
    have hkill := fun u : State => State.tagkill_active (s := u) (core := core) (ctx := (s.ctxOf s.cur).id) (mach := s.atMach) hv
    have hrun : exec (.tagkill d a) s = .next (((s.sput d 0).nextPc 8).killTag core n) := by
      show execTagkill d a s = _
      rw [execTagkill, State.sIssue_ready hr]
      dsimp only
      rw [hkill s hst hown, hkill ((s.sput d 0).nextPc 8) hst hown]
    obtain ⟨hdying, hmem, hcur⟩ := State.killTag_dying (s := (s.sput d 0).nextPc 8) hc hn hdrain
    have hget (r : SReg) : (((s.sput d 0).nextPc 8).killTag core n).sget r = (s.sput d 0).sget r := by
      rw [State.sget, hcur]; rfl
    refine ⟨_, ⟨hrun, ?_, fun r hr => ?_, ?_, fun pa => by rw [hmem]; rfl⟩, hdying⟩
    · rw [hget, State.sget_sput_same _ _ _ hd]; simp
    · rw [hget, State.sget_sput_ne _ _ _ _ hr]
    · rw [hcur]; simp [State.nextPc]

end Sys2Proof.Machine
end


section
/-! SUPPORT. A state for PRIVQ.END in which the entry that the end frees lets the issuing group's own wait end. -/

namespace Sys2Proof.Machine

/-- Firmware at MACH, marked as waiting in LWAIT for an entry of quadrant 0, beside a descheduled group whose grid's entry is still
pending there; s1 holds the handle of that group. -/
def endingItsOwnWait : State :=
  { State.reset with
    cur := { State.reset.cur with wait := .lwait, s := State.reset.cur.s.put 1 0x10000 }
    others := [{ Group.start with uid := 1, team := 1, status := .desched State.reset.watchdogStop 0 }]
    teams := [.firmware, { Team.firmware with id := 1, gang := 1 }]
    gangs := [.firmware, { Gang.firmware with id := 1, grid := 1 }]
    grids := [.firmware, { Grid.firmware with id := 1, pending := true }]
    waiters := [⟨0, 0, true⟩] }

theorem sReady_endingItsOwnWait : SReady endingItsOwnWait .super [0, 1] false where
  legal := by decide
  level := by decide
  held := by decide
  busy := by decide
  waits := by decide

/-- PRIVQ.END moves the issuing group past its instruction, and the entry that its end frees moves it once more. -/
theorem privqEnd_endingItsOwnWait (t : State) (h : exec (.privqEnd 0 1) endingItsOwnWait = .next t) :
    t.cur.s.pc = endingItsOwnWait.cur.s.pc + 16 := by
  have hpc : (match exec (.privqEnd 0 1) endingItsOwnWait with | .next t => t.cur.s.pc | _ => 0) =
    endingItsOwnWait.cur.s.pc + 16 := by decide
  rw [h] at hpc
  exact hpc

/-- Refutes O25: no hypothesis says that the issuing group does not itself wait at a launch store. PRIVQ.END frees the pending entry
of the grid that it ends (R163), a group that waits for the entry goes on (R146), and where that group is the issuing one its PC
stands 16 bytes later and not 8. -/
theorem not_replayListFormsActOnTheGroup : ¬ Obligations.ReplayListFormsActOnTheGroup := by
  intro h
  obtain ⟨-, hnamed⟩ := (h endingItsOwnWait 0 1).2 sReady_endingItsOwnWait
  obtain ⟨-, hend⟩ := hnamed { Group.start with uid := 1, team := 1, status := .desched State.reset.watchdogStop 0 }
    State.reset.watchdogStop 0 (by rfl) (by rfl) (by decide) (by decide) rfl rfl rfl (by decide) (by decide)
  obtain ⟨t, hrun, -, -, hpc, -⟩ := hend { Grid.firmware with id := 1, pending := true } (by rfl) rfl (by decide)
  rw [privqEnd_endingItsOwnWait t hrun] at hpc
  exact absurd hpc (by decide)

end Sys2Proof.Machine
end


section
/-! SUPPORT. What RETF brings back where the handler's blocks retired no lane. -/

namespace Sys2Proof.Machine

/-- A path that holds a lane. -/
def Path.held (p : Option Path) : Option Path := p.filter fun p => p.mask ≠ 0

/-- Where no lane leaves, a path without a lane goes and nothing else changes (R131). -/
theorem LState.retire_none (l : LState) :
    l.retire 0 = { l with ps0 := Path.held l.ps0, ps1 := Path.held l.ps1 } := by
  have hand (m : Mask) : m &&& ~~~0 = m := BitVec.and_allOnes
  have hcut (p : Option Path) : (p.bind fun p => if p.mask == 0 then none else some p) = Path.held p := by
    cases p with
    | none => rfl
    | some p => by_cases hp : p.mask = 0 <;> simp [Path.held, Option.filter, hp]
  have hnest : (Vector.ofFn fun i : Fin 128 => if (0 : Mask).getLsbD i.val then 0 else l.nest[i]) = l.nest := by
    ext i hi
    simp
  simp only [LState.retire, hand, hcut, hnest, List.map_id', Option.map_id']

/-- The user's L-stream as it comes back: the registers as they are, the rest as banked. -/
theorem Handler.restoreL_kept {h : Handler} {now : LState} (hl : now.live = h.user.live) :
    h.restoreL now = { now with
      hvLife := Vector.replicate 8 .dead, preds := h.user.preds, k := h.user.k, ps0 := Path.held h.user.ps0
      ps1 := Path.held h.user.ps1, stack := h.user.stack, nest := h.user.nest, hold := h.user.hold, live := h.user.live } := by
  have hgone : h.user.live &&& ~~~now.live = 0 := by rw [hl]; exact BitVec.and_not_self _
  simp only [Handler.restoreL, hgone, LState.retire_none]

/-- A resume point moves a path and nothing else of the L-stream. -/
structure LState.SameBesidePaths (l m : LState) : Prop where
  preds : m.preds = l.preds
  k     : m.k = l.k
  stack : m.stack = l.stack
  nest  : m.nest = l.nest
  hold  : m.hold = l.hold
  live  : m.live = l.live
  vregs : m.vregs = l.vregs

theorem LState.SameBesidePaths.setPath (l : LState) (ps1 : Bool) (p : Option Path) : l.SameBesidePaths (l.setPath ps1 p) := by
  cases ps1 <;> exact ⟨rfl, rfl, rfl, rfl, rfl, rfl, rfl⟩

/-- The L-stream that the group goes on with: the restored one, the stopped path moved where the stop was the L-stream's and the
handler moved hs2. -/
theorem Group.leaveHandler_l (g : Group) (h : Handler) :
    (h.restoreL g.l).SameBesidePaths (g.leaveHandler h).l ∧ (h.stop.l = false → (g.leaveHandler h).l = h.restoreL g.l) := by
  have hl : (g.leaveHandler h).l = if h.stop.l && !(g.s.get 98 == h.stop.pc) then
      (match (if h.stop.ps1 then (h.restoreL g.l).ps1 else (h.restoreL g.l).ps0) with
        | some p => (h.restoreL g.l).setPath h.stop.ps1 (some { p with pc := (g.s.get 98).toNat })
        | none => h.restoreL g.l) else h.restoreL g.l := by
    unfold Group.leaveHandler
    dsimp only
    split
    · split <;> rfl
    · rfl
  rw [hl]
  refine ⟨?_, fun hs => by simp [hs]⟩
  split
  · split
    · exact LState.SameBesidePaths.setPath _ _ _
    · exact ⟨rfl, rfl, rfl, rfl, rfl, rfl, rfl⟩
  · exact ⟨rfl, rfl, rfl, rfl, rfl, rfl, rfl⟩

/-- The S-stream goes on at the PC it had, or at hs2 where it was the stopped stream and hs2 moved. -/
theorem Group.leaveHandler_s {g : Group} {h : Handler} (hw : ∀ pc ws, h.wait ≠ .go pc ws) :
    (g.leaveHandler h).s =
      { g.s with pc := if h.stop.l = false ∧ g.s.get 98 ≠ h.stop.pc then g.s.get 98 else h.userPc } := by
  unfold Group.leaveHandler
  dsimp only
  by_cases hs : (h.stop.l || g.s.get 98 == h.stop.pc) = true
  · have hpc : ¬ (h.stop.l = false ∧ g.s.get 98 ≠ h.stop.pc) := by simpa [or_iff_not_imp_left] using hs
    rw [if_pos hs, if_neg hpc]
    split
    · next pc ws hgo => exact absurd hgo (hw pc ws)
    · rfl
  · have hpc : h.stop.l = false ∧ g.s.get 98 ≠ h.stop.pc := by simpa using hs
    rw [if_neg hs, if_pos hpc]

/-- What else a group has back. -/
theorem Group.leaveHandler_rest (g : Group) (h : Handler) :
    (g.leaveHandler h).handler = none ∧ (g.leaveHandler h).level = h.level ∧ (g.leaveHandler h).running = h.running ∧
      (g.leaveHandler h).latch = h.latch ∧ (g.leaveHandler h).flags = g.flags := by
  unfold Group.leaveHandler
  dsimp only
  split
  · split <;> exact ⟨rfl, rfl, rfl, rfl, rfl⟩
  · exact ⟨rfl, rfl, rfl, rfl, rfl⟩

/-- Where the handler retired no lane, RETF drops no path and writes no spilled entry. -/
theorem State.dropRetired_none {s : State} {h : Handler} (hl : s.cur.l.live = h.user.live) : s.dropRetired h = s := by
  simp [State.dropRetired, hl]

theorem State.resumeCopies_cur (s : State) (uid : Nat) (st : Stop) :
    (s.resumeCopies uid st).cur = s.cur ∧ (s.resumeCopies uid st).mem = s.mem := by
  unfold State.resumeCopies
  dsimp only
  split <;> exact ⟨rfl, rfl⟩

/-- RETF of an idle handler in a context that is not halting. -/
theorem exec_retf {s : State} {h : Handler} (hr : SReady s .super [] false) (hh : s.cur.handler = some h)
    (hi : s.cur.lIdle = true) (hl : s.cur.l.live = h.user.live) (hc : (s.ctxOf s.cur).st ≠ .halting) :
    exec .retf s = .next ((s.joinS.mapCur fun g => g.leaveHandler h).resumeCopies s.cur.uid h.stop) := by
  have hlive : (s.joinS.mapCur fun g => g.leaveHandler h).cur.l.live = h.user.live := by
    show (s.joinS.cur.leaveHandler h).l.live = _
    rw [(Group.leaveHandler_l _ h).1.live, Handler.restoreL_kept (now := s.joinS.cur.l) hl]
  have hhalt : ((s.ctxOf s.cur).st == .halting) = false := by simpa using hc
  show execRetf s = _
  rw [execRetf, State.sIssue_ready hr, hh]
  simp [hi, hhalt, State.dropRetired_none hlive]

/-- Settles O7. -/
theorem returnRestoresTheUser : Obligations.ReturnRestoresTheUser := by
  intro s h hr hh hi hl hc hw
  have hrun := exec_retf hr hh hi hl hc
  generalize ht : (s.joinS.mapCur fun g => g.leaveHandler h).resumeCopies s.cur.uid h.stop = t at hrun
  have hcur : t.cur = s.joinS.cur.leaveHandler h := by
    rw [← ht, (State.resumeCopies_cur _ _ _).1]; rfl
  have hmem : t.mem = s.mem := by rw [← ht, (State.resumeCopies_cur _ _ _).2]; rfl
  obtain ⟨hhandler, hlevel, hrunning, hlatch, hflags⟩ := Group.leaveHandler_rest s.joinS.cur h
  obtain ⟨hside, hall⟩ := Group.leaveHandler_l s.joinS.cur h
  have hs := Group.leaveHandler_s (g := s.joinS.cur) hw
  rw [← hcur] at hhandler hlevel hrunning hlatch hflags hside hall hs
  rw [Handler.restoreL_kept (now := s.joinS.cur.l) hl] at hside hall
  refine ⟨t, hrun, hhandler, hlevel, hrunning, hside.preds, hside.k, hside.stack, hside.nest, hside.hold, hside.live, hside.vregs,
    hlatch, fun hstop => ?_, ?_, ?_, hflags, fun pa => by rw [hmem]⟩
  · rw [hall hstop]
    exact ⟨rfl, rfl⟩
  · rw [hs]; rfl
  · rw [hs]; rfl

end Sys2Proof.Machine
end


section
/-! SUPPORT. The contexts and the copy commands through the operations that a strike uses: which of them leave both as they are, and
which leave the names of the contexts and the owners of the copies. -/

namespace Sys2Proof.Machine

/-- The contexts and the registered copies. -/
def State.ledger (s : State) : List Ctx × List Copy := (s.ctxs, s.copies)

/-- The names of the contexts, and the context of each registered copy. -/
def State.owners (s : State) : List Nat × List Nat := (s.ctxs.map Ctx.id, s.copies.map Copy.ctx)

theorem State.owners_of_ledger {s t : State} (h : t.ledger = s.ledger) : t.owners = s.owners := by
  obtain ⟨hc, hk⟩ := Prod.mk.inj h
  rw [State.owners, hc, hk, State.owners]

theorem foldl_ledger {α : Type} {f : State → α → State} (hf : ∀ s a, (f s a).ledger = s.ledger) (l : List α) (s : State) :
    (l.foldl f s).ledger = s.ledger := by
  induction l generalizing s with
  | nil => rfl
  | cons a l ih => exact (ih _).trans (hf s a)

theorem foldl_owners {α : Type} {f : State → α → State} (hf : ∀ s a, (f s a).owners = s.owners) (l : List α) (s : State) :
    (l.foldl f s).owners = s.owners := by
  induction l generalizing s with
  | nil => rfl
  | cons a l ih => exact (ih _).trans (hf s a)

/-! ### Accesses to memory -/

theorem State.ledger_holdIf (s : State) (h : Bool) : (s.holdIf h).ledger = s.ledger := by
  unfold State.holdIf
  split <;> rfl

theorem State.ledger_orEntry (s : State) (ea bits : Nat) : (s.orEntry ea bits).ledger = s.ledger := by
  unfold State.orEntry
  dsimp only
  split <;> rfl

theorem State.ledger_setAD (s : State) (path : List Nat) (leaf : Nat) (d : Bool) : (s.setAD path leaf d).ledger = s.ledger := by
  have hpath := foldl_ledger (fun s ea => State.ledger_orEntry s ea 8) path s
  unfold State.setAD
  dsimp only
  split
  · exact (State.ledger_orEntry _ _ _).trans hpath
  · exact hpath

theorem State.ledger_translateHeld (s : State) (core : Nat) (c : Ctx) (e : TlbEntry) (kind : AccessKind) (va : Word) :
    (s.translateHeld core c e kind va).st.ledger = s.ledger := by
  have hused (u : State) (d : Bool) : (u.usedEntry core e d).ledger = u.ledger := rfl
  have hor := State.ledger_orEntry
  have hhold := State.ledger_holdIf
  have hpath := fun u : State => foldl_ledger (fun s ea => State.ledger_orEntry s ea 8) e.path u
  grind [State.translateHeld]

theorem State.ledger_translateWalk (s : State) (core : Nat) (c : Ctx) (kind : AccessKind) (va : Word) :
    (s.translateWalk core c kind va).st.ledger = s.ledger := by
  unfold State.translateWalk
  split
  · rfl
  · split
    · rfl
    · dsimp only
      split
      · rfl
      · split
        · rfl
        · exact State.ledger_setAD _ _ _ _

theorem State.ledger_translate (s : State) (core : Nat) (c : Ctx) (lvl : Level) (kind : AccessKind) (va : Word) :
    (s.translate core c lvl kind va).st.ledger = s.ledger := by
  unfold State.translate
  split
  · rfl
  · split
    · exact State.ledger_translateHeld _ _ _ _ _ _
    · split
      · exact State.ledger_translateHeld _ _ _ _ _ _
      · exact State.ledger_translateWalk _ _ _ _ _

theorem State.ledger_ctxPa (s : State) (core : Nat) (c : Ctx) (lvl : Level) (kind : AccessKind) (va : Word) :
    (s.ctxPa core c lvl kind va).st.ledger = s.ledger := by
  have hheld := (State.ledger_translate (s.holdIf ((canonErr lvl va).isNone && s.walkHeld core c va)) core c lvl kind va).trans
    (State.ledger_holdIf s _)
  unfold State.ctxPa
  dsimp only
  split
  · exact hheld
  · exact (State.ledger_holdIf _ _).trans hheld

theorem State.ledger_ctxRead (s : State) (core : Nat) (c : Ctx) (lvl : Level) (kind : AccessKind) (va : Word) (n : Nat) :
    (s.ctxRead core c lvl kind va n).2.ledger = s.ledger := by
  have hpa := State.ledger_ctxPa s core c lvl kind va
  unfold State.ctxRead
  dsimp only
  split
  · exact hpa
  · split <;> exact hpa

theorem State.ledger_ctxWriteAs (s : State) (whole : Bool) (core : Nat) (c : Ctx) (lvl : Level) (va : Word) (bs : List Byte) :
    (s.ctxWriteAs whole core c lvl va bs).2.ledger = s.ledger := by
  have hpa := State.ledger_ctxPa s core c lvl .write va
  unfold State.ctxWriteAs
  dsimp only
  split
  · exact hpa
  · split <;> exact hpa

theorem State.ledger_ctxWrite (s : State) (core : Nat) (c : Ctx) (lvl : Level) (va : Word) (bs : List Byte) :
    (s.ctxWrite core c lvl va bs).2.ledger = s.ledger := State.ledger_ctxWriteAs _ _ _ _ _ _ _

/-! ### A change of contexts that keeps their names -/

/-- A change of a context that leaves its name. -/
theorem State.owners_mapCtx (s : State) (i : Nat) {f : Ctx → Ctx} (hf : ∀ c, (f c).id = c.id) :
    (s.mapCtx i f).owners = s.owners := by
  have hids : (s.mapCtx i f).ctxs.map Ctx.id = s.ctxs.map Ctx.id := by
    unfold State.mapCtx mapIf
    rw [List.map_map]
    refine List.map_congr_left fun c _ => ?_
    dsimp only [Function.comp]
    split
    · exact hf c
    · rfl
  exact Prod.ext hids rfl

theorem State.owners_queueRecord (s : State) (core ctx : Nat) (r : Record) : (s.queueRecord core ctx r).owners = s.owners := by
  unfold State.queueRecord
  split
  · rfl
  · next c _ =>
    have hwrite := fun va bs => State.owners_of_ledger (State.ledger_ctxWriteAs s false core c .super va bs)
    dsimp only
    split
    · exact State.owners_mapCtx _ ctx (f := Ctx.dropRecord) fun _ => rfl
    · split
      · exact (State.owners_mapCtx _ ctx (f := Ctx.dropRecord) fun _ => rfl).trans (hwrite _ _)
      · exact (State.owners_mapCtx _ ctx (f := fun c => { c with frqt := c.frqt + 1 }) fun _ => rfl).trans (hwrite _ _)

theorem State.owners_writeCompletion (s : State) (gr : Grid) : (s.writeCompletion gr).owners = s.owners := by
  unfold State.writeCompletion
  split
  · rfl
  · next c _ =>
    have hpa := fun core lvl => State.owners_of_ledger (State.ledger_ctxPa s core c lvl .write gr.launch.cword)
    have hwr := fun (t : State) core lvl bs => State.owners_of_ledger (State.ledger_ctxWrite t core c lvl gr.launch.cword bs)
    dsimp only
    generalize (if gr.sup = true then Level.super else Level.user) = lvl
    split
    · rfl
    · split
      · exact (State.owners_queueRecord _ _ _ _).trans (hpa _ _)
      · split
        · exact (State.owners_queueRecord _ _ _ _).trans (hpa _ _)
        · split
          · exact (hwr _ _ _ _).trans (hpa _ _)
          · exact (State.owners_queueRecord _ _ _ _).trans ((hwr _ _ _ _).trans (hpa _ _))

theorem State.owners_retireCtx (ctx : Nat) (n : Nat) (s : State) : (State.retireCtx ctx n s).owners = s.owners := by
  induction n generalizing s with
  | zero => rfl
  | succ n ih =>
    unfold State.retireCtx
    split
    · rfl
    · next gr _ =>
      refine (ih _).trans ?_
      exact State.owners_writeCompletion s gr

/-! ### The end of grids and teams -/

theorem State.ledger_withdrawMove (s : State) : s.withdrawMove.ledger = s.ledger := by
  unfold State.withdrawMove
  split <;> rfl

theorem State.ledger_cancelMove (s : State) (ctx : Nat) : (s.cancelMove ctx).ledger = s.ledger := by
  unfold State.cancelMove
  dsimp only
  split
  · exact State.ledger_withdrawMove s
  · rfl

theorem State.owners_checkParked (s : State) (ctx : Nat) : (s.checkParked ctx).owners = s.owners := by
  unfold State.checkParked
  split
  · rfl
  · dsimp only
    split
    · refine Eq.trans (State.owners_mapCtx _ _ ?_) (State.owners_of_ledger (State.ledger_cancelMove s ctx))
      exact fun _ => rfl
    · rfl

theorem State.owners_enqueue (s : State) (ctx : Nat) (rec : LaunchRec) (parent : Option Nat) (depth quad src : Nat) (sup : Bool) :
    (s.enqueue ctx rec parent depth quad src sup).owners = s.owners := by
  unfold State.enqueue
  dsimp only
  exact State.owners_mapCtx _ _ fun _ => rfl

theorem State.owners_releaseOne (s : State) (w : Waiter) : (s.releaseOne w).owners = s.owners := by
  unfold State.releaseOne
  split
  · rfl
  · dsimp only
    split
    · exact State.owners_enqueue _ _ _ _ _ _ _ _
    · rfl

theorem State.ledger_trailMark (s : State) (c : Choice) (r : Option (Nat × List Byte)) (queue : Option (Bool × Nat)) :
    (s.trailMark c r queue).ledger = s.ledger := by
  unfold State.trailMark
  dsimp only
  split
  · rfl
  · split
    · split <;> rfl
    · split <;> rfl

theorem State.ledger_fillWaiters (s : State) (q : Nat) : (s.fillWaiters q).ledger = s.ledger := by
  unfold State.fillWaiters
  split <;> rfl

theorem State.owners_serveQuad (s : State) (q : Nat) : (s.serveQuad q).owners = s.owners := by
  have hfill := State.owners_of_ledger (State.ledger_fillWaiters s q)
  unfold State.serveQuad
  dsimp only
  split
  · exact hfill
  · exact (State.owners_of_ledger (State.ledger_trailMark _ _ _ _)).trans ((State.owners_releaseOne _ _).trans hfill)
  · exact hfill

theorem State.owners_entryFreed (s : State) (q : Nat) : (s.entryFreed q).owners = s.owners := by
  unfold State.entryFreed
  split
  · exact State.owners_serveQuad _ _
  · rfl

theorem State.owners_endOne (s : State) (grid : Nat) (e : Ending) : (s.endOne grid e).owners = s.owners := by
  unfold State.endOne
  split
  · rfl
  · next gr _ =>
    split
    · rfl
    · dsimp only
      refine (State.owners_checkParked _ _).trans ?_
      have hgroups (u : State) (p : Group → Bool) : (u.mapGroups p Group.leave).owners = u.owners := rfl
      have hcopies (l : List Copy) (p : Copy → Bool) :
          (mapIf l p fun c => { c with st := .finished }).map Copy.ctx = l.map Copy.ctx := by
        unfold mapIf
        rw [List.map_map]
        refine List.map_congr_left fun c _ => ?_
        dsimp only [Function.comp]
        split <;> rfl
      have hsteps := fun (l : List Nat) u => foldl_owners (f := State.freeSteps) (fun _ _ => rfl) l u
      split
      · refine (State.owners_entryFreed _ _).trans ((hsteps _ _).trans (Prod.ext rfl (hcopies _ _)))
      · exact (hsteps _ _).trans (Prod.ext rfl (hcopies _ _))

theorem State.ledger_focus (s : State) (uid : Nat) : (s.focus uid).ledger = s.ledger := by
  unfold State.focus
  split
  · rfl
  · split <;> rfl

theorem State.ledger_leaveTeam (s : State) (team : Nat) : (s.leaveTeam team).ledger = s.ledger := by
  unfold State.leaveTeam
  dsimp only
  split
  · split
    · exact State.ledger_focus _ _
    · rfl
  · rfl

theorem State.ledger_retireFreed (grid n : Nat) (s : State) : (State.retireFreed grid n s).ledger = s.ledger := by
  induction n generalizing s with
  | zero => rfl
  | succ n ih =>
    unfold State.retireFreed
    split
    · rfl
    · split
      · rfl
      · exact (ih _).trans rfl

theorem State.ledger_freeGang (s : State) (gang : Nat) : (s.freeGang gang).ledger = s.ledger := by
  unfold State.freeGang
  split
  · rfl
  · split
    · rfl
    · split
      · rfl
      · exact (State.ledger_retireFreed _ _ _).trans rfl

theorem State.ledger_freeTeam (s : State) (t : Team) : (s.freeTeam t).ledger = s.ledger := by
  unfold State.freeTeam
  dsimp only
  refine (State.ledger_freeGang _ _).trans ((State.ledger_leaveTeam _ _).trans ?_)
  split <;> rfl

/-! ### Stores in flight and the copies' ends -/

theorem State.ledger_flushStore (s : State) (port : Nat) (w : Byte) (a : Access) : (s.flushStore port w a).ledger = s.ledger := by
  refine foldl_ledger (fun s r => ?_) _ _
  split
  · rfl
  · split <;> rfl

theorem State.ledger_flushCtx (s : State) (ctx : Nat) (w : Byte) : (s.flushCtx ctx w).ledger = s.ledger :=
  foldl_ledger (fun s (x : Nat × Access) => State.ledger_flushStore s x.1 w x.2) _ _

/-- The ended copies are gone, the contexts stand, and no copy comes. -/
theorem State.foldl_endCopy (l : List Copy) (s : State) :
    (l.foldl State.endCopy s).ctxs = s.ctxs ∧
      ∀ y ∈ (l.foldl State.endCopy s).copies, y ∈ s.copies ∧ ∀ x ∈ l, y.id ≠ x.id := by
  induction l generalizing s with
  | nil => exact ⟨rfl, fun y hy => ⟨hy, by simp⟩⟩
  | cons c l ih =>
    obtain ⟨hctxs, hcopies⟩ := ih (s.endCopy c)
    refine ⟨hctxs, fun y hy => ?_⟩
    obtain ⟨hin, hids⟩ := hcopies y hy
    obtain ⟨hold, hne⟩ := List.mem_filter.mp hin
    refine ⟨hold, fun x hx => ?_⟩
    rcases List.mem_cons.mp hx with rfl | hx
    · simpa using hne
    · exact hids x hx

/-! ### The mailbox -/

/-- A context of a name with the outcome of a strike. -/
def State.Struck (s : State) (i : Nat) : Prop :=
  ∃ x, s.ctx? i = some x ∧ x.st = .empty ∧ x.replays = [] ∧ x.struck = true

theorem State.Struck.of_ledger {s t : State} {i : Nat} (hs : s.Struck i) (h : t.ledger = s.ledger) : t.Struck i := by
  obtain ⟨x, hx, hx'⟩ := hs
  exact ⟨x, by rw [State.ctx?, (Prod.mk.inj h).1]; exact hx, hx'⟩

/-- A change of the mailbox's marks. -/
theorem State.Struck.mapCtx {s : State} {i : Nat} (hs : s.Struck i) {f : Ctx → Ctx} (hid : ∀ c, (f c).id = c.id)
    (hf : ∀ c, (f c).st = c.st ∧ (f c).replays = c.replays ∧ (f c).struck = c.struck) : (s.mapCtx i f).Struck i := by
  obtain ⟨x, hx, hst, hreplays, hstruck⟩ := hs
  obtain ⟨hfst, hfreplays, hfstruck⟩ := hf x
  exact ⟨f x, State.ctx?_mapCtx hx hid, hfst.trans hst, hfreplays.trans hreplays, hfstruck.trans hstruck⟩

/-- A message to a struck context changes the marks of its mailbox alone. -/
theorem State.mail_struck {s : State} {ctx : Nat} (core : Nat) (type : Byte) (payload : List Byte) (hs : s.Struck ctx) :
    (s.mail core ctx type payload).copies = s.copies ∧ (s.mail core ctx type payload).Struck ctx := by
  have hledger {t : State} (h : t.ledger = s.ledger) : t.copies = s.copies ∧ t.Struck ctx :=
    ⟨(Prod.mk.inj h).2, hs.of_ledger h⟩
  have hmarks {t : State} (h : t.ledger = s.ledger) {f : Ctx → Ctx} (hid : ∀ c, (f c).id = c.id)
      (hf : ∀ c, (f c).st = c.st ∧ (f c).replays = c.replays ∧ (f c).struck = c.struck) :
      (t.mapCtx ctx f).copies = s.copies ∧ (t.mapCtx ctx f).Struck ctx :=
    ⟨(Prod.mk.inj h).2, (hs.of_ledger h).mapCtx hid hf⟩
  unfold State.mail
  split
  · exact hledger rfl
  · next c _ =>
    have hread := State.ledger_ctxRead s core c .super .atomic (canonical c.mboxo) 64
    dsimp only
    split
    · exact hledger hread
    · split
      · exact hledger hread
      · split
        · exact hledger hread
        · split
          · exact hmarks hread (f := Ctx.dropMail) (fun _ => rfl) fun _ => ⟨rfl, rfl, rfl⟩
          · split
            · exact hledger ((State.ledger_ctxWrite _ _ _ _ _ _).trans hread)
            · exact hmarks ((State.ledger_ctxWrite _ _ _ _ _ _).trans ((State.ledger_ctxWrite _ _ _ _ _ _).trans hread))
                (fun _ => rfl) fun _ => ⟨rfl, rfl, rfl⟩

end Sys2Proof.Machine
end


section
/-! SUPPORT. The moves of the ladder: ask, halt, drain, resume, strike and the timers. -/

namespace Sys2Proof.Machine

theorem State.realCtx?_of {s : State} {c : Ctx} (h0 : c.id ≠ 0) (hc : s.ctx? c.id = some c) : s.realCtx? c.id = some c := by
  rw [State.realCtx?, if_neg (by simpa using h0), hc]

/-! ### Ask (R329) -/

/-- A group of the context that has still to park (R329, R330). -/
def State.toPark (s : State) (ctx : Nat) (g : Group) : Prop :=
  ((s.gridOf g).ctx = ctx ∧ g.status ≠ .exited) ∧ g.parked = false ∧ ∀ st e, g.status ≠ .desched st e

/-- The test of a group that the end of an ask makes. -/
def State.parkTest (s : State) (ctx : Nat) (g : Group) : Bool :=
  (s.gridOf g).ctx == ctx && g.status != .exited && !g.parked && (match g.status with | .desched _ _ => false | _ => true)

theorem State.parkTest_iff (s : State) (ctx : Nat) (g : Group) : s.parkTest ctx g = true ↔ s.toPark ctx g := by
  unfold State.parkTest State.toPark
  cases hg : g.status <;> simp

/-- The context that an ask leaves where groups have still to park. -/
theorem State.checkParked_waits {s : State} {ctx : Nat} (h : ∃ g ∈ s.groups, s.toPark ctx g) : s.checkParked ctx = s := by
  unfold State.checkParked
  split
  · rfl
  · obtain ⟨g, hg, hp⟩ := h
    have hany : (s.groups.any (s.parkTest ctx)) = true := List.any_eq_true.mpr ⟨g, hg, (s.parkTest_iff ctx g).mpr hp⟩
    dsimp only
    rw [if_neg]
    intro hif
    simp only [Bool.and_eq_true, Bool.not_eq_true'] at hif
    exact absurd (hif.2.symm.trans hany) (by simp)

/-- Where no move is PENDING, a halt or a strike withdraws none. -/
theorem State.cancelMove_none {s : State} (ctx : Nat) (h : s.dev.tmig ≠ .pending) : s.cancelMove ctx = s := by
  have hwith : s.withdrawMove = s := by
    rw [State.withdrawMove, if_neg]
    simp [h]
  unfold State.cancelMove
  dsimp only
  split
  · exact hwith
  · rfl

/-- A halt that begins with PARKED (R330). -/
def Ctx.haltParked (time : Nat) (c : Ctx) : Ctx := { c with st := .halting, parkedHalt := true, strike0 := time }

/-- An ASKED context with nothing left to park begins its halt with PARKED (R330). -/
theorem State.checkParked_halts {s : State} {ctx : Nat} {c : Ctx} (hc : s.ctx? ctx = some c) (hst : c.st = .asked)
    (h : ∀ g ∈ s.groups, ¬ s.toPark ctx g) (hm : s.dev.tmig ≠ .pending) :
    s.checkParked ctx = s.mapCtx ctx (Ctx.haltParked s.time) := by
  have hany : (s.groups.any (s.parkTest ctx)) = false := by
    rw [List.any_eq_false]
    exact fun g hg hp => h g hg ((s.parkTest_iff ctx g).mp hp)
  unfold State.checkParked
  rw [hc]
  dsimp only
  rw [if_pos, State.cancelMove_none ctx hm]
  · rfl
  · simp only [hst, Bool.and_eq_true, Bool.not_eq_true']
    exact ⟨rfl, hany⟩

/-- The context that an ask marks. -/
def Ctx.ask (time : Nat) (c : Ctx) : Ctx := { c with st := .asked, grace0 := time, parkedHalt := false }

theorem exec_ask {s : State} {c : Ctx} (h0 : c.id ≠ 0) (hc : s.ctx? c.id = some c) (hst : c.st = .run) :
    exec (.ask c.id) s = .next ((s.mapCtx c.id (Ctx.ask s.time)).checkParked c.id) := by
  show Host.Outcome.next (s.askCtx c.id) = _
  rw [State.askCtx, State.realCtx?_of h0 hc]
  simp only [hst]
  rfl

theorem ask_waits {s : State} {c : Ctx} (h0 : c.id ≠ 0) (hc : s.ctx? c.id = some c) (hst : c.st = .run)
    (h : ∃ g ∈ s.groups, s.toPark c.id g) :
    ChangesCtx s (.ask c.id) c.id { c with st := .asked, grace0 := s.time, parkedHalt := false } := by
  refine ChangesCtx.of_mapCtx (f := Ctx.ask s.time) hc (fun _ => rfl) ?_
  rw [exec_ask h0 hc hst, State.checkParked_waits (s := s.mapCtx c.id (Ctx.ask s.time)) h]

theorem ask_halts {s : State} {c : Ctx} (h0 : c.id ≠ 0) (hc : s.ctx? c.id = some c) (hst : c.st = .run)
    (h : ∀ g ∈ s.groups, ¬ s.toPark c.id g) (hm : s.dev.tmig ≠ .pending) :
    ChangesCtx s (.ask c.id) c.id { c with st := .halting, grace0 := s.time, parkedHalt := true, strike0 := s.time } := by
  have hask := State.ctx?_mapCtx (f := Ctx.ask s.time) hc fun _ => rfl
  have hrun := exec_ask h0 hc hst
  rw [State.checkParked_halts (s := s.mapCtx c.id (Ctx.ask s.time)) hask rfl h hm] at hrun
  refine ⟨_, hrun, State.ctx?_mapCtx hask fun _ => rfl, fun v hv => ?_, rfl⟩
  have hone := fun (u : State) (f : Ctx → Ctx) (hf : ∀ x, (f x).id = x.id) => find?_mapIf_ne (key := Ctx.id) hf u.ctxs hv
  exact (hone (s.mapCtx c.id (Ctx.ask s.time)) (Ctx.haltParked s.time) fun _ => rfl).trans (hone s (Ctx.ask s.time) fun _ => rfl)

/-! ### Halt (R331) -/

theorem Group.halt_running {g : Group} (hp : g.parked = false) (hh : g.handler = none) (hs : g.status = .run) :
    g.halt = { g with halted := true, wait := SWait.atHalt g.wait } := by
  simp [Group.halt, hp, hh, Group.holdStop, hs]

theorem mem_mapIf {α : Type} {l : List α} {p : α → Bool} {f : α → α} {x : α} (hx : x ∈ l) :
    (p x = true → f x ∈ mapIf l p f) ∧ (p x = false → x ∈ mapIf l p f) := by
  refine ⟨fun hp => List.mem_map.mpr ⟨x, hx, ?_⟩, fun hp => List.mem_map.mpr ⟨x, hx, ?_⟩⟩
  · rw [if_pos hp]
  · rw [if_neg (by simp [hp])]

/-- A group after a change of the groups of which a test holds. -/
theorem State.mem_mapGroups {s : State} {p : Group → Bool} {f : Group → Group} {g : Group} (hg : g ∈ s.groups) :
    (p g = true → f g ∈ (s.mapGroups p f).groups) ∧ (p g = false → g ∈ (s.mapGroups p f).groups) :=
  mem_mapIf (p := p) (f := f) hg

theorem State.ofCtx_iff (s : State) (ctx : Nat) (g : Group) :
    s.ofCtx ctx g = true ↔ (s.gridOf g).ctx = ctx ∧ g.status ≠ .exited := by simp [State.ofCtx]

theorem State.groups_cancelMove (s : State) (ctx : Nat) :
    (s.cancelMove ctx).groups = s.groups ∧ (s.cancelMove ctx).mem = s.mem := by
  have hwith : s.withdrawMove.groups = s.groups ∧ s.withdrawMove.mem = s.mem := by
    unfold State.withdrawMove
    split <;> exact ⟨rfl, rfl⟩
  unfold State.cancelMove
  dsimp only
  split
  · exact hwith
  · exact ⟨rfl, rfl⟩

/-- The statement's account of a halt. -/
def State.HaltsTo (s : State) (c : Ctx) (t : State) : Prop :=
  t.ctx? c.id = some { c with st := .halting, parkedHalt := false, strike0 := s.time } ∧ SameMem s t ∧
    (∀ g ∈ s.groups, ¬ ((s.gridOf g).ctx = c.id ∧ g.status ≠ .exited) → g ∈ t.groups) ∧
    (∀ g ∈ s.groups, ((s.gridOf g).ctx = c.id ∧ g.status ≠ .exited) → g.parked = false → g.handler = none → g.status = .run →
      ({ g with halted := true, wait := SWait.atHalt g.wait } : Group) ∈ t.groups)

theorem State.haltCtx_halts {s : State} {c : Ctx} (h0 : c.id ≠ 0) (hc : s.ctx? c.id = some c) (hst : c.st = .run ∨ c.st = .asked) :
    s.HaltsTo c (s.haltCtx c.id) := by
  have hcond : (c.st == .run || c.st == .asked) = true := by rcases hst with h | h <;> simp [h]
  have hctxs : (s.cancelMove c.id).ctx? c.id = some c := by
    rw [State.ctx?, (Prod.mk.inj (State.ledger_cancelMove s c.id)).1]; exact hc
  obtain ⟨hgroups, hmem⟩ := State.groups_cancelMove s c.id
  have hin := fun {g : Group} (hg : g ∈ s.groups) =>
    State.mem_mapGroups (p := s.ofCtx c.id) (f := Group.halt) (hgroups.symm ▸ hg)
  unfold State.HaltsTo State.haltCtx
  rw [State.realCtx?_of h0 hc]
  dsimp only
  rw [if_pos hcond]
  refine ⟨State.ctx?_mapCtx hctxs fun _ => rfl, fun pa => congrArg (Cells.get · pa) hmem, fun g hg hn => ?_, fun g hg hm hp hh hs => ?_⟩
  · exact (hin hg).2 (by rw [← Bool.not_eq_true, State.ofCtx_iff]; exact hn)
  · rw [← Group.halt_running hp hh hs]
    exact (hin hg).1 ((State.ofCtx_iff s c.id g).mpr hm)

/-! ### Drain and resume (R332, R333) -/

theorem contextHalted_of_drained {s : State} {c : Ctx} (h0 : c.id ≠ 0) (hc : s.ctx? c.id = some c) (hst : c.st = .halting)
    (hd : s.ctxDrained c.id = true) : ChangesCtx s (.contextHalted c.id) c.id { c with st := .halted } := by
  refine ChangesCtx.of_mapCtx (f := fun c => { c with st := .halted }) hc (fun _ => rfl) ?_
  show Host.Outcome.next (s.haltedCtx c.id) = _
  rw [State.haltedCtx, State.realCtx?_of h0 hc]
  simp [hst, hd]

/-- A copy that a RESUME starts again. -/
def Copy.resumes (ctx : Nat) (c : Copy) : Bool := c.ctx == ctx && c.resume && c.st == CopyState.suspended

theorem State.resumeCtx_runs {s : State} {c : Ctx} (h0 : c.id ≠ 0) (hc : s.ctx? c.id = some c) (hst : c.st = .asked ∨ c.st = .halted)
    (hch : c.challenge = none) (hb : s.dev.biv = .awake) :
    s.resumeCtx c.id = ({ s with copies := mapIf s.copies (Copy.resumes c.id) fun c =>
        { c with st := .running, resume := false } }.mapGroups (s.ofCtx c.id) fun g =>
      { g with parked := false, halted := false }).mapCtx c.id fun c => { c with st := .run, parkedHalt := false } := by
  have hcond : ((c.st == .asked || c.st == .halted) && c.challenge.isNone && s.dev.biv == .awake) = true := by
    rcases hst with h | h <;> simp [h, hch, hb]
  rw [State.resumeCtx, State.realCtx?_of h0 hc]
  dsimp only
  rw [if_pos hcond]
  rfl

/-! ### Strike (R334) -/

/-- Where the context owns no ACTIVE tag, a strike kills none. -/
theorem State.killTags_none {s : State} {ctx : Nat}
    (h : ∀ core tag, core < 192 → tag < 16 → (s.tag core tag).st = .active → (s.tag core tag).ctx.toNat ≠ ctx) :
    s.killTags ctx = s := by
  have hstep : ∀ k ∈ List.range 3072, ((s.tag (k / 16) (k % 16)).st == TagState.active &&
      (s.tag (k / 16) (k % 16)).ctx.toNat == ctx) = false := by
    intro k hk
    have hlt : k < 3072 := List.mem_range.mp hk
    rw [Bool.eq_false_iff]
    intro hif
    simp only [Bool.and_eq_true, beq_iff_eq] at hif
    exact h (k / 16) (k % 16) (by omega) (by omega) hif.1 hif.2
  unfold State.killTags
  generalize List.range 3072 = l at hstep
  induction l with
  | nil => rfl
  | cons k l ih =>
    rw [List.foldl_cons]
    dsimp only
    rw [if_neg (by rw [hstep k (by simp)]; simp)]
    exact ih fun k hk => hstep k (by simp [hk])

/-- The statement's account of a strike. -/
def State.StruckTo (ctx : Nat) (t : State) : Prop := t.Struck ctx ∧ ∀ y ∈ t.copies, y.ctx ≠ ctx

theorem State.cores_cancelMove (s : State) (ctx : Nat) : (s.cancelMove ctx).cores = s.cores := by
  have hwith : s.withdrawMove.cores = s.cores := by
    unfold State.withdrawMove
    split <;> rfl
  unfold State.cancelMove
  dsimp only
  split
  · exact hwith
  · rfl

/-- The work of a context ends: its copies leave, its grids end, its teams free and its grids retire (R334). -/
def State.endWork (s : State) (ctx : Nat) : State :=
  let s := (s.copies.filter fun x => x.ctx == ctx).foldl State.endCopy s
  let s := ((s.grids.filter fun g => g.ctx == ctx).map Grid.id).foldl (fun s g => s.endOne g ⟨1, 0x18, 0, 0, 0⟩) s
  let s := (s.ctxTeams ctx).foldl State.freeTeam s
  State.retireCtx ctx s.grids.length s

theorem State.strikeCtx_eq {s : State} {c : Ctx} (h0 : c.id ≠ 0) (hc : s.ctx? c.id = some c) (hst : c.st ≠ .empty) :
    s.strikeCtx c.id = (((((s.cancelMove c.id).killTags c.id).flushCtx c.id c.world).endWork c.id).mapCtx c.id fun c =>
      { c with st := .empty, replays := [], struck := true }).mail 0 c.id 3 [] := by
  rw [State.strikeCtx, State.realCtx?_of h0 hc]
  dsimp only
  rw [if_neg (by simpa using hst)]
  rfl

/-- What is left when a context's work has ended: every context, and the copies of the others. -/
theorem State.owners_endWork (s : State) (ctx : Nat) :
    (s.endWork ctx).owners.1 = s.owners.1 ∧ ∀ i ∈ (s.endWork ctx).owners.2, i ≠ ctx := by
  have hcopies := State.foldl_endCopy (s.copies.filter fun x => x.ctx == ctx) s
  have hown : (s.endWork ctx).owners = ((s.copies.filter fun x => x.ctx == ctx).foldl State.endCopy s).owners := by
    unfold State.endWork
    dsimp only
    refine (State.owners_retireCtx _ _ _).trans ?_
    refine (foldl_owners (fun s t => State.owners_of_ledger (State.ledger_freeTeam s t)) _ _).trans ?_
    exact foldl_owners (fun s g => State.owners_endOne s g _) _ _
  rw [hown]
  refine ⟨congrArg (List.map Ctx.id) hcopies.1, fun i hi => ?_⟩
  obtain ⟨y, hy, rfl⟩ := List.mem_map.mp hi
  obtain ⟨hin, hids⟩ := hcopies.2 y hy
  exact fun hctx => hids y (List.mem_filter.mpr ⟨hin, by simp [hctx]⟩) rfl

theorem State.ctx?_of_owners {s : State} {i : Nat} (h : i ∈ s.owners.1) : ∃ x, s.ctx? i = some x := by
  obtain ⟨x, hx, hid⟩ := List.mem_map.mp h
  exact Option.isSome_iff_exists.mp (List.find?_isSome.mpr ⟨x, hx, by simp [hid]⟩)

/-- A context whose work has ended is struck, and told so. -/
theorem State.mail_strikes {u : State} {i : Nat} (hx : ∃ x, u.ctx? i = some x) (hcopies : ∀ k ∈ u.owners.2, k ≠ i) :
    State.StruckTo i ((u.mapCtx i fun c => { c with st := .empty, replays := [], struck := true }).mail 0 i 3 []) := by
  obtain ⟨x, hx⟩ := hx
  have hset : (u.mapCtx i fun c => { c with st := .empty, replays := [], struck := true }).Struck i :=
    ⟨_, State.ctx?_mapCtx hx fun _ => rfl, rfl, rfl, rfl⟩
  obtain ⟨hmailed, hstruck⟩ := State.mail_struck 0 3 [] hset
  refine ⟨hstruck, fun y hy => hcopies _ (List.mem_map_of_mem ?_)⟩
  rw [hmailed] at hy
  exact hy

theorem State.strikeCtx_strikes {s : State} {c : Ctx} (h0 : c.id ≠ 0) (hc : s.ctx? c.id = some c) (hst : c.st ≠ .empty)
    (ht : ∀ core tag, core < 192 → tag < 16 → (s.tag core tag).st = .active → (s.tag core tag).ctx.toNat ≠ c.id) :
    State.StruckTo c.id (s.strikeCtx c.id) := by
  have htags (core tag : Nat) : (s.cancelMove c.id).tag core tag = s.tag core tag := by
    rw [State.tag, State.core, State.cores_cancelMove]; rfl
  have hkill : (s.cancelMove c.id).killTags c.id = s.cancelMove c.id :=
    State.killTags_none fun core tag hcore htag => by rw [htags]; exact ht core tag hcore htag
  have hledger := (State.ledger_flushCtx (s.cancelMove c.id) c.id c.world).trans (State.ledger_cancelMove s c.id)
  have hwork := State.owners_endWork ((s.cancelMove c.id).flushCtx c.id c.world) c.id
  rw [State.owners_of_ledger hledger] at hwork
  rw [State.strikeCtx_eq h0 hc hst, hkill]
  generalize ((s.cancelMove c.id).flushCtx c.id c.world).endWork c.id = u at hwork ⊢
  obtain ⟨hids, hcopies⟩ := hwork
  have hhere : c.id ∈ u.owners.1 := hids ▸ List.mem_map_of_mem (List.mem_of_find?_eq_some hc)
  exact State.mail_strikes (State.ctx?_of_owners hhere) hcopies

/-! ### The timers (R329) -/

theorem exec_graceExpiry {s : State} {c : Ctx} (h0 : c.id ≠ 0) (hc : s.ctx? c.id = some c) (hst : c.st = .asked)
    (ht : c.grace0 + timerTicks c.pgrace ≤ s.time) : exec (.graceExpiry c.id) s = .next (s.haltCtx c.id) := by
  show execGraceExpiry c.id s = _
  rw [execGraceExpiry, State.realCtx?_of h0 hc]
  simp [hst, ht]

theorem exec_strikeExpiry {s : State} {c : Ctx} (h0 : c.id ≠ 0) (hc : s.ctx? c.id = some c) (hst : c.st = .halting)
    (ht : c.strike0 + timerTicks c.pstrike ≤ s.time) : exec (.strikeExpiry c.id) s = .next (s.strikeCtx c.id) := by
  show execStrikeExpiry c.id s = _
  rw [execStrikeExpiry, State.realCtx?_of h0 hc]
  simp [hst, ht]

/-- Settles O43. -/
theorem ladderMovesTheContext : Obligations.LadderMovesTheContext := by
  intro s c h0 hc mine toPark halts struck untagged
  refine ⟨fun hst => ⟨ask_waits h0 hc hst, ask_halts h0 hc hst⟩, fun hst => ⟨_, rfl, State.haltCtx_halts h0 hc hst⟩,
    fun hst ht => ⟨_, exec_graceExpiry h0 hc hst ht, State.haltCtx_halts h0 hc (.inr hst)⟩,
    contextHalted_of_drained h0 hc, fun hst hch hb => ?_, fun hst ht => ⟨_, rfl, State.strikeCtx_strikes h0 hc hst ht⟩,
    fun hst ht htime => ⟨_, exec_strikeExpiry h0 hc hst htime, State.strikeCtx_strikes h0 hc (by simp [hst]) ht⟩⟩
  refine ⟨s.resumeCtx c.id, rfl, ?_⟩
  rw [State.resumeCtx_runs h0 hc hst hch hb]
  refine ⟨State.ctx?_mapCtx (f := fun c => { c with st := .run, parkedHalt := false }) hc fun _ => rfl, rfl, fun g hg => ?_,
    fun x hx => ?_⟩
  · have hin := State.mem_mapGroups (p := s.ofCtx c.id) (f := fun g => { g with parked := false, halted := false }) hg
    split
    · next hm => exact hin.1 ((State.ofCtx_iff s c.id g).mpr hm)
    · next hm => exact hin.2 (by rw [← Bool.not_eq_true, State.ofCtx_iff]; exact hm)
  · have hin := mem_mapIf (p := Copy.resumes c.id) (f := fun c => { c with st := .running, resume := false }) hx
    split
    · next hm => exact hin.1 (by simpa [Copy.resumes, and_assoc] using hm)
    · next hm => exact hin.2 (by rw [← Bool.not_eq_true]; simpa [Copy.resumes, and_assoc] using hm)

end Sys2Proof.Machine
end


section
/-! SUPPORT. Thermal moves: the request, its withdrawal, and what each of the two steps of a move leaves. -/

namespace Sys2Proof.Machine

/-! ### The request (R345) -/

theorem State.withdrawMove_idle {s : State} (h : s.dev.tmig ≠ .pending) : s.withdrawMove = s := by
  rw [State.withdrawMove, if_neg]
  simp [h]

theorem State.withdrawMove_pending {s : State} (hp : s.dev.tmig = .pending) (hc : s.dev.tcarried = false) :
    s.withdrawMove = { s with dev := { s.dev with tmig := .cancelled } }.mapTeam s.dev.tteam fun t => { t with moving := false } := by
  rw [State.withdrawMove, if_pos]
  simp [State.carried, hp, hc]

/-- The device with the places of a request, as a write of TMIG leaves it. -/
def State.requested (s : State) (v : Word) : State :=
  { s with dev := { s.dev with tdst := v.extractLsb' 40 8, tsrc := v.extractLsb' 32 8, tslot := v.extractLsb' 0 7 } }

theorem extract_or_go (v : Word) {a n : Nat} (h : a + n ≤ 63) : (v ||| 1#64 <<< 63).extractLsb' a n = v.extractLsb' a n := by
  apply BitVec.eq_of_getLsbD_eq
  intro i hi
  have hlow : a + i < 63 := by omega
  simp only [BitVec.getLsbD_extractLsb', BitVec.getLsbD_or, BitVec.getLsbD_shiftLeft, hlow, decide_true, Bool.not_true,
    Bool.and_false, Bool.false_and, Bool.or_false]

theorem exec_tmigGo {s : State} (v : Word) (h : s.dev.tmig ≠ .pending) : exec (.tmigGo v) s = .next (s.requested v).tmigSubmit := by
  have hgo : (v ||| 1#64 <<< 63).getLsbD 63 = true := by simp
  have hidle : (s.requested v).withdrawMove = s.requested v := State.withdrawMove_idle h
  have hbusy : (s.dev.tmig == .pending) = false := by simpa using h
  have hwrite : s.writeTmig (v ||| 1#64 <<< 63) = (s.requested v).tmigSubmit := by
    unfold State.writeTmig
    rw [hgo, extract_or_go v (by decide), extract_or_go v (by decide), extract_or_go v (by decide), hbusy]
    show (if (v ||| 1#64 <<< 63).getLsbD 62 = true then (s.requested v).withdrawMove else s.requested v).tmigSubmit = _
    rw [hidle, ite_self]
  exact congrArg Host.Outcome.next hwrite

theorem exec_tmigGo_ignored {s : State} (v : Word) (h : s.dev.tmig = .pending) : exec (.tmigGo v) s = .next s := by
  have hgo : (v ||| 1#64 <<< 63).getLsbD 63 = true := by simp
  show Host.Outcome.next (s.writeTmig (v ||| 1#64 <<< 63)) = _
  rw [State.writeTmig, hgo, h]
  rfl

/-! ### What the steps of a move leave alone (R346) -/

/-- What a group takes with it: its streams, queues, flags, counters and level. -/
def Group.luggage (g : Group) :=
  (g.uid, g.s, g.l, g.dq, g.rq, g.flags, g.tokens, g.level)

/-- The device, the memory, the teams, the scratchpads, and what the groups take with them. -/
def State.luggage (s : State) := (s.dev, s.mem, s.teams, s.sp, s.groups.map Group.luggage)

theorem foldl_luggage {α : Type} {f : State → α → State} (hf : ∀ s a, (f s a).luggage = s.luggage) (l : List α) (s : State) :
    (l.foldl f s).luggage = s.luggage := by
  induction l generalizing s with
  | nil => rfl
  | cons a l ih => exact (ih _).trans (hf s a)

theorem State.luggage_mapGroup (s : State) (uid : Nat) {f : Group → Group} (hf : ∀ g, (f g).luggage = g.luggage) :
    (s.mapGroup uid f).luggage = s.luggage := by
  have hgroups : (s.mapGroup uid f).groups.map Group.luggage = s.groups.map Group.luggage := by
    show (mapIf s.groups (fun g => g.uid == uid) f).map Group.luggage = _
    unfold mapIf
    rw [List.map_map]
    refine List.map_congr_left fun g _ => ?_
    dsimp only [Function.comp]
    split
    · exact hf g
    · rfl
  exact Prod.ext rfl (Prod.ext rfl (Prod.ext rfl (Prod.ext rfl hgroups)))

theorem State.luggage_mapCtx (s : State) (id : Nat) (f : Ctx → Ctx) : (s.mapCtx id f).luggage = s.luggage := rfl

theorem State.luggage_carryGroups (s : State) (t : Team) (core : Nat) : (s.carryGroups t core).luggage = s.luggage := by
  refine foldl_luggage (fun s x => ?_) _ _
  split
  · rfl
  · next g _ =>
    dsimp only
    refine Eq.trans (State.luggage_mapCtx _ _ _) (State.luggage_mapGroup s g.uid ?_)
    exact fun _ => rfl

theorem State.luggage_carrySteps (s : State) (t : Team) (core : Nat) : (s.carrySteps t core).luggage = s.luggage :=
  foldl_luggage (f := fun s (x : Nat × Nat × StepView) =>
    let e := look (s.core t.core).steps x.1 .free
    (s.mapStep core x.1 fun _ => e).mapStep t.core x.1 fun e => { e with st := .free, old := { e.old with st := .free } })
    (fun _ _ => rfl) _ _

theorem State.luggage_carryCopies (s : State) (t : Team) (core base : Nat) : (s.carryCopies t core base).luggage = s.luggage := rfl

theorem State.luggage_carryTag (s : State) (src dst i : Nat) : (s.carryTag src dst i).luggage = s.luggage := rfl

/-! ### The first step -/

/-- The device that the window is carried on. -/
def State.carried1 (s : State) (t : Team) : State :=
  ((s.carryGroups t s.dev.tcore).carrySteps t s.dev.tcore).carryCopies t s.dev.tcore s.dev.tbase

theorem State.luggage_carried1 (s : State) (t : Team) : (s.carried1 t).luggage = s.luggage :=
  (State.luggage_carryCopies _ _ _ _).trans ((State.luggage_carrySteps _ _ _).trans (State.luggage_carryGroups _ _ _))

/-- The window's bytes on the target core, and zero on the core it leaves. -/
theorem State.carryWindow_sp {s : State} {t : Team} {core base i : Nat} (hwf : s.sp.wf = true) (hne : t.core ≠ core)
    (hsrc : t.base + t.units ≤ 48) (hdst : base + t.units ≤ 48) (hi : i < t.units * 8192) :
    (s.carryWindow t core base).sp.get (core * 2 ^ 19 + base * 8192 + i) = s.sp.get (t.core * 2 ^ 19 + t.base * 8192 + i) ∧
      (s.carryWindow t core base).sp.get (t.core * 2 ^ 19 + t.base * 8192 + i) = 0 := by
  have hsp : (s.carryWindow t core base).sp = ((s.clearWindow t.core t.base t.units).clearWindow core base t.units).sp.write
      (core * 2 ^ 19 + base * 8192) (s.sp.read (t.core * 2 ^ 19 + t.base * 8192) (t.units * 8192)) := rfl
  have hcleared : ((s.clearWindow t.core t.base t.units).clearWindow core base t.units).sp.wf = true :=
    Cells.clear_wf _ _ (Cells.clear_wf _ _ hwf)
  rw [hsp, Cells.read_eq]
  constructor
  · rw [Cells.get_write_in _ _ _ (by simpa using hi) hcleared]
    simp
  · have hout : t.core * 2 ^ 19 + t.base * 8192 + i < core * 2 ^ 19 + base * 8192 ∨
        core * 2 ^ 19 + base * 8192 + t.units * 8192 ≤ t.core * 2 ^ 19 + t.base * 8192 + i := by
      rcases Nat.lt_or_gt_of_ne hne with h | h <;> omega
    rw [Cells.get_write_out _ _ _ _ (by simpa using hout), State.clearWindow_sp, if_neg (by omega), State.clearWindow_sp,
      if_pos (by omega)]

/-- The device before the team's record names the target. -/
def State.carried2 (s : State) (t : Team) : State :=
  t.tagList.foldl (fun u i => u.carryTag t.core s.dev.tcore i) ((s.carried1 t).carryWindow t s.dev.tcore s.dev.tbase)

/-- The record of a carried team, and the mark of the request. -/
def State.carryRecord (u : State) (d : Dev) (t : Team) : State :=
  { u.mapTeam t.id fun t => { t with core := d.tcore, base := d.tbase, bars := u.dev.tbars } with
    dev := { u.dev with tcarried := true } }

theorem State.carryTeam_eq (s : State) (t : Team) : s.carryTeam t = (s.carried2 t).carryRecord s.dev t := by
  unfold State.carryTeam
  dsimp only
  change State.carryRecord (s.carried2 t) s.dev t = _
  rfl

theorem State.carryWindow_keeps (s : State) (t : Team) (core base : Nat) :
    (s.carryWindow t core base).dev = s.dev ∧ (s.carryWindow t core base).mem = s.mem ∧ (s.carryWindow t core base).teams = s.teams ∧
      (s.carryWindow t core base).groups = s.groups := ⟨rfl, rfl, rfl, rfl⟩

/-- What is carried leaves the device, the memory, the teams and the groups' luggage. -/
theorem State.carried2_keeps (s : State) (t : Team) :
    (s.carried2 t).dev = s.dev ∧ (s.carried2 t).mem = s.mem ∧ (s.carried2 t).teams = s.teams ∧
      (s.carried2 t).groups.map Group.luggage = s.groups.map Group.luggage := by
  have htags := foldl_luggage (fun u i => State.luggage_carryTag u t.core s.dev.tcore i) t.tagList
    ((s.carried1 t).carryWindow t s.dev.tcore s.dev.tbase)
  obtain ⟨hdev, hrest⟩ := Prod.mk.inj htags
  obtain ⟨hmem, hrest⟩ := Prod.mk.inj hrest
  obtain ⟨hteams, hrest⟩ := Prod.mk.inj hrest
  obtain ⟨-, hgroups⟩ := Prod.mk.inj hrest
  obtain ⟨hdev1, hrest⟩ := Prod.mk.inj (s.luggage_carried1 t)
  obtain ⟨hmem1, hrest⟩ := Prod.mk.inj hrest
  obtain ⟨hteams1, hrest⟩ := Prod.mk.inj hrest
  obtain ⟨-, hgroups1⟩ := Prod.mk.inj hrest
  obtain ⟨hdev', hmem', hteams', hgroups'⟩ := (s.carried1 t).carryWindow_keeps t s.dev.tcore s.dev.tbase
  exact ⟨hdev.trans (hdev'.trans hdev1), hmem.trans (hmem'.trans hmem1), hteams.trans (hteams'.trans hteams1),
    hgroups.trans ((congrArg (List.map Group.luggage) hgroups').trans hgroups1)⟩

theorem State.carried2_sp (s : State) (t : Team) :
    (s.carried2 t).sp = ((s.carried1 t).carryWindow t s.dev.tcore s.dev.tbase).sp ∧ (s.carried1 t).sp = s.sp := by
  have htags := foldl_luggage (fun u i => State.luggage_carryTag u t.core s.dev.tcore i) t.tagList
    ((s.carried1 t).carryWindow t s.dev.tcore s.dev.tbase)
  exact ⟨congrArg (fun x => x.2.2.2.1) htags, congrArg (fun x => x.2.2.2.1) (s.luggage_carried1 t)⟩

/-- Each group is found again with its luggage. -/
theorem mem_of_luggage {l m : List Group} (h : m.map Group.luggage = l.map Group.luggage) {g : Group} (hg : g ∈ l) :
    ∃ x ∈ m, x.uid = g.uid ∧ x.s = g.s ∧ x.l = g.l ∧ x.dq = g.dq ∧ x.rq = g.rq ∧ x.flags = g.flags ∧ x.tokens = g.tokens ∧
      x.level = g.level := by
  obtain ⟨x, hx, hxg⟩ := List.mem_map.mp (h ▸ List.mem_map_of_mem hg)
  simp only [Group.luggage, Prod.mk.injEq] at hxg
  exact ⟨x, hx, hxg⟩

theorem exec_thermalMove_carries {s : State} {tm : Team} (hp : s.dev.tmig = .pending) (htm : s.team? s.dev.tteam = some tm)
    (hm : tm.moving = true) (hc : s.dev.tcarried = false) (hd : s.moveDrained tm = true) :
    exec .thermalMove s = .next (s.carryTeam tm) := by
  show execThermalMove s = _
  rw [execThermalMove, htm]
  simp [hp, hm, hd, State.carried, hc]

/-! ### The second step -/

theorem exec_thermalMove_resumes {s : State} {tm : Team} (hp : s.dev.tmig = .pending) (htm : s.team? s.dev.tteam = some tm)
    (hm : tm.moving = true) (hc : s.dev.tcarried = true) : exec .thermalMove s = .next (s.resumeTeam tm) := by
  show execThermalMove s = _
  rw [execThermalMove, htm]
  simp [hp, hm, State.carried, hc]

/-- A group at a boundary keeps its streams. -/
theorem Group.holdStop_streams (g : Group) : g.holdStop.uid = g.uid ∧ g.holdStop.s = g.s ∧ g.holdStop.l = g.l := by
  have hadd (x : Group) (st : Stop) : (x.addStop st).uid = x.uid ∧ (x.addStop st).s = x.s ∧ (x.addStop st).l = x.l := by
    unfold Group.addStop
    split <;> exact ⟨rfl, rfl, rfl⟩
  unfold Group.holdStop
  split
  · exact hadd _ _
  · exact hadd _ _
  · exact ⟨rfl, rfl, rfl⟩

/-- Where no move is PENDING, a check of an ask changes contexts alone. -/
theorem State.checkParked_idle {s : State} (ctx : Nat) (h : s.dev.tmig ≠ .pending) :
    s.checkParked ctx = { s with ctxs := (s.checkParked ctx).ctxs } := by
  have hcancel : s.cancelMove ctx = s := by
    unfold State.cancelMove
    rw [State.withdrawMove_idle h, ite_self]
  unfold State.checkParked
  split
  · rfl
  · rw [hcancel]
    dsimp only
    split <;> rfl

/-- Groups that park, and the check that follows. -/
theorem State.parked_idle (s : State) (p : Group → Bool) (ctx : Nat) (h : s.dev.tmig ≠ .pending) :
    let u := (s.mapGroups p fun g => { g.holdStop with parked := true }).checkParked ctx
    u.dev = s.dev ∧ u.mem = s.mem ∧ u.sp = s.sp ∧ u.teams = s.teams ∧
      ∀ g ∈ s.groups, ∃ x ∈ u.groups, x.uid = g.uid ∧ x.s = g.s ∧ x.l = g.l := by
  rw [State.checkParked_idle (s := s.mapGroups p fun g => { g.holdStop with parked := true }) ctx h]
  refine ⟨rfl, rfl, rfl, rfl, fun g hg => ?_⟩
  obtain ⟨hparks, hstays⟩ := State.mem_mapGroups (p := p) (f := fun g => { g.holdStop with parked := true }) hg
  cases hp : p g with
  | true => exact ⟨_, hparks hp, g.holdStop_streams⟩
  | false => exact ⟨_, hstays hp, rfl, rfl, rfl⟩

/-- Where no move is PENDING, a boundary changes contexts and groups, and no stream. -/
theorem State.boundary_idle {s : State} (team : Nat) (ranks : List Nat) (h : s.dev.tmig ≠ .pending) :
    (s.boundary team ranks).dev = s.dev ∧ (s.boundary team ranks).mem = s.mem ∧ (s.boundary team ranks).sp = s.sp ∧
      (s.boundary team ranks).teams = s.teams ∧
      ∀ g ∈ s.groups, ∃ x ∈ (s.boundary team ranks).groups, x.uid = g.uid ∧ x.s = g.s ∧ x.l = g.l := by
  have hstand : ∀ g ∈ s.groups, ∃ x ∈ s.groups, x.uid = g.uid ∧ x.s = g.s ∧ x.l = g.l := fun g hg => ⟨g, hg, rfl, rfl, rfl⟩
  unfold State.boundary
  dsimp only
  split
  · exact ⟨rfl, rfl, rfl, rfl, hstand⟩
  · split
    · obtain ⟨hdev, hmem, hsp, hteams, hgroups⟩ := State.parked_idle s _ _ h
      exact ⟨hdev, hmem, hsp, hteams, hgroups⟩
    · exact ⟨rfl, rfl, rfl, rfl, hstand⟩

/-- Settles O45. -/
theorem thermalMovesCarryTheTeam : Obligations.ThermalMovesCarryTheTeam := by
  intro s
  refine ⟨fun v hn => ⟨fun hcheck => ?_, fun tm gs base bars hcheck => ?_⟩, fun v hp => exec_tmigGo_ignored v hp,
    fun hp hc => congrArg Host.Outcome.next (State.withdrawMove_pending hp hc), fun tm hp htm hm => ?_⟩
  · have hnone : (s.requested v).moveCheck (s.requested v).dev.tsrc.toNat (s.requested v).dev.tslot.toNat
      (s.requested v).dev.tdst.toNat = none := hcheck
    rw [exec_tmigGo v hn, State.tmigSubmit, hnone]
    rfl
  · have hsome : (s.requested v).moveCheck (s.requested v).dev.tsrc.toNat (s.requested v).dev.tslot.toNat
      (s.requested v).dev.tdst.toNat = some (tm, gs, base, bars) := hcheck
    rw [exec_tmigGo v hn, State.tmigSubmit, hsome]
    rfl
  · have hid : tm.id = s.dev.tteam := by simpa using List.find?_some htm
    have htm' : s.team? tm.id = some tm := hid ▸ htm
    refine ⟨fun hc hd hcore htcore hne hsrc hdst hwf => ?_, fun hc => ?_⟩
    · obtain ⟨hdev, hmem, hteams, hgroups⟩ := s.carried2_keeps tm
      obtain ⟨hsp, hsp1⟩ := s.carried2_sp tm
      refine ⟨_, exec_thermalMove_carries hp htm hm hc hd, ?_⟩
      rw [State.carryTeam_eq]
      refine ⟨congrArg (fun d : Dev => { d with tcarried := true }) hdev, hmem, ?_, fun i hi => ?_, fun g hg => mem_of_luggage hgroups hg⟩
      · have hfound : (s.carried2 tm).team? tm.id = some tm := by rw [State.team?, hteams]; exact htm'
        have hset := State.team?_mapTeam_some hfound (fun t => { t with
          core := s.dev.tcore, base := s.dev.tbase, bars := (s.carried2 tm).dev.tbars }) fun _ => rfl
        exact hset.trans (congrArg (fun d : Dev =>
          some { tm with core := s.dev.tcore, base := s.dev.tbase, bars := d.tbars }) hdev)
      · have hwindow := State.carryWindow_sp (s := s.carried1 tm) (hsp1 ▸ hwf) hne hsrc hdst hi
        rw [hsp1, ← hsp] at hwindow
        exact hwindow
    · generalize hu : ({ s.mapTeam tm.id fun t => { t with moving := false } with dev := { s.dev with tmig := .done } } : State) = u
      have hidle : u.dev.tmig ≠ .pending := by subst hu; simp
      obtain ⟨hdev, hmem, hsp, hteams, hgroups⟩ := State.boundary_idle tm.id (u.liveRanks tm) hidle
      have hrun := exec_thermalMove_resumes hp htm hm hc
      have hres : s.resumeTeam tm = u.boundary tm.id (u.liveRanks tm) := by subst hu; rfl
      rw [hres] at hrun
      refine ⟨_, hrun, hdev.trans (by subst hu; rfl), hmem.trans (by subst hu; rfl), hsp.trans (by subst hu; rfl), ?_, fun g hg => ?_⟩
      · rw [State.team?, hteams]
        subst hu
        exact State.team?_mapTeam_some htm' (fun t => { t with moving := false }) fun _ => rfl
      · subst hu
        exact hgroups g hg

end Sys2Proof.Machine
end


section
/-! SUPPORT. The copy engine: what CPY registers, and what a begun command, an element and an end leave. -/

namespace Sys2Proof.Machine

/-! ### A counter whose counts stand -/

/-- Counts that have not completed stand. -/
theorem dropDone_open {l : List Token} (c : Counter) (h : ∀ x ∈ l, x.done = false) : dropDone c l = l := by
  induction l with
  | nil => rfl
  | cons t ts ih =>
    rw [dropDone, h t (by simp), ih fun x hx => h x (by simp [hx])]
    simp

/-- A completed count at the oldest end of its class falls, and nothing else does. -/
theorem dropDone_done {t : Token} {l : List Token} (ht : t.done = true) (h : ∀ x ∈ l, x.done = false) : dropDone t.cls (t :: l) = l := by
  rw [dropDone, ht, dropDone_open t.cls h]
  simp

/-- The counts of other classes pass it by. -/
theorem dropDone_other {t : Token} {l : List Token} {c : Counter} (hc : t.cls ≠ c) (h : ∀ x ∈ l, x.done = false) :
    dropDone c (t :: l) = t :: l := by
  rw [dropDone, dropDone_open c h]
  simp [hc]

/-- The end of the group's oldest command of the copy engine lets its count fall (R197, R266). -/
theorem Group.complete_oldest {g : Group} {id : Nat} {rest : List Token} (hg : g.tokens = ⟨.cp, id, false⟩ :: rest)
    (hopen : ∀ x ∈ rest, x.done = false) (hother : ∀ x ∈ rest, x.id = id → x.cls ≠ .cp ∧ x.cls ≠ .mx) :
    g.complete true id = { g with tokens := rest } := by
  have hrest : mapIf rest (Token.isFor true id) (fun t => { t with done := true }) = rest := by
    refine (List.map_congr_left fun x hx => ?_).trans (List.map_id' rest)
    rw [if_neg]
    intro hfor
    simp only [Token.isFor, Bool.and_eq_true, beq_iff_eq] at hfor
    obtain ⟨hcp, hmx⟩ := hother x hx hfor.1
    revert hfor
    cases hcls : x.cls <;> simp_all [ofCommands]
  have hmark : mapIf g.tokens (Token.isFor true id) (fun t => { t with done := true }) = ⟨.cp, id, true⟩ :: rest := by
    rw [hg]
    show (if Token.isFor true id ⟨.cp, id, false⟩ = true then (⟨.cp, id, true⟩ : Token) else ⟨.cp, id, false⟩) ::
      mapIf rest (Token.isFor true id) (fun t => { t with done := true }) = _
    rw [hrest, if_pos (by simp [Token.isFor, ofCommands])]
  unfold Group.complete Group.fallCounters
  simp only [hmark]
  rw [dropDone_other (by simp) hopen, dropDone_other (by simp) hopen, dropDone_done (t := ⟨.cp, id, true⟩) rfl hopen,
    dropDone_open _ hopen, dropDone_open _ hopen]

/-! ### CPY at issue (R255, R261, R262) -/

/-- The command that CPY registers in a state. -/
def State.newCopy (u : State) (dir : CopyDir) (tag k : Nat) (src dst : Word) (t : TensorRec) : Copy :=
  ⟨u.nextId, u.coreOf u.cur, (u.ctxOf u.cur).id, u.cur.uid, u.cur.team, u.cur.level, t, src, dst, dir, k, tag, u.cur.s.pc, 0,
    u.cur.handler.isSome, u.cur.seq, u.cur.sAfter, .registered, false, 0, 0⟩

/-- A CPY whose record and sides pass its checks, with room for its count and locks, registers its command and goes on. -/
theorem exec_cpy_ready {s u : State} {dir : CopyDir} {d a b : SReg} {k tag : BitVec 4} {raw : List Byte}
    (hr : SReady s .user [d, a, b] false) (h1 : (s.ctxOf s.cur).st ≠ .halting) (h2 : (s.ctxOf s.cur).st ≠ .halted)
    (hread : s.readTensor (s.sget b) = (.inr raw, u))
    (herr : u.copyErr dir tag.toNat k.toNat (s.sget b) (s.sget a) (s.sget d) (tensorOf raw) raw = none)
    (hcount : s.cur.count .cp < 255) (hroom : s.lockRoom 2 = true) :
    exec (.cpy dir d a b k tag) s =
      .next ((u.registerCopy dir tag.toNat k.toNat (s.sget a) (s.sget d) (tensorOf raw)).nextPc 8) := by
  have hfull : (s.cur.full .cp || !s.lockRoom 2) = false := by rw [Group.full_of_lt hcount, hroom]; rfl
  show execCpy dir d a b k tag s = _
  rw [execCpy, State.sIssue_ready hr]
  dsimp only
  rw [if_neg (by simp [h1, h2]), hread]
  dsimp only
  rw [herr]
  dsimp only
  rw [hfull]
  rfl

/-- The two ranges of a command are the locks that its registration adds. -/
theorem State.registerCopy_locks (u : State) (dir : CopyDir) (tag k : Nat) (src dst : Word) (t : TensorRec) :
    (u.registerCopy dir tag k src dst t).locks.length = u.locks.length + 2 ∧
      ∀ l ∈ u.locks, l ∈ (u.registerCopy dir tag k src dst t).locks := by
  have hlocks : (u.registerCopy dir tag k src dst t).locks = u.locks ++
    (u.copyLocks u.cur (u.coreOf u.cur) dir tag k t src dst).map (lockOf u.nextId (u.coreOf u.cur) (u.ctxOf u.cur).id) := rfl
  rw [hlocks]
  refine ⟨?_, fun l hl => List.mem_append_left _ hl⟩
  rw [List.length_append, List.length_map]
  rfl

/-! ### Commands at work (R263 to R266) -/

theorem State.id_of_copy? {s : State} {id : Nat} {c : Copy} (h : s.copy? id = some c) : c.id = id := by
  simpa using List.find?_some h

/-- A command after a change of it that keeps its name. -/
theorem State.copy?_mapCopy {s : State} {c : Copy} {f : Copy → Copy} (hc : s.copy? c.id = some c) (hf : ∀ x, (f x).id = x.id) :
    (s.mapCopy c.id f).copy? c.id = some (f c) :=
  (find?_mapIf_same (key := Copy.id) hf s.copies c.id).trans (congrArg (Option.map f) hc)

theorem exec_copyBegin {s : State} {c : Copy} (hc : s.copy? c.id = some c) (hst : c.st = .registered)
    (hfree : s.lockConflict c.id = false) :
    exec (.copyBegin c.id) s = .next (s.mapCopy c.id fun c => { c with st := .running }) := by
  show execCopyBegin c.id s = _
  simp [execCopyBegin, hc, hst, hfree]

/-- A running command moves the element at its cursor. -/
theorem exec_copyElement {s : State} {c : Copy} {x : Ctx} {g : Group} (hc : s.copy? c.id = some c) (hx : s.ctx? c.ctx = some x)
    (hg : s.group? c.uid = some g) (hst : c.st = .running) (hn : c.cursor < c.tensor.count) :
    exec (.copyElement c.id) s = .next ((s.walkAhead c x).copyElement c x g) := by
  show execCopyElement c.id s = _
  simp [execCopyElement, hc, hx, hg, hst, hn]

/-- The cursor of a command moves past the element. -/
def Copy.next (c : Copy) : Copy := { c with cursor := c.cursor + 1 }

/-- An element of a weight buffer's side. -/
theorem State.copyElement_wb {s u : State} {c : Copy} {x : Ctx} {g : Group} {bs : List Byte}
    (hread : s.engineRead c.core x c g (CopyDir.srcLocal c.dir) (c.srcAt c.cursor) (c.tensor.ed c.k) = .ok u bs)
    (hwb : CopyDir.dstWb c.dir = true) :
    s.copyElement c x g =
      ({ u with wb := u.wb.write (regionAddr c.core c.tag + (c.dstAt c.cursor).toNat) bs } : State).mapCopy c.id Copy.next := by
  rw [State.copyElement]
  dsimp only
  rw [hread]
  dsimp only
  rw [if_pos hwb]
  rfl

/-- An element of any other side. -/
theorem State.copyElement_write {s u v : State} {c : Copy} {x : Ctx} {g : Group} {bs : List Byte}
    (hread : s.engineRead c.core x c g (CopyDir.srcLocal c.dir) (c.srcAt c.cursor) (c.tensor.ed c.k) = .ok u bs)
    (hwb : CopyDir.dstWb c.dir = false)
    (hwrite : u.engineWrite c.core x c g (CopyDir.dstLocal c.dir) (c.dstAt c.cursor) bs = .ok v []) :
    s.copyElement c x g = v.mapCopy c.id Copy.next := by
  rw [State.copyElement]
  dsimp only
  rw [hread]
  dsimp only
  rw [if_neg (by simp [hwb]), hwrite]
  rfl

theorem exec_copyComplete {s : State} {c : Copy} (hc : s.copy? c.id = some c)
    (hst : c.st = .finished ∨ c.st = .running ∧ c.cursor = c.tensor.count) : exec (.copyComplete c.id) s = .next (s.endCopy c) := by
  show execCopyComplete c.id s = _
  rcases hst with h | ⟨h, hn⟩
  · simp [execCopyComplete, hc, h]
  · simp [execCopyComplete, hc, h, hn]

/-- The group of a command that ends. -/
theorem State.group?_endCopy {s : State} {c : Copy} {g : Group} (hg : s.group? c.uid = some g) :
    (s.endCopy c).group? c.uid = some (g.complete true c.id) := by
  have huid : g.uid = c.uid := by simpa using List.find?_some hg
  rw [← huid] at hg
  unfold State.endCopy
  rw [← huid]
  exact State.group?_mapGroup_same (s := { s with
    copies := s.copies.filter fun x => x.id != c.id, locks := s.locks.filter fun l => l.cmd != c.id }) hg fun _ => rfl

/-- Settles O20. -/
theorem copiesMoveTheirElements : Obligations.CopiesMoveTheirElements := by
  refine ⟨fun s u dir d a b k tag raw hr h1 h2 hread hcur herr hcount hroom => ?_, fun s c hc => ⟨fun hst hfree => ?_,
    fun x g u v bs hx hg hst hn hread hu => ⟨fun hwb => ?_, fun hwb hwrite hv => ?_⟩, fun g rest hst hg htokens hopen hother => ?_⟩⟩
  · obtain ⟨hlen, hin⟩ := u.registerCopy_locks dir tag.toNat k.toNat (s.sget a) (s.sget d) (tensorOf raw)
    refine ⟨_, u.newCopy dir tag.toNat k.toNat (s.sget a) (s.sget d) (tensorOf raw),
      exec_cpy_ready hr h1 h2 hread herr hcount hroom, rfl, rfl, rfl, rfl, rfl, rfl, rfl, congrArg (fun g => g.s.pc) hcur, rfl, rfl,
      congrArg Group.uid hcur, hlen, hin, ?_, ?_, fun _ => rfl⟩
    · rw [← hcur]; rfl
    · rw [← hcur]; rfl
  · exact ⟨_, exec_copyBegin hc hst hfree, State.copy?_mapCopy hc fun _ => rfl, rfl⟩
  · have hrun := exec_copyElement hc hx hg hst hn
    rw [State.copyElement_wb hread hwb] at hrun
    exact ⟨_, hrun, State.copy?_mapCopy (f := Copy.next) hu fun _ => rfl, rfl, rfl, fun _ => rfl⟩
  · have hrun := exec_copyElement hc hx hg hst hn
    rw [State.copyElement_write hread hwb hwrite] at hrun
    exact ⟨_, hrun, State.copy?_mapCopy (f := Copy.next) hv fun _ => rfl, rfl⟩
  · refine ⟨_, exec_copyComplete hc hst, fun x hx => ?_, fun l hl => ?_, ?_, fun _ => rfl⟩
    · simpa using (List.mem_filter.mp hx).2
    · simpa using (List.mem_filter.mp hl).2
    · rw [State.group?_endCopy hg, Group.complete_oldest htokens hopen hother]

end Sys2Proof.Machine
end


section
/-! SUPPORT. Writes of whole words and of zero lines at several places of a store. -/

namespace Sys2Proof.Machine

/-- The places of some words do not meet. -/
def WordsApart (ws : List (Nat × Word)) : Prop := ws.Pairwise fun p q => p.1 + 8 ≤ q.1 ∨ q.1 + 8 ≤ p.1

/-- The store after writes of some words in turn. -/
def Cells.writeWords (m : Cells) (ws : List (Nat × Word)) : Cells := ws.foldl (fun m p => m.write p.1 (bytesOf 8 p.2.toNat)) m

theorem Cells.writeWords_wf {m : Cells} (hm : m.wf = true) (ws : List (Nat × Word)) : (m.writeWords ws).wf = true := by
  induction ws generalizing m with
  | nil => exact hm
  | cons p ws ih => exact ih (Cells.write_wf _ _ hm)

/-- Words at places that do not meet all stand after they are written in turn. -/
theorem StoredWords.of_writeWords {m : Cells} (hm : m.wf = true) {ws : List (Nat × Word)} (hws : WordsApart ws) :
    StoredWords m (m.writeWords ws) ws := by
  induction ws generalizing m with
  | nil => exact ⟨by simp, fun _ _ => rfl⟩
  | cons p ws ih =>
    obtain ⟨hp, hws⟩ := List.pairwise_cons.mp hws
    have hfirst := Stored.of_write hm p.1 8 p.2
    obtain ⟨hin, hout⟩ := ih (Cells.write_wf _ _ hm) hws
    refine ⟨fun q hq i hi => ?_, fun x hx => ?_⟩
    · rcases List.mem_cons.mp hq with rfl | hq
      · refine (hout (q.1 + i) fun r hr => ?_).trans ((hfirst (q.1 + i)).trans ?_)
        · have := hp r hr
          omega
        · rw [if_pos (by omega), Nat.add_sub_cancel_left]
      · exact hin q hq i hi
    · refine (hout x fun r hr => hx r (by simp [hr])).trans ((hfirst x).trans ?_)
      have := hx p (by simp)
      rw [if_neg (by omega)]

/-- The store after lines of zeros are written at some places in turn. -/
def Cells.zeroAt (m : Cells) (n : Nat) (ps : List Nat) : Cells := ps.foldl (fun m p => m.write p (List.replicate n 0)) m

theorem Cells.zeroAt_wf {m : Cells} (hm : m.wf = true) (n : Nat) (ps : List Nat) : (m.zeroAt n ps).wf = true := by
  induction ps generalizing m with
  | nil => exact hm
  | cons p ps ih => exact ih (Cells.write_wf _ _ hm)

/-- Every byte of the lines reads 0 and every other byte as before. -/
theorem Zeroed.of_zeroAt {m : Cells} (hm : m.wf = true) (n : Nat) (ps : List Nat) : Zeroed m (m.zeroAt n ps) ps n := by
  induction ps generalizing m with
  | nil => intro x; simp [Cells.zeroAt]
  | cons p ps ih =>
    intro x
    refine (ih (Cells.write_wf p (List.replicate n 0) hm) x).trans ?_
    by_cases hlater : ∃ q ∈ ps, q ≤ x ∧ x < q + n
    · obtain ⟨q, hq, hx⟩ := hlater
      rw [if_pos ⟨q, hq, hx⟩, if_pos ⟨q, by simp [hq], hx⟩]
    · rw [if_neg hlater]
      by_cases hhere : p ≤ x ∧ x < p + n
      · obtain ⟨i, rfl⟩ := Nat.exists_eq_add_of_le hhere.1
        rw [Cells.get_write_in _ _ _ (by simp; omega) hm, if_pos ⟨p, by simp, hhere⟩]
        simp
      · rw [Cells.get_write_out _ _ _ _ (by simp; omega), if_neg]
        rintro ⟨q, hq, hx⟩
        rcases List.mem_cons.mp hq with rfl | hq
        · exact hhere hx
        · exact hlater ⟨q, hq, hx⟩

end Sys2Proof.Machine
end

section
/-! SUPPORT. The entries of a page at their places in memory. -/

namespace Sys2Proof.Machine

/-- Two numbers of one aligned block of 128 differ below bit 7 alone. -/
theorem div_two_pow_of_block {a i k : Nat} (ha : a % 128 = 0) (hi : i < 128) (hk : 7 ≤ k) : (a + i) / 2 ^ k = a / 2 ^ k := by
  obtain ⟨b, rfl⟩ : 128 ∣ a := Nat.dvd_of_mod_eq_zero ha
  obtain ⟨j, rfl⟩ : ∃ j, k = 7 + j := ⟨k - 7, by omega⟩
  have hb (x : Nat) (hx : x < 128) : (128 * b + x) / 128 = b := by omega
  rw [Nat.pow_add, ← Nat.div_div_eq_div_mul, ← Nat.div_div_eq_div_mul]
  show (128 * b + i) / 128 / 2 ^ j = 128 * b / 128 / 2 ^ j
  rw [hb i hi, Nat.mul_div_cancel_left b (by decide)]

/-- Two words of one aligned block of 128 bytes have places that do not meet, in the block's own place or in that of a remote device
(R240, R361). -/
theorem State.place_block_apart {s : State} {a i j : Nat} (ha : a % 128 = 0) (hij : i < j) (hj : j < 16) :
    s.place (a + 8 * i) + 8 ≤ s.place (a + 8 * j) ∨ s.place (a + 8 * j) + 8 ≤ s.place (a + 8 * i) := by
  have htarget (k : Nat) (hk : k < 16) : targetOf (a + 8 * k) = targetOf a := by
    simp only [targetOf, Nat.shiftRight_eq_div_pow, div_two_pow_of_block ha (show 8 * k < 128 by omega) (show 7 ≤ 50 by decide)]
  have hpod (k : Nat) (hk : k < 16) : (a + 8 * k) >>> 44 = a >>> 44 := by
    simp only [Nat.shiftRight_eq_div_pow, div_two_pow_of_block ha (show 8 * k < 128 by omega) (show 7 ≤ 44 by decide)]
  unfold State.place
  rw [htarget i (by omega), htarget j hj]
  split
  · rw [hpod i (by omega), hpod j hj]
    dsimp only
    omega
  · omega

end Sys2Proof.Machine
end


section
/-! SUPPORT. MAPPG: what its forms do with the entries that its walk finds. -/

namespace Sys2Proof.Machine

/-- The first level of a page's entries that MAPPG reaches from above is a word of a table. -/
theorem State.leafWalk_low {s : State} {va : Word} {l t ea : Nat} (h : s.leafWalk va 0 (l + 1) t = .at ea) :
    ∃ f, ea = f * 4096 + 8 * ((va.toNat >>> 12) % 512) := by
  induction l generalizing t with
  | zero =>
    unfold State.leafWalk at h
    dsimp only at h
    rw [if_neg (by simp)] at h
    split at h
    · cases h
    · split at h
      · cases h
      · split at h
        · cases h
        · split at h
          · split at h <;> cases h
          · unfold State.leafWalk at h
            dsimp only at h
            rw [if_pos (by simp)] at h
            exact ⟨_, (LeafAt.at.inj h).symm⟩
  | succ l ih =>
    unfold State.leafWalk at h
    dsimp only at h
    rw [if_neg (by simp)] at h
    split at h
    · cases h
    · split at h
      · cases h
      · split at h
        · cases h
        · split at h
          · split at h <;> cases h
          · exact ih h

/-- The sixteen entries of a 64 KiB page fill an aligned block (R239). -/
theorem State.leafWalk_block {s : State} {va : Word} {t ea : Nat} (hva : va.toNat % PageSize.bytes .k64 = 0)
    (h : s.leafWalk va (PageSize.level .k64) 4 t = .at ea) : ea % 128 = 0 := by
  obtain ⟨f, rfl⟩ := State.leafWalk_low (l := 3) h
  have hva : va.toNat % 65536 = 0 := hva
  rw [Nat.shiftRight_eq_div_pow]
  omega

/-- How many entries a page has. -/
def PageSize.count (sz : PageSize) : Nat := if sz = .k64 then 16 else 1

theorem PageSize.entries_eq (sz : PageSize) (ea : Nat) :
    PageSize.entries sz ea = (List.range (PageSize.count sz)).map fun i => ea + 8 * i := by
  cases sz <;> rfl

/-- The words of a page's entries lie apart. -/
theorem State.entries_apart {s : State} {va : Word} {sz : PageSize} {ea t : Nat} (w : Nat → Word)
    (hva : va.toNat % PageSize.bytes sz = 0) (h : s.leafWalk va (PageSize.level sz) 4 t = .at ea) :
    WordsApart ((List.range (PageSize.count sz)).map fun i => (s.place (ea + 8 * i), w i)) := by
  refine List.pairwise_map.mpr (List.pairwise_lt_range.imp_of_mem fun {i j} hi hj hij => ?_)
  have hj := List.mem_range.mp hj
  cases sz with
  | k64 => exact State.place_block_apart (State.leafWalk_block hva h) hij hj
  | k4 => exact absurd hij (by simp [PageSize.count] at hj; omega)
  | m2 => exact absurd hij (by simp [PageSize.count] at hj; omega)

/-! ### The way to the entries -/

/-- MAPPG of an aligned canonical address none of whose table words a level change holds, up to its walk. -/
theorem State.mappg_walks {s : State} {sz : PageSize} {rs : List SReg} {d a : SReg} {above : Word} {k : State → Word → List Nat → State}
    (hr : SReady s .super rs false) (hc : canonErr s.cur.level (s.sget a) = none) (hva : (s.sget a).toNat % PageSize.bytes sz = 0)
    (hl : (s.walkReads (s.sget a) 4 (s.ctxOf s.cur).root).any s.levelHeld = false) :
    s.mappg sz rs d a above k =
      match s.leafWalk (s.sget a) (PageSize.level sz) 4 (s.ctxOf s.cur).root with
        | .fault f => s.sMemFault f 0x02 true false
        | .noTable => (s.sput d 3).nextPc 8
        | .above => (s.sput d above).nextPc 8
        | .at ea =>
          match s.entriesErr (s.sget a) (PageSize.entries sz ea) with
          | some f => s.sMemFault f 0x02 true false
          | none => if s.storesBefore false 0 then s else k s (s.sget a) (PageSize.entries sz ea) := by
  rw [State.mappg, State.sIssue_ready hr]
  dsimp only
  rw [hc]
  dsimp only
  rw [if_neg (by simp [hva]), if_neg (by simp [hl])] <;> rfl

theorem State.mappg_noTable {s : State} {sz : PageSize} {rs : List SReg} {d a : SReg} {above : Word}
    {k : State → Word → List Nat → State}
    (hr : SReady s .super rs false) (hc : canonErr s.cur.level (s.sget a) = none) (hva : (s.sget a).toNat % PageSize.bytes sz = 0)
    (hl : (s.walkReads (s.sget a) 4 (s.ctxOf s.cur).root).any s.levelHeld = false)
    (hw : s.leafWalk (s.sget a) (PageSize.level sz) 4 (s.ctxOf s.cur).root = .noTable) :
    s.mappg sz rs d a above k = (s.sput d 3).nextPc 8 := by
  rw [State.mappg_walks hr hc hva hl, hw]

theorem State.mappg_above {s : State} {sz : PageSize} {rs : List SReg} {d a : SReg} {above : Word}
    {k : State → Word → List Nat → State}
    (hr : SReady s .super rs false) (hc : canonErr s.cur.level (s.sget a) = none) (hva : (s.sget a).toNat % PageSize.bytes sz = 0)
    (hl : (s.walkReads (s.sget a) 4 (s.ctxOf s.cur).root).any s.levelHeld = false)
    (hw : s.leafWalk (s.sget a) (PageSize.level sz) 4 (s.ctxOf s.cur).root = .above) :
    s.mappg sz rs d a above k = (s.sput d above).nextPc 8 := by
  rw [State.mappg_walks hr hc hva hl, hw]

/-- The walk of a MAPPG reaches its entries, none of which fails its check, and no earlier store is out. -/
structure State.Reaches (s : State) (sz : PageSize) (a : SReg) (ea : Nat) : Prop where
  canon : canonErr s.cur.level (s.sget a) = none
  aligned : (s.sget a).toNat % PageSize.bytes sz = 0
  levels : (s.walkReads (s.sget a) 4 (s.ctxOf s.cur).root).any s.levelHeld = false
  walk : s.leafWalk (s.sget a) (PageSize.level sz) 4 (s.ctxOf s.cur).root = .at ea
  sound : s.entriesErr (s.sget a) (PageSize.entries sz ea) = none
  first : s.storesBefore false 0 = false

theorem State.Reaches.mappg {s : State} {sz : PageSize} {a : SReg} {ea : Nat} (h : s.Reaches sz a ea) {rs : List SReg} {d : SReg}
    {above : Word} {k : State → Word → List Nat → State} (hr : SReady s .super rs false) :
    s.mappg sz rs d a above k = k s (s.sget a) (PageSize.entries sz ea) := by
  rw [State.mappg_walks hr h.canon h.aligned h.levels, h.walk]
  dsimp only
  rw [h.sound]
  dsimp only
  rw [if_neg (by rw [h.first]; simp)]

theorem State.Reaches.apart {s : State} {sz : PageSize} {a : SReg} {ea : Nat} (h : s.Reaches sz a ea) (w : Nat → Word) :
    WordsApart ((List.range (PageSize.count sz)).map fun i => (s.place (ea + 8 * i), w i)) := s.entries_apart w h.aligned h.walk

/-! ### Their validity -/

/-- The entries of a page as MAP and POOL judge them. -/
theorem State.anyValid_iff (s : State) (sz : PageSize) (ea : Nat) :
    ((PageSize.entries sz ea).any fun ea => pteV (s.entryAt ea)) = true ↔
      ∃ i, i < PageSize.count sz ∧ (s.entryAt (ea + 8 * i)).testBit 0 = true := by
  rw [PageSize.entries_eq, List.any_map, List.any_eq_true]
  simp only [List.mem_range, Function.comp, pteV]

theorem State.noneValid {s : State} {sz : PageSize} {ea : Nat}
    (h : ∀ i, i < PageSize.count sz → (s.entryAt (ea + 8 * i)).testBit 0 = false) :
    ((PageSize.entries sz ea).any fun ea => pteV (s.entryAt ea)) = false := by
  rw [← Bool.not_eq_true, State.anyValid_iff]
  rintro ⟨i, hi, hv⟩
  rw [h i hi] at hv
  cases hv

/-! ### What is written -/

/-- Word writes of a device in turn are word writes of its memory. -/
theorem State.mem_foldl_memWrite (s : State) (l : List (Nat × Word)) :
    (l.foldl (fun s x => s.memWrite 0 x.1 (bytesOf 8 x.2.toNat)) s).mem =
      s.mem.writeWords (l.map fun x => (s.place x.1, x.2)) := by
  induction l generalizing s with
  | nil => rfl
  | cons x l ih => exact ih (s.memWrite 0 x.1 (bytesOf 8 x.2.toNat))

/-- The bytes of a number depend on it modulo their size. -/
theorem bytesOf_mod (n v : Nat) : bytesOf n v = bytesOf n (v % 2 ^ (8 * n)) := by
  refine List.ext_getElem (by simp [bytesOf]) fun i h₁ h₂ => ?_
  have hi : i < n := by simpa [bytesOf] using h₁
  refine (getElem_leBytes v h₁).trans (Eq.trans ?_ (getElem_leBytes (v % 2 ^ (8 * n)) h₂).symm)
  apply BitVec.eq_of_toNat_eq
  obtain ⟨j, hj⟩ : ∃ j, 8 * n = 8 * i + (8 + j) := ⟨8 * n - 8 * i - 8, by omega⟩
  rw [BitVec.toNat_ofNat, BitVec.toNat_ofNat, hj, Nat.pow_add, Nat.mod_mul_right_div_self, Nat.pow_add, Nat.mod_mul_right_mod]

theorem zipIdx_map_range {α : Type} (f : Nat → α) (n : Nat) :
    ((List.range n).map f).zipIdx = (List.range n).map fun i => (f i, i) := by
  refine List.ext_getElem (by simp) fun i h₁ h₂ => ?_
  simp

/-- A page's entries as MAP and POOL write them. -/
theorem State.mem_writeEntries (s : State) (sz : PageSize) (ea v : Nat) :
    (s.writeEntries (PageSize.entries sz ea) v).mem = s.mem.writeWords
      ((List.range (PageSize.count sz)).map fun i => (s.place (ea + 8 * i), BitVec.ofNat 64 v + BitVec.ofNat 64 (4096 * i))) := by
  have hword (i : Nat) : bytesOf 8 (v + i * 4096) = bytesOf 8 (BitVec.ofNat 64 v + BitVec.ofNat 64 (4096 * i)).toNat := by
    rw [bytesOf_mod, ← BitVec.ofNat_add, BitVec.toNat_ofNat, Nat.mul_comm i]
  have hmem := State.mem_foldl_memWrite s
    ((List.range (PageSize.count sz)).map fun i => (ea + 8 * i, BitVec.ofNat 64 v + BitVec.ofNat 64 (4096 * i)))
  rw [List.foldl_map, List.map_map] at hmem
  rw [State.writeEntries, PageSize.entries_eq, zipIdx_map_range, List.foldl_map]
  simp only [hword]
  exact hmem

/-- One entry written leaves the others as they read. -/
theorem State.entryAt_memWrite {s : State} {p q v : Nat} (h : s.place p + 8 ≤ s.place q ∨ s.place q + 8 ≤ s.place p) :
    (s.memWrite 0 p (bytesOf 8 v)).entryAt q = s.entryAt q := by
  have hread : (s.memWrite 0 p (bytesOf 8 v)).memRead q 8 = s.memRead q 8 := by
    show Cells.read (s.mem.write (s.place p) (bytesOf 8 v)) (s.place q) 8 = Cells.read s.mem (s.place q) 8
    rw [Cells.read_eq, Cells.read_eq]
    refine List.map_congr_left fun i hi => Cells.get_write_out _ _ _ _ ?_
    have hi := List.mem_range.mp hi
    have hlen : (bytesOf 8 v).length = 8 := length_leBytes ..
    omega
  rw [State.entryAt, hread, State.entryAt]

/-- An entry without its V bit. -/
def State.cleared (s : State) (ea : Nat) : Word := BitVec.ofNat 64 (s.entryAt ea / 2 * 2)

/-- UNMAP takes the V bit of each of its entries. -/
theorem State.unmap_eq (s : State) (l : List Nat)
    (hl : l.Pairwise fun p q => s.place p + 8 ≤ s.place q ∨ s.place q + 8 ≤ s.place p) :
    l.foldl (fun s ea => s.memWrite 0 ea (bytesOf 8 (s.entryAt ea / 2 * 2))) s =
      (l.map fun ea => (ea, s.cleared ea)).foldl (fun s x => s.memWrite 0 x.1 (bytesOf 8 x.2.toNat)) s := by
  induction l generalizing s with
  | nil => rfl
  | cons p l ih =>
    obtain ⟨hp, hl⟩ := List.pairwise_cons.mp hl
    have hword : bytesOf 8 (s.entryAt p / 2 * 2) = bytesOf 8 (s.cleared p).toNat := by
      rw [State.cleared, BitVec.toNat_ofNat, bytesOf_mod]
    have hlater : l.map (fun ea => (ea, (s.memWrite 0 p (bytesOf 8 (s.entryAt p / 2 * 2))).cleared ea)) =
        l.map fun ea => (ea, s.cleared ea) :=
      List.map_congr_left fun q hq => by rw [State.cleared, State.entryAt_memWrite (hp q hq), State.cleared]
    have hrest := ih (s.memWrite 0 p (bytesOf 8 (s.entryAt p / 2 * 2))) hl
    rw [List.foldl_cons, hrest, hlater, hword]
    rfl

theorem State.mem_zeroFrame_lines (w : Byte) (pa n : Nat) (l : List Nat) (s : State) :
    (l.foldl (fun s i => s.memWrite w (pa + 64 * i) (List.replicate n 0)) s).mem =
      s.mem.zeroAt n (l.map fun i => s.place (pa + 64 * i)) := by
  induction l generalizing s with
  | nil => rfl
  | cons i l ih =>
    rw [List.foldl_cons, ih, State.memWrite_mem, List.map_cons]
    rfl

/-- A frame's 64 lines are written as zeros. -/
theorem State.mem_zeroFrame (s : State) (w : Byte) (pa : Nat) :
    (s.zeroFrame w pa).mem = s.mem.zeroAt 64 ((List.range 64).map fun i => s.place (pa + 64 * i)) :=
  State.mem_zeroFrame_lines w pa 64 _ s

end Sys2Proof.Machine
end


section
/-! SUPPORT. MAPPG's forms and the completion of an invalidation, case by case. -/

namespace Sys2Proof.Machine

/-- What a write of memory leaves alone of the device: the scalar stream and the level of the issuing group, the contexts, the next
name and the invalidations. -/
def State.beside (s : State) := (s.cur.s, s.cur.level, s.ctxs, s.nextId, s.invals)

theorem State.beside_memWrite (s : State) (w : Byte) (pa : Nat) (bs : List Byte) : (s.memWrite w pa bs).beside = s.beside := by
  obtain ⟨wt, h, hcur⟩ := State.memWrite_cur s w pa bs
  have hrest : (s.memWrite w pa bs).beside = ((s.memWrite w pa bs).cur.s, (s.memWrite w pa bs).cur.level, s.ctxs, s.nextId, s.invals) := rfl
  rw [hrest, hcur]
  rfl

theorem State.beside_foldl {α : Type} {f : State → α → State} (hf : ∀ s a, (f s a).beside = s.beside) (l : List α) (s : State) :
    (l.foldl f s).beside = s.beside := by
  induction l generalizing s with
  | nil => rfl
  | cons a l ih => exact (ih _).trans (hf s a)

theorem State.beside_writeEntries (s : State) (eas : List Nat) (v : Nat) : (s.writeEntries eas v).beside = s.beside :=
  State.beside_foldl (fun s (x : Nat × Nat) => State.beside_memWrite s 0 x.1 _) _ _

theorem State.beside_zeroFrame (s : State) (w : Byte) (pa : Nat) : (s.zeroFrame w pa).beside = s.beside :=
  State.beside_foldl (fun s (i : Nat) => State.beside_memWrite s w (pa + 64 * i) _) _ _

theorem State.stream_of_beside {s t : State} (h : t.beside = s.beside) : t.cur.s = s.cur.s ∧ t.cur.level = s.cur.level :=
  ⟨(Prod.mk.inj h).1, (Prod.mk.inj (Prod.mk.inj h).2).1⟩

/-- An instruction that ends with 0 in `d` at its next one, from a state that agrees beside its memory. -/
theorem State.ends_zero {s u : State} {d : SReg} (hd : d.toNat < 96) (hs : u.cur.s = s.cur.s) :
    ((u.sput d 0).nextPc 8).sget d = 0 ∧ (∀ r, r ≠ d → ((u.sput d 0).nextPc 8).sget r = s.sget r) ∧
      ((u.sput d 0).nextPc 8).cur.s.pc = s.cur.s.pc + 8 := by
  refine ⟨?_, fun r hr => ?_, ?_⟩
  · exact SState.get_put_same _ _ _ (by omega)
  · exact (State.sget_sput_ne u d r 0 hr).trans (congrArg (fun x => SState.get x r) hs)
  · show (u.cur.s.put d 0).pc + 8 = _
    rw [SState.put_pc, hs]

/-! ### MAP -/

theorem mappgMap_exists {s : State} {sz : PageSize} {d a b : SReg} {ea : Nat} (h : s.Reaches sz a ea)
    (hr : SReady s .super [d, a, b] false) (hv : ∃ i, i < PageSize.count sz ∧ (s.entryAt (ea + 8 * i)).testBit 0 = true) :
    WritesReg s (.mappgMap sz d a b) d 1 0 8 := by
  refine WritesReg.of_quiet (v' := 1) (hr.legal d (by simp)) ?_ rfl
  show execMappgMap sz d a b s = _
  rw [execMappgMap, h.mappg hr]
  dsimp only
  rw [if_pos ((s.anyValid_iff sz ea).mpr hv)]

theorem mappgMap_badEntry {s : State} {sz : PageSize} {d a b : SReg} {ea : Nat} (h : s.Reaches sz a ea)
    (hr : SReady s .super [d, a, b] false) (hv : ∀ i, i < PageSize.count sz → (s.entryAt (ea + 8 * i)).testBit 0 = false)
    (hleaf : leafOk sz (s.sget b).toNat = false) : WritesReg s (.mappgMap sz d a b) d 5 0 8 := by
  refine WritesReg.of_quiet (v' := 5) (hr.legal d (by simp)) ?_ rfl
  show execMappgMap sz d a b s = _
  rw [execMappgMap, h.mappg hr]
  dsimp only
  rw [State.noneValid hv, hleaf]
  rfl

theorem exec_mappgMap_maps {s : State} {sz : PageSize} {d a b : SReg} {ea : Nat} (h : s.Reaches sz a ea)
    (hr : SReady s .super [d, a, b] false) (hv : ∀ i, i < PageSize.count sz → (s.entryAt (ea + 8 * i)).testBit 0 = false)
    (hleaf : leafOk sz (s.sget b).toNat = true) :
    exec (.mappgMap sz d a b) s =
      .next (((s.writeEntries (PageSize.entries sz ea) (s.sget b).toNat).sput d 0).nextPc 8) := by
  show execMappgMap sz d a b s = _
  rw [execMappgMap, h.mappg hr]
  dsimp only
  rw [State.noneValid hv, hleaf]
  rfl

/-- The entries that MAP leaves. -/
theorem State.writeEntries_stored {s : State} {sz : PageSize} {a : SReg} {ea : Nat} (h : s.Reaches sz a ea) (hm : s.mem.wf = true)
    (v : Word) :
    StoredWords s.mem (s.writeEntries (PageSize.entries sz ea) v.toNat).mem
      ((List.range (PageSize.count sz)).map fun i => (s.place (ea + 8 * i), v + BitVec.ofNat 64 (4096 * i))) := by
  rw [State.mem_writeEntries, BitVec.ofNat_toNat, BitVec.setWidth_eq]
  exact StoredWords.of_writeWords hm (h.apart _)

/-! ### POOL -/

theorem mappgPool_exists {s : State} {d a b : SReg} {ea : Nat} (h : s.Reaches .k4 a ea) (hr : SReady s .super [d, a, b] false)
    (hv : ∃ i, i < PageSize.count .k4 ∧ (s.entryAt (ea + 8 * i)).testBit 0 = true) : WritesReg s (.mappgPool d a b) d 1 0 8 := by
  refine WritesReg.of_quiet (v' := 1) (hr.legal d (by simp)) ?_ rfl
  show execMappgPool d a b s = _
  rw [execMappgPool, h.mappg hr]
  dsimp only
  rw [if_pos ((s.anyValid_iff .k4 ea).mpr hv)]

theorem mappgPool_empty {s : State} {d a b : SReg} {ea : Nat} (h : s.Reaches .k4 a ea) (hr : SReady s .super [d, a, b] false)
    (hv : ∀ i, i < PageSize.count .k4 → (s.entryAt (ea + 8 * i)).testBit 0 = false) (hn : (s.ctxOf s.cur).ftpn = 0) :
    WritesReg s (.mappgPool d a b) d 2 0 8 := by
  refine WritesReg.of_quiet (v' := 2) (hr.legal d (by simp)) ?_ rfl
  show execMappgPool d a b s = _
  rw [execMappgPool, h.mappg hr]
  dsimp only
  rw [State.noneValid hv, hn]
  rfl

/-- The device with a frame taken from the pool and zeroed. -/
def State.poolFrame (u : State) (c : Ctx) (pa frame : Nat) : State :=
  (((u.holdIf (u.levelHeld pa)).pageHeld frame).mapCtx c.id fun c => { c with ftpn := c.ftpn - 1 }).zeroFrame c.world frame

theorem exec_mappgPool_maps {s u : State} {d a b : SReg} {ea pa : Nat} (h : s.Reaches .k4 a ea) (hr : SReady s .super [d, a, b] false)
    (hv : ∀ i, i < PageSize.count .k4 → (s.entryAt (ea + 8 * i)).testBit 0 = false) (hn : (s.ctxOf s.cur).ftpn ≠ 0)
    (hcheck : s.checkGlobal .read ((s.ctxOf s.cur).ftpb + 8 * ((s.ctxOf s.cur).ftpn - 1)) 8 = ⟨.inr pa, u⟩)
    (hread : u.readErr s.myPort (s.ctxOf s.cur).world pa = none)
    (hok : s.targetOk (s.ctxOf s.cur) (pteFrame (natOfBytes (u.memRead pa 8)) * 4096) = true) :
    exec (.mappgPool d a b) s = .next ((((u.poolFrame (s.ctxOf s.cur) pa (pteFrame (natOfBytes (u.memRead pa 8)) * 4096)).writeEntries
      (PageSize.entries .k4 ea) (natOfBytes (u.memRead pa 8) ||| ((s.sget b).toNat &&& 6) ||| 0x41)).sput d 0).nextPc 8) := by
  show execMappgPool d a b s = _
  rw [execMappgPool, h.mappg hr]
  dsimp only
  rw [State.noneValid hv, hcheck]
  have hn' : ((s.ctxOf s.cur).ftpn == 0) = false := by simpa using hn
  dsimp only
  rw [hn', hread]
  dsimp only
  rw [hok]
  rfl

/-- A word of memory, as a number. -/
theorem toNat_wordOf {bs : List Byte} (h : natOfBytes bs < 2 ^ 64) : (wordOf bs).toNat = natOfBytes bs := by
  rw [wordOf, BitVec.toNat_ofNat, Nat.mod_eq_of_lt h]

theorem natOfBytes_lt (bs : List Byte) : natOfBytes bs < 2 ^ (8 * bs.length) := by
  induction bs with
  | nil => decide
  | cons b bs ih =>
    have hb : b.toNat < 256 := b.isLt
    rw [natOfBytes, List.length_cons, Nat.mul_succ, Nat.add_comm (8 * bs.length), Nat.pow_add]
    omega

theorem State.natOfBytes_memRead_lt (s : State) (pa : Nat) : natOfBytes (s.memRead pa 8) < 2 ^ 64 := by
  have hlen : (s.memRead pa 8).length = 8 := by rw [State.memRead, Cells.read_eq, List.length_map, List.length_range]
  have h := natOfBytes_lt (s.memRead pa 8)
  rw [hlen] at h
  exact h

theorem State.holdIf_sets (s : State) (h : Bool) : ∃ k, s.holdIf h = { s with held := k } := by
  unfold State.holdIf
  split
  · exact ⟨true, rfl⟩
  · exact ⟨s.held, rfl⟩

/-- What the taking of a frame leaves: zeros in the frame, the pool one lower, and the scalar stream and every place as they are. -/
theorem State.poolFrame_mem (u : State) (c : Ctx) (pa frame : Nat) :
    (u.poolFrame c pa frame).mem = u.mem.zeroAt 64 ((List.range 64).map fun i => u.place (frame + 64 * i)) ∧
      (u.poolFrame c pa frame).ctxs = (u.mapCtx c.id fun c => { c with ftpn := c.ftpn - 1 }).ctxs ∧
      (u.poolFrame c pa frame).cur.s = u.cur.s := by
  obtain ⟨k, hk⟩ := u.holdIf_sets (u.levelHeld pa)
  obtain ⟨l, hl⟩ := (u.holdIf (u.levelHeld pa)).holdIf_sets
    ((List.range 64).any fun i => (u.holdIf (u.levelHeld pa)).levelHeld (frame + 64 * i))
  have hheld : (u.holdIf (u.levelHeld pa)).pageHeld frame = { u with held := l } := by rw [State.pageHeld, hl, hk]
  have hbeside := (({ u with held := l } : State).mapCtx c.id fun c => { c with ftpn := c.ftpn - 1 }).beside_zeroFrame c.world frame
  rw [State.poolFrame, hheld, State.mem_zeroFrame]
  exact ⟨rfl, (Prod.mk.inj (Prod.mk.inj (Prod.mk.inj hbeside).2).2).1, (State.stream_of_beside hbeside).1⟩

theorem State.poolFrame_place (u : State) (c : Ctx) (pa frame x : Nat) : (u.poolFrame c pa frame).place x = u.place x := by
  have hzero (l : List Nat) (s : State) (w : Byte) (f n : Nat) :
      (l.foldl (fun s i => s.memWrite w (f + 64 * i) (List.replicate n 0)) s).place x = s.place x := by
    induction l generalizing s with
    | nil => rfl
    | cons i l ih => exact (ih _).trans rfl
  have hhold (s : State) (h : Bool) : (s.holdIf h).place x = s.place x := by
    obtain ⟨k, hk⟩ := s.holdIf_sets h
    rw [hk]
    rfl
  refine (hzero _ _ _ _ 64).trans ?_
  exact (hhold _ _).trans (hhold _ _)

/-- The one entry that POOL writes. -/
theorem State.mem_writeEntries_one (s : State) (ea n : Nat) :
    (s.writeEntries (PageSize.entries .k4 ea) n).mem = s.mem.write (s.place ea) (bytesOf 8 n) := by
  show s.mem.write (s.place ea) (bytesOf 8 (n + 0 * 4096)) = _
  rw [Nat.zero_mul, Nat.add_zero]

theorem mappgPool_maps {s u : State} {d a b : SReg} {ea pa : Nat} (h : s.Reaches .k4 a ea) (hr : SReady s .super [d, a, b] false)
    (hv : ∀ i, i < PageSize.count .k4 → (s.entryAt (ea + 8 * i)).testBit 0 = false) (hn : (s.ctxOf s.cur).ftpn ≠ 0)
    (hd : d.toNat < 96)
    (hcheck : s.checkGlobal .read ((s.ctxOf s.cur).ftpb + 8 * ((s.ctxOf s.cur).ftpn - 1)) 8 = ⟨.inr pa, u⟩)
    (hread : u.readErr s.myPort (s.ctxOf s.cur).world pa = none) (hcur : u.cur = s.cur) (hm : u.mem.wf = true)
    (hok : s.targetOk (s.ctxOf s.cur) (pteFrame (wordOf (u.memRead pa 8)).toNat * 4096) = true) :
    ∃ t, exec (.mappgPool d a b) s = .next t ∧ t.sget d = 0 ∧ (∀ r, r ≠ d → t.sget r = s.sget r) ∧ t.cur.s.pc = s.cur.s.pc + 8 ∧
      t.ctxs = (u.mapCtx (s.ctxOf s.cur).id fun c => { c with ftpn := c.ftpn - 1 }).ctxs ∧
      ∃ m, Zeroed u.mem m ((List.range 64).map fun i => u.place (pteFrame (wordOf (u.memRead pa 8)).toNat * 4096 + 64 * i)) 64 ∧
        Stored m t.mem (u.place ea) 8 (wordOf (u.memRead pa 8) ||| (s.sget b &&& 6) ||| 0x41) := by
  have hword := toNat_wordOf (u.natOfBytes_memRead_lt pa)
  rw [hword] at hok ⊢
  have hrun := exec_mappgPool_maps h hr hv hn hcheck hread hok
  generalize hf : pteFrame (natOfBytes (u.memRead pa 8)) * 4096 = frame at hrun
  obtain ⟨hmem, hctxs, hs⟩ := u.poolFrame_mem (s.ctxOf s.cur) pa frame
  have hplace := u.poolFrame_place (s.ctxOf s.cur) pa frame
  generalize u.poolFrame (s.ctxOf s.cur) pa frame = v at hrun hmem hctxs hs hplace
  have hbeside := v.beside_writeEntries (PageSize.entries .k4 ea) (natOfBytes (u.memRead pa 8) ||| ((s.sget b).toNat &&& 6) ||| 0x41)
  have hvalue : natOfBytes (u.memRead pa 8) ||| ((s.sget b).toNat &&& 6) ||| 0x41 =
      (wordOf (u.memRead pa 8) ||| (s.sget b &&& 6) ||| 0x41).toNat := by
    rw [BitVec.toNat_or, BitVec.toNat_or, BitVec.toNat_and, hword]
    rfl
  obtain ⟨hzero, hregs, hpc⟩ := State.ends_zero hd ((State.stream_of_beside hbeside).1.trans (hs.trans (congrArg Group.s hcur)))
  refine ⟨_, hrun, hzero, hregs, hpc, ?_, v.mem, ?_, ?_⟩
  · exact (Prod.mk.inj (Prod.mk.inj (Prod.mk.inj hbeside).2).2).1.trans hctxs
  · rw [hmem]
    exact Zeroed.of_zeroAt hm 64 _
  · have hv : v.mem.wf = true := by rw [hmem]; exact Cells.zeroAt_wf hm _ _
    have hone : (v.writeEntries (PageSize.entries .k4 ea)
        (natOfBytes (u.memRead pa 8) ||| ((s.sget b).toNat &&& 6) ||| 0x41)).mem =
        v.mem.write (v.place ea) (bytesOf 8 (wordOf (u.memRead pa 8) ||| (s.sget b &&& 6) ||| 0x41).toNat) := by
      rw [hvalue]
      exact v.mem_writeEntries_one ea _
    show Stored v.mem (v.writeEntries _ _).mem _ _ _
    rw [hone, hplace]
    exact Stored.of_write hv _ _ _

/-! ### UNMAP -/

theorem mappgUnmap_notMapped {s : State} {sz : PageSize} {d a : SReg} {ea : Nat} (h : s.Reaches sz a ea)
    (hr : SReady s .super [d, a] false) (hv : (s.entryAt ea).testBit 0 = false) : WritesReg s (.mappgUnmap sz d a) d 4 0 8 := by
  have hhead : (PageSize.entries sz ea).headD 0 = ea := by cases sz <;> rfl
  refine WritesReg.of_quiet (v' := 4) (hr.legal d (by simp)) ?_ rfl
  show execMappgUnmap sz d a s = _
  rw [execMappgUnmap, h.mappg hr]
  dsimp only
  rw [hhead, show pteV (s.entryAt ea) = false from hv]
  rfl

theorem mappgUnmap_size {s : State} {sz : PageSize} {d a : SReg} {ea : Nat} (h : s.Reaches sz a ea)
    (hr : SReady s .super [d, a] false) (hv : (s.entryAt ea).testBit 0 = true)
    (hl : ((s.entryAt ea).testBit 6 && ((s.entryAt ea).testBit 5 == (sz == .k64))) = false) :
    WritesReg s (.mappgUnmap sz d a) d 6 0 8 := by
  have hhead : (PageSize.entries sz ea).headD 0 = ea := by cases sz <;> rfl
  have hleaf : (!pteL (s.entryAt ea) || pteC (s.entryAt ea) != (sz == .k64)) = true := by
    rw [pteL, pteC]
    revert hl
    cases (s.entryAt ea).testBit 6 <;> cases (s.entryAt ea).testBit 5 <;> cases sz == .k64 <;> decide
  refine WritesReg.of_quiet (v' := 6) (hr.legal d (by simp)) ?_ rfl
  show execMappgUnmap sz d a s = _
  rw [execMappgUnmap, h.mappg hr]
  dsimp only
  rw [hhead, show pteV (s.entryAt ea) = true from hv, hleaf]
  rfl

/-- The device with the entries of a page cleared of V, and an invalidation of the page posted. -/
def State.unmapped (s : State) (eas : List Nat) (lo hi : Nat) : State :=
  (eas.foldl (fun s ea => s.memWrite 0 ea (bytesOf 8 (s.entryAt ea / 2 * 2))) s).postInval (s.ctxOf s.cur).id lo hi false

theorem exec_mappgUnmap_clears {s : State} {sz : PageSize} {d a : SReg} {ea : Nat} (h : s.Reaches sz a ea)
    (hr : SReady s .super [d, a] false) (hv : (s.entryAt ea).testBit 0 = true) (hl : (s.entryAt ea).testBit 6 = true)
    (hc : (s.entryAt ea).testBit 5 = (sz == .k64)) :
    exec (.mappgUnmap sz d a) s =
      .next ((s.unmapped (PageSize.entries sz ea) ((s.sget a).toNat % 2 ^ 57) ((s.sget a).toNat % 2 ^ 57 + PageSize.bytes sz)).mapCur
        fun g => { g with wait := .inval ((PageSize.entries sz ea).foldl
          (fun s ea => s.memWrite 0 ea (bytesOf 8 (s.entryAt ea / 2 * 2))) s).nextId 8 [(d, 0)] }) := by
  have hhead : (PageSize.entries sz ea).headD 0 = ea := by cases sz <;> rfl
  have hleaf : (!pteL (s.entryAt ea) || pteC (s.entryAt ea) != (sz == .k64)) = false := by
    rw [pteL, pteC, hl, hc]
    simp
  show execMappgUnmap sz d a s = _
  rw [execMappgUnmap, h.mappg hr]
  dsimp only
  rw [hhead, show pteV (s.entryAt ea) = true from hv, hleaf]
  rfl

theorem State.beside_clears (s : State) (eas : List Nat) :
    (eas.foldl (fun s ea => s.memWrite 0 ea (bytesOf 8 (s.entryAt ea / 2 * 2))) s).beside = s.beside :=
  State.beside_foldl (fun s (ea : Nat) => State.beside_memWrite s 0 ea _) _ _

/-- The entries that UNMAP leaves. -/
theorem State.clears_stored {s : State} {sz : PageSize} {a : SReg} {ea : Nat} (h : s.Reaches sz a ea) (hm : s.mem.wf = true) :
    StoredWords s.mem ((PageSize.entries sz ea).foldl (fun s ea => s.memWrite 0 ea (bytesOf 8 (s.entryAt ea / 2 * 2))) s).mem
      ((List.range (PageSize.count sz)).map fun i => (s.place (ea + 8 * i), s.cleared (ea + 8 * i))) := by
  have hapart := h.apart fun i => s.cleared (ea + 8 * i)
  have hplaces : (PageSize.entries sz ea).Pairwise fun p q => s.place p + 8 ≤ s.place q ∨ s.place q + 8 ≤ s.place p := by
    rw [PageSize.entries_eq]
    exact List.pairwise_map.mpr (List.pairwise_map.mp hapart)
  rw [State.unmap_eq s _ hplaces, State.mem_foldl_memWrite, PageSize.entries_eq, List.map_map, List.map_map]
  exact StoredWords.of_writeWords hm hapart

theorem mappgUnmap_clears {s : State} {sz : PageSize} {d a : SReg} {ea : Nat} (h : s.Reaches sz a ea)
    (hr : SReady s .super [d, a] false) (hm : s.mem.wf = true) (hv : (s.entryAt ea).testBit 0 = true)
    (hl : (s.entryAt ea).testBit 6 = true) (hc : (s.entryAt ea).testBit 5 = (sz == .k64)) :
    ∃ t, exec (.mappgUnmap sz d a) s = .next t ∧
      StoredWords s.mem t.mem ((List.range (PageSize.count sz)).map fun i => (s.place (ea + 8 * i), s.cleared (ea + 8 * i))) ∧
      t.cur.wait = .inval s.nextId 8 [(d, 0)] ∧ t.cur.s = s.cur.s ∧
      ∃ i ∈ t.invals, i.id = s.nextId ∧ i.ctx = (s.ctxOf s.cur).id ∧ i.lo = (s.sget a).toNat % 2 ^ 57 ∧
        i.hi = (s.sget a).toNat % 2 ^ 57 + PageSize.bytes sz := by
  have hrun := exec_mappgUnmap_clears h hr hv hl hc
  have hstored := State.clears_stored h hm
  have hbeside := s.beside_clears (PageSize.entries sz ea)
  unfold State.unmapped at hrun
  generalize (PageSize.entries sz ea).foldl (fun s ea => s.memWrite 0 ea (bytesOf 8 (s.entryAt ea / 2 * 2))) s = u
    at hrun hstored hbeside
  have hnext : u.nextId = s.nextId := (Prod.mk.inj (Prod.mk.inj (Prod.mk.inj (Prod.mk.inj hbeside).2).2).2).1
  rw [hnext] at hrun
  refine ⟨_, hrun, hstored, rfl, (State.stream_of_beside hbeside).1, ⟨u.nextId, (s.ctxOf s.cur).id, (s.sget a).toNat % 2 ^ 57,
    (s.sget a).toNat % 2 ^ 57 + PageSize.bytes sz, u.accsIn (s.ctxOf s.cur).id ((s.sget a).toNat % 2 ^ 57)
      ((s.sget a).toNat % 2 ^ 57 + PageSize.bytes sz), false⟩, ?_, hnext, rfl, rfl, rfl⟩
  exact List.mem_append_right _ (by simp)

/-! ### The completion of an invalidation (R241) -/

/-- An invalidation one of whose accesses is in flight stays. -/
theorem exec_invalidationComplete_stays {s : State} {i : Inval} (hi : s.invals.find? (fun x => x.id == i.id) = some i)
    (ha : ∃ x ∈ i.accs, ∃ g, s.group? x.1 = some g ∧ g.acc? x.2 ≠ none) : exec (.invalidationComplete i.id) s = .next s := by
  obtain ⟨x, hx, g, hg, hacc⟩ := ha
  have hany : (i.accs.any fun x => (s.group? x.1).any fun g => (g.acc? x.2).isSome) = true :=
    List.any_eq_true.mpr ⟨x, hx, by rw [hg]; exact Option.isSome_iff_ne_none.mpr hacc⟩
  show execInvalidationComplete i.id s = _
  rw [execInvalidationComplete, hi]
  dsimp only
  rw [if_pos hany]

/-- One with none completes. -/
def State.invalDone (s : State) (i : Inval) : State :=
  ({ s with invals := s.invals.filter fun x => x.id != i.id }.dropRange i.ctx i.lo i.hi).mapGroups (fun _ => true) (Group.endInval i.id)

theorem exec_invalidationComplete_ends {s : State} {i : Inval} (hi : s.invals.find? (fun x => x.id == i.id) = some i)
    (ha : ∀ x ∈ i.accs, ∀ g, s.group? x.1 = some g → g.acc? x.2 = none) :
    exec (.invalidationComplete i.id) s = .next (s.invalDone i) := by
  have hany : (i.accs.any fun x => (s.group? x.1).any fun g => (g.acc? x.2).isSome) = false := by
    rw [List.any_eq_false]
    intro x hx
    cases hg : s.group? x.1 with
    | none => simp
    | some g => simp [ha x hx g hg]
  show execInvalidationComplete i.id s = _
  rw [execInvalidationComplete, hi]
  dsimp only
  rw [if_neg (by rw [hany]; simp)]
  rfl

theorem TlbEntry.outside_of_inRange {e : TlbEntry} {ctx lo hi : Nat} (h : e.inRange ctx lo hi = false) (hc : e.ctx = ctx) :
    hi ≤ e.va ∨ e.va + e.size ≤ lo := by
  simp only [TlbEntry.inRange, hc, beq_self_eq_true, Bool.true_and, Bool.and_eq_false_iff, decide_eq_false_iff_not] at h
  omega

/-- A core whose TLBs drop the translations of a range. -/
def CoreState.dropRange (ctx lo hi : Nat) (c : CoreState) : CoreState :=
  { c with tlb := c.tlb.filter fun e => !e.inRange ctx lo hi, ahead := c.ahead.filter fun e => !e.inRange ctx lo hi }

/-- No translation of a dropped range stands in a TLB. -/
theorem State.dropRange_tlbs {s : State} {ctx lo hi : Nat} {e : TlbEntry}
    (he : (∃ c, e ∈ ((s.dropRange ctx lo hi).core c).tlb ∨ e ∈ ((s.dropRange ctx lo hi).core c).ahead) ∨
      ∃ q, e ∈ look (s.dropRange ctx lo hi).qtlbs q []) : e.inRange ctx lo hi = false := by
  have hcut {l : List TlbEntry} (h : e ∈ l.filter fun e => !e.inRange ctx lo hi) : e.inRange ctx lo hi = false := by
    simpa using (List.mem_filter.mp h).2
  rcases he with ⟨c, he⟩ | ⟨q, he⟩
  · by_cases hc : c < 192
    · have hcore : (s.dropRange ctx lo hi).core c = (s.core c).dropRange ctx lo hi :=
        look_map s.cores (CoreState.dropRange ctx lo hi) c CoreState.reset CoreState.reset hc
      rw [hcore] at he
      exact he.elim hcut hcut
    · have hreset : (s.dropRange ctx lo hi).core c = .reset := dif_neg hc
      rw [hreset] at he
      exact he.elim (fun h => absurd h (by simp [CoreState.reset])) fun h => absurd h (by simp [CoreState.reset])
  · by_cases hq : q < 4
    · have hquad : look (s.dropRange ctx lo hi).qtlbs q [] = (look s.qtlbs q []).filter fun e => !e.inRange ctx lo hi :=
        look_map s.qtlbs _ q [] [] hq
      rw [hquad] at he
      exact hcut he
    · have hnone : look (s.dropRange ctx lo hi).qtlbs q [] = [] := dif_neg hq
      rw [hnone] at he
      cases he

/-- The group that waits for an invalidation goes on past its instruction with its register write. -/
theorem Group.endInval_waiting {g : Group} {id n : Nat} {ws : List (SReg × Word)} (hw : g.wait = .inval id n ws) :
    g.endInval id = g.goOn (g.s.pc + BitVec.ofNat 64 n) ws := by
  simp [Group.endInval, hw, Group.endWait]

/-- What the completion leaves of the issuing group that waits for it. -/
theorem State.invalDone_cur {s : State} {i : Inval} {n : Nat} {d : SReg} {w : Word} (hw : s.cur.wait = .inval i.id n [(d, w)])
    (hd : d.toNat < 96) :
    (s.invalDone i).cur.wait = .none ∧ (s.invalDone i).cur.s.pc = s.cur.s.pc + BitVec.ofNat 64 n ∧ (s.invalDone i).sget d = w ∧
      ∀ r, r ≠ d → (s.invalDone i).sget r = s.sget r := by
  have hcur : (s.invalDone i).cur = s.cur.goOn (s.cur.s.pc + BitVec.ofNat 64 n) [(d, w)] := Group.endInval_waiting hw
  have hget (r : SReg) : (s.invalDone i).sget r = (s.cur.s.put d w).get r := by rw [State.sget, hcur]; rfl
  refine ⟨by rw [hcur]; rfl, by rw [hcur]; rfl, ?_, fun r hr => ?_⟩
  · rw [hget, SState.get_put_same _ _ _ (by omega)]
  · rw [hget, SState.get_put_ne _ _ _ _ hr]
    rfl

/-! ### The statement -/

/-- Where the walk ends above the leaf-level entries (R239). -/
theorem mappg_walkEnds {s : State} {d a b : SReg} {sz : PageSize} (hc : canonErr s.cur.level (s.sget a) = none)
    (hva : (s.sget a).toNat % PageSize.bytes sz = 0) (hl : (s.walkReads (s.sget a) 4 (s.ctxOf s.cur).root).any s.levelHeld = false) :
    let walk := s.leafWalk (s.sget a) (PageSize.level sz) 4 (s.ctxOf s.cur).root
    (SReady s .super [d, a, b] false →
      (walk = .noTable → WritesReg s (.mappgMap sz d a b) d 3 0 8 ∧ (sz = .k4 → WritesReg s (.mappgPool d a b) d 3 0 8)) ∧
      (walk = .above → WritesReg s (.mappgMap sz d a b) d 1 0 8 ∧ (sz = .k4 → WritesReg s (.mappgPool d a b) d 1 0 8))) ∧
    (SReady s .super [d, a] false →
      (walk = .noTable → WritesReg s (.mappgUnmap sz d a) d 3 0 8) ∧
      (walk = .above → WritesReg s (.mappgUnmap sz d a) d 6 0 8)) := by
  intro walk
  refine ⟨fun hr => ⟨fun hw => ⟨?_, fun hk => ?_⟩, fun hw => ⟨?_, fun hk => ?_⟩⟩, fun hr => ⟨fun hw => ?_, fun hw => ?_⟩⟩
  · exact WritesReg.of_quiet (hr.legal d (by simp)) (congrArg Host.Outcome.next (State.mappg_noTable hr hc hva hl hw)) rfl
  · subst hk
    exact WritesReg.of_quiet (hr.legal d (by simp)) (congrArg Host.Outcome.next (State.mappg_noTable hr hc hva hl hw)) rfl
  · exact WritesReg.of_quiet (hr.legal d (by simp)) (congrArg Host.Outcome.next (State.mappg_above hr hc hva hl hw)) rfl
  · subst hk
    exact WritesReg.of_quiet (hr.legal d (by simp)) (congrArg Host.Outcome.next (State.mappg_above hr hc hva hl hw)) rfl
  · exact WritesReg.of_quiet (hr.legal d (by simp)) (congrArg Host.Outcome.next (State.mappg_noTable hr hc hva hl hw)) rfl
  · exact WritesReg.of_quiet (hr.legal d (by simp)) (congrArg Host.Outcome.next (State.mappg_above hr hc hva hl hw)) rfl

theorem mappgMap_maps {s : State} {d a b : SReg} {sz : PageSize} {ea : Nat} (h : s.Reaches sz a ea) (hm : s.mem.wf = true)
    (hr : SReady s .super [d, a, b] false) (hv : ∀ i, i < PageSize.count sz → (s.entryAt (ea + 8 * i)).testBit 0 = false)
    (hleaf : leafOk sz (s.sget b).toNat = true) (hd : d.toNat < 96) :
    ∃ t, exec (.mappgMap sz d a b) s = .next t ∧ t.sget d = 0 ∧ (∀ r, r ≠ d → t.sget r = s.sget r) ∧ t.cur.s.pc = s.cur.s.pc + 8 ∧
      StoredWords s.mem t.mem
        ((List.range (PageSize.count sz)).map fun i => (s.place (ea + 8 * i), s.sget b + BitVec.ofNat 64 (4096 * i))) := by
  have hs := (State.stream_of_beside (s.beside_writeEntries (PageSize.entries sz ea) (s.sget b).toNat)).1
  obtain ⟨hzero, hregs, hpc⟩ := State.ends_zero hd hs
  exact ⟨_, exec_mappgMap_maps h hr hv hleaf, hzero, hregs, hpc, State.writeEntries_stored h hm (s.sget b)⟩

/-- Settles O26. -/
theorem pageFormsChangeTheEntry : Obligations.PageFormsChangeTheEntry := by
  constructor
  · intro s d a b sz va walk hc hva hl
    obtain ⟨hmap, hunmap⟩ := mappg_walkEnds (d := d) (b := b) hc hva hl
    refine ⟨hmap, hunmap, ?_⟩
    intro ea hw hsound hfirst hm n valid ends
    have h : s.Reaches sz a ea := ⟨hc, hva, hl, hw, hsound, hfirst⟩
    refine ⟨fun hr => ⟨fun hv => ⟨mappgMap_exists h hr hv, fun hk => ?_⟩, fun hv => ⟨mappgMap_badEntry h hr hv,
      mappgMap_maps h hm hr hv, fun hk => ?_⟩⟩, fun hr => ⟨mappgUnmap_notMapped h hr, mappgUnmap_size h hr, mappgUnmap_clears h hr hm⟩⟩
    · subst hk
      exact mappgPool_exists h hr hv
    · subst hk
      exact ⟨mappgPool_empty h hr hv, fun hn hd pa u hcheck hread hcur hum hok =>
        mappgPool_maps h hr hv hn hd hcheck hread hcur hum hok⟩
  · intro s i n d w hi
    refine ⟨exec_invalidationComplete_stays hi, fun ha => ?_⟩
    refine ⟨_, exec_invalidationComplete_ends hi ha, rfl, fun e he hctx => ?_, State.invalDone_cur, fun _ => rfl⟩
    exact TlbEntry.outside_of_inRange (State.dropRange_tlbs (s := { s with invals := s.invals.filter fun x => x.id != i.id }) he) hctx

end Sys2Proof.Machine
end

section
/-! SUPPORT. Accesses from outside the groups of a core: what the link, a fabric port and the network leave of a state. -/

namespace Sys2Proof.Machine

/-! ### One line of the link -/

theorem lineCount_one {pa n : Nat} (hn : n ≠ 0) (hline : pa % 64 + n ≤ 64) : (pa % 64 + n + 63) / 64 = 1 := by omega

/-- Bytes of one line are one piece. -/
theorem linePieces_one {pa : Nat} {bs : List Byte} (hbs : bs ≠ []) (hline : pa % 64 + bs.length ≤ 64) : linePieces pa bs = [(pa, bs)] := by
  have hlen : bs.length ≠ 0 := by simpa using hbs
  have htake : bs.take (64 - pa % 64) = bs := List.take_of_length_le (by omega)
  simp [linePieces, lineCount_one hlen hline, htake]

theorem State.place_of_device {s : State} {pa : Nat} (h : targetOf pa = .device) : s.place pa = pa := by simp [State.place, h]

/-- No function of the link reaches a window to another device. -/
theorem State.place_of_hostReaches {s : State} {fn pa : Nat} (h : s.hostReaches fn pa = true) : s.place pa = pa := by
  unfold State.hostReaches at h
  unfold State.place
  cases ht : targetOf pa <;> simp_all

/-- A write of whole bytes at an address that stays where it is. -/
theorem State.memWrite_get {s : State} (w : Byte) {pa : Nat} (bs : List Byte) (hplace : s.place pa = pa) (hm : s.mem.wf = true) (x : Nat) :
    (s.memWrite w pa bs).mem.get x = if pa ≤ x ∧ x < pa + bs.length then bs.getD (x - pa) 0 else s.mem.get x := by
  rw [State.memWrite_mem, hplace]
  split
  · next hx =>
    obtain ⟨i, rfl⟩ := Nat.exists_eq_add_of_le hx.1
    have hi : i < bs.length := by omega
    rw [Cells.get_write_in pa i bs hi hm, Nat.add_sub_cancel_left, List.getD_eq_getElem _ _ hi]
  · next hx => exact Cells.get_write_out _ _ _ _ (by omega)

section
variable {s : State} {fn pa : Nat} (hheld : s.levelHeld pa = false)
include hheld

theorem execHostWrite_line {bs : List Byte} (hbs : bs ≠ []) (hline : pa % 64 + bs.length ≤ 64) :
    execHostWrite ⟨fn, pa⟩ bs s = .next (s.hostPiece fn (pa, bs)) := by
  simp [execHostWrite, linePieces_one hbs hline, hheld]

theorem hostWrite_refused {bs : List Byte} (hbs : bs ≠ []) (hline : pa % 64 + bs.length ≤ 64)
    (hno : s.hostReaches fn pa = false ∨ s.hostErr pa (bs.length == 64) = true) : exec (.hostWrite ⟨fn, pa⟩ bs) s = .next s := by
  refine (execHostWrite_line hheld hbs hline).trans (congrArg Host.Outcome.next ?_)
  unfold State.hostPiece
  exact if_neg (by rcases hno with h | h <;> simp [h])

theorem hostWrite_written {bs : List Byte} (hbs : bs ≠ []) (hline : pa % 64 + bs.length ≤ 64) (hreach : s.hostReaches fn pa = true)
    (herr : s.hostErr pa (bs.length == 64) = false) : exec (.hostWrite ⟨fn, pa⟩ bs) s = .next (s.memWrite 0 pa bs) := by
  refine (execHostWrite_line hheld hbs hline).trans (congrArg Host.Outcome.next ?_)
  unfold State.hostPiece
  exact if_pos (by simp [hreach, herr])

theorem hostRead_line {n : Nat} (hn : n ≠ 0) (hline : pa % 64 + n ≤ 64) :
    exec (.hostRead ⟨fn, pa⟩ n) s = .next { s with reports :=
      (if s.hostReaches fn pa = true ∧ s.hostErr pa false = false then s.mem.read pa n else []) :: s.reports } := by
  change execHostRead _ _ _ = _
  unfold execHostRead
  simp only [lineCount_one hn hline]
  by_cases hok : s.hostReaches fn pa = true ∧ s.hostErr pa false = false
  · obtain ⟨hreach, herr⟩ := hok
    simp [hheld, hreach, herr, State.memRead, State.place_of_hostReaches hreach]
  · have hno : (!s.hostReaches fn pa || s.hostErr pa false) = true := by
      cases hr : s.hostReaches fn pa <;> simp_all
    simp [hheld, hok, hno]

end

/-! ### A packet arrives -/

theorem State.arrives_taken {s : State} {p : Packet} (h : s.accepts p = true) :
    s.arrives p = s.putFlow { s.flow p.flow with next := (s.flow p.flow).next + 1 } := by simp [State.arrives, h]

theorem State.arrives_broken {s : State} {p : Packet} (h : s.accepts p = false) :
    s.arrives p = s.putFlow { s.flow p.flow with broken := true } := by simp [State.arrives, h]

theorem State.podShare?_putFlow (s : State) (f : Flow) (a : RemoteAccess) : (s.putFlow f).podShare? a = s.podShare? a := rfl

theorem State.place_of_podShare? {s : State} {a : RemoteAccess} {p : Nat} (h : s.podShare? a = some p) (t : State) :
    t.place a.pa = a.pa := by
  unfold State.podShare? at h
  split at h
  · next hdev =>
    simp only [Bool.and_eq_true, beq_iff_eq] at hdev
    exact State.place_of_device hdev.1.1
  · cases h

/-! ### A remote access at its slice -/

/-- The access of a packet that its flow takes, on the flow between its ports. -/
def State.remoteGood (s : State) (a : RemoteAccess) : Prop :=
  s.accepts a.pkt = true ∧ a.port < 24 ∧ a.pkt.flow = flowId a.world (129 + a.port) (s.targetPort a.pa) false

/-- The device after a packet was taken: its flow is one further. -/
def State.taken (s : State) (p : Packet) : State := s.putFlow { s.flow p.flow with next := (s.flow p.flow).next + 1 }

section
variable {s : State} {a : RemoteAccess} (hheld : s.remoteHeld a = false)
include hheld

theorem fabricAccess_broken (h : s.accepts a.pkt = false) :
    exec (.fabricAccess a) s = .next { s.putFlow { s.flow a.pkt.flow with broken := true } with reports := [] :: s.reports } := by
  change execFabricAccess a s = _
  simp [execFabricAccess, hheld, h, State.arrives_broken h, State.putFlow]

theorem fabricAccess_astray (h : s.accepts a.pkt = true) (hbad : ¬ s.remoteGood a) :
    exec (.fabricAccess a) s = .next { s.taken a.pkt with reports := [] :: s.reports } := by
  have hno : ¬ (s.accepts a.pkt && a.port < 24 && a.pkt.flow == flowId a.world (129 + a.port) (s.targetPort a.pa) false) = true := by
    simpa [State.remoteGood, and_assoc] using hbad
  change execFabricAccess a s = _
  unfold execFabricAccess
  simp only [hheld, State.arrives_taken h]
  rw [if_neg (by simp), if_neg hno]
  rfl

theorem fabricAccess_served (hgood : s.remoteGood a) : exec (.fabricAccess a) s = .next ((s.taken a.pkt).serveRemote a) := by
  obtain ⟨hacc, hport, hflow⟩ := hgood
  change execFabricAccess a s = _
  unfold execFabricAccess
  simp only [hheld, State.arrives_taken hacc]
  rw [if_neg (by simp), if_pos (by simp [hacc, hport, ← hflow])]
  rfl

end

theorem State.serveRemote_noShare {s : State} {a : RemoteAccess} (h : s.podShare? a = none ∨ s.mgmtOn = false) :
    s.serveRemote a = { s with reports := [] :: s.reports } := by
  unfold State.serveRemote
  rcases h with h | h
  · simp [h]
  · cases s.podShare? a <;> simp [h]

/-- With the trail off no choice waits. -/
theorem State.trailAsk_off {s : State} {c : Choice} (h : (s.part c.part).mode = 0) : s.trailAsk c = .go none := by
  simp [State.trailAsk, h]

/-- With the trail off no choice is recorded. -/
theorem State.trailMark_off {s : State} {c : Choice} (h : (s.part c.part).mode = 0) : s.trailMark c none none = s := by
  simp [State.trailMark, h]

section
variable {s : State} {a : RemoteAccess} {p : Nat} (hshare : s.podShare? a = some p) (hon : s.mgmtOn = true)
include hshare hon

theorem State.serveRemote_read {n : Nat} (hop : a.op = .read n) (hline : a.pa % 64 + n ≤ 64) :
    s.serveRemote a = { s with reports :=
      (if s.readErr (129 + a.port) a.world a.pa = none then s.mem.read a.pa n else []) :: s.reports } := by
  have hwide : ¬ 64 < a.pa % 64 + n := by omega
  unfold State.serveRemote
  cases herr : s.readErr (129 + a.port) a.world a.pa <;>
    simp [hshare, hon, hop, herr, hwide, State.memRead, State.place_of_podShare? hshare s]

theorem State.serveRemote_write_refused {bs : List Byte} (hop : a.op = .write bs)
    (herr : s.writeErr (129 + a.port) a.world a.pa (bs.length == 64) ≠ none) :
    s.serveRemote a = { s with reports := [] :: s.reports } := by
  unfold State.serveRemote
  simp [hshare, hon, hop, Option.isSome_iff_ne_none.mpr herr]

theorem State.serveRemote_write {bs : List Byte} (hop : a.op = .write bs) (hline : a.pa % 64 + bs.length ≤ 64)
    (herr : s.writeErr (129 + a.port) a.world a.pa (bs.length == 64) = none) : s.serveRemote a = s.memWrite a.world a.pa bs := by
  have hwide : ¬ 64 < a.pa % 64 + bs.length := by omega
  unfold State.serveRemote
  simp [hshare, hon, hop, herr, hwide]

theorem State.serveRemote_atomic {x : RemoteAtomic} {op : AtomOp} {v : Word} (hop : a.op = .atomic x) (hsc : x.scalar = some op)
    (hline : a.pa % 64 + x.size ≤ 64) (herr : s.readErr (129 + a.port) a.world a.pa = none) (hmode : (s.part p).mode = 0)
    (hnew : atomNew op x.size (wordOf (s.mem.read a.pa x.size)) x.data x.cmp = some v) :
    s.serveRemote a = { s.memWrite a.world a.pa (bytesOf x.size v.toNat) with reports := s.mem.read a.pa x.size :: s.reports } := by
  have hwide : ¬ 64 < a.pa % 64 + x.size := by omega
  have hold : s.memRead a.pa x.size = s.mem.read a.pa x.size := by rw [State.memRead, State.place_of_podShare? hshare s]
  have happly : RemoteAtomic.apply x (wordOf (s.mem.read a.pa x.size)) = some v := by simp only [RemoteAtomic.apply, hsc, hnew]
  have hask : s.trailAsk (RemoteAtomic.choice x p a.pa) = .go none := State.trailAsk_off hmode
  have hmark : (s.memWrite a.world a.pa (bytesOf x.size v.toNat)).trailMark (RemoteAtomic.choice x p a.pa) none none =
      s.memWrite a.world a.pa (bytesOf x.size v.toNat) := State.trailMark_off hmode
  unfold State.serveRemote
  simp only [hshare, hon, hop, herr, hask, hold, happly, hmark]
  simp [hwide]
  rfl

end

/-! ### A packet for a group -/

/-- An event of a group that the device does not hold changes nothing. -/
theorem State.withGroup_absent {s : State} {uid : Nat} (f : State → State) (h : s.group? uid = none) : s.withGroup uid f = s := by
  have hno : ∀ g ∈ s.groups, (g.uid == uid) = false := by simpa [State.group?] using h
  have hcur : (s.cur.uid == uid) = false := hno _ (List.mem_cons_self ..)
  have hothers : (s.others.find? fun g => g.uid == uid) = none :=
    List.find?_eq_none.mpr fun g hg => by simp [hno g (List.mem_cons_of_mem _ hg)]
  simp [State.withGroup, State.focus, hcur, hothers]

/-- An event of the issuing group is what its action makes of the state. -/
theorem State.withGroup_congr {s : State} {f g : State → State} (h : f s = g s) : s.withGroup s.cur.uid f = s.withGroup s.cur.uid g := by
  simp [State.withGroup, State.focus_self, h]

section
variable {s : State} {p : NocPacket} {a : Access} (hacc : s.accepts p.pkt = true) (huid : s.cur.uid = p.uid)
  (ha : s.cur.acc? p.acc = some a)
include hacc huid ha

theorem nocPacketReceive_stray (hno : ∀ r ∈ a.reqs, s.carries p.pkt.flow a r = false) :
    exec (.nocPacketReceive p) s = .next (s.taken p.pkt) := by
  have ha' : (s.taken p.pkt).cur.acc? p.acc = some a := ha
  have hnone : (a.reqs.any fun r => (s.taken p.pkt).carries p.pkt.flow a r) = false :=
    List.any_eq_false.mpr fun r hr => Bool.eq_false_iff.mp (hno r hr)
  change Host.Outcome.next ((s.arrives p.pkt).withGroup p.uid _) = _
  rw [State.arrives_taken hacc, ← huid]
  refine congrArg Host.Outcome.next ((State.withGroup_congr (s := s.taken p.pkt) (g := id) ?_).trans (State.withGroup_self rfl))
  simp only [ha', hnone]
  rfl

theorem nocPacketReceive_carried (hyes : ∃ r ∈ a.reqs, s.carries p.pkt.flow a r = true) :
    exec (.nocPacketReceive p) s = .next ((s.taken p.pkt).withGroup p.uid fun t => t.delivered p.acc) := by
  have ha' : (s.taken p.pkt).cur.acc? p.acc = some a := ha
  have hsome : (a.reqs.any fun r => (s.taken p.pkt).carries p.pkt.flow a r) = true := List.any_eq_true.mpr hyes
  change Host.Outcome.next ((s.arrives p.pkt).withGroup p.uid _) = _
  rw [State.arrives_taken hacc, ← huid]
  refine congrArg Host.Outcome.next (State.withGroup_congr (s := s.taken p.pkt) ?_)
  simp only [ha', hsome, hacc]
  rfl

end

/-- Delivery is the performance of the access at its target (log 88). -/
theorem withGroup_delivered {u : State} {seq : Nat} {a : Access} (ha : u.cur.acc? seq = some a) :
    .next (u.withGroup u.cur.uid fun t => t.delivered seq) =
      exec (if a.peer then .peerRequest u.cur.uid seq else if a.valued then .loadResponse u.cur.uid seq
        else .storeResponse u.cur.uid seq) u := by
  have hdel : u.delivered seq = if a.peer then u.someReqs a id State.answerPeer else if a.valued then u.loadResponse seq
      else u.storeResponse seq := by rw [State.delivered, ha]
  cases hpeer : a.peer
  · cases hval : a.valued <;>
      exact congrArg Host.Outcome.next (State.withGroup_congr (hdel.trans (by simp [hpeer, hval])))
  · refine congrArg Host.Outcome.next (State.withGroup_congr (hdel.trans ?_))
    simp [hpeer, ha]

theorem nocPacketReceive_absent {s : State} {p : NocPacket} (h : s.group? p.uid = none) :
    exec (.nocPacketReceive p) s = .next (s.arrives p.pkt) :=
  congrArg Host.Outcome.next (State.withGroup_absent (s := s.arrives p.pkt) _ h)

/-! ### The obligation -/

theorem fabricAccess_performed (s : State) (a : RemoteAccess) (p : Nat) (hheld : s.remoteHeld a = false) (hgood : s.remoteGood a)
    (hshare : s.podShare? a = some p) (hon : s.mgmtOn = true) :
    let u := s.taken a.pkt
    let refused := exec (.fabricAccess a) s = .next { u with reports := [] :: s.reports }
    (∀ n, a.op = .read n → a.pa % 64 + n ≤ 64 →
      (u.readErr (129 + a.port) a.world a.pa ≠ none → refused) ∧
      (u.readErr (129 + a.port) a.world a.pa = none →
        exec (.fabricAccess a) s = .next { u with reports := s.mem.read a.pa n :: s.reports })) ∧
    (∀ bs, a.op = .write bs → a.pa % 64 + bs.length ≤ 64 →
      (u.writeErr (129 + a.port) a.world a.pa (bs.length == 64) ≠ none → refused) ∧
      (u.writeErr (129 + a.port) a.world a.pa (bs.length == 64) = none → s.mem.wf = true →
        ∃ t, exec (.fabricAccess a) s = .next t ∧
          ∀ x, t.mem.get x = if a.pa ≤ x ∧ x < a.pa + bs.length then bs.getD (x - a.pa) 0 else s.mem.get x)) ∧
    (∀ x op v, a.op = .atomic x → x.scalar = some op → a.pa % 64 + x.size ≤ 64 →
      u.readErr (129 + a.port) a.world a.pa = none → (s.part p).mode = 0 → s.mem.wf = true → x.size ≤ 8 →
      atomNew op x.size (BitVec.ofNat 64 (natOfBytes (s.mem.read a.pa x.size))) x.data x.cmp = some v →
      ∃ t, exec (.fabricAccess a) s = .next t ∧ t.reports = s.mem.read a.pa x.size :: s.reports ∧
        Stored s.mem t.mem a.pa x.size v) := by
  intro u refused
  have hserved : exec (.fabricAccess a) s = .next (u.serveRemote a) := fabricAccess_served hheld hgood
  have hshare' : u.podShare? a = some p := hshare
  refine ⟨fun n hop hline => ?_, fun bs hop hline => ?_, fun x op v hop hsc hline herr hmode hm _ hnew => ?_⟩
  · have hread := State.serveRemote_read hshare' hon hop hline
    exact ⟨fun herr => hserved.trans (by rw [hread, if_neg herr]; rfl), fun herr => hserved.trans (by rw [hread, if_pos herr]; rfl)⟩
  · refine ⟨fun herr => hserved.trans (by rw [State.serveRemote_write_refused hshare' hon hop herr]; rfl), fun herr hm => ?_⟩
    refine ⟨_, hserved.trans (by rw [State.serveRemote_write hshare' hon hop hline herr]), fun x => ?_⟩
    exact State.memWrite_get a.world bs (State.place_of_podShare? hshare u) hm x
  · refine ⟨_, hserved.trans (by rw [State.serveRemote_atomic hshare' hon hop hsc hline herr hmode hnew]), rfl, ?_⟩
    have hmem : (u.memWrite a.world a.pa (bytesOf x.size v.toNat)).mem = s.mem.write a.pa (bytesOf x.size v.toNat) := by
      rw [State.memWrite_mem, State.place_of_podShare? hshare u]
      rfl
    exact show Stored s.mem (u.memWrite a.world a.pa (bytesOf x.size v.toNat)).mem a.pa x.size v from
      hmem ▸ Stored.of_write hm a.pa x.size v

/-- Settles O46: each access of the host, of a remote device and of the network, at the state it meets. -/
theorem outsideAccessesAct : Obligations.OutsideAccessesAct := by
  unfold Obligations.OutsideAccessesAct
  intro s
  refine ⟨fun fn pa bs hbs hline hheld => ⟨hostWrite_refused hheld hbs hline, fun hreach herr hm => ?_⟩,
    fun fn pa n hn hline hheld => hostRead_line hheld hn hline, fun _ => rfl, fun a hheld => ?_, fun p => ?_⟩
  · exact ⟨_, hostWrite_written hheld hbs hline hreach herr,
      State.memWrite_get 0 bs (State.place_of_hostReaches hreach) hm⟩
  · refine ⟨fabricAccess_broken hheld, fun hacc hbad => ?_, fun p hgood hshare hon =>
      fabricAccess_performed s a p hheld hgood hshare hon⟩
    by_cases hgood : s.remoteGood a
    · have hno : s.podShare? a = none ∨ s.mgmtOn = false := hbad.resolve_left fun h => h hgood
      exact (fabricAccess_served hheld hgood).trans (congrArg Host.Outcome.next (State.serveRemote_noShare (s := s.taken a.pkt) hno))
    · exact fabricAccess_astray hheld hacc hgood
  · refine ⟨fun hacc => ⟨fun hgone => ?_, fun a huid ha => ⟨nocPacketReceive_stray hacc huid ha, fun hyes => ?_⟩⟩,
      fun hacc hgone => (nocPacketReceive_absent hgone).trans (congrArg Host.Outcome.next (State.arrives_broken hacc))⟩
    · exact (nocPacketReceive_absent hgone).trans (congrArg Host.Outcome.next (State.arrives_taken hacc))
    · refine (nocPacketReceive_carried hacc huid ha hyes).trans ?_
      rw [← huid]
      exact withGroup_delivered (u := s.taken p.pkt) ha

end Sys2Proof.Machine
end

section
/-! SUPPORT. CTXSAVE and CTXLOAD once their checks pass, from the checks to the report. -/

namespace Sys2Proof.Machine

section
variable {s u v w : State} {d a b : SReg} {ctx : BitVec 12} {pa : Nat} {c : Ctx} (hquiet : s.cur.accs = [])
include hquiet

theorem State.quiet_of_no_access : s.quiet = true := by simp [State.quiet, hquiet]

/-- A CTXSAVE of a HALTED context comes to its save. -/
theorem exec_ctxsave_ready {free : Bool} (hready : SReady s .mach [d, a, b] false)
    (hrange : s.checkRange .write (s.sget a) 4096 64 = ⟨.inr pa, u⟩) (hctx : u.imageCtx? ctx.toNat = some c) (hst : c.st = .halted) :
    exec (.ctxsave free d a b ctx) s = .next (u.saveCtx free d (s.sget a) (s.sget b).toNat c) := by
  change Host.Outcome.next (s.sIssue _ _ _ _) = _
  rw [State.sIssue_ready hready]
  simp [State.quiet_of_no_access hquiet, hrange, hctx, hst]

/-- A CTXLOAD whose header is read comes to its load. -/
theorem exec_ctxload_ready {hdr : List Byte} (hready : SReady s .mach [d, a] false)
    (hrange : s.checkRange .read (s.sget a) 4096 128 = ⟨.inr pa, u⟩) (hhdr : u.getBytes (s.sget a) 8 = (.inr hdr, v))
    (hctx : v.imageCtx? ctx.toNat = some c) (hst : c.st = .empty) :
    exec (.ctxload d a ctx) s = .next (v.loadCtx d (s.sget a) hdr c) := by
  change Host.Outcome.next (s.sIssue _ _ _ _) = _
  rw [State.sIssue_ready hready]
  simp [State.quiet_of_no_access hquiet, hrange, hhdr, hctx, hst]

end

/-- A register reads the report that an instruction left in it. -/
theorem State.sget_report (s : State) (r : SReg) (v : Word) (n : Nat) (h : r.toNat < 96) : ((s.sput r v).nextPc n).sget r = v :=
  SState.get_put_same s.cur.s r v (by omega)

/-- The state after a save whose every line was written: with .FREE the context is gone but for its EMPTY record. -/
def State.afterSave (w : State) (free : Bool) (id : Nat) : State :=
  if free then (w.dropCtx id).mapCtx id fun x => { x with st := .empty } else w

/-- A save that fits its range, whose pages pass and whose lines are written reports the length of the image. -/
theorem State.saveCtx_written {s1 u v w : State} {free : Bool} {d : SReg} {base : Word} {cap len : Nat} {c : Ctx} {ss : List Sect}
    (hs1 : (u.teamsInOrder c.id).foldl State.settleFrames u = s1) (hss : s1.sects c.id = ss) (hlen : imageLength ss = len)
    (hcap : len ≤ cap) (hpages : s1.imagePages .write base len = (none, v))
    (hlines : (({ v with fresh := v.fresh + (u.ctxGrids c.id).length } : State).mapCtx c.id fun x =>
      { x with counter := c.counter + 1, kept := s1.keptOf c.id }).putLines
      (linesFrom base (s1.imageBytes c ss (c.counter + 1))) = (true, w)) :
    u.saveCtx free d base cap c = ((w.afterSave free c.id).sput d (BitVec.ofNat 64 (len * 2 ^ 32))).nextPc 8 := by
  unfold State.saveCtx State.afterSave
  simp only [hs1, hss, hlen, if_neg (Nat.not_lt.mpr hcap), hpages, hlines]
  rfl

/-- A context that was set EMPTY is EMPTY. -/
theorem State.st_of_mapCtx_empty {u : State} {id : Nat} {x : Ctx} (hx : x ∈ (u.mapCtx id fun x => { x with st := .empty }).ctxs)
    (hid : x.id = id) : x.st = .empty := by
  obtain ⟨y, -, rfl⟩ := List.mem_map.mp hx
  by_cases hyid : (y.id == id) = true
  · rw [if_pos hyid]
  · rw [if_neg hyid] at hid
    exact absurd (beq_iff_eq.mpr hid) hyid

/-- Settles O27: the checks pass one by one, and the register takes the report. -/
theorem saveAndLoadReportOk : Obligations.SaveAndLoadReportOk := by
  unfold Obligations.SaveAndLoadReportOk
  intro s u v w d a b ctx pa c hquiet
  refine ⟨fun free hready hrange _ hctx hst hcap hpages hlines _ hd => ?_,
    fun hdr ss x y hready hrange hhdr hctx hst hread hok hinst => ?_⟩
  · refine ⟨_, exec_ctxsave_ready hquiet hready hrange hctx hst, fun hfree => ?_, fun hfree _ => ?_⟩
    · rw [State.saveCtx_written rfl rfl rfl hcap hpages hlines, hfree]
      rfl
    · rw [State.saveCtx_written rfl rfl rfl hcap hpages hlines, hfree]
      refine ⟨State.sget_report (w.afterSave true c.id) d _ 8 hd, fun x hx hid => ?_⟩
      rw [State.nextPc_ctxs, State.sput_ctxs] at hx
      exact State.st_of_mapCtx_empty hx hid
  · rw [exec_ctxload_ready hquiet hready hrange hhdr hctx hst]
    simp [State.loadCtx, hread, hok, hinst]

end Sys2Proof.Machine
end

section
/-! SUPPORT. The migration slot of a function, and the commands of MIGCTL over the contexts of a function. -/

namespace Sys2Proof.Machine

/-! ### The slot of a function -/

theorem State.mig_f (s : State) (f : Nat) : (s.mig f).f = f := by
  unfold State.mig findD
  cases h : s.migs.find? fun m => m.f == f with
  | none => rfl
  | some m => simpa using List.find?_some h

theorem State.mig_putMig_same {s : State} {m : Mig} {f : Nat} (h : m.f = f) : (s.putMig m).mig f = m := by
  simp [State.mig, State.putMig, findD, h]

theorem State.mig_putMig_ne {s : State} {m : Mig} {f k : Nat} (h : m.f = f) (hk : k ≠ f) : (s.putMig m).mig k = s.mig k := by
  have hmf : (m.f == k) = false := by simpa [h] using Ne.symm hk
  have hkeep : ∀ l : List Mig, (l.filter fun x => x.f != m.f).find? (fun x => x.f == k) = l.find? fun x => x.f == k := by
    intro l
    induction l with
    | nil => rfl
    | cons x xs ih =>
      by_cases hx : x.f = k
      · have hxm : (x.f != m.f) = true := by simpa [hx, h] using hk
        rw [List.filter_cons_of_pos (by exact hxm), List.find?_cons_of_pos (by simpa using hx), List.find?_cons_of_pos (by simpa using hx)]
      · rw [List.find?_cons_of_neg (by simpa using hx), List.filter_cons]
        split
        · rw [List.find?_cons_of_neg (by simpa using hx), ih]
        · exact ih
  simp [State.mig, State.putMig, findD, hmf, hkeep]

theorem State.mig_of_migs {s t : State} (h : t.migs = s.migs) (f : Nat) : t.mig f = s.mig f := by unfold State.mig; rw [h]

theorem fnOk_of {f : Nat} (h1 : 1 ≤ f) (h2 : f ≤ 63) : fnOk f = true := by simp [fnOk, h1, h2]

/-! ### A command over several contexts -/

/-- An action on contexts that changes only the record of the one it names. -/
def Single (F : State → Ctx → State) : Prop := ∀ s c i, i ≠ c.id → (F s c).ctx? i = s.ctx? i

theorem Single.foldl_other {F : State → Ctx → State} (hF : Single F) {i : Nat} :
    ∀ (l : List Ctx) (s : State), (∀ c ∈ l, i ≠ c.id) → (l.foldl F s).ctx? i = s.ctx? i
  | [], _, _ => rfl
  | c :: l, s, h => (hF.foldl_other l (F s c) fun x hx => h x (List.mem_cons_of_mem _ hx)).trans (hF s c i (h c (List.mem_cons_self ..)))

/-- Each context of the list gets its own action, from a state where its record stands as at first. -/
theorem Single.foldl_at {F : State → Ctx → State} (hF : Single F) {K : State → Prop} (hK : ∀ s c, K s → K (F s c)) {c : Ctx} :
    ∀ (l : List Ctx) (s : State), K s → (l.map Ctx.id).Nodup → c ∈ l →
      ∃ u, K u ∧ u.ctx? c.id = s.ctx? c.id ∧ (l.foldl F s).ctx? c.id = (F u c).ctx? c.id
  | [], _, _, _, hc => nomatch hc
  | x :: l, s, hs, hn, hc => by
    obtain ⟨hx, hl⟩ := List.nodup_cons.mp hn
    rcases List.mem_cons.mp hc with rfl | hc
    · have hne : ∀ y ∈ l, c.id ≠ y.id := fun y hy he => hx (he ▸ List.mem_map_of_mem hy)
      exact ⟨s, hs, rfl, hF.foldl_other l _ hne⟩
    · have hne : c.id ≠ x.id := fun he => hx (he ▸ List.mem_map_of_mem hc)
      obtain ⟨u, hu, hctx, hfold⟩ := hF.foldl_at hK l (F s x) (hK s x hs) hl hc
      exact ⟨u, hu, hctx.trans (hF s x c.id hne), hfold⟩

theorem State.ctx?_mapCtx_ne {s : State} {k i : Nat} {f : Ctx → Ctx} (hf : ∀ x, (f x).id = x.id) (h : i ≠ k) :
    (s.mapCtx k f).ctx? i = s.ctx? i := find?_mapIf_ne (key := Ctx.id) hf s.ctxs h

/-! ### The contexts of a function -/

theorem State.mem_fnCtxs {s : State} {f : Nat} {c : Ctx} (h : c ∈ s.fnCtxs f) : c ∈ s.ctxs ∧ c.id ≠ 0 := by
  unfold State.fnCtxs at h
  split at h
  · cases h
  · obtain ⟨hc, hp⟩ := List.mem_filter.mp h
    exact ⟨hc, by simpa using (Bool.and_eq_true_iff.mp hp).1⟩

theorem State.fnCtxs_nodup {s : State} (f : Nat) (h : (s.ctxs.map Ctx.id).Nodup) : ((s.fnCtxs f).map Ctx.id).Nodup := by
  unfold State.fnCtxs
  split
  · exact List.nodup_nil
  · exact h.sublist (List.filter_sublist.map Ctx.id)

theorem State.ctx?_of_mem {s : State} {c : Ctx} (hn : (s.ctxs.map Ctx.id).Nodup) (hc : c ∈ s.ctxs) : s.ctx? c.id = some c := by
  unfold State.ctx?
  generalize s.ctxs = l at hn hc
  induction l with
  | nil => cases hc
  | cons x l ih =>
    obtain ⟨hx, hl⟩ := List.nodup_cons.mp hn
    rcases List.mem_cons.mp hc with rfl | hc
    · simp
    · have hne : x.id ≠ c.id := fun he => hx (he ▸ List.mem_map_of_mem hc)
      rw [List.find?_cons_of_neg (by simpa using hne)]
      exact ih hl hc

/-! ### ASK of each context -/

/-- One step of STOP: the context stands unstruck, and is asked. -/
def State.askStep (s : State) (c : Ctx) : State := (s.mapCtx c.id fun x => { x with struck := false }).askCtx c.id

theorem State.ctxs_cancelMove (s : State) (ctx : Nat) : (s.cancelMove ctx).ctxs = s.ctxs :=
  congrArg Prod.fst (s.ledger_cancelMove ctx)

theorem State.ctx?_cancelMove (s : State) (ctx i : Nat) : (s.cancelMove ctx).ctx? i = s.ctx? i := by
  unfold State.ctx?
  rw [State.ctxs_cancelMove]

theorem State.migs_cancelMove (s : State) (ctx : Nat) : (s.cancelMove ctx).migs = s.migs := by
  unfold State.cancelMove State.withdrawMove
  dsimp only
  split
  · split <;> rfl
  · rfl

theorem State.ctx?_checkParked_ne (s : State) {k i : Nat} (h : i ≠ k) : (s.checkParked k).ctx? i = s.ctx? i := by
  unfold State.checkParked
  split
  · rfl
  · dsimp only
    split
    · exact (State.ctx?_mapCtx_ne (by exact fun _ => rfl) h).trans (s.ctx?_cancelMove k i)
    · rfl

theorem State.migs_checkParked (s : State) (k : Nat) : (s.checkParked k).migs = s.migs := by
  unfold State.checkParked
  split
  · rfl
  · dsimp only
    split
    · exact s.migs_cancelMove k
    · rfl

/-- An asked context stays asked, or halts with PARKED. -/
theorem State.checkParked_asked {s : State} {k : Nat} {c : Ctx} (hc : s.ctx? k = some c) (hst : c.st = .asked) :
    ∃ x, (s.checkParked k).ctx? k = some x ∧ x.struck = c.struck ∧ (x.st = .asked ∨ x.st = .halting) := by
  unfold State.checkParked
  simp only [hc]
  split
  · exact ⟨_, State.ctx?_mapCtx ((s.ctx?_cancelMove k k).trans hc) fun _ => rfl, rfl, .inr rfl⟩
  · exact ⟨c, hc, rfl, .inl hst⟩

theorem State.ctx?_askCtx_ne (s : State) {k i : Nat} (h : i ≠ k) : (s.askCtx k).ctx? i = s.ctx? i := by
  unfold State.askCtx
  split
  · rfl
  · split
    · exact (State.ctx?_checkParked_ne _ h).trans (State.ctx?_mapCtx_ne (by exact fun _ => rfl) h)
    · rfl

theorem State.migs_askCtx (s : State) (k : Nat) : (s.askCtx k).migs = s.migs := by
  unfold State.askCtx
  split
  · rfl
  · split
    · exact State.migs_checkParked _ k
    · rfl

theorem single_askStep : Single State.askStep := fun s _ _ h =>
  (State.ctx?_askCtx_ne _ h).trans (State.ctx?_mapCtx_ne (by exact fun _ => rfl) h)

theorem State.askStep_asks {s : State} {c : Ctx} (h0 : c.id ≠ 0) (hc : s.ctx? c.id = some c) (hst : c.st = .run) :
    ∃ x, (s.askStep c).ctx? c.id = some x ∧ x.struck = false ∧ (x.st = .asked ∨ x.st = .halting) := by
  have hclear : (s.mapCtx c.id fun x => { x with struck := false }).ctx? c.id = some { c with struck := false } :=
    State.ctx?_mapCtx hc fun _ => rfl
  have hreal : (s.mapCtx c.id fun x => { x with struck := false }).realCtx? c.id = some { c with struck := false } :=
    State.realCtx?_of (c := { c with struck := false }) h0 hclear
  unfold State.askStep State.askCtx
  simp only [hreal]
  rw [if_pos (by simp [hst])]
  have hasked := State.ctx?_mapCtx (f := fun c => { c with st := .asked, grace0 := s.time, parkedHalt := false }) hclear fun _ => rfl
  exact State.checkParked_asked hasked rfl

/-! ### RESUME of each HALTED context -/

/-- One step of ABORT and RESUME: a HALTED context resumes. -/
def State.resumeStep (s : State) (c : Ctx) : State := if c.st == .halted then s.resumeCtx c.id else s

theorem State.ctx?_resumeCtx_ne (s : State) {k i : Nat} (h : i ≠ k) : (s.resumeCtx k).ctx? i = s.ctx? i := by
  unfold State.resumeCtx
  split
  · rfl
  · split
    · exact State.ctx?_mapCtx_ne (by exact fun _ => rfl) h
    · rfl

theorem State.resumeCtx_keeps (s : State) (k : Nat) :
    (s.resumeCtx k).migs = s.migs ∧ (s.resumeCtx k).dev = s.dev ∧ (s.resumeCtx k).mem = s.mem := by
  unfold State.resumeCtx
  split
  · exact ⟨rfl, rfl, rfl⟩
  · split <;> exact ⟨rfl, rfl, rfl⟩

theorem State.resumeStep_keeps (s : State) (c : Ctx) :
    (s.resumeStep c).migs = s.migs ∧ (s.resumeStep c).dev = s.dev ∧ (s.resumeStep c).mem = s.mem := by
  unfold State.resumeStep
  split
  · exact s.resumeCtx_keeps c.id
  · exact ⟨rfl, rfl, rfl⟩

theorem single_resumeStep : Single State.resumeStep := fun s c i h => by
  unfold State.resumeStep
  split
  · exact s.ctx?_resumeCtx_ne h
  · rfl

theorem State.resumeStep_runs {s : State} {c : Ctx} (h0 : c.id ≠ 0) (hc : s.ctx? c.id = some c) (hst : c.st = .halted)
    (hch : c.challenge = none) (hb : s.dev.biv = .awake) : ∃ x, (s.resumeStep c).ctx? c.id = some x ∧ x.st = .run := by
  rw [State.resumeStep, if_pos (by simp [hst]), State.resumeCtx_runs h0 hc (.inr hst) hch hb]
  exact ⟨_, State.ctx?_mapCtx hc fun _ => rfl, rfl⟩

/-! ### The commands -/

/-- A command that only sets the slot of its function. -/
def SetsMig (s t : State) (f : Nat) (x : Mig) : Prop := t.mig f = x ∧ (∀ k, k ≠ f → t.mig k = s.mig k) ∧ t = { s with migs := t.migs }

theorem SetsMig.of_putMig (s : State) {f : Nat} {x : Mig} (h : x.f = f) : SetsMig s (s.putMig x) f x :=
  ⟨State.mig_putMig_same h, fun _ hk => State.mig_putMig_ne h hk, rfl⟩

section
variable {s : State} {f : Nat} (h1 : 1 ≤ f) (h2 : f ≤ 63) (hon : s.mgmtOn = true)
include h1 h2 hon

theorem migPrecopy_running (hst : (s.mig f).st = .running) : s.migPrecopy f =
    s.putMig { s.mig f with st := .precopy, lost := false, seq := 0, track := true, clean := [] } := by
  simp [State.migPrecopy, fnOk_of h1 h2, hon, hst]

theorem migReceive_running (hst : (s.mig f).st = .running) (hno : s.fnCtxs f = []) : s.migReceive f =
    s.putMig { s.mig f with st := .resuming, lost := false, seq := 0 } := by
  simp [State.migReceive, fnOk_of h1 h2, hon, hst, hno]

theorem writeMigDirty_on (v : Word) : s.writeMigDirty f v = s.putMig { s.mig f with dirty := v &&& 0x000FFFFFFFFFF000 } := by
  simp [State.writeMigDirty, fnOk_of h1 h2, hon]

theorem migStop_precopy (hst : (s.mig f).st = .precopy) : s.migStop f =
    (s.fnCtxs f).foldl State.askStep (s.putMig { s.mig f with st := .stopping }) := by
  simp only [State.migStop, fnOk_of h1 h2, hon, hst]
  rfl

theorem migAbort_begun (hst : (s.mig f).st = .precopy ∨ (s.mig f).st = .stopping) : s.migAbort f =
    (s.fnCtxs f).foldl State.resumeStep (s.putMig { s.mig f with st := .running, track := false, clean := [] }) := by
  rcases hst with hst | hst
  all_goals
    simp only [State.migAbort, fnOk_of h1 h2, hon, hst]
    rfl

theorem migResume_resuming (hst : (s.mig f).st = .resuming) : s.migResume f =
    (s.fnCtxs f).foldl State.resumeStep (s.putMig { s.mig f with st := .running }) := by
  simp only [State.migResume, fnOk_of h1 h2, hon, hst]
  rfl

end

section
variable {s : State} {f : Nat} {x : Mig} (hx : x.f = f) (hn : (s.ctxs.map Ctx.id).Nodup)
include hx hn

/-- STOP asks every running context of the function. -/
theorem askEach_asks : ((s.fnCtxs f).foldl State.askStep (s.putMig x)).mig f = x ∧
    ∀ c ∈ s.fnCtxs f, c.st = .run → ∃ y, ((s.fnCtxs f).foldl State.askStep (s.putMig x)).ctx? c.id = some y ∧
      y.struck = false ∧ (y.st = .asked ∨ y.st = .halting) := by
  refine ⟨?_, fun c hc hst => ?_⟩
  · have hmigs := foldl_keeps (p := State.migs) (f := State.askStep) (fun u c => State.migs_askCtx _ c.id) (s.fnCtxs f) (s.putMig x)
    exact (State.mig_of_migs hmigs f).trans (State.mig_putMig_same hx)
  · obtain ⟨hmem, h0⟩ := State.mem_fnCtxs hc
    obtain ⟨u, -, hctx, hfold⟩ := single_askStep.foldl_at (K := fun _ => True) (fun _ _ h => h) (s.fnCtxs f) (s.putMig x) trivial
      (s.fnCtxs_nodup f hn) hc
    rw [hfold]
    exact State.askStep_asks h0 (hctx.trans (State.ctx?_of_mem hn hmem)) hst

/-- ABORT and RESUME resume every HALTED context of the function that no challenge holds. -/
theorem resumeEach_resumes (hb : s.dev.biv = .awake) : ((s.fnCtxs f).foldl State.resumeStep (s.putMig x)).mig f = x ∧
    (∀ c ∈ s.fnCtxs f, c.st = .halted → c.challenge = none →
      ∃ y, ((s.fnCtxs f).foldl State.resumeStep (s.putMig x)).ctx? c.id = some y ∧ y.st = .run) ∧
    ((s.fnCtxs f).foldl State.resumeStep (s.putMig x)).mem = s.mem := by
  refine ⟨?_, fun c hc hst hch => ?_, ?_⟩
  · have hmigs := foldl_keeps (p := State.migs) (fun u c => (State.resumeStep_keeps u c).1) (s.fnCtxs f) (s.putMig x)
    exact (State.mig_of_migs hmigs f).trans (State.mig_putMig_same hx)
  · obtain ⟨hmem, h0⟩ := State.mem_fnCtxs hc
    obtain ⟨u, hu, hctx, hfold⟩ := single_resumeStep.foldl_at (K := fun u => u.dev.biv = .awake)
      (fun u c h => (State.resumeStep_keeps u c).2.1 ▸ h) (s.fnCtxs f) (s.putMig x) hb (s.fnCtxs_nodup f hn) hc
    rw [hfold]
    exact State.resumeStep_runs h0 (hctx.trans (State.ctx?_of_mem hn hmem)) hst hch hu
  · exact foldl_keeps (p := State.mem) (fun u c => (State.resumeStep_keeps u c).2.2) (s.fnCtxs f) (s.putMig x)

end

end Sys2Proof.Machine
end

section
/-! SUPPORT. The dirty report and the window of a function, and the obligation of migration. -/

namespace Sys2Proof.Machine

/-! ### Lines written one after the other -/

/-- Writes of whole lines from a place on, line by line. -/
def State.writeLines (s : State) (w : Byte) (at' : Nat → Nat) (piece : Nat → List Byte) (n : Nat) : State :=
  (List.range n).foldl (fun s i => s.memWrite w (at' i) (piece i)) s

section
variable {w : Byte} {at' : Nat → Nat} {piece : Nat → List Byte} {s : State} {base n : Nat}

theorem State.writeLines_succ : s.writeLines w at' piece (n + 1) = (s.writeLines w at' piece n).memWrite w (at' n) (piece n) := by
  simp [State.writeLines, List.range_succ]

theorem State.writeLines_wf (hm : s.mem.wf = true) : (s.writeLines w at' piece n).mem.wf = true := by
  induction n with
  | zero => exact hm
  | succ n ih => rw [State.writeLines_succ]; exact State.wf_memWrite w _ _ ih

theorem State.writeLines_dev : (s.writeLines w at' piece n).dev = s.dev := foldl_keeps (f := fun s i => State.memWrite s w (at' i) (piece i)) (p := State.dev) (fun _ _ => rfl) _ s

theorem State.writeLines_genOf (o : Byte) : (s.writeLines w at' piece n).genOf o = s.genOf o :=
  foldl_keeps (f := fun s i => State.memWrite s w (at' i) (piece i)) (p := fun s => s.genOf o) (fun _ _ => rfl) _ s

/-- The bytes of the lines stand from the base on, and no other byte changes. -/
theorem State.writeLines_get (hm : s.mem.wf = true) (hat : ∀ i, i < n → at' i = base + 64 * i)
    (hplace : ∀ (t : State) i, i < n → t.place (at' i) = at' i) (hlen : ∀ i, i < n → (piece i).length = 64) (x : Nat) :
    (s.writeLines w at' piece n).mem.get x =
      if base ≤ x ∧ x < base + 64 * n then (piece ((x - base) / 64)).getD ((x - base) % 64) 0 else s.mem.get x := by
  induction n with
  | zero => exact (if_neg (by omega)).symm
  | succ n ih =>
    have hlt : n < n + 1 := Nat.lt_succ_self n
    rw [State.writeLines_succ, State.memWrite_get w _ (hplace _ n hlt) (State.writeLines_wf hm), hat n hlt, hlen n hlt,
      ih (fun i hi => hat i (by omega)) (fun t i hi => hplace t i (by omega)) fun i hi => hlen i (by omega)]
    by_cases hlast : base + 64 * n ≤ x ∧ x < base + 64 * n + 64
    · have hdiv : (x - base) / 64 = n := by omega
      have hmod : (x - base) % 64 = x - (base + 64 * n) := by omega
      rw [if_pos hlast, if_pos (by omega), hdiv, hmod]
    · rw [if_neg hlast]
      exact if_congr (by omega) rfl rfl

end

/-! ### The dirty bitmap -/

/-- The first `n` bits of the pages from one on: a bit for each page that is not clean. -/
def pageBits (clean : List Nat) (first n : Nat) : Nat :=
  (List.range n).foldl (fun n k => if clean.contains (first + k) then n else n + 2 ^ k) 0

theorem pageBits_succ (clean : List Nat) (first n : Nat) :
    pageBits clean first (n + 1) = if clean.contains (first + n) then pageBits clean first n else pageBits clean first n + 2 ^ n := by
  simp [pageBits, List.range_succ]

theorem pageBits_lt (clean : List Nat) (first n : Nat) : pageBits clean first n < 2 ^ n := by
  induction n with
  | zero => exact Nat.one_pos
  | succ n ih =>
    rw [pageBits_succ]
    split <;> omega

theorem testBit_pageBits {clean : List Nat} {first n k : Nat} (hk : k < n) :
    (pageBits clean first n).testBit k = true ↔ first + k ∉ clean := by
  induction n with
  | zero => omega
  | succ n ih =>
    have htop : (pageBits clean first n).testBit n = false := Nat.testBit_lt_two_pow (pageBits_lt clean first n)
    rw [pageBits_succ]
    by_cases hkn : k = n
    · subst hkn
      by_cases hc : first + k ∈ clean
      · simp [hc, htop]
      · simp [hc, Nat.add_comm (pageBits ..), Nat.testBit_two_pow_add_eq, htop]
    · have hlt : k < n := by omega
      split
      · exact ih hlt
      · rw [Nat.add_comm, Nat.testBit_two_pow_add_gt hlt]
        exact ih hlt

theorem getLsbD_dirtyByte {clean slices : List Nat} {i k : Nat} (hk : k < 8) :
    (dirtyByte clean slices i).getLsbD k = true ↔ slicePage (slices.getD (i / 196608) 0) + 8 * (i % 196608) + k ∉ clean := by
  have hbits : dirtyByte clean slices i =
      BitVec.ofNat 8 (pageBits clean (slicePage (slices.getD (i / 196608) 0) + 8 * (i % 196608)) 8) := rfl
  rw [hbits, BitVec.getLsbD_ofNat, ← testBit_pageBits hk]
  simp [hk]

/-! ### The report (R344) -/

theorem place_host (t : State) {a : Nat} (h : a < 2 ^ 50) : t.place (2 ^ 50 + a) = 2 ^ 50 + a := by
  have ht : targetOf (2 ^ 50 + a) = .host := by
    have hdiv : (2 ^ 50 + a) >>> 50 = 1 := by rw [Nat.shiftRight_eq_div_pow]; omega
    rw [targetOf, hdiv]
    rfl
  rw [State.place, ht]

theorem State.migLen_lines (s : State) (f : Nat) : 64 * (s.migLen f / 64) = s.migLen f := by unfold State.migLen; omega

theorem State.dirtyReport_get {s : State} {f : Nat} (hm : s.mem.wf = true) (hfit : (s.mig f).dirty.toNat + s.migLen f ≤ 2 ^ 50) (x : Nat) :
    (s.dirtyReport f).mem.get x =
      if 2 ^ 50 + (s.mig f).dirty.toNat ≤ x ∧ x < 2 ^ 50 + (s.mig f).dirty.toNat + s.migLen f then
        dirtyByte (s.mig f).clean (s.fnSlices f) (x - (2 ^ 50 + (s.mig f).dirty.toNat)) else s.mem.get x := by
  have hlines := s.migLen_lines f
  have hhost : ∀ i, i < s.migLen f / 64 → hostPa ((s.mig f).dirty.toNat + 64 * i) = 2 ^ 50 + (s.mig f).dirty.toNat + 64 * i := by
    intro i hi
    unfold hostPa
    omega
  have hget := State.writeLines_get (w := 0) (s := s) (piece := fun i =>
    (List.range 64).map fun k => dirtyByte (s.mig f).clean (s.fnSlices f) (64 * i + k)) hm hhost
    (fun t i hi => by rw [hhost i hi, Nat.add_assoc]; exact place_host t (by omega)) (fun _ _ => by simp) x
  refine hget.trans (if_congr (by omega) ?_ rfl)
  generalize x - (2 ^ 50 + (s.mig f).dirty.toNat) = y
  have hy : y % 64 < 64 := Nat.mod_lt _ (by decide)
  rw [List.getD_eq_getElem _ _ (by simpa using hy), List.getElem_map, List.getElem_range, Nat.div_add_mod]

theorem migStopped_ends {s : State} {f : Nat} (h1 : 1 ≤ f) (h2 : f ≤ 63) (hon : s.mgmtOn = true) (hst : (s.mig f).st = .stopping)
    (hd : (s.mig f).dirty ≠ 0) (hempty : ∀ c ∈ s.fnCtxs f, c.st = .empty) :
    exec (.migStopped f) s =
      .next ((s.dirtyReport f).putMig { s.mig f with st := .stopped, lost := (s.fnCtxs f).any Ctx.struck }) := by
  have hall : ((s.fnCtxs f).all fun c => c.st == .empty) = true := List.all_eq_true.mpr fun c hc => by simp [hempty c hc]
  have hwritten : ((s.mig f).dirty != 0) = true := by simpa using hd
  refine congrArg Host.Outcome.next (if_pos ?_)
  rw [fnOk_of h1 h2, hon, hst, hwritten, hall]
  rfl

/-! ### The lines of a page -/

theorem find?_putLine_same (l : Line) (ls : List Line) : (putLine l ls).find? (fun x => x.line == l.line) = some l := by
  induction ls with
  | nil => simp [putLine]
  | cons x xs ih =>
    unfold putLine
    split
    · simp
    · split
      · simp
      · next hne => rw [List.find?_cons_of_neg (by simpa using hne), ih]

theorem find?_putLine_ne {l : Line} {k : Nat} (hk : k ≠ l.line) (ls : List Line) :
    (putLine l ls).find? (fun x => x.line == k) = ls.find? fun x => x.line == k := by
  have hl : (l.line == k) = false := by simpa using Ne.symm hk
  induction ls with
  | nil => simp [putLine, hl]
  | cons x xs ih =>
    unfold putLine
    split
    · rw [List.find?_cons_of_neg (by simp [hl])]
    · split
      · next hx =>
        have hxk : (x.line == k) = false := by simpa [beq_iff_eq.mp hx] using hl
        rw [List.find?_cons_of_neg (by simp [hl]), List.find?_cons_of_neg (by simp [hxk])]
      · rw [List.find?_cons, List.find?_cons, ih]

section
variable {s : State} {w : Byte} {pa : Nat} {bs : List Byte} (hdev : targetOf pa = .device)
include hdev

theorem State.lines_memWrite : (s.memWrite w pa bs).lines = putLine ⟨pa / 64, some (w, s.genOf w), false⟩ s.lines := by
  have hlines : (s.memWrite w pa bs).lines = if (targetOf pa == Target.device || targetOf pa == Target.window) = true then
      putLine ⟨s.place pa / 64, some (w, s.genOf w), false⟩ s.lines else s.lines := rfl
  rw [hlines, if_pos (by simp [hdev]), State.place_of_device hdev]

theorem State.line?_of_device : s.line? pa = s.lines.find? fun l => l.line == pa / 64 := by rw [State.line?, State.place_of_device hdev]

theorem State.line?_memWrite_same : (s.memWrite w pa bs).line? pa = some ⟨pa / 64, some (w, s.genOf w), false⟩ := by
  rw [State.line?_of_device hdev, State.lines_memWrite hdev]
  exact find?_putLine_same ⟨pa / 64, some (w, s.genOf w), false⟩ s.lines

theorem State.line?_memWrite_ne {q : Nat} (hq : targetOf q = .device) (hne : q / 64 ≠ pa / 64) : (s.memWrite w pa bs).line? q = s.line? q := by
  rw [State.line?_of_device hq, State.line?_of_device hq, State.lines_memWrite hdev]
  exact find?_putLine_ne (l := ⟨pa / 64, some (w, s.genOf w), false⟩) hne s.lines

end

/-- Each line of device memory that was written belongs to the world it was written for. -/
theorem State.line?_writeLines {s : State} {w : Byte} {pa n i : Nat} {piece : Nat → List Byte}
    (hdev : ∀ i, i < n → targetOf (pa + 64 * i) = .device) (hi : i < n) :
    (s.writeLines w (fun i => pa + 64 * i) piece n).line? (pa + 64 * i) = some ⟨pa / 64 + i, some (w, s.genOf w), false⟩ := by
  induction n with
  | zero => omega
  | succ n ih =>
    have hlast := hdev n (Nat.lt_succ_self n)
    rw [State.writeLines_succ]
    by_cases hin : i = n
    · subst hin
      rw [State.line?_memWrite_same hlast, State.writeLines_genOf, Nat.add_mul_div_left _ _ (by decide)]
    · have hlt : i < n := by omega
      rw [State.line?_memWrite_ne hlast (hdev i hi) (by omega), ih (fun j hj => hdev j (by omega)) hlt]

/-! ### A descriptor of the window (R343) -/

/-- A descriptor that its turn serves: posted, the lowest of its window and the next in number, with a page of the function. -/
structure Served (s : State) (f idx op : Nat) : Prop where
  fn     : fnOk f = true
  slot   : idx < 15
  op     : fieldAt (s.migDesc f idx) 16 1 = op
  posted : fieldAt (s.migDesc f idx) 17 1 = 1
  first  : s.migFirst f (fieldAt (s.migDesc f idx) 0 8) = true
  next   : fieldAt (s.migDesc f idx) 0 8 = (s.mig f).seq + 1
  page   : fieldAt (s.migDesc f idx) 8 8 % 4096 = 0
  owned  : s.fnOwns f (fieldAt (s.migDesc f idx) 8 8) = true

theorem Served.serve {s : State} {f idx op : Nat} (h : Served s f idx op) (go : State → Nat → Nat → State) :
    s.serve f idx op go = go s (fieldAt (s.migDesc f idx) 0 8) (fieldAt (s.migDesc f idx) 8 8) := by
  have hfirst := h.first
  rw [h.next] at hfirst ⊢
  unfold State.serve
  simp [h.fn, h.op, h.posted, h.next, hfirst, h.page, h.owned, Nat.not_le.mpr h.slot]

theorem targetOf_owned {s : State} {f pa i : Nat} (hown : s.fnOwns f pa = true) (hpage : pa % 4096 = 0) (hi : i < 64) :
    targetOf (pa + 64 * i) = .device := by
  have hlt : pa < 384 * 2 ^ 30 := by
    simp only [State.fnOwns, Bool.and_eq_true, decide_eq_true_eq] at hown
    exact hown.1.2
  have hdiv : (pa + 64 * i) >>> 50 = 0 := by rw [Nat.shiftRight_eq_div_pow]; omega
  simp [targetOf, hdiv]

theorem State.pageHeld_quiet {s : State} {pa : Nat} (h : ∀ i, i < 64 → s.levelHeld (pa + 64 * i) = false) : s.pageHeld pa = s := by
  have hnone : ((List.range 64).any fun i => s.levelHeld (pa + 64 * i)) = false :=
    List.any_eq_false.mpr fun i hi => by simp [h i (List.mem_range.mp hi)]
  unfold State.pageHeld State.holdIf
  exact if_neg (by simp [hnone])

section
variable {s : State} {f idx op : Nat}

/-- The page and the number that a descriptor names. -/
def State.descPage (s : State) (f idx : Nat) : Nat := fieldAt (s.migDesc f idx) 8 8
def State.descSeq (s : State) (f idx : Nat) : Nat := fieldAt (s.migDesc f idx) 0 8

/-- The ciphertext and tag of the page of a served READ. -/
def State.sealedPage (s : State) (f idx : Nat) : List Byte × List Byte :=
  gcmSeal (s.migKey (s.pageWorld (s.descPage f idx))) (migNonce (s.descSeq f idx) f) [] (s.memRead (s.descPage f idx) 4096)

theorem Mig.f_updated (m : Mig) (seq : Nat) (clean : List Nat) : ({ m with seq := seq, clean := clean } : Mig).f = m.f := rfl

/-- The slot of a function after a served READ. -/
def State.readMig (s : State) (f idx : Nat) : Mig :=
  { s.mig f with
    seq := s.descSeq f idx
    clean := s.descPage f idx / 4096 :: (s.mig f).clean.filter fun p => p != s.descPage f idx / 4096 }

/-- The device with other slots of the functions and other bytes in the window. -/
def State.withMigration (s : State) (migs : List Mig) (window : Cells) : State :=
  { s with migs := migs, dev := { s.dev with migwin := window } }

theorem State.withMigration_rest (s : State) (migs : List Mig) (window : Cells) : s.withMigration migs window =
    { s with migs := (s.withMigration migs window).migs
             dev := { s.dev with migwin := (s.withMigration migs window).dev.migwin } } := rfl

theorem State.putWindow_withMigration (s : State) (migs : List Mig) (window : Cells) (f off : Nat) (bs : List Byte) :
    (s.withMigration migs window).putWindow f off bs = s.withMigration migs (window.write (f * 65536 + off) bs) := rfl

theorem State.mig_putWindow {s : State} {m : Mig} {f : Nat} (hm : m.f = f) (off : Nat) (bs : List Byte) :
    ((s.putMig m).putWindow f off bs).mig f = m :=
  (State.mig_of_migs (s := s.putMig m) rfl f).trans (State.mig_putMig_same hm)

section
variable (s : State) (m : Mig) (f off : Nat) (bs : List Byte)

theorem State.mem_servedWrite : ((s.putMig m).putWindow f off bs).mem = s.mem := rfl

theorem State.line?_servedWrite (pa : Nat) : ((s.putMig m).putWindow f off bs).line? pa = s.line? pa := rfl

theorem State.migwin_servedWrite : ((s.putMig m).putWindow f off bs).dev.migwin = s.dev.migwin.write (f * 65536 + off) bs := rfl

end

theorem State.putMig_eq (s : State) (m : Mig) : s.putMig m = s.withMigration (s.putMig m).migs s.dev.migwin := rfl

/-- The slots after a served READ. -/
def State.readMigs (s : State) (f idx : Nat) : List Mig :=
  ((s.putMig { s.mig f with seq := s.descSeq f idx }).putMig (s.readMig f idx)).migs

/-- The device after a READ that is served with a ciphertext and a tag. -/
def State.readServed (s : State) (f idx : Nat) (e : List Byte × List Byte) : State :=
  s.withMigration (s.readMigs f idx) (((s.dev.migwin.write (f * 65536 + 4096 * (idx + 1)) e.1).write (f * 65536 + (64 * idx + 32)) e.2).write
    (f * 65536 + (64 * idx + 17)) [2])

theorem State.readServed_eq (s : State) (f idx : Nat) (e : List Byte × List Byte) :
    ((((s.putMig { s.mig f with seq := s.descSeq f idx }).putMig (s.readMig f idx)).putWindow f (4096 * (idx + 1)) e.1).putWindow
      f (64 * idx + 32) e.2).putWindow f (64 * idx + 17) [2] = s.readServed f idx e := by
  have htwice : (s.putMig { s.mig f with seq := s.descSeq f idx }).putMig (s.readMig f idx) =
      s.withMigration (s.readMigs f idx) s.dev.migwin := by
    rw [State.putMig_eq]
    rfl
  rw [htwice, State.putWindow_withMigration, State.putWindow_withMigration, State.putWindow_withMigration]
  rfl

theorem State.readServed_mig (s : State) (f idx : Nat) (e : List Byte × List Byte) : (s.readServed f idx e).mig f = s.readMig f idx := by
  have hf : (s.readMig f idx).f = f := by
    unfold State.readMig
    exact (Mig.f_updated _ _ _).trans (s.mig_f f)
  have hmigs : (s.readServed f idx e).migs = ((s.putMig { s.mig f with seq := s.descSeq f idx }).putMig (s.readMig f idx)).migs := rfl
  exact (State.mig_of_migs hmigs f).trans (State.mig_putMig_same hf)

theorem State.readServed_window (s : State) (f idx : Nat) (e : List Byte × List Byte) : (s.readServed f idx e).dev.migwin =
    ((s.dev.migwin.write (f * 65536 + 4096 * (idx + 1)) e.1).write (f * 65536 + 64 * idx + 32) e.2).write
      (f * 65536 + 64 * idx + 17) [2] := by
  rw [Nat.add_assoc (f * 65536) (64 * idx) 32, Nat.add_assoc (f * 65536) (64 * idx) 17]
  rfl

theorem migDescRead_served (h : Served s f idx 1) (hon : s.mgmtOn = true)
    (hst : (s.mig f).st = .precopy ∨ (s.mig f).st = .stopping ∨ (s.mig f).st = .stopped)
    (hgood : ∀ i, i < 64 → s.sliceErr (s.pageWorld (s.descPage f idx)) (s.descPage f idx + 64 * i) = none ∧
      s.levelHeld (s.descPage f idx + 64 * i) = false) :
    exec (.migDescRead f idx) s = .next (s.readServed f idx (s.sealedPage f idx)) := by
  have hturn : (s.mgmtOn && ((s.mig f).st == .precopy || (s.mig f).st == .stopping || (s.mig f).st == .stopped)) = true := by
    rcases hst with h | h | h <;> simp [hon, h]
  have hok : ((List.range 64).any fun i => ((s.putMig { s.mig f with seq := s.descSeq f idx }).sliceErr
      (s.pageWorld (s.descPage f idx)) (s.descPage f idx + 64 * i)).isSome) = false :=
    List.any_eq_false.mpr fun i hi => by
      have herr : (s.putMig { s.mig f with seq := s.descSeq f idx }).sliceErr (s.pageWorld (s.descPage f idx))
          (s.descPage f idx + 64 * i) = none := (hgood i (List.mem_range.mp hi)).1
      simp [herr]
  refine congrArg Host.Outcome.next ((if_pos hturn).trans ((h.serve _).trans ?_))
  change (if _ then _ else _) = _
  rw [show s.pageHeld (fieldAt (s.migDesc f idx) 8 8) = s from State.pageHeld_quiet fun i hi => (hgood i hi).2]
  rw [← State.readServed_eq]
  exact if_neg (Bool.eq_false_iff.mp hok)

/-- The page of a served WRITE, as it stands sealed in its slot, opens under the key of a world of the function. -/
def State.opensAs (s : State) (f idx : Nat) (w : Byte) (x : List Byte) : Prop :=
  (s.fnWorlds f).findSome? (fun w => (gcmOpen (s.migKey w) (migNonce (s.descSeq f idx) f) []
    (s.dev.migwin.read (f * 65536 + 4096 * (idx + 1)) 4096) (((s.migDesc f idx).drop 32).take 16)).map fun x => (w, x)) = some (w, x)

/-- The page written line by line for a world. -/
def State.pageWritten (s : State) (w : Byte) (pa : Nat) (x : List Byte) : State :=
  (s.pageHeld pa).writeLines w (fun i => pa + 64 * i) (fun i => (x.drop (64 * i)).take 64) 64

theorem migDescWrite_served (h : Served s f idx 2) (hon : s.mgmtOn = true) (hst : (s.mig f).st = .resuming) {w : Byte} {x : List Byte}
    (hopen : s.opensAs f idx w x) :
    exec (.migDescWrite f idx) s = .next (((s.pageWritten w (s.descPage f idx) x).putMig { s.mig f with seq := s.descSeq f idx }).putWindow
      f (64 * idx + 17) [2]) := by
  have hturn : (s.mgmtOn && (s.mig f).st == .resuming) = true := by simp [hon, hst]
  refine congrArg Host.Outcome.next ((if_pos hturn).trans ((h.serve _).trans ?_))
  unfold State.opensAs State.descSeq at hopen
  dsimp only
  rw [hopen]
  rfl

/-- The bytes and the owner of a page after a served WRITE. -/
theorem pageWritten_page (h : Served s f idx op) (hm : s.mem.wf = true) {w : Byte} {x : List Byte} (hx : x.length = 4096) :
    (∀ a, (s.pageWritten w (s.descPage f idx) x).mem.get a =
      if s.descPage f idx ≤ a ∧ a < s.descPage f idx + 4096 then x.getD (a - s.descPage f idx) 0 else s.mem.get a) ∧
    ∀ i, i < 64 → (s.pageWritten w (s.descPage f idx) x).line? (s.descPage f idx + 64 * i) =
      some ⟨s.descPage f idx / 64 + i, some (w, s.genOf w), false⟩ := by
  have hdev : ∀ i, i < 64 → targetOf (s.descPage f idx + 64 * i) = .device := fun i hi => targetOf_owned h.owned h.page hi
  have hheld : (s.pageHeld (s.descPage f idx)).mem = s.mem ∧
      (s.pageHeld (s.descPage f idx)).genOf w = s.genOf w := by
    unfold State.pageHeld State.holdIf
    split <;> exact ⟨rfl, rfl⟩
  refine ⟨fun a => ?_, fun i hi => ?_⟩
  · refine (State.writeLines_get (base := s.descPage f idx) (hheld.1 ▸ hm) (fun _ _ => rfl)
      (fun t i hi => State.place_of_device (hdev i hi)) (fun i hi => by simp [hx]; omega) a).trans ?_
    refine if_congr Iff.rfl ?_ (by rw [hheld.1])
    rw [List.getD_eq_getElem?_getD, List.getD_eq_getElem?_getD, List.getElem?_take_of_lt (Nat.mod_lt _ (by decide)), List.getElem?_drop,
      Nat.div_add_mod]
  · exact (State.line?_writeLines hdev hi).trans (by rw [hheld.2])

end

/-! ### The obligation -/

theorem migration_ofFunction {s : State} {f : Nat} (h1 : 1 ≤ f) (h2 : f ≤ 63) (hon : s.mgmtOn = true) (hst : (s.mig f).st = .stopping)
    (hd : (s.mig f).dirty ≠ 0) (hempty : ∀ c ∈ s.fnCtxs f, c.st = .empty) (hm : s.mem.wf = true)
    (hfit : (s.mig f).dirty.toNat + s.migLen f ≤ 2 ^ 50) :
    ∃ t, exec (.migStopped f) s = .next t ∧ t.mig f = { s.mig f with st := .stopped, lost := (s.fnCtxs f).any Ctx.struck } ∧
      (∀ i k, i < s.migLen f → k < 8 →
        ((t.mem.get (2 ^ 50 + (s.mig f).dirty.toNat + i)).getLsbD k = true ↔
          slicePage ((s.fnSlices f).getD (i / 196608) 0) + 8 * (i % 196608) + k ∉ (s.mig f).clean)) ∧
      (∀ a, a < 2 ^ 50 + (s.mig f).dirty.toNat ∨ 2 ^ 50 + (s.mig f).dirty.toNat + s.migLen f ≤ a → t.mem.get a = s.mem.get a) := by
  refine ⟨_, migStopped_ends h1 h2 hon hst hd hempty, State.mig_putMig_same (s.mig_f f), fun i k hi hk => ?_, fun a ha => ?_⟩
  · rw [← getLsbD_dirtyByte hk]
    refine iff_of_eq (congrArg (fun b : Byte => b.getLsbD k = true) ((State.dirtyReport_get hm hfit _).trans ?_))
    rw [if_pos (by omega), Nat.add_sub_cancel_left]
  · exact (State.dirtyReport_get hm hfit a).trans (if_neg (by omega))

/-- Settles O44: the commands on the slot and the contexts of a function, and its window page by page. -/
theorem migrationMovesFunctionsAndPages : Obligations.MigrationMovesFunctionsAndPages := by
  unfold Obligations.MigrationMovesFunctionsAndPages
  refine ⟨fun s f h1 h2 hon hawake hn => ?_, fun s f idx h1 h2 hidx hon => ?_⟩
  · have hf := s.mig_f f
    refine ⟨fun hst => ⟨⟨_, rfl, ?_⟩, fun hno => ⟨_, rfl, ?_⟩⟩, fun hst => ?_, fun hst => ?_, fun hst => ?_,
      fun hst hd hempty hm hfit => migration_ofFunction h1 h2 hon hst hd hempty hm hfit, fun v => ⟨_, rfl, ?_⟩⟩
    · rw [migPrecopy_running h1 h2 hon hst]
      exact SetsMig.of_putMig s hf
    · rw [migReceive_running h1 h2 hon hst hno]
      exact SetsMig.of_putMig s hf
    · exact ⟨_, congrArg Host.Outcome.next (migStop_precopy h1 h2 hon hst), askEach_asks hf hn⟩
    · exact ⟨_, congrArg Host.Outcome.next (migAbort_begun h1 h2 hon hst), resumeEach_resumes hf hn hawake⟩
    · exact ⟨_, congrArg Host.Outcome.next (migResume_resuming h1 h2 hon hst), resumeEach_resumes hf hn hawake⟩
    · rw [writeMigDirty_on h1 h2 hon v]
      exact SetsMig.of_putMig s hf
  · intro m d seq pa slot desc nonce hposted hfirst hnext hpage hown
    have hserved : ∀ op, fieldAt (s.migDesc f idx) 16 1 = op → Served s f idx op := fun op hop =>
      ⟨fnOk_of h1 h2, hidx, hop, hposted, hfirst, hnext, hpage, hown⟩
    refine ⟨fun hop hst hgood => ?_, fun hop hst hm w x hopen hx => ?_⟩
    · intro e
      have he : e = s.sealedPage f idx := rfl
      clear_value e
      subst he
      exact ⟨_, migDescRead_served (hserved 1 hop) hon hst hgood, s.readServed_mig f idx _, s.readServed_window f idx _,
        s.withMigration_rest _ _⟩
    · obtain ⟨hmem, hline⟩ := pageWritten_page (w := w) (hserved 2 hop) hm hx
      have hf : ({ s.mig f with seq := s.descSeq f idx } : Mig).f = f := (Mig.f_updated _ _ _).trans (s.mig_f f)
      have hopens : s.opensAs f idx w x := by
        unfold State.opensAs migNonce State.descSeq
        exact hopen
      refine ⟨_, migDescWrite_served (hserved 2 hop) hon hst hopens, congrArg Mig.seq (State.mig_putWindow hf ..), ?_, fun a => ?_, fun i hi => ?_⟩
      have hdev : (s.pageWritten w (s.descPage f idx) x).dev = s.dev := by
        refine State.writeLines_dev.trans ?_
        unfold State.pageHeld State.holdIf
        split <;> rfl
      · rw [State.migwin_servedWrite, hdev, Nat.add_assoc (f * 65536)]
      · rw [State.mem_servedWrite]
        exact hmem a
      · rw [State.line?_servedWrite]
        exact hline i hi

end Sys2Proof.Machine
end

section
/-! SUPPORT. A challenged context whose right ANSWER lies in its in mailbox, and which has an EXITED group that still stands PARKED. -/

namespace Sys2Proof.Machine

/-! ### The mailbox -/

/-- The answer to an empty challenge in world 0, where no key stands in the key store. -/
def rightAnswer : List Byte := (hmac (keyBytes 0) []).take 32

theorem rightAnswer_length : rightAnswer.length = 32 := by
  unfold rightAnswer hmac
  rw [List.length_take, sha512_length]
  decide

/-- A queue of one entry of 64 bytes at 64, which it holds. -/
def answerQueue : List Byte := leBytes 8 1 ++ leBytes 8 0 ++ leBytes 8 64 ++ leBytes 4 1 ++ [2] ++ List.replicate 35 0

/-- The entry: an ANSWER. -/
def answerEntry : List Byte := 6 :: (List.replicate 15 0 ++ rightAnswer ++ List.replicate 16 0)

theorem answerEntry_length : answerEntry.length = 64 := by
  simp [answerEntry, rightAnswer_length]

theorem answerEntry_answer : (answerEntry.drop 16).take 32 = rightAnswer := by
  have hentry : answerEntry = (6 :: List.replicate 15 0) ++ (rightAnswer ++ List.replicate 16 0) := by
    simp only [answerEntry, List.cons_append, List.append_assoc]
  rw [hentry, List.drop_left' (by simp), List.take_left' rightAnswer_length]

/-- Memory that holds the queue and its entry. -/
def answerMemory : Cells := (Cells.write [] 64 answerEntry).write 0 answerQueue

theorem answerMemory_queue : answerMemory.read 0 64 = answerQueue := Cells.read_write 0 answerQueue (Cells.write_wf _ _ rfl)

theorem answerMemory_entry : answerMemory.read 64 64 = answerEntry := by
  have hread : answerMemory.read 64 64 = (Cells.write [] 64 answerEntry).read 64 64 := by
    rw [Cells.read_eq, Cells.read_eq]
    exact List.map_congr_left fun i _ => Cells.get_write_out _ _ _ _ (.inr (by simp [answerQueue]))
  rw [hread]
  have hsame := Cells.read_write (m := []) 64 answerEntry rfl
  rwa [answerEntry_length] at hsame

/-! ### The state -/

/-- A HALTED context of world 0 under a challenge, with its in mailbox at 0. -/
def challengedCtx : Ctx := { Ctx.fresh 1 0 0 with st := .halted, challenge := some [] }

/-- The first page, as core 0 holds its translation for the context. -/
def firstPage : TlbEntry := ⟨1, 0, 4096, 0, true, false, 0, true, []⟩

/-- The device, READY, with the context, the memory and an EXITED group of the context that still stands PARKED. -/
def exitedButParked : State :=
  { State.reset with
    cur := { State.reset.cur with status := .exited, parked := true, team := 1 }
    teams := [.firmware, { Team.firmware with id := 1, gang := 1 }]
    gangs := [.firmware, { Gang.firmware with id := 1, grid := 1 }]
    grids := [.firmware, { Grid.firmware with id := 1, ctx := 1 }]
    ctxs := [challengedCtx]
    cores := put State.reset.cores 0 { State.reset.core 0 with tlb := [firstPage] }
    mem := answerMemory
    dev := { State.reset.dev with boot := .ready } }

/-- A held translation that is used up to its bits gives its address and changes nothing. -/
theorem State.ctxPa_of_held {s : State} {core : Nat} {c : Ctx} {lvl : Level} {kind : AccessKind} {va : Word} {e : TlbEntry}
    (hcanon : canonErr lvl va = none) (hwalk : s.walkHeld core c va = false)
    (hfind : (s.core core).tlb.find? (fun e => e.hits c.id va) = some e) (hperm : e.permErr kind va = none)
    (hdev : targetOf (e.paOf va) = .device) (hdirty : e.dirty = true) (hpath : e.path = []) (hlevel : s.levelHeld (e.paOf va) = false) :
    s.ctxPa core c lvl kind va = ⟨.inr (e.paOf va), s⟩ := by
  have hheld : s.translateHeld core c e kind va = ⟨.inr (e.paOf va), s⟩ := by
    simp [State.translateHeld, hperm, hdev, hdirty, hpath, State.orErr, State.holdIf]
  simp [State.ctxPa, State.translate, hcanon, hwalk, hfind, hheld, hlevel, State.holdIf]

/-- The context reaches its first page without a fault. -/
theorem ctxPa_exitedButParked (kind : AccessKind) (va : Word) (hva : va = 0 ∨ va = 64 ∨ va = 8) (hkind : kind ≠ .fetch) :
    exitedButParked.ctxPa 0 challengedCtx .super kind va = ⟨.inr va.toNat, exitedButParked⟩ := by
  have hperm : firstPage.permErr kind va = none := by
    simp [TlbEntry.permErr, firstPage, hkind]
  rcases hva with rfl | rfl | rfl
  · exact State.ctxPa_of_held (e := firstPage) (by decide) (by decide) (by decide) hperm (by decide) rfl rfl (by decide)
  · exact State.ctxPa_of_held (e := firstPage) (by decide) (by decide) (by decide) hperm (by decide) rfl rfl (by decide)
  · exact State.ctxPa_of_held (e := firstPage) (by decide) (by decide) (by decide) hperm (by decide) rfl rfl (by decide)

theorem readErr_exitedButParked (va : Word) (hva : va = 0 ∨ va = 64 ∨ va = 8) :
    exitedButParked.readErr (clusterOf 0) challengedCtx.world va.toNat = none := by
  rcases hva with rfl | rfl | rfl <;> decide

theorem ctxRead_exitedButParked (kind : AccessKind) (va : Word) (hva : va = 0 ∨ va = 64) (hkind : kind ≠ .fetch) :
    exitedButParked.ctxRead 0 challengedCtx .super kind va 64 = (.inr (answerMemory.read va.toNat 64), exitedButParked) := by
  have hva' : va = 0 ∨ va = 64 ∨ va = 8 := by rcases hva with h | h <;> simp [h]
  have hplace : exitedButParked.place va.toNat = va.toNat := State.place_of_device (by rcases hva with rfl | rfl <;> decide)
  unfold State.ctxRead
  have hmem : exitedButParked.mem = answerMemory := by simp only [exitedButParked]
  simp only [ctxPa_exitedButParked kind va hva' hkind, readErr_exitedButParked va hva', State.memRead, hplace, hmem]

/-- The device once firmware has taken the entry: the head of the queue has moved. -/
def answerTaken : State := exitedButParked.memWrite 0 8 (bytesOf 8 1)

theorem ctxWrite_exitedButParked : (exitedButParked.ctxWrite 0 challengedCtx .super 8 (bytesOf 8 1)).2 = answerTaken := by
  unfold State.ctxWrite State.ctxWriteAs
  simp only [ctxPa_exitedButParked .write 8 (.inr (.inr rfl)) (by decide)]
  have hlen : ((bytesOf 8 1).length == 64) = false := by decide
  have herr : exitedButParked.writeErr (clusterOf 0) challengedCtx.world (8 : Word).toNat ((bytesOf 8 1).length == 64) = none := by
    rw [hlen]
    exact readErr_exitedButParked 8 (.inr (.inr rfl))
  simp only [herr]
  rfl

theorem takeMail_exitedButParked : exitedButParked.takeMail 0 1 6 = (some answerEntry, answerTaken) := by
  have hctx : exitedButParked.ctx? 1 = some challengedCtx := by decide
  have hbox : canonical challengedCtx.mboxi = 0 := by decide
  have hqueue : queueOf answerQueue = some ⟨1, 0, 64, 1, 2⟩ := by decide
  have hentry : Queue.entry ⟨1, 0, 64, 1, 2⟩ 0 = 64 := by decide
  have htype : answerEntry.getD 0 0 = 6 := rfl
  have hfirst : exitedButParked.ctxRead 0 challengedCtx .super .atomic 0 64 = (.inr answerQueue, exitedButParked) :=
    (ctxRead_exitedButParked .atomic 0 (.inl rfl) (by decide)).trans (by rw [← answerMemory_queue]; rfl)
  have hsecond : exitedButParked.ctxRead 0 challengedCtx .super .read 64 64 = (.inr answerEntry, exitedButParked) :=
    (ctxRead_exitedButParked .read 64 (.inr rfl) (by decide)).trans (by rw [← answerMemory_entry]; rfl)
  unfold State.takeMail
  simp only [hctx, hbox, hfirst, hqueue, hentry, hsecond, htype]
  exact congrArg (Prod.mk (some answerEntry)) ctxWrite_exitedButParked

/-! ### The refutation -/

/-- The resume leaves an EXITED group as it stands. -/
theorem State.resumeCtx_cur {s : State} {k : Nat} (h : s.cur.status = .exited) : (s.resumeCtx k).cur = s.cur := by
  have hno : ∀ u : State, u.ofCtx k s.cur = false := fun u => by simp [State.ofCtx, h]
  unfold State.resumeCtx
  split
  · rfl
  · split
    · exact if_neg (by simp [hno])
    · rfl

theorem answerTaken_cur : answerTaken.cur.status = .exited ∧ answerTaken.cur.parked = true ∧ answerTaken.cur.team = 1 := by
  obtain ⟨w, h, hcur⟩ := State.memWrite_cur exitedButParked 0 8 (bytesOf 8 1)
  rw [answerTaken, hcur]
  exact ⟨rfl, rfl, rfl⟩

/-- The device after BIVOUAC_ANSWER. -/
def answerRun : State := (answerTaken.mapCtx 1 fun c => { c with challenge := none }).resumeCtx 1

theorem bivouacAnswer_exitedButParked : exec (.bivouacAnswer 1 0) exitedButParked = .next answerRun := by
  have hreal : exitedButParked.realCtx? 1 = some challengedCtx := by decide
  have hon : exitedButParked.mgmtOn = true := by decide
  have hkey : (hmac (keyBytes (exitedButParked.worldKey challengedCtx.world 3)) []).take 32 = rightAnswer := rfl
  have hch : challengedCtx.challenge = some [] := rfl
  change execBivouacAnswer 1 0 exitedButParked = _
  unfold execBivouacAnswer
  unfold answerRun
  simp only [hreal, hch, hon, takeMail_exitedButParked, answerEntry_answer, hkey, beq_self_eq_true, if_true, Bool.not_true,
    Bool.false_eq_true, if_false]

theorem answerRun_cur : answerRun.cur = answerTaken.cur := State.resumeCtx_cur (s := answerTaken.mapCtx 1 _) answerTaken_cur.1

theorem answerRun_frames : answerRun.teams = exitedButParked.teams ∧ answerRun.gangs = exitedButParked.gangs ∧
    answerRun.grids = exitedButParked.grids := by
  unfold answerRun State.resumeCtx
  split
  · exact ⟨rfl, rfl, rfl⟩
  · split <;> exact ⟨rfl, rfl, rfl⟩

/-- The EXITED group is still one of the context's. -/
theorem gridOf_answerRun : (answerRun.gridOf answerRun.cur).ctx = 1 := by
  obtain ⟨hteams, hgangs, hgrids⟩ := answerRun_frames
  have hteam : answerRun.cur.team = 1 := by rw [answerRun_cur]; exact answerTaken_cur.2.2
  unfold State.gridOf State.grid? State.gangOf State.gang? State.teamOf State.team?
  rw [hteams, hgangs, hgrids, hteam]
  decide

/-- Refutes O47: BIVOUAC_ANSWER with the right answer resumes the context, and a resume lets the groups go on that have not EXITED. An
EXITED group of the context that stands PARKED stays PARKED, and the statement asks for it of every group of the context. -/
theorem not_trustCommandsActAsAsked : ¬ Obligations.TrustCommandsActAsAsked := by
  unfold Obligations.TrustCommandsActAsAsked
  intro h
  obtain ⟨-, -, -, -, -, -, hctx⟩ := h exitedButParked (by decide)
  obtain ⟨-, hanswer⟩ := hctx challengedCtx (by decide) (by decide)
  obtain ⟨-, htaken⟩ := hanswer [] rfl 0
  have htake : exitedButParked.takeMail 0 challengedCtx.id 6 = (some answerEntry, answerTaken) := takeMail_exitedButParked
  obtain ⟨-, hright⟩ := htaken answerEntry (congrArg Prod.fst htake)
  obtain ⟨t, hrun, -, -, hgo⟩ := hright answerEntry_answer (by rw [htake]; decide)
    (by rw [htake]; decide) (.inr rfl)
  obtain rfl : answerRun = t := Host.Outcome.next.inj (bivouacAnswer_exitedButParked.symm.trans hrun)
  have hparked : answerRun.cur.parked = true := by rw [answerRun_cur]; exact answerTaken_cur.2.1
  have hfree := (hgo answerRun.cur (List.mem_cons_self ..) gridOf_answerRun).1
  exact absurd (hparked.symm.trans hfree) (by decide)

end Sys2Proof.Machine
end

section
/-! SUPPORT. Bytes of the array's stores: parts of what was written, the elements of a register image, sums. -/

namespace Sys2Proof.Machine

/-! ### Parts of a store -/

/-- Part of what was written, read back. -/
theorem Cells.read_write_part {m : Cells} (hm : m.wf = true) (a off n : Nat) (bs : List Byte) (h : off + n ≤ bs.length) :
    (m.write a bs).read (a + off) n = (bs.drop off).take n := by
  rw [Cells.read_eq]
  refine List.ext_getElem (by simp; omega) fun i h1 h2 => ?_
  have hi : i < n := by simpa using h1
  rw [List.getElem_map, List.getElem_range, List.getElem_take, List.getElem_drop, Nat.add_assoc]
  exact Cells.get_write_in a (off + i) bs (by omega) hm

/-- Part of what was read. -/
theorem Cells.read_part (m : Cells) (a off n N : Nat) (h : off + n ≤ N) : ((m.read a N).drop off).take n = m.read (a + off) n := by
  rw [Cells.read_eq, Cells.read_eq]
  refine List.ext_getElem (by simp; omega) fun i h1 h2 => ?_
  simp [Nat.add_assoc]

theorem Cells.getD_read (m : Cells) (a n i : Nat) (h : i < n) : (m.read a n).getD i 0 = m.get (a + i) := by
  rw [Cells.read_eq, List.getD_eq_getElem _ _ (by simpa using h)]
  simp

@[simp] theorem Cells.length_read (m : Cells) (a n : Nat) : (m.read a n).length = n := by rw [Cells.read_eq]; simp

/-! ### Elements of a register image -/

/-- One element of a list of pieces of one length. -/
theorem flatMap_piece {α : Type} {f : α → List Byte} {k : Nat} (hf : ∀ x, (f x).length = k) (l : List α) (n : Nat) (h : n < l.length) :
    ((l.flatMap f).drop (k * n)).take k = f l[n] := by
  induction l generalizing n with
  | nil => exact absurd h (Nat.not_lt_zero n)
  | cons x l ih =>
    rw [List.flatMap_cons]
    cases n with
    | zero => rw [Nat.mul_zero, List.drop_zero, List.take_left' (hf x)]; rfl
    | succ n =>
      have hdrop : (f x ++ l.flatMap f).drop (k * (n + 1)) = (l.flatMap f).drop (k * n) := by
        rw [List.drop_append, List.drop_eq_nil_of_le (by rw [hf, Nat.mul_succ]; omega), hf, List.nil_append, Nat.mul_succ,
          Nat.add_sub_cancel]
      rw [hdrop]
      exact ih n (by simpa using h)

theorem length_flatMap_pieces {α : Type} {f : α → List Byte} {k : Nat} (hf : ∀ x, (f x).length = k) (l : List α) :
    (l.flatMap f).length = k * l.length := by
  induction l with
  | nil => rfl
  | cons x l ih => rw [List.flatMap_cons, List.length_append, ih, hf, List.length_cons, Nat.mul_succ, Nat.add_comm]

theorem length_bytesOf_word (x : Word32) : (bytesOf 4 x.toNat).length = 4 := length_leBytes 4 x.toNat

theorem length_imageBytes (v : VReg) : (imageBytes v).length = 512 := by
  unfold imageBytes
  rw [length_flatMap_pieces length_bytesOf_word]
  simp

/-- An element of a register in its image. -/
theorem imageBytes_element (v : VReg) {n : Nat} (h : n < 128) : ((imageBytes v).drop (4 * n)).take 4 = bytesOf 4 v[n].toNat :=
  (flatMap_piece length_bytesOf_word v.toList n (by simpa using h)).trans (by simp)

theorem natOfBytes_leBytes (n w : Nat) : natOfBytes (leBytes n w) = w % 256 ^ n := by
  induction n generalizing w with
  | zero => rw [Nat.pow_zero, Nat.mod_one]; rfl
  | succ n ih =>
    rw [leBytes, natOfBytes, ih, BitVec.toNat_ofNat, Nat.pow_succ 256 n, Nat.mul_comm (256 ^ n) 256]
    exact (Nat.mod_mul ..).symm

theorem ofNat_natOfBytes_bytesOf (x : Word32) : BitVec.ofNat 32 (natOfBytes (bytesOf 4 x.toNat)) = x := by
  have hx : x.toNat < 256 ^ 4 := x.isLt
  rw [show natOfBytes (bytesOf 4 x.toNat) = x.toNat from (natOfBytes_leBytes 4 x.toNat).trans (Nat.mod_eq_of_lt hx), BitVec.ofNat_toNat,
    BitVec.setWidth_eq]

/-- An element of a row that holds a register image. -/
theorem Cells.element_written {m : Cells} (hm : m.wf = true) (a : Nat) (v : VReg) {n : Nat} (h : n < 128) :
    BitVec.ofNat 32 (natOfBytes ((m.write a (imageBytes v)).read (a + 4 * n) 4)) = v[n] := by
  rw [Cells.read_write_part hm a (4 * n) 4 _ (by rw [length_imageBytes]; omega), imageBytes_element v h, ofNat_natOfBytes_bytesOf]

/-! ### Sums -/

/-- The sum of the first values of a function. -/
def sumTo (g : Nat → Int) (n : Nat) : Int := (List.range n).foldl (fun s e => s + g e) 0

theorem sumTo_succ (g : Nat → Int) (n : Nat) : sumTo g (n + 1) = sumTo g n + g n := by simp [sumTo, List.range_succ]

theorem sumTo_add (g : Nat → Int) (n m : Nat) : sumTo g (n + m) = sumTo g n + sumTo (fun i => g (n + i)) m := by
  induction m with
  | zero => simp [sumTo]
  | succ m ih => rw [← Nat.add_assoc, sumTo_succ, ih, sumTo_succ, Int.add_assoc]

/-- A sum taken in groups of one size. -/
theorem sumTo_groups (g : Nat → Int) (k n : Nat) : sumTo (fun u => sumTo (fun i => g (k * u + i)) k) n = sumTo g (k * n) := by
  induction n with
  | zero => rfl
  | succ n ih => rw [sumTo_succ, ih, Nat.mul_succ, sumTo_add]

theorem sumTo_congr {f g : Nat → Int} {n : Nat} (h : ∀ i, i < n → f i = g i) : sumTo f n = sumTo g n := by
  induction n with
  | zero => rfl
  | succ n ih => rw [sumTo_succ, sumTo_succ, ih fun i hi => h i (by omega), h n (Nat.lt_succ_self n)]

end Sys2Proof.Machine
end

section
/-! SUPPORT. The waves of the array: their preparation, their turn, and the row that each leaves. -/

namespace Sys2Proof.Machine

/-! ### Preparation (R286) -/

/-- A wave that has just reached the array, and its MMA. -/
def State.withWave (s : State) (c : MxCmd) (core tag : Nat) : State :=
  ({ s with waves := s.waves ++ [⟨c.id, core, tag, c.prepared, [], none, none, false⟩] } : State).mapCmd c.id fun c =>
    { c with prepared := c.prepared + 1 }

theorem prepareWave_unscaled {s : State} {core tag : Nat} {c : MxCmd} {rb m : Nat} {rows : List (List Byte)} {afmt bfmt : Byte}
    {b128 ovr : Bool} {sbase : Word} {stride issued : Nat}
    (hnext : nextMma (s.cmds.filter fun c => c.core == core && c.tag == tag) = some c)
    (hkind : c.kind = .mma rb m rows afmt bfmt 0 b128 ovr sbase stride issued) (hgroup : (s.group? c.uid).isSome)
    (hactive : (s.tag core tag).st = .active) (hdue : issued + 8 + c.prepared ≤ s.cyclesOf core) (hlock : s.lockConflict c.id = false) :
    s.prepareWave core tag = s.withWave c core tag := by
  obtain ⟨g, hg⟩ := Option.isSome_iff_exists.mp hgroup
  have hblocks : mxBlocks bfmt b128 0#2 = 0 := rfl
  unfold State.prepareWave
  simp [hnext, hkind, hg, hactive, Nat.not_lt.mpr hdue, hlock, hblocks, State.readScales, State.withWave]

/-! ### Injection (R275, R287) -/

theorem mapFirst_append {α : Type} {p : α → Bool} {f : α → α} {w : α} (hw : p w = true) (after : List α) :
    ∀ before : List α, (∀ x ∈ before, p x = false) → mapFirst p f (before ++ w :: after) = before ++ f w :: after
  | [], _ => by simp [mapFirst, hw]
  | x :: before, h => by
    have hx : p x = false := h x (List.mem_cons_self ..)
    have hrest := mapFirst_append (f := f) hw after before fun y hy => h y (List.mem_cons_of_mem _ hy)
    simp [mapFirst, hx, hrest]

/-- A wave of the tag that has not entered the array. -/
def Wave.waits (core tag : Nat) (w : Wave) : Bool := w.core == core && w.tag == tag && w.inj.isNone

theorem Wave.waits_iff (core tag : Nat) (w : Wave) : w.waits core tag = true ↔ w.core = core ∧ w.tag = tag ∧ w.inj = none := by
  simp [Wave.waits, and_assoc]

section
variable {s : State} {core tag : Nat} {w : Wave} {before after : List Wave} (hwaves : s.waves = before ++ w :: after)
  (hcore : w.core = core) (htag : w.tag = tag) (hinj : w.inj = none)
  (hbefore : ∀ x ∈ before, x.core ≠ core ∨ x.tag ≠ tag ∨ x.inj ≠ none)
include hwaves hcore htag hinj hbefore

/-- The next wave of the tag enters. -/
theorem inject_next (hc : core < 192) (n : Nat) : (s.inject core tag n).waves = before ++ { w with inj := some (s.cyclesOf core) } :: after ∧
    ((s.inject core tag n).core core).rot = BitVec.ofNat 4 tag ∧ ((s.inject core tag n).core core).inj = some (s.cyclesOf core) := by
  have hw : w.waits core tag = true := (w.waits_iff core tag).mpr ⟨hcore, htag, hinj⟩
  have hno : ∀ x ∈ before, x.waits core tag = false := fun x hx => by
    rw [Bool.eq_false_iff, Ne, Wave.waits_iff]
    rintro ⟨h1, h2, h3⟩
    rcases hbefore x hx with h | h | h <;> contradiction
  have hfind : s.waves.find? (fun w => w.core == core && w.tag == tag && w.inj.isNone) = some w := by
    change s.waves.find? (Wave.waits core tag) = some w
    rw [hwaves, List.find?_append, List.find?_eq_none.mpr fun x hx => by simp [hno x hx], Option.none_or, List.find?_cons_of_pos hw]
  unfold State.inject
  simp only [hfind]
  refine ⟨?_, ?_, ?_⟩
  · change mapFirst (Wave.waits core tag) _ s.waves = _
    rw [hwaves, mapFirst_append hw after before hno]
  · rw [State.core_mapCore_same _ hc]
  · rw [State.core_mapCore_same _ hc]

end

/-- The turn that goes on, with its number. -/
def State.turnOn (s : State) (core : Nat) : Option (Nat × Nat) :=
  match (s.core core).turn with
  | some n => if n ≤ (look (s.core core).tags (s.core core).rot.toNat .free).qm1.toNat && s.waveReady core (s.core core).rot.toNat then
      some ((s.core core).rot.toNat, n + 1) else none
  | none => none

/-- The next tag in the rotation with a ready wave. -/
def State.nextReady (s : State) (core : Nat) : Option Nat :=
  ((List.range 16).map fun i => ((s.core core).rot.toNat + 1 + i) % 16).find? (s.waveReady core)

/-- An injection cycle: the turn goes on, or the next ready tag begins its own, or there is none. -/
def State.waveTurn (s : State) (core : Nat) : State :=
  match s.turnOn core with
  | some (t, n) => s.inject core t n
  | none => match s.nextReady core with
    | some t => s.inject core t 1
    | none => s.mapCore core fun c => { c with turn := none }

theorem waveInject_turn {s : State} {core : Nat} (hcycle : ∀ i, (s.core core).inj = some i → i + (s.core core).cadence ≤ s.cyclesOf core) :
    exec (.waveInject core) s = .next (s.waveTurn core) := by
  have hnow : ((s.core core).inj.any fun i => decide (s.cyclesOf core < i + (s.core core).cadence)) = false := by
    cases hi : (s.core core).inj with
    | none => rfl
    | some i => simpa using hcycle i hi
  exact congrArg Host.Outcome.next (if_neg (Bool.eq_false_iff.mp hnow))

/-- The rotation finds the tag before which no tag is ready. -/
theorem nextReady_of {s : State} {core tag : Nat} (ht : tag < 16) (hready : s.waveReady core tag = true)
    (hfirst : ∀ j, j < 16 → s.waveReady core (((s.core core).rot.toNat + 1 + j) % 16) = true →
      ∃ k, k ≤ j ∧ ((s.core core).rot.toNat + 1 + k) % 16 = tag) : s.nextReady core = some tag := by
  have hrot : (s.core core).rot.toNat < 16 := (s.core core).rot.isLt
  have hsome : (s.nextReady core).isSome := by
    refine List.find?_isSome.mpr ⟨tag, List.mem_map.mpr ⟨(tag + 15 - (s.core core).rot.toNat) % 16, List.mem_range.mpr (by omega), by omega⟩, hready⟩
  obtain ⟨x, hx⟩ := Option.isSome_iff_exists.mp hsome
  obtain ⟨hxready, j, hj, hxj, hmin⟩ := List.find?_eq_some_iff_getElem.mp hx
  have hj16 : j < 16 := by simpa using hj
  have hxeq : x = ((s.core core).rot.toNat + 1 + j) % 16 := by rw [← hxj]; simp
  obtain ⟨k, hk, hktag⟩ := hfirst j hj16 (hxeq ▸ hxready)
  rcases Nat.lt_or_eq_of_le hk with hlt | rfl
  · have hnot := hmin k hlt
    simp [hktag, hready] at hnot
  · rw [hx, hxeq, hktag]

/-- The tag that the turn names is the one that injects. -/
theorem waveInject_tag {s : State} {core tag : Nat} (ht : tag < 16)
    (hcycle : ∀ i, (s.core core).inj = some i → i + (s.core core).cadence ≤ s.cyclesOf core)
    (hturn : ∀ n, (s.core core).turn = some n → n ≤ (s.tag core (s.core core).rot.toNat).qm1.toNat →
      s.waveReady core (s.core core).rot.toNat = true → tag = (s.core core).rot.toNat)
    (hrot : (∀ n, (s.core core).turn = some n → (s.tag core (s.core core).rot.toNat).qm1.toNat < n ∨
        s.waveReady core (s.core core).rot.toNat = false) →
      ∀ j, j < 16 → s.waveReady core (((s.core core).rot.toNat + 1 + j) % 16) = true →
        ∃ k, k ≤ j ∧ ((s.core core).rot.toNat + 1 + k) % 16 = tag)
    (hready : s.waveReady core tag = true) : ∃ n, exec (.waveInject core) s = .next (s.inject core tag n) := by
  cases hon : s.turnOn core with
  | some x =>
    refine ⟨x.2, (waveInject_turn hcycle).trans (congrArg Host.Outcome.next ?_)⟩
    unfold State.turnOn at hon
    split at hon
    · next n hn =>
      split at hon
      · next hgo =>
        cases hon
        obtain ⟨hq, hr⟩ := Bool.and_eq_true_iff.mp hgo
        rw [hturn n hn (of_decide_eq_true hq) hr]
        simp [State.waveTurn, State.turnOn, hn, hgo]
      · cases hon
    · cases hon
  | none =>
    refine ⟨1, (waveInject_turn hcycle).trans (congrArg Host.Outcome.next ?_)⟩
    have hstop : ∀ n, (s.core core).turn = some n → (s.tag core (s.core core).rot.toNat).qm1.toNat < n ∨
        s.waveReady core (s.core core).rot.toNat = false := fun n hn => by
      by_contra hgo
      obtain ⟨hq, hr⟩ := not_or.mp hgo
      have hgo' : (decide (n ≤ (look (s.core core).tags (s.core core).rot.toNat .free).qm1.toNat) &&
          s.waveReady core (s.core core).rot.toNat) = true :=
        Bool.and_eq_true_iff.mpr ⟨decide_eq_true (Nat.not_lt.mp hq), by simpa using hr⟩
      simp [State.turnOn, hn, hgo'] at hon
    simp only [State.waveTurn, hon, nextReady_of ht hready (hrot hstop)]

end Sys2Proof.Machine
end

section
/-! SUPPORT. The end of a wave: the sums of its row, what its record leaves alone, and the end of its MMA. -/

namespace Sys2Proof.Machine

/-! ### The sums of an integer pair (R283, R284) -/

/-- The product of element e of a row of A, signed or not, and of a column of signed bytes. -/
def bytePair (signed : Bool) (row col : List Byte) (e : Nat) : Int := numOf signed (row.getD e 0) * (col.getD e 0).toInt

theorem intUnit_bytes (w : WaveIn) (hb : w.bfmt = 4) (col : List Byte) (u : Nat) :
    w.intUnit col u = sumTo (fun i => bytePair (w.afmt == 4) w.row col (16 * u + i)) 16 := by
  have hbpk : mxBpk 4 = false := by decide
  unfold WaveIn.intUnit sumTo bytePair mxWeight
  simp only [hb, hbpk, intOf_toNat]
  rfl

theorem intColumn_bytes (w : WaveIn) (hb : w.bfmt = 4) (hb128 : w.b128 = false) (ovr : Bool) (col : List Byte) (acc : Word32) :
    (w.intColumn ovr col acc).1 = BitVec.ofInt 32 (if ovr then sumTo (bytePair (w.afmt == 4) w.row col) 64
      else clampInt true 32 (acc.toInt + sumTo (bytePair (w.afmt == 4) w.row col) 64)) := by
  have hsum : (List.range (mxK w.bfmt w.b128 / 16)).foldl (fun s u => s + w.intUnit col u) 0 =
      sumTo (bytePair (w.afmt == 4) w.row col) 64 := by
    have hk : mxK w.bfmt w.b128 / 16 = 4 := by rw [hb, hb128]; decide
    rw [hk]
    refine Eq.trans ?_ (sumTo_groups (bytePair (w.afmt == 4) w.row col) 16 4)
    exact sumTo_congr (f := w.intUnit col) fun u _ => intUnit_bytes w hb col u
  unfold WaveIn.intColumn
  rw [hsum]
  cases ovr <;> rfl

theorem toInt_clamped (y : Int) : (BitVec.ofInt 32 (clampInt true 32 y)).toInt = max (-2 ^ 31) (min (2 ^ 31 - 1) y) := by
  have hclamp : clampInt true 32 y = max (-2 ^ 31) (min (2 ^ 31 - 1) y) := rfl
  rw [hclamp, BitVec.toInt_ofInt]
  exact Int.bmod_eq_of_le (by omega) (by omega)

/-- An element of the row that an integer pair gives. -/
theorem run_bytes (w : WaveIn) (hb : w.bfmt = 4) (hblen : w.blen = 0) (hb128 : w.b128 = false) (ovr : Bool) (tile : Nat → List Byte)
    (wscale : Nat → Nat → BitVec 16) (acc : VReg) {n : Nat} (hn : n < 128) :
    ((w.run ovr tile wscale acc).1[n]).toInt = if ovr then (BitVec.ofInt 32 (sumTo (bytePair (w.afmt == 4) w.row (tile n)) 64)).toInt
      else max (-2 ^ 31) (min (2 ^ 31 - 1) (acc[n].toInt + sumTo (bytePair (w.afmt == 4) w.row (tile n)) 64)) := by
  have hint : mxInt w.bfmt w.blen = true := by rw [hb, hblen]; decide
  have hcol : (w.run ovr tile wscale acc).1[n] = (w.intColumn ovr (tile n) acc[n]).1 := by
    simp [WaveIn.run, hint]
  rw [hcol, intColumn_bytes w hb hb128]
  cases ovr
  · exact toInt_clamped _
  · rfl

/-! ### What a record leaves alone -/

/-- Commands, waves, locks and banks of the arrays. -/
def State.arrays (s : State) := (s.cmds, s.waves, s.locks, s.acc)

theorem State.arrays_untouched : State.Untouched State.arrays where
  holdIf s h := by unfold State.holdIf; split <;> rfl
  memWrite _ _ _ _ := rfl
  mapCore _ _ _ := rfl
  qtlbs _ _ := rfl

theorem State.Untouched.ctxWriteAs {β : Type} {p : State → β} (hp : State.Untouched p) (s : State) (whole : Bool) (core : Nat) (c : Ctx)
    (lvl : Level) (va : Word) (bs : List Byte) : p (s.ctxWriteAs whole core c lvl va bs).2 = p s := by
  unfold State.ctxWriteAs
  dsimp only
  split
  · exact hp.ctxPa ..
  · split
    · exact hp.ctxPa ..
    · exact (hp.memWrite ..).trans (hp.ctxPa ..)

theorem State.arrays_queueRecord (s : State) (core ctx : Nat) (r : Record) : (s.queueRecord core ctx r).arrays = s.arrays := by
  unfold State.queueRecord
  split
  · rfl
  · dsimp only
    split
    · rfl
    · split <;> exact State.arrays_untouched.ctxWriteAs ..

theorem State.arrays_waveRecord (s : State) (c : MxCmd) (cause : Byte) (row : Nat) (va : Word) :
    (s.waveRecord c cause row va).arrays = s.arrays := by
  unfold State.waveRecord
  split
  · rfl
  · exact State.arrays_queueRecord ..

/-! ### The tags behind a record -/

theorem State.tag_mapCore (s : State) (k j t : Nat) {f : CoreState → CoreState} (hf : ∀ c, (f c).tags = c.tags) :
    (s.mapCore k f).tag j t = s.tag j t := by
  unfold State.tag
  by_cases hj : j = k
  · subst hj
    by_cases hk : j < 192
    · rw [State.core_mapCore_same _ hk, hf]
    · have hput : (s.mapCore j f).core j = s.core j := by simp [State.core, State.mapCore, put, hk]
      rw [hput]
  · rw [State.core_mapCore_ne _ hj]

section
variable (j t : Nat)

theorem State.tag_orEntry (s : State) (ea bits : Nat) : (s.orEntry ea bits).tag j t = s.tag j t := by
  unfold State.orEntry
  dsimp only
  split <;> rfl

theorem State.tag_setAD (s : State) (path : List Nat) (leaf : Nat) (d : Bool) : (s.setAD path leaf d).tag j t = s.tag j t := by
  have hpath := foldl_keeps (f := fun s ea => State.orEntry s ea 8) (p := fun s => s.tag j t) (fun s ea => s.tag_orEntry j t ea 8) path s
  cases d with
  | false => exact hpath
  | true => exact (State.tag_orEntry ..).trans hpath

theorem State.tag_holdIf (s : State) (h : Bool) : (s.holdIf h).tag j t = s.tag j t := by
  unfold State.holdIf
  split <;> rfl

theorem State.tag_qtlbs (s : State) (q : Vector (List TlbEntry) 4) : ({ s with qtlbs := q } : State).tag j t = s.tag j t := rfl

theorem State.tag_usedEntry (s : State) (core : Nat) (e : TlbEntry) (d : Bool) : (s.usedEntry core e d).tag j t = s.tag j t :=
  (State.tag_qtlbs ..).trans (State.tag_mapCore s core j t (by exact fun _ => rfl))

theorem State.tag_translateHeld (s : State) (core : Nat) (c : Ctx) (e : TlbEntry) (kind : AccessKind) (va : Word) :
    (s.translateHeld core c e kind va).st.tag j t = s.tag j t := by
  have hset (h : Bool) : ((s.holdIf h).setAD e.path e.leaf (kind.writes && !e.dirty)).tag j t = s.tag j t :=
    (State.tag_setAD ..).trans (s.tag_holdIf j t h)
  unfold State.translateHeld
  split
  · rfl
  · split
    · rfl
    · dsimp only
      split
      · rfl
      · dsimp only
        split
        · exact (State.tag_usedEntry ..).trans (hset _)
        · exact hset _

theorem State.tag_translateWalk (s : State) (core : Nat) (c : Ctx) (kind : AccessKind) (va : Word) :
    (s.translateWalk core c kind va).st.tag j t = s.tag j t := by
  unfold State.translateWalk
  split
  · rfl
  · split
    · rfl
    · dsimp only
      split
      · rfl
      · split
        · rfl
        · exact (State.tag_qtlbs ..).trans ((State.tag_mapCore _ core j t (by exact fun _ => rfl)).trans (State.tag_setAD ..))

theorem State.tag_translate (s : State) (core : Nat) (c : Ctx) (lvl : Level) (kind : AccessKind) (va : Word) :
    (s.translate core c lvl kind va).st.tag j t = s.tag j t := by
  unfold State.translate
  split
  · rfl
  · split
    · exact State.tag_translateHeld ..
    · split
      · exact (State.tag_translateHeld ..).trans (s.tag_mapCore core j t (by exact fun _ => rfl))
      · exact State.tag_translateWalk ..

theorem State.tag_ctxWriteAs (s : State) (whole : Bool) (core : Nat) (c : Ctx) (lvl : Level) (va : Word) (bs : List Byte) :
    (s.ctxWriteAs whole core c lvl va bs).2.tag j t = s.tag j t := by
  have hpa : (s.ctxPa core c lvl .write va).st.tag j t = s.tag j t := by
    have ht (h : Bool) : ((s.holdIf h).translate core c lvl .write va).st.tag j t = s.tag j t :=
      (State.tag_translate ..).trans (s.tag_holdIf j t h)
    unfold State.ctxPa
    dsimp only
    split
    · exact ht _
    · exact (State.tag_holdIf ..).trans (ht _)
  unfold State.ctxWriteAs
  dsimp only
  split
  · exact hpa
  · split <;> exact hpa

theorem State.tag_waveRecord (s : State) (c : MxCmd) (cause : Byte) (row : Nat) (va : Word) :
    (s.waveRecord c cause row va).tag j t = s.tag j t := by
  unfold State.waveRecord
  split
  · rfl
  · unfold State.queueRecord
    split
    · rfl
    · dsimp only
      split
      · rfl
      · split <;> exact State.tag_ctxWriteAs ..

end

end Sys2Proof.Machine
end

section
/-! SUPPORT. The write-back of a wave, and the obligation of the waves. -/

namespace Sys2Proof.Machine

/-! ### A wave leaves the array (R290) -/

/-- The array without a wave. -/
def State.without (s : State) (w : Wave) : State := { s with waves := s.waves.filter fun x => x != w }

theorem State.not_mem_without {s : State} {w x : Wave} (h : x ∈ (s.without w).waves) : x ≠ w := by simpa using (List.mem_filter.mp h).2

/-- The state once the row of a wave is written or marked. -/
def State.rowWritten (s : State) (c : MxCmd) (w : Wave) (err : WaveErr) : State :=
  if w.off then s.without w else (s.without w).writeWave c w err

theorem waveWriteback_due {s : State} {core : Nat} {w : Wave} {c : MxCmd} (err : WaveErr) (hold : s.oldestWave core = some w)
    (hdue : w.inj.getD 0 + 200 ≤ s.cyclesOf core) (hc : s.cmd? w.cmd = some c) :
    exec (.waveWriteback core err) s = .next ((s.rowWritten c w err).waveDone w.cmd) := by
  change execWaveWriteback core err s = _
  unfold execWaveWriteback State.rowWritten
  simp only [hold, hc, if_neg (Nat.not_lt.mpr hdue)]
  rfl

theorem State.id_of_cmd? {s : State} {id : Nat} {c : MxCmd} (h : s.cmd? id = some c) : c.id = id := by
  simpa using List.find?_some h

/-! ### The other commands, waves and locks stand -/

/-- A change of a command that leaves its name, its kind and its progress. -/
def KeepsCmd (F : MxCmd → MxCmd) : Prop := ∀ c, (F c).id = c.id ∧ (F c).uid = c.uid ∧ (F c).kind = c.kind ∧ (F c).killed = c.killed ∧
  (F c).finished = c.finished

/-- The command of a wave has changed, and no other command, no wave and no lock. -/
def State.CmdTouched (s u : State) (id : Nat) : Prop :=
  u.waves = s.waves ∧ u.locks = s.locks ∧ ∃ F, KeepsCmd F ∧ u.cmds = mapIf s.cmds (fun c => c.id == id) F

theorem mapIf_self {α : Type} (l : List α) (p : α → Bool) : mapIf l p (fun x => x) = l := by simp [mapIf]

theorem State.CmdTouched.refl (s : State) (id : Nat) : s.CmdTouched s id :=
  ⟨rfl, rfl, fun c => c, fun _ => ⟨rfl, rfl, rfl, rfl, rfl⟩, (mapIf_self ..).symm⟩

theorem State.CmdTouched.mapCmd (s : State) (id : Nat) {F : MxCmd → MxCmd} (hF : KeepsCmd F) : s.CmdTouched (s.mapCmd id F) id :=
  ⟨rfl, rfl, F, hF, rfl⟩

theorem State.CmdTouched.of_arrays {s u v : State} {id : Nat} (h : s.CmdTouched u id) (hv : v.arrays = u.arrays) : s.CmdTouched v id := by
  obtain ⟨hcmds, hwaves, hlocks, -⟩ : v.cmds = u.cmds ∧ v.waves = u.waves ∧ v.locks = u.locks ∧ v.acc = u.acc := by
    simpa [State.arrays] using hv
  obtain ⟨h1, h2, F, hF, h3⟩ := h
  exact ⟨hwaves.trans h1, hlocks.trans h2, F, hF, hcmds.trans h3⟩

/-- The row of a null wave is marked, and the wave recorded (R290). -/
def State.nullRow (s : State) (c : MxCmd) (row : Nat) (cause : Byte) (va : Word) : State :=
  ((s.mapTag c.core c.tag fun t => { t with pois := setBit32 t.pois row true }).mapCmd c.id fun x =>
    { x with nulled := setBit32 x.nulled row true }).waveRecord c cause row va

/-- The row of a wave takes its sums. -/
def State.sumRow (s : State) (c : MxCmd) (ovr : Bool) (row : Nat) (r : VReg × Byte) : State :=
  let u := (s.setRow c.core (s.tag c.core c.tag).bank.toNat row r.1).mapCmd c.id fun x => { x with flags := x.flags ||| r.2 }
  if ovr then u.mapTag c.core c.tag fun t => { t with pois := setBit32 t.pois row false } else u

/-- A slot with cells of bad parity. -/
def State.slotFails (s : State) (c : MxCmd) (err : WaveErr) : Bool :=
  err.slotPar.isSome || s.slotBad.any fun a => decide (slotAddr c.core (s.tag c.core c.tag).slot.toNat ≤ a) &&
    decide (a < slotAddr c.core (s.tag c.core c.tag).slot.toNat + 8192)

/-- The sums of a wave. -/
def State.waveSums (s : State) (c : MxCmd) (w : Wave) (rb : Nat) (rows : List (List Byte)) (afmt bfmt : Byte) (blen : BitVec 2)
    (b128 ovr : Bool) : VReg × Byte :=
  let t := s.tag c.core c.tag
  let cb := mxCol bfmt b128
  let tile := s.slots.read (slotAddr c.core t.slot.toNat) (128 * cb)
  let sc := s.scales.read (scaleAddr c.core t.slot.toNat) 1024
  (⟨afmt, bfmt, blen, b128, rows.getD w.row [], w.scales⟩ : WaveIn).run ovr (fun n => (tile.drop (cb * n)).take cb)
    (fun b n => BitVec.ofNat 16 (natOfBytes ((sc.drop (2 * (128 * b + n))).take 2))) (s.bankRow c.core t.bank.toNat (rb + w.row))

section
variable {s : State} {c : MxCmd} {w : Wave} {err : WaveErr} {rb m : Nat} {rows : List (List Byte)} {afmt bfmt : Byte} {blen : BitVec 2}
  {b128 ovr : Bool} {sbase : Word} {stride issued : Nat}
  (hkind : c.kind = .mma rb m rows afmt bfmt blen b128 ovr sbase stride issued)
include hkind

theorem State.writeWave_sums (hnull : w.null = none) (hslot : s.slotFails c err = false) (hbank : err.accEcc = false ∨ ovr = true) :
    s.writeWave c w err = s.sumRow c ovr (rb + w.row) (s.waveSums c w rb rows afmt bfmt blen b128 ovr) := by
  have hecc : (err.accEcc && !ovr) = false := by rcases hbank with h | h <;> simp [h]
  unfold State.slotFails at hslot
  unfold State.writeWave
  simp only [hkind, hnull, hslot, hecc]
  rfl

theorem State.writeWave_parity {k : BitVec 10} (hnull : w.null = none) (hpar : err.slotPar = some k) :
    s.writeWave c w err =
      (s.meetError (coreError 3 c.core ((s.tag c.core c.tag).slot.toNat * 1024 + k.toNat) c.ctx)).nullRow c (rb + w.row) 15 0 := by
  unfold State.writeWave
  simp only [hkind, hnull, hpar]
  rfl

/-- A wave marks its row, or gives it sums; an error that it meets stands in the log alone. -/
theorem State.writeWave_cases : (∃ es cause va, s.writeWave c w err = ({ s with errs := es } : State).nullRow c (rb + w.row) cause va) ∨
    ∃ r, s.writeWave c w err = s.sumRow c ovr (rb + w.row) r := by
  unfold State.writeWave
  simp only [hkind]
  split
  · next cause va _ =>
    refine .inl ?_
    split
    · split
      · exact ⟨_, cause, va, rfl⟩
      · exact ⟨s.errs, cause, va, rfl⟩
    · split
      · exact ⟨_, cause, va, rfl⟩
      · exact ⟨s.errs, cause, va, rfl⟩
  · exact .inr ⟨_, rfl⟩

end

/-! ### What the two outcomes leave -/

theorem State.nullRow_touched (s : State) (c : MxCmd) (row : Nat) (cause : Byte) (va : Word) : s.CmdTouched (s.nullRow c row cause va) c.id :=
  State.CmdTouched.of_arrays (u := s.mapCmd c.id fun x => { x with nulled := setBit32 x.nulled row true })
    (State.CmdTouched.mapCmd s c.id fun _ => ⟨rfl, rfl, rfl, rfl, rfl⟩) (State.arrays_waveRecord ..)

theorem State.sumRow_touched (s : State) (c : MxCmd) (ovr : Bool) (row : Nat) (r : VReg × Byte) :
    s.CmdTouched (s.sumRow c ovr row r) c.id := by
  have h := State.CmdTouched.mapCmd s c.id (F := fun x => { x with flags := x.flags ||| r.2 }) fun _ => ⟨rfl, rfl, rfl, rfl, rfl⟩
  unfold State.sumRow
  cases ovr <;> exact h

/-- The row of a wave touches no command but its own. -/
theorem State.rowWritten_touched {s : State} {c : MxCmd} {w : Wave} {err : WaveErr} {rb m : Nat} {rows : List (List Byte)} {afmt bfmt : Byte}
    {blen : BitVec 2} {b128 ovr : Bool} {sbase : Word} {stride issued : Nat}
    (hkind : c.kind = .mma rb m rows afmt bfmt blen b128 ovr sbase stride issued) :
    (s.without w).CmdTouched (s.rowWritten c w err) c.id := by
  unfold State.rowWritten
  split
  · exact State.CmdTouched.refl ..
  · rcases (s.without w).writeWave_cases (w := w) (err := err) hkind with ⟨es, cause, va, h⟩ | ⟨r, h⟩
    · rw [h]
      exact State.nullRow_touched ..
    · rw [h]
      exact State.sumRow_touched ..

/-! ### The progress of the MMA (R291, R294) -/

section
variable {s u : State} {c : MxCmd} (hu : s.CmdTouched u c.id) (hc : s.cmd? c.id = some c)
include hu hc

theorem State.CmdTouched.cmd? : ∃ F, KeepsCmd F ∧ u.cmd? c.id = some (F c) ∧ u.cmds = mapIf s.cmds (fun x => x.id == c.id) F := by
  obtain ⟨-, -, F, hF, hcmds⟩ := hu
  refine ⟨F, hF, ?_, hcmds⟩
  unfold State.cmd?
  rw [hcmds, find?_mapIf_same (key := MxCmd.id) fun x => (hF x).1]
  exact congrArg (Option.map F) hc

end

theorem State.waveDone_goesOn {u : State} {id m : Nat} {c : MxCmd} {rb : Nat} {rows : List (List Byte)} {afmt bfmt : Byte} {blen : BitVec 2}
    {b128 ovr : Bool} {sbase : Word} {stride issued : Nat} (hc : u.cmd? id = some c)
    (hkind : c.kind = .mma rb m rows afmt bfmt blen b128 ovr sbase stride issued) (hk : c.killed = false) (hm : c.finished + 1 ≠ m) :
    u.waveDone id = u.mapCmd id fun _ => { c with finished := c.finished + 1 } := by
  unfold State.waveDone
  simp only [hc, hkind, hk]
  exact if_neg (by simpa using hm)

theorem State.waveDone_ends {u : State} {id m : Nat} {c : MxCmd} {rb : Nat} {rows : List (List Byte)} {afmt bfmt : Byte} {blen : BitVec 2}
    {b128 ovr : Bool} {sbase : Word} {stride issued : Nat} (hc : u.cmd? id = some c)
    (hkind : c.kind = .mma rb m rows afmt bfmt blen b128 ovr sbase stride issued) (hk : c.killed = false) (hm : c.finished + 1 = m) :
    u.waveDone id = (u.mapCmd id fun _ => { c with finished := c.finished + 1 }).endMma { c with finished := c.finished + 1 } := by
  unfold State.waveDone
  simp only [hc, hkind, hk]
  exact if_pos (by simpa using hm)

/-! ### The end of an MMA (R291) -/

theorem mem_of_mem_dropDone {c : Counter} {x : Token} : ∀ {l : List Token}, x ∈ dropDone c l → x ∈ l
  | [], h => h
  | t :: ts, h => by
    unfold dropDone at h
    split at h
    · split at h
      · exact List.mem_cons_of_mem _ (mem_of_mem_dropDone h)
      · exact h
    · rcases List.mem_cons.mp h with rfl | h
      · exact List.mem_cons_self ..
      · exact List.mem_cons_of_mem _ (mem_of_mem_dropDone h)

/-- No count of mx by a command stays open once the command is complete. -/
theorem Group.complete_mx (g : Group) (id : Nat) {x : Token} (hx : x ∈ (g.complete true id).tokens) (hid : x.id = id)
    (hcls : x.cls = .mx) : x.done = true := by
  have hmem : x ∈ mapIf g.tokens (Token.isFor true id) fun t => { t with done := true } :=
    mem_of_mem_dropDone (mem_of_mem_dropDone (mem_of_mem_dropDone (mem_of_mem_dropDone (mem_of_mem_dropDone hx))))
  obtain ⟨y, -, rfl⟩ := List.mem_map.mp hmem
  by_cases hy : Token.isFor true id y = true
  · rw [if_pos hy]
  · rw [if_neg hy] at hid hcls
    simp [Token.isFor, hid, hcls, ofCommands] at hy

theorem State.group?_mapGroup (s : State) (uid : Nat) {f : Group → Group} (hf : ∀ g, (f g).uid = g.uid) :
    (s.mapGroup uid f).group? uid = (s.group? uid).map f := find?_mapIf_same (key := Group.uid) hf s.groups uid

theorem State.endCmd_tokens (s : State) (c : MxCmd) {g : Group} (hg : (s.endCmd c).group? c.uid = some g) :
    ∃ g0 : Group, g.tokens = (g0.complete true c.id).tokens := by
  obtain ⟨g0, -, rfl⟩ := Option.map_eq_some_iff.mp ((State.group?_mapGroup _ c.uid (by exact fun _ => rfl)).symm.trans hg)
  exact ⟨g0, rfl⟩

theorem Group.setMxst_uid (g : Group) (status tag : Nat) (rows : Word32) : (g.setMxst status tag rows).uid = g.uid := by
  cases g
  rfl

theorem Group.setMxst_tokens (g : Group) (status tag : Nat) (rows : Word32) : (g.setMxst status tag rows).tokens = g.tokens := by
  cases g
  rfl

theorem State.endCmdAs_tokens (s : State) (c : MxCmd) (status : Nat) (rows : Word32) {g : Group}
    (hg : (s.endCmdAs c status rows).group? c.uid = some g) : ∃ g0 : Group, g.tokens = (g0.complete true c.id).tokens := by
  have hmap := State.group?_mapGroup (s.endCmd c) c.uid (f := fun g => g.setMxst status c.tag rows) fun g => g.setMxst_uid status c.tag rows
  obtain ⟨g1, hg1, rfl⟩ := Option.map_eq_some_iff.mp (hmap.symm.trans hg)
  obtain ⟨g0, h0⟩ := s.endCmd_tokens c hg1
  exact ⟨g0, (g1.setMxst_tokens status c.tag rows).trans h0⟩

/-- The end of an MMA takes its command and its locks, and closes its count. -/
theorem State.endMma_ends (s : State) {c : MxCmd} (hk : c.killed = false) : (s.endMma c).waves = s.waves ∧
    (s.endMma c).cmds = s.cmds.filter (fun x => x.id != c.id) ∧ (s.endMma c).locks = s.locks.filter (fun l => l.cmd != c.id) ∧
    ∀ g, (s.endMma c).group? c.uid = some g → ∃ g0 : Group, g.tokens = (g0.complete true c.id).tokens := by
  have hflags : ∀ f, (s.cmdFlags c f).waves = s.waves ∧ (s.cmdFlags c f).cmds = s.cmds ∧ (s.cmdFlags c f).locks = s.locks := fun f => by
    unfold State.cmdFlags
    split <;> exact ⟨rfl, rfl, rfl⟩
  have hends : ∀ u : State, (u.endCmd c).waves = u.waves ∧ (u.endCmd c).cmds = u.cmds.filter (fun x => x.id != c.id) ∧
      (u.endCmd c).locks = u.locks.filter (fun l => l.cmd != c.id) := fun u => ⟨rfl, rfl, rfl⟩
  unfold State.endMma
  rw [if_neg (by simp [hk])]
  split
  · obtain ⟨hw, hc, hl⟩ := hflags (c.flags ||| 0x80)
    exact ⟨hw, congrArg _ hc, congrArg _ hl, fun g hg => State.endCmdAs_tokens _ c 1 c.nulled hg⟩
  · obtain ⟨hw, hc, hl⟩ := hflags c.flags
    exact ⟨hw, congrArg _ hc, congrArg _ hl, fun g hg => State.endCmd_tokens _ c hg⟩

/-- Without the entry of a name, a change of it that keeps the name leaves no trace. -/
theorem filter_mapIf {α : Type} {key : α → Nat} {f : α → α} {k : Nat} (hf : ∀ x, key x = k → key (f x) = k) (l : List α) :
    (mapIf l (fun x => key x == k) f).filter (fun x => key x != k) = l.filter fun x => key x != k := by
  induction l with
  | nil => rfl
  | cons x l ih =>
    rw [mapIf, List.map_cons, List.filter_cons, List.filter_cons]
    by_cases hx : key x = k
    · have hne : ¬ (key x != k) = true := by simpa using hx
      have hfne : ¬ (key (f x) != k) = true := by simpa using hf x hx
      rw [if_pos (beq_iff_eq.mpr hx), if_neg hfne, if_neg hne]
      exact ih
    · have hne : (key x != k) = true := by simpa using hx
      have heq : ¬ (key x == k) = true := by simpa using hx
      rw [if_neg heq, if_pos hne, if_pos hne]
      exact congrArg (List.cons x) ih

end Sys2Proof.Machine
end

section
/-! SUPPORT. The row that a wave writes or marks, and the obligation of the waves. -/

namespace Sys2Proof.Machine

/-! ### The stores of a row -/

theorem State.acc_sumRow (s : State) (c : MxCmd) (ovr : Bool) (row : Nat) (r : VReg × Byte) : (s.sumRow c ovr row r).acc =
    s.acc.write (rowAddr c.core (s.tag c.core c.tag).bank.toNat row) (Machine.imageBytes r.1) := by
  unfold State.sumRow
  cases ovr <;> rfl

theorem State.mem_sumRow (s : State) (c : MxCmd) (ovr : Bool) (row : Nat) (r : VReg × Byte) : (s.sumRow c ovr row r).mem = s.mem := by
  unfold State.sumRow
  cases ovr <;> rfl

theorem State.bankRow_element (s : State) (core bank row : Nat) {n : Nat} (hn : n < 128) : (s.bankRow core bank row)[n] =
    BitVec.ofNat 32 (natOfBytes (s.acc.read (rowAddr core bank row + 4 * n) 4)) := by
  simp only [State.bankRow, Vector.getElem_ofFn]
  rw [Cells.read_part _ _ _ _ _ (by omega)]

/-- The product of an element of a row and the cell of the slot. -/
theorem bytePair_slot (s : State) (signed : Bool) (row : List Byte) (slot n : Nat) (hn : n < 128) {e : Nat} (he : e < 64) :
    bytePair signed row (((s.slots.read slot 8192).drop (64 * n)).take 64) e =
      (if signed then (row.getD e 0).toInt else (row.getD e 0).toNat) * (s.slots.get (slot + 64 * n + e)).toInt := by
  rw [Cells.read_part _ _ _ _ _ (by omega)]
  unfold bytePair numOf
  rw [Cells.getD_read _ _ _ _ he]

/-- The sums of an integer pair over the tile of a slot. -/
theorem waveSums_bytes {s : State} {c : MxCmd} {w : Wave} {rb : Nat} {rows : List (List Byte)} {afmt : Byte} {ovr : Bool} {n : Nat}
    (hn : n < 128) (dot : Int)
    (hdot : dot = sumTo (fun e => (if afmt = 4 then ((rows.getD w.row []).getD e 0).toInt else ((rows.getD w.row []).getD e 0).toNat) *
      (s.slots.get (slotAddr c.core (s.tag c.core c.tag).slot.toNat + 64 * n + e)).toInt) 64) :
    ((s.waveSums c w rb rows afmt 4 0 false ovr).1[n]).toInt = if ovr then (BitVec.ofInt 32 dot).toInt
      else max (-2 ^ 31) (min (2 ^ 31 - 1) ((BitVec.ofNat 32 (natOfBytes
        (s.acc.read (rowAddr c.core (s.tag c.core c.tag).bank.toNat (rb + w.row) + 4 * n) 4))).toInt + dot)) := by
  have hcol : mxCol 4 false = 64 := by decide
  have hrun := run_bytes ⟨afmt, 4, 0, false, rows.getD w.row [], w.scales⟩ rfl rfl rfl ovr
    (fun n => ((s.slots.read (slotAddr c.core (s.tag c.core c.tag).slot.toNat) 8192).drop (64 * n)).take 64)
    (fun b n => BitVec.ofNat 16 (natOfBytes ((((s.scales.read (scaleAddr c.core (s.tag c.core c.tag).slot.toNat) 1024)).drop
      (2 * (128 * b + n))).take 2)))
    (s.bankRow c.core (s.tag c.core c.tag).bank.toNat (rb + w.row)) hn
  have hsum : sumTo (bytePair (afmt == 4) (rows.getD w.row [])
      (((s.slots.read (slotAddr c.core (s.tag c.core c.tag).slot.toNat) 8192).drop (64 * n)).take 64)) 64 = dot := by
    rw [hdot]
    refine sumTo_congr fun e he => (bytePair_slot s _ _ _ n hn he).trans ?_
    simp
  rw [State.bankRow_element _ _ _ _ hn] at hrun
  rw [← hsum]
  unfold State.waveSums
  simp only [hcol]
  exact hrun

theorem getLsbD_setBit32 (m : Word32) {r : Nat} (j : Nat) (hr : r < 32) :
    (setBit32 m r true).getLsbD j = if j = r then true else m.getLsbD j := by
  by_cases hj : j = r
  · subst hj
    simp [setBit32, hr]
  · have hbit : (1#32 <<< r).getLsbD j = false := by
      rw [BitVec.getLsbD_shiftLeft, BitVec.getLsbD_one]
      simp
      omega
    simp [setBit32, hj, hbit]

theorem State.tag_mapTag_same {s : State} {core t : Nat} (hc : core < 192) (ht : t < 16) (f : Tag → Tag) :
    (s.mapTag core t f).tag core t = f (s.tag core t) := by
  unfold State.tag State.mapTag
  rw [State.core_mapCore_same _ hc]
  exact look_put_same _ _ _ _ ht

theorem State.tag_mapCmd (s : State) (id : Nat) (f : MxCmd → MxCmd) (core t : Nat) : (s.mapCmd id f).tag core t = s.tag core t :=
  rfl

theorem State.pois_nullRow {s : State} {c : MxCmd} {row : Nat} (cause : Byte) (va : Word) (hc : c.core < 192) (ht : c.tag < 16) :
    ((s.nullRow c row cause va).tag c.core c.tag).pois = setBit32 (s.tag c.core c.tag).pois row true := by
  unfold State.nullRow
  rw [State.tag_waveRecord, State.tag_mapCmd, State.tag_mapTag_same hc ht]

theorem State.acc_waveRecord (s : State) (c : MxCmd) (cause : Byte) (row : Nat) (va : Word) :
    (s.waveRecord c cause row va).acc = s.acc := by
  have h := s.arrays_waveRecord c cause row va
  simp only [State.arrays, Prod.mk.injEq] at h
  obtain ⟨-, -, -, hacc⟩ := h
  exact hacc

theorem State.acc_nullRow (s : State) (c : MxCmd) (row : Nat) (cause : Byte) (va : Word) : (s.nullRow c row cause va).acc = s.acc :=
  State.acc_waveRecord ((s.mapTag c.core c.tag fun t => { t with pois := setBit32 t.pois row true }).mapCmd c.id fun x =>
    { x with nulled := setBit32 x.nulled row true }) c cause row va

/-! ### Steps of the write-back -/

section
variable {s : State} {core : Nat} {w : Wave} {c : MxCmd} {err : WaveErr} {rb m : Nat} {rows : List (List Byte)} {afmt bfmt : Byte}
  {blen : BitVec 2} {b128 ovr : Bool} {sbase : Word} {stride issued : Nat} (hold : s.oldestWave core = some w)
  (hdue : w.inj.getD 0 + 200 ≤ s.cyclesOf core) (hc : s.cmd? w.cmd = some c)
  (hkind : c.kind = .mma rb m rows afmt bfmt blen b128 ovr sbase stride issued) (hk : c.killed = false)
include hold hdue hc hkind hk

/-- A wave that is not its MMA's last one leaves the state of its row, but for the progress of its command. -/
theorem waveWriteback_goesOn (hm : c.finished + 1 ≠ m) : ∃ F, exec (.waveWriteback core err) s =
    .next ((s.rowWritten c w err).mapCmd w.cmd F) ∧ (s.rowWritten c w err).waves = (s.without w).waves := by
  have hid := State.id_of_cmd? hc
  have htouched := State.rowWritten_touched (s := s) (w := w) (err := err) hkind
  obtain ⟨F, hF, hcmd, -⟩ := htouched.cmd? (s := s.without w) (by rw [hid]; exact hc)
  obtain ⟨-, -, hFkind, hFkilled, hFfin⟩ := hF c
  rw [hid] at hcmd
  exact ⟨_, (waveWriteback_due err hold hdue hc).trans (congrArg Host.Outcome.next (State.waveDone_goesOn hcmd (hFkind.trans hkind)
    (hFkilled.trans hk) (by rw [hFfin]; exact hm))), htouched.1⟩

/-- The last wave of an MMA ends it. -/
theorem waveWriteback_ends (hm : c.finished + 1 = m) : ∃ t, exec (.waveWriteback core err) s = .next t ∧ (∀ x ∈ t.waves, x ≠ w) ∧
    t.cmds = s.cmds.filter (fun x => x.id != c.id) ∧ t.locks = s.locks.filter (fun l => l.cmd != c.id) ∧
    ∀ g, t.group? c.uid = some g → ∀ x ∈ g.tokens, x.id = c.id → x.cls = .mx → x.done = true := by
  have hid := State.id_of_cmd? hc
  have htouched := State.rowWritten_touched (s := s) (w := w) (err := err) hkind
  obtain ⟨F, hF, hcmd, hcmds⟩ := htouched.cmd? (s := s.without w) (by rw [hid]; exact hc)
  obtain ⟨hFid, hFuid, hFkind, hFkilled, hFfin⟩ := hF c
  rw [hid] at hcmd
  have hrun := (waveWriteback_due err hold hdue hc).trans (congrArg Host.Outcome.next (State.waveDone_ends hcmd (hFkind.trans hkind)
    (hFkilled.trans hk) (by rw [hFfin]; exact hm)))
  obtain ⟨hwaves, hends, hlocks, htokens⟩ := State.endMma_ends ((s.rowWritten c w err).mapCmd w.cmd fun _ =>
    { F c with finished := (F c).finished + 1 }) (c := { F c with finished := (F c).finished + 1 }) (hFkilled.trans hk)
  obtain ⟨hsame, hheld, -⟩ := htouched
  refine ⟨_, hrun, fun x hx => ?_, hends.trans ?_, hlocks.trans ?_, fun g hg x hx hxid hcls => ?_⟩
  · rw [hwaves] at hx
    exact State.not_mem_without (s := s) (hsame ▸ hx)
  · change (mapIf (s.rowWritten c w err).cmds (fun x => x.id == w.cmd) _).filter (fun x => x.id != (F c).id) = _
    rw [hFid, hid, filter_mapIf (key := MxCmd.id) (f := fun _ => { F c with finished := (F c).finished + 1 }) fun _ _ => hFid.trans hid,
      hcmds, hid,
      filter_mapIf (key := MxCmd.id) fun x hx => (hF x).1.trans hx]
    rfl
  · rw [hFid]
    exact congrArg _ hheld
  · obtain ⟨g0, h0⟩ := htokens g (hFuid.symm ▸ hg)
    rw [h0] at hx
    exact g0.complete_mx _ hx (hxid.trans hFid.symm) hcls

end

/-- An unscaled wave of an integer pair writes its row. -/
theorem waveWriteback_bytes {s : State} {core tag : Nat} {w : Wave} {c : MxCmd} {err : WaveErr} {rb m : Nat} {rows : List (List Byte)}
    {afmt : Byte} {ovr : Bool} {sbase : Word} {stride issued : Nat} (hold : s.oldestWave core = some w)
    (hdue : w.inj.getD 0 + 200 ≤ s.cyclesOf core) (hc : s.cmd? w.cmd = some c) (hoff : w.off = false) (hcore : c.core = core)
    (htag : c.tag = tag) (hkind : c.kind = .mma rb m rows afmt 4 0 false ovr sbase stride issued) (hk : c.killed = false)
    (hm : c.finished + 1 ≠ m) (hnull : w.null = none) (hslot : s.slotFails c err = false) (hbank : err.accEcc = false ∨ ovr = true)
    (hwf : s.acc.wf = true) (dot : Nat → Int)
    (hdot : ∀ n, dot n = sumTo (fun e => (if afmt = 4 then ((rows.getD w.row []).getD e 0).toInt else ((rows.getD w.row []).getD e 0).toNat) *
      (s.slots.get (slotAddr core (s.tag core tag).slot.toNat + 64 * n + e)).toInt) 64) :
    let bank := rowAddr core (s.tag core tag).bank.toNat (rb + w.row)
    ∃ t, exec (.waveWriteback core err) s = .next t ∧ (∀ x ∈ t.waves, x ≠ w) ∧
      (∀ n, n < 128 → (BitVec.ofNat 32 (natOfBytes (t.acc.read (bank + 4 * n) 4))).toInt =
        if ovr then (BitVec.ofInt 32 (dot n)).toInt else max (-2 ^ 31) (min (2 ^ 31 - 1)
          ((BitVec.ofNat 32 (natOfBytes (s.acc.read (bank + 4 * n) 4))).toInt + dot n))) ∧
      (∀ x, x < bank ∨ bank + 512 ≤ x → t.acc.get x = s.acc.get x) ∧ SameMem s t := by
  subst hcore htag
  intro bank
  obtain ⟨F, hrun, hwaves⟩ := waveWriteback_goesOn (err := err) hold hdue hc hkind hk hm
  have hrow : s.rowWritten c w err = (s.without w).sumRow c ovr (rb + w.row) ((s.without w).waveSums c w rb rows afmt 4 0 false ovr) := by
    rw [State.rowWritten, hoff]
    exact State.writeWave_sums hkind hnull hslot hbank
  have hacc : ((s.rowWritten c w err).mapCmd w.cmd F).acc =
      s.acc.write bank (Machine.imageBytes (s.waveSums c w rb rows afmt 4 0 false ovr).1) := by
    change (s.rowWritten c w err).acc = _
    rw [hrow, State.acc_sumRow]
    rfl
  refine ⟨_, hrun, fun x hx => ?_, fun n hn => ?_, fun x hx => ?_, fun pa => ?_⟩
  · exact State.not_mem_without (s := s) (hwaves ▸ hx)
  · rw [hacc, Cells.element_written hwf _ _ hn]
    exact waveSums_bytes hn (dot n) (hdot n)
  · rw [hacc]
    exact Cells.get_write_out _ _ _ _ (by rwa [length_imageBytes])
  · change (s.rowWritten c w err).mem.get pa = _
    rw [hrow, State.mem_sumRow]
    rfl

/-- A wave whose slot fails its parity marks its row. -/
theorem waveWriteback_parity {s : State} {core tag : Nat} {w : Wave} {c : MxCmd} {err : WaveErr} {rb m : Nat} {rows : List (List Byte)}
    {afmt bfmt : Byte} {blen : BitVec 2} {b128 ovr : Bool} {sbase : Word} {stride issued : Nat} (hold : s.oldestWave core = some w)
    (hdue : w.inj.getD 0 + 200 ≤ s.cyclesOf core) (hc : s.cmd? w.cmd = some c) (hoff : w.off = false) (hcore : c.core = core)
    (htag : c.tag = tag) (hkind : c.kind = .mma rb m rows afmt bfmt blen b128 ovr sbase stride issued) (hk : c.killed = false)
    (hm : c.finished + 1 ≠ m) (hnull : w.null = none) (hcore192 : core < 192) (htag16 : tag < 16) (hrow32 : rb + w.row < 32)
    (hpar : err.slotPar.isSome = true) :
    ∃ t, exec (.waveWriteback core err) s = .next t ∧ (∀ x ∈ t.waves, x ≠ w) ∧ t.acc = s.acc ∧
      (t.tag core tag).pois.getLsbD (rb + w.row) = true ∧
      ∀ j, j ≠ rb + w.row → (t.tag core tag).pois.getLsbD j = (s.tag core tag).pois.getLsbD j := by
  subst hcore htag
  obtain ⟨k, hk'⟩ := Option.isSome_iff_exists.mp hpar
  obtain ⟨F, hrun, hwaves⟩ := waveWriteback_goesOn (err := err) hold hdue hc hkind hk hm
  have hrow : s.rowWritten c w err = ((s.without w).meetError (coreError 3 c.core ((s.tag c.core c.tag).slot.toNat * 1024 + k.toNat)
      c.ctx)).nullRow c (rb + w.row) 15 0 := by
    rw [State.rowWritten, hoff]
    exact State.writeWave_parity hkind hnull hk'
  have hpois : (((s.rowWritten c w err).mapCmd w.cmd F).tag c.core c.tag).pois =
      setBit32 (s.tag c.core c.tag).pois (rb + w.row) true := by
    change ((s.rowWritten c w err).tag c.core c.tag).pois = _
    rw [hrow, State.pois_nullRow _ _ hcore192 htag16]
    rfl
  refine ⟨_, hrun, fun x hx => ?_, ?_, ?_, fun j hj => ?_⟩
  · exact State.not_mem_without (s := s) (hwaves ▸ hx)
  · change (s.rowWritten c w err).acc = _
    rw [hrow, State.acc_nullRow]
    rfl
  · rw [hpois, getLsbD_setBit32 _ _ hrow32, if_pos rfl]
  · rw [hpois, getLsbD_setBit32 _ _ hrow32, if_neg hj]

/-! ### The obligation -/

/-- The sum as a fold over the products. -/
theorem foldl_products (f : Nat → Int) (n : Nat) : ((List.range n).map f).foldl (· + ·) 0 = sumTo f n := by
  rw [List.foldl_map]
  rfl

/-- Settles O41: the wave of a row, from its preparation to its end. -/
theorem wavesComputeTheirRow : Obligations.WavesComputeTheirRow := by
  unfold Obligations.WavesComputeTheirRow
  intro s core tag hcore htag
  refine ⟨fun c rb m rows afmt bfmt b128 ovr sbase stride issued hnext hkind hgroup hactive hdue hlock => ?_,
    fun w before after hcycle hturn hrot hready hwaves hwcore hwtag hinj hbefore => ?_,
    fun w c err rb m rows afmt bfmt ovr sbase stride issued hold hdue hc hoff hwcore hccore hctag hkind hk hm => ?_,
    fun w c err rb m rows afmt bfmt blen b128 ovr sbase stride issued hold hdue hc hkind hk hm =>
      waveWriteback_ends hold hdue hc hkind hk hm⟩
  · refine ⟨_, congrArg Host.Outcome.next (prepareWave_unscaled hnext hkind hgroup hactive hdue hlock), rfl, ?_⟩
    change mapIf s.cmds (fun x => x.id == c.id) _ = _
    simp [mapIf]
  · obtain ⟨n, hrun⟩ := waveInject_tag htag hcycle hturn hrot hready
    exact ⟨_, hrun, inject_next hwaves hwcore hwtag hinj hbefore hcore n⟩
  · intro t0 row bank slot a wt old dot hrow hnull hafmt
    refine ⟨fun hpar hslot hbank hb hwf => ?_, fun hpar => ?_⟩
    · subst hb
      have hok : s.slotFails c err = false := by
        subst hccore hctag
        unfold State.slotFails
        rw [hpar, Option.isSome_none, Bool.false_or, List.any_eq_false]
        intro x hx hin
        rw [Bool.and_eq_true, decide_eq_true_eq, decide_eq_true_eq] at hin
        exact (hslot x hx).elim hin.1.not_gt hin.2.not_ge
      exact waveWriteback_bytes hold hdue hc hoff hccore hctag hkind hk hm hnull hok hbank hwf dot fun n => foldl_products _ 64
    · exact waveWriteback_parity hold hdue hc hoff hccore hctag hkind hk hm hnull hcore htag hrow hpar

end Sys2Proof.Machine
end

section
/-! SUPPORT. Commands of a tag in their turn: a WLOAD and an MZERO that begin, the rows of a drain that are checked, the scrub. -/

namespace Sys2Proof.Machine

/-! ### The oldest command of a tag -/

theorem State.startable_some {s : State} {core tag : Nat} {c : MxCmd} (hhead : s.headCmd core tag = some c) (hbegun : c.begun = false)
    (hlock : s.lockConflict c.id = false) : s.startable core tag = some c := by
  simp [State.startable, hhead, hbegun, hlock]

/-- A command of the queue is the one of its name. -/
theorem State.cmd?_of_headCmd {s : State} {core tag : Nat} {c : MxCmd} (hhead : s.headCmd core tag = some c)
    (hids : s.cmds.Pairwise fun x y => x.id ≠ y.id) : s.cmd? c.id = some c :=
  List.find?_eq_some_iff_append.mpr <| by
    obtain ⟨before, after, hsplit⟩ := List.append_of_mem (List.mem_of_find?_eq_some hhead)
    refine ⟨beq_self_eq_true _, before, after, hsplit, fun x hx => ?_⟩
    have hne := (List.pairwise_append.mp (hsplit ▸ hids)).2.2 x hx c (List.mem_cons_self ..)
    simp [hne]

theorem State.cmd?_mapCmd {s : State} {c : MxCmd} {f : MxCmd → MxCmd} (hf : ∀ x, (f x).id = x.id) (hc : s.cmd? c.id = some c) :
    (s.mapCmd c.id f).cmd? c.id = some (f c) :=
  (find?_mapIf_same (key := MxCmd.id) hf s.cmds c.id).trans (congrArg (Option.map f) hc)

theorem filter_id (l : List MxCmd) (id : Nat) : (l.filter fun x => x.id != id) = l.filter fun x => x.id ≠ id :=
  List.filter_congr fun x _ => by simp [bne, Bool.beq_eq_decide_eq]

theorem State.cmds_endCmd (s : State) (c : MxCmd) : (s.endCmd c).cmds = s.cmds.filter fun x => x.id ≠ c.id :=
  filter_id s.cmds c.id

section
variable {s : State} {core tag : Nat} {c : MxCmd} (hhead : s.headCmd core tag = some c) (hbegun : c.begun = false)
  (hlock : s.lockConflict c.id = false)
include hhead hbegun hlock

theorem wloadBegin_begins {fmt : Byte} {blen : BitVec 2} {b128 : Bool} {tile scales : Nat} (hkind : c.kind = .wload fmt blen b128 tile scales) :
    exec (.wloadBegin core tag) s = .next (s.mapCmd c.id fun c => { c with begun := true }) := by
  refine congrArg Host.Outcome.next ?_
  simp only [State.startable_some hhead hbegun hlock, hkind]

/-- The state after an MZERO. -/
theorem mzeroExecute_clears {rb m : Nat} (hkind : c.kind = .mzero rb m) : exec (.mzeroExecute core tag) s =
    .next ((({ s with acc := (s.acc.clear (rowAddr core (s.tag core tag).bank.toNat rb)
      (rowAddr core (s.tag core tag).bank.toNat (rb + m))) } : State).mapTag core tag fun t =>
        { t with pois := (List.range m).foldl (fun p i => setBit32 p (rb + i) false) t.pois }).endCmd c) := by
  refine congrArg Host.Outcome.next ?_
  simp only [State.startable_some hhead hbegun hlock, hkind]

/-- The rows of a drain are good: its path goes on. -/
theorem drainBegin_goesOn {toSp : Bool} {vd : BitVec 8} {base : Word} {ty : ElemType} {rnd : Rnd} {sat clr : Bool}
    {drop : Option (Word × Word × Word)} {rb m : Nat} {resid : List VReg} {pops : List Word} {acc : Nat}
    (hkind : c.kind = .drain toSp vd base ty rnd sat clr drop rb m resid pops acc) {bad : List Nat}
    (hrows : ∀ i, i < m → (s.tag core tag).pois.getLsbD (rb + i) = false ∧ rb + i ∉ bad) : exec (.drainBegin core tag bad) s =
      .next ((s.mapCmd c.id fun c => { c with begun := true }).mapGroup c.uid fun g =>
        { g with accs := mapIf g.accs (fun a => a.seq == acc) Access.checked }) := by
  have hnone : (((List.range m).map (rb + ·)).find? fun r => (s.tag core tag).pois.getLsbD r || bad.contains r) = none := by
    simp only [List.find?_eq_none, List.mem_map, List.mem_range, forall_exists_index, and_imp]
    rintro r i hi rfl
    obtain ⟨hp, hb⟩ := hrows i hi
    simp [hp, hb]
  refine congrArg Host.Outcome.next ?_
  simp only [State.startable_some hhead hbegun hlock, hkind, hnone]

end

/-! ### MZERO -/

theorem getLsbD_setBit32_off (m : Word32) (r j : Nat) (hj : j < 32) :
    (setBit32 m r false).getLsbD j = if j = r then false else m.getLsbD j := by
  have hbit : (1#32 <<< r).getLsbD j = decide (j = r) := by
    rw [BitVec.getLsbD_shiftLeft, BitVec.getLsbD_one, Bool.eq_iff_iff]
    simp only [Bool.and_eq_true, Bool.not_eq_true', decide_eq_true_eq, decide_eq_false_iff_not]
    omega
  simp only [setBit32, Bool.false_eq_true, if_false, BitVec.getLsbD_and, BitVec.getLsbD_not, hbit, hj]
  by_cases h : j = r <;> simp [h]

theorem getLsbD_foldl_off (rb m j : Nat) (hj : j < 32) (p : Word32) :
    ((List.range m).foldl (fun p i => setBit32 p (rb + i) false) p).getLsbD j = if rb ≤ j ∧ j < rb + m then false else p.getLsbD j := by
  induction m with
  | zero => simp; omega
  | succ m ih =>
    rw [List.range_succ, List.foldl_append, List.foldl_cons, List.foldl_nil, getLsbD_setBit32_off _ _ _ hj, ih]
    by_cases h : j = rb + m
    · simp [h]
    · have : (rb ≤ j ∧ j < rb + (m + 1)) ↔ rb ≤ j ∧ j < rb + m := by omega
      simp [h, this]

/-! ### The scrub -/

theorem State.tag_freeTag {s : State} {core n : Nat} (hc : core < 192) (hn : n < 16) :
    (s.freeTag core n).tag core n = .free ∧ ∀ m, m ≠ n → (s.freeTag core n).tag core m = s.tag core m := by
  unfold State.tag State.freeTag State.mapTag
  simp only [State.core_mapCore_same _ hc]
  exact ⟨look_put_same _ _ _ _ hn, fun m hm => look_put_ne _ _ _ _ _ hm.symm⟩

theorem tagScrub_scrubs {s : State} {core tag : Nat} (hst : (s.tag core tag).st = .dying)
    (hwaves : ∀ w ∈ s.waves, w.core ≠ core ∨ w.tag ≠ tag) (hcmds : ∀ c ∈ s.cmds, c.core ≠ core ∨ c.tag ≠ tag) :
    exec (.tagScrub core tag) s = .next (s.scrubTag core tag) := by
  have hw : (s.waves.any fun w => w.core == core && w.tag == tag) = false :=
    List.any_eq_false.mpr fun w h => by simpa [imp_iff_not_or] using hwaves w h
  have hc : s.headCmd core tag = none := List.find?_eq_none.mpr fun c h => by simpa [imp_iff_not_or] using hcmds c h
  refine congrArg Host.Outcome.next (if_pos ?_)
  simp [hst, hw, hc]

end Sys2Proof.Machine
end

section
/-! SUPPORT. The end of a WLOAD: its tile in the slot, zeros beyond it. -/

namespace Sys2Proof.Machine

/-- The slots with the tile of a WLOAD. -/
def State.tileSlots (s : State) (c : MxCmd) (size tile : Nat) : Cells :=
  let slot := slotAddr c.core (s.tag c.core c.tag).slot.toNat
  (s.slots.clear slot (slot + 8192)).write slot (s.wb.read (regionAddr c.core c.tag + tile) size)

/-- A WLOAD ends with its tile in the slot and the format of its tag; the errors that it meets stand in the log. -/
theorem State.finishWload_tile (s : State) (c : MxCmd) (fmt : Byte) (blen : BitVec 2) (b128 : Bool) (tile scales : Nat) (bad : List Nat) :
    ∃ sc marks es es', s.finishWload c fmt blen b128 tile scales bad =
      ((((({ s with slots := s.tileSlots c (128 * mxCol fmt b128) tile, scales := sc, slotBad := marks } : State).withErrs es).withErrs es').mapTag
        c.core c.tag fun t => { t with bfmt := fmt, blen := blen, b128 := b128 }).endCmd c) := by
  unfold State.finishWload
  dsimp only
  obtain ⟨es, hes, -⟩ := foldl_meetError _ _ _
  obtain ⟨es', hes', -⟩ := foldl_meetError _ _ _
  rw [hes, hes']
  exact ⟨_, _, es', es, rfl⟩

theorem wloadComplete_finishes {s : State} {core tag : Nat} {c : MxCmd} (hhead : s.headCmd core tag = some c) (hbegun : c.begun = true)
    {fmt : Byte} {blen : BitVec 2} {b128 : Bool} {tile scales : Nat} (hkind : c.kind = .wload fmt blen b128 tile scales) (bad : List Nat) :
    exec (.wloadComplete core tag bad) s = .next (s.finishWload c fmt blen b128 tile scales bad) := by
  refine congrArg Host.Outcome.next ?_
  simp only [hhead, hbegun, hkind]

theorem State.tileSlots_in {s : State} (hwf : s.slots.wf = true) (c : MxCmd) (size tile : Nat) {j : Nat} (hj : j < 8192) :
    (s.tileSlots c size tile).get (slotAddr c.core (s.tag c.core c.tag).slot.toNat + j) =
      if j < size then s.wb.get (regionAddr c.core c.tag + tile + j) else 0 := by
  unfold State.tileSlots
  dsimp only
  split
  · next h =>
    have hlen : j < (s.wb.read (regionAddr c.core c.tag + tile) size).length := by rwa [Cells.length_read]
    rw [Cells.get_write_in _ _ _ hlen (Cells.clear_wf _ _ hwf), ← Cells.getD_read _ _ _ _ h, List.getD_eq_getElem _ _ hlen]
  · rw [Cells.get_write_out _ _ _ _ (by rw [Cells.length_read]; omega), Cells.get_clear, if_pos (by omega)]

theorem State.tileSlots_out (s : State) (c : MxCmd) {size : Nat} (tile : Nat) (hsize : size ≤ 8192) {x : Nat}
    (hx : x < slotAddr c.core (s.tag c.core c.tag).slot.toNat ∨ slotAddr c.core (s.tag c.core c.tag).slot.toNat + 8192 ≤ x) :
    (s.tileSlots c size tile).get x = s.slots.get x := by
  unfold State.tileSlots
  dsimp only
  rw [Cells.get_write_out _ _ _ _ (by rw [Cells.length_read]; omega), Cells.get_clear, if_neg (by omega)]

theorem State.tag_endCmd (s : State) (c : MxCmd) (core t : Nat) : (s.endCmd c).tag core t = s.tag core t := rfl

end Sys2Proof.Machine
end

section
/-! SUPPORT. The registers of a drain: its elements, its flags, and their delivery. -/

namespace Sys2Proof.Machine

/-! ### The elements of a drain of an integer bank -/

/-- What a drain to S32 or S8X4 gives of an integer sum. -/
def drained (ty : ElemType) (x : Word32) : Word32 :=
  if ty = .s32 then x else (BitVec.ofInt 8 (max (-128) (min 127 x.toInt))).setWidth 32

/-- A sum that does not fit the output type. -/
def Clips (ty : ElemType) (x : Word32) : Prop := ty = .s8x4 ∧ (x.toInt < -128 ∨ 127 < x.toInt)

/-- A drain of an integer bank without dropout. -/
def intDrain (ty : ElemType) (rnd : Rnd) (sat : Bool) : DrainIn := ⟨true, ty, rnd, sat, none⟩

theorem clampInt_toInt (x : Word32) : clampInt true 32 x.toInt = x.toInt := by
  have hlo := BitVec.le_toInt x
  have hhi := BitVec.toInt_lt (x := x)
  simp only [clampInt, intMin, intMax, if_true]
  omega

section
variable {ty : ElemType} (hty : ty = .s32 ∨ ty = .s8x4) (rnd : Rnd) (sat : Bool) (row col : Nat) (x : Word32)
include hty

theorem intDrain_bits : BitVec.ofNat 32 ((intDrain ty rnd sat).elem row col x none).1 = drained ty x := by
  unfold DrainIn.elem intDrain drained
  rcases hty with rfl | rfl
  · have hx : wrapInt 32 x.toInt = x.toNat := by rw [← toNat_ofInt_eq_wrapInt, BitVec.ofInt_toInt]
    simp [clampInt_toInt, hx]
  · have hclamp : clampInt true 8 x.toInt = max (-128) (min 127 x.toInt) := by simp [clampInt, intMin, intMax]
    simp only [clampInt_toInt, hclamp]
    exact (congrArg (BitVec.ofNat 32) (toNat_ofInt_eq_wrapInt 8 _).symm).trans (BitVec.ofNat_toNat ..)

theorem intDrain_flag [Decidable (Clips ty x)] : ((intDrain ty rnd sat).elem row col x none).2 = if Clips ty x then flagSA else 0 := by
  unfold DrainIn.elem intDrain
  rcases hty with rfl | rfl
  · simp [clampInt_toInt, flagIf, Clips]
  · have hrange : inRange true 8 x.toInt = true ↔ ¬ (x.toInt < -128 ∨ 127 < x.toInt) := by
      simp [inRange, intMin, intMax]
    by_cases h : x.toInt < -128 ∨ 127 < x.toInt
    · simp [clampInt_toInt, flagIf, Clips, h, Bool.eq_false_iff.mpr fun hr => hrange.mp hr h, flagSA]
    · simp [clampInt_toInt, flagIf, Clips, h, hrange.mpr h]

end

/-- Flags that are all one flag or none. -/
theorem foldl_flag {α : Type} {g : α → Byte} {p : α → Prop} [DecidablePred p] {f : Byte} :
    ∀ (l : List α) [Decidable (∃ x ∈ l, p x)] (b : Byte), (∀ x ∈ l, g x = if p x then f else 0) →
      l.foldl (fun b x => b ||| g x) b = b ||| if ∃ x ∈ l, p x then f else 0
  | [], _, b, _ => by simp
  | x :: xs, _, b, h => by
    have := Classical.propDecidable (∃ y ∈ xs, p y)
    rw [List.foldl_cons, foldl_flag xs _ fun y hy => h y (List.mem_cons_of_mem _ hy), h x (List.mem_cons_self ..)]
    by_cases hx : p x <;> by_cases hxs : ∃ y ∈ xs, p y <;> simp [hx, hxs, BitVec.or_assoc]

/-! ### The rows of a drain -/

section
variable (s : State) (c : MxCmd) {ty : ElemType} (hty : ty = .s32 ∨ ty = .s8x4) (rnd : Rnd) (sat : Bool) (rb m : Nat)

/-- Row i of a drain, before its conversion. -/
def State.rawRow (i : Nat) : VReg := s.bankRow c.core (s.tag c.core c.tag).bank.toNat (rb + i)

include hty

theorem State.drainRows_regs : (s.drainRows c (intDrain ty rnd sat) rb m []).1 = (List.range m).map fun i => (s.rawRow c rb i).map (drained ty) := by
  unfold State.drainRows
  dsimp only
  rw [List.map_map]
  refine List.map_congr_left fun i _ => Vector.ext fun n hn => ?_
  simp only [Function.comp, Vector.getElem_map, Vector.getElem_ofFn]
  exact intDrain_bits hty rnd sat i n _

theorem State.drainRows_flags [Decidable (∃ i n, i < m ∧ n < 128 ∧ Clips ty (look (s.rawRow c rb i) n 0))] :
    (s.drainRows c (intDrain ty rnd sat) rb m []).2 =
      if ∃ i n, i < m ∧ n < 128 ∧ Clips ty (look (s.rawRow c rb i) n 0) then flagSA else 0 := by
  classical
  have hrow : ∀ f i, (Vector.ofFn fun n : Fin 128 => (intDrain ty rnd sat).elem i n.val (s.rawRow c rb i)[n] none).foldl (fun f e => f ||| e.2) f =
      f ||| if ∃ n ∈ List.finRange 128, Clips ty (s.rawRow c rb i)[n] then flagSA else 0 := fun f i => by
    rw [← Vector.foldl_toList, Vector.toList_ofFn, List.ofFn_eq_map, List.foldl_map]
    exact foldl_flag _ f fun n _ => intDrain_flag hty rnd sat i n _
  unfold State.drainRows
  dsimp only
  rw [List.foldl_map]
  refine (List.foldl_ext _ _ 0 fun f i _ => hrow f i).trans ?_
  refine (foldl_flag _ 0 fun i _ => rfl).trans (BitVec.zero_or.trans (if_congr ⟨?_, ?_⟩ rfl rfl))
  · rintro ⟨i, hi, n, -, h⟩
    exact ⟨i, n, List.mem_range.mp hi, n.isLt, by rwa [look_of_lt n.isLt]⟩
  · rintro ⟨i, n, hi, hn, h⟩
    rw [look_of_lt hn] at h
    exact ⟨i, List.mem_range.mpr hi, ⟨n, hn⟩, List.mem_finRange _, h⟩

end

/-! ### The delivery of a drain -/

/-- The requests of a drain, known with the values of its registers. -/
def drainReqs (rows : List VReg) : List Req :=
  rows.zipIdx.flatMap fun x => (List.range 128).map fun n =>
    { reqOf (128 * x.2 + n) 0 0 4 0 0 with ans := some ((look x.1 n 0).setWidth 64) }

theorem drainReqs_find (rows : List VReg) {i n : Nat} (hi : i < rows.length) (hn : n < 128) :
    ∃ r, (drainReqs rows).find? (fun r => r.lane == 128 * i + n) = some r ∧ r.ans = some ((look rows[i] n 0).setWidth 64) := by
  have hmem : ({ reqOf (128 * i + n) 0 0 4 0 0 with ans := some ((look rows[i] n 0).setWidth 64) } : Req) ∈ drainReqs rows :=
    List.mem_flatMap.mpr ⟨(rows[i], i), List.mem_zipIdx_iff_getElem?.mpr (List.getElem?_eq_getElem hi),
      List.mem_map.mpr ⟨n, List.mem_range.mpr hn, rfl⟩⟩
  cases hfind : (drainReqs rows).find? fun r => r.lane == 128 * i + n with
  | none => exact absurd (beq_self_eq_true _) (List.find?_eq_none.mp hfind _ hmem)
  | some r =>
    obtain ⟨⟨v, k⟩, hx, hr⟩ := List.mem_flatMap.mp (List.mem_of_find?_eq_some hfind)
    obtain ⟨j, hj, rfl⟩ := List.mem_map.mp hr
    have hlane : 128 * k + j = 128 * i + n := by simpa [reqOf] using List.find?_some hfind
    have hj := List.mem_range.mp hj
    obtain rfl : j = n := by omega
    obtain rfl : k = i := by omega
    have hv : rows[k] = v := Option.some.inj ((List.getElem?_eq_getElem hi).symm.trans (List.mem_zipIdx_iff_getElem?.mp hx))
    exact ⟨_, rfl, by rw [hv]⟩

/-- The access of a drain, answered. -/
def Access.drainedWith (a : Access) (rows : List VReg) : Access := { a with reqs := drainReqs rows }

section
variable {a : Access} {id m : Nat} {chk : Bool} (hk : a.kind = .drain id m chk) (rows : List VReg)
include hk

theorem Access.look_image_drain {i n : Nat} (hi : i < rows.length) (hn : n < 128) :
    look ((a.drainedWith rows).image (128 * i)) n 0 = look rows[i] n 0 := by
  obtain ⟨r, hr, hans⟩ := drainReqs_find rows hi hn
  have hkind : (a.drainedWith rows).kind = .drain id m chk := hk
  simp only [Access.image, look_of_lt hn, Vector.getElem_ofFn]
  change (match (drainReqs rows).find? (fun r => r.lane == 128 * i + n) with
    | some r => (a.drainedWith rows).kind.laneValue r
    | none => 0) = _
  rw [hr, hkind]
  simp [AccKind.laneValue, AccKind.extend, hans, look_of_lt hn]

theorem Access.flagsOf_drain : (a.drainedWith rows).flagsOf = 0 := by
  have hkind : (a.drainedWith rows).kind = .drain id m chk := hk
  unfold Access.flagsOf
  rw [hkind]
  refine List.foldl_fixed' (fun r => ?_) _
  split
  · exact BitVec.or_zero
  · rfl

/-- The drain writes its registers in turn. -/
theorem Access.deliver_drain (g : Group) : (a.drainedWith rows).deliver g =
    (List.range m).foldl (fun g i => g.vwrite (a.dest + BitVec.ofNat 8 i) a.sel ((a.drainedWith rows).image (128 * i))) g := by
  have hkind : (a.drainedWith rows).kind = .drain id m chk := hk
  unfold Access.deliver
  rw [hkind]
  rfl

end

theorem Group.touched_foldl_writes (d : Nat → BitVec 8) (sel : Mask) (v : Nat → VReg) (l : List Nat) (g : Group) :
    Group.Touched (l.map d) g (l.foldl (fun g i => g.vwrite (d i) sel (v i)) g) := by
  induction l generalizing g with
  | nil => exact .refl g
  | cons i l ih => exact (g.touched_vwrite (d i) _ _).cons (ih _)

/-- Writes of all lanes of different registers leave each register its own value. -/
theorem Group.look_foldl_writes (d : Nat → BitVec 8) (v : Nat → VReg) {m : Nat} (hd : ∀ i j, i < m → j < m → d i = d j → i = j) (g : Group)
    {i n : Nat} (hi : i < m) (hn : n < 128) :
    look (((List.range m).foldl (fun g i => g.vwrite (d i) (BitVec.allOnes 128) (v i)) g).vget (d i)) n 0 = look (v i) n 0 := by
  induction m with
  | zero => exact absurd hi (Nat.not_lt_zero i)
  | succ m ih =>
    rw [List.range_succ, List.foldl_append, List.foldl_cons, List.foldl_nil]
    by_cases him : i = m
    · subst him
      rw [Group.look_vwrite _ _ _ _ hn, if_pos (by rw [BitVec.getLsbD_allOnes]; exact decide_eq_true hn)]
    · have hlt : i < m := by omega
      have hne : d i ≠ d m := fun h => him (hd i m hi (Nat.lt_succ_self m) h)
      rw [((Group.touched_vwrite _ (d m) _ _).others (d i) (by simpa using hne)).1]
      exact ih (fun i j hi hj => hd i j (by omega) (by omega)) hlt

end Sys2Proof.Machine
end

section
/-! SUPPORT. The end of a drain to registers, and the obligation of the commands in their turn. -/

namespace Sys2Proof.Machine

/-! ### The end of the access of a drain -/

theorem Group.flags_endAcc {g : Group} (h : g.s.flags = 0) (seq : Nat) : (g.endAcc seq).flags = g.flags := by
  unfold Group.endAcc Group.settleFlags
  split
  · rfl
  · exact (congrArg (g.flags ||| ·) h).trans BitVec.or_zero

theorem Group.vget_endAcc (g : Group) (seq : Nat) (r : BitVec 8) : (g.endAcc seq).vget r = g.vget r := by
  rw [Group.endAcc_eq]
  rfl

theorem Group.vlife_endAcc (g : Group) (seq : Nat) (r : BitVec 8) : (g.endAcc seq).vlife r = g.vlife r := by
  rw [Group.endAcc_eq]
  rfl

theorem Group.RegsFrom.frame {g g' : Group} (h : g.RegsFrom g') : g'.flags = g.flags ∧ g'.s = g.s ∧ g'.uid = g.uid := by
  unfold Group.RegsFrom at h
  rw [h]
  exact ⟨rfl, rfl, rfl⟩

/-- The registers of a drain are different registers. -/
theorem drainRegs_inj {vd : BitVec 8} {m : Nat} (h : vd.toNat + m ≤ 248) {i j : Nat} (hi : i < m) (hj : j < m)
    (heq : vd + BitVec.ofNat 8 i = vd + BitVec.ofNat 8 j) : i = j := by
  have := congrArg BitVec.toNat heq
  simp only [BitVec.toNat_add, BitVec.toNat_ofNat] at this
  omega

theorem drainRegs_other {vd r : BitVec 8} {m : Nat} (h : vd.toNat + m ≤ 248) (hr : r.toNat < vd.toNat ∨ vd.toNat + m ≤ r.toNat) :
    r ∉ (List.range m).map fun i => vd + BitVec.ofNat 8 i := by
  rintro hmem
  obtain ⟨i, hi, rfl⟩ := List.mem_map.mp hmem
  have := List.mem_range.mp hi
  simp only [BitVec.toNat_add, BitVec.toNat_ofNat] at hr
  omega

/-- What the delivery of a drain leaves of its group. -/
structure Group.Drained (g t : Group) (vd : BitVec 8) (rows : List VReg) : Prop where
  accs : t.accs = []
  flags : t.flags = g.flags
  live : ∀ i, i < rows.length → t.vlife (vd + BitVec.ofNat 8 i) = .live
  regs : ∀ i n (hi : i < rows.length), n < 128 → look (t.vget (vd + BitVec.ofNat 8 i)) n 0 = look rows[i] n 0
  others : ∀ r : BitVec 8, r.toNat < vd.toNat ∨ vd.toNat + rows.length ≤ r.toNat → t.vget r = g.vget r

theorem State.completeAccess_drain {s : State} {a : Access} {id : Nat} {chk : Bool} {rows : List VReg}
    (hk : a.kind = .drain id rows.length chk) (ha : s.cur.accs = [a]) (hsel : a.sel = BitVec.allOnes 128)
    (hfit : a.dest.toNat + rows.length ≤ 248) (hflags : s.cur.s.flags = 0) :
    s.cur.Drained (s.completeAccess (a.drainedWith rows)).cur a.dest rows := by
  have htouched := Group.touched_foldl_writes (fun i => a.dest + BitVec.ofNat 8 i) (BitVec.allOnes 128)
    (fun i => (a.drainedWith rows).image (128 * i)) (List.range rows.length) s.cur
  have hdeliver := Access.deliver_drain hk rows s.cur
  rw [hsel] at hdeliver
  rw [← hdeliver] at htouched
  obtain ⟨hregs, -, -, hothers, hlive⟩ := htouched
  obtain ⟨-, hs, -⟩ := hregs.frame
  have hend : ∃ accs, (s.completeAccess (a.drainedWith rows)).cur = ({ (a.drainedWith rows).deliver s.cur with
      accs := accs, flags := s.cur.flags } : Group).endAcc a.seq ∧ accs.filter (fun b => b.seq != a.seq) = [] := by
    refine ⟨s.cur.accs.map ((a.drainedWith rows).deliverSnap s.cur), ?_, ?_⟩
    · unfold State.completeAccess State.mapCur
      dsimp only
      have hor : s.cur.flags ||| 0 = s.cur.flags := BitVec.or_zero
      rw [Access.flagsOf_drain hk rows, ite_self, hor]
      rfl
    · have hseq : (a.drainedWith rows).seq = a.seq := rfl
      simp [ha, Access.deliverSnap, hseq]
  obtain ⟨accs, hcur, hgone⟩ := hend
  rw [hcur]
  constructor
  · rw [Group.endAcc_eq]
    exact hgone
  · exact Group.flags_endAcc (by exact hs ▸ hflags) a.seq
  · intro i hi
    rw [Group.vlife_endAcc]
    exact hlive _ (List.mem_map.mpr ⟨i, List.mem_range.mpr hi, rfl⟩)
  · intro i n hi hn
    rw [Group.vget_endAcc, ← Access.look_image_drain hk rows hi hn,
      ← Group.look_foldl_writes (fun i => a.dest + BitVec.ofNat 8 i) (fun i => (a.drainedWith rows).image (128 * i))
        (fun i j hi hj => drainRegs_inj hfit hi hj) s.cur hi hn]
    change look (((a.drainedWith rows).deliver s.cur).vget _) n 0 = _
    rw [hdeliver]
  · intro r hr
    rw [Group.vget_endAcc]
    exact (hothers r (drainRegs_other hfit hr)).1

/-! ### DRAIN_COMPLETE -/

/-- The group of a drain, once its flags have joined FLAGS and its command has left. -/
def Group.drainDone (g : Group) (c : MxCmd) (f : Byte) : Group :=
  ({ g with flags := if c.handler then g.flags else g.flags ||| f } : Group).complete true c.id

theorem State.cur_drainDone {s : State} {c : MxCmd} (huid : c.uid = s.cur.uid) (f : Byte) :
    ((s.cmdFlags c f).endCmd c).cur = s.cur.drainDone c f := by
  unfold State.cmdFlags State.endCmd State.mapGroup Group.drainDone
  cases c.handler <;> simp [huid]

theorem Access.uid_drain {a : Access} {id m : Nat} {chk : Bool} (hk : a.kind = .drain id m chk) (rows : List VReg) (g : Group) :
    ((a.drainedWith rows).deliver g).uid = g.uid := by
  rw [Access.deliver_drain hk rows g]
  obtain ⟨-, -, huid⟩ := (Group.touched_foldl_writes _ _ _ _ g).regs.frame
  exact huid

theorem State.finishDrain_completes {s : State} {a : Access} {id m : Nat} {chk : Bool} (hk : a.kind = .drain id m chk)
    (h : s.cur.acc? a.seq = some a) (rows : List VReg) :
    s.finishDrain s.cur.uid a.seq rows = s.completeAccess (a.drainedWith rows) := by
  unfold State.finishDrain
  refine (State.withGroup_congr (g := fun s => s.completeAccess (a.drainedWith rows)) ?_).trans (State.withGroup_self ?_)
  · dsimp only
    rw [h]
    rfl
  · unfold State.completeAccess State.mapCur
    dsimp only
    rw [Group.endAcc_eq]
    exact Access.uid_drain hk rows s.cur

section
variable {s : State} {core tag : Nat} {c : MxCmd} (hhead : s.headCmd core tag = some c) (hbegun : c.begun = true)
  {vd : BitVec 8} {base : Word} {ty : ElemType} {rnd : Rnd} {sat : Bool} {rb m : Nat} {pops : List Word} {acc : Nat}
  (hkind : c.kind = .drain false vd base ty rnd sat false none rb m [] pops acc) (huid : c.uid = s.cur.uid) {a : Access} {id n : Nat} {chk : Bool}
  (hk : a.kind = .drain id n chk) (ha : s.cur.accs = [a]) (hseq : a.seq = acc)
include hhead hbegun hkind huid hk ha hseq

/-- The state in which the access of a drain ends: its flags have joined FLAGS, and its command has left. -/
theorem drainComplete_delivers (hint : mxInt (s.tag core tag).bfmt (s.tag core tag).blen = true) (hcan : s.cur.canDeliver a = true) :
    exec (.drainComplete core tag) s = .next (((s.cmdFlags c (s.drainRows c (intDrain ty rnd sat) rb m []).2).endCmd c).completeAccess
      (a.drainedWith (s.drainRows c (intDrain ty rnd sat) rb m []).1)) := by
  have hgroup : s.group? c.uid = some s.cur := by rw [huid]; exact List.find?_cons_of_pos (beq_self_eq_true _)
  have hacc : s.cur.acc? acc = some a := hseq ▸ Group.acc?_single ha
  have hwakes : s.deliveryWakes c.uid acc = none := by simp [State.deliveryWakes, hgroup, hacc, hcan]
  have hfinish (f : Byte) (rows : List VReg) : ((s.cmdFlags c f).endCmd c).finishDrain c.uid acc rows =
      ((s.cmdFlags c f).endCmd c).completeAccess (a.drainedWith rows) := by
    have hcur := State.cur_drainDone huid f
    have hid : ((s.cmdFlags c f).endCmd c).cur.uid = c.uid := by rw [hcur, huid]; rfl
    have hmine : ((s.cmdFlags c f).endCmd c).cur.acc? a.seq = some a := by rw [hcur]; exact hseq ▸ hacc
    rw [← hid, ← hseq]
    exact State.finishDrain_completes hk hmine rows
  refine congrArg Host.Outcome.next ?_
  simp only [hhead, hbegun, hkind, hgroup, hint, hwakes, Option.map_none, Option.getD_none, if_false, Bool.false_eq_true]
  exact hfinish _ _

end

theorem State.cmdFlags_beside (s : State) (c : MxCmd) (f : Byte) : (s.cmdFlags c f).cmds = s.cmds ∧ (s.cmdFlags c f).mem = s.mem := by
  unfold State.cmdFlags
  split <;> exact ⟨rfl, rfl⟩

/-- A drain to S32 or S8X4 registers of an integer bank gives its registers. -/
theorem drainComplete_registers {s : State} {core tag : Nat} {c : MxCmd} (hcore : c.core = core) (htag : c.tag = tag)
    (hhead : s.headCmd core tag = some c) {vd : BitVec 8} {base : Word} {ty : ElemType} {rnd : Rnd} {sat : Bool} {rb m : Nat}
    {pops : List Word} {acc : Nat} (hkind : c.kind = .drain false vd base ty rnd sat false none rb m [] pops acc)
    (hty : ty = .s32 ∨ ty = .s8x4) (hbegun : c.begun = true) (huid : c.uid = s.cur.uid) {a : Access} (ha : s.cur.accs = [a])
    (hseq : a.seq = acc) {chk : Bool} (hk : a.kind = .drain c.id m chk) (hdest : a.dest = vd) (hsel : a.sel = BitVec.allOnes 128)
    (hint : mxInt (s.tag core tag).bfmt (s.tag core tag).blen = true) (hfit : vd.toNat + m ≤ 248)
    (hpow : ∀ i, i < m → s.cur.powered (vd + BitVec.ofNat 8 i) = true) (hflags : s.cur.s.flags = 0) :
    ∃ t, exec (.drainComplete core tag) s = .next t ∧ t.cmds = s.cmds.filter (fun x => x.id ≠ c.id) ∧ t.cur.accs = [] ∧
      (∀ i, i < m → t.cur.vlife (vd + BitVec.ofNat 8 i) = .live ∧
        ∀ n, n < 128 → look (t.cur.vget (vd + BitVec.ofNat 8 i)) n 0 = drained ty (look (s.rawRow c rb i) n 0)) ∧
      (c.handler = false → (∃ i n, i < m ∧ n < 128 ∧ Clips ty (look (s.rawRow c rb i) n 0)) → t.cur.flags = s.cur.flags ||| flagSA) ∧
      (c.handler = true ∨ ¬ (∃ i n, i < m ∧ n < 128 ∧ Clips ty (look (s.rawRow c rb i) n 0)) → t.cur.flags = s.cur.flags) ∧
      (∀ r : BitVec 8, r.toNat < vd.toNat ∨ vd.toNat + m ≤ r.toNat → t.cur.vget r = s.cur.vget r) ∧ SameMem s t := by
  classical
  subst hcore htag hdest
  have hcan : s.cur.canDeliver a = true := by
    unfold Group.canDeliver Access.destRegs
    rw [hk]
    exact List.all_eq_true.mpr fun r hr => by
      obtain ⟨i, hi, rfl⟩ := List.mem_map.mp hr
      exact hpow i (List.mem_range.mp hi)
  have hrun := drainComplete_delivers hhead hbegun hkind huid hk ha hseq hint hcan
  have hf := s.drainRows_flags c hty rnd sat rb m
  have hr := s.drainRows_regs c hty rnd sat rb m
  generalize (s.drainRows c (intDrain ty rnd sat) rb m []).1 = rows at hrun hr
  generalize (s.drainRows c (intDrain ty rnd sat) rb m []).2 = f at hrun hf
  have hlen : rows.length = m := by simp [hr]
  have hrow (i : Nat) (hi : i < rows.length) : rows[i] = (s.rawRow c rb i).map (drained ty) := by simp [hr]
  subst hlen
  have hcur := State.cur_drainDone (s := s) huid f
  obtain ⟨hcmds, hmem⟩ := s.cmdFlags_beside c f
  obtain ⟨haccs, hfl, hlive, hregs, hothers⟩ := State.completeAccess_drain (s := (s.cmdFlags c f).endCmd c) (rows := rows) hk
    (by rw [hcur]; exact ha) hsel hfit (by rw [hcur]; exact hflags)
  rw [hcur] at hfl hothers
  refine ⟨_, hrun, (State.cmds_endCmd _ c).trans (by rw [hcmds]), haccs, fun i hi => ⟨hlive i hi, fun n hn => ?_⟩, fun hh hc => ?_,
    fun hh => ?_, hothers, fun pa => congrArg (Cells.get · pa) hmem⟩
  · rw [hregs i n hi hn, hrow i hi]
    exact look_map _ _ _ _ _ hn
  · rw [hfl, hf, if_pos hc]
    simp [Group.drainDone, hh, Group.complete, Group.fallCounters]
  · rw [hfl]
    rcases hh with hh | hh
    · simp [Group.drainDone, hh, Group.complete, Group.fallCounters]
    · rw [hf, if_neg hh]
      simp [Group.drainDone, Group.complete, Group.fallCounters]

/-! ### The obligation -/

/-- Settles O42, command by command of the queue of a tag. -/
theorem tagCommandsActInTurn : Obligations.TagCommandsActInTurn := by
  unfold Obligations.TagCommandsActInTurn
  refine ⟨fun s core tag c hcore htag hccore hctag hhead hids => ?_, fun s core tag hcore htag hst hwaves hcmds => ?_⟩
  · subst hccore hctag
    refine ⟨fun fmt blen b128 tile scales hkind => ⟨fun hbegun hlock => ?_, fun bad hbegun hwf hsize => ?_⟩,
      fun rb m hkind hbegun hlock => ?_, fun toSp vd base ty rnd sat clr drop rb m resid pops acc hkind =>
        ⟨fun bad hbegun hlock hrows => ?_, fun a chk hsp hclr hdrop hresid hty hbegun huid ha hseq _ hk hdest hsel hint hfit hpow hflags => ?_⟩⟩
    · exact ⟨_, wloadBegin_begins hhead hbegun hlock hkind,
        State.cmd?_mapCmd (f := fun c => { c with begun := true }) (fun _ => rfl) (State.cmd?_of_headCmd hhead hids), rfl⟩
    · obtain ⟨sc, marks, es, es', hfin⟩ := s.finishWload_tile c fmt blen b128 tile scales bad
      refine ⟨_, wloadComplete_finishes hhead hbegun hkind bad, ?_⟩
      rw [hfin, State.tag_endCmd, State.tag_mapTag_same hcore htag]
      exact ⟨State.cmds_endCmd _ c, rfl, rfl, rfl, fun j hj => State.tileSlots_in hwf c _ tile hj,
        fun x hx => s.tileSlots_out c tile hsize hx, fun _ => rfl⟩
    · refine ⟨_, mzeroExecute_clears hhead hbegun hlock hkind, State.cmds_endCmd _ c, fun x => Cells.get_clear .., fun j hj => ?_⟩
      rw [State.tag_endCmd, State.tag_mapTag_same hcore htag]
      exact getLsbD_foldl_off rb m j hj _
    · refine ⟨_, drainBegin_goesOn hhead hbegun hlock hkind hrows, ?_, rfl, fun v hv => ?_, fun g hg => ?_⟩
      · exact State.cmd?_mapCmd (f := fun c => { c with begun := true }) (fun _ => rfl) (State.cmd?_of_headCmd hhead hids)
      · exact State.group?_mapGroup_ne (s := s.mapCmd c.id fun c => { c with begun := true }) (fun _ => rfl) hv
      · rw [State.group?_mapGroup _ _ (by exact fun _ => rfl),
          show (s.mapCmd c.id fun c => { c with begun := true }).group? c.uid = some g from hg]
        simp [mapIf]
    · subst hsp hclr hdrop hresid
      intro elem clipped
      have helem (i n : Nat) (hn : n < 128) : look (s.rawRow c rb i) n 0 = elem i n := by
        rw [look_of_lt hn]
        exact State.bankRow_element s c.core _ (rb + i) hn
      have hclips : (∃ i n, i < m ∧ n < 128 ∧ Clips ty (look (s.rawRow c rb i) n 0)) ↔ clipped := by
        refine ⟨fun ⟨i, n, hi, hn, h8, hx⟩ => ⟨h8, i, n, hi, hn, helem i n hn ▸ hx⟩, fun ⟨h8, i, n, hi, hn, hx⟩ =>
          ⟨i, n, hi, hn, h8, (helem i n hn).symm ▸ hx⟩⟩
      obtain ⟨t, hrun, hcmds, haccs, hregs, hset, hkept, hothers, hmem⟩ := drainComplete_registers rfl rfl hhead hkind hty hbegun huid ha
        hseq hk hdest hsel hint hfit hpow hflags
      refine ⟨t, hrun, hcmds, haccs, fun i hi => ⟨(hregs i hi).1, fun n hn => ?_⟩, fun hh hc => hset hh (hclips.mpr hc),
        fun hh => hkept (hh.imp_right fun hn hc => hn (hclips.mp hc)), hothers, hmem⟩
      rw [(hregs i hi).2 n hn, helem i n hn]
      rfl
  · intro t0 bank slot scale
    obtain ⟨hfree, hothers⟩ := State.tag_freeTag (s := { s with
      acc := s.acc.clear (rowAddr core t0.bank.toNat 0) (rowAddr core t0.bank.toNat 0 + 2 ^ 14)
      slots := s.slots.clear slot (slot + 2 ^ 13), scales := s.scales.clear scale (scale + 2 ^ 10)
      slotBad := s.slotBad.filter fun a => !(decide (slot ≤ a) && decide (a < slot + 2 ^ 13)) }) hcore htag
    refine ⟨_, tagScrub_scrubs hst hwaves hcmds, congrArg Tag.st hfree, congrArg Tag.pois hfree, hothers, fun x => ?_,
      fun x => Cells.get_clear .., fun x => Cells.get_clear .., fun _ => rfl⟩
    have hbank : rowAddr core t0.bank.toNat 0 = bank := by simp [rowAddr, bank]
    rw [← hbank]
    exact Cells.get_clear ..

end Sys2Proof.Machine
end

section
/-! SUPPORT. Commands that enter the queue of their tag, and WLOAD. -/

namespace Sys2Proof.Machine

/-! ### Fields and room -/

theorem mxTag_eq (o : LOp) : mxTag o = (o.w2.extractLsb' 0 4).toNat := by
  rw [BitVec.extractLsb'_toNat, Nat.shiftRight_zero]
  rfl

theorem mxM_eq (o : LOp) : mxM o = (o.w2.extractLsb' 4 5).toNat + 1 := by
  rw [BitVec.extractLsb'_toNat, Nat.shiftRight_eq_div_pow]
  rfl

theorem mxRb_eq (o : LOp) : mxRb o = (o.w2.extractLsb' 9 5).toNat := by
  rw [BitVec.extractLsb'_toNat, Nat.shiftRight_eq_div_pow]
  rfl

theorem Group.full_of_count {g : Group} {k : Counter} (h : g.count k < 255) : g.full k = false :=
  decide_eq_false (Nat.not_le.mpr h)

theorem State.lockRoom_mono {s : State} {n k : Nat} (h : s.lockRoom n = true) (hk : k ≤ n) : s.lockRoom k = true := by
  have := of_decide_eq_true h
  exact decide_eq_true (by omega)

/-! ### A command that enters its queue -/

/-- The command that the issuing group queues next. -/
def State.nextCmd (s : State) (tag : Nat) (pc : Word) (kind : MxKind) : MxCmd :=
  ⟨s.nextId, s.coreOf s.cur, tag, (s.ctxOf s.cur).id, s.cur.uid, s.cur.team, kind, pc, s.cur.handler.isSome, false, false, 0, 0, 0, 0, 0⟩

section
variable (s : State) (tag : Nat) (pc : Word) (kind : MxKind) (locks : List (Space × Nat × Nat × Bool))

theorem State.cmds_enqueueCmd : (s.enqueueCmd tag pc kind locks).cmds = s.cmds ++ [s.nextCmd tag pc kind] := rfl

theorem State.locks_enqueueCmd : (s.enqueueCmd tag pc kind locks).locks =
    s.locks ++ locks.map (lockOf s.nextId (s.coreOf s.cur) (s.ctxOf s.cur).id) := rfl

theorem State.cur_enqueueCmd : (s.enqueueCmd tag pc kind locks).cur = s.cur.raiseCount .mx s.nextId := rfl

theorem State.mem_enqueueCmd : (s.enqueueCmd tag pc kind locks).mem = s.mem := rfl

theorem State.tag_enqueueCmd (core j : Nat) : (s.enqueueCmd tag pc kind locks).tag core j = s.tag core j := rfl

end

/-! ### WLOAD -/

/-- The ranges of a WLOAD: its tile, and its scales where it has any. -/
def wloadLocks (core tag tile scale size nb : Nat) : List (Space × Nat × Nat × Bool) :=
  (Space.wb core tag, tile, tile + size, false) :: if nb == 0 then [] else [(Space.wb core tag, scale, scale + 256 * nb, false)]

/-- The state after a WLOAD: its tag has its format as the latest, and its command is queued. -/
def State.wloadQueued (s : State) (tag : Nat) (fmt : Byte) (blen : BitVec 2) (b128 : Bool) (tile scale : Nat) : State :=
  ((s.mapTag (s.coreOf s.cur) tag fun x => { x with issued := some (fmt, blen, b128) }).enqueueCmd tag s.cur.s.pc
    (.wload fmt blen b128 tile scale) (wloadLocks (s.coreOf s.cur) tag tile scale (128 * mxCol fmt b128) (mxBlocks fmt b128 blen))).nextPc 8

theorem wload_queues {s : State} {tag : BitVec 4} {fmt : Byte} {blen : BitVec 2} {b128 : Bool} {a b : SReg}
    (hr : SReady s .user [a, b] false) (hh : s.cur.handler = none) (herr : s.tagErr tag.toNat = none) (hdying : s.tagDying tag.toNat = false)
    (hok : wloadOk fmt blen b128 = true) (hta : (s.sget a).toNat % 64 = 0) (hsa : (s.sget b).toNat % 64 = 0)
    (ht : (s.sget a).toNat + 128 * mxCol fmt b128 ≤ 16384)
    (hs : blen ≠ 0 → (s.sget b).toNat + 256 * mxBlocks fmt b128 blen ≤ 16384) (hcount : s.cur.count .mx < 255)
    (hqueued : s.tagQueued tag.toNat < 8) (hroom : s.lockRoom 2 = true) :
    exec (.wload tag fmt blen b128 a b) s = .next (s.wloadQueued tag.toNat fmt blen b128 (s.sget a).toNat (s.sget b).toNat) := by
  have hscale : (blen != 0 && decide (16384 < (s.sget b).toNat + 256 * mxBlocks fmt b128 blen)) = false := by
    by_cases h : blen = 0
    · simp [h]
    · simp [Nat.not_lt.mpr (hs h)]
  have hlock : s.lockRoom (if mxBlocks fmt b128 blen == 0 then 1 else 2) = true :=
    State.lockRoom_mono hroom (by split <;> omega)
  refine congrArg Host.Outcome.next ((State.sIssue_ready hr).trans ?_)
  have hfew : decide (8 ≤ s.tagQueued tag.toNat) = false := decide_eq_false (Nat.not_le.mpr hqueued)
  simp only [hh, herr, hdying, hok, hta, hsa, if_neg (Nat.not_lt.mpr ht), hscale, Group.full_of_count hcount, hfew, hlock, Bool.not_true,
    Bool.or_false, Option.isSome_none, bne_self_eq_false, Bool.false_eq_true, if_false]
  rfl

theorem State.length_wloadLocks (core tag tile scale size nb : Nat) :
    (wloadLocks core tag tile scale size nb).length = if nb = 0 then 1 else 2 := by
  unfold wloadLocks
  by_cases h : nb = 0 <;> simp [h]

end Sys2Proof.Machine
end

section
/-! SUPPORT. L-stream instructions that queue a command: MZERO, MDRAIN and MDRSP. -/

namespace Sys2Proof.Machine

/-! ### The move to the next instruction -/

/-- A command has entered its queue; the group has its count, its queue `dq`, and the lives after the operands `reads`. -/
structure Queued (s u : State) (c : MxCmd) (p : Path) (dq : List DqEntry) (reads : List (BitVec 8 × Hint)) : Prop where
  cmds   : u.cmds = s.cmds ++ [c]
  tokens : u.cur.tokens = s.cur.tokens ++ [⟨.mx, c.id, false⟩]
  path   : u.cur.path s.ps1 = some p
  dq     : u.cur.dq = dq
  regs   : ∀ r, u.cur.vget r = s.cur.vget r ∧ u.cur.vlife r = lifeAfter s reads r
  turn   : u.ps1 = s.ps1
  mem    : u.mem = s.mem

section
variable {s u : State} {c : MxCmd} {p : Path} {dq : List DqEntry} {reads : List (BitVec 8 × Hint)} (h : Queued s u c p dq reads)
include h

/-- The instruction goes on: its path moves, and the rest stays. -/
theorem Queued.next : u.lNext.cmds = s.cmds ++ [c] ∧ u.lNext.cur.tokens = s.cur.tokens ++ [⟨.mx, c.id, false⟩] ∧
    u.lNext.cur.path s.ps1 = some ⟨p.pc + 3, p.mask⟩ ∧ u.lNext.cur.dq = dq ∧
    (∀ r, u.lNext.cur.vget r = s.cur.vget r ∧ u.lNext.cur.vlife r = lifeAfter s reads r) ∧ SameMem s u.lNext := by
  have hnext := State.lNext_eq (s := u) (p := p) (by rw [h.turn]; exact h.path)
  refine ⟨?_, ?_, ?_, ?_, fun r => ⟨(State.vget_lNext u r).trans (h.regs r).1, (State.vlife_lNext u r).trans (h.regs r).2⟩, fun pa => ?_⟩
  · rw [hnext]
    exact h.cmds
  · rw [hnext]
    exact h.tokens
  · rw [hnext, h.turn]
    exact Group.path_setPath_same ..
  · rw [hnext]
    exact h.dq
  · rw [hnext]
    exact congrArg (Cells.get · pa) h.mem

end

/-! ### Operands, pops and turns -/

theorem LReady.late {s : State} {u : LUse} {p : Path} {vs : List Word} {g : Group} (h : LReady s u p vs g) :
    LReady s { u with late := true } p vs g :=
  ⟨h.path, h.legal, h.queues, h.alive, h.values, h.held, h.busy, h.waits, h.room, h.powered⟩

/-- Operands that are at hand: the instruction goes on. -/
theorem State.lOperands_ready {s : State} {u : LUse} (k : State) (halive : ∀ x ∈ u.reads, s.cur.vlife x.1 = .live ∨ s.cur.vlife x.1 = .rest)
    (hbusy : s.cur.lBusy u = false) (hpow : ∀ r ∈ u.reads.map Prod.fst ++ u.writes, s.cur.powered r = true) : s.lOperands u k = k := by
  have hdead : (u.reads.any fun x => s.cur.vlife x.1 == .dead) = false :=
    List.any_eq_false.mpr fun x hx => by rcases halive x hx with e | e <;> simp [e]
  have hpoison : (u.reads.any fun x => s.cur.vlife x.1 == .poison) = false :=
    List.any_eq_false.mpr fun x hx => by rcases halive x hx with e | e <;> simp [e]
  have hoff : ((u.reads.map Prod.fst ++ u.writes).any fun r => !s.cur.powered r) = false :=
    List.any_eq_false.mpr fun r hr => by simp [hpow r hr]
  simp only [State.lOperands, hdead, hpoison, hbusy, hoff, Bool.false_eq_true, if_false]

theorem Group.lBusy_nothing (g : Group) : g.lBusy {} = false := by
  unfold Group.lBusy
  simp only [List.map_nil, List.append_nil, List.contains_nil, Bool.or_eq_false_iff, List.any_eq_false]
  refine ⟨fun e _ => by simp, fun a _ => ?_⟩
  cases a.kind <;> simp

/-- The first values of a list of pops. -/
theorem Group.pops_one {g g' : Group} {n : Nat} {vs : List Word} (h : g.pops (1 + n) = .got vs g') :
    ∃ v g1, g.pops 1 = .got [v] g1 ∧ vs.headD 0 = v := by
  rw [Nat.add_comm, Group.pops] at h
  unfold Group.pops
  cases hd : g.dqHead with
  | none => simp [hd] at h
  | some e =>
    simp only [hd] at h ⊢
    cases hb : e.block with
    | true => simp [hb] at h
    | false =>
      simp only [hb, Bool.false_eq_true, if_false] at h
      refine ⟨e.val, g.dqDrop, rfl, ?_⟩
      split at h
      · cases h
        rfl
      · next hp => rw [h] at hp; exact absurd rfl (hp _ _)

/-! ### MZERO -/

section
variable {s : State} {o : LOp} {p : Path} {vs : List Word} {g : Group} (hh : s.cur.handler = none) (hrows : mxRb o + mxM o ≤ 32)
  (herr : s.tagErr (mxTag o) = none) (hdying : s.tagDying (mxTag o) = false) (hcount : s.cur.count .mx < 255)
  (hqueued : s.tagQueued (mxTag o) < 8)
include hh hrows herr hdying hcount hqueued

theorem mzero_queues (h : LReady s { free := false } p vs g) : ∃ u, exec (.mzero o) s = .next u.lNext ∧
    Queued s u (s.nextCmd (mxTag o) s.lpc (.mzero (mxRb o) (mxM o))) p g.dq [] := by
  have hv := h.values
  cases hv
  have hfew : decide (8 ≤ s.tagQueued (mxTag o)) = false := decide_eq_false (Nat.not_le.mpr hqueued)
  refine ⟨s.enqueueCmd (mxTag o) s.lpc (.mzero (mxRb o) (mxM o)) [], congrArg Host.Outcome.next ?_,
    rfl, rfl, h.path, rfl, fun r => ⟨rfl, rfl⟩, rfl, rfl⟩
  rw [State.lIssue_plain h]
  simp only [hh, herr, hdying, Group.full_of_count hcount, hfew, decide_eq_false (Nat.not_lt.mpr hrows), Option.isSome_none,
    Bool.or_false, Bool.false_eq_true, if_false]

/-! ### MDRAIN and MDRSP -/

/-- The access of a drain without residuals. -/
def State.drainAccess (s : State) (o : LOp) (toSp : Bool) : Access :=
  { s.newAccess true (.drain s.nextId (if toSp then 0 else mxM o) false) o.vd .rlx .grp false [] with sel := BitVec.allOnes 128 }

/-- The kind of a drain without residuals. -/
def drainKind (s : State) (o : LOp) (toSp : Bool) (base : Word) (vs : List Word) : MxKind :=
  let drops := vs.drop (if toSp && o.c == CSrc.dq then 1 else 0)
  .drain toSp o.vd base o.ty (rounding o) (o.mods.getLsbD 0) (o.mods.getLsbD 1)
    (if o.mods.getLsbD 3 then some (drops.getD 0 0, drops.getD 1 0, drops.getD 2 0) else none) (mxRb o) (mxM o) [] vs s.cur.seq

omit hh hrows herr hdying hcount hqueued in
/-- The registration of a drain without residuals. -/
theorem State.registerDrain_queued (hres : o.mods.getLsbD 2 = false) (hpath : s.cur.path s.ps1 = some p) {n : Nat}
    (hpops : s.cur.pops n = .got vs g) (toSp : Bool) (base : Word) (locks : List (Space × Nat × Nat × Bool)) :
    ∃ u, s.registerDrain { s with cur := g } o toSp base vs locks = u.lNext ∧
      Queued s u (s.nextCmd (mxTag o) s.lpc (drainKind s o toSp base vs)) p g.dq [] := by
  rw [Group.pops_got hpops]
  refine ⟨(({ s with cur := { s.cur with dq := g.dq } } : State).enqueueCmd (mxTag o) s.lpc (drainKind s o toSp base vs) locks).mapCur
    fun g => (g.applyHints []).push (s.drainAccess o toSp) [], ?_, ?_⟩
  · unfold State.registerDrain drainKind State.drainAccess
    simp only [hres, Bool.false_eq_true, if_false]
  · refine ⟨rfl, List.append_nil _, ?_, rfl, fun r => ⟨rfl, rfl⟩, rfl, rfl⟩
    exact hpath

/-- What a drain asks of its issue: its pops are late. -/
def drainUse (o : LOp) (toSp : Bool) : LUse :=
  let u : LUse := { free := false, late := true, pops := (if toSp && o.c == CSrc.dq then 1 else 0) + if o.mods.getLsbD 3 then 3 else 0 }
  match o.c with
  | .kreg n => if toSp then { u with kreads := [n] } else u
  | _ => u

/-- A drain without residuals that finds its operands, its range and room registers. -/
theorem State.drain_registers {toSp : Bool} (h : LReady s (drainUse o toSp) p vs g) (hres : o.mods.getLsbD 2 = false)
    (hrange : (!toSp && s.cur.rangeBad o.vd (mxM o)) = false)
    (hops : ∀ k, s.lOperands { writes := if toSp then [] else regRange o.vd (mxM o) } k = k) {vc : List Word} {g1 : Group}
    (hvc : s.cur.pops (if toSp && o.c == CSrc.dq then 1 else 0) = .got vc g1) {base : Word}
    (hbase : (if toSp then s.cur.c64 o vc else 0) = base) {locks : List (Space × Nat × Nat × Bool)}
    (hlocks : s.drainRange toSp base (mxM o * 128 * drainBytes o.ty) = .inr locks)
    (hroom : (toSp && (!s.lockRoom 1 || (s.targetTeam s.cur base).any fun t =>
      s.peerPending true s.lmask t.id (offsetIn base) (mxM o * 128 * drainBytes o.ty))) = false)
    (hvs : s.cur.pops ((if toSp && o.c == CSrc.dq then 1 else 0) + if o.mods.getLsbD 3 then 3 else 0) = .got vs g) :
    s.drain o toSp = s.registerDrain { s with cur := g } o toSp base vs locks := by
  have hfew : decide (8 ≤ s.tagQueued (mxTag o)) = false := decide_eq_false (Nat.not_le.mpr hqueued)
  unfold State.drain
  simp only [hh, hrange, hres, decide_eq_false (Nat.not_lt.mpr hrows), Option.isSome_none, Bool.false_and, Bool.or_false, Bool.false_eq_true,
    if_false]
  refine (State.lIssue_ready' h).trans ?_
  simp only [herr, hdying, Bool.false_eq_true, if_false]
  refine (hops _).trans ((State.latePops_got hvc).trans ?_)
  simp only [hbase, hlocks, Group.full_of_count hcount, hfew, hroom, Bool.or_false, Bool.false_eq_true, if_false]
  exact State.latePops_got hvs

theorem mdrain_queues (h : LReady s { free := false, pops := if o.mods.getLsbD 3 then 3 else 0 } p vs g)
    (hrange : s.cur.rangeBad o.vd (mxM o) = false) (hres : o.mods.getLsbD 2 = false)
    (hbusy : s.cur.lBusy { writes := regRange o.vd (mxM o) } = false) (hpow : ∀ r ∈ regRange o.vd (mxM o), s.cur.powered r = true) :
    ∃ u, exec (.mdrain o) s = .next u.lNext ∧ Queued s u (s.nextCmd (mxTag o) s.lpc (drainKind s o false 0 vs)) p g.dq [] := by
  obtain ⟨u, hu, hq⟩ := State.registerDrain_queued hres h.path h.values false 0 []
  have huse : drainUse o false = { free := false, late := true, pops := if o.mods.getLsbD 3 then 3 else 0 } := by
    unfold drainUse
    cases o.c <;> simp
  refine ⟨u, congrArg Host.Outcome.next ((State.drain_registers (toSp := false) hh hrows herr hdying hcount hqueued (huse ▸ h.late) hres hrange
    (fun k => State.lOperands_ready k (by simp) hbusy hpow) rfl rfl rfl rfl ?_).trans hu), hq⟩
  rw [Bool.false_and, if_neg Bool.false_ne_true, Nat.zero_add]
  exact h.values

theorem mdrsp_queues (h : LReady s (({ free := false, pops := if o.mods.getLsbD 3 then 3 else 0 } : LUse).withC o.c) p vs g)
    (hvec : ∀ r h, o.c ≠ .vec r h) (hres : o.mods.getLsbD 2 = false) {t : Team}
    (ht : s.localRange (s.cur.c64 o vs) 64 (mxM o * 128 * drainBytes o.ty) = .inr t) (hroom : s.lockRoom 1 = true)
    (hpeer : ∀ t', s.targetTeam s.cur (s.cur.c64 o vs) = some t' →
      s.peerPending true p.mask t'.id (offsetIn (s.cur.c64 o vs)) (mxM o * 128 * drainBytes o.ty) = false) :
    ∃ u, exec (.mdrsp o) s = .next u.lNext ∧
      Queued s u (s.nextCmd (mxTag o) s.lpc (drainKind s o true (s.cur.c64 o vs) vs)) p g.dq [] := by
  have huse : drainUse o true = { ({ free := false, pops := if o.mods.getLsbD 3 then 3 else 0 } : LUse).withC o.c with late := true } := by
    unfold drainUse LUse.withC
    cases hc : o.c with
    | vec r h => exact absurd hc (hvec r h)
    | _ => simp [Nat.add_comm]
  have hvs : s.cur.pops ((if true && o.c == CSrc.dq then 1 else 0) + if o.mods.getLsbD 3 then 3 else 0) = .got vs g := by
    have hv := h.values
    unfold LUse.withC at hv
    cases hc : o.c <;> simpa [hc, Nat.add_comm] using hv
  obtain ⟨vc, g1, hvc, hbase⟩ : ∃ vc g1, s.cur.pops (if true && o.c == CSrc.dq then 1 else 0) = .got vc g1 ∧ s.cur.c64 o vc = s.cur.c64 o vs := by
    by_cases hc : o.c = .dq
    · obtain ⟨v, g1, hone, hhead⟩ := Group.pops_one (by simpa [hc] using hvs)
      exact ⟨[v], g1, by simpa [hc] using hone, by simp only [Group.c64, hc, hhead, List.headD_cons]⟩
    · refine ⟨[], s.cur, by simp [hc, Group.pops], ?_⟩
      unfold Group.c64
      cases hk : o.c with
      | dq => exact absurd hk hc
      | _ => rfl
  obtain ⟨u, hu, hq⟩ := State.registerDrain_queued hres h.path hvs true (s.cur.c64 o vs)
    [(Space.window t.core t.base, offsetIn (s.cur.c64 o vs), offsetIn (s.cur.c64 o vs) + mxM o * 128 * drainBytes o.ty, true)]
  have hturn : (s.targetTeam s.cur (s.cur.c64 o vs)).any (fun t' =>
      s.peerPending true s.lmask t'.id (offsetIn (s.cur.c64 o vs)) (mxM o * 128 * drainBytes o.ty)) = false := by
    rw [State.lmask_eq h.path]
    cases htt : s.targetTeam s.cur (s.cur.c64 o vs) with
    | none => rfl
    | some t' => exact hpeer t' htt
  refine ⟨u, congrArg Host.Outcome.next ((State.drain_registers (toSp := true) hh hrows herr hdying hcount hqueued (huse ▸ h.late) hres rfl
    (fun k => State.lOperands_ready k (by simp) s.cur.lBusy_nothing (by simp)) hvc hbase ?_ ?_ hvs).trans hu), hq⟩
  · simp only [State.drainRange, if_true, ht]
  · simp [hroom, hturn]

end

end Sys2Proof.Machine
end

section
/-! SUPPORT. The rows and the queued command of an unscaled MMA, and the obligation of the matrix instructions. -/

namespace Sys2Proof.Machine

/-! ### Bytes of the rows of register images -/

theorem getD_piece {α : Type} (l : List α) (a n : Nat) (d : α) {j : Nat} (h : j < n) : ((l.drop a).take n).getD j d = l.getD (a + j) d := by
  simp [List.getD_eq_getElem?_getD, List.getElem?_drop, h]

theorem getD_bytesOf_word (x : Word32) {b : Nat} (hb : b < 4) : (bytesOf 4 x.toNat).getD b 0 = x.extractLsb' (8 * b) 8 := by
  have hlen : b < (bytesOf 4 x.toNat).length := by rwa [length_bytesOf_word]
  rw [List.getD_eq_getElem _ _ hlen]
  refine (getElem_leBytes x.toNat hlen).trans (BitVec.eq_of_toNat_eq ?_)
  rw [BitVec.toNat_ofNat, BitVec.extractLsb'_toNat, Nat.shiftRight_eq_div_pow]

theorem getD_imageBytes (v : VReg) {k : Nat} (hk : k < 512) : (imageBytes v).getD k 0 = (look v (k / 4) 0).extractLsb' (8 * (k % 4)) 8 := by
  have hn : k / 4 < 128 := by omega
  have hpiece := getD_piece (imageBytes v) (4 * (k / 4)) 4 0 (Nat.mod_lt k (by decide))
  rw [imageBytes_element v hn, Nat.div_add_mod] at hpiece
  rw [← hpiece, look_of_lt hn]
  exact getD_bytesOf_word _ (Nat.mod_lt k (by decide))

/-- The bytes of the images of registers in a row. -/
theorem getD_images (s : State) (r : BitVec 8) (n : Nat) {k : Nat} (hk : k < 512 * n) :
    ((regRange r n).flatMap fun r => imageBytes (s.cur.vget r)).getD k 0 =
      (look (s.cur.vget (r + BitVec.ofNat 8 (k / 512))) (k % 512 / 4) 0).extractLsb' (8 * (k % 4)) 8 := by
  have hlen : k / 512 < (regRange r n).length := by
    simp only [regRange, List.length_map, List.length_range]
    omega
  have hpiece := getD_piece ((regRange r n).flatMap fun r => imageBytes (s.cur.vget r)) (512 * (k / 512)) 512 0 (Nat.mod_lt k (by decide))
  rw [flatMap_piece (fun r => length_imageBytes _) _ _ hlen, Nat.div_add_mod, getD_imageBytes _ (Nat.mod_lt k (by decide))] at hpiece
  rw [← hpiece]
  have hmod : k % 512 % 4 = k % 4 := Nat.mod_mod_of_dvd k (by decide)
  simp [regRange, hmod]

theorem length_cutRows (bs : List Byte) (len m : Nat) : (cutRows bs len m).length = m := by simp [cutRows]

theorem getD_cutRows (bs : List Byte) {len m i j : Nat} (hi : i < m) (hj : j < len) :
    ((cutRows bs len m).getD i []).getD j 0 = bs.getD (len * i + j) 0 := by
  have hrow : (cutRows bs len m).getD i [] = (bs.drop (len * i)).take len := by simp [cutRows, List.getD_eq_getElem?_getD, hi]
  rw [hrow, getD_piece _ _ _ _ hj]

/-! ### MMA -/

/-- A source c that is no register adds no operand. -/
theorem LUse.reads_withC (u : LUse) {c : CSrc} (hvec : ∀ r h, c ≠ .vec r h) : (u.withC c).reads = u.reads := by
  cases c with
  | vec r h => exact absurd rfl (hvec r h)
  | _ => rfl

/-- The rows of an MMA, from its registers. -/
def mmaRows (s : State) (o : LOp) (len : Nat) : List (List Byte) :=
  cutRows ((regRange o.a.r ((mxM o * len + 511) / 512)).flatMap fun r => imageBytes (s.cur.vget r)) len (mxM o)

theorem getD_mmaRows (s : State) (o : LOp) (b128 : Bool) {i j : Nat} (hi : i < mxM o) (hj : j < mxRow b128) :
    ((mmaRows s o (mxRow b128)).getD i []).getD j 0 =
      (look (s.cur.vget (o.a.r + BitVec.ofNat 8 ((mxRow b128 * i + j) / 512))) ((mxRow b128 * i + j) % 512 / 4) 0).extractLsb' (8 * (j % 4)) 8 := by
  have hlast : mxRow b128 * i + j < mxM o * mxRow b128 := calc
    mxRow b128 * i + j < mxRow b128 * (i + 1) := by rw [Nat.mul_succ]; omega
    _ ≤ mxRow b128 * mxM o := Nat.mul_le_mul_left _ hi
    _ = mxM o * mxRow b128 := Nat.mul_comm ..
  have hbyte : (mxRow b128 * i + j) % 4 = j % 4 := by cases b128 <;> simp only [mxRow, if_true, Bool.false_eq_true, if_false] <;> omega
  unfold mmaRows
  rw [getD_cutRows _ hi hj, getD_images s _ _ (by omega), hbyte]

/-- The group of an MMA once its operands are read: the hints have acted, and the latch has the rows with .reuse. -/
def State.mmaGroup (s : State) (o : LOp) (g : Group) (len : Nat) : Group :=
  let x := (g.grow s.lmask).applyHints ((regRange o.a.r ((mxM o * len + 511) / 512)).map fun r => (r, o.a.hint))
  { x with latch := if o.mods.getLsbD 0 then some ⟨mmaRows s o len, len⟩ else x.latch }

/-- The kind of an unscaled MMA. -/
def mmaKind (s : State) (o : LOp) (f : FormatBlock) (b : Byte × BitVec 2 × Bool) : MxKind :=
  .mma (mxRb o) (mxM o) (mmaRows s o (mxRow b.2.2)) f.afmt b.1 b.2.1 b.2.2 (f.flags == 1) f.base f.stride (s.cyclesOf (s.coreOf s.cur))

/-- The state after the registration of an MMA. -/
def State.mmaQueued (s : State) (o : LOp) (g : Group) (f : FormatBlock) (b : Byte × BitVec 2 × Bool) : State :=
  ({ s with cur := s.mmaGroup o g (mxRow b.2.2) } : State).enqueueCmd (mxTag o) s.lpc (mmaKind s o f b) []

section
variable {s w : State} {o : LOp} {p : Path} {vs : List Word} {g : Group} {bs : List Byte} {b : Byte × BitVec 2 × Bool}

/-- Hints of an instruction whose pops leave `g`, once its lanes stand behind the accesses before it. -/
theorem hinted_grow {n : Nat} (hpops : s.cur.pops n = .got vs g) (m : Mask) (reads : List (BitVec 8 × Hint)) :
    (∃ accs fences life hvLife, (g.grow m).applyHints reads = { s.cur with
      accs := accs, fences := fences, dq := g.dq, l := { s.cur.l with life := life, hvLife := hvLife } }) ∧
      ∀ r, ((g.grow m).applyHints reads).vlife r = lifeAfter s reads r := by
  obtain ⟨dq, rfl⟩ : ∃ dq, g = { s.cur with dq := dq } := ⟨_, Group.pops_got hpops⟩
  have hlives : _ = _ := Group.livesFrom_applyHints (({ s.cur with dq := dq } : Group).grow m) reads
  refine ⟨⟨_, _, _, _, hlives⟩, fun r => ?_⟩
  rw [Group.applyHints_eq, Group.vlife_hintPass, Group.vlife_hintPass, Group.vlife_hintPass]
  rfl

/-- The group of an MMA differs from the issuing one in its accesses, fences, lives, latch and decision queue. -/
theorem State.queued_mma (hpath : s.cur.path s.ps1 = some p) {n : Nat} (hpops : s.cur.pops n = .got vs g) (f : FormatBlock) :
    Queued s (s.mmaQueued o g f b) (s.nextCmd (mxTag o) s.lpc (mmaKind s o f b)) p g.dq
      ((regRange o.a.r ((mxM o * mxRow b.2.2 + 511) / 512)).map fun r => (r, o.a.hint)) := by
  unfold State.mmaQueued State.mmaGroup
  generalize (regRange o.a.r ((mxM o * mxRow b.2.2 + 511) / 512)).map (fun r => (r, o.a.hint)) = reads
  obtain ⟨⟨accs, fences, life, hvLife, hx⟩, hlife⟩ := hinted_grow hpops s.lmask reads
  generalize (g.grow s.lmask).applyHints reads = x at hx hlife
  subst hx
  exact ⟨rfl, rfl, hpath, rfl, fun r => ⟨rfl, hlife r⟩, rfl, rfl⟩

/-- The body of an unscaled MMA from registers. -/
theorem State.mmaBody_unscaled (f : FormatBlock) (hreg : o.a.r ≠ 255) (hrange : s.cur.rangeBad o.a.r ((mxM o * mxRow b.2.2 + 511) / 512) = false)
    (hscale : b.2.1 = 0) (hroom : s.mmaRoom (mxTag o) = true)
    (hops : ∀ k, s.lOperands { reads := (regRange o.a.r ((mxM o * mxRow b.2.2 + 511) / 512)).map fun r => (r, o.a.hint) } k = k) :
    s.mmaBody { s with cur := g } o f b = (s.mmaQueued o g f b).lNext := by
  have hlatched : (o.a.r == 255) = false := beq_eq_false_iff_ne.mpr hreg
  have hplain : (b.2.1 != 0) = false := by simp [hscale]
  unfold State.mmaBody
  simp only [hlatched, hrange, hplain, Bool.not_false, Bool.true_and, Bool.false_and, Bool.false_eq_true, if_false]
  refine (hops _).trans ?_
  simp only [hroom, Bool.not_true, Option.any_none, Bool.or_false, Bool.false_eq_true, if_false]
  rfl

/-- An MMA of registers whose format block fits the latest WLOAD of its tag. -/
theorem mma_queues (h : LReady s (({ free := false } : LUse).withC o.c) p vs g) (hh : s.cur.handler = none)
    (hrows : mxRb o + mxM o ≤ 32) (herr : s.tagErr (mxTag o) = none)
    (hdying : s.tagDying (mxTag o) = false) (hcount : s.cur.count .mx < 255) (hread : s.readLocal16 (s.cur.c64 o vs) = .got bs w)
    (hbad : (formatBlock bs).bad = false) (hbase : (formatBlock bs).base.toNat % 2 = 0) (hstride : (formatBlock bs).stride % 2 = 0)
    (hissued : (s.tag (s.coreOf s.cur) (mxTag o)).issued = some b) (hfits : (formatBlock bs).fits b = true)
    (hroom : s.mmaRoom (mxTag o) = true) (hreg : o.a.r ≠ 255)
    (hrange : s.cur.rangeBad o.a.r ((mxM o * mxRow b.2.2 + 511) / 512) = false)
    (hops : ∀ r ∈ regRange o.a.r ((mxM o * mxRow b.2.2 + 511) / 512), (s.cur.vlife r = .live ∨ s.cur.vlife r = .rest) ∧ s.cur.powered r = true)
    (hbusy : s.cur.lBusy { reads := (regRange o.a.r ((mxM o * mxRow b.2.2 + 511) / 512)).map fun r => (r, o.a.hint) } = false)
    (hscale : b.2.1 = 0) : exec (.mma o) s = .next (s.mmaQueued o g (formatBlock bs) b).lNext := by
  have hready (k : State) : s.lOperands { reads := (regRange o.a.r ((mxM o * mxRow b.2.2 + 511) / 512)).map fun r => (r, o.a.hint) } k = k := by
    refine State.lOperands_ready k (fun x hx => ?_) hbusy fun r hr => ?_
    · obtain ⟨r, hr, rfl⟩ := List.mem_map.mp hx
      exact (hops r hr).1
    · exact (hops r (by simpa using hr)).2
  have hbody := State.mmaBody_unscaled (g := g) (formatBlock bs) hreg hrange hscale hroom hready
  refine congrArg Host.Outcome.next ?_
  simp only [hh, decide_eq_false (Nat.not_lt.mpr hrows), beq_eq_false_iff_ne.mpr hreg, Option.isSome_none, Bool.or_false, Bool.false_and,
    Bool.false_eq_true, if_false]
  rw [State.lIssue_ready' h.late]
  simp only [herr, hdying, Group.full_of_count hcount, Bool.false_eq_true, if_false]
  refine (State.latePops_got h.values).trans (Eq.trans ?_ hbody)
  unfold State.mmaFormat
  simp only [hread, hbad, hbase, hstride, hissued, hfits, bne_self_eq_false, Bool.false_eq_true, if_false, if_true]

end

theorem State.latch_lNext (s : State) : s.lNext.cur.latch = s.cur.latch := by
  unfold State.lNext State.mapCur
  dsimp only
  split <;> rfl

theorem State.latch_mma {s : State} {n : Nat} {vs : List Word} {g : Group} (hpops : s.cur.pops n = .got vs g) (o : LOp) (f : FormatBlock)
    (b : Byte × BitVec 2 × Bool) : (s.mmaQueued o g f b).lNext.cur.latch =
      if o.mods.getLsbD 0 then some ⟨mmaRows s o (mxRow b.2.2), mxRow b.2.2⟩ else s.cur.latch := by
  rw [State.latch_lNext]
  obtain ⟨⟨accs, fences, life, hvLife, hx⟩, -⟩ := hinted_grow hpops s.lmask
    ((regRange o.a.r ((mxM o * mxRow b.2.2 + 511) / 512)).map fun r => (r, o.a.hint))
  unfold State.mmaQueued State.mmaGroup
  rw [hx]
  rfl

/-! ### The obligation -/

theorem State.tag_nextPc (s : State) (n core t : Nat) : (s.nextPc n).tag core t = s.tag core t := rfl

/-- What a WLOAD leaves: its command, its locks, its count and the format of its tag. -/
theorem State.wloadQueued_leaves {s : State} {tag : Nat} (fmt : Byte) (blen : BitVec 2) (b128 : Bool) (tile scale : Nat)
    (hcore : s.coreOf s.cur < 192) (htag : tag < 16) :
    let t := s.wloadQueued tag fmt blen b128 tile scale
    let c := s.nextCmd tag s.cur.s.pc (.wload fmt blen b128 tile scale)
    t.cmds = s.cmds ++ [c] ∧ (t.tag (s.coreOf s.cur) tag).issued = some (fmt, blen, b128) ∧
      t.locks.length = s.locks.length + (if mxBlocks fmt b128 blen = 0 then 1 else 2) ∧
      t.cur.tokens = s.cur.tokens ++ [⟨.mx, c.id, false⟩] ∧ t.cur.s = { s.cur.s with pc := s.cur.s.pc + 8 } ∧ SameMem s t := by
  refine ⟨rfl, ?_, ?_, rfl, rfl, fun _ => rfl⟩
  · unfold State.wloadQueued
    rw [State.tag_nextPc, State.tag_enqueueCmd, State.tag_mapTag_same hcore htag]
  · refine (List.length_append).trans (congrArg (s.locks.length + ·) ?_)
    rw [List.length_map, State.length_wloadLocks]

/-- Settles O21, instruction by instruction. -/
theorem matrixInstructionsQueueOneCommand : Obligations.MatrixInstructionsQueueOneCommand := by
  unfold Obligations.MatrixInstructionsQueueOneCommand
  refine ⟨fun s tag fmt blen b128 a b hr hh herr hdying hok hta hsa ht hs hcount hqueued hroom hcore => ?_,
    fun s w o p vs g bs b => ?_, fun s o p vs g => ?_⟩
  · obtain ⟨hcmds, hissued, hlocks, htokens, hs', hmem⟩ :=
      State.wloadQueued_leaves (s := s) fmt blen b128 (s.sget a).toNat (s.sget b).toNat hcore tag.isLt
    exact ⟨_, _, wload_queues hr hh herr hdying hok hta hsa ht hs hcount hqueued hroom, hcmds, rfl, rfl, rfl, rfl, hissued, hlocks, htokens,
      hs', hmem⟩
  · rw [← mxTag_eq, ← mxM_eq, ← mxRb_eq]
    intro use f tag m rb len n base regs h hh _ hrows herr hdying hcount hread hbad hbase hstride hissued hfits hroom hreg hrange hops hbusy
      hscale
    have hrun := mma_queues h hh hrows herr hdying hcount hread hbad hbase hstride hissued hfits hroom hreg hrange hops hbusy hscale
    obtain ⟨hcmds, htokens, hpath, hdq, hregs, hmem⟩ := (State.queued_mma (b := b) h.path h.values f).next
    have hlatch := State.latch_mma h.values o f b
    refine ⟨_, _, mmaRows s o (mxRow b.2.2), hrun, hcmds, rfl, rfl, rfl, length_cutRows .., fun i hi j hj => ?_, fun hbit => ?_, fun hbit => ?_,
      htokens, List.append_nil _, hdq, hpath, hregs, hmem⟩
    · exact getD_mmaRows s o b.2.2 hi hj
    · rw [hlatch, if_pos hbit]
      rfl
    · rw [hlatch, if_neg (by rw [hbit]; exact Bool.false_ne_true)]
  · rw [← mxTag_eq, ← mxM_eq, ← mxRb_eq, ← rounding_eq]
    intro tag m rb mode queues hrows hh herr hdying hcount hqueued pops drop
    have hnext {i : Instr} {u : State} {kind : MxKind} {reads : List (BitVec 8 × Hint)} {use : LUse} (hrun : exec i s = .next u.lNext)
        (hq : Queued s u (s.nextCmd (mxTag o) s.lpc kind) p g.dq reads) (hreads : use.reads = reads) : queues i use kind := by
      obtain ⟨hcmds, htokens, hpath, hdq, hregs, hmem⟩ := hq.next
      exact ⟨_, _, hrun, hcmds, rfl, rfl, rfl, htokens, hpath, hdq, hreads ▸ hregs, hmem⟩
    refine ⟨fun h => ?_, fun h hrange hres hbusy hpow => ?_, fun base t h hvec hres hbase ht hroom hpeer => ?_⟩
    · obtain ⟨u, hrun, hq⟩ := mzero_queues hh hrows herr hdying hcount hqueued h
      exact hnext hrun hq rfl
    · obtain ⟨u, hrun, hq⟩ := mdrain_queues hh hrows herr hdying hcount hqueued h hrange hres hbusy fun r hr => by
        obtain ⟨i, hi, rfl⟩ := List.mem_map.mp hr
        exact hpow i (List.mem_range.mp hi)
      exact hnext hrun hq rfl
    · have hreads : (({ free := false, pops := pops } : LUse).withC o.c).reads = [] := LUse.reads_withC _ hvec
      subst hbase
      obtain ⟨u, hrun, hq⟩ := mdrsp_queues hh hrows herr hdying hcount hqueued h hvec hres ht hroom hpeer
      refine hnext (kind := .drain true o.vd (s.cur.c64 o vs) o.ty mode (o.mods.getLsbD 0) (o.mods.getLsbD 1)
        (drop (vs.drop (if o.c = .dq then 1 else 0))) rb m [] vs s.cur.seq) hrun ?_ hreads
      simpa [drainKind, mode, drop, rb, m] using hq

end Sys2Proof.Machine
end
